-- ==== Sys2Proof/Word.lean ====
section
/-! DEFINITION. The word types of the spec (00_scope R5, R13) and their plainest arithmetic. -/

namespace Sys2Proof

/-- One byte. -/
abbrev Byte := BitVec 8
/-- A word of 32 bits (R5). -/
abbrev Word := BitVec 32
/-- A doubleword of 64 bits (R5). -/
abbrev Dword := BitVec 64
/-- The number of a core, 0 to 1,023 (R18). -/
abbrev CoreNo := Nat
/-- A time in cycles. -/
abbrev Cycle := Nat

/-- The bits `[hi:lo]` of a word, as a number (R13). -/
def bitsOf {n : Nat} (x : BitVec n) (hi lo : Nat) : Nat := (x.toNat >>> lo) % 2 ^ (hi + 1 - lo)

/-- Bit `i` of a word as a truth value. -/
def bitAt {n : Nat} (x : BitVec n) (i : Nat) : Bool := x.getLsbD i

/-- `⌈a / b⌉` for `b > 0`. -/
def ceilDiv (a b : Nat) : Nat := (a + b - 1) / b

/-- The column sequencers of a core (06_core R165). -/
inductive Col where
  | colL
  | colC
  | colW
  deriving DecidableEq, Repr

/-- The four streams of a core, in the stream order S, L, C, W (R165, R178). -/
inductive Stream where
  | s
  | col (c : Col)
  deriving DecidableEq, Repr

/-- The code of a stream in TRAP_CAUSE.SOURCE (10_traps R302). -/
def Stream.code : Stream → Nat
  | .s => 0
  | .col .colL => 1
  | .col .colC => 2
  | .col .colW => 3

end Sys2Proof
end

