-- ==== Sys2Proof/Syntax.lean ====
section
/-! DEFINITION. The abstract syntax: one constructor of `Instr` per row of spec/opcode_table.json. Instruction words carry the fields of
11_isa_formats R333 to R342; engine and host commands carry their 64-byte records (16_isa_engines R438, 04_host_interface R116); device events
carry what the outside world or the unit that makes them supplies. -/

namespace Sys2Proof

/-- A g register number. -/
abbrev GReg := BitVec 6

/-- Format SR (R333): destination and two sources. -/
structure R3 where
  d : GReg
  a : GReg
  b : GReg
  deriving DecidableEq, Repr

/-- Format SR with one source (R334: b reserved). -/
structure R2 where
  d : GReg
  a : GReg
  deriving DecidableEq, Repr

/-- Format SI (R333). -/
structure RI where
  d : GReg
  a : GReg
  imm : BitVec 14
  deriving DecidableEq, Repr

/-- Immediate shifts (R334 major 0x06). -/
structure RSh where
  d : GReg
  a : GReg
  n : BitVec 6
  deriving DecidableEq, Repr

/-- Format SL (R333). -/
structure RL where
  d : GReg
  imm : BitVec 20
  deriving DecidableEq, Repr

/-- Immediate bit-field forms (R334 major 0x0D): `w` holds the width less 1. -/
structure RBf where
  d : GReg
  a : GReg
  w : BitVec 6
  o : BitVec 6
  deriving DecidableEq, Repr

/-- SEL (R357). -/
structure RSel where
  d : GReg
  a : GReg
  b : GReg
  f : BitVec 8
  deriving DecidableEq, Repr

/-- Format SC (R333): condition, source, second source or immediate, flag. -/
structure RCmp where
  c : BitVec 4
  a : GReg
  b : BitVec 6
  f : BitVec 10
  deriving DecidableEq, Repr

/-- XFER and XCALL (R359). -/
structure RXfer where
  m : BitVec 2
  n : BitVec 3
  f : BitVec 10
  deriving DecidableEq, Repr

/-- Register form of a flag instruction (R360): flag number in g[a], `c` for a cluster flag. -/
structure RFlag where
  a : GReg
  c : BitVec 1
  deriving DecidableEq, Repr

/-- Register form of a flag instruction with a second register (R360). -/
structure RFlagD where
  d : GReg
  a : GReg
  c : BitVec 1
  deriving DecidableEq, Repr

/-- Format SM (R333): size, space, signed offset in units of the size. -/
structure RMem where
  d : GReg
  a : GReg
  z : BitVec 2
  p : BitVec 2
  o : BitVec 10
  deriving DecidableEq, Repr

/-- LDNC (R415): the space is gl alone. -/
structure RMemNc where
  d : GReg
  a : GReg
  z : BitVec 2
  o : BitVec 10
  deriving DecidableEq, Repr

/-- ATOM (R417). -/
structure RAtom where
  d : GReg
  a : GReg
  z : BitVec 1
  o : BitVec 4
  r : BitVec 2
  s : BitVec 2
  deriving DecidableEq, Repr

/-- ACAS (R418). -/
structure RCas where
  d : GReg
  a : GReg
  b : GReg
  z : BitVec 1
  r : BitVec 2
  s : BitVec 2
  deriving DecidableEq, Repr

/-- AAGG (R419): the order is RLX or ACQ, the low bit of the order field. -/
structure RAgg where
  d : GReg
  a : GReg
  z : BitVec 1
  r : BitVec 1
  s : BitVec 2
  deriving DecidableEq, Repr

/-- RCSNAP (R420): `n` holds the count less 1. -/
structure RSnap where
  a : GReg
  b : GReg
  n : BitVec 8
  deriving DecidableEq, Repr

/-- PUSH (R435). -/
structure RPush where
  e : BitVec 6
  a : GReg
  f : BitVec 10
  deriving DecidableEq, Repr

/-- STRIP (R363). -/
structure RStrip where
  c : BitVec 2
  j : BitVec 1
  l : BitVec 2
  g : GReg
  o : BitVec 15
  deriving DecidableEq, Repr

/-- CWAIT (R364): object address and target. -/
structure RWait where
  a : GReg
  b : GReg
  deriving DecidableEq, Repr

/-- MEET (R365): form and level. -/
structure RMeet where
  f : BitVec 2
  l : BitVec 3
  deriving DecidableEq, Repr

/-- The gap of a column word (R329). -/
abbrev Gap := BitVec 4

/-- A column queue word (R338): queue and selector, in column `col`. -/
structure CQ where
  col : Col
  gap : Gap
  q : BitVec 4
  sel : BitVec 16
  deriving DecidableEq, Repr

/-- A column flag word (R338). -/
structure CF where
  col : Col
  gap : Gap
  f : BitVec 10
  deriving DecidableEq, Repr

/-- A column FWAIT (R338): `v` is the awaited value. -/
structure CFW where
  col : Col
  gap : Gap
  v : BitVec 1
  f : BitVec 10
  deriving DecidableEq, Repr

/-- NOPG (R338). -/
structure CN where
  col : Col
  gap : Gap
  n : BitVec 16
  deriving DecidableEq, Repr

/-- A vector word with two sources (R339). -/
structure V3 where
  gap : Gap
  d : BitVec 5
  a : BitVec 5
  b : BitVec 5
  k : BitVec 3
  deriving DecidableEq, Repr

/-- A vector word with one source (R339: b reserved). -/
structure V2 where
  gap : Gap
  d : BitVec 5
  a : BitVec 5
  k : BitVec 3
  deriving DecidableEq, Repr

/-- VCMP (R383). -/
structure VCmpOp where
  gap : Gap
  d : BitVec 3
  a : BitVec 5
  b : BitVec 5
  k : BitVec 3
  c : BitVec 4
  deriving DecidableEq, Repr

/-- VANY, VALL (R385). -/
structure VVote where
  gap : Gap
  f : BitVec 10
  k : BitVec 3
  deriving DecidableEq, Repr

/-- VCVT, VQUANT (R388, R389): rounding field and destination tag. -/
structure VCvtOp where
  gap : Gap
  d : BitVec 5
  a : BitVec 5
  r : BitVec 3
  k : BitVec 3
  t : BitVec 4
  deriving DecidableEq, Repr

/-- VDEQ (R390). -/
structure VDeqOp where
  gap : Gap
  d : BitVec 5
  a : BitVec 5
  k : BitVec 3
  t : BitVec 4
  deriving DecidableEq, Repr

/-- VLDI (R377). -/
structure VImm where
  gap : Gap
  d : BitVec 5
  i : BitVec 10
  k : BitVec 3
  deriving DecidableEq, Repr

/-- VSHAPE (R377): rows less 1 and log₂ of the columns. -/
structure VShapeOp where
  gap : Gap
  d : BitVec 5
  r : BitVec 5
  c : BitVec 4
  deriving DecidableEq, Repr

/-- MAND, MOR, MXOR (R391). -/
structure M3 where
  gap : Gap
  d : BitVec 3
  a : BitVec 3
  b : BitVec 3
  k : BitVec 3
  deriving DecidableEq, Repr

/-- MNOT (R391). -/
structure M2 where
  gap : Gap
  d : BitVec 3
  a : BitVec 3
  k : BitVec 3
  deriving DecidableEq, Repr

/-- MRANGE (R391): `a` names a v register. -/
structure MRng where
  gap : Gap
  d : BitVec 3
  a : BitVec 5
  k : BitVec 3
  deriving DecidableEq, Repr

/-- MMA (R397): side, fresh and close bits. -/
structure MmaOp where
  gap : Gap
  n : BitVec 2
  a : BitVec 4
  b : BitVec 4
  s : BitVec 1
  f : BitVec 1
  c : BitVec 1
  deriving DecidableEq, Repr

/-- MMAS (R398): metadata tile and M code. -/
structure MmasOp where
  gap : Gap
  n : BitVec 2
  a : BitVec 4
  b : BitVec 4
  x : BitVec 4
  m : BitVec 2
  s : BitVec 1
  f : BitVec 1
  c : BitVec 1
  deriving DecidableEq, Repr

/-- MMAG (R399): index register and row-base tile slot. -/
structure MmagOp where
  gap : Gap
  n : BitVec 2
  i : BitVec 5
  b : BitVec 4
  s : BitVec 1
  f : BitVec 1
  c : BitVec 1
  t : BitVec 7
  deriving DecidableEq, Repr

/-- A word of the matrix group that names an accumulator alone (R400). -/
structure AccOp where
  gap : Gap
  n : BitVec 2
  deriving DecidableEq, Repr

/-- A word of the matrix group that names an accumulator and a v register (R404, R405, R408, R409). -/
structure AccV where
  gap : Gap
  n : BitVec 2
  v : BitVec 5
  deriving DecidableEq, Repr

/-- SMXSTEP (R407). -/
structure SmxOp where
  gap : Gap
  n : BitVec 2
  s : BitVec 5
  p : BitVec 4
  x : BitVec 5
  b : BitVec 1
  k : BitVec 3
  f : BitVec 2
  deriving DecidableEq, Repr

/-- MADH (R406). -/
structure MadhOp where
  gap : Gap
  n : BitVec 2
  v : BitVec 5
  c : BitVec 1
  h : BitVec 1
  deriving DecidableEq, Repr

/-- LDT, LDTU, STT, STTU (R423, R424): `n` holds the requests less 1, `t` the T bit. -/
structure TimedOp where
  gap : Gap
  e : BitVec 4
  s : BitVec 7
  n : BitVec 3
  k : BitVec 3
  t : BitVec 1
  deriving DecidableEq, Repr

/-- TLD (R426). -/
structure TldOp where
  gap : Gap
  e : BitVec 4
  t : BitVec 4
  x : BitVec 1
  deriving DecidableEq, Repr

/-- VLD (R427). -/
structure VldOp where
  gap : Gap
  e : BitVec 4
  v : BitVec 5
  k : BitVec 3
  p : BitVec 2
  x : BitVec 1
  deriving DecidableEq, Repr

/-- GLD and SCT (R428, R432). -/
structure IdxOp where
  gap : Gap
  e : BitVec 4
  v : BitVec 5
  i : BitVec 5
  k : BitVec 3
  p : BitVec 2
  deriving DecidableEq, Repr

/-- BFX (R429). -/
structure BfxOp where
  gap : Gap
  e : BitVec 4
  v : BitVec 5
  p : BitVec 3
  s : BitVec 2
  deriving DecidableEq, Repr

/-- EADD, ESET (R422), in L or W. -/
structure EImm where
  col : Col
  gap : Gap
  e : BitVec 4
  p : BitVec 2
  i : BitVec 14
  deriving DecidableEq, Repr

/-- EMOV (R422). -/
structure EMovOp where
  col : Col
  gap : Gap
  e : BitVec 4
  p : BitVec 2
  s : BitVec 4
  deriving DecidableEq, Repr

/-- KVX (R430). -/
structure KvxOp where
  gap : Gap
  e : BitVec 4
  q : BitVec 4
  deriving DecidableEq, Repr

/-- WLD (R431). -/
structure WldOp where
  gap : Gap
  e : BitVec 4
  s : BitVec 7
  k : BitVec 3
  t : BitVec 1
  deriving DecidableEq, Repr

/-- TWR (R432). -/
structure TwrOp where
  gap : Gap
  e : BitVec 4
  t : BitVec 4
  deriving DecidableEq, Repr

/-- VST (R432). -/
structure VstOp where
  gap : Gap
  e : BitVec 4
  v : BitVec 5
  k : BitVec 3
  p : BitVec 2
  deriving DecidableEq, Repr

/-- ACST (R433): accumulator and destination tag. -/
structure AcstOp where
  gap : Gap
  e : BitVec 4
  n : BitVec 2
  t : BitVec 4
  deriving DecidableEq, Repr

/-- An engine command (16_isa_engines R435, R438): the pushing core, the sequence number in its queue, and the 64-byte record. -/
structure Cmd where
  core : CoreNo
  seq : BitVec 32
  bits : BitVec 512
  deriving DecidableEq, Repr

/-- A host command (04_host_interface R116): the queue it came from (16n + q, 256 for the admin queue, 257 for the mailbox) and its record. -/
structure HostCmd where
  queue : Nat
  bits : BitVec 512
  deriving DecidableEq, Repr

/-- A fabric flit on a port (03_links_trust R80): the two header words, the three line slots of 72 bytes, the GCM tag, the sequence fields and the CRC. -/
structure Flit where
  port : Nat
  hdr0 : BitVec 64
  hdr1 : BitVec 64
  slots : BitVec 1728
  gcm : BitVec 128
  seq : BitVec 16
  ack : BitVec 16
  crc : BitVec 32
  deriving DecidableEq, Repr

/-- What a MEMB flit is for (R104; log 13): a new view with its secret, its commit, a request to join or to leave, a probe or the answer to one. -/
inductive MembKind where
  | view
  | commit
  | join
  | leave
  | probe
  | answer
  deriving DecidableEq, Repr

/-- What a MEMB flit carries (R104, R106): its place in the link order; the group and its view; of a new view the members by index, the receiver's
index, the secret, and the keys of the group's worlds; of the others the node that it comes from. -/
structure Memb where
  kind : MembKind
  port : Nat
  seq : BitVec 16
  ack : BitVec 16
  group : BitVec 16
  view : BitVec 32
  members : List Nat
  domain : Bool
  member : Nat
  keys : List (Nat × Nat)
  secret : Nat
  node : Nat
  deriving DecidableEq, Repr

/-- The registers of the host BARs that a plain write may name (R10; 01 R26, 02 R70, R71, 03 R84, R103, R107, 04 R111, R121, 05 R163, 10 R320). -/
inductive MmioReg where
  | islCtl (n : Nat)
  | repairCtl
  | repairStat (h : Nat)
  | linkStat (k : Nat)
  | fabpStat (p : Nat)
  | keyStat (w : Nat)
  | grpStat (g : Nat)
  | dbgCtl (c : Nat)
  | wdogSet (c : Nat)
  | sqBase (q : Nat)
  | cqBase (q : Nat)
  | qctl (q : Nat)
  | qstat (q : Nat)
  | devStat
  | mboxArg (k : Nat)
  | mboxCmd
  | mboxStat
  /-- The submission and the completion doorbell of a queue. -/
  | sqTail (q : Nat)
  | cqHead (q : Nat)
  /-- 8 bytes of the mailbox data window. -/
  | mboxData (k : Nat)
  | reserved (offset : Nat)
  /-- A BAR0 offset of a function: VFn is function n, and PF0 function 16 (03 R76). -/
  | bar (fn : Nat) (offset : Nat)
  deriving DecidableEq, Repr

/-- What a failed link CRC struck (02_memory_tiers R58). -/
inductive CrcKind where
  | timedRead (core : CoreNo) (idx : Nat)
  | untimed (line : Nat) (retries : Nat)
  | timedWrite (line : Nat) (retries : Nat)
  deriving DecidableEq, Repr

/-- What an uncorrectable soft error struck (10_traps R296). -/
inductive SoftItem where
  | scratchLine (line : Nat)
  | vreg (n : BitVec 5)
  | treg (n : BitVec 4)
  | acc (n : BitVec 2)
  | queueEntry (q : BitVec 4) (i : Nat)
  | stripStore (c : Col)
  | readCache (line : Nat)
  | constCache (line : Nat)
  | coreState
  | engineState
  deriving DecidableEq, Repr

/-- What the supervisor decides for a held task (R298, R307): resume it, or fail it. -/
inductive SupAct where
  | resume
  | fail
  | resetPartition
  deriving DecidableEq, Repr

/-- The operands of an event of the device: what the outside world, or the unit that makes the event, supplies with it. Each event reads the fields
that its meaning names (State's field `ev`). -/
structure EvArgs where
  core : CoreNo
  col : Col
  /-- An island, channel, port, partition, world, cluster, queue, gang, page, line or list place. -/
  n : Nat
  /-- A second number. -/
  k : Nat
  /-- A value written, or a launch number. -/
  v : BitVec 64
  flag : Bool
  list : List Nat
  flit : Flit
  memb : Memb
  crc : CrcKind
  soft : SoftItem
  act : SupAct
  reg : MmioReg
  /-- The host's request came on an IDE stream (03_links_trust R78). -/
  ide : Bool
  deriving DecidableEq, Repr

/-- No operands. -/
def EvArgs.none : EvArgs :=
  { core := 0, col := .colL, n := 0, k := 0, v := 0, flag := false, list := [],
    flit := { port := 0, hdr0 := 0, hdr1 := 0, slots := 0, gcm := 0, seq := 0, ack := 0, crc := 0 },
    memb := { kind := .commit, port := 0, seq := 0, ack := 0, group := 0, view := 0, members := [], domain := false, member := 0, keys := [],
              secret := 0, node := 0 },
    crc := .untimed 0 0, soft := .coreState, act := .resume, reg := .devStat, ide := true }

/-- One instruction, command or event of the part (spec/opcode_table.json), the rule beside each. Words carry their fields and commands their records;
the operands of an event stand in State (`EvArgs`). -/
inductive Instr where
  /-- TRAP R349. -/
  | trap (code : BitVec 8)
  /-- ADD R352. -/
  | add (o : R3)
  /-- SUB R352. -/
  | sub (o : R3)
  /-- MUL R352. -/
  | mul (o : R3)
  /-- MULH R352. -/
  | mulh (o : R3)
  /-- MULHZ R352. -/
  | mulhz (o : R3)
  /-- DIV R352. -/
  | div (o : R3)
  /-- DIVZ R352. -/
  | divz (o : R3)
  /-- REM R352. -/
  | rem (o : R3)
  /-- REMZ R352. -/
  | remz (o : R3)
  /-- AND R352. -/
  | andR (o : R3)
  /-- OR R352. -/
  | orR (o : R3)
  /-- XOR R352. -/
  | xorR (o : R3)
  /-- SHL R352. -/
  | shl (o : R3)
  /-- SHR R352. -/
  | shr (o : R3)
  /-- SRA R352. -/
  | sra (o : R3)
  /-- MIN R352. -/
  | minR (o : R3)
  /-- MAX R352. -/
  | maxR (o : R3)
  /-- MINZ R352. -/
  | minz (o : R3)
  /-- MAXZ R352. -/
  | maxz (o : R3)
  /-- CLZ R352. -/
  | clz (o : R2)
  /-- CTZ R352. -/
  | ctz (o : R2)
  /-- POPC R352. -/
  | popc (o : R2)
  /-- ADDI R353. -/
  | addi (o : RI)
  /-- ANDI R353. -/
  | andi (o : RI)
  /-- ORI R353. -/
  | ori (o : RI)
  /-- XORI R353. -/
  | xori (o : RI)
  /-- SHLI R353. -/
  | shli (o : RSh)
  /-- SHRI R353. -/
  | shri (o : RSh)
  /-- SRAI R353. -/
  | srai (o : RSh)
  /-- LI R353. -/
  | li (o : RL)
  /-- LUI R353. -/
  | lui (o : RL)
  /-- LHI R353. -/
  | lhi (o : RL)
  /-- ADDPC R353. -/
  | addpc (o : RL)
  /-- FSHL R354. -/
  | fshl (o : R3)
  /-- FSHR R354. -/
  | fshr (o : R3)
  /-- BXT R355. -/
  | bxt (o : R3)
  /-- BXZ R355. -/
  | bxz (o : R3)
  /-- BINS R355. -/
  | bins (o : R3)
  /-- BXTI R355. -/
  | bxti (o : RBf)
  /-- BXZI R355. -/
  | bxzi (o : RBf)
  /-- BINSI R355. -/
  | binsi (o : RBf)
  /-- SEL R357. -/
  | sel (o : RSel)
  /-- CMP R356. -/
  | cmp (o : RCmp)
  /-- CMPI R356. -/
  | cmpi (o : RCmp)
  /-- PTGT R358. -/
  | ptgt (n : BitVec 3) (i : BitVec 20)
  /-- PTGTR R358. -/
  | ptgtr (n : BitVec 3) (a : GReg)
  /-- XFER R359. -/
  | xfer (o : RXfer)
  /-- XCALL R359. -/
  | xcall (o : RXfer)
  /-- FSET R360. -/
  | fset (f : BitVec 10)
  /-- FCLR R360. -/
  | fclr (f : BitVec 10)
  /-- FTGL R360. -/
  | ftgl (f : BitVec 10)
  /-- FTEST R360. -/
  | ftest (d : GReg) (f : BitVec 10)
  /-- FMOV R360. -/
  | fmov (d : GReg) (f : BitVec 10)
  /-- FWAIT R360. -/
  | fwait (v : BitVec 1) (f : BitVec 10)
  /-- FWAITA R360. -/
  | fwaita (f : BitVec 10)
  /-- FSET_REG R360. -/
  | fsetReg (o : RFlag)
  /-- FCLR_REG R360. -/
  | fclrReg (o : RFlag)
  /-- FTGL_REG R360. -/
  | ftglReg (o : RFlag)
  /-- FTEST_REG R360. -/
  | ftestReg (o : RFlagD)
  /-- FMOV_REG R360. -/
  | fmovReg (o : RFlagD)
  /-- FWAIT_REG R360. -/
  | fwaitReg (v : BitVec 1) (o : RFlag)
  /-- FWAITA_REG R181. -/
  | fwaitaReg (o : RFlag)
  /-- QPUT R361. -/
  | qput (a : GReg) (q : BitVec 4)
  /-- QPUT_TOKEN R361. -/
  | qputToken (q : BitVec 4)
  /-- QGET R361. -/
  | qget (d : GReg) (q : BitVec 4)
  /-- QPEEK R361. -/
  | qpeek (d : GReg) (q : BitVec 4)
  /-- QCNT R361. -/
  | qcnt (d : GReg) (q : BitVec 4)
  /-- LD R415. -/
  | ld (o : RMem)
  /-- LDZ R415. -/
  | ldz (o : RMem)
  /-- ST R415. -/
  | st (o : RMem)
  /-- LDNC R415. -/
  | ldnc (o : RMemNc)
  /-- LDSL R362. -/
  | ldsl (o : RI)
  /-- STSL R362. -/
  | stsl (o : RI)
  /-- ATOM R417. -/
  | atom (o : RAtom)
  /-- ACAS R418. -/
  | acas (o : RCas)
  /-- AAGG R419. -/
  | aagg (o : RAgg)
  /-- RCSNAP R420. -/
  | rcsnap (o : RSnap)
  /-- FENCE_ACQ R288. -/
  | fenceAcq (s : BitVec 2)
  /-- FENCE_REL R288. -/
  | fenceRel (s : BitVec 2)
  /-- FENCE_AR R288. -/
  | fenceAr (s : BitVec 2)
  /-- FENCE_SC R289. -/
  | fenceSc (s : BitVec 2)
  /-- FENCE_INV R288. -/
  | fenceInv (s : BitVec 2)
  /-- PUSH R435. -/
  | push (o : RPush)
  /-- STRIP R363. -/
  | strip (o : RStrip)
  /-- CWAIT R364. -/
  | cwait (o : RWait)
  /-- MEET R365. -/
  | meet (o : RMeet)
  /-- LAUNCH R156. -/
  | launch (o : R2)
  /-- LAUNCHW R156. -/
  | launchw (o : R2)
  /-- RINGACQ R367. -/
  | ringacq (o : R3)
  /-- RINGREL R367. -/
  | ringrel (o : R3)
  /-- MFS R368. -/
  | mfs (d : GReg) (r : BitVec 12)
  /-- MTS R368. -/
  | mts (a : GReg) (r : BitVec 12)
  /-- COL_QPUT R338. -/
  | colQput (o : CQ)
  /-- COL_QGET R338. -/
  | colQget (o : CQ)
  /-- COL_FSET R338. -/
  | colFset (o : CF)
  /-- COL_FCLR R338. -/
  | colFclr (o : CF)
  /-- COL_FWAIT R338. -/
  | colFwait (o : CFW)
  /-- NOPG R338. -/
  | nopg (o : CN)
  /-- VADD R378. -/
  | vadd (o : V3)
  /-- VSUB R378. -/
  | vsub (o : V3)
  /-- VMUL R378. -/
  | vmul (o : V3)
  /-- VMIN R378. -/
  | vmin (o : V3)
  /-- VMAX R378. -/
  | vmax (o : V3)
  /-- VABS R378. -/
  | vabs (o : V2)
  /-- VNEG R378. -/
  | vneg (o : V2)
  /-- VCPSGN R378. -/
  | vcpsgn (o : V3)
  /-- VFMA R379. -/
  | vfma (o : V3)
  /-- VFMS R379. -/
  | vfms (o : V3)
  /-- VFNMA R379. -/
  | vfnma (o : V3)
  /-- VEXP2 R380. -/
  | vexp2 (o : V2)
  /-- VLOG2 R380. -/
  | vlog2 (o : V2)
  /-- VRCP R380. -/
  | vrcp (o : V2)
  /-- VRSQ R380. -/
  | vrsq (o : V2)
  /-- VSQRT R380. -/
  | vsqrt (o : V2)
  /-- VSIGM R380. -/
  | vsigm (o : V2)
  /-- VIADD R381. -/
  | viadd (o : V3)
  /-- VISUB R381. -/
  | visub (o : V3)
  /-- VIMUL R381. -/
  | vimul (o : V3)
  /-- VIMIN R381. -/
  | vimin (o : V3)
  /-- VIMAX R381. -/
  | vimax (o : V3)
  /-- VIMINZ R381. -/
  | viminz (o : V3)
  /-- VIMAXZ R381. -/
  | vimaxz (o : V3)
  /-- VAND R381. -/
  | vand (o : V3)
  /-- VOR R381. -/
  | vor (o : V3)
  /-- VXOR R381. -/
  | vxor (o : V3)
  /-- VSHL R381. -/
  | vshl (o : V3)
  /-- VSHR R381. -/
  | vshr (o : V3)
  /-- VSRA R381. -/
  | vsra (o : V3)
  /-- VPOPC R381. -/
  | vpopc (o : V2)
  /-- VBXT R382. -/
  | vbxt (o : V3)
  /-- VBXZ R382. -/
  | vbxz (o : V3)
  /-- VBINS R382. -/
  | vbins (o : V3)
  /-- VFSHL R382. -/
  | vfshl (o : V3)
  /-- VFSHR R382. -/
  | vfshr (o : V3)
  /-- VCMP R383. -/
  | vcmp (o : VCmpOp)
  /-- VSEL R384. -/
  | vsel (o : V3)
  /-- VRSUM R386. -/
  | vrsum (o : V2)
  /-- VRMAX R386. -/
  | vrmax (o : V2)
  /-- VRMIN R386. -/
  | vrmin (o : V2)
  /-- VCSUM R386. -/
  | vcsum (o : V2)
  /-- VCMAX R386. -/
  | vcmax (o : V2)
  /-- VANY R385. -/
  | vany (o : VVote)
  /-- VALL R385. -/
  | vall (o : VVote)
  /-- VPERM R387. -/
  | vperm (o : V3)
  /-- VTRN R387. -/
  | vtrn (o : V3)
  /-- VBCAST R387. -/
  | vbcast (o : V3)
  /-- VROT R387. -/
  | vrot (o : V3)
  /-- VCVT R388. -/
  | vcvt (o : VCvtOp)
  /-- VQUANT R389. -/
  | vquant (o : VCvtOp)
  /-- VDEQ R390. -/
  | vdeq (o : VDeqOp)
  /-- VMOV R377. -/
  | vmov (o : V2)
  /-- VLDI R377. -/
  | vldi (o : VImm)
  /-- VSHAPE R377. -/
  | vshape (o : VShapeOp)
  /-- MAND R391. -/
  | mand (o : M3)
  /-- MOR R391. -/
  | mor (o : M3)
  /-- MXOR R391. -/
  | mxor (o : M3)
  /-- MNOT R391. -/
  | mnot (o : M2)
  /-- MRANGE R391. -/
  | mrange (o : MRng)
  /-- MMA R397. -/
  | mma (o : MmaOp)
  /-- MMAS R398. -/
  | mmas (o : MmasOp)
  /-- MMAG R399. -/
  | mmag (o : MmagOp)
  /-- MZERO R400. -/
  | mzero (o : AccOp)
  /-- MCLOSE R400. -/
  | mclose (o : AccOp)
  /-- MWAKE R193. -/
  | mwake (gap : Gap)
  /-- MOPEN R400. -/
  | mopen (o : AccOp)
  /-- MSHUT R400. -/
  | mshut (o : AccOp)
  /-- SMXSTEP R407. -/
  | smxstep (o : SmxOp)
  /-- SMXFIN R408. -/
  | smxfin (o : AccV)
  /-- SMXMERGE R409. -/
  | smxmerge (o : AccV)
  /-- MSTGET R405. -/
  | mstget (o : AccV)
  /-- MSTSET R405. -/
  | mstset (o : AccV)
  /-- MACC2V R404. -/
  | macc2v (o : AccV)
  /-- MV2ACC R404. -/
  | mv2acc (o : AccV)
  /-- MADH R406. -/
  | madh (o : MadhOp)
  /-- LDT R423. -/
  | ldt (o : TimedOp)
  /-- LDTU R423. -/
  | ldtu (o : TimedOp)
  /-- TLD R426. -/
  | tld (o : TldOp)
  /-- VLD R427. -/
  | vld (o : VldOp)
  /-- GLD R428. -/
  | gld (o : IdxOp)
  /-- BFX R429. -/
  | bfx (o : BfxOp)
  /-- EADD R422. -/
  | eadd (o : EImm)
  /-- ESET R422. -/
  | eset (o : EImm)
  /-- EMOV R422. -/
  | emov (o : EMovOp)
  /-- KVX R430. -/
  | kvx (o : KvxOp)
  /-- WLD R431. -/
  | wld (o : WldOp)
  /-- STT R424. -/
  | stt (o : TimedOp)
  /-- STTU R424. -/
  | sttu (o : TimedOp)
  /-- TWR R432. -/
  | twr (o : TwrOp)
  /-- VST R432. -/
  | vst (o : VstOp)
  /-- SCT R432. -/
  | sct (o : IdxOp)
  /-- ACST R433. -/
  | acst (o : AcstOp)
  /-- PART_CREATE R119. -/
  | partCreate (h : HostCmd)
  /-- PART_RESIZE R136. -/
  | partResize (h : HostCmd)
  /-- PART_DESTROY R119. -/
  | partDestroy (h : HostCmd)
  /-- PART_RESET R319. -/
  | partReset (h : HostCmd)
  /-- WORLD_CREATE R119. -/
  | worldCreate (h : HostCmd)
  /-- WORLD_DESTROY R119. -/
  | worldDestroy (h : HostCmd)
  /-- WORLD_BIND R119. -/
  | worldBind (h : HostCmd)
  /-- WORLD_UNBIND R119. -/
  | worldUnbind (h : HostCmd)
  /-- QUOTA_GET R45. -/
  | quotaGet (h : HostCmd)
  /-- QUOTA_SET R45. -/
  | quotaSet (h : HostCmd)
  /-- PAGE_ALLOC R485. -/
  | pageAlloc (h : HostCmd)
  /-- PAGE_FREE R119. -/
  | pageFree (h : HostCmd)
  /-- PREFIX_REG R131. -/
  | prefixReg (h : HostCmd)
  /-- KEY_ROTATE R100. -/
  | keyRotate (h : HostCmd)
  /-- POWER_CAP_SET R27. -/
  | powerCapSet (h : HostCmd)
  /-- FW_WRITE R92. -/
  | fwWrite (h : HostCmd)
  /-- CFG_WRITE R31. -/
  | cfgWrite (h : HostCmd)
  /-- LOG_READ R123. -/
  | logRead (h : HostCmd)
  /-- ERR_READ R123. -/
  | errRead (h : HostCmd)
  /-- RESYNC R125. -/
  | resync (h : HostCmd)
  /-- QRESET R121. -/
  | qreset (h : HostCmd)
  /-- QUEUE_LAUNCH R122. -/
  | queueLaunch (h : HostCmd)
  /-- COPY_H2D R122. -/
  | copyH2d (h : HostCmd)
  /-- COPY_D2H R122. -/
  | copyD2h (h : HostCmd)
  /-- OBJ_WAIT R122. -/
  | objWait (h : HostCmd)
  /-- COPY2D R444. -/
  | copy2d (c : Cmd)
  /-- COPYR R447. -/
  | copyr (c : Cmd)
  /-- SLATTN R220. -/
  | slattn (c : Cmd)
  /-- LGMERGE R225. -/
  | lgmerge (c : Cmd)
  /-- LGUNMERGE R227. -/
  | lgunmerge (c : Cmd)
  /-- LGSAVE R229. -/
  | lgsave (c : Cmd)
  /-- LGDROP R228. -/
  | lgdrop (c : Cmd)
  /-- ADPIN R204. -/
  | adpin (c : Cmd)
  /-- ADUNPIN R203. -/
  | adunpin (c : Cmd)
  /-- ADPUB_CREATE R201. -/
  | adpubCreate (c : Cmd)
  /-- ADPUB_GRANT R451. -/
  | adpubGrant (c : Cmd)
  /-- ADPUB_PREPARE R201. -/
  | adpubPrepare (c : Cmd)
  /-- ADPUB_COMMIT R207. -/
  | adpubCommit (c : Cmd)
  /-- ADPUB_DELETE R201. -/
  | adpubDelete (c : Cmd)
  /-- KALLOC R218. -/
  | kalloc (c : Cmd)
  /-- KALLOC_POOL R452. -/
  | kallocPool (c : Cmd)
  /-- KEXTEND_ALLOC R218. -/
  | kextendAlloc (c : Cmd)
  /-- KEXTEND_SHARE R218. -/
  | kextendShare (c : Cmd)
  /-- KEXTEND_SETLEN R218. -/
  | kextendSetlen (c : Cmd)
  /-- KFREE R218. -/
  | kfree (c : Cmd)
  /-- MIGRATE R65. -/
  | migrate (c : Cmd)
  /-- MIGRATE_REPLICA R43. -/
  | migrateReplica (c : Cmd)
  /-- MIGRATE_CANCEL R67. -/
  | migrateCancel (c : Cmd)
  /-- COLRED R455. -/
  | colred (c : Cmd)
  /-- COLGAT R455. -/
  | colgat (c : Cmd)
  /-- COLSCAT R455. -/
  | colscat (c : Cmd)
  /-- WLOAD R456. -/
  | wload (c : Cmd)
  /-- NOP R349. -/
  | nop
  /-- ERET R300. -/
  | eret
  /-- YIELD R351. -/
  | yieldGang
  /-- EXIT R350. -/
  | exit
  /-- BREAK R349. -/
  | brk
  /-- POWER_ON_RESET R30. -/
  | powerOnReset
  /-- HOT_RESET R108. -/
  | hotReset
  /-- POWER_TRIP R29. -/
  | powerTrip
  /-- POWER_TRIP_RELEASE R29. -/
  | powerTripRelease
  /-- THERMAL_POWER_OFF R29. -/
  | thermalPowerOff
  /-- GOVERNOR_WINDOW R28: measured power; compute islands by falling draw. -/
  | governorWindow
  /-- ISL_CTL_TGT_WRITE R23. -/
  | islCtlTgtWrite
  /-- DRAIN_COMPLETE R23. -/
  | drainComplete
  /-- ISLAND_ABANDON R24. -/
  | islandAbandon
  /-- RELOCK_END R23. -/
  | relockEnd
  /-- STROKE_TICK R289. -/
  | strokeTick
  /-- WEIGHTS_LATE R146. -/
  | weightsLate
  /-- AGEING_PROMOTION R152. -/
  | ageingPromotion
  /-- WATCHDOG_EXPIRY R162. -/
  | watchdogExpiry
  /-- GANG_DISPATCH R150. -/
  | gangDispatch
  /-- WIDE_GANG_START R151. -/
  | wideGangStart
  /-- PREEMPTION_SAVE R158. -/
  | preemptionSave
  /-- LAUNCH_END R148. -/
  | launchEnd
  /-- BARRIER_COMPLETE R142: the gang of a level, by its instance number. -/
  | barrierComplete
  /-- STRIP_BODY_LOAD R170. -/
  | stripBodyLoad
  /-- STRIP_GROUP_START R171. -/
  | stripGroupStart
  /-- STRIP_REPEAT_END R172. -/
  | stripRepeatEnd
  /-- SLOT_DONATION R55. -/
  | slotDonation
  /-- SLOT_MISS R54. -/
  | slotMiss
  /-- TIMED_READ_DELIVERY R53. -/
  | timedReadDelivery
  /-- TIMED_WRITE_ACCEPT R53. -/
  | timedWriteAccept
  /-- UNTIMED_LOAD_ARRIVAL R427. -/
  | untimedLoadArrival
  /-- STORE_PERFORMED R432: the next line of the core's oldest store. -/
  | storePerformed
  /-- LINK_CRC_FAIL R58. -/
  | linkCrcFail
  /-- VOID_WINDOW_START R72. -/
  | voidWindowStart
  /-- REPAIR_END R72. -/
  | repairEnd
  /-- ERROR_WINDOW_BOUNDARY R71. -/
  | errorWindowBoundary
  /-- CXL_DOWN R79. -/
  | cxlDown
  /-- CXL_RETRAIN R79. -/
  | cxlRetrain
  /-- CXL_POISON_REPORT R62. -/
  | cxlPoisonReport
  /-- MIGRATION_START R64. -/
  | migrationStart
  /-- MIGRATION_SWITCH R65. -/
  | migrationSwitch
  /-- MIGRATION_ABANDON R67. -/
  | migrationAbandon
  /-- SWEEP_START R100. -/
  | sweepStart
  /-- SWEEP_LINE R100. -/
  | sweepLine
  /-- PREFIX_REFETCH R131. -/
  | prefixRefetch
  /-- HOST_LINK_DOWN R109. -/
  | hostLinkDown
  /-- HOST_LINK_RETRAIN R110. -/
  | hostLinkRetrain
  /-- HOST_LINK_LOST R110. -/
  | hostLinkLost
  /-- IDE_CHECK_FAIL R78. -/
  | ideCheckFail
  /-- LOCK_INTERFACE R78. -/
  | lockInterface
  /-- START_INTERFACE R78. -/
  | startInterface
  /-- STOP_INTERFACE R78. -/
  | stopInterface
  /-- SPDM_GET_MEASUREMENTS R91. -/
  | spdmGetMeasurements
  /-- SPDM_KEY_EXCHANGE R91: whether the peer accepts an offered algorithm of each kind. -/
  | spdmKeyExchange
  /-- IDE_KM_KEY_PROG R75: 0 link stream, 1 + function number a selective stream. -/
  | ideKmKeyProg
  /-- NULL R81. -/
  | null
  /-- LD_REQ R88. -/
  | ldReq
  /-- LD_RSP R88. -/
  | ldRsp
  /-- ATOM_REQ R87. -/
  | atomReq
  /-- ATOM_RSP R88. -/
  | atomRsp
  /-- NACK R88. -/
  | nack
  /-- REMOTE_RETRY R88. -/
  | remoteRetry
  /-- COPY_DATA R89. -/
  | copyData
  /-- COPY_ACK R447. -/
  | copyAck
  /-- COL_DATA R455. -/
  | colData
  /-- MEMB R104. -/
  | memb
  /-- MEMBER_LOST R104. -/
  | memberLost
  /-- FLIT_CHECK_FAIL R82. -/
  | flitCheckFail
  /-- PORT_RETRAIN R82. -/
  | portRetrain
  /-- LINK_REKEY R83. -/
  | linkRekey
  /-- SQ_TAIL_WRITE R114. -/
  | sqTailWrite
  /-- CQ_HEAD_WRITE R114. -/
  | cqHeadWrite
  /-- QCTL_EN_SET R112. -/
  | qctlEnSet
  /-- QCTL_EN_CLEAR R114. -/
  | qctlEnClear
  /-- HOST_COMMAND_COMPLETE R115. -/
  | hostCommandComplete
  /-- WDOG_SET_APPLY R163. -/
  | wdogSetApply
  /-- DBG_STOP R321. -/
  | dbgStop
  /-- DBG_RESUME R320. -/
  | dbgResume
  /-- FABP_STAT_READ R84. -/
  | fabpStatRead
  /-- REGISTER_WRITE R10. -/
  | registerWrite
  /-- TRAP_ENTRY R299. -/
  | trapEntry
  /-- SUPERVISOR_RESOLVE R307. -/
  | supervisorResolve
  /-- TRANSLATION_WALK_DONE R413. -/
  | translationWalkDone
  /-- SOFT_ERROR R296. -/
  | softError
  /-- AAGG_WINDOW_CLOSE R232. -/
  | aaggWindowClose
  /-- SUBARRAY_GATE R193. -/
  | subarrayGate
  /-- COMMAND_END R440: by its place among the running commands. -/
  | commandEnd
  /-- FOLLOW_ON_ISSUE R401. -/
  | followOnIssue
  /-- MIGRATION_LINE_COPY R65. -/
  | migrationLineCopy
  /-- REFETCHING_MARK_CLEAR R131. -/
  | refetchingMarkClear
  deriving DecidableEq, Repr

end Sys2Proof
end

