-- ==== Sys2Proof/WellFormed.lean ====
section
/-! DEFINITION. Which instructions are well formed: the checks of 11_isa_formats R332 that the field widths of Syntax do not already make, and the
ranges of the numbers that an event names. -/

namespace Sys2Proof

/-- Why a word is no instruction (R332), or an event names nothing (`range`). -/
inductive Reject where
  /-- The all-zero word. -/
  | allZero
  /-- A major that the stream's map does not list. -/
  | major
  /-- A selector value that the map does not assign, or a reserved field that is not 0. -/
  | field
  /-- An unassigned condition code. -/
  | condition
  /-- An unassigned mode of XFER or XCALL, or a flag in mode 0. -/
  | mode
  /-- An unassigned operation. -/
  | operation
  /-- A space code that the instruction does not accept. -/
  | space
  /-- A scope that the instruction does not accept. -/
  | scope
  /-- An engine id that R343 does not assign. -/
  | engine
  /-- A PUSH base that is not a multiple of 8. -/
  | pushBase
  /-- Column 0 or alignment 3 of STRIP. -/
  | strip
  /-- A system register number that R336 does not assign. -/
  | sysReg
  /-- A payload selector of R338 that is unassigned or outside its column. -/
  | selector
  /-- A format tag or rounding that the word does not accept. -/
  | tag
  /-- A shape of more than 2,048 elements (R377). -/
  | shape
  /-- Code 3 of the M field of MMAS. -/
  | sparsity
  /-- An e register of the other column, or part code 3. -/
  | eReg
  /-- An event that names a core, island, channel, port, partition, world or queue that does not exist. -/
  | range
  deriving DecidableEq, Repr

/-- A reason, where a check fails. -/
def rejectIf (r : Reject) (p : Prop) [Decidable p] : Option Reject := if p then some r else none

/-- The engine ids of R343. -/
def engineIds : List Nat := [0x00, 0x01, 0x08, 0x10, 0x11, 0x12, 0x13, 0x14, 0x15, 0x16]

/-- The system register numbers of R336. -/
def sysRegNumbers : List Nat :=
  [0x000, 0x001, 0x002, 0x010, 0x011, 0x012, 0x013, 0x020, 0x028, 0x029, 0x02A, 0x02B, 0x02C, 0x02D, 0x02E, 0x02F, 0x030, 0x031,
   0x040, 0x041, 0x042, 0x043, 0x044, 0x045, 0x050, 0x051, 0x052, 0x060, 0x061, 0x062, 0x063, 0x064]

/-- The destination tags of VCVT (R339). -/
def cvtTags : List Nat := [1, 2, 3, 4, 5, 9, 10, 11, 12, 13]
/-- The destination tags of VQUANT (R339). -/
def quantTags : List Nat := [6, 7, 8]
/-- The destination tags of VDEQ (R339). -/
def deqTags : List Nat := [1, 2, 3]
/-- The destination tags of ACST (R433). -/
def storeTags : List Nat := [1, 2, 3, 4, 5, 9, 10, 11, 12]

/-- e0 to e7 belong to L, e8 to e15 to W (R325). -/
def eRegOk (c : Col) (e : BitVec 4) : Bool :=
  match c with
  | .colL => e.toNat < 8
  | .colC => false
  | .colW => 8 ≤ e.toNat

/-- The payload selectors of R338. -/
def selectorOk (c : Col) (sel : BitVec 16) : Bool :=
  let cls := sel.toNat / 8192
  let rest := sel.toNat % 8192
  if cls = 0 then rest = 0
  else if cls = 1 then rest < 16 && eRegOk c (BitVec.ofNat 4 rest)
  else if cls = 2 then rest < 32 && c = .colC
  else if cls = 3 then rest < 32 && c = .colC
  else false

/-- XFER and XCALL: mode 3 is unassigned; the flag is reserved in mode 0 (R334). -/
def rejectXfer (o : RXfer) : Option Reject := rejectIf .mode (o.m = 3 ∨ (o.m = 0 ∧ o.f ≠ 0))

/-- PUSH (R332, R343). -/
def rejectPush (o : RPush) : Option Reject :=
  (rejectIf .engine (o.e.toNat ∉ engineIds)).orElse fun _ => rejectIf .pushBase (o.a.toNat % 8 ≠ 0)

/-- STRIP (R334). -/
def rejectStrip (o : RStrip) : Option Reject := rejectIf .strip (o.c = 0 ∨ o.l = 3)

/-- VCVT and VQUANT: destination tag, and rounding field 0 to 5 (R339). -/
def rejectCvt (o : VCvtOp) (tags : List Nat) : Option Reject := rejectIf .tag (o.t.toNat ∉ tags ∨ 6 ≤ o.r.toNat)

/-- EADD, ESET and EMOV: in L or W, on a register of the column, part 0 to 2 (R341). -/
def rejectE (c : Col) (e : BitVec 4) (p : BitVec 2) : Option Reject := rejectIf .eReg (¬ eRegOk c e ∨ p = 3)

/-- Why an instruction is not well formed, none where it is. -/
def reject? : Instr → Option Reject
  | .trap _ => none
  | .add _ => none
  | .sub _ => none
  | .mul _ => none
  | .mulh _ => none
  | .mulhz _ => none
  | .div _ => none
  | .divz _ => none
  | .rem _ => none
  | .remz _ => none
  | .andR _ => none
  | .orR _ => none
  | .xorR _ => none
  | .shl _ => none
  | .shr _ => none
  | .sra _ => none
  | .minR _ => none
  | .maxR _ => none
  | .minz _ => none
  | .maxz _ => none
  | .clz _ => none
  | .ctz _ => none
  | .popc _ => none
  | .addi _ => none
  | .andi _ => none
  | .ori _ => none
  | .xori _ => none
  | .shli _ => none
  | .shri _ => none
  | .srai _ => none
  | .li _ => none
  | .lui _ => none
  | .lhi _ => none
  | .addpc _ => none
  | .fshl _ => none
  | .fshr _ => none
  | .bxt _ => none
  | .bxz _ => none
  | .bins _ => none
  | .bxti _ => none
  | .bxzi _ => none
  | .binsi _ => none
  | .sel _ => none
  | .cmp o => rejectIf .condition (8 ≤ o.c.toNat)
  | .cmpi o => rejectIf .condition (8 ≤ o.c.toNat)
  | .ptgt _ _ => none
  | .ptgtr _ _ => none
  | .xfer o => rejectXfer o
  | .xcall o => rejectXfer o
  | .fset _ => none
  | .fclr _ => none
  | .ftgl _ => none
  | .ftest _ _ => none
  | .fmov _ _ => none
  | .fwait _ _ => none
  | .fwaita _ => none
  | .fsetReg _ => none
  | .fclrReg _ => none
  | .ftglReg _ => none
  | .ftestReg _ => none
  | .fmovReg _ => none
  | .fwaitReg _ _ => none
  | .fwaitaReg _ => none
  | .qput _ _ => none
  | .qputToken _ => none
  | .qget _ _ => none
  | .qpeek _ _ => none
  | .qcnt _ _ => none
  | .ld _ => none
  | .ldz _ => none
  | .st o => rejectIf .space (o.p = 3)
  | .ldnc _ => none
  | .ldsl _ => none
  | .stsl _ => none
  | .atom o => rejectIf .operation (9 ≤ o.o.toNat)
  | .acas _ => none
  | .aagg _ => none
  | .rcsnap _ => none
  | .fenceAcq _ => none
  | .fenceRel _ => none
  | .fenceAr _ => none
  | .fenceSc s => rejectIf .scope (s = 0 ∨ s = 3)
  | .fenceInv _ => none
  | .push o => rejectPush o
  | .strip o => rejectStrip o
  | .cwait _ => none
  | .meet _ => none
  | .launch _ => none
  | .launchw _ => none
  | .ringacq _ => none
  | .ringrel _ => none
  | .mfs _ r => rejectIf .sysReg (r.toNat ∉ sysRegNumbers)
  | .mts _ r => rejectIf .sysReg (r.toNat ∉ sysRegNumbers)
  | .colQput o => rejectIf .selector (¬ selectorOk o.col o.sel)
  | .colQget o => rejectIf .selector (¬ selectorOk o.col o.sel)
  | .colFset _ => none
  | .colFclr _ => none
  | .colFwait _ => none
  | .nopg _ => none
  | .vadd _ => none
  | .vsub _ => none
  | .vmul _ => none
  | .vmin _ => none
  | .vmax _ => none
  | .vabs _ => none
  | .vneg _ => none
  | .vcpsgn _ => none
  | .vfma _ => none
  | .vfms _ => none
  | .vfnma _ => none
  | .vexp2 _ => none
  | .vlog2 _ => none
  | .vrcp _ => none
  | .vrsq _ => none
  | .vsqrt _ => none
  | .vsigm _ => none
  | .viadd _ => none
  | .visub _ => none
  | .vimul _ => none
  | .vimin _ => none
  | .vimax _ => none
  | .viminz _ => none
  | .vimaxz _ => none
  | .vand _ => none
  | .vor _ => none
  | .vxor _ => none
  | .vshl _ => none
  | .vshr _ => none
  | .vsra _ => none
  | .vpopc _ => none
  | .vbxt _ => none
  | .vbxz _ => none
  | .vbins _ => none
  | .vfshl _ => none
  | .vfshr _ => none
  | .vcmp o => rejectIf .condition (7 ≤ o.c.toNat)
  | .vsel _ => none
  | .vrsum _ => none
  | .vrmax _ => none
  | .vrmin _ => none
  | .vcsum _ => none
  | .vcmax _ => none
  | .vany _ => none
  | .vall _ => none
  | .vperm _ => none
  | .vtrn _ => none
  | .vbcast _ => none
  | .vrot _ => none
  | .vcvt o => rejectCvt o cvtTags
  | .vquant o => rejectCvt o quantTags
  | .vdeq o => rejectIf .tag (o.t.toNat ∉ deqTags)
  | .vmov _ => none
  | .vldi _ => none
  | .vshape o => rejectIf .shape (2048 < (o.r.toNat + 1) * 2 ^ o.c.toNat ∨ 11 < o.c.toNat)
  | .mand _ => none
  | .mor _ => none
  | .mxor _ => none
  | .mnot _ => none
  | .mrange _ => none
  | .mma _ => none
  | .mmas o => rejectIf .sparsity (o.m = 3)
  | .mmag _ => none
  | .mzero _ => none
  | .mclose _ => none
  | .mwake _ => none
  | .mopen _ => none
  | .mshut _ => none
  | .smxstep _ => none
  | .smxfin _ => none
  | .smxmerge _ => none
  | .mstget _ => none
  | .mstset _ => none
  | .macc2v _ => none
  | .mv2acc _ => none
  | .madh o => rejectIf .operation (o.c = 0 ∧ o.h = 0)
  | .ldt o => rejectIf .eReg (¬ eRegOk .colL o.e)
  | .ldtu o => rejectIf .eReg (¬ eRegOk .colL o.e)
  | .tld o => rejectIf .eReg (¬ eRegOk .colL o.e)
  | .vld o => (rejectIf .eReg (¬ eRegOk .colL o.e)).orElse fun _ => rejectIf .space (o.p = 3)
  | .gld o => (rejectIf .eReg (¬ eRegOk .colL o.e)).orElse fun _ => rejectIf .space (2 ≤ o.p.toNat)
  | .bfx o => (rejectIf .eReg (¬ eRegOk .colL o.e)).orElse fun _ => rejectIf .space (2 ≤ o.s.toNat)
  | .eadd o => rejectE o.col o.e o.p
  | .eset o => rejectE o.col o.e o.p
  | .emov o => (rejectE o.col o.e o.p).orElse fun _ => rejectIf .eReg (¬ eRegOk o.col o.s)
  | .kvx o => rejectIf .eReg (¬ eRegOk .colL o.e)
  | .wld o => rejectIf .eReg (¬ eRegOk .colL o.e)
  | .stt o => rejectIf .eReg (¬ eRegOk .colW o.e)
  | .sttu o => rejectIf .eReg (¬ eRegOk .colW o.e)
  | .twr o => rejectIf .eReg (¬ eRegOk .colW o.e)
  | .vst o => (rejectIf .eReg (¬ eRegOk .colW o.e)).orElse fun _ => rejectIf .space (o.p = 3)
  | .sct o => (rejectIf .eReg (¬ eRegOk .colW o.e)).orElse fun _ => rejectIf .space (o.p = 3)
  | .acst o => (rejectIf .eReg (¬ eRegOk .colW o.e)).orElse fun _ => rejectIf .tag (o.t.toNat ∉ storeTags)
  | .partCreate h => rejectIf .range (258 ≤ h.queue)
  | .partResize h => rejectIf .range (258 ≤ h.queue)
  | .partDestroy h => rejectIf .range (258 ≤ h.queue)
  | .partReset h => rejectIf .range (258 ≤ h.queue)
  | .worldCreate h => rejectIf .range (258 ≤ h.queue)
  | .worldDestroy h => rejectIf .range (258 ≤ h.queue)
  | .worldBind h => rejectIf .range (258 ≤ h.queue)
  | .worldUnbind h => rejectIf .range (258 ≤ h.queue)
  | .quotaGet h => rejectIf .range (258 ≤ h.queue)
  | .quotaSet h => rejectIf .range (258 ≤ h.queue)
  | .pageAlloc h => rejectIf .range (258 ≤ h.queue)
  | .pageFree h => rejectIf .range (258 ≤ h.queue)
  | .prefixReg h => rejectIf .range (258 ≤ h.queue)
  | .keyRotate h => rejectIf .range (258 ≤ h.queue)
  | .powerCapSet h => rejectIf .range (258 ≤ h.queue)
  | .fwWrite h => rejectIf .range (258 ≤ h.queue)
  | .cfgWrite h => rejectIf .range (258 ≤ h.queue)
  | .logRead h => rejectIf .range (258 ≤ h.queue)
  | .errRead h => rejectIf .range (258 ≤ h.queue)
  | .resync h => rejectIf .range (258 ≤ h.queue)
  | .qreset h => rejectIf .range (258 ≤ h.queue)
  | .queueLaunch h => rejectIf .range (258 ≤ h.queue)
  | .copyH2d h => rejectIf .range (258 ≤ h.queue)
  | .copyD2h h => rejectIf .range (258 ≤ h.queue)
  | .objWait h => rejectIf .range (258 ≤ h.queue)
  | .copy2d c => rejectIf .range (1024 ≤ c.core)
  | .copyr c => rejectIf .range (1024 ≤ c.core)
  | .slattn c => rejectIf .range (1024 ≤ c.core)
  | .lgmerge c => rejectIf .range (1024 ≤ c.core)
  | .lgunmerge c => rejectIf .range (1024 ≤ c.core)
  | .lgsave c => rejectIf .range (1024 ≤ c.core)
  | .lgdrop c => rejectIf .range (1024 ≤ c.core)
  | .adpin c => rejectIf .range (1024 ≤ c.core)
  | .adunpin c => rejectIf .range (1024 ≤ c.core)
  | .adpubCreate c => rejectIf .range (1024 ≤ c.core)
  | .adpubGrant c => rejectIf .range (1024 ≤ c.core)
  | .adpubPrepare c => rejectIf .range (1024 ≤ c.core)
  | .adpubCommit c => rejectIf .range (1024 ≤ c.core)
  | .adpubDelete c => rejectIf .range (1024 ≤ c.core)
  | .kalloc c => rejectIf .range (1024 ≤ c.core)
  | .kallocPool c => rejectIf .range (1024 ≤ c.core)
  | .kextendAlloc c => rejectIf .range (1024 ≤ c.core)
  | .kextendShare c => rejectIf .range (1024 ≤ c.core)
  | .kextendSetlen c => rejectIf .range (1024 ≤ c.core)
  | .kfree c => rejectIf .range (1024 ≤ c.core)
  | .migrate c => rejectIf .range (1024 ≤ c.core)
  | .migrateReplica c => rejectIf .range (1024 ≤ c.core)
  | .migrateCancel c => rejectIf .range (1024 ≤ c.core)
  | .colred c => rejectIf .range (1024 ≤ c.core)
  | .colgat c => rejectIf .range (1024 ≤ c.core)
  | .colscat c => rejectIf .range (1024 ≤ c.core)
  | .wload c => rejectIf .range (1024 ≤ c.core)
  | .nop => none
  | .eret => none
  | .yieldGang => none
  | .exit => none
  | .brk => none
  | .powerOnReset => none
  | .hotReset => none
  | .powerTrip => none
  | .powerTripRelease => none
  | .thermalPowerOff => none
  | .governorWindow => none
  | .islCtlTgtWrite => none
  | .drainComplete => none
  | .islandAbandon => none
  | .relockEnd => none
  | .strokeTick => none
  | .weightsLate => none
  | .ageingPromotion => none
  | .watchdogExpiry => none
  | .gangDispatch => none
  | .wideGangStart => none
  | .preemptionSave => none
  | .launchEnd => none
  | .barrierComplete => none
  | .stripBodyLoad => none
  | .stripGroupStart => none
  | .stripRepeatEnd => none
  | .slotDonation => none
  | .slotMiss => none
  | .timedReadDelivery => none
  | .timedWriteAccept => none
  | .untimedLoadArrival => none
  | .storePerformed => none
  | .linkCrcFail => none
  | .voidWindowStart => none
  | .repairEnd => none
  | .errorWindowBoundary => none
  | .cxlDown => none
  | .cxlRetrain => none
  | .cxlPoisonReport => none
  | .migrationStart => none
  | .migrationSwitch => none
  | .migrationAbandon => none
  | .sweepStart => none
  | .sweepLine => none
  | .prefixRefetch => none
  | .hostLinkDown => none
  | .hostLinkRetrain => none
  | .hostLinkLost => none
  | .ideCheckFail => none
  | .lockInterface => none
  | .startInterface => none
  | .stopInterface => none
  | .spdmGetMeasurements => none
  | .spdmKeyExchange => none
  | .ideKmKeyProg => none
  | .null => none
  | .ldReq => none
  | .ldRsp => none
  | .atomReq => none
  | .atomRsp => none
  | .nack => none
  | .remoteRetry => none
  | .copyData => none
  | .copyAck => none
  | .colData => none
  | .memb => none
  | .memberLost => none
  | .flitCheckFail => none
  | .portRetrain => none
  | .linkRekey => none
  | .sqTailWrite => none
  | .cqHeadWrite => none
  | .qctlEnSet => none
  | .qctlEnClear => none
  | .hostCommandComplete => none
  | .wdogSetApply => none
  | .dbgStop => none
  | .dbgResume => none
  | .fabpStatRead => none
  | .registerWrite => none
  | .trapEntry => none
  | .supervisorResolve => none
  | .translationWalkDone => none
  | .softError => none
  | .aaggWindowClose => none
  | .subarrayGate => none
  | .commandEnd => none
  | .followOnIssue => none
  | .migrationLineCopy => none
  | .refetchingMarkClear => none

/-- An instruction is well formed. -/
def WellFormed (i : Instr) : Prop := reject? i = none

end Sys2Proof
end

