-- ==== Sys2Proof/Decode.lean ====
section
/-! DEFINITION. The decoder of the four streams (11_isa_formats R332 to R342), and the encoder written from the same tables. Each stream has its own
opcode space. -/

namespace Sys2Proof

/-- What a word decodes to. -/
inductive Decoded where
  | ok (i : Instr)
  | error (r : Reject)
  deriving DecidableEq, Repr

/-- The field of `len` bits from bit `lo` of a word, given as a number. -/
def fld (w : Nat) (lo len : Nat) : BitVec len := BitVec.ofNat len (w / 2 ^ lo)

/-- The same field as a number. -/
def fldN (w : Nat) (lo len : Nat) : Nat := w / 2 ^ lo % 2 ^ len

/-- Fields laid side by side: each value at its lowest bit. -/
def pack : List (Nat × Nat) → Nat
  | [] => 0
  | (lo, v) :: rest => v * 2 ^ lo + pack rest

/-- Words of the major: NOP, TRAP, ERET, YIELD, EXIT, BREAK. -/
def decS00 (w : Nat) : Decoded :=
  if fldN w 0 26 = 1 then .ok .nop
  else if fldN w 0 8 = 2 ∧ fldN w 16 10 = 0 then .ok (.trap (fld w 8 8))
  else if fldN w 0 26 = 3 then .ok .eret
  else if fldN w 0 26 = 4 then .ok .yieldGang
  else if fldN w 0 26 = 5 then .ok .exit
  else if fldN w 0 26 = 6 then .ok .brk
  else .error .field

/-- Words of the major: ADD, SUB, MUL, MULH, MULHZ, DIV, DIVZ, REM, REMZ, AND, OR, XOR, SHL, SHR, SRA, MIN, MAX, MINZ, MAXZ, CLZ, CTZ, POPC. -/
def decS01 (w : Nat) : Decoded :=
  if fldN w 0 8 = 0 then .ok (.add ⟨fld w 20 6, fld w 14 6, fld w 8 6⟩)
  else if fldN w 0 8 = 1 then .ok (.sub ⟨fld w 20 6, fld w 14 6, fld w 8 6⟩)
  else if fldN w 0 8 = 2 then .ok (.mul ⟨fld w 20 6, fld w 14 6, fld w 8 6⟩)
  else if fldN w 0 8 = 3 then .ok (.mulh ⟨fld w 20 6, fld w 14 6, fld w 8 6⟩)
  else if fldN w 0 8 = 4 then .ok (.mulhz ⟨fld w 20 6, fld w 14 6, fld w 8 6⟩)
  else if fldN w 0 8 = 5 then .ok (.div ⟨fld w 20 6, fld w 14 6, fld w 8 6⟩)
  else if fldN w 0 8 = 6 then .ok (.divz ⟨fld w 20 6, fld w 14 6, fld w 8 6⟩)
  else if fldN w 0 8 = 7 then .ok (.rem ⟨fld w 20 6, fld w 14 6, fld w 8 6⟩)
  else if fldN w 0 8 = 8 then .ok (.remz ⟨fld w 20 6, fld w 14 6, fld w 8 6⟩)
  else if fldN w 0 8 = 16 then .ok (.andR ⟨fld w 20 6, fld w 14 6, fld w 8 6⟩)
  else if fldN w 0 8 = 17 then .ok (.orR ⟨fld w 20 6, fld w 14 6, fld w 8 6⟩)
  else if fldN w 0 8 = 18 then .ok (.xorR ⟨fld w 20 6, fld w 14 6, fld w 8 6⟩)
  else if fldN w 0 8 = 24 then .ok (.shl ⟨fld w 20 6, fld w 14 6, fld w 8 6⟩)
  else if fldN w 0 8 = 25 then .ok (.shr ⟨fld w 20 6, fld w 14 6, fld w 8 6⟩)
  else if fldN w 0 8 = 26 then .ok (.sra ⟨fld w 20 6, fld w 14 6, fld w 8 6⟩)
  else if fldN w 0 8 = 32 then .ok (.minR ⟨fld w 20 6, fld w 14 6, fld w 8 6⟩)
  else if fldN w 0 8 = 33 then .ok (.maxR ⟨fld w 20 6, fld w 14 6, fld w 8 6⟩)
  else if fldN w 0 8 = 34 then .ok (.minz ⟨fld w 20 6, fld w 14 6, fld w 8 6⟩)
  else if fldN w 0 8 = 35 then .ok (.maxz ⟨fld w 20 6, fld w 14 6, fld w 8 6⟩)
  else if fldN w 0 14 = 40 then .ok (.clz ⟨fld w 20 6, fld w 14 6⟩)
  else if fldN w 0 14 = 41 then .ok (.ctz ⟨fld w 20 6, fld w 14 6⟩)
  else if fldN w 0 14 = 42 then .ok (.popc ⟨fld w 20 6, fld w 14 6⟩)
  else .error .field

/-- Words of the major: ADDI. -/
def decS02 (w : Nat) : Decoded :=
  .ok (.addi ⟨fld w 20 6, fld w 14 6, fld w 0 14⟩)

/-- Words of the major: ANDI. -/
def decS03 (w : Nat) : Decoded :=
  .ok (.andi ⟨fld w 20 6, fld w 14 6, fld w 0 14⟩)

/-- Words of the major: ORI. -/
def decS04 (w : Nat) : Decoded :=
  .ok (.ori ⟨fld w 20 6, fld w 14 6, fld w 0 14⟩)

/-- Words of the major: XORI. -/
def decS05 (w : Nat) : Decoded :=
  .ok (.xori ⟨fld w 20 6, fld w 14 6, fld w 0 14⟩)

/-- Words of the major: SHLI, SHRI, SRAI. -/
def decS06 (w : Nat) : Decoded :=
  if fldN w 6 8 = 0 then .ok (.shli ⟨fld w 20 6, fld w 14 6, fld w 0 6⟩)
  else if fldN w 6 8 = 64 then .ok (.shri ⟨fld w 20 6, fld w 14 6, fld w 0 6⟩)
  else if fldN w 6 8 = 128 then .ok (.srai ⟨fld w 20 6, fld w 14 6, fld w 0 6⟩)
  else .error .field

/-- Words of the major: LI. -/
def decS07 (w : Nat) : Decoded :=
  .ok (.li ⟨fld w 20 6, fld w 0 20⟩)

/-- Words of the major: LUI. -/
def decS08 (w : Nat) : Decoded :=
  .ok (.lui ⟨fld w 20 6, fld w 0 20⟩)

/-- Words of the major: LHI. -/
def decS09 (w : Nat) : Decoded :=
  .ok (.lhi ⟨fld w 20 6, fld w 0 20⟩)

/-- Words of the major: ADDPC. -/
def decS0a (w : Nat) : Decoded :=
  .ok (.addpc ⟨fld w 20 6, fld w 0 20⟩)

/-- Words of the major: FSHL, FSHR. -/
def decS0b (w : Nat) : Decoded :=
  if fldN w 0 8 = 0 then .ok (.fshl ⟨fld w 20 6, fld w 14 6, fld w 8 6⟩)
  else if fldN w 0 8 = 1 then .ok (.fshr ⟨fld w 20 6, fld w 14 6, fld w 8 6⟩)
  else .error .field

/-- Words of the major: BXT, BXZ, BINS. -/
def decS0c (w : Nat) : Decoded :=
  if fldN w 0 8 = 0 then .ok (.bxt ⟨fld w 20 6, fld w 14 6, fld w 8 6⟩)
  else if fldN w 0 8 = 1 then .ok (.bxz ⟨fld w 20 6, fld w 14 6, fld w 8 6⟩)
  else if fldN w 0 8 = 2 then .ok (.bins ⟨fld w 20 6, fld w 14 6, fld w 8 6⟩)
  else .error .field

/-- Words of the major: BXTI, BXZI, BINSI. -/
def decS0d (w : Nat) : Decoded :=
  if fldN w 12 2 = 0 then .ok (.bxti ⟨fld w 20 6, fld w 14 6, fld w 6 6, fld w 0 6⟩)
  else if fldN w 12 2 = 1 then .ok (.bxzi ⟨fld w 20 6, fld w 14 6, fld w 6 6, fld w 0 6⟩)
  else if fldN w 12 2 = 2 then .ok (.binsi ⟨fld w 20 6, fld w 14 6, fld w 6 6, fld w 0 6⟩)
  else .error .field

/-- Words of the major: SEL. -/
def decS0e (w : Nat) : Decoded :=
  .ok (.sel ⟨fld w 20 6, fld w 14 6, fld w 8 6, fld w 0 8⟩)

/-- Words of the major: CMP. -/
def decS10 (w : Nat) : Decoded :=
  .ok (.cmp ⟨fld w 22 4, fld w 16 6, fld w 10 6, fld w 0 10⟩)

/-- Words of the major: CMPI. -/
def decS11 (w : Nat) : Decoded :=
  .ok (.cmpi ⟨fld w 22 4, fld w 16 6, fld w 10 6, fld w 0 10⟩)

/-- Words of the major: PTGT. -/
def decS12 (w : Nat) : Decoded :=
  if fldN w 23 3 = 0 then .ok (.ptgt (fld w 20 3) (fld w 0 20))
  else .error .field

/-- Words of the major: PTGTR. -/
def decS13 (w : Nat) : Decoded :=
  if fldN w 0 14 = 0 ∧ fldN w 23 3 = 0 then .ok (.ptgtr (fld w 20 3) (fld w 14 6))
  else .error .field

/-- Words of the major: XFER. -/
def decS14 (w : Nat) : Decoded :=
  if fldN w 10 11 = 0 then .ok (.xfer ⟨fld w 24 2, fld w 21 3, fld w 0 10⟩)
  else .error .field

/-- Words of the major: XCALL. -/
def decS15 (w : Nat) : Decoded :=
  if fldN w 10 11 = 0 then .ok (.xcall ⟨fld w 24 2, fld w 21 3, fld w 0 10⟩)
  else .error .field

/-- Words of the major: FSET, FCLR, FTGL, FTEST, FMOV, FWAIT, FWAITA, FSET_REG, FCLR_REG, FTGL_REG, FTEST_REG, FMOV_REG, FWAIT_REG, FWAITA_REG. -/
def decS18 (w : Nat) : Decoded :=
  if fldN w 0 4 = 0 ∧ fldN w 14 12 = 0 then .ok (.fset (fld w 4 10))
  else if fldN w 0 4 = 1 ∧ fldN w 14 12 = 0 then .ok (.fclr (fld w 4 10))
  else if fldN w 0 4 = 2 ∧ fldN w 14 12 = 0 then .ok (.ftgl (fld w 4 10))
  else if fldN w 0 4 = 3 ∧ fldN w 14 6 = 0 then .ok (.ftest (fld w 20 6) (fld w 4 10))
  else if fldN w 0 4 = 4 ∧ fldN w 14 6 = 0 then .ok (.fmov (fld w 20 6) (fld w 4 10))
  else if fldN w 0 4 = 5 ∧ fldN w 14 6 = 0 ∧ fldN w 21 5 = 0 then .ok (.fwait (fld w 20 1) (fld w 4 10))
  else if fldN w 0 4 = 6 ∧ fldN w 14 12 = 0 then .ok (.fwaita (fld w 4 10))
  else if fldN w 0 13 = 8 ∧ fldN w 20 6 = 0 then .ok (.fsetReg ⟨fld w 14 6, fld w 13 1⟩)
  else if fldN w 0 13 = 9 ∧ fldN w 20 6 = 0 then .ok (.fclrReg ⟨fld w 14 6, fld w 13 1⟩)
  else if fldN w 0 13 = 10 ∧ fldN w 20 6 = 0 then .ok (.ftglReg ⟨fld w 14 6, fld w 13 1⟩)
  else if fldN w 0 13 = 11 then .ok (.ftestReg ⟨fld w 20 6, fld w 14 6, fld w 13 1⟩)
  else if fldN w 0 13 = 12 then .ok (.fmovReg ⟨fld w 20 6, fld w 14 6, fld w 13 1⟩)
  else if fldN w 0 13 = 13 ∧ fldN w 21 5 = 0 then .ok (.fwaitReg (fld w 20 1) ⟨fld w 14 6, fld w 13 1⟩)
  else if fldN w 0 13 = 14 ∧ fldN w 20 6 = 0 then .ok (.fwaitaReg ⟨fld w 14 6, fld w 13 1⟩)
  else .error .field

/-- Words of the major: QPUT, QPUT_TOKEN, QGET, QPEEK, QCNT. -/
def decS1a (w : Nat) : Decoded :=
  if fldN w 0 10 = 0 ∧ fldN w 20 6 = 0 then .ok (.qput (fld w 14 6) (fld w 10 4))
  else if fldN w 0 10 = 4 ∧ fldN w 14 12 = 0 then .ok (.qputToken (fld w 10 4))
  else if fldN w 0 10 = 1 ∧ fldN w 14 6 = 0 then .ok (.qget (fld w 20 6) (fld w 10 4))
  else if fldN w 0 10 = 2 ∧ fldN w 14 6 = 0 then .ok (.qpeek (fld w 20 6) (fld w 10 4))
  else if fldN w 0 10 = 3 ∧ fldN w 14 6 = 0 then .ok (.qcnt (fld w 20 6) (fld w 10 4))
  else .error .field

/-- Words of the major: LD. -/
def decS20 (w : Nat) : Decoded :=
  .ok (.ld ⟨fld w 20 6, fld w 14 6, fld w 12 2, fld w 10 2, fld w 0 10⟩)

/-- Words of the major: LDZ. -/
def decS21 (w : Nat) : Decoded :=
  .ok (.ldz ⟨fld w 20 6, fld w 14 6, fld w 12 2, fld w 10 2, fld w 0 10⟩)

/-- Words of the major: ST. -/
def decS22 (w : Nat) : Decoded :=
  .ok (.st ⟨fld w 20 6, fld w 14 6, fld w 12 2, fld w 10 2, fld w 0 10⟩)

/-- Words of the major: LDNC. -/
def decS23 (w : Nat) : Decoded :=
  if fldN w 10 2 = 1 then .ok (.ldnc ⟨fld w 20 6, fld w 14 6, fld w 12 2, fld w 0 10⟩)
  else .error .field

/-- Words of the major: LDSL. -/
def decS24 (w : Nat) : Decoded :=
  .ok (.ldsl ⟨fld w 20 6, fld w 14 6, fld w 0 14⟩)

/-- Words of the major: STSL. -/
def decS25 (w : Nat) : Decoded :=
  .ok (.stsl ⟨fld w 20 6, fld w 14 6, fld w 0 14⟩)

/-- Words of the major: ATOM. -/
def decS28 (w : Nat) : Decoded :=
  if fldN w 8 5 = 0 then .ok (.atom ⟨fld w 20 6, fld w 14 6, fld w 13 1, fld w 4 4, fld w 2 2, fld w 0 2⟩)
  else .error .field

/-- Words of the major: ACAS. -/
def decS29 (w : Nat) : Decoded :=
  if fldN w 4 3 = 0 then .ok (.acas ⟨fld w 20 6, fld w 14 6, fld w 8 6, fld w 7 1, fld w 2 2, fld w 0 2⟩)
  else .error .field

/-- Words of the major: AAGG. -/
def decS2a (w : Nat) : Decoded :=
  if fldN w 3 10 = 0 then .ok (.aagg ⟨fld w 20 6, fld w 14 6, fld w 13 1, fld w 2 1, fld w 0 2⟩)
  else .error .field

/-- Words of the major: RCSNAP. -/
def decS2b (w : Nat) : Decoded :=
  if fldN w 20 6 = 0 then .ok (.rcsnap ⟨fld w 14 6, fld w 8 6, fld w 0 8⟩)
  else .error .field

/-- Words of the major: FENCE_ACQ, FENCE_REL, FENCE_AR, FENCE_SC, FENCE_INV. -/
def decS2c (w : Nat) : Decoded :=
  if fldN w 2 24 = 0 then .ok (.fenceAcq (fld w 0 2))
  else if fldN w 2 24 = 4 then .ok (.fenceRel (fld w 0 2))
  else if fldN w 2 24 = 8 then .ok (.fenceAr (fld w 0 2))
  else if fldN w 2 24 = 12 then .ok (.fenceSc (fld w 0 2))
  else if fldN w 2 24 = 16 then .ok (.fenceInv (fld w 0 2))
  else .error .field

/-- Words of the major: PUSH. -/
def decS30 (w : Nat) : Decoded :=
  if fldN w 10 4 = 0 then .ok (.push ⟨fld w 20 6, fld w 14 6, fld w 0 10⟩)
  else .error .field

/-- Words of the major: STRIP. -/
def decS31 (w : Nat) : Decoded :=
  .ok (.strip ⟨fld w 24 2, fld w 23 1, fld w 21 2, fld w 15 6, fld w 0 15⟩)

/-- Words of the major: CWAIT. -/
def decS32 (w : Nat) : Decoded :=
  if fldN w 0 8 = 0 ∧ fldN w 20 6 = 0 then .ok (.cwait ⟨fld w 14 6, fld w 8 6⟩)
  else .error .field

/-- Words of the major: MEET. -/
def decS34 (w : Nat) : Decoded :=
  if fldN w 3 1 = 0 ∧ fldN w 6 20 = 0 then .ok (.meet ⟨fld w 4 2, fld w 0 3⟩)
  else .error .field

/-- Words of the major: LAUNCH, LAUNCHW. -/
def decS35 (w : Nat) : Decoded :=
  if fldN w 0 14 = 0 then .ok (.launch ⟨fld w 20 6, fld w 14 6⟩)
  else if fldN w 0 14 = 1 then .ok (.launchw ⟨fld w 20 6, fld w 14 6⟩)
  else .error .field

/-- Words of the major: RINGACQ, RINGREL. -/
def decS36 (w : Nat) : Decoded :=
  if fldN w 0 8 = 0 then .ok (.ringacq ⟨fld w 20 6, fld w 14 6, fld w 8 6⟩)
  else if fldN w 0 8 = 1 then .ok (.ringrel ⟨fld w 20 6, fld w 14 6, fld w 8 6⟩)
  else .error .field

/-- Words of the major: MFS. -/
def decS3c (w : Nat) : Decoded :=
  if fldN w 12 8 = 0 then .ok (.mfs (fld w 20 6) (fld w 0 12))
  else .error .field

/-- Words of the major: MTS. -/
def decS3d (w : Nat) : Decoded :=
  if fldN w 12 2 = 0 ∧ fldN w 20 6 = 0 then .ok (.mts (fld w 14 6) (fld w 0 12))
  else .error .field

/-- Words of the major: COL_QPUT, COL_QGET. -/
def decCommon3c (c : Col) (w : Nat) : Decoded :=
  if fldN w 20 2 = 0 then .ok (.colQput ⟨c, fld w 22 4, fld w 16 4, fld w 0 16⟩)
  else if fldN w 20 2 = 2 then .ok (.colQget ⟨c, fld w 22 4, fld w 16 4, fld w 0 16⟩)
  else .error .field

/-- Words of the major: COL_FSET, COL_FCLR, COL_FWAIT. -/
def decCommon3d (c : Col) (w : Nat) : Decoded :=
  if fldN w 10 12 = 0 then .ok (.colFset ⟨c, fld w 22 4, fld w 0 10⟩)
  else if fldN w 10 12 = 1024 then .ok (.colFclr ⟨c, fld w 22 4, fld w 0 10⟩)
  else if fldN w 10 9 = 0 ∧ fldN w 20 2 = 2 then .ok (.colFwait ⟨c, fld w 22 4, fld w 19 1, fld w 0 10⟩)
  else .error .field

/-- Words of the major: NOPG. -/
def decCommon3e (c : Col) (w : Nat) : Decoded :=
  if fldN w 16 6 = 0 then .ok (.nopg ⟨c, fld w 22 4, fld w 0 16⟩)
  else .error .field

/-- Words of the major: VADD, VSUB, VMUL, VMIN, VMAX, VABS, VNEG, VCPSGN. -/
def decC01 (w : Nat) : Decoded :=
  if fldN w 0 4 = 0 then .ok (.vadd ⟨fld w 22 4, fld w 17 5, fld w 12 5, fld w 7 5, fld w 4 3⟩)
  else if fldN w 0 4 = 1 then .ok (.vsub ⟨fld w 22 4, fld w 17 5, fld w 12 5, fld w 7 5, fld w 4 3⟩)
  else if fldN w 0 4 = 2 then .ok (.vmul ⟨fld w 22 4, fld w 17 5, fld w 12 5, fld w 7 5, fld w 4 3⟩)
  else if fldN w 0 4 = 3 then .ok (.vmin ⟨fld w 22 4, fld w 17 5, fld w 12 5, fld w 7 5, fld w 4 3⟩)
  else if fldN w 0 4 = 4 then .ok (.vmax ⟨fld w 22 4, fld w 17 5, fld w 12 5, fld w 7 5, fld w 4 3⟩)
  else if fldN w 0 4 = 5 ∧ fldN w 7 5 = 0 then .ok (.vabs ⟨fld w 22 4, fld w 17 5, fld w 12 5, fld w 4 3⟩)
  else if fldN w 0 4 = 6 ∧ fldN w 7 5 = 0 then .ok (.vneg ⟨fld w 22 4, fld w 17 5, fld w 12 5, fld w 4 3⟩)
  else if fldN w 0 4 = 7 then .ok (.vcpsgn ⟨fld w 22 4, fld w 17 5, fld w 12 5, fld w 7 5, fld w 4 3⟩)
  else .error .field

/-- Words of the major: VFMA, VFMS, VFNMA. -/
def decC02 (w : Nat) : Decoded :=
  if fldN w 0 4 = 0 then .ok (.vfma ⟨fld w 22 4, fld w 17 5, fld w 12 5, fld w 7 5, fld w 4 3⟩)
  else if fldN w 0 4 = 1 then .ok (.vfms ⟨fld w 22 4, fld w 17 5, fld w 12 5, fld w 7 5, fld w 4 3⟩)
  else if fldN w 0 4 = 2 then .ok (.vfnma ⟨fld w 22 4, fld w 17 5, fld w 12 5, fld w 7 5, fld w 4 3⟩)
  else .error .field

/-- Words of the major: VEXP2, VLOG2, VRCP, VRSQ, VSQRT, VSIGM. -/
def decC03 (w : Nat) : Decoded :=
  if fldN w 0 4 = 0 ∧ fldN w 7 5 = 0 then .ok (.vexp2 ⟨fld w 22 4, fld w 17 5, fld w 12 5, fld w 4 3⟩)
  else if fldN w 0 4 = 1 ∧ fldN w 7 5 = 0 then .ok (.vlog2 ⟨fld w 22 4, fld w 17 5, fld w 12 5, fld w 4 3⟩)
  else if fldN w 0 4 = 2 ∧ fldN w 7 5 = 0 then .ok (.vrcp ⟨fld w 22 4, fld w 17 5, fld w 12 5, fld w 4 3⟩)
  else if fldN w 0 4 = 3 ∧ fldN w 7 5 = 0 then .ok (.vrsq ⟨fld w 22 4, fld w 17 5, fld w 12 5, fld w 4 3⟩)
  else if fldN w 0 4 = 4 ∧ fldN w 7 5 = 0 then .ok (.vsqrt ⟨fld w 22 4, fld w 17 5, fld w 12 5, fld w 4 3⟩)
  else if fldN w 0 4 = 5 ∧ fldN w 7 5 = 0 then .ok (.vsigm ⟨fld w 22 4, fld w 17 5, fld w 12 5, fld w 4 3⟩)
  else .error .field

/-- Words of the major: VIADD, VISUB, VIMUL, VIMIN, VIMAX, VIMINZ, VIMAXZ, VAND, VOR, VXOR, VSHL, VSHR, VSRA, VPOPC. -/
def decC04 (w : Nat) : Decoded :=
  if fldN w 0 4 = 0 then .ok (.viadd ⟨fld w 22 4, fld w 17 5, fld w 12 5, fld w 7 5, fld w 4 3⟩)
  else if fldN w 0 4 = 1 then .ok (.visub ⟨fld w 22 4, fld w 17 5, fld w 12 5, fld w 7 5, fld w 4 3⟩)
  else if fldN w 0 4 = 2 then .ok (.vimul ⟨fld w 22 4, fld w 17 5, fld w 12 5, fld w 7 5, fld w 4 3⟩)
  else if fldN w 0 4 = 3 then .ok (.vimin ⟨fld w 22 4, fld w 17 5, fld w 12 5, fld w 7 5, fld w 4 3⟩)
  else if fldN w 0 4 = 4 then .ok (.vimax ⟨fld w 22 4, fld w 17 5, fld w 12 5, fld w 7 5, fld w 4 3⟩)
  else if fldN w 0 4 = 5 then .ok (.viminz ⟨fld w 22 4, fld w 17 5, fld w 12 5, fld w 7 5, fld w 4 3⟩)
  else if fldN w 0 4 = 6 then .ok (.vimaxz ⟨fld w 22 4, fld w 17 5, fld w 12 5, fld w 7 5, fld w 4 3⟩)
  else if fldN w 0 4 = 7 then .ok (.vand ⟨fld w 22 4, fld w 17 5, fld w 12 5, fld w 7 5, fld w 4 3⟩)
  else if fldN w 0 4 = 8 then .ok (.vor ⟨fld w 22 4, fld w 17 5, fld w 12 5, fld w 7 5, fld w 4 3⟩)
  else if fldN w 0 4 = 9 then .ok (.vxor ⟨fld w 22 4, fld w 17 5, fld w 12 5, fld w 7 5, fld w 4 3⟩)
  else if fldN w 0 4 = 10 then .ok (.vshl ⟨fld w 22 4, fld w 17 5, fld w 12 5, fld w 7 5, fld w 4 3⟩)
  else if fldN w 0 4 = 11 then .ok (.vshr ⟨fld w 22 4, fld w 17 5, fld w 12 5, fld w 7 5, fld w 4 3⟩)
  else if fldN w 0 4 = 12 then .ok (.vsra ⟨fld w 22 4, fld w 17 5, fld w 12 5, fld w 7 5, fld w 4 3⟩)
  else if fldN w 0 4 = 13 ∧ fldN w 7 5 = 0 then .ok (.vpopc ⟨fld w 22 4, fld w 17 5, fld w 12 5, fld w 4 3⟩)
  else .error .field

/-- Words of the major: VBXT, VBXZ, VBINS, VFSHL, VFSHR. -/
def decC05 (w : Nat) : Decoded :=
  if fldN w 0 4 = 0 then .ok (.vbxt ⟨fld w 22 4, fld w 17 5, fld w 12 5, fld w 7 5, fld w 4 3⟩)
  else if fldN w 0 4 = 1 then .ok (.vbxz ⟨fld w 22 4, fld w 17 5, fld w 12 5, fld w 7 5, fld w 4 3⟩)
  else if fldN w 0 4 = 2 then .ok (.vbins ⟨fld w 22 4, fld w 17 5, fld w 12 5, fld w 7 5, fld w 4 3⟩)
  else if fldN w 0 4 = 3 then .ok (.vfshl ⟨fld w 22 4, fld w 17 5, fld w 12 5, fld w 7 5, fld w 4 3⟩)
  else if fldN w 0 4 = 4 then .ok (.vfshr ⟨fld w 22 4, fld w 17 5, fld w 12 5, fld w 7 5, fld w 4 3⟩)
  else .error .field

/-- Words of the major: VCMP. -/
def decC06 (w : Nat) : Decoded :=
  if fldN w 20 2 = 0 then .ok (.vcmp ⟨fld w 22 4, fld w 17 3, fld w 12 5, fld w 7 5, fld w 4 3, fld w 0 4⟩)
  else .error .field

/-- Words of the major: VSEL. -/
def decC07 (w : Nat) : Decoded :=
  if fldN w 0 4 = 0 then .ok (.vsel ⟨fld w 22 4, fld w 17 5, fld w 12 5, fld w 7 5, fld w 4 3⟩)
  else .error .field

/-- Words of the major: VRSUM, VRMAX, VRMIN, VCSUM, VCMAX. -/
def decC08 (w : Nat) : Decoded :=
  if fldN w 0 4 = 0 ∧ fldN w 7 5 = 0 then .ok (.vrsum ⟨fld w 22 4, fld w 17 5, fld w 12 5, fld w 4 3⟩)
  else if fldN w 0 4 = 1 ∧ fldN w 7 5 = 0 then .ok (.vrmax ⟨fld w 22 4, fld w 17 5, fld w 12 5, fld w 4 3⟩)
  else if fldN w 0 4 = 2 ∧ fldN w 7 5 = 0 then .ok (.vrmin ⟨fld w 22 4, fld w 17 5, fld w 12 5, fld w 4 3⟩)
  else if fldN w 0 4 = 3 ∧ fldN w 7 5 = 0 then .ok (.vcsum ⟨fld w 22 4, fld w 17 5, fld w 12 5, fld w 4 3⟩)
  else if fldN w 0 4 = 4 ∧ fldN w 7 5 = 0 then .ok (.vcmax ⟨fld w 22 4, fld w 17 5, fld w 12 5, fld w 4 3⟩)
  else .error .field

/-- Words of the major: VANY, VALL. -/
def decC09 (w : Nat) : Decoded :=
  if fldN w 0 4 = 0 ∧ fldN w 7 5 = 0 then .ok (.vany ⟨fld w 22 4, fld w 12 10, fld w 4 3⟩)
  else if fldN w 0 4 = 1 ∧ fldN w 7 5 = 0 then .ok (.vall ⟨fld w 22 4, fld w 12 10, fld w 4 3⟩)
  else .error .field

/-- Words of the major: VPERM, VTRN, VBCAST, VROT. -/
def decC0a (w : Nat) : Decoded :=
  if fldN w 0 4 = 0 then .ok (.vperm ⟨fld w 22 4, fld w 17 5, fld w 12 5, fld w 7 5, fld w 4 3⟩)
  else if fldN w 0 4 = 1 then .ok (.vtrn ⟨fld w 22 4, fld w 17 5, fld w 12 5, fld w 7 5, fld w 4 3⟩)
  else if fldN w 0 4 = 2 then .ok (.vbcast ⟨fld w 22 4, fld w 17 5, fld w 12 5, fld w 7 5, fld w 4 3⟩)
  else if fldN w 0 4 = 3 then .ok (.vrot ⟨fld w 22 4, fld w 17 5, fld w 12 5, fld w 7 5, fld w 4 3⟩)
  else .error .field

/-- Words of the major: VCVT. -/
def decC0b (w : Nat) : Decoded :=
  if fldN w 7 2 = 0 then .ok (.vcvt ⟨fld w 22 4, fld w 17 5, fld w 12 5, fld w 9 3, fld w 4 3, fld w 0 4⟩)
  else .error .field

/-- Words of the major: VQUANT. -/
def decC0c (w : Nat) : Decoded :=
  if fldN w 7 2 = 0 then .ok (.vquant ⟨fld w 22 4, fld w 17 5, fld w 12 5, fld w 9 3, fld w 4 3, fld w 0 4⟩)
  else .error .field

/-- Words of the major: VDEQ. -/
def decC0d (w : Nat) : Decoded :=
  if fldN w 7 5 = 0 then .ok (.vdeq ⟨fld w 22 4, fld w 17 5, fld w 12 5, fld w 4 3, fld w 0 4⟩)
  else .error .field

/-- Words of the major: VMOV, VLDI, VSHAPE. -/
def decC0e (w : Nat) : Decoded :=
  if fldN w 0 4 = 0 ∧ fldN w 7 5 = 0 then .ok (.vmov ⟨fld w 22 4, fld w 17 5, fld w 12 5, fld w 4 3⟩)
  else if fldN w 0 4 = 1 then .ok (.vldi ⟨fld w 22 4, fld w 17 5, fld w 7 10, fld w 4 3⟩)
  else if fldN w 0 8 = 2 then .ok (.vshape ⟨fld w 22 4, fld w 17 5, fld w 12 5, fld w 8 4⟩)
  else .error .field

/-- Words of the major: MAND, MOR, MXOR, MNOT, MRANGE. -/
def decC0f (w : Nat) : Decoded :=
  if fldN w 0 4 = 0 ∧ fldN w 10 2 = 0 ∧ fldN w 15 2 = 0 ∧ fldN w 20 2 = 0 then .ok (.mand ⟨fld w 22 4, fld w 17 3, fld w 12 3, fld w 7 3, fld w 4 3⟩)
  else if fldN w 0 4 = 1 ∧ fldN w 10 2 = 0 ∧ fldN w 15 2 = 0 ∧ fldN w 20 2 = 0 then .ok (.mor ⟨fld w 22 4, fld w 17 3, fld w 12 3, fld w 7 3, fld w 4 3⟩)
  else if fldN w 0 4 = 2 ∧ fldN w 10 2 = 0 ∧ fldN w 15 2 = 0 ∧ fldN w 20 2 = 0 then .ok (.mxor ⟨fld w 22 4, fld w 17 3, fld w 12 3, fld w 7 3, fld w 4 3⟩)
  else if fldN w 0 4 = 3 ∧ fldN w 7 5 = 0 ∧ fldN w 15 2 = 0 ∧ fldN w 20 2 = 0 then .ok (.mnot ⟨fld w 22 4, fld w 17 3, fld w 12 3, fld w 4 3⟩)
  else if fldN w 0 4 = 4 ∧ fldN w 7 5 = 0 ∧ fldN w 20 2 = 0 then .ok (.mrange ⟨fld w 22 4, fld w 17 3, fld w 12 5, fld w 4 3⟩)
  else .error .field

/-- Words of the major: MMA. -/
def decC20 (w : Nat) : Decoded :=
  if fldN w 0 9 = 0 then .ok (.mma ⟨fld w 22 4, fld w 20 2, fld w 16 4, fld w 12 4, fld w 11 1, fld w 10 1, fld w 9 1⟩)
  else .error .field

/-- Words of the major: MMAS. -/
def decC21 (w : Nat) : Decoded :=
  if fldN w 0 3 = 0 then .ok (.mmas ⟨fld w 22 4, fld w 20 2, fld w 16 4, fld w 12 4, fld w 8 4, fld w 6 2, fld w 5 1, fld w 4 1, fld w 3 1⟩)
  else .error .field

/-- Words of the major: MMAG. -/
def decC22 (w : Nat) : Decoded :=
  if fldN w 0 1 = 0 then .ok (.mmag ⟨fld w 22 4, fld w 20 2, fld w 15 5, fld w 11 4, fld w 10 1, fld w 9 1, fld w 8 1, fld w 1 7⟩)
  else .error .field

/-- Words of the major: MZERO, MCLOSE, MWAKE, MOPEN, MSHUT. -/
def decC23 (w : Nat) : Decoded :=
  if fldN w 0 20 = 0 then .ok (.mzero ⟨fld w 22 4, fld w 20 2⟩)
  else if fldN w 0 20 = 1 then .ok (.mclose ⟨fld w 22 4, fld w 20 2⟩)
  else if fldN w 0 22 = 2 then .ok (.mwake (fld w 22 4))
  else if fldN w 0 20 = 3 then .ok (.mopen ⟨fld w 22 4, fld w 20 2⟩)
  else if fldN w 0 20 = 4 then .ok (.mshut ⟨fld w 22 4, fld w 20 2⟩)
  else .error .field

/-- Words of the major: SMXSTEP. -/
def decC24 (w : Nat) : Decoded :=
  .ok (.smxstep ⟨fld w 22 4, fld w 20 2, fld w 15 5, fld w 11 4, fld w 6 5, fld w 5 1, fld w 2 3, fld w 0 2⟩)

/-- Words of the major: SMXFIN. -/
def decC25 (w : Nat) : Decoded :=
  if fldN w 0 15 = 0 then .ok (.smxfin ⟨fld w 22 4, fld w 20 2, fld w 15 5⟩)
  else .error .field

/-- Words of the major: SMXMERGE. -/
def decC26 (w : Nat) : Decoded :=
  if fldN w 0 15 = 0 then .ok (.smxmerge ⟨fld w 22 4, fld w 20 2, fld w 15 5⟩)
  else .error .field

/-- Words of the major: MSTGET, MSTSET. -/
def decC27 (w : Nat) : Decoded :=
  if fldN w 0 15 = 0 then .ok (.mstget ⟨fld w 22 4, fld w 20 2, fld w 15 5⟩)
  else if fldN w 0 15 = 1 then .ok (.mstset ⟨fld w 22 4, fld w 20 2, fld w 15 5⟩)
  else .error .field

/-- Words of the major: MACC2V, MV2ACC. -/
def decC28 (w : Nat) : Decoded :=
  if fldN w 0 15 = 0 then .ok (.macc2v ⟨fld w 22 4, fld w 20 2, fld w 15 5⟩)
  else if fldN w 0 15 = 1 then .ok (.mv2acc ⟨fld w 22 4, fld w 20 2, fld w 15 5⟩)
  else .error .field

/-- Words of the major: MADH. -/
def decC29 (w : Nat) : Decoded :=
  if fldN w 2 13 = 0 then .ok (.madh ⟨fld w 22 4, fld w 20 2, fld w 15 5, fld w 1 1, fld w 0 1⟩)
  else .error .field

/-- Words of the major: LDT. -/
def decL01 (w : Nat) : Decoded :=
  if fldN w 0 4 = 0 then .ok (.ldt ⟨fld w 22 4, fld w 18 4, fld w 11 7, fld w 8 3, fld w 5 3, fld w 4 1⟩)
  else .error .field

/-- Words of the major: LDTU. -/
def decL02 (w : Nat) : Decoded :=
  if fldN w 0 4 = 0 then .ok (.ldtu ⟨fld w 22 4, fld w 18 4, fld w 11 7, fld w 8 3, fld w 5 3, fld w 4 1⟩)
  else .error .field

/-- Words of the major: TLD. -/
def decL03 (w : Nat) : Decoded :=
  if fldN w 0 13 = 0 then .ok (.tld ⟨fld w 22 4, fld w 18 4, fld w 14 4, fld w 13 1⟩)
  else .error .field

/-- Words of the major: VLD. -/
def decL04 (w : Nat) : Decoded :=
  if fldN w 0 7 = 0 then .ok (.vld ⟨fld w 22 4, fld w 18 4, fld w 13 5, fld w 10 3, fld w 8 2, fld w 7 1⟩)
  else .error .field

/-- Words of the major: GLD. -/
def decL05 (w : Nat) : Decoded :=
  if fldN w 0 3 = 0 then .ok (.gld ⟨fld w 22 4, fld w 18 4, fld w 13 5, fld w 8 5, fld w 5 3, fld w 3 2⟩)
  else .error .field

/-- Words of the major: BFX. -/
def decL06 (w : Nat) : Decoded :=
  if fldN w 0 8 = 0 then .ok (.bfx ⟨fld w 22 4, fld w 18 4, fld w 13 5, fld w 10 3, fld w 8 2⟩)
  else .error .field

/-- Words of the major: EADD, ESET, EMOV. -/
def decE (c : Col) (w : Nat) : Decoded :=
  if fldN w 16 2 = 0 then .ok (.eadd ⟨c, fld w 22 4, fld w 18 4, fld w 14 2, fld w 0 14⟩)
  else if fldN w 16 2 = 1 then .ok (.eset ⟨c, fld w 22 4, fld w 18 4, fld w 14 2, fld w 0 14⟩)
  else if fldN w 0 10 = 0 ∧ fldN w 16 2 = 2 then .ok (.emov ⟨c, fld w 22 4, fld w 18 4, fld w 14 2, fld w 10 4⟩)
  else .error .field

/-- Words of the major: KVX. -/
def decL08 (w : Nat) : Decoded :=
  if fldN w 0 14 = 0 then .ok (.kvx ⟨fld w 22 4, fld w 18 4, fld w 14 4⟩)
  else .error .field

/-- Words of the major: WLD. -/
def decL09 (w : Nat) : Decoded :=
  if fldN w 0 7 = 0 then .ok (.wld ⟨fld w 22 4, fld w 18 4, fld w 11 7, fld w 8 3, fld w 7 1⟩)
  else .error .field

/-- Words of the major: STT. -/
def decW01 (w : Nat) : Decoded :=
  if fldN w 0 4 = 0 then .ok (.stt ⟨fld w 22 4, fld w 18 4, fld w 11 7, fld w 8 3, fld w 5 3, fld w 4 1⟩)
  else .error .field

/-- Words of the major: STTU. -/
def decW02 (w : Nat) : Decoded :=
  if fldN w 0 4 = 0 then .ok (.sttu ⟨fld w 22 4, fld w 18 4, fld w 11 7, fld w 8 3, fld w 5 3, fld w 4 1⟩)
  else .error .field

/-- Words of the major: TWR. -/
def decW03 (w : Nat) : Decoded :=
  if fldN w 0 14 = 0 then .ok (.twr ⟨fld w 22 4, fld w 18 4, fld w 14 4⟩)
  else .error .field

/-- Words of the major: VST. -/
def decW04 (w : Nat) : Decoded :=
  if fldN w 0 8 = 0 then .ok (.vst ⟨fld w 22 4, fld w 18 4, fld w 13 5, fld w 10 3, fld w 8 2⟩)
  else .error .field

/-- Words of the major: SCT. -/
def decW05 (w : Nat) : Decoded :=
  if fldN w 0 3 = 0 then .ok (.sct ⟨fld w 22 4, fld w 18 4, fld w 13 5, fld w 8 5, fld w 5 3, fld w 3 2⟩)
  else .error .field

/-- Words of the major: ACST. -/
def decW06 (w : Nat) : Decoded :=
  if fldN w 0 12 = 0 then .ok (.acst ⟨fld w 22 4, fld w 18 4, fld w 16 2, fld w 12 4⟩)
  else .error .field

/-- The opcode map of the S stream (R334). -/
def rawS (w : Nat) : Decoded :=
  match fldN w 26 6 with
  | 0x00 => decS00 w
  | 0x01 => decS01 w
  | 0x02 => decS02 w
  | 0x03 => decS03 w
  | 0x04 => decS04 w
  | 0x05 => decS05 w
  | 0x06 => decS06 w
  | 0x07 => decS07 w
  | 0x08 => decS08 w
  | 0x09 => decS09 w
  | 0x0A => decS0a w
  | 0x0B => decS0b w
  | 0x0C => decS0c w
  | 0x0D => decS0d w
  | 0x0E => decS0e w
  | 0x10 => decS10 w
  | 0x11 => decS11 w
  | 0x12 => decS12 w
  | 0x13 => decS13 w
  | 0x14 => decS14 w
  | 0x15 => decS15 w
  | 0x18 => decS18 w
  | 0x1A => decS1a w
  | 0x20 => decS20 w
  | 0x21 => decS21 w
  | 0x22 => decS22 w
  | 0x23 => decS23 w
  | 0x24 => decS24 w
  | 0x25 => decS25 w
  | 0x28 => decS28 w
  | 0x29 => decS29 w
  | 0x2A => decS2a w
  | 0x2B => decS2b w
  | 0x2C => decS2c w
  | 0x30 => decS30 w
  | 0x31 => decS31 w
  | 0x32 => decS32 w
  | 0x34 => decS34 w
  | 0x35 => decS35 w
  | 0x36 => decS36 w
  | 0x3C => decS3c w
  | 0x3D => decS3d w
  | _ => .error .major

/-- The opcode map of the group common to the columns (R338). -/
def rawCommon (c : Col) (w : Nat) : Decoded :=
  match fldN w 26 6 with
  | 0x3C => decCommon3c c w
  | 0x3D => decCommon3d c w
  | 0x3E => decCommon3e c w
  | _ => .error .major

/-- The opcode map of the L column (R341). -/
def rawL (w : Nat) : Decoded :=
  match fldN w 26 6 with
  | 0x01 => decL01 w
  | 0x02 => decL02 w
  | 0x03 => decL03 w
  | 0x04 => decL04 w
  | 0x05 => decL05 w
  | 0x06 => decL06 w
  | 0x07 => decE .colL w
  | 0x08 => decL08 w
  | 0x09 => decL09 w
  | _ => rawCommon .colL w

/-- The opcode map of the C column (R339, R340). -/
def rawC (w : Nat) : Decoded :=
  match fldN w 26 6 with
  | 0x01 => decC01 w
  | 0x02 => decC02 w
  | 0x03 => decC03 w
  | 0x04 => decC04 w
  | 0x05 => decC05 w
  | 0x06 => decC06 w
  | 0x07 => decC07 w
  | 0x08 => decC08 w
  | 0x09 => decC09 w
  | 0x0A => decC0a w
  | 0x0B => decC0b w
  | 0x0C => decC0c w
  | 0x0D => decC0d w
  | 0x0E => decC0e w
  | 0x0F => decC0f w
  | 0x20 => decC20 w
  | 0x21 => decC21 w
  | 0x22 => decC22 w
  | 0x23 => decC23 w
  | 0x24 => decC24 w
  | 0x25 => decC25 w
  | 0x26 => decC26 w
  | 0x27 => decC27 w
  | 0x28 => decC28 w
  | 0x29 => decC29 w
  | _ => rawCommon .colC w

/-- The opcode map of the W column (R342). -/
def rawW (w : Nat) : Decoded :=
  match fldN w 26 6 with
  | 0x01 => decW01 w
  | 0x02 => decW02 w
  | 0x03 => decW03 w
  | 0x04 => decW04 w
  | 0x05 => decW05 w
  | 0x06 => decW06 w
  | 0x07 => decE .colW w
  | _ => rawCommon .colW w

/-- The reading of a word by the opcode map of a stream. -/
def rawOf (st : Stream) (w : Nat) : Decoded :=
  match st with
  | .s => rawS w
  | .col .colL => rawL w
  | .col .colC => rawC w
  | .col .colW => rawW w

/-- A reading, checked for what field widths do not say. -/
def checked : Decoded → Decoded
  | .error r => .error r
  | .ok i =>
    match reject? i with
    | some r => .error r
    | none => .ok i

/-- The instruction that a stream reads from a word, or why it is none (R332). -/
def decode (st : Stream) (w : Word) : Decoded :=
  if w.toNat = 0 then .error .allZero else checked (rawOf st w.toNat)

/-- The stream whose word an instruction is; none for commands and events. -/
def streamOf : Instr → Option Stream
  | .trap _ => some .s
  | .add _ => some .s
  | .sub _ => some .s
  | .mul _ => some .s
  | .mulh _ => some .s
  | .mulhz _ => some .s
  | .div _ => some .s
  | .divz _ => some .s
  | .rem _ => some .s
  | .remz _ => some .s
  | .andR _ => some .s
  | .orR _ => some .s
  | .xorR _ => some .s
  | .shl _ => some .s
  | .shr _ => some .s
  | .sra _ => some .s
  | .minR _ => some .s
  | .maxR _ => some .s
  | .minz _ => some .s
  | .maxz _ => some .s
  | .clz _ => some .s
  | .ctz _ => some .s
  | .popc _ => some .s
  | .addi _ => some .s
  | .andi _ => some .s
  | .ori _ => some .s
  | .xori _ => some .s
  | .shli _ => some .s
  | .shri _ => some .s
  | .srai _ => some .s
  | .li _ => some .s
  | .lui _ => some .s
  | .lhi _ => some .s
  | .addpc _ => some .s
  | .fshl _ => some .s
  | .fshr _ => some .s
  | .bxt _ => some .s
  | .bxz _ => some .s
  | .bins _ => some .s
  | .bxti _ => some .s
  | .bxzi _ => some .s
  | .binsi _ => some .s
  | .sel _ => some .s
  | .cmp _ => some .s
  | .cmpi _ => some .s
  | .ptgt _ _ => some .s
  | .ptgtr _ _ => some .s
  | .xfer _ => some .s
  | .xcall _ => some .s
  | .fset _ => some .s
  | .fclr _ => some .s
  | .ftgl _ => some .s
  | .ftest _ _ => some .s
  | .fmov _ _ => some .s
  | .fwait _ _ => some .s
  | .fwaita _ => some .s
  | .fsetReg _ => some .s
  | .fclrReg _ => some .s
  | .ftglReg _ => some .s
  | .ftestReg _ => some .s
  | .fmovReg _ => some .s
  | .fwaitReg _ _ => some .s
  | .fwaitaReg _ => some .s
  | .qput _ _ => some .s
  | .qputToken _ => some .s
  | .qget _ _ => some .s
  | .qpeek _ _ => some .s
  | .qcnt _ _ => some .s
  | .ld _ => some .s
  | .ldz _ => some .s
  | .st _ => some .s
  | .ldnc _ => some .s
  | .ldsl _ => some .s
  | .stsl _ => some .s
  | .atom _ => some .s
  | .acas _ => some .s
  | .aagg _ => some .s
  | .rcsnap _ => some .s
  | .fenceAcq _ => some .s
  | .fenceRel _ => some .s
  | .fenceAr _ => some .s
  | .fenceSc _ => some .s
  | .fenceInv _ => some .s
  | .push _ => some .s
  | .strip _ => some .s
  | .cwait _ => some .s
  | .meet _ => some .s
  | .launch _ => some .s
  | .launchw _ => some .s
  | .ringacq _ => some .s
  | .ringrel _ => some .s
  | .mfs _ _ => some .s
  | .mts _ _ => some .s
  | .colQput o => some (.col o.col)
  | .colQget o => some (.col o.col)
  | .colFset o => some (.col o.col)
  | .colFclr o => some (.col o.col)
  | .colFwait o => some (.col o.col)
  | .nopg o => some (.col o.col)
  | .vadd _ => some (.col .colC)
  | .vsub _ => some (.col .colC)
  | .vmul _ => some (.col .colC)
  | .vmin _ => some (.col .colC)
  | .vmax _ => some (.col .colC)
  | .vabs _ => some (.col .colC)
  | .vneg _ => some (.col .colC)
  | .vcpsgn _ => some (.col .colC)
  | .vfma _ => some (.col .colC)
  | .vfms _ => some (.col .colC)
  | .vfnma _ => some (.col .colC)
  | .vexp2 _ => some (.col .colC)
  | .vlog2 _ => some (.col .colC)
  | .vrcp _ => some (.col .colC)
  | .vrsq _ => some (.col .colC)
  | .vsqrt _ => some (.col .colC)
  | .vsigm _ => some (.col .colC)
  | .viadd _ => some (.col .colC)
  | .visub _ => some (.col .colC)
  | .vimul _ => some (.col .colC)
  | .vimin _ => some (.col .colC)
  | .vimax _ => some (.col .colC)
  | .viminz _ => some (.col .colC)
  | .vimaxz _ => some (.col .colC)
  | .vand _ => some (.col .colC)
  | .vor _ => some (.col .colC)
  | .vxor _ => some (.col .colC)
  | .vshl _ => some (.col .colC)
  | .vshr _ => some (.col .colC)
  | .vsra _ => some (.col .colC)
  | .vpopc _ => some (.col .colC)
  | .vbxt _ => some (.col .colC)
  | .vbxz _ => some (.col .colC)
  | .vbins _ => some (.col .colC)
  | .vfshl _ => some (.col .colC)
  | .vfshr _ => some (.col .colC)
  | .vcmp _ => some (.col .colC)
  | .vsel _ => some (.col .colC)
  | .vrsum _ => some (.col .colC)
  | .vrmax _ => some (.col .colC)
  | .vrmin _ => some (.col .colC)
  | .vcsum _ => some (.col .colC)
  | .vcmax _ => some (.col .colC)
  | .vany _ => some (.col .colC)
  | .vall _ => some (.col .colC)
  | .vperm _ => some (.col .colC)
  | .vtrn _ => some (.col .colC)
  | .vbcast _ => some (.col .colC)
  | .vrot _ => some (.col .colC)
  | .vcvt _ => some (.col .colC)
  | .vquant _ => some (.col .colC)
  | .vdeq _ => some (.col .colC)
  | .vmov _ => some (.col .colC)
  | .vldi _ => some (.col .colC)
  | .vshape _ => some (.col .colC)
  | .mand _ => some (.col .colC)
  | .mor _ => some (.col .colC)
  | .mxor _ => some (.col .colC)
  | .mnot _ => some (.col .colC)
  | .mrange _ => some (.col .colC)
  | .mma _ => some (.col .colC)
  | .mmas _ => some (.col .colC)
  | .mmag _ => some (.col .colC)
  | .mzero _ => some (.col .colC)
  | .mclose _ => some (.col .colC)
  | .mwake _ => some (.col .colC)
  | .mopen _ => some (.col .colC)
  | .mshut _ => some (.col .colC)
  | .smxstep _ => some (.col .colC)
  | .smxfin _ => some (.col .colC)
  | .smxmerge _ => some (.col .colC)
  | .mstget _ => some (.col .colC)
  | .mstset _ => some (.col .colC)
  | .macc2v _ => some (.col .colC)
  | .mv2acc _ => some (.col .colC)
  | .madh _ => some (.col .colC)
  | .ldt _ => some (.col .colL)
  | .ldtu _ => some (.col .colL)
  | .tld _ => some (.col .colL)
  | .vld _ => some (.col .colL)
  | .gld _ => some (.col .colL)
  | .bfx _ => some (.col .colL)
  | .eadd o => some (.col o.col)
  | .eset o => some (.col o.col)
  | .emov o => some (.col o.col)
  | .kvx _ => some (.col .colL)
  | .wld _ => some (.col .colL)
  | .stt _ => some (.col .colW)
  | .sttu _ => some (.col .colW)
  | .twr _ => some (.col .colW)
  | .vst _ => some (.col .colW)
  | .sct _ => some (.col .colW)
  | .acst _ => some (.col .colW)
  | .partCreate _ => none
  | .partResize _ => none
  | .partDestroy _ => none
  | .partReset _ => none
  | .worldCreate _ => none
  | .worldDestroy _ => none
  | .worldBind _ => none
  | .worldUnbind _ => none
  | .quotaGet _ => none
  | .quotaSet _ => none
  | .pageAlloc _ => none
  | .pageFree _ => none
  | .prefixReg _ => none
  | .keyRotate _ => none
  | .powerCapSet _ => none
  | .fwWrite _ => none
  | .cfgWrite _ => none
  | .logRead _ => none
  | .errRead _ => none
  | .resync _ => none
  | .qreset _ => none
  | .queueLaunch _ => none
  | .copyH2d _ => none
  | .copyD2h _ => none
  | .objWait _ => none
  | .copy2d _ => none
  | .copyr _ => none
  | .slattn _ => none
  | .lgmerge _ => none
  | .lgunmerge _ => none
  | .lgsave _ => none
  | .lgdrop _ => none
  | .adpin _ => none
  | .adunpin _ => none
  | .adpubCreate _ => none
  | .adpubGrant _ => none
  | .adpubPrepare _ => none
  | .adpubCommit _ => none
  | .adpubDelete _ => none
  | .kalloc _ => none
  | .kallocPool _ => none
  | .kextendAlloc _ => none
  | .kextendShare _ => none
  | .kextendSetlen _ => none
  | .kfree _ => none
  | .migrate _ => none
  | .migrateReplica _ => none
  | .migrateCancel _ => none
  | .colred _ => none
  | .colgat _ => none
  | .colscat _ => none
  | .wload _ => none
  | .nop => some .s
  | .eret => some .s
  | .yieldGang => some .s
  | .exit => some .s
  | .brk => some .s
  | .powerOnReset => none
  | .hotReset => none
  | .powerTrip => none
  | .powerTripRelease => none
  | .thermalPowerOff => none
  | .governorWindow => none
  | .islCtlTgtWrite => none
  | .drainComplete => none
  | .islandAbandon => none
  | .relockEnd => none
  | .strokeTick => none
  | .weightsLate => none
  | .ageingPromotion => none
  | .watchdogExpiry => none
  | .gangDispatch => none
  | .wideGangStart => none
  | .preemptionSave => none
  | .launchEnd => none
  | .barrierComplete => none
  | .stripBodyLoad => none
  | .stripGroupStart => none
  | .stripRepeatEnd => none
  | .slotDonation => none
  | .slotMiss => none
  | .timedReadDelivery => none
  | .timedWriteAccept => none
  | .untimedLoadArrival => none
  | .storePerformed => none
  | .linkCrcFail => none
  | .voidWindowStart => none
  | .repairEnd => none
  | .errorWindowBoundary => none
  | .cxlDown => none
  | .cxlRetrain => none
  | .cxlPoisonReport => none
  | .migrationStart => none
  | .migrationSwitch => none
  | .migrationAbandon => none
  | .sweepStart => none
  | .sweepLine => none
  | .prefixRefetch => none
  | .hostLinkDown => none
  | .hostLinkRetrain => none
  | .hostLinkLost => none
  | .ideCheckFail => none
  | .lockInterface => none
  | .startInterface => none
  | .stopInterface => none
  | .spdmGetMeasurements => none
  | .spdmKeyExchange => none
  | .ideKmKeyProg => none
  | .null => none
  | .ldReq => none
  | .ldRsp => none
  | .atomReq => none
  | .atomRsp => none
  | .nack => none
  | .remoteRetry => none
  | .copyData => none
  | .copyAck => none
  | .colData => none
  | .memb => none
  | .memberLost => none
  | .flitCheckFail => none
  | .portRetrain => none
  | .linkRekey => none
  | .sqTailWrite => none
  | .cqHeadWrite => none
  | .qctlEnSet => none
  | .qctlEnClear => none
  | .hostCommandComplete => none
  | .wdogSetApply => none
  | .dbgStop => none
  | .dbgResume => none
  | .fabpStatRead => none
  | .registerWrite => none
  | .trapEntry => none
  | .supervisorResolve => none
  | .translationWalkDone => none
  | .softError => none
  | .aaggWindowClose => none
  | .subarrayGate => none
  | .commandEnd => none
  | .followOnIssue => none
  | .migrationLineCopy => none
  | .refetchingMarkClear => none

/-- The fields of a word, packed; 0 for commands and events. -/
def encodeNat : Instr → Nat
  | .trap code => pack [(26, 0), (8, code.toNat), (0, 2)]
  | .add o => pack [(26, 1), (20, o.d.toNat), (14, o.a.toNat), (8, o.b.toNat)]
  | .sub o => pack [(26, 1), (20, o.d.toNat), (14, o.a.toNat), (8, o.b.toNat), (0, 1)]
  | .mul o => pack [(26, 1), (20, o.d.toNat), (14, o.a.toNat), (8, o.b.toNat), (0, 2)]
  | .mulh o => pack [(26, 1), (20, o.d.toNat), (14, o.a.toNat), (8, o.b.toNat), (0, 3)]
  | .mulhz o => pack [(26, 1), (20, o.d.toNat), (14, o.a.toNat), (8, o.b.toNat), (0, 4)]
  | .div o => pack [(26, 1), (20, o.d.toNat), (14, o.a.toNat), (8, o.b.toNat), (0, 5)]
  | .divz o => pack [(26, 1), (20, o.d.toNat), (14, o.a.toNat), (8, o.b.toNat), (0, 6)]
  | .rem o => pack [(26, 1), (20, o.d.toNat), (14, o.a.toNat), (8, o.b.toNat), (0, 7)]
  | .remz o => pack [(26, 1), (20, o.d.toNat), (14, o.a.toNat), (8, o.b.toNat), (0, 8)]
  | .andR o => pack [(26, 1), (20, o.d.toNat), (14, o.a.toNat), (8, o.b.toNat), (0, 16)]
  | .orR o => pack [(26, 1), (20, o.d.toNat), (14, o.a.toNat), (8, o.b.toNat), (0, 17)]
  | .xorR o => pack [(26, 1), (20, o.d.toNat), (14, o.a.toNat), (8, o.b.toNat), (0, 18)]
  | .shl o => pack [(26, 1), (20, o.d.toNat), (14, o.a.toNat), (8, o.b.toNat), (0, 24)]
  | .shr o => pack [(26, 1), (20, o.d.toNat), (14, o.a.toNat), (8, o.b.toNat), (0, 25)]
  | .sra o => pack [(26, 1), (20, o.d.toNat), (14, o.a.toNat), (8, o.b.toNat), (0, 26)]
  | .minR o => pack [(26, 1), (20, o.d.toNat), (14, o.a.toNat), (8, o.b.toNat), (0, 32)]
  | .maxR o => pack [(26, 1), (20, o.d.toNat), (14, o.a.toNat), (8, o.b.toNat), (0, 33)]
  | .minz o => pack [(26, 1), (20, o.d.toNat), (14, o.a.toNat), (8, o.b.toNat), (0, 34)]
  | .maxz o => pack [(26, 1), (20, o.d.toNat), (14, o.a.toNat), (8, o.b.toNat), (0, 35)]
  | .clz o => pack [(26, 1), (20, o.d.toNat), (14, o.a.toNat), (0, 40)]
  | .ctz o => pack [(26, 1), (20, o.d.toNat), (14, o.a.toNat), (0, 41)]
  | .popc o => pack [(26, 1), (20, o.d.toNat), (14, o.a.toNat), (0, 42)]
  | .addi o => pack [(26, 2), (20, o.d.toNat), (14, o.a.toNat), (0, o.imm.toNat)]
  | .andi o => pack [(26, 3), (20, o.d.toNat), (14, o.a.toNat), (0, o.imm.toNat)]
  | .ori o => pack [(26, 4), (20, o.d.toNat), (14, o.a.toNat), (0, o.imm.toNat)]
  | .xori o => pack [(26, 5), (20, o.d.toNat), (14, o.a.toNat), (0, o.imm.toNat)]
  | .shli o => pack [(26, 6), (20, o.d.toNat), (14, o.a.toNat), (0, o.n.toNat)]
  | .shri o => pack [(26, 6), (20, o.d.toNat), (14, o.a.toNat), (6, 64), (0, o.n.toNat)]
  | .srai o => pack [(26, 6), (20, o.d.toNat), (14, o.a.toNat), (6, 128), (0, o.n.toNat)]
  | .li o => pack [(26, 7), (20, o.d.toNat), (0, o.imm.toNat)]
  | .lui o => pack [(26, 8), (20, o.d.toNat), (0, o.imm.toNat)]
  | .lhi o => pack [(26, 9), (20, o.d.toNat), (0, o.imm.toNat)]
  | .addpc o => pack [(26, 10), (20, o.d.toNat), (0, o.imm.toNat)]
  | .fshl o => pack [(26, 11), (20, o.d.toNat), (14, o.a.toNat), (8, o.b.toNat)]
  | .fshr o => pack [(26, 11), (20, o.d.toNat), (14, o.a.toNat), (8, o.b.toNat), (0, 1)]
  | .bxt o => pack [(26, 12), (20, o.d.toNat), (14, o.a.toNat), (8, o.b.toNat)]
  | .bxz o => pack [(26, 12), (20, o.d.toNat), (14, o.a.toNat), (8, o.b.toNat), (0, 1)]
  | .bins o => pack [(26, 12), (20, o.d.toNat), (14, o.a.toNat), (8, o.b.toNat), (0, 2)]
  | .bxti o => pack [(26, 13), (20, o.d.toNat), (14, o.a.toNat), (6, o.w.toNat), (0, o.o.toNat)]
  | .bxzi o => pack [(26, 13), (20, o.d.toNat), (14, o.a.toNat), (12, 1), (6, o.w.toNat), (0, o.o.toNat)]
  | .binsi o => pack [(26, 13), (20, o.d.toNat), (14, o.a.toNat), (12, 2), (6, o.w.toNat), (0, o.o.toNat)]
  | .sel o => pack [(26, 14), (20, o.d.toNat), (14, o.a.toNat), (8, o.b.toNat), (0, o.f.toNat)]
  | .cmp o => pack [(26, 16), (22, o.c.toNat), (16, o.a.toNat), (10, o.b.toNat), (0, o.f.toNat)]
  | .cmpi o => pack [(26, 17), (22, o.c.toNat), (16, o.a.toNat), (10, o.b.toNat), (0, o.f.toNat)]
  | .ptgt n i => pack [(26, 18), (20, n.toNat), (0, i.toNat)]
  | .ptgtr n a => pack [(26, 19), (20, n.toNat), (14, a.toNat)]
  | .xfer o => pack [(26, 20), (24, o.m.toNat), (21, o.n.toNat), (0, o.f.toNat)]
  | .xcall o => pack [(26, 21), (24, o.m.toNat), (21, o.n.toNat), (0, o.f.toNat)]
  | .fset f => pack [(26, 24), (4, f.toNat)]
  | .fclr f => pack [(26, 24), (4, f.toNat), (0, 1)]
  | .ftgl f => pack [(26, 24), (4, f.toNat), (0, 2)]
  | .ftest d f => pack [(26, 24), (20, d.toNat), (4, f.toNat), (0, 3)]
  | .fmov d f => pack [(26, 24), (20, d.toNat), (4, f.toNat), (0, 4)]
  | .fwait v f => pack [(26, 24), (20, v.toNat), (4, f.toNat), (0, 5)]
  | .fwaita f => pack [(26, 24), (4, f.toNat), (0, 6)]
  | .fsetReg o => pack [(26, 24), (14, o.a.toNat), (13, o.c.toNat), (0, 8)]
  | .fclrReg o => pack [(26, 24), (14, o.a.toNat), (13, o.c.toNat), (0, 9)]
  | .ftglReg o => pack [(26, 24), (14, o.a.toNat), (13, o.c.toNat), (0, 10)]
  | .ftestReg o => pack [(26, 24), (20, o.d.toNat), (14, o.a.toNat), (13, o.c.toNat), (0, 11)]
  | .fmovReg o => pack [(26, 24), (20, o.d.toNat), (14, o.a.toNat), (13, o.c.toNat), (0, 12)]
  | .fwaitReg v o => pack [(26, 24), (20, v.toNat), (14, o.a.toNat), (13, o.c.toNat), (0, 13)]
  | .fwaitaReg o => pack [(26, 24), (14, o.a.toNat), (13, o.c.toNat), (0, 14)]
  | .qput a q => pack [(26, 26), (14, a.toNat), (10, q.toNat)]
  | .qputToken q => pack [(26, 26), (10, q.toNat), (0, 4)]
  | .qget d q => pack [(26, 26), (20, d.toNat), (10, q.toNat), (0, 1)]
  | .qpeek d q => pack [(26, 26), (20, d.toNat), (10, q.toNat), (0, 2)]
  | .qcnt d q => pack [(26, 26), (20, d.toNat), (10, q.toNat), (0, 3)]
  | .ld o => pack [(26, 32), (20, o.d.toNat), (14, o.a.toNat), (12, o.z.toNat), (10, o.p.toNat), (0, o.o.toNat)]
  | .ldz o => pack [(26, 33), (20, o.d.toNat), (14, o.a.toNat), (12, o.z.toNat), (10, o.p.toNat), (0, o.o.toNat)]
  | .st o => pack [(26, 34), (20, o.d.toNat), (14, o.a.toNat), (12, o.z.toNat), (10, o.p.toNat), (0, o.o.toNat)]
  | .ldnc o => pack [(26, 35), (20, o.d.toNat), (14, o.a.toNat), (12, o.z.toNat), (10, 1), (0, o.o.toNat)]
  | .ldsl o => pack [(26, 36), (20, o.d.toNat), (14, o.a.toNat), (0, o.imm.toNat)]
  | .stsl o => pack [(26, 37), (20, o.d.toNat), (14, o.a.toNat), (0, o.imm.toNat)]
  | .atom o => pack [(26, 40), (20, o.d.toNat), (14, o.a.toNat), (13, o.z.toNat), (4, o.o.toNat), (2, o.r.toNat), (0, o.s.toNat)]
  | .acas o => pack [(26, 41), (20, o.d.toNat), (14, o.a.toNat), (8, o.b.toNat), (7, o.z.toNat), (2, o.r.toNat), (0, o.s.toNat)]
  | .aagg o => pack [(26, 42), (20, o.d.toNat), (14, o.a.toNat), (13, o.z.toNat), (2, o.r.toNat), (0, o.s.toNat)]
  | .rcsnap o => pack [(26, 43), (14, o.a.toNat), (8, o.b.toNat), (0, o.n.toNat)]
  | .fenceAcq s => pack [(26, 44), (0, s.toNat)]
  | .fenceRel s => pack [(26, 44), (2, 4), (0, s.toNat)]
  | .fenceAr s => pack [(26, 44), (2, 8), (0, s.toNat)]
  | .fenceSc s => pack [(26, 44), (2, 12), (0, s.toNat)]
  | .fenceInv s => pack [(26, 44), (2, 16), (0, s.toNat)]
  | .push o => pack [(26, 48), (20, o.e.toNat), (14, o.a.toNat), (0, o.f.toNat)]
  | .strip o => pack [(26, 49), (24, o.c.toNat), (23, o.j.toNat), (21, o.l.toNat), (15, o.g.toNat), (0, o.o.toNat)]
  | .cwait o => pack [(26, 50), (14, o.a.toNat), (8, o.b.toNat)]
  | .meet o => pack [(26, 52), (4, o.f.toNat), (0, o.l.toNat)]
  | .launch o => pack [(26, 53), (20, o.d.toNat), (14, o.a.toNat)]
  | .launchw o => pack [(26, 53), (20, o.d.toNat), (14, o.a.toNat), (0, 1)]
  | .ringacq o => pack [(26, 54), (20, o.d.toNat), (14, o.a.toNat), (8, o.b.toNat)]
  | .ringrel o => pack [(26, 54), (20, o.d.toNat), (14, o.a.toNat), (8, o.b.toNat), (0, 1)]
  | .mfs d r => pack [(26, 60), (20, d.toNat), (0, r.toNat)]
  | .mts a r => pack [(26, 61), (14, a.toNat), (0, r.toNat)]
  | .colQput o => pack [(26, 60), (22, o.gap.toNat), (16, o.q.toNat), (0, o.sel.toNat)]
  | .colQget o => pack [(26, 60), (22, o.gap.toNat), (20, 2), (16, o.q.toNat), (0, o.sel.toNat)]
  | .colFset o => pack [(26, 61), (22, o.gap.toNat), (0, o.f.toNat)]
  | .colFclr o => pack [(26, 61), (22, o.gap.toNat), (10, 1024), (0, o.f.toNat)]
  | .colFwait o => pack [(26, 61), (22, o.gap.toNat), (20, 2), (19, o.v.toNat), (0, o.f.toNat)]
  | .nopg o => pack [(26, 62), (22, o.gap.toNat), (0, o.n.toNat)]
  | .vadd o => pack [(26, 1), (22, o.gap.toNat), (17, o.d.toNat), (12, o.a.toNat), (7, o.b.toNat), (4, o.k.toNat)]
  | .vsub o => pack [(26, 1), (22, o.gap.toNat), (17, o.d.toNat), (12, o.a.toNat), (7, o.b.toNat), (4, o.k.toNat), (0, 1)]
  | .vmul o => pack [(26, 1), (22, o.gap.toNat), (17, o.d.toNat), (12, o.a.toNat), (7, o.b.toNat), (4, o.k.toNat), (0, 2)]
  | .vmin o => pack [(26, 1), (22, o.gap.toNat), (17, o.d.toNat), (12, o.a.toNat), (7, o.b.toNat), (4, o.k.toNat), (0, 3)]
  | .vmax o => pack [(26, 1), (22, o.gap.toNat), (17, o.d.toNat), (12, o.a.toNat), (7, o.b.toNat), (4, o.k.toNat), (0, 4)]
  | .vabs o => pack [(26, 1), (22, o.gap.toNat), (17, o.d.toNat), (12, o.a.toNat), (4, o.k.toNat), (0, 5)]
  | .vneg o => pack [(26, 1), (22, o.gap.toNat), (17, o.d.toNat), (12, o.a.toNat), (4, o.k.toNat), (0, 6)]
  | .vcpsgn o => pack [(26, 1), (22, o.gap.toNat), (17, o.d.toNat), (12, o.a.toNat), (7, o.b.toNat), (4, o.k.toNat), (0, 7)]
  | .vfma o => pack [(26, 2), (22, o.gap.toNat), (17, o.d.toNat), (12, o.a.toNat), (7, o.b.toNat), (4, o.k.toNat)]
  | .vfms o => pack [(26, 2), (22, o.gap.toNat), (17, o.d.toNat), (12, o.a.toNat), (7, o.b.toNat), (4, o.k.toNat), (0, 1)]
  | .vfnma o => pack [(26, 2), (22, o.gap.toNat), (17, o.d.toNat), (12, o.a.toNat), (7, o.b.toNat), (4, o.k.toNat), (0, 2)]
  | .vexp2 o => pack [(26, 3), (22, o.gap.toNat), (17, o.d.toNat), (12, o.a.toNat), (4, o.k.toNat)]
  | .vlog2 o => pack [(26, 3), (22, o.gap.toNat), (17, o.d.toNat), (12, o.a.toNat), (4, o.k.toNat), (0, 1)]
  | .vrcp o => pack [(26, 3), (22, o.gap.toNat), (17, o.d.toNat), (12, o.a.toNat), (4, o.k.toNat), (0, 2)]
  | .vrsq o => pack [(26, 3), (22, o.gap.toNat), (17, o.d.toNat), (12, o.a.toNat), (4, o.k.toNat), (0, 3)]
  | .vsqrt o => pack [(26, 3), (22, o.gap.toNat), (17, o.d.toNat), (12, o.a.toNat), (4, o.k.toNat), (0, 4)]
  | .vsigm o => pack [(26, 3), (22, o.gap.toNat), (17, o.d.toNat), (12, o.a.toNat), (4, o.k.toNat), (0, 5)]
  | .viadd o => pack [(26, 4), (22, o.gap.toNat), (17, o.d.toNat), (12, o.a.toNat), (7, o.b.toNat), (4, o.k.toNat)]
  | .visub o => pack [(26, 4), (22, o.gap.toNat), (17, o.d.toNat), (12, o.a.toNat), (7, o.b.toNat), (4, o.k.toNat), (0, 1)]
  | .vimul o => pack [(26, 4), (22, o.gap.toNat), (17, o.d.toNat), (12, o.a.toNat), (7, o.b.toNat), (4, o.k.toNat), (0, 2)]
  | .vimin o => pack [(26, 4), (22, o.gap.toNat), (17, o.d.toNat), (12, o.a.toNat), (7, o.b.toNat), (4, o.k.toNat), (0, 3)]
  | .vimax o => pack [(26, 4), (22, o.gap.toNat), (17, o.d.toNat), (12, o.a.toNat), (7, o.b.toNat), (4, o.k.toNat), (0, 4)]
  | .viminz o => pack [(26, 4), (22, o.gap.toNat), (17, o.d.toNat), (12, o.a.toNat), (7, o.b.toNat), (4, o.k.toNat), (0, 5)]
  | .vimaxz o => pack [(26, 4), (22, o.gap.toNat), (17, o.d.toNat), (12, o.a.toNat), (7, o.b.toNat), (4, o.k.toNat), (0, 6)]
  | .vand o => pack [(26, 4), (22, o.gap.toNat), (17, o.d.toNat), (12, o.a.toNat), (7, o.b.toNat), (4, o.k.toNat), (0, 7)]
  | .vor o => pack [(26, 4), (22, o.gap.toNat), (17, o.d.toNat), (12, o.a.toNat), (7, o.b.toNat), (4, o.k.toNat), (0, 8)]
  | .vxor o => pack [(26, 4), (22, o.gap.toNat), (17, o.d.toNat), (12, o.a.toNat), (7, o.b.toNat), (4, o.k.toNat), (0, 9)]
  | .vshl o => pack [(26, 4), (22, o.gap.toNat), (17, o.d.toNat), (12, o.a.toNat), (7, o.b.toNat), (4, o.k.toNat), (0, 10)]
  | .vshr o => pack [(26, 4), (22, o.gap.toNat), (17, o.d.toNat), (12, o.a.toNat), (7, o.b.toNat), (4, o.k.toNat), (0, 11)]
  | .vsra o => pack [(26, 4), (22, o.gap.toNat), (17, o.d.toNat), (12, o.a.toNat), (7, o.b.toNat), (4, o.k.toNat), (0, 12)]
  | .vpopc o => pack [(26, 4), (22, o.gap.toNat), (17, o.d.toNat), (12, o.a.toNat), (4, o.k.toNat), (0, 13)]
  | .vbxt o => pack [(26, 5), (22, o.gap.toNat), (17, o.d.toNat), (12, o.a.toNat), (7, o.b.toNat), (4, o.k.toNat)]
  | .vbxz o => pack [(26, 5), (22, o.gap.toNat), (17, o.d.toNat), (12, o.a.toNat), (7, o.b.toNat), (4, o.k.toNat), (0, 1)]
  | .vbins o => pack [(26, 5), (22, o.gap.toNat), (17, o.d.toNat), (12, o.a.toNat), (7, o.b.toNat), (4, o.k.toNat), (0, 2)]
  | .vfshl o => pack [(26, 5), (22, o.gap.toNat), (17, o.d.toNat), (12, o.a.toNat), (7, o.b.toNat), (4, o.k.toNat), (0, 3)]
  | .vfshr o => pack [(26, 5), (22, o.gap.toNat), (17, o.d.toNat), (12, o.a.toNat), (7, o.b.toNat), (4, o.k.toNat), (0, 4)]
  | .vcmp o => pack [(26, 6), (22, o.gap.toNat), (17, o.d.toNat), (12, o.a.toNat), (7, o.b.toNat), (4, o.k.toNat), (0, o.c.toNat)]
  | .vsel o => pack [(26, 7), (22, o.gap.toNat), (17, o.d.toNat), (12, o.a.toNat), (7, o.b.toNat), (4, o.k.toNat)]
  | .vrsum o => pack [(26, 8), (22, o.gap.toNat), (17, o.d.toNat), (12, o.a.toNat), (4, o.k.toNat)]
  | .vrmax o => pack [(26, 8), (22, o.gap.toNat), (17, o.d.toNat), (12, o.a.toNat), (4, o.k.toNat), (0, 1)]
  | .vrmin o => pack [(26, 8), (22, o.gap.toNat), (17, o.d.toNat), (12, o.a.toNat), (4, o.k.toNat), (0, 2)]
  | .vcsum o => pack [(26, 8), (22, o.gap.toNat), (17, o.d.toNat), (12, o.a.toNat), (4, o.k.toNat), (0, 3)]
  | .vcmax o => pack [(26, 8), (22, o.gap.toNat), (17, o.d.toNat), (12, o.a.toNat), (4, o.k.toNat), (0, 4)]
  | .vany o => pack [(26, 9), (22, o.gap.toNat), (12, o.f.toNat), (4, o.k.toNat)]
  | .vall o => pack [(26, 9), (22, o.gap.toNat), (12, o.f.toNat), (4, o.k.toNat), (0, 1)]
  | .vperm o => pack [(26, 10), (22, o.gap.toNat), (17, o.d.toNat), (12, o.a.toNat), (7, o.b.toNat), (4, o.k.toNat)]
  | .vtrn o => pack [(26, 10), (22, o.gap.toNat), (17, o.d.toNat), (12, o.a.toNat), (7, o.b.toNat), (4, o.k.toNat), (0, 1)]
  | .vbcast o => pack [(26, 10), (22, o.gap.toNat), (17, o.d.toNat), (12, o.a.toNat), (7, o.b.toNat), (4, o.k.toNat), (0, 2)]
  | .vrot o => pack [(26, 10), (22, o.gap.toNat), (17, o.d.toNat), (12, o.a.toNat), (7, o.b.toNat), (4, o.k.toNat), (0, 3)]
  | .vcvt o => pack [(26, 11), (22, o.gap.toNat), (17, o.d.toNat), (12, o.a.toNat), (9, o.r.toNat), (4, o.k.toNat), (0, o.t.toNat)]
  | .vquant o => pack [(26, 12), (22, o.gap.toNat), (17, o.d.toNat), (12, o.a.toNat), (9, o.r.toNat), (4, o.k.toNat), (0, o.t.toNat)]
  | .vdeq o => pack [(26, 13), (22, o.gap.toNat), (17, o.d.toNat), (12, o.a.toNat), (4, o.k.toNat), (0, o.t.toNat)]
  | .vmov o => pack [(26, 14), (22, o.gap.toNat), (17, o.d.toNat), (12, o.a.toNat), (4, o.k.toNat)]
  | .vldi o => pack [(26, 14), (22, o.gap.toNat), (17, o.d.toNat), (7, o.i.toNat), (4, o.k.toNat), (0, 1)]
  | .vshape o => pack [(26, 14), (22, o.gap.toNat), (17, o.d.toNat), (12, o.r.toNat), (8, o.c.toNat), (0, 2)]
  | .mand o => pack [(26, 15), (22, o.gap.toNat), (17, o.d.toNat), (12, o.a.toNat), (7, o.b.toNat), (4, o.k.toNat)]
  | .mor o => pack [(26, 15), (22, o.gap.toNat), (17, o.d.toNat), (12, o.a.toNat), (7, o.b.toNat), (4, o.k.toNat), (0, 1)]
  | .mxor o => pack [(26, 15), (22, o.gap.toNat), (17, o.d.toNat), (12, o.a.toNat), (7, o.b.toNat), (4, o.k.toNat), (0, 2)]
  | .mnot o => pack [(26, 15), (22, o.gap.toNat), (17, o.d.toNat), (12, o.a.toNat), (4, o.k.toNat), (0, 3)]
  | .mrange o => pack [(26, 15), (22, o.gap.toNat), (17, o.d.toNat), (12, o.a.toNat), (4, o.k.toNat), (0, 4)]
  | .mma o => pack [(26, 32), (22, o.gap.toNat), (20, o.n.toNat), (16, o.a.toNat), (12, o.b.toNat), (11, o.s.toNat), (10, o.f.toNat), (9, o.c.toNat)]
  | .mmas o => pack [(26, 33), (22, o.gap.toNat), (20, o.n.toNat), (16, o.a.toNat), (12, o.b.toNat), (8, o.x.toNat), (6, o.m.toNat), (5, o.s.toNat), (4, o.f.toNat), (3, o.c.toNat)]
  | .mmag o => pack [(26, 34), (22, o.gap.toNat), (20, o.n.toNat), (15, o.i.toNat), (11, o.b.toNat), (10, o.s.toNat), (9, o.f.toNat), (8, o.c.toNat), (1, o.t.toNat)]
  | .mzero o => pack [(26, 35), (22, o.gap.toNat), (20, o.n.toNat)]
  | .mclose o => pack [(26, 35), (22, o.gap.toNat), (20, o.n.toNat), (0, 1)]
  | .mwake gap => pack [(26, 35), (22, gap.toNat), (0, 2)]
  | .mopen o => pack [(26, 35), (22, o.gap.toNat), (20, o.n.toNat), (0, 3)]
  | .mshut o => pack [(26, 35), (22, o.gap.toNat), (20, o.n.toNat), (0, 4)]
  | .smxstep o => pack [(26, 36), (22, o.gap.toNat), (20, o.n.toNat), (15, o.s.toNat), (11, o.p.toNat), (6, o.x.toNat), (5, o.b.toNat), (2, o.k.toNat), (0, o.f.toNat)]
  | .smxfin o => pack [(26, 37), (22, o.gap.toNat), (20, o.n.toNat), (15, o.v.toNat)]
  | .smxmerge o => pack [(26, 38), (22, o.gap.toNat), (20, o.n.toNat), (15, o.v.toNat)]
  | .mstget o => pack [(26, 39), (22, o.gap.toNat), (20, o.n.toNat), (15, o.v.toNat)]
  | .mstset o => pack [(26, 39), (22, o.gap.toNat), (20, o.n.toNat), (15, o.v.toNat), (0, 1)]
  | .macc2v o => pack [(26, 40), (22, o.gap.toNat), (20, o.n.toNat), (15, o.v.toNat)]
  | .mv2acc o => pack [(26, 40), (22, o.gap.toNat), (20, o.n.toNat), (15, o.v.toNat), (0, 1)]
  | .madh o => pack [(26, 41), (22, o.gap.toNat), (20, o.n.toNat), (15, o.v.toNat), (1, o.c.toNat), (0, o.h.toNat)]
  | .ldt o => pack [(26, 1), (22, o.gap.toNat), (18, o.e.toNat), (11, o.s.toNat), (8, o.n.toNat), (5, o.k.toNat), (4, o.t.toNat)]
  | .ldtu o => pack [(26, 2), (22, o.gap.toNat), (18, o.e.toNat), (11, o.s.toNat), (8, o.n.toNat), (5, o.k.toNat), (4, o.t.toNat)]
  | .tld o => pack [(26, 3), (22, o.gap.toNat), (18, o.e.toNat), (14, o.t.toNat), (13, o.x.toNat)]
  | .vld o => pack [(26, 4), (22, o.gap.toNat), (18, o.e.toNat), (13, o.v.toNat), (10, o.k.toNat), (8, o.p.toNat), (7, o.x.toNat)]
  | .gld o => pack [(26, 5), (22, o.gap.toNat), (18, o.e.toNat), (13, o.v.toNat), (8, o.i.toNat), (5, o.k.toNat), (3, o.p.toNat)]
  | .bfx o => pack [(26, 6), (22, o.gap.toNat), (18, o.e.toNat), (13, o.v.toNat), (10, o.p.toNat), (8, o.s.toNat)]
  | .eadd o => pack [(26, 7), (22, o.gap.toNat), (18, o.e.toNat), (14, o.p.toNat), (0, o.i.toNat)]
  | .eset o => pack [(26, 7), (22, o.gap.toNat), (18, o.e.toNat), (16, 1), (14, o.p.toNat), (0, o.i.toNat)]
  | .emov o => pack [(26, 7), (22, o.gap.toNat), (18, o.e.toNat), (16, 2), (14, o.p.toNat), (10, o.s.toNat)]
  | .kvx o => pack [(26, 8), (22, o.gap.toNat), (18, o.e.toNat), (14, o.q.toNat)]
  | .wld o => pack [(26, 9), (22, o.gap.toNat), (18, o.e.toNat), (11, o.s.toNat), (8, o.k.toNat), (7, o.t.toNat)]
  | .stt o => pack [(26, 1), (22, o.gap.toNat), (18, o.e.toNat), (11, o.s.toNat), (8, o.n.toNat), (5, o.k.toNat), (4, o.t.toNat)]
  | .sttu o => pack [(26, 2), (22, o.gap.toNat), (18, o.e.toNat), (11, o.s.toNat), (8, o.n.toNat), (5, o.k.toNat), (4, o.t.toNat)]
  | .twr o => pack [(26, 3), (22, o.gap.toNat), (18, o.e.toNat), (14, o.t.toNat)]
  | .vst o => pack [(26, 4), (22, o.gap.toNat), (18, o.e.toNat), (13, o.v.toNat), (10, o.k.toNat), (8, o.p.toNat)]
  | .sct o => pack [(26, 5), (22, o.gap.toNat), (18, o.e.toNat), (13, o.v.toNat), (8, o.i.toNat), (5, o.k.toNat), (3, o.p.toNat)]
  | .acst o => pack [(26, 6), (22, o.gap.toNat), (18, o.e.toNat), (16, o.n.toNat), (12, o.t.toNat)]
  | .partCreate _ => 0
  | .partResize _ => 0
  | .partDestroy _ => 0
  | .partReset _ => 0
  | .worldCreate _ => 0
  | .worldDestroy _ => 0
  | .worldBind _ => 0
  | .worldUnbind _ => 0
  | .quotaGet _ => 0
  | .quotaSet _ => 0
  | .pageAlloc _ => 0
  | .pageFree _ => 0
  | .prefixReg _ => 0
  | .keyRotate _ => 0
  | .powerCapSet _ => 0
  | .fwWrite _ => 0
  | .cfgWrite _ => 0
  | .logRead _ => 0
  | .errRead _ => 0
  | .resync _ => 0
  | .qreset _ => 0
  | .queueLaunch _ => 0
  | .copyH2d _ => 0
  | .copyD2h _ => 0
  | .objWait _ => 0
  | .copy2d _ => 0
  | .copyr _ => 0
  | .slattn _ => 0
  | .lgmerge _ => 0
  | .lgunmerge _ => 0
  | .lgsave _ => 0
  | .lgdrop _ => 0
  | .adpin _ => 0
  | .adunpin _ => 0
  | .adpubCreate _ => 0
  | .adpubGrant _ => 0
  | .adpubPrepare _ => 0
  | .adpubCommit _ => 0
  | .adpubDelete _ => 0
  | .kalloc _ => 0
  | .kallocPool _ => 0
  | .kextendAlloc _ => 0
  | .kextendShare _ => 0
  | .kextendSetlen _ => 0
  | .kfree _ => 0
  | .migrate _ => 0
  | .migrateReplica _ => 0
  | .migrateCancel _ => 0
  | .colred _ => 0
  | .colgat _ => 0
  | .colscat _ => 0
  | .wload _ => 0
  | .nop => pack [(26, 0), (0, 1)]
  | .eret => pack [(26, 0), (0, 3)]
  | .yieldGang => pack [(26, 0), (0, 4)]
  | .exit => pack [(26, 0), (0, 5)]
  | .brk => pack [(26, 0), (0, 6)]
  | .powerOnReset => 0
  | .hotReset => 0
  | .powerTrip => 0
  | .powerTripRelease => 0
  | .thermalPowerOff => 0
  | .governorWindow => 0
  | .islCtlTgtWrite => 0
  | .drainComplete => 0
  | .islandAbandon => 0
  | .relockEnd => 0
  | .strokeTick => 0
  | .weightsLate => 0
  | .ageingPromotion => 0
  | .watchdogExpiry => 0
  | .gangDispatch => 0
  | .wideGangStart => 0
  | .preemptionSave => 0
  | .launchEnd => 0
  | .barrierComplete => 0
  | .stripBodyLoad => 0
  | .stripGroupStart => 0
  | .stripRepeatEnd => 0
  | .slotDonation => 0
  | .slotMiss => 0
  | .timedReadDelivery => 0
  | .timedWriteAccept => 0
  | .untimedLoadArrival => 0
  | .storePerformed => 0
  | .linkCrcFail => 0
  | .voidWindowStart => 0
  | .repairEnd => 0
  | .errorWindowBoundary => 0
  | .cxlDown => 0
  | .cxlRetrain => 0
  | .cxlPoisonReport => 0
  | .migrationStart => 0
  | .migrationSwitch => 0
  | .migrationAbandon => 0
  | .sweepStart => 0
  | .sweepLine => 0
  | .prefixRefetch => 0
  | .hostLinkDown => 0
  | .hostLinkRetrain => 0
  | .hostLinkLost => 0
  | .ideCheckFail => 0
  | .lockInterface => 0
  | .startInterface => 0
  | .stopInterface => 0
  | .spdmGetMeasurements => 0
  | .spdmKeyExchange => 0
  | .ideKmKeyProg => 0
  | .null => 0
  | .ldReq => 0
  | .ldRsp => 0
  | .atomReq => 0
  | .atomRsp => 0
  | .nack => 0
  | .remoteRetry => 0
  | .copyData => 0
  | .copyAck => 0
  | .colData => 0
  | .memb => 0
  | .memberLost => 0
  | .flitCheckFail => 0
  | .portRetrain => 0
  | .linkRekey => 0
  | .sqTailWrite => 0
  | .cqHeadWrite => 0
  | .qctlEnSet => 0
  | .qctlEnClear => 0
  | .hostCommandComplete => 0
  | .wdogSetApply => 0
  | .dbgStop => 0
  | .dbgResume => 0
  | .fabpStatRead => 0
  | .registerWrite => 0
  | .trapEntry => 0
  | .supervisorResolve => 0
  | .translationWalkDone => 0
  | .softError => 0
  | .aaggWindowClose => 0
  | .subarrayGate => 0
  | .commandEnd => 0
  | .followOnIssue => 0
  | .migrationLineCopy => 0
  | .refetchingMarkClear => 0

/-- The word of an instruction. -/
def encode (i : Instr) : Word := BitVec.ofNat 32 (encodeNat i)

/-- The first of several readings that is an instruction. -/
def firstOk : List (Decoded) → Option Instr
  | [] => none
  | .ok i :: _ => some i
  | .error _ :: rest => firstOk rest

/-- The instruction read from a table word of `nbits` bits. The four opcode spaces overlap, and a word does not name its stream: the S stream reads
it where it can, then the C, the L and the W column (log 10). -/
def decodeTableWord (nbits w : Nat) : Option Instr :=
  if nbits ≤ 32 then
    let x := BitVec.ofNat 32 (w % 2 ^ nbits)
    firstOk [decode .s x, decode (.col .colC) x, decode (.col .colL) x, decode (.col .colW) x]
  else none

end Sys2Proof
end

