-- ==== Sys2Proof/Config.lean ====
section
/-! DEFINITION. What an implementation fixes, and the free values (values that the spec leaves open). A free value has no body. -/

namespace Sys2Proof.Config

/-- A free 64-bit value, drawn at a count of State's field `fresh` (log 7). -/
opaque freeWord : Nat → BitVec 64

/-- Further cycles that an off-core access takes beyond its unloaded latency (15_isa_memory R416, R427, R432: typical only; log 8). -/
opaque freeDelay : Nat → Nat

/-- SHAKE256 of a byte string, with the output length in bytes (03_links_trust R90; the function itself is outside the spec, log 9). -/
opaque shake256 : List (BitVec 8) → Nat → List (BitVec 8)

/-- The line that AES-256-XTS makes of a line of one key under another, by the line, its key, the other key and its address (03_links_trust R96; log 9). -/
opaque misDecrypt : BitVec 512 → Nat → Nat → Nat → BitVec 512

/-- The ciphertext of a line, by its bytes, its key and its address (R96, 10_traps R315; log 9). -/
opaque cipher : BitVec 512 → Nat → Nat → BitVec 512

/-- The AES-256-GCM tag of 16 bytes, by key, nonce of 12 bytes and the bytes that it covers (03_links_trust R80, R83, R90; log 9). -/
opaque gcmTag : Nat → BitVec 96 → List (BitVec 8) → BitVec 128

/-- An ML-KEM-1024 ciphertext of 1,568 bytes, which carries a secret of 32 bytes to the holder of a key pair, by that node (R90, R104; log 9). -/
opaque mlkemSeal : Nat → Nat → BitVec 12544

/-- A key as it is distributed under a group secret, by the secret and the key (R106; log 9). -/
opaque wrapKey : Nat → Nat → BitVec 512

/-- The manufacturer's certificate chain in SPDM slot 0, by the seed (R91; log 9). -/
opaque makerChain : Nat → List (BitVec 8)

/-- The mask ROM's bytes, which measurement block 1 covers (03_links_trust R91; they are outside the spec, log 9). -/
opaque maskRom : List (BitVec 8)

/-- SLH-DSA-SHAKE-256s verification under the vendor's public key of 64 bytes: content, then the signature of 29,792 bytes (01_package R30, R90; the
algorithm is outside the spec, log 9). -/
opaque slhVerify : List (BitVec 8) → List (BitVec 8) → Bool

/-- Bits [31:0] of SHAKE256 of the identity public key that the seed gives (01_package R30 step 3, R35; the key generation is outside the spec, log 9). -/
opaque identity : Nat → BitVec 32

/-- The signature in a firmware image or configuration record as written to flash, and its numbered fields (01_package R30, R31: the layouts are
outside the spec, log 2). Of an image: 0 security version, 1 running version. Of a record: 0 sequence number, 1 security floor, 2 POWER_CAP, 3 stroke
period, 4 adapter-cache ways, 5 THRESH, 6 WIN_EXP, 7 CXL IDE. -/
opaque imageSig : List (BitVec 8) → List (BitVec 8)
opaque imageField : List (BitVec 8) → Nat → Nat

/-- The lists that a record's content carries as written to flash: the island limits and the partition template (01_package R30 step 5; the layout
is outside the spec, log 2). -/
opaque recordLimits : List (BitVec 8) → List Nat
opaque recordTemplate : List (BitVec 8) → List (BitVec 8)

/-- An erase of an HBF block, by its number and its count of erases, fails (02_memory_tiers R61: when, the part shows; log 88). -/
opaque eraseFails : Nat → Nat → Bool

/-- The latency of a core-local or uncontended translation walk: "about 300 cycles" (15_isa_memory R413; log 8). -/
opaque walkDelay : Nat → Nat

/-- Acceptance delay of a shared engine: 20 to 60 cycles (16_isa_engines R436), the amount above 20 (log 8). -/
opaque acceptDelay : Nat → Nat

/-- The virtual page at which a partition's scheduler maps the capability table into its tasks (01_package R36: the address is its choice; log 12). -/
opaque capabilityPage : Nat → BitVec 52

/-- Bits [63:7] of the virtual address of a core's calendar map (02_memory_tiers R49: the address is the scheduler's choice; log 12). -/
opaque calendarMapLine : Nat → BitVec 57

/-- The device address of the event log in world 0 memory, and the tile page of HBM at which it begins (04_host_interface R123, R126: both are the
firmware's; log 20). -/
opaque eventLogVa : BitVec 64
opaque eventLogPage : Nat

end Sys2Proof.Config
end

