-- ==== Sys2Proof/Machine/State.lean ====
section
/-! DEFINITION. The state of the package as plain data (INVENTORY.md, '## State'), the reasons a step can stop, and the state after reset. -/

namespace Sys2Proof.Machine

/-! ### Traps -/

/-- The trap causes with their subcauses (10_traps R295). -/
inductive Cause where
  | illegal
  | privilege
  | alignment
  | unmapped
  | permission
  | kvExtent
  | adapterResidency
  | late
  | tag
  | formatTag
  | race
  | poison
  | quota
  | world
  | mapLost
  | watchdog
  | viewChanged
  | debugBreak
  | trapInstr (code : BitVec 8)
  | floating (flags : BitVec 6)
  | machineCore
  | machineEngine
  deriving DecidableEq, Repr

/-- A trap as raised: its cause, its source code (R302), whether it names an engine entry, the faulting PC and address, and the detail field of the
trap record (R312). -/
structure Trap where
  cause : Cause
  source : Nat := 0
  entry : Bool := false
  pc : Dword := 0
  addr : Dword := 0
  detail : BitVec 512 := 0
  /-- The tile slot of a TAG or LATE fault (R305). -/
  slot : Option Nat := none
  deriving DecidableEq, Repr

/-! ### Registers of a core -/

/-- An e register: address, tag and stride (11_isa_formats R326). -/
structure EReg where
  addr : BitVec 48
  tag : BitVec 16
  stride : BitVec 32
  deriving DecidableEq, Repr

/-- A failed destination: the cause its first consumer raises, and the line address (15_isa_memory R414). -/
structure Failed where
  cause : Cause
  addr : Dword
  detail : BitVec 512
  deriving DecidableEq, Repr

/-- A vector register (13_isa_vector R371): bytes, tag, shape, poison; producers that have issued and are still to write it
(06_core R175); failed mark (R414). -/
structure VReg where
  data : BitVec 65536
  tag : BitVec 4
  rows : Nat
  cols : Nat
  poison : Bool
  busy : Nat
  failed : Option Failed
  deriving DecidableEq, Repr

/-- A tile register. -/
structure TReg where
  data : BitVec 65536
  tag : BitVec 4
  poison : Bool
  busy : Nat
  failed : Option Failed
  deriving DecidableEq, Repr

/-- The side context of an accumulator (07_serving_structures R211). -/
structure SideCtx where
  isOpen : Bool
  /-- A close in progress completes in this cycle; until then the context stands open to the adapter engine. -/
  closing : Cycle
  layer : BitVec 12
  proj : BitVec 4
  blk : BitVec 16
  cursor : Nat
  latched : Vector (Option (BitVec 32)) 8
  deriving DecidableEq, Repr

/-- An accumulator (14_isa_matrix R395): 64 x 64 sums of 32 bits, tag, poison, row state m, l and status, side accumulators, side context, window.
`stepDone` is the first cycle after the sums of its steps are final, `writeDone` the first after its other writes (R396). -/
structure Acc where
  sums : BitVec 131072
  tag : BitVec 4
  poison : Bool
  m : BitVec 2048
  l : BitVec 2048
  masked : BitVec 64
  sat : BitVec 64
  side : BitVec 131072
  ctx : SideCtx
  window : Bool
  stepDone : Cycle
  writeDone : Cycle
  deriving DecidableEq, Repr

/-- A handle register ah: eight handles (R210) and the handle and version that a strip or MADH pin holds for each group, none for an unpinned group
(R205). -/
structure AhReg where
  handles : Vector (BitVec 32) 8
  pins : Vector (Option (BitVec 24 × BitVec 32)) 8
  deriving DecidableEq, Repr

/-- An entry of a queue register (06_core R178), with the cycle it was written in. -/
structure QEntry where
  payload : Dword
  token : Bool
  poison : Bool
  stamp : Cycle
  deriving DecidableEq, Repr

/-- A queue register: its entries in order, and how many places were freed in cycle `freedAt` (R178). -/
structure Queue where
  entries : List QEntry
  freedAt : Cycle
  freedN : Nat
  deriving DecidableEq, Repr

/-- A tile slot (06_core R184): tag, pending producers, owner, line poison bits, and a failed mark (09 R282, 15 R414). -/
structure TileSlot where
  tag : BitVec 16
  pend : BitVec 4
  owner : BitVec 6
  poison : BitVec 64
  failed : Option Failed
  deriving DecidableEq, Repr

/-- The system registers of a core that MTS writes or traps set. -/
structure SysRegs where
  /-- FP_CTL.RMODE (08_formats R243). -/
  rmode : BitVec 3
  /-- FP_CTL.TRAPEN (R243). -/
  trapen : BitVec 6
  /-- FP_STICKY (R244). -/
  sticky : BitVec 6
  /-- SR_SEED (R246). -/
  srSeed : BitVec 32
  /-- SR generator state and strip ordinal (R246). -/
  srState : BitVec 32
  srOrdinal : BitVec 32
  /-- GATE_CTL.IDLE (06_core R193). -/
  gateIdle : BitVec 16
  /-- RING_CTL.LEN (R183). -/
  ringLen : BitVec 5
  /-- TSLOT_SEL (R184). -/
  tslotSel : BitVec 7
  /-- TRAP_CAUSE, TRAP_PC, TRAP_ADDR, TRAP_CUT, TRAP_VEC (10_traps R302). -/
  trapCause : Dword
  trapPc : Dword
  trapAddr : Dword
  trapCut : Dword
  trapVec : Dword
  /-- DBG_EN (R320). -/
  dbgEn : Bool
  /-- WORLD_TAG (12_isa_scalar R369). -/
  world : BitVec 6
  /-- TASK_ID (05 R141). -/
  taskId : Dword
  /-- LEVEL_IDX0 to LEVEL_IDX7 (R141). -/
  levelIdx : Vector Dword 8
  /-- WDOG_LIMIT: limit and count (R162). -/
  wdogLimit : BitVec 32
  wdogCount : BitVec 32
  deriving DecidableEq, Repr

/-! ### Sequencers -/

/-- A pending transfer: delay words left, whether it is taken, its target (12_isa_scalar R359). -/
structure Xfer where
  left : Nat
  taken : Bool
  target : Dword
  deriving DecidableEq, Repr

/-- A queued strip (06_core R169, R170): header address, body length, repeat count, group; the body once loaded, and a fault met while loading. -/
structure QStrip where
  hdr : Dword
  len : Nat
  count : Nat
  grp : Nat
  body : Option (List Word)
  fault : Option Trap
  deriving DecidableEq, Repr

/-- A group of strips (R171): its number, its columns, the alignment of its last strip, and the cycle it was closed in (none while open). -/
structure Grp where
  id : Nat
  cols : List Col
  align : Nat
  closed : Option Cycle
  deriving DecidableEq, Repr

/-- The running strip of a column (R172, R173): body, repeat count, repeat and word index, and the scheduled issue cycle of the next word. -/
structure Running where
  hdr : Dword
  grp : Nat
  body : List Word
  count : Nat
  rep : Nat
  idx : Nat
  next : Cycle
  deriving DecidableEq, Repr

/-- A column sequencer. -/
structure ColSeq where
  /-- Entry address of the code section (05 R137). -/
  entry : Dword
  /-- The strip queue, head first (R169). -/
  queue : List QStrip
  run : Option Running
  /-- Strips started, for the cut (10 R304). -/
  ordinal : BitVec 32
  /-- The cycle of the last issued word (R171). -/
  lastIssue : Cycle
  /-- The load or store port is busy before this cycle (15 R434). -/
  portBusy : Cycle
  deriving DecidableEq, Repr

/-- An effect on core-local state that lands at the end of its effect cycle, and is read from the next cycle on (09_memory_model R272, R273). -/
inductive Effect where
  /-- Bytes of scratchpad-local space (15 R411); `poison` joins the poison bits of the lines written. -/
  | localWrite (addr : Nat) (bytes : List Byte) (poison : Bool)
  /-- A mask register: the bits of `keep` stay. -/
  | mask (m : BitVec 3) (keep val : BitVec 2048)
  /-- The address part of an e register (KVX). -/
  | eAddr (e : BitVec 4) (a : BitVec 48)
  | sticky (f : BitVec 6)
  | stickyClear (f : BitVec 6)
  /-- A core flag set by an engine, in the engine slot (06 R181). -/
  | flagSet (f : BitVec 10)
  | fpCtl (rmode : BitVec 3) (trapen : BitVec 6)
  | srSeed (v : BitVec 32)
  | gateIdle (v : BitVec 16)
  | ringLen (v : BitVec 5)
  | tslotSel (v : BitVec 7)
  /-- One more outstanding producer of a v or t register. -/
  | vPend (v : BitVec 5)
  | tPend (t : BitVec 4)
  /-- A v register's new contents; `ends` tells that an outstanding producer ends with it. -/
  | vWrite (v : BitVec 5) (data : BitVec 65536) (tag : BitVec 4) (rows cols : Nat) (poison : Bool) (ends : Bool)
  | tWrite (t : BitVec 4) (data : BitVec 65536) (tag : BitVec 4) (poison : Bool) (ends : Bool)
  /-- An atomic on the core's own scratchpad, flags or patterns: it acts at the start of its effect cycle, in the S slot (15 R417). -/
  | lowAtomic (d : GReg) (addr size op : Nat) (x y : Dword)
  /-- A load of core flag bytes by the S stream (09 R273). -/
  | flagLoad (d : GReg) (addr size : Nat) (signed : Bool)
  /-- A producer of a t register ends without a write. -/
  | tEnd (t : BitVec 4)
  /-- A load that failed its line checks: the destination is marked (15 R414). -/
  | vFail (v : BitVec 5) (f : Failed)
  | tFail (t : BitVec 4) (f : Failed)
  | handles (n : BitVec 2) (h : Vector (BitVec 32) 8)
  /-- A tagged producer of a tile slot issues or starts; lands with its tag; a void delivery writes the void tag (06 R185, 02 R56). -/
  | slotPend (slot : Nat)
  | slotLand (slot : Nat) (tag : BitVec 16) (issued : Cycle)
  | slotVoid (slot : Nat) (issued : Cycle)
  /-- A producer has written the slot whole, which clears its failed mark (15 R414). -/
  | slotWhole (slot : Nat)
  | slotFail (slot : Nat) (f : Failed)
  deriving DecidableEq, Repr

/-- A delayed effect with its effect cycle and its place in the order S, L, C, W, engines (R272). -/
structure Fx where
  due : Cycle
  order : Nat
  eff : Effect
  deriving DecidableEq, Repr

/-- A page table entry: world, virtual page, size in 64 KiB pages, physical base, permissions, key slot (02 R38, 03 R96, 04 R485). -/
structure Pte where
  world : BitVec 6
  va : Nat
  pages : Nat
  pa : Nat
  write : Bool
  exec : Bool
  keySlot : BitVec 12
  deriving DecidableEq, Repr

/-- A producer that a REISSUE issues again (10_traps R305): an LDT, by its word, slot and tag, its physical address, requests and slot offset. -/
structure Reissue where
  word : Dword
  slot : Nat
  tag : BitVec 16
  pa : Nat
  va : Nat
  page : Pte
  n : Nat
  off : Nat
  deriving DecidableEq, Repr

/-- Why a core does not run on (10_traps R298, R307, R320; 15 R413; 05 R158). -/
inductive Hold where
  /-- Not held. -/
  | none
  /-- A trap is on its way to the user handler, which waits until every issued word and started command completes (R299). -/
  | entering (t : Trap)
  /-- A user handler runs on the S stream; columns and engine queues hold their cuts (R299). -/
  | handler
  /-- An ERET reissued producers, which must land before the streams go on (R305). -/
  | reissue
  /-- Held for the supervisor (R298). -/
  | supervisor (t : Trap)
  /-- Waiting in the cluster fault queue (R307). -/
  | faultQueue (t : Trap)
  /-- A translation stall: an address in each page still to walk, the cycle in which the last walk returns, and the word's trap should one fail
  (15 R413). -/
  | walk (pages : List Nat) (due : Cycle) (t : Trap)
  /-- A LAUNCHW found the pool full: the task stops to be parked (05 R157). -/
  | parking
  /-- Stopped by DBG_CTL or BREAK (R321). -/
  | debug
  /-- Its task has failed, and its gang stops at an engine-command boundary (05 R147). -/
  | failed
  deriving DecidableEq, Repr

/-! ### Memory traffic of a core -/

/-- The sideband of a line outside the scratchpad (04_host_interface R127), and the number of the key it lies under (03 R96; log 9). -/
structure Side where
  sync : BitVec 8
  writer : BitVec 10
  replica : Bool
  poison : Bool
  world : BitVec 6
  key : Nat
  deriving DecidableEq, Repr

/-- A 512-byte calendar request (02_memory_tiers R52): of a read into, or a write from, a tile slot. `start` is the calendar cycle of its bound
slot; `sample` holds what a read found at its slot start (R53). `base` and `total` are the slot offset of the instruction's first request and how many
requests it has. -/
structure Timed where
  isWrite : Bool
  instr : Nat
  channel : Nat
  start : Cycle
  late : Bool
  pa : Nat
  /-- The address and the page table entry that the issue translated. -/
  va : Nat
  page : Pte
  slot : Nat
  off : Nat
  base : Nat
  total : Nat
  tagged : Option (BitVec 16)
  /-- The cycle of its core in which the instruction issued (06 R185). -/
  issued : Cycle
  last : Bool
  isVoid : Bool
  /-- An earlier request of the instruction was delivered void. -/
  voided : Bool
  /-- An earlier request of the instruction failed a check. -/
  faulty : Bool
  data : BitVec 4096
  sample : Option (BitVec 4096)
  sides : List (Option Side)
  /-- The writer's own count when a write issued (09 R279). -/
  stamp : BitVec 8
  world : BitVec 6
  word : Dword
  deriving DecidableEq, Repr

/-- What an untimed column load does with its bytes when they arrive. -/
inductive LoadKind where
  | vreg (v : BitVec 5) (tag : BitVec 4) (act : BitVec 2048)
  | treg (t : BitVec 4) (tag : BitVec 4)
  | bitfield (v : BitVec 5) (tag : BitVec 4) (pattern : BitVec 512)
  deriving DecidableEq, Repr

/-- An untimed column load in flight (15_isa_memory R425, R427): the physical address of each byte it reads, or none for a zero byte; the lines it
reads, as physical address, virtual address and page, and the lines it has so far. -/
structure ULoad where
  id : Nat
  due : Cycle
  kind : LoadKind
  src : List (Option Nat)
  lines : List (Nat × Nat × Pte)
  got : List (Nat × BitVec 512)
  poison : Bool
  /-- Lines still to be taken, which something holds: address at issue, virtual address, page. -/
  wait : List (Nat × Nat × Pte)
  /-- The load goes through the read cache. -/
  cached : Bool
  /-- A failure already known: of a line read from the read cache, or of another package's answer. -/
  fail : Option Failed
  deriving DecidableEq, Repr

/-- One line of a column store (R432): its physical and virtual address, its page, and the bytes it writes. -/
structure LineWrite where
  pa : Nat
  va : Nat
  page : Pte
  bytes : List (Nat × Byte)
  deriving DecidableEq, Repr

/-- A column store to gl not yet performed whole (R432). -/
structure WStore where
  id : Nat
  stamp : BitVec 8
  due : Cycle
  pc : Dword
  poison : Bool
  lines : List LineWrite
  deriving DecidableEq, Repr

/-- A line of the read cache or the constant cache (06_core R189, R190). -/
structure CacheLine where
  va : Nat
  data : BitVec 512
  side : Option Side
  deriving DecidableEq, Repr

/-- Counts of a sync vector that are not 0, by core, in ascending order (09_memory_model R278). -/
abbrev Counts := List (Nat × BitVec 8)

/-- The kind of a snapshot (R278). -/
inductive SnapKind where
  | releaseWrite
  | completion
  | other
  deriving DecidableEq, Repr

/-- A snapshot of the race detector: key, vector, scope, kind (R278). -/
structure Snap where
  key : BitVec 8
  vec : Counts
  scope : Nat
  kind : SnapKind
  deriving DecidableEq, Repr

/-- An entry of the engine-stamp table (R278). -/
structure Stamp where
  stamp : BitVec 8
  eng : Nat
  seq : BitVec 32
  obj : Nat
  flag : Option (BitVec 10)
  done : Bool
  deriving DecidableEq, Repr

/-- The race detector of a core (R278). -/
structure Race where
  own : BitVec 8
  v : Counts
  p : Counts
  snaps : List Snap
  stamps : List Stamp
  deriving DecidableEq, Repr

/-- An entry of a core-side engine queue (16_isa_engines R436): sequence number, record, stamp, the cycle of its PUSH, its anchor when known. -/
structure QCmd where
  seq : BitVec 32
  bits : BitVec 512
  stamp : BitVec 8
  pushed : Cycle
  /-- Accesses of the core with a lower number come before it (09 R283). -/
  mark : Nat
  /-- When its engine accepted it, on the 1.6 GHz clock. -/
  accepted : Option Cycle
  anchor : Option Cycle
  /-- Parked unstarted: its completion object does not translate (R440). -/
  parked : Bool
  deriving DecidableEq, Repr

/-- The task resident on a core: partition, launch number, task index, gang (05 R150). -/
structure TaskRef where
  part : Nat
  launch : BitVec 32
  task : BitVec 32
  gang : Nat
  deriving DecidableEq, Repr

/-- The units whose occupancy raises LATE (13 R375, 14 R396, R410), and the power gating of the array (06 R193). -/
structure Units where
  arith : Cycle
  permute : Cycle
  array : Cycle
  accPort : Cycle
  gather : Cycle
  /-- The matrix sub-arrays are gated. -/
  gated : Bool
  /-- The cycle of the last step or wake, from which idleness counts. -/
  lastUse : Cycle
  /-- The wake in progress ends in this cycle. -/
  awake : Cycle
  deriving DecidableEq, Repr

/-- A core (06_core R195, R278 and the sequencers). -/
structure Core where
  g : Vector Dword 64
  gReady : Vector Cycle 64
  b : Vector Dword 8
  e : Vector EReg 16
  m : Vector (BitVec 2048) 8
  v : Vector VReg 32
  t : Vector TReg 16
  a : Vector Acc 4
  ah : Vector AhReg 4
  p : Vector (BitVec 512) 8
  q : Vector Queue 16
  /-- Slot memory: entries that are not 0 (R188). -/
  slotMem : List (Nat × Dword)
  flags : BitVec 4096
  /-- The flags at the end of the previous cycle (R181). -/
  flagsPrev : BitVec 4096
  /-- The scratchpad: bytes that are not 0 (R184). -/
  sp : List Host.Cell
  slots : Vector TileSlot 128
  sys : SysRegs
  /-- The S stream: entry address, program counter, first cycle it may issue in, pending transfer. -/
  sEntry : Dword
  pc : Dword
  sReady : Cycle
  xfer : Option Xfer
  /-- The S instruction at `pc` is in progress: EXIT, MEET wait or FENCE wait phase (12 R350, R365, 09 R289). -/
  phase : Nat
  colL : ColSeq
  colC : ColSeq
  colW : ColSeq
  groups : List Grp
  nextGrp : Nat
  openGrp : Option Nat
  fx : List Fx
  hold : Hold
  /-- The trap cycle of the cut held (10 R303). -/
  cut : Cycle
  /-- The S cut PC (R304). -/
  cutPc : Dword
  /-- Traps waiting for delivery (R297, R298). -/
  deferred : List (Cycle × Trap)
  /-- The pending transfer and the phase of the interrupted S instruction, kept by the cut (12 R359). -/
  cutXfer : Option Xfer
  cutPhase : Nat
  /-- Tagged producers of the current strip groups whose delivery was void or missed, and those that the trap record lists (R305). -/
  missed : List Reissue
  reissue : List Reissue
  timed : List Timed
  /-- The next number of a column memory word; a fence waits for those before `fenceMark` (09 R288). -/
  nextInstr : Nat
  fenceMark : Nat
  /-- The next atomic is a release write (09 R275). -/
  relArmed : Bool
  /-- While the S stream awaits an acquiring atomic, the number from which column memory words wait for it (09 R286). -/
  acqMark : Option Nat
  /-- The lines of a launch record in another package's memory that LAUNCH has fetched so far (05 R156). -/
  recLines : List (Nat × BitVec 512)
  loads : List ULoad
  stores : List WStore
  tlb : List Pte
  readCache : List CacheLine
  constCache : List CacheLine
  units : Units
  /-- Busy periods of weight-store banks: bank, first calendar cycle it is free (R192). -/
  banks : List (Nat × Cycle)
  race : Race
  engQ : Vector (List QCmd) 10
  engSeq : Vector (BitVec 32) 10
  task : Option TaskRef
  lastWorld : Option (BitVec 6)
  lastLaunch : Option (Nat × BitVec 32)
  /-- The level of the outstanding MEET arrivals of the task (12 R365). -/
  arrived : List Nat
  dbgGang : Bool
  wdogSetLimit : BitVec 32
  /-- Strip and MADH pins of the running C strip: handle and version (07 R203). -/
  pinned : List (BitVec 24 × BitVec 32)
  /-- Pins and latches to be released, each in the cycle it is due in. -/
  unpins : List (Cycle × BitVec 24 × BitVec 32)
  /-- DBG_CTL.STATE is 2 (10 R320). -/
  stopped : Bool
  deriving DecidableEq, Repr

/-! ### The package -/

/-- The states of a device (01_package R29, R30, R32). -/
inductive Phase where
  | off
  | preBoot
  | booted
  | recovery
  deriving DecidableEq, Repr

/-- A firmware slot of the boot flash: image, signature, security version, running version (R30, R36). -/
structure FwSlot where
  image : List Byte
  sig : List Byte
  security : Nat
  version : Nat
  deriving DecidableEq, Repr

/-- A configuration record: content, signature, sequence number, and the settings it applies (R30 steps 4 and 5). -/
structure CfgRecord where
  content : List Byte
  sig : List Byte
  seq : Nat
  floor : Nat
  powerCap : Nat
  strokeNs : Nat
  ways : Nat
  thresh : BitVec 15
  winExp : BitVec 5
  cxlIde : Bool
  /-- The limits of the islands, and the partition template; the spec gives neither a layout nor an effect (log 87). -/
  limits : List Nat
  template : List Byte
  deriving DecidableEq, Repr

/-- An HDM decoder of the CXL ports (02_memory_tiers R62): its first physical address, the capacity attached behind it, and the ports that it
interleaves over, 4 KiB at a time. -/
structure Hdm where
  base : Nat
  attached : Nat
  ports : List Nat
  deriving DecidableEq, Repr

/-- The boot flash and what training finds (R30, R31). -/
structure Flash where
  directory : Bool
  slotA : FwSlot
  slotB : FwSlot
  record : CfgRecord
  factory : CfgRecord
  recordCounter : Nat
  securityFloor : Nat
  /-- The PUF response and helper data reconstruct the seed. -/
  puf : Bool
  seed : Nat
  /-- Channels that can be trained at all (R30 step 6). -/
  trained : BitVec 256
  /-- Failing data lines of a channel, and for a link the most failing lanes of one of its groups, as training finds them (02 R69). -/
  failLines : List (Nat × Nat)
  failLanes : List (Nat × Nat)
  /-- The decoders that training the CXL ports sets (02 R62). -/
  hdm : List Hdm
  /-- The slot chosen by step 2, true for B. -/
  slotB_chosen : Bool
  deriving DecidableEq, Repr

/-- States of an island's frequency change (R23). -/
inductive IslState where
  | steady
  | drain
  | relock
  deriving DecidableEq, Repr

/-- An island: ISL_CTL (R26), its cycle count (06 R196), the phase of its clock against the 1.6 GHz clock, drain count and relock end. -/
structure Island where
  drainTicks : BitVec 8
  st : IslState
  abandon : Bool
  cur : Nat
  tgt : Nat
  /-- The clock that the RELOCK in progress leads to. -/
  goal : Nat
  cycles : Cycle
  acc : Nat
  drained : Nat
  relockEnd : Cycle
  deriving DecidableEq, Repr

/-- An HBM channel's repair state: REPAIR_STAT (02_memory_tiers R71), the void window, and the settings
of REPAIR_CTL in force. -/
structure Channel where
  repairs : BitVec 8
  exhausted : Bool
  st : BitVec 2
  spares : BitVec 3
  errCount : BitVec 16
  voidFrom : Option Cycle
  voidTo : Option Cycle
  winExp : BitVec 5
  thresh : BitVec 15
  deriving DecidableEq, Repr

/-- The traffic that a donated slot serves (02_memory_tiers R55): an attention unit's reads or a copy for a command, by its task, engine and sequence
number, or a migration, by its source page. -/
inductive DonUse where
  | attention (task : TaskRef) (seq : BitVec 32)
  | copy (task : TaskRef) (eng : Nat) (seq : BitVec 32)
  | migration (src : Nat)
  deriving DecidableEq, Repr

/-- A donated slot (R55): its channel, its start, and the traffic that it serves, none where nothing may or wants to use it. -/
structure Donation where
  channel : Nat
  start : Cycle
  use : Option DonUse
  deriving DecidableEq, Repr

/-- A migration queued or in flight (02_memory_tiers R65): source and destination page, the source's virtual address, its world, the destination's
tier and the page that the command names, the step (0 while queued, 3 while copying, 4 while switching), the lines copied, the address at which a replica is mapped, ERASE, the command
by its task and sequence number, and the cycle of the 1.6 GHz clock in which its next line is copied. -/
structure Migration where
  src : Nat
  dst : Nat
  va : Nat
  world : BitVec 6
  tier : Nat
  wish : Nat
  step : Nat
  bitmap : BitVec 1024
  replica : Option Nat
  erase : Bool
  task : TaskRef
  seq : BitVec 32
  next : Cycle
  deriving DecidableEq, Repr

/-- The state of a world's keys and sweep (03_links_trust R94, R100, R103); `next` is the cycle of the 1.6 GHz clock in which its sweep does its next
line. -/
structure World where
  live : Bool
  parts : BitVec 16
  key : Nat
  prevKey : Option Nat
  hbfKey : Nat
  st : BitVec 2
  gen : BitVec 8
  ptr : BitVec 46
  queued : Bool
  next : Cycle
  group : Option Nat
  /-- The key of a group world that its coordinator has given for the next sweep (R106). -/
  given : Option Nat
  deriving DecidableEq, Repr

/-- A quota record (02_memory_tiers R45): limits and used fields. -/
structure Quota where
  hbmLimit : BitVec 32
  hbmUsed : BitVec 32
  hbfLimit : BitVec 32
  hbfUsed : BitVec 32
  cxlLimit : BitVec 32
  cxlUsed : BitVec 32
  wayLimit : BitVec 16
  wayUsed : BitVec 16
  kvLimit : BitVec 32
  kvUsed : BitVec 32
  deriving DecidableEq, Repr

/-- TDISP states (03_links_trust R78). -/
inductive Tdisp where
  | unlocked
  | locked
  | run
  | error
  deriving DecidableEq, Repr

/-- States of a launch (05_partitions_scheduler R145). -/
inductive LaunchSt where
  | waiting
  | gated
  | ready
  | running
  | done
  | failed
  deriving DecidableEq, Repr

/-- A launch in a partition's pool: number, 256-byte record (R137), state, ticks spent gated, next dispatch gang to place, tasks ended, first failure. -/
structure Launch where
  num : BitVec 32
  bits : BitVec 2048
  st : LaunchSt
  gated : Nat
  nextGang : Nat
  ended : Nat
  failTask : BitVec 32
  failCause : BitVec 8
  /-- The cycle in which its first failure came. -/
  failAt : Cycle
  status : BitVec 8
  base : Counts
  /-- The vectors of the tasks that have ended, merged, and the core on which the last of them ended (R148). -/
  vec : Counts
  lastCore : Option CoreNo
  /-- Rounds of the outermost MEET of a launch that spans the load-store domain: announced to the other members, and completed (R144). -/
  meetSent : Nat
  meetDone : Nat
  /-- The tick at which it became READY. -/
  readyTick : Nat
  /-- Domain instances fixed for gangs: level, gang, instance (R140). -/
  places : List (Nat × Nat × Nat)
  deriving DecidableEq, Repr

/-- Where a dispatch gang stands (R149 to R160). -/
inductive GangSt where
  | queued
  | wide
  | resident
  | stopping (reason : Nat)
  deriving DecidableEq, Repr

/-- A dispatch gang: partition, launch, index, launch class and dispatch class, enqueue tick, tick it entered its class, cluster, start order. -/
structure Gang where
  id : Nat
  part : Nat
  launch : BitVec 32
  idx : Nat
  tasks : List (BitVec 32)
  cls : Nat
  dcls : Nat
  enq : Nat
  since : Nat
  st : GangSt
  cluster : Nat
  isWide : Bool
  started : Option Nat
  front : Bool
  deriving DecidableEq, Repr

/-- A parked task (R157), with the dispatch class and the start of the gang that it left. -/
structure Parked where
  task : TaskRef
  tick : Nat
  cluster : Nat
  dcls : Nat
  started : Option Nat
  deriving DecidableEq, Repr

/-- A saved context (10_traps R310, R311): the task, the state byte and the reason of its header, and the architectural state. -/
structure Context where
  task : TaskRef
  st : Nat
  reason : Nat
  core : Core
  deriving DecidableEq, Repr

/-- An arrival at a barrier: the task's launch, task index, level; the cycle; and the sync vector it brings (12_isa_scalar R365, 09 R281). -/
structure Arrival where
  part : Nat
  launch : BitVec 32
  task : BitVec 32
  level : Nat
  vec : Counts
  /-- Once it is complete, the counts that the MEET sets outright (09 R284). -/
  rebase : List (Nat × BitVec 8)
  /-- Sequence numbers of the engine queues at the arrival, in the order of the queues (05 R142). -/
  seqs : List Nat
  /-- The barrier does not complete before this cycle of the 1.6 GHz clock (12 R366). -/
  ready : Cycle
  /-- The checkpoint form (10 R313). -/
  ckpt : Bool
  complete : Bool
  /-- A view change has ended the MEET (R144). -/
  viewLost : Bool
  deriving DecidableEq, Repr

/-- A KV pool (07_serving_structures R217): free blocks as (order, offset). -/
structure KvPool where
  idx : Nat
  world : BitVec 6
  base : Nat
  stride : Nat
  top : Nat
  free : List (Nat × Nat)
  deriving DecidableEq, Repr

/-- An extent of a sequence (R216). -/
structure Extent where
  base : Nat
  len : Nat
  stride : Nat
  shared : Bool
  order : Nat
  deriving DecidableEq, Repr

/-- An entry of a sequence table that is not free (R215). -/
structure Seq where
  num : Nat
  world : BitVec 6
  stopped : Bool
  fmt : BitVec 4
  len : Nat
  dim : Nat
  voff : Nat
  pool : Nat
  extents : List Extent
  deriving DecidableEq, Repr

/-- A partition (05_partitions_scheduler R133). -/
structure Part where
  present : Bool
  islands : BitVec 16
  ways : Nat
  ports : List Nat
  tdisp : Tdisp
  /-- Islands that a resize removes, which take no new work (R136). -/
  closing : BitVec 16
  launches : List Launch
  nextLaunch : BitVec 32
  parked : List Parked
  reserved : List Nat
  pools : List KvPool
  seqs : List Seq
  /-- Handles whose entry is locked in the partition's AHT cache (07 R204). -/
  ahtLocked : List (BitVec 24)
  /-- Versions resident without a pin, least recently unpinned first (R204). -/
  idle : List (BitVec 24 × BitVec 32)
  deriving DecidableEq, Repr

/-- A version record of an adapter handle (07_serving_structures R199). -/
structure Version where
  num : BitVec 32
  alpha : BitVec 32
  keySlot : BitVec 12
  st : Nat
  dir : Nat
  layers : Nat
  projs : Nat
  /-- Admission pins by partition. -/
  pins : List (Nat × Nat)
  /-- Strip and MADH pins and accumulator latches by partition (R203). -/
  readers : List (Nat × Nat)
  /-- Partitions in which the version is resident, with the slices and ways that hold its factor pages there (R204). -/
  resident : List (Nat × List (Nat × Nat))
  deriving DecidableEq, Repr

/-- A live or deleting entry of the adapter handle table (R198). -/
structure Aht where
  handle : BitVec 24
  owner : BitVec 6
  deleting : Bool
  rank : BitVec 2
  publisher : Option (BitVec 6)
  grants : BitVec 64
  selectors : BitVec 32
  next : BitVec 32
  vers : Vector Version 3
  deriving DecidableEq, Repr

/-- A ligature map (R224, R227): partition, number, generation, owner task, unit, memory offset; rep and MERGED per original token. -/
structure LigMap where
  part : Nat
  num : Nat
  gen : BitVec 12
  owner : TaskRef
  unit : Nat
  offset : Nat
  entries : List (Bool × Nat)
  kept : Nat
  /-- Saved with the context, with the rank by which its place in the ligature extension goes (R229). -/
  saved : Option Nat
  deriving DecidableEq, Repr

/-- An entry of a cluster fault queue (10_traps R307, R308): a task, or an engine command of it by engine id and sequence number. -/
structure FaultEntry where
  core : CoreNo
  cmd : Option (Nat × BitVec 32)
  deriving DecidableEq, Repr

/-- The flags and routing counters of a cluster (06 R180, 07 R230). `log` holds changes of cluster flags not yet seen by the cores: due cycle, value. -/
structure Cluster where
  num : Nat
  flags : BitVec 4096
  seen : BitVec 4096
  log : List (Cycle × BitVec 4096)
  counters : List (Nat × Word)
  world : Option (BitVec 6)
  keys : List (BitVec 12)
  /-- The unlocked handle keys in the cluster's cache, most recently used first (03 R98). -/
  cached : List (BitVec 12)
  faultQ : List FaultEntry
  deriving DecidableEq, Repr

/-- A participant of an aggregated add: its core, destination register and addend, whether it acquires, and its scope (R232). -/
structure Participant where
  core : CoreNo
  dest : GReg
  addend : Dword
  acquire : Bool
  scope : Nat
  deriving DecidableEq, Repr

/-- An aggregation window (R232). -/
structure Window where
  cluster : Nat
  addr : Nat
  va : Dword
  isCounter : Bool
  size : Nat
  close : Cycle
  parts : List Participant
  deriving DecidableEq, Repr

/-- What a started command waits for before its next access: the clear of its engine, and where `all` holds every earlier access of its core
(03_links_trust R99, 09_memory_model R283); or a line that a repair, a switch or a sweep holds (02_memory_tiers R56, R65; 03 R101). -/
inductive CmdWait where
  | none
  | ready (start : Cycle) (all : Bool)
  | line (pa : Nat) (write : Bool)
  deriving DecidableEq, Repr

/-- An engine command that its engine has taken up (16_isa_engines R439, R440). -/
structure RunCmd where
  core : CoreNo
  task : TaskRef
  eng : Nat
  seq : BitVec 32
  bits : BitVec 512
  stamp : BitVec 8
  world : BitVec 6
  /-- The cycle of its core in which it ends. -/
  due : Cycle
  /-- Not matched yet: it counts as not started (R454, R456). -/
  waiting : Bool
  /-- Its end comes with an act of another unit: an acknowledgement, a migration, a started command. -/
  pending : Bool
  /-- Parked at a line: the fault (10_traps R308). -/
  parked : Option Trap
  /-- Lines, or rows and bytes of the row, already done, and the bytes of that row. -/
  done : Nat × Nat
  buf : List (Byte × Bool)
  /-- What an SLATTN read at its start: its queries, each byte with the poison of its line (16_isa_engines R448). -/
  held : List (Byte × Bool)
  poisoned : Bool
  status : BitVec 8
  result : BitVec 48
  trap : Option Trap
  /-- The follow-on word still to issue (14 R401), and the cycle in which the operand lands. -/
  follow : Option Word
  land : Cycle
  /-- The transaction tag of a COPYR (03_links_trust R89). -/
  xid : BitVec 16
  /-- The slot, the tag and the starting cycle of a tagged producer still to land. -/
  tag : Option (Nat × BitVec 16 × Cycle)
  /-- The slices of the blocks of an SLATTN, as they were assigned at its start; 128 for a block whose page had no translation (07 R220). -/
  blocks : List Nat
  wait : CmdWait
  /-- Accesses of the core with a lower number come before it (09 R283). -/
  mark : Nat
  deriving DecidableEq, Repr

/-- A collective of a group, view and tag (16_isa_engines R454): this package's command by its task and sequence number, once pushed; the fields that
the commands of other ranks were heard to carry; the bytes that came from each rank, each with its poison. -/
structure Coll where
  group : Nat
  view : BitVec 32
  tag : BitVec 16
  ours : Option (TaskRef × BitVec 32)
  heard : List (Nat × Nat)
  from_ : List (Nat × List (Byte × Bool))
  deriving DecidableEq, Repr

/-- A remote access in flight from this package (03_links_trust R88). -/
structure Remote where
  tag : BitVec 16
  core : CoreNo
  isAtomic : Bool
  pa : Nat
  va : Nat
  /-- The cache that the line of a load goes into: 0 none, 1 the read cache, 2 the constant cache (06_core R189, R190). -/
  fill : Nat
  dest : GReg
  size : Nat
  signed : Bool
  op : Nat
  operand : Dword
  expected : Dword
  /-- The column load that it serves, by its number; none for an S instruction or a combined add. -/
  load : Option Nat
  order : Nat
  /-- The target of a CWAIT that polls the word. -/
  target : Option Dword
  /-- A line of a launch record (05 R156). -/
  record : Bool
  /-- The atomic is a release write (09 R275). -/
  release : Bool
  /-- The participants of a combined add (07 R232). -/
  agg : List Participant
  retryAt : Option Cycle
  deriving DecidableEq, Repr

/-- A fabric port: FABP_STAT (R84), replay buffer, sequence numbers and wrap counts, and how often a flit was received wrong, or the oldest sent was
replayed, since the last success (R82, R83). -/
structure Port where
  peer : Nat
  st : BitVec 2
  lanes : BitVec 3
  rekeys : BitVec 8
  crcErr : BitVec 16
  /-- The peer has been authenticated by SPDM, and the group slot whose view the port serves (R83). -/
  auth : Bool
  serves : Option Nat
  /-- Flits sent and not acknowledged, at most 256, and those that wait for a place (R82). -/
  replay : List Flit
  pend : List Flit
  txSeq : BitVec 16
  rxSeq : BitVec 16
  txWraps : Nat
  rxWraps : Nat
  replays : Nat
  resends : Nat
  refusals : Nat
  retrainAt : Cycle
  key : Nat
  deriving DecidableEq, Repr

/-- A group slot: GRP_STAT (R107), members in ascending node identity, secret (R104). -/
structure Group where
  valid : Bool
  pending : Bool
  /-- The view received and not yet committed. -/
  next : Option Memb
  /-- Probes of the coordinator that are not answered: the member, and the cycle in which the probe was sent (R104). -/
  probes : List (Nat × Cycle)
  lsd : Bool
  member : BitVec 10
  num : BitVec 16
  view : BitVec 32
  members : List Nat
  secret : Nat
  deriving DecidableEq, Repr

/-- A host queue (04_host_interface R111, R112). -/
structure HQueue where
  sqBase : Dword
  cqBase : Dword
  cqLog : BitVec 4
  sqLog : BitVec 4
  vec : BitVec 11
  en : Bool
  err : Bool
  phase : Bool
  sqHead : Nat
  sqTail : Nat
  cqTail : Nat
  cqHead : Nat
  deriving DecidableEq, Repr

/-- What a host command waits for: the value of an object (R122), the end of the sweep of a world with a key generation (R119), the end of every
task of a world in a partition (R119), or the islands that a resize removes (05 R136), with the new island mask and calendar maps; or the stroke tick at
which a RESYNC takes its cut (R125), with its buffer. -/
inductive HostWait where
  | none
  | object (w : BitVec 6) (va : Nat) (target : Dword)
  | sweep (w : Nat) (gen : BitVec 8)
  | unbind (w n : Nat)
  | resize (n : Nat) (mask : BitVec 16) (maps : List (CoreNo × List (Nat × Nat)))
  | resync (a : Nat)
  deriving DecidableEq, Repr

/-- A fetched host command that has not posted its completion (R115). -/
structure HostRun where
  queue : Nat
  ident : BitVec 16
  flags : BitVec 8
  sqHead : BitVec 16
  done : Bool
  dropped : Bool
  status : BitVec 16
  res0 : Dword
  res1 : Dword
  wait : HostWait
  /-- The place of the command in the order in which commands were fetched (R126). -/
  order : Nat
  deriving DecidableEq, Repr

/-- A completion held on the device (R115): its queue, its record, whether an MSI-X message follows its write, and the place of its command in the
order of fetching. The completion of an event is no command's. -/
structure HeldCpl where
  queue : Nat
  record : BitVec 256
  irq : Bool
  isEvent : Bool
  order : Nat
  deriving DecidableEq, Repr

/-- The mailbox (R121). -/
structure Mailbox where
  args : Vector Dword 8
  /-- The opcode of the command in progress. -/
  op : BitVec 8
  busy : Bool
  status : BitVec 15
  result : BitVec 48
  data : List Host.Cell
  deriving DecidableEq, Repr

/-- An event record (R123). -/
structure Event where
  tick : Nat
  kind : Nat
  part : Option Nat
  world : Option (BitVec 6)
  record : BitVec 32
  args : List Nat
  deriving DecidableEq, Repr

/-- A registered prefix page (R131): page, clean home, refetching mark, the cycle of the 1.6 GHz clock in which its copy ends, lost mark. -/
structure Prefix where
  world : BitVec 6
  va : Nat
  pa : Nat
  clean : Option Nat
  /-- A poisoned read has called for a refetch. -/
  wanted : Bool
  refetching : Bool
  ready : Cycle
  lost : Bool
  deriving DecidableEq, Repr

/-- An SC fence waiting for its tick (09_memory_model R289): core, scope, the tick edge's cycle from which its mark counts. -/
structure ScFence where
  core : CoreNo
  scope : Nat
  mark : Cycle
  vec : Counts
  deriving DecidableEq, Repr

/-- The checkpoint of a gang (10_traps R313 to R317): the task contexts of the last checkpoint, the log of pre-images, deferred commands. -/
structure Ckpt where
  part : Nat
  launch : BitVec 32
  /-- The checkpoint gang: its number and its size (R313). -/
  idx : Nat
  size : Nat
  ord : BitVec 32
  rolls : BitVec 3
  irrev : Bool
  contexts : List Context
  /-- The arrivals of its tasks at the checkpointing MEET, complete. -/
  arrivals : List Arrival
  /-- Logged pre-images: task, line, stored sideband, stored bytes, oldest first (R315). -/
  log : List (BitVec 32 × Nat × Option Side × BitVec 512)
  /-- ADUNPIN and KFREE records of the interval (R314). -/
  later : List Cmd
  /-- Admission pins and sequences taken in the interval (R317). -/
  pins : List (Nat × BitVec 24 × BitVec 32)
  /-- Sequence, extents and valid length before each KALLOC (no extent) and KEXTEND of the interval. -/
  seqs : List (Nat × Nat × Nat)
  maps : List LigMap
  deriving DecidableEq, Repr

/-- The last answer of the SPDM responder on the host port (03_links_trust R91). -/
inductive SpdmReply where
  | none
  | error
  | session
  | measurement (index : Nat) (digest : List Byte)
  | certificate (slot : Nat) (chain : List Byte)
  deriving DecidableEq, Repr

/-- The state of the package (INVENTORY.md). -/
structure State where
  /-- The core in focus: the one whose stream acts. The other cores that differ from a core after reset, by number. -/
  coreId : CoreNo
  core : Core
  others : List (CoreNo × Core)
  /-- Cycles of the 1.6 GHz clock since reset (02 R47). -/
  now : Cycle
  /-- Ticks since reset (00 R8), the period, and whether an edge is due. -/
  tick : Nat
  strokeNs : Nat
  tickDue : Bool
  /-- The work of the last tick edge is not done (05 R154). -/
  tickWork : Bool
  phase : Phase
  flash : Flash
  cfgDefaulted : Bool
  ident : BitVec 32
  stepping : BitVec 8
  modrev : BitVec 7
  powerCap : Nat
  recordCap : Nat
  powerTripped : Bool
  withhold : Bool
  /-- Strip starts that the governor holds: compute island and priority class (01 R28). -/
  heldStrips : List (Nat × Nat)
  islands : Vector Island 24
  refresh : BitVec 1024
  ways : Nat
  /-- Physical memory, in canonical form. -/
  mem : List Host.Cell
  side : List (Nat × Side)
  ptes : List Pte
  /-- Allocated tile pages: page base, world, tier (0 HBM, 1 HBF, 2 CXL, 3 the device's own). -/
  pages : List (Nat × BitVec 6 × Nat)
  /-- Pages that must be scrubbed before reuse: base, former world (03 R108). -/
  scrub : List (Nat × BitVec 6)
  /-- Replica pages, each with the home page that it copies, where the device knows one (02 R43, R44). -/
  replicas : List (Nat × Option Nat)
  quotas : Vector Quota 64
  /-- HBF tile pages programmed since the last erase, and erase counts, by block (02 R60, R61). -/
  programmed : List Nat
  wear : List (Nat × Word)
  winExp : BitVec 5
  thresh : BitVec 15
  liveEn : Bool
  channels : Vector Channel 256
  linkStat : Vector Channel 4
  cxlUp : BitVec 8
  migrations : List Migration
  migQueue : List Migration
  worlds : Vector World 64
  keySlots : List (BitVec 12 × Nat × BitVec 24)
  parts : Vector Part 16
  calMaps : List (CoreNo × List (Nat × Nat))
  donated : List Donation
  /-- The decoders of the CXL ports in force (02 R62). -/
  hdm : List Hdm
  /-- Replica pages shot down whose pages are to be freed once the reads translated before have completed (02 R44). -/
  retiring : List Nat
  /-- The island limits and the partition template that step 5 applied (01 R30; log 87). -/
  islandLimits : List Nat
  template : List Byte
  /-- The record that step 5 applied (03_links_trust R91), and its choice of CXL IDE (03 R79). -/
  recordInForce : List Byte
  cxlIde : Bool
  gangs : List Gang
  nextGang : Nat
  startCount : Nat
  arrivals : List Arrival
  contexts : List Context
  ckpts : List Ckpt
  /-- The next ordinal of each memory controller in checkpoint logs: HBM channels 0 to 255, then the CXL ports (10_traps R315). -/
  logOrdinals : List (Nat × Nat)
  clusters : List Cluster
  windows : List Window
  linkUp : Bool
  linkHeld : Bool
  linkDownAt : Cycle
  spdm : Bool
  spdmReply : SpdmReply
  /-- The owner's certificate chain in SPDM slot 1 (03 R91). -/
  ownerChain : List Byte
  ideKeys : List Nat
  /-- The IDE streams that had keys when the link went down (03 R110). -/
  ideLost : List Nat
  rdy : Bool
  node : BitVec 18
  groups : Vector Group 8
  ports : Vector Port 18
  /-- The flits put on the lanes so far, each with its port (R80). -/
  lanesOut : List Flit
  remotes : List Remote
  queues : List (Nat × HQueue)
  /-- The partition queue that was fetched from last (R115). -/
  lastQueue : Nat
  hostRuns : List HostRun
  held : List HeldCpl
  /-- Host commands fetched so far. -/
  fetched : Nat
  /-- Lines of host memory that the device last sent as poisoned TLPs, with EP set (R129). -/
  hostEp : List Nat
  /-- Requests without IDE that were dropped: when, and for which function (03_links_trust R78). -/
  ideDrops : List (Nat × Nat)
  /-- Where the event log stands in world 0 memory, once the firmware has placed it (R123). -/
  logPa : Option Nat
  msix : List (Nat × Nat)
  mailbox : Mailbox
  /-- What the last register read with an effect returned to the host (03_links_trust R84). -/
  mmioData : Dword
  events : List Event
  unread : Nat
  lostNext : Bool
  /-- The index in the log of the next record (R126). -/
  nextEvent : Nat
  /-- The scribe's recovery ring, and how many of its records LOG_READ has not returned (R121). -/
  recovery : List Event
  recoveryUnread : Nat
  errors : List (Nat × List Byte)
  nextError : Nat
  poisonSeen : List (Nat × Cycle)
  prefixes : List Prefix
  aht : List Aht
  maps : List LigMap
  mapGens : List (Nat × Nat × BitVec 12)
  running : List RunCmd
  colls : List Coll
  /-- Rounds of a MEET of the load-store domain that other members have announced: the check value of the launch record, the rank, the rounds
  (05 R144). -/
  meetHeard : List (Nat × Nat × Nat)
  /-- The world of the last entry that an engine took up, by the engine's id and its queue (03 R99). -/
  engWorld : List (Nat × Nat × BitVec 6)
  /-- The partition whose queue a shared engine served last (05 R133). -/
  served : List (Nat × Nat)
  scFences : List ScFence
  scVecs : List (Nat × Nat × Counts)
  /-- The acts of the outside world still to come, each with the cycle it is due in (log 1). -/
  inputs : List (Cycle × Instr × EvArgs)
  /-- The operands of the event being taken (log 1). -/
  ev : EvArgs
  /-- How many free values have been drawn (log 7). -/
  fresh : Nat
  deriving DecidableEq, Repr

/-! ### Stops -/

/-- Why the machine stops. -/
inductive Fault where
  /-- Raised by the step of a package from which the module has removed power (01_package R29). Safe: nothing runs after it. -/
  | poweredOff
  deriving DecidableEq, Repr

/-- Why an instruction has no meaning here. -/
inductive Refusal where
  /-- Raised by an arm of exec whose instruction has no meaning yet. Safe. -/
  | notModelled (mnemonic : String)
  deriving DecidableEq, Repr

/-! ### Reset -/

def EReg.zero : EReg := { addr := 0, tag := 0, stride := 0 }

/-- A vector register cleared by R99 (R371). -/
def VReg.zero : VReg :=
  { data := 0, tag := 0, rows := 1, cols := 2048, poison := false, busy := 0, failed := none }

def TReg.zero : TReg := { data := 0, tag := 0, poison := false, busy := 0, failed := none }

/-- A closed side context. -/
def SideCtx.closed : SideCtx :=
  { isOpen := false, closing := 0, layer := 0, proj := 0, blk := 0, cursor := 0, latched := Vector.replicate 8 none }

/-- m = -2^31 in every row (R261). -/
def Acc.noScore : BitVec 2048 := BitVec.ofNat 2048 (0x80000000 * ((2 ^ 2048 - 1) / (2 ^ 32 - 1)))

/-- An accumulator as R395 gives it after a clear. -/
def Acc.zero : Acc :=
  { sums := 0, tag := 1, poison := false, m := Acc.noScore, l := 0, masked := 0, sat := 0, side := 0,
    ctx := SideCtx.closed, window := false, stepDone := 0, writeDone := 0 }

def AhReg.zero : AhReg := { handles := Vector.replicate 8 0, pins := Vector.replicate 8 none }

def Queue.empty : Queue := { entries := [], freedAt := 0, freedN := 0 }

def TileSlot.zero : TileSlot := { tag := 0, pend := 0, owner := 0, poison := 0, failed := none }

/-- The system registers at the reset values of their maps (R243, R244, R246, R193, R183, R184, R302, R318, R369, R141, R162, R49). -/
def SysRegs.reset : SysRegs :=
  { rmode := 0, trapen := 0, sticky := 0, srSeed := 1, srState := 0, srOrdinal := 0, gateIdle := 64, ringLen := 0, tslotSel := 0,
    trapCause := 0, trapPc := 0, trapAddr := 0, trapCut := 0, trapVec := 0, dbgEn := false, world := 0, taskId := 0,
    levelIdx := Vector.replicate 8 0, wdogLimit := 0, wdogCount := 0 }

def ColSeq.empty : ColSeq := { entry := 0, queue := [], run := none, ordinal := 0, lastIssue := 0, portBusy := 0 }

def Race.reset : Race := { own := 0, v := [], p := [], snaps := [], stamps := [] }

def Units.reset : Units :=
  { arith := 0, permute := 0, array := 0, accPort := 0, gather := 0, gated := true, lastUse := 0, awake := 0 }

/-- The masks of R484: m0 all ones, the others zero. -/
def Core.firstMasks : Vector (BitVec 2048) 8 := (Vector.replicate 8 (0 : BitVec 2048)).set 0 (BitVec.allOnes 2048)

/-- A core after reset: cleared (R99), with no task. -/
def Core.reset : Core :=
  { g := Vector.replicate 64 0, gReady := Vector.replicate 64 0, b := Vector.replicate 8 0, e := Vector.replicate 16 EReg.zero,
    m := Core.firstMasks, v := Vector.replicate 32 VReg.zero, t := Vector.replicate 16 TReg.zero, a := Vector.replicate 4 Acc.zero,
    ah := Vector.replicate 4 AhReg.zero, p := Vector.replicate 8 0, q := Vector.replicate 16 Queue.empty, slotMem := [],
    flags := 0, flagsPrev := 0, sp := [], slots := Vector.replicate 128 TileSlot.zero, sys := SysRegs.reset,
    sEntry := 0, pc := 0, sReady := 0, xfer := none, phase := 0, colL := ColSeq.empty, colC := ColSeq.empty, colW := ColSeq.empty,
    groups := [], nextGrp := 0, openGrp := none, fx := [], hold := .none, cut := 0, cutPc := 0, deferred := [], cutXfer := none, cutPhase := 0, missed := [], reissue := [],
    timed := [], nextInstr := 0, fenceMark := 0, relArmed := false, acqMark := none, recLines := [], loads := [], stores := [], tlb := [], readCache := [], constCache := [], units := Units.reset,
    banks := [], race := Race.reset, engQ := Vector.replicate 10 [], engSeq := Vector.replicate 10 0, task := none,
    lastWorld := none, lastLaunch := none, arrived := [], dbgGang := false, wdogSetLimit := 0, pinned := [], unpins := [], stopped := false }

/-- An island at reset (01_package R26): 1,600 MHz, and 800 MHz for island 22. -/
def Island.reset (mhz : Nat) : Island :=
  { drainTicks := 64, st := .steady, abandon := false, cur := mhz, tgt := mhz, goal := mhz, cycles := 0, acc := 0, drained := 0, relockEnd := 0 }

/-- A channel or link at reset (R71), with the reset values of REPAIR_CTL in force (R70). SPARES_USED stands as training leaves it: by `train`, from the
failing lines of the module, of which the model's has none (log 2). -/
def Channel.reset : Channel :=
  { repairs := 0, exhausted := false, st := 0, spares := 0, errCount := 0, voidFrom := none, voidTo := none,
    winExp := 20, thresh := 16 }

def Quota.zero : Quota :=
  { hbmLimit := 0, hbmUsed := 0, hbfLimit := 0, hbfUsed := 0, cxlLimit := 0, cxlUsed := 0, wayLimit := 0, wayUsed := 0,
    kvLimit := 0, kvUsed := 0 }

/-- A world that does not exist; its group key and keys are none. -/
def World.absent : World :=
  { live := false, parts := 0, key := 0, prevKey := none, hbfKey := 0, st := 0, gen := 0, ptr := 0,
    queued := false, next := 0, group := none, given := none }

/-- World 0: always live, with the keys derived from the seed, numbered 0 and 1 (03_links_trust R93, R94). -/
def World.zero : World := { World.absent with live := true, key := 0, hbfKey := 1 }

def Part.absent : Part :=
  { present := false, islands := 0, ways := 0, ports := [], tdisp := .unlocked, closing := 0, launches := [], nextLaunch := 1,
    parked := [], reserved := [], pools := [], seqs := [], ahtLocked := [], idle := [] }

def Port.down : Port :=
  { peer := 0, st := 0, lanes := 0, rekeys := 0, crcErr := 0, auth := false, serves := none, replay := [], pend := [], txSeq := 0, rxSeq := 0,
    txWraps := 0, rxWraps := 0, replays := 0, resends := 0, refusals := 0, retrainAt := 0, key := 0 }

def Group.none : Group :=
  { valid := false, pending := false, next := Option.none, probes := [], lsd := false, member := 0, num := 0, view := 0, members := [], secret := 0 }

/-- A host queue at reset (04_host_interface R112). -/
def HQueue.reset : HQueue :=
  { sqBase := 0, cqBase := 0, cqLog := 4, sqLog := 4, vec := 0, en := false, err := false, phase := true,
    sqHead := 0, sqTail := 0, cqTail := 0, cqHead := 0 }

def Mailbox.reset : Mailbox := { args := Vector.replicate 8 0, op := 0, busy := false, status := 0, result := 0, data := [] }

def FwSlot.blank : FwSlot := { image := [], sig := [], security := 0, version := 0 }

/-- The factory defaults of the record layout (R27, R8, R70). -/
def CfgRecord.factory : CfgRecord :=
  { content := [], sig := [], seq := 0, floor := 0, powerCap := 3600, strokeNs := 500, ways := 0, thresh := 16, winExp := 20,
    cxlIde := false, limits := [], template := [] }

/-- The decoder of the model's module (log 11): 32 TiB attached, interleaved over the eight ports. -/
def Hdm.model : Hdm := { base := 0x200000000000, attached := 0x200000000000, ports := List.range 8 }

/-- The boot flash of the model's module (log 2): a readable directory, blank slots and record, a PUF that reconstructs, every channel training
without a failing line. -/
def Flash.model : Flash :=
  { directory := true, slotA := FwSlot.blank, slotB := FwSlot.blank, record := CfgRecord.factory, factory := CfgRecord.factory,
    recordCounter := 0, securityFloor := 0, puf := true, seed := 0, trained := BitVec.allOnes 256,
    failLines := [], failLanes := [], hdm := [Hdm.model], slotB_chosen := false }

/-- The package right after reset: before the boot steps of R30, with no partition, no task and nothing placed. -/
def State.reset : State :=
  { coreId := 0, core := Core.reset, others := [], now := 0, tick := 0, strokeNs := 500, tickDue := false, tickWork := false, phase := .preBoot,
    flash := Flash.model, cfgDefaulted := false, ident := 0, stepping := 0, modrev := 0, powerCap := 3600, recordCap := 3600,
    powerTripped := false, withhold := false, heldStrips := [],
    islands := (Vector.replicate 24 (Island.reset 1600)).set 22 (Island.reset 800), refresh := 0, ways := 0,
    mem := [], side := [], ptes := [], pages := [], scrub := [], replicas := [], quotas := Vector.replicate 64 Quota.zero,
    programmed := [], wear := [], winExp := 20, thresh := 16, liveEn := true, channels := Vector.replicate 256 Channel.reset,
    linkStat := Vector.replicate 4 Channel.reset, cxlUp := 0, migrations := [], migQueue := [],
    worlds := (Vector.replicate 64 World.absent).set 0 World.zero, keySlots := [], parts := Vector.replicate 16 Part.absent,
    calMaps := [], donated := [], hdm := [], retiring := [], islandLimits := [], template := [], recordInForce := [], cxlIde := false, gangs := [], nextGang := 0, startCount := 0, arrivals := [], contexts := [], ckpts := [], logOrdinals := [],
    clusters := [], windows := [], linkUp := true, linkHeld := false, linkDownAt := 0, spdm := false, spdmReply := .none, ownerChain := [], ideKeys := [], ideLost := [], rdy := false,
    node := 0x3FFFF, groups := Vector.replicate 8 Group.none, ports := Vector.replicate 18 Port.down, lanesOut := [], remotes := [],
    queues := [], lastQueue := 0, hostRuns := [], held := [], fetched := 0, hostEp := [], ideDrops := [], logPa := none, msix := [], mailbox := Mailbox.reset, mmioData := 0, events := [], unread := 0, lostNext := false, nextEvent := 0,
    recovery := [], recoveryUnread := 0, errors := [], nextError := 0, poisonSeen := [], prefixes := [], aht := [], maps := [], mapGens := [],
    running := [], colls := [], meetHeard := [], engWorld := [], served := [], scFences := [], scVecs := [], inputs := [], ev := EvArgs.none, fresh := 0 }

end Sys2Proof.Machine
end

