-- ==== Sys2Proof/Machine/Store.lean ====
section
/-! DEFINITION. Sparse stores: lists of (address, value) in one canonical form, and bytes as numbers (00_scope R6). A byte that is not listed reads
as 0 (log 4). -/

namespace Sys2Proof.Machine

/-- The byte at an address. -/
def cellGet : List Host.Cell → Nat → Byte
  | [], _ => 0
  | (b, x) :: rest, a => if b = a then x else cellGet rest a

/-- The cells that a run of bytes from `a` on lists: no byte that is 0. -/
def listed (a : Nat) : List Byte → List Host.Cell
  | [] => []
  | b :: bs => if b = 0 then listed (a + 1) bs else (a, b) :: listed (a + 1) bs

/-- A run of bytes written from address `a` on. -/
def cellWrite (m : List Host.Cell) (a : Nat) (bs : List Byte) : List Host.Cell :=
  m.filter (fun c => c.1 < a) ++ listed a bs ++ m.filter (fun c => a + bs.length ≤ c.1)

/-- `n` bytes from address `a` on, from cells whose addresses are `a` and above, in ascending order. -/
def cellTake : Nat → List Host.Cell → Nat → List Byte
  | 0, _, _ => []
  | n + 1, [], a => 0 :: cellTake n [] (a + 1)
  | n + 1, (b, x) :: rest, a => if b = a then x :: cellTake n rest (a + 1) else 0 :: cellTake n ((b, x) :: rest) (a + 1)

/-- `n` bytes from address `a` on. -/
def cellRead (m : List Host.Cell) (a n : Nat) : List Byte :=
  cellTake n (m.filter (fun c => a ≤ c.1 && c.1 < a + n)) a

/-- The canonical form: addresses strictly rising, and no byte listed that is 0. -/
def cellsWf : List Host.Cell → Bool
  | [] => true
  | (a, x) :: rest => x ≠ 0 && (rest.all fun c => a < c.1) && cellsWf rest

/-- The value listed under a number. -/
def assocGet {α : Type} (l : List (Nat × α)) (k : Nat) : Option α :=
  match l with
  | [] => none
  | (j, x) :: rest => if j = k then some x else assocGet rest k

/-- The value under a number replaced, in ascending order of the numbers. -/
def assocPut {α : Type} (l : List (Nat × α)) (k : Nat) (x : α) : List (Nat × α) :=
  l.filter (fun p => p.1 < k) ++ (k, x) :: l.filter (fun p => k < p.1)

/-- The value under a number removed. -/
def assocDel {α : Type} (l : List (Nat × α)) (k : Nat) : List (Nat × α) := l.filter (fun p => p.1 ≠ k)

/-- Bytes read as one little-endian number (R6). -/
def leNat : List Byte → Nat
  | [] => 0
  | b :: bs => b.toNat + 256 * leNat bs

/-- The `n` low bytes of a number, little-endian. -/
def leBytes : Nat → Nat → List Byte
  | 0, _ => []
  | n + 1, x => BitVec.ofNat 8 x :: leBytes n (x / 256)

/-- The first `n` elements of a list, filled up with `d`. -/
def padTo {α : Type} (n : Nat) (d : α) (l : List α) : List α := l.take n ++ List.replicate (n - l.length) d

/-- Element `i` of a list replaced. -/
def listSet {α : Type} (l : List α) (i : Nat) (x : α) : List α := l.set i x

/-- The elements of a list but for the one at place `i`. -/
def listDrop {α : Type} (l : List α) (i : Nat) : List α := l.eraseIdx i

/-- `x` put before the first element that is greater under `lt`. -/
def insertBy {α : Type} (lt : α → α → Bool) (x : α) : List α → List α
  | [] => [x]
  | y :: ys => if lt x y then x :: y :: ys else y :: insertBy lt x ys

/-- A list in ascending order under `lt`, equal elements in their old order. -/
def sortBy {α : Type} (lt : α → α → Bool) (l : List α) : List α := l.foldl (fun acc x => insertBy lt x acc) []

/-- The bits of a field of a record. -/
def recBits {n : Nat} (r : BitVec n) (lo len : Nat) : Nat := r.toNat / 2 ^ lo % 2 ^ len

/-- The field of a record at byte `off`, of `n` bytes (R6). -/
def recBytes {n : Nat} (r : BitVec n) (off len : Nat) : Nat := recBits r (8 * off) (8 * len)

/-- A number of `w` bits as a two's-complement integer. -/
def sNat (w x : Nat) : Int := if x % 2 ^ w < 2 ^ (w - 1) then (x % 2 ^ w : Nat) else (x % 2 ^ w : Nat) - (2 ^ w : Nat)

/-- An integer modulo 2 to the power `w`. -/
def intMod (w : Nat) (x : Int) : Nat := (x % (2 ^ w : Nat)).toNat

end Sys2Proof.Machine
end

