-- ==== Sys2Proof/Machine/Base.lean ====
section
/-! DEFINITION. Where things stand in State: cores, islands, clusters, partitions and worlds by number, and the time of a core. -/

namespace Sys2Proof.Machine

/-- What the meaning of an instruction answers. -/
abbrev Out := Host.Outcome State Fault Refusal

/-- The compute island of a core (01_package R20). -/
def islandOf (c : CoreNo) : Nat := c / 64
/-- The cluster of a core (R18). -/
def clusterOf (c : CoreNo) : Nat := c / 16
/-- The compute stack of a core (R18). -/
def stackOf (c : CoreNo) : Nat := c / 256

def getIsland (s : State) (n : Nat) : Island := s.islands.toList.getD n (Island.reset 1600)

def setIsland (s : State) (n : Nat) (i : Island) : State := { s with islands := s.islands.setIfInBounds n i }

/-- CYCLE_NOW of a core: cycles of its island (06_core R196). -/
def cycOf (s : State) (c : CoreNo) : Cycle := (getIsland s (islandOf c)).cycles

/-- The cycles of a core's island in which `n` cycles of the 1.6 GHz clock from now end: latencies of the memory system and of the shared engines are
stated on that clock, and pass in the same time on a slower island, at the stated count or earlier (00_scope R7, 01_package R21). -/
def coreCycles (s : State) (c : CoreNo) (n : Nat) : Nat :=
  let i := getIsland s (islandOf c)
  (i.acc + n * i.cur) / 1600

/-- The clock of a core's island runs: it stands still in RELOCK (01_package R23). -/
def clockRuns (s : State) (c : CoreNo) : Bool := (getIsland s (islandOf c)).st ≠ .relock

/-- The cycle of the core in focus. -/
def cyc (s : State) : Cycle := cycOf s s.coreId

/-- A core by number. -/
def getCore (s : State) (c : CoreNo) : Core :=
  if c = s.coreId then s.core else (assocGet s.others c).getD Core.reset

def putCore (s : State) (c : CoreNo) (k : Core) : State :=
  if c = s.coreId then { s with core := k } else { s with others := assocPut s.others c k }

/-- The state with core `c` in focus. -/
def focus (s : State) (c : CoreNo) : State :=
  if c = s.coreId then s
  else { s with coreId := c, core := getCore s c, others := assocPut (assocDel s.others c) s.coreId s.core }

/-- The core in focus changed. -/
def modCore (f : Core → Core) (s : State) : State := { s with core := f s.core }

/-- The cores that differ from a core after reset, with the one in focus, in ascending number. -/
def coreNos (s : State) : List CoreNo :=
  sortBy (fun a b => a < b) (s.coreId :: s.others.map (·.1))

/-- Every core changed. -/
def mapCores (f : CoreNo → Core → Core) (s : State) : State :=
  { s with core := f s.coreId s.core, others := s.others.map fun p => (p.1, f p.1 p.2) }

def getPart (s : State) (n : Nat) : Part := s.parts.toList.getD n Part.absent

def setPart (s : State) (n : Nat) (p : Part) : State := { s with parts := s.parts.setIfInBounds n p }

def modPart (s : State) (n : Nat) (f : Part → Part) : State := setPart s n (f (getPart s n))

def getWorld (s : State) (w : Nat) : World := s.worlds.toList.getD w World.absent

def setWorld (s : State) (w : Nat) (x : World) : State := { s with worlds := s.worlds.setIfInBounds w x }

def modWorld (s : State) (w : Nat) (f : World → World) : State := setWorld s w (f (getWorld s w))

def getQuota (s : State) (w : Nat) : Quota := s.quotas.toList.getD w Quota.zero

def setQuota (s : State) (w : Nat) (q : Quota) : State := { s with quotas := s.quotas.setIfInBounds w q }

def getChannel (s : State) (h : Nat) : Channel := s.channels.toList.getD h Channel.reset

def setChannel (s : State) (h : Nat) (c : Channel) : State := { s with channels := s.channels.setIfInBounds h c }

def getPort (s : State) (p : Nat) : Port := s.ports.toList.getD p Port.down

def setPort (s : State) (p : Nat) (x : Port) : State := { s with ports := s.ports.setIfInBounds p x }

def getGroup (s : State) (g : Nat) : Group := s.groups.toList.getD g Group.none

def setGroup (s : State) (g : Nat) (x : Group) : State := { s with groups := s.groups.setIfInBounds g x }

/-- A cluster that nothing has touched. -/
def Cluster.fresh (n : Nat) : Cluster :=
  { num := n, flags := 0, seen := 0, log := [], counters := [], world := none, keys := [], cached := [], faultQ := [] }

def getCluster (s : State) (n : Nat) : Cluster := (s.clusters.find? fun k => k.num = n).getD (Cluster.fresh n)

def putCluster (s : State) (k : Cluster) : State :=
  { s with clusters := s.clusters.filter (fun j => j.num < k.num) ++ k :: s.clusters.filter (fun j => k.num < j.num) }

/-- The partition that owns a compute island, by its island mask (05 R133). -/
def partOfIsland (s : State) (n : Nat) : Option Nat :=
  (List.range 16).find? fun p => (getPart s p).present && (getPart s p).islands.getLsbD n

/-- A world is live in a partition (03_links_trust R93). -/
def liveIn (s : State) (w : BitVec 6) (p : Nat) : Bool := (getPart s p).present && (w = 0 || (getWorld s w.toNat).parts.getLsbD p)

/-- The partition that owns a core. -/
def partOfCore (s : State) (c : CoreNo) : Option Nat := partOfIsland s (islandOf c)

/-- A launch of a partition's pool by number. -/
def findLaunch (s : State) (p : Nat) (l : BitVec 32) : Option Launch := (getPart s p).launches.find? fun x => x.num = l

/-- A launch changed. -/
def modLaunch (s : State) (p : Nat) (l : BitVec 32) (f : Launch → Launch) : State :=
  modPart s p fun q => { q with launches := q.launches.map fun x => if x.num = l then f x else x }

/-- The launch record of the task on the core in focus. -/
def taskLaunch (s : State) : Option Launch :=
  match s.core.task with
  | none => none
  | some t => findLaunch s t.part t.launch

/-- A field of a launch record: `n` bytes at offset `off` (05 R137). -/
def launchField (l : Launch) (off n : Nat) : Nat := recBytes l.bits off n

/-- The world of a launch (R137). -/
def launchWorld (l : Launch) : BitVec 6 := BitVec.ofNat 6 (launchField l 0x02 1)
/-- Its priority class (R137). -/
def launchClass (l : Launch) : Nat := launchField l 0x03 1 % 4
/-- Its level count L (R137). -/
def launchLevels (l : Launch) : Nat := launchField l 0x04 1
/-- Checkpoint enable (R137). -/
def launchCkpt (l : Launch) : Bool := launchField l 0x05 1 % 2 = 1
/-- The context save area pointer (R137). -/
def launchSave (l : Launch) : Nat := launchField l 0x38 8
/-- A level descriptor (R138). -/
def levelDesc (l : Launch) (i : Nat) : Nat := launchField l (0x40 + 8 * i) 8
def levelDomain (l : Launch) (i : Nat) : Nat := levelDesc l i % 8
def levelSteal (l : Launch) (i : Nat) : Bool := levelDesc l i / 8 % 2 = 1
def levelBarrier (l : Launch) (i : Nat) : Nat := levelDesc l i / 16 % 8
def levelCount (l : Launch) (i : Nat) : Nat := levelDesc l i / 256 % 65536
def levelScope (l : Launch) (i : Nat) : Nat := levelDesc l i / 2 ^ 24 % 16

/-- The tasks of a level-i gang: the product of COUNT over levels 0 to i (R139). -/
def gangSize (l : Launch) : Nat → Nat
  | 0 => levelCount l 0
  | i + 1 => gangSize l i * levelCount l (i + 1)

/-- The tasks of a launch (R140). -/
def taskCount (l : Launch) : Nat := if launchLevels l = 0 then 0 else gangSize l (launchLevels l - 1)

/-- The number k of levels with a barrier (R139). -/
def barrierLevels (l : Launch) : Nat := ((List.range (launchLevels l)).filter fun i => levelBarrier l i ≠ 0).length

/-- The tasks of a dispatch gang (R140). -/
def dispatchSize (l : Launch) : Nat := if barrierLevels l = 0 then 1 else gangSize l (barrierLevels l - 1)

/-- The load-store domain group, if the package is in one (03 R86). -/
def lsdGroup (s : State) : Option Group := s.groups.toList.find? fun g => g.valid && g.lsd

/-- The outermost level has DOMAIN load-store domain (R144). -/
def launchLsd (l : Launch) : Bool := launchLevels l ≠ 0 && levelDomain l (launchLevels l - 1) = 4

/-- The tasks of one member's part of a launch that spans the domain (R144). -/
def memberTasks (l : Launch) : Nat := if launchLevels l ≤ 1 then 1 else gangSize l (launchLevels l - 2)

/-- The tasks of a launch that run on this package, and the first of them: the part of this member where the launch spans the domain (R144). -/
def localTasks (l : Launch) : Nat := if launchLsd l then memberTasks l else taskCount l

def firstTask (s : State) (l : Launch) : Nat :=
  if launchLsd l then ((lsdGroup s).map (·.member.toNat)).getD 0 * memberTasks l else 0

/-- The tasks of a dispatch gang on this package, and how many such gangs there are. -/
def gangTasks (l : Launch) : Nat := if launchLsd l then min (dispatchSize l) (memberTasks l) else dispatchSize l

def gangTotal (l : Launch) : Nat := if gangTasks l = 0 then 0 else localTasks l / gangTasks l

/-- A free 64-bit value (log 7). -/
def drawWord (s : State) : Dword × State := (Config.freeWord s.fresh, { s with fresh := s.fresh + 1 })

/-- A free delay (log 8). -/
def drawDelay (s : State) : Nat × State := (Config.freeDelay s.fresh, { s with fresh := s.fresh + 1 })

end Sys2Proof.Machine
end

