-- ==== Sys2Proof/Machine/Post.lean ====
section
/-! DEFINITION. Completions, interrupts and events (04_host_interface R115, R117, R123, R124). -/

namespace Sys2Proof.Machine

/-- Physical address of a host address, in the host window (03 R77). -/
def hostPa (a : Nat) : Nat := 0x1000000000000 + a % 2 ^ 48

/-- PF0 among the functions; VFn is function n. -/
def pf0 : Nat := 16

/-- The admin queue's number (04 R126). -/
def adminQueue : Nat := 256

def getQueue (s : State) (q : Nat) : HQueue := (assocGet s.queues q).getD HQueue.reset

def putQueue (s : State) (q : Nat) (h : HQueue) : State := { s with queues := assocPut s.queues q h }

/-- The function of a queue. -/
def queueFn (q : Nat) : Nat := if q < 256 then q / 16 else pf0

/-- The entries of a completion queue and of a submission queue (R112). -/
def cqSize (h : HQueue) : Nat := 2 ^ h.cqLog.toNat
def sqSize (h : HQueue) : Nat := 2 ^ h.sqLog.toNat

/-- No free completion entry; one entry stays unused, since CQ_HEAD and CQ_TAIL are equal in an empty queue (log 92). -/
def cqFull (h : HQueue) : Bool := (h.cqTail + 1) % cqSize h = h.cqHead

/-- One completion written to host memory, with the phase and the time of the posting; CQ_PHASE inverts when CQ_TAIL wraps (R115, R117). `rec` holds
the identity, SQ_HEAD, the status and the results. -/
def writeCompletion (s : State) (q : Nat) (rec : BitVec 256) : State :=
  let h := getQueue s q
  let num := if q < 256 then q % 16 else 0xFF00
  let phase := if h.phase then 0x8000 else 0
  let status := recBytes rec 6 2 % 0x8000
  let bytes := leBytes 4 (recBytes rec 0 4) ++ leBytes 2 num ++ leBytes 2 (status + phase) ++ leBytes 16 (recBytes rec 8 16) ++ leBytes 8 s.tick
  let a := hostPa (h.cqBase.toNat / 4096 * 4096 + 32 * h.cqTail)
  let tail := (h.cqTail + 1) % cqSize h
  putQueue { s with mem := cellWrite s.mem a bytes } q { h with cqTail := tail, phase := if tail = 0 then !h.phase else h.phase }

/-- The stream of a partition's function among the IDE streams (03 R75). -/
def ideStream (p : Nat) : Nat := 1 + p

/-- The DMA of a partition is open: without IDE in CONFIG_UNLOCKED, and on its selective IDE stream in RUN (03 R78). -/
def dmaOpen (s : State) (p : Nat) : Bool :=
  match (getPart s p).tdisp with
  | .unlocked => true
  | .run => s.ideKeys.contains (ideStream p)
  | _ => false

/-- The host takes completions of a queue: the link is up, the queues are not halted after a link-down (03 R109, R110), and the function's DMA is
open. -/
def postable (s : State) (q : Nat) : Bool := s.linkUp && !s.linkHeld && (256 ≤ q || dmaOpen s (q / 16)) && !cqFull (getQueue s q)

/-- A completion record. -/
def completion (ident sqHead status res0 res1 : Nat) : BitVec 256 :=
  BitVec.ofNat 256 (ident % 65536 + sqHead % 65536 * 2 ^ 16 + status % 32768 * 2 ^ 48 + res0 % 2 ^ 64 * 2 ^ 64 + res1 % 2 ^ 64 * 2 ^ 128)

/-- The MSI-X message of a queue's completions (R115). -/
def sendMsix (s : State) (q : Nat) : State := { s with msix := s.msix ++ [(queueFn q, (getQueue s q).vec.toNat)] }

/-- A completion's write, and the message that follows it. -/
def deliverCompletion (s : State) (x : HeldCpl) : State :=
  let s := writeCompletion s x.queue x.record
  if x.irq then sendMsix s x.queue else s

/-- A completion posted, or held on the device in the common buffer of 4,096 entries; none where the buffer is full too (R115, R109). -/
def post? (s : State) (x : HeldCpl) : Option State :=
  if postable s x.queue && s.held.all (fun h => h.queue ≠ x.queue) then some (deliverCompletion s x)
  else if s.held.length < 4096 then some { s with held := s.held ++ [x] }
  else none

/-- Held completions delivered in order while their queues take them (R110, R115). -/
def drainHeld (s : State) : State :=
  s.held.foldl (fun (s : State) h =>
    if postable s h.queue then { deliverCompletion s h with held := s.held }
    else { s with held := s.held ++ [h] }) { s with held := [] }

/-- No error record. -/
def noRecord : Nat := 0xFFFFFFFF

/-- The queue of a partition that takes its events: queue 0, or else the lowest-numbered with EN at 1 and ERR at 0 (R124). -/
def eventQueue (s : State) (p : Nat) : Option Nat :=
  ((List.range 16).map (16 * p + ·)).find? fun q => (getQueue s q).en && !(getQueue s q).err

/-- One event: its record in the log of 4,096, of which the oldest is overwritten and the next returned then carries LOST (R123); MSI-X vector 0 of
PF0; and, for each partition named, a completion with identity 0xFFFF, discarded where it would have to wait for the full buffer (R124). -/
def raiseEventTo (s : State) (kind : Nat) (part : Option Nat) (world : Option (BitVec 6)) (record : Nat) (args : List Nat) (posts : List Nat) :
    State :=
  let e : Event := { tick := s.tick, kind := kind, part := part, world := world, record := BitVec.ofNat 32 record, args := args }
  let s := { s with nextEvent := (s.nextEvent + 1) % 4096 }
  let s := if s.events.length < 4096 then { s with events := s.events ++ [e], unread := s.unread + 1 }
    else { s with events := s.events.drop 1 ++ [e], unread := min (s.unread + 1) 4096, lostNext := s.lostNext || s.unread = 4096 }
  let s := { s with msix := s.msix ++ [(pf0, 0)] }
  posts.foldl (fun s p =>
    match eventQueue s p with
    | none => s
    | some q =>
      (post? s { queue := q, record := completion 0xFFFF (getQueue s q).sqHead 0 kind record, irq := false, isEvent := true, order := 0 }).getD s) s

/-! ### The event log as it stands in memory (R123) -/

/-- An event record; each argument takes 8 bytes (log 20). -/
def eventBytes (lost : Bool) (e : Event) : List Byte :=
  leBytes 8 e.tick ++ leBytes 2 e.kind ++ leBytes 1 (e.part.getD 0xFF)
    ++ leBytes 1 (((e.world.map (·.toNat)).getD 0) + 64 * e.world.isSome.toNat + 128 * lost.toNat) ++ leBytes 4 e.record.toNat
    ++ padTo 16 0 (e.args.flatMap (leBytes 8))

/-- The bytes of the log's 4,096 records. -/
def logSize : Nat := 131072

/-- The record in a place of the log: the records kept are the last ones written, up to the place before the next. -/
def logSlot (s : State) (j : Nat) : List Byte :=
  match s.events[(j + 4096 + s.events.length - s.nextEvent) % 4096]? with
  | some e => eventBytes false e
  | none => leBytes 32 0

/-- A line of the log. -/
def logLine (s : State) (off : Nat) : List Byte := logSlot s (off / 32) ++ logSlot s (off / 32 + 1)

/-- An event of a partition, or of none. -/
def raiseEvent (s : State) (kind : Nat) (part : Option Nat) (world : Option (BitVec 6)) (record : Nat) (args : List Nat) : State :=
  raiseEventTo s kind part world record args part.toList

end Sys2Proof.Machine
end

