-- ==== Sys2Proof/Machine/Access.lean ====
section
/-! DEFINITION. Memory outside the core: address decoding and translation (02_memory_tiers R38, R39; 15_isa_memory R412), keys, sidebands and poison
(03 R96, R97; 04 R127 to R131), the race detector (09_memory_model R278 to R285), and reads and writes of bytes through all of them. -/

namespace Sys2Proof.Machine

/-! ### Physical addresses -/

/-- What lies at a physical address (02 R38, 03 R77, R86). -/
inductive Tier where
  | hbm
  | weight
  | wear
  | hbf
  | cxl
  | host
  | domain
  | reserved
  deriving DecidableEq, Repr

def tierOf (pa : Nat) : Tier :=
  if pa < 0x8000000000 then .hbm
  else if pa < 0x10000000000 then .reserved
  else if pa < 0x10100000000 then .weight
  else if pa < 0x11000000000 then .reserved
  else if pa < 0x11000400000 then .wear
  else if pa < 0x40000000000 then .reserved
  else if pa < 0x80000000000 then .hbf
  else if pa < 0x200000000000 then .reserved
  else if pa < 0x400000000000 then .cxl
  else if pa < 0x1000000000000 then .reserved
  else if pa < 0x2000000000000 then .host
  else if pa < 0x8000000000000 then .reserved
  else if pa < 0x10000000000000 then .domain
  else .reserved

/-- The HBM channel of a physical address (02 R39). -/
def channelOf (pa : Nat) : Nat := 16 * (pa / 2 ^ 35 % 16) + pa / 4096 % 16

/-- The tile page of a physical address (02 R41). -/
def pageOf (pa : Nat) : Nat := pa / 65536 * 65536

/-- The line of a physical address. -/
def lineOf (pa : Nat) : Nat := pa / 64 * 64

/-- The member index and the offset of a domain-window address (03 R86). -/
def domainMember (pa : Nat) : Nat := pa / 2 ^ 41 % 1024
def domainOffset (pa : Nat) : Nat := pa % 2 ^ 41

/-- The HBM of a member: what lies above it in the member's part of the window is reserved (03 R86). -/
def memberHbm : Nat := 0x8000000000

/-- An address of the domain window that names HBM of this package's own member is served as its own HBM (03 R86). -/
def ownPa (s : State) (pa : Nat) : Nat :=
  if tierOf pa = .domain && domainOffset pa < memberHbm then
    match lsdGroup s with
    | some g => if domainMember pa = g.member.toNat then domainOffset pa else pa
    | none => pa
  else pa

/-- The access is to another package. -/
def isRemote (s : State) (pa : Nat) : Bool := tierOf (ownPa s pa) = .domain

/-- No node (03 R85). -/
def noNode : Nat := 0x3FFFF

/-- The node with member index `m` in the current view of the domain (03 R86). -/
def memberNode (s : State) (m : Nat) : Option Nat :=
  match lsdGroup s with
  | some g => (g.members[m]?).bind fun n => if n = noNode then none else some n
  | none => none

/-- Member index `m` is in the current view (03 R86). -/
def memberInView (s : State) (m : Nat) : Bool := (memberNode s m).isSome

/-- The data capacity behind a decoder: seven eighths of what is attached (02 R63). -/
def Hdm.data (d : Hdm) : Nat := d.attached / 8 * 7

/-- The decoder of a physical address (02 R62). -/
def hdmOf (s : State) (pa : Nat) : Option Hdm := s.hdm.find? fun d => d.base ≤ pa && pa < d.base + d.data

/-- The CXL port that decodes a line: the ports of its decoder in turn, 4 KiB at a time (02 R62). -/
def cxlPortOf (s : State) (pa : Nat) : Option Nat :=
  (hdmOf s pa).bind fun d => d.ports[(pa - d.base) / 4096 % d.ports.length]?

/-! ### Translation -/

/-- The page of a world that maps a virtual address. -/
def findPte (s : State) (w : BitVec 6) (va : Nat) : Option Pte :=
  s.ptes.find? fun p => p.world = w && p.va ≤ va && va < p.va + 65536 * p.pages

/-- The page is a replica (02 R43). -/
def isReplica (s : State) (pa : Nat) : Bool := s.replicas.any fun r => r.1 = pageOf pa

/-- Translation in space gl: unmapped (R38, R412, 03 R86) before permission (02 R59, R43; 03 R77, R87; 06 R166). -/
def xlate (s : State) (w : BitVec 6) (va : Nat) (write exec : Bool) : Except Cause (Pte × Nat) :=
  if va < 0x100000 then .error .unmapped
  else
    match findPte s w va with
    | none => .error .unmapped
    | some p =>
      let pa := ownPa s (p.pa + (va - p.va))
      let t := tierOf pa
      if t = .reserved || (t = .cxl && (hdmOf s pa).isNone) then .error .unmapped
      else if t = .domain && (memberHbm ≤ domainOffset pa || !memberInView s (domainMember pa)) then .error .unmapped
      else if exec && !p.exec then .error .permission
      else if t = .host then .error .permission
      else if write && (!p.write || p.exec || t = .hbf || t = .weight || t = .wear || t = .domain || isReplica s pa) then .error .permission
      else .ok (p, pa)

/-! ### Lines: owner, key, poison -/

/-- The world that a tile page is allocated to. -/
def pageWorld (s : State) (pa : Nat) : BitVec 6 := ((assocGet s.pages (pageOf pa)).map (·.1)).getD 0

/-- The number of the key that a line of world `w` at `pa` lies under now (03 R96, R101). -/
def keyOf (s : State) (pa : Nat) (w : BitVec 6) (slot : BitVec 12) : Nat :=
  if slot ≠ 0 then ((s.keySlots.find? fun k => k.1 = slot).map (·.2.1)).getD 0
  else
    let x := getWorld s w.toNat
    if tierOf pa = .hbf then x.hbfKey
    else if x.st = 2 && x.ptr.toNat ≤ pa / 64 then x.prevKey.getD x.key
    else x.key

/-- A line outside the cores. -/
structure LineView where
  bytes : List Byte
  side : Side
  poison : Bool
  /-- Nothing has written it since its page was allocated. -/
  unwritten : Bool
  deriving DecidableEq, Repr

/-- The sideband of a line that nothing has written. -/
def Side.neutral (w : BitVec 6) (key : Nat) : Side :=
  { sync := 0, writer := 0, replica := false, poison := false, world := w, key := key }

/-- Where an untimed read of a line is served: a prefix page under refetch reads from its clean home (04 R131). -/
def servedFrom (s : State) (pa : Nat) : Nat :=
  match s.prefixes.find? fun p => p.pa = pageOf pa && p.refetching with
  | some p => (p.clean.map fun c => c + pa % 65536).getD pa
  | none => pa

/-- The port of a CXL line is down: its reads return poison (03 R79). -/
def cxlLost (s : State) (pa : Nat) : Bool :=
  tierOf pa = .cxl && match cxlPortOf s pa with
    | some p => !s.cxlUp.getLsbD p
    | none => true

/-- A line of the event log, once the firmware has placed it (04 R123). -/
def inLog (s : State) (l : Nat) : Option Nat := s.logPa.bind fun b => if b ≤ l && l < b + logSize then some (l - b) else none

/-- The bytes of a line at its home: the wear table shows the counters of the erase blocks (02 R61), and the event log its records (04 R123). -/
def homeBytes (s : State) (l : Nat) : List Byte :=
  if tierOf l = .wear then (List.range 16).flatMap fun i => leBytes 4 ((assocGet s.wear ((l - 0x11000000000) / 4 + i)).getD 0).toNat
  else match inLog s l with
    | some off => logLine s off
    | none => cellRead s.mem l 64

/-- The bytes that a line yields: its own under the key that it lies under, and under another key what that key makes of them (03 R96; log 9). -/
def plainBytes (s : State) (l : Nat) (d : Side) (slot : BitVec 12) : List Byte :=
  let bytes := cellRead s.mem l 64
  let key := keyOf s l d.world slot
  if d.key = key then bytes else leBytes 64 (Config.misDecrypt (BitVec.ofNat 512 (leNat bytes)) d.key key l).toNat

/-- A line as a read finds it, from `pa` itself. A line that nothing has written carries the replica bit of its page (02 R43). -/
def lineAt (s : State) (pa : Nat) (slot : BitVec 12) : LineView :=
  let l := lineOf pa
  match assocGet s.side l with
  | none =>
    { bytes := homeBytes s l, side := { Side.neutral (pageWorld s l) 0 with replica := isReplica s l }, poison := cxlLost s l, unwritten := true }
  | some d =>
    { bytes := plainBytes s l d slot, side := d, poison := d.poison || d.key ≠ keyOf s l d.world slot || cxlLost s l, unwritten := false }

/-- A line as an untimed read finds it. -/
def readLine (s : State) (pa : Nat) (slot : BitVec 12) : LineView := lineAt s (servedFrom s pa) slot

/-- The handle that owns a key slot may be used by world `w` (03 R97). -/
def slotUsable (s : State) (slot : BitVec 12) (w : BitVec 6) : Bool :=
  slot = 0 ||
    match s.keySlots.find? fun k => k.1 = slot with
    | none => false
    | some k =>
      match s.aht.find? fun h => h.handle = k.2.2 with
      | none => false
      | some h => h.owner = w || h.grants.getLsbD w.toNat

/-- The read check of R97. -/
def worldReads (s : State) (w : BitVec 6) (p : Pte) (l : LineView) : Bool :=
  (l.side.world = w || (l.side.world = 0 && !p.write)) && slotUsable s p.keySlot w

/-- The write check of R97: a line never written belongs to the world that its page is allocated to. -/
def worldWrites (s : State) (w : BitVec 6) (p : Pte) (l : LineView) : Bool :=
  l.side.world = w && slotUsable s p.keySlot w

/-- LINE_POISON, at most once per tile page and millisecond (R123). -/
def linePoison (s : State) (page l agent : Nat) : State :=
  let t := raiseEvent { s with poisonSeen := assocPut s.poisonSeen page s.now } 0x09 none none noRecord [l, agent]
  match assocGet s.poisonSeen page with
  | some x => if s.now < x + 1600000 then s else t
  | none => t

/-- The line is stored with POISON set: its check value says so, and reading it detects no mismatch (04 R128). -/
def storedPoisoned (s : State) (l : Nat) : Bool := ((assocGet s.side l).map (·.poison)).getD false

/-- The home of a line is writable: no read-only tier, no replica, and some translation of its page lets it be written (04 R128, 02 R59, R63). -/
def writableHome (s : State) (l : Nat) : Bool :=
  (tierOf l = .hbm || tierOf l = .cxl) && !isReplica s l && s.ptes.any fun p => p.write && p.pa ≤ l && l < p.pa + 65536 * p.pages

/-- A poisoned read: a prefix page with a clean home calls for its refetch (R131); a check value that mismatches sets POISON in a writable home (04
R128) and raises LINE_POISON (R123). A line that is lost only while its CXL port is down has no mismatch, and is found again when the port is up (03
R79). -/
def notePoison (s : State) (pa : Nat) (agent : Nat) : State :=
  let l := lineOf (servedFrom s pa)
  let page := pageOf l
  let found := storedPoisoned s l
  if cxlLost s l then s else
  let s := { s with prefixes := s.prefixes.map fun (p : Prefix) =>
    if p.pa = page && !p.refetching && !p.lost then { p with wanted := true }
    else if p.refetching && p.clean = some page then { p with clean := none } else p }
  let s :=
    match assocGet s.side l with
    | some d => if writableHome s l then { s with side := assocPut s.side l { d with poison := true } } else s
    | none => s
  if found then s else linePoison s page l agent

/-! ### The race detector -/

def countOf (v : Counts) (w : Nat) : BitVec 8 := (assocGet v w).getD 0

/-- The later of two counts (09 R278). -/
def later (a b : BitVec 8) : BitVec 8 := if (a - b).toNat < 128 then a else b

/-- A count put into a vector, which lists no count of 0. -/
def putCount (v : Counts) (w : Nat) (x : BitVec 8) : Counts := if x = 0 then assocDel v w else assocPut v w x

/-- Merge(V, X) (R278): every count of either, those that X lists and those that V alone lists. -/
def mergeCounts (v x : Counts) : Counts :=
  x.foldl (fun v p => putCount v p.1 (later (countOf v p.1) p.2))
    (v.filter fun p => (assocGet x p.1).isSome || later p.2 0 ≠ 0)

/-- The sync vector of a core: V with V[c] its own count (R278). -/
def vectorOf (c : CoreNo) (k : Core) : Counts := putCount k.race.v c k.race.own

/-- The age of a key: how many counts ago it was made. -/
def keyAge (r : Race) (k : BitVec 8) : Nat := (r.own - k).toNat

/-- The held snapshot with key `k` (R278). -/
def heldSnap (r : Race) (k : BitVec 8) : Option Snap := r.snaps.find? fun x => x.key = k && keyAge r k < 32

/-- The oldest held snapshot of a core. -/
def oldestSnap (r : Race) : Option Snap :=
  (r.snaps.filter fun x => keyAge r x.key < 32).foldl (fun best x =>
    match best with
    | none => some x
    | some b => if keyAge r b.key < keyAge r x.key then some x else some b) none

/-- The snapshot that a race field names, or the oldest held in its place (R280, R281). -/
def namedSnap (s : State) (w : Nat) (k : BitVec 8) : Option Snap :=
  let r := (getCore s w).race
  match heldSnap r k with
  | some x => some x
  | none => oldestSnap r

/-- A snapshot stored: the last 32 are kept. -/
def storeSnap (r : Race) (x : Snap) : Race := { r with snaps := (r.snaps ++ [x]).drop (r.snaps.length + 1 - 32) }

/-- Agents in one instance of the narrower of two scopes (R271). -/
def scopeJoins (x y : Nat) (a b : CoreNo) : Bool :=
  if min x y = 0 then a = b else if min x y = 1 then clusterOf a = clusterOf b else true

/-- A release point of core `c`: the own count advances to k, and snapshot k is V with V[c] = k - 1, merged with `more` (R280). -/
def releasePoint (s : State) (c : CoreNo) (scope : Nat) (kind : SnapKind) (more : Counts) : State :=
  -- A fence arms the atomics before the core's next release point (R275).
  let k := getCore s c
  let old := k.race.own
  let vec := mergeCounts (vectorOf c k) more
  let r := { k.race with own := old + 1 }
  putCore s c { k with relArmed := false, race := storeSnap r { key := old + 1, vec := putCount vec c old, scope := scope, kind := kind } }

/-- The snapshot that a release write merges: the one named by the written line's previous race field (R280). -/
def releaseMore (s : State) (d : Side) : Counts :=
  if d.writer = 0 && d.sync = 0 then []
  else
    let r := (getCore s d.writer.toNat).race
    match heldSnap r d.sync with
    | some x => if x.kind = .other then [] else x.vec
    | none => ((oldestSnap r).map (·.vec)).getD []

/-- The snapshot named by a race field, where scope `y` of core `c` joins it (R281). -/
def acquireFrom (s : State) (c : CoreNo) (y : Nat) (d : Side) : Counts :=
  if d.writer = 0 && d.sync = 0 then []
  else
    match namedSnap s d.writer.toNat d.sync with
    | some x => if scopeJoins x.scope y d.writer.toNat c then x.vec else []
    | none => []

/-- V := Merge(V, X) of core `c`. -/
def acquireInto (s : State) (c : CoreNo) (x : Counts) : State :=
  let k := getCore s c
  putCore s c { k with race := { k.race with v := mergeCounts k.race.v x } }

/-- Who makes an access: a task, or an engine command with its stamp, engine and sequence number (R282). -/
structure Agent where
  core : CoreNo
  world : BitVec 6
  vec : Counts
  cmd : Option (BitVec 8 × Nat × BitVec 32)
  deriving DecidableEq, Repr

/-- The task of the core in focus. -/
def taskAgent (s : State) : Agent :=
  { core := s.coreId, world := s.core.sys.world, vec := vectorOf s.coreId s.core, cmd := none }

/-- The check of R282: the agent's count, where the access races. -/
def raceWith (s : State) (ag : Agent) (d : Side) : Bool :=
  if d.writer = 0 && d.sync = 0 then false
  else
    let w := d.writer.toNat
    let dist := (d.sync - countOf ag.vec w).toNat
    if 1 ≤ dist && dist ≤ 127 then true
    else if w = ag.core then
      match (getCore s w).race.stamps.find? fun e => e.stamp = d.sync with
      | none => false
      | some e =>
        match ag.cmd with
        | none => true
        | some (k, eng, seq) => d.sync ≠ k && !(e.eng = eng && e.seq.toNat < seq.toNat)
    else false

/-- Tiers whose accesses are race-checked (R285). -/
def raceChecked (s : State) (pa : Nat) : Bool :=
  (tierOf pa = .hbm || tierOf pa = .cxl) && !isReplica s pa

/-- The detail field of a RACE (10_traps R312). -/
def raceDetail (ag : Agent) (d : Side) : BitVec 512 :=
  BitVec.ofNat 512 (d.writer.toNat + d.sync.toNat * 2 ^ 16 + (countOf ag.vec d.writer.toNat).toNat * 2 ^ 24)

/-! ### Checks of one line -/

/-- The lines of `n` bytes from `va`: each line's address, and the first and the end of its bytes. -/
def spanLines (va n : Nat) : List (Nat × Nat × Nat) :=
  if n = 0 then []
  else (List.range ((va + n - 1) / 64 - va / 64 + 1)).map fun i =>
    let l := (va / 64 + i) * 64
    (l, max va l, min (va + n) (l + 64))

/-- A failure with nothing more to say. -/
def failAt (c : Cause) (va : Nat) : Failed := { cause := c, addr := BitVec.ofNat 64 va, detail := 0 }

/-- World and race checks of a read of a line (R97, R282), made at `line` of virtual address `va`. -/
def checkRead (s : State) (ag : Agent) (p : Pte) (pa va : Nat) : Option Failed :=
  if tierOf pa = .domain then none
  else
    let l := lineAt s pa p.keySlot
    if !worldReads s ag.world p l then some (failAt .world va)
    else if raceChecked s pa && raceWith s ag l.side then
      some { cause := .race, addr := BitVec.ofNat 64 (va / 64 * 64), detail := raceDetail ag l.side }
    else none

/-- World and race checks of a write of a line. -/
def checkWrite (s : State) (ag : Agent) (p : Pte) (pa va : Nat) : Option Failed :=
  let l := lineAt s pa p.keySlot
  if !worldWrites s ag.world p l then some (failAt .world va)
  else if raceChecked s pa && raceWith s ag l.side then
    some { cause := .race, addr := BitVec.ofNat 64 (va / 64 * 64), detail := raceDetail ag l.side }
  else none

/-- Every line of an access translated, in ascending order; the first byte of the first part that fails (09 R293). -/
def xlateSpan (s : State) (w : BitVec 6) (va n : Nat) (write : Bool) : Except Failed (List (Nat × Nat × Nat × Pte × Nat)) :=
  (spanLines va n).foldr (fun x acc =>
    match xlate s w x.2.1 write false with
    | .error c => .error (failAt c x.2.1)
    | .ok (p, pa) =>
      match acc with
      | .error f => .error f
      | .ok l => .ok ((x.1, x.2.1, x.2.2, p, pa) :: l)) (.ok [])

/-- The first failure of a list of checks. -/
def firstFail {α : Type} (f : α → Option Failed) : List α → Option Failed
  | [] => none
  | x :: xs =>
    match f x with
    | some e => some e
    | none => firstFail f xs

/-! ### Writes of lines -/

/-- Bytes of a line replaced. -/
def patchLine (l : List Byte) (bs : List (Nat × Byte)) : List Byte := bs.foldl (fun l p => l.set p.1 p.2) l

/-! ### The sideband as it is stored (04_host_interface R127, R128) -/

/-- One bit of CRC-32C, reflected (04_host_interface R128). -/
def crcBit (x : Nat) : Nat := if x % 2 = 1 then (x / 2) ^^^ 0x82F63B78 else x / 2

def crcByte (crc : Nat) (b : Byte) : Nat :=
  crcBit (crcBit (crcBit (crcBit (crcBit (crcBit (crcBit (crcBit (crc ^^^ b.toNat))))))))

/-- CRC-32C of a byte string (R128). -/
def crc32c (bs : List Byte) : Nat := bs.foldl crcByte 0xFFFFFFFF ^^^ 0xFFFFFFFF

/-- Sideband bits [63:32] with POISON as given (R127). -/
def sideHigh (d : Side) (poison : Bool) : Nat :=
  d.world.toNat + poison.toNat * 2 ^ 6 + d.replica.toNat * 2 ^ 7 + d.writer.toNat * 2 ^ 8 + d.sync.toNat * 2 ^ 18

/-- The check value of a line (R128); a poisoned line has its complement. -/
def checkValue (line : List Byte) (d : Side) : Nat :=
  let c := crc32c (line ++ leBytes 4 (sideHigh d false))
  if d.poison then c ^^^ 0xFFFFFFFF else c

/-- The sideband word of a line (R127). CHECK follows from the line and is not stored (log 5). -/
def sideWord (line : List Byte) (d : Side) : Nat := checkValue line d + sideHigh d d.poison * 2 ^ 32

/-- One line written in place: bytes, owner, race field (none leaves it), poison by R129, key by R96 and R101. -/
def putLine (s : State) (pa : Nat) (bs : List (Nat × Byte)) (w : BitVec 6) (stamp : Option (BitVec 10 × BitVec 8)) (poison : Bool)
    (slot : BitVec 12) : State :=
  let l := lineOf pa
  let old := lineAt s l slot
  let bytes := patchLine old.bytes bs
  let whole := 64 ≤ bs.length
  let d : Side :=
    { sync := (stamp.map (·.2)).getD old.side.sync, writer := (stamp.map (·.1)).getD old.side.writer, replica := old.side.replica,
      poison := poison || (!whole && old.poison), world := w, key := keyOf s l w slot }
  { s with mem := cellWrite s.mem l bytes, side := assocPut s.side l d }

/-! ### The log of a checkpoint interval (10_traps R313 to R316) -/

/-- The checkpoint interval of a task: its gang's checkpoint, when there is one (10_traps R313). -/
def ckptIs (t : TaskRef) (k : Ckpt) : Bool := k.part = t.part && k.launch = t.launch && t.task.toNat / k.size = k.idx

def ckptOf (s : State) (t : TaskRef) : Option Ckpt := s.ckpts.find? (ckptIs t)

def modCkpt (s : State) (t : TaskRef) (f : Ckpt → Ckpt) : State := { s with ckpts := s.ckpts.map fun k => if ckptIs t k then f k else k }

/-- The entries that a checkpoint log of a task holds (R314). -/
def ckptCapacity : Nat := 48608

/-- The checkpoint area of a task (R314). -/
def ckptArea (l : Launch) (t : BitVec 32) : Nat := launchSave l + taskCount l * 0x210000 + t.toNat * 0x800000

/-- The entries in a task's log. -/
def ckptUsed (k : Ckpt) (t : TaskRef) : Nat := (k.log.filter fun e => e.1 = t.task).length

/-- The log's entry `n` in memory, part by part: where it lies in its 128 bytes, its page and its physical address; none of a part that is mapped
nowhere (R314; log 52). -/
def ckptPlaces (s : State) (t : TaskRef) (n : Nat) : List (Nat × Nat × Pte × Nat) :=
  match findLaunch s t.part t.launch with
  | none => []
  | some l =>
    let va := ckptArea l t.task + 0x211000 + 128 * n
    (spanLines va 128).filterMap fun x => (findPte s (launchWorld l) x.2.1).map fun p => (x.2.1 - va, x.2.2 - x.2.1, p, ownPa s (p.pa + (x.2.1 - p.va)))

/-- The memory controller of a line: that of its HBM channel, or of its CXL port (R315). -/
def controllerOf (s : State) (line : Nat) : Nat := if tierOf line = .hbm then channelOf line else 256 + (cxlPortOf s line).getD 0

/-- An entry of a log: the line's address, its stored sideband and its 64 bytes as ciphertext (log 9), the controller's ordinal, the task (R315). -/
def ckptEntry (t : TaskRef) (line ordinal : Nat) (d : Side) (data : BitVec 512) : List Byte :=
  leBytes 8 line ++ leBytes 8 (sideWord (leBytes 64 data.toNat) d) ++ leBytes 64 (Config.cipher data d.key line).toNat ++ leBytes 4 ordinal
    ++ leBytes 4 t.task.toNat ++ leBytes 40 0

/-- A write of a task of a checkpoint gang is logged before it is performed: the pre-image goes into the interval's log and its entry into the log's
place in memory, by a write that is not logged itself. The write that fills the log makes the interval irrevocable; a full log takes no more (R315, R316). -/
def ckptLog (s : State) (who : Option TaskRef) (line : Nat) : State :=
  match who with
  | none => s
  | some t =>
    match ckptOf s t with
    | none => s
    | some k =>
      let used := ckptUsed k t
      if ckptCapacity ≤ used then s
      else
        let data := BitVec.ofNat 512 (leNat (cellRead s.mem line 64))
        let old := assocGet s.side line
        let m := controllerOf s line
        let ordinal := (assocGet s.logOrdinals m).getD 0
        let b := ckptEntry t line ordinal (old.getD (Side.neutral (pageWorld s line) 0)) data
        let s := { s with logOrdinals := assocPut s.logOrdinals m (ordinal + 1) }
        let s := (ckptPlaces s t used).foldl (fun s x =>
          putLine s x.2.2.2 (((b.drop x.1).take x.2.1).zipIdx.map fun y => (x.2.2.2 % 64 + y.2, y.1)) x.2.2.1.world (some (0, 0)) false x.2.2.1.keySlot) s
        modCkpt s t fun k => { k with log := k.log ++ [(t.task, line, old, data)], irrev := k.irrev || used + 1 ≥ ckptCapacity }

/-- A write performed at a line's home: logged for a checkpoint, and mirrored to the destination while its page is being copied by a migration
(02 R66). A write in an interval to a page that is migrated makes it irrevocable (10 R316). -/
def writeLine (s : State) (pa : Nat) (bs : List (Nat × Byte)) (w : BitVec 6) (stamp : Option (BitVec 10 × BitVec 8)) (poison : Bool)
    (slot : BitVec 12) (who : Option TaskRef) : State :=
  let l := lineOf pa
  let s := ckptLog s who l
  let s := putLine s l bs w stamp poison slot
  match s.migrations.find? fun m => m.src = pageOf l && (m.step = 2 || m.step = 3) && m.replica.isNone with
  | none => s
  | some m =>
    let dst := m.dst + l % 65536
    let whole := (lineAt s l slot)
    let s := { s with mem := cellWrite s.mem dst whole.bytes, side := assocPut s.side dst { whole.side with key := keyOf s dst whole.side.world slot } }
    let i := l % 65536 / 64
    let s := { s with migrations := s.migrations.map fun x =>
      if x.src = m.src then { x with bitmap := x.bitmap ||| BitVec.ofNat 1024 (2 ^ i) } else x }
    match who with
    | some t => modCkpt s t fun k => { k with irrev := true }
    | none => s

/-! ### The read cache and the constant cache (06 R189, R190) -/

def cacheSet (va : Nat) : Nat := va / 64 % 128

def cacheGet (c : List CacheLine) (va : Nat) : Option CacheLine := c.find? fun x => x.va = va / 64 * 64

/-- A line put at the front: least recently used replacement within a set of 8 ways. -/
def cachePut (c : List CacheLine) (x : CacheLine) : List CacheLine :=
  let rest := c.filter fun y => y.va ≠ x.va
  let same := rest.filter fun y => cacheSet y.va = cacheSet x.va
  let keep := same.take 7
  x :: rest.filter fun y => cacheSet y.va ≠ cacheSet x.va || keep.any (fun z => z.va = y.va)

/-- A store of the core's own streams updates a cached copy (R189). -/
def cacheStore (c : List CacheLine) (va : Nat) (bs : List (Nat × Byte)) (d : Option Side) : List CacheLine :=
  c.map fun x =>
    if x.va = va / 64 * 64 then
      { x with data := BitVec.ofNat 512 (leNat (patchLine (leBytes 64 x.data.toNat) bs)), side := d }
    else x

/-! ### The host window -/

/-- Bytes of a line stored to host memory: a poisoned line goes as a poisoned TLP (04_host_interface R129). -/
def hostStore (s : State) (pa : Nat) (bs : List Byte) (poison : Bool) : State :=
  let rest := s.hostEp.filter fun x => x ≠ lineOf pa
  { s with mem := cellWrite s.mem pa bs, hostEp := if poison then rest ++ [lineOf pa] else rest }

/-! ### Accesses that wait -/

/-- A cycle lies in a void window of a repair (02 R56). -/
def Channel.voidAt (c : Channel) (t : Cycle) : Bool :=
  match c.voidFrom with
  | none => false
  | some a => a ≤ t && match c.voidTo with
    | none => true
    | some b => t < b

/-- A cycle lies in the void window of a channel (R56). -/
def inVoid (s : State) (ch t : Nat) : Bool := (getChannel s ch).voidAt t

/-- The link of a compute stack pauses for its repair (R74). -/
def linkPaused (s : State) (k : Nat) : Bool := (s.linkStat.toList.getD k Channel.reset).voidAt s.now

/-- The compute stack beside a memory, none for what lies behind the I/O die (01 R18, 02 R38). -/
def memoryStack (pa : Nat) : Option Nat :=
  match tierOf pa with
  | .hbm => some (pa / 2 ^ 37)
  | .weight => some ((pa - 0x10000000000) / 0x40000000)
  | .hbf => some ((pa - 0x40000000000) / 0x10000000000)
  | _ => none

/-- The interposer links that untimed traffic of core `c` with the memory at `pa` crosses: none within a compute stack (R74; log 89). -/
def linksCrossed (c : CoreNo) (pa : Nat) : List Nat :=
  match memoryStack pa with
  | some k => if k = stackOf c then [] else [stackOf c, k]
  | none => [stackOf c]

/-- The page stands in step 4 of its migration: new accesses to it wait (R65). -/
def switching (s : State) (pa : Nat) : Bool := s.migrations.any fun m => m.step = 4 && m.replica.isNone && m.src = pageOf pa

/-- Untimed accesses to `pa` are held: its channel is in repair (R56). -/
def channelHeld (s : State) (pa : Nat) : Bool := tierOf pa = .hbm && inVoid s (channelOf pa) s.now

/-- An untimed access of core `c` to `pa` is held: its channel or a link that it crosses is in repair (R56, R74). -/
def accessHeld (s : State) (c : CoreNo) (pa : Nat) : Bool := channelHeld s pa || (linksCrossed c pa).any (linkPaused s)

/-- A new access of core `c` to `pa` waits: it would be held, or its page is being switched (R65). -/
def accessWaits (s : State) (c : CoreNo) (pa : Nat) : Bool := accessHeld s c pa || switching s pa

/-- A sweep stands at the line: a write to it waits for the sweep's own (03 R101). -/
def atPointer (s : State) (pa : Nat) : Bool :=
  s.worlds.toList.zipIdx.any fun x => x.1.st = 2 && x.1.ptr.toNat = pa / 64 && (pageWorld s pa).toNat = x.2

/-- A write of core `c` to `pa` is held, and a new one waits. -/
def writeHeld (s : State) (c : CoreNo) (pa : Nat) : Bool := accessHeld s c pa || atPointer s pa
def writeWaits (s : State) (c : CoreNo) (pa : Nat) : Bool := accessWaits s c pa || atPointer s pa

/-! ### The cluster's cache of handle keys (03 R98) -/

/-- The handle keys that a cluster's cache holds, locked and unlocked. -/
def keyCache : Nat := 64

/-- The key of a slot stands in the cluster's cache; slot 0 names no handle key. -/
def keyCached (s : State) (c : CoreNo) (slot : BitVec 12) : Bool :=
  let u := getCluster s (clusterOf c)
  slot = 0 || u.keys.contains slot || u.cached.contains slot

/-- A key used: the most recently used of the unlocked ones, which fill what the locked ones leave (log 90). -/
def touchKey (c : CoreNo) (slot : BitVec 12) (s : State) : State :=
  let u := getCluster s (clusterOf c)
  if slot = 0 || u.keys.contains slot then s
  else putCluster s { u with cached := (slot :: u.cached.filter fun k => k ≠ slot).take (keyCache - u.keys.length) }

/-- The cycles of the 1.6 GHz clock that an untimed fill waits for its key. -/
def keyWait (s : State) (c : CoreNo) (slot : BitVec 12) : Nat := if keyCached s c slot then 0 else 160

/-! ### Reads and writes of bytes -/

/-- Bytes read from their homes in space gl, with every check of ReadMem (08 R269): translation, world, race, then poison. -/
def readHome (s : State) (ag : Agent) (va n : Nat) : State × Except Failed (List Byte) :=
  match xlateSpan s ag.world va n false with
  | .error f => (s, .error f)
  | .ok ls =>
    match firstFail (fun x => if worldReads s ag.world x.2.2.2.1 (lineAt s x.2.2.2.2 x.2.2.2.1.keySlot) || isRemote s x.2.2.2.2 then none
        else some (failAt .world x.2.1)) ls with
    | some f => (s, .error f)
    | none =>
      match firstFail (fun x => checkRead s ag x.2.2.2.1 x.2.2.2.2 x.2.1) ls with
      | some f => (s, .error f)
      | none =>
        match ls.find? fun x => (readLine s x.2.2.2.2 x.2.2.2.1.keySlot).poison with
        | some x => (notePoison s x.2.2.2.2 ag.core, .error (failAt .poison x.1))
        | none =>
          (s, .ok (ls.flatMap fun x =>
            ((readLine s x.2.2.2.2 x.2.2.2.1.keySlot).bytes.drop (x.2.1 - x.1)).take (x.2.2.1 - x.2.1)))

/-- Bytes written to their homes in space gl, with every check of WriteMem, then stamped (09 R279). -/
def writeHome (s : State) (ag : Agent) (va : Nat) (bytes : List Byte) (stamp : Option (BitVec 10 × BitVec 8)) (poison : Bool)
    (who : Option TaskRef) : Except Failed State :=
  match xlateSpan s ag.world va bytes.length true with
  | .error f => .error f
  | .ok ls =>
    match firstFail (fun x => if worldWrites s ag.world x.2.2.2.1 (lineAt s x.2.2.2.2 x.2.2.2.1.keySlot) then none
        else some (failAt .world x.2.1)) ls with
    | some f => .error f
    | none =>
      match firstFail (fun x => checkWrite s ag x.2.2.2.1 x.2.2.2.2 x.2.1) ls with
      | some f => .error f
      | none =>
        .ok (ls.foldl (fun s x =>
          let bs := ((bytes.drop (x.2.1 - va)).take (x.2.2.1 - x.2.1)).zipIdx.map fun p => (x.2.1 - x.1 + p.2, p.1)
          writeLine s x.2.2.2.2 bs ag.world stamp poison x.2.2.2.1.keySlot who) s)

/-- The stamp of an ordinary write by a core (R279). -/
def coreStamp (s : State) (c : CoreNo) : BitVec 10 × BitVec 8 := (BitVec.ofNat 10 c, (getCore s c).race.own)

/-- The cycles of the core in focus that an access to a tier takes: its least unloaded latency, which is stated at 1.6 GHz (00 R7), and a free delay
upon it (15 R416, R427; log 8). -/
def loadLatency (s : State) (base : Nat) : Nat × State :=
  let (d, s) := drawDelay s
  (coreCycles s s.coreId (base + d), s)

end Sys2Proof.Machine
end

