-- ==== Sys2Proof/Machine/Flags.lean ====
section
/-! DEFINITION. Flags: the core flag array and its pipeline ring (06_core R180 to R183), cluster flags, the conditions of compares
(12_isa_scalar R356, 13_isa_vector R383), and the FP_STICKY bits (08_formats R244). -/

namespace Sys2Proof.Machine

/-! ### The core flag array -/

/-- A bit of a flag array. -/
def flagBit (f : BitVec 4096) (n : Nat) : Bool := f.getLsbD n

/-- A flag array with one flag written. -/
def putBit (f : BitVec 4096) (n : Nat) (b : Bool) : BitVec 4096 :=
  if b then f ||| BitVec.ofNat 4096 (2 ^ n) else f &&& ~~~(BitVec.ofNat 4096 (2 ^ n))

/-- The place of a flag in its ring stage: 0 to 7 OWNER, 8 FULL, 9 to 15 reserved; none outside the ring (R183). -/
def ringPlace (k : Core) (n : Nat) : Option Nat :=
  if 768 ≤ n && n < 768 + 16 * k.sys.ringLen.toNat then some (n % 16) else none

/-- A flag that FSET, FCLR and data writes change: not an OWNER or a reserved flag of the enabled ring (R183). -/
def flagWritable (k : Core) (n : Nat) : Bool :=
  match ringPlace k n with
  | none => true
  | some i => i = 8

/-- A flag as a test or a wait in this cycle sees it: as at the end of the previous cycle (R181); reserved flags of the ring read 0. -/
def flagSeen (k : Core) (n : Nat) : Bool :=
  match ringPlace k n with
  | none => flagBit k.flagsPrev n
  | some i => i ≤ 8 && flagBit k.flagsPrev n

/-- A flag as it stands after the writes so far. -/
def flagNow (k : Core) (n : Nat) : Bool := flagBit k.flags n

/-- A flag written, where it may be. -/
def flagPut (n : Nat) (b : Bool) (k : Core) : Core :=
  if flagWritable k n then { k with flags := putBit k.flags n b } else k

/-- A byte of the flag array: flag n is bit n MOD 8 of byte n DIV 8 (R180). The second byte of a ring stage holds FULL and seven reserved flags, which
read 0 (R183). -/
def flagByte (k : Core) (i : Nat) : Byte :=
  let x : Byte := BitVec.ofNat 8 (k.flags.toNat / 2 ^ (8 * i))
  if (ringPlace k (8 * i)) = some 8 then x &&& 1 else x

/-- A byte of the flag array written as data. -/
def flagBytePut (i : Nat) (x : Byte) (k : Core) : Core :=
  (List.range 8).foldl (fun k j => flagPut (8 * i + j) (x.getLsbD j) k) k

/-! ### The pipeline ring -/

/-- The state word of a stage in an array of flags: OWNER in [7:0], FULL in bit 8 (12_isa_scalar R367). -/
def ringWord (f : BitVec 4096) (st : Nat) : Nat := f.toNat / 2 ^ (768 + 16 * st) % 512

/-- OWNER and FULL of a stage written as one flag operation. -/
def ringPut (st : Nat) (w : Nat) (k : Core) : Core :=
  { k with flags := (List.range 9).foldl (fun f j => putBit f (768 + 16 * st + j) (w.testBit j)) k.flags }

/-! ### Cluster flags (R180, R181) -/

/-- The array as the cores of the cluster see it in a cycle: changes count 8 cycles after they are made. -/
def clusterSeen (u : Cluster) (c : Cycle) : BitVec 4096 :=
  u.log.foldl (fun f e => if e.1 ≤ c then e.2 else f) u.seen

/-- A cluster flag changed in cycle `c`. -/
def clusterPut (u : Cluster) (c : Cycle) (n : Nat) (b : Bool) : Cluster :=
  let f := putBit u.flags n b
  { u with flags := f, seen := clusterSeen u c, log := (u.log.filter fun e => c < e.1) ++ [(c + 8, f)] }

/-! ### Conditions -/

/-- The condition of CMP and CMPI on g[a] and y (12_isa_scalar R356). -/
def scalarCond (c : BitVec 4) (x y : Dword) : Bool :=
  match c.toNat with
  | 0 => x = y
  | 1 => x ≠ y
  | 2 => x.toInt < y.toInt
  | 3 => y.toInt ≤ x.toInt
  | 4 => x.toNat < y.toNat
  | 5 => y.toNat ≤ x.toNat
  | 6 => x &&& y ≠ 0
  | _ => x &&& y = 0

/-! ### FP_STICKY -/

/-- The exceptions of a computation, in the bit order of FP_STICKY (R244). -/
structure FpFlags where
  nv : Bool := false
  dz : Bool := false
  ov : Bool := false
  uf : Bool := false
  nx : Bool := false
  sat : Bool := false
  deriving DecidableEq, Repr

def FpFlags.none : FpFlags := {}

/-- Exceptions of two computations together. -/
def FpFlags.or (a b : FpFlags) : FpFlags :=
  { nv := a.nv || b.nv, dz := a.dz || b.dz, ov := a.ov || b.ov, uf := a.uf || b.uf, nx := a.nx || b.nx, sat := a.sat || b.sat }

/-- The bits in FP_STICKY. -/
def FpFlags.bits (f : FpFlags) : BitVec 6 :=
  BitVec.ofNat 6 (f.nv.toNat + 2 * f.dz.toNat + 4 * f.ov.toNat + 8 * f.uf.toNat + 16 * f.nx.toNat + 32 * f.sat.toNat)

end Sys2Proof.Machine
end

