-- ==== Sys2Proof/Machine/Ops.lean ====
section
/-! DEFINITION. The named operations over the registers and core-local memory of the core in focus, the issue of the four streams, and taking a trap
and returning from one (10_traps). -/

namespace Sys2Proof.Machine

/-! ### Scalar registers -/

/-- g[r]; g0 reads zero (12_isa_scalar R347). -/
def readG (s : State) (r : GReg) : Dword := if r = 0 then 0 else s.core.g[r.toNat]'r.isLt

/-- g[r] := x, readable by instructions `lat` cycles later; a write to g0 is discarded (R347, R370). -/
def writeG (r : GReg) (x : Dword) (lat : Nat) (s : State) : State :=
  if r = 0 then s
  else modCore (fun k => { k with g := k.g.set r.toNat x r.isLt, gReady := k.gReady.set r.toNat (cyc s + lat) r.isLt }) s

def readB (s : State) (n : BitVec 3) : Dword := s.core.b[n.toNat]'n.isLt

def writeB (n : BitVec 3) (x : Dword) (s : State) : State := modCore (fun k => { k with b := k.b.set n.toNat x n.isLt }) s

def readE (s : State) (n : BitVec 4) : EReg := s.core.e[n.toNat]'n.isLt

def writeE (n : BitVec 4) (x : EReg) (s : State) : State := modCore (fun k => { k with e := k.e.set n.toNat x n.isLt }) s

def readV (s : State) (n : BitVec 5) : VReg := s.core.v[n.toNat]'n.isLt
def readT (s : State) (n : BitVec 4) : TReg := s.core.t[n.toNat]'n.isLt
def readA (s : State) (n : BitVec 2) : Acc := s.core.a[n.toNat]'n.isLt
def readM (s : State) (n : BitVec 3) : BitVec 2048 := s.core.m[n.toNat]'n.isLt
def readAh (s : State) (n : BitVec 2) : AhReg := s.core.ah[n.toNat]'n.isLt
def readQ (s : State) (n : BitVec 4) : Queue := s.core.q[n.toNat]'n.isLt

def writeQ (n : BitVec 4) (x : Queue) (s : State) : State := modCore (fun k => { k with q := k.q.set n.toNat x n.isLt }) s

/-- System registers changed. -/
def modSys (f : SysRegs → SysRegs) (s : State) : State := modCore (fun k => { k with sys := f k.sys }) s

/-- HANDLER: a user handler is running (10_traps R302). -/
def inHandler (s : State) : Bool := s.core.sys.trapCause.getLsbD 26

/-! ### Tile slots and the scratchpad (06_core R184) -/

def getSlot (k : Core) (n : Nat) : TileSlot := k.slots.toList.getD n TileSlot.zero

def modSlot (n : Nat) (f : TileSlot → TileSlot) (k : Core) : Core := { k with slots := k.slots.setIfInBounds n (f (getSlot k n)) }

/-- The poison bit of a scratchpad line. -/
def spPoison (k : Core) (addr : Nat) : Bool := (getSlot k (addr / 4096)).poison.getLsbD (addr / 64 % 64)

/-- The poison bit of a scratchpad line written. -/
def putSpPoison (addr : Nat) (b : Bool) (k : Core) : Core :=
  modSlot (addr / 4096) (fun t =>
    { t with poison := if b then t.poison ||| BitVec.ofNat 64 (2 ^ (addr / 64 % 64)) else t.poison &&& ~~~(BitVec.ofNat 64 (2 ^ (addr / 64 % 64))) }) k

/-- Poison of the lines of a write: set by poisoned data, cleared by a write of a whole line from unpoisoned data (04 R129). -/
def markLines (addr n : Nat) (poison : Bool) (k : Core) : Core :=
  (spanLines addr n).foldl (fun k x =>
    if poison then putSpPoison x.1 true k else if x.2.2 - x.2.1 = 64 then putSpPoison x.1 false k else k) k

/-- A byte of a pattern slot written (15 R411). -/
def putPattern (i : Nat) (x : Byte) (k : Core) : Core :=
  let p := i / 64
  let old := k.p.toList.getD p 0
  { k with p := k.p.setIfInBounds p (BitVec.ofNat 512 (leNat ((leBytes 64 old.toNat).set (i % 64) x))) }

/-- Bytes of scratchpad-local space written, by the ranges of 15 R411. -/
def localPut (addr : Nat) (bytes : List Byte) (poison : Bool) (k : Core) : Core :=
  if addr < 0x80000 then markLines addr bytes.length poison { k with sp := cellWrite k.sp addr bytes }
  else if addr < 0x80800 then bytes.zipIdx.foldl (fun k p => flagBytePut (addr - 0x80000 + p.2) p.1 k) k
  else bytes.zipIdx.foldl (fun k p => putPattern (addr - 0x80800 + p.2) p.1 k) k

/-- Bytes of scratchpad-local space as they stand. -/
def localGet (k : Core) (addr n : Nat) : List Byte :=
  if addr < 0x80000 then cellRead k.sp addr n
  else if addr < 0x80800 then (List.range n).map fun i => flagByte k (addr - 0x80000 + i)
  else (List.range n).map fun i =>
    let j := addr - 0x80800 + i
    BitVec.ofNat 8 ((k.p.toList.getD (j / 64) 0).toNat / 2 ^ (8 * (j % 64)))

/-! ### Delayed effects (09 R272, R273) -/

/-- The operation of an atomic on `size` bytes: 0 to 8 as R417 numbers them, 9 for ACAS with the expected value `y`; none where ACAS fails. -/
def atomResult (op size old x y : Nat) : Option Nat :=
  let w := 8 * size
  let m := 2 ^ w
  match op with
  | 0 => some ((old + x) % m)
  | 1 => some (if sNat w old ≤ sNat w x then old else x)
  | 2 => some (if sNat w old ≤ sNat w x then x else old)
  | 3 => some (min old x)
  | 4 => some (max old x)
  | 5 => some (old &&& x)
  | 6 => some (old ||| x)
  | 7 => some (old ^^^ x)
  | 8 => some x
  | _ => if old = y then some x else none

/-- The scalar register that a delayed access of the S stream writes. -/
def landG (d : GReg) (x : Dword) (k : Core) : Core := if d = 0 then k else { k with g := k.g.set d.toNat x d.isLt }

/-- What an effect of cycle `due` does. An atomic's write to the scratchpad lands with the other writes of the cycle. -/
def applyEffect (due : Cycle) (e : Effect) (k : Core) : Core :=
  match e with
  | .lowAtomic d addr size op x y =>
    let old := leNat (localGet k addr size)
    let k :=
      match atomResult op size old (x.toNat % 2 ^ (8 * size)) (y.toNat % 2 ^ (8 * size)) with
      | some v =>
        if 0x80000 ≤ addr && addr < 0x80200 then localPut addr (leBytes size v) false k
        else { k with fx := k.fx ++ [{ due := due, order := 0, eff := .localWrite addr (leBytes size v) false }] }
      | none => k
    landG d (BitVec.ofNat 64 old) k
  | .flagLoad d addr size signed =>
    let v := leNat (localGet k addr size)
    landG d (if signed then BitVec.ofInt 64 (sNat (8 * size) v) else BitVec.ofNat 64 v) k
  | .localWrite a bs p => localPut a bs p k
  | .mask m keep val =>
    let old := (k.m[m.toNat]'m.isLt)
    { k with m := k.m.set m.toNat ((old &&& keep) ||| (val &&& ~~~keep)) m.isLt }
  | .eAddr n a =>
    let o := (k.e[n.toNat]'n.isLt)
    { k with e := k.e.set n.toNat { o with addr := a } n.isLt }
  | .sticky f => { k with sys := { k.sys with sticky := k.sys.sticky ||| f } }
  | .stickyClear f => { k with sys := { k.sys with sticky := k.sys.sticky &&& ~~~f } }
  | .flagSet f => flagPut f.toNat true k
  | .fpCtl r t => { k with sys := { k.sys with rmode := r, trapen := t } }
  | .srSeed v => { k with sys := { k.sys with srSeed := v } }
  | .gateIdle v => { k with sys := { k.sys with gateIdle := v } }
  | .ringLen v => { k with sys := { k.sys with ringLen := v } }
  | .tslotSel v => { k with sys := { k.sys with tslotSel := v } }
  | .vPend n =>
    let o := (k.v[n.toNat]'n.isLt)
    { k with v := k.v.set n.toNat { o with busy := o.busy + 1 } n.isLt }
  | .tPend n =>
    let o := (k.t[n.toNat]'n.isLt)
    { k with t := k.t.set n.toNat { o with busy := o.busy + 1 } n.isLt }
  | .vWrite n data tag rows cols poison ends =>
    let o := (k.v[n.toNat]'n.isLt)
    let x : VReg :=
      { data := data, tag := tag, rows := rows, cols := cols, poison := poison,
        busy := if ends then o.busy - 1 else o.busy, failed := none }
    { k with v := k.v.set n.toNat x n.isLt }
  | .tWrite n data tag poison ends =>
    let o := (k.t[n.toNat]'n.isLt)
    let x : TReg :=
      { data := data, tag := tag, poison := poison, busy := if ends then o.busy - 1 else o.busy,
        failed := none }
    { k with t := k.t.set n.toNat x n.isLt }
  | .vFail n f =>
    let o := (k.v[n.toNat]'n.isLt)
    { k with v := k.v.set n.toNat { o with busy := o.busy - 1, failed := some f } n.isLt }
  | .tFail n f =>
    let o := (k.t[n.toNat]'n.isLt)
    { k with t := k.t.set n.toNat { o with busy := o.busy - 1, failed := some f } n.isLt }
  | .tEnd n =>
    let o := (k.t[n.toNat]'n.isLt)
    { k with t := k.t.set n.toNat { o with busy := o.busy - 1 } n.isLt }
  | .handles n h =>
    let o := (k.ah[n.toNat]'n.isLt)
    { k with ah := k.ah.set n.toNat { o with handles := h } n.isLt }
  | .slotPend i => modSlot i (fun t => { t with pend := t.pend + 1 }) k
  | .slotLand i tag _ => modSlot i (fun t => { t with pend := t.pend - 1, tag := tag }) k
  | .slotWhole i => modSlot i (fun t => { t with failed := none }) k
  | .slotVoid i _ => modSlot i (fun t => { t with tag := 0xFFFF }) k
  | .slotFail i f => modSlot i (fun t => { t with failed := some f }) k

/-- An effect posted to the core in focus, for cycle `due`. -/
def post (due : Cycle) (order : Nat) (e : Effect) (s : State) : State :=
  modCore (fun k => { k with fx := k.fx ++ [{ due := due, order := order, eff := e }] }) s

/-- The issue of the producer whose tag an effect writes: a column word's cycle, an engine command's start. -/
def Fx.tagIssue (x : Fx) : Option Cycle :=
  match x.eff with
  | .slotLand _ _ i => some i
  | .slotVoid _ i => some i
  | _ => none

/-- The order within a cycle: S, L, C, W, then the engines in ascending id (R272); the tags written in it apply in issue order (06 R185). -/
def fxRank (a b : Fx) : Bool :=
  match a.tagIssue, b.tagIssue with
  | none, none => a.order < b.order
  | none, some _ => true
  | some _, none => false
  | some i, some j => i < j || (i = j && a.order < b.order)

/-- The order of effects: by cycle, then within it. -/
def fxBefore (a b : Fx) : Bool := a.due < b.due || (a.due = b.due && fxRank a b)

/-- The place of an engine's writes in the order of a cycle: after the streams, in ascending engine id (R272). -/
def engOrder (eng : Nat) : Nat := 4 + eng

/-- An effect that acts at the start of its cycle, in the S slot: an atomic (15 R417), and a store of the S stream to flag bytes, which comes before the
flag operations of the columns (06 R181). -/
def Fx.early (x : Fx) : Bool :=
  match x.eff with
  | .lowAtomic .. => true
  | .localWrite a _ _ => x.order = 0 && 0x80000 ≤ a && a < 0x80800
  | _ => false

/-- The early effects of cycle `c`, applied as it begins. -/
def startFx (c : Cycle) (k : Core) : Core :=
  (k.fx.filter fun x => x.early && x.due ≤ c).foldl (fun k x => applyEffect x.due x.eff k) { k with fx := k.fx.filter fun x => !(x.early && x.due ≤ c) }

/-- The effects of cycle `c` and before land, at the end of that cycle. -/
def commitFx (c : Cycle) (k : Core) : Core :=
  let due := sortBy fxBefore (k.fx.filter fun x => x.due ≤ c)
  due.foldl (fun k x => applyEffect x.due x.eff k) { k with fx := k.fx.filter fun x => c < x.due }

/-- Floating-point traps that come due with cycle `c`: a flag whose enable is 1 when it is set traps, and any other does not (08 R245). -/
def armTraps (c : Cycle) (k : Core) : Core :=
  let arm (x : Cycle × Trap) : Option (Cycle × Trap) :=
    if x.1 ≠ c then some x
    else
      match x.2.cause with
      | .floating f => if f &&& k.sys.trapen = 0 then none else some (x.1, { x.2 with cause := .floating (f &&& k.sys.trapen) })
      | _ => some x
  { k with deferred := k.deferred.filterMap arm }

/-- The core as a scratchpad read with effect cycle `c + 1` sees it: with the byte writes of cycle `c` and before (R273). -/
def localView (c : Cycle) (k : Core) : Core :=
  (sortBy fxBefore (k.fx.filter fun x => x.due ≤ c)).foldl (fun k x =>
    match x.eff with
    | .localWrite a bs p => localPut a bs p k
    | _ => k) k

/-! ### Issue of the S stream (12 R347, R359) -/

/-- The S stream moves past an instruction; a delay word counts down the pending transfer (R359). -/
def sAdvance (k : Core) : Core :=
  match k.xfer with
  | none => { k with pc := k.pc + 4, phase := 0 }
  | some x =>
    if x.left ≤ 1 then { k with pc := if x.taken then x.target else k.pc + 4, xfer := none, phase := 0 }
    else { k with pc := k.pc + 4, xfer := some { x with left := x.left - 1 }, phase := 0 }

/-- The instruction retires, and the next may issue `n` cycles after it. -/
def sNextAt (n : Nat) (s : State) : State := modCore (fun k => { sAdvance k with sReady := cyc s + n }) s

/-- The instruction retires, and the next may issue in the next cycle. -/
def sNext (s : State) : State := sNextAt 1 s

/-- The instruction is blocked: it is tried again in the next cycle. -/
def sBlock (s : State) : State := modCore (fun k => { k with sReady := cyc s + 1 }) s

/-! ### Issue of a column (06 R172, R173) -/

def getCol (k : Core) : Col → ColSeq
  | .colL => k.colL
  | .colC => k.colC
  | .colW => k.colW

def setCol (c : Col) (q : ColSeq) (k : Core) : Core :=
  match c with
  | .colL => { k with colL := q }
  | .colC => { k with colC := q }
  | .colW => { k with colW := q }

/-- The place of a column in the stream order. -/
def colOrder (c : Col) : Nat := (Stream.col c).code

/-- The gap field of a word (11 R337). -/
def gapOf (w : Word) : Nat := w.toNat / 2 ^ 22 % 16

/-- The gap of word `i` of a body. -/
def gapAt (body : List Word) (i : Nat) : Nat := ((body[i]?).map gapOf).getD 0

/-- The address of the word that a column is at: the header is at `hdr`. -/
def wordAddr (k : Core) (c : Col) : Dword :=
  match (getCol k c).run with
  | some r => r.hdr + 4 + BitVec.ofNat 64 (4 * r.idx)
  | none => (getCol k c).entry

/-- The word issues in this cycle: the next one counts from `extra` cycles later (R173, 11 R338). -/
def colNextAfter (c : Col) (extra : Nat) (s : State) : State :=
  let t := cyc s
  modCore (fun k =>
    let q := getCol k c
    setCol c { q with lastIssue := t + extra, run := q.run.map fun r => { r with idx := r.idx + 1, next := t + extra + 1 + gapAt r.body (r.idx + 1) } } k) s

def colNext (c : Col) (s : State) : State := colNextAfter c 0 s

/-- A blocking word waits: it is tried again in the next cycle. -/
def colBlock (c : Col) (s : State) : State :=
  let t := cyc s
  modCore (fun k =>
    let q := getCol k c
    setCol c { q with run := q.run.map fun r => { r with next := t + 1 } } k) s

/-! ### Trap causes (10_traps R295) -/

def causeCode : Cause → Nat
  | .illegal => 0x01
  | .privilege => 0x02
  | .alignment => 0x03
  | .unmapped | .permission | .kvExtent | .adapterResidency => 0x04
  | .late | .tag => 0x05
  | .formatTag => 0x06
  | .race => 0x07
  | .poison => 0x08
  | .quota => 0x09
  | .world => 0x0A
  | .mapLost => 0x0B
  | .watchdog => 0x0C
  | .viewChanged => 0x0D
  | .debugBreak => 0x0E
  | .trapInstr _ => 0x0F
  | .floating _ => 0x10
  | .machineCore | .machineEngine => 0x11

def subCode : Cause → Nat
  | .unmapped => 1
  | .permission => 2
  | .kvExtent => 3
  | .adapterResidency => 4
  | .late => 1
  | .tag => 2
  | .trapInstr c => c.toNat
  | .floating f => f.toNat
  | .machineCore => 1
  | .machineEngine => 2
  | _ => 0

/-- Where a trap goes (R295). -/
inductive Dest where
  | user
  | supervisor
  | faultQueue
  | debug
  | machine
  deriving DecidableEq, Repr

def causeDest : Cause → Dest
  | .illegal | .privilege | .world | .watchdog => .supervisor
  | .unmapped | .permission => .faultQueue
  | .debugBreak => .debug
  | .machineCore | .machineEngine => .machine
  | _ => .user

/-! ### The consistent cut (R303, R304) -/

/-- The cut is taken in this cycle. -/
def takeCut (s : State) : State :=
  let c := cyc s
  modCore (fun k => { k with cut := c, cutPc := k.pc, cutXfer := k.xfer, cutPhase := k.phase }) s

/-- A column's cut: strip ordinal, word index and repeat index of the first word that did not issue (R304). -/
def colCut (k : Core) (c : Col) : Nat :=
  let q := getCol k c
  match q.run with
  | some r =>
    if r.idx < r.body.length then (q.ordinal - 1).toNat + r.idx * 2 ^ 32 + r.rep * 2 ^ 44
    else if r.rep + 1 < r.count then (q.ordinal - 1).toNat + (r.rep + 1) * 2 ^ 44
    else q.ordinal.toNat
  | none => q.ordinal.toNat

/-- The offset s - c of a column's cut word, in 16 bits. -/
def colOffset (k : Core) (c : Col) (cut : Cycle) : Nat :=
  match (getCol k c).run with
  | some r =>
    if r.idx < r.body.length then min (r.next - cut) 0xFFFF
    else if r.rep + 1 < r.count then min (r.next + gapAt r.body 0 - cut) 0xFFFF
    else 0
  | none => 0

/-- The ten engine queues, in the order of R312, by engine id (11 R343). -/
def engineOrder : List Nat := [0x00, 0x01, 0x08, 0x10, 0x11, 0x12, 0x13, 0x14, 0x15, 0x16]

/-- The place of an engine id among the ten queues. -/
def engineIndex (e : Nat) : Nat := engineOrder.idxOf e

/-- The sequence number of the first entry of an engine queue that did not start. -/
def engineCut (k : Core) (i : Nat) : Nat :=
  match (k.engQ.toList.getD i []).head? with
  | some e => e.seq.toNat
  | none => (k.engSeq.toList.getD i 0).toNat

/-- The task's trap record in its bytes (R312). -/
def trapRecord (s : State) (t : Trap) (nested : Bool) : List Byte :=
  let k := s.core
  let list := k.reissue.take 4
  let further := decide (4 < k.reissue.length)
  leBytes 4 (causeCode t.cause + subCode t.cause * 2 ^ 8 + t.source * 2 ^ 16 + (t.entry.toNat + 2 * nested.toNat + 4 * further.toNat) * 2 ^ 24)
    ++ leBytes 4 0 ++ leBytes 8 t.pc.toNat ++ leBytes 8 t.addr.toNat ++ leBytes 8 k.cut ++ leBytes 8 k.cutPc.toNat
    ++ [Col.colL, .colC, .colW].flatMap (fun c => leBytes 8 (colCut k c))
    ++ [Col.colL, .colC, .colW].flatMap (fun c => leBytes 2 (colOffset k c k.cut)) ++ leBytes 2 0
    ++ (List.range 10).flatMap (fun i => leBytes 8 (engineCut k i))
    ++ leBytes 64 t.detail.toNat
    ++ padTo 64 0 (list.flatMap fun r => leBytes 8 r.word.toNat ++ leBytes 1 1 ++ leBytes 1 r.slot ++ leBytes 2 r.tag.toNat ++ leBytes 4 0)
    ++ leBytes 232 0

/-! ### Failing a task (05 R147) -/

/-- The handle of group `g` of accumulator `n`: bits [23:0] of element `g` of ah (07 R210). -/
def groupHandle (k : Core) (n g : Nat) : BitVec 24 := ((((k.ah.toList.getD n AhReg.zero).handles.toList.getD g 0)).extractLsb' 0 24)

/-- The latches of an accumulator's side context: handle and version (07 R203). -/
def latchesOf (k : Core) (n : Nat) : List (BitVec 24 × BitVec 32) :=
  let ctx := (k.a.toList.getD n Acc.zero).ctx
  if ctx.isOpen then ctx.latched.toList.zipIdx.filterMap fun x => x.1.map fun v => (groupHandle k n x.2, v) else []

/-- Every pin and latch of a task that ends is to be released (07 R203). -/
def dropPins (k : Core) : Core :=
  let l := k.pinned ++ (List.range 4).flatMap (latchesOf k)
  { k with unpins := k.unpins ++ l.map fun p => (0, p), pinned := [], a := k.a.map fun x => { x with ctx := SideCtx.closed } }

/-- A core with no task: its streams and queues are empty. -/
def freeCore (k : Core) : Core :=
  { k with task := none, hold := .none, colL := ColSeq.empty, colC := ColSeq.empty, colW := ColSeq.empty, groups := [], openGrp := none,
           xfer := none, phase := 0, deferred := [], missed := [], reissue := [], acqMark := none, recLines := [], loads := [], timed := k.timed.filter (·.isWrite),
           engQ := Vector.replicate 10 [], arrived := [], stopped := false, units := k.units, pinned := [] }

/-- The first failure of a launch is recorded, of those of one cycle that of the lowest task; gangs that have not started are discarded (R147, R148). -/
def noteFailure (part : Nat) (launch task : BitVec 32) (cause : Nat) (s : State) : State :=
  let s := modLaunch s part launch fun l =>
    let l := { l with nextGang := gangTotal l }
    if l.status = 0 || (l.status = 0x0A && l.failAt = s.now && task.toNat < l.failTask.toNat) then
      { l with status := 0x0A, failTask := task, failCause := BitVec.ofNat 8 cause, failAt := s.now }
    else l
  { s with gangs := s.gangs.filter fun g => !(g.part = part && g.launch = launch && (g.st = .queued || g.st = .wide) && g.started.isNone) }

/-- Live maps freed: their generation advances (07 R228). -/
def freeMaps (s : State) (p : LigMap → Bool) : State :=
  let gone := s.maps.filter p
  { s with maps := s.maps.filter fun m => !p m,
           mapGens := gone.foldl (fun l m =>
             (m.part, m.num, if m.gen = 0xFFF then 1 else m.gen + 1) :: l.filter fun x => !(x.1 = m.part && x.2.1 = m.num)) s.mapGens }

/-- The index of a task's dispatch gang in its launch (R140). -/
def gangOf (s : State) (t : TaskRef) : Nat :=
  match findLaunch s t.part t.launch with
  | none => 0
  | some l => if gangTasks l = 0 then 0 else (t.task.toNat - firstTask s l) / gangTasks l

/-- A task belongs to a dispatch gang of a launch. -/
def inGang (s : State) (part : Nat) (launch : BitVec 32) (idx : Nat) (t : TaskRef) : Bool := t.part = part && t.launch = launch && gangOf s t = idx

/-- Tasks discarded wherever they stand: on their cores, saved or parked. Their pins and maps are given back (07 R203, R228). -/
def dropTasks (s : State) (part : Nat) (launch : BitVec 32) (mine : TaskRef → Bool) : State :=
  let here (c : CoreNo) : Bool := (getCore s c).task.any mine
  let vec := ((coreNos s).filter here).foldl (fun v c => mergeCounts v (vectorOf c (getCore s c))) []
  let pins := (s.contexts.filter fun x => mine x.task).flatMap fun x => (dropPins x.core).unpins
  let last := (coreNos s).find? here
  let s := modLaunch s part launch fun l => { l with vec := mergeCounts l.vec vec, lastCore := last.orElse fun _ => l.lastCore }
  let s := freeMaps s fun m => mine { m.owner with part := m.part }
  let s := mapCores (fun _ k => if k.task.any mine then freeCore (dropPins k) else k) s
  let s := modCore (fun k => { k with unpins := k.unpins ++ pins }) s
  let s := modPart s part fun x => { x with parked := x.parked.filter fun y => !mine y.task }
  { s with contexts := s.contexts.filter (fun x => !mine x.task),
           arrivals := s.arrivals.filter (fun a => !mine { part := a.part, launch := a.launch, task := a.task, gang := 0 }),
           clusters := s.clusters.map fun (u : Cluster) => { u with faultQ := u.faultQ.filter fun e => (getCore s e.core).task.isSome } }

/-- A dispatch gang discarded. -/
def dropGang (s : State) (part : Nat) (launch : BitVec 32) (idx : Nat) : State :=
  let s := dropTasks s part launch (inGang s part launch idx)
  { s with gangs := s.gangs.filter fun g => !(g.part = part && g.launch = launch && g.idx = idx) }

/-- An engine command of a core has started and not ended. -/
def commandRuns (s : State) (c : CoreNo) : Bool := s.running.any fun r => r.core = c && !r.waiting

/-- The reason for which a gang stops whose task has failed. -/
def reasonFail : Nat := 17

/-- A task failure: the whole dispatch gang stops at its next engine-command boundary; started commands run to their ends (R147). -/
def failTask (cause : Nat) (s : State) : State :=
  match s.core.task with
  | none => modCore (fun k => { k with hold := .none }) s
  | some t =>
    let s := noteFailure t.part t.launch t.task cause s
    let idx := gangOf s t
    if (coreNos s).any fun c => (getCore s c).task.any (inGang s t.part t.launch idx) && commandRuns s c then
      let mine (g : Gang) : Bool := g.part = t.part && g.launch = t.launch && g.idx = idx
      let s := modPart s t.part fun p => { p with parked := p.parked.filter fun x => !inGang s t.part t.launch idx x.task }
      let stay (g : Gang) : Bool := g.st ≠ .queued && g.st ≠ .wide
      modCore (fun k => { k with hold := .failed, phase := 0 })
        { s with gangs := (s.gangs.filter fun g => !mine g || stay g).map fun g => if mine g then { g with st := .stopping reasonFail } else g,
                 clusters := s.clusters.map fun (u : Cluster) => { u with faultQ := u.faultQ.filter fun e => !(e.core = s.coreId && e.cmd.isNone) } }
    else dropGang s t.part t.launch idx

/-! ### Taking a trap (R297 to R303, R307, R320) -/

/-- TRAP_CAUSE, TRAP_PC and TRAP_ADDR (R302). -/
def setTrapRegs (t : Trap) (handler nested : Bool) (s : State) : State :=
  modSys (fun r => { r with
    trapCause := BitVec.ofNat 64 (causeCode t.cause + t.source * 2 ^ 8 + subCode t.cause * 2 ^ 16 + t.entry.toNat * 2 ^ 24
      + nested.toNat * 2 ^ 25 + handler.toNat * 2 ^ 26),
    trapPc := BitVec.ofNat 64 (t.pc.toNat / 4 * 4), trapAddr := t.addr }) s

/-- Nothing that the core has issued or started is still to complete: no traffic, no effect, no matrix step or accumulator write, no command, and no
remote access. -/
def quiet (s : State) : Bool :=
  s.core.timed.isEmpty && s.core.loads.isEmpty && s.core.stores.isEmpty && s.core.fx.isEmpty
    && s.core.a.toList.all (fun a => a.stepDone ≤ cyc s && a.writeDone ≤ cyc s)
    && s.running.all (fun r => r.core ≠ s.coreId || r.waiting) && s.remotes.all fun r => r.core ≠ s.coreId

/-- The trap record written at TRAP_CUT, through translation and the world check; none where it cannot be written (R298). The device writes it: it is not
checked for races, and leaves the neutral race field (09 R279, R285; log 27). -/
def writeRecord (t : Trap) (nested : Bool) (s : State) : Option State :=
  let va := s.core.sys.trapCut.toNat
  let w := s.core.sys.world
  match xlateSpan s w va 512 true with
  | .error _ => none
  | .ok ls =>
    let b := trapRecord s t nested
    if ls.any (fun x => let l := lineAt s x.2.2.2.2 x.2.2.2.1.keySlot; l.poison || !worldWrites s w x.2.2.2.1 l) then none
    else
      some (ls.foldl (fun s x =>
        let bs := ((b.drop (x.2.1 - va)).take (x.2.2.1 - x.2.1)).zipIdx.map fun p => (x.2.1 - x.1 + p.2, p.1)
        writeLine s x.2.2.2.2 bs w (some (0, 0)) false x.2.2.2.1.keySlot s.core.task) s)

/-- The reissue list of a trap: the producers of its tile slot that were void or missed (R305). -/
def listReissue (t : Trap) (s : State) : State :=
  modCore (fun k => { k with reissue := match t.slot with
    | some i => k.missed.filter fun r => r.slot = i
    | none => [] }) s

/-- Steps 3 to 5 of R299: the trap record, the trap registers with HANDLER, and the S stream at TRAP_VEC.ADDR 40 cycles later. A task whose record
cannot be written fails. -/
def startHandler (t : Trap) (s : State) : State :=
  match writeRecord t false (listReissue t s) with
  | none => failTask (causeCode t.cause) s
  | some s =>
    let s := setTrapRegs t true false s
    let c := cyc s
    modCore (fun k => { k with hold := .handler, pc := BitVec.ofNat 64 (k.sys.trapVec.toNat / 4 * 4), xfer := none, phase := 0, sReady := c + 40 }) s

/-- A trap enters the user handler once everything issued and started has completed (R299 step 2). -/
def enterHandler (t : Trap) (s : State) : State :=
  if quiet s then startHandler t s else modCore (fun k => { k with hold := .entering t, phase := 0 }) s

/-- The trap of a page goes to the cluster fault queue of 64 entries; where it is full, the task stalls at the cut (R307). -/
def enterFaultQueue (t : Trap) (s : State) : State :=
  let s := modCore (fun k => { k with hold := .faultQueue t }) (setTrapRegs t (inHandler s) false s)
  let u := getCluster s (clusterOf s.coreId)
  if u.faultQ.length < 64 then putCluster s { u with faultQ := u.faultQ ++ [{ core := s.coreId, cmd := none }] } else s

/-- The trap goes to the supervisor, which holds the task at its cut (R298). -/
def enterSupervisor (t : Trap) (nested : Bool) (s : State) : State :=
  modCore (fun k => { k with hold := .supervisor t }) (setTrapRegs t nested nested s)

/-- The other traps of the cycle in which one is taken vanish with the cut; those of engine entries are held (R297). -/
def dropOthers (s : State) : State :=
  let c := cyc s
  modCore (fun k => { k with deferred := k.deferred.filter fun x => x.2.entry || c < x.1 }) s

/-- A trap goes to the user handler (R298). -/
def toHandler (t : Trap) (s : State) : Bool := !inHandler s && causeDest t.cause = .user && s.core.sys.trapVec.getLsbD 0

/-- Where a trap goes that does not go to the user handler: the supervisor, the cluster fault queue or a debug stop. -/
def holdTask (t : Trap) (nested : Bool) (s : State) : State :=
  if nested then enterSupervisor t true s
  else
    match causeDest t.cause with
    | .faultQueue => enterFaultQueue t s
    | .debug => modCore (fun k => { k with hold := .debug, stopped := true }) (setTrapRegs t false false s)
    | _ => enterSupervisor t false s

/-- The task takes a trap in this cycle: the cut, the trap record, and delivery to the user handler, the supervisor, the cluster fault queue or a
debug stop. A task without a context save area fails at its first trap, and so does one whose record cannot be written. -/
def takeTrap (t : Trap) (s : State) : State :=
  let nested := inHandler s
  let s := dropOthers (if nested then s else takeCut s)
  match taskLaunch s with
  | none => enterSupervisor t nested s
  | some l =>
    if launchSave l = 0 then failTask (causeCode t.cause) s
    else if toHandler t s then enterHandler t s
    else
      match writeRecord t nested (listReissue t s) with
      | none => failTask (causeCode t.cause) s
      | some s => holdTask t nested s

/-- A precise trap of the S instruction at the program counter (12 R348). -/
def sTrapWith (c : Cause) (addr : Dword) (detail : BitVec 512) (s : State) : State :=
  takeTrap { cause := c, source := 0, pc := s.core.pc, addr := addr, detail := detail } s

def sTrap (c : Cause) (addr : Dword) (s : State) : State := sTrapWith c addr 0 s

/-- The trap of a failed memory access. -/
def sFail (f : Failed) (s : State) : State := sTrapWith f.cause f.addr f.detail s

/-- A precise trap of the word that a column is at. -/
def colTrapWith (col : Col) (c : Cause) (addr : Dword) (detail : BitVec 512) (s : State) : State :=
  takeTrap { cause := c, source := colOrder col, pc := wordAddr s.core col, addr := addr, detail := detail } s

def colTrap (col : Col) (c : Cause) (s : State) : State := colTrapWith col c 0 0 s

def colFail (col : Col) (f : Failed) (s : State) : State := colTrapWith col f.cause f.addr f.detail s

/-! ### Resuming (R300, R305) -/

/-- The task goes on from its cut: each column's cut word issues at R + (s - c), the S stream at its cut PC from R on (R305). -/
def resumeAt (r : Cycle) (s : State) : State :=
  modCore (fun k =>
    let shift (q : ColSeq) : ColSeq := { q with run := q.run.map fun x => { x with next := r + (x.next - k.cut) } }
    { k with hold := .none, pc := k.cutPc, xfer := k.cutXfer, phase := k.cutPhase, sReady := r, stopped := false, recLines := [],
             colL := shift k.colL, colC := shift k.colC, colW := shift k.colW }) s

/-- HANDLER := 0 (R300). -/
def leaveHandler (s : State) : State := modSys (fun r => { r with trapCause := r.trapCause &&& ~~~(BitVec.ofNat 64 (2 ^ 26)) }) s

/-- Strips and unstarted engine entries of the task are discarded (R300, action 2). -/
def discardWork (s : State) : State :=
  modCore (fun k =>
    let drop (q : ColSeq) : ColSeq := { q with queue := [], run := none }
    { k with colL := drop k.colL, colC := drop k.colC, colW := drop k.colW, groups := [], openGrp := none, engQ := Vector.replicate 10 [],
             pinned := [], unpins := k.unpins ++ k.pinned.map fun p => (cyc s, p) }) s

end Sys2Proof.Machine
end

