-- ==== Sys2Proof/Machine/Adapter.lean ====
section
/-! DEFINITION. Tile pages given back, and adapter handles: versions, pins, latches, residency and the factors of a version (07_serving_structures R197
to R209). -/

namespace Sys2Proof.Machine

/-! ### Tile pages (02 R45, R46; 03 R108) -/

/-- A world's used field of a tier changed: 0 HBM, 1 HBF, 2 CXL. -/
def Quota.modPages (q : Quota) (tier : Nat) (f : BitVec 32 → BitVec 32) : Quota :=
  match tier with
  | 0 => { q with hbmUsed := f q.hbmUsed }
  | 1 => { q with hbfUsed := f q.hbfUsed }
  | 2 => { q with cxlUsed := f q.cxlUsed }
  | _ => q

def Quota.pageLimit (q : Quota) (tier : Nat) : Nat := if tier = 0 then q.hbmLimit.toNat else if tier = 1 then q.hbfLimit.toNat else q.cxlLimit.toNat
def Quota.pageUsed (q : Quota) (tier : Nat) : Nat := if tier = 0 then q.hbmUsed.toNat else if tier = 1 then q.hbfUsed.toNat else q.cxlUsed.toNat

/-- `n` tile pages of a tier charged to a world, or their charge released. -/
def chargePages (s : State) (w : BitVec 6) (tier n : Nat) : State :=
  setQuota s w.toNat ((getQuota s w.toNat).modPages tier fun x => x + BitVec.ofNat 32 n)

def releasePages (s : State) (w : BitVec 6) (tier n : Nat) : State :=
  setQuota s w.toNat ((getQuota s w.toNat).modPages tier fun x => x - BitVec.ofNat 32 n)

/-- The charge of `n` more tile pages fits the world's limit (R46). -/
def pagesFit (s : State) (w : BitVec 6) (tier n : Nat) : Bool :=
  let q := getQuota s w.toNat
  q.pageUsed tier + n ≤ q.pageLimit tier

/-- A tile page given back: its charge is released, and it must be scrubbed before any allocation reuses it. -/
def freePage (s : State) (base : Nat) : State :=
  match assocGet s.pages base with
  | none => s
  | some (w, tier) =>
    releasePages { s with pages := assocDel s.pages base, scrub := s.scrub ++ (if w = 0 then [] else [(base, w)]) } w tier 1

/-- A page scrubbed and taken by a world: no byte, no sideband. -/
def takePage (s : State) (base : Nat) (w : BitVec 6) (tier : Nat) : State :=
  { s with mem := s.mem.filter (fun c => c.1 / 65536 ≠ base / 65536), side := s.side.filter (fun c => c.1 / 65536 ≠ base / 65536),
           scrub := s.scrub.filter (fun c => c.1 ≠ base), pages := assocPut s.pages base (w, tier) }

/-- Translations of a world's page shot down: no core holds them any more (02 R65 step 4, R43). -/
def shootdown (s : State) (w : BitVec 6) (va : Nat) : State :=
  mapCores (fun _ k => { k with tlb := k.tlb.filter fun p => !(p.world = w && p.va ≤ va && va < p.va + 65536 * p.pages) }) s

/-- A page unmapped from a world, with shootdown. -/
def unmapPage (s : State) (w : BitVec 6) (va : Nat) : State :=
  shootdown { s with ptes := s.ptes.filter fun p => !(p.world = w && p.va = va / 65536 * 65536) } w va

/-! ### The adapter handle table -/

/-- The entry that stores a handle, live or deleting. -/
def findAht (s : State) (h : BitVec 24) : Option Aht := s.aht.find? fun a => a.handle = h

/-- The live entry of a handle; handle 0 is none (R197). -/
def liveAht (s : State) (h : BitVec 24) : Option Aht := if h.toNat % 2 ^ 20 = 0 then none else s.aht.find? fun a => a.handle = h && !a.deleting

def modAht (s : State) (h : BitVec 24) (f : Aht → Aht) : State := { s with aht := s.aht.map fun a => if a.handle = h then f a else a }

/-- The selector of a partition (R198). -/
def selector (a : Aht) (part : Nat) : Nat := recBits a.selectors (2 * part) 2

/-- The version record current in a partition. -/
def currentVersion (a : Aht) (part : Nat) : Option Version :=
  match a.vers.toList[selector a part]? with
  | some v => if v.st = 0 then none else some v
  | none => none

/-- The record that holds a version. -/
def findVersion (a : Aht) (n : BitVec 32) : Option Version := a.vers.toList.find? fun v => v.num = n && v.st ≠ 0

def modVersion (s : State) (h : BitVec 24) (n : BitVec 32) (f : Version → Version) : State :=
  modAht s h fun a => { a with vers := a.vers.map fun v => if v.num = n && v.st ≠ 0 then f v else v }

def Version.empty : Version :=
  { num := 0, alpha := 0, keySlot := 0, st := 0, dir := 0, layers := 0, projs := 0, pins := [], readers := [], resident := [] }

/-- The factor rank of a handle (R198). -/
def rankOf (a : Aht) : Nat := 8 * 2 ^ a.rank.toNat

def countIn (l : List (Nat × Nat)) (p : Nat) : Nat := (assocGet l p).getD 0

/-- Pins of every kind that a partition holds on a version, and that all hold. -/
def heldIn (v : Version) (p : Nat) : Nat := countIn v.pins p + countIn v.readers p
def heldAll (v : Version) : Nat := ((v.pins ++ v.readers).map (·.2)).foldl (· + ·) 0

/-- The world may use the handle (R97, R206). -/
def mayUse (a : Aht) (w : BitVec 6) : Bool := a.owner = w || a.grants.getLsbD w.toNat

/-! ### Factors (R200) -/

/-- A directory entry: page lists of A and of B, K and N; all zero beyond the version's counts. -/
def dirEntry (s : State) (v : Version) (layer proj : Nat) : Nat × Nat × Nat × Nat :=
  if v.layers ≤ layer || v.projs ≤ proj then (0, 0, 0, 0)
  else
    let d := v.dir + 32 * (layer * v.projs + proj)
    let f (o n : Nat) := leNat (cellRead s.mem (d + o) n)
    (f 0 8, f 8 8, f 16 4, f 20 4)

/-- The BF16 element at byte offset `o` of a factor. -/
def factorAt (s : State) (list o : Nat) : Nat :=
  leNat (cellRead s.mem (leNat (cellRead s.mem (list + 8 * (o / 65536)) 8) + o % 65536) 2)

/-- The factor pages of a version: every page of every page list of its directory. -/
def factorPages (s : State) (v : Version) (rank : Nat) : List Nat :=
  (List.range (v.layers * v.projs)).flatMap fun i =>
    let (a, b, k, n) := dirEntry s v (i / v.projs) (i % v.projs)
    let pagesAt (list bytes : Nat) := (List.range (ceilDiv bytes 65536)).map fun j => leNat (cellRead s.mem (list + 8 * j) 8)
    pagesAt a (2 * k * rank) ++ pagesAt b (2 * rank * n)

/-! ### Residency (R204) -/

/-- The adapter-cache ways of a partition in slice `n`, from the low end of its share: at most 8 of a whole slice, at most 4 of the low or the high half
of a split one (05 R134). -/
def sliceWays (p : Part) (n : Nat) : List Nat :=
  let i := 4 * (n / 32) + n % 32 / 16
  let a := p.islands.getLsbD i
  let b := p.islands.getLsbD (i + 2)
  if a && b then List.range (min p.ways 8)
  else if a then List.range (min p.ways 4)
  else if b then (List.range (min p.ways 4)).map (8 + ·)
  else []

/-- The adapter-cache slice-ways of a partition, in ascending slice and then way. -/
def partSliceWays (p : Part) : List (Nat × Nat) := (List.range 128).flatMap fun n => (sliceWays p n).map fun w => (n, w)

/-- The slice-ways that a version takes in a partition. -/
def waysIn (v : Version) (p : Nat) : List (Nat × Nat) := (assocGet v.resident p).getD []

/-- Slice-ways taken in a partition. -/
def waysTaken (s : State) (p : Nat) : List (Nat × Nat) := s.aht.flatMap fun a => a.vers.toList.flatMap fun v => waysIn v p

/-- The free slice-ways of a partition, in the order in which pages are placed. -/
def waysFree (s : State) (p : Nat) : List (Nat × Nat) :=
  let taken := waysTaken s p
  (partSliceWays (getPart s p)).filter fun w => !taken.contains w

/-- A resident copy evicted, and its charge released. -/
def evictVersion (s : State) (p : Nat) (h : BitVec 24) (n : BitVec 32) : State :=
  match (findAht s h).bind fun a => (findVersion a n).map fun v => (a, v) with
  | none => s
  | some (a, v) =>
    let q := getQuota s a.owner.toNat
    let s := setQuota s a.owner.toNat { q with wayUsed := q.wayUsed - BitVec.ofNat 16 (waysIn v p).length }
    modPart (modVersion s h n fun v => { v with resident := assocDel v.resident p }) p fun x => { x with idle := x.idle.filter fun y => y ≠ (h, n) }

/-- Idle copies reclaimed, least recently unpinned first, until `need` slice-ways are free. -/
def makeRoom : List (BitVec 24 × BitVec 32) → State → Nat → Nat → State
  | [], s, _, _ => s
  | x :: xs, s, p, need =>
    if need ≤ (waysFree s p).length then s else makeRoom xs (evictVersion s p x.1 x.2) p need

/-- Versions whose pages the partition's ways no longer hold, after its islands changed, are resident there no more (05 R134). -/
def evictLost (p : Nat) (s : State) : State :=
  let ways := partSliceWays (getPart s p)
  s.aht.foldl (fun s a => a.vers.toList.foldl (fun s v =>
    if (waysIn v p).all ways.contains then s else evictVersion s p a.handle v.num) s) s

/-- A version made resident in a partition, its pages four to a slice-way in the first that are free; the failure's status otherwise (QUOTA 2, FULL 1).
Nothing is evicted for a version that cannot fit. -/
def makeResident (s : State) (p : Nat) (a : Aht) (v : Version) : Except Nat State :=
  if (assocGet v.resident p).isSome then .ok s
  else
    let need := ceilDiv (factorPages s v (rankOf a)).length 4
    let idleWays := ((getPart s p).idle.map fun x =>
      (((findAht s x.1).bind fun b => findVersion b x.2).map fun u => (waysIn u p).length).getD 0).foldl (· + ·) 0
    let q := getQuota s a.owner.toNat
    if q.wayLimit.toNat < q.wayUsed.toNat + need then .error 0x02
    else if (waysFree s p).length + idleWays < need then .error 0x01
    else
      let s := makeRoom (getPart s p).idle s p need
      let q := getQuota s a.owner.toNat
      let s := setQuota s a.owner.toNat { q with wayUsed := q.wayUsed + BitVec.ofNat 16 need }
      .ok (modVersion s a.handle v.num fun v => { v with resident := assocPut v.resident p ((waysFree s p).take need) })

/-! ### Freeing a version (R209) -/

/-- A draining record with no reader: copies evicted, factor pages and directory freed, its key destroyed; a deleting entry whose last record empties
is free. -/
def freeVersion (s : State) (a : Aht) (v : Version) : State :=
  let listed := factorPages s v (rankOf a)
  let pages := listed.eraseDups
  let dirPages := (List.range (ceilDiv (32 * v.layers * v.projs + 8 * listed.length) 65536)).map fun i => v.dir + 65536 * i
  let s := v.resident.foldl (fun s r => evictVersion s r.1 a.handle v.num) s
  let s := (pages ++ dirPages).foldl freePage s
  let s := { s with keySlots := s.keySlots.filter fun k => k.1 ≠ v.keySlot,
                    clusters := s.clusters.map fun (u : Cluster) => { u with keys := u.keys.filter fun k => k ≠ v.keySlot } }
  let s := modVersion s a.handle v.num fun _ => Version.empty
  { s with aht := s.aht.filter fun b => !(b.handle = a.handle && b.deleting && b.vers.toList.all fun x => x.st = 0) }

/-- A draining record of the handle freed where its count is 0. -/
def freeDrained (s : State) (h : BitVec 24) (n : BitVec 32) : State :=
  match findAht s h with
  | none => s
  | some a =>
    match findVersion a n with
    | none => s
    | some v => if v.st = 3 && heldAll v = 0 then freeVersion s a v else s

/-! ### Pins and latches (R203, R205) -/

/-- One more pin or latch of a partition on a version. -/
def takeReader (p : Nat) (s : State) (x : BitVec 24 × BitVec 32) : State :=
  let s := modVersion s x.1 x.2 fun v => { v with readers := assocPut v.readers p (countIn v.readers p + 1) }
  modPart s p fun q => { q with idle := q.idle.filter fun y => y ≠ x }

/-- A version without a pin in the partition stays resident until its room is needed. -/
def noteIdle (s : State) (p : Nat) (x : BitVec 24 × BitVec 32) : State :=
  match (findAht s x.1).bind fun a => findVersion a x.2 with
  | none => s
  | some v => if heldIn v p = 0 && (assocGet v.resident p).isSome then modPart s p fun q => { q with idle := q.idle.filter (fun y => y ≠ x) ++ [x] } else s

/-- One pin or latch fewer. -/
def dropReader (p : Nat) (s : State) (x : BitVec 24 × BitVec 32) : State :=
  let s := modVersion s x.1 x.2 fun v => { v with readers := assocPut v.readers p (countIn v.readers p - 1) }
  freeDrained (noteIdle s p x) x.1 x.2

/-- The side context is open, or its close has not completed. -/
def ctxOpen (s : State) (x : SideCtx) : Bool := x.isOpen || cyc s ≤ x.closing && x.closing ≠ 0

/-- What a strip or MADH pin of a group finds: the version latched by the open side context, or the one current in the partition, through the
partition's AHT cache; none where the handle's entry is not locked there. -/
def pinFor (s : State) (n g : Nat) : Option (BitVec 24 × BitVec 32) :=
  match partOfCore s s.coreId with
  | none => none
  | some p =>
    let h := groupHandle s.core n g
    if h = 0 || !(getPart s p).ahtLocked.contains h then none
    else
      let ctx := (s.core.a.toList.getD n Acc.zero).ctx
      match (if ctxOpen s ctx then ctx.latched.toList.getD g none else none) with
      | some v => some (h, v)
      | none => (liveAht s h).bind fun a => (currentVersion a p).map fun v => (h, v.num)

/-- The pin of one group taken. -/
def pinGroup (n g : Nat) (s : State) : State :=
  let pin := pinFor s n g
  let p := (partOfCore s s.coreId).getD 0
  modCore (fun k =>
    let r := k.ah.toList.getD n AhReg.zero
    { k with ah := k.ah.setIfInBounds n { r with pins := r.pins.setIfInBounds g pin }, pinned := k.pinned ++ pin.toList })
    (pin.toList.foldl (takeReader p) s)

/-- The pins of the groups of one handle register taken. -/
def pinGroups (n : Nat) (s : State) : State := (List.range 8).foldl (fun s g => pinGroup n g s) s

/-- The pins that the groups of a C strip lack, taken again when its replay begins (R206). -/
def pinAgain (s : State) : State :=
  if s.core.colC.run.isNone then s
  else
    (List.range 4).foldl (fun s n => (List.range 8).foldl (fun s g =>
      if ((s.core.ah.toList.getD n AhReg.zero).pins.toList.getD g none).isSome then s else pinGroup n g s) s) s

/-- Strip pins, at the start of a C strip. -/
def pinStrip (s : State) : State := (List.range 4).foldl (fun s n => pinGroups n s) s

/-- The cycle in which every matrix step issued so far has completed. -/
def stepsEnd (k : Core) : Cycle := k.a.toList.foldl (fun m a => max m a.stepDone) 0

/-- The end of a C strip: its pins are released when its matrix steps have completed. -/
def unpinStrip (s : State) : State :=
  let c := cyc s
  modCore (fun k =>
    let due := max c (stepsEnd k)
    { k with pinned := [], unpins := k.unpins ++ k.pinned.map (fun p => (due, p)), ah := k.ah.map fun r => { r with pins := Vector.replicate 8 none } }) s

/-- Releases of a core that are due. -/
def dueUnpins (c : CoreNo) (s : State) : State :=
  let k := getCore s c
  let now := cycOf s c
  let due := k.unpins.filter fun u => u.1 ≤ now
  if due.isEmpty then s
  else
    let s := putCore s c { k with unpins := k.unpins.filter fun u => now < u.1 }
    due.foldl (fun s u => dropReader ((partOfCore s c).getD 0) s u.2) s

end Sys2Proof.Machine
end

