-- ==== Sys2Proof/Machine/Fabric.lean ====
section
/-! DEFINITION. Flits sent over the fabric ports (03_links_trust R80 to R88), remote accesses of this package, and the end of an S instruction that waits
for one. -/

namespace Sys2Proof.Machine

/-- Flit types (R81). -/
def flitNull : Nat := 0
def flitLdReq : Nat := 1
def flitLdRsp : Nat := 2
def flitAtomReq : Nat := 3
def flitAtomRsp : Nat := 4
def flitNack : Nat := 5
def flitCopyData : Nat := 6
def flitCopyAck : Nat := 7
def flitColData : Nat := 8
def flitMemb : Nat := 9

/-- A port state that carries traffic (R84). -/
def portUp : BitVec 2 := 2

/-- A port may carry a flit of a type: one whose peer is authenticated carries MEMB flits, and one that serves a group carries the others too (R83). -/
def portCarries (p : Port) (type : Nat) : Bool := p.auth && (type = flitMemb || p.serves.isSome)

/-- A partition's flits take the ports that it owns (05_partitions_scheduler R133); those that serve no partition take any. -/
def portFor (s : State) (who : Option Nat) (n : Nat) : Bool := who.all fun p => (getPart s p).ports.contains n

/-- The port that traffic to a node takes: of those that may carry it the lowest that is up, or else the lowest that is not down (R82; log 13). -/
def portTo (s : State) (who : Option Nat) (node type : Nat) : Option Nat :=
  let l := (List.range 18).filter fun n => (getPort s n).peer = node && portCarries (getPort s n) type && portFor s who n
  (l.find? fun n => (getPort s n).st = portUp).orElse fun _ => l.find? fun n => (getPort s n).st ≠ 0

/-- The fields of a flit's headers (R80). -/
def flitDst (f : Flit) : Nat := f.hdr0.toNat % 2 ^ 18
def flitSrc (f : Flit) : Nat := f.hdr0.toNat / 2 ^ 18 % 2 ^ 18
def flitWorld (f : Flit) : BitVec 6 := BitVec.ofNat 6 (f.hdr0.toNat / 2 ^ 36)
def flitType (f : Flit) : Nat := f.hdr0.toNat / 2 ^ 42 % 64
def flitGroup (f : Flit) : Nat := f.hdr0.toNat / 2 ^ 48
def flitView (f : Flit) : Nat := f.hdr1.toNat % 2 ^ 32
def flitTag (f : Flit) : BitVec 16 := BitVec.ofNat 16 (f.hdr1.toNat / 2 ^ 32)
def flitSlots (f : Flit) : Nat := f.hdr1.toNat / 2 ^ 48 % 256

/-- Line slot `i` of a flit: its 64-byte line and its sideband (R80). -/
def flitLine (f : Flit) (i : Nat) : BitVec 512 := BitVec.ofNat 512 (f.slots.toNat / 2 ^ (576 * i))
def flitSide (f : Flit) (i : Nat) : BitVec 64 := BitVec.ofNat 64 (f.slots.toNat / 2 ^ (576 * i + 512))

def wordSide (x : BitVec 64) (key : Nat) : Side :=
  { world := BitVec.ofNat 6 (x.toNat / 2 ^ 32), poison := x.getLsbD 38, replica := x.getLsbD 39,
    writer := BitVec.ofNat 10 (x.toNat / 2 ^ 40), sync := BitVec.ofNat 8 (x.toNat / 2 ^ 50), key := key }

/-- Line slots laid side by side. -/
def packSlots : List (Nat × Nat) → Nat
  | [] => 0
  | (line, side) :: rest => line + side * 2 ^ 512 + packSlots rest * 2 ^ 576

/-- Bytes 0 to 231 of a flit: its headers and its line slots (R80). -/
def flitBody (f : Flit) : List Byte := leBytes 8 f.hdr0.toNat ++ leBytes 8 f.hdr1.toNat ++ leBytes 216 f.slots.toNat

/-- The 256 bytes of a flit on the lanes (R80). -/
def flitWire (f : Flit) : List Byte := flitBody f ++ leBytes 16 f.gcm.toNat ++ leBytes 2 f.seq.toNat ++ leBytes 2 f.ack.toNat ++ leBytes 4 f.crc.toNat

/-- The CRC of a flit, over its bytes 0 to 251 (R80). -/
def flitCrc (f : Flit) : BitVec 32 := BitVec.ofNat 32 (crc32c ((flitWire f).take 252))

/-- The GCM nonce of a flit that this package sends on a port: sequence number, wraps, and the direction, 1 from the higher node (R83). -/
def flitNonce (s : State) (p : Port) (seq : BitVec 16) (wraps : Nat) : BitVec 96 :=
  BitVec.ofNat 96 (seq.toNat + wraps % 2 ^ 64 * 2 ^ 16 + (if p.peer < s.node.toNat then 2 ^ 80 else 0))

/-- A flit sealed for its port: its GCM tag under the link key, and its CRC. -/
def sealFlit (s : State) (p : Port) (f : Flit) : Flit :=
  let f := { f with gcm := Config.gcmTag p.key (flitNonce s p f.seq p.txWraps) (flitBody f) }
  { f with crc := flitCrc f }

/-- The flits that a port's replay buffer holds (R82). -/
def replaySize : Nat := 256

/-- Waiting flits of a port enter its replay buffer and go out on its lanes as it has places. -/
def fillReplay (n : Nat) (s : State) : State :=
  let p := getPort s n
  let out := p.pend.take (replaySize - p.replay.length)
  setPort { s with lanesOut := s.lanesOut ++ out } n { p with replay := p.replay ++ out, pend := p.pend.drop (replaySize - p.replay.length) }

/-- A flit sent by a port, with the next link sequence number and the acknowledgement of what has come (R80, R82). -/
def sendBy (n : Nat) (f : Flit) (s : State) : State :=
  let p := getPort s n
  let f := sealFlit s p { f with port := n, seq := p.txSeq, ack := p.rxSeq }
  fillReplay n (setPort s n { p with pend := p.pend ++ [f], txSeq := p.txSeq + 1, txWraps := if p.txSeq = 0xFFFF then p.txWraps + 1 else p.txWraps })

/-- A flit before it is given to a port. -/
def makeFlit (s : State) (node type : Nat) (world : BitVec 6) (group view : Nat) (tag : BitVec 16) (slots : List (Nat × Nat)) : Flit :=
  { port := 0, hdr0 := BitVec.ofNat 64 (node + s.node.toNat * 2 ^ 18 + world.toNat * 2 ^ 36 + type * 2 ^ 42 + group % 65536 * 2 ^ 48),
    hdr1 := BitVec.ofNat 64 (view % 2 ^ 32 + tag.toNat * 2 ^ 32 + slots.length * 2 ^ 48), slots := BitVec.ofNat 1728 (packSlots slots),
    gcm := 0, seq := 0, ack := 0, crc := 0 }

/-- A flit sent to a node for a partition or for the package itself; where no port leads there, nothing is sent. -/
def sendFlit (s : State) (who : Option Nat) (node type : Nat) (world : BitVec 6) (group view : Nat) (tag : BitVec 16) (slots : List (Nat × Nat)) : State :=
  match portTo s who node type with
  | none => s
  | some n => sendBy n (makeFlit s node type world group view tag slots) s

/-- The request of a remote access in a line slot: address, operand, expected value, operation and size (log 13: the slot's layout is the model's). -/
def requestSlot (r : Remote) : Nat :=
  domainOffset r.pa + r.operand.toNat * 2 ^ 64 + r.expected.toNat * 2 ^ 128 + r.op * 2 ^ 192 + r.size * 2 ^ 196

/-- The request flit of a remote access sent, or sent again (R88); where no port leads to the member, it is tried again as after a NACK. -/
def sendRequest (s : State) (r : Remote) : State :=
  match lsdGroup s, memberNode s (domainMember r.pa) with
  | some g, some node =>
    let type := if r.isAtomic then flitAtomReq else flitLdReq
    let who := (getCore s r.core).task.map (·.part)
    if (portTo s who node type).isNone then
      { s with remotes := s.remotes.map fun x => if x.tag = r.tag then { x with retryAt := some (s.now + 256) } else x }
    else sendFlit s who node type (getCore s r.core).sys.world g.num.toNat g.view.toNat r.tag [(requestSlot r, 0)]
  | _, _ => s

/-- The least transaction tag that neither a remote access nor a COPYR in flight has. -/
def freshTag (s : State) : BitVec 16 :=
  let n := s.remotes.length + s.running.length + 1
  BitVec.ofNat 16 (((List.range n).find? fun i => (s.remotes.all fun r => r.tag.toNat ≠ i) && s.running.all fun r => r.xid.toNat ≠ i).getD 0)

/-- A remote access started. -/
def startRemote (s : State) (r : Remote) : State :=
  let r := { r with tag := freshTag s }
  sendRequest { s with remotes := s.remotes ++ [r] } r

/-- Phase of an S instruction that waits for a value from outside the core. -/
def awaiting : Nat := 3

/-- The S instruction that awaits a value retires with it, `n` cycles from now; under a cut, the cut moves past it (10_traps R303). -/
def sComplete (c : CoreNo) (d : GReg) (x : Dword) (n : Nat) (s : State) : State :=
  let k := getCore s c
  let t := cycOf s c
  let k := if d = 0 then k else { k with g := k.g.set d.toNat x d.isLt, gReady := k.gReady.set d.toNat (t + n) d.isLt }
  let k :=
    if k.hold = .none then if k.phase = awaiting then { sAdvance k with sReady := t + n, acqMark := none } else k
    else if k.cutPhase = awaiting then
      let a := sAdvance { k with pc := k.cutPc, xfer := k.cutXfer }
      { k with cutPc := a.pc, cutXfer := a.xfer, cutPhase := 0, acqMark := none }
    else k
  putCore s c k

/-- The S instruction that awaits a value is to be tried again. -/
def sRetry (c : CoreNo) (s : State) : State :=
  let k := getCore s c
  let k := { k with acqMark := none }
  let k := if k.hold = .none then { k with phase := 0, sReady := cycOf s c + 1 } else { k with cutPhase := 0 }
  putCore s c k

/-- An S instruction goes on awaiting its value. -/
def sAwait (s : State) : State := modCore (fun k => { k with phase := awaiting, sReady := cyc s + 1 }) s

end Sys2Proof.Machine
end

