-- ==== Sys2Proof/Machine/Sys.lean ====
section
/-! DEFINITION. The system registers as MFS reads and MTS writes them (11_isa_formats R336, 12_isa_scalar R368, R369), and the capability table
(01_package R36). -/

namespace Sys2Proof.Machine

/-- The failing lines of a channel that its spares take over (02 R69). -/
def channelSpares : Nat := 4

/-- Trained HBM channels: the bits of the bitmap (R34, R36). A channel with more failing lines than spares cannot be trained (02 R69). -/
def trainedBits (s : State) : Nat :=
  if s.phase = .preBoot then 2 ^ 256 - 1
  else s.flash.failLines.foldl (fun b x => if channelSpares < x.2 && b.testBit x.1 then b - 2 ^ x.1 else b) s.flash.trained.toNat

/-- A failing channel that the last creation or resize of its partition took out of the calendars (02 R73). -/
def offCalendars (s : State) (ch : Nat) : Bool :=
  (getChannel s ch).st = 3 && (partOfIsland s (ch / 16)).isSome && s.calMaps.all fun m => m.2.all fun e => e.2 ≠ ch

/-- The channels that are trained and in calendars (R34). -/
def calendarChannels (s : State) : Nat := ((List.range 256).filter fun h => (trainedBits s).testBit h && !offCalendars s h).length

/-- The one bits among the `n` low bits of a number. -/
def onesOf (n x : Nat) : Nat := ((List.range n).filter fun i => x.testBit i).length

/-- SYS_CAPS (R34). -/
def sysCaps (s : State) : Dword :=
  BitVec.ofNat 64 (2 ^ 60 + 24 * 2 ^ 54 + 16 * 2 ^ 49 + 1024 * 2 ^ 38 + 64 * 2 ^ 31 + 128 * 2 ^ 23 + calendarChannels s * 2 ^ 14
    + 4 * 2 ^ 10 + 8 * 2 ^ 6 + 18)

/-- SYS_ID (R35). -/
def sysId (s : State) : Dword :=
  BitVec.ofNat 64 (s.ident.toNat * 2 ^ 32 + 0x4B51 * 2 ^ 16 + s.stepping.toNat * 2 ^ 8 + s.modrev.toNat * 2 + s.cfgDefaulted.toNat)

/-- CAP_PTR (12 R369): the page of the partition that owns the core. -/
def capPtr (s : State) : Dword :=
  match partOfCore s s.coreId with
  | some p => Config.capabilityPage p ++ (0 : BitVec 12)
  | none => 0

/-- CAL_PHASE (02 R48): the calendar runs at 1.6 GHz on island 23. -/
def calPhase (s : State) : Dword := BitVec.ofNat 64 (s.now / 1024 % 2 ^ 32 * 2 ^ 32 + s.now % 1024)

/-- CAL_OWN (02 R49). -/
def calOwn (s : State) : Dword :=
  match partOfCore s s.coreId with
  | some _ => Config.calendarMapLine s.coreId ++ (1 : BitVec 7)
  | none => 0

/-- CKPT_STAT (10_traps R318). -/
def ckptStat (s : State) : Dword :=
  match s.core.task with
  | none => 0
  | some t =>
    match ckptOf s t with
    | none => 0
    | some k =>
      BitVec.ofNat 64 (k.ord.toNat * 2 ^ 32 + k.rolls.toNat * 2 ^ 17 + k.irrev.toNat * 2 ^ 16
        + ckptUsed k t % 65536)

/-- TSLOT_VIEW of the slot in TSLOT_SEL (06_core R184). -/
def tslotView (k : Core) : Dword :=
  let t := getSlot k k.sys.tslotSel.toNat
  BitVec.ofNat 64 (t.owner.toNat * 2 ^ 21 + (decide (t.poison ≠ 0)).toNat * 2 ^ 20 + t.pend.toNat * 2 ^ 16 + t.tag.toNat)

/-- GATE_WAKE.WAKE (06_core R193). -/
def gateWake : Nat := 48

/-- The value that MFS reads (R336). -/
def mfsValue (s : State) (r : BitVec 12) : Dword :=
  let y := s.core.sys
  match r.toNat with
  | 0x000 => sysCaps s
  | 0x001 => sysId s
  | 0x002 => capPtr s
  | 0x010 => BitVec.ofNat 64 s.tick
  | 0x011 => BitVec.ofNat 64 (cyc s)
  | 0x012 => calPhase s
  | 0x013 => calOwn s
  | 0x020 => y.taskId
  | 0x030 => y.world.zeroExtend 64
  | 0x031 => y.wdogLimit ++ y.wdogCount
  | 0x040 => y.trapCause
  | 0x041 => y.trapPc
  | 0x042 => y.trapAddr
  | 0x043 => y.trapCut
  | 0x044 => y.trapVec
  | 0x045 => ckptStat s
  | 0x050 => BitVec.ofNat 64 (y.rmode.toNat * 256 + y.trapen.toNat)
  | 0x051 => y.sticky.zeroExtend 64
  | 0x052 => y.srSeed.zeroExtend 64
  | 0x060 => y.gateIdle.zeroExtend 64
  | 0x061 => BitVec.ofNat 64 gateWake
  | 0x062 => y.ringLen.zeroExtend 64
  | 0x063 => y.tslotSel.zeroExtend 64
  | 0x064 => tslotView s.core
  | n => if 0x028 ≤ n && n < 0x030 then y.levelIdx.toList.getD (n - 0x028) 0 else 0

/-- The write of MTS, none where the register's map has no RW or RW1C field (R368). FP_CTL, FP_STICKY, SR_SEED, GATE_CTL, RING_CTL and TSLOT_SEL
take effect from the next cycle on. -/
def mtsWrite (s : State) (r : BitVec 12) (x : Dword) : Option State :=
  let c := cyc s
  match r.toNat with
  | 0x041 => some (modSys (fun y => { y with trapPc := x &&& BitVec.ofNat 64 (2 ^ 64 - 4) }) s)
  | 0x044 => some (modSys (fun y => { y with trapVec := x &&& BitVec.ofNat 64 (2 ^ 64 - 3) }) s)
  | 0x050 =>
    let m := x.extractLsb' 8 3
    some (post c 0 (.fpCtl (if m.toNat ≤ 4 then m else s.core.sys.rmode) (x.extractLsb' 0 6)) s)
  | 0x051 => some (post c 0 (.stickyClear (x.extractLsb' 0 6)) s)
  | 0x052 => some (post c 0 (.srSeed (x.extractLsb' 0 32)) s)
  | 0x060 => some (post c 0 (.gateIdle (x.extractLsb' 0 16)) s)
  | 0x062 => some (post c 0 (.ringLen (if 16 < x.toNat % 32 then 16 else x.extractLsb' 0 5)) s)
  | 0x063 => some (post c 0 (.tslotSel (x.extractLsb' 0 7)) s)
  | _ => none

/-! ### The capability table -/

/-- The kind of an island (R20, R36). -/
def islandKind (n : Nat) : Nat := if n < 16 then 0 else if n < 20 then 1 else 2

/-- The least and the greatest clock of an island (R20). -/
def islandMin (n : Nat) : Nat := if n < 16 then 400 else if n < 20 then 800 else if n = 22 then 800 else 1600
def islandMax (n : Nat) : Nat := if n = 22 then 800 else 1600

/-- The 4 KiB capability table (R36). -/
def capTable (s : State) : List Byte :=
  let fw := if s.flash.slotB_chosen then s.flash.slotB else s.flash.slotA
  padTo 4096 0 (
    leBytes 8 (1 + 4096 * 2 ^ 16) ++ leBytes 8 (400 + 1600 * 2 ^ 16 + 100 * 2 ^ 32) ++ leBytes 8 s.strokeNs
    ++ leBytes 8 (4 + 256 * 2 ^ 16 + 320 * 2 ^ 32 + 96 * 2 ^ 48) ++ leBytes 8 gateWake
    ++ leBytes 8 (fw.version % 2 ^ 32 + fw.security % 2 ^ 16 * 2 ^ 32 + s.flash.slotB_chosen.toNat * 2 ^ 48)
    ++ leBytes 8 s.ways ++ leBytes 8 s.powerCap ++ leBytes 128 s.refresh.toNat
    ++ (List.range 24).flatMap (fun n => leBytes 8 (islandKind n + islandMin n * 2 ^ 8 + islandMax n * 2 ^ 24 + (getIsland s n).cur * 2 ^ 40))
    ++ leBytes 32 (trainedBits s))

/-- The start of a bank's refresh window in the 4,096-cycle period (R36). -/
def refreshStart (s : State) (stack bank : Nat) : Nat := s.refresh.toNat / 2 ^ (4 * (64 * stack + bank)) % 16 * 256

end Sys2Proof.Machine
end

