-- ==== Sys2Proof/Machine/ScalarMem.lean ====
section
/-! DEFINITION. Loads, stores, atomics, aggregated adds, RCSNAP and fences of the S stream (15_isa_memory R411 to R421, 09_memory_model R286 to R289,
07_serving_structures R230 to R232). -/

namespace Sys2Proof.Machine

/-! ### Translation buffer and stalls (R413) -/

/-- The column translation buffer holds the page of an address. -/
def tlbHolds (k : Core) (w : BitVec 6) (va : Nat) : Bool :=
  k.tlb.any fun p => p.world = w && p.va ≤ va && va < p.va + 65536 * p.pages

/-- A page put into the buffer of 256 entries. -/
def tlbFill (p : Pte) (k : Core) : Core := { k with tlb := p :: (k.tlb.filter fun q => q ≠ p).take 255 }

/-- The cycles of an unloaded walk, about 300 (R413; log 8). -/
def walkCycles (s : State) : Nat := 300 + Config.walkDelay s.fresh

/-- A code word as a stream fetches it: translation with execute permission, the world check, then poison. Pages of code are read-only, and a fetch is
no access that the race detector covers (06_core R166, 09 R285). -/
def fetchWord (s : State) (va : Dword) : Except Failed Word :=
  match xlate s s.core.sys.world va.toNat false true with
  | .error c => .error (failAt c va.toNat)
  | .ok (p, pa) =>
    let l := readLine s pa p.keySlot
    if !worldReads s s.core.sys.world p l then .error (failAt .world va.toNat)
    else if l.poison then .error (failAt .poison (va.toNat / 64 * 64))
    else .ok (BitVec.ofNat 32 (leNat ((l.bytes.drop (va.toNat % 64)).take 4)))

/-- The S stream stalls until the walk of a page returns. -/
def sWalk (p : Pte) (s : State) : State :=
  let n := coreCycles s s.coreId (walkCycles s)
  modCore (fun k => tlbFill p { k with sReady := cyc s + n }) { s with fresh := s.fresh + 1 }

/-- A timed write of this core to the line with a number below `id` is still to be accepted (09 R271, R274). -/
def ownTimedAt (k : Core) (id pa : Nat) : Bool := k.timed.any fun t => t.isWrite && t.instr < id && t.pa ≤ lineOf pa && lineOf pa < t.pa + 512

/-- A column store or a timed write of this core to the line is still to be performed (09 R274). -/
def ownPending (k : Core) (pa : Nat) : Bool :=
  (k.stores.any fun w => w.lines.any fun l => lineOf l.pa = lineOf pa) || ownTimedAt k k.nextInstr pa

/-- The S stream awaits an acquiring atomic that comes before the column memory word with number `id` (09 R286). -/
def afterAcquire (k : Core) (id : Nat) : Bool :=
  (k.phase = awaiting || k.cutPhase = awaiting) && match k.acqMark with
    | some n => n ≤ id
    | none => false

/-- The S stream goes on awaiting an atomic: where it acquires, what the columns issue from now on waits for it. -/
def sAwaitAcquire (acq : Bool) (s : State) : State :=
  sAwait (modCore (fun k => { k with acqMark := if acq then some k.nextInstr else none }) s)

/-- g[d] := x, and the S stream goes on `n` cycles later. -/
def loadEnd (d : GReg) (x : Dword) (n : Nat) (s : State) : Out := .next (sNextAt n (writeG d x n s))

/-- A loaded value extended to 64 bits (R415). -/
def extend (signed : Bool) (size x : Nat) : Dword := if signed then BitVec.ofInt 64 (sNat (8 * size) x) else BitVec.ofNat 64 x

/-! ### Scratchpad-local space (R411) -/

/-- What a scratchpad-local address reaches. -/
inductive LocalPart where
  | scratch
  | flags
  | patterns
  | counters
  deriving DecidableEq, Repr

/-- The range of an address, with the sizes that it accepts (R411). -/
def localPart (addr size : Nat) : Option LocalPart :=
  if addr < 0x80000 then some .scratch
  else if addr < 0x80200 then some .flags
  else if 0x80800 ≤ addr && addr < 0x80A00 then some .patterns
  else if 0x81000 ≤ addr && addr < 0x81400 && size = 4 then some .counters
  else none

/-- The counter bank of a cluster is free or owned by the core's world (07 R230). -/
def bankOk (s : State) : Bool :=
  match (getCluster s (clusterOf s.coreId)).world with
  | none => true
  | some w => w = s.core.sys.world

/-- The bank taken by the first access after its release (R230). -/
def takeBank (s : State) : State :=
  let u := getCluster s (clusterOf s.coreId)
  putCluster s { u with world := some s.core.sys.world }

def counterGet (s : State) (i : Nat) : Nat := ((assocGet (getCluster s (clusterOf s.coreId)).counters i).getD 0).toNat

def counterPut (s : State) (i x : Nat) : State :=
  let u := getCluster s (clusterOf s.coreId)
  let v : Word := BitVec.ofNat 32 x
  putCluster s { u with counters := if v = 0 then assocDel u.counters i else assocPut u.counters i v }

/-- The number of the counter at a scratchpad-local address (R230). -/
def counterAt (addr : Nat) : Nat := (addr - 0x81000) / 4

/-- LD and LDZ in space sp: the read's effect cycle is issue + 1 (09 R273). -/
def loadLocal (d : GReg) (addr size : Nat) (signed : Bool) (s : State) : Out :=
  let a : Dword := BitVec.ofNat 64 addr
  match localPart addr size with
  | none => .next (sTrap .alignment a s)
  | some .scratch =>
    let k := localView (cyc s) s.core
    if spPoison k addr then .next (sTrap .poison (BitVec.ofNat 64 (addr / 64 * 64)) s)
    else loadEnd d (extend signed size (leNat (localGet k addr size))) 2 s
  | some .flags => .next (sNextAt 2 (post (cyc s) 99 (.flagLoad d addr size signed) s))
  | some .patterns => loadEnd d (extend signed size (leNat (localGet (localView (cyc s) s.core) addr size))) 2 s
  | some .counters =>
    if !bankOk s then .next (sTrap .world a s)
    else loadEnd d (extend signed size (counterGet s (counterAt addr))) 2 (takeBank s)

/-- ST in space sp: the write's effect cycle is issue + 2 (09 R273). -/
def storeLocal (addr size : Nat) (x : Dword) (s : State) : Out :=
  let a : Dword := BitVec.ofNat 64 addr
  match localPart addr size with
  | none => .next (sTrap .alignment a s)
  | some .counters =>
    if !bankOk s then .next (sTrap .world a s) else .next (sNext (counterPut (takeBank s) (counterAt addr) (x.toNat % 2 ^ 32)))
  | some _ => .next (sNext (post (cyc s + 2) 0 (.localWrite addr (leBytes size x.toNat) false) s))

/-! ### Space gl -/

/-- The checks of a cached line: the world check and the race check with the cached sideband (06 R189). -/
def cachedFail (s : State) (p : Pte) (pa va : Nat) (c : CacheLine) : Option Failed :=
  let ag := taskAgent s
  match c.side with
  | none => none
  | some d =>
    let l : LineView := { bytes := [], side := d, poison := false, unwritten := false }
    if !worldReads s ag.world p l then some (failAt .world va)
    else if raceChecked s pa && raceWith s ag d then
      some { cause := .race, addr := BitVec.ofNat 64 (va / 64 * 64), detail := raceDetail ag d }
    else none

/-- The cached copy is poisoned. -/
def cachedPoison (c : CacheLine) : Bool := c.side.any (·.poison)

/-- A remote access of the S stream starts (03 R87, R88). -/
def remoteOf (s : State) (pa va : Nat) (d : GReg) (size : Nat) (signed : Bool) : Remote :=
  { tag := 0, core := s.coreId, isAtomic := false, pa := pa, va := va, fill := 0, dest := d, size := size, signed := signed, op := 0, operand := 0, expected := 0,
    load := none, order := 0, target := none, record := false, release := false, agg := [], retryAt := none }

/-- The access is already under way (phase `awaiting`). -/
def waiting (s : State) : Bool := s.core.phase = awaiting

/-- Which of the two S-stream caches a load goes through. -/
inductive Via where
  | readCache
  | constCache
  | bypass
  deriving DecidableEq, Repr

def cacheOf (k : Core) : Via → List CacheLine
  | .readCache => k.readCache
  | .constCache => k.constCache
  | .bypass => []

def setCache (v : Via) (c : List CacheLine) (k : Core) : Core :=
  match v with
  | .readCache => { k with readCache := c }
  | .constCache => { k with constCache := c }
  | .bypass => k

/-- The cache that a remote load fills, as its request notes it. -/
def fillOf : Via → Nat
  | .readCache => 1
  | .constCache => 2
  | .bypass => 0

/-- Hit latencies of the caches (R416). -/
def hitLatency : Via → Nat
  | .constCache => 4
  | _ => 6

/-- A load of space gl or cn from its home, filling the cache that it goes through; a poisoned line is never allocated (R189, R415). -/
def loadHome (d : GReg) (p : Pte) (pa va size : Nat) (signed : Bool) (v : Via) (s : State) : Out :=
  match readHome s (taskAgent s) va size with
  | (s, .error f) => .next (sFail f s)
  | (s, .ok bs) =>
    let l := readLine s pa p.keySlot
    let line : CacheLine := { va := va / 64 * 64, data := BitVec.ofNat 512 (leNat l.bytes), side := if l.unwritten then none else some l.side }
    let (n, s) := loadLatency s (80 + keyWait s s.coreId p.keySlot)
    loadEnd d (extend signed size (leNat bs)) n (modCore (fun k => setCache v (cachePut (cacheOf k v) line) k) (touchKey s.coreId p.keySlot s))

/-- A translated load. -/
def loadMapped (d : GReg) (p : Pte) (pa va size : Nat) (signed : Bool) (v : Via) (s : State) : Out :=
  if !tlbHolds s.core s.core.sys.world va then .next (sWalk p s)
  else if ownPending s.core pa then .next (sBlock s)
  else
    match cacheGet (cacheOf s.core v) va with
    | some c =>
      match cachedFail s p pa va c with
      | some f => .next (sFail f s)
      | none =>
        if cachedPoison c then .next (sFail (failAt .poison (va / 64 * 64)) s)
        else
          let bs := (leBytes 64 c.data.toNat).drop (va % 64) |>.take size
          loadEnd d (extend signed size (leNat bs)) (hitLatency v) (modCore (fun k => setCache v (cachePut (cacheOf k v) c) k) s)
    | none =>
      if accessWaits s s.coreId pa then .next (sBlock s)
      else if isRemote s pa then .next (sAwait (startRemote s { remoteOf s pa va d size signed with fill := fillOf v }))
      else loadHome d p pa va size signed v s

/-- The capability area that the partition scheduler maps into every task: the capability table and the calendar maps (01 R36, 02 R49). -/
def capArea (s : State) (va size : Nat) : Option (List Byte) :=
  match partOfCore s s.coreId with
  | none => none
  | some p =>
    if va / 4096 = (Config.capabilityPage p).toNat then some (((capTable s).drop (va % 4096)).take size)
    else
      match (List.range 1024).find? fun c => partOfCore s c = some p && va / 128 = (Config.calendarMapLine c).toNat with
      | none => none
      | some c =>
        let m := (assocGet s.calMaps c).getD []
        some (((m.flatMap fun e => leBytes 2 (e.2 + 256 * e.1)).drop (va % 128)).take size)

/-- A load in space gl or cn. -/
def loadGlobal (d : GReg) (va size : Nat) (signed : Bool) (v : Via) (s : State) : Out :=
  if waiting s then .next (sAwait s)
  else
    match xlate s s.core.sys.world va false false with
    | .ok (p, pa) => loadMapped d p pa va size signed v s
    | .error c =>
      match if v = .constCache then capArea s va size else none with
      | some bs => loadEnd d (extend signed size (leNat bs)) (hitLatency v) s
      | none => .next (sFail (failAt c va) s)

/-- A store in space gl, performed as it is handed to the port (R415, R416). -/
def storeGlobal (va size : Nat) (x : Dword) (s : State) : Out :=
  match xlate s s.core.sys.world va true false with
  | .error c => .next (sFail (failAt c va) s)
  | .ok (p, pa) =>
    if !tlbHolds s.core s.core.sys.world va then .next (sWalk p s)
    else if ownPending s.core pa || writeWaits s s.coreId pa then .next (sBlock s)
    else
      let bs := leBytes size x.toNat
      match writeHome s (taskAgent s) va bs (some (coreStamp s s.coreId)) false s.core.task with
      | .error f => .next (sFail f s)
      | .ok s =>
        let upd := bs.zipIdx.map fun q => (va % 64 + q.2, q.1)
        .next (sNext (modCore (fun k => { k with readCache := cacheStore k.readCache va upd (assocGet s.side (lineOf pa)) }) (touchKey s.coreId p.keySlot s)))

/-! ### Space wt (06 R191) -/

/-- The partition of the core owns weight-store bank `b` of the core's stack (05 R133). -/
def bankOwned (s : State) (b : Nat) : Bool :=
  match partOfCore s s.coreId with
  | some p => (getPart s p).islands.getLsbD (4 * stackOf s.coreId + b / 16)
  | none => false

/-- The physical address of an offset of the core's weight store (02 R38). -/
def weightPa (s : State) (off : Nat) : Nat := 0x10000000000 + stackOf s.coreId * 0x40000000 + off

/-- Cycles until a refresh window of the bank has passed (R192). -/
def refreshWait (s : State) (b : Nat) : Nat :=
  let at_ := (s.now % 4096 + 4096 - refreshStart s (stackOf s.coreId) b) % 4096
  if at_ < 64 then 64 - at_ else 0

/-- A load in space wt; lines lie under the world 0 key. -/
def loadWeight (d : GReg) (off size : Nat) (signed : Bool) (s : State) : Out :=
  if 0x3FFFFFFF < off || !bankOwned s (off / 2 ^ 24) then .next (sFail (failAt .permission off) s)
  else
    let pa := weightPa s off
    let l := lineAt s pa 0
    if l.poison then .next (sTrap .poison (BitVec.ofNat 64 (off / 64 * 64)) s)
    else
      let (n, s) := loadLatency s (60 + refreshWait s (off / 2 ^ 24))
      loadEnd d (extend signed size (leNat ((l.bytes.drop (off % 64)).take size))) n s

/-- Address, size and alignment of a load or store in format SM (R415). -/
def memAddr (s : State) (a : GReg) (z : BitVec 2) (o : BitVec 10) : Nat := (readG s a + o.signExtend 64 * BitVec.ofNat 64 (2 ^ z.toNat)).toNat

/-- LD and LDZ. -/
def loadForm (o : RMem) (signed : Bool) (s : State) : Out :=
  let size := 2 ^ o.z.toNat
  let va := memAddr s o.a o.z o.o
  if va % size ≠ 0 then .next (sTrap .alignment (BitVec.ofNat 64 va) s)
  else
    match o.p.toNat with
    | 0 => loadLocal o.d va size signed s
    | 1 => loadGlobal o.d va size signed .readCache s
    | 2 => loadWeight o.d va size signed s
    | _ => loadGlobal o.d va size signed .constCache s

def execLd (o : RMem) (s : State) : Out := loadForm o true s
def execLdz (o : RMem) (s : State) : Out := loadForm o false s

/-- LDNC bypasses the read cache (R415). -/
def execLdnc (o : RMemNc) (s : State) : Out :=
  let size := 2 ^ o.z.toNat
  let va := memAddr s o.a o.z o.o
  if va % size ≠ 0 then .next (sTrap .alignment (BitVec.ofNat 64 va) s)
  else loadGlobal o.d va size true .bypass s

/-- A store with space cn is illegal, and one in space wt a permission fault (R415). -/
def execSt (o : RMem) (s : State) : Out :=
  let size := 2 ^ o.z.toNat
  let va := memAddr s o.a o.z o.o
  if o.p = 3 then sIllegal' s
  else if va % size ≠ 0 then .next (sTrap .alignment (BitVec.ofNat 64 va) s)
  else
    match o.p.toNat with
    | 0 => storeLocal va size (readG s o.d) s
    | 1 => storeGlobal va size (readG s o.d) s
    | _ => .next (sFail (failAt .permission va) s)
where
  sIllegal' (s : State) : Out := .next (sTrap .illegal 0 s)

/-! ### Draining (09 R286, R288) -/

/-- No column access with a number below the fence mark is still to be performed or to return. -/
def drained (k : Core) (reads writes : Bool) : Bool :=
  (!reads || (k.loads.all fun l => k.fenceMark ≤ l.id) && (k.timed.all fun t => t.isWrite || k.fenceMark ≤ t.instr))
    && (!writes || (k.stores.all fun w => k.fenceMark ≤ w.id) && (k.timed.all fun t => !t.isWrite || k.fenceMark ≤ t.instr))

/-- Phase of an instruction that drains earlier accesses. -/
def draining : Nat := 1

/-- At its first attempt an instruction marks the accesses before it. -/
def markFence (s : State) : State :=
  if s.core.phase = 0 then modCore (fun k => { k with fenceMark := k.nextInstr, phase := draining }) s else s

/-! ### Atomics (R417, R418) -/

/-- Orders: 0 RLX, 1 ACQ, 2 REL, 3 AR. -/
def isAcquire (r : Nat) : Bool := r = 1 || r = 3
def isRelease (r : Nat) : Bool := r = 2 || r = 3

/-- The operands of an atomic. -/
structure AtomOp where
  d : GReg
  size : Nat
  op : Nat
  x : Dword
  y : Dword
  order : Nat
  scope : Nat
  deriving DecidableEq, Repr

/-- An atomic through the low window (R412, R417). -/
def atomLocal (a : AtomOp) (addr : Nat) (s : State) : Out :=
  let ad : Dword := BitVec.ofNat 64 addr
  match localPart addr a.size with
  | none => .next (sTrap .alignment ad s)
  | some .counters =>
    if !bankOk s then .next (sTrap .world ad s)
    else
      let s := takeBank s
      let i := counterAt addr
      let old := counterGet s i
      let s := match atomResult a.op 4 old (a.x.toNat % 2 ^ 32) (a.y.toNat % 2 ^ 32) with
        | some v => counterPut s i v
        | none => s
      loadEnd a.d (BitVec.ofNat 64 old) 3 s
  | some part =>
    if part = .scratch && spPoison (localView (cyc s) s.core) addr then .next (sTrap .poison (BitVec.ofNat 64 (addr / 64 * 64)) s)
    else .next (sNextAt 3 (post (cyc s + 2) 0 (.lowAtomic a.d addr a.size a.op a.x a.y) s))

/-- The acquire of an atomic that read race field `e` (R281). -/
def atomAcquire (s : State) (a : AtomOp) (e : Side) : State :=
  let x := acquireFrom s s.coreId a.scope e
  if isAcquire a.order then acquireInto s s.coreId x
  else if a.order = 0 then modCore (fun k => { k with race := { k.race with p := mergeCounts k.race.p x } }) s
  else s

/-- A remote atomic makes the checkpoint interval irrevocable (10_traps R316). -/
def irrevocable (s : State) : State :=
  match s.core.task with
  | some t => modCkpt s t fun k => { k with irrev := true }
  | none => s

/-- An atomic performed at the home of its line. -/
def atomHome (a : AtomOp) (p : Pte) (pa va : Nat) (s : State) : Out :=
  let w := s.core.sys.world
  let l := lineAt s pa p.keySlot
  if !worldReads s w p l || !worldWrites s w p l then .next (sFail (failAt .world va) s)
  else if l.poison then .next (sFail (failAt .poison (va / 64 * 64)) (notePoison s pa s.coreId))
  else
    let old := leNat ((l.bytes.drop (va % 64)).take a.size)
    let m := 2 ^ (8 * a.size)
    let r := atomResult a.op a.size old (a.x.toNat % m) (a.y.toNat % m)
    let rel := r.isSome && (isRelease a.order || s.core.relArmed)
    let s1 := atomAcquire s a l.side
    let s2 := if rel then modCore (fun k => { k with relArmed := false }) (releasePoint s1 s.coreId a.scope .releaseWrite (releaseMore s1 l.side)) else s1
    let stamp := if rel then some (coreStamp s2 s.coreId) else none
    let s3 := match r with
      | some v => writeLine s2 pa ((leBytes a.size v).zipIdx.map fun q => (va % 64 + q.2, q.1)) w stamp false p.keySlot s.core.task
      | none => s2
    let upd := match r with
      | some v => (leBytes a.size v).zipIdx.map fun q => (va % 64 + q.2, q.1)
      | none => []
    let s4 := if upd.isEmpty then s3 else
      modCore (fun k => { k with readCache := cacheStore k.readCache va upd (assocGet s3.side (lineOf pa)) }) s3
    let (n, s5) := loadLatency s4 (200 + keyWait s s.coreId p.keySlot)
    loadEnd a.d (BitVec.ofNat 64 old) n (touchKey s.coreId p.keySlot s5)

/-- A remote atomic, as it is asked for (03 R87). -/
def remoteAtom (a : AtomOp) (pa va : Nat) (s : State) : State :=
  startRemote s { remoteOf s pa va a.d a.size false with
    isAtomic := true, op := a.op, operand := a.x, expected := a.y, order := a.order, release := isRelease a.order || s.core.relArmed }

/-- An atomic on a gl word: an atomic that releases first waits until every earlier access of the core is performed (09 R286); one of the domain window
acts at scope dom, whatever scope it names (03 R87). -/
def atomGlobal (a : AtomOp) (va : Nat) (s : State) : Out :=
  if waiting s then .next (sAwait s)
  else
    match xlate s s.core.sys.world va false false with
    | .error c => .next (sFail (failAt c va) s)
    | .ok (p, pa) =>
      let perm := if isRemote s pa then p.write else (xlate s s.core.sys.world va true false).toOption.isSome
      if !perm then .next (sFail (failAt .permission va) s)
      else if !tlbHolds s.core s.core.sys.world va then .next (sWalk p s)
      else
        let wide : Bool := a.scope ≠ 0 || isRemote s pa
        let s := if isRelease a.order && wide then markFence s else s
        if isRelease a.order && wide && !drained s.core true true then .next (sBlock s)
        else if ownPending s.core pa || writeWaits s s.coreId pa then .next (sBlock s)
        else if isRemote s pa then .next (sAwaitAcquire (isAcquire a.order) (irrevocable (remoteAtom a pa va s)))
        else atomHome a p pa va s

/-- An atomic: the low window below 0x10_0000, space gl above (R412). -/
def atomForm (a : AtomOp) (addr : GReg) (s : State) : Out :=
  let va := (readG s addr).toNat
  if va % a.size ≠ 0 then .next (sTrap .alignment (BitVec.ofNat 64 va) s)
  else if va < 0x100000 then atomLocal a va s
  else atomGlobal a va s

def execAtom (o : RAtom) (s : State) : Out :=
  atomForm { d := o.d, size := 4 * (o.z.toNat + 1), op := o.o.toNat, x := readG s o.d, y := 0, order := o.r.toNat, scope := o.s.toNat } o.a s

def execAcas (o : RCas) (s : State) : Out :=
  atomForm { d := o.d, size := 4 * (o.z.toNat + 1), op := 9, x := readG s o.b, y := readG s o.d, order := o.r.toNat, scope := o.s.toNat } o.a s

/-! ### Aggregated adds (07 R232, R419) -/

/-- The AAGG of this core joins the open window of its target, or opens one of 16 cycles. -/
def joinWindow (va : Dword) (addr : Nat) (counter : Bool) (o : RAgg) (s : State) : State :=
  let size := 4 * (o.z.toNat + 1)
  let part : Participant := { core := s.coreId, dest := o.d, addend := readG s o.d, acquire := decide (o.r = 1), scope := o.s.toNat }
  let u := clusterOf s.coreId
  let isIt (w : Window) : Bool := w.cluster = u && w.addr = addr && w.isCounter = counter && w.size = size && cyc s < w.close
  if s.windows.any isIt then
    { s with windows := s.windows.map fun w => if isIt w then { w with parts := w.parts ++ [part] } else w }
  else
    { s with windows := s.windows ++
      [{ cluster := u, addr := addr, va := va, isCounter := counter, size := size, close := cyc s + 16, parts := [part] }] }

def execAagg (o : RAgg) (s : State) : Out :=
  let size := 4 * (o.z.toNat + 1)
  let a := readG s o.a
  let va := a.toNat
  if waiting s then .next (sAwait s)
  else if va % size ≠ 0 then .next (sTrap .alignment a s)
  else if va < 0x100000 then
    if localPart va size = some .counters then
      if !bankOk s then .next (sTrap .world a s) else .next (sAwaitAcquire (o.r = 1) (joinWindow a va true o (takeBank s)))
    else .next (sTrap .alignment a s)
  else
    match xlate s s.core.sys.world va false false with
    | .error c => .next (sFail (failAt c va) s)
    | .ok (p, pa) =>
      let perm := if isRemote s pa then p.write else (xlate s s.core.sys.world va true false).toOption.isSome
      if !perm then .next (sFail (failAt .permission va) s)
      else if !tlbHolds s.core s.core.sys.world va then .next (sWalk p s)
      else if ownPending s.core pa || switching s pa then .next (sBlock s)
      else if isRemote s pa then .next (sAwaitAcquire (o.r = 1) (joinWindow a pa false o s))
      else
        let l := lineAt s pa p.keySlot
        if !worldReads s s.core.sys.world p l || !worldWrites s s.core.sys.world p l then .next (sFail (failAt .world va) s)
        else if l.poison then .next (sFail (failAt .poison (va / 64 * 64)) (notePoison s pa s.coreId))
        else .next (sAwaitAcquire (o.r = 1) (joinWindow a pa false o s))

/-! ### RCSNAP (R420) -/

/-- All checks are made before the act, and then nothing can fail: the copy and the clear are one act at the cluster (R231, R420). -/
def execRcsnap (o : RSnap) (s : State) : Out :=
  let va := (readG s o.a).toNat
  let first := (readG s o.b).toNat % 256
  let cnt := o.n.toNat + 1
  if 256 < first + cnt || va % 4 ≠ 0 || va < 0x100000 then .next (sTrap .alignment (BitVec.ofNat 64 va) s)
  else
    match xlateSpan s s.core.sys.world va (4 * cnt) true with
    | .error f => .next (sFail f s)
    | .ok ls =>
      match ls.find? fun x => !tlbHolds s.core s.core.sys.world x.1 with
      | some x => .next (sWalk x.2.2.2.1 s)
      | none =>
        if ls.any fun x => ownPending s.core x.2.2.2.2 || writeWaits s s.coreId x.2.2.2.2 then .next (sBlock s)
        else if !bankOk s then .next (sTrap .world (BitVec.ofNat 64 (0x81000 + 4 * first)) s)
        else
          let s1 := takeBank s
          let buf := (List.range cnt).flatMap fun i => leBytes 4 (counterGet s1 (first + i))
          match writeHome s1 (taskAgent s1) va buf (some (coreStamp s1 s1.coreId)) false s1.core.task with
          | .error f => .next (sFail f s)
          | .ok s2 =>
            let u := getCluster s2 (clusterOf s2.coreId)
            let u := { u with counters := u.counters.filter fun c => c.1 < first || first + cnt ≤ c.1,
                              world := if cnt = 256 then none else u.world }
            let (n, s3) := loadLatency (putCluster s2 u) 80
            let upd (l : CacheLine) : CacheLine :=
              match ls.find? fun x => x.1 = l.va with
              | some x => { l with data := BitVec.ofNat 512 (leNat (lineAt s3 x.2.2.2.2 x.2.2.2.1.keySlot).bytes), side := assocGet s3.side (lineOf x.2.2.2.2) }
              | none => l
            .next (sNextAt n (modCore (fun k => { k with readCache := k.readCache.map upd }) s3))

/-! ### Fences (R421, 09 R288, R289) -/

/-- V := Merge(V, P); P := all 0 (09 R281). -/
def acquireFence (s : State) : State :=
  modCore (fun k => { k with race := { k.race with v := mergeCounts k.race.v k.race.p, p := [] } }) s

/-- The release point of a fence, after which the next atomic is a release write (09 R275, R280). -/
def releaseFence (scope : Nat) (s : State) : State :=
  modCore (fun k => { k with relArmed := true }) (releasePoint s s.coreId scope .other [])

/-- A fence waits for the earlier accesses that it orders, then has its effect and retires `n` cycles later. -/
def fenceForm (reads writes : Bool) (n : Nat) (eff : State → State) (s : State) : Out :=
  let s := markFence s
  if drained s.core reads writes then .next (sNextAt n (eff s)) else .next (sBlock s)

/-- At scope core a fence completes in one cycle and makes no release or acquire point (R288). -/
def execFenceAcq (c : BitVec 2) (s : State) : Out :=
  if c = 0 then .next (sNext s) else fenceForm true false 1 acquireFence s

def execFenceRel (c : BitVec 2) (s : State) : Out :=
  if c = 0 then .next (sNext s) else fenceForm true true 1 (releaseFence c.toNat) s

def execFenceAr (c : BitVec 2) (s : State) : Out :=
  if c = 0 then .next (sNext s) else fenceForm true true 1 (fun s => acquireFence (releaseFence c.toNat s)) s

/-- The read cache is invalidated whole, at every scope (R288). -/
def execFenceInv (c : BitVec 2) (s : State) : Out :=
  fenceForm true false 65 (fun s =>
    modCore (fun k => { k with readCache := [] }) (if c = 0 then s else acquireFence s)) s

/-- Phase of a FENCE.SC whose drain mark is on its way or at the distributor. -/
def scWait : Nat := 2

/-- FENCE.SC drains as FENCE.AR and is a release and an acquire as it is, then sends a drain mark, which reaches the distributor within 192 cycles
(R288, R289; log 8). A mark that arrives in the last 64 cycles before an edge counts for the edge after it: the mark counts from 64 cycles after its
arrival on. Scopes core and dom are illegal. -/
def execFenceSc (c : BitVec 2) (s : State) : Out :=
  if c = 0 || c = 3 then .next (sTrap .illegal 0 s)
  else if s.core.phase = scWait then
    if s.scFences.any fun f => f.core = s.coreId then .next (sBlock s) else .next (sNext s)
  else
    let s := markFence s
    if !drained s.core true true then .next (sBlock s)
    else
      let s := releaseFence c.toNat s
      let vec := ((heldSnap s.core.race s.core.race.own).map (·.vec)).getD []
      let s := acquireFence s
      let f : ScFence := { core := s.coreId, scope := c.toNat, mark := s.now + Config.freeDelay s.fresh % 193 + 64, vec := vec }
      .next (modCore (fun k => { k with phase := scWait, sReady := cyc s + 1 }) { s with scFences := s.scFences ++ [f], fresh := s.fresh + 1 })

end Sys2Proof.Machine
end

