-- ==== Sys2Proof/Machine/Sched.lean ====
section
/-! DEFINITION. Launches, gangs, dispatch, pre-emption and barriers (05_partitions_scheduler), the first start of a task (06_core R484, 03 R99), and the
saving and restoring of contexts (10_traps R310, R311). -/

namespace Sys2Proof.Machine

/-! ### Status codes (04_host_interface R118) -/

def stOk : Nat := 0x00
def stFull : Nat := 0x01
def stQuota : Nat := 0x02
def stPoisoned : Nat := 0x03
def stBadcmd : Nat := 0x04
def stViewChanged : Nat := 0x05
def stWeightsLate : Nat := 0x06
def stRace : Nat := 0x07
def stMaplost : Nat := 0x08
def stLocked : Nat := 0x09
def stAborted : Nat := 0x0A
def stNosuch : Nat := 0x0B
def stStopped : Nat := 0x0C

/-! ### Words and objects that the device itself reads and writes -/

/-- The page and physical address of a virtual address of a world, with no permission check. -/
def devPa (s : State) (w : BitVec 6) (va : Nat) : Option (Pte × Nat) := (findPte s w va).map fun p => (p, ownPa s (p.pa + (va - p.va)))

/-- A run of bytes inside one line, read by the device; none where it is unmapped or poisoned. -/
def devRead (s : State) (w : BitVec 6) (va n : Nat) : Option (List Byte) :=
  match devPa s w va with
  | none => none
  | some (p, pa) =>
    let l := readLine s pa p.keySlot
    if l.poison then none else some ((l.bytes.drop (va % 64)).take n)

/-- A run of bytes inside one line, written by the device. -/
def devWrite (s : State) (w : BitVec 6) (va : Nat) (bs : List Byte) (stamp : Option (BitVec 10 × BitVec 8)) (who : Option TaskRef) : State :=
  match devPa s w va with
  | none => s
  | some (p, pa) => writeLine s pa (bs.zipIdx.map fun q => (va % 64 + q.2, q.1)) w stamp false p.keySlot who

/-- The count of a completion object. -/
def objectCount (s : State) (w : BitVec 6) (va : Nat) : Option Nat := (devRead s w va 8).map leNat

/-- A completion object incremented by 1 (16_isa_engines R440). -/
def incObject (s : State) (w : BitVec 6) (va : Nat) (stamp : Option (BitVec 10 × BitVec 8)) (who : Option TaskRef) : State :=
  devWrite s w va (leBytes 8 ((objectCount s w va).getD 0 + 1)) stamp who

/-- The neutral race field (09 R279). -/
def neutral : Option (BitVec 10 × BitVec 8) := some (0, 0)

/-- A task's vector as it stands at the race field of an object line. -/
def objectSnap (s : State) (w : BitVec 6) (va : Nat) : Counts :=
  match devPa s w va with
  | none => []
  | some (p, pa) =>
    let d := (lineAt s pa p.keySlot).side
    if d.writer = 0 && d.sync = 0 then [] else ((namedSnap s d.writer.toNat d.sync).map (·.vec)).getD []

/-! ### Launch records (R137 to R139) -/

/-- A launch as accepted (R145). -/
def Launch.accept (num : BitVec 32) (bits : BitVec 2048) (base : Counts) : Launch :=
  { num := num, bits := bits, st := .waiting, gated := 0, nextGang := 0, ended := 0, failTask := BitVec.allOnes 32, failCause := 0, failAt := 0,
    status := 0, base := base, vec := [], lastCore := none, meetSent := 0, meetDone := 0, readyTick := 0, places := [] }

/-- Start object `i`: address and target. -/
def startObject (l : Launch) (i : Nat) : Nat × Nat := (launchField l (0x80 + 16 * i) 8, launchField l (0x88 + 16 * i) 8)
/-- Weight region `i`: object, target, stack mask, first bank, bank count. -/
def weightRegion (l : Launch) (i : Nat) : Nat × Nat × Nat × Nat × Nat :=
  let o := 0xC0 + 16 * i
  (launchField l o 8, launchField l (o + 8) 4, launchField l (o + 12) 1, launchField l (o + 13) 1, launchField l (o + 14) 1)

def startCount (l : Launch) : Nat := launchField l 6 1
def weightCount (l : Launch) : Nat := launchField l 7 1

/-- The compute islands of a partition. -/
def partIslands (p : Part) : List Nat := (List.range 16).filter fun n => p.islands.getLsbD n

/-- The clusters of its islands, but for those that a resize removes (R136). -/
def partClusters (p : Part) : List Nat :=
  ((partIslands p).filter fun n => !p.closing.getLsbD n).flatMap fun n => [4 * n, 4 * n + 1, 4 * n + 2, 4 * n + 3]

/-- The cores that one instance of a domain has at most in a partition (R139, condition 4). -/
def domainCores (p : Part) (d : Nat) : Nat :=
  match d with
  | 0 => 1
  | 1 => if p.islands = 0 then 0 else 16
  | 2 => (List.range 4).foldl (fun m s => max m (64 * ((partIslands p).filter fun n => n / 4 = s).length)) 0
  | _ => 64 * (partIslands p).length

/-- The scope of a domain (R139, condition 5). -/
def domainScope (d : Nat) : Nat := if d = 0 then 0 else if d = 1 then 1 else if d < 4 then 2 else 3

/-- A level descriptor by itself is valid (R138). -/
def levelOk (l : Launch) (i : Nat) : Bool :=
  let x := levelDesc l i
  x / 2 ^ 28 = 0 && x / 128 % 2 = 0 && levelDomain l i ≤ 4 && levelBarrier l i ≤ 2 && levelScope l i ≤ 3 && 1 ≤ levelCount l i

/-- The banks of a weight region belong to the partition (R139, condition 7). -/
def regionOk (p : Part) (r : Nat × Nat × Nat × Nat × Nat) : Bool :=
  let (_, _, mask, first, count) := r
  mask < 16 && first < 64 && 1 ≤ count && count ≤ 64 && first + count ≤ 64
    && (List.range 4).all fun s => !mask.testBit s || (List.range count).all fun b => p.islands.getLsbD (4 * s + (first + b) / 16)

/-- Condition 4 for level `i`: the gang fits one instance of its domain; a level of the load-store domain follows R144. -/
def levelFits (s : State) (p : Part) (l : Launch) (i : Nat) : Bool :=
  if levelDomain l i = 4 then
    i + 1 = launchLevels l && match lsdGroup s with
      | some g => levelCount l i = (g.members.filter fun n => n ≠ noNode).length
      | none => false
  else gangSize l i ≤ domainCores p (levelDomain l i)

/-- A launch record is valid (R139). -/
def validLaunch (s : State) (part : Nat) (bits : BitVec 2048) : Bool :=
  let l := Launch.accept 0 bits []
  let p := getPart s part
  let n := launchLevels l
  let k := barrierLevels l
  let f := launchField l
  f 0 2 = 1 && f 2 1 < 64 && f 3 1 < 4 && 1 ≤ n && n ≤ 8 && f 5 1 < 4 && startCount l ≤ 4 && weightCount l ≤ 2 && f 0x0C 4 = 0
    && f 0x10 8 % 4 = 0 && f 0x18 8 % 4 = 0 && f 0x20 8 % 4 = 0 && f 0x28 8 % 4 = 0 && f 0xF0 16 = 0
    && (List.range 8).all (fun i => if i < n then levelOk l i else levelDesc l i = 0)
    && (List.range 4).all (fun i => i < startCount l || (startObject l i = (0, 0)))
    && (List.range 2).all (fun i => if i < weightCount l then regionOk p (weightRegion l i) && f (0xCF + 16 * i) 1 = 0 else f (0xC0 + 16 * i) 16 = 0)
    && (List.range n).all (fun i => (levelBarrier l i ≠ 0) = (i < k))
    && (List.range (n - 1)).all (fun i => levelDomain l i ≤ levelDomain l (i + 1))
    && (List.range n).all (fun i => levelDomain l i ≠ 0 || (i = 0 && levelCount l i = 1))
    && (List.range n).all (fun i => levelDomain l i ≠ 4 || levelFits s p l i)
    && (List.range k).all (fun i => levelFits s p l i)
    && (List.range n).all (fun i => domainScope (levelDomain l i) ≤ levelScope l i)
    && (List.range n).all (fun i => levelBarrier l i ≠ 2 || launchCkpt l)
    && taskCount l ≤ 2 ^ 32

/-- A launch accepted into a partition's pool, with the counts of its launching release point: its number (R155). -/
def acceptLaunch (s : State) (part : Nat) (bits : BitVec 2048) (base : Counts) : BitVec 32 × State :=
  let p := getPart s part
  let n := p.nextLaunch
  (n, setPart s part { p with launches := p.launches ++ [Launch.accept n bits base], nextLaunch := if n + 1 = 0 then 1 else n + 1 })

/-- The pool of 4,096 records is full (R155). -/
def poolFull (s : State) (part : Nat) : Bool := 4096 ≤ (getPart s part).launches.length

/-! ### The launch lifecycle (R145, R146) -/

/-- Own counts of the cores (09 R284). -/
def ownCounts (s : State) : Counts := (coreNos s).foldl (fun v c => let x := (getCore s c).race.own; if x = 0 then v else assocPut v c x) []

/-- A launch's objects sampled: WAITING, GATED, READY in turn. -/
def sampleLaunch (s : State) (l : Launch) : Launch :=
  let w := launchWorld l
  let l :=
    if l.st = .waiting && (List.range (startCount l)).all (fun i =>
        match objectCount s w (startObject l i).1 with
        | some n => (startObject l i).2 ≤ n
        | none => false) then
      { l with st := .gated, base := (List.range (startCount l)).foldl (fun v i => mergeCounts v (objectSnap s w (startObject l i).1)) l.base }
    else l
  if l.st = .gated && (List.range (weightCount l)).all (fun i =>
      let r := weightRegion l i
      match objectCount s w r.1 with
      | some n => r.2.1 ≤ n
      | none => false) then
    { l with st := .ready, base := mergeCounts (ownCounts s) l.base, readyTick := s.tick }
  else l

/-- Every launch of every partition sampled. -/
def sampleLaunches (s : State) : State :=
  { s with parts := s.parts.map fun p => { p with launches := p.launches.map (sampleLaunch s) } }

/-- The banks of stack `st` that some launch holds (R146). -/
def bankHeld (s : State) (st b : Nat) : Bool :=
  s.parts.toList.any fun p => p.launches.any fun l =>
    (l.st = .gated || l.st = .ready || l.st = .running) && (List.range (weightCount l)).any fun i =>
      let (_, _, mask, first, count) := weightRegion l i
      mask.testBit st && first ≤ b && b < first + count

/-! ### Gangs and queues (R140, R149 to R153) -/

/-- A dispatch gang of this launch is narrow (R149). -/
def isNarrow (l : Launch) : Bool :=
  let k := barrierLevels l
  k = 0 || (gangTasks l ≤ 16 && levelDomain l (k - 1) ≤ 1)

/-- The cores of a cluster that hold a task of gang `id`. -/
def gangCores (s : State) (id : Nat) : List CoreNo := (coreNos s).filter fun c => ((getCore s c).task.map (·.gang)) = some id

/-- Free cores of a cluster, in ascending number. -/
def freeCores (s : State) (cl : Nat) : List CoreNo :=
  ((List.range 16).map (16 * cl + ·)).filter fun c => (getCore s c).task.isNone

/-- The queue of class `c` of a cluster, head first. -/
def classQueue (s : State) (cl c : Nat) : List Gang := s.gangs.filter fun g => g.st = .queued && g.cluster = cl && g.dcls = c

def queuedAt (s : State) (cl : Nat) : Nat := (s.gangs.filter fun g => g.st = .queued && g.cluster = cl).length

/-- Gangs queued and resident at a cluster (R149). -/
def clusterLoad (s : State) (cl : Nat) : Nat :=
  (s.gangs.filter fun g => (g.st = .queued && g.cluster = cl)
    || (g.st ≠ .queued && g.st ≠ .wide && (gangCores s g.id).any fun c => clusterOf c = cl)).length

/-- The instance of a domain that a cluster lies in. -/
def instanceOf (d cl : Nat) : Nat := if d ≤ 1 then cl else if d = 2 then cl / 16 else 0

/-- The gang of level `i` that dispatch gang `idx` lies in (R140). -/
def ancestor (s : State) (l : Launch) (idx i : Nat) : Nat :=
  let t := firstTask s l + idx * gangTasks l
  if gangSize l i = 0 then 0 else t / gangSize l i

/-- The levels above the dispatch gang. -/
def outerLevels (l : Launch) : List Nat := (List.range (launchLevels l)).filter fun i => barrierLevels l ≤ i

/-- The cluster lies in the domain instances fixed for the gang's ancestors (R140). -/
def placeOk (s : State) (l : Launch) (idx cl : Nat) : Bool :=
  (outerLevels l).all fun i =>
    match l.places.find? fun p => p.1 = i && p.2.1 = ancestor s l idx i with
    | none => true
    | some p => p.2.2 = instanceOf (levelDomain l i) cl

/-- The instances of the ancestors fixed by the first child placed. -/
def notePlace (s : State) (part : Nat) (num : BitVec 32) (idx cl : Nat) : State :=
  modLaunch s part num fun l =>
    { l with places := (outerLevels l).foldl (fun ps i =>
        let a := ancestor s l idx i
        if ps.any fun p => p.1 = i && p.2.1 = a then ps else ps ++ [(i, a, instanceOf (levelDomain l i) cl)]) l.places }

/-- A gang of a launch. -/
def newGang (s : State) (part : Nat) (l : Launch) (idx cl : Nat) (wide : Bool) : Gang :=
  let n := gangTasks l
  let t := firstTask s l + idx * n
  { id := s.nextGang, part := part, launch := l.num, idx := idx, tasks := (List.range n).map fun i => BitVec.ofNat 32 (t + i),
    cls := launchClass l, dcls := launchClass l, enq := s.tick, since := s.tick,
    st := if wide then .wide else .queued, cluster := cl, isWide := wide, started := none, front := false }

/-- No cluster. -/
def noCluster : Nat := 64

/-- The next dispatch gang of a launch placed by the partition scheduler, where a cluster has room for it: one with 64 gangs queued is passed
over for another of the instance (R149, R151; log 92). -/
def placeNext (s : State) (part : Nat) (l : Launch) : Option State :=
  if gangTotal l ≤ l.nextGang || !(l.st = .ready || l.st = .running) then none
  else
    let idx := l.nextGang
    let add (s : State) (g : Gang) : State :=
      modLaunch { s with gangs := s.gangs ++ [g], nextGang := s.nextGang + 1 } part l.num fun l => { l with nextGang := idx + 1, st := .running }
    if isNarrow l then
      let cls := (partClusters (getPart s part)).filter fun c => placeOk s l idx c && queuedAt s c < 64
      match cls with
      | [] => none
      | c :: rest =>
        let best := rest.foldl (fun b c => if clusterLoad s c < clusterLoad s b then c else b) c
        some (notePlace (add s (newGang s part l idx best false)) part l.num idx best)
    else some (add s (newGang s part l idx noCluster true))

/-- Gangs of a launch placed while there is room. -/
def placeMany : Nat → State → Nat → BitVec 32 → State
  | 0, s, _, _ => s
  | n + 1, s, part, num =>
    match (findLaunch s part num).bind (placeNext s part) with
    | none => s
    | some s => placeMany n s part num

/-- Entries of one dispatch gang: a task that was parked has an entry of its own until it is resident again (R157). -/
def sameGang (a b : Gang) : Bool := a.part = b.part && a.launch = b.launch && a.idx = b.idx

/-- The cluster at which the rest of a gang stands: where it is resident, or else where it is queued. -/
def restCluster (s : State) (g : Gang) : Option Nat :=
  let rest := s.gangs.filter fun x => x.id ≠ g.id && sameGang x g && x.cluster < noCluster && x.st ≠ .wide
  ((rest.find? fun x => x.st ≠ .queued).orElse fun _ => rest.head?).map (·.cluster)

/-- Gangs that a resize has sent back to the scheduler, queued again where there is room, with their enqueue ticks (R136). -/
def placeLoose (s : State) (part : Nat) : State :=
  (s.gangs.filter fun g => g.part = part && g.st = .queued && g.cluster = noCluster).foldl (fun s g =>
    match findLaunch s part g.launch with
    | none => s
    | some l =>
      match (partClusters (getPart s part)).filter fun c => placeOk s l g.idx c && queuedAt s c < 64 && (restCluster s g).all fun r => r = c with
      | [] => s
      | c :: rest =>
        let best := rest.foldl (fun b c => if clusterLoad s c < clusterLoad s b then c else b) c
        { s with gangs := s.gangs.map fun x => if x.id = g.id && x.st = .queued && x.cluster = noCluster then { x with cluster := best } else x }) s

/-- Placement by every partition's scheduler, launches in order of acceptance (R149). -/
def placeAll (s : State) : State :=
  (List.range 16).foldl (fun s p => (getPart s p).launches.foldl (fun s l => placeMany (gangTotal l) s p l.num) (placeLoose s p)) s

/-- The order of a class queue by enqueue tick, launch number, gang index (R152). -/
def gangBefore (a b : Gang) : Bool :=
  a.enq < b.enq || (a.enq = b.enq && (a.launch.toNat < b.launch.toNat || (a.launch = b.launch && a.idx < b.idx)))

/-- Gangs that keep the head of a queue. -/
def queueInsert (g : Gang) (l : List Gang) : List Gang :=
  match l with
  | [] => [g]
  | x :: xs =>
    if x.st = .queued && x.cluster = g.cluster && x.dcls = g.dcls && !x.front && gangBefore g x then g :: x :: xs else x :: queueInsert g xs

/-- A gang entered in the position given by its enqueue tick. -/
def reinsert (s : State) (g : Gang) : State := { s with gangs := queueInsert g (s.gangs.filter fun x => !(x.id = g.id && x.st = .queued)) }

/-- The tick of the edge that is due, or else of the last one. -/
def edgeTick (s : State) : Nat := if s.tickDue then s.tick + 1 else s.tick

/-- A queued gang that has waited more than 64 ticks in class 2 or 3 (R152). -/
def promotable (s : State) (g : Gang) : Bool := (g.st = .queued || g.st = .wide) && 2 ≤ g.dcls && 64 < edgeTick s - g.since

/-- The gang promoted one class (R152). -/
def promote (s : State) (g : Gang) : State :=
  let h := { g with dcls := g.dcls - 1, since := edgeTick s }
  if g.st = .wide then { s with gangs := s.gangs.map fun x => if x.id = g.id && x.st = .wide then h else x } else reinsert s h

/-- A queued gang may be stolen by a cluster (R153). -/
def stealable (s : State) (g : Gang) (thief : Nat) : Bool :=
  g.st = .queued && match findLaunch s g.part g.launch with
    | none => false
    | some l => levelSteal l (barrierLevels l - 1) && placeOk s l g.idx thief && (restCluster s g).isNone

/-- An idle cluster takes half the stealable gangs of the cluster that has most (R153). -/
def stealFor (s : State) (part thief : Nat) : State :=
  if queuedAt s thief ≠ 0 || (freeCores s thief).isEmpty then s
  else
    let of (c : Nat) := s.gangs.filter fun g => g.cluster = c && g.part = part && stealable s g thief
    let victims := (partClusters (getPart s part)).filter fun c => c ≠ thief
    let best := victims.foldl (fun (b : Option Nat) c =>
      match b with
      | none => if (of c).isEmpty then none else some c
      | some v => if (of v).length < (of c).length then some c else b) none
    match best with
    | none => s
    | some v =>
      let l := sortBy gangBefore (of v)
      (l.take ((l.length + 1) / 2)).foldl (fun s g => reinsert s { g with cluster := thief }) s

/-- Stealing at a tick, in ascending cluster number (R153). -/
def stealAll (s : State) : State :=
  (List.range 16).foldl (fun s p => (partClusters (getPart s p)).foldl (fun s c => stealFor s p c) s) s

/-! ### Wide gangs (R151) -/

/-- The clusters that a wide gang would reserve: enough for it in one domain instance, lowest first. -/
def wideClusters (s : State) (g : Gang) : List Nat :=
  match findLaunch s g.part g.launch with
  | none => []
  | some l =>
    let d := levelDomain l (barrierLevels l - 1)
    let cls := (partClusters (getPart s g.part)).filter fun c => placeOk s l g.idx c && (restCluster s g).all fun r => instanceOf d r = instanceOf d c
    let need := ceilDiv g.tasks.length 16
    let insts := (cls.map (instanceOf d)).eraseDups
    match insts.find? fun i => need ≤ (cls.filter fun c => instanceOf d c = i).length with
    | none => []
    | some i => (cls.filter fun c => instanceOf d c = i).take need

/-- The oldest wide gang of the lowest-numbered class reserves its clusters, where the partition has no reservation. -/
def reserveWide (s : State) (p : Nat) : State :=
  if !(getPart s p).reserved.isEmpty then s
  else
    let l := s.gangs.filter fun g => g.part = p && g.st = .wide
    let order := sortBy (fun a b => a.dcls < b.dcls || (a.dcls = b.dcls && (!b.front && a.front || (a.front = b.front && gangBefore a b)))) l
    match order with
    | [] => s
    | g :: _ =>
      let cs := wideClusters s g
      if cs.isEmpty then s
      else
        let s := notePlace (modPart s p fun x => { x with reserved := cs }) p g.launch g.idx (cs.headD 0)
        { s with gangs := s.gangs.map fun x => if x.id = g.id && x.st = .wide then { x with cluster := cs.headD 0 } else x }

/-- The wide gang that holds the partition's reservation. -/
def reserving (s : State) (p : Nat) : Option Gang := s.gangs.find? fun g => g.part = p && g.st = .wide && g.cluster < noCluster

/-- The least class that may not start in a cluster, by its reservation. -/
def reservedClass (s : State) (cl : Nat) : Nat :=
  match partOfIsland s (cl / 4) with
  | none => 4
  | some p =>
    if (getPart s p).reserved.contains cl then ((reserving s p).map (·.dcls)).getD 4 else 4

/-! ### The head of a cluster's queues (R150, R159) -/

/-- The gang that a cluster's dispatcher looks at. -/
def headGang (s : State) (cl : Nat) : Option Gang :=
  (List.range 4).findSome? fun c => (classQueue s cl c).head?

/-- It fits and may start. -/
def canStart (s : State) (cl : Nat) (g : Gang) : Bool :=
  g.tasks.length ≤ (freeCores s cl).length && g.dcls < reservedClass s cl && (partClusters (getPart s g.part)).contains cl

/-- Resident gangs of a cluster that a class-0 gang may pre-empt, in the order of choice (R159). -/
def victims (s : State) (cls : List Nat) : List Gang :=
  let res := s.gangs.filter fun g => g.st = .resident && 2 ≤ g.cls && (gangCores s g.id).any fun c => cls.contains (clusterOf c)
  sortBy (fun a b => b.cls < a.cls || (a.cls = b.cls && b.started.getD 0 < a.started.getD 0)) res

/-- Cores of the clusters that are free or being freed. -/
def comingFree (s : State) (cls : List Nat) : Nat :=
  (cls.flatMap (freeCores s)).length
    + (((s.gangs.filter fun g => match g.st with | .stopping _ => true | _ => false).flatMap fun g => gangCores s g.id).filter
        fun c => cls.contains (clusterOf c)).length

/-- As many victims as are needed, none where all together do not suffice. -/
def pickVictims (s : State) (cls : List Nat) (need : Nat) : List Gang → Nat → List Gang → List Gang
  | [], have_, acc => if need ≤ have_ then acc else []
  | g :: gs, have_, acc =>
    if need ≤ have_ then acc
    else pickVictims s cls need gs (have_ + ((gangCores s g.id).filter fun c => cls.contains (clusterOf c)).length) (acc ++ [g])

/-- A gang stops at its stopping points (R158 step 1). -/
def stopGang (s : State) (id reason : Nat) : State :=
  { s with gangs := s.gangs.map fun g => if g.id = id && g.st = .resident then { g with st := .stopping reason } else g }

/-- Reasons of R311. -/
def reasonPreempt : Nat := 0
def reasonPark : Nat := 1
def reasonTrap : Nat := 2
def reasonResize : Nat := 3
def reasonWorld : Nat := 4
def reasonDebug : Nat := 5
/-- A YIELD: the gang goes to the tail (12_isa_scalar R351). -/
def reasonYield : Nat := 16

/-- The victims of a class-0 gang that needs `need` cores of the clusters stop (R159). -/
def preemptFor (s : State) (cls : List Nat) (need : Nat) : State :=
  if need ≤ comingFree s cls then s
  else (pickVictims s cls need (victims s cls) (comingFree s cls) []).foldl (fun s g => stopGang s g.id reasonPreempt) s

/-! ### Starting tasks (06 R484, 03 R99) -/

/-- The cycles of the clear of R99. -/
def clearCycles : Nat := 1100

/-- The tile slots of another world cleared and owned by the incoming one (R99). -/
def clearSlots (w : BitVec 6) (k : Core) : Core :=
  (List.range 128).foldl (fun k i =>
    if (getSlot k i).owner = w then k
    else
      let k := { k with sp := k.sp.filter fun c => c.1 / 4096 ≠ i }
      modSlot i (fun _ => { TileSlot.zero with owner := w }) k) k

/-- The clear of R99. -/
def worldClear (w : BitVec 6) (k : Core) : Core :=
  clearSlots w
    { k with g := Core.reset.g, b := Core.reset.b, e := Core.reset.e, m := Core.reset.m, v := Core.reset.v, t := Core.reset.t, a := Core.reset.a,
             ah := Core.reset.ah, p := Core.reset.p, q := Core.reset.q, slotMem := [], flags := 0, flagsPrev := 0, readCache := [],
             constCache := [], engQ := Core.reset.engQ }

/-- The counter bank of a cluster is released by a world switch of the last core that runs its world (07 R230). -/
def releaseBank (s : State) (c : CoreNo) : State :=
  let u := getCluster s (clusterOf c)
  match u.world with
  | none => s
  | some w =>
    if (coreNos s).any fun d => d ≠ c && clusterOf d = clusterOf c && (getCore s d).lastWorld = some w then s
    else if (getCore s c).lastWorld ≠ some w then s
    else putCluster s { u with world := none, counters := [] }

/-- The level index registers of a task (R141). -/
def levelIndex (l : Launch) (t i : Nat) : Dword :=
  if launchLevels l ≤ i then 0
  else
    let inner := if i = 0 then 1 else gangSize l (i - 1)
    let idx := if inner = 0 || levelCount l i = 0 then 0 else t / inner % levelCount l i
    BitVec.ofNat 64 (levelCount l i * 65536 + idx)

/-- The size of a context save area (R195). -/
def saveSize : Nat := 0x110000

/-- Scalar system state at a first start (R484). -/
def startSys (l : Launch) (t : Nat) : SysRegs :=
  { SysRegs.reset with world := launchWorld l, taskId := l.num ++ BitVec.ofNat 32 t, levelIdx := Vector.ofFn fun i => levelIndex l t i.val,
                       wdogLimit := BitVec.ofNat 32 (launchField l 8 4),
                       trapCut := BitVec.ofNat 64 (launchSave l + t * saveSize + 0x100) }

/-- Registers and sequencers at a first start (R484). -/
def startCore (l : Launch) (r : TaskRef) (now : Cycle) (k : Core) : Core :=
  let w := launchWorld l
  let switch := k.lastWorld ≠ some w
  let k := if switch then worldClear w k else k
  let entry (o : Nat) : Dword := BitVec.ofNat 64 (launchField l o 8)
  let other := k.lastLaunch ≠ some (r.part, r.launch)
  { k with
    g := (Vector.replicate 64 (0 : Dword)).set 1 (entry 0x30), gReady := Core.reset.gReady, b := Core.reset.b, e := Core.reset.e,
    m := Core.firstMasks, ah := Core.reset.ah, a := Core.reset.a,
    v := k.v.map (fun x => { x with rows := 1, cols := 2048 }), p := Core.reset.p, q := Core.reset.q, flags := 0, flagsPrev := 0,
    sys := startSys l r.task.toNat, sEntry := entry 0x10, pc := entry 0x10, sReady := now + (if switch then clearCycles else 1), xfer := none,
    phase := 0, colL := { ColSeq.empty with entry := entry 0x18 }, colC := { ColSeq.empty with entry := entry 0x20 },
    colW := { ColSeq.empty with entry := entry 0x28 }, groups := [], openGrp := none, hold := .none, deferred := [], missed := [], reissue := [],
    engQ := Core.reset.engQ, engSeq := Core.reset.engSeq, task := some r, lastWorld := some w, lastLaunch := some (r.part, r.launch),
    arrived := [], dbgGang := false, stopped := false, relArmed := false,
    readCache := if other then [] else k.readCache, constCache := if other then [] else k.constCache,
    tlb := k.tlb, race := { k.race with v := l.base, p := [], stamps := [] } }

/-- A task's first start on a core; the start is a release point (09 R280, R284). -/
def firstStart (s : State) (c : CoreNo) (l : Launch) (r : TaskRef) : State :=
  let s := if (getCore s c).lastWorld ≠ some (launchWorld l) then releaseBank s c else s
  releasePoint (putCore s c (startCore l r (cycOf s c) (getCore s c))) c 2 .other []

/-! ### Contexts (R158, R160, R310, R311) -/

/-- Scalar system state, in words of 8 bytes (log 14). -/
def systemImage (w : SysRegs) : List Byte :=
  ([w.rmode.toNat, w.trapen.toNat, w.sticky.toNat, w.srSeed.toNat, w.srState.toNat, w.srOrdinal.toNat, w.gateIdle.toNat, w.ringLen.toNat,
    w.tslotSel.toNat, w.trapCause.toNat, w.trapPc.toNat, w.trapAddr.toNat, w.trapCut.toNat, w.trapVec.toNat, w.dbgEn.toNat, w.world.toNat,
    w.taskId.toNat, w.wdogLimit.toNat, w.wdogCount.toNat] ++ w.levelIdx.toList.map (·.toNat)).flatMap (leBytes 8)

/-- A queue register in 160 bytes: its payloads, a byte for each entry (valid, token, poison), and how many entries it holds (log 14). -/
def queueImage (q : Queue) : List Byte :=
  padTo 128 0 (q.entries.flatMap fun e => leBytes 8 e.payload.toNat)
    ++ padTo 16 0 (q.entries.map fun e => BitVec.ofNat 8 (1 + 2 * e.token.toNat + 4 * e.poison.toNat)) ++ leBytes 16 q.entries.length

/-- A tile slot in 16 bytes: tag, pending producers, owner, failed mark, and the poison bits of its lines (log 14). -/
def slotImage (t : TileSlot) : List Byte :=
  leBytes 2 t.tag.toNat ++ leBytes 1 t.pend.toNat ++ leBytes 1 t.owner.toNat ++ leBytes 4 t.failed.isSome.toNat ++ leBytes 8 t.poison.toNat

/-- Metadata and side context of an accumulator in 64 bytes (log 14). -/
def accImage (a : Acc) : List Byte :=
  let x := a.ctx
  leBytes 1 a.tag.toNat ++ leBytes 1 a.poison.toNat ++ leBytes 1 a.window.toNat ++ leBytes 1 x.isOpen.toNat ++ leBytes 2 x.layer.toNat
    ++ leBytes 2 x.proj.toNat ++ leBytes 4 x.blk.toNat ++ leBytes 4 x.cursor
    ++ leBytes 16 ((x.latched.toList.zipIdx.map fun v => if v.1.isSome then 2 ^ v.2 else 0).foldl (· + ·) 0)
    ++ x.latched.toList.flatMap fun v => leBytes 4 (v.getD 0).toNat

/-- Sequencer state: the program counters, the sequence numbers, each column's place, queue and running strip, and the unissued entries of the engine
queues, as far as the region holds them (log 14). -/
def sequencerImage (k : Core) : List Byte :=
  let strip (x : QStrip) : List Byte := leBytes 8 x.hdr.toNat ++ leBytes 4 x.len ++ leBytes 4 x.count ++ leBytes 8 x.grp
  let col (q : ColSeq) : List Byte :=
    leBytes 8 q.entry.toNat ++ leBytes 8 q.ordinal.toNat
      ++ (match q.run with
        | some r => leBytes 8 r.hdr.toNat ++ leBytes 4 r.body.length ++ leBytes 4 r.count ++ leBytes 4 r.rep ++ leBytes 4 r.idx
        | none => leBytes 24 0)
      ++ padTo 96 0 (q.queue.flatMap strip)
  (leBytes 8 k.sEntry.toNat ++ leBytes 8 k.pc.toNat ++ k.engSeq.toList.flatMap (fun x => leBytes 8 x.toNat) ++ col k.colL ++ col k.colC ++ col k.colW
    ++ (k.engQ.toList.zipIdx.flatMap fun q => q.1.flatMap fun e => leBytes 4 q.2 ++ leBytes 4 e.seq.toNat ++ leBytes 64 e.bits.toNat)).take 4096

/-- Every image of a register file laid out as 10_traps R310 gives it: offset and bytes. -/
def contextImage (s : State) (c : CoreNo) (k : Core) (r : TaskRef) (st reason : Nat) : List (Nat × List Byte) :=
  let w := k.sys
  let header := leBytes 2 1 ++ leBytes 1 st ++ leBytes 1 (w.world.toNat + (if w.trapCause.getLsbD 26 then 64 else 0)) ++ leBytes 4 r.task.toNat
    ++ leBytes 4 r.launch.toNat ++ leBytes 1 reason ++ leBytes 3 0 ++ leBytes 8 s.tick ++ leBytes 4 w.wdogCount.toNat ++ leBytes 4 0
    ++ padTo 16 0 ((s.maps.filter fun m => m.part = r.part && m.owner.launch = r.launch && m.owner.task = r.task).flatMap fun m =>
        leBytes 4 (m.num + m.gen.toNat * 4096))
    ++ leBytes 208 0
  let accs := k.a.toList
  [(0x0, header), (0x300, systemImage w), (0xA00, k.q.toList.flatMap queueImage), (0x1A00, k.slots.toList.flatMap slotImage), (0x2A00, sequencerImage k),
   (0x3B80, accs.flatMap accImage), (0x400, k.g.toList.flatMap fun x => leBytes 8 x.toNat), (0x600, k.b.toList.flatMap fun x => leBytes 8 x.toNat),
   (0x640, k.ah.toList.flatMap fun h => h.handles.toList.flatMap fun x => leBytes 4 x.toNat),
   (0x700, k.e.toList.flatMap fun e => leBytes 8 (e.addr.toNat + e.tag.toNat * 2 ^ 48) ++ leBytes 8 (e.stride.signExtend 64).toNat), (0x800, k.p.toList.flatMap fun p => leBytes 64 p.toNat),
   (0x1400, leBytes 512 k.flags.toNat), (0x1600, (List.range 1024).map fun i => countOf (vectorOf c k) i),
   (0x2200, k.m.toList.flatMap fun m => leBytes 256 m.toNat),
   (0x3A00, k.v.toList.flatMap fun v => leBytes 8 (v.tag.toNat + v.poison.toNat * 16 + v.rows * 256 + v.cols * 65536)),
   (0x3B00, k.t.toList.flatMap fun t => leBytes 8 (t.tag.toNat + t.poison.toNat * 16)),
   (0x4000, (List.range 4096).flatMap fun i => leBytes 8 ((assocGet k.slotMem i).getD 0).toNat),
   (0xC000, accs.flatMap fun a => (List.range 64).flatMap fun i =>
      leBytes 4 (a.m.toNat / 2 ^ (32 * i)) ++ leBytes 4 (a.l.toNat / 2 ^ (32 * i)) ++ leBytes 4 ((a.masked.getLsbD i).toNat + 2 * (a.sat.getLsbD i).toNat)),
   (0x10000, k.v.toList.flatMap fun v => leBytes 8192 v.data.toNat), (0x50000, k.t.toList.flatMap fun t => leBytes 8192 t.data.toNat),
   (0x70000, accs.flatMap fun a => leBytes 16384 a.sums.toNat), (0x80000, accs.flatMap fun a => leBytes 16384 a.side.toNat),
   (0x90000, cellRead k.sp 0 0x80000)]

/-- Bytes written by the device over several lines. -/
def devWriteAll (s : State) (w : BitVec 6) (va : Nat) (bs : List Byte) (who : Option TaskRef) : State :=
  (spanLines va bs.length).foldl (fun s x => devWrite s w x.2.1 ((bs.drop (x.2.1 - va)).take (x.2.2 - x.2.1)) neutral who) s

/-- A task's context saved: its image in the save area and the context itself (log 14). -/
def saveContext (s : State) (c : CoreNo) (reason : Nat) : State :=
  let k := getCore s c
  match k.task with
  | none => s
  | some r =>
    let st := match k.hold with
      | .supervisor _ => 2
      | _ => 1
    let s :=
      match findLaunch s r.part r.launch with
      | none => s
      | some l =>
        if launchSave l = 0 then s
        else (contextImage s c k r st reason).foldl (fun (s : State) (x : Nat × List Byte) => devWriteAll s k.sys.world (launchSave l + r.task.toNat * saveSize + x.1) x.2 none) s
    let ctx : Context := { task := r, st := st, reason := reason, core := { k with race := { k.race with v := vectorOf c k, p := [] } } }
    { s with contexts := s.contexts.filter (fun (x : Context) => !(x.task.part = r.part && x.task.launch = r.launch && x.task.task = r.task)) ++ [ctx] }

def findContext (s : State) (part : Nat) (launch task : BitVec 32) : Option Context :=
  s.contexts.find? fun x => x.task.part = part && x.task.launch = launch && x.task.task = task

/-- The column's timing re-bases at the resume (R160). -/
def rebase (r : Cycle) (q : ColSeq) : ColSeq := { q with run := q.run.map fun x => { x with next := r }, portBusy := 0, lastIssue := 0 }

/-- Presence of registers and the busy times of units do not outlive a save: everything issued has completed. -/
def settle (k : Core) : Core :=
  { k with gReady := Core.reset.gReady,
           a := k.a.map (fun x => { x with stepDone := 0, writeDone := 0, ctx := { x.ctx with closing := 0 } }),
           q := k.q.map (fun x => { x with freedAt := 0, freedN := 0, entries := x.entries.map fun e => { e with stamp := 0 } }) }

/-- Bytes of a world's space as the device reads them, none where a line is unmapped or poisoned. -/
def devReadAll (s : State) (w : BitVec 6) (va n : Nat) : Option (List Byte) :=
  (spanLines va n).foldr (fun x acc => acc.bind fun l => (devRead s w x.2.1 (x.2.2 - x.2.1)).map fun b => b ++ l) (some [])

/-- Elements of `n` bytes of a region. -/
def words (n : Nat) (b : List Byte) (i : Nat) : Nat := leNat ((b.drop (n * i)).take n)

/-- Slot memory from its region: the entries that are not 0. -/
def slotMemIn (b : List Byte) : List (Nat × Dword) :=
  ((List.range 4096).map fun i => (i, BitVec.ofNat 64 (words 8 b i))).filter fun x => x.2 ≠ 0

/-- The row state of accumulator `n` from its region. -/
def rowsIn (b : List Byte) (n : Nat) (a : Acc) : Acc :=
  let row (i f : Nat) : Nat := words 4 b (192 * n + 3 * i + f)
  let rows (f w : Nat) : Nat := ((List.range 64).map fun i => row i f % 2 ^ w * 2 ^ (w * i)).foldl (· + ·) 0
  let bit (f : Nat) : Nat := ((List.range 64).map fun i => row i 2 / f % 2 * 2 ^ i).foldl (· + ·) 0
  { a with m := BitVec.ofNat 2048 (rows 0 32), l := BitVec.ofNat 2048 (rows 1 32), masked := BitVec.ofNat 64 (bit 1), sat := BitVec.ofNat 64 (bit 2) }

/-- The regions of a context save area whose layout R310 gives: offset, size, and what a restore takes from each. -/
def contextRegions : List (Nat × Nat × (List Byte → Core → Core)) :=
  [(0x400, 512, fun b k => { k with g := Vector.ofFn fun i => if i.val = 0 then 0 else BitVec.ofNat 64 (words 8 b i.val) }),
   (0x600, 64, fun b k => { k with b := Vector.ofFn fun i => BitVec.ofNat 64 (words 8 b i.val) }),
   (0x640, 128, fun b k => { k with ah := Vector.ofFn fun i =>
      { k.ah[i.val] with handles := Vector.ofFn fun j => BitVec.ofNat 32 (words 4 b (8 * i.val + j.val)) } }),
   (0x700, 256, fun b k => { k with e := Vector.ofFn fun i =>
      { addr := BitVec.ofNat 48 (words 8 b (2 * i.val)), tag := BitVec.ofNat 16 (words 8 b (2 * i.val) / 2 ^ 48), stride := BitVec.ofNat 32 (words 8 b (2 * i.val + 1)) } }),
   (0x800, 512, fun b k => { k with p := Vector.ofFn fun i => BitVec.ofNat 512 (words 64 b i.val) }),
   (0x1400, 512, fun b k => { k with flags := BitVec.ofNat 4096 (leNat b) }),
   (0x1600, 1024, fun b k => { k with race := { k.race with v := (b.zipIdx.filter fun x => x.1 ≠ 0).map fun x => (x.2, x.1) } }),
   (0x2200, 2048, fun b k => { k with m := Vector.ofFn fun i => BitVec.ofNat 2048 (words 256 b i.val) }),
   (0x3A00, 256, fun b k => { k with v := Vector.ofFn fun i =>
      let x := words 8 b i.val
      { k.v[i.val] with tag := BitVec.ofNat 4 x, poison := x.testBit 4, rows := x / 256 % 256, cols := x / 65536 % 65536 } }),
   (0x3B00, 128, fun b k => { k with t := Vector.ofFn fun i =>
      { k.t[i.val] with tag := BitVec.ofNat 4 (words 8 b i.val), poison := (words 8 b i.val).testBit 4 } }),
   (0x4000, 32768, fun b k => { k with slotMem := slotMemIn b }),
   (0xC000, 3072, fun b k => { k with a := Vector.ofFn fun n => rowsIn b n.val k.a[n.val] }),
   (0x10000, 262144, fun b k => { k with v := Vector.ofFn fun i => { k.v[i.val] with data := BitVec.ofNat 65536 (words 8192 b i.val) } }),
   (0x50000, 131072, fun b k => { k with t := Vector.ofFn fun i => { k.t[i.val] with data := BitVec.ofNat 65536 (words 8192 b i.val) } }),
   (0x70000, 65536, fun b k => { k with a := Vector.ofFn fun i => { k.a[i.val] with sums := BitVec.ofNat 131072 (words 16384 b i.val) } }),
   (0x80000, 65536, fun b k => { k with a := Vector.ofFn fun i => { k.a[i.val] with side := BitVec.ofNat 131072 (words 16384 b i.val) } }),
   (0x90000, 0x80000, fun b k => { k with sp := (b.zipIdx.filter fun x => x.1 ≠ 0).map fun x => (x.2, x.1) })]

/-- A context as an area of its launch holds it: what stands in the regions of R310 that can be read goes before what the device keeps (log 14). -/
def readContext (s : State) (area : Launch → Nat) (x : Context) : Context :=
  match findLaunch s x.task.part x.task.launch with
  | none => x
  | some l =>
    if launchSave l = 0 then x
    else
      { x with core := contextRegions.foldl (fun k r =>
          match devReadAll s (launchWorld l) (area l + r.1) r.2.1 with
          | some b => r.2.2 b k
          | none => k) x.core }

/-- The context save area of a task (R195). -/
def saveArea (t : TaskRef) (l : Launch) : Nat := launchSave l + t.task.toNat * saveSize

/-- The words of a body in order; the first fetch that fails. -/
def fetchBody (s : State) : Nat → Dword → Except Failed (List Word)
  | 0, _ => .ok []
  | n + 1, a =>
    match fetchWord s a with
    | .error f => .error f
    | .ok w => (fetchBody s n (a + 4)).map fun l => w :: l

/-- A column's part of the strip store filled again from the code section: bodies that wait to start are loaded anew, and that of the running strip now
(06 R195). -/
def refillStrips (c : Col) (s : State) : State :=
  let q := getCol s.core c
  let q : ColSeq := { q with queue := q.queue.map fun (x : QStrip) => { x with body := none } }
  match q.run with
  | none => modCore (setCol c q) s
  | some r =>
    match fetchBody s r.body.length (r.hdr + 4) with
    | .ok l => modCore (setCol c { q with run := some { r with body := l } }) s
    | .error f =>
      let t : Trap := { cause := f.cause, source := colOrder c, pc := wordAddr s.core c, addr := f.addr, detail := f.detail }
      let n := cyc s
      modCore (fun k => { setCol c q k with deferred := k.deferred ++ [(n, t)] }) s

/-- The strip store of a core filled again. -/
def refillStore (s : State) (c : CoreNo) : State := focus ([Col.colL, .colC, .colW].foldl (fun s x => refillStrips x s) (focus s c)) s.coreId

/-- A saved context restored into a core (R160): caches invalid, columns re-based; a core of another world's last task is cleared first (03 R99); a trap
for the supervisor is delivered again, and a task that waited in the fault queue retries at its cut (R298, R308). The resume is a release point
(09 R284). -/
def restoreContext (s : State) (c : CoreNo) (x : Context) : State :=
  let switch := (getCore s c).lastWorld ≠ some x.core.sys.world
  let s := if switch then releaseBank s c else s
  let old := getCore s c
  let now := cycOf s c
  let r := now + (if switch then clearCycles else 1)
  let k := settle x.core
  let k := { k with
    task := some x.task, sReady := r, tlb := old.tlb, readCache := [], constCache := [], banks := old.banks, timed := old.timed,
    units := old.units, wdogSetLimit := old.wdogSetLimit, lastWorld := some x.core.sys.world, lastLaunch := some (x.task.part, x.task.launch),
    race := { old.race with v := x.core.race.v, p := [], stamps := [] }, recLines := [], fx := [], loads := [], stores := [], flagsPrev := k.flags,
    engQ := k.engQ.map fun (q : List QCmd) => q.map fun (e : QCmd) => { e with accepted := none, anchor := none, pushed := now, parked := false } }
  let shift (q : ColSeq) : ColSeq := { q with run := q.run.map fun y => { y with next := r + (y.next - k.cut) }, portBusy := 0, lastIssue := 0 }
  let held := { k with colL := shift k.colL, colC := shift k.colC, colW := shift k.colW, cut := r }
  let k :=
    match k.hold with
    | .none => { k with colL := rebase r k.colL, colC := rebase r k.colC, colW := rebase r k.colW }
    | .faultQueue _ | .walk .. | .reissue => { held with hold := .none, pc := k.cutPc, xfer := k.cutXfer, phase := k.cutPhase }
    | _ => held
  let s := { s with contexts := s.contexts.filter fun y => !(y.task.part = x.task.part && y.task.launch = x.task.launch && y.task.task = x.task.task) }
  pinAgain (focus (releasePoint (refillStore (putCore s c k) c) c 2 .other []) c)

/-! ### Ligature maps -/

/-- The maps of a task. -/
def mapsOf (t : TaskRef) (m : LigMap) : Bool := m.part = t.part && m.owner.launch = t.launch && m.owner.task = t.task

/-- The bytes of map memory of a unit, and of a map of `n` tokens. -/
def mapMemory : Nat := 4194304
def mapBytes (n : Nat) : Nat := 4 * n

/-- The maps in a unit's memory. -/
def unitMaps (s : State) (unit : Nat) : List LigMap := s.maps.filter fun m => m.unit = unit && m.saved.isNone

/-- First fit in ascending address: the place of a new map of `n` tokens. -/
def placeMap (s : State) (unit n : Nat) : Option Nat :=
  let l := (unitMaps s unit).map fun m => (m.offset, m.offset + mapBytes m.entries.length)
  let starts := sortBy (fun a b => a < b) (0 :: l.map (·.2))
  starts.find? fun a => a + mapBytes n ≤ mapMemory && l.all fun x => x.2 ≤ a || a + mapBytes n ≤ x.1

/-- A map's entry in its 4 bytes (07 R227). -/
def entryOut (e : Bool × Nat) : List Byte := leBytes 4 (e.2 + e.1.toNat * 2 ^ 31)

/-- The entries of a map in its bytes. -/
def entriesOf (n : Nat) (b : List Byte) : List (Bool × Nat) := (List.range n).map fun i => ((words 4 b i).testBit 31, words 4 b i % 65536)

/-- The bytes of an extension as the world may read them; none where the read faults or finds a poisoned line. -/
def readExtension (s : State) (w : BitVec 6) (va n : Nat) : Option (List Byte) :=
  match xlateSpan s w va n false with
  | .error _ => none
  | .ok ls =>
    if ls.all fun y => let l := readLine s y.2.2.2.2 y.2.2.2.1.keySlot; !l.poison && worldReads s w y.2.2.2.1 l then devReadAll s w va n else none

/-- One saved map reloaded into the unit of its new island, with the entries that the extension holds; a read of it that fails drops the map. None where
map memory does not fit it (07 R229). -/
def loadMap (s : State) (w : BitVec 6) (unit va : Nat) (x : LigMap) : Option State :=
  match readExtension s w va (mapBytes x.entries.length) with
  | none => some (freeMaps s fun m => m.part = x.part && m.num = x.num)
  | some b =>
    (placeMap s unit x.entries.length).map fun off =>
      { s with maps := s.maps.map fun m => if m.part = x.part && m.num = x.num then
          { m with saved := none, unit := unit, offset := off, entries := entriesOf x.entries.length b } else m }

/-- The saved maps of a task reloaded. -/
def loadMaps (s : State) (t : TaskRef) (c : CoreNo) : Option State :=
  match findLaunch s t.part t.launch with
  | none => some s
  | some l =>
    let mine := s.maps.filter fun m => mapsOf t m && m.saved.isSome
    let base := launchSave l + taskCount l * saveSize + t.task.toNat * 0x100000
    mine.foldl (fun (s : Option State) m => s.bind fun s => loadMap s (launchWorld l) (islandOf c) (base + m.saved.getD 0 * 0x40000) m) (some s)

/-! ### Starting a gang -/

/-- A task whose world is not live in its partition takes a world-violation trap before its first word (03 R93). -/
def checkWorld (p : Nat) (c : CoreNo) (s : State) : State :=
  let k := getCore s c
  if liveIn s k.sys.world p then s else putCore s c { k with deferred := k.deferred ++ [(cycOf s c, { cause := .world, pc := k.pc })] }

/-- The tasks of a gang placed on cores: each started or resumed; none where a resumed task's maps do not fit (07 R229). -/
def startTasks (s : State) (g : Gang) (l : Launch) (cores : List CoreNo) : Option State :=
  (g.tasks.zip cores).foldl (fun (s : Option State) p => s.bind fun s =>
    (match findContext s g.part g.launch p.1 with
      | some x =>
        let x := readContext s (saveArea x.task) x
        loadMaps (restoreContext s p.2 { x with task := { x.task with gang := g.id } }) x.task p.2
      | none => some (firstStart s p.2 l { part := g.part, launch := g.launch, task := p.1, gang := g.id })).map (checkWorld g.part p.2)) (some s)

/-- A checkpoint record for the checkpoint gangs of a launch (10_traps R313): the highest level whose BARRIER is 2. -/
def ckptLevel (l : Launch) : Option Nat := ((List.range (launchLevels l)).filter fun i => levelBarrier l i = 2).getLast?

/-- The interval before a gang's first checkpoint begins with its first start. -/
def openCkpts (s : State) (g : Gang) (l : Launch) : State :=
  match launchCkpt l, ckptLevel l with
  | true, some lv =>
    let n := gangSize l lv
    (g.tasks.map fun t => t.toNat / n).eraseDups.foldl (fun s i =>
      if s.ckpts.any fun k => k.part = g.part && k.launch = g.launch && k.idx = i then s
      else
        let k : Ckpt := { part := g.part, launch := g.launch, idx := i, size := n, ord := 0, rolls := 0, irrev := false, contexts := [], arrivals := [], log := [],
                          later := [], pins := [], seqs := [], maps := [] }
        { s with ckpts := s.ckpts ++ [k] }) s
  | _, _ => s

/-- A gang starts on the given cores. The entry of a task that was parked joins the rest of its gang where that is resident; an entry that starts before
the rest draws the rest to its cluster (R157). -/
def startGang (s : State) (g : Gang) (cores : List CoreNo) : Option State :=
  match findLaunch s g.part g.launch with
  | none => some { s with gangs := s.gangs.filter fun x => x.id ≠ g.id }
  | some l =>
    let home := s.gangs.find? fun x => x.id ≠ g.id && sameGang x g && x.st = .resident
    let id := (home.map (·.id)).getD g.id
    (startTasks (openCkpts s g l) { g with id := id } l cores).map fun s =>
      let cl := clusterOf (cores.headD 0)
      let rest := s.gangs.filter fun x => x.id ≠ g.id
      let s := { s with startCount := s.startCount + 1 }
      if home.isSome then { s with gangs := rest.map fun x => if x.id = id then { x with tasks := x.tasks ++ g.tasks } else x }
      else
        { s with gangs := rest.map (fun x => if sameGang x g && x.st = .queued then { x with cluster := cl } else x)
                            ++ [{ g with st := .resident, started := some s.startCount, front := false, cluster := cl }] }

/-! ### Ending tasks (R350 step 5, R143, R147, R148) -/

/-- A task ends: its core is freed, and it counts as arrived at every later barrier (R143). -/
def endTask (s : State) (c : CoreNo) : State :=
  match (getCore s c).task with
  | none => s
  | some t =>
    let s := freeMaps s (mapsOf t)
    let vec := vectorOf c (getCore s c)
    let k := freeCore (dropPins (getCore s c))
    let s := putCore s c { k with race := { k.race with stamps := [] } }
    let s := modLaunch s t.part t.launch fun l => { l with ended := l.ended + 1, vec := mergeCounts l.vec vec, lastCore := some c }
    let gangs := s.gangs.map fun g => if g.id = t.gang then { g with tasks := g.tasks.filter fun x => x ≠ t.task } else g
    { s with gangs := gangs.filter (fun g => !(g.tasks.isEmpty && g.id = t.gang)),
             arrivals := s.arrivals.filter fun a => !(a.part = t.part && a.launch = t.launch && a.task = t.task) }

/-- A launch is over: every task has ended, or it has failed and nothing of it is left (R147). -/
def launchOver (s : State) (p : Nat) (l : Launch) : Bool :=
  (l.st = .failed || (l.st = .running && gangTotal l ≤ l.nextGang))
    && s.gangs.all (fun g => !(g.part = p && g.launch = l.num)) && (getPart s p).parked.all fun x => x.task.launch ≠ l.num

/-- The status word (R148). -/
def statusWord (l : Launch) : Nat := l.status.toNat + l.failCause.toNat * 2 ^ 8 + l.failTask.toNat * 2 ^ 32

/-- A parked task queued again when a record is freed: the oldest, at the head of its class queue (R157). -/
def unpark (s : State) (p : Nat) : State :=
  let before (a b : Parked) : Bool :=
    a.tick < b.tick || (a.tick = b.tick && (a.task.launch.toNat < b.task.launch.toNat
      || (a.task.launch = b.task.launch && a.task.task.toNat < b.task.task.toNat)))
  match sortBy before (getPart s p).parked with
  | [] => s
  | x :: _ =>
    match findLaunch s p x.task.launch with
    | none => s
    | some l =>
      let wide := !isNarrow l
      let kept := (partClusters (getPart s p)).contains x.cluster
      let g : Gang := { id := s.nextGang, part := p, launch := x.task.launch, idx := gangOf s x.task, tasks := [x.task.task], cls := launchClass l,
                        dcls := x.dcls, enq := x.tick, since := s.tick, st := if wide then .wide else .queued,
                        cluster := if wide || !kept then noCluster else x.cluster, isWide := wide, started := x.started, front := true }
      let g := { g with cluster := if wide then noCluster else (restCluster s g).getD g.cluster }
      modPart { s with gangs := g :: s.gangs, nextGang := s.nextGang + 1 } p fun q => { q with parked := q.parked.filter fun y => y ≠ x }

/-- The increment of a launch's end object: a release at device scope, made for the core on which its last task ended, whose snapshot holds the vectors
of every task that ended (R148; log 93). -/
def endObject (s : State) (w : BitVec 6) (va : Nat) (l : Launch) : State :=
  match l.lastCore with
  | none => incObject s w va neutral none
  | some c =>
    let more := match devPa s w va with
      | some (p, pa) => releaseMore s (lineAt s pa p.keySlot).side
      | none => []
    let k := getCore s c
    let old := k.race.own
    let x : Snap := { key := old + 1, vec := putCount (mergeCounts l.vec more) c old, scope := 2, kind := .completion }
    let s := putCore s c { k with race := storeSnap { k.race with own := old + 1 } x }
    incObject s w va (some (BitVec.ofNat 10 c, old + 1)) none

/-- Completion of an OBJ_WAIT or a launch may follow an increment: launches sample their objects. -/
def afterIncrement (s : State) : State := sampleLaunches s

/-- A launch ends: the status word is written, then the end object incremented; the pool record is freed (R148). -/
def finishLaunch (s : State) (p : Nat) (l : Launch) : State :=
  let w := launchWorld l
  let sw := launchField l 0xE8 8
  let eo := launchField l 0xE0 8
  let s := if sw = 0 then s else devWrite s w sw (leBytes 8 (statusWord l)) neutral none
  let s := if eo = 0 then s else endObject s w eo l
  let s := freeMaps s fun m => m.part = p && m.owner.launch = l.num
  let s := modPart s p fun q => { q with launches := q.launches.filter fun x => x.num ≠ l.num }
  let s := { s with ckpts := s.ckpts.filter fun k => !(k.part = p && k.launch = l.num),
                    contexts := s.contexts.filter fun x => !(x.task.part = p && x.task.launch = l.num),
                    arrivals := s.arrivals.filter fun a => !(a.part = p && a.launch = l.num) }
  afterIncrement (unpark s p)

/-! ### Stopping and saving a gang (R158) -/

/-- The gang of the core is stopping. -/
def stopAsked (s : State) (c : CoreNo) : Bool :=
  match (getCore s c).task with
  | none => false
  | some t => s.gangs.any fun g => g.id = t.gang && match g.st with | .stopping _ => true | _ => false

/-- A column stands at the end of a repeat. -/
def colAtEnd (q : ColSeq) : Bool :=
  match q.run with
  | none => true
  | some r => r.idx = 0

/-- Nothing that a core has issued or started is still to complete. -/
def coreQuiet (s : State) (c : CoreNo) : Bool :=
  let k := getCore s c
  k.timed.isEmpty && k.loads.isEmpty && k.stores.isEmpty && k.fx.isEmpty && (k.phase ≠ awaiting)
    && k.a.toList.all (fun a => a.stepDone ≤ cycOf s c && a.writeDone ≤ cycOf s c) && k.unpins.isEmpty && s.remotes.all (fun r => r.core ≠ c)
    && s.running.all (fun r => r.core ≠ c || r.waiting)

/-- A core has reached its stopping points and everything issued has completed. -/
def stoppedAt (s : State) (c : CoreNo) : Bool :=
  let k := getCore s c
  let cols := colAtEnd k.colL && colAtEnd k.colC && colAtEnd k.colW
  (match k.hold with
    | .none | .parking => cols
    | .entering _ => false
    | _ => true) && coreQuiet s c

/-- Every core of a stopping gang has stopped; one whose task has failed stops when no command of its cores runs (R147). -/
def gangStopped (s : State) (id : Nat) : Bool :=
  if s.gangs.any fun g => g.id = id && g.st = .stopping reasonFail then (gangCores s id).all fun c => !commandRuns s c
  else (gangCores s id).all (stoppedAt s)

/-- Ligature maps at a pre-emption: saved or dropped by the launch's policy (R158 step 4, 07 R229). -/
def saveMaps (s : State) (t : TaskRef) : State :=
  match findLaunch s t.part t.launch with
  | none => s
  | some l =>
    if launchField l 5 1 / 2 % 2 = 0 then freeMaps s (mapsOf t)
    else
      let mine := s.maps.filter (mapsOf t)
      let base := launchSave l + taskCount l * saveSize + t.task.toNat * 0x100000
      mine.zipIdx.foldl (fun s q =>
        let bytes := q.1.entries.flatMap entryOut
        let va := base + q.2 * 0x40000
        let w := launchWorld l
        let may : Bool := match xlateSpan s w va bytes.length true with
          | .error _ => false
          | .ok ls => ls.all fun y => worldWrites s w y.2.2.2.1 (lineAt s y.2.2.2.2 y.2.2.2.1.keySlot)
        if !may then freeMaps s fun m => m.part = q.1.part && m.num = q.1.num
        else
          let s := devWriteAll s w va bytes none
          { s with maps := s.maps.map fun m => if m.part = q.1.part && m.num = q.1.num then { m with saved := some q.2 } else m }) s

/-- One core of a stopped gang saved and freed (R158 steps 3 to 5). -/
def saveCore (s : State) (c : CoreNo) (reason : Nat) : State :=
  let k := getCore s c
  match k.task with
  | none => s
  | some t =>
    let u := getCluster s (clusterOf c)
    let s := putCluster s { u with faultQ := u.faultQ.filter fun x => x.core ≠ c }
    let s := if k.hold = .none then putCore s c { k with cut := cycOf s c } else if k.hold = .parking then putCore s c { k with hold := .none, cut := cycOf s c } else s
    let s := saveMaps (saveContext s c (if reason = reasonYield then reasonPreempt else reason)) t
    let k := getCore s c
    putCore s c { freeCore k with race := { k.race with stamps := [] } }

/-- A stopped gang saved whole and queued again: at the head of its class, or at the tail after a YIELD (R158, R160, 12 R351). -/
def saveGang (s : State) (g : Gang) (reason : Nat) : State :=
  let s := (gangCores s g.id).foldl (fun s c => saveCore s c reason) s
  let yield_ := reason = reasonYield
  let h := { g with st := if g.isWide then GangSt.wide else .queued, since := s.tick, enq := if yield_ then s.tick else g.enq, front := !yield_,
                    cluster := if g.isWide then noCluster else g.cluster }
  let rest := s.gangs.filter fun x => !(x.id = g.id && x.st = g.st)
  { s with gangs := if yield_ then rest ++ [h] else h :: rest }

/-! ### Barriers (R142, R143) -/

/-- The number of a task's gang at a level. -/
def gangAt (l : Launch) (lv : Nat) (t : BitVec 32) : Nat := if gangSize l lv = 0 then 0 else t.toNat / gangSize l lv

/-- The tasks of a level gang that have not ended: those of its dispatch gang, resident, queued or parked. -/
def liveTasks (s : State) (p : Nat) (l : Launch) (lv no : Nat) : List (BitVec 32) :=
  let a := (s.gangs.filter fun g => g.part = p && g.launch = l.num).flatMap (·.tasks)
  let b := (getPart s p).parked.filterMap fun x => if x.task.launch = l.num then some x.task.task else none
  (a ++ b).filter fun t => gangAt l lv t = no

/-- The engine commands that a task pushed before its arrival have ended (R142). -/
def pushesDone (s : State) (p : Nat) (launch task : BitVec 32) (seqs : List Nat) : Bool :=
  let mine (t : TaskRef) : Bool := t.part = p && t.launch = launch && t.task = task
  let queues := (coreNos s).filterMap (fun c => let k := getCore s c; if (k.task.map mine) = some true then some k else none)
    ++ s.contexts.filterMap fun x => if mine x.task then some x.core else none
  queues.all (fun k => (List.range 10).all fun i => (k.engQ.toList.getD i []).all fun e => seqs.getD i 0 ≤ e.seq.toNat)
    && s.running.all fun r => !mine r.task || seqs.getD (engineIndex r.eng) 0 ≤ r.seq.toNat

/-- The arrivals of a level gang that have not completed. -/
def openArrivals (s : State) (p : Nat) (l : Launch) (lv no : Nat) : List Arrival :=
  s.arrivals.filter fun a => a.part = p && a.launch = l.num && a.level = lv && !a.complete && gangAt l lv a.task = no

/-- The barrier of a level gang may complete: every task has arrived or ended, the commands have ended, and the time has come (R142, R366). -/
def barrierReady (s : State) (p : Nat) (l : Launch) (lv no : Nat) : Bool :=
  let as := openArrivals s p l lv no
  !as.isEmpty && (liveTasks s p l lv no).all (fun t => as.any fun a => a.task = t)
    && as.all fun a => a.ready ≤ s.now && pushesDone s p l.num a.task a.seqs

/-- The vectors of the engine commands that an arrival joins: those that its task pushed before, and that are done (09 R281). -/
def joinedBy (s : State) (a : Arrival) : Counts :=
  match (coreNos s).find? fun c => (getCore s c).task.any fun t => t.part = a.part && t.launch = a.launch && t.task = a.task with
  | none => []
  | some c =>
    ((getCore s c).race.stamps.filter fun e => e.done && e.seq.toNat < a.seqs.getD (engineIndex e.eng) 0).foldl (fun v e =>
      mergeCounts v (((namedSnap s c e.stamp).map (·.vec)).getD [])) []

/-- The cores of a partition that run a task of a level gang. -/
def gangCoresAt (s : State) (p : Nat) (l : Launch) (lv no : Nat) : List CoreNo :=
  (coreNos s).filter fun c => (getCore s c).task.any fun u => u.part = p && u.launch = l.num && gangAt l lv u.task = no

/-- The re-base of a partition-wide MEET: the own count of each core of the partition that runs no task of the gang (09 R284). -/
def rebaseCounts (s : State) (p : Nat) (l : Launch) (lv no : Nat) : List (Nat × BitVec 8) :=
  if levelDomain l lv ≠ 3 then []
  else
    let mine := gangCoresAt s p l lv no
    (((partIslands (getPart s p)).flatMap fun n => (List.range 64).map (64 * n + ·)).filter fun w => !mine.contains w).map fun w =>
      (w, (getCore s w).race.own)

/-- Every arrival of the gang completes with the vectors of all tasks and of the commands joined merged (09 R281), and with the counts that the MEET of
a partition-wide level sets (09 R284). -/
def completeBarrier (s : State) (p : Nat) (l : Launch) (lv no : Nat) : State :=
  let vec := (openArrivals s p l lv no).foldl (fun v a => mergeCounts (mergeCounts v a.vec) (joinedBy s a)) []
  let base := rebaseCounts s p l lv no
  { s with arrivals := s.arrivals.map fun a =>
      if a.part = p && a.launch = l.num && a.level = lv && !a.complete && gangAt l lv a.task = no then { a with complete := true, vec := vec, rebase := base }
      else a }

end Sys2Proof.Machine
end

