-- ==== Sys2Proof/Machine/Calendar.lean ====
section
/-! DEFINITION. The channel calendars: binding of timed requests to slots, missed and void slots, delivery and acceptance (02_memory_tiers R47 to R58). -/

namespace Sys2Proof.Machine

/-- The calendar slots that a core owns on a channel (R49). -/
def ownedSlots (s : State) (c : CoreNo) (ch : Nat) : List Nat :=
  ((assocGet s.calMaps c).getD []).filterMap fun e => if e.2 = ch then some e.1 else none

/-- The first start, at cycle `y` or later, of slot `n`. -/
def slotStart (n y : Nat) : Nat := y + (4 * n + 1024 - y % 1024) % 1024

/-- The first owned slot on the channel whose start is `y` or later (R52). -/
def firstSlot (s : State) (c : CoreNo) (ch y : Nat) : Option Nat :=
  (ownedSlots s c ch).foldl (fun b n =>
    let t := slotStart n y
    match b with
    | none => some t
    | some u => if t < u then some t else some u) none

/-- The starts of the slots that `n` requests bind, from cycle `y` on (R52). -/
def bindSlots (s : State) (c : CoreNo) (ch : Nat) : Nat → Nat → Option (List Nat)
  | 0, _ => some []
  | n + 1, y =>
    match firstSlot s c ch y with
    | none => none
    | some t => (bindSlots s c ch n (t + 1)).map fun l => t :: l

/-- The requests that the calendar interface of a core counts (R54): bound, or moved, and not yet at their slot's start. -/
def counted (s : State) (k : Core) : Nat := (k.timed.filter fun t => s.now < t.start && t.sample.isNone).length

/-- The interface holds 16. -/
def interfaceSize : Nat := 16

/-- The requests of a timed instruction, with those that find the interface full marked to miss their slots (R54). -/
def bindRequests (s : State) (t : Timed) (starts : List Nat) : List Timed :=
  let full := counted s s.core
  starts.zipIdx.map fun x =>
    { t with start := x.1, late := interfaceSize ≤ full + x.2, pa := t.pa + 512 * x.2, va := t.va + 512 * x.2, off := t.off + 512 * x.2,
             base := t.off, total := starts.length, last := decide (x.2 + 1 = starts.length) }

/-- The request delay to island 23 (R52). -/
def requestPath : Nat := 16

/-- Slot start to the last byte of a read, and to the acceptance of a write (R53). -/
def readLatency : Nat := 320
def acceptLatency : Nat := 96


/-- The page is being refetched: timed reads of it are delivered as in a void slot (04 R131). -/
def refetchingPage (s : State) (pa : Nat) : Bool := s.prefixes.any fun p => p.pa = pageOf pa && p.refetching

/-- The bound slot of a request starts in this cycle. -/
def slotBegins (s : State) (t : Timed) : Bool := !t.late && t.start = s.now && t.sample.isNone

/-- What a timed read of core `c` finds at its slot start (R53). Where its key is not in the cluster's cache, it is delivered later by the time that the
key takes (03 R98). -/
def readSlot (s : State) (c : CoreNo) (t : Timed) : Timed :=
  let lines := (List.range 8).map fun i => lineAt s (t.pa + 64 * i) t.page.keySlot
  { t with isVoid := t.isVoid || inVoid s t.channel t.start || refetchingPage s t.pa,
           sample := some (BitVec.ofNat 4096 (leNat (lines.flatMap (·.bytes)))),
           sides := lines.map fun l => if l.unwritten then none else some { l.side with poison := l.poison },
           start := t.start + keyWait s c t.page.keySlot }

/-- A request at its slot start: one to a page that is being switched misses its slot (R66), a read is read, and a write may fall into a void slot. -/
def beginSlot (s : State) (c : CoreNo) (t : Timed) : Timed :=
  if !slotBegins s t then t
  else if switching s t.pa then { t with late := true }
  else if t.isWrite then { t with isVoid := t.isVoid || inVoid s t.channel t.start }
  else readSlot s c t

/-- Every request of core `c` whose slot starts in this cycle. -/
def sampleCore (s : State) (c : CoreNo) (k : Core) : Core :=
  if k.timed.isEmpty then k else { k with timed := k.timed.map (beginSlot s c) }

/-- The keys that those requests use (03 R98). -/
def sampleKeys (s t : State) : State :=
  (coreNos s).foldl (fun t c => (getCore s c).timed.foldl (fun t x =>
    if x.page.keySlot ≠ 0 && slotBegins s x then touchKey c x.page.keySlot t else t) t) t

/-! ### Donated slots (R55; 01_package R28) -/

/-- The partition whose core owns a slot of a channel (R49). -/
def slotOwner (s : State) (ch n : Nat) : Option Nat := (s.calMaps.find? fun m => m.2.contains (n, ch)).bind fun m => partOfCore s m.1

/-- The LLC slice of a channel (R40). -/
def channelSlice (h : Nat) : Nat := 32 * (h / 64) + h % 32

/-- The command is one of an attention unit that reads in the slice of the channel; of a copy engine. -/
def attnReads (p h : Nat) (r : RunCmd) : Bool := r.eng = 0x10 && r.task.part = p && !r.pending && r.parked.isNone && r.blocks.contains (channelSlice h)
def copyRuns (p : Nat) (r : RunCmd) : Bool := (r.eng < 2 || r.eng = 0x08) && r.task.part = p && r.parked.isNone

/-- What a donated slot serves, in the order of priority; traffic of another partition never. While the governor withholds donated slots, nothing. -/
def donationUse (s : State) (ch n : Nat) : Option DonUse :=
  if s.withhold then none
  else
    match slotOwner s ch n with
    | none => none
    | some p =>
      match s.running.find? (attnReads p ch) with
      | some r => some (.attention r.task r.seq)
      | none =>
        match s.running.find? (copyRuns p) with
        | some r => some (.copy r.task r.eng r.seq)
        | none => (s.migrations.find? fun m => m.task.part = p && m.step = 3).map fun m => .migration m.src

/-- The next donated slot that serves a migration; what finds none uses the service lane. -/
def migrationSlot (s : State) (src : Nat) : Option Cycle :=
  (s.donated.find? fun d => s.now < d.start && d.use = some (.migration src)).map (·.start)

/-- A missed request moves, with every later request of its instruction, to the same slot of the next rotation (R54). -/
def missSlot (k : Core) (i : Nat) : Core :=
  match k.timed[i]? with
  | none => k
  | some t =>
    let moved := k.timed.map fun x =>
      if x.instr = t.instr && x.isWrite = t.isWrite && t.off ≤ x.off then { x with start := x.start + 1024, late := false } else x
    { k with timed := moved }

/-- The record of a tagged producer for the reissue list. -/
def reissueOf (t : Timed) : Option Reissue :=
  t.tagged.map fun tag => { word := t.word, slot := t.slot, tag := tag, pa := t.pa - (t.off - t.base), va := t.va - (t.off - t.base), page := t.page, n := t.total, off := t.base }

/-- The producer joins the list of those void or missed. -/
def noteMissed (k : Core) (t : Timed) : Core :=
  match reissueOf t with
  | none => k
  | some r => if k.missed.any (fun x => x.word = r.word && x.slot = r.slot && x.tag = r.tag) then k else { k with missed := k.missed ++ [r] }

/-- The checks of a line delivered by a timed read (15 R414): world, then race, with the core's vector at delivery. -/
def timedLineFail (s : State) (t : Timed) (i : Nat) : Option Failed :=
  let pa := t.pa + 64 * i
  let side := (t.sides[i]?).getD none
  let d := side.getD (Side.neutral (pageWorld s pa) 0)
  let ag := { taskAgent s with world := t.world }
  let l : LineView := { bytes := [], side := d, poison := false, unwritten := side.isNone }
  if !worldReads s t.world t.page l then some (failAt .world (t.va + 64 * i))
  else if raceChecked s pa && raceWith s ag d then some { failAt .race (t.va + 64 * i) with detail := raceDetail ag d }
  else none

/-- A void delivery: the producer joins the list for REISSUE, and the later requests of its instruction keep it (R56; log 22). -/
def noteVoid (t : Timed) (k : Core) : Core :=
  let k := noteMissed k t
  { k with timed := k.timed.map fun x => if x.instr = t.instr && !x.isWrite then { x with voided := true } else x }

/-- A request that fails a check marks the later requests of its instruction, so that its slot stays failed (15 R414). -/
def noteFaulty (t : Timed) (k : Core) : Core :=
  { k with timed := k.timed.map fun x => if x.instr = t.instr && !x.isWrite then { x with faulty := true } else x }

/-- The bytes of a request posted to its place in the slot. -/
def landBytes (t : Timed) (data : List Byte) (s : State) : State :=
  (List.range 8).foldl (fun s i =>
    let p := !t.isVoid && ((t.sides[i]?).getD none).any (·.poison)
    post (cyc s) (colOrder .colL) (.localWrite (t.slot * 4096 + t.off + 64 * i) ((data.drop (64 * i)).take 64) p) s) s

/-- The bytes, or the mark of a failed check, of one request (R53, R56; 09 R282). -/
def landRequest (t : Timed) (s : State) : State :=
  if t.isVoid then post (cyc s) (colOrder .colL) (.slotVoid t.slot t.issued) (landBytes t (List.replicate 512 0) (modCore (noteVoid t) s))
  else
    match (List.range 8).findSome? fun i => timedLineFail s t i with
    | some f => post (cyc s) (colOrder .colL) (.slotFail t.slot f) (modCore (noteFaulty t) s)
    | none =>
      let s := (List.range 8).foldl (fun s i => if ((t.sides[i]?).getD none).any (·.poison) then notePoison s (t.pa + 64 * i) s.coreId else s) s
      let s := landBytes t (leBytes 512 (t.sample.getD 0).toNat) s
      if t.last && !t.faulty && t.total = 8 then post (cyc s) (colOrder .colL) (.slotWhole t.slot) s else s

/-- A timed read delivered; its last request writes the tag and ends the producer, with the void tag where any of its deliveries was void (R53, R56,
R57; 06 R185). The core in focus owns the request. -/
def deliver (t : Timed) (s : State) : State :=
  let s := landRequest t s
  match t.tagged with
  | some tag => if t.last then post (cyc s) (colOrder .colL) (.slotLand t.slot (if t.isVoid || t.voided then 0xFFFF else tag) t.issued) s else s
  | none => s

/-- A timed write is accepted and performed line by line (R53, 15 R414, R424): a line that fails its checks is not written, and the first failure is
answered; a copy in the core's read cache is updated (06 R189). -/
def acceptWrite (t : Timed) (s : State) : Option Failed × State :=
  (List.range 8).foldl (fun (acc : Option Failed × State) i =>
    let (fail, s) := acc
    let pa := t.pa + 64 * i
    let ag := { taskAgent s with world := t.world }
    let va := t.va + 64 * i
    match checkWrite s ag t.page pa va with
    | some f => (fail.orElse fun _ => some f, s)
    | none =>
      let bytes := (List.range 64).map fun j => (j, BitVec.ofNat 8 (t.data.toNat / 2 ^ (8 * (64 * i + j))))
      let poison := match (t.sides[i]?).getD none with
        | some d => d.poison
        | none => false
      let s := writeLine s pa bytes t.world (some (BitVec.ofNat 10 s.coreId, t.stamp)) poison t.page.keySlot s.core.task
      (fail, modCore (fun k => { k with readCache := cacheStore k.readCache va bytes (assocGet s.side pa) }) s)) (none, s)

end Sys2Proof.Machine
end

