-- ==== Sys2Proof/Machine/Number.lean ====
section
/-! DEFINITION. Numbers: the extended reals of 08_formats R269, the formats of R233 to R239, rounding (R240, R241, R246), exact sums (R251), and the
shared-exponent blocks of R249 and R250. -/

namespace Sys2Proof.Machine

/-! ### Extended reals (R269) -/

/-- A real whose value is (−1)^neg · m · 2^e, with signed zeros, or an infinity, or NaN. Every value that a format holds is one of these. -/
inductive XReal where
  | nan
  | inf (neg : Bool)
  | fin (neg : Bool) (m : Nat) (e : Int)
  deriving DecidableEq, Repr

def XReal.zero : XReal := .fin false 0 0

def XReal.ofInt (x : Int) : XReal := .fin (decide (x < 0)) x.natAbs 0

/-- A signed mantissa at an exponent; a zero is +0. -/
def XReal.ofScaled (x e : Int) : XReal := .fin (decide (x < 0)) x.natAbs e

def XReal.neg : XReal → XReal
  | .nan => .nan
  | .inf s => .inf (!s)
  | .fin s m e => .fin (!s) m e

def XReal.abs : XReal → XReal
  | .nan => .nan
  | .inf _ => .inf false
  | .fin _ m e => .fin false m e

def XReal.isNan : XReal → Bool
  | .nan => true
  | _ => false

def XReal.isInf : XReal → Bool
  | .inf _ => true
  | _ => false

def XReal.isZero : XReal → Bool
  | .fin _ 0 _ => true
  | _ => false

def XReal.signBit : XReal → Bool
  | .nan => false
  | .inf s => s
  | .fin s _ _ => s

/-- x · 2^k, exactly. -/
def XReal.scale (x : XReal) (k : Int) : XReal :=
  match x with
  | .fin s m e => .fin s m (e + k)
  | y => y

/-- A natural number shifted by an integer: m · 2^k, rounded down. -/
def shiftNat (m : Nat) (k : Int) : Nat := if 0 ≤ k then m * 2 ^ k.toNat else m / 2 ^ (-k).toNat

/-- ⌊log₂(n / d · 2^e)⌋ for n, d > 0. -/
def floorLog (n d : Nat) (e : Int) : Int :=
  let l : Int := (n.log2 : Int) - (d.log2 : Int)
  let below := if 0 ≤ l then n < d * 2 ^ l.toNat else n * 2 ^ (-l).toNat < d
  (if below then l - 1 else l) + e

/-- m₁ · 2^e₁ compared with m₂ · 2^e₂: −1, 0 or 1. -/
def cmpMag (m1 : Nat) (e1 : Int) (m2 : Nat) (e2 : Int) : Int :=
  let lo := min e1 e2
  let a := m1 * 2 ^ (e1 - lo).toNat
  let b := m2 * 2 ^ (e2 - lo).toNat
  if a < b then -1 else if a = b then 0 else 1

/-- Two extended reals compared, none where one is NaN; −0 equals +0. -/
def XReal.cmp (x y : XReal) : Option Int :=
  match x, y with
  | .nan, _ => none
  | _, .nan => none
  | .inf a, .inf b => some (if a = b then 0 else if a then -1 else 1)
  | .inf a, .fin _ _ _ => some (if a then -1 else 1)
  | .fin _ _ _, .inf b => some (if b then 1 else -1)
  | .fin a m e, .fin b n f =>
    if m = 0 && n = 0 then some 0
    else if m = 0 then some (if b then 1 else -1)
    else if n = 0 then some (if a then -1 else 1)
    else if a ≠ b then some (if a then -1 else 1)
    else some (if a then -(cmpMag m e n f) else cmpMag m e n f)

/-! ### Products and exact sums (R251) -/

/-- A product, and whether it is 0 · ∞. -/
def xmulNv (x y : XReal) : XReal × Bool :=
  match x, y with
  | .nan, _ => (.nan, false)
  | _, .nan => (.nan, false)
  | .inf a, .inf b => (.inf (a != b), false)
  | .inf a, .fin b m _ => if m = 0 then (.nan, true) else (.inf (a != b), false)
  | .fin a m _, .inf b => if m = 0 then (.nan, true) else (.inf (a != b), false)
  | .fin a m e, .fin b n f => (.fin (a != b) (m * n) (e + f), false)

def xmul (x y : XReal) : XReal := (xmulNv x y).1

/-- The least exponent of the finite non-zero terms. -/
def leastExp (l : List XReal) : Option Int :=
  l.foldl (fun b x =>
    match x with
    | .fin _ (m + 1) e => let _ := m; some (match b with
      | none => e
      | some f => min e f)
    | _ => b) none

/-- A finite term as an integer at exponent `lo`. -/
def termAt (lo : Int) : XReal → Int
  | .fin s m e => let v : Int := (m * 2 ^ (e - lo).toNat : Nat); if s then -v else v
  | _ => 0

/-- ExactSum under a rounding that is RDN or not, and whether two infinities of opposite sign meet (R251). -/
def exactSum (rdn : Bool) (l : List XReal) : XReal × Bool :=
  let pos := l.any fun x => x = .inf false
  let negv := l.any fun x => x = .inf true
  let clash := pos && negv
  if clash then (.nan, true)
  else if l.any (·.isNan) then (.nan, false)
  else if pos then (.inf false, false)
  else if negv then (.inf true, false)
  else if l.isEmpty then (XReal.zero, false)
  else
    match leastExp l with
    | none => (.fin (rdn || l.all fun x => x.signBit) 0 0, false)
    | some lo =>
      let t := l.foldl (fun a x => a + termAt lo x) 0
      if t = 0 then (.fin rdn 0 0, false) else (XReal.ofScaled t lo, false)

/-- A sum of products, with NV for 0 · ∞ and for opposite infinities. -/
def sumProducts (rdn : Bool) (terms : List (XReal × Bool)) : XReal × Bool :=
  let r := exactSum rdn (terms.map (·.1))
  let bad := terms.any (·.2)
  (if bad then .nan else r.1, bad || r.2)

/-- An exact sum under round to nearest. -/
def xsum (l : List XReal) : XReal := (exactSum false l).1

/-! ### Formats (R233 to R237) -/

/-- Rounding modes (R240, R243). -/
inductive Mode where
  | rne
  | rtz
  | rup
  | rdn
  | sr
  deriving DecidableEq, Repr

/-- RMODE of FP_CTL (R243). -/
def Mode.ofCode (n : Nat) : Mode :=
  match n with
  | 0 => .rne
  | 1 => .rtz
  | 2 => .rup
  | 3 => .rdn
  | _ => .sr

/-- A floating format: precision, exponent bits, and whether it is E4M3 (no infinity) and saturates (R234, R235, R241). -/
structure FFmt where
  prec : Nat
  ebits : Nat
  noInf : Bool
  sat8 : Bool
  deriving DecidableEq, Repr

def FFmt.fp32 : FFmt := { prec := 24, ebits := 8, noInf := false, sat8 := false }
def FFmt.bf16 : FFmt := { prec := 8, ebits := 8, noInf := false, sat8 := false }
def FFmt.fp16 : FFmt := { prec := 11, ebits := 5, noInf := false, sat8 := false }
def FFmt.e4m3 : FFmt := { prec := 4, ebits := 4, noInf := true, sat8 := true }
def FFmt.e5m2 : FFmt := { prec := 3, ebits := 5, noInf := false, sat8 := true }

def FFmt.bias (f : FFmt) : Int := 2 ^ (f.ebits - 1) - 1
def FFmt.width (f : FFmt) : Nat := f.prec + f.ebits

/-- The exponent of the least normal, and that of the largest finite value. -/
def FFmt.emin (f : FFmt) : Int := 1 - f.bias
def FFmt.emax (f : FFmt) : Int := if f.noInf then f.bias + 1 else f.bias

/-- The significand of the largest finite value F. -/
def FFmt.maxSig (f : FFmt) : Nat := if f.noInf then 2 ^ f.prec - 2 else 2 ^ f.prec - 1

def FFmt.maxFin (f : FFmt) (neg : Bool) : XReal := .fin neg f.maxSig (f.emax - (f.prec - 1 : Nat))

/-- The format of a register's elements: floating, or an integer of a width, signed or not. -/
inductive Fmt where
  | fl (f : FFmt)
  | int (w : Nat) (signed : Bool)
  deriving DecidableEq, Repr

/-- Tag codes (R233). -/
def tagRaw : Nat := 0
def tagFp32 : Nat := 1
def tagBf16 : Nat := 2
def tagFp16 : Nat := 3
def tagE4m3 : Nat := 4
def tagE5m2 : Nat := 5
def tagSe7 : Nat := 6
def tagSe4 : Nat := 7
def tagSe2 : Nat := 8
def tagInt8 : Nat := 9
def tagInt16 : Nat := 10
def tagInt32 : Nat := 11
def tagUint8 : Nat := 12
def tagIndex32 : Nat := 13

/-- The format of a tag; raw is read as INT32 (13_isa_vector R388). -/
def fmtOf (tag : Nat) : Fmt :=
  match tag with
  | 1 => .fl .fp32
  | 2 => .fl .bf16
  | 3 => .fl .fp16
  | 4 => .fl .e4m3
  | 5 => .fl .e5m2
  | 9 => .int 8 true
  | 10 => .int 16 true
  | 12 => .int 8 false
  | 13 => .int 32 false
  | _ => .int 32 true

/-- The width of an element (13 R371). -/
def tagWidth (tag : Nat) : Nat :=
  match fmtOf tag with
  | .fl f => f.width
  | .int w _ => w

/-- The value of a floating pattern (R234, R235). -/
def decodeFl (f : FFmt) (bits : Nat) : XReal :=
  let fr := bits % 2 ^ (f.prec - 1)
  let ex := bits / 2 ^ (f.prec - 1) % 2 ^ f.ebits
  let s := bits / 2 ^ (f.width - 1) % 2 = 1
  let low := f.emin - (f.prec - 1 : Nat)
  if ex = 2 ^ f.ebits - 1 then
    if f.noInf then if fr = 2 ^ (f.prec - 1) - 1 then .nan else .fin s (fr + 2 ^ (f.prec - 1)) (low + (ex - 1 : Nat))
    else if fr = 0 then .inf s else .nan
  else if ex = 0 then .fin s fr low
  else .fin s (fr + 2 ^ (f.prec - 1)) (low + (ex - 1 : Nat))

/-- The pattern of a value that the format holds (R236). -/
def encodeFl (f : FFmt) (x : XReal) : Nat :=
  let top := 2 ^ f.ebits - 1
  let sgn (s : Bool) : Nat := if s then 2 ^ (f.width - 1) else 0
  match x with
  | .nan => if f.noInf then 2 ^ (f.width - 1) - 1 else top * 2 ^ (f.prec - 1) + 2 ^ (f.prec - 2)
  | .inf s => sgn s + top * 2 ^ (f.prec - 1)
  | .fin s m e =>
    if m = 0 then sgn s
    else
      let l := floorLog m 1 e
      if f.emin ≤ l then sgn s + (l + f.bias).toNat * 2 ^ (f.prec - 1) + (shiftNat m (e - (l - (f.prec - 1 : Nat))) - 2 ^ (f.prec - 1))
      else sgn s + shiftNat m (e - (f.emin - (f.prec - 1 : Nat)))

/-- DecodeElem of a tag that is no SE tag. -/
def decodeTag (tag bits : Nat) : XReal :=
  match fmtOf tag with
  | .fl f => decodeFl f bits
  | .int w true => XReal.ofInt (sNat w bits)
  | .int w false => XReal.ofInt ((bits % 2 ^ w : Nat) : Int)

/-! ### Rounding -/

/-- n / d rounded to an integer: the magnitude of a value of sign `neg`, under a mode and a 24-bit draw (R240, R246). -/
def roundMag (mode : Mode) (neg : Bool) (draw n d : Nat) : Nat :=
  let k := n / d
  let r := n % d
  let up :=
    match mode with
    | .rne => d < 2 * r || (2 * r = d && k % 2 = 1)
    | .rtz => false
    | .rup => r ≠ 0 && !neg
    | .rdn => r ≠ 0 && neg
    | .sr => draw * d < r * 2 ^ 24
  if up then k + 1 else k

/-- The result of an overflow (R241). -/
def overflowed (f : FFmt) (mode : Mode) (neg : Bool) : XReal × FpFlags :=
  if f.sat8 then (f.maxFin neg, { sat := true, nx := true })
  else
    let r :=
      match mode with
      | .rne | .sr => XReal.inf neg
      | .rtz => f.maxFin neg
      | .rup => if neg then f.maxFin neg else .inf neg
      | .rdn => if neg then .inf neg else f.maxFin neg
    (r, { ov := true, nx := true })

/-- A non-zero magnitude n / d · 2^e rounded into a floating format (R240, R241, R242). -/
def roundRatio (f : FFmt) (mode : Mode) (draw : Nat) (neg : Bool) (n d : Nat) (e : Int) : XReal × FpFlags :=
  let low := f.emin - (f.prec - 1 : Nat)
  let q := max (floorLog n d e - (f.prec - 1 : Nat)) low
  let num := if q ≤ e then n * 2 ^ (e - q).toNat else n
  let den := if q ≤ e then d else d * 2 ^ (q - e).toNat
  let m := roundMag mode neg draw num den
  let inexact := num % den ≠ 0
  let top := f.emax - (f.prec - 1 : Nat)
  let beyond := cmpMag m q f.maxSig top = 1 || (f.sat8 && mode = .sr && cmpMag num q (f.maxSig * den) top = 1)
  if beyond then overflowed f mode neg
  else (.fin neg m q, { nx := inexact, uf := inexact && cmpMag m q 1 f.emin = -1 })

/-- RoundToFormat into a floating format (R240, R241); `draw` is UInt(r[31:8]) of R246 under SR. -/
def roundFl (f : FFmt) (mode : Mode) (draw : Nat) (x : XReal) : XReal × FpFlags :=
  match x with
  | .nan => (.nan, {})
  | .inf s => if f.noInf then (f.maxFin s, { sat := true }) else (.inf s, {})
  | .fin s m e => if m = 0 then (.fin s 0 0, {}) else roundRatio f mode draw s m 1 e

/-- The integer that a value is clamped to, in a range; the clamp sets NV for a floating source, SAT for an integer one (R240 step 4). The rounding
before it sets NX where it was inexact (R242). -/
def clampInt (lo hi : Int) (fromFl inexact : Bool) (x : Int) : Int × FpFlags :=
  if x < lo then (lo, { nv := fromFl, sat := !fromFl, nx := inexact })
  else if hi < x then (hi, { nv := fromFl, sat := !fromFl, nx := inexact })
  else (x, { nx := inexact })

/-- The range of an integer format. -/
def intLo (w : Nat) (signed : Bool) : Int := if signed then -(2 ^ (w - 1) : Nat) else 0
def intHi (w : Nat) (signed : Bool) : Int := if signed then (2 ^ (w - 1) : Nat) - 1 else (2 ^ w : Nat) - 1

/-- RoundToFormat into an integer format (R240 steps 1, 4; R242). -/
def roundInt (w : Nat) (signed : Bool) (mode : Mode) (draw : Nat) (fromFl : Bool) (x : XReal) : Int × FpFlags :=
  match x with
  | .nan => (0, { nv := true })
  | .inf s => (if s then intLo w signed else intHi w signed, { nv := true })
  | .fin s m e =>
    let num := if 0 ≤ e then m * 2 ^ e.toNat else m
    let den := if 0 ≤ e then 1 else 2 ^ (-e).toNat
    let k : Int := roundMag mode s draw num den
    clampInt (intLo w signed) (intHi w signed) fromFl (num % den ≠ 0) (if s then -k else k)

/-- A value rounded into the format of a tag, as its element bits (RoundToFormat then EncodeElem). -/
def roundBits (tag : Nat) (mode : Mode) (draw : Nat) (fromFl : Bool) (x : XReal) : Nat × FpFlags :=
  match fmtOf tag with
  | .fl f =>
    let r := roundFl f mode draw x
    (encodeFl f r.1, r.2)
  | .int w sg =>
    let r := roundInt w sg mode draw fromFl x
    (intMod w r.1, r.2)

/-- RN: into FP32, to nearest (R254). -/
def rn (x : XReal) : XReal := (roundFl .fp32 .rne 0 x).1

/-- FP32 patterns and values. -/
def fp32 (bits : Nat) : XReal := decodeFl .fp32 bits
def toFp32 (x : XReal) : Nat := encodeFl .fp32 x

/-! ### Stochastic rounding (R246) -/

/-- The next state of the xorshift generator, which is also the value drawn. -/
def nextSr (st : Nat) : Nat :=
  let a := st ^^^ (st * 2 ^ 13 % 2 ^ 32)
  let b := a ^^^ (a / 2 ^ 17)
  b ^^^ (b * 2 ^ 5 % 2 ^ 32)

/-- A draw under SR: the next state and UInt(r[31:8]); under another mode nothing is drawn. -/
def drawSr (mode : Mode) (st : Nat) : Nat × Nat :=
  if mode = .sr then let n := nextSr st; (n, n / 256) else (st, 0)

/-! ### Shared-exponent blocks (R238, R239, R249, R250) -/

/-- The magnitude bits of an SE tag. -/
def seBits (tag : Nat) : Nat := if tag = tagSe7 then 7 else if tag = tagSe4 then 4 else 2

def isSe (tag : Nat) : Bool := tag = tagSe7 || tag = tagSe4 || tag = tagSe2

/-- The value of element `i` of a block with scale word `sw` (R238, R239). -/
def decodeSe (p sw i bits : Nat) : XReal :=
  let e := sw % 256
  let mu := sw / 2 ^ (8 + i / 2) % 2
  if e = 255 then .nan
  else
    let m := bits % 2 ^ p
    if e = 0 || m = 0 then XReal.zero
    else .fin (bits / 2 ^ p % 2 = 1) m ((e : Int) - 127 - mu - (p - 1 : Nat))

/-- The greater of two magnitudes. -/
def maxAbs (x y : XReal) : XReal :=
  match XReal.cmp x.abs y.abs with
  | some 1 => x.abs
  | _ => y.abs

/-- The scale word of a block, and whether NV is raised (R249). -/
def chooseScale (p : Nat) (x : List XReal) : Nat × Bool :=
  if x.any fun v => v.isNan || v.isInf then (255, true)
  else
    match x.foldl maxAbs XReal.zero with
    | .fin _ m e =>
      if m = 0 then (0, false)
      else
        let ex : Int := max 1 (min 254 (floorLog m 1 e + 127))
        let mu := (List.range 8).foldl (fun a k =>
          let pm := maxAbs (x.getD (2 * k) XReal.zero) (x.getD (2 * k + 1) XReal.zero)
          let small : Bool := match pm with
            | .fin _ m e => decide (cmpMag m e (2 ^ p - 1) (ex - 128 - (p - 1 : Nat)) ≤ 0)
            | _ => false
          if small then a + 2 ^ k else a) 0
        (ex.toNat + 256 * mu, false)
    | _ => (255, true)

/-- One element encoded under the scale word of its block (R250): its bits, and whether NX is set. -/
def encodeSe (p sw i : Nat) (mode : Mode) (draw : Nat) (x : XReal) : Nat × Bool :=
  let e := sw % 256
  if e = 0 || e = 255 then (0, false)
  else
    match x with
    | .fin s m ex =>
      let mu := sw / 2 ^ (8 + i / 2) % 2
      let k : Int := ex - ((e : Int) - 127 - mu - (p - 1 : Nat))
      let num := if 0 ≤ k then m * 2 ^ k.toNat else m
      let den := if 0 ≤ k then 1 else 2 ^ (-k).toNat
      let q := roundMag mode false draw num den
      let v := min q (2 ^ p - 1)
      (v + (if v ≠ 0 && s then 2 ^ p else 0), num % den ≠ 0 || 2 ^ p - 1 < q)
    | _ => (0, false)

end Sys2Proof.Machine
end

