-- ==== Sys2Proof/Machine/Operands.lean ====
section
/-! DEFINITION. Operand forms: the scalar registers that an S instruction reads or writes (12_isa_scalar R347), and the operands of column words: their
presence, tags and poison (06_core R175, R186, R194, 15_isa_memory R414), and the elements of vector registers (13_isa_vector R371, R372). -/

namespace Sys2Proof.Machine

/-! ### Scalar registers (R347) -/

/-- The eight registers of a PUSH record. -/
def pushRegs (a : GReg) : List GReg := (List.range 8).map fun i => a + BitVec.ofNat 6 i

/-- The g registers that an instruction reads or writes. -/
def gUses : Instr → List GReg
  | .add o | .sub o | .mul o | .mulh o | .mulhz o | .div o | .divz o | .rem o | .remz o | .andR o | .orR o | .xorR o | .shl o | .shr o | .sra o
  | .minR o | .maxR o | .minz o | .maxz o | .fshl o | .fshr o | .bxt o | .bxz o | .bins o | .ringacq o | .ringrel o => [o.d, o.a, o.b]
  | .clz o | .ctz o | .popc o | .launch o | .launchw o => [o.d, o.a]
  | .addi o | .andi o | .ori o | .xori o | .ldsl o | .stsl o => [o.d, o.a]
  | .shli o | .shri o | .srai o => [o.d, o.a]
  | .li o | .lui o | .lhi o | .addpc o => [o.d]
  | .bxti o | .bxzi o | .binsi o => [o.d, o.a]
  | .sel o => [o.d, o.a, o.b]
  | .cmp o => [o.a, o.b]
  | .cmpi o => [o.a]
  | .ptgtr _ a => [a]
  | .ftest d _ | .fmov d _ => [d]
  | .fsetReg o | .fclrReg o | .ftglReg o | .fwaitaReg o => [o.a]
  | .fwaitReg _ o => [o.a]
  | .ftestReg o | .fmovReg o => [o.d, o.a]
  | .qput a _ => [a]
  | .qget d _ | .qpeek d _ | .qcnt d _ => [d]
  | .ld o | .ldz o | .st o => [o.d, o.a]
  | .ldnc o => [o.d, o.a]
  | .atom o => [o.d, o.a]
  | .acas o => [o.d, o.a, o.b]
  | .aagg o => [o.d, o.a]
  | .rcsnap o => [o.a, o.b]
  | .push o => pushRegs o.a
  | .strip o => [o.g]
  | .cwait o => [o.a, o.b]
  | .mfs d _ => [d]
  | .mts a _ => [a]
  | _ => []

/-- Every register that the instruction names is written (R347); g0 is never waited for. -/
def gReady (s : State) (i : Instr) : Bool := (gUses i).all fun r => r = 0 || (s.core.gReady[r.toNat]'r.isLt) ≤ cyc s

/-! ### Checks of column words -/

/-- What a check answers: a value, or the trap that the word takes. -/
abbrev Chk := Except Trap

/-- A trap with nothing more to say. -/
def trapOf (c : Cause) : Trap := { cause := c }

def lateTrap : Trap := trapOf .late

/-- The trap of a failed destination's first consumer (R414). -/
def failedTrap (f : Failed) : Trap := { cause := f.cause, addr := f.addr, detail := f.detail }

/-- A condition that must hold. -/
def need (b : Bool) (t : Trap) : Chk Unit := if b then .ok () else .error t

/-- The word that a column is at takes a trap. -/
def raiseCol (c : Col) (t : Trap) (s : State) : State := takeTrap { t with source := colOrder c, pc := wordAddr s.core c } s

/-- A word with its checks: the state it leaves, or the trap. -/
def runCol (c : Col) (s : State) (r : Chk State) : Out :=
  match r with
  | .ok t => .next t
  | .error t => .next (raiseCol c t s)

/-- Register files in the detail of a format-tag trap (10_traps R312). -/
def fileV : Nat := 0
def fileT : Nat := 1
def fileA : Nat := 2
def fileAh : Nat := 3
def fileM : Nat := 4
def fileP : Nat := 5

/-- The set of tag codes as a number with bit n for tag n. -/
def tagSet (l : List Nat) : Nat := l.foldl (fun a n => a ||| 2 ^ n) 0

/-- A format-tag trap of a register: what it accepts and what it found (R312). -/
def formatTrap (file num : Nat) (accepts : List Nat) (found : Nat) : Trap :=
  { cause := .formatTag, detail := BitVec.ofNat 512 (file * 32 + num + tagSet accepts * 2 ^ 16 + found * 2 ^ 32) }

/-- The sets of R373. -/
def tagsF : List Nat := [1, 2, 3, 4, 5]
def tagsF16 : List Nat := [1, 2, 3]
def tagsI : List Nat := [9, 10, 11, 12, 13]
def tagsX : List Nat := 0 :: (tagsF ++ tagsI)

/-- A v register present for a reader or a writer: not failed, and no producer is still to write it (R175, R414). -/
def vReady (s : State) (n : BitVec 5) : Chk VReg :=
  let r := readV s n
  match r.failed with
  | some f => .error (failedTrap f)
  | none => if r.busy ≠ 0 then .error lateTrap else .ok r

/-- A destination that has no producer still to write it. -/
def vFree (s : State) (n : BitVec 5) : Chk VReg := if (readV s n).busy ≠ 0 then .error lateTrap else .ok (readV s n)

def tReady (s : State) (n : BitVec 4) : Chk TReg :=
  let r := readT s n
  match r.failed with
  | some f => .error (failedTrap f)
  | none => if r.busy ≠ 0 then .error lateTrap else .ok r

def tFree (s : State) (n : BitVec 4) : Chk TReg := if (readT s n).busy ≠ 0 then .error lateTrap else .ok (readT s n)

/-- The tag of a v register is one that the word accepts. -/
def vTagIn (n : BitVec 5) (r : VReg) (set : List Nat) : Chk Unit :=
  need (set.contains r.tag.toNat) (formatTrap fileV n.toNat set r.tag.toNat)

def tTagIn (n : BitVec 4) (r : TReg) (set : List Nat) : Chk Unit :=
  need (set.contains r.tag.toNat) (formatTrap fileT n.toNat set r.tag.toNat)

/-- The shape of a v register agrees with another's. -/
def vShapeIs (n : BitVec 5) (r like : VReg) : Chk Unit :=
  need (r.rows = like.rows && r.cols = like.cols) (formatTrap fileV n.toNat [like.tag.toNat] r.tag.toNat)

/-- Tag and shape agree with another register's (R373). -/
def vLike (n : BitVec 5) (r like : VReg) : Chk Unit := do
  vTagIn n r [like.tag.toNat]
  vShapeIs n r like

/-- A poisoned source where poison may not pass (04 R129). -/
def unpoisoned (p : Bool) : Chk Unit := need (!p) (trapOf .poison)

/-! ### Tile slots (06 R186) -/

/-- The detail of a TAG fault (R312). -/
def tagDetail (slot found : Nat) (expected : Option Nat) : BitVec 512 :=
  BitVec.ofNat 512 (slot + (expected.getD 0) * 2 ^ 16 + found * 2 ^ 32 + expected.isSome.toNat * 2 ^ 48)

/-- A tile consumer's check of one slot, with the tag that it expects, if any: a failed mark, LATE, TAG (R186, R414). -/
def slotReady (k : Core) (slot : Nat) (expected : Option Nat) : Chk Unit :=
  let t := getSlot k slot
  match t.failed with
  | some f => .error { failedTrap f with slot := some slot }
  | none =>
    if t.pend ≠ 0 then .error { cause := .late, slot := some slot }
    else if t.tag.toNat = 0xFFFF then .error { cause := .tag, slot := some slot, detail := tagDetail slot 0xFFFF expected }
    else
      match expected with
      | none => .ok ()
      | some x => if t.tag.toNat = x then .ok () else .error { cause := .tag, slot := some slot, detail := tagDetail slot t.tag.toNat expected }

/-- The slots that bytes of the scratchpad lie in, in ascending order. -/
def slotsOf (addr n : Nat) : List Nat := if n = 0 then [] else (List.range ((addr + n - 1) / 4096 - addr / 4096 + 1)).map fun i => addr / 4096 + i

/-! ### Elements of vector registers (R371) -/

def vCount (r : VReg) : Nat := r.rows * r.cols

/-- Element `i` of width `w` of a register's bytes. -/
def elemAt (x w i : Nat) : Nat := x / 2 ^ (w * i) % 2 ^ w

/-- The first `n` elements of width `w`. -/
def elemsOf (x w n : Nat) : List Nat := (List.range n).map (elemAt x w)

/-- Elements of width `w` laid side by side. -/
def packBits (w : Nat) : List Nat → Nat
  | [] => 0
  | x :: xs => x % 2 ^ w + 2 ^ w * packBits w xs

/-- The elements of a register as bit strings. -/
def vBits (r : VReg) : List Nat := elemsOf r.data.toNat (tagWidth r.tag.toNat) (vCount r)

/-- Their values. -/
def vVals (r : VReg) : List XReal := (vBits r).map (decodeTag r.tag.toNat)

/-- Element `i` of an SE register, and the scale word of its block (08 R239). -/
def seElemBits (x tag i : Nat) : Nat := elemAt x (seBits tag + 1) i
def seScaleBits (x tag n blk : Nat) : Nat := x / 2 ^ (n * (seBits tag + 1) + 16 * blk) % 2 ^ 16

/-- The value of element `i` of an SE register of `n` elements. -/
def seValue (x tag n i : Nat) : XReal := decodeSe (seBits tag) (seScaleBits x tag n (i / 16)) (i % 16) (seElemBits x tag i)

/-- The width of an element, an SE element's without its share of the scale. -/
def elemWidth (tag : Nat) : Nat := if isSe tag then seBits tag + 1 else tagWidth tag

/-- Which of `n` elements are active under a mask. -/
def activeOf (m : BitVec 2048) (n : Nat) : List Bool := (List.range n).map fun i => m.getLsbD i

/-- A vector register's new contents. -/
structure VNew where
  data : Nat
  tag : Nat
  rows : Nat
  cols : Nat
  poison : Bool
  deriving DecidableEq, Repr

/-- Commit (R372): active elements take the result, the others keep their bits where tag and shape stay, or become zero. `srcs` is the poison of the
sources. -/
def commitV (old : VReg) (tag rows cols : Nat) (act : List Bool) (res : List Nat) (srcs : Bool) : VNew :=
  let n := rows * cols
  let w := elemWidth tag
  let keep := old.tag.toNat = tag && old.rows = rows && old.cols = cols
  let olds := if keep then elemsOf old.data.toNat w n else List.replicate n 0
  let data := packBits w (((act.zip (res.zip olds)).map fun x => if x.1 then x.2.1 else x.2.2).take n)
  { data := data, tag := tag, rows := rows, cols := cols, poison := srcs || (keep && act.any (fun b => !b) && old.poison) }

/-- A commit that keeps old elements reads the destination: a failed one raises its cause (R372, R414). -/
def vCommit (old : VReg) (tag rows cols : Nat) (act : List Bool) (res : List Nat) (srcs : Bool) : Chk VNew :=
  match old.failed with
  | some f =>
    if old.tag.toNat = tag && old.rows = rows && old.cols = cols && act.any (fun b => !b) then .error (failedTrap f)
    else .ok (commitV old tag rows cols act res srcs)
  | none => .ok (commitV old tag rows cols act res srcs)

/-! ### Units and results (R375, R245) -/

/-- The units whose occupancy a word may find (R375, 14 R396). -/
inductive Slot where
  | arith
  | permute
  | none
  deriving DecidableEq, Repr

def slotBusy (u : Units) (c : Cycle) : Slot → Bool
  | .arith => c < u.arith
  | .permute => c < u.permute
  | .none => false

def slotTake (u : Units) (till : Cycle) : Slot → Units
  | .arith => { u with arith := till }
  | .permute => { u with permute := till }
  | .none => u

/-- The slot is free, or LATE. -/
def slotFree (s : State) (x : Slot) : Chk Unit := need (!slotBusy s.core.units (cyc s) x) lateTrap

/-- The cycles of a slot for `n` elements of width `w` (R375). -/
def slotCycles (n w : Nat) : Nat := max 1 (ceilDiv (n * w) 8192)

/-- The state and the exceptions of a run of roundings. -/
structure Rounding where
  sr : Nat
  flags : FpFlags
  deriving DecidableEq, Repr

/-- FP_CTL.RMODE. -/
def rmode (s : State) : Mode := Mode.ofCode s.core.sys.rmode.toNat

/-- One value per active element, in ascending order, each made by a rounding that may draw (R246); inactive elements compute nothing (R372). -/
def mapActive {α : Type} (f : Nat → α → (Nat × FpFlags) × Nat) : List Bool → List α → Rounding → List Nat × Rounding
  | [], _, r => ([], r)
  | _, [], r => ([], r)
  | false :: bs, _ :: xs, r => let y := mapActive f bs xs r; (0 :: y.1, y.2)
  | true :: bs, x :: xs, r =>
    let v := f r.sr x
    let y := mapActive f bs xs { sr := v.2, flags := r.flags.or v.1.2 }
    (v.1.1 :: y.1, y.2)

/-- A rounding of an exact value into a tag's format, with its draw (R240, R246); `nv` joins the NV of the exact computation. -/
def roundDraw (tag : Nat) (mode : Mode) (fromFl : Bool) (st : Nat) (x : XReal × Bool) : (Nat × FpFlags) × Nat :=
  let d := drawSr mode st
  let r := roundBits tag mode d.2 fromFl x.1
  ((r.1, { r.2 with nv := r.2.nv || x.2 }), d.1)

/-- The exceptions of a word that trap (R245). -/
def trapping (s : State) (f : FpFlags) : BitVec 6 := f.bits &&& s.core.sys.trapen

/-- FP_STICKY bits set in a cycle. -/
def postSticky (due : Cycle) (f : FpFlags) (s : State) : State := if f.bits = 0 then s else post due 2 (.sticky f.bits) s

/-- A vector word's result is on its way: written in cycle issue + lat + busy − 1, the slot taken for `busy` cycles, the flags set with it, or, where an
enabled exception arose, the floating-point trap (R245, R374, R375). -/
def finishV (d : BitVec 5) (x : Slot) (lat busy : Nat) (v : VNew) (r : Rounding) (s : State) : Out :=
  let c := cyc s
  if trapping s r.flags ≠ 0 then .next (raiseCol .colC (trapOf (.floating (trapping s r.flags))) (modSys (fun y => { y with sticky := y.sticky ||| r.flags.bits }) s))
  else
    let due := c + lat + busy - 1
    let s := post c 2 (.vPend d) s
    let s := post due 2 (.vWrite d (BitVec.ofNat 65536 v.data) (BitVec.ofNat 4 v.tag) v.rows v.cols v.poison true) s
    let s := postSticky due r.flags s
    let s := modCore (fun k => { k with units := slotTake k.units (c + busy) x, sys := { k.sys with srState := BitVec.ofNat 32 r.sr } }) s
    .next (colNext .colC s)

/-- The generator state with no exception so far. -/
def Rounding.start (s : State) : Rounding := { sr := s.core.sys.srState.toNat, flags := {} }

/-- A vector word that passes its checks with a result. -/
def runV (s : State) (d : BitVec 5) (x : Slot) (lat : Nat) (r : Chk (Nat × VNew × Rounding)) : Out :=
  match r with
  | .error t => .next (raiseCol .colC t s)
  | .ok (busy, v, f) => finishV d x lat busy v f s

end Sys2Proof.Machine
end

