-- ==== Sys2Proof/Machine/ScalarControl.lean ====
section
/-! DEFINITION. NOP, TRAP, BREAK, branches, flags, queues, slot memory, the pipeline ring and the system registers of the S stream (12_isa_scalar R349,
R358 to R362, R367, R368). -/

namespace Sys2Proof.Machine

/-! ### Shared forms -/

/-- The instruction is illegal (11_isa_formats R332). -/
def sIllegal (s : State) : Out := .next (sTrap .illegal 0 s)

/-- XFER and XCALL (R359): the two words that follow execute, then the transfer takes place. A transfer in a delay word is illegal. -/
def transfer (call : Bool) (o : RXfer) (s : State) : Out :=
  if s.core.xfer.isSome then sIllegal s
  else
    let set := flagSeen s.core o.f.toNat
    let taken := o.m = 0 || (o.m = 1 && set) || (o.m = 2 && !set)
    let tgt := readB s o.n
    let pc := s.core.pc
    let s := if call then writeB 7 (pc + 12) s else s
    .next (modCore (fun k => { k with pc := pc + 4, xfer := some { left := 2, taken := taken, target := tgt }, phase := 0, sReady := cyc s + 1 }) s)

/-- Snapshots of the engine commands that are done and pass `p` are merged into V, and their stamp entries removed (09_memory_model R281). -/
def joinStamps (p : Stamp → Bool) (s : State) : State :=
  let r := s.core.race
  let hit := r.stamps.filter fun e => e.done && p e
  let v := hit.foldl (fun v e => mergeCounts v (((namedSnap s s.coreId e.stamp).map (·.vec)).getD [])) r.v
  modCore (fun k => { k with race := { r with v := v, stamps := r.stamps.filter fun e => !(e.done && p e) } }) s

/-- A wait that observes flag `n` set joins the commands that set it (R281). -/
def joinFlag (n : Nat) (s : State) : State := joinStamps (fun e => e.flag = some (BitVec.ofNat 10 n) && n < 1024) s

/-- A flag instruction on core flag `n`: `f` of the flag as it stands (R360). -/
def coreFlag (n : Nat) (f : Bool → Bool) (s : State) : Out := .next (sNext (modCore (fun k => flagPut n (f (flagNow k n)) k) s))

/-- The flag number of a register form, g[a][11:0] (R360). -/
def flagNumber (s : State) (a : GReg) : Nat := (readG s a).toNat % 4096

/-- A change of cluster flag `n` of the core's cluster (R181). -/
def setClusterFlag (n : Nat) (b : Bool) (s : State) : State :=
  putCluster s (clusterPut (getCluster s (clusterOf s.coreId)) (cyc s) n b)

/-- A flag instruction in register form. -/
def regFlag (o : RFlag) (f : Bool → Bool) (s : State) : Out :=
  let n := flagNumber s o.a
  if o.c = 0 then coreFlag n f s
  else .next (sNext (setClusterFlag n (f (flagBit (getCluster s (clusterOf s.coreId)).flags n)) s))

/-- A cluster flag as this core sees it (R181). -/
def clusterFlagSeen (s : State) (n : Nat) : Bool := flagBit (clusterSeen (getCluster s (clusterOf s.coreId)) (cyc s)) n

/-- FWAIT on a core flag. -/
def waitFlag (v : BitVec 1) (n : Nat) (s : State) : Out :=
  if flagSeen s.core n = (v = 1) then .next (sNext (if v = 1 then joinFlag n s else s)) else .next (sBlock s)

/-- FWAITA on a core flag: it completes when the flag is set, and clears it in the same act. -/
def waitTake (n : Nat) (s : State) : Out :=
  if flagSeen s.core n then .next (sNext (modCore (flagPut n false) (joinFlag n s))) else .next (sBlock s)

/-- The cluster's array as it stood at the end of the previous cycle: acts of this cycle are the entries of the log that are due 8 cycles from now. -/
def clusterBefore (u : Cluster) (c : Cycle) : BitVec 4096 := u.log.foldl (fun f e => if e.1 < c + 8 then e.2 else f) u.seen

/-- FWAITA on a cluster flag acts at the cluster; its completion reaches the core 8 cycles after the act (R181). -/
def waitTakeCluster (n : Nat) (s : State) : Out :=
  let u := getCluster s (clusterOf s.coreId)
  if flagBit (clusterBefore u (cyc s)) n && flagBit u.flags n then .next (sNextAt 8 (setClusterFlag n false s)) else .next (sBlock s)

/-- The entries of a queue that can be read in cycle `c` (06_core R178). -/
def queueReadable (q : Queue) (c : Cycle) : List QEntry := q.entries.filter fun e => e.stamp < c

/-- The queue has a place that can be written in cycle `c`. -/
def queueHasRoom (q : Queue) (c : Cycle) : Bool := q.entries.length + (if q.freedAt = c then q.freedN else 0) < 16

def queuePush (q : Queue) (e : QEntry) : Queue := { q with entries := q.entries ++ [e] }

def queuePop (q : Queue) (c : Cycle) : Queue :=
  { q with entries := q.entries.drop 1, freedAt := c, freedN := if q.freedAt = c then q.freedN + 1 else 1 }

/-- QPUT of a payload or a token (R361). -/
def putQueueEntry (n : BitVec 4) (x : Dword) (token : Bool) (s : State) : Out :=
  let q := readQ s n
  let c := cyc s
  if queueHasRoom q c then .next (sNext (writeQ n (queuePush q { payload := x, token := token, poison := false, stamp := c }) s))
  else .next (sBlock s)

/-- An index of slot memory beyond 4,095 is an alignment fault (R362). -/
def slotIndex (o : RI) (s : State) : Nat := (readG s o.a + o.imm.signExtend 64).toNat

def slotPut (k : Core) (i : Nat) (x : Dword) : Core :=
  { k with slotMem := if x = 0 then assocDel k.slotMem i else assocPut k.slotMem i x }

/-- The ring stage that g[a] names, none where the ring has none such (R367). -/
def ringStage (s : State) (a : GReg) : Option Nat :=
  let st := (readG s a).toNat % 16
  if st < s.core.sys.ringLen.toNat then some st else none

/-! ### System group -/

def execNop (s : State) : Out := .next (sNext s)

/-- The cut PC is the address that follows (R348). -/
def execTrap (code : BitVec 8) (s : State) : Out :=
  .next (takeTrap { cause := .trapInstr code, source := 0, pc := s.core.pc } (sNext s))

/-- The partition of the task is closed to debugging (10_traps R320). -/
def debugClosed (s : State) : Bool :=
  s.core.sys.world ≠ 0 && match s.core.task with
    | some t => (getPart s t.part).tdisp ≠ .unlocked
    | none => false

def execBrk (s : State) : Out :=
  if s.core.sys.dbgEn && !debugClosed s then .next (sTrap .debugBreak 0 s) else .next (sNext s)

/-! ### Transfer of control -/

def execPtgt (n : BitVec 3) (i : BitVec 20) (s : State) : Out := .next (sNext (writeB n (s.core.pc + i.signExtend 64 * 4) s))

def execPtgtr (n : BitVec 3) (a : GReg) (s : State) : Out :=
  let x := readG s a
  if x.toNat % 4 ≠ 0 then .next (sTrap .alignment x s) else .next (sNext (writeB n x s))

def execXfer (o : RXfer) (s : State) : Out := transfer false o s
def execXcall (o : RXfer) (s : State) : Out := transfer true o s

/-! ### Flags -/

def execFset (f : BitVec 10) (s : State) : Out := coreFlag f.toNat (fun _ => true) s
def execFclr (f : BitVec 10) (s : State) : Out := coreFlag f.toNat (fun _ => false) s
def execFtgl (f : BitVec 10) (s : State) : Out := coreFlag f.toNat (fun b => !b) s
def execFtest (d : GReg) (f : BitVec 10) (s : State) : Out :=
  .next (sNext (writeG d (if flagSeen s.core f.toNat then 1 else 0) 1 s))
def execFmov (d : GReg) (f : BitVec 10) (s : State) : Out := coreFlag f.toNat (fun _ => (readG s d).getLsbD 0) s
def execFwait (v : BitVec 1) (f : BitVec 10) (s : State) : Out := waitFlag v f.toNat s
def execFwaita (f : BitVec 10) (s : State) : Out := waitTake f.toNat s
def execFsetReg (o : RFlag) (s : State) : Out := regFlag o (fun _ => true) s
def execFclrReg (o : RFlag) (s : State) : Out := regFlag o (fun _ => false) s
def execFtglReg (o : RFlag) (s : State) : Out := regFlag o (fun b => !b) s
def execFtestReg (o : RFlagD) (s : State) : Out :=
  let n := flagNumber s o.a
  let b := if o.c = 0 then flagSeen s.core n else clusterFlagSeen s n
  .next (sNext (writeG o.d (if b then 1 else 0) 1 s))
def execFmovReg (o : RFlagD) (s : State) : Out := regFlag ⟨o.a, o.c⟩ (fun _ => (readG s o.d).getLsbD 0) s
def execFwaitReg (v : BitVec 1) (o : RFlag) (s : State) : Out :=
  let n := flagNumber s o.a
  if o.c = 0 then waitFlag v n s
  else if clusterFlagSeen s n = (v = 1) then .next (sNext s) else .next (sBlock s)
def execFwaitaReg (o : RFlag) (s : State) : Out :=
  let n := flagNumber s o.a
  if o.c = 0 then waitTake n s else waitTakeCluster n s

/-! ### Queues -/

def execQput (a : GReg) (q : BitVec 4) (s : State) : Out := putQueueEntry q (readG s a) false s
def execQputToken (q : BitVec 4) (s : State) : Out := putQueueEntry q 0 true s

def execQget (d : GReg) (q : BitVec 4) (s : State) : Out :=
  let x := readQ s q
  match queueReadable x (cyc s) with
  | [] => .next (sBlock s)
  | e :: _ =>
    if e.poison then .next (sTrap .poison 0 s)
    else .next (sNext (writeG d (if e.token then 0 else e.payload) 1 (writeQ q (queuePop x (cyc s)) s)))

def execQpeek (d : GReg) (q : BitVec 4) (s : State) : Out :=
  match queueReadable (readQ s q) (cyc s) with
  | [] => .next (sNext (writeG d 0 1 s))
  | e :: _ =>
    if e.poison then .next (sTrap .poison 0 s)
    else .next (sNext (writeG d (if e.token then 0 else e.payload) 1 s))

def execQcnt (d : GReg) (q : BitVec 4) (s : State) : Out :=
  let l := queueReadable (readQ s q) (cyc s)
  let head := match l with
    | [] => 0
    | e :: _ => e.token.toNat * 256 + e.poison.toNat * 512
  .next (sNext (writeG d (BitVec.ofNat 64 (l.length + head)) 1 s))

/-! ### Slot memory -/

def execLdsl (o : RI) (s : State) : Out :=
  let i := slotIndex o s
  if 4095 < i then .next (sTrap .alignment (BitVec.ofNat 64 i) s)
  else .next (sNext (writeG o.d ((assocGet s.core.slotMem i).getD 0) 1 s))

def execStsl (o : RI) (s : State) : Out :=
  let i := slotIndex o s
  if 4095 < i then .next (sTrap .alignment (BitVec.ofNat 64 i) s)
  else .next (sNext (modCore (fun k => slotPut k i (readG s o.d)) s))

/-! ### The pipeline ring -/

def execRingacq (o : R3) (s : State) : Out :=
  match ringStage s o.a with
  | none => sIllegal s
  | some st =>
    let w := ringWord s.core.flagsPrev st
    if w % 256 = (readG s o.b).toNat % 256 then .next (sNext (writeG o.d (BitVec.ofNat 64 w) 1 s)) else .next (sBlock s)

def execRingrel (o : R3) (s : State) : Out :=
  match ringStage s o.a with
  | none => sIllegal s
  | some st =>
    let w := ringWord s.core.flagsPrev st
    .next (sNext (writeG o.d (BitVec.ofNat 64 w) 1 (modCore (ringPut st ((readG s o.b).toNat % 512)) s)))

/-! ### System registers -/

/-- The result is readable in the next cycle, that of TSLOT_VIEW a cycle later (R370). -/
def execMfs (d : GReg) (r : BitVec 12) (s : State) : Out := .next (sNext (writeG d (mfsValue s r) (if r = 0x064 then 2 else 1) s))

/-- A register with no field that MTS writes is a privilege fault at user level (R368). -/
def execMts (a : GReg) (r : BitVec 12) (s : State) : Out :=
  match mtsWrite s r (readG s a) with
  | some s => .next (sNext s)
  | none => .next (sTrap .privilege 0 s)

end Sys2Proof.Machine
end

