-- ==== Sys2Proof/Machine/ColumnLoad.lean ====
section
/-! DEFINITION. Column memory words: translation with its stall, address registers, timed loads, untimed loads, KVX and WLD (15_isa_memory R411 to R414,
R422, R423, R425 to R431, R434; 06_core R192; 07_serving_structures R219; 08_formats R267, R268). -/

namespace Sys2Proof.Machine

/-! ### Checks that may stall (R413) -/

/-- Why a column memory word does not issue: a trap, or pages to walk, each by an address in it. -/
inductive Snag where
  | trap (t : Trap)
  | walk (pages : List Nat)
  deriving DecidableEq, Repr

/-- What a check of a column memory word answers. -/
abbrev MChk := Except Snag

/-- A check that cannot stall. -/
def chk {α : Type} (r : Chk α) : MChk α :=
  match r with
  | .ok x => .ok x
  | .error t => .error (.trap t)

def snag {α : Type} (t : Trap) : MChk α := .error (.trap t)

/-- A misaligned or unreachable address. -/
def misaligned (addr : Nat) : Trap := { cause := .alignment, addr := BitVec.ofNat 64 addr }

/-- The translation stall: the cut is taken, and the walks are made, 16 at a time (log 8). -/
def colWalk (col : Col) (pages : List Nat) (s : State) : State :=
  let t : Trap := { cause := .unmapped, source := colOrder col, pc := wordAddr s.core col }
  let due := cyc s + coreCycles s s.coreId (walkCycles s * ceilDiv pages.length 16)
  modCore (fun k => { k with hold := .walk pages due t }) (takeCut { s with fresh := s.fresh + 1 })

/-- A column memory word with its checks. -/
def runMem (col : Col) (s : State) (r : MChk State) : Out :=
  match r with
  | .ok t => .next (colNext col t)
  | .error (.trap t) => .next (raiseCol col t s)
  | .error (.walk l) => .next (colWalk col l s)

/-- Addresses of pages that the buffer does not hold, one for each page, in their order. -/
def missingPages (s : State) (vas : List Nat) : List Nat :=
  (vas.filter fun a => !tlbHolds s.core s.core.sys.world a).foldl (fun l a => if l.any (fun b => b / 65536 = a / 65536) then l else l ++ [a]) []

/-- The addresses translated in space gl, in their order: the stall where a page is missing, or the fault of the first that fails. -/
def xlateAll (s : State) (write : Bool) (vas : List Nat) : MChk (List (Nat × Nat × Pte)) :=
  match missingPages s vas with
  | [] =>
    vas.foldr (fun va acc =>
      match xlate s s.core.sys.world va write false with
      | .error c => snag { cause := c, addr := BitVec.ofNat 64 va }
      | .ok (p, pa) =>
        match acc with
        | .error e => .error e
        | .ok l => .ok ((pa, va, p) :: l)) (.ok [])
  | l => .error (.walk l)

/-- The translations of an untimed word, which waits where a page is being switched: its walk returns when the new translation is installed (02 R65
step 4). -/
def xlateFar (s : State) (write : Bool) (vas : List Nat) : MChk (List (Nat × Nat × Pte)) :=
  match xlateAll s write vas with
  | .error e => .error e
  | .ok l => match (l.filter fun x => switching s x.1).map fun x => x.2.1 with
    | [] => .ok l
    | held => .error (.walk held)

/-- An S-stream or engine access of space gl to a page of this address waits for its switch. -/
def pageSwitches (s : State) (va : Nat) : Bool :=
  match findPte s s.core.sys.world va with
  | some p => switching s (p.pa + (va - p.va))
  | none => false

/-! ### Address registers (R422) -/

/-- One part of an e register: 0 the address, 1 the stride, 2 the tag. -/
def eSet (p : Nat) (x : BitVec 48) (e : EReg) : EReg :=
  match p with
  | 0 => { e with addr := x }
  | 1 => { e with stride := x.extractLsb' 0 32 }
  | _ => { e with tag := x.extractLsb' 0 16 }

def ePart (p : Nat) (e : EReg) : BitVec 48 :=
  match p with
  | 0 => e.addr
  | 1 => e.stride.zeroExtend 48
  | _ => e.tag.zeroExtend 48

/-- imm14 as a part takes it: the tag of ESET takes it zero-extended. -/
def eImm (o : EImm) : BitVec 48 := o.i.signExtend 48

def execEadd (o : EImm) (s : State) : Out :=
  let e := readE s o.e
  .next (colNext o.col (writeE o.e (eSet o.p.toNat (ePart o.p.toNat e + (if o.p = 2 then o.i.zeroExtend 48 else eImm o)) e) s))

def execEset (o : EImm) (s : State) : Out :=
  .next (colNext o.col (writeE o.e (eSet o.p.toNat (if o.p = 2 then o.i.zeroExtend 48 else eImm o) (readE s o.e)) s))

def execEmov (o : EMovOp) (s : State) : Out :=
  .next (colNext o.col (writeE o.e (eSet o.p.toNat (ePart o.p.toNat (readE s o.s)) (readE s o.e)) s))

/-! ### Ports (R434) -/

/-- The column's port is free, or LATE. -/
def portReady (s : State) (col : Col) : Chk Unit := need ((getCol s.core col).portBusy ≤ cyc s) lateTrap

/-- The port held for `b` cycles from this one. -/
def holdPort (col : Col) (b : Nat) (s : State) : State :=
  let c := cyc s
  modCore (fun k => setCol col { getCol k col with portBusy := c + b } k) s

/-- The cycles of a port for `n` bytes. -/
def portCycles (n : Nat) : Nat := ceilDiv n 256

/-- The base address of a column word: in space sp it lies in bits [19:0] and below 0x8_0000, with all `n` bytes (R411, R412). -/
def spBase (e : EReg) (n : Nat) : Chk Nat :=
  need (e.addr.toNat + n ≤ 0x80000) (misaligned e.addr.toNat) |>.map fun _ => e.addr.toNat

/-! ### Timed loads (R423) -/

/-- A tag operand of 0xFFFF (06 R185). -/
def tagUsable (t : Bool) (e : EReg) : Chk Unit := need (!(t && e.tag.toNat = 0xFFFF)) (trapOf .illegal)

/-- The translation of a timed word; the domain window has no calendar, for writes too (03 R87). -/
def xlateTimed (s : State) (write : Bool) (va : Nat) : MChk (List (Nat × Nat × Pte)) :=
  match xlateAll s false [va] with
  | .ok ((pa, v, p) :: _) => if isRemote s pa then snag lateTrap else if write then xlateAll s true [va] else .ok [(pa, v, p)]
  | r => r

/-- The checks that LDT and STT share, with the physical address, its page and the slots bound. -/
def timedChecks (o : TimedOp) (write : Bool) (s : State) : MChk (Nat × Pte × List Nat) := do
  let e := readE s o.e
  let n := o.n.toNat + 1
  let va := e.addr.toNat
  chk (tagUsable (o.t = 1) e)
  chk (need (o.k.toNat + n ≤ 8) (misaligned va))
  chk (need (va % 512 = 0 && va % 4096 + 512 * n ≤ 4096) (misaligned va))
  let l ← xlateTimed s write va
  match l with
  | [] => snag lateTrap
  | (pa, _, p) :: _ =>
    if tierOf pa ≠ .hbm then snag lateTrap
    else
      match bindSlots s s.coreId (channelOf pa) n (s.now + requestPath) with
      | none => snag lateTrap
      | some starts => .ok (pa, p, starts)

/-- The request record of a timed word, to be bound. -/
def timedOf (o : TimedOp) (col : Col) (write : Bool) (pa : Nat) (p : Pte) (s : State) : Timed :=
  let e := readE s o.e
  { isWrite := write, instr := s.core.nextInstr, channel := channelOf pa, start := 0, late := false, pa := pa, va := e.addr.toNat, page := p, slot := o.s.toNat, off := 512 * o.k.toNat, base := 0, total := 0,
    tagged := if o.t = 1 && !write then some e.tag else none, issued := cyc s, last := false, isVoid := false, voided := false, faulty := false, data := 0, sample := none, sides := [],
    stamp := s.core.race.own, world := s.core.sys.world, word := wordAddr s.core col }

/-- LDT and LDTU, which differ in what the caches allocate (log 6). -/
def loadTimed (o : TimedOp) (s : State) : Out :=
  runMem .colL s do
    chk (portReady s .colL)
    let (pa, p, starts) ← timedChecks o false s
    chk (need (o.t = 0 || (getSlot s.core o.s.toNat).pend ≠ 15) { lateTrap with slot := some o.s.toNat })
    let t := timedOf o .colL false pa p s
    let s := if o.t = 1 then post (cyc s) 1 (.slotPend o.s.toNat) s else s
    .ok (holdPort .colL 1 (modCore (fun k => { k with nextInstr := k.nextInstr + 1, timed := k.timed ++ bindRequests s t starts }) s))

def execLdt (o : TimedOp) (s : State) : Out := loadTimed o s
def execLdtu (o : TimedOp) (s : State) : Out := loadTimed o s

/-! ### Destinations of untimed loads (R425) -/

/-- The format that a load gives its destination: bits [15:12] of the e register's tag; 0 keeps the current tag. -/
def loadTag (e : EReg) (old : Nat) : Chk Nat :=
  let f := e.tag.toNat / 4096
  if f = 0 then .ok old else if 14 ≤ f then .error (trapOf .illegal) else .ok f

/-- The bytes of `n` elements of an SE format in the planar layout (08 R239). -/
def seBytes (tag n : Nat) : Nat := n * (seBits tag + 1) / 8 + n / 16 * 2

/-- The bytes of a tile register of a tag (R426, 14 R393). -/
def tileBytes (tag : Nat) : Nat :=
  match tileClass? tag with
  | some d => if isSe tag then seBytes tag (64 * d) else 4096
  | none => 8192
where
  /-- The depth of a matrix operand. -/
  tileClass? (tag : Nat) : Option Nat :=
    if tag = tagBf16 || tag = tagFp16 then some 32
    else if tag = tagE4m3 || tag = tagE5m2 || tag = tagSe7 || tag = tagInt8 || tag = tagUint8 then some 64
    else if tag = tagSe4 then some 128
    else if tag = tagSe2 then some 256
    else none

/-! ### Patterns (08 R267, R268) -/

/-- A field of a pattern: offset, width, signed. -/
def patternField (p : BitVec 512) (f : Nat) : Nat × Nat × Bool :=
  let x := recBytes p (2 + 2 * f) 2
  (x % 128, x / 128 % 32 + 1, x.testBit 12)

/-- The period and the fields of a valid pattern. -/
def patternOf (p : BitVec 512) : Option (Nat × List (Nat × Nat × Bool)) :=
  let period := recBytes p 0 1 + 1
  let n := recBytes p 1 1
  let fs := (List.range n).map (patternField p)
  let ok := 1 ≤ n && n ≤ 31 && period ≤ 128 && fs.all (fun f => f.1 + f.2.1 ≤ period)
    && (List.range n).all (fun f => recBytes p (2 + 2 * f) 2 / 2 ^ 13 = 0) && recBytes p (2 + 2 * n) (62 - 2 * n) = 0
  if ok then some (period, fs) else none

/-- The source bytes of an extraction of `count` elements (R429). -/
def patternBytes (period n count : Nat) : Nat := ceilDiv (ceilDiv count n * period) 8

/-- The elements that a pattern extracts from a bit string (R268). -/
def extractFields (period : Nat) (fs : List (Nat × Nat × Bool)) (w count b : Nat) : List Nat :=
  (List.range count).map fun k =>
    let f := fs.getD (k % fs.length) (0, 1, false)
    let x := b / 2 ^ (k / fs.length * period + f.1) % 2 ^ f.2.1
    if f.2.2 then intMod w (sNat f.2.1 x) else x

/-! ### What a load makes of its bytes -/

/-- A v register's new contents from the bytes of a load: an SE layout whole, elements under a mask, or the fields of a pattern (R427 to R429). -/
def landVector (old : VReg) (kind : LoadKind) (bytes : List Byte) (poison : Bool) : VNew :=
  let n := vCount old
  match kind with
  | .vreg _ tag act =>
    let t := tag.toNat
    if isSe t then { data := leNat bytes, tag := t, rows := old.rows, cols := old.cols, poison := poison }
    else commitV old t old.rows old.cols (activeOf act n) (elemsOf (leNat bytes) (tagWidth t) n) poison
  | .bitfield _ tag pattern =>
    let t := tag.toNat
    let (period, fs) := (patternOf pattern).getD (1, [])
    commitV old t old.rows old.cols (List.replicate n true) (extractFields period fs (tagWidth t) n (leNat bytes)) poison
  | .treg _ tag => { data := leNat bytes, tag := tag.toNat, rows := 1, cols := 1, poison := poison }

/-- The write of a load's destination, landing in cycle `due`. -/
def landLoad (due : Cycle) (kind : LoadKind) (bytes : List Byte) (poison : Bool) (s : State) : State :=
  match kind with
  | .treg t tag => post due 1 (.tWrite t (BitVec.ofNat 65536 (leNat bytes)) tag poison true) s
  | .vreg v _ _ | .bitfield v _ _ =>
    let x := landVector (readV s v) kind bytes poison
    post due 1 (.vWrite v (BitVec.ofNat 65536 x.data) (BitVec.ofNat 4 x.tag) x.rows x.cols x.poison true) s

/-- The destination has one more producer, from this cycle on. -/
def pendLoad (kind : LoadKind) (s : State) : State :=
  match kind with
  | .treg t _ => post (cyc s) 1 (.tPend t) s
  | .vreg v _ _ | .bitfield v _ _ => post (cyc s) 1 (.vPend v) s

/-- A failed load leaves its destination unchanged and marks it (R414). -/
def failLoad (due : Cycle) (kind : LoadKind) (f : Failed) (s : State) : State :=
  match kind with
  | .treg t _ => post due 1 (.tFail t f) s
  | .vreg v _ _ | .bitfield v _ _ => post due 1 (.vFail v f) s

/-! ### Loads from the scratchpad -/

/-- The tile consumer's checks of the slots that byte runs touch, in ascending order (06 R186). -/
def checkSlots (s : State) (runs : List (Nat × Nat)) (expected : Option Nat) : Chk Unit :=
  let slots := sortBy (fun a b => a < b) (runs.flatMap fun r => slotsOf r.1 r.2).eraseDups
  slots.foldl (fun acc i =>
    match acc with
    | .error t => .error t
    | .ok () => slotReady s.core i expected) (.ok ())

/-- The lines that byte runs touch have a poisoned one among them. -/
def runsPoison (k : Core) (runs : List (Nat × Nat)) : Bool := runs.any fun r => (spanLines r.1 r.2).any fun l => spPoison k l.1

/-- A load of byte addresses of the scratchpad, none for a byte of zeros, with `b` port cycles. -/
def loadSp (kind : LoadKind) (src : List (Option Nat)) (runs : List (Nat × Nat)) (expected : Option Nat) (b : Nat) (s : State) : Chk State := do
  checkSlots s runs expected
  let bytes := src.map fun a => match a with
    | some x => cellGet s.core.sp x
    | none => 0
  let s := pendLoad kind s
  .ok (holdPort .colL b (landLoad (cyc s + b + 3) kind bytes (runsPoison s.core runs) s))

/-! ### Untimed loads (R427) -/

/-- Room among the 8 untimed loads of the L column (R425). -/
def loadRoom (s : State) : Chk Unit := need (s.core.loads.length < 8) lateTrap

/-- A line of untimed load `id` is not to be taken yet: a repair holds it, an own timed write before it is still to be accepted, or an acquire before it
is still to be performed (02 R56; 09 R274, R286). -/
def lineWaits (s : State) (id pa : Nat) : Bool := accessHeld s s.coreId pa || ownTimedAt s.core id pa || afterAcquire s.core id

/-- A line with the bytes of this core's stores that are still to be performed (09 R274). -/
def withOwnStores (k : Core) (pa : Nat) (line : List Byte) : List Byte :=
  k.stores.foldl (fun l w => w.lines.foldl (fun l x => if lineOf x.pa = lineOf pa then patchLine l x.bytes else l) l) line

/-- One line of a load taken from its home, or asked for from another package. -/
def takeLine (id fill : Nat) (l : Nat × Nat × Pte) (acc : State × ULoad) : State × ULoad :=
  let (s, u) := acc
  let (pa, va, p) := l
  if isRemote s pa then (startRemote s { remoteOf s (lineOf pa) va 0 64 false with load := some id, fill := fill }, { u with lines := u.lines ++ [(pa, va, p)] })
  else
    let v := readLine s pa p.keySlot
    let bits := BitVec.ofNat 512 (leNat (withOwnStores s.core pa v.bytes))
    let s := if v.poison then notePoison s pa s.coreId else s
    (s, { u with lines := u.lines ++ [(pa, va, p)], got := u.got ++ [(lineOf pa, bits)], poison := u.poison || v.poison })

/-- One line of a VLD through the read cache (06 R189). -/
def takeCached (id : Nat) (l : Nat × Nat × Pte) (acc : State × ULoad) : State × ULoad :=
  let (s, u) := acc
  let (pa, va, p) := l
  match cacheGet s.core.readCache va with
  | some c =>
    let bits := BitVec.ofNat 512 (leNat (withOwnStores s.core pa (leBytes 64 c.data.toNat)))
    (modCore (fun k => { k with readCache := cachePut k.readCache c }) s,
      { u with got := u.got ++ [(lineOf pa, bits)], poison := u.poison || cachedPoison c, fail := u.fail.orElse fun _ => cachedFail s p pa va c })
  | none =>
    let (t, u) := takeLine id 1 l (s, u)
    let v := readLine t pa p.keySlot
    if isRemote t pa || v.poison then (t, u)
    else
      let c : CacheLine := { va := va / 64 * 64, data := BitVec.ofNat 512 (leNat v.bytes), side := if v.unwritten then none else some v.side }
      (modCore (fun k => { k with readCache := cachePut k.readCache c }) t, u)

/-- The least unloaded latency of a load that misses the read cache: the cluster L2's (R427). -/
def untimedBase : Nat := 90

/-- One line of a load taken now, or left to wait. -/
def takeOrWait (l : Nat × Nat × Pte) (acc : State × ULoad) : State × ULoad :=
  let (s, u) := acc
  if lineWaits s u.id l.1 then (s, { u with wait := u.wait ++ [l] })
  else
    let s := touchKey s.coreId l.2.2.keySlot s
    if u.cached then takeCached u.id l (s, u) else takeLine u.id 0 l (s, u)

/-- A line that has waited: its address is translated anew, since its page may have moved meanwhile. -/
def retakeLine (acc : State × ULoad) (l : Nat × Nat × Pte) : State × ULoad :=
  let (s, u) := acc
  match xlate s s.core.sys.world l.2.1 false false with
  | .error c => (s, { u with fail := u.fail.orElse fun _ => some (failAt c l.2.1) })
  | .ok (p, pa) =>
    let move (a : Nat) : Nat := if lineOf a = lineOf l.1 then lineOf pa + a % 64 else a
    takeOrWait (pa, l.2.1, p) (s, { u with src := u.src.map fun a => a.map move })

/-- The lines that wait and that nothing holds any more are taken. -/
def takeWaiting (s : State) : State :=
  s.core.loads.foldl (fun s u =>
    let (go, stay) := u.wait.partition fun l => !lineWaits s u.id l.1
    let r := go.foldl retakeLine (s, { u with wait := stay })
    modCore (fun k => { k with loads := k.loads.map fun x => if x.id = u.id then r.2 else x }) r.1) s

/-- Some line that waits can be taken. -/
def lineArrives (s : State) : Bool := s.core.loads.any fun u => u.wait.any fun l => !lineWaits s u.id l.1

/-- An untimed load of the lines `ls` into `kind`, whose bytes have the virtual addresses `vas`. A fill waits for a key that is not in the cluster's
cache (03 R98). -/
def loadFar (kind : LoadKind) (vas : List (Option Nat)) (ls : List (Nat × Nat × Pte)) (cached : Bool) (s : State) : State :=
  let id := s.core.nextInstr
  let hit := cached && ls.all fun l => (cacheGet s.core.readCache l.2.1).isSome
  let keys := ls.foldl (fun m l => max m (keyWait s s.coreId l.2.2.keySlot)) 0
  let src := vas.map fun a => a.bind fun x => (ls.find? fun l => l.2.1 / 64 = x / 64).map fun l => lineOf l.1 + x % 64
  let u0 : ULoad := { id := id, due := 0, kind := kind, src := src, lines := [], got := [], poison := false, wait := [], cached := cached, fail := none }
  let (s, u) := ls.foldl (fun acc l => takeOrWait l acc) (s, u0)
  let (m, s) := loadLatency s (untimedBase + keys)
  let n := if hit then 20 else m
  let c := cyc s
  holdPort .colL 1 (pendLoad kind (modCore (fun k => { k with nextInstr := k.nextInstr + 1, loads := k.loads ++ [{ u with due := c + n }] }) s))

/-- A byte of the lines that a load has. -/
def gotByte (got : List (Nat × BitVec 512)) (pa : Nat) : Byte :=
  match got.find? fun g => g.1 = lineOf pa with
  | some g => BitVec.ofNat 8 (g.2.toNat / 2 ^ (8 * (pa % 64)))
  | none => 0

/-- An untimed load's delivery: the checks of its lines as they stand now (R414), then its write. -/
def deliverLoad (u : ULoad) (s : State) : State :=
  let c := cyc s
  let fail := u.fail.orElse fun _ => firstFail (fun l => if isRemote s l.1 then none else checkRead s (taskAgent s) l.2.2 l.1 l.2.1) u.lines
  let s := modCore (fun k => { k with loads := k.loads.filter fun x => x.id ≠ u.id }) s
  match fail with
  | some f => failLoad c u.kind f s
  | none =>
    landLoad c u.kind (u.src.map fun a => match a with
      | some pa => gotByte u.got pa
      | none => 0) u.poison s

/-- The first byte that each line of the byte runs is touched at, in the order of the runs. -/
def runLines (runs : List (Nat × Nat)) : List Nat :=
  (runs.flatMap fun r => (spanLines r.1 r.2).map fun l => l.2.1).foldl (fun acc a => if acc.any (fun b => b / 64 = a / 64) then acc else acc ++ [a]) []

/-! ### TLD (R426) -/

/-- Consecutive byte addresses. -/
def byteRun (a n : Nat) : List (Option Nat) := (List.range n).map fun i => some (a + i)

def execTld (o : TldOp) (s : State) : Out :=
  runMem .colL s do
    let e := readE s o.e
    let a := e.addr.toNat
    let far : Bool := 0x100000 ≤ a
    let tag ← chk (loadTag e (readT s o.t).tag.toNat)
    chk (tagUsable (o.x = 1) e)
    chk (need (!(o.x = 1 && far)) (trapOf .illegal))
    let _ ← chk (tFree s o.t)
    chk (portReady s .colL)
    chk (if far then loadRoom s else .ok ())
    let n := tileBytes tag
    chk (need (a % 64 = 0) (misaligned a))
    let kind : LoadKind := .treg o.t (BitVec.ofNat 4 tag)
    if far then do
      let ls ← xlateFar s false (runLines [(a, n)])
      .ok (loadFar kind (byteRun a n) ls false s)
    else do
      let b ← chk (spBase e n)
      chk (loadSp kind (byteRun b n) [(b, n)] (if o.x = 1 then some e.tag.toNat else none) (portCycles n) s)

/-! ### VLD (R427) -/

/-- A destination whose old elements the commit keeps must not have failed (R372, R414). -/
def keepable (old : VReg) (tag : Nat) (act : List Bool) : Chk Unit :=
  match old.failed with
  | some f => need (!(old.tag.toNat = tag && act.any fun b => !b)) (failedTrap f)
  | none => .ok ()

/-- Byte addresses of the elements of a list of addresses, none where an element reads nothing. -/
def elemBytes (bytes : Nat) (l : List (Option Nat)) : List (Option Nat) :=
  l.flatMap fun a => match a with
    | some x => byteRun x bytes
    | none => List.replicate bytes none

/-- The refresh windows of the banks that a wt load reads. -/
def weightWait (s : State) (runs : List (Nat × Nat)) : Nat :=
  runs.foldl (fun m r => max m (max (refreshWait s (r.1 / 2 ^ 24)) (refreshWait s ((r.1 + r.2 - 1) / 2 ^ 24)))) 0

/-- A VLD from the weight store: permission by bank, no translation, no race check (06 R191). -/
def loadWt (kind : LoadKind) (src : List (Option Nat)) (runs : List (Nat × Nat)) (s : State) : Chk State := do
  let bad := (src.filterMap id).find? fun a => 0x3FFFFFFF < a || !bankOwned s (a / 2 ^ 24)
  match bad with
  | some a => .error { cause := .permission, addr := BitVec.ofNat 64 a }
  | none => .ok ()
  let lines := runLines runs
  let got := lines.map fun a => (lineOf (weightPa s a), BitVec.ofNat 512 (leNat (lineAt s (weightPa s a) 0).bytes))
  let u : ULoad := { id := s.core.nextInstr, due := 0, kind := kind, src := src.map fun a => a.map (weightPa s), lines := [], got := got,
                     poison := lines.any fun a => (lineAt s (weightPa s a) 0).poison, wait := [], cached := false, fail := none }
  let (n, t) := loadLatency s (70 + weightWait s runs)
  .ok (holdPort .colL 1 (pendLoad kind (modCore (fun k => { k with nextInstr := k.nextInstr + 1, loads := k.loads ++ [{ u with due := cyc s + n }] }) t)))

def execVld (o : VldOp) (s : State) : Out :=
  runMem .colL s do
    let e := readE s o.e
    let old := readV s o.v
    let tag ← chk (loadTag e old.tag.toNat)
    chk (tagUsable (o.x = 1) e)
    chk (need (!(o.x = 1 && o.p ≠ 0)) (trapOf .illegal))
    let n := vCount old
    let se := isSe tag
    let w := tagWidth tag / 8
    let act := if se then BitVec.allOnes 2048 else readM s o.k
    let _ ← chk (vFree s o.v)
    chk (keepable old tag (activeOf act n))
    chk (portReady s .colL)
    chk (if o.p = 0 then .ok () else loadRoom s)
    chk (need (!(se && n % 16 ≠ 0)) (formatTrap fileV o.v.toNat [tag] old.tag.toNat))
    let a := e.addr.toNat
    chk (need (a % (if se then 2 else w) = 0) (misaligned a))
    let elems := (activeOf act n).zipIdx.map fun x => if x.1 then some (a + x.2 * w) else none
    let total := seBytes tag n
    let src := if se then byteRun a total else elemBytes w elems
    let runs := if se then [(a, total)] else (elems.filterMap id).map fun x => (x, w)
    let kind : LoadKind := .vreg o.v (BitVec.ofNat 4 tag) act
    match o.p.toNat with
    | 0 => do
      chk (checkReach runs)
      chk (loadSp kind src runs (if o.x = 1 then some e.tag.toNat else none) (portCycles (src.filterMap id).length) s)
    | 1 => do
      let ls ← xlateFar s false (runLines runs)
      .ok (loadFar kind src ls true s)
    | 2 => chk (loadWt kind src runs s)
    | _ => snag (trapOf .illegal)
where
  /-- Every run lies in the scratchpad range; the first that does not is reported (R411). -/
  checkReach (runs : List (Nat × Nat)) : Chk Unit :=
    match runs.find? fun r => 0x80000 < r.1 + r.2 with
    | some r => .error (misaligned r.1)
    | none => .ok ()

/-! ### GLD (R428) -/

/-- The checks of an index vector for `n` elements (R428). -/
def indexCheck (i : BitVec 5) (x : VReg) (n : Nat) : Chk Unit := do
  vTagIn i x [tagIndex32]
  need (vCount x = n) (formatTrap fileV i.toNat [tagIndex32] x.tag.toNat)

/-- The address of each active element, none for index 0xFFFF_FFFF and for inactive ones. -/
def indexAddrs (base w : Nat) (x : VReg) (act : List Bool) : List (Option Nat) :=
  (act.zip (elemsOf x.data.toNat 32 (vCount x))).map fun p => if p.1 && p.2 ≠ 0xFFFFFFFF then some (base + p.2 * w) else none

def execGld (o : IdxOp) (s : State) : Out :=
  runMem .colL s do
    let e := readE s o.e
    let old := readV s o.v
    let tag ← chk (loadTag e old.tag.toNat)
    chk (need (o.p.toNat ≤ 1) (trapOf .illegal))
    let n := vCount old
    let mask := readM s o.k
    let act := activeOf mask n
    let _ ← chk (vFree s o.v)
    chk (keepable old tag act)
    let x ← chk (vReady s o.i)
    chk (portReady s .colL)
    chk (if o.p = 0 then .ok () else loadRoom s)
    chk (indexCheck o.i x n)
    chk (need (!isSe tag) (formatTrap fileV o.v.toNat [0, 1, 2, 3, 4, 5, 9, 10, 11, 12, 13] tag))
    chk (unpoisoned x.poison)
    let w := tagWidth tag / 8
    let elems := indexAddrs e.addr.toNat w x act
    let addrs := elems.filterMap id
    let runs := addrs.map fun a => (a, w)
    chk (match addrs.find? fun a => a % w ≠ 0 || (o.p = 0 && 0x80000 < a + w) with
      | some a => .error (misaligned a)
      | none => .ok ())
    let kind : LoadKind := .vreg o.v (BitVec.ofNat 4 tag) mask
    let src := elemBytes w elems
    if o.p = 0 then
      chk (loadSp kind src runs none (ceilDiv (act.filter id).length 32) s)
    else do
      let ls ← xlateFar s false (runLines runs)
      .ok (loadFar kind src ls false s)

/-! ### BFX (R429) -/

def execBfx (o : BfxOp) (s : State) : Out :=
  runMem .colL s do
    let e := readE s o.e
    let old := readV s o.v
    let tag ← chk (loadTag e old.tag.toNat)
    let pattern := (s.core.p[o.p.toNat]'o.p.isLt)
    chk (need (o.s.toNat ≤ 1) (trapOf .illegal))
    match patternOf pattern with
    | none => snag (trapOf .illegal)
    | some (period, fs) => do
      let isInt : Bool := [9, 10, 11, 12, 13].contains tag
      chk (need (!isInt || fs.all fun f => f.2.1 ≤ tagWidth tag) (trapOf .illegal))
      let _ ← chk (vFree s o.v)
      chk (portReady s .colL)
      chk (if o.s = 0 then .ok () else loadRoom s)
      chk (need isInt (formatTrap fileV o.v.toNat [9, 10, 11, 12, 13] tag))
      let a := e.addr.toNat
      let n := patternBytes period fs.length (vCount old)
      let kind : LoadKind := .bitfield o.v (BitVec.ofNat 4 tag) pattern
      if o.s = 0 then do
        let b ← chk (spBase e n)
        chk (loadSp kind (byteRun b n) [(b, n)] none (portCycles n) s)
      else do
        let ls ← xlateFar s false (runLines [(a, n)])
        .ok (loadFar kind (byteRun a n) ls false s)

/-! ### KVX (R430, 07 R219) -/

/-- The key under which the translation buffer holds a sequence-table entry: above every virtual address. -/
def seqKey (n : Nat) : Nat := 2 ^ 60 + 65536 * n

/-- The place of a sequence entry in the buffer. -/
def seqPage (w : BitVec 6) (n : Nat) : Pte := { world := w, va := seqKey n, pages := 1, pa := 0, write := false, exec := false, keySlot := 0 }

/-- The address of position `p` among extents. -/
def extentAddr (p : Nat) : List Extent → Nat → Option Nat
  | [], _ => none
  | x :: xs, start => if p < start + x.len then some (x.base + (p - start) * x.stride) else extentAddr p xs (start + x.len)

/-- The address of a position of a sequence, with the faults of R219. -/
def kvAddr (s : State) (seq p : Nat) : Chk Nat :=
  let part := (partOfCore s s.coreId).getD 0
  match (getPart s part).seqs.find? fun q => q.num = seq with
  | none => .error (trapOf .kvExtent)
  | some q =>
    if q.world ≠ s.core.sys.world then .error (trapOf .world)
    else if q.stopped then .error (trapOf .kvExtent)
    else
      match extentAddr p q.extents 0 with
      | none => .error (trapOf .kvExtent)
      | some va => if (findPte s q.world va).isSome then .ok va else .error { cause := .unmapped, addr := BitVec.ofNat 64 va }

/-- KVX: an empty queue blocks; an entry whose word traps or stalls stays in the queue. -/
def execKvx (o : KvxOp) (s : State) : Out :=
  let q := readQ s o.q
  match queueReadable q (cyc s) with
  | [] => .next (colBlock .colL s)
  | x :: _ =>
    runMem .colL s do
      let payload := if x.token then 0 else x.payload.toNat
      let seq := payload / 2 ^ 32 % 2 ^ 16
      chk (unpoisoned x.poison)
      if tlbHolds s.core s.core.sys.world (seqKey seq) then .ok () else .error (.walk [seqKey seq])
      let va ← chk (kvAddr s seq (payload % 2 ^ 32))
      .ok (post (cyc s + 8) 1 (.eAddr o.e (BitVec.ofNat 48 va)) (writeQ o.q (queuePop q (cyc s)) s))

/-! ### WLD (R431, 06 R192) -/

/-- The cycle of the core in which the `n`th cycle of the 1.6 GHz clock from now falls. -/
def coreAfter (s : State) (n : Nat) : Cycle := cyc s + coreCycles s s.coreId n

/-- Some cycle of the occupancy x + 12 to x + 43 lies in the bank's refresh window. -/
def refreshHits (s : State) (b : Nat) : Bool :=
  (List.range 32).any fun i => (s.now + 12 + i + 4096 - refreshStart s (stackOf s.coreId) b) % 4096 < 64

/-- The first calendar cycle in which the bank is free of the WLDs of every core of the stack. -/
def bankFreeAt (s : State) (b : Nat) : Cycle :=
  ((coreNos s).filter fun c => stackOf c = stackOf s.coreId).foldl (fun m c => max m ((assocGet (getCore s c).banks b).getD 0)) 0

def execWld (o : WldOp) (s : State) : Out :=
  runCol .colL s do
    let e := readE s o.e
    let off := e.addr.toNat
    let b := off / 2 ^ 24
    tagUsable (o.t = 1) e
    need (off % 512 = 0) (misaligned off)
    need (off ≤ 0x3FFFFFFF && bankOwned s b) { cause := .permission, addr := BitVec.ofNat 64 off }
    portReady s .colL
    need (o.t = 0 || (getSlot s.core o.s.toNat).pend ≠ 15) { lateTrap with slot := some o.s.toNat }
    need (!refreshHits s b && bankFreeAt s b ≤ s.now + 12) lateTrap
    let due := coreAfter s 52
    let base := 4096 * o.s.toNat + 512 * o.k.toNat
    let s1 := (List.range 8).foldl (fun s i =>
      let l := lineAt s (weightPa s (off + 64 * i)) 0
      post due 1 (.localWrite (base + 64 * i) l.bytes l.poison) s) s
    let s2 := if o.t = 1 then post due 1 (.slotLand o.s.toNat e.tag (cyc s)) (post (cyc s) 1 (.slotPend o.s.toNat) s1) else s1
    .ok (colNext .colL (holdPort .colL 1 (modCore (fun k => { k with banks := assocPut k.banks b (s.now + 44) }) s2)))

end Sys2Proof.Machine
end

