-- ==== Sys2Proof/Machine/Special.lean ====
section
/-! DEFINITION. The special functions and their tables (08_formats R254 to R260). -/

namespace Sys2Proof.Machine

/-- The greatest number of at most `n + 1` bits that meets a condition met by all smaller ones. -/
def greatest (p : Nat → Bool) : Nat → Nat → Nat
  | 0, acc => if p (acc + 1) then acc + 1 else acc
  | n + 1, acc => greatest p n (if p (acc + 2 ^ (n + 1)) then acc + 2 ^ (n + 1) else acc)

/-- T[j] = RN(2^(j/64)): the significand m with (2m − 1)/2 ≤ 2^(23 + j/64). -/
def tabT (j : Nat) : XReal := .fin false (greatest (fun m => (2 * m - 1) ^ 64 ≤ 2 ^ (64 * 24 + j)) 23 0) (-23)

/-- C[j] = RN(1/(1 + j/64)). -/
def tabC (j : Nat) : XReal := (roundRatio .fp32 .rne 0 false 64 (64 + j) 0).1

/-- Q[j] = RN(1/√(1 + j/64)): the significand m with (2m − 1)/2^25 ≤ 8/√(64 + j). -/
def tabQ (j : Nat) : XReal := .fin false (greatest (fun m => (2 * m - 1) ^ 2 * (64 + j) ≤ 64 * 2 ^ 50) 24 0) (-24)

/-- The patterns of L[j] = RN(log₂(1 + j/64)), for j from 0 to 64. -/
def tabLBits : List Nat :=
    [0x00000000, 0x3CB73CB4, 0x3D35D69C, 0x3D8759C5, 0x3DB31FB8, 0x3DDE4212, 0x3E0462C4, 0x3E19574F, 0x3E2E00D2, 0x3E42615F, 0x3E567AF1] ++
    [0x3E6A4F72, 0x3E7DE0B6, 0x3E88983F, 0x3E92203D, 0x3E9B8926, 0x3EA4D3C2, 0x3EAE00D2, 0x3EB7110E, 0x3EC0052B, 0x3EC8DDD4, 0x3ED19BB0] ++
    [0x3EDA3F60, 0x3EE2C97D, 0x3EEB3A9F, 0x3EF39355, 0x3EFBD42B, 0x3F01FED4, 0x3F060828, 0x3F0A0650, 0x3F0DF989, 0x3F11E20F, 0x3F15C01A] ++
    [0x3F1993E3, 0x3F1D5DA0, 0x3F211D84, 0x3F24D3C2, 0x3F28808C, 0x3F2C2411, 0x3F2FBE80, 0x3F335004, 0x3F36D8CB, 0x3F3A58FF, 0x3F3DD0C8] ++
    [0x3F41404F, 0x3F44A7BA, 0x3F480731, 0x3F4B5ED7, 0x3F4EAED0, 0x3F51F740, 0x3F553848, 0x3F587209, 0x3F5BA4A4, 0x3F5ED039, 0x3F61F4E5] ++
    [0x3F6512C7, 0x3F6829FB, 0x3F6B3A9F, 0x3F6E44CD, 0x3F7148A1, 0x3F744636, 0x3F773DA4, 0x3F7A2F04, 0x3F7D1A71, 0x3F800000]

def tabL (j : Nat) : XReal := fp32 (tabLBits.getD j 0)

/-- An integer scaled by 2^k, rounded down, and to the nearest with ties upwards. -/
def floorInt (x k : Int) : Int := if 0 ≤ k then x * (2 ^ k.toNat : Nat) else x / (2 ^ (-k).toNat : Nat)
def nearInt (x k : Int) : Int := if 0 ≤ k then x * (2 ^ k.toNat : Nat) else (2 * x + (2 ^ (-k).toNat : Nat)) / (2 * (2 ^ (-k).toNat : Nat))

/-- The signed mantissa of a finite value. -/
def signedMant (s : Bool) (m : Nat) : Int := if s then -(m : Int) else m

/-- j / 64. -/
def over64 (j : Int) : XReal := XReal.ofScaled j (-6)

/-- The constants of R254. -/
def kOne : XReal := .fin false 1 0
def k1 : XReal := fp32 0x3F317218
def k2 : XReal := fp32 0x3E75FDF0
def d1 : XReal := fp32 0x3FB8AA3B
def d2 : XReal := fp32 0xBF38AA3B
def d3 : XReal := fp32 0x3EF6384F

/-- |x| lies below 2^-126. -/
def tiny (x : XReal) : Bool :=
  match x with
  | .fin _ m e => m = 0 || cmpMag m e 1 (-126) = -1
  | _ => false

/-- Exp2Alg (R255). -/
def exp2Alg (x : XReal) : XReal × FpFlags :=
  match x with
  | .nan => (.nan, {})
  | .inf s => if s then (XReal.zero, {}) else (.inf false, {})
  | .fin s m e =>
    let a := signedMant s m
    let n0 := floorInt a e
    if 128 ≤ n0 then (.inf false, { ov := true })
    else if n0 < -126 then (XReal.zero, {})
    else
      let j0 := nearInt a (e + 6) - 64 * n0
      let n := if j0 = 64 then n0 + 1 else n0
      let j := if j0 = 64 then 0 else j0
      let g := rn (xsum [x, XReal.ofInt (-n), over64 (-j)])
      let t := tabT j.toNat
      let y := rn (xsum [t, rn (xmul t (rn (xmul g (rn (xsum [k1, rn (xmul k2 g)])))))])
      (rn (y.scale n), {})

/-- Log2Alg (R256). -/
def log2Alg (x : XReal) : XReal × FpFlags :=
  match x with
  | .nan => (.nan, {})
  | .inf s => if s then (.nan, { nv := true }) else (.inf false, {})
  | .fin s m e =>
    if m = 0 then (.inf true, { dz := true })
    else if s then (.nan, { nv := true })
    else
      let l : Int := m.log2
      let n := l + e
      let y := XReal.fin false m (-l)
      let j := nearInt ((m : Int) - (2 ^ m.log2 : Nat)) (6 - l)
      let u := rn (xmul (xsum [y, XReal.neg (xsum [kOne, over64 j])]) (tabC j.toNat))
      let z := rn (xsum [tabL j.toNat, rn (xmul u (rn (xsum [d1, rn (xmul u (rn (xsum [d2, rn (xmul d3 u)])))])))])
      (rn (xsum [XReal.ofInt n, z]), {})

/-- RcpAlg (R257). -/
def rcpAlg (x : XReal) : XReal × FpFlags :=
  match x with
  | .nan => (.nan, {})
  | .inf s => (.fin s 0 0, {})
  | .fin s m e =>
    if m = 0 then (.inf s, { dz := true })
    else
      let l : Int := m.log2
      let n := l + e
      let y := XReal.fin false m (-l)
      let j := nearInt ((m : Int) - (2 ^ m.log2 : Nat)) (6 - l)
      let c := tabC j.toNat
      let h := rn (xsum [kOne, XReal.neg (xmul y c)])
      let w := rn (xmul h (rn (xsum [kOne, rn (xmul h (rn (xsum [kOne, h])))])))
      let z := rn (xsum [c, rn (xmul c w)])
      let r := z.scale (-n)
      if tiny r then (.fin s 0 0, {}) else ((if s then XReal.neg (rn r) else rn r), {})

/-- RsqAlg (R258). -/
def rsqAlg (x : XReal) : XReal × FpFlags :=
  match x with
  | .nan => (.nan, {})
  | .inf s => if s then (.nan, { nv := true }) else (XReal.zero, {})
  | .fin s m e =>
    if m = 0 then (.inf s, { dz := true })
    else if s then (.nan, { nv := true })
    else
      let ex : Int := (m.log2 : Int) + e
      let k := ex / 2
      let w := XReal.fin false m (e - 2 * k)
      let j := nearInt (m : Int) (e - 2 * k + 6) - 64
      let q := tabQ j.toNat
      let h := rn (xsum [kOne, XReal.neg (xmul w (xmul q q))])
      let z := rn (xsum [q, rn (xmul q (rn (xmul h (rn (xsum [.fin false 1 (-1), rn (xmul h (rn (xsum [.fin false 3 (-3),
        rn (xmul (.fin false 5 (-4)) h)])))])))))])
      let r := z.scale (-k)
      if tiny r then (XReal.zero, {}) else (rn r, {})

/-- SqrtAlg (R259). -/
def sqrtAlg (x : XReal) : XReal × FpFlags :=
  match x with
  | .nan => (.nan, {})
  | .inf s => if s then (.nan, { nv := true }) else (.inf false, {})
  | .fin s m e =>
    if m = 0 then (.fin s 0 e, {})
    else if s then (.nan, { nv := true })
    else
      let z := (rsqAlg x).1
      let t := rn (xmul x z)
      let d := rn (xsum [x, XReal.neg (xmul t t)])
      (rn (xsum [t, xmul (z.scale (-1)) d]), {})

/-- SigmAlg (R260). -/
def sigmAlg (x : XReal) : XReal × FpFlags :=
  match x with
  | .nan => (.nan, {})
  | .inf s => if s then (XReal.zero, {}) else (kOne, {})
  | .fin _ _ _ =>
    let e := (exp2Alg (XReal.neg (rn (xmul x d1)))).1
    ((rcpAlg (rn (xsum [kOne, e]))).1, {})

end Sys2Proof.Machine
end

