-- ==== Sys2Proof/Machine/Matrix.lean ====
section
/-! DEFINITION. The matrix array, its side path, the accumulators and streaming softmax (14_isa_matrix; 08_formats R252, R261 to R264;
07_serving_structures R210 to R214; 06_core R193). -/

namespace Sys2Proof.Machine

/-! ### Operand tiles (R393, R394) -/

/-- The depth of a tile's format, its class and the accumulator tag; none where no step takes it. -/
def tileClass (tag : Nat) : Option (Nat × Nat × List Nat) :=
  if tag = tagBf16 then some (32, tagFp32, [tagBf16])
  else if tag = tagFp16 then some (32, tagFp32, [tagFp16])
  else if tag = tagE4m3 || tag = tagE5m2 || tag = tagSe7 then some (64, tagFp32, [tagE4m3, tagE5m2, tagSe7])
  else if tag = tagInt8 || tag = tagUint8 then some (64, tagInt32, [tagInt8, tagUint8])
  else if tag = tagSe4 then some (128, tagFp32, [tagSe4])
  else if tag = tagSe2 then some (256, tagFp32, [tagSe2])
  else none

/-- The tags of matrix operands. -/
def tagsTile : List Nat := [2, 3, 4, 5, 6, 7, 8, 9, 12]

/-- The depth and accumulator tag of a pair, or the format-tag trap of its first bad operand (R394). -/
def pairClass (a b : BitVec 4) (ta tb : TReg) : Chk (Nat × Nat) :=
  match tileClass ta.tag.toNat with
  | none => .error (formatTrap fileT a.toNat tagsTile ta.tag.toNat)
  | some (d, acc, set) =>
    if set.contains tb.tag.toNat then .ok (d, acc) else .error (formatTrap fileT b.toNat set tb.tag.toNat)

/-- A list cut into runs of `n`. -/
def runsOf {α : Type} (n : Nat) : Nat → List α → List (List α)
  | 0, _ => []
  | k + 1, l => l.take n :: runsOf n k (l.drop n)

/-- The elements of a tile in order, 64 runs of `d`: the rows of A, or the columns of B. -/
def tileRuns (t : TReg) (d : Nat) : List (List XReal) :=
  let tag := t.tag.toNat
  let x := t.data.toNat
  runsOf d 64 (if isSe tag then (List.range (64 * d)).map (seValue x tag (64 * d)) else (elemsOf x (tagWidth tag) (64 * d)).map (decodeTag tag))

/-- A row of dense elements with their depths. -/
def denseRow (l : List XReal) : List (Nat × XReal) := l.zipIdx.map fun x => (x.2, x.1)

/-! ### One step's arithmetic (08 R252, 07 R212, R213) -/

/-- Flags with NV joined. -/
def FpFlags.withNv (f : FpFlags) (nv : Bool) : FpFlags := { f with nv := f.nv || nv }

def orFlags (l : List FpFlags) : FpFlags := l.foldl FpFlags.or {}

/-- A sum rounded into FP32, or saturated into INT32. -/
def roundSum (tag : Nat) (terms : List (XReal × Bool)) : Nat × FpFlags :=
  let x := sumProducts false terms
  let r := roundBits tag .rne 0 (tag = tagFp32) x.1
  (r.1, r.2.withNv x.2)

/-- A cell: the old sum and the products of a row of A with a column of B, rounded once. -/
def stepCell (tag old : Nat) (row : List (Nat × XReal)) (col : Array XReal) : Nat × FpFlags :=
  roundSum tag ((decodeTag tag old, false) :: row.map fun x => xmulNv x.2 (col.getD x.1 XReal.zero))

/-- The cells of one row. -/
def stepRow (tag : Nat) (olds : List Nat) (row : List (Nat × XReal)) (cols : List (Array XReal)) : List (Nat × FpFlags) :=
  (olds.zip cols).map fun x => stepCell tag x.1 row x.2

/-- What stands at each depth of a row: the exact sum of the elements there, +0 where none does (R398). -/
def expandRow (depth : Nat) (row : List (Nat × XReal)) : List XReal :=
  (List.range depth).map fun k => xsum ((row.filter fun x => x.1 = k).map (·.2))

/-- A group with its adapter: group number, rank, layer and projection entry, version. -/
structure SideGroup where
  g : Nat
  rank : Nat
  ver : Version
  entry : Nat × Nat × Nat × Nat
  deriving DecidableEq, Repr

/-- The factor elements A(V, row, j) and B(V, i, col); 0 beyond K and beyond N (R212, R213). -/
def facA (s : State) (x : SideGroup) (row j : Nat) : XReal :=
  if row < x.entry.2.2.1 then decodeTag tagBf16 (factorAt s x.entry.1 (2 * (row * x.rank + j))) else XReal.zero

def facB (s : State) (x : SideGroup) (i col : Nat) : XReal :=
  if col < x.entry.2.2.2 then decodeTag tagBf16 (factorAt s x.entry.2.1 (2 * (i * x.entry.2.2.2 + col))) else XReal.zero

/-- The place of side[g][row][j] among the side accumulators. -/
def sideIndex (g row j : Nat) : Nat := (8 * g + row) * 64 + j

/-- One group's slice into its side accumulators: the cells of its eight rows (R212). -/
def sideSlice (s : State) (x : SideGroup) (kc : Nat) (rows : List (List XReal)) (side : List Nat) : List (Nat × Nat × FpFlags) :=
  (List.range 8).flatMap fun r =>
    let row := rows.getD (8 * x.g + r) []
    (List.range x.rank).map fun j =>
      let old := side.getD (sideIndex x.g r j) 0
      (sideIndex x.g r j, roundSum tagFp32 ((fp32 old, false) :: row.zipIdx.map fun e => xmulNv e.1 (facA s x (kc + e.2) j)))

/-- The cells of a group at the close: correction, scale and add, each rounded once (R213). -/
def closeCells (s : State) (x : SideGroup) (blk : Nat) (side sums : List Nat) : List (Nat × Nat × FpFlags) :=
  (List.range 8).flatMap fun r => (List.range 64).map fun c =>
    let corr := roundSum tagFp32 ((List.range x.rank).map fun i => xmulNv (fp32 (side.getD (sideIndex x.g r i) 0)) (facB s x i (64 * blk + c)))
    let scaled := roundSum tagFp32 [xmulNv (fp32 x.ver.alpha.toNat) (fp32 corr.1)]
    let at_ := (8 * x.g + r) * 64 + c
    let out := roundSum tagFp32 [(fp32 (sums.getD at_ 0), false), (fp32 scaled.1, false)]
    (at_, out.1, orFlags [corr.2, scaled.2, out.2])

/-- Cells of a list replaced. -/
def setCells (l : List Nat) (cells : List (Nat × Nat × FpFlags)) : List Nat :=
  (cells.foldl (fun (a : Array Nat) x => a.setIfInBounds x.1 x.2.1) l.toArray).toList

/-! ### Accumulators as lists of cells -/

def accCells (a : Acc) : List Nat := elemsOf a.sums.toNat 32 4096
def sideCells (a : Acc) : List Nat := elemsOf a.side.toNat 32 4096
def packCells (l : List Nat) : BitVec 131072 := BitVec.ofNat 131072 (packBits 32 l)

def writeAcc (n : BitVec 2) (a : Acc) (s : State) : State := modCore (fun k => { k with a := k.a.set n.toNat a n.isLt }) s

/-- No step or other write of the accumulator is still to complete (R396). -/
def accFree (s : State) (n : BitVec 2) : Chk Acc :=
  let a := readA s n
  if cyc s < a.stepDone || cyc s < a.writeDone then .error lateTrap else .ok a

/-- A format-tag trap of an accumulator. -/
def accTrap (n : BitVec 2) (accepts : List Nat) (a : Acc) : Trap := formatTrap fileA n.toNat accepts a.tag.toNat

def accFp32 (n : BitVec 2) (a : Acc) : Chk Unit := need (a.tag.toNat = tagFp32) (accTrap n [tagFp32] a)

/-! ### The array and its gating (06 R193) -/

/-- The wake delay of a step or a close that issues now. -/
def wakeDelay (s : State) : Nat :=
  let u := s.core.units
  if cyc s < u.awake then u.awake - cyc s else if u.gated then gateWake else 0

/-- The array taken until a cycle. -/
def takeArray (till : Cycle) (k : Core) : Core := { k with units := { k.units with array := till, gated := false, lastUse := till } }

def arrayFree (s : State) : Chk Unit := need (s.core.units.array ≤ cyc s) lateTrap

/-! ### The side path's checks (07 R205, R206) -/

/-- The pin of a group, where it is a pin of the group's handle. -/
def groupPin (s : State) (n : BitVec 2) (g : Nat) : Option (BitVec 32) :=
  match (readAh s n).pins.toList.getD g none with
  | some (h, v) => if h = groupHandle s.core n.toNat g then some v else none
  | none => none

/-- The groups with a handle (R210). -/
def usedGroups (s : State) (n : BitVec 2) : List Nat := (List.range 8).filter fun g => groupHandle s.core n.toNat g ≠ 0

/-- What a step latches: none for an INT32 accumulator (R397). -/
def freshLatches (s : State) (n : BitVec 2) (tag : Nat) : List (Option (BitVec 32)) :=
  (List.range 8).map fun g => if tag = tagInt32 || groupHandle s.core n.toNat g = 0 then none else groupPin s n g

/-- The adapter of a group under a version. -/
def sideGroup (s : State) (n : BitVec 2) (layer proj g : Nat) (v : BitVec 32) : Option SideGroup :=
  (findAht s (groupHandle s.core n.toNat g)).bind fun a => (findVersion a v).map fun r =>
    { g := g, rank := rankOf a, ver := r, entry := dirEntry s r layer proj }

/-- The checks of R206 for one group; `ver` is the version the step would use. -/
def checkGroup (s : State) (n : BitVec 2) (tag g : Nat) (ver : Option (BitVec 32)) : Chk Unit :=
  let h := groupHandle s.core n.toNat g
  let p := (partOfCore s s.coreId).getD 0
  let ctx := (readA s n).ctx
  let found := (groupPin s n g).bind fun _ => ver.bind fun v => (liveAht s h).bind fun a => (findVersion a v).map fun r => (a, r)
  match found with
  | none => .error (trapOf .adapterResidency)
  | some (a, r) =>
    if (assocGet r.resident p).isNone || r.layers ≤ ctx.layer.toNat || r.projs ≤ ctx.proj.toNat then .error (trapOf .adapterResidency)
    else if !mayUse a s.core.sys.world then .error (trapOf .world)
    else need (tag ≠ tagInt32) (formatTrap fileA n.toNat [tagFp32] tag)

/-- The first failure of a list of checks. -/
def checkAll {α : Type} (f : α → Chk Unit) : List α → Chk Unit
  | [] => .ok ()
  | x :: xs => match f x with
    | .error t => .error t
    | .ok () => checkAll f xs

/-! ### A step (R396, R397) -/

/-- A step that has read its operands: rows of A with the depth of each element, columns of B, depth, accumulator tag, poison, and the extra delay of
a gather. -/
structure MatStep where
  n : BitVec 2
  side : Bool
  fresh : Bool
  close : Bool
  rows : List (List (Nat × XReal))
  cols : List (Array XReal)
  depth : Nat
  tag : Nat
  poison : Bool
  gather : Nat
  source : Nat
  pc : Dword

/-- Checks of R397 that come first: a window open to the C stream, and SIDE with no context. -/
def stepLegal (s : State) (n : BitVec 2) (side fresh follow : Bool) : Chk Unit :=
  let a := readA s n
  need (!((a.window && !follow) || (side && !fresh && !a.ctx.isOpen))) (trapOf .illegal)

/-- The array is free, and no other word's write of the accumulator is to come (R396). -/
def stepFree (s : State) (n : BitVec 2) : Chk Unit := do
  arrayFree s
  need ((readA s n).writeDone ≤ cyc s) lateTrap

/-- Format checks on the accumulator: its tag without FRESH, and a close on an INT32 accumulator that holds a latch (R397 step 3, R400). -/
def stepTag (s : State) (n : BitVec 2) (fresh close : Bool) (tag : Nat) : Chk Unit := do
  let a := readA s n
  if fresh then .ok () else need (a.tag.toNat = tag) (accTrap n [tag] a)
  if close && !fresh && a.tag.toNat = tagInt32 && a.ctx.isOpen && a.ctx.latched.toList.any (·.isSome) then .error (accTrap n [tagFp32] a) else .ok ()

/-- With SIDE, the checks of R206 on every group with a handle. -/
def stepSide (s : State) (n : BitVec 2) (side fresh : Bool) (tag : Nat) : Chk Unit :=
  let l := (readA s n).ctx.latched.toList
  if side then checkAll (fun g => checkGroup s n tag g (if fresh then groupPin s n g else l.getD g none)) (usedGroups s n) else .ok ()

/-- The accumulator as a FRESH step starts from it: no sums, no side sums, the context opened (R397). -/
def freshAcc (a : Acc) (tag : Nat) (latches : List (Option (BitVec 32))) : Acc :=
  { a with sums := 0, tag := BitVec.ofNat 4 tag, poison := false, sat := 0, side := 0,
           ctx := { a.ctx with isOpen := true, closing := 0, cursor := 0, latched := Vector.ofFn fun i => latches.getD i.val none } }

/-- Latches given back in a cycle (07 R203). -/
def releaseLatches (due : Cycle) (n : Nat) (k : Core) : Core := { k with unpins := k.unpins ++ (latchesOf k n).map fun p => (due, p) }

/-- Latches of a FRESH step taken. -/
def takeLatches (n : Nat) (s : State) : State :=
  (latchesOf s.core n).foldl (takeReader ((partOfCore s s.coreId).getD 0)) s

/-- The groups that a side path works on: those with a version. -/
def sideGroups (s : State) (n : BitVec 2) (ctx : SideCtx) : List SideGroup :=
  (usedGroups s n).filterMap fun g => (ctx.latched.toList.getD g none).bind (sideGroup s n ctx.layer.toNat ctx.proj.toNat g)

/-- The flags of a write in cycle `due`: into FP_STICKY with it, and a trap with that trap cycle where an enabled one is set (08 R245). -/
def postFlags (due : Cycle) (f : FpFlags) (source : Nat) (pc : Dword) (s : State) : State :=
  if f.bits = 0 then s
  else modCore (fun k => { k with deferred := k.deferred ++ [(due, { cause := .floating f.bits, source := source, pc := pc })] }) (post due 2 (.sticky f.bits) s)

/-- The correction of a close added, and the context closed by a close that completes in cycle `due` (R213, R397). -/
def closeAcc (s : State) (due : Cycle) (groups : List SideGroup) (a : Acc) : Acc × FpFlags :=
  let cells := groups.flatMap fun x => closeCells s x a.ctx.blk.toNat (sideCells a) (accCells a)
  let cleared := (sideCells a).zipIdx.map fun x => if groups.any fun q => q.g = x.2 / 512 then 0 else x.1
  ({ a with sums := packCells (setCells (accCells a) cells), side := packCells cleared,
            ctx := { a.ctx with isOpen := false, closing := due } }, orFlags (cells.map (·.2.2)))

/-- The cycles of a close over groups with a version (R214). -/
def closeCycles (groups : List SideGroup) : Nat := ceilDiv ((groups.map fun x => 512 * x.rank).foldl (· + ·) 0) 1024

/-- A step that has passed its checks (R397). -/
def runStep (m : MatStep) (s : State) : State :=
  let c := cyc s
  let w := wakeDelay s
  let n := m.n.toNat
  let s := if m.fresh then
      let l := freshLatches s m.n m.tag
      takeLatches n (writeAcc m.n (freshAcc (readA s m.n) m.tag l) (modCore (releaseLatches c n) s))
    else s
  let a := readA s m.n
  let ctx := a.ctx
  let cells := (runsOf 64 64 (accCells a)).zip m.rows |>.map fun x => stepRow m.tag x.1 x.2 m.cols
  let sat := (BitVec.ofNat 64 (packBits 1 (cells.map fun r => (r.any fun x => x.2.sat).toNat)))
  let sums := packCells (cells.flatMap fun r => r.map (·.1))
  let groups := sideGroups s m.n ctx
  let rows := if m.side then m.rows.map (expandRow m.depth) else []
  let side := if m.side then groups.flatMap fun x => sideSlice s x ctx.cursor rows (sideCells a) else []
  let f1 := orFlags ((cells.flatMap fun r => r.map (·.2)) ++ side.map (·.2.2))
  let a := { a with sums := sums, sat := a.sat ||| sat, side := if m.side then packCells (setCells (sideCells a) side) else a.side,
                    ctx := if ctx.isOpen then { ctx with cursor := ctx.cursor + m.depth } else ctx, poison := a.poison || m.poison }
  let closing := m.close && ctx.isOpen
  let sideRanks := if m.side then ((usedGroups s m.n).map fun g => ((findAht s (groupHandle s.core n g)).map rankOf).getD 0) else []
  let t := max 64 (ceilDiv ((sideRanks.map fun r => 8 * r * m.depth).foldl (· + ·) 0) 1024)
  let cl := if closing then closeCycles groups else 0
  let free := c + w + m.gather + t + cl
  let due := free + 8
  let s := if closing then modCore (releaseLatches due n) s else s
  let (a, f2) := if closing then closeAcc s due groups a else (a, {})
  let s := writeAcc m.n { a with stepDone := due + 1 } s
  let s := modCore (takeArray free) s
  postFlags due (f1.or f2) m.source m.pc s

/-- The source code and address that a C word's trap record names. -/
def wordSource : Nat := colOrder .colC

/-- MMA (R397), of the C column or of a follow-on word. -/
def mmaStep (o : MmaOp) (follow : Bool) (source : Nat) (pc : Dword) (s : State) : Chk State := do
  let side := o.s = 1
  let fresh := o.f = 1
  let close := o.c = 1
  stepLegal s o.n side fresh follow
  let a ← tReady s o.a
  let b ← tReady s o.b
  stepFree s o.n
  let (d, tag) ← pairClass o.a o.b a b
  stepTag s o.n fresh close tag
  stepSide s o.n side fresh tag
  .ok (runStep { n := o.n, side := side, fresh := fresh, close := close, rows := (tileRuns a d).map denseRow,
                 cols := (tileRuns b d).map (·.toArray), depth := d, tag := tag, poison := a.poison || b.poison, gather := 0, source := source, pc := pc } s)

/-- The sparsity ratio of a format (R398). -/
def rhoOf (tag : Nat) : Nat := if tag = tagBf16 || tag = tagFp16 then 2 else 4

/-- A row of compressed elements with their depths: element i stands at (i DIV N)·M + idx (R398). -/
def sparseRow (x : Nat) (d m nn r : Nat) (l : List XReal) : List (Nat × XReal) :=
  l.zipIdx.map fun e => (e.2 / nn * m + elemAt x 4 (r * d + e.2) % m, e.1)

/-- Every tile of a run from `b` present. -/
def tilesReady (s : State) (b : BitVec 4) : Nat → Chk (List TReg)
  | 0 => .ok []
  | k + 1 => do
    let rest ← tilesReady s b k
    let t ← tReady s (b + BitVec.ofNat 4 k)
    .ok (rest ++ [t])

/-- The first of a list of tiles from `b` whose tag is another than the first's traps. -/
def tilesAlike (b : BitVec 4) (l : List TReg) : Chk Unit :=
  match l with
  | [] => .ok ()
  | t :: _ => checkAll (fun x => tTagIn (b + BitVec.ofNat 4 x.2) x.1 [t.tag.toNat]) l.zipIdx

/-- MMAS (R398), of the C column or of a follow-on word. -/
def mmasStep (o : MmasOp) (follow : Bool) (source : Nat) (pc : Dword) (s : State) : Chk State := do
  let side := o.s = 1
  let fresh := o.f = 1
  let close := o.c = 1
  let rho := rhoOf (readT s o.a).tag.toNat
  stepLegal s o.n side fresh follow
  need (o.b.toNat % rho = 0 || (tileClass (readT s o.a).tag.toNat).isNone) (trapOf .illegal)
  let a ← tReady s o.a
  let bs ← tilesReady s o.b rho
  let x ← tReady s o.x
  stepFree s o.n
  let (d, tag) ← pairClass o.a o.b a (bs.headD TReg.zero)
  tilesAlike o.b bs
  tTagIn o.x x [tagRaw, tagUint8]
  stepTag s o.n fresh close tag
  unpoisoned x.poison
  stepSide s o.n side fresh tag
  let m := 4 * 2 ^ o.m.toNat
  let rows := (tileRuns a d).zipIdx.map fun r => sparseRow x.data.toNat d m (m / rho) r.2 r.1
  let cols := bs.foldl (fun (l : List (List XReal)) t => (l.zip (tileRuns t d)).map fun p => p.1 ++ p.2) (List.replicate 64 [])
  .ok (runStep { n := o.n, side := side, fresh := fresh, close := close, rows := rows, cols := cols.map (·.toArray), depth := rho * d, tag := tag,
                 poison := a.poison || bs.any (·.poison), gather := 0, source := source, pc := pc } s)

/-- The scratchpad address of the row that an index names; none for the row of zeros (R399). -/
def gatherAddr (slot j : Nat) : Option Nat := if j = 0xFFFFFFFF then none else some (4096 * slot + 64 * j)

/-- MMAG (R399). -/
def mmagStep (o : MmagOp) (source : Nat) (pc : Dword) (s : State) : Chk State := do
  let side := o.s = 1
  let fresh := o.f = 1
  let close := o.c = 1
  stepLegal s o.n side fresh false
  let b ← tReady s o.b
  let v ← vReady s o.i
  let isIndex := v.tag.toNat = tagIndex32 && 64 ≤ vCount v
  let js := elemsOf v.data.toNat 32 64
  let addrs := js.map (gatherAddr o.t.toNat)
  let reads := addrs.filterMap fun x => x.bind fun y => if y < 0x80000 then some y else none
  if isIndex then checkAll (fun slot => slotReady s.core slot none) (sortBy (· < ·) (reads.map (· / 4096)).eraseDups) else .ok ()
  stepFree s o.n
  need (s.core.units.gather ≤ cyc s) lateTrap
  vTagIn o.i v [tagIndex32]
  need (64 ≤ vCount v) (formatTrap fileV o.i.toNat [tagIndex32] v.tag.toNat)
  tTagIn o.b b [2, 3, 4, 5, 9, 12]
  let (d, tag) ← pairClass o.b o.b b b
  stepTag s o.n fresh close tag
  unpoisoned v.poison
  match js.find? fun j => j ≠ 0xFFFFFFFF && 8192 - 64 * o.t.toNat ≤ j with
  | some j => .error { cause := .alignment, addr := BitVec.ofNat 64 j }
  | none => .ok ()
  stepSide s o.n side fresh tag
  let row (x : Option Nat) : List (Nat × XReal) :=
    match x with
    | none => denseRow (List.replicate d XReal.zero)
    | some y => denseRow ((elemsOf (leNat (localGet s.core y 64)) (tagWidth b.tag.toNat) d).map (decodeTag b.tag.toNat))
  let poison := reads.any (spPoison s.core)
  let s' := runStep { n := o.n, side := side, fresh := fresh, close := close, rows := addrs.map row, cols := (tileRuns b d).map (·.toArray), depth := d,
                      tag := tag, poison := poison || b.poison, gather := 8, source := source, pc := pc } s
  .ok (modCore (fun k => { k with units := { k.units with gather := cyc s + wakeDelay s + 8 } }) s')

/-- A step of the C column. -/
def colStep (f : Nat → Dword → State → Chk State) (s : State) : Out :=
  runCol .colC s ((f wordSource (wordAddr s.core .colC) s).map (colNext .colC))

def execMma (o : MmaOp) (s : State) : Out := colStep (mmaStep o false) s
def execMmas (o : MmasOp) (s : State) : Out := colStep (mmasStep o false) s
def execMmag (o : MmagOp) (s : State) : Out := colStep (mmagStep o) s

/-! ### Control words (R400) -/

/-- A consumer's write of the accumulator, complete in cycle `due`. -/
def accWrite (n : BitVec 2) (due : Cycle) (a : Acc) (s : State) : State := writeAcc n { a with writeDone := due + 1 } s

/-- MZERO: the window stays as it is. -/
def execMzero (o : AccOp) (s : State) : Out :=
  runCol .colC s do
    let a ← accFree s o.n
    let c := cyc s
    let z := { Acc.zero with window := a.window, stepDone := a.stepDone, ctx := { a.ctx with isOpen := false, closing := 0, cursor := 0 } }
    .ok (colNext .colC (accWrite o.n (c + 1) z (modCore (releaseLatches (c + 1) o.n.toNat) s)))

/-- MCLOSE. -/
def execMclose (o : AccOp) (s : State) : Out :=
  runCol .colC s do
    let a ← accFree s o.n
    let c := cyc s
    if !a.ctx.isOpen then .ok (colNext .colC s)
    else if a.tag.toNat = tagInt32 then do
      need (a.ctx.latched.toList.all (·.isNone)) (accTrap o.n [tagFp32] a)
      .ok (colNext .colC (accWrite o.n (c + 1) { a with ctx := { a.ctx with isOpen := false } } s))
    else do
      arrayFree s
      let groups := sideGroups s o.n a.ctx
      let free := c + wakeDelay s + closeCycles groups
      let (b, f) := closeAcc s (free + 8) groups a
      let s := modCore (releaseLatches (free + 8) o.n.toNat) s
      let s := modCore (takeArray free) (accWrite o.n (free + 8) b s)
      .ok (colNext .colC (postFlags (free + 8) f wordSource (wordAddr s.core .colC) s))

/-- MWAKE (06 R193): it wakes gated sub-arrays, and restarts the idle counts of those awake. -/
def execMwake (o : Gap) (s : State) : Out :=
  let _ := o
  let c := cyc s
  let u := s.core.units
  let v := if c < u.awake then u else if u.gated then { u with gated := false, awake := c + gateWake, lastUse := c + gateWake } else { u with lastUse := max u.lastUse c }
  .next (colNext .colC (modCore (fun k => { k with units := v }) s))

def setWindow (n : BitVec 2) (b : Bool) (s : State) : Out := .next (colNext .colC (writeAcc n { readA s n with window := b } s))

def execMopen (o : AccOp) (s : State) : Out := setWindow o.n true s
def execMshut (o : AccOp) (s : State) : Out := setWindow o.n false s

/-! ### Transfers (R404, R405) -/

/-- The accumulator port is free, or LATE. -/
def portFree (s : State) : Chk Unit := need (s.core.units.accPort ≤ cyc s) lateTrap

def takePort (n : Nat) (s : State) : State :=
  let c := cyc s
  modCore (fun k => { k with units := { k.units with accPort := c + n } }) s

/-- A v register is to be written whole in cycle `due`. -/
def sendV (due : Cycle) (d : BitVec 5) (data tag rows cols : Nat) (poison : Bool) (s : State) : State :=
  post due 2 (.vWrite d (BitVec.ofNat 65536 data) (BitVec.ofNat 4 tag) rows cols poison true) (post (cyc s) 2 (.vPend d) s)

/-- The pair v[k], v[k + 1], or three registers, is in range (R404, R409). -/
def pairOk (k : BitVec 5) (n : Nat) : Chk Unit := need (k.toNat + n ≤ 32) (trapOf .illegal)

def execMacc2v (o : AccV) (s : State) : Out :=
  runCol .colC s do
    pairOk o.v 2
    let a ← accFree s o.n
    let _ ← vFree s o.v
    let _ ← vFree s (o.v + 1)
    portFree s
    let c := cyc s
    let x := a.sums.toNat
    let s := sendV (c + 12) o.v (x % 2 ^ 65536) a.tag.toNat 32 64 a.poison s
    let s := sendV (c + 12) (o.v + 1) (x / 2 ^ 65536) a.tag.toNat 32 64 a.poison s
    .ok (colNext .colC (takePort 8 s))

/-- A register of 2,048 elements of one of the tags. -/
def wholeReg (n : BitVec 5) (r : VReg) (set : List Nat) : Chk Unit := do
  vTagIn n r set
  need (vCount r = 2048) (formatTrap fileV n.toNat set r.tag.toNat)

def execMv2acc (o : AccV) (s : State) : Out :=
  runCol .colC s do
    pairOk o.v 2
    let a ← accFree s o.n
    let x ← vReady s o.v
    let y ← vReady s (o.v + 1)
    portFree s
    wholeReg o.v x [tagFp32, tagInt32]
    wholeReg (o.v + 1) y [x.tag.toNat]
    let c := cyc s
    let b := { a with sums := BitVec.ofNat 131072 (x.data.toNat + y.data.toNat * 2 ^ 65536), tag := x.tag, poison := x.poison || y.poison }
    .ok (colNext .colC (takePort 8 (accWrite o.n (c + 12) b s)))

def execMstget (o : AccV) (s : State) : Out :=
  runCol .colC s do
    let a ← accFree s o.n
    let _ ← vFree s o.v
    portFree s
    .ok (colNext .colC (takePort 1 (sendV (cyc s + 4) o.v (a.m.toNat + a.l.toNat * 2 ^ 2048) tagRaw 2 64 a.poison s)))

def execMstset (o : AccV) (s : State) : Out :=
  runCol .colC s do
    let a ← accFree s o.n
    let x ← vReady s o.v
    portFree s
    vTagIn o.v x [tagRaw, tagInt32]
    need (vCount x = 128) (formatTrap fileV o.v.toNat [tagRaw, tagInt32] x.tag.toNat)
    let d := x.data.toNat
    let b := { a with m := BitVec.ofNat 2048 d, l := BitVec.ofNat 2048 (d / 2 ^ 2048), poison := a.poison || x.poison }
    .ok (colNext .colC (takePort 1 (accWrite o.n (cyc s + 4) b s)))

/-! ### MADH (R406) -/

def execMadh (o : MadhOp) (s : State) : Out :=
  runCol .colC s do
    let x ← vReady s o.v
    let a ← accFree s o.n
    need (!a.ctx.isOpen) (trapOf .illegal)
    vTagIn o.v x [tagRaw, tagInt32, tagIndex32]
    need (16 ≤ vCount x) (formatTrap fileV o.v.toNat [tagRaw, tagInt32, tagIndex32] x.tag.toNat)
    unpoisoned x.poison
    let c := cyc s
    let e (i : Nat) : Nat := elemAt x.data.toNat 32 i
    let new : Vector (BitVec 32) 8 := Vector.ofFn fun i => BitVec.ofNat 32 (e i.val % 2 ^ 24)
    let s := if o.h = 1 then
        let pinned := pinGroups o.n.toNat (modCore (fun k => { k with ah := k.ah.set o.n.toNat { readAh s o.n with handles := new } o.n.isLt }) s)
        let old := (readAh s o.n).handles
        post (c + 1) 2 (.handles o.n new) (modCore (fun k => { k with ah := k.ah.set o.n.toNat { (k.ah[o.n.toNat]'o.n.isLt) with handles := old } o.n.isLt }) pinned)
      else s
    let ctx := if o.c = 1 then { a.ctx with layer := BitVec.ofNat 12 (e 8), proj := BitVec.ofNat 4 (e 9), blk := BitVec.ofNat 16 (e 10) } else a.ctx
    .ok (colNext .colC (accWrite o.n (c + 1) { a with ctx := ctx } s))

/-! ### Streaming softmax (08 R262 to R264; R407 to R409) -/

/-- No unmasked score yet. -/
def noScore : Int := -0x80000000

/-- CeilClamp (R262). -/
def ceilClamp (x : XReal) : Int :=
  match x with
  | .nan => noScore + 1
  | .inf s => if s then noScore + 1 else 0x7FFFFFFF
  | .fin s m e => max (noScore + 1) (min 0x7FFFFFFF (-(floorInt (-(signedMant s m)) e)))

/-- A row's running state: m, and l as FP32 bits. -/
abbrev RowState := Int × Nat

/-- The factor 2^k of a rescaling, k ≤ 0. From -1000 down the exponent stands at -1000: times an FP32 value it is below 2^-872 then, and no rounding of R262
to R264 tells two such values apart (log 29). -/
def rescaleBy (k : Int) : XReal := .fin false 1 (max k (-1000))

/-- A block of scores, none where masked, applied to a row: the new state, the factor f, the P elements, and the flags. -/
def smxBlock (st : RowState) (scores : List (Option XReal)) (pf : Nat) : RowState × XReal × List Nat × FpFlags :=
  let mb := scores.foldl (fun b x => match x with
    | some v => max b (ceilClamp v)
    | none => b) noScore
  let mn := max st.1 mb
  let f : XReal := if mn = st.1 then kOne else if st.1 = noScore then XReal.zero else rescaleBy (st.1 - mn)
  let p := scores.map fun x =>
    match x with
    | none => ((0 : Nat), ({} : FpFlags))
    | some v =>
      let d := roundFl .fp32 .rne 0 (xsum [v, XReal.ofInt (-mn)])
      let e := exp2Alg d.1
      let r := roundBits pf .rne 0 true e.1
      (r.1, (d.2.or e.2).or r.2)
  let l := roundSum tagFp32 (xmulNv f (fp32 st.2) :: p.map fun x => (decodeTag pf x.1, false))
  ((mn, l.1), f, p.map (·.1), orFlags (l.2 :: p.map (·.2)))

/-- A row of output rescaled by f. -/
def rescale (f : XReal) (o : List Nat) : List (Nat × FpFlags) := o.map fun x => roundSum tagFp32 [xmulNv f (fp32 x)]

/-- A score under a scale and an optional bias. -/
def scaledScore (sigma : XReal) (bias : Option XReal) (x : XReal) : XReal × FpFlags :=
  let a := roundSum tagFp32 [xmulNv sigma x]
  match bias with
  | none => (fp32 a.1, a.2)
  | some b => let r := roundSum tagFp32 [(fp32 a.1, false), (b, false)]; (fp32 r.1, a.2.or r.2)

/-- The m of row `r`, and its l. -/
def rowState (a : Acc) (r : Nat) : RowState := (sNat 32 (elemAt a.m.toNat 32 r), elemAt a.l.toNat 32 r)

def packM (l : List Int) : BitVec 2048 := BitVec.ofNat 2048 (packBits 32 (l.map (intMod 32)))
def packL (l : List Nat) : BitVec 2048 := BitVec.ofNat 2048 (packBits 32 l)

/-- What SMXSTEP makes of one row: state, output row, P row, flags. -/
def smxRow (st : RowState) (o : List Nat) (sigma : XReal) (scores : List (Option XReal)) (bias : List (Option XReal)) (pf : Nat) :
    RowState × List Nat × List Nat × FpFlags :=
  let s := (scores.zip bias).map fun x =>
    match x.1 with
    | none => (none, ({} : FpFlags))
    | some v => let r := scaledScore sigma x.2 v; (some r.1, r.2)
  let b := smxBlock st (s.map (·.1)) pf
  let out := rescale b.2.1 o
  (b.1, out.map (·.1), b.2.2.1, orFlags (b.2.2.2 :: (s.map (·.2) ++ out.map (·.2))))

/-- SMXSTEP (R407). -/
def execSmxstep (o : SmxOp) (s : State) : Out :=
  runCol .colC s do
    let bias := o.b = 1
    let sc ← vReady s o.s
    let x ← vReady s o.x
    let a ← accFree s o.n
    let _ ← tFree s o.p
    slotFree s .arith
    accFp32 o.n a
    wholeReg o.s sc [tagFp32]
    vTagIn o.x x [tagRaw, tagFp32]
    need ((if bias then 64 else 1) ≤ vCount x) (formatTrap fileV o.x.toNat [tagRaw, tagFp32] x.tag.toNat)
    let c := cyc s
    let pf := o.f.toNat + tagBf16
    let mask := readM s o.k
    let e (i : Nat) : XReal := fp32 (elemAt x.data.toNat 32 i)
    let biases := (List.range 32).map fun i => if bias then some (e (32 + i)) else none
    let rows := (runsOf 64 64 (accCells a)).zipIdx.map fun r =>
      let scores := (List.range 32).map fun i =>
        if mask.getLsbD (32 * r.2 + i) then some (fp32 (elemAt sc.data.toNat 32 (32 * r.2 + i))) else none
      smxRow (rowState a r.2) r.1 (e 0) scores biases pf
    let pad : List Nat := if pf = tagBf16 || pf = tagFp16 then [] else List.replicate 32 0
    let p := packBits (tagWidth pf) (rows.flatMap fun r => r.2.2.1 ++ pad)
    let pois := sc.poison || x.poison
    let b := { a with sums := packCells (rows.flatMap (·.2.1)), m := packM (rows.map (·.1.1)), l := packL (rows.map (·.1.2)), poison := a.poison || pois }
    let s := accWrite o.n (c + 24) b s
    let s := post (c + 24) 2 (.tWrite o.p (BitVec.ofNat 65536 p) (BitVec.ofNat 4 pf) pois true) (post c 2 (.tPend o.p) s)
    let s := modCore (fun k => { k with units := slotTake k.units (c + 8) .arith }) s
    .ok (colNext .colC (postFlags (c + 24) (orFlags (rows.map (·.2.2.2))) wordSource (wordAddr s.core .colC) s))

/-- An exact division rounded once into FP32, with IEEE results (R263). -/
def divide32 (x y : XReal) : XReal × FpFlags :=
  match x, y with
  | .nan, _ => (.nan, {})
  | _, .nan => (.nan, {})
  | .inf _, .inf _ => (.nan, { nv := true })
  | .inf a, .fin b _ _ => (.inf (a != b), {})
  | .fin a _ _, .inf b => (.fin (a != b) 0 0, {})
  | .fin a m e, .fin b n f =>
    if n = 0 then if m = 0 then (.nan, { nv := true }) else (.inf (a != b), { dz := true })
    else if m = 0 then (.fin (a != b) 0 0, {})
    else roundRatio .fp32 .rne 0 (a != b) m n (e - f)

/-- SMXFIN (R408). -/
def execSmxfin (o : AccV) (s : State) : Out :=
  runCol .colC s do
    pairOk o.v 2
    let a ← accFree s o.n
    let _ ← vFree s o.v
    let _ ← vFree s (o.v + 1)
    slotFree s .arith
    accFp32 o.n a
    let c := cyc s
    let rows := (runsOf 64 64 (accCells a)).zipIdx.map fun r =>
      let st := rowState a r.2
      if st.1 = noScore then r.1.map fun _ => ((0 : Nat), ({} : FpFlags))
      else r.1.map fun x => let q := divide32 (fp32 x) (fp32 st.2); (toFp32 q.1, q.2)
    let masked := packBits 1 ((List.range 64).map fun r => (decide ((rowState a r).1 = noScore)).toNat)
    let x := packBits 32 (rows.flatMap fun r => r.map (·.1))
    let s := sendV (c + 20) o.v (x % 2 ^ 65536) tagFp32 32 64 a.poison s
    let s := sendV (c + 20) (o.v + 1) (x / 2 ^ 65536) tagFp32 32 64 a.poison s
    let s := accWrite o.n (c + 20) { a with masked := a.masked ||| BitVec.ofNat 64 masked } s
    let s := modCore (fun k => { k with units := slotTake k.units (c + 16) .arith }) s
    .ok (colNext .colC (postFlags (c + 20) (orFlags (rows.flatMap fun r => r.map (·.2))) wordSource (wordAddr s.core .colC) s))

/-- The merge of two triples of a row (R264). -/
def mergeRow (x y : RowState × List Nat) : (RowState × List Nat) × FpFlags :=
  if x.1.1 = noScore && y.1.1 = noScore then (((noScore, 0), x.2.map fun _ => 0), {})
  else if y.1.1 = noScore then (x, {})
  else if x.1.1 = noScore then (y, {})
  else
    let mm := max x.1.1 y.1.1
    let f1 := rescaleBy (x.1.1 - mm)
    let f2 := rescaleBy (y.1.1 - mm)
    let join (u v : Nat) := roundSum tagFp32 [xmulNv f1 (fp32 u), xmulNv f2 (fp32 v)]
    let l := join x.1.2 y.1.2
    let o := (x.2.zip y.2).map fun p => join p.1 p.2
    (((mm, l.1), o.map (·.1)), orFlags (l.2 :: o.map (·.2)))

/-- SMXMERGE (R409). -/
def execSmxmerge (o : AccV) (s : State) : Out :=
  runCol .colC s do
    pairOk o.v 3
    let x ← vReady s o.v
    let y ← vReady s (o.v + 1)
    let z ← vReady s (o.v + 2)
    let a ← accFree s o.n
    slotFree s .arith
    accFp32 o.n a
    wholeReg o.v x [tagFp32]
    wholeReg (o.v + 1) y [tagFp32]
    vTagIn (o.v + 2) z [tagRaw]
    need (z.rows = 2 && z.cols = 64) (formatTrap fileV (o.v.toNat + 2) [tagRaw] z.tag.toNat)
    let c := cyc s
    let d := z.data.toNat
    let others := runsOf 64 64 (elemsOf (x.data.toNat + y.data.toNat * 2 ^ 65536) 32 4096)
    let rows := ((runsOf 64 64 (accCells a)).zip others).zipIdx.map fun r =>
      mergeRow (rowState a r.2, r.1.1) ((sNat 32 (elemAt d 32 r.2), elemAt d 32 (64 + r.2)), r.1.2)
    let b := { a with sums := packCells (rows.flatMap (·.1.2)), m := packM (rows.map (·.1.1.1)), l := packL (rows.map (·.1.1.2)),
                      poison := a.poison || x.poison || y.poison || z.poison }
    let s := accWrite o.n (c + 20) b s
    let s := modCore (fun k => { k with units := slotTake k.units (c + 16) .arith }) s
    .ok (colNext .colC (postFlags (c + 20) (orFlags (rows.map (·.2))) wordSource (wordAddr s.core .colC) s))

end Sys2Proof.Machine
end

