-- ==== Sys2Proof/Machine/ColumnStore.lean ====
section
/-! DEFINITION. Column stores: timed writes, VST, SCT, TWR and ACST, and the performing of their lines (15_isa_memory R414, R424, R432 to R434). -/

namespace Sys2Proof.Machine

/-! ### Timed writes (R424) -/

/-- The requests of a timed write with the data and the poison of the slot's lines at issue. -/
def withSlotData (k : Core) (t : Timed) : Timed :=
  let base := 4096 * t.slot + t.off
  let poison (i : Nat) : Option Side := if spPoison k (base + 64 * i) then some { Side.neutral t.world 0 with poison := true } else none
  { t with data := BitVec.ofNat 4096 (leNat (cellRead k.sp base 512)), sides := (List.range 8).map poison }

/-- STT and STTU, which differ in what the caches allocate (log 6). -/
def storeTimed (o : TimedOp) (s : State) : Out :=
  runMem .colW s do
    let e := readE s o.e
    chk (tagUsable (o.t = 1) e)
    chk (slotReady s.core o.s.toNat (if o.t = 1 then some e.tag.toNat else none))
    chk (portReady s .colW)
    let (pa, p, starts) ← timedChecks o true s
    let l := (bindRequests s (timedOf o .colW true pa p s) starts).map (withSlotData s.core)
    .ok (holdPort .colW 1 (modCore (fun k => { k with nextInstr := k.nextInstr + 1, timed := k.timed ++ l }) s))

def execStt (o : TimedOp) (s : State) : Out := storeTimed o s
def execSttu (o : TimedOp) (s : State) : Out := storeTimed o s

/-! ### What a store writes -/

/-- Adjacent runs of bytes joined, in ascending order. -/
def joinRuns (w : Nat) : List (Nat × List Byte) → List (Nat × List Byte)
  | [] => []
  | (a, bs) :: rest =>
    match joinRuns w rest with
    | (b, cs) :: more => if a + w = b then (a, bs ++ cs) :: more else (a, bs) :: (b, cs) :: more
    | [] => [(a, bs)]

/-- Elements of `w` bytes at their addresses, the later of two at one address, as runs of bytes. -/
def elemRuns (w : Nat) (l : List (Nat × Nat)) : List (Nat × List Byte) :=
  joinRuns w ((l.foldl (fun acc x => assocPut acc x.1 x.2) []).map fun x => (x.1, leBytes w x.2))

/-- Elements at consecutive addresses as runs of bytes. -/
def risingRuns (w : Nat) (l : List (Nat × Nat)) : List (Nat × List Byte) := joinRuns w (l.map fun x => (x.1, leBytes w x.2))

/-- How many bytes runs hold. -/
def runsSize (runs : List (Nat × List Byte)) : Nat := (runs.map fun r => r.2.length).foldl (· + ·) 0

/-- The bytes of runs that fall in the line of an address, by their places in it. -/
def lineBytes (runs : List (Nat × List Byte)) (va : Nat) : List (Nat × Byte) :=
  let l := va / 64 * 64
  runs.flatMap fun r =>
    if r.1 < l + 64 && l < r.1 + r.2.length then
      (((r.2.drop (l - r.1)).take (64 - (r.1 - l))).zipIdx.map fun x => (max r.1 l - l + x.2, x.1))
    else []

/-- Runs written to the scratchpad, all in cycle `due`. -/
def storeSp (due b : Nat) (runs : List (Nat × List Byte)) (poison : Bool) (s : State) : State :=
  holdPort .colW b (runs.foldl (fun s r => post due 3 (.localWrite r.1 r.2 poison) s) s)

/-- Room among the 16 stores to gl that are not yet performed. -/
def storeRoom (s : State) : Chk Unit := need (s.core.stores.length < 16) lateTrap

/-- The least unloaded latency of a line of a column store, about that of an S-stream store (R432, R416; log 8). -/
def storeBase : Nat := 80

/-- Runs that leave by the core port, stamped as they issue. -/
def storeFar (b : Nat) (runs : List (Nat × List Byte)) (ls : List (Nat × Nat × Pte)) (poison : Bool) (s : State) : State :=
  let (n, s) := loadLatency s (b + storeBase)
  let w : WStore :=
    { id := s.core.nextInstr, stamp := s.core.race.own, due := cyc s + n, pc := wordAddr s.core .colW, poison := poison,
      lines := ls.map fun l => { pa := l.1, va := l.2.1, page := l.2.2, bytes := lineBytes runs l.2.1 } }
  let s := if ls.isEmpty then s else modCore (fun k => { k with stores := k.stores ++ [w] }) s
  holdPort .colW b (modCore (fun k => { k with nextInstr := k.nextInstr + 1 }) s)

/-- A store of runs in the space it names: 0 the scratchpad, 1 gl. The write of the scratchpad is `lat` cycles after issue (R273, R434). -/
def storeRuns (far : Bool) (lat : Nat) (runs : List (Nat × List Byte)) (poison : Bool) (s : State) : MChk State := do
  let spans := runs.map fun r => (r.1, r.2.length)
  let b := portCycles (runsSize runs)
  if far then do
    let ls ← xlateFar s true (runLines spans)
    .ok (storeFar b runs ls poison s)
  else
    match spans.find? fun r => 0x80000 < r.1 + r.2 with
    | some r => snag (misaligned r.1)
    | none => .ok (storeSp (cyc s + lat) b runs poison s)

/-- The space of VST and SCT: code 3 is illegal, and wt is never writable (R342, R432). -/
def storeSpace (p : BitVec 2) (e : EReg) : Chk Unit :=
  match p.toNat with
  | 2 => .error { cause := .permission, addr := e.addr.zeroExtend 64 }
  | 3 => .error (trapOf .illegal)
  | _ => .ok ()

/-! ### VST, SCT, TWR (R432) -/

/-- The runs of a vector register at an address under a mask: an SE register both planes whole. -/
def vectorRuns (r : VReg) (m : BitVec 2048) (a : Nat) : List (Nat × List Byte) :=
  let tag := r.tag.toNat
  let n := vCount r
  if isSe tag then [(a, leBytes (seBytes tag n) r.data.toNat)]
  else
    let w := tagWidth tag / 8
    risingRuns w ((((activeOf m n).zip (vBits r)).zipIdx.filter fun x => x.1.1).map fun x => (a + x.2 * w, x.1.2))

def execVst (o : VstOp) (s : State) : Out :=
  runMem .colW s do
    let e := readE s o.e
    chk (storeSpace o.p e)
    let r ← chk (vReady s o.v)
    chk (portReady s .colW)
    chk (if o.p = 0 then .ok () else storeRoom s)
    let tag := r.tag.toNat
    let a := e.addr.toNat
    chk (need (a % (if isSe tag then 2 else tagWidth tag / 8) = 0) (misaligned a))
    let t ← storeRuns (o.p ≠ 0) 4 (vectorRuns r (readM s o.k) a) r.poison s
    .ok t

def execSct (o : IdxOp) (s : State) : Out :=
  runMem .colW s do
    let e := readE s o.e
    chk (storeSpace o.p e)
    let r ← chk (vReady s o.v)
    let x ← chk (vReady s o.i)
    chk (portReady s .colW)
    chk (if o.p = 0 then .ok () else storeRoom s)
    let n := vCount r
    let tag := r.tag.toNat
    chk (indexCheck o.i x n)
    chk (need (!isSe tag) (formatTrap fileV o.v.toNat [0, 1, 2, 3, 4, 5, 9, 10, 11, 12, 13] tag))
    chk (unpoisoned x.poison)
    let w := tagWidth tag / 8
    let at_ := indexAddrs e.addr.toNat w x (activeOf (readM s o.k) n)
    chk (match (at_.filterMap id).find? fun a => a % w ≠ 0 with
      | some a => .error (misaligned a)
      | none => .ok ())
    let elems := (at_.zip (vBits r)).filterMap fun y => y.1.map fun a => (a, y.2)
    let t ← storeRuns (o.p ≠ 0) 4 (elemRuns w elems) r.poison s
    .ok t

/-- The checks that TWR and ACST share: alignment, port and room; an address from 0x10_0000 on is one of space gl (R412). -/
def blockStore (a lat : Nat) (bytes : List Byte) (poison : Bool) (s : State) : MChk State := do
  let far : Bool := 0x100000 ≤ a
  chk (portReady s .colW)
  chk (if far then storeRoom s else .ok ())
  chk (need (a % 64 = 0) (misaligned a))
  storeRuns far lat [(a, bytes)] poison s

def execTwr (o : TwrOp) (s : State) : Out :=
  runMem .colW s do
    let t ← chk (tReady s o.t)
    blockStore (readE s o.e).addr.toNat 4 (leBytes (tileBytes t.tag.toNat) t.data.toNat) t.poison s

/-! ### ACST (R433) -/

/-- The sums of an accumulator converted to a format, row-major, with the draws and exceptions. -/
def convertSums (mode : Mode) (ft : Nat) (a : Acc) (r : Rounding) : List Nat × Rounding :=
  let fromFl : Bool := a.tag.toNat = tagFp32
  let vals := (accCells a).map fun x => (decodeTag a.tag.toNat x, false)
  mapActive (roundDraw ft (if fromFl then mode else .rne) fromFl) (List.replicate 4096 true) vals r

/-- ACST: the flags are set in the cycle in which the scratchpad would be written (log 18). -/
def execAcst (o : AcstOp) (s : State) : Out :=
  let ft := o.t.toNat
  let isFl : Bool := tagsF.contains ft
  let r : MChk (List Nat × Rounding × Acc) := do
    chk (need (isFl || [9, 10, 11, 12].contains ft) (trapOf .illegal))
    let a ← chk (accFree s o.n)
    chk (need ((a.tag.toNat = tagFp32) = isFl) (accTrap o.n [if isFl then tagFp32 else tagInt32] a))
    let (ys, f) := convertSums (rmode s) ft a (Rounding.start s)
    .ok (ys, f, a)
  match r with
  | .error _ => runMem .colW s (r.map fun _ => s)
  | .ok (ys, f, a) =>
    let w := tagWidth ft
    match blockStore (readE s o.e).addr.toNat 6 (leBytes (512 * w) (packBits w ys)) a.poison s with
    | .error t => runMem .colW s (.error t)
    | .ok t =>
      if trapping s f.flags ≠ 0 then
        .next (raiseCol .colW (trapOf (.floating (trapping s f.flags))) (modSys (fun y => { y with sticky := y.sticky ||| f.flags.bits }) s))
      else
        let t := if f.flags.bits = 0 then t else post (cyc s + 6) 3 (.sticky f.flags.bits) t
        .next (colNext .colW (modSys (fun y => { y with srState := BitVec.ofNat 32 f.sr }) t))

/-! ### Performing (R414, R432) -/

/-- One line performed at its home: a line that fails its checks is not written, and its cause becomes a W-column trap with the store's address. -/
def performOne (pc : Dword) (stamp : BitVec 8) (poison : Bool) (l : LineWrite) (s : State) : State :=
  match checkWrite s (taskAgent s) l.page l.pa l.va with
  | some f =>
    let t : Trap := { cause := f.cause, source := 3, pc := pc, addr := BitVec.ofNat 64 (l.va / 64 * 64), detail := f.detail }
    modCore (fun k => { k with deferred := k.deferred ++ [(cyc s, t)] }) s
  | none =>
    let s := writeLine s l.pa l.bytes s.core.sys.world (some (BitVec.ofNat 10 s.coreId, stamp)) poison l.page.keySlot s.core.task
    modCore (fun k => { k with readCache := cacheStore k.readCache l.va l.bytes (assocGet s.side (lineOf l.pa)) }) s

/-- The lines of a timed write that older stores of the core in focus are still to write are performed before it (09 R271, R274). -/
def performBefore (t : Timed) (s : State) : State :=
  let older (w : WStore) (l : LineWrite) : Bool := w.id < t.instr && t.pa ≤ l.pa && l.pa < t.pa + 512
  let u := modCore (fun k => { k with stores := k.stores.map fun w => { w with lines := w.lines.filter fun l => !older w l } }) s
  s.core.stores.foldl (fun u w => (w.lines.filter (older w)).foldl (fun u l => performOne w.pc w.stamp w.poison l u) u) u

/-- The oldest store of core `c` can perform its next line: it has reached its home, nothing holds it there, and no timed write of the core to the line
that was issued before it is still to be accepted. -/
def storeReady (s : State) (c : CoreNo) : Bool :=
  let k := getCore s c
  match k.stores with
  | [] => false
  | w :: _ => w.due ≤ cycOf s c && match w.lines with
    | [] => true
    | l :: _ => !writeHeld s c l.pa && !ownTimedAt k w.id l.pa && !afterAcquire k w.id

/-- The next line of the oldest store of the core in focus. -/
def performLine (s : State) : State :=
  match s.core.stores with
  | [] => s
  | w :: rest =>
    match w.lines with
    | [] => modCore (fun k => { k with stores := rest }) s
    | l :: ls =>
      let left := if ls.isEmpty then rest else { w with lines := ls } :: rest
      performOne w.pc w.stamp w.poison l (modCore (fun k => { k with stores := left }) s)

end Sys2Proof.Machine
end

