-- ==== Sys2Proof/Machine/ScalarTask.lean ====
section
/-! DEFINITION. ERET, YIELD, EXIT, PUSH, STRIP, CWAIT, MEET, LAUNCH and LAUNCHW of the S stream (10_traps R300, 12_isa_scalar R350, R351, R363 to R366,
16_isa_engines R435, 05_partitions_scheduler R156). -/

namespace Sys2Proof.Machine

/-! ### Strips and groups (06 R169 to R171) -/

def colOfCode (c : BitVec 2) : Col := if c = 1 then .colL else if c = 2 then .colC else .colW

/-- The open group of a core. -/
def openGroup (k : Core) : Option Grp := k.openGrp.bind fun i => k.groups.find? fun g => g.id = i

/-- The open group closed in cycle `c`; one with no strip in it is discarded (R363). -/
def closeGroup (c : Cycle) (align : Option Nat) (k : Core) : Core :=
  match openGroup k with
  | none => { k with openGrp := none }
  | some g =>
    let k := { k with openGrp := none }
    if g.cols.isEmpty then { k with groups := k.groups.filter fun x => x.id ≠ g.id }
    else { k with groups := k.groups.map fun x => if x.id = g.id then { x with closed := some c, align := align.getD x.align } else x }

/-- A strip put into a column's queue and into the open group, which opens with it where none is open. -/
def addStrip (col : Col) (hdr : Dword) (len count align : Nat) (k : Core) : Core :=
  let k :=
    match k.openGrp with
    | some _ => k
    | none => { k with groups := k.groups ++ [{ id := k.nextGrp, cols := [], align := 0, closed := none }], openGrp := some k.nextGrp, nextGrp := k.nextGrp + 1 }
  let i := k.openGrp.getD 0
  let q := getCol k col
  let st : QStrip := { hdr := hdr, len := len, count := count, grp := i, body := none, fault := none }
  setCol col { q with queue := q.queue ++ [st] }
    { k with groups := k.groups.map fun g => if g.id = i then { g with cols := g.cols ++ [col], align := align } else g }

/-- The strips that a column's queue holds at most. -/
def stripQueueSize : Nat := 4

/-- A new target clock for an island: a target that differs from the clock starts a DRAIN, one that equals it ends the DRAIN, and a write in RELOCK is
kept (01_package R23, R24). -/
def setTarget (i : Island) (mhz : Nat) : Island :=
  match i.st with
  | .steady => if mhz = i.cur then { i with tgt := mhz } else { i with tgt := mhz, st := .drain, drained := 0 }
  | .drain => if mhz = i.cur then { i with tgt := mhz, st := .steady } else { i with tgt := mhz }
  | .relock => { i with tgt := mhz }

/-- The memory-base islands that hold LLC slices of a partition: island 16 + s for each stack s that it owns an island of (05 R133). -/
def baseIslands (s : State) (p : Nat) : List Nat :=
  (List.range 4).filterMap fun st => if (partIslands (getPart s p)).any fun n => n / 4 = st then some (16 + st) else none

/-- A STRIP on a partition whose memory-base island runs at 800 MHz calls for 1,600 MHz (01 R22). -/
def wakeBases (s : State) (p : Nat) : State :=
  (baseIslands s p).foldl (fun s n =>
    let i := getIsland s n
    if i.st = .steady && i.cur < 1600 then setIsland s n (setTarget i 1600) else s) s

/-- STRIP (R363). -/
def execStrip (o : RStrip) (s : State) : Out :=
  let cnt := (readG s o.g).toNat
  let col := colOfCode o.c
  if inHandler s || 65535 < cnt then sIllegal s
  else
    let hdr := (getCol s.core col).entry + BitVec.ofNat 64 (4 * o.o.toNat)
    match fetchWord s hdr with
    | .error f => .next (sFail f s)
    | .ok w =>
      if w.toNat / 65536 ≠ 0xC57A || w.toNat / 4096 % 16 ≠ 0 then sIllegal s
      else if ((openGroup s.core).map (·.cols)).getD [] |>.contains col then sIllegal s
      else if cnt ≠ 0 && stripQueueSize ≤ (getCol s.core col).queue.length then .next (sBlock s)
      else
        let c := cyc s
        let s := if cnt = 0 then s else modCore (addStrip col hdr (w.toNat % 4096 + 1) cnt o.l.toNat) s
        let s := if o.j = 0 then modCore (closeGroup c (some o.l.toNat)) s else s
        let s := match s.core.task with
          | some t => if cnt = 0 then s else wakeBases s t.part
          | none => s
        .next (sNext s)

/-! ### Engine commands (16_isa_engines R435 to R438) -/

/-- The common header of a record (R438). -/
def cmdCode (r : BitVec 512) : Nat := recBytes r 0 1
def cmdWorld (r : BitVec 512) : BitVec 6 := BitVec.ofNat 6 (recBytes r 1 1)
def cmdMode (r : BitVec 512) : Bool := recBytes r 1 1 / 64 % 2 = 1
def cmdFlagEn (r : BitVec 512) : Bool := recBytes r 1 1 / 128 = 1
def cmdFlag (r : BitVec 512) : Nat := recBytes r 2 2 % 1024
def cmdOffset (r : BitVec 512) : Nat := recBytes r 4 3
def cmdObject (r : BitVec 512) : Nat := recBytes r 8 8

/-- The end of the scratchpad. -/
def spEnd : Nat := 0x80000

/-- The first byte and the end of the destination of a copy's rows: `n` rows of `len` bytes at a signed stride (R443). -/
def rowsSpan (base : Nat) (stride : Int) (n len : Nat) : Int × Int :=
  let b : Int := base
  let last : Int := b + stride * ((n : Int) - 1)
  (min b last, max b last + len)

/-- The tagged scratchpad destination of a record: its first byte and its end (R443, R448, 07 R223). -/
def taggedSpan (s : State) (eng : Nat) (r : BitVec 512) : Option (Int × Int) :=
  if eng < 2 && cmdCode r = 0x01 && recBytes r 52 1 % 2 = 1 && recBytes r 52 1 / 4 % 2 = 0 && recBytes r 24 8 < spEnd then
    some (rowsSpan (recBytes r 24 8) (sNat 32 (recBytes r 44 4)) (recBytes r 36 2) (recBytes r 32 4 % 2 ^ 22))
  else if eng = 0x10 && cmdCode r = 0x10 && recBytes r 18 1 / 8 % 2 = 1 then
    let base := recBytes r 40 4 % 2 ^ 19
    let d := match s.core.task with
      | none => 0
      | some t => (((getPart s t.part).seqs.find? fun q => q.num = recBytes r 16 2).map (·.dim)).getD 0
    let n : Nat := (recBytes r 18 1 % 8 + 1) * (8 + 4 * d)
    some (Int.ofNat base, Int.ofNat (base + n))
  else none

/-- A span lies within one tile slot of the scratchpad. -/
def inOneSlot (x : Int × Int) : Bool := 0 ≤ x.1 && x.2 ≤ (spEnd : Int) && (x.2 ≤ x.1 || x.1 / 4096 = (x.2 - 1) / 4096)

/-- The entries of a core-side queue: 16 for CE0 and CE1, 8 for the others. An entry leaves when its engine accepts it (R436). -/
def coreQueueSize (i : Nat) : Nat := if i < 2 then 16 else 8

def coreQueueLoad (q : List QCmd) : Nat := (q.filter fun e => e.accepted.isNone).length

/-- The record in g[a] to g[a + 7]. -/
def pushRecord (s : State) (a : GReg) : BitVec 512 :=
  BitVec.ofNat 512 (leNat ((List.range 8).flatMap fun i => leBytes 8 (readG s (a + BitVec.ofNat 6 i)).toNat))

/-- The entries of an engine-stamp table (09 R278, R283). -/
def stampTableSize : Nat := 64

/-- The fork of a command: the own count advances by 2, stamp and snapshot old + 1, and an entry in the engine-stamp table (09 R280, R283). -/
def forkCommand (eng : Nat) (seq : BitVec 32) (r : BitVec 512) (c : CoreNo) (k : Core) : Core :=
  let x := k.race
  let n := x.own + 1
  let x := storeSnap { x with own := n + 1 } { key := n, vec := assocPut x.v c n, scope := 2, kind := .other }
  let e : Stamp := { stamp := n, eng := eng, seq := seq, obj := cmdObject r, flag := if cmdFlagEn r then some (BitVec.ofNat 10 (cmdFlag r)) else none,
                     done := false }
  { k with race := { x with stamps := (x.stamps ++ [e]).drop (x.stamps.length + 1 - stampTableSize) } }

/-- A record appended to its core-side queue. -/
def enqueue (eng : Nat) (r : BitVec 512) (c : CoreNo) (now : Cycle) (k : Core) : Core :=
  let i := engineIndex eng
  let seq := k.engSeq.toList.getD i 0
  let e : QCmd := { seq := seq, bits := r, stamp := k.race.own + 1, pushed := now, mark := k.nextInstr, accepted := none, anchor := none,
                     parked := false }
  let k := { k with engQ := k.engQ.setIfInBounds i (k.engQ.toList.getD i [] ++ [e]), engSeq := k.engSeq.setIfInBounds i (seq + 1) }
  forkCommand eng seq r c k

/-- A command whose push makes a checkpoint interval irrevocable: ADPUB, MIGRATE and WLOAD (10 R316). -/
def pushIrrevocable (eng : Nat) (r : BitVec 512) : Bool :=
  (eng = 0x12 && cmdCode r = 0x22) || (eng = 0x14 && cmdCode r = 0x30) || (eng = 0x16 && cmdCode r = 0x40)

/-- PUSH (R435): it never blocks, and the queue-full flag is written in its issue cycle. -/
def execPush (o : RPush) (s : State) : Out :=
  let r := pushRecord s o.a
  let eng := o.e.toNat
  if inHandler s then sIllegal s
  else if cmdWorld r ≠ s.core.sys.world || (s.core.task.any fun t => !liveIn s (cmdWorld r) t.part) then .next (sTrap .world 0 s)
  else if cmdObject r % 16 ≠ 0 then .next (sTrap .alignment (BitVec.ofNat 64 (cmdObject r)) s)
  else if ((taggedSpan s eng r).map inOneSlot).getD true = false then .next (sTrap .alignment 0 s)
  else
    let i := engineIndex eng
    if coreQueueSize i ≤ coreQueueLoad (s.core.engQ.toList.getD i []) then .next (sNext (modCore (flagPut o.f.toNat true) s))
    else
      let s := if pushIrrevocable eng r then irrevocable s else s
      .next (sNext (modCore (fun k => flagPut o.f.toNat false (enqueue eng r s.coreId (cyc s) k)) s))

/-- Stamp entries of commands that are done and pass `p` are removed (09 R281). -/
def dropStamps (p : Stamp → Bool) (s : State) : State :=
  modCore (fun k => { k with race := { k.race with stamps := k.race.stamps.filter fun e => !(e.done && p e) } }) s

/-! ### CWAIT (12 R364) -/

/-- The object has reached or passed its target. -/
def reached (obj target : Nat) : Bool := (obj + 2 ^ 64 - target % 2 ^ 64) % 2 ^ 64 < 2 ^ 63

/-- The object's word as CWAIT reads it: translation, the world check and poison, and no race check (R364, 09 R285). -/
def readObject (s : State) (p : Pte) (pa va n : Nat) : Except Failed (List Byte) :=
  let l := readLine s pa p.keySlot
  if !worldReads s s.core.sys.world p (lineAt s pa p.keySlot) then .error (failAt .world va)
  else if l.poison then .error (failAt .poison (va / 64 * 64))
  else .ok ((l.bytes.drop (va % 64)).take n)

/-- The acquire of a CWAIT that observes its target: the snapshot named by the object's race field, and its done entries leave the table (09 R281). -/
def joinObject (p : Pte) (pa va : Nat) (s : State) : State :=
  let s := acquireInto s s.coreId (acquireFrom s s.coreId 2 (lineAt s pa p.keySlot).side)
  dropStamps (fun e => e.obj = va) s

/-- A CWAIT on a word of another package's memory polls it through the fabric (03 R88). -/
def pollRemote (s : State) (pa va : Nat) (target : Dword) : State :=
  sAwait (startRemote s { remoteOf s pa va 0 8 false with target := some target })

/-- CWAIT: an object not yet at its target is read again in the next cycle; the wait ends 4 cycles after the read that finds it. A read that a repair or
a page switch holds waits (02 R56, R65). -/
def execCwait (o : RWait) (s : State) : Out :=
  let va := (readG s o.a).toNat
  let target := readG s o.b
  if s.core.phase = awaiting then .next (sAwait s)
  else if va % 8 ≠ 0 then .next (sTrap .alignment (BitVec.ofNat 64 va) s)
  else
    match xlate s s.core.sys.world va false false with
    | .error c => .next (sFail (failAt c va) s)
    | .ok (p, pa) =>
      if !tlbHolds s.core s.core.sys.world va then .next (sWalk p s)
      else if accessWaits s s.coreId pa then .next (sBlock s)
      else if isRemote s pa then .next (pollRemote s pa va target)
      else
        match readObject s p pa va 8 with
        | .error f => .next (sFail f (if f.cause = .poison then notePoison s pa s.coreId else s))
        | .ok bs => if reached (leNat bs) target.toNat then .next (sNextAt 4 (joinObject p pa va s)) else .next (sBlock s)

/-! ### MEET (12 R365, R366) -/

/-- The bound of R366 on the time from the last arrival to the completion, in cycles of the 1.6 GHz clock. -/
def meetBound (domain : Nat) : Nat :=
  match domain with
  | 0 => 2
  | 1 => 24
  | 2 => 160
  | 3 => 320
  | _ => 2080

/-- The arrival of this task at a level. -/
def arrivalOf (s : State) (t : TaskRef) (lv : Nat) : Option Arrival :=
  s.arrivals.find? fun a => a.part = t.part && a.launch = t.launch && a.task = t.task && a.level = lv

/-- Some task's log of the gang holds more than half its capacity (10_traps R313). -/
def logHalf (k : Ckpt) : Bool :=
  (k.log.map (·.1)).eraseDups.any fun t => ckptCapacity < 2 * (k.log.filter fun e => e.1 = t).length

/-- A MEET at this level and in this form takes a checkpoint (10 R313). -/
def takesCkpt (s : State) (t : TaskRef) (l : Launch) (lv : Nat) (form : Nat) : Bool :=
  launchCkpt l && ckptLevel l = some lv && (form = 3 || match ckptOf s t with
    | some k => logHalf k
    | none => false)

/-- The columns have no running or queued strip, and the engine queues are empty (10 R313). -/
def workDone (k : Core) : Bool :=
  [Col.colL, .colC, .colW].all (fun c => (getCol k c).run.isNone && (getCol k c).queue.isEmpty) && k.engQ.toList.all (·.isEmpty)

/-- Phase of a MEET that waits for its barrier. -/
def meetWait : Nat := 2

/-- The arrival is recorded: after the release, with the sequence numbers of the engine queues. It takes effect at the barrier within the bound of
R366 (log 8). -/
def arrive (t : TaskRef) (l : Launch) (lv : Nat) (ckpt : Bool) (s : State) : State :=
  let s := releasePoint s s.coreId (levelScope l lv) .other []
  let vec := ((heldSnap s.core.race s.core.race.own).map (·.vec)).getD []
  let (d, s) := drawDelay s
  let a : Arrival :=
    { part := t.part, launch := t.launch, task := t.task, level := lv, vec := vec, rebase := [], seqs := s.core.engSeq.toList.map (·.toNat),
      ready := s.now + d % (meetBound (levelDomain l lv) + 1), ckpt := ckpt, complete := false, viewLost := false }
  let s := { s with arrivals := s.arrivals.filter (fun x => !(x.part = t.part && x.launch = t.launch && x.task = t.task && x.level = lv)) ++ [a] }
  modCore (fun k => { k with arrived := lv :: k.arrived.filter fun x => x ≠ lv }) s

/-- The end of the wait: the acquire of R281, the counts that a partition-wide MEET sets outright (09 R284), and the level has no arrival
outstanding. -/
def meetEnd (t : TaskRef) (lv : Nat) (a : Arrival) (s : State) : State :=
  let s := acquireInto s s.coreId a.vec
  let s := joinStamps (fun e => e.seq.toNat < a.seqs.getD (engineIndex e.eng) 0) s
  let s := modCore (fun k => { k with race := { k.race with v := a.rebase.foldl (fun v x => putCount v x.1 x.2) k.race.v } }) s
  let s := { s with arrivals := s.arrivals.filter fun x => !(x.part = t.part && x.launch = t.launch && x.task = t.task && x.level = lv) }
  sNext (modCore (fun k => { k with arrived := k.arrived.filter fun x => x ≠ lv }) s)

/-- The detail of a view-changed fault: the group and its view (10 R312). -/
def viewDetail (s : State) : BitVec 512 :=
  match lsdGroup s with
  | some g => BitVec.ofNat 512 (g.num.toNat + g.view.toNat * 2 ^ 32)
  | none => 0

/-- A MEET that a view change has ended (05 R144). -/
def meetLost (t : TaskRef) (lv : Nat) (s : State) : State :=
  let s := { s with arrivals := s.arrivals.filter fun x => !(x.part = t.part && x.launch = t.launch && x.task = t.task && x.level = lv) }
  let s := modCore (fun k => { k with arrived := k.arrived.filter (fun x => x ≠ lv), phase := 0 }) s
  sFail { cause := .viewChanged, addr := 0, detail := viewDetail s } s

/-- The wait of a MEET. -/
def meetWaiting (t : TaskRef) (lv : Nat) (s : State) : Out :=
  match arrivalOf s t lv with
  | none => .next (sNext s)
  | some a =>
    if a.viewLost then .next (meetLost t lv s)
    else if a.complete then .next (meetEnd t lv a s) else .next (modCore (fun k => { k with phase := meetWait, sReady := cyc s + 1 }) s)

/-- An arrival made, after the waits and the FENCE.REL that come before it. -/
def meetArrive (t : TaskRef) (l : Launch) (lv form : Nat) (s : State) : Out :=
  if ((arrivalOf s t lv).map (fun a => !a.complete)).getD false then .next (sBlock s)
  else
    let ck := takesCkpt s t l lv form
    if ck && !workDone s.core then .next (sBlock s)
    else
      let s := markFence s
      if levelScope l lv ≠ 0 && !drained s.core true true then .next (sBlock s)
      else
        let s := arrive t l lv ck s
        if form = 0 then .next (sNext s)
        else .next (modCore (fun k => { k with phase := meetWait, sReady := cyc s + 1 }) s)

/-- MEET (R365). -/
def execMeet (o : RMeet) (s : State) : Out :=
  let lv := o.l.toNat
  let form := o.f.toNat
  match s.core.task, taskLaunch s with
  | some t, some l =>
    if launchLevels l ≤ lv || levelBarrier l lv = 0 || (form = 3 && levelBarrier l lv ≠ 2) || inHandler s then sIllegal s
    else if form = 1 || s.core.phase = meetWait then meetWaiting t lv s
    else meetArrive t l lv form s
  | _, _ => sIllegal s

/-! ### LAUNCH and LAUNCHW (05 R156, R157) -/

/-- Cycles of a LAUNCH, counted as the island counts (R156, 12 R370). -/
def launchCycles : Nat := 180

/-- A line of a record as it is read: one of another package's memory is the one that has come over the fabric, which its core port has checked. -/
def recordLine (s : State) (p : Pte) (pa : Nat) : LineView :=
  if isRemote s pa then
    { bytes := leBytes 64 ((assocGet s.core.recLines (lineOf pa)).getD 0).toNat, side := Side.neutral s.core.sys.world 0, poison := false, unwritten := false }
  else readLine s pa p.keySlot

/-- The record at an address, through translation, the world check and poison (R156). -/
def readRecord (s : State) : Except Failed (List (Nat × Nat × Nat × Pte × Nat)) → Except Failed (List Byte)
  | .error f => .error f
  | .ok ls =>
    match firstFail (fun x => if isRemote s x.2.2.2.2 || worldReads s s.core.sys.world x.2.2.2.1 (lineAt s x.2.2.2.2 x.2.2.2.1.keySlot) then none
        else some (failAt .world x.2.1)) ls with
    | some f => .error f
    | none =>
      match ls.find? fun x => (recordLine s x.2.2.2.1 x.2.2.2.2).poison with
      | some x => .error (failAt .poison x.1)
      | none => .ok (ls.flatMap fun x => (recordLine s x.2.2.2.1 x.2.2.2.2).bytes)

/-- A line of the record is held by a repair or a page switch (02 R56, R65). -/
def recordHeld (s : State) : Except Failed (List (Nat × Nat × Nat × Pte × Nat)) → Bool
  | .error _ => false
  | .ok ls => ls.any fun x => accessWaits s s.coreId x.2.2.2.2

/-- The first line of a record in another package's memory that is still to be fetched: its addresses. -/
def recordMissing (s : State) : Except Failed (List (Nat × Nat × Nat × Pte × Nat)) → Option (Nat × Nat)
  | .error _ => none
  | .ok ls => (ls.find? fun x => isRemote s x.2.2.2.2 && (assocGet s.core.recLines (lineOf x.2.2.2.2)).isNone).map fun x => (x.2.2.2.2, x.1)

/-- The launch hands its record over: accepted as a release point, whose snapshot the launch takes (09 R280, R284), or turned away. -/
def launchRecord (t : TaskRef) (own : Launch) (wait : Bool) (d : GReg) (bits : BitVec 2048) (s : State) : Out :=
  let answer (x : Nat) (s : State) : Out :=
    .next (sNextAt launchCycles (writeG d (BitVec.ofNat 64 x) launchCycles (modCore (fun k => { k with recLines := [] }) s)))
  if !validLaunch s t.part bits || launchClass (Launch.accept 0 bits []) < launchClass own then answer stBadcmd s
  else if poolFull s t.part then
    if wait then .next (modCore (fun k => { k with hold := .parking, phase := 0, cut := cyc s, cutPc := k.pc, cutXfer := k.xfer, cutPhase := 0 }) s)
    else answer stFull s
  else
    let s := releasePoint s s.coreId 2 .other []
    let vec := ((heldSnap s.core.race s.core.race.own).map (·.vec)).getD []
    let (n, s) := acceptLaunch (irrevocable s) t.part bits vec
    answer (n.toNat * 2 ^ 32) (sampleLaunches s)

/-- LAUNCH and LAUNCHW: earlier accesses are performed first, since acceptance is a release point. -/
def launchForm (wait : Bool) (o : R2) (s : State) : Out :=
  let va := (readG s o.a).toNat
  match s.core.task, taskLaunch s with
  | some t, some own =>
    if s.core.phase = awaiting then .next (sAwait s)
    else if inHandler s then sIllegal s
    else if va % 256 ≠ 0 then .next (sTrap .alignment (BitVec.ofNat 64 va) s)
    else
      let ls := xlateSpan s s.core.sys.world va 256 false
      match readRecord s ls with
      | .error f => .next (sFail f s)
      | .ok bs =>
        let page := match ls with
          | .ok (x :: _) => some x.2.2.2.1
          | _ => none
        match page with
        | some p =>
          if !tlbHolds s.core s.core.sys.world va then .next (sWalk p s)
          else if recordHeld s ls then .next (sBlock s)
          else
            match recordMissing s ls with
            | some x => .next (sAwait (startRemote s { remoteOf s x.1 x.2 0 8 false with record := true }))
            | none =>
              let s := markFence s
              if !drained s.core true true then .next (sBlock s)
              else
                let bits := BitVec.ofNat 2048 (leNat bs)
                if launchWorld (Launch.accept 0 bits []) ≠ s.core.sys.world then .next (sTrap .world 0 s)
                else launchRecord t own wait o.d bits s
        | none => sIllegal s
  | _, _ => sIllegal s

def execLaunch (o : R2) (s : State) : Out := launchForm false o s
def execLaunchw (o : R2) (s : State) : Out := launchForm true o s

/-! ### YIELD (12 R351) -/

/-- A gang that the yielding gang's class lets pass waits at the head of a class queue of the cluster, or holds a reservation that includes it. -/
def yieldTo (s : State) (cl cls : Nat) : Bool :=
  (List.range 4).any (fun c => c ≤ cls && !(classQueue s cl c).isEmpty)
    || match partOfIsland s (cl / 4) with
      | none => false
      | some p => (getPart s p).reserved.contains cl && match reserving s p with
        | some g => decide (g.dcls ≤ cls)
        | none => false

/-- YIELD: the gang is pre-empted from the instruction that follows on. -/
def execYieldGang (s : State) : Out :=
  match s.core.task, taskLaunch s with
  | some t, some l =>
    if inHandler s then sIllegal s
    else if yieldTo s (clusterOf s.coreId) (launchClass l) then .next (stopGang (sNext s) t.gang reasonYield)
    else .next (sNext s)
  | _, _ => sIllegal s

/-! ### EXIT (12 R350) -/

/-- Phases of EXIT: 1 waits for the columns, 4 for the engine commands, 5 for the accesses of its FENCE.REL. -/
def exitColumns : Nat := 1
def exitEngines : Nat := 4
def exitDrain : Nat := 5

/-- The columns have issued every word of their strips. -/
def columnsDone (k : Core) : Bool := [Col.colL, .colC, .colW].all fun c => (getCol k c).run.isNone && (getCol k c).queue.isEmpty

/-- Entries that wait for a strip group take this cycle as their anchor (step 3). -/
def anchorAll (c : Cycle) (k : Core) : Core :=
  { k with engQ := k.engQ.map fun (q : List QCmd) => q.map fun (e : QCmd) => if e.anchor.isNone && cmdMode e.bits then { e with anchor := some c } else e }

/-- No engine command of the task is queued or running. -/
def enginesDone (s : State) : Bool := s.core.engQ.toList.all (·.isEmpty) && s.running.all fun r => r.core ≠ s.coreId

/-- EXIT goes on in a phase. -/
def exitPhase (p : Nat) (s : State) : State := modCore (fun k => { k with phase := p, sReady := cyc s + 1 }) s

/-- EXIT, one step of R350 after the other; in a handler, the work that the cut holds is discarded first (log 15). -/
def execExit (s : State) : Out :=
  let p := s.core.phase
  if p = 0 then
    let s := if inHandler s then discardWork s else modCore (closeGroup (cyc s) none) s
    .next (exitPhase exitColumns s)
  else if p = exitColumns then
    if columnsDone s.core then .next (exitPhase exitEngines (modCore (anchorAll (cyc s)) s)) else .next (sBlock s)
  else if p = exitEngines then
    if enginesDone s then .next (exitPhase exitDrain (modCore (fun k => { k with fenceMark := k.nextInstr }) s)) else .next (sBlock s)
  else if !drained s.core true true then .next (sBlock s)
  else .next (endTask (releasePoint s s.coreId 2 .other []) s.coreId)

/-! ### ERET (10 R300, R305) -/

/-- The resume action of the trap record, none where its byte cannot be read. -/
def resumeAction (s : State) : Option Nat :=
  match readHome s (taskAgent s) (s.core.sys.trapCut.toNat + 0x118) 1 with
  | (_, .ok [b]) => some b.toNat
  | _ => none

/-- A listed LDT bound afresh from this cycle (R305, 02 R52). -/
def reissueOne (r : Reissue) (s : State) : State :=
  match bindSlots s s.coreId (channelOf r.pa) r.n (s.now + requestPath) with
  | none => s
  | some starts =>
    let t : Timed :=
      { isWrite := false, instr := s.core.nextInstr, channel := channelOf r.pa, start := 0, late := false, pa := r.pa, va := r.va, page := r.page, slot := r.slot, off := r.off, base := 0, total := 0,
        tagged := some r.tag, issued := cyc s, last := false, isVoid := false, voided := false, faulty := false, data := 0, sample := none, sides := [], stamp := 0, world := s.core.sys.world,
        word := r.word }
    modCore (fun k => modSlot r.slot (fun x => { x with pend := x.pend + 1 })
      { k with nextInstr := k.nextInstr + 1, timed := k.timed ++ bindRequests s t starts, missed := k.missed.filter fun x => x ≠ r }) s

/-- The listed producers reissued, after which the task waits for them to land. -/
def reissueAll (s : State) : State :=
  let l := s.core.reissue
  if l.isEmpty then pinAgain (resumeAt (cyc s + 1) (leaveHandler s))
  else modCore (fun k => { k with hold := .reissue, reissue := [] }) (leaveHandler (l.foldl (fun s r => reissueOne r s) s))

/-- The reissued producers have landed: the task resumes in cycle `r` (R305). -/
def reissueLanded (k : Core) : Bool := k.hold = .reissue && k.timed.all (fun t => t.isWrite || t.tagged.isNone) && k.fx.isEmpty

/-- RESTART: strips and unstarted entries discarded, the S stream at TRAP_PC (R300). -/
def restartTask (s : State) : State :=
  let c := cyc s
  modCore (fun k => { k with hold := .none, pc := k.sys.trapPc, xfer := none, phase := 0, sReady := c + 1 }) (leaveHandler (discardWork s))

/-- ERET: it stands in no delay word, and HANDLER must be 1. -/
def execEret (s : State) : Out :=
  if !inHandler s || s.core.xfer.isSome then sIllegal s
  else
    match resumeAction s with
    | some 0 => .next (pinAgain (resumeAt (cyc s + 1) (leaveHandler s)))
    | some 1 => if 4 < s.core.reissue.length then sIllegal s else .next (reissueAll s)
    | some 2 => if s.running.all fun r => r.core ≠ s.coreId then .next (restartTask s) else .next (sBlock s)
    | _ => sIllegal s

end Sys2Proof.Machine
end

