-- ==== Sys2Proof/Machine/Engine.lean ====
section
/-! DEFINITION. What all engine commands share: the record's header, accesses of a command as a thread, its start with the checks of its scratchpad
operands, parking, and its end (16_isa_engines R438 to R442; 09_memory_model R279 to R283; 10_traps R306, R308; 06_core R177, R185). -/

namespace Sys2Proof.Machine

/-! ### Records -/

/-- A field of a record: `n` bytes at offset `off`. -/
def fld (c : Cmd) (off n : Nat) : Nat := recBytes c.bits off n

/-- Bytes `lo` to `hi - 1` of a record are zero. -/
def zeroBytes (r : BitVec 512) (lo hi : Nat) : Bool := recBytes r lo (hi - lo) = 0

/-- The reserved bits of the common header are zero (R438). -/
def headerOk (r : BitVec 512) : Bool := recBytes r 2 2 / 1024 = 0 && zeroBytes r 7 8

/-! ### Why a command stops -/

/-- A command stops at a line: it parks there with a translation fault (10 R308), it waits there while the line is held (02 R56, R65; 03 R101), or it
ends with a status and, where one is raised, a trap. -/
inductive Halt where
  | park (f : Failed)
  | wait (pa : Nat) (write : Bool)
  | stop (status : Nat) (t : Option Trap)
  deriving DecidableEq, Repr

/-- A command that ends with a status and no trap of its own. -/
def stopWith (status : Nat) : Halt := .stop status none

/-- A world check that fails on a line: BADCMD, with a world-violation trap (R441). -/
def stopWorld (va : Nat) : Halt := .stop stBadcmd (some { cause := .world, addr := BitVec.ofNat 64 va })

/-- A line that races (09 R282). -/
def stopRace (f : Failed) : Halt := .stop stRace (some { cause := .race, addr := f.addr, detail := f.detail })

/-- The failure of a line check as a halt. -/
def haltOf (f : Failed) : Halt := if f.cause = .race then stopRace f else stopWorld f.addr.toNat

/-! ### A command's accesses -/

/-- A command as an agent: its vector is the snapshot of its stamp (R282). -/
def cmdAgent (s : State) (r : RunCmd) : Agent :=
  { core := r.core, world := r.world, vec := ((namedSnap s r.core r.stamp).map (·.vec)).getD [], cmd := some (r.stamp, r.eng, r.seq) }

/-- The race field that a command's writes carry (R279). -/
def cmdStamp (r : RunCmd) : Option (BitVec 10 × BitVec 8) := some (BitVec.ofNat 10 r.core, r.stamp)

/-- How an engine's access treats pages that it may not use: a copy engine reaches the host window and ends with BADCMD elsewhere (R444, 03 R77); other
engines meet a permission fault. -/
inductive Reach where
  | copy
  | plain
  deriving DecidableEq, Repr

/-- Translation of an engine's access. -/
def engXlate (s : State) (w : BitVec 6) (va : Nat) (write : Bool) (reach : Reach) : Except Halt (Pte × Nat) :=
  let no : Halt := match reach with
    | .copy => stopWith stBadcmd
    | .plain => .park (failAt .permission va)
  if va < 0x100000 then .error (.park (failAt .unmapped va))
  else
    match findPte s w va with
    | none => .error (.park (failAt .unmapped va))
    | some p =>
      let pa := ownPa s (p.pa + (va - p.va))
      let t := tierOf pa
      if t = .reserved || (t = .cxl && (hdmOf s pa).isNone) then .error (.park (failAt .unmapped va))
      else if t = .weight || t = .wear || t = .domain || (t = .host && reach = .plain) then .error no
      else if write && (!p.write || p.exec || t = .hbf || isReplica s pa) then .error no
      else .ok (p, pa)

/-- Bytes as an engine handles them, each with the poison of its line. -/
abbrev EBytes := List (Byte × Bool)

/-- A part of one line read by a command. -/
def engLine (s : State) (r : RunCmd) (reach : Reach) (x : Nat × Nat × Nat) : Except Halt EBytes :=
  match engXlate s r.world x.2.1 false reach with
  | .error h => .error h
  | .ok (p, pa) =>
    if accessWaits s r.core pa then .error (.wait pa false)
    else
      let fail := if tierOf pa = .host then none else checkRead s (cmdAgent s r) p pa x.2.1
      match fail with
      | some f => .error (haltOf f)
      | none =>
        let l := readLine s pa p.keySlot
        .ok (((l.bytes.drop (x.2.1 - x.1)).take (x.2.2 - x.2.1)).map fun b => (b, l.poison))

/-- Bytes of space gl read by a command, whole. -/
def engRead (s : State) (r : RunCmd) (reach : Reach) (va n : Nat) : Except Halt EBytes :=
  (spanLines va n).foldr (fun x acc =>
    match engLine s r reach x with
    | .error h => .error h
    | .ok b => match acc with
      | .error h => .error h
      | .ok l => .ok (b ++ l)) (.ok [])

/-- Lines whose read returned poison: reported, and marked at home (04 R123, R128). -/
def notePoisonAll (s : State) (r : RunCmd) (va n : Nat) : State :=
  (spanLines va n).foldl (fun s x =>
    match findPte s r.world x.2.1 with
    | none => s
    | some p =>
      let pa := ownPa s (p.pa + (x.2.1 - p.va))
      if (readLine s pa p.keySlot).poison then notePoison s pa r.core else s) s

/-- A checkpoint interval can no longer be rolled back (10 R316). -/
def irrevocableFor (s : State) (t : TaskRef) : State := modCkpt s t fun k => { k with irrev := true }

/-- A part of one line written by a command. -/
def engPut (s : State) (r : RunCmd) (reach : Reach) (stamp : Option (BitVec 10 × BitVec 8)) (x : Nat × Nat × Nat) (b : EBytes) : Except Halt State :=
  match engXlate s r.world x.2.1 true reach with
  | .error h => .error h
  | .ok (p, pa) =>
    if tierOf pa = .host then .ok (irrevocableFor (hostStore s pa (b.map (·.1)) (b.any (·.2))) r.task)
    else if writeWaits s r.core pa then .error (.wait pa true)
    else
      match checkWrite s (cmdAgent s r) p pa x.2.1 with
      | some f => .error (haltOf f)
      | none =>
        .ok (writeLine s pa (b.zipIdx.map fun q => (x.2.1 - x.1 + q.2, q.1.1)) r.world stamp (b.any (·.2)) p.keySlot (some r.task))

/-- A run of writes: the state, how many lines are done, and the halt that ended it. -/
structure PutRun where
  s : State
  lines : Nat
  halt : Option Halt

/-- Bytes of space gl written by a command, line by line in ascending address, from line `skip` on. -/
def engWrite (s : State) (r : RunCmd) (reach : Reach) (stamp : Option (BitVec 10 × BitVec 8)) (va : Nat) (b : EBytes) (skip : Nat) : PutRun :=
  ((spanLines va b.length).drop skip).foldl (fun a x =>
    match a.halt with
    | some _ => a
    | none =>
      match engPut a.s r reach stamp x ((b.drop (x.2.1 - va)).take (x.2.2 - x.2.1)) with
      | .error h => { a with halt := some h }
      | .ok t => { a with s := t, lines := a.lines + 1 }) { s := s, lines := skip, halt := none }

/-! ### The core's side of a command -/

/-- The entry of a command in its core-side queue. -/
def findEntry (k : Core) (eng : Nat) (seq : BitVec 32) : Option QCmd := (k.engQ.toList.getD (engineIndex eng) []).find? fun e => e.seq = seq

/-- The entry taken out of its queue. -/
def dropEntry (eng : Nat) (seq : BitVec 32) (k : Core) : Core :=
  let i := engineIndex eng
  { k with engQ := k.engQ.setIfInBounds i ((k.engQ.toList.getD i []).filter fun e => e.seq ≠ seq) }

/-- No task. -/
def TaskRef.none : TaskRef := { part := 16, launch := 0, task := 0, gang := 0 }

/-- The command as its engine takes it up, in this cycle of its core, which is in focus. -/
def newRun (s : State) (eng : Nat) (c : Cmd) : RunCmd :=
  { core := s.coreId, task := s.core.task.getD TaskRef.none, eng := eng, seq := c.seq, bits := c.bits,
    stamp := ((findEntry s.core eng c.seq).map (·.stamp)).getD s.core.race.own, world := cmdWorld c.bits, due := cyc s, waiting := false,
    pending := false, parked := none, done := (0, 0), buf := [], held := [], poisoned := false, status := 0, result := 0, trap := none, follow := none,
    land := cyc s, xid := 0, tag := none, blocks := [], wait := .none, mark := ((findEntry s.core eng c.seq).map (·.mark)).getD s.core.nextInstr }

/-- The command stands among those taken up, in the place of its earlier stand, if any. -/
def putRun (r : RunCmd) (s : State) : State :=
  let same (x : RunCmd) : Bool := x.task = r.task && x.eng = r.eng && x.seq = r.seq
  if s.running.any same then { s with running := s.running.map fun x => if same x then r else x } else { s with running := s.running ++ [r] }

/-- An entry trap of the task on the core in focus, in this cycle (R306). -/
def entryTrap (eng : Nat) (t : Trap) (s : State) : State :=
  let c := cyc s
  modCore (fun k => { k with deferred := k.deferred ++ [(c, { t with source := 0x80 + eng, entry := true })] }) s

/-- The cluster fault queue of 64 entries takes a parked command (R308). -/
def queueFault (e : FaultEntry) (s : State) : State :=
  let u := getCluster s (clusterOf e.core)
  if u.faultQ.length < 64 && !u.faultQ.contains e then putCluster s { u with faultQ := u.faultQ ++ [e] } else s

/-- A command parked at a line. -/
def parkRun (f : Failed) (r : RunCmd) (s : State) : State :=
  queueFault { core := r.core, cmd := some (r.eng, r.seq) }
    (putRun { r with parked := some { cause := f.cause, addr := f.addr, detail := f.detail, source := 0x80 + r.eng, entry := true } } s)

/-- A tagged producer that ends without its last byte landing writes the void tag (06 R185). -/
def voidTag (r : RunCmd) (s : State) : State :=
  match r.tag with
  | none => s
  | some (slot, _, issued) =>
    let k := getCore s r.core
    putCore s r.core { k with fx := k.fx ++ [{ due := cycOf s r.core, order := engOrder r.eng, eff := .slotLand slot 0xFFFF issued }] }

/-- The trap that a status raises at the report (R441). -/
def statusTrap (status : Nat) (handle : Nat) : Option Trap :=
  if status = stQuota then some (trapOf .quota)
  else if status = stMaplost then some { cause := .mapLost, detail := BitVec.ofNat 512 handle }
  else if status = stRace then some (trapOf .race)
  else if status = stPoisoned then some (trapOf .poison)
  else none

/-- A command ends in cycle `due` with a status and a result. -/
def endsWith (r : RunCmd) (due : Cycle) (status : Nat) (result : Nat) : RunCmd :=
  { r with due := due, status := BitVec.ofNat 8 status, result := BitVec.ofNat 48 result, trap := r.trap.orElse fun _ => statusTrap status 0,
           pending := false, waiting := false, parked := none, wait := .none }

/-- A command that meets a halt: it parks, or it ends in this cycle of its core. -/
def haltRun (h : Halt) (r : RunCmd) (s : State) : State :=
  match h with
  | .park f => parkRun f r s
  | .wait pa w => putRun { r with wait := .line pa w } s
  | .stop st t => putRun { endsWith { r with trap := t } (cycOf s r.core) st 0 with follow := none } s

/-- The first slot among the scratchpad operands that is not ready, or none (R439). -/
def operandSlots (s : State) (spans : List (Nat × Nat)) : Chk Unit := checkAll' ((spans.flatMap fun x => slotsOf x.1 x.2).eraseDups)
where
  checkAll' : List Nat → Chk Unit
  | [] => .ok ()
  | i :: is =>
    match slotReady s.core i none with
    | .error t => .error t
    | .ok () => checkAll' is

/-- A command starts (R439): an invalid record completes with BADCMD, a scratchpad operand that is not ready traps and leaves the entry in its queue,
and otherwise the command does its work. -/
def startCommand (eng : Nat) (c : Cmd) (valid : State → Bool) (ready : State → Chk Unit) (work : RunCmd → State → State) (s : State) : Out :=
  let s := focus s c.core
  let r := newRun s eng c
  if !(headerOk c.bits && valid s) then .next (putRun (endsWith r (cyc s) stBadcmd 0) (modCore (dropEntry eng c.seq) s))
  else
    match ready s with
    | .error t => .next (entryTrap eng t s)
    | .ok () => .next (work r (modCore (dropEntry eng c.seq) s))

/-- No scratchpad operands. -/
def noOperands (s : State) : Chk Unit := let _ := s; .ok ()

/-! ### What a start waits for (03 R99, 05 R133; 09 R283) -/

/-- The queue that an entry of a core joins: the core's own for CE0 and CE1, its cluster's for XCE, and its partition's for the other engines. -/
def queueKey (s : State) (eng : Nat) (c : CoreNo) : Nat :=
  if eng < 2 then c else if eng = 0x08 then clusterOf c else (partOfCore s c).getD 16

/-- The engines that clear themselves at a change of world: copy engines, attention units and ligature units (03 R99). -/
def clearsWorld (eng : Nat) : Bool := eng < 2 || eng = 0x08 || eng = 0x10 || eng = 0x11

/-- The engines that all partitions share, which serve their queues round-robin (05 R133). -/
def sharedByAll (eng : Nat) : Bool := eng = 0x12 || eng = 0x15

/-- The last entry that this queue of an engine took up had another world. -/
def worldTurns (eng : Nat) (r : RunCmd) (s : State) : Bool :=
  clearsWorld eng && s.engWorld.any fun x => x.1 = eng && x.2.1 = queueKey s eng r.core && x.2.2 ≠ r.world

/-- The engine has taken an entry up: of its world, and of its partition. -/
def takeUp (eng : Nat) (r : RunCmd) (s : State) : State :=
  let key := queueKey s eng r.core
  if clearsWorld eng then { s with engWorld := s.engWorld.filter (fun x => !(x.1 = eng && x.2.1 = key)) ++ [(eng, key, r.world)] }
  else if sharedByAll eng then { s with served := assocPut s.served eng key }
  else s

/-- How long a partition waits for its turn at an engine: one that follows the partition served last comes first (05 R133). -/
def turnAfter (s : State) (eng p : Nat) : Nat := (p + 16 - ((assocGet s.served eng).getD 15 + 1) % 16) % 16

/-- Accesses of the core that come before an entry are done. -/
def accessesDone (k : Core) (mark : Nat) : Bool :=
  k.timed.all (fun t => mark ≤ t.instr) && k.loads.all (fun u => mark ≤ u.id) && k.stores.all fun w => mark ≤ w.id

/-- Nothing keeps the work of a command that starts: neither a clear of its engine nor, where it makes accesses off its core, an earlier access. -/
def worksAtOnce (eng : Nat) (all : Bool) (r : RunCmd) (s : State) : Bool :=
  !worldTurns eng r s && (!all || accessesDone (getCore s r.core) r.mark)

/-- The work of a command that has started: at once, or when what it waits for is over; a clear takes 64 cycles (R99). -/
def whenReady (eng : Nat) (all : Bool) (work : RunCmd → State → State) (r : RunCmd) (s : State) : State :=
  if worksAtOnce eng all r s then work r (takeUp eng r s)
  else
    let start := if worldTurns eng r s then cycOf s r.core + coreCycles s r.core 64 else cycOf s r.core
    putRun { r with wait := .ready start all } (takeUp eng r s)

/-- What a started command waits for is over. -/
def waitOver (s : State) (r : RunCmd) : Bool :=
  match r.wait with
  | .none => false
  | .ready start all => start ≤ cycOf s r.core && (!all || accessesDone (getCore s r.core) r.mark)
  | .line pa write => !(if write then writeWaits s r.core pa else accessWaits s r.core pa)

/-! ### The end (R440) -/

/-- The core on which a task is resident. -/
def taskCore (s : State) (t : TaskRef) : Option CoreNo :=
  (coreNos s).find? fun c => match (getCore s c).task with
    | some u => u.part = t.part && u.launch = t.launch && u.task = t.task
    | none => false

/-- The task's core changed, with its cycle, or its saved context. -/
def modTask (s : State) (t : TaskRef) (f : Option Cycle → Core → Core) : State :=
  match taskCore s t with
  | some c => putCore s c (f (some (cycOf s c)) (getCore s c))
  | none =>
    { s with contexts := s.contexts.map fun x =>
        if x.task.part = t.part && x.task.launch = t.launch && x.task.task = t.task then { x with core := f none x.core } else x }

/-- The snapshot of a command merged with the one that the object's previous race field names, and its kind made that of a completion (09 R280). -/
def completionSnap (r : RunCmd) (more : Counts) (s : State) : State :=
  let k := getCore s r.core
  let snaps := k.race.snaps.map fun x => if x.key = r.stamp && keyAge k.race x.key < 32 then { x with vec := mergeCounts x.vec more, kind := .completion } else x
  putCore s r.core { k with race := { k.race with snaps := snaps } }

/-- Steps 1 and 2: the report, then the increment, both stamped with the command's stamp. -/
def reportEnd (r : RunCmd) (s : State) : State :=
  let va := cmdObject r.bits
  if va = 0 then s
  else
    let more := match devPa s r.world va with
      | some (p, pa) => releaseMore s (lineAt s pa p.keySlot).side
      | none => []
    let s := completionSnap r more s
    let word := leBytes 1 r.status.toNat ++ leBytes 1 r.eng ++ leBytes 6 r.result.toNat
    let s := devWrite s r.world (va + 8) word (cmdStamp r) (some r.task)
    incObject s r.world va (cmdStamp r) (some r.task)

/-- Step 3, the done bit of the stamp entry, and the entry trap. -/
def signalEnd (r : RunCmd) (s : State) : State :=
  let k := getCore s r.core
  let s := putCore s r.core { k with race := { k.race with stamps := k.race.stamps.map fun (e : Stamp) =>
    if e.stamp = r.stamp && e.eng = r.eng && e.seq = r.seq then { e with done := true } else e } }
  modTask s r.task fun c k =>
    let f : BitVec 10 := BitVec.ofNat 10 (cmdFlag r.bits)
    let k :=
      if !cmdFlagEn r.bits then k
      else match c with
        | some n => { k with fx := k.fx ++ [{ due := n, order := engOrder r.eng, eff := .flagSet f }] }
        | none => flagPut f.toNat true k
    match r.trap with
    | none => k
    | some t => { k with deferred := k.deferred ++ [(c.getD 0, { t with source := 0x80 + r.eng, entry := true })] }

/-- A command ends in one act. -/
def endRun (r : RunCmd) (s : State) : State :=
  let s := { s with running := s.running.filter fun x => x ≠ r }
  afterIncrement (signalEnd r (reportEnd r (voidTag r s)))

/-- COMMAND_END: the command at the place that the event names. -/
def execCommandEnd (s : State) : Out :=
  match s.running[s.ev.n]? with
  | none => .next s
  | some r => .next (endRun r s)

/-- The cycles of work of `n` at `per` each cycle. -/
def workCycles (n per : Nat) : Nat := ceilDiv n per

/-- A command ends `n` cycles of the 1.6 GHz clock from now and after a free delay (log 8). -/
def endsLater (n status result : Nat) (r : RunCmd) (s : State) : State :=
  let (d, s) := drawDelay s
  putRun (endsWith r (cycOf s r.core + coreCycles s r.core (n + d)) status result) s

end Sys2Proof.Machine
end

