-- ==== Sys2Proof/Machine/EngineCopy.lean ====
section
/-! DEFINITION. The copy engines, their follow-on words, copies between packages, and the weight loader (16_isa_engines R443 to R447, R456; 14_isa_matrix
R401 to R403; 03_links_trust R87, R89). -/

namespace Sys2Proof.Machine

/-! ### COPY2D: the record (R443, R446) -/

/-- The operands of a COPY2D. -/
structure CopyOp where
  src : Nat
  dst : Nat
  len : Nat
  rows : Nat
  seqTag : BitVec 16
  sStride : Int
  dStride : Int
  word : Word
  tagged : Bool
  follow : Bool
  tile : Bool
  treg : BitVec 4
  fmt : Nat
  deriving DecidableEq, Repr

def copyOp (c : Cmd) : CopyOp :=
  { src := fld c 16 8, dst := fld c 24 8, len := fld c 32 4 % 2 ^ 22, rows := fld c 36 2, seqTag := BitVec.ofNat 16 (fld c 38 2),
    sStride := sNat 32 (fld c 40 4), dStride := sNat 32 (fld c 44 4), word := BitVec.ofNat 32 (fld c 48 4), tagged := (fld c 52 1).testBit 0,
    follow := (fld c 52 1).testBit 1, tile := (fld c 52 1).testBit 2, treg := BitVec.ofNat 4 (fld c 53 1), fmt := fld c 53 1 / 16 }

/-- The address of row `i`. -/
def rowAddr (base : Nat) (stride : Int) (i : Nat) : Nat := intMod 64 ((base : Int) + stride * (i : Int))

/-- A scratchpad-local address names the scratchpad with all its rows; an address of space gl is not looked at. -/
def localOk (base : Nat) (stride : Int) (rows len : Nat) : Bool :=
  0x100000 ≤ base ||
    let x := rowsSpan base stride rows len
    0 ≤ x.1 && x.2 ≤ (spEnd : Int)

/-- An address of space gl lies in the weight store or in the domain window (R444). -/
def copyBarred (s : State) (w : BitVec 6) (va : Nat) : Bool :=
  match findPte s w va with
  | none => false
  | some p =>
    let t := tierOf (ownPa s (p.pa + (va - p.va)))
    t = .weight || t = .wear || t = .domain

/-- A row touches such a line. -/
def rowsBarred (s : State) (w : BitVec 6) (base : Nat) (stride : Int) (rows len : Nat) : Bool :=
  0x100000 ≤ base && (List.range rows).any fun i => (spanLines (rowAddr base stride i) len).any fun x => copyBarred s w x.2.1

/-- The follow-on word of a record, where it is an MMA or an MMAS with gap 0 that names the destination tile among its operands (R446). -/
def followOk (o : CopyOp) : Bool :=
  o.tile && gapOf o.word = 0 &&
    match decode (.col .colC) o.word with
    | .ok (.mma m) => m.a = o.treg || m.b = o.treg
    | .ok (.mmas m) => m.a = o.treg || (m.b.toNat ≤ o.treg.toNat && o.treg.toNat < m.b.toNat + rhoOf o.fmt)
    | _ => false

/-- The record is one that COPY2D takes (R438, R443, R444). -/
def copyValid (c : Cmd) (s : State) : Bool :=
  let o := copyOp c
  fld c 32 4 / 2 ^ 22 = 0 && 1 ≤ o.len && 1 ≤ o.rows && fld c 52 1 / 8 = 0 && zeroBytes c.bits 54 64
    && (if o.tile then o.dst = 0 && 1 ≤ o.fmt && o.fmt ≤ 13 && o.rows * o.len ≤ 8192 && !o.tagged else fld c 53 1 = 0)
    && (if o.follow then followOk o else o.word = 0)
    && (!o.tagged || (o.seqTag ≠ 0xFFFF && o.dst < spEnd))
    && localOk o.src o.sStride o.rows o.len && (o.tile || localOk o.dst o.dStride o.rows o.len)
    && !rowsBarred s (cmdWorld c.bits) o.src o.sStride o.rows o.len
    && (o.tile || !rowsBarred s (cmdWorld c.bits) o.dst o.dStride o.rows o.len)

/-- The tile slot of a tagged copy. -/
def copySlot (o : CopyOp) : Nat := o.dst / 4096

/-- The start checks: the source's slots, the tagged slot's PEND, and the tile register (R439, 06 R175, R185). -/
def copyReady (c : Cmd) (s : State) : Chk Unit := do
  let o := copyOp c
  operandSlots s (if o.src < spEnd then (List.range o.rows).map fun i => (rowAddr o.src o.sStride i, o.len) else [])
  need (!(o.tagged && (getSlot s.core (copySlot o)).pend = 15)) { lateTrap with slot := some (copySlot o) }
  if o.tile then (tFree s o.treg).map fun _ => () else .ok ()

/-! ### COPY2D: the rows (R444) -/

/-- A copy under way: the package, the core's scratchpad as the later rows read it, the scratchpad writes so far, the bytes of the tile. -/
structure CopyRun where
  s : State
  view : Core
  writes : List (Nat × List Byte × Bool)
  tile : EBytes
  halt : Option Halt
  done : Nat × Nat
  buf : EBytes
  poisoned : Bool

/-- One row of the source. -/
def copyReadRow (o : CopyOp) (r : RunCmd) (i : Nat) (a : CopyRun) : Except Halt EBytes :=
  let addr := rowAddr o.src o.sStride i
  if o.src < spEnd then
    .ok ((spanLines addr o.len).flatMap fun x => (cellRead a.view.sp x.2.1 (x.2.2 - x.2.1)).map fun b => (b, spPoison a.view x.1))
  else engRead a.s r .copy addr o.len

/-- A row written to the scratchpad, a line at a time. -/
def copyPutLocal (addr : Nat) (b : EBytes) (a : CopyRun) : CopyRun :=
  (spanLines addr b.length).foldl (fun a x =>
    let part := (b.drop (x.2.1 - addr)).take (x.2.2 - x.2.1)
    let bytes := part.map (·.1)
    let p := part.any (·.2)
    { a with view := localPut x.2.1 bytes p a.view, writes := a.writes ++ [(x.2.1, bytes, p)] }) a

/-- One row copied. -/
def copyRow (o : CopyOp) (r : RunCmd) (a : CopyRun) (i : Nat) : CopyRun :=
  match a.halt with
  | some _ => a
  | none =>
    let row := if a.buf.isEmpty then copyReadRow o r i a else .ok a.buf
    match row with
    | .error h => { a with halt := some h, done := if o.tile then (0, 0) else (i, 0) }
    | .ok b =>
      let bad := b.any (·.2)
      let a := { a with poisoned := a.poisoned || bad, buf := [],
                        s := if bad && spEnd ≤ o.src then notePoisonAll a.s r (rowAddr o.src o.sStride i) o.len else a.s }
      let to_ := rowAddr o.dst o.dStride i
      if o.tile then { a with tile := a.tile ++ b }
      else if o.dst < spEnd then copyPutLocal to_ b { a with done := (i + 1, 0) }
      else
        let w := engWrite a.s r .copy (cmdStamp r) to_ b a.done.2
        match w.halt with
        | some h => { a with s := w.s, halt := some h, done := (i, w.lines), buf := b }
        | none => { a with s := w.s, done := (i + 1, 0) }

/-- Unloaded, the first line of a read from HBM lands about 460 cycles after the start (R445; log 8). -/
def farCopyBase : Nat := 460

/-- Both ends of a copy lie in the scratchpad or a tile register. -/
def CopyOp.near (o : CopyOp) : Bool := o.src < spEnd && (o.tile || o.dst < spEnd)

/-- The landing cycle of a copy that starts now (R445). -/
def copyLands (o : CopyOp) (s : State) : Cycle × State :=
  if o.near then (cyc s + 8 + ceilDiv (o.rows * o.len) 128, s)
  else
    let (d, s) := drawDelay s
    (cyc s + coreCycles s s.coreId (farCopyBase + ceilDiv (o.rows * o.len) 64 + d), s)

/-- The copy writes one tile slot whole (15 R414). -/
def CopyOp.fillsSlot (o : CopyOp) : Bool :=
  !o.tile && o.dst % 4096 = 0 && o.dst < spEnd && o.rows * o.len = 4096 && (o.rows = 1 || o.dStride = (o.len : Int))

/-- What lands of a copy, at cycle `land`. -/
def copyLand (o : CopyOp) (r : RunCmd) (a : CopyRun) (land : Cycle) : State :=
  let n := engOrder r.eng
  let s := a.writes.foldl (fun s w => post land n (.localWrite w.1 w.2.1 w.2.2) s) a.s
  match a.halt with
  | none =>
    let s := if o.tile then post land n (.tWrite o.treg (BitVec.ofNat 65536 (leNat (a.tile.map (·.1)))) (BitVec.ofNat 4 o.fmt) (a.tile.any (·.2)) true) s else s
    let s := if o.fillsSlot then post land n (.slotWhole (o.dst / 4096)) s else s
    match r.tag with
    | some (slot, tag, issued) => post land n (.slotLand slot tag issued) s
    | none => s
  | some (.stop _ _) => if o.tile then post land n (.tEnd o.treg) s else s
  | some _ => s

/-- The work of a COPY2D, from where it stands. -/
def copyWork (c : Cmd) (r : RunCmd) (s : State) : State :=
  let o := copyOp c
  let (land, s) := copyLands o s
  let a0 : CopyRun := { s := s, view := s.core, writes := [], tile := [], halt := none, done := r.done, buf := r.buf, poisoned := r.poisoned }
  let a := ((List.range o.rows).drop r.done.1).foldl (copyRow o r) a0
  let s := copyLand o r a land
  let r := { r with done := a.done, buf := a.buf, poisoned := a.poisoned, land := land }
  match a.halt with
  | some (.stop st t) => putRun (endsWith { r with trap := t } (land + 4) st 0) s
  | some h => haltRun h r s
  | none =>
    let r := endsWith { r with tag := none } (land + 4) (if a.poisoned then stPoisoned else stOk) 0
    putRun (if o.follow then { r with follow := some o.word, pending := true } else r) s

/-- The start of a COPY2D: it becomes a producer of its slot or its tile (R444). -/
def copyStart (c : Cmd) (r : RunCmd) (s : State) : State :=
  let o := copyOp c
  let n := engOrder r.eng
  let s1 := if o.tagged then post (cyc s) n (.slotPend (copySlot o)) s else s
  let s1 := if o.tile then post (cyc s) n (.tPend o.treg) s1 else s1
  whenReady r.eng (!o.near) (copyWork c) (if o.tagged then { r with tag := some (copySlot o, o.seqTag, cyc s) } else r) s1

/-- The engine whose queue holds a copy: CE0 or CE1. -/
def copyEngine (s : State) (c : Cmd) : Nat := if (findEntry (getCore s c.core) 1 c.seq).any fun e => e.bits = c.bits then 1 else 0

def execCopy2d (c : Cmd) (s : State) : Out := startCommand (copyEngine s c) c (copyValid c) (copyReady c) (copyStart c) s

/-! ### Follow-on words (14 R401, R402) -/

/-- The accumulator of a follow-on word, and its step. -/
def followStep (w : Word) (s : State) : Option (BitVec 2 × Chk State) :=
  match decode (.col .colC) w with
  | .ok (.mma m) => some (m.n, mmaStep m true wordSource (wordAddr s.core .colC) s)
  | .ok (.mmas m) => some (m.n, mmasStep m true wordSource (wordAddr s.core .colC) s)
  | _ => none

/-- The tiles of a follow-on word. -/
def followTiles (w : Word) (s : State) : List (BitVec 4) :=
  match decode (.col .colC) w with
  | .ok (.mma m) => [m.a, m.b]
  | .ok (.mmas m) => m.a :: m.x :: (List.range (rhoOf (readT s m.a).tag.toNat)).map fun i => m.b + BitVec.ofNat 4 i
  | _ => []

/-- The follow-on word acts in this cycle of its core, which is in focus: its window is shut, from the cycle in which the operand lands on, or it can
issue. -/
def followActs (r : RunCmd) (s : State) : Bool :=
  match r.follow with
  | none => false
  | some w =>
    match followStep w s with
    | none => true
    | some (n, _) =>
      if !(readA s n).window then decide (r.land ≤ cyc s)
      else decide (r.land < cyc s) && decide (s.core.units.array ≤ cyc s) && (followTiles w s).all fun t => (readT s t).busy = 0

/-- FOLLOW_ON_ISSUE: the word issues, or it is refused. -/
def execFollowOnIssue (s : State) : Out :=
  match s.running[s.ev.n]? with
  | none => .next s
  | some r =>
    let s := focus s r.core
    match r.follow with
    | none => .next s
    | some w =>
      let due := max r.land (cyc s) + 4
      let r1 := { r with follow := none, pending := false, due := due }
      match followStep w s with
      | none => .next (putRun { r1 with status := BitVec.ofNat 8 stBadcmd } s)
      | some (n, step) =>
        if !(readA s n).window then .next (putRun { r1 with status := BitVec.ofNat 8 stAborted } s)
        else
          match step with
          | .ok t => .next (putRun r1 t)
          | .error _ => .next (putRun { r1 with status := BitVec.ofNat 8 stBadcmd } s)

/-! ### COPYR (R447, 03 R89) -/

/-- The operands of a COPYR: addresses, nodes, length, group slot, view. -/
structure CopyrOp where
  src : Nat
  dst : Nat
  srcNode : Nat
  dstNode : Nat
  len : Nat
  group : Nat
  view : BitVec 32
  deriving DecidableEq, Repr

def copyrOp (c : Cmd) : CopyrOp :=
  { src := fld c 16 8, dst := fld c 24 8, srcNode := fld c 32 4, dstNode := fld c 36 4, len := fld c 40 4, group := fld c 44 1,
    view := BitVec.ofNat 32 (fld c 48 4) }

/-- A node of a COPYR is this package. -/
def selfNode (s : State) (n : Nat) : Bool := n = noNode || n = s.node.toNat

/-- The world is a group world of the slot (03 R106). -/
def groupWorld (s : State) (w : BitVec 6) (g : Nat) : Bool := (getWorld s w.toNat).group = some g

def copyrValid (c : Cmd) (s : State) : Bool :=
  let o := copyrOp c
  o.src % 64 = 0 && o.dst % 64 = 0 && o.srcNode < 2 ^ 18 && o.dstNode < 2 ^ 18 && o.len % 64 = 0 && 64 ≤ o.len && o.len ≤ 2 ^ 30 && o.group < 8
    && zeroBytes c.bits 45 48 && zeroBytes c.bits 52 64 && (selfNode s o.srcNode || selfNode s o.dstNode)
    && (getGroup s o.group).valid && groupWorld s (cmdWorld c.bits) o.group

/-- A COPY_DATA flit's first slot: the address of its first line, and for a request the length and the address at the asker (log 13). -/
def copySlot0 (dst len back : Nat) : Nat := dst + len * 2 ^ 64 + back * 2 ^ 96

/-- A line as a line slot of a flit. -/
def lineSlot (bytes : List Byte) (d : Side) : Nat × Nat := (leNat bytes, sideWord bytes d)

/-- A line sent to another package for its address there. -/
def sendCopyLine (s : State) (r : RunCmd) (o : CopyrOp) (node dst : Nat) (b : EBytes) : State :=
  let d : Side := { Side.neutral r.world 0 with poison := b.any (·.2) }
  sendFlit s (some r.task.part) node flitCopyData r.world (getGroup s o.group).num.toNat o.view.toNat r.xid [(copySlot0 dst 64 0, 0), lineSlot (b.map (·.1)) d]

/-- A run of lines of a COPYR from this package: to a node, or within this package. -/
structure LineRun where
  s : State
  lines : Nat
  poisoned : Bool
  halt : Option Halt

def copyrLine (r : RunCmd) (o : CopyrOp) (a : LineRun) (i : Nat) : LineRun :=
  match a.halt with
  | some _ => a
  | none =>
    match engRead a.s r .plain (o.src + 64 * i) 64 with
    | .error h => { a with halt := some h }
    | .ok b =>
      let bad := b.any (·.2)
      let s := if bad then notePoisonAll a.s r (o.src + 64 * i) 64 else a.s
      let next (s : State) : LineRun := { s := s, lines := i + 1, poisoned := a.poisoned || bad, halt := none }
      if selfNode s o.dstNode then
        let w := engWrite s r .plain neutral (o.dst + 64 * i) b 0
        match w.halt with
        | some h => { a with s := w.s, halt := some h }
        | none => next w.s
      else next (sendCopyLine s r o o.dstNode (o.dst + 64 * i) b)

/-- The work of a COPYR: `done` counts lines read here, acknowledgements come later (COPY_ACK). -/
def copyrWork (c : Cmd) (r : RunCmd) (s : State) : State :=
  let o := copyrOp c
  let s := irrevocableFor s r.task
  if (getGroup s o.group).view ≠ o.view then putRun (endsWith r (cyc s) stViewChanged 0) s
  else
    let r := if r.done.1 = 0 then { r with xid := freshTag s } else r
    if !selfNode s o.srcNode then
      let s := sendFlit s (some r.task.part) o.srcNode flitCopyData r.world (getGroup s o.group).num.toNat o.view.toNat r.xid [(copySlot0 o.src o.len o.dst, 1)]
      putRun { r with pending := true } s
    else
      let a := ((List.range (o.len / 64)).drop r.done.1).foldl (copyrLine r o) { s := s, lines := r.done.1, poisoned := r.poisoned, halt := none }
      let r := { r with done := (a.lines, r.done.2), poisoned := a.poisoned }
      match a.halt with
      | some h => haltRun h r a.s
      | none =>
        if selfNode s o.dstNode then endsLater (farCopyBase + o.len / 64) (if a.poisoned then stPoisoned else stOk) 0 r a.s
        else putRun { r with pending := true } a.s

def execCopyr (c : Cmd) (s : State) : Out := startCommand 0x08 c (copyrValid c) noOperands (whenReady 0x08 true (copyrWork c)) s

/-! ### WLOAD (R456) -/

/-- The operands of a WLOAD: source, offset, length, stack. -/
def wloadOp (c : Cmd) : Nat × Nat × Nat × Nat := (fld c 16 8, fld c 24 4, fld c 28 4, fld c 32 1)

/-- The banks that it touches. -/
def wloadBanks (c : Cmd) : List Nat :=
  let (_, off, len, _) := wloadOp c
  (List.range ((off + len - 1) / 2 ^ 24 - off / 2 ^ 24 + 1)).map fun i => off / 2 ^ 24 + i

def wloadValid (c : Cmd) (s : State) : Bool :=
  let (_, off, len, stack) := wloadOp c
  let p := getPart s ((partOfCore s c.core).getD 16)
  off % 512 = 0 && off ≤ 0x3FFFFE00 && len % 512 = 0 && 512 ≤ len && len ≤ 2 ^ 30 && stack < 4 && zeroBytes c.bits 33 64
    && off + len ≤ 2 ^ 30 && (wloadBanks c).all fun b => p.islands.getLsbD (4 * stack + b / 16)

/-- Some bank that it touches is held (05 R146). -/
def wloadHeld (c : Cmd) (s : State) : Bool := (wloadBanks c).any fun b => bankHeld s (wloadOp c).2.2.2 b

/-- A line of the source carries world 0 (R456). -/
def baseLine (s : State) (r : RunCmd) (va : Nat) : Bool :=
  (findPte s r.world va).any fun p => (lineAt s (ownPa s (p.pa + (va - p.va))) p.keySlot).side.world = 0

/-- One line into the weight store, under world 0 and its key, with a neutral race field; its bytes may stand in two lines of the source. -/
def wloadLine (c : Cmd) (r : RunCmd) (a : LineRun) (i : Nat) : LineRun :=
  let (src, off, _, stack) := wloadOp c
  match a.halt with
  | some _ => a
  | none =>
    match engRead a.s r .plain (src + 64 * i) 64, (spanLines (src + 64 * i) 64).find? fun x => !baseLine a.s r x.2.1 with
    | .error h, _ => { a with halt := some h }
    | .ok _, some x => { a with halt := some (stopWorld x.2.1) }
    | .ok b, none =>
      let bad := b.any (·.2)
      let s := if bad then notePoisonAll a.s r (src + 64 * i) 64 else a.s
      let to_ := 0x10000000000 + stack * 0x40000000 + off + 64 * i
      { s := putLine s to_ (b.zipIdx.map fun q => (q.2, q.1.1)) 0 neutral bad 0, lines := i + 1, poisoned := a.poisoned || bad, halt := none }

/-- The work of a WLOAD. -/
def wloadWork (c : Cmd) (r : RunCmd) (s : State) : State :=
  let (_, _, len, _) := wloadOp c
  let a := ((List.range (len / 64)).drop r.done.1).foldl (wloadLine c r) { s := s, lines := r.done.1, poisoned := r.poisoned, halt := none }
  let r := { r with done := (a.lines, 0), poisoned := a.poisoned }
  match a.halt with
  | some h => haltRun h r a.s
  | none => endsLater (farCopyBase + len / 64) (if a.poisoned then stPoisoned else stOk) 0 r a.s

/-- WLOAD: while a bank that it touches is held, it waits in its queue. -/
def execWload (c : Cmd) (s : State) : Out :=
  if headerOk c.bits && wloadValid c s && wloadHeld c s then .next (focus s c.core)
  else startCommand 0x16 c (wloadValid c) noOperands (whenReady 0x16 true (wloadWork c)) s

end Sys2Proof.Machine
end

