-- ==== Sys2Proof/Machine/EngineMig.lean ====
section
/-! DEFINITION. The migration engine: moving and replicating tile pages (02_memory_tiers R43, R44, R59 to R68; 16_isa_engines R453). -/

namespace Sys2Proof.Machine

/-- The migration engine's id. -/
def migId : Nat := 0x14

/-! ### HBF blocks (R60, R61) -/

/-- The first physical address of HBF, and the bytes of an erase block. -/
def hbfBase : Nat := 0x40000000000
def hbfBlockBytes : Nat := 4194304

/-- The erase block of an HBF address, by its place in the wear table. -/
def hbfBlock (pa : Nat) : Nat := (pa - hbfBase) / hbfBlockBytes

/-- The tile pages of an erase block. -/
def blockPages (b : Nat) : List Nat := (List.range 64).map fun i => hbfBase + b * hbfBlockBytes + 65536 * i

def wearOf (s : State) (b : Nat) : Word := (assocGet s.wear b).getD 0

/-- What a retired block's counter reads. -/
def retiredWear : Word := 0xFFFFFFFF

def blockRetired (s : State) (pa : Nat) : Bool := wearOf s (hbfBlock pa) = retiredWear

def retireBlock (s : State) (pa : Nat) : State := { s with wear := assocPut s.wear (hbfBlock pa) retiredWear }

/-- An erase: the pages may be programmed again and the counter advances; at 20,000, and where the erase fails, the block is retired (log 88). -/
def eraseBlock (s : State) (pa : Nat) : State :=
  let b := hbfBlock pa
  let n := (wearOf s b).toNat + 1
  if Config.eraseFails b n then retireBlock s pa
  else
    { s with programmed := s.programmed.filter (fun x => hbfBlock x ≠ b),
             wear := assocPut s.wear b (if 20000 ≤ n then retiredWear else BitVec.ofNat 32 n) }

/-! ### Tile pages of the tiers (R41, 04 R485) -/

/-- The tier of a tile page, by the numbers of the quota fields, none for what is not in HBM, HBF or the CXL tier. -/
def pageTier (pa : Nat) : Option Nat :=
  match tierOf pa with
  | .hbm => some 0
  | .hbf => some 1
  | .cxl => some 2
  | _ => none

/-- A page is free: not allocated, and in HBF erased and in a block that is not retired. -/
def pageFree (s : State) (pa : Nat) : Bool :=
  !pageTaken' s pa && (tierOf pa ≠ .hbf || (!s.programmed.contains pa && !blockRetired s pa))
where pageTaken' (s : State) (pa : Nat) : Bool := (assocGet s.pages pa).isSome

/-- The lowest free page among `fuel` pages from `a` on. -/
def lowestPage (s : State) : Nat → Nat → Option Nat
  | 0, _ => none
  | fuel + 1, a => if pageFree s a then some a else lowestPage s fuel (a + 65536)

/-- The lowest free page of a range; at most as many pages as are taken, programmed or retired come before it. -/
def lowestIn (s : State) (lo hi : Nat) : Option Nat :=
  let bound := s.pages.length + s.programmed.length + 64 * s.wear.length + 1
  (lowestPage s bound lo).bind fun a => if a < hi then some a else none

/-- The HBM regions of a partition. -/
def regionBase (n : Nat) : Nat := n * 0x800000000

/-- The address ranges of the CXL tier that hold data (02 R62, R63). -/
def cxlRanges (s : State) : List (Nat × Nat) := s.hdm.map fun d => (d.base, d.base + d.data)

/-- The lowest free page of the CXL tier. -/
def lowestCxl (s : State) : Option Nat := (cxlRanges s).findSome? fun r => lowestIn s r.1 r.2

/-- The lowest free page of a tier for a partition. -/
def choosePage (s : State) (part tier : Nat) : Option Nat :=
  match tier with
  | 0 => (partIslands (getPart s part)).findSome? fun n => lowestIn s (regionBase n) (regionBase (n + 1))
  | 1 => lowestIn s hbfBase 0x80000000000
  | _ => lowestCxl s

/-- A block whose pages are all unallocated and that is not retired. -/
def blockFree (s : State) (b : Nat) : Bool := (blockPages b).all (fun a => (assocGet s.pages a).isNone) && wearOf s b ≠ retiredWear

/-- The first page of the lowest such block. -/
def chooseBlock (s : State) : Option Nat :=
  ((List.range (s.pages.length + s.wear.length + 1)).find? (blockFree s)).map fun b => hbfBase + b * hbfBlockBytes

/-! ### Replicas (R43, R44) -/

/-- No access to a page that was translated before is outstanding: no timed request to it, no line of it that a load has taken and a store has still to
write. -/
def pageIdle (s : State) (page : Nat) : Bool :=
  (coreNos s).all fun c =>
    let k := getCore s c
    k.timed.all (fun t => pageOf t.pa ≠ page) && k.stores.all (fun w => w.lines.all fun l => pageOf l.pa ≠ page)
      && k.loads.all fun u => u.lines.all fun l => pageOf l.1 ≠ page

/-- A page shot down is freed, once the accesses translated before have completed (R44). -/
def freeWhenIdle (s : State) (page : Nat) : State := if pageIdle s page then freePage s page else { s with retiring := s.retiring ++ [page] }

/-- The pages that wait to be freed and that nothing accesses any more. -/
def freeRetired (s : State) : State :=
  let done := s.retiring.filter (pageIdle s)
  done.foldl freePage { s with retiring := s.retiring.filter fun p => !done.contains p }

/-- A replica retired: its translation entries shot down, its registration gone, and then its page freed. -/
def retireReplica (s : State) (page : Nat) : State :=
  let mine := s.ptes.filter fun p => p.pa = page
  let s := mine.foldl (fun s p => unmapPage s p.world p.va) s
  freeWhenIdle { s with replicas := s.replicas.filter (fun r => r.1 ≠ page), prefixes := s.prefixes.filter fun p => p.pa ≠ page } page

/-- The replicas of a home retired. -/
def retireOf (s : State) (home : Nat) : State :=
  (s.replicas.filter fun r => r.2 = some home).foldl (fun s r => retireReplica s r.1) s

/-- A home page given back: its replicas are retired first, and no registration names it any more. -/
def freeHome (s : State) (page : Nat) : State :=
  let s := retireOf s page
  freePage { s with replicas := s.replicas.filter (fun r => r.1 ≠ page), prefixes := s.prefixes.filter fun p => p.pa ≠ page } page

/-! ### The command (R64, R453) -/

/-- The operands of a MIGRATE. -/
structure MigOp where
  va : Nat
  tier : Nat
  replica : Bool
  erase : Bool
  cancel : Bool
  wish : Nat
  at_ : Nat
  deriving DecidableEq, Repr

def migOp (c : Cmd) : MigOp :=
  let f := fld c 25 1
  { va := fld c 16 8, tier := fld c 24 1, replica := f.testBit 0, erase := f.testBit 1, cancel := f.testBit 2, wish := fld c 32 8, at_ := fld c 40 8 }

/-- The page of the command's world that a MIGRATE names: mapped by 64 KiB entries alone, in HBM, HBF or the CXL tier. -/
def migSource (s : State) (w : BitVec 6) (va : Nat) : Option Pte :=
  match findPte s w va with
  | none => none
  | some p =>
    if p.pages = 1 && (pageTier p.pa).isSome && ((assocGet s.pages p.pa).map (·.1)) = some w
        && s.ptes.all fun q => q.pages = 1 || !(q.pa ≤ p.pa && p.pa < q.pa + 65536 * q.pages) then some p
    else none

/-- The page is the source or the destination of a migration in flight. -/
def inFlight (s : State) (pa : Nat) : Bool := s.migrations.any fun m => m.src = pa || m.dst = pa

/-- A page that the command names as its destination: a free page of the tier, in HBM in a region of the partition; with ERASE the first of a whole
free block. -/
def wishOk (s : State) (part : Nat) (o : MigOp) : Bool :=
  o.wish % 65536 = 0 && pageTier o.wish = some o.tier && (o.tier ≠ 0 || (getPart s part).islands.getLsbD (o.wish / 0x800000000))
    && (if o.erase then o.wish % hbfBlockBytes = 0 && blockFree s (hbfBlock o.wish) else pageFree s o.wish)

def migValid (c : Cmd) (s : State) : Bool :=
  let _ := s
  let o := migOp c
  o.va % 65536 = 0 && o.tier < 3 && fld c 25 1 < 8 && zeroBytes c.bits 26 32 && zeroBytes c.bits 48 64
    && (if o.replica then o.at_ % 65536 = 0 && 0x100000 ≤ o.at_ else o.at_ = 0) && (!o.erase || o.tier = 1)

/-- A MIGRATE that can be taken up. -/
def migTakes (s : State) (part : Nat) (w : BitVec 6) (o : MigOp) : Bool :=
  match migSource s w o.va with
  | none => false
  | some p =>
    !inFlight s p.pa && (o.wish = 0 || wishOk s part o)
      && (!o.replica || (!p.write && (findPte s w o.at_).isNone))

/-- MIGRATE waits in the migration engine's queue until it starts (R64, R68). -/
def migWork (c : Cmd) (r : RunCmd) (s : State) : State :=
  let o := migOp c
  if !migTakes s r.task.part r.world o then putRun (endsWith r (cycOf s r.core) stBadcmd 0) s
  else
    let m : Migration :=
      { src := 0, dst := 0, va := o.va, world := r.world, tier := o.tier, wish := o.wish, step := 0, bitmap := 0,
        replica := if o.replica then some o.at_ else none, erase := o.erase, task := r.task, seq := c.seq, next := 0 }
    putRun { r with pending := true } { s with migQueue := s.migQueue ++ [m] }

def execMigrate (c : Cmd) (s : State) : Out := startCommand migId c (migValid c) noOperands (migWork c) s

def execMigrateReplica (c : Cmd) (s : State) : Out := startCommand migId c (migValid c) noOperands (migWork c) s

/-! ### Ends of migrations -/

/-- The command of a migration. -/
def migRun (s : State) (m : Migration) : Option RunCmd := s.running.find? fun r => r.task = m.task && r.eng = migId && r.seq = m.seq

/-- A command that waited for another unit ends in this act. -/
def endNow (r : RunCmd) (status : Nat) (s : State) : State :=
  endRun (endsWith r (cycOf s r.core) status 0) { s with running := s.running.filter fun x => x ≠ r }

/-- The command of a migration ends. -/
def migEnd (m : Migration) (status : Nat) (s : State) : State :=
  match migRun s m with
  | none => s
  | some r => endNow r status s

/-- A migration abandoned: the source stays the home, the destination is freed and its charge released (R67). -/
def abandon (m : Migration) (s : State) : State :=
  let s := { s with migrations := s.migrations.filter (fun x => x ≠ m), migQueue := s.migQueue.filter fun x => x ≠ m }
  migEnd m stAborted (if m.step = 0 then s else freePage s m.dst)

/-- CANCEL. -/
def cancelWork (c : Cmd) (r : RunCmd) (s : State) : State :=
  match (s.migrations ++ s.migQueue).find? fun m => m.world = r.world && m.va = (migOp c).va && m.step < 4 with
  | none => putRun (endsWith r (cycOf s r.core) stNosuch 0) s
  | some m => endsLater 0 stOk 0 r (abandon m s)

def execMigrateCancel (c : Cmd) (s : State) : Out := startCommand migId c (migValid c) noOperands (cancelWork c) s

/-! ### The migration's own steps -/

/-- The migrations that the engine runs at once. -/
def migSlots : Nat := 256

/-- A queued migration can begin: an engine slot is free, and no sweep of its world runs or is asked for (R68). -/
def migReady (s : State) (m : Migration) : Bool := decide (s.migrations.length < migSlots) && (getWorld s m.world.toNat).st = 0

/-- The unloaded pace of the copy, a line in 4 cycles, and a free delay upon it (log 8). -/
def copyPace : Nat := 4

/-- The replicas that the table holds (R43). -/
def replicaTable : Nat := 65536

/-- The replicas registered and those being made. -/
def replicaCount (s : State) : Nat := s.replicas.length + (s.migrations.filter fun m => m.replica.isSome).length

/-- The destination of a migration that starts, none where the allocation fails. -/
def migDest (s : State) (m : Migration) : Option Nat :=
  if m.wish ≠ 0 then some m.wish else if m.erase then chooseBlock s else choosePage s m.task.part m.tier

/-- Steps 1 and 2: the destination charged and taken, the bitmap clear, the page copying. -/
def migBegin (m : Migration) (s : State) : State :=
  let s := { s with migQueue := s.migQueue.filter fun x => x ≠ m }
  let o : MigOp := { va := m.va, tier := m.tier, replica := m.replica.isSome, erase := m.erase, cancel := false, wish := m.wish, at_ := m.replica.getD 0 }
  match migSource s m.world m.va with
  | none => migEnd m stBadcmd s
  | some p =>
    if !migTakes s m.task.part m.world o then migEnd m stBadcmd s
    else if m.replica.isSome && replicaTable ≤ replicaCount s then migEnd m stFull s
    else
      match migDest s m with
      | none => migEnd m stQuota s
      | some dst =>
        if !pagesFit s m.world m.tier 1 then migEnd m stQuota s
        else
          let s := if m.erase then eraseBlock s dst else s
          if m.tier = 1 && blockRetired s dst then migEnd m stBadcmd s
          else
            let s := chargePages (takePage s dst m.world m.tier) m.world m.tier 1
            let s := if m.tier = 1 then { s with programmed := s.programmed ++ [dst] } else s
            { s with migrations := s.migrations ++ [{ m with src := p.pa, dst := dst, step := 3, bitmap := 0, next := s.now + copyPace }] }

/-- The queued migration that begins next: the partitions' queues are served round-robin, each in arrival order (R64, 05 R133). -/
def nextMigration (s : State) : Option Migration :=
  (sortBy (fun a b => turnAfter s migId a.task.part < turnAfter s migId b.task.part) (s.migQueue.filter (migReady s))).head?

/-- MIGRATION_START: the next queued migration that can begin. -/
def execMigrationStart (s : State) : Out :=
  match nextMigration s with
  | none => .next s
  | some m => .next (migBegin m { s with served := assocPut s.served migId m.task.part })

/-- The first line that has not been copied. -/
def nextLine (b : BitVec 1024) : Option Nat := (List.range 1024).find? fun i => !b.getLsbD i

/-- A line copied to a page that it moves to: data and sideband travel, the key follows the new home (R65 step 3). A replica's line carries the
replica bit (R43). -/
def copyLine (s : State) (src dst : Nat) (slot : BitVec 12) (replica : Bool) : State :=
  let l := lineAt s src slot
  if l.unwritten then s
  else
    let d := { l.side with poison := l.poison, replica := l.side.replica || replica, key := keyOf s dst l.side.world slot }
    { s with mem := cellWrite s.mem dst l.bytes, side := assocPut s.side dst d }

/-- MIGRATION_LINE_COPY: the next line of the migration that the event names. -/
def execMigrationLineCopy (s : State) : Out :=
  match s.migrations[s.ev.n]? with
  | none => .next s
  | some m =>
    match nextLine m.bitmap with
    | none => .next s
    | some i =>
      let slot := ((s.ptes.find? fun p => p.pa = m.src).map (·.keySlot)).getD 0
      let from_ := m.src + 64 * i
      let s := if (lineAt s from_ slot).poison then notePoison s from_ (((migRun s m).map (·.core)).getD 0) else s
      let s := copyLine s from_ (m.dst + 64 * i) slot m.replica.isSome
      let (d, s) := drawDelay s
      let m' := { m with bitmap := m.bitmap ||| BitVec.ofNat 1024 (2 ^ i), next := (migrationSlot s m.src).getD (s.now + copyPace + d) }
      .next { s with migrations := s.migrations.map fun x => if x.src = m.src && x.dst = m.dst then m' else x }

/-- The outstanding accesses to the page have drained: timed requests that have not come to their slots miss them (R66). -/
def pageQuiet (s : State) (page : Nat) : Bool :=
  (coreNos s).all fun c =>
    let k := getCore s c
    k.timed.all (fun t => pageOf t.pa ≠ page || t.late || (s.now < t.start && t.sample.isNone))
      && k.stores.all (fun w => w.lines.all fun l => pageOf l.pa ≠ page) && k.loads.all fun u => u.lines.all fun l => pageOf l.1 ≠ page

/-- A timed request that waits for a translation has the new one: it keeps its slots (R54; log 91). -/
def retarget (src : Nat) (q : Pte → Pte) (dst : Nat) (t : Timed) : Timed :=
  if pageOf t.pa = src then { t with pa := dst + t.pa % 65536, page := q t.page } else t

/-- The home moves: every translation of the source names the destination, the cores' copies of it are shot down (step 4), and the source is freed
(step 5). -/
def moveHome (m : Migration) (s : State) : State :=
  let old := s.ptes.filter fun p => p.pa = m.src
  let s := { s with ptes := s.ptes.map (fun p => if p.pa = m.src then { p with pa := m.dst } else p),
                    replicas := s.replicas.map (fun r => (if r.1 = m.src then m.dst else r.1, if r.2 = some m.src then some m.dst else r.2)),
                    prefixes := s.prefixes.map fun (p : Prefix) =>
                      { p with pa := if p.pa = m.src then m.dst else p.pa, clean := if p.clean = some m.src then some m.dst else p.clean } }
  let s := mapCores (fun _ k => { k with timed := k.timed.map (retarget m.src (fun p => { p with pa := p.pa - m.src + m.dst }) m.dst) }) s
  freePage (old.foldl (fun s p => shootdown s p.world p.va) s) m.src

/-- The replica registered and mapped read-only at its address. -/
def placeReplica (m : Migration) (va : Nat) (s : State) : State :=
  let old := s.ptes.find? fun p => p.pa = m.src
  let p : Pte := { world := m.world, va := va, pages := 1, pa := m.dst, write := false, exec := (old.map (·.exec)).getD false,
                   keySlot := (old.map (·.keySlot)).getD 0 }
  { s with replicas := s.replicas ++ [(m.dst, some m.src)], ptes := s.ptes ++ [p] }

/-- MIGRATION_SWITCH: steps 4 and 5 of the migration that the event names. The bitmap being full, the page is marked switching, and new accesses to it
wait; when those to the source have drained, its home moves. -/
def execMigrationSwitch (s : State) : Out :=
  match s.migrations[s.ev.n]? with
  | none => .next s
  | some m =>
    if (nextLine m.bitmap).isSome then .next s
    else if m.step ≠ 4 then .next { s with migrations := s.migrations.map fun x => if x.src = m.src && x.dst = m.dst then { m with step := 4 } else x }
    else if m.replica.isNone && !pageQuiet s m.src then .next s
    else
      let s := { s with migrations := s.migrations.filter fun x => x ≠ m }
      .next (migEnd m stOk (match m.replica with
        | some va => placeReplica m va s
        | none => moveHome m s))

/-- MIGRATION_ABANDON: an uncorrectable write at the destination, before step 4; a program of an HBF block that fails retires the block (R61, R67). -/
def execMigrationAbandon (s : State) : Out :=
  match s.migrations[s.ev.n]? with
  | none => .next s
  | some m =>
    if 4 ≤ m.step then .next s
    else
    let s := if m.tier = 1 then retireBlock s m.dst else s
    .next (abandon m s)

end Sys2Proof.Machine
end

