-- ==== Sys2Proof/Machine/EngineCol.lean ====
section
/-! DEFINITION. The collective engine: COLRED, COLGAT and COLSCAT, and the flits between its members (16_isa_engines R454, R455; 03_links_trust R105;
08 R265). -/

namespace Sys2Proof.Machine

/-- The collective engine's id. -/
def colId : Nat := 0x15

/-! ### Records -/

/-- The operands of a collective command. -/
structure ColOp where
  code : Nat
  slot : Nat
  op : Nat
  fmt : Nat
  tag : BitVec 16
  view : BitVec 32
  src : Nat
  dst : Nat
  n : Nat
  root : Nat
  deriving DecidableEq, Repr

def colOp (r : BitVec 512) : ColOp :=
  { code := recBytes r 0 1, slot := recBytes r 16 1, op := recBytes r 17 1 % 16, fmt := recBytes r 17 1 / 16, tag := BitVec.ofNat 16 (recBytes r 18 2),
    view := BitVec.ofNat 32 (recBytes r 20 4), src := recBytes r 24 8, dst := recBytes r 32 8, n := recBytes r 40 4, root := recBytes r 44 2 }

/-- The command codes. -/
def codeColred : Nat := 0x38
def codeColgat : Nat := 0x39
def codeColscat : Nat := 0x3A

/-- The bytes of n elements. -/
def colBytes (o : ColOp) : Nat := o.n * (tagWidth o.fmt / 8)

/-- The members of a group's view by rank: ascending node identity. -/
def rankNodes (g : Group) : List Nat := sortBy (fun a b => a < b) (g.members.filter fun n => n ≠ noNode)

/-- This package's rank. -/
def ownRank (s : State) (g : Group) : Nat := (rankNodes g).idxOf s.node.toNat

def colValid (c : Cmd) (s : State) : Bool :=
  let o := colOp c.bits
  let g := getGroup s o.slot
  o.slot < 8 && g.valid && o.op ≤ 2 && [tagFp32, tagBf16, tagInt32].contains o.fmt && 1 ≤ o.n && o.n ≤ 2 ^ 28 && zeroBytes c.bits 46 64
    && (if o.code = codeColred then o.root = 0 else o.root < (rankNodes g).length)

/-- What the members compare: every field but the addresses (the slot names the group, which the flits carry; log 13). -/
def colFields (o : ColOp) : Nat := o.code + o.op * 2 ^ 8 + o.fmt * 2 ^ 12 + o.n * 2 ^ 16 + o.root * 2 ^ 48

/-! ### Flits (log 13) -/

/-- The first slot of a COL_DATA flit: 1 announces a command with its fields, 2 carries data from a byte offset on. -/
def colAnnounce (o : ColOp) : Nat × Nat := (1 + colFields o * 2 ^ 8, 0)
def colDataSlot (off : Nat) : Nat × Nat := (2 + off * 2 ^ 8, 0)

/-- The kind of a COL_DATA flit that announces a round of a launch's outermost MEET, by the launch's check value (05 R144). -/
def colMeet : Nat := 3

/-- A line of bytes as a slot. -/
def colLineSlot (w : BitVec 6) (b : List (Byte × Bool)) : Nat × Nat :=
  lineSlot (padTo 64 0 (b.map (·.1))) { Side.neutral w 0 with poison := b.any (·.2) }

def sendCol (s : State) (who : Option Nat) (node : Nat) (w : BitVec 6) (g : Group) (o : ColOp) (slots : List (Nat × Nat)) : State :=
  sendFlit s who node flitColData w g.num.toNat o.view.toNat o.tag slots

/-- Bytes sent to a node, two lines in a flit. -/
def sendColBytes (s : State) (who : Option Nat) (node : Nat) (w : BitVec 6) (g : Group) (o : ColOp) (b : EBytes) : State :=
  (List.range (ceilDiv b.length 128)).foldl (fun s i =>
    let part := (b.drop (128 * i)).take 128
    let lines := colLineSlot w (part.take 64) :: (if 64 < part.length then [colLineSlot w (part.drop 64)] else [])
    sendCol s who node w g o (colDataSlot (128 * i) :: lines)) s

/-- The other members of the group. -/
def others (s : State) (g : Group) : List Nat := (rankNodes g).filter fun n => n ≠ s.node.toNat

/-! ### Reductions (R455) -/

/-- The greater or lesser of two values, −0 below +0, the first where they are equal. -/
def pickBy (max_ : Bool) (x y : XReal) : XReal :=
  if x.isNan || y.isNan then .nan
  else
    match x.cmp y with
    | some 1 => if max_ then x else y
    | some 0 => if x.isZero && x.signBit ≠ y.signBit then (if x.signBit = max_ then y else x) else x
    | _ => if max_ then y else x

/-- One node of the tree, on FP32 values. -/
def nodeFl (op : Nat) (x y : XReal) : XReal := if op = 0 then rn (xsum [x, y]) else pickBy (op = 1) x y

/-- One node of the tree, on INT32 bits. -/
def nodeInt (op x y : Nat) : Nat :=
  if op = 0 then (x + y) % 2 ^ 32 else if (sNat 32 x < sNat 32 y) = (op = 1) then y else x

/-- One level of the canonical tree: an operand whose partner is absent passes unchanged (08 R265). -/
def treeLevel {α : Type} (f : α → α → α) : List α → List α
  | x :: y :: rest => f x y :: treeLevel f rest
  | l => l

/-- The canonical tree of a list, with `fuel` levels. -/
def treeOf {α : Type} (f : α → α → α) : Nat → List α → List α
  | 0, l => l
  | fuel + 1, l => if l.length ≤ 1 then l else treeOf f fuel (treeLevel f l)

/-- One element of a reduction from the bits of the ranks' elements. -/
def reduceElem (op fmt : Nat) (bits : List Nat) : Nat :=
  if fmt = tagInt32 then ((treeOf (nodeInt op) 32 bits).head?).getD 0
  else
    let x := ((treeOf (nodeFl op) 32 (bits.map (decodeTag fmt))).head?).getD XReal.zero
    if fmt = tagFp32 then toFp32 x else encodeFl .bf16 (roundFl .bf16 .rne 0 x).1

/-- The reduction of the members' sources, element by element; an element that reads poison is poisoned. -/
def reduceAll (o : ColOp) (l : List EBytes) : EBytes :=
  let w := tagWidth o.fmt / 8
  (List.range o.n).flatMap fun i =>
    let parts := l.map fun b => (b.drop (w * i)).take w
    let bad := parts.any fun p => p.any (·.2)
    (leBytes w (reduceElem o.op o.fmt (parts.map fun p => leNat (p.map (·.1))))).map fun b => (b, bad)

/-! ### A collective's progress -/

/-- The collective of a group, view and tag. -/
def findColl (s : State) (group : Nat) (view : BitVec 32) (tag : BitVec 16) : Option Coll :=
  s.colls.find? fun c => c.group = group && c.view = view && c.tag = tag

def sameColl (a b : Coll) : Bool := a.group = b.group && a.view = b.view && a.tag = b.tag

def putColl (c : Coll) (s : State) : State := { s with colls := s.colls.filter (fun x => !sameColl x c) ++ [c] }

def dropColl (c : Coll) (s : State) : State := { s with colls := s.colls.filter fun x => !sameColl x c }

/-- Bytes from a rank. -/
def fromRank (c : Coll) (k : Nat) : EBytes := (assocGet c.from_ k).getD []

/-- The command of a collective. -/
def collRun (s : State) (c : Coll) : Option RunCmd :=
  c.ours.bind fun x => s.running.find? fun r => r.task = x.1 && r.eng = colId && r.seq = x.2

/-- Every other member's command has been accepted. -/
def allHeard (s : State) (g : Group) (c : Coll) : Bool :=
  (List.range (rankNodes g).length).all fun k => k = ownRank s g || (assocGet c.heard k).isSome

/-- The bytes that this member reads from its own source: none but the root's in a scatter. -/
def sourceBytes (s : State) (g : Group) (o : ColOp) : Nat :=
  if o.code = codeColscat then (if ownRank s g = o.root then (rankNodes g).length * colBytes o else 0) else colBytes o

/-- A member's contributions sent, and its own kept. -/
def contribute (g : Group) (o : ColOp) (r : RunCmd) (c : Coll) (b : EBytes) (s : State) : State :=
  let me := ownRank s g
  let n := colBytes o
  if o.code = codeColscat then
    if me ≠ o.root then s
    else
      let s := (rankNodes g).zipIdx.foldl (fun s x => if x.2 = me then s else sendColBytes s (some r.task.part) x.1 r.world g o ((b.drop (n * x.2)).take n)) s
      putColl { c with from_ := assocPut c.from_ me ((b.drop (n * me)).take n) } s
  else if o.code = codeColgat && me ≠ o.root then
    match (rankNodes g)[o.root]? with
    | none => s
    | some node => sendColBytes s (some r.task.part) node r.world g o b
  else
    let s := if o.code = codeColred then (others s g).foldl (fun s node => sendColBytes s (some r.task.part) node r.world g o b) s else s
    putColl { c with from_ := assocPut c.from_ me b } s

/-- What this member writes, once everything has come; none while something is missing. -/
def colOutput (s : State) (g : Group) (o : ColOp) (c : Coll) : Option EBytes :=
  let ranks := List.range (rankNodes g).length
  let n := colBytes o
  let full (k : Nat) : Bool := n ≤ (fromRank c k).length
  if o.code = codeColscat then (if full o.root then some ((fromRank c o.root).take n) else none)
  else if o.code = codeColgat && ownRank s g ≠ o.root then some []
  else if !ranks.all full then none
  else if o.code = codeColgat then some (ranks.flatMap fun k => (fromRank c k).take n)
  else some (reduceAll o (ranks.map fun k => (fromRank c k).take n))

/-- The command has started and everything may have come: its destination is written with a neutral race field, and it ends. -/
def colFinish (g : Group) (o : ColOp) (r : RunCmd) (c : Coll) (s : State) : State :=
  match colOutput s g o c with
  | none => putRun r s
  | some out =>
    let w := engWrite s r .plain neutral o.dst out r.done.1
    match w.halt with
    | some (.stop st t) => haltRun (.stop st t) r (dropColl c w.s)
    | some h => haltRun h { r with done := (w.lines, 0) } w.s
    | none => endsLater 0 (if out.any (·.2) then stPoisoned else stOk) 0 r (dropColl c w.s)

/-- A collective goes on as far as it can: it matches when every member's command has been accepted, and starts then (R454). -/
def colGoOn (c : Coll) (s : State) : State :=
  match collRun s c with
  | none => s
  | some r =>
    let o := colOp r.bits
    let g := getGroup s o.slot
    if r.parked.isSome || r.wait ≠ .none || !allHeard s g c then s
    else if c.heard.any fun x => x.2 ≠ colFields o then putRun (endsWith r (cycOf s r.core) stBadcmd 0) (dropColl c s)
    else if r.waiting then
      match engRead s r .plain o.src (sourceBytes s g o) with
      | .error (.stop st t) => haltRun (.stop st t) r (dropColl c s)
      | .error h => haltRun h r s
      | .ok b =>
        let r := { r with waiting := false, pending := true }
        let s := if b.any (·.2) then notePoisonAll s r o.src b.length else s
        let s := contribute g o r c b (putRun r (irrevocableFor s r.task))
        colFinish g o r ((findColl s c.group c.view c.tag).getD c) s
    else colFinish g o r c s

/-- A collective command accepted: one that names an old view ends at once; otherwise the other members hear of it (R105, R454). -/
def colWork (c : Cmd) (r : RunCmd) (s : State) : State :=
  let o := colOp c.bits
  let g := getGroup s o.slot
  if g.view ≠ o.view then putRun (endsWith r (cycOf s r.core) stViewChanged 0) s
  else
    let x := (findColl s g.num.toNat o.view o.tag).getD { group := g.num.toNat, view := o.view, tag := o.tag, ours := none, heard := [], from_ := [] }
    if x.ours.isSome then putRun (endsWith r (cycOf s r.core) stBadcmd 0) s
    else
      let x := { x with ours := some (r.task, c.seq) }
      let s := (others s g).foldl (fun s node => sendCol s (some r.task.part) node r.world g o [colAnnounce o]) s
      colGoOn x (putColl x (putRun { r with waiting := true } s))

def execColred (c : Cmd) (s : State) : Out := startCommand colId c (colValid c) noOperands (whenReady colId true (colWork c)) s
def execColgat (c : Cmd) (s : State) : Out := startCommand colId c (colValid c) noOperands (whenReady colId true (colWork c)) s
def execColscat (c : Cmd) (s : State) : Out := startCommand colId c (colValid c) noOperands (whenReady colId true (colWork c)) s

/-- A parked collective goes on. -/
def colResume (r : RunCmd) (s : State) : State :=
  let o := colOp r.bits
  match findColl s (getGroup s o.slot).num.toNat o.view o.tag with
  | none => putRun (endsWith r (cycOf s r.core) stViewChanged 0) s
  | some c => colGoOn c s

/-! ### Flits received -/

/-- The slot of a group number. -/
def groupSlot (s : State) (num : Nat) : Option Nat := (List.range 8).find? fun i => (getGroup s i).valid && (getGroup s i).num.toNat = num

/-- The bytes of the line slots of a flit, from slot 1 on. -/
def flitBytes (f : Flit) : EBytes :=
  (List.range (flitSlots f - 1)).flatMap fun i => (leBytes 64 (flitLine f (i + 1)).toNat).map fun b => (b, (flitSide f (i + 1)).getLsbD 38)

/-- What a COL_DATA flit tells of a collective. -/
def hearCol (f : Flit) (rank : Nat) (c : Coll) : Coll :=
  let x := (flitLine f 0).toNat
  if x % 256 = 1 then { c with heard := assocPut c.heard rank (x / 256) }
  else { c with from_ := assocPut c.from_ rank (fromRank c rank ++ flitBytes f) }

/-- A member has announced a round of a launch's outermost MEET. -/
def hearMeet (key rank : Nat) (s : State) : State :=
  let n := ((s.meetHeard.find? fun x => x.1 = key && x.2.1 = rank).map (·.2.2)).getD 0
  { s with meetHeard := s.meetHeard.filter (fun x => !(x.1 = key && x.2.1 = rank)) ++ [(key, rank, n + 1)] }

/-- COL_DATA of the current view. -/
def receiveCol (f : Flit) (s : State) : State :=
  match groupSlot s (flitGroup f) with
  | none => s
  | some i =>
    let g := getGroup s i
    if g.view.toNat ≠ flitView f then s
    else if (flitLine f 0).toNat % 256 = colMeet then hearMeet ((flitLine f 0).toNat / 256 % 2 ^ 32) ((rankNodes g).idxOf (flitSrc f)) s
    else
      let view : BitVec 32 := BitVec.ofNat 32 (flitView f)
      let c := (findColl s (flitGroup f) view (flitTag f)).getD { group := flitGroup f, view := view, tag := flitTag f, ours := none, heard := [], from_ := [] }
      let c := hearCol f ((rankNodes g).idxOf (flitSrc f)) c
      colGoOn c (putColl c s)

/-- A new view ends every collective command of the group's old one (R105). -/
def endColls (s : State) (slot : Nat) : State :=
  let num := (getGroup s slot).num.toNat
  let rs := s.running.filter fun r => r.eng = colId && (colOp r.bits).slot = slot && (r.waiting || r.pending || r.parked.isSome)
  let s := rs.foldl (fun s r => endNow r stViewChanged s) s
  { s with colls := s.colls.filter fun c => c.group ≠ num }

end Sys2Proof.Machine
end

