-- ==== Sys2Proof/Machine/EngineAdapter.lean ====
section
/-! DEFINITION. The adapter engine: admission pins and the publication of adapter versions (07_serving_structures R197 to R209; 16_isa_engines R450,
R451). -/

namespace Sys2Proof.Machine

/-- The adapter engine's id. -/
def adeId : Nat := 0x12

/-! ### Keys and free pages -/

/-- A key made by the seal unit, named by a number that no key before it has (log 9). -/
def drawKey (s : State) : Nat × State := (s.fresh + 2, { s with fresh := s.fresh + 1 })

/-- The lowest free handle-key slot (03 R94). -/
def freeKeySlot (s : State) : Option Nat := (List.range 4095).map (· + 1) |>.find? fun i => s.keySlots.all fun k => k.1.toNat ≠ i

/-- The tile page at an address is allocated. -/
def pageTaken (s : State) (base : Nat) : Bool := (assocGet s.pages base).isSome

/-- The lowest run of `n` free tile pages among `fuel` pages from `a` on. -/
def freeRun (s : State) (n : Nat) : Nat → Nat → Option Nat
  | 0, _ => none
  | fuel + 1, a =>
    match ((List.range n).filter fun i => pageTaken s (a + 65536 * i)).getLast? with
    | none => some a
    | some i => freeRun s n fuel (a + 65536 * (i + 1))

/-- The lowest run of `n` free HBM tile pages. -/
def freeHbmRun (s : State) (n : Nat) : Option Nat :=
  (freeRun s n (s.pages.length + 1) 0).bind fun a => if a + 65536 * n ≤ 0x8000000000 then some a else none

/-! ### Records -/

/-- The handle of ADPIN and ADUNPIN, and of ADPUB. -/
def pinHandle (c : Cmd) : BitVec 24 := BitVec.ofNat 24 (fld c 16 3)
def pubHandle (c : Cmd) : BitVec 24 := BitVec.ofNat 24 (fld c 17 3)

/-- The partition of a command. -/
def cmdPart (r : RunCmd) : Nat := r.task.part

/-- The end of a command of an engine whose timing the spec leaves open (log 8). -/
def adeEnd (status result : Nat) (r : RunCmd) (s : State) : State := endsLater 0 status result r s

/-- The end of an act that either fails with a status or changes the state, with a result. -/
def adeDo (r : RunCmd) (s : State) (x : Except Nat (State × Nat)) : State :=
  match x with
  | .error st => adeEnd st 0 r s
  | .ok (t, result) => adeEnd stOk result r t

/-! ### ADPIN and ADUNPIN (R203, R204, R450) -/

/-- The keys locked in a cluster (03 R98). -/
def clusterHolds (s : State) (cl : Nat) (slot : BitVec 12) : Bool := (getCluster s cl).keys.contains slot

/-- The most keys that a cluster's cache locks. -/
def lockedKeys : Nat := 48

/-- A key locked into a cluster, none where it holds 48 others. -/
def lockKey (s : State) (cl : Nat) (slot : BitVec 12) : Option State :=
  let u := getCluster s cl
  if u.keys.contains slot then some s
  else if lockedKeys ≤ u.keys.length then none
  else some (putCluster s { u with keys := u.keys ++ [slot] })

/-- A key locked into each cluster of a list. -/
def lockKeys : List Nat → State → BitVec 12 → Option State
  | [], s, _ => some s
  | cl :: cls, s, slot => (lockKey s cl slot).bind fun s => lockKeys cls s slot

/-- The clusters that an ADPIN names. -/
def pinClusters (c : Cmd) : List Nat := (List.range 64).filter fun i => (fld c 24 8).testBit i

def adpinValid (c : Cmd) (s : State) : Bool :=
  zeroBytes c.bits 19 24 && zeroBytes c.bits 32 64
    && (pinClusters c).all fun i => (partClusters (getPart s ((partOfCore s c.core).getD 16))).contains i

/-- An entry of the partition's AHT cache locked, none where it holds 65,536 others. -/
def lockEntry (s : State) (p : Nat) (h : BitVec 24) : Option State :=
  let l := (getPart s p).ahtLocked
  if l.contains h then some s else if 65536 ≤ l.length then none else some (modPart s p fun x => { x with ahtLocked := x.ahtLocked ++ [h] })

/-- The admission pin itself, with everything that it locks. -/
def admitVersion (c : Cmd) (r : RunCmd) (a : Aht) (v : Version) (s : State) : Except Nat (State × Nat) :=
  let p := cmdPart r
  if 0xFFFF0000 < heldAll v + 1 then .error stFull
  else
    match (lockEntry s p a.handle).bind fun s => lockKeys (pinClusters c) s v.keySlot with
    | none => .error stFull
    | some s =>
      match makeResident s p a v with
      | .error e => .error e
      | .ok s =>
        let s := modVersion s a.handle v.num fun x => { x with pins := assocPut x.pins p (countIn x.pins p + 1) }
        let s := modPart s p fun x => { x with idle := x.idle.filter fun y => y ≠ (a.handle, v.num) }
        .ok (modCkpt s r.task fun k => { k with pins := k.pins ++ [(p, a.handle, v.num)] }, v.num.toNat)

def adpinWork (c : Cmd) (r : RunCmd) (s : State) : State :=
  match (liveAht s (pinHandle c)).bind fun a => (currentVersion a (cmdPart r)).map fun v => (a, v) with
  | none => adeEnd stNosuch 0 r s
  | some (a, v) => if mayUse a r.world then adeDo r s (admitVersion c r a v s) else adeEnd stBadcmd 0 r s

def execAdpin (c : Cmd) (s : State) : Out := startCommand adeId c (adpinValid c) noOperands (whenReady adeId false (adpinWork c)) s

/-- The partition holds an admission pin on some version of a handle. -/
def pinsHandle (s : State) (p : Nat) (h : BitVec 24) : Bool :=
  match findAht s h with
  | none => false
  | some a => a.vers.toList.any fun v => decide (0 < countIn v.pins p)

/-- The handle's entry and its keys unlocked in a partition (R204). -/
def unlockHandle (s : State) (p : Nat) (h : BitVec 24) : State :=
  let slots := ((findAht s h).map fun a => a.vers.toList.map (·.keySlot)).getD []
  let mine := partClusters (getPart s p)
  let s := { s with clusters := s.clusters.map fun (u : Cluster) =>
    if mine.contains u.num then { u with keys := u.keys.filter fun k => !slots.contains k } else u }
  modPart s p fun x => { x with ahtLocked := x.ahtLocked.filter fun y => y ≠ h }

/-- One admission pin of a partition fewer (R203, R204). -/
def releasePin (s : State) (p : Nat) (h : BitVec 24) (n : BitVec 32) : State :=
  let s := modVersion s h n fun v => { v with pins := assocPut v.pins p (countIn v.pins p - 1) }
  let s := if pinsHandle s p h then s else unlockHandle s p h
  freeDrained (noteIdle s p (h, n)) h n

/-- The partition holds an admission pin on a version. -/
def pinHeld (s : State) (p : Nat) (h : BitVec 24) (n : BitVec 32) : Bool :=
  match (findAht s h).bind fun a => findVersion a n with
  | none => false
  | some v => 0 < countIn v.pins p

def adunpinValid (c : Cmd) (s : State) : Bool :=
  let _ := s
  zeroBytes c.bits 19 20 && zeroBytes c.bits 24 64

/-- What an ADUNPIN does when it takes effect. -/
def adunpinEffect (c : Cmd) (p : Nat) (s : State) : State := releasePin s p (pinHandle c) (BitVec.ofNat 32 (fld c 20 4))

/-- ADUNPIN: in a checkpoint interval it takes effect at the next checkpoint (10 R314). -/
def adunpinWork (c : Cmd) (r : RunCmd) (s : State) : State :=
  if (ckptOf s r.task).isSome then adeEnd stOk 0 r (modCkpt s r.task fun k => { k with later := k.later ++ [c] })
  else if pinHeld s (cmdPart r) (pinHandle c) (BitVec.ofNat 32 (fld c 20 4)) then adeEnd stOk 0 r (adunpinEffect c (cmdPart r) s)
  else adeEnd stBadcmd 0 r s

def execAdunpin (c : Cmd) (s : State) : Out := startCommand adeId c (adunpinValid c) noOperands (whenReady adeId false (adunpinWork c)) s

/-! ### ADPUB (R201, R451) -/

/-- A selector word with the selector of a partition replaced. -/
def setSelector (x : BitVec 32) (p v : Nat) : BitVec 32 :=
  BitVec.ofNat 32 (x.toNat - recBits x (2 * p) 2 * 4 ^ p + v * 4 ^ p)

/-- Every selector shows 3. -/
def noSelectors : BitVec 32 := BitVec.allOnes 32

/-- The publisher world of a record, where it is valid. -/
def publisherOf (c : Cmd) : Option (BitVec 6) := if fld c 21 1 / 128 = 1 then some (BitVec.ofNat 6 (fld c 21 1)) else none

/-- The world may change the handle as its owner, or as owner or publisher. -/
def ownsHandle (a : Aht) (r : RunCmd) : Bool := a.owner = r.world
def publishes (a : Aht) (r : RunCmd) : Bool := a.owner = r.world || a.publisher = some r.world

/-- A mode that needs a live handle and a permitted world: the check of liveness comes first. -/
def onLive (c : Cmd) (may : Aht → RunCmd → Bool) (f : Aht → RunCmd → State → State) (r : RunCmd) (s : State) : State :=
  match liveAht s (pubHandle c) with
  | none => adeEnd stNosuch 0 r s
  | some a => if may a r then f a r s else adeEnd stBadcmd 0 r s

def createValid (c : Cmd) (s : State) : Bool :=
  let _ := s
  fld c 20 1 < 4 && (fld c 21 1 / 64 % 2 = 0) && zeroBytes c.bits 22 24 && zeroBytes c.bits 36 64

/-- CREATE: every selector of a new entry names an empty record, and is stored as 3 (R451). -/
def createWork (c : Cmd) (r : RunCmd) (s : State) : State :=
  let h := pubHandle c
  if h.toNat % 2 ^ 20 = 0 || s.aht.any (fun a => a.handle.toNat % 2 ^ 20 = h.toNat % 2 ^ 20) then adeEnd stBadcmd 0 r s
  else
    let a : Aht :=
      { handle := h, owner := r.world, deleting := false, rank := BitVec.ofNat 2 (fld c 20 1), publisher := publisherOf c,
        grants := BitVec.ofNat 64 (fld c 24 8), selectors := noSelectors, next := 1, vers := Vector.replicate 3 Version.empty }
    adeEnd stOk 0 r { s with aht := sortBy (fun x y => x.handle.toNat % 2 ^ 20 < y.handle.toNat % 2 ^ 20) (s.aht ++ [a]) }

def execAdpubCreate (c : Cmd) (s : State) : Out := startCommand adeId c (createValid c) noOperands (whenReady adeId false (createWork c)) s

/-- The selector of a partition after a GRANT: one that shows 3 takes the given value, but for a record that is empty or prepared. -/
def grantSelector (a : Aht) (given : Nat) (x : BitVec 32) (p : Nat) : BitVec 32 :=
  let v := given / 4 ^ p % 4
  if recBits x (2 * p) 2 ≠ 3 then x
  else
    match a.vers.toList[v]? with
    | some u => if u.st = 2 || u.st = 3 then setSelector x p v else x
    | none => x

/-- Some partition selects record `i`. -/
def selected (x : BitVec 32) (i : Nat) : Bool := (List.range 16).any fun p => recBits x (2 * p) 2 = i

/-- A draining record that is selected again becomes current. -/
def revive (a : Aht) : Aht :=
  { a with vers := Vector.ofFn fun i => let v := a.vers[i]; if v.st = 3 && selected a.selectors i.val then { v with st := 2 } else v }

/-- GRANT. -/
def grantAct (c : Cmd) (a : Aht) (r : RunCmd) (s : State) : State :=
  let sel := (List.range 16).foldl (grantSelector a (fld c 32 4)) a.selectors
  adeEnd stOk 0 r (modAht s a.handle fun b => revive { b with grants := BitVec.ofNat 64 (fld c 24 8), publisher := publisherOf c, selectors := sel })

def grantValid (c : Cmd) (s : State) : Bool :=
  let _ := s
  zeroBytes c.bits 20 21 && (fld c 21 1 / 64 % 2 = 0) && zeroBytes c.bits 22 24 && zeroBytes c.bits 36 64

def execAdpubGrant (c : Cmd) (s : State) : Out := startCommand adeId c (grantValid c) noOperands (whenReady adeId false (onLive c ownsHandle (grantAct c))) s

/-- PREPARE: the lowest empty record, the next version number, and a fresh key. -/
def prepareAct (a : Aht) (r : RunCmd) (s : State) : State :=
  match a.vers.toList.findIdx? (fun v => v.st = 0), freeKeySlot s with
  | some i, some slot =>
    if a.next = 0xFFFFFFFF then adeEnd stFull 0 r s
    else
      let (key, s) := drawKey s
      let k : BitVec 12 := BitVec.ofNat 12 slot
      let v : Version := { Version.empty with num := a.next, keySlot := k, st := 1 }
      let s := modAht s a.handle fun b => { b with next := b.next + 1, vers := b.vers.setIfInBounds i v }
      adeEnd stOk (a.next.toNat + slot * 2 ^ 32) r { s with keySlots := s.keySlots ++ [(k, key, a.handle)] }
  | _, _ => adeEnd stFull 0 r s

/-- No operands after the handle. -/
def bareValid (c : Cmd) (s : State) : Bool :=
  let _ := s
  zeroBytes c.bits 20 64

def execAdpubPrepare (c : Cmd) (s : State) : Out := startCommand adeId c (bareValid c) noOperands (whenReady adeId false (onLive c publishes prepareAct)) s

/-- A deleting entry whose records are all empty is free (R209). -/
def dropDeleted (s : State) (h : BitVec 24) : State :=
  { s with aht := s.aht.filter fun b => !(b.handle = h && b.deleting && b.vers.toList.all fun x => x.st = 0) }

/-- A handle deleted: every record drains (R209). -/
def deleteEntry (a : Aht) (s : State) : State :=
  let s := modAht s a.handle fun b =>
    { b with deleting := true, selectors := noSelectors, vers := b.vers.map fun v => if v.st = 0 then v else { v with st := 3 } }
  let s := (a.vers.toList.filter fun v => v.st ≠ 0).foldl (fun s v => freeDrained s a.handle v.num) s
  dropDeleted s a.handle

/-- DELETE. -/
def deleteAct (a : Aht) (r : RunCmd) (s : State) : State := adeEnd stOk 0 r (deleteEntry a s)

def execAdpubDelete (c : Cmd) (s : State) : Out := startCommand adeId c (bareValid c) noOperands (whenReady adeId false (onLive c ownsHandle deleteAct)) s

/-! ### COMMIT (R207) -/

/-- The target partitions of a COMMIT. -/
def commitTargets (c : Cmd) : List Nat := (List.range 16).filter fun p => (fld c 40 2).testBit p

/-- A failed translation of the publication is BADCMD. -/
def commitHalt (h : Halt) : Halt :=
  match h with
  | .park _ => stopWith stBadcmd
  | h => h

/-- Bytes of the publisher's space. -/
def commitRead (s : State) (r : RunCmd) (va n : Nat) : Except Halt (List Byte) :=
  match engRead s r .plain va n with
  | .error h => .error (commitHalt h)
  | .ok b => if b.any (·.2) then .error (stopWith stPoisoned) else .ok (b.map (·.1))

/-- The world is bound in a partition: world 0 in every one that exists (03 R93). -/
def boundIn (s : State) (w : BitVec 6) (p : Nat) : Bool := (getPart s p).present && (w = 0 || (getWorld s w.toNat).parts.getLsbD p)

/-- A factor page of the publisher: a tile page of its space in HBM or the CXL tier, mapped by an entry of its own. -/
def factorPage (s : State) (r : RunCmd) (va : Nat) : Except Halt Nat :=
  match findPte s r.world va with
  | none => .error (stopWith stBadcmd)
  | some p =>
    if va % 65536 = 0 && p.pages = 1 && (tierOf p.pa = .hbm || tierOf p.pa = .cxl) && assocGet s.pages p.pa = some (r.world, if tierOf p.pa = .cxl then 2 else 0)
    then .ok p.pa else .error (stopWith stBadcmd)

/-- The first failure of a list of answers, or all of them. -/
def allOk {α β : Type} (f : α → Except Halt β) : List α → Except Halt (List β)
  | [] => .ok []
  | x :: xs =>
    match f x with
    | .error h => .error h
    | .ok y => (allOk f xs).map fun l => y :: l

/-- The page list of one factor: the virtual addresses in the list, and the pages that they name. -/
def factorList (s : State) (r : RunCmd) (list bytes : Nat) : Except Halt (List (Nat × Nat)) := do
  let n := ceilDiv bytes 65536
  let b ← commitRead s r list (8 * n)
  allOk (fun i => let va := leNat ((b.drop (8 * i)).take 8); (factorPage s r va).map fun pa => (va, pa)) (List.range n)

/-- One entry of a directory as published: K, N, and the pages of A and of B. -/
structure Factors where
  k : Nat
  n : Nat
  a : List (Nat × Nat)
  b : List (Nat × Nat)
  deriving DecidableEq, Repr

/-- An entry of the publisher's directory, in the layout of R200 with virtual addresses in place of physical ones. -/
def readFactors (s : State) (r : RunCmd) (dir rank i : Nat) : Except Halt Factors := do
  let e ← commitRead s r (dir + 32 * i) 32
  let f (o n : Nat) := leNat ((e.drop o).take n)
  let a ← factorList s r (f 0 8) (2 * f 16 4 * rank)
  let b ← factorList s r (f 8 8) (2 * rank * f 20 4)
  .ok { k := f 16 4, n := f 20 4, a := a, b := b }

/-- The resolved directory and its page lists as bytes, for a directory of `entries` at physical address `base`. -/
def resolvedBytes (base : Nat) (entries : List Factors) : List Byte :=
  let head := 32 * entries.length
  let lists := entries.flatMap fun e => (e.a ++ e.b).flatMap fun p => leBytes 8 p.2
  let rows := entries.foldl (fun (x : List Byte × Nat) e =>
    let a := base + head + 8 * x.2
    let b := a + 8 * e.a.length
    (x.1 ++ leBytes 8 a ++ leBytes 8 b ++ leBytes 4 e.k ++ leBytes 4 e.n ++ leBytes 8 0, x.2 + e.a.length + e.b.length)) ([], 0)
  rows.1 ++ lists

/-- Bytes written into world 0 memory by the device. -/
def worldZeroWrite (s : State) (pa : Nat) (bs : List Byte) : State :=
  (spanLines pa bs.length).foldl (fun s x =>
    putLine s x.1 (((bs.drop (x.2.1 - pa)).take (x.2.2 - x.2.1)).zipIdx.map fun q => (x.2.1 - x.1 + q.2, q.1)) 0 neutral false 0) s

/-- A tile page's lines come under the key of a slot (R200). -/
def rekeyPage (s : State) (base : Nat) (slot : BitVec 12) : State :=
  { s with side := s.side.map fun x => if x.1 / 65536 = base / 65536 then (x.1, { x.2 with key := keyOf s x.1 x.2.world slot }) else x }

/-- A factor page leaves its publisher and is charged to the owning world. -/
def adoptPage (owner : BitVec 6) (slot : BitVec 12) (w : BitVec 6) (s : State) (x : Nat × Nat) : State :=
  let tier := if tierOf x.2 = .cxl then 2 else 0
  let s := rekeyPage (unmapPage s w x.1) x.2 slot
  chargePages (releasePages { s with pages := assocPut s.pages x.2 (owner, tier) } w tier 1) owner tier 1

/-- Step 2: the pages change hands and the resolved directory is written; QUOTA where a charge does not fit, FULL where no memory is left for the
directory. -/
def commitResolve (r : RunCmd) (a : Aht) (v : Version) (c : Cmd) (es : List Factors) (s : State) : Except Nat State :=
  let pages := (es.flatMap fun e => e.a ++ e.b).eraseDups
  let cxl := (pages.filter fun x => tierOf x.2 = .cxl).length
  let bytes := 32 * es.length + 8 * (es.flatMap fun e => e.a ++ e.b).length
  let n := ceilDiv bytes 65536
  let s1 := releasePages (releasePages s r.world 0 (pages.length - cxl)) r.world 2 cxl
  if !(pagesFit s1 a.owner 0 (pages.length - cxl) && pagesFit s1 a.owner 2 cxl && pagesFit s 0 0 n) then .error stQuota
  else
    match freeHbmRun s n with
    | none => .error stFull
    | some base =>
      let s := pages.foldl (adoptPage a.owner v.keySlot r.world) s
      let s := (List.range n).foldl (fun s i => chargePages (takePage s (base + 65536 * i) 0 0) 0 0 1) s
      let s := worldZeroWrite s base (resolvedBytes base es)
      .ok (modVersion s a.handle v.num fun x =>
        { x with alpha := BitVec.ofNat 32 (fld c 24 4), dir := base, layers := fld c 28 2, projs := fld c 30 1 })

/-- Step 3 for one partition: the version resident, its key where the former version's key is locked. -/
def commitPlace (h : BitVec 24) (n : BitVec 32) (old : Aht) (s : Except Nat State) (p : Nat) : Except Nat State :=
  match s with
  | .error e => .error e
  | .ok s =>
    match (findAht s h).bind fun a => (findVersion a n).map fun v => (a, v) with
    | none => .ok s
    | some (a, v) =>
      match makeResident s p a v with
      | .error e => .error e
      | .ok s =>
        let cls := match currentVersion old p with
          | none => []
          | some u => (partClusters (getPart s p)).filter fun cl => clusterHolds s cl u.keySlot
        match lockKeys cls s v.keySlot with
        | none => .error stFull
        | some s => .ok (noteIdle s p (h, n))

/-- Step 4: the selectors of every target partition, and the records that no partition then selects (R207, R208). -/
def commitSwap (targets : List Nat) (h : BitVec 24) (n : BitVec 32) (s : State) : State :=
  let s := modAht s h fun a =>
    let i := (a.vers.toList.findIdx? fun v => v.num = n && v.st ≠ 0).getD 0
    let sel := targets.foldl (fun x p => setSelector x p i) a.selectors
    { a with selectors := sel, vers := Vector.ofFn fun j =>
        let v := a.vers[j]
        let st := if j.val = i then 2 else v.st
        { v with st := if st = 2 && !selected sel j.val then 3 else st } }
  let olds := ((findAht s h).map fun a => a.vers.toList.filter fun v => v.st = 3).getD []
  olds.foldl (fun s v => freeDrained s h v.num) s

def commitValid (c : Cmd) (s : State) : Bool :=
  let _ := s
  1 ≤ fld c 28 2 && fld c 28 2 ≤ 4096 && 1 ≤ fld c 30 1 && fld c 30 1 ≤ 16 && zeroBytes c.bits 31 32 && zeroBytes c.bits 42 64

/-- The five steps of COMMIT; a failure before step 4 undoes every earlier step. -/
def commitAct (c : Cmd) (a : Aht) (r : RunCmd) (s : State) : State :=
  let n : BitVec 32 := BitVec.ofNat 32 (fld c 20 4)
  match a.vers.toList.find? fun v => v.num = n && v.st = 1 with
  | none => adeEnd stNosuch 0 r s
  | some v =>
    if !(commitTargets c).all (boundIn s a.owner) then adeEnd stBadcmd 0 r s
    else
      match allOk (readFactors s r (fld c 32 8) (rankOf a)) (List.range (fld c 28 2 * fld c 30 1)) with
      | .error (.park _) => adeEnd stBadcmd 0 r s
      | .error h => haltRun h r s
      | .ok es =>
        match (commitTargets c).foldl (commitPlace a.handle n a) (commitResolve r a v c es s) with
        | .error e => adeEnd e 0 r s
        | .ok t => adeEnd stOk n.toNat r (commitSwap (commitTargets c) a.handle n t)

def execAdpubCommit (c : Cmd) (s : State) : Out := startCommand adeId c (commitValid c) noOperands (whenReady adeId true (onLive c publishes (commitAct c))) s

end Sys2Proof.Machine
end

