-- ==== Sys2Proof/Machine/EngineKv.lean ====
section
/-! DEFINITION. The KV allocator: pools, sequences and their extents (07_serving_structures R215 to R218; 16_isa_engines R452; 04 R132). -/

namespace Sys2Proof.Machine

/-- The KV allocator's id. -/
def kvaId : Nat := 0x13

/-! ### Pools (R217) -/

/-- The bytes of a block of order `o`, and its tokens. -/
def blockTokens (o : Nat) : Nat := 16 * 2 ^ o
def blockBytes (q : KvPool) (o : Nat) : Nat := blockTokens o * q.stride

/-- The smallest order that holds a number of tokens. -/
def orderFor (tokens : Nat) : Nat := ((List.range 33).find? fun o => tokens ≤ blockTokens o).getD 33

/-- The free block of an order with the lowest address. -/
def lowestFree (l : List (Nat × Nat)) (o : Nat) : Option Nat :=
  l.foldl (fun m x => if x.1 ≠ o then m else match m with
    | none => some x.2
    | some y => some (min x.2 y)) none

/-- A block of order `hi` at `off` halved down to order `lo`: the upper halves. -/
def upperHalves (q : KvPool) (lo off : Nat) : Nat → List (Nat × Nat)
  | 0 => []
  | hi + 1 => if hi < lo then [] else (hi, off + blockBytes q hi) :: upperHalves q lo off hi

/-- A block of order `o` taken: its offset and the pool. -/
def takeBlock (q : KvPool) (o : Nat) : Option (Nat × KvPool) :=
  match (List.range (q.top + 1)).find? fun x => o ≤ x && q.free.any fun f => f.1 = x with
  | none => none
  | some hi => (lowestFree q.free hi).map fun off => (off, { q with free := q.free.filter (fun f => f ≠ (hi, off)) ++ upperHalves q o off hi })

/-- A block freed, merged with its buddy as long as that is free. -/
def freeBlock (q : KvPool) : Nat → Nat → Nat → List (Nat × Nat) → List (Nat × Nat)
  | 0, o, off, l => l ++ [(o, off)]
  | fuel + 1, o, off, l =>
    let buddy := off ^^^ blockBytes q o
    if o < q.top && l.contains (o, buddy) then freeBlock q fuel (o + 1) (min off buddy) (l.filter fun f => f ≠ (o, buddy))
    else l ++ [(o, off)]

def getPool (p : Part) (i : Nat) : Option KvPool := p.pools.find? fun q => q.idx = i

def putPool (s : State) (part : Nat) (q : KvPool) : State :=
  modPart s part fun p => { p with pools := sortBy (fun a b => a.idx < b.idx) (p.pools.filter (fun x => x.idx ≠ q.idx) ++ [q]) }

/-! ### Sequences (R215, R216) -/

def getSeq (s : State) (part n : Nat) : Option Seq := (getPart s part).seqs.find? fun q => q.num = n

def putSeq (s : State) (part : Nat) (q : Seq) : State :=
  modPart s part fun p => { p with seqs := sortBy (fun a b => a.num < b.num) (p.seqs.filter (fun x => x.num ≠ q.num) ++ [q]) }

/-- The capacity of a sequence. -/
def capacity (q : Seq) : Nat := (q.extents.map (·.len)).foldl (· + ·) 0

/-- The lowest free entry of a partition's table. -/
def freeSeq (s : State) (part : Nat) : Option Nat :=
  let used := (getPart s part).seqs.map (·.num)
  ((List.range (used.length + 1)).find? fun n => !used.contains n).bind fun n => if n < 65536 then some n else none

/-- The tile pages of a range of space gl. -/
def rangePages (va n : Nat) : List Nat := if n = 0 then [] else (List.range ((va + n - 1) / 65536 - va / 65536 + 1)).map fun i => (va / 65536 + i) * 65536

/-- The registered prefix page that a world's address maps to. -/
def prefixAt (s : State) (w : BitVec 6) (va : Nat) : Option Prefix :=
  match findPte s w va with
  | none => none
  | some p => s.prefixes.find? fun x => x.pa = pageOf (p.pa + (va - p.va))

/-- A range maps a prefix page that is lost (04 R132). -/
def mapsLost (s : State) (w : BitVec 6) (va n : Nat) : Bool := (rangePages va n).any fun a => ((prefixAt s w a).map (·.lost)).getD false

/-- Tokens charged to a world. -/
def chargeTokens (s : State) (w : BitVec 6) (n : Nat) : State :=
  let q := getQuota s w.toNat
  setQuota s w.toNat { q with kvUsed := q.kvUsed + BitVec.ofNat 32 n }

def releaseTokens (s : State) (w : BitVec 6) (n : Nat) : State :=
  let q := getQuota s w.toNat
  setQuota s w.toNat { q with kvUsed := q.kvUsed - BitVec.ofNat 32 n }

/-- A block for a number of tokens, charged to the world: the extent over it (R218). -/
def allocExtent (s : State) (part : Nat) (w : BitVec 6) (pool tokens : Nat) : Except Nat (State × Extent) :=
  let o := orderFor tokens
  match getPool (getPart s part) pool with
  | none => .error stBadcmd
  | some q =>
    let u := getQuota s w.toNat
    if q.world ≠ w || q.top < o then .error stBadcmd
    else if u.kvLimit.toNat < u.kvUsed.toNat + blockTokens o then .error stQuota
    else
      match takeBlock q o with
      | none => .error stFull
      | some (off, q') =>
        if mapsLost s w (q.base + off) (blockBytes q o) then .error stBadcmd
        else
          .ok (chargeTokens (putPool s part q') w (blockTokens o),
            { base := q.base + off, len := blockTokens o, stride := q.stride, shared := false, order := o })

/-- An extent given back: a buddy extent's block is freed and its charge released. -/
def dropExtent (part : Nat) (q : Seq) (s : State) (e : Extent) : State :=
  if e.shared then s
  else
    let s := releaseTokens s q.world (blockTokens e.order)
    match getPool (getPart s part) q.pool with
    | none => s
    | some x => putPool s part { x with free := freeBlock x x.top e.order (e.base - x.base) x.free }

/-- A sequence's extent list maps a registered prefix page. -/
def seqMaps (s : State) (q : Seq) (page : Nat) : Bool :=
  q.extents.any fun e => (rangePages e.base (e.len * e.stride)).any fun a => (prefixAt s q.world a).map (·.pa) = some page

/-- The sequences of every partition that map a page, each with its partition. -/
def mappingSeqs (s : State) (page : Nat) : List (Nat × Seq) :=
  (List.range 16).flatMap fun p => ((getPart s p).seqs.filter fun q => seqMaps s q page).map fun q => (p, q)

/-- A lost prefix page is freed when no sequence maps it (04 R132). -/
def freeLost (s : State) : State :=
  (s.prefixes.filter fun p => p.lost && (mappingSeqs s p.pa).isEmpty).foldl (fun s p => retireReplica s p.pa) s

/-- A sequence freed. -/
def dropSeq (s : State) (part n : Nat) : State :=
  match getSeq s part n with
  | none => s
  | some q =>
    let s := q.extents.foldl (dropExtent part q) s
    freeLost (modPart s part fun p => { p with seqs := p.seqs.filter fun x => x.num ≠ n })

/-- The interval of a checkpoint notes what a sequence was (10 R317). -/
def noteSeq (r : RunCmd) (n extents len : Nat) (s : State) : State := modCkpt s r.task fun k => { k with seqs := k.seqs ++ [(n, extents, len)] }

/-- The end of an act of the allocator, whose timing the spec leaves open (log 8). -/
def kvaDo (r : RunCmd) (s : State) (x : Except Nat (State × Nat)) : State :=
  match x with
  | .error st => endsLater 0 st 0 r s
  | .ok (t, result) => endsLater 0 stOk result r t

/-! ### KALLOC (R218, R452) -/

def kallocValid (c : Cmd) (s : State) : Bool :=
  let _ := s
  fld c 16 1 < 16 && [2, 4, 6].contains (fld c 17 1) && [64, 128, 256].contains (fld c 18 2) && zeroBytes c.bits 22 24 && zeroBytes c.bits 28 64

def kallocWork (c : Cmd) (r : RunCmd) (s : State) : State :=
  let part := r.task.part
  kvaDo r s (match allocExtent s part r.world (fld c 16 1) (fld c 24 4) with
    | .error e => .error e
    | .ok (t, e) =>
      match freeSeq s part with
      | none => .error stFull
      | some n =>
        let q : Seq := { num := n, world := r.world, stopped := false, fmt := BitVec.ofNat 4 (fld c 17 1), len := 0, dim := fld c 18 2,
                         voff := fld c 20 2, pool := fld c 16 1, extents := [e] }
        .ok (noteSeq r n 0 0 (putSeq t part q), n))

def execKalloc (c : Cmd) (s : State) : Out := startCommand kvaId c (kallocValid c) noOperands (kallocWork c) s

/-- The pool that operation 1 defines. -/
def newPool (c : Cmd) (w : BitVec 6) : KvPool :=
  let q : KvPool := { idx := fld c 16 1, world := w, base := fld c 24 8, stride := fld c 18 2, top := fld c 20 1, free := [] }
  { q with free := (List.range (fld c 21 1)).map fun i => (q.top, i * blockBytes q q.top) }

def poolValid (c : Cmd) (s : State) : Bool :=
  let q := newPool c (cmdWorld c.bits)
  let part := (partOfCore s c.core).getD 16
  q.idx < 16 && zeroBytes c.bits 17 18 && [64, 128, 256, 512, 1024, 2048, 4096].contains q.stride && q.top ≤ 16 && 1 ≤ fld c 21 1 && fld c 21 1 ≤ 64
    && zeroBytes c.bits 22 23 && fld c 23 1 = 1 && zeroBytes c.bits 32 64 && q.base % blockBytes q q.top = 0
    && (rangePages q.base (fld c 21 1 * blockBytes q q.top)).all (fun a => (findPte s q.world a).isSome)
    && (getPart s part).seqs.all fun x => x.pool ≠ q.idx

def poolWork (c : Cmd) (r : RunCmd) (s : State) : State := kvaDo r s (.ok (putPool s r.task.part (newPool c r.world), 0))

def execKallocPool (c : Cmd) (s : State) : Out := startCommand kvaId c (poolValid c) noOperands (poolWork c) s

/-! ### KEXTEND (R218, R452) -/

/-- The sequence that a command names, checked first: NOSUCH where it is free, STOPPED where it is stopped. -/
def namedSeq (c : Cmd) (r : RunCmd) (s : State) : Except Nat Seq :=
  match getSeq s r.task.part (fld c 16 2) with
  | none => .error stNosuch
  | some q => if q.stopped then .error stStopped else if q.world ≠ r.world then .error stBadcmd else .ok q

/-- An extent appended. -/
def appendExtent (r : RunCmd) (q : Seq) (e : Extent) (s : State) : State × Nat :=
  (noteSeq r q.num q.extents.length q.len (putSeq s r.task.part { q with extents := q.extents ++ [e] }), q.extents.length)

/-- A sequence has 16 extents. -/
def extentsFull (q : Seq) : Bool := 16 ≤ q.extents.length

def extendValid (c : Cmd) (s : State) : Bool :=
  let _ := s
  zeroBytes c.bits 19 24 && zeroBytes c.bits 28 64

def extendAllocWork (c : Cmd) (r : RunCmd) (s : State) : State :=
  kvaDo r s (match namedSeq c r s with
    | .error e => .error e
    | .ok q =>
      if extentsFull q then .error stFull
      else
        match allocExtent s r.task.part r.world q.pool (fld c 24 4) with
        | .error e => .error e
        | .ok (t, e) => .ok (appendExtent r q e t))

def execKextendAlloc (c : Cmd) (s : State) : Out := startCommand kvaId c (extendValid c) noOperands (extendAllocWork c) s

def shareValid (c : Cmd) (s : State) : Bool :=
  let _ := s
  zeroBytes c.bits 19 24 && zeroBytes c.bits 28 32 && zeroBytes c.bits 40 64 && 1 ≤ fld c 24 4 && fld c 24 4 ≤ 2 ^ 20

/-- SHARE: every page of the range a registered prefix page that is not lost; the extent takes the stride of the sequence's pool. -/
def shareWork (c : Cmd) (r : RunCmd) (s : State) : State :=
  kvaDo r s (match namedSeq c r s with
    | .error e => .error e
    | .ok q =>
      if extentsFull q then .error stFull
      else
        match getPool (getPart s r.task.part) q.pool with
        | none => .error stBadcmd
        | some x =>
          let base := fld c 32 8
          let n := fld c 24 4
          if base % x.stride = 0 && (rangePages base (n * x.stride)).all (fun a => ((prefixAt s r.world a).map fun y => y.clean.isSome && !y.lost).getD false) then
            .ok (appendExtent r q { base := base, len := n, stride := x.stride, shared := true, order := 31 } s)
          else .error stBadcmd)

def execKextendShare (c : Cmd) (s : State) : Out := startCommand kvaId c (shareValid c) noOperands (shareWork c) s

/-- SETLEN. -/
def setlenWork (c : Cmd) (r : RunCmd) (s : State) : State :=
  kvaDo r s (match namedSeq c r s with
    | .error e => .error e
    | .ok q =>
      if capacity q < fld c 24 4 then .error stBadcmd
      else .ok (noteSeq r q.num q.extents.length q.len (putSeq s r.task.part { q with len := fld c 24 4 }), 0))

def execKextendSetlen (c : Cmd) (s : State) : Out := startCommand kvaId c (extendValid c) noOperands (setlenWork c) s

/-! ### KFREE -/

/-- A SLATTN that has started on the sequence has not ended. -/
def attnRuns (s : State) (part n : Nat) : Bool :=
  s.running.any fun r => r.eng = 0x10 && r.task.part = part && recBytes r.bits 16 2 = n

/-- KFREE waits in its queue for the SLATTNs that have started. -/
def kfreeHeld (c : Cmd) (s : State) : Bool :=
  match (getCore s c.core).task with
  | none => false
  | some t => (ckptOf s t).isNone && attnRuns s t.part (fld c 16 2)

def kfreeValid (c : Cmd) (s : State) : Bool :=
  let _ := s
  zeroBytes c.bits 18 64

/-- What a KFREE does when it takes effect. -/
def kfreeEffect (c : Cmd) (part : Nat) (s : State) : State := dropSeq s part (fld c 16 2)

def kfreeWork (c : Cmd) (r : RunCmd) (s : State) : State :=
  kvaDo r s (if (ckptOf s r.task).isSome then .ok (modCkpt s r.task fun k => { k with later := k.later ++ [c] }, 0)
    else
      match getSeq s r.task.part (fld c 16 2) with
      | none => .error stNosuch
      | some q => if q.world ≠ r.world then .error stBadcmd else .ok (kfreeEffect c r.task.part s, 0))

def execKfree (c : Cmd) (s : State) : Out :=
  if headerOk c.bits && kfreeValid c s && kfreeHeld c s then .next (focus s c.core)
  else startCommand kvaId c (kfreeValid c) noOperands (kfreeWork c) s

/-- The KALLOCs and KEXTENDs of an interval undone, the latest first (10 R317). -/
def undoSeq (part : Nat) (s : State) (x : Nat × Nat × Nat) : State :=
  match getSeq s part x.1 with
  | none => s
  | some q =>
    if x.2.1 = 0 then dropSeq s part x.1
    else
      let s := (q.extents.drop x.2.1).foldl (dropExtent part q) s
      putSeq s part { q with extents := q.extents.take x.2.1, len := x.2.2 }

end Sys2Proof.Machine
end

