-- ==== Sys2Proof/Machine/Reset.lean ====
section
/-! DEFINITION. The reset of a partition (10_traps R319), and what else ends its tasks (03_links_trust R78, 04 R119). -/

namespace Sys2Proof.Machine

/-- The cores of a partition. -/
def partCores (s : State) (p : Nat) : List CoreNo := (partIslands (getPart s p)).flatMap fun n => (List.range 64).map (64 * n + ·)

/-- The cores of a partition that differ from a core after reset. -/
def liveCores (s : State) (p : Nat) : List CoreNo := (coreNos s).filter fun c => partOfCore s c = some p

/-- The queues of a partition. -/
def partQueues (p : Nat) : List Nat := (List.range 16).map (16 * p + ·)

/-! ### Commands and queues -/

/-- The started commands of a partition end with ABORTED. -/
def abortRuns (s : State) (p : Nat) : State :=
  (s.running.filter fun r => r.task.part = p).foldl (fun s r => endNow { r with follow := none, trap := none } stAborted s) s

/-- A queued entry as a command, for its completion. -/
def entryRun (s : State) (c : CoreNo) (t : TaskRef) (i : Nat) (e : QCmd) : RunCmd :=
  { core := c, task := t, eng := engineOrder.getD i 0, seq := e.seq, bits := e.bits, stamp := e.stamp, world := cmdWorld e.bits, due := cycOf s c,
    waiting := false, pending := false, parked := none, done := (0, 0), buf := [], held := [], poisoned := false, status := 0, result := 0, trap := none,
    follow := none, land := cycOf s c, xid := 0, tag := none, blocks := [], wait := .none, mark := 0 }

/-- The queued entries of a core's task end with ABORTED. -/
def abortEntries (s : State) (c : CoreNo) : State :=
  match (getCore s c).task with
  | none => s
  | some t =>
    let all := (getCore s c).engQ.toList.zipIdx.flatMap fun q => q.1.map fun e => entryRun s c t q.2 e
    all.foldl (fun s r => endNow r stAborted s) s

/-- The fetched commands of a partition's queues end with ABORTED. -/
def abortHost (s : State) (p : Nat) : State :=
  { s with hostRuns := s.hostRuns.map fun (r : HostRun) =>
      if (partQueues p).contains r.queue && !r.done then { r with done := true, status := BitVec.ofNat 16 stAborted, wait := .none } else r }

/-! ### Launches -/

/-- Every launch of the partition ends FAILED with ABORTED (05 R148). -/
def failLaunches (s : State) (p : Nat) : State :=
  (getPart s p).launches.foldl (fun s l =>
    let l' := { l with st := .failed, status := if l.status = 0 then 0x0A else l.status }
    finishLaunch (modLaunch s p l.num fun _ => l') p l') s

/-- The save areas of the partition's contexts marked empty, and the contexts gone. -/
def emptyContexts (s : State) (p : Nat) : State :=
  let mine := s.contexts.filter fun x => x.task.part = p
  let s := mine.foldl (fun s x =>
    match findLaunch s p x.task.launch with
    | none => s
    | some l => devWrite s (launchWorld l) (launchSave l + x.task.task.toNat * saveSize + 2) [0] none none) s
  { s with contexts := s.contexts.filter fun x => x.task.part ≠ p }

/-- Gangs, parked tasks, arrivals and checkpoints of the partition gone. -/
def dropGangs (s : State) (p : Nat) : State :=
  modPart { s with gangs := s.gangs.filter (fun g => g.part ≠ p), arrivals := s.arrivals.filter (fun a => a.part ≠ p),
                   ckpts := s.ckpts.filter fun k => k.part ≠ p } p fun x => { x with parked := [], reserved := [] }

/-! ### Structures in memory -/

/-- A replica belongs to a partition: its page lies in one of its HBM regions, or in another tier and its world is bound there. -/
def replicaOf (s : State) (p page : Nat) : Bool :=
  if tierOf page = .hbm then (getPart s p).islands.getLsbD (page / 0x800000000)
  else match assocGet s.pages page with
    | some (w, _) => w ≠ 0 && (getWorld s w.toNat).parts.getLsbD p
    | none => false

def retireAll (s : State) (p : Nat) : State := (s.replicas.filter fun r => replicaOf s p r.1).foldl (fun s r => retireReplica s r.1) s

/-- Every pin and latch of the partition released (07 R203, R204). -/
def releasePins (s : State) (p : Nat) : State :=
  let all := s.aht.flatMap fun a => (a.vers.toList.filter fun v => v.st ≠ 0).map fun v => (a.handle, v.num)
  let s := { s with aht := s.aht.map fun a => { a with vers := a.vers.map fun v => { v with pins := assocDel v.pins p, readers := assocDel v.readers p } },
                    clusters := s.clusters.map fun (u : Cluster) => if partOfIsland s (u.num / 4) = some p then { u with keys := [] } else u }
  let s := modPart s p fun x => { x with ahtLocked := [] }
  all.foldl (fun s x => freeDrained (noteIdle s p x) x.1 x.2) s

/-- Every sequence of the partition freed. -/
def freeSeqs (s : State) (p : Nat) : State := (getPart s p).seqs.foldl (fun s q => dropSeq s p q.num) s

/-- Routing counters, cluster flags and fault queues of the partition's clusters at their reset values. -/
def clearClusters (s : State) (p : Nat) : State :=
  { s with clusters := s.clusters.map fun (u : Cluster) => if partOfIsland s (u.num / 4) = some p then { Cluster.fresh u.num with keys := u.keys } else u,
           windows := s.windows.filter fun w => partOfIsland s (w.cluster / 4) ≠ some p }

/-- A core after the reset of its partition: everything zeroed but the own count, which goes on (09 R278), and a limit written for WDOG_SET. -/
def zeroCore (k : Core) : Core := { Core.reset with race := { Race.reset with own := k.race.own, v := k.race.v }, wdogSetLimit := k.wdogSetLimit }

def zeroCores (s : State) (p : Nat) : State :=
  let mine := liveCores s p
  let s := mapCores (fun c k => if mine.contains c then zeroCore k else k) s
  { s with remotes := s.remotes.filter (fun r => !mine.contains r.core), scFences := s.scFences.filter fun f => !mine.contains f.core }

/-- Everything that a partition's tasks hold or have asked for gone, without a cut (R319 steps 1 to 5). -/
def clearPartition (s : State) (p : Nat) : State :=
  let s := abortHost s p
  let s := (liveCores s p).foldl abortEntries (abortRuns s p)
  let s := (s.migQueue ++ s.migrations).foldl (fun s m => if m.task.part = p && m.step < 4 then abandon m s else s) s
  let s := dropGangs (emptyContexts s p) p
  let s := failLaunches s p
  let s := freeMaps s fun m => m.part = p
  let s := clearClusters (freeSeqs (releasePins (retireAll s p) p) p) p
  zeroCores s p

/-- Causes of a partition reset, as its event gives them (log 30). -/
def causeCommand : Nat := 0
def causeMachine : Nat := 1
def causeSupervisor : Nat := 2

/-- A partition reset: the TDI moves to ERROR, and PARTITION_RESET is raised. -/
def resetPartition (s : State) (p cause : Nat) : State :=
  let s := modPart (clearPartition s p) p fun x => { x with tdisp := .error }
  raiseEvent s 0x0C (some p) none noRecord [cause]

end Sys2Proof.Machine
end

