-- ==== Sys2Proof/Machine/HostOps.lean ====
section
/-! DEFINITION. What all host commands share: their records, their start and end, and accesses to host memory (04_host_interface R111 to R122). -/

namespace Sys2Proof.Machine

/-! ### Records (R116) -/

/-- The mailbox among the queues (R121). -/
def mailboxQueue : Nat := 257

/-- A field of a record. -/
def hfld (h : HostCmd) (off n : Nat) : Nat := recBytes h.bits off n

def hostOp (h : HostCmd) : Nat := hfld h 0 1
def hostFlags (h : HostCmd) : BitVec 8 := BitVec.ofNat 8 (hfld h 1 1)
def hostIdent (h : HostCmd) : BitVec 16 := BitVec.ofNat 16 (hfld h 2 2)
def hostWorld (h : HostCmd) : BitVec 6 := BitVec.ofNat 6 (hfld h 4 1)
def ptr0 (h : HostCmd) : Nat := hfld h 8 8
def ptr1 (h : HostCmd) : Nat := hfld h 16 8

/-- Bytes `lo` to `hi - 1` of a record are zero. -/
def hzero (h : HostCmd) (lo hi : Nat) : Bool := hfld h lo (hi - lo) = 0

/-- The common fields are in order: reserved bits zero, world tag 0 on the admin queue and in the mailbox, and live in the partition elsewhere. -/
def hostCommonOk (s : State) (h : HostCmd) : Bool :=
  (h.queue = mailboxQueue || hfld h 1 1 < 4) && hfld h 4 1 < 64 && hzero h 5 8
    && (if h.queue < 256 then liveIn s (hostWorld h) (h.queue / 16) else hfld h 4 1 = 0)

/-! ### Host memory (03 R77) -/

/-- The link is up, and the queues are not halted (R109, R110). -/
def hostUp (s : State) : Bool := s.linkUp && !s.linkHeld

/-- Bytes of host memory, none where they cannot be read. -/
def hostRead (s : State) (a n : Nat) : Option (List Byte) := if s.linkUp then some (cellRead s.mem (hostPa a) n) else none

def hostWrite (s : State) (a : Nat) (bs : List Byte) : State := { s with mem := cellWrite s.mem (hostPa a) bs }

/-- A line sent to the host: a poisoned one as a poisoned TLP (R129). -/
def hostSend (s : State) (a : Nat) (bs : List Byte) (poison : Bool) : State := hostStore s (hostPa a) bs poison

/-- A host list of `n` numbers of 8 bytes. -/
def hostList (s : State) (a n : Nat) : Option (List Nat) :=
  (hostRead s a (8 * n)).map fun b => (List.range n).map fun i => leNat ((b.drop (8 * i)).take 8)

/-! ### A command's course -/

/-- The command as fetched (R117). -/
def hostRun (s : State) (h : HostCmd) : HostRun :=
  { queue := h.queue, ident := hostIdent h, flags := hostFlags h, sqHead := BitVec.ofNat 16 (getQueue s h.queue).sqHead, done := false, dropped := false,
    status := 0, res0 := 0, res1 := 0, wait := .none, order := s.fetched }

/-- What a command answers: a status and a result, or what it waits for. -/
inductive Answer where
  | now (status res0 : Nat)
  | later (w : HostWait)
  deriving DecidableEq, Repr

/-- SQ_HEAD moves past the entry that is fetched (R114). -/
def fetchEntry (s : State) (q : Nat) : State :=
  let s := { s with fetched := s.fetched + 1 }
  if q = mailboxQueue then s
  else
    let h := getQueue s q
    putQueue s q { h with sqHead := (h.sqHead + 1) % sqSize h }

/-- A command's answer noted: in the mailbox, or for its completion. -/
def answer (h : HostCmd) (s : State) (x : Answer) : State :=
  match x with
  | .now st r =>
    if h.queue = mailboxQueue then
      { s with mailbox := { s.mailbox with busy := false, status := BitVec.ofNat 15 st, result := BitVec.ofNat 48 r } }
    else
      { s with hostRuns := s.hostRuns ++ [{ hostRun s h with done := true, status := BitVec.ofNat 16 st, res0 := BitVec.ofNat 64 r }] }
  | .later w => { s with hostRuns := s.hostRuns ++ [{ hostRun s h with wait := w }] }

/-- A command with the reserved identity is not executed (R116). -/
def reservedIdent (h : HostCmd) (s : State) : State :=
  if h.queue = mailboxQueue then answer h s (.now stBadcmd 0)
  else { s with hostRuns := s.hostRuns ++ [{ hostRun s h with done := true, status := BitVec.ofNat 16 stBadcmd, res1 := BitVec.allOnes 64 }] }

/-- A host command: fetched, checked, and then its effect. -/
def hostCommand (h : HostCmd) (valid : State → Bool) (act : State → State × Answer) (s : State) : Out :=
  let s := fetchEntry s h.queue
  if hostIdent h = 0xFFFF then .next (reservedIdent h s)
  else if !(hostCommonOk s h && valid s) then .next (answer h s (.now stBadcmd 0))
  else
    let r := act s
    .next (answer h r.1 r.2)

/-- A failure that changes nothing. -/
def refuse (s : State) (status : Nat) : State × Answer := (s, .now status 0)

/-- A TDISP state in which a partition's layout is frozen (03 R78). -/
def frozen (p : Part) : Bool := p.present && p.tdisp ≠ .unlocked

/-- The quotas of a world are frozen: a partition that it is bound to is in CONFIG_LOCKED or RUN (03 R78). -/
def quotaFrozen (s : State) (w : Nat) : Bool :=
  (List.range 16).any fun p => (getWorld s w).parts.getLsbD p && (getPart s p).present
    && ((getPart s p).tdisp = .locked || (getPart s p).tdisp = .run)

/-- A world is bound to a frozen partition (R119, commands marked L). -/
def worldFrozen (s : State) (w : Nat) : Bool := (List.range 16).any fun p => (getWorld s w).parts.getLsbD p && frozen (getPart s p)

/-- The world exists: world 0, or a live world (03 R93). -/
def worldLive (s : State) (w : Nat) : Bool := w = 0 || (w < 64 && (getWorld s w).live)

/-- A page of the world is still to be scrubbed (03 R108). -/
def awaitsScrub (s : State) (w : Nat) : Bool := s.scrub.any fun x => x.2.toNat = w

/-- The completions of a queue that are held. -/
def heldOf (s : State) (q : Nat) : List (BitVec 256) := (s.held.filter fun x => x.queue = q).map (·.record)

/-- The commands of a queue that are outstanding, in the order in which they were fetched: their completions do not stand in host memory (R125). Those
that a QRESET cut off have no completion to come, and count no longer (log 92). -/
def outstanding (s : State) (q : Nat) : List (BitVec 16) :=
  let held := (s.held.filter fun x => x.queue = q && !x.isEvent).map fun x => (x.order, BitVec.ofNat 16 (recBytes x.record 0 2))
  let runs := (s.hostRuns.filter fun r => r.queue = q && !r.dropped).map fun r => (r.order, r.ident)
  (sortBy (fun a b => a.1 < b.1) (held ++ runs)).map (·.2)

/-- QSTAT.RUN (R112, R114). -/
def queueRuns (s : State) (q : Nat) : Bool :=
  let h := getQueue s q
  (h.en && !h.err) || !(outstanding s q).isEmpty

end Sys2Proof.Machine
end

