-- ==== Sys2Proof/Machine/HostService.lean ====
section
/-! DEFINITION. The service commands of the admin queue and the mailbox: FW_WRITE, CFG_WRITE, LOG_READ, ERR_READ, RESYNC and QRESET
(04_host_interface R119, R121, R123, R125, R126; 03_links_trust R92; 01_package R31). -/

namespace Sys2Proof.Machine

/-- A command of the mailbox leaves its data in the data window, from its start; one of a queue writes host memory. -/
def giveData (h : HostCmd) (s : State) (a : Nat) (bs : List Byte) : State :=
  if h.queue = mailboxQueue then { s with mailbox := { s.mailbox with data := cellWrite [] 0 bs } } else hostWrite s a bs

/-! ### FW_WRITE and CFG_WRITE -/

/-- Bytes of a flash image replaced from an offset on; what nothing has written reads 0 (log 2). -/
def patchImage (image : List Byte) (off : Nat) (bs : List Byte) : List Byte :=
  padTo off 0 (image.take off) ++ bs ++ image.drop (off + bs.length)

/-- A slot that holds an image: what the image says of itself. -/
def slotOf (image : List Byte) : FwSlot :=
  { image := image, sig := Config.imageSig image, security := Config.imageField image 0, version := Config.imageField image 1 }

def fwValid (h : HostCmd) (s : State) : Bool :=
  let _ := s
  hzero h 16 24 && hzero h 32 64

/-- The inactive slot written, at any offset and of any length (log 92). -/
def writeSlot (s : State) (off : Nat) (bs : List Byte) : State :=
  let f := s.flash
  { s with flash := if f.slotB_chosen then { f with slotA := slotOf (patchImage f.slotA.image off bs) }
                    else { f with slotB := slotOf (patchImage f.slotB.image off bs) } }

def execFwWrite (h : HostCmd) (s : State) : Out :=
  hostCommand h (fwValid h) (fun s =>
    match hostRead s (ptr0 h) (hfld h 28 4) with
    | none => refuse s stBadcmd
    | some b => (writeSlot s (hfld h 24 4) b, .now stOk 0)) s

/-- A configuration record as stored, with the settings that its content gives (log 2). -/
def recordOf (b : List Byte) : CfgRecord :=
  let f := Config.imageField b
  { content := b, sig := Config.imageSig b, seq := f 0, floor := f 1, powerCap := f 2, strokeNs := f 3, ways := f 4,
    thresh := BitVec.ofNat 15 (f 5), winExp := BitVec.ofNat 5 (f 6), cxlIde := f 7 = 1, limits := Config.recordLimits b,
    template := Config.recordTemplate b }

def cfgValid (h : HostCmd) (s : State) : Bool :=
  let _ := s
  hzero h 16 28 && hzero h 32 64

def execCfgWrite (h : HostCmd) (s : State) : Out :=
  hostCommand h (cfgValid h) (fun s =>
    match hostRead s (ptr0 h) (hfld h 28 4) with
    | none => refuse s stBadcmd
    | some b => ({ s with flash := { s.flash with record := recordOf b } }, .now stOk 0)) s

/-! ### LOG_READ and ERR_READ (R123) -/


/-- Records as bytes; the first carries LOST where records were overwritten. -/
def logBytes (lost : Bool) : List Event → List Byte
  | [] => []
  | e :: es => eventBytes lost e ++ es.flatMap (eventBytes false)

/-- The records that the mailbox data window holds. -/
def windowRecords : Nat := 2048

/-- The most records that a LOG_READ returns. -/
def logMax (h : HostCmd) : Nat := if h.queue = mailboxQueue then min windowRecords (hfld h 24 4) else hfld h 24 4

def logValid (h : HostCmd) (s : State) : Bool :=
  let _ := s
  hzero h 16 24 && hzero h 28 64

/-- The oldest unread records of a log of which the last `unread` are unread. -/
def unreadOf (log : List Event) (unread n : Nat) : List Event := (log.drop (log.length - unread)).take n

def logReadAct (h : HostCmd) (s : State) : State × Answer :=
  if s.phase = .recovery then
    let l := unreadOf s.recovery s.recoveryUnread (logMax h)
    ({ giveData h s (ptr0 h) (logBytes false l) with recoveryUnread := s.recoveryUnread - l.length }, .now stOk l.length)
  else
    let l := unreadOf s.events s.unread (logMax h)
    ({ giveData h s (ptr0 h) (logBytes s.lostNext l) with unread := s.unread - l.length, lostNext := s.lostNext && l.isEmpty }, .now stOk l.length)

def execLogRead (h : HostCmd) (s : State) : Out := hostCommand h (logValid h) (logReadAct h) s

/-- ERR_READ: a record of the ring of 256. -/
def errReadAct (h : HostCmd) (s : State) : State × Answer :=
  match (if s.phase = .recovery then none else assocGet s.errors (hfld h 24 4)) with
  | none => refuse s stNosuch
  | some b => (giveData h s (ptr0 h) (padTo 4096 0 b), .now stOk 0)

def execErrRead (h : HostCmd) (s : State) : Out := hostCommand h (logValid h) (errReadAct h) s

/-! ### The summary record (R126) -/

/-- Capability-table offset 0x028 (01 R36). -/
def fwWord (s : State) : Nat :=
  let fw := if s.flash.slotB_chosen then s.flash.slotB else s.flash.slotA
  fw.version % 2 ^ 32 + fw.security % 2 ^ 16 * 2 ^ 32 + s.flash.slotB_chosen.toNat * 2 ^ 48

/-- The TDISP state of a partition, as the summary codes it. -/
def partStateCode (p : Part) : Nat :=
  if !p.present then 0 else match p.tdisp with
    | .unlocked => 1
    | .locked => 2
    | .run => 3
    | .error => 4

/-- The entry of partition n. -/
def sumPart (s : State) (n : Nat) : List Byte :=
  let p := getPart s n
  if !p.present then leBytes 32 0
  else
    let worlds := (List.range 64).foldl (fun m w => m + (if (getWorld s w).parts.getLsbD n then 2 ^ w else 0)) 0
    let resident := ((coreNos s).filter fun c => ((getCore s c).task.map (·.part)) = some n).length
    let queues := (List.range 16).foldl (fun m q => m + (if (getQueue s (16 * n + q)).en then 2 ^ q else 0)) 0
    leBytes 1 (partStateCode p) ++ leBytes 1 p.ways ++ leBytes 2 p.islands.toNat ++ leBytes 8 worlds ++ leBytes 2 resident
      ++ leBytes 2 p.parked.length ++ leBytes 2 queues ++ leBytes 14 0

/-- KEY_STAT of a world (03 R103). -/
def keyStat (s : State) (w : Nat) : Nat :=
  let x := getWorld s w
  x.st.toNat * 2 ^ 62 + x.gen.toNat * 2 ^ 52 + x.ptr.toNat * 2 ^ 6

/-- The entry of world w. -/
def sumWorld (s : State) (w : Nat) : List Byte :=
  let x := getWorld s w
  let saved := (s.contexts.filter fun c => c.core.sys.world.toNat = w).length
  leBytes 1 (x.live.toNat + 2 * (awaitsScrub s w).toNat) ++ leBytes 1 x.st.toNat ++ leBytes 1 x.gen.toNat ++ leBytes 1 (x.group.getD 0xFF)
    ++ leBytes 2 x.parts.toNat ++ leBytes 2 saved ++ leBytes 8 (x.ptr.toNat * 64)

/-- The entry of queue i. -/
def sumQueue (s : State) (i : Nat) : List Byte :=
  let h := getQueue s i
  if i < 256 && !(getPart s (i / 16)).present then leBytes 16 0 else
  leBytes 2 h.sqHead ++ leBytes 2 h.sqTail ++ leBytes 2 h.cqTail ++ leBytes 2 h.cqHead
    ++ leBytes 1 (h.en.toNat + 2 * (queueRuns s i).toNat + 4 * h.err.toNat + 8 * h.phase.toNat) ++ leBytes 1 0
    ++ leBytes 2 (outstanding s i).length ++ leBytes 2 (heldOf s i).length ++ leBytes 2 0

/-- Pending launches of partition n by class. -/
def sumLaunches (s : State) (n : Nat) : List Byte :=
  (List.range 4).flatMap fun c => leBytes 2 ((getPart s n).launches.filter fun l => launchClass l = c).length

/-- GRP_STAT of a group slot (03 R107). -/
def grpStat (s : State) (g : Nat) : Nat :=
  let x := getGroup s g
  x.valid.toNat * 2 ^ 63 + x.pending.toNat * 2 ^ 61 + x.lsd.toNat * 2 ^ 60 + (if x.lsd then x.member.toNat else 0) * 2 ^ 48 + x.num.toNat * 2 ^ 32
    + x.view.toNat

def sumGroup (s : State) (g : Nat) : List Byte := leBytes 8 (grpStat s g) ++ leBytes 4 s.node.toNat ++ leBytes 4 0

/-- The Logs section. -/
def sumLogs (s : State) : List Byte :=
  let recovering := decide (s.phase = .recovery)
  let next := if recovering then s.recovery.length else s.nextEvent
  let old := if recovering then s.recovery.length - s.recoveryUnread else (s.nextEvent + 4096 - s.unread) % 4096
  leBytes 8 (if recovering then 0 else Config.eventLogVa.toNat) ++ leBytes 4 next ++ leBytes 4 old
    ++ leBytes 4 (if recovering then 0 else s.nextError) ++ leBytes 44 0

/-- A live migration; its command's completion object. -/
def sumMigration (s : State) (m : Migration) : List Byte :=
  let obj := ((s.running.find? fun r => r.task = m.task && r.eng = migId && r.seq = m.seq).map fun r => cmdObject r.bits).getD 0
  leBytes 8 m.src ++ leBytes 8 m.dst ++ leBytes 1 m.world.toNat ++ leBytes 1 m.step ++ leBytes 2 (onesOf 1024 m.bitmap.toNat) ++ leBytes 8 obj
    ++ leBytes 4 0

/-- The outstanding commands, in ascending queue, then fetch order. -/
def sumOutstanding (s : State) : List (Nat × BitVec 16) := (List.range 257).flatMap fun i => (outstanding s i).map fun x => (i, x)

/-- The handles pinned in any partition, with a version current where one is pinned. -/
def sumAdapters (s : State) : List (Aht × BitVec 32) :=
  let pinned := s.aht.filter fun a => a.vers.toList.any fun v => v.pins.any fun p => decide (0 < p.2)
  (sortBy (fun a b => a.handle.toNat < b.handle.toNat) pinned).map fun a =>
    let ps := (List.range 16).filter fun p => a.vers.toList.any fun v => decide (0 < countIn v.pins p)
    (a, ((ps.head?.bind fun p => currentVersion a p).map (·.num)).getD 0)

/-- The size of the summary record. -/
def summarySize : Nat := 47104

/-- The header. -/
def sumHeader (s : State) (live listed adapters : Nat) (cut : Nat) : List Byte :=
  leBytes 2 1 ++ leBytes 2 0 ++ leBytes 4 summarySize ++ leBytes 8 s.tick ++ leBytes 8 (fwWord s) ++ leBytes 8 s.flash.record.seq ++ leBytes 2 live
    ++ leBytes 2 listed ++ leBytes 2 adapters ++ leBytes 1 cut ++ leBytes 89 0

/-- The summary record of a cut. -/
def summary (s : State) : List Byte :=
  if s.phase = .recovery then
    padTo summarySize 0 (padTo 0x1790 0 (sumHeader s 0 0 0 4) ++ sumLogs s)
  else
    let out := sumOutstanding s
    let ads := sumAdapters s
    let migs := s.migrations.take 256
    let cut := (decide (4096 < out.length)).toNat + 2 * (decide (2048 < ads.length)).toNat
    sumHeader s s.migrations.length (min out.length 4096) (min ads.length 2048) cut
      ++ (List.range 16).flatMap (sumPart s) ++ (List.range 64).flatMap (sumWorld s) ++ (List.range 257).flatMap (sumQueue s)
      ++ (List.range 16).flatMap (sumLaunches s) ++ (List.range 8).flatMap (sumGroup s) ++ sumLogs s ++ leBytes 48 0
      ++ padTo 0x2000 0 (migs.flatMap (sumMigration s))
      ++ padTo 0x4000 0 ((out.take 4096).flatMap fun x => leBytes 2 x.1 ++ leBytes 2 x.2.toNat)
      ++ padTo 0x4000 0 ((ads.take 2048).flatMap fun x => leBytes 3 x.1.handle.toNat ++ leBytes 1 x.1.owner.toNat ++ leBytes 4 x.2.toNat)

/-! ### RESYNC (R125) -/

def resyncValid (h : HostCmd) (s : State) : Bool :=
  let _ := s
  hzero h 16 64

/-- RESYNC waits for the stroke tick at which it takes its cut; in recovery mode it answers at once. -/
def execResync (h : HostCmd) (s : State) : Out :=
  hostCommand h (resyncValid h) (fun s =>
    if s.phase = .recovery then (giveData h s (ptr0 h) (summary s), .now stOk 0) else (s, .later (.resync (ptr0 h)))) s

/-- A RESYNC that waits. -/
def resyncWaits (r : HostRun) : Bool :=
  match r.wait with
  | .resync _ => true
  | _ => false

/-- One RESYNC answered from a cut. -/
def answerResync (cut : List Byte) (s : State) (r : HostRun) : State :=
  match r.wait with
  | .resync a =>
    if r.queue = mailboxQueue then
      { s with mailbox := { s.mailbox with data := cellWrite [] 0 cut, busy := false, status := 0, result := 0 },
               hostRuns := s.hostRuns.filter fun x => x ≠ r }
    else
      let s := hostWrite s a cut
      { s with hostRuns := s.hostRuns.map fun x => if x = r then { x with done := true, wait := .none } else x }
  | _ => s

/-- The RESYNCs that wait take their cuts at a tick, in arrival order; a RESYNC is not listed in its own record. -/
def resyncAll (s : State) : State :=
  (s.hostRuns.filter resyncWaits).foldl (fun s r => answerResync (summary { s with hostRuns := s.hostRuns.filter fun x => x ≠ r }) s r) s

/-! ### QRESET (R121) -/

def qresetValid (h : HostCmd) (s : State) : Bool :=
  let _ := s
  hzero h 8 24 && hzero h 26 64

/-- The queue that a QRESET names. -/
def qresetQueue (h : HostCmd) : Nat :=
  if hfld h 25 1 = 0xFF then adminQueue else if 15 < hfld h 25 1 then mailboxQueue else 16 * hfld h 25 1 + hfld h 24 1

/-- One completion discarded. -/
def dropCompletion (q : Nat) (s : State) (ident : Nat) : State := raiseEvent s 0x08 (if q < 256 then some (q / 16) else none) none noRecord [q, ident]

/-- EN falls at once; completions of commands already fetched are discarded, those held at once. -/
def qresetAct (h : HostCmd) (s : State) : State × Answer :=
  let q := qresetQueue h
  if s.phase = .recovery then refuse s stBadcmd
  else if q < 256 && !(getPart s (q / 16)).present || 256 < q || (q < 256 && 15 < hfld h 24 1) then refuse s stNosuch
  else
    let s := putQueue s q { getQueue s q with en := false }
    let lost := heldOf s q
    let s := { s with held := s.held.filter (fun x => x.queue ≠ q), hostRuns := s.hostRuns.map fun r => if r.queue = q then { r with dropped := true } else r }
    (lost.foldl (fun s x => dropCompletion q s (recBytes x 0 2)) s, .now stOk 0)

def execQreset (h : HostCmd) (s : State) : Out := hostCommand h (qresetValid h) (qresetAct h) s

end Sys2Proof.Machine
end

