-- ==== Sys2Proof/Machine/SchedEvents.lean ====
section
/-! DEFINITION. The stroke tick and the acts of the partition schedulers, dispatchers and watchdogs (05_partitions_scheduler R142 to R162;
09_memory_model R289; 10_traps R313, R314). -/

namespace Sys2Proof.Machine

/-! ### STROKE_TICK (09 R289, 05 R154, R161) -/

/-- The SC vector of an instance of a scope: 1 clus, 2 dev. -/
def scInstance (scope : Nat) (c : CoreNo) : Nat := if scope = 1 then clusterOf c else 0

def scVector (s : State) (scope inst : Nat) : Counts := ((s.scVecs.find? fun x => x.1 = scope && x.2.1 = inst).map (·.2.2)).getD []

/-- One SC fence completes: its snapshot joins the SC vector of its scope, which its core then takes (R289, R281). -/
def completeFence (s : State) (f : ScFence) : State :=
  let i := scInstance f.scope f.core
  let v := mergeCounts (scVector s f.scope i) f.vec
  let s := { s with scVecs := (f.scope, i, v) :: s.scVecs.filter fun x => !(x.1 = f.scope && x.2.1 = i) }
  acquireInto s f.core v

/-- The fences whose marks the distributor holds complete, in ascending core number. -/
def completeFences (s : State) : State :=
  let due := sortBy (fun a b => a.core < b.core) (s.scFences.filter fun f => f.mark < s.now)
  due.foldl completeFence { s with scFences := s.scFences.filter fun f => s.now ≤ f.mark }

/-- A resident task whose watchdog counts at an edge (R161). -/
def watchCounts (k : Core) : Bool := k.task.isSome && k.hold ≠ .debug && !k.stopped

def countWatch (k : Core) : Core :=
  if watchCounts k then { k with sys := { k.sys with wdogCount := if k.sys.wdogCount = BitVec.allOnes 32 then k.sys.wdogCount else k.sys.wdogCount + 1 } } else k

/-- The ticks that launches spend in GATED, and islands in DRAIN. -/
def countTicks (s : State) : State :=
  { s with parts := s.parts.map (fun p => { p with launches := p.launches.map fun (l : Launch) => if l.st = .gated then { l with gated := l.gated + 1 } else l }),
           islands := s.islands.map fun (i : Island) => if i.st = .drain then { i with drained := i.drained + 1 } else i }

/-- One page that waits to be scrubbed is scrubbed at each tick (03 R108; the pace is the model's, log 21). -/
def scrubOne (s : State) : State :=
  match s.scrub with
  | [] => s
  | x :: rest =>
    { s with scrub := rest, mem := s.mem.filter (fun c => c.1 / 65536 ≠ x.1 / 65536), side := s.side.filter fun c => c.1 / 65536 ≠ x.1 / 65536 }

/-- STROKE_TICK: an edge. Ageing promotions come before it and watchdog expiries after it, each by its own event; stealing comes before placement. -/
def execStrokeTick (s : State) : Out :=
  let s := { s with tick := s.tick + 1, tickDue := false, tickWork := true }
  let s := countTicks (mapCores (fun _ k => countWatch k) (completeFences s))
  let s := scrubOne (resyncAll (sampleLaunches s))
  .next (placeAll (stealAll s))

/-! ### Launches (R145 to R148) -/

/-- The weight wait of a launch has reached its watchdog limit (R146). -/
def weightsLate (l : Launch) : Bool := l.st = .gated && launchField l 8 4 ≠ 0 && launchField l 8 4 ≤ l.gated

/-- WEIGHTS_LATE. -/
def execWeightsLate (s : State) : Out :=
  .next (modLaunch s s.ev.n (s.ev.v.setWidth 32) fun l =>
    if weightsLate l then { l with st := .failed, status := if l.status = 0 then BitVec.ofNat 8 stWeightsLate else l.status } else l)

/-- The check value by which the members know a launch that spans the domain: the same record is submitted on each (R144; log 13). -/
def meetKey (l : Launch) : Nat := crc32c (leBytes 256 l.bits.toNat)

/-- The rounds that a launch's outermost MEET has used no longer count. -/
def forgetMeets (l : Launch) (s : State) : State :=
  if launchLsd l then
    { s with meetHeard := (s.meetHeard.map fun x => if x.1 = meetKey l then (x.1, x.2.1, x.2.2 - l.meetDone) else x).filter fun x => x.2.2 ≠ 0 }
  else s

/-- LAUNCH_END: the launch that the event names is over. -/
def execLaunchEnd (s : State) : Out :=
  match findLaunch s s.ev.n (s.ev.v.setWidth 32) with
  | none => .next s
  | some l => .next (if launchOver s s.ev.n l then finishLaunch (forgetMeets l s) s.ev.n l else s)

/-! ### Dispatch (R149 to R153, R159) -/

/-- AGEING_PROMOTION of a gang. -/
def execAgeingPromotion (s : State) : Out :=
  match s.gangs.find? fun g => g.id = s.ev.n && promotable s g with
  | none => .next s
  | some g => .next (promote s g)

/-- Victims for `need` cores of some clusters, none while what is coming free suffices. -/
def victimsFor (s : State) (cls : List Nat) (need : Nat) : List Gang :=
  if need ≤ comingFree s cls then [] else pickVictims s cls need (victims s cls) (comingFree s cls) []

def stopVictims (s : State) (l : List Gang) : State := l.foldl (fun s g => stopGang s g.id reasonPreempt) s

/-- What a cluster's dispatcher does: it starts the head gang, or makes room for one of class 0. -/
def dispatchAct (s : State) (cl : Nat) : Option State :=
  match headGang s cl with
  | none => none
  | some g =>
    if canStart s cl g then startGang s g ((freeCores s cl).take g.tasks.length)
    else if g.dcls = 0 && g.dcls < reservedClass s cl then
      match victimsFor s [cl] g.tasks.length with
      | [] => none
      | l => some (stopVictims s l)
    else none

/-- GANG_DISPATCH of a cluster. -/
def execGangDispatch (s : State) : Out := .next ((dispatchAct s s.ev.n).getD s)

/-- The reservation of a partition, where its clusters are still the partition's. -/
def reservationOk (s : State) (p : Nat) : Bool := (getPart s p).reserved.all fun c => (partClusters (getPart s p)).contains c

/-- What a partition's scheduler does for its wide gangs: a reservation that has lost a cluster is given up, a new one is made, the gang starts, or one
of class 0 makes room. -/
def wideAct (s : State) (p : Nat) : Option State :=
  if !reservationOk s p then
    some (modPart { s with gangs := s.gangs.map fun g => if g.part = p && g.st = .wide then { g with cluster := noCluster } else g } p
      fun x => { x with reserved := [] })
  else
    match reserving s p with
    | none =>
      if (getPart s p).reserved.isEmpty then
        let t := reserveWide s p
        if (getPart t p).reserved.isEmpty then none else some t
      else some (modPart s p fun x => { x with reserved := [] })
    | some g =>
      let cls := (getPart s p).reserved
      let free := cls.flatMap (freeCores s)
      if g.tasks.length ≤ free.length then (startGang s g (free.take g.tasks.length)).map fun s => modPart s p fun x => { x with reserved := [] }
      else if g.dcls = 0 then
        match victimsFor s cls g.tasks.length with
        | [] => none
        | l => some (stopVictims s l)
      else none

/-- WIDE_GANG_START of a partition. -/
def execWideGangStart (s : State) : Out := .next ((wideAct s s.ev.n).getD s)

/-! ### Stopping (R157, R158) -/

/-- A task that found the pool full has stopped: it is saved, and its core is free while it waits (R157). -/
def parkCore (s : State) (c : CoreNo) : State :=
  match (getCore s c).task with
  | none => s
  | some t =>
    let s := saveCore (putCore s c { getCore s c with hold := .none }) c reasonPark
    let g := s.gangs.find? fun g => g.id = t.gang
    let x : Parked := { task := t, tick := s.tick, cluster := clusterOf c, dcls := (g.map (·.dcls)).getD 0, started := g.bind (·.started) }
    let s := modPart s t.part fun p => { p with parked := p.parked ++ [x] }
    let gangs := s.gangs.map fun g => if g.id = t.gang then { g with tasks := g.tasks.filter fun x => x ≠ t.task } else g
    { s with gangs := gangs.filter fun g => !(g.id = t.gang && g.tasks.isEmpty) }

/-- A core of the gang whose task is to be parked and has stopped. -/
def parkable (s : State) (id : Nat) : Option CoreNo := (gangCores s id).find? fun c => (getCore s c).hold = .parking && stoppedAt s c

/-- The reason for which a gang stops. -/
def stopReason (g : Gang) : Option Nat :=
  match g.st with
  | .stopping r => some r
  | _ => none

/-- PREEMPTION_SAVE of a gang: saved whole once it has stopped, or, where a task of it has failed, discarded (R147); or one task of it parked. -/
def execPreemptionSave (s : State) : Out :=
  match s.gangs.find? fun g => g.id = s.ev.n && (stopReason g).isSome && gangStopped s g.id with
  | some g => .next (if stopReason g = some reasonFail then dropGang s g.part g.launch g.idx else saveGang s g ((stopReason g).getD 0))
  | none =>
    match parkable s s.ev.n with
    | some c => .next (parkCore s c)
    | none => .next s

/-! ### Barriers and checkpoints (R142; 10 R313, R314) -/

/-- The core state of a task of a gang, resident or saved, with its core. -/
def taskState (s : State) (p : Nat) (launch task : BitVec 32) : Option (CoreNo × Core) :=
  match (coreNos s).find? fun c => match (getCore s c).task with
    | some t => t.part = p && t.launch = launch && t.task = task
    | none => false with
  | some c => some (c, getCore s c)
  | none => (findContext s p launch task).map fun x => (s.coreId, x.core)

/-- A task's context and map copies written to its checkpoint area. -/
def writeCkpt (p : Nat) (l : Launch) (s : State) (x : CoreNo × Core) : State :=
  match x.2.task with
  | none => s
  | some t =>
    let w := launchWorld l
    let a := ckptArea l t.task
    let s := (contextImage s x.1 x.2 t 1 0).foldl (fun s y => devWriteAll s w (a + y.1) y.2 none) s
    (s.maps.filter fun m => m.part = p && mapsOf t m).zipIdx.foldl (fun s m =>
      devWriteAll s w (a + 0x110000 + m.2 * 0x40000) (m.1.entries.flatMap fun e => leBytes 4 (e.2 + e.1.toNat * 2 ^ 31)) none) s

/-- A command deferred to the checkpoint takes effect: ADUNPIN (0x21) or KFREE (0x29). -/
def laterEffect (p : Nat) (s : State) (c : Cmd) : State := if cmdCode c.bits = 0x21 then adunpinEffect c p s else kfreeEffect c p s

/-- The checkpoint of a gang. -/
def takeCkpt (p : Nat) (l : Launch) (lv no : Nat) (s : State) : State :=
  let states := (liveTasks s p l lv no).filterMap fun t => taskState s p l.num t
  let s := states.foldl (writeCkpt p l) s
  let mine (k : Ckpt) : Bool := k.part = p && k.launch = l.num && k.idx = no
  let later := ((s.ckpts.find? mine).map (·.later)).getD []
  let s := later.foldl (laterEffect p) s
  let contexts : List Context := states.filterMap fun x => x.2.task.map fun t => { task := t, st := 1, reason := 0, core := x.2 }
  let as := s.arrivals.filter fun a => a.part = p && a.launch = l.num && a.level = lv && gangAt l lv a.task = no
  { s with ckpts := s.ckpts.map fun k =>
      if mine k then
        { k with ord := k.ord + 1, rolls := 0, irrev := false, contexts := contexts, arrivals := as, log := [], later := [], pins := [], seqs := [],
                 maps := s.maps.filter fun m => contexts.any fun x => m.part = p && mapsOf x.task m }
      else k }

/-- The barrier's completion takes a checkpoint (R313). -/
def barrierCkpt (s : State) (p : Nat) (l : Launch) (lv no : Nat) : Bool :=
  launchCkpt l && ckptLevel l = some lv
    && ((openArrivals s p l lv no).any (·.ckpt) || s.ckpts.any fun k => k.part = p && k.launch = l.num && k.idx = no && logHalf k)

/-- The members of the domain other than this package, by rank. -/
def domainOthers (s : State) : List (Nat × Nat) :=
  match lsdGroup s with
  | some g => (rankNodes g).zipIdx.filter fun x => x.1 ≠ s.node.toNat
  | none => []

/-- The rounds of a launch's outermost MEET that a rank has announced. -/
def roundsHeard (s : State) (key rank : Nat) : Nat := ((s.meetHeard.find? fun x => x.1 = key && x.2.1 = rank).map (·.2.2)).getD 0

/-- Every other member has announced the round of the outermost MEET that stands open here. -/
def meetAgreed (s : State) (l : Launch) : Bool := (domainOthers s).all fun x => l.meetDone < roundsHeard s (meetKey l) x.2

/-- This package's part of the outermost MEET is ready: the other members hear of it through the collective engine (R144; log 13). -/
def announceMeet (p : Nat) (l : Launch) (s : State) : State :=
  match lsdGroup s with
  | none => s
  | some g =>
    let s := modLaunch s p l.num fun x => { x with meetSent := x.meetDone + 1 }
    (domainOthers s).foldl (fun s x =>
      sendFlit s (some p) x.1 flitColData (launchWorld l) g.num.toNat g.view.toNat 0 [(colMeet + meetKey l * 2 ^ 8, 0)]) s

/-- A barrier may complete: on this package, and for a level of the load-store domain on every member of it (R142, R144). -/
def meetReady (s : State) (p : Nat) (l : Launch) (lv no : Nat) : Bool :=
  barrierReady s p l lv no && (levelDomain l lv ≠ 4 || (l.meetDone < l.meetSent && meetAgreed s l))

/-- BARRIER_COMPLETE of an instance of a level of a launch. -/
def execBarrierComplete (s : State) : Out :=
  let p := s.ev.n
  let lv := s.ev.k
  let no := s.ev.list.headD 0
  match findLaunch s p (s.ev.v.setWidth 32) with
  | none => .next s
  | some l =>
    if !meetReady s p l lv no then .next s
    else
      let ck := barrierCkpt s p l lv no
      let s := completeBarrier s p l lv no
      let s := if levelDomain l lv = 4 then modLaunch s p l.num (fun x => { x with meetDone := x.meetDone + 1 }) else s
      .next (if ck then takeCkpt p l lv no s else s)

/-! ### WATCHDOG_EXPIRY (R162) -/

/-- The count has reached the limit. -/
def watchExpired (k : Core) : Bool := watchCounts k && k.sys.wdogLimit ≠ 0 && k.sys.wdogLimit.toNat ≤ k.sys.wdogCount.toNat

/-- A task that stands at a cut already takes the trap there: it leaves the fault queue, and its record is written anew. -/
def heldTrap (t : Trap) (s : State) : State :=
  let u := getCluster s (clusterOf s.coreId)
  let s := putCluster s { u with faultQ := u.faultQ.filter fun e => !(e.core = s.coreId && e.cmd.isNone) }
  match taskLaunch s with
  | none => enterSupervisor t (inHandler s) s
  | some l =>
    if launchSave l = 0 then failTask (causeCode t.cause) s
    else
      match writeRecord t (inHandler s) s with
      | none => failTask (causeCode t.cause) s
      | some s => enterSupervisor t (inHandler s) s

/-- A trap of the supervisor taken at a task in whatever stand it is. -/
def takeHeld (t : Trap) (s : State) : State :=
  match s.core.hold with
  | .none | .handler | .parking => takeTrap t s
  | .supervisor _ => s
  | _ => heldTrap t s

/-- WATCHDOG_EXPIRY of a core, at the edge's cycle. -/
def execWatchdogExpiry (s : State) : Out :=
  let s := focus s s.ev.core
  if watchExpired s.core then .next (takeHeld { cause := .watchdog, pc := s.core.pc } s) else .next s

end Sys2Proof.Machine
end

