-- ==== Sys2Proof/Machine/StripEvents.lean ====
section
/-! DEFINITION. The acts of the column sequencers: loading strip bodies, starting groups, ending repeats, and the gating of the array (06_core R170 to
R173, R193; 08_formats R246; 01_package R22 to R29). -/

namespace Sys2Proof.Machine

/-! ### STRIP_BODY_LOAD (R170) -/

/-- The words that the strip store of a column holds. -/
def stripStore : Nat := 8192

def bodyWords (q : QStrip) : Nat := if q.body.isSome then q.len else 0

/-- Words taken in the store: the running strip and the loaded ones. -/
def storeUsed (q : ColSeq) : Nat := ((q.run.map fun r => r.body.length).getD 0) + (q.queue.map bodyWords).foldl (· + ·) 0

/-- The queued strip to be loaded next, by its place: the first whose body is not loaded, where it fits. -/
def loadNext (q : ColSeq) : Option (Nat × QStrip) :=
  match q.queue.zipIdx.find? fun x => x.1.body.isNone with
  | none => none
  | some (x, i) => if x.fault.isSome || stripStore < storeUsed q + x.len then none else some (i, x)

/-- The page of a body that the core's translation buffer lacks, where a walk finds it: a body takes two pages at most. -/
def bodyMiss (s : State) (x : QStrip) : Option Pte :=
  let w := s.core.sys.world
  [(x.hdr + 4).toNat, (x.hdr + 4).toNat + 4 * (x.len - 1)].findSome? fun a => if tlbHolds s.core w a then none else findPte s w a

/-- STRIP_BODY_LOAD: the walk of a page of the body, or the load, whose fault is held at the queue entry. -/
def execStripBodyLoad (s : State) : Out :=
  let col := s.ev.col
  let s := focus s s.ev.core
  let q := getCol s.core col
  match loadNext q with
  | none => .next s
  | some (i, x) =>
    match bodyMiss s x with
    | some p => .next (modCore (tlbFill p) s)
    | none =>
      let x :=
        match fetchBody s x.len (x.hdr + 4) with
        | .ok l => { x with body := some l }
        | .error f => { x with fault := some { cause := f.cause, source := colOrder col, pc := x.hdr, addr := f.addr, detail := f.detail } }
      .next (modCore (setCol col { q with queue := q.queue.set i x }) s)

/-! ### STRIP_GROUP_START (R171) -/

/-- The group that the head of a column's queue belongs to, where that head can start: loaded, closed in an earlier cycle, its column idle. -/
def headReady (k : Core) (c : Cycle) (g : Grp) (col : Col) : Bool :=
  let q := getCol k col
  match q.queue with
  | [] => false
  | x :: _ => x.grp = g.id && x.body.isSome && q.run.isNone && (q.ordinal = 0 || q.lastIssue < c)

/-- This cycle of the core's island begins now, and a boundary of `n` cycles of the 1.6 GHz clock lies at or before it but after its last (R171). -/
def atBoundary (s : State) (n : Nat) : Bool :=
  let i := getIsland s (islandOf s.coreId)
  i.acc < i.cur && s.now % n < (i.acc + 1600) / i.cur

/-- A group's alignment is met in this cycle. -/
def aligned (s : State) (a : Nat) : Bool :=
  match a with
  | 0 => true
  | 1 => atBoundary s 1024
  | _ => atBoundary s 4096

/-- A hold of R22, R23, R28 or R29 applies to the strips of the core in focus. -/
def stripsHeld (s : State) : Bool :=
  let n := islandOf s.coreId
  let bases := match s.core.task with
    | some t => baseIslands s t.part
    | none => []
  let cls := ((taskLaunch s).map launchClass).getD 0
  s.powerTripped || (getIsland s n).st ≠ .steady || s.heldStrips.contains (n, cls)
    || bases.any fun b => (getIsland s b).st ≠ .steady || (getIsland s b).cur < 1600

/-- The group that starts on the core in focus in this cycle. -/
def startable (s : State) : Option Grp :=
  let c := cyc s
  s.core.groups.find? fun g =>
    (match g.closed with
      | some a => a < c
      | none => false)
    && g.cols.all (headReady s.core c g) && aligned s g.align && !stripsHeld s && !stopAsked s s.coreId

/-- A strip leaves its queue and runs: its first word issues after its gap. -/
def startStrip (c : Cycle) (k : Core) (col : Col) : Core :=
  let q := getCol k col
  match q.queue with
  | [] => k
  | x :: rest =>
    let body := x.body.getD []
    let r : Running := { hdr := x.hdr, grp := x.grp, body := body, count := x.count, rep := 0, idx := 0, next := c + gapAt body 0 }
    setCol col { q with queue := rest, run := some r, ordinal := q.ordinal + 1 } k

/-- The generator of stochastic rounding seeded for a group with a C strip (08 R246). -/
def seedSr (k : Core) : Core :=
  let y := k.sys
  let x := y.srSeed ^^^ BitVec.ofNat 32 (y.taskId.toNat % 2 ^ 32 * 0x9E3779B9) ^^^ y.srOrdinal
  { k with sys := { y with srState := if x = 0 then 0x9E3779B9 else x, srOrdinal := y.srOrdinal + 1 } }

/-- Engine entries in anchor mode 1 pushed in an earlier cycle take this start as their anchor (R177). -/
def anchorPushed (c : Cycle) (k : Core) : Core :=
  { k with engQ := k.engQ.map fun (q : List QCmd) => q.map fun (e : QCmd) =>
      if e.anchor.isNone && cmdMode e.bits && e.pushed < c then { e with anchor := some c } else e }

/-- A group starts: strip pins are taken and the generator is seeded where it has a C strip. -/
def startGroup (g : Grp) (s : State) : State :=
  let c := cyc s
  let s := modCore (fun k => anchorPushed c (g.cols.foldl (startStrip c) { k with groups := k.groups.filter fun x => x.id ≠ g.id })) s
  let s := if g.cols.contains .colL then modCore (fun k => { k with missed := [] }) s else s
  if g.cols.contains .colC then pinStrip (modCore seedSr s) else s

/-- The fault of a strip that has come to the head of an idle column (R170). -/
def headFault (k : Core) (c : Cycle) (col : Col) : Option Trap :=
  let q := getCol k col
  match q.queue with
  | x :: _ => if q.run.isNone && (q.ordinal = 0 || q.lastIssue < c) then x.fault else none
  | [] => none

/-- The column whose strip cannot be loaded, first in the stream order, with the fault. -/
def faultyHead (s : State) : Option (Col × Trap) :=
  [Col.colL, .colC, .colW].findSome? fun c => (headFault s.core (cyc s) c).map fun t => (c, t)

/-- The fault of a column's head taken out, to be met afresh when the task resumes. -/
def clearFault (col : Col) (k : Core) : Core :=
  let q := getCol k col
  setCol col { q with queue := q.queue.map fun x => { x with fault := none } } k

/-- STRIP_GROUP_START of a core: a group starts, or a strip that cannot be loaded traps. -/
def execStripGroupStart (s : State) : Out :=
  let s := focus s s.ev.core
  match faultyHead s with
  | some (col, t) => .next (takeTrap t (modCore (clearFault col) s))
  | none =>
    match startable s with
    | some g => .next (startGroup g s)
    | none => .next s

/-! ### STRIP_REPEAT_END (R172) -/

/-- The address registers of a column (R165). -/
def columnERegs (c : Col) : List (BitVec 4) :=
  match c with
  | .colL => [0, 1, 2, 3, 4, 5, 6, 7]
  | .colC => []
  | .colW => [8, 9, 10, 11, 12, 13, 14, 15]

def strideOne (s : State) (n : BitVec 4) : State :=
  let e := readE s n
  writeE n { e with addr := e.addr + e.stride.signExtend 48 } s

/-- The last word of the repeat has issued. -/
def repeatOver (s : State) (k : Core) (c : Col) : Bool :=
  let _ := s
  match (getCol k c).run with
  | none => false
  | some r => r.body.length ≤ r.idx

/-- STRIP_REPEAT_END of a column: its address registers advance, and the next repeat begins or the strip ends. -/
def execStripRepeatEnd (s : State) : Out :=
  let col := s.ev.col
  let s := focus s s.ev.core
  if !repeatOver s s.core col then .next s
  else
    let s := (columnERegs col).foldl strideOne s
    let q := getCol s.core col
    match q.run with
    | none => .next s
    | some r =>
      if r.rep + 1 < r.count then
        .next (modCore (setCol col { q with run := some { r with rep := r.rep + 1, idx := 0, next := r.next + gapAt r.body 0 } }) s)
      else
        let s := modCore (setCol col { q with run := none }) s
        .next (if col = .colC then unpinStrip s else s)

/-! ### SUBARRAY_GATE (R193) -/

/-- The array has stood idle for GATE_CTL.IDLE times 16 cycles. -/
def gateDue (s : State) (c : CoreNo) : Bool :=
  let k := getCore s c
  k.sys.gateIdle ≠ 0 && !k.units.gated && k.units.lastUse + 16 * k.sys.gateIdle.toNat ≤ cycOf s c

def execSubarrayGate (s : State) : Out :=
  let s := focus s s.ev.core
  .next (if gateDue s s.coreId then modCore (fun k => { k with units := { k.units with gated := true } }) s else s)

end Sys2Proof.Machine
end

