-- ==== Sys2Proof/Machine/MemoryEvents.lean ====
section
/-! DEFINITION. Memory traffic that completes: calendar slots donated, missed, read and accepted (02_memory_tiers R53 to R57), untimed loads and column
stores (15_isa_memory R414, R427, R432), translation walks (R413) and the closing of aggregation windows (07_serving_structures R232). -/

namespace Sys2Proof.Machine

/-! ### Calendar slots -/

/-- A timed request has claimed the slot of a channel that starts at `t`. -/
def slotClaimed (s : State) (ch t : Nat) : Bool :=
  (coreNos s).any fun c => (getCore s c).timed.any fun x => x.channel = ch && x.start = t && !x.late

/-- A slot of a channel that starts at `t` has been donated. -/
def isDonated (s : State) (ch t : Nat) : Bool := s.donated.any fun d => d.channel = ch && d.start = t

/-- SLOT_DONATION: the next occurrence of a slot, within 16 cycles of its start and claimed by no timed request, is given to the slot owner's other
traffic (R55). -/
def execSlotDonation (s : State) : Out :=
  let t := slotStart s.ev.k s.now
  let d : Donation := { channel := s.ev.n, start := t, use := donationUse s s.ev.n s.ev.k }
  .next (if s.ev.k < 256 && t ≤ s.now + 16 && !slotClaimed s s.ev.n t && !isDonated s s.ev.n t then
      { s with donated := s.donated.filter (fun x => s.now ≤ x.start) ++ [d] } else s)

/-- A request whose slot has not served it. -/
def unserved (s : State) (t : Timed) : Bool := t.late || (s.now ≤ t.start && t.sample.isNone)

/-- A write of the core to a line of the request comes before it in core order and is not accepted: the request's write follows it (09 R271). -/
def behindOwn (k : Core) (t : Timed) : Bool :=
  k.timed.any fun x => x.isWrite && x.instr < t.instr && x.pa < t.pa + 512 && t.pa < x.pa + 512

/-- SLOT_MISS of a request that finds the calendar interface full, or waits for a translation (R54, R66). -/
def execSlotMiss (s : State) : Out :=
  let s := focus s s.ev.core
  match s.core.timed[s.ev.n]? with
  | none => .next s
  | some t => .next (if unserved s t then modCore (fun k => missSlot (noteMissed k t) s.ev.n) s else s)

/-- A timed read has been read and its last byte is due. -/
def readDue (s : State) (t : Timed) : Bool := !t.isWrite && !t.late && t.start + readLatency ≤ s.now

/-- A timed write of core `k` is due to be accepted. -/
def writeDue (s : State) (k : Core) (t : Timed) : Bool := t.isWrite && !t.late && t.start + acceptLatency ≤ s.now && !behindOwn k t

/-- A request leaves the calendar. -/
def dropTimed (i : Nat) (k : Core) : Core := { k with timed := k.timed.eraseIdx i }

/-- TIMED_READ_DELIVERY. -/
def execTimedReadDelivery (s : State) : Out :=
  let s := focus s s.ev.core
  match s.core.timed[s.ev.n]? with
  | none => .next s
  | some t => .next (if readDue s t then deliver t (modCore (dropTimed s.ev.n) s) else s)

/-- A line of a timed store that failed is answered to its core as a trap of the W column (15 R414, R424). -/
def answerStore (t : Timed) (fail : Option Failed) (s : State) : State :=
  match fail with
  | none => s
  | some f =>
    let x : Trap := { cause := f.cause, source := 3, pc := t.word, addr := BitVec.ofNat 64 (f.addr.toNat / 64 * 64), detail := f.detail }
    let c := cyc s
    modCore (fun k => if k.task.isSome then { k with deferred := k.deferred ++ [(c, x)] } else k) s

/-- TIMED_WRITE_ACCEPT. -/
def execTimedWriteAccept (s : State) : Out :=
  let s := focus s s.ev.core
  match s.core.timed[s.ev.n]? with
  | none => .next s
  | some t =>
    if !writeDue s s.core t then .next s
    else
      let (fail, s) := acceptWrite t (performBefore t (modCore (dropTimed s.ev.n) s))
      .next (answerStore t fail s)

/-! ### Untimed loads and column stores -/

/-- Every line of a load has come. -/
def loadComplete (u : ULoad) : Bool := u.wait.isEmpty && u.lines.all fun l => u.got.any fun g => g.1 = lineOf l.1

/-- UNTIMED_LOAD_ARRIVAL. -/
def execUntimedLoadArrival (s : State) : Out :=
  let s := focus s s.ev.core
  match s.core.loads[s.ev.n]? with
  | none => .next s
  | some u => .next (if u.due ≤ cyc s && loadComplete u then deliverLoad u s else s)

/-- STORE_PERFORMED: the next line of the core's oldest store, where nothing holds it. -/
def execStorePerformed (s : State) : Out := .next (if storeReady s s.ev.core then performLine (focus s s.ev.core) else s)

/-! ### TRANSLATION_WALK_DONE (15 R413) -/

/-- What a walk returns for an address: a page, or the place of a sequence entry. -/
def walkResult (s : State) (va : Nat) : Option Pte :=
  if seqKey 0 ≤ va then some (seqPage s.core.sys.world ((va - seqKey 0) / 65536)) else findPte s s.core.sys.world va

/-- A trap taken at the cut that stands already. -/
def trapAtCut (t : Trap) (s : State) : State :=
  match taskLaunch s with
  | none => enterSupervisor t (inHandler s) s
  | some l =>
    if launchSave l = 0 then failTask (causeCode t.cause) s
    else
      match writeRecord t false s with
      | none => failTask (causeCode t.cause) s
      | some s => enterFaultQueue t s

/-- What held a task at its cut is over: it goes on from there in cycle `r`, but stays stopped where a debug stop came meanwhile (10 R321). -/
def goOn (r : Cycle) (s : State) : State :=
  if s.core.stopped then modCore (fun k => { k with hold := .debug }) s else pinAgain (resumeAt r s)

/-- The walks of a translation stall have returned: the task goes on from its cut, or raises the fault of the first that failed. -/
def walksDone (pages : List Nat) (t : Trap) (s : State) : State :=
  let s := modCore (fun k => pages.foldl (fun k va => match walkResult s va with
    | some p => tlbFill p k
    | none => k) k) s
  match pages.find? fun va => (walkResult s va).isNone with
  | none => goOn (cyc s + 1) s
  | some va => trapAtCut { t with addr := BitVec.ofNat 64 va } s

/-- The walks of a core's stall have returned: none of a page that is being switched returns before the switch (02 R65 step 4). -/
def walksBack (s : State) (c : CoreNo) : Bool :=
  let t := focus s c
  match t.core.hold with
  | .walk pages due _ => due ≤ cyc t && pages.all fun va => !pageSwitches t va
  | _ => false

def execTranslationWalkDone (s : State) : Out :=
  let b := walksBack s s.ev.core
  let s := focus s s.ev.core
  match s.core.hold with
  | .walk pages _ t => .next (if b then walksDone pages t s else s)
  | _ => .next s

/-! ### AAGG_WINDOW_CLOSE (07 R232, 15 R419) -/

/-- The participants in ascending core number, each with the sum of the addends before its own, and the sum of all. -/
def aggSums (ps : List Participant) : List (Participant × Nat) × Nat :=
  (sortBy (fun a b => a.core < b.core) ps).foldl (fun acc p => (acc.1 ++ [(p, acc.2)], acc.2 + p.addend.toNat)) ([], 0)

/-- Each participant receives the pre-value and the addends before its own, about 20 cycles later (log 8). -/
def aggAnswer (ps : List Participant) (size pre : Nat) (s : State) : State :=
  let (d, s) := drawDelay s
  (aggSums ps).1.foldl (fun s x => sComplete x.1.core x.1.dest (BitVec.ofNat 64 ((pre + x.2) % 2 ^ (8 * size))) (20 + d) s) s

/-- A failure of the target at the close is a precise trap of each participant that still stalls. -/
def aggFail (ps : List Participant) (f : Failed) (s : State) : State :=
  ps.foldl (fun s p =>
    let s := focus s p.core
    if s.core.hold = .none && s.core.phase = awaiting then sFail f (modCore (fun k => { k with phase := 0 }) s) else sRetry p.core s) s

/-- One participant's side of the combined add on a memory word: its acquire, and its release point where a fence has armed it (09 R275, R279 to
R281). The release points follow in ascending core number, each merging the one before it through the line's race field. -/
def aggOrder (l : Nat) (s : State) (p : Participant) : State :=
  match assocGet s.side l with
  | none => s
  | some d =>
    let x := acquireFrom s p.core p.scope d
    let k := getCore s p.core
    let s := if p.acquire then acquireInto s p.core x else putCore s p.core { k with race := { k.race with p := mergeCounts k.race.p x } }
    if !(getCore s p.core).relArmed then s
    else
      let s := releasePoint s p.core p.scope .releaseWrite (releaseMore s d)
      let k := getCore s p.core
      let d := { d with writer := BitVec.ofNat 10 p.core, sync := k.race.own }
      { putCore s p.core { k with relArmed := false } with side := assocPut s.side l d }

/-- The combined add at a memory word of this package. -/
def aggHome (w : Window) (s : State) : State :=
  let first := (w.parts.headD { core := 0, dest := 0, addend := 0, acquire := false, scope := 0 }).core
  let world := (getCore s first).sys.world
  match findPte s world w.va.toNat with
  | none => aggFail w.parts (failAt .unmapped w.va.toNat) s
  | some p =>
    let l := lineAt s w.addr p.keySlot
    if !worldReads s world p l || !worldWrites s world p l then aggFail w.parts (failAt .world w.va.toNat) s
    else if l.poison then aggFail w.parts (failAt .poison (w.va.toNat / 64 * 64)) (notePoison s w.addr first)
    else
      let pre := leNat ((l.bytes.drop (w.addr % 64)).take w.size)
      let sum := (pre + (aggSums w.parts).2) % 2 ^ (8 * w.size)
      let bytes := (leBytes w.size sum).zipIdx.map fun q => (w.addr % 64 + q.2, q.1)
      let s := writeLine s w.addr bytes world none false p.keySlot (getCore s first).task
      let s := (sortBy (fun a b => a.core < b.core) w.parts).foldl (aggOrder (lineOf w.addr)) s
      aggAnswer w.parts w.size pre s

/-- The core that opened a window. -/
def Window.first (w : Window) : CoreNo := (w.parts.map (·.core)).headD 0

/-- The combined add at a routing counter: an access that takes the bank, where the bank has been released since (07 R230). -/
def aggCounter (w : Window) (s : State) : State :=
  let u := getCluster s w.cluster
  let world := (getCore s w.first).sys.world
  if u.world.any fun x => x ≠ world then aggFail w.parts (failAt .world w.addr) s
  else
    let i := counterAt w.addr
    let pre := ((assocGet u.counters i).getD 0).toNat
    let v : Word := BitVec.ofNat 32 (pre + (aggSums w.parts).2)
    aggAnswer w.parts 4 pre
      (putCluster s { u with world := some world, counters := if v = 0 then assocDel u.counters i else assocPut u.counters i v })

/-- The combined add sent to the home package as one atomic of scope dom (03 R87). -/
def aggRemote (w : Window) (s : State) : State :=
  match w.parts with
  | [] => s
  | p :: _ =>
    let s := w.parts.foldl (fun s q => irrevocableOf q.core s) s
    startRemote s { remoteOf (focus s p.core) w.addr w.va.toNat p.dest w.size false with
                    isAtomic := true, operand := BitVec.ofNat 64 (aggSums w.parts).2, agg := w.parts }
where
  /-- The participant's checkpoint interval is irrevocable (10 R316). -/
  irrevocableOf (c : CoreNo) (s : State) : State :=
    match (getCore s c).task with
    | some t => modCkpt s t fun k => { k with irrev := true }
    | none => s

/-- A window closes 16 cycles after it opened; a combined add that a repair, a switch or a sweep holds at its line follows when that is over. -/
def windowOver (s : State) (w : Window) : Bool :=
  w.close ≤ cycOf s (16 * w.cluster) && (w.isCounter || isRemote s w.addr || !writeWaits s w.first w.addr)

/-- AAGG_WINDOW_CLOSE of the window that the event names. -/
def execAaggWindowClose (s : State) : Out :=
  match s.windows[s.ev.n]? with
  | none => .next s
  | some w =>
    if !windowOver s w then .next s
    else
    let s := { s with windows := s.windows.eraseIdx s.ev.n }
    .next (if w.isCounter then aggCounter w s else if isRemote s w.addr then aggRemote w s else aggHome w s)

end Sys2Proof.Machine
end

