-- ==== Sys2Proof/Machine/Clock.lean ====
section
/-! DEFINITION. The clocks: a cycle of the 1.6 GHz clock, the cycles of the islands, and what happens on a core as its cycle ends and the next begins
(00_scope R8; 01_package R21 to R23; 06_core R181, R196; 09_memory_model R272, R273). -/

namespace Sys2Proof.Machine

/-- An island after a cycle of the 1.6 GHz clock, and whether a cycle of its own has begun. Its clock stands still in RELOCK. -/
def islandStep (i : Island) : Island × Bool :=
  if i.st = .relock then (i, false)
  else if 1600 ≤ i.acc + i.cur then ({ i with cycles := i.cycles + 1, acc := i.acc + i.cur - 1600 }, true)
  else ({ i with acc := i.acc + i.cur }, false)

/-- Ticks of the stroke clock up to a cycle of the 1.6 GHz clock (R8). -/
def tickAt (strokeNs : Nat) (t : Cycle) : Nat := t * 5 / (8 * strokeNs)

/-- The islands that begin a cycle. -/
def advancing (s : State) (n : Nat) : Bool := (islandStep (getIsland s n)).2

/-- Cycle `old` of a core ends, and the next begins: effects land in stream order, and the flags of the cycle that ended are the ones seen. -/
def turnCore (old : Cycle) (k : Core) : Core :=
  let k := commitFx old k
  armTraps (old + 1) (startFx (old + 1) { k with flagsPrev := k.flags })

/-- A task that waited for its work to complete goes on: into the user handler 40 cycles later, or from its cut once the reissued producers have
landed (10_traps R299, R305). -/
def wakeCore (s : State) : State :=
  match s.core.hold with
  | .entering t => if quiet s then startHandler t s else s
  | .reissue => if reissueLanded s.core then goOn (cyc s) s else s
  | _ => s

/-- A core of an island that begins a cycle. -/
def coreTurn (s : State) (c : CoreNo) : State :=
  let s := dueUnpins c (modCore (turnCore (cyc s - 1)) (focus s c))
  wakeCore (focus s c)

/-- The clocks after one more cycle of the 1.6 GHz clock. -/
def clocks (s : State) : State :=
  let t := s.now + 1
  { s with now := t, islands := s.islands.map fun i => (islandStep i).1, tickWork := false,
           tickDue := s.tickDue || decide (tickAt s.strokeNs s.now < tickAt s.strokeNs t) }

/-- One cycle of the 1.6 GHz clock. -/
def clockStep (s : State) : State :=
  let moving := (coreNos s).filter fun c => advancing s (islandOf c)
  let t := focus (moving.foldl coreTurn (clocks s)) s.coreId
  sampleKeys t (mapCores (sampleCore t) t)

end Sys2Proof.Machine
end

