-- ==== Sys2Proof/Machine/ColumnCommon.lean ====
section
/-! DEFINITION. The words common to the columns: queues, flags and NOPG (11_isa_formats R338, 13_isa_vector R392). -/

namespace Sys2Proof.Machine

/-- The payload register that a selector names: its class, and the rest. -/
def selClass (o : CQ) : Nat := o.sel.toNat / 8192
def selV (o : CQ) : BitVec 5 := o.sel.extractLsb' 0 5
def selE (o : CQ) : BitVec 4 := o.sel.extractLsb' 0 4
def selAh (o : CQ) : BitVec 2 := o.sel.extractLsb' 3 2
def selElem (o : CQ) : Nat := o.sel.toNat % 8

/-- The whole address doubleword of an e register, tag included (11 R326). -/
def eWord (e : EReg) : Dword := e.tag ++ e.addr

/-- What a QPUT appends: payload, token bit, poison. -/
def putEntry (o : CQ) (s : State) : Chk QEntry :=
  let c := cyc s
  match selClass o with
  | 0 => .ok { payload := 0, token := true, poison := false, stamp := c }
  | 1 => .ok { payload := eWord (readE s (selE o)), token := false, poison := false, stamp := c }
  | 2 => (vReady s (selV o)).map fun r => { payload := BitVec.ofNat 64 r.data.toNat, token := false, poison := r.poison, stamp := c }
  | 3 => .ok { payload := ((readAh s (selAh o)).handles.toList.getD (selElem o) 0).zeroExtend 64, token := false, poison := false, stamp := c }
  | _ => .error (trapOf .illegal)

/-- QPUT of a column: a full queue blocks. -/
def execColQput (o : CQ) (s : State) : Out :=
  let q := readQ s o.q
  if !queueHasRoom q (cyc s) then .next (colBlock o.col s)
  else runCol o.col s ((putEntry o s).map fun e => colNext o.col (writeQ o.q (queuePush q e) s))

/-- A handle element written by QGET, with its pin (R392, 07 R205). -/
def getHandle (o : CQ) (x : Dword) (s : State) : State :=
  let n := selAh o
  let r := readAh s n
  let new := r.handles.setIfInBounds (selElem o) (BitVec.ofNat 32 (x.toNat % 2 ^ 24))
  let pinned := pinGroup n.toNat (selElem o) (modCore (fun k => { k with ah := k.ah.set n.toNat { r with handles := new } n.isLt }) s)
  let back := modCore (fun k => { k with ah := k.ah.set n.toNat { (k.ah[n.toNat]'n.isLt) with handles := r.handles } n.isLt }) pinned
  post (cyc s) (colOrder o.col) (.handles n new) back

/-- What a QGET does with the head of its queue. -/
def getEntry (o : CQ) (e : QEntry) (s : State) : Chk State :=
  let c := cyc s
  let x : Dword := if e.token then 0 else e.payload
  match selClass o with
  | 0 => .ok s
  | 1 => do
    unpoisoned e.poison
    .ok (writeE (selE o) { readE s (selE o) with addr := x.extractLsb' 0 48, tag := x.extractLsb' 48 16 } s)
  | 2 => do
    let r ← vReady s (selV o)
    let data := r.data.toNat - r.data.toNat % 2 ^ 64 + x.toNat
    .ok (post c (colOrder o.col) (.vWrite (selV o) (BitVec.ofNat 65536 data) r.tag r.rows r.cols (r.poison || e.poison) false) s)
  | 3 => do
    need (!ctxOpen s (readA s (selAh o)).ctx) (trapOf .illegal)
    unpoisoned e.poison
    .ok (getHandle o x s)
  | _ => .error (trapOf .illegal)

/-- QGET of a column: an empty queue blocks, and an entry whose word traps stays in the queue. -/
def execColQget (o : CQ) (s : State) : Out :=
  let q := readQ s o.q
  match queueReadable q (cyc s) with
  | [] => .next (colBlock o.col s)
  | e :: _ => runCol o.col s ((getEntry o e s).map fun t => colNext o.col (writeQ o.q (queuePop q (cyc s)) t))

def execColFset (o : CF) (s : State) : Out := .next (colNext o.col (modCore (flagPut o.f.toNat true) s))
def execColFclr (o : CF) (s : State) : Out := .next (colNext o.col (modCore (flagPut o.f.toNat false) s))

/-- FWAIT of a column: it completes in the first cycle in which the flag has the awaited value; observing a flag that commands set joins them (09 R281,
R283). -/
def execColFwait (o : CFW) (s : State) : Out :=
  if flagSeen s.core o.f.toNat = (o.v = 1) then .next (colNext o.col (if o.v = 1 then joinFlag o.f.toNat s else s)) else .next (colBlock o.col s)

/-- NOPG: the next word counts from `n` cycles later. -/
def execNopg (o : CN) (s : State) : Out := .next (colNextAfter o.col o.n.toNat s)

end Sys2Proof.Machine
end

