-- ==== Sys2Proof/Machine/EngineAttn.lean ====
section
/-! DEFINITION. Slice attention (07_serving_structures R215, R216, R220 to R223; 16_isa_engines R448; 02_memory_tiers R40). -/

namespace Sys2Proof.Machine

/-! ### Sequences -/

/-- An entry of a partition's sequence table. -/
def findSeq (s : State) (part n : Nat) : Option Seq := (getPart s part).seqs.find? fun q => q.num = n

/-- The bytes of a key or value of `d` elements in a format (R215). -/
def kvBytes (fmt d : Nat) : Nat := if fmt = tagSe7 then d + d / 16 * 2 else d * tagWidth fmt / 8

/-- The elements of a key or value. -/
def kvElems (fmt d : Nat) (bytes : List Byte) : List XReal :=
  let x := leNat bytes
  if fmt = tagSe7 then (List.range d).map (seValue x fmt d) else (elemsOf x (tagWidth fmt) d).map (decodeTag fmt)

/-- The tokens of an extent that starts at position `start`, at positions below `l`: position and address of the record. -/
def extentTokens (l start : Nat) (x : Extent) : List (Nat × Nat) :=
  (List.range (min x.len (l - start))).map fun i => (start + i, x.base + i * x.stride)

/-- The tokens of a sequence below its valid length, by extent. -/
def seqTokens (l : Nat) : List Extent → Nat → List (List (Nat × Nat))
  | [], _ => []
  | x :: xs, start => extentTokens l start x :: seqTokens l xs (start + x.len)

/-- Tokens of one extent cut into blocks: those whose records lie in one 4 KiB granule (R220). -/
def cutBlocks : List (Nat × Nat) → List (List (Nat × Nat))
  | [] => []
  | t :: ts =>
    match cutBlocks ts with
    | (u :: us) :: rest => if t.2 / 4096 = u.2 / 4096 then (t :: u :: us) :: rest else [t] :: (u :: us) :: rest
    | l => [t] :: l

/-- The blocks of a sequence of valid length `l`, in ascending position. -/
def seqBlocks (l : Nat) (q : Seq) : List (List (Nat × Nat)) := (seqTokens l q.extents 0).flatMap cutBlocks

/-- The LLC slice that caches a line, none for a tier that no slice caches (02 R40). -/
def sliceOf (pa : Nat) : Option Nat :=
  match tierOf pa with
  | .hbm => some (32 * (channelOf pa / 64) + channelOf pa % 32)
  | .hbf => some (32 * ((pa - 0x40000000000) / 2 ^ 40 % 4) + ((pa / 64 % 32) ^^^ (pa / 2048 % 32)))
  | .cxl => some ((pa / 64 % 128) ^^^ (pa / 8192 % 128))
  | _ => none

/-- A block whose page has no translation yet, and one that no slice caches. -/
def noSlice : Nat := 128
def uncached : Nat := 129

/-- The slice of a block: that of its first line, by its home at this moment; a page under refetch by its clean home. -/
def blockSlice (s : State) (w : BitVec 6) (b : List (Nat × Nat)) : Nat :=
  match b with
  | [] => 0
  | t :: _ =>
    match findPte s w t.2 with
    | none => noSlice
    | some p => (sliceOf (servedFrom s (ownPa s (p.pa + (t.2 - p.va))))).getD uncached

/-! ### The command (R448) -/

structure AttnOp where
  seq : Nat
  queries : Nat
  tagged : Bool
  sigma : XReal
  lo : Nat
  hi : Nat
  src : Nat
  dst : Nat
  seqTag : BitVec 16

def attnOp (c : Cmd) : AttnOp :=
  { seq := fld c 16 2, queries := fld c 18 1 % 8 + 1, tagged := (fld c 18 1).testBit 3, sigma := fp32 (fld c 20 4), lo := fld c 24 4, hi := fld c 28 4,
    src := fld c 32 8, dst := fld c 40 4 % 2 ^ 19, seqTag := BitVec.ofNat 16 (fld c 44 2) }

/-- The head dimension that the command's sequence has. -/
def attnDim (c : Cmd) (s : State) : Nat := ((findSeq s ((partOfCore s c.core).getD 16) (attnOp c).seq).map (·.dim)).getD 64

/-- The bytes of one query's triple (R223). -/
def tripleBytes (d : Nat) : Nat := 8 + 4 * d

def attnValid (c : Cmd) (s : State) : Bool :=
  let o := attnOp c
  let d := attnDim c s
  fld c 18 1 / 16 = 0 && zeroBytes c.bits 19 20 && fld c 40 4 / 2 ^ 19 = 0 && zeroBytes c.bits 46 64 && o.dst % 8 = 0 && o.src % 64 = 0
    && (!o.tagged || o.seqTag ≠ 0xFFFF) && o.src + 2 * d * o.queries ≤ spEnd && o.dst + o.queries * tripleBytes d ≤ spEnd

/-- The queries' slots, and the tagged slot's PEND (R439, 06 R185). -/
def attnReady (c : Cmd) (s : State) : Chk Unit := do
  let o := attnOp c
  operandSlots s [(o.src, 2 * attnDim c s * o.queries)]
  need (!(o.tagged && (getSlot s.core (o.dst / 4096)).pend = 15)) { lateTrap with slot := some (o.dst / 4096) }

/-! ### A slice unit (R221) -/

/-- A token as a unit reads it: its position, key and value. -/
structure Token where
  pos : Nat
  key : List XReal
  val : List XReal

/-- A token's record read by the command. -/
def readToken (s : State) (r : RunCmd) (q : Seq) (t : Nat × Nat) : Except Halt (Token × Bool) :=
  let fmt := q.fmt.toNat
  let n := kvBytes fmt q.dim
  match engRead s r .plain t.2 n, engRead s r .plain (t.2 + q.voff) n with
  | .error h, _ => .error h
  | _, .error h => .error h
  | .ok k, .ok v =>
    .ok ({ pos := t.1, key := kvElems fmt q.dim (k.map (·.1)), val := kvElems fmt q.dim (v.map (·.1)) }, k.any (·.2) || v.any (·.2))

/-- The tokens of a list of records, or the first halt. -/
def readTokens (s : State) (r : RunCmd) (q : Seq) : List (Nat × Nat) → Except Halt (List Token × Bool)
  | [] => .ok ([], false)
  | t :: ts =>
    match readToken s r q t with
    | .error h => .error h
    | .ok x => match readTokens s r q ts with
      | .error h => .error h
      | .ok l => .ok (x.1 :: l.1, x.2 || l.2)

/-- A triple: running maximum and denominator, and the output. -/
abbrev Triple := RowState × List Nat

def Triple.empty (d : Nat) : Triple := ((noScore, 0), List.replicate d 0)

/-- The score of a token for a query: the scale times the exact sum, rounded once. -/
def attnScore (sigma : XReal) (query : List XReal) (t : Token) : XReal :=
  let x := sumProducts false ((query.zip t.key).map fun p => xmulNv p.1 p.2)
  fp32 (roundSum tagFp32 [xmulNv sigma x.1]).1

/-- One block applied to a triple: a step of streaming softmax with BF16 probabilities. -/
def attnBlock (o : AttnOp) (query : List XReal) (st : Triple) (block : List Token) : Triple :=
  let scores := block.map fun t => if o.lo ≤ t.pos && t.pos ≤ o.hi then some (attnScore o.sigma query t) else none
  let b := smxBlock st.1 scores tagBf16
  let out := (rescale b.2.1 st.2).zipIdx.map fun x =>
    (roundSum tagFp32 ((fp32 x.1.1, false) :: (b.2.2.1.zip block).map fun p => xmulNv (decodeTag tagBf16 p.1) (p.2.val.getD x.2 XReal.zero))).1
  (b.1, out)

/-- The triples merged by the return network, level by level, the lower-indexed node first (R222). -/
def mergeTree : Nat → List Triple → List Triple
  | 0, l => l
  | n + 1, l => mergeTree n (pairUp l)
where
  pairUp : List Triple → List Triple
  | x :: y :: rest => (mergeRow x y).1 :: pairUp rest
  | l => l

/-- The blocks that a slice serves, in ascending position. -/
def sliceBlocks (blocks : List (Nat × List Token)) (n : Nat) : List (List Token) := (blocks.filter fun b => b.1 = n).map (·.2)

/-- One query's result: 128 slices, then the tree of depth 7. -/
def attnQuery (o : AttnOp) (d : Nat) (blocks : List (Nat × List Token)) (query : List XReal) : Triple :=
  let slices := (List.range 128).map fun n => (sliceBlocks blocks n).foldl (attnBlock o query) (Triple.empty d)
  (mergeTree 7 slices).headD (Triple.empty d)

/-- The bytes of a triple. -/
def tripleOut (t : Triple) : List Byte := leBytes 4 (intMod 32 t.1.1) ++ leBytes 4 t.1.2 ++ t.2.flatMap (leBytes 4)

/-- The cycles of the busiest slice, and of the return network (R448). -/
def attnCycles (s : State) (o : AttnOp) (d : Nat) (blocks : List (Nat × List Token)) : Nat :=
  let blockTime (b : List Token) : Nat := ceilDiv (2 * o.queries * (b.filter fun t => o.lo ≤ t.pos && t.pos ≤ o.hi).length * d) 1024
  let slice (n : Nat) : Nat :=
    let t := ((sliceBlocks blocks n).map blockTime).foldl (· + ·) 0
    if (getIsland s (16 + n / 32)).cur ≤ 800 then 2 * t else t
  ((List.range 128).map slice).foldl max 0 + 24 * 7

/-- The queries in the scratchpad, each byte with the poison of its line. -/
def queryBytes (k : Core) (o : AttnOp) (d : Nat) : EBytes :=
  (spanLines o.src (2 * d * o.queries)).flatMap fun x => (cellRead k.sp x.2.1 (x.2.2 - x.2.1)).map fun b => (b, spPoison k x.1)

/-- The query `i` among the queries' bytes, with its poison. -/
def queryAt (held : EBytes) (d i : Nat) : List XReal × Bool :=
  let b := (held.drop (2 * d * i)).take (2 * d)
  ((elemsOf (leNat (b.map (·.1))) 16 d).map (decodeTag tagBf16), b.any (·.2))

/-- Blocks, each with its slice, with their tokens read whole. -/
def readBlocks (s : State) (r : RunCmd) (q : Seq) : List (Nat × List (Nat × Nat)) → Except Halt (List (Nat × List Token) × Bool)
  | [] => .ok ([], false)
  | b :: bs =>
    match readTokens s r q b.2 with
    | .error h => .error h
    | .ok x => match readBlocks s r q bs with
      | .error h => .error h
      | .ok l => .ok ((b.1, x.1) :: l.1, x.2 || l.2)

/-- Lines of poisoned records, reported. -/
def noteSeqPoison (s : State) (r : RunCmd) (q : Seq) : State :=
  (seqBlocks r.done.1 q).flatten.foldl (fun s t => notePoisonAll (notePoisonAll s r t.2 (kvBytes q.fmt.toNat q.dim)) r (t.2 + q.voff) (kvBytes q.fmt.toNat q.dim)) s

/-- The triples of every query, with their poison: they stand in the command until they land. -/
def attnTriples (o : AttnOp) (q : Seq) (held : EBytes) (blocks : List (Nat × List Token)) (poison : Bool) : EBytes :=
  (List.range o.queries).flatMap fun i =>
    let x := queryAt held q.dim i
    (tripleOut (attnQuery o q.dim blocks x.1)).map fun b => (b, poison || x.2)

/-- The results of an SLATTN are on their way to the scratchpad, and the command's end 4 cycles behind them. -/
def attnFinish (o : AttnOp) (q : Seq) (r : RunCmd) (blocks : List (Nat × List Token)) (poison : Bool) (s : State) : State :=
  let out := attnTriples o q r.held blocks poison
  let (d, s) := drawDelay s
  let land := cyc s + coreCycles s s.coreId (460 + attnCycles s o q.dim blocks + d)
  putRun (endsWith { r with buf := out, land := land } (land + 4) (if out.any (·.2) then stPoisoned else stOk) 0)
    (if poison then noteSeqPoison s r q else s)

/-- The results of an SLATTN are due to land. -/
def attnLands (s : State) (r : RunCmd) : Bool := r.eng = 0x10 && !r.buf.isEmpty && r.land ≤ cycOf s r.core

/-- They land, each triple at its place, and a tagged command with them. -/
def attnLand (r : RunCmd) (s : State) : State :=
  let s := focus s r.core
  let o := attnOp { core := r.core, seq := r.seq, bits := r.bits }
  let n := r.buf.length / o.queries
  let s := (List.range o.queries).foldl (fun s i =>
    let b := (r.buf.drop (n * i)).take n
    post (cyc s) (engOrder r.eng) (.localWrite (o.dst + n * i) (b.map (·.1)) (b.any (·.2))) s) s
  let s := match r.tag with
    | some (slot, tag, issued) => post (cyc s) (engOrder r.eng) (.slotLand slot tag issued) s
    | none => s
  putRun { r with buf := [], tag := none } s

/-- The sequence of the command. -/
def attnSeq (c : Cmd) (s : State) : Option Seq := findSeq s ((partOfCore s c.core).getD 16) (attnOp c).seq

/-- The valid length, the slices of the blocks and the queries as they stand now; a slice assigned before and queries read before stay (R220, R448). -/
def attnLatch (c : Cmd) (r : RunCmd) (s : State) : RunCmd :=
  match attnSeq c s with
  | none => r
  | some q =>
    let l := if r.blocks.isEmpty then q.len else r.done.1
    { r with done := (l, 0), held := if r.held.isEmpty then queryBytes s.core (attnOp c) q.dim else r.held, blocks := (seqBlocks l q).zipIdx.map fun b =>
        match r.blocks[b.2]? with
        | some n => if n = noSlice then blockSlice s r.world b.1 else n
        | none => blockSlice s r.world b.1 }

/-- The work of an SLATTN, on the blocks that it took at its start. -/
def attnWork (c : Cmd) (r : RunCmd) (s : State) : State :=
  let o := attnOp c
  match attnSeq c s with
  | none => haltRun (stopWith stNosuch) r s
  | some q =>
    if q.world ≠ r.world then haltRun (stopWith stBadcmd) r s
    else if q.stopped then haltRun (stopWith stStopped) r s
    else
      let r := attnLatch c r s
      if r.blocks.contains uncached then haltRun (stopWith stBadcmd) r s
      else
        match readBlocks s r q (r.blocks.zip (seqBlocks r.done.1 q)) with
        | .error h => haltRun h r s
        | .ok x => attnFinish o q r x.1 x.2 s

/-- The start of an SLATTN: its blocks are assigned, and a tagged one becomes a producer of its slot (R223). -/
def attnStart (c : Cmd) (r : RunCmd) (s : State) : State :=
  let o := attnOp c
  let r := attnLatch c r s
  if o.tagged then
    whenReady 0x10 true (attnWork c) { r with tag := some (o.dst / 4096, o.seqTag, cyc s) } (post (cyc s) (engOrder 0x10) (.slotPend (o.dst / 4096)) s)
  else whenReady 0x10 true (attnWork c) r s

def execSlattn (c : Cmd) (s : State) : Out := startCommand 0x10 c (attnValid c) (attnReady c) (attnStart c) s

end Sys2Proof.Machine
end

