-- ==== Sys2Proof/Machine/EngineLig.lean ====
section
/-! DEFINITION. The ligature units: token merging and its maps (07_serving_structures R224 to R228; 16_isa_engines R449). -/

namespace Sys2Proof.Machine

/-! ### Maps (R224, R227, R228) -/

/-- A map handle: number and generation. -/
def mapHandle (m : LigMap) : Nat := m.num + 4096 * m.gen.toNat

/-- The map that a handle names: MAPLOST for a free map or another generation, BADCMD for a reserved bit or another task's map. -/
def findMap (s : State) (r : RunCmd) (h : Nat) : Except Halt LigMap :=
  let lost : Halt := .stop stMaplost (some { cause := .mapLost, detail := BitVec.ofNat 512 h })
  if h / 2 ^ 24 ≠ 0 then .error (stopWith stBadcmd)
  else
    match s.maps.find? fun m => m.part = r.task.part && m.num = h % 4096 with
    | none => .error lost
    | some m => if m.gen.toNat ≠ h / 4096 then .error lost else if mapsOf r.task m then .ok m else .error (stopWith stBadcmd)

/-- One map freed: its generation advances. -/
def freeMap (s : State) (m : LigMap) : State := freeMaps s fun x => x.part = m.part && x.num = m.num

/-- The generation of the next map with a number. -/
def nextGen (s : State) (part num : Nat) : BitVec 12 := ((s.mapGens.find? fun x => x.1 = part && x.2.1 = num).map (·.2.2)).getD 1

/-- A new map of `n` tokens for the task: every token represents itself. None where the task has 4, or nothing fits. -/
def newMap (s : State) (r : RunCmd) (n : Nat) : Option LigMap :=
  let unit := islandOf r.core
  let num := (List.range 4096).find? fun i => s.maps.all fun m => !(m.part = r.task.part && m.num = i)
  match num, placeMap s unit n with
  | some i, some off =>
    if 4 ≤ (s.maps.filter (mapsOf r.task)).length then none
    else some { part := r.task.part, num := i, gen := nextGen s r.task.part i, owner := r.task, unit := unit, offset := off,
                entries := (List.range n).map fun j => (false, j), kept := n, saved := none }
  | _, _ => none

/-! ### Operands: scratchpad-local or gl (R449) -/

/-- An operand's address: aligned, and with all its bytes in the scratchpad where it is local. -/
def ligAddrOk (a n : Nat) : Bool := a % 64 = 0 && (0x100000 ≤ a || a + n ≤ spEnd)

/-- An operand read whole. -/
def ligRead (s : State) (r : RunCmd) (a n : Nat) : Except Halt EBytes :=
  if a < spEnd then
    let k := getCore s r.core
    .ok ((spanLines a n).flatMap fun x => (cellRead k.sp x.2.1 (x.2.2 - x.2.1)).map fun b => (b, spPoison k x.1))
  else engRead s r .plain a n

/-- An operand in the scratchpad, as a span to check at the start. -/
def ligSpan (a n : Nat) : List (Nat × Nat) := if a < spEnd then [(a, n)] else []

/-- Outputs still to be written, each at its address. -/
abbrev Outputs := List (Nat × EBytes)

/-- Outputs written in order, lines in ascending address; those in the scratchpad land in cycle `land`. `skip` counts lines of gl done before. -/
def ligWrite (r : RunCmd) (land : Cycle) (outs : Outputs) (s : State) (skip : Nat) : PutRun :=
  (outs.foldl (fun (a : PutRun × Nat) o =>
    let n := (spanLines o.1 o.2.length).length
    match a.1.halt with
    | some _ => a
    | none =>
      if o.1 < spEnd then
        let s := (spanLines o.1 o.2.length).foldl (fun s x =>
          let part := (o.2.drop (x.2.1 - o.1)).take (x.2.2 - x.2.1)
          post land (engOrder r.eng) (.localWrite x.2.1 (part.map (·.1)) (part.any (·.2))) s) a.1.s
        ({ a.1 with s := s }, a.2)
      else
        let w := engWrite a.1.s r .plain (cmdStamp r) o.1 o.2 (skip - a.2)
        ({ w with lines := a.2 + w.lines }, a.2 + n)) ({ s := s, lines := skip, halt := none }, 0)).1

/-- The flags of a command in FP_STICKY, seen in the cycle in which its completion object advances; they never trap (08_formats R242, R245). -/
def ligSticky (due : Cycle) (f : FpFlags) (s : State) : State := if f.bits = 0 then s else post (due - 1) 4 (.sticky f.bits) s

/-- The outputs of a command written, and what follows when all are: the command's end with a result and its flags, after `f` on the state. -/
def ligFinish (r : RunCmd) (cycles : Nat) (outs : Outputs) (poison : Bool) (result : Nat) (flags : FpFlags) (f : State → State) (s : State) :
    State :=
  let (d, s) := drawDelay s
  let due := cyc s + cycles + d + 4
  let w := ligWrite r (due - 4) outs s r.done.1
  match w.halt with
  | some h => haltRun h { r with done := (w.lines, 0) } w.s
  | none => putRun (endsWith r due (if poison then stPoisoned else stOk) result) (f (ligSticky due flags w.s))

/-- Bytes of an output, with one poison. -/
def ligBytes (poison : Bool) (l : List Byte) : EBytes := l.map fun b => (b, poison)

/-! ### Matching (R225) -/

structure MergeOp where
  handle : Nat
  n : Nat
  fp32 : Bool
  d : Nat
  dx : Nat
  r : Nat
  keys : Nat
  x : Nat
  s : Nat
  out : Nat
  deriving DecidableEq, Repr

def mergeOp (c : Cmd) : MergeOp :=
  { handle := fld c 16 4, n := fld c 20 3 % 2 ^ 17, fp32 := (fld c 23 1).testBit 0, d := fld c 24 2, dx := fld c 26 2, r := fld c 28 2,
    keys := fld c 32 8, x := fld c 40 8, s := fld c 48 8, out := fld c 56 8 }

/-- The bytes of an element of x. -/
def xBytes (fp32 : Bool) : Nat := if fp32 then 4 else 2

def mergeValid (c : Cmd) (s : State) : Bool :=
  let _ := s
  let o := mergeOp c
  let xb := o.n * o.dx * xBytes o.fp32
  fld c 20 3 / 2 ^ 17 = 0 && fld c 23 1 / 2 = 0 && zeroBytes c.bits 30 32 && o.n % 2 = 0 && 2 ≤ o.n && o.n ≤ 65536 && o.d % 16 = 0 && 16 ≤ o.d
    && o.d ≤ 1024 && 1 ≤ o.dx && o.dx ≤ 4096 && o.r ≤ o.n / 2 && ligAddrOk o.keys (2 * o.n * o.d) && ligAddrOk o.x xb && ligAddrOk o.s (4 * o.n)
    && ligAddrOk o.out 0

def mergeReady (c : Cmd) (s : State) : Chk Unit :=
  let o := mergeOp c
  operandSlots s (ligSpan o.keys (2 * o.n * o.d) ++ ligSpan o.x (o.n * o.dx * xBytes o.fp32) ++ ligSpan o.s (4 * o.n))

/-- A key normalised, or none where it is bad, and the flags of its normalisation, which every token has. -/
def normKey (k : List XReal) : Option (List XReal) × FpFlags :=
  let r := roundSum tagFp32 (k.map fun x => xmulNv x x)
  let nrm := fp32 r.1
  if nrm.isZero then (some (k.map fun _ => XReal.zero), r.2)
  else
    let q := rsqAlg nrm
    let e := k.map fun x => roundSum tagFp32 [xmulNv x q.1]
    let flags := r.2.or (q.2.or (orFlags (e.map (·.2))))
    if nrm.isInf || k.any fun x => x.isNan || x.isInf then (none, flags) else (some (e.map fun x => fp32 x.1), flags)

/-- S of two tokens, none for −∞, and its flags. -/
def similarity (a b : Option (List XReal)) : Option XReal × FpFlags :=
  match a, b with
  | some x, some y =>
    let r := roundSum tagFp32 ((x.zip y).map fun p => xmulNv p.1 p.2)
    (some (fp32 r.1), r.2)
  | _, _ => (none, {})

/-- S of one is greater than S of the other; none is −∞. -/
def simGreater (a b : Option XReal) : Bool :=
  match a, b with
  | none, _ => false
  | some _, none => true
  | some x, some y => x.cmp y = some 1

/-- The best b of a token among those of set B with their positions, ties to the lowest, its S, and the flags of every S. -/
def bestOf (a : Option (List XReal)) (bs : List (Nat × Option (List XReal))) : (Nat × Option XReal) × FpFlags :=
  let r := bs.foldl (fun (m : Option (Nat × Option XReal) × FpFlags) b =>
    let x := similarity a b.2
    let f := m.2.or x.2
    match m.1 with
    | none => (some (b.1, x.1), f)
    | some y => (if simGreater x.1 y.2 then some (b.1, x.1) else m.1, f)) (none, {})
  (r.1.getD (1, none), r.2)

/-- The chosen edges (a, best(a)), in ascending a, and the flags of the matching. -/
def chooseEdges (keys : List (List XReal)) (r : Nat) : List (Nat × Nat) × FpFlags :=
  let ns := keys.map normKey
  let ks := ns.zipIdx.map fun x => (x.2, x.1.1)
  let bs := ks.filter fun x => x.1 % 2 = 1
  let edges := (ks.filter fun x => x.1 % 2 = 0).map fun a => (a.1, bestOf a.2 bs)
  let ranked := sortBy (fun x y => simGreater x.2.1.2 y.2.1.2) (edges.filter fun x => x.2.1.2.isSome)
  (sortBy (fun x y => x.1 < y.1) ((ranked.take r).map fun x => (x.1, x.2.1.1)), (orFlags (ns.map (·.2))).or (orFlags (edges.map (·.2.2))))

/-! ### Merging (R226) -/

/-- An exact quotient rounded once into a format, with its flags (R226; 08_formats R242). -/
def quotient (f : FFmt) (x : XReal) (d : Nat) : XReal × FpFlags :=
  match x with
  | .nan => (.nan, {})
  | .inf s => (.inf s, {})
  | .fin s m e =>
    if d = 0 then (if m = 0 then (.nan, { nv := true }) else (.inf s, {})) else if m = 0 then (.fin s 0 0, {}) else roundRatio f .rne 0 s m d e

/-- A token as the merge changes it: its vector, each element with its poison, its exact size, and the size's poison (log 28; 04 R129). -/
structure MergeTok where
  x : List (XReal × Bool)
  size : Nat
  bad : Bool

/-- No token. -/
def MergeTok.none : MergeTok := { x := [], size := 0, bad := false }

/-- A size as it is stored: UINT32. -/
def storedSize (n : Nat) : Nat := min n 0xFFFFFFFF

/-- One element of the kept vector: the weighted mean of the two, rounded once. -/
def mergeElem (f : FFmt) (sa sb : Nat) (x y : XReal) : XReal × FpFlags :=
  let p := sumProducts false [xmulNv (XReal.ofInt sa) x, xmulNv (XReal.ofInt sb) y]
  let q := quotient f p.1 (sa + sb)
  (q.1, q.2.withNv p.2)

/-- One edge applied, and its flags. -/
def applyEdge (f : FFmt) (t : Array MergeTok × FpFlags) (e : Nat × Nat) : Array MergeTok × FpFlags :=
  let a := t.1.getD e.1 MergeTok.none
  let b := t.1.getD e.2 MergeTok.none
  let bad := a.bad || b.bad
  let x := (a.x.zip b.x).map fun p => (mergeElem f a.size b.size p.1.1 p.2.1, p.1.2 || p.2.2 || bad)
  let size := a.size + b.size
  (t.1.setIfInBounds e.2 { x := x.map fun y => (y.1.1, y.2), size := size, bad := bad },
    t.2.or ((orFlags (x.map (·.1.2))).or { sat := decide (storedSize size < size) }))

/-- The positions that are kept, in ascending order. -/
def keptList (n : Nat) (edges : List (Nat × Nat)) : List Nat := (List.range n).filter fun i => edges.all fun e => e.1 ≠ i

/-- A map's entries after a merge (R227). -/
def mergeEntries (entries : List (Bool × Nat)) (edges : List (Nat × Nat)) (kept : List Nat) : List (Bool × Nat) :=
  entries.map fun e =>
    match edges.find? fun x => x.1 = e.2 with
    | some x => (true, kept.idxOf x.2)
    | none => (e.1, kept.idxOf e.2)

/-- Whether each run of `w` bytes among `n` holds a poisoned one. -/
def runsBad (w n : Nat) (b : EBytes) : List Bool := (runsOf w n b).map fun r => r.any (·.2)

/-- Rows of elements. -/
def rowsOfBytes (tag width n : Nat) (l : List Byte) : List (List XReal) :=
  let x := leNat l
  (List.range n).map fun i => (List.range width).map fun j => decodeTag tag (elemAt x (tagWidth tag) (i * width + j))

/-- The tag and the format of x. -/
def xTag (fp32 : Bool) : Nat := if fp32 then tagFp32 else tagBf16
def xFmt (fp32 : Bool) : FFmt := if fp32 then .fp32 else .bf16

/-- An element of x in its bytes. -/
def xOut (fp32 : Bool) (x : XReal) : List Byte := leBytes (xBytes fp32) (encodeFl (xFmt fp32) x)

/-- The next 64-byte boundary. -/
def alignLine (a : Nat) : Nat := ceilDiv a 64 * 64

/-- The size bias of a kept token: Log2Alg of its size as stored, with its flags. -/
def sizeBias (n : Nat) : XReal × FpFlags := log2Alg (XReal.ofInt (storedSize n))

/-- The three outputs of LGMERGE, each from a 64-byte boundary; `bad` tells that a key was poisoned, from which every output is computed. -/
def mergeOutputs (o : MergeOp) (kept : List MergeTok) (bad : Bool) : Outputs :=
  let x := kept.flatMap fun t => t.x.flatMap fun e => ligBytes (bad || e.2) (xOut o.fp32 e.1)
  let sz := kept.flatMap fun t => ligBytes (bad || t.bad) (leBytes 4 (storedSize t.size))
  let bias := kept.flatMap fun t => ligBytes (bad || t.bad) (leBytes 4 (toFp32 (sizeBias t.size).1))
  let a1 := alignLine (o.out + x.length)
  [(o.out, x), (a1, sz), (alignLine (a1 + sz.length), bias)]

/-- Outputs from a base in the scratchpad stay within it (log 70). -/
def outputsFit (base : Nat) (outs : Outputs) : Bool := 0x100000 ≤ base || outs.all fun x => decide (x.1 + x.2.length ≤ spEnd)

/-- The cycles of LGMERGE (R449). -/
def mergeCycles (o : MergeOp) : Nat := ceilDiv ((o.n / 2) ^ 2 * o.d) 4096 + ceilDiv (o.n * o.dx) 256

/-- A map put in the place of its earlier stand, or behind the others: maps stand in the order of their creation. -/
def putMap (m : LigMap) (s : State) : State :=
  let same (y : LigMap) : Bool := y.part = m.part && y.num = m.num
  { s with maps := if s.maps.any same then s.maps.map fun y => if same y then m else y else s.maps ++ [m] }

/-- The merge itself, on a map. -/
def mergeOn (o : MergeOp) (m : LigMap) (keys x sz : EBytes) (r : RunCmd) (s : State) : State :=
  let ks := rowsOfBytes tagBf16 o.d o.n (keys.map (·.1))
  let xs := (rowsOfBytes (xTag o.fp32) o.dx o.n (x.map (·.1))).zip (runsOf o.dx o.n (runsBad (xBytes o.fp32) (o.n * o.dx) x))
  let ss := (elemsOf (leNat (sz.map (·.1))) 32 o.n).zip (runsBad 4 o.n sz)
  let (edges, fl) := chooseEdges ks o.r
  let t := edges.foldl (applyEdge (xFmt o.fp32)) (((xs.zip ss).map fun p => { x := p.1.1.zip p.1.2, size := p.2.1, bad := p.2.2 }).toArray, fl)
  let kept := keptList o.n edges
  let toks := kept.map fun i => t.1.getD i MergeTok.none
  let m' := { m with entries := mergeEntries m.entries edges kept, kept := kept.length }
  let outs := mergeOutputs o toks (keys.any (·.2))
  if outputsFit o.out outs then
    ligFinish r (mergeCycles o) outs (outs.any fun x => x.2.any (·.2)) (mapHandle m + edges.length * 2 ^ 32)
      (t.2.or (orFlags (toks.map fun x => (sizeBias x.size).2))) (putMap m') s
  else haltRun (stopWith stBadcmd) r s

/-- The three operands of LGMERGE. -/
def mergeRead (o : MergeOp) (r : RunCmd) (s : State) : Except Halt (EBytes × EBytes × EBytes) := do
  let k ← ligRead s r o.keys (2 * o.n * o.d)
  let x ← ligRead s r o.x (o.n * o.dx * xBytes o.fp32)
  let z ← ligRead s r o.s (4 * o.n)
  .ok (k, x, z)

/-- The map that LGMERGE works on. -/
def mergeMap (o : MergeOp) (r : RunCmd) (s : State) : Except Halt LigMap :=
  if o.handle = 0 then
    match newMap s r o.n with
    | none => .error (stopWith stFull)
    | some m => .ok m
  else
    match findMap s r o.handle with
    | .error h => .error h
    | .ok m => if m.kept = o.n then .ok m else .error (stopWith stBadcmd)

def mergeWork (c : Cmd) (r : RunCmd) (s : State) : State :=
  let o := mergeOp c
  match mergeMap o r s with
  | .error h => haltRun h r s
  | .ok m =>
    match mergeRead o r s with
    | .error h => haltRun h r s
    | .ok (k, x, z) => mergeOn o m k x z r s

def execLgmerge (c : Cmd) (s : State) : Out := startCommand 0x11 c (mergeValid c) (mergeReady c) (whenReady 0x11 true (mergeWork c)) s

/-! ### LGUNMERGE, LGSAVE, LGDROP -/

/-- The kept tokens of the map that a command names. -/
def keptOf (c : Cmd) (s : State) : Nat :=
  ((s.maps.find? fun m => m.part = ((getCore s c.core).task.getD TaskRef.none).part && m.num = fld c 16 4 % 4096).map (·.kept)).getD 0

/-- The bytes of a vector of LGUNMERGE. -/
def unmergeRow (c : Cmd) : Nat := fld c 20 2 * xBytes ((fld c 22 1).testBit 0)

def unmergeValid (c : Cmd) (s : State) : Bool :=
  1 ≤ fld c 20 2 && fld c 20 2 ≤ 4096 && fld c 22 1 / 2 = 0 && zeroBytes c.bits 23 24 && zeroBytes c.bits 40 64
    && ligAddrOk (fld c 24 8) (unmergeRow c * keptOf c s) && ligAddrOk (fld c 32 8) 0

def unmergeReady (c : Cmd) (s : State) : Chk Unit := operandSlots s (ligSpan (fld c 24 8) (unmergeRow c * keptOf c s))

/-- LGUNMERGE: for each original token a copy of its representative's vector, after which the map is free. -/
def unmergeWork (c : Cmd) (r : RunCmd) (s : State) : State :=
  let row := unmergeRow c
  match findMap s r (fld c 16 4) with
  | .error h => haltRun h r s
  | .ok m =>
    if !ligAddrOk (fld c 32 8) (row * m.entries.length) then haltRun (stopWith stBadcmd) r s
    else
      match ligRead s r (fld c 24 8) (row * m.kept) with
      | .error h => haltRun h r s
      | .ok b =>
        let out := m.entries.flatMap fun e => (b.drop (row * e.2)).take row
        ligFinish r (ceilDiv (m.entries.length * fld c 20 2) 256) [(fld c 32 8, out)] (out.any (·.2)) 0 {} (fun s => freeMap s m) s

def execLgunmerge (c : Cmd) (s : State) : Out := startCommand 0x11 c (unmergeValid c) (unmergeReady c) (whenReady 0x11 true (unmergeWork c)) s

def lgsaveValid (c : Cmd) (s : State) : Bool :=
  let _ := s
  zeroBytes c.bits 20 24 && zeroBytes c.bits 32 64 && ligAddrOk (fld c 24 8) 0

/-- LGSAVE: the entries of every original token. -/
def lgsaveWork (c : Cmd) (r : RunCmd) (s : State) : State :=
  match findMap s r (fld c 16 4) with
  | .error h => haltRun h r s
  | .ok m =>
    if !ligAddrOk (fld c 24 8) (mapBytes m.entries.length) then haltRun (stopWith stBadcmd) r s
    else ligFinish r (ceilDiv m.entries.length 16) [(fld c 24 8, ligBytes false (m.entries.flatMap entryOut))] false 0 {} id s

def execLgsave (c : Cmd) (s : State) : Out := startCommand 0x11 c (lgsaveValid c) noOperands (whenReady 0x11 true (lgsaveWork c)) s

def lgdropValid (c : Cmd) (s : State) : Bool :=
  let _ := s
  zeroBytes c.bits 20 64

def lgdropWork (c : Cmd) (r : RunCmd) (s : State) : State :=
  match findMap s r (fld c 16 4) with
  | .error h => haltRun h r s
  | .ok m => endsLater 20 stOk 0 r (freeMap s m)

def execLgdrop (c : Cmd) (s : State) : Out := startCommand 0x11 c (lgdropValid c) noOperands (whenReady 0x11 false (lgdropWork c)) s

end Sys2Proof.Machine
end

