-- ==== Sys2Proof/Machine/HostWorld.lean ====
section
/-! DEFINITION. The admin commands on worlds, quotas, pages, prefix pages, keys and power: WORLD_CREATE to POWER_CAP_SET (04_host_interface R119, R131,
R485; 02_memory_tiers R45, R46; 03_links_trust R93, R94, R100, R102; 01_package R27). -/

namespace Sys2Proof.Machine

/-- The world that an admin command names. -/
def worldNo (h : HostCmd) : Nat := hfld h 24 1

/-- The completion of a command that may change only unfrozen partitions, on a live world. -/
def onWorld (h : HostCmd) (s : State) (act : State → State × Answer) : State × Answer :=
  if 63 < worldNo h then refuse s stBadcmd else if !worldLive s (worldNo h) then refuse s stNosuch else act s

/-! ### WORLD_CREATE, WORLD_DESTROY, WORLD_BIND (03 R93, R94) -/

/-- No operand but the world. -/
def worldOnly (h : HostCmd) (s : State) : Bool :=
  let _ := s
  hzero h 8 24 && hzero h 25 64

def worldCreateAct (h : HostCmd) (s : State) : State × Answer :=
  let w := worldNo h
  if w = 0 || 63 < w || (getWorld s w).live || awaitsScrub s w then refuse s stBadcmd
  else
    let (key, s) := drawKey s
    let (hbf, s) := drawKey s
    (setWorld s w { World.absent with live := true, key := key, hbfKey := hbf, gen := (getWorld s w).gen }, .now stOk 0)

def execWorldCreate (h : HostCmd) (s : State) : Out := hostCommand h (worldOnly h) (worldCreateAct h) s

/-- The sweeps that host commands wait for end with the world (03 R102); those commands complete with ABORTED (log 92). -/
def endSweepWaits (w : Nat) (s : State) : State :=
  let ends (r : HostRun) : Bool := match r.wait with
    | .sweep x _ => x = w
    | _ => false
  { s with hostRuns := s.hostRuns.map fun (r : HostRun) => if ends r then { r with done := true, status := BitVec.ofNat 16 stAborted, wait := .none } else r }

/-- Everything in memory that belongs to a world given back: translations, migrations, sequences and pools, handles, replicas, pages. -/
def clearWorldMemory (w : BitVec 6) (s : State) : State :=
  let s := (s.migQueue ++ s.migrations).foldl (fun s m => if m.world = w then abandon m s else s) s
  let s := (List.range 16).foldl (fun s p =>
    let s := ((getPart s p).seqs.filter fun q => q.world = w).foldl (fun s q => dropSeq s p q.num) s
    modPart s p fun x => { x with pools := x.pools.filter fun q => q.world ≠ w }) s
  let s := (s.aht.filter fun a => a.owner = w && !a.deleting).foldl (fun s a => deleteEntry a s) s
  let s := mapCores (fun _ k => { k with tlb := k.tlb.filter fun p => p.world ≠ w })
    { s with ptes := s.ptes.filter (fun p => p.world ≠ w), prefixes := s.prefixes.filter fun p => p.world ≠ w }
  (s.pages.filter fun p => p.2.1 = w).foldl (fun s p => freeHome s p.1) s

/-- A world destroyed: both its keys are gone, and its sweep ends at once (03 R94, R102). -/
def destroyWorld (s : State) (w : Nat) : State :=
  let s := clearWorldMemory (BitVec.ofNat 6 w) (endSweepWaits w s)
  setWorld s w { World.absent with gen := (getWorld s w).gen }

def worldDestroyAct (h : HostCmd) (s : State) : State × Answer :=
  let w := worldNo h
  if w = 0 then refuse s stBadcmd
  else onWorld h s fun s => if worldFrozen s w then refuse s stLocked else (destroyWorld s w, .now stOk 0)

def execWorldDestroy (h : HostCmd) (s : State) : Out := hostCommand h (worldOnly h) (worldDestroyAct h) s

def bindValid (h : HostCmd) (s : State) : Bool :=
  let _ := s
  hzero h 8 24 && hfld h 26 1 < 2 && hzero h 27 64

/-- WORLD_BIND in either form: on a live protected world and a partition that exists, neither frozen. -/
def bindAct (h : HostCmd) (act : Nat → Nat → State → State × Answer) (s : State) : State × Answer :=
  let w := worldNo h
  let n := hfld h 25 1
  if w = 0 then refuse s stBadcmd
  else onWorld h s fun s =>
    if 15 < n || !(getPart s n).present then refuse s stNosuch
    else if frozen (getPart s n) || worldFrozen s w then refuse s stLocked
    else act w n s

/-- The bit of a partition. -/
def partBit (n : Nat) : BitVec 16 := BitVec.ofNat 16 (2 ^ n)

def execWorldBind (h : HostCmd) (s : State) : Out :=
  hostCommand h (bindValid h) (bindAct h fun w n s => (modWorld s w fun x => { x with parts := x.parts ||| partBit n }, .now stOk 0)) s

/-- The unbind form completes when no task of the world is resident in the partition. -/
def execWorldUnbind (h : HostCmd) (s : State) : Out := hostCommand h (bindValid h) (bindAct h fun w n s => (s, .later (.unbind w n))) s

/-! ### QUOTA_GET and QUOTA_SET (02 R45) -/

/-- The 64-byte quota record. -/
def quotaBytes (q : Quota) : List Byte :=
  leBytes 4 q.hbmLimit.toNat ++ leBytes 4 q.hbmUsed.toNat ++ leBytes 4 q.hbfLimit.toNat ++ leBytes 4 q.hbfUsed.toNat ++ leBytes 4 q.cxlLimit.toNat
    ++ leBytes 4 q.cxlUsed.toNat ++ leBytes 2 q.wayLimit.toNat ++ leBytes 2 q.wayUsed.toNat ++ leBytes 4 0 ++ leBytes 4 q.kvLimit.toNat
    ++ leBytes 4 q.kvUsed.toNat ++ leBytes 24 0

/-- The limit fields of a record applied. -/
def quotaApply (b : List Byte) (q : Quota) : Quota :=
  let f (o n : Nat) := leNat ((b.drop o).take n)
  { q with hbmLimit := BitVec.ofNat 32 (f 0 4), hbfLimit := BitVec.ofNat 32 (f 8 4), cxlLimit := BitVec.ofNat 32 (f 16 4),
           wayLimit := BitVec.ofNat 16 (f 24 2), kvLimit := BitVec.ofNat 32 (f 32 4) }

def quotaValid (h : HostCmd) (s : State) : Bool :=
  let _ := s
  hzero h 16 24 && hzero h 25 64

def execQuotaGet (h : HostCmd) (s : State) : Out :=
  hostCommand h (quotaValid h) (fun s => onWorld h s fun s => (hostWrite s (ptr0 h) (quotaBytes (getQuota s (worldNo h))), .now stOk 0)) s

/-- QUOTA_SET: the quotas of a frozen partition's worlds are frozen (03 R78). -/
def quotaSetAct (h : HostCmd) (s : State) : State × Answer :=
  onWorld h s fun s =>
    if quotaFrozen s (worldNo h) then refuse s stLocked
    else
      match hostRead s (ptr0 h) 64 with
      | none => refuse s stBadcmd
      | some b => (setQuota s (worldNo h) (quotaApply b (getQuota s (worldNo h))), .now stOk 0)

def execQuotaSet (h : HostCmd) (s : State) : Out := hostCommand h (quotaValid h) (quotaSetAct h) s

/-! ### PAGE_ALLOC (R485) -/

/-- The tier and the count of PAGE_ALLOC and PAGE_FREE. -/
def pageTierNo (h : HostCmd) : Nat := hfld h 25 1
def pageCount (h : HostCmd) : Nat := hfld h 28 4

/-- The partitions to which a world is bound. -/
def boundParts (s : State) (w : Nat) : List Nat := (List.range 16).filter fun p => (getWorld s w).parts.getLsbD p

/-- The HBM regions that a world's pages come from: those of its partitions, or those that no partition owns. -/
def worldRegions (s : State) (w : Nat) : List Nat :=
  match boundParts s w with
  | [] => (List.range 16).filter fun n => (partOfIsland s n).isNone
  | ps => ps.flatMap fun p => partIslands (getPart s p)

/-- The first `need` free pages among `fuel` pages from `a` up to `hi`. -/
def freeFrom (s : State) (hi : Nat) : Nat → Nat → Nat → List Nat
  | 0, _, _ => []
  | fuel + 1, a, need =>
    if need = 0 || hi ≤ a then [] else if pageFree s a then a :: freeFrom s hi fuel (a + 65536) (need - 1) else freeFrom s hi fuel (a + 65536) need

/-- The lowest `need` free pages of a list of ranges, taken in order. -/
def freeIn (s : State) : List (Nat × Nat) → Nat → List Nat
  | [], _ => []
  | r :: rs, need =>
    let l := freeFrom s r.2 (need + s.pages.length + s.programmed.length + 64 * s.wear.length) r.1 need
    l ++ freeIn s rs (need - l.length)

/-- The ranges of a tier from which a world is given pages. -/
def tierRanges (s : State) (w tier : Nat) : List (Nat × Nat) :=
  match tier with
  | 0 => (worldRegions s w).map fun n => (regionBase n, regionBase (n + 1))
  | 1 => [(hbfBase, 0x80000000000)]
  | _ => cxlRanges s

/-- A page that the host lists is free, in its tier, and in a region that the world's pages come from. -/
def listedOk (s : State) (w tier pa : Nat) : Bool :=
  pa % 65536 = 0 && pageTier pa = some tier && (tier ≠ 2 || (hdmOf s pa).isSome) && pageFree s pa && (tier ≠ 0 || (worldRegions s w).contains (pa / 0x800000000))

/-- No number stands twice in a list. -/
def allDistinct (l : List Nat) : Bool := l.eraseDups.length = l.length

/-- The VAs of a PAGE_ALLOC are aligned, unmapped in the world and distinct. -/
def vasOk (s : State) (w : BitVec 6) (l : List Nat) : Bool := l.all (fun a => a % 65536 = 0 && (findPte s w a).isNone) && allDistinct l

def pageAllocValid (h : HostCmd) (s : State) : Bool :=
  let _ := s
  pageTierNo h < 3 && hzero h 26 28 && hzero h 32 64

/-- A page allocated and mapped: read-only in HBF, and never for code (log 19). -/
def allocPage (w : BitVec 6) (tier : Nat) (s : State) (x : Nat × Nat) : State :=
  let p : Pte := { world := w, va := x.1, pages := 1, pa := x.2, write := tier ≠ 1, exec := false, keySlot := 0 }
  let s := chargePages (takePage s x.2 w tier) w tier 1
  { s with ptes := s.ptes ++ [p] }

/-- The checks before any page is allocated: BADCMD, then QUOTA, then FULL (log 92: which of the last two comes first). -/
def pageAllocAct (h : HostCmd) (s : State) : State × Answer :=
  onWorld h s fun s =>
    let w := worldNo h
    let w' : BitVec 6 := BitVec.ofNat 6 w
    let tier := pageTierNo h
    let n := pageCount h
    match hostList s (ptr0 h) n, (if ptr1 h = 0 then some [] else hostList s (ptr1 h) n) with
    | some vas, some listed =>
      if !(vasOk s w' vas && listed.all (listedOk s w tier) && allDistinct listed) then refuse s stBadcmd
      else if !pagesFit s w' tier n then refuse s stQuota
      else
        let pages := if ptr1 h = 0 then freeIn s (tierRanges s w tier) n else listed
        if pages.length < n then refuse s stFull else ((vas.zip pages).foldl (allocPage w' tier) s, .now stOk n)
    | _, _ => refuse s stBadcmd

def execPageAlloc (h : HostCmd) (s : State) : Out := hostCommand h (pageAllocValid h) (pageAllocAct h) s

/-! ### PAGE_FREE -/

def pageFreeValid (h : HostCmd) (s : State) : Bool := pageAllocValid h s && ptr1 h = 0

/-- The page that a VA of PAGE_FREE names: mapped by an entry of its own, allocated to the world in that tier, and in no migration. -/
def pageToFree (s : State) (w : BitVec 6) (tier va : Nat) : Option Nat :=
  match findPte s w va with
  | none => none
  | some p => if va % 65536 = 0 && p.pages = 1 && assocGet s.pages p.pa = some (w, tier) && !inFlight s p.pa then some p.pa else none

def pageFreeAct (h : HostCmd) (s : State) : State × Answer :=
  onWorld h s fun s =>
    let w : BitVec 6 := BitVec.ofNat 6 (worldNo h)
    match hostList s (ptr0 h) (pageCount h) with
    | none => refuse s stBadcmd
    | some vas =>
      if !(vas.all (fun a => (pageToFree s w (pageTierNo h) a).isSome) && allDistinct vas) then refuse s stBadcmd
      else
        let pages := vas.filterMap fun a => pageToFree s w (pageTierNo h) a
        let s := vas.foldl (fun s a => unmapPage s w a) s
        (pages.eraseDups.foldl freeHome s, .now stOk 0)

def execPageFree (h : HostCmd) (s : State) : Out := hostCommand h (pageFreeValid h) (pageFreeAct h) s

/-! ### PREFIX_REG (R131) -/

def prefixValid (h : HostCmd) (s : State) : Bool :=
  let _ := s
  hzero h 25 64

/-- The clean home that the command names, if any: a read-only tile page of the CXL tier; none where the name is bad. -/
def cleanHome (s : State) (w : BitVec 6) (va : Nat) : Option (Option Nat) :=
  if va = 0 then some none
  else
    match findPte s w va with
    | none => none
    | some p => if va % 65536 = 0 && p.pages = 1 && !p.write && tierOf p.pa = .cxl then some (some p.pa) else none

/-- A page's lines carry the replica bit (02 R43). -/
def markReplica (s : State) (page : Nat) : State :=
  { s with side := s.side.map fun x => if x.1 / 65536 = page / 65536 then (x.1, { x.2 with replica := true }) else x }

/-- A page registered: a replica of its clean home. -/
def registerPrefix (w : BitVec 6) (p : Pte) (clean : Option Nat) (s : State) : State :=
  let x : Prefix := { world := w, va := p.va, pa := p.pa, clean := clean, wanted := false, refetching := false, ready := 0, lost := false }
  let s := markReplica s p.pa
  { s with prefixes := s.prefixes.filter (fun y => y.pa ≠ p.pa) ++ [x],
           replicas := s.replicas.filter (fun r => r.1 ≠ p.pa) ++ [(p.pa, clean)] }

def prefixRegAct (h : HostCmd) (s : State) : State × Answer :=
  onWorld h s fun s =>
    let w : BitVec 6 := BitVec.ofNat 6 (worldNo h)
    match findPte s w (ptr0 h), cleanHome s w (ptr1 h) with
    | some p, some clean =>
      if !(ptr0 h % 65536 = 0 && p.pages = 1 && !p.write) then refuse s stBadcmd
      else if replicaTable ≤ s.replicas.length && s.replicas.all (fun r => r.1 ≠ p.pa) then refuse s stFull
      else (registerPrefix w p clean s, .now stOk 0)
    | _, _ => refuse s stBadcmd

def execPrefixReg (h : HostCmd) (s : State) : Out := hostCommand h (prefixValid h) (prefixRegAct h) s

/-! ### KEY_ROTATE (03 R100, R102) -/

/-- A sweep of a live world asked for: it begins when it may, or is queued one deep; the generation that its end shows, none where it is full. -/
def askSweep (s : State) (w : Nat) : Option (State × BitVec 8) :=
  let x := getWorld s w
  if x.st = 0 then some (setWorld s w { x with st := 1 }, x.gen + 1)
  else if x.queued then none
  else some (setWorld s w { x with queued := true }, if x.st = 1 then x.gen + 2 else x.gen + 1)

def keyRotateAct (h : HostCmd) (s : State) : State × Answer :=
  if worldNo h = 0 then refuse s stBadcmd
  else onWorld h s fun s =>
    match askSweep s (worldNo h) with
    | none => refuse s stFull
    | some (s, gen) => (s, .later (.sweep (worldNo h) gen))

def execKeyRotate (h : HostCmd) (s : State) : Out := hostCommand h (worldOnly h) (keyRotateAct h) s

/-! ### POWER_CAP_SET (01 R27) -/

/-- The cap as stored: rounded down to a multiple of 50 W, then bounded. -/
def capStored (record watts : Nat) : Nat := min record (max 1200 (watts / 50 * 50))

def powerValid (h : HostCmd) (s : State) : Bool :=
  let _ := s
  hzero h 8 24 && hzero h 28 64

def execPowerCapSet (h : HostCmd) (s : State) : Out :=
  hostCommand h (powerValid h) (fun s =>
    let x := capStored s.recordCap (hfld h 24 4)
    ({ s with powerCap := x }, .now stOk x)) s

end Sys2Proof.Machine
end

