-- ==== Sys2Proof/Machine/SweepEvents.lean ====
section
/-! DEFINITION. Re-encryption sweeps (03_links_trust R100 to R102) and the refetching and loss of prefix pages (04_host_interface R131, R132). -/

namespace Sys2Proof.Machine

/-! ### Sweeps -/

/-- The tile pages of a world that a sweep goes over: those in HBM and the CXL tier. -/
def sweptPages (s : State) (w : Nat) : List Nat :=
  (s.pages.filter fun p => p.2.1.toNat = w && (p.2.2 = 0 || p.2.2 = 2)).map (·.1)

/-- The lowest line of the world's swept pages at `a` or above. -/
def sweepFrom (s : State) (w a : Nat) : Option Nat :=
  ((sweptPages s w).filter fun p => a < p + 65536).foldl (fun b p =>
    let x := max p a
    match b with
    | none => some x
    | some y => some (min x y)) none

/-- At most 4 sweeps run at once (R102). -/
def sweepSlots : Nat := 4

def sweepsRunning (s : State) : Nat := (s.worlds.toList.filter fun x => x.st = 2).length

/-- A sweep that waits may start: no migration of its world is in flight (R68, R100 step 1). -/
def sweepReady (s : State) (w : Nat) : Bool :=
  (getWorld s w).st = 1 && s.migrations.all (fun m => m.world.toNat ≠ w) && decide (sweepsRunning s < sweepSlots)

/-- Checkpoint intervals of the world's launches become irrevocable (10_traps R316). -/
def irrevocableWorld (s : State) (w : Nat) : State :=
  { s with ckpts := s.ckpts.map fun k =>
      if ((findLaunch s k.part k.launch).map fun l => (launchWorld l).toNat) = some w then { k with irrev := true } else k }

/-- The replicas that are homed in a world. -/
def replicasOf (s : State) (w : Nat) : List Nat := (s.replicas.filter fun r => (pageWorld s (r.2.getD r.1)).toNat = w).map (·.1)

/-- The pace of a sweep, a line in 4 cycles of the 1.6 GHz clock (log 8). -/
def sweepPace : Nat := 4

/-- SWEEP_START of a world: steps 2 and 3 of R100. -/
def execSweepStart (s : State) : Out :=
  let w := s.ev.n
  if !sweepReady s w then .next s
  else
    let x := getWorld s w
    let (key, s) := drawKey s
    let s := (replicasOf s w).foldl retireReplica (irrevocableWorld s w)
    .next (setWorld s w { x with prevKey := some x.key, key := x.given.getD key, given := none, st := 2, gen := x.gen + 1,
                                 ptr := BitVec.ofNat 46 ((sweepFrom s w 0).getD 0 / 64), next := s.now + sweepPace })

/-- The key slot that a page's translation names. -/
def pageKeySlot (s : State) (pa : Nat) : BitVec 12 :=
  ((s.ptes.find? fun p => p.pa ≤ pa && pa < p.pa + 65536 * p.pages).map (·.keySlot)).getD 0

/-- A line of a world re-encrypted from the previous key to the current one; a line that fails its check under the previous key is poisoned. -/
def rekeyLine (s : State) (w l : Nat) : State :=
  let x := getWorld s w
  match assocGet s.side l with
  | none => s
  | some d =>
    if d.world.toNat ≠ w || pageKeySlot s l ≠ 0 then s
    else { s with side := assocPut s.side l { d with key := x.key, poison := d.poison || some d.key ≠ x.prevKey } }

/-- The host commands that wait for this generation of the world complete. -/
def sweepDone (s : State) (w : Nat) : State :=
  let g := (getWorld s w).gen
  { s with hostRuns := s.hostRuns.map fun r => if r.wait = .sweep w g then { r with done := true, status := BitVec.ofNat 16 stOk, wait := .none } else r }

/-- Step 5: the previous key is destroyed, and a queued sweep waits to start. -/
def endSweep (s : State) (w : Nat) : State :=
  sweepDone (modWorld s w fun x => { x with prevKey := none, ptr := 0, st := if x.queued then 1 else 0, queued := false }) w

/-- SWEEP_LINE of a world: the line at PTR, and then the next. -/
def execSweepLine (s : State) : Out :=
  let w := s.ev.n
  let x := getWorld s w
  if x.st ≠ 2 then .next s
  else
    match sweepFrom s w (x.ptr.toNat * 64) with
    | none => .next (endSweep s w)
    | some l =>
      let s := rekeyLine s w l
      match sweepFrom s w (l + 64) with
      | none => .next (endSweep s w)
      | some n => .next (setWorld s w { x with ptr := BitVec.ofNat 46 (n / 64), next := s.now + sweepPace })

/-! ### Prefix pages -/

def findPrefix (s : State) (page : Nat) : Option Prefix := s.prefixes.find? fun p => p.pa = page

def modPrefix (s : State) (page : Nat) (f : Prefix → Prefix) : State := { s with prefixes := s.prefixes.map fun p => if p.pa = page then f p else p }

/-- An error record of the ring of 256 (R123). -/
def pushError (s : State) (bytes : List Byte) : State :=
  { s with errors := assocPut s.errors s.nextError (padTo 4096 0 bytes), nextError := (s.nextError + 1) % 256 }

/-- The listing of a stopped sequence: its number, world and partition (log 23: their places in the 16 bytes). -/
def stoppedEntry (x : Nat × Seq) : List Byte := leBytes 4 x.2.num ++ leBytes 1 x.2.world.toNat ++ leBytes 1 x.1 ++ leBytes 10 0

/-- The lists of stopped sequences written to error records, 256 in each. -/
def pushStopped (s : State) : Nat → List (Nat × Seq) → State
  | 0, _ => s
  | n + 1, l =>
    let s := pushError s ((l.take 256).flatMap stoppedEntry)
    if (l.drop 256).isEmpty then s else pushStopped s n (l.drop 256)

/-- A sequence marked stopped. -/
def stopSeq (s : State) (x : Nat × Seq) : State :=
  modPart s x.1 fun p => { p with seqs := p.seqs.map fun q => if q.num = x.2.num then { q with stopped := true } else q }

/-- PREFIX_LOST: every sequence that maps the page is stopped and listed, and each of their partitions is told (R132). -/
def losePrefix (page : Nat) (s : State) : State :=
  let world := (findPrefix s page).map (·.world)
  let l := mappingSeqs s page
  let first := s.nextError
  let s := modPrefix s page fun p => { p with lost := true, wanted := false, refetching := false, clean := none }
  let s := l.foldl stopSeq (pushStopped s (l.length + 1) l)
  freeLost (raiseEventTo s 0x0B none world first [page] (l.map (·.1)).eraseDups)

/-- The unloaded time of the copy of a page, 1,024 lines in 4 cycles each (log 8). -/
def refetchPace : Nat := 4096

/-- PREFIX_REFETCH of a page whose poisoned read calls for it: the page is marked, or it is lost where it has no clean home. -/
def execPrefixRefetch (s : State) : Out :=
  match findPrefix s s.ev.n with
  | none => .next s
  | some p =>
    if !p.wanted || p.refetching || p.lost then .next s
    else
      match p.clean with
      | none => .next (losePrefix p.pa s)
      | some c =>
        let (d, s) := drawDelay s
        .next (raiseEvent (modPrefix s p.pa fun p => { p with refetching := true, wanted := false, ready := s.now + refetchPace + d })
          0x0A none (some p.world) noRecord [p.pa, c])

/-- A line of a page is poisoned at its home. -/
def pagePoisoned (s : State) (page : Nat) (slot : BitVec 12) : Bool :=
  (List.range 1024).any fun i => (lineAt s (page + 64 * i) slot).poison

/-- The page for a new replica: free, in the old page's tier, and in HBM in its region. -/
def refetchPage (s : State) (old : Nat) : Option Nat :=
  match tierOf old with
  | .hbm => lowestIn s (regionBase (old / 0x800000000)) (regionBase (old / 0x800000000 + 1))
  | .hbf => lowestIn s hbfBase 0x80000000000
  | _ => lowestCxl s

/-- The clean home copied to a new replica page, which takes the old one's translations and registration; the old page is freed (R131 steps 2 to 4). -/
def replaceReplica (p : Prefix) (c page : Nat) (s : State) : State :=
  let old := p.pa
  let tier := ((assocGet s.pages old).map (·.2)).getD 2
  let slot := pageKeySlot s c
  let s := chargePages (takePage s page p.world tier) p.world tier 1
  let s := if tier = 1 then { s with programmed := s.programmed ++ [page] } else s
  let s := (List.range 1024).foldl (fun s i => copyLine s (c + 64 * i) (page + 64 * i) slot true) s
  let gone := s.ptes.filter fun q => q.pa = old
  let s := { s with ptes := s.ptes.map (fun q => if q.pa = old then { q with pa := page } else q),
                    replicas := s.replicas.filter (fun r => r.1 ≠ old) ++ [(page, some c)],
                    prefixes := s.prefixes.map fun q => if q.pa = old then { q with pa := page, refetching := false, wanted := false } else q }
  freeWhenIdle (gone.foldl (fun s q => shootdown s q.world q.va) s) old

/-- REFETCHING_MARK_CLEAR: the copy of the clean home ends. While no page is free for it, the page stays refetching (log 24). -/
def execRefetchingMarkClear (s : State) : Out :=
  match findPrefix s s.ev.n with
  | none => .next s
  | some p =>
    if !p.refetching then .next s
    else
      match p.clean with
      | none => .next (losePrefix p.pa s)
      | some c =>
        if pagePoisoned s c (pageKeySlot s c) then .next (losePrefix p.pa s)
        else
          match refetchPage s p.pa with
          | none => .next s
          | some page => .next (replaceReplica p c page s)

end Sys2Proof.Machine
end

