-- ==== Sys2Proof/Machine/FabricEvents.lean ====
section
/-! DEFINITION. Flits received over the fabric, remote accesses at their home and at their sender, ports, and membership views (03_links_trust R80 to
R89, R104 to R107; 16_isa_engines R447, R455). -/

namespace Sys2Proof.Machine

/-! ### Ports (R82 to R84) -/

/-- 1 ms on the 1.6 GHz clock. -/
def retrainGap : Nat := 1600000

/-- CRC_ERR counts up, saturating. -/
def countCrc (p : Port) : Port := { p with crcErr := if p.crcErr = 0xFFFF then p.crcErr else p.crcErr + 1 }

/-- The partition that owns a port. -/
def portOwner (s : State) (n : Nat) : Option Nat := (List.range 16).find? fun p => (getPart s p).ports.contains n

/-- A port to the same peer, of the same owner, that can carry the traffic of a port that goes down. -/
def otherPort (s : State) (n : Nat) (type : Nat) : Option Nat :=
  (List.range 18).find? fun m => m ≠ n && (getPort s m).peer = (getPort s n).peer && (getPort s m).st = portUp && portCarries (getPort s m) type
    && portOwner s m = portOwner s n

/-- The flits of a port that goes down take the other ports to the same peer, in order; with none, they wait for the port (R82). -/
def reroute (s : State) (n : Nat) : State :=
  let p := getPort s n
  (p.replay ++ p.pend).foldl (fun s f =>
    match otherPort s n (flitType f) with
    | some m => sendBy m f s
    | none =>
      let q := getPort s n
      setPort s n { q with pend := q.pend ++ [f] }) (setPort s n { p with replay := [], pend := [] })

/-- A port taken down: FABRIC_PORT_DOWN is raised, and its traffic rerouted. -/
def portDown (s : State) (n : Nat) : State :=
  let p := getPort s n
  let s := setPort s n { p with st := 0, lanes := 0, replays := 0, resends := 0, retrainAt := s.now + retrainGap }
  raiseEvent (reroute s n) 0x05 none none noRecord [n, p.peer]

/-- A flit that waits for nothing put on the lanes of a port: NULL flits take no sequence number. -/
def sendNull (n : Nat) (tag : BitVec 16) (s : State) : State :=
  let p := getPort s n
  let f := sealFlit s p { makeFlit s p.peer flitNull 0 0 0 tag [] with port := n, seq := p.txSeq, ack := p.rxSeq }
  { s with lanesOut := s.lanesOut ++ [f] }

/-- The tag of a NULL flit that requests a replay, from the sequence number that it acknowledges on (R82; log 13). -/
def replayTag : BitVec 16 := 1

/-- FLIT_CHECK_FAIL: the flit is discarded and counted, and a replay is requested from after the last good one; a flit replayed 16 times without success
takes the port down (R82). -/
def execFlitCheckFail (s : State) : Out :=
  let n := s.ev.n
  let p := getPort s n
  if p.st ≠ portUp then .next s
  else
    let s := setPort s n { countCrc p with replays := p.replays + 1 }
    .next (if p.replays < 16 then sendNull n replayTag s else portDown s n)

/-- A replay: every flit of the buffer goes out again, in order; the oldest may be replayed 16 times without success (R82). -/
def replayAll (n : Nat) (s : State) : State :=
  let p := getPort s n
  if p.replay.isEmpty then s
  else if 16 ≤ p.resends then portDown s n
  else setPort { s with lanesOut := s.lanesOut ++ p.replay } n { p with resends := p.resends + 1 }

/-! ### Link keys (R83) -/

/-- The link key of a port under a view (R83). -/
def linkKey (secret view node peer : Nat) : Nat :=
  leNat (Config.shake256 (leBytes 32 secret ++ leBytes 4 view ++ leBytes 4 (min node peer) ++ leBytes 4 (max node peer)
    ++ [0x4B, 0x51, 0x2D, 0x4C, 0x49, 0x4E, 0x4B]) 32)

/-- A port whose peer is authenticated serves the view of a group that both are in, under its link key; a port that serves a group keeps it (R83; log
13). -/
def joinPort (n : Nat) (s : State) : State :=
  let p := getPort s n
  if !p.auth || p.serves.isSome then s
  else
    match (List.range 8).find? fun i => (getGroup s i).valid && (getGroup s i).members.contains p.peer with
    | none => s
    | some i =>
      let g := getGroup s i
      setPort s n { p with serves := some i, key := linkKey g.secret g.view.toNat s.node.toNat p.peer }

/-- A port that serves a group no more: its link key is destroyed (R94). -/
def leavePort (p : Port) : Port := { p with serves := none, key := 0 }

/-- The link keys of a slot's new view installed on the ports to its members; those to other packages serve it no more (R104). -/
def installKeys (slot : Nat) (s : State) : State :=
  let g := getGroup s slot
  let key (p : Port) : Port :=
    if p.serves ≠ some slot then p
    else if g.members.contains p.peer then { p with key := linkKey g.secret g.view.toNat s.node.toNat p.peer }
    else leavePort p
  (List.range 18).foldl (fun s n => joinPort n s) { s with ports := s.ports.map key }

/-- PORT_RETRAIN, at most once per millisecond: the port comes up to its peer with its lanes, or is refused, and fails at the eighth refusal in a
row (R82, R84). A link that retrains out of use takes the port down first. A new peer is still to be authenticated; to an old one the flits that wait
are sent again. -/
def execPortRetrain (s : State) : Out :=
  let n := s.ev.n
  let p := getPort s n
  if 18 ≤ n then .next s
  else if p.st = portUp then .next (if s.ev.flag then s else portDown s n)
  else if s.now < p.retrainAt then .next s
  else if s.ev.flag then
    let lanes := if 1 ≤ s.ev.v.toNat && s.ev.v.toNat ≤ 4 then s.ev.v.toNat else 4
    let peer := s.ev.k % 2 ^ 18
    let q := if peer = p.peer then p else { leavePort p with auth := false, replay := [], pend := [] }
    let s := setPort s n { q with st := portUp, lanes := BitVec.ofNat 3 lanes, peer := peer, refusals := 0, replays := 0, retrainAt := s.now + retrainGap }
    .next (joinPort n (fillReplay n (replayAll n s)))
  else .next (setPort s n { p with st := if 8 ≤ p.refusals + 1 then 3 else 1, refusals := p.refusals + 1, retrainAt := s.now + retrainGap })

/-- LINK_REKEY: a port rekeys when the wrap count of a direction reaches 2^32; the new key is free (log 9). -/
def execLinkRekey (s : State) : Out :=
  let n := s.ev.n
  let p := getPort s n
  if p.txWraps < 2 ^ 32 && p.rxWraps < 2 ^ 32 then .next s
  else
    let (k, s) := drawWord s
    .next (setPort s n { p with key := k.toNat, txWraps := 0, rxWraps := 0, rekeys := if p.rekeys = 255 then 255 else p.rekeys + 1 })

/-! ### Flits received (R80 to R83) -/

/-- The replay buffer after an acknowledgement: the flits with a lower sequence number leave it. -/
def acknowledged (ack : BitVec 16) (l : List Flit) : List Flit := l.filter fun f => !((ack - f.seq).toNat ≠ 0 && (ack - f.seq).toNat < 0x8000)

/-- An acknowledgement taken by a port, whose replay buffer then takes what waits. -/
def takeAck (n : Nat) (ack : BitVec 16) (s : State) : State :=
  let p := getPort s n
  let rest := acknowledged ack p.replay
  fillReplay n (setPort s n { p with replay := rest, resends := if rest.length = p.replay.length then p.resends else 0 })

/-- A flit taken in link order: its acknowledgement, and the next sequence number expected. -/
def receiveFlit (n : Nat) (ack : BitVec 16) (s : State) : State :=
  let s := takeAck n ack s
  let p := getPort s n
  setPort s n { p with rxSeq := p.rxSeq + 1, rxWraps := if p.rxSeq = 0xFFFF then p.rxWraps + 1 else p.rxWraps, replays := 0 }

/-- A flit at a port that serves no group: remote accesses are answered with NACK until the package rejoins, and anything else is dropped (R83, R108). -/
def outsideGroup (f : Flit) (s : State) : State :=
  if flitType f = flitLdReq || flitType f = flitAtomReq then
    sendBy f.port (makeFlit s (flitSrc f) flitNack (flitWorld f) (flitGroup f) (flitView f) (flitTag f) []) s
  else s

/-- A flit of the given type at its port, in link order: the flit, with its acknowledgement taken and the next sequence number expected. A flit of
another type than the event names, or a reserved one, is dropped and counted; a flit out of link order is dropped (R81, R82). -/
def acceptFlit (type : Nat) (act : Flit → State → State) (s : State) : Out :=
  let f := s.ev.flit
  let p := getPort s f.port
  if p.st ≠ portUp then .next s
  else if flitType f ≠ type then .next (setPort s f.port (countCrc p))
  else if f.seq ≠ p.rxSeq then .next s
  else
    let s := receiveFlit f.port f.ack s
    .next (if p.serves.isNone then outsideGroup f s else if flitDst f = s.node.toNat then act f s else s)

/-- NULL: an acknowledgement, or a request for a replay; it takes no sequence number. -/
def execNull (s : State) : Out :=
  let f := s.ev.flit
  let p := getPort s f.port
  if p.st ≠ portUp then .next s
  else if flitType f ≠ flitNull then .next (setPort s f.port (countCrc p))
  else
    let s := takeAck f.port f.ack s
    .next (if flitTag f = replayTag then replayAll f.port s else s)

/-! ### At the home of a remote access (R87, R88) -/

/-- The fields of a request slot (log 13). -/
def reqOffset (f : Flit) : Nat := (flitLine f 0).toNat % 2 ^ 64
def reqOperand (f : Flit) : Nat := (flitLine f 0).toNat / 2 ^ 64 % 2 ^ 64
def reqExpected (f : Flit) : Nat := (flitLine f 0).toNat / 2 ^ 128 % 2 ^ 64
def reqOp (f : Flit) : Nat := (flitLine f 0).toNat / 2 ^ 192 % 16
def reqSize (f : Flit) : Nat := (flitLine f 0).toNat / 2 ^ 196 % 128

/-- Remote reads and atomics in service: those whose responses wait in a replay buffer. -/
def serving (s : State) : Nat :=
  (s.ports.toList.map fun p => ((p.replay ++ p.pend).filter fun f => flitType f = flitLdRsp || flitType f = flitAtomRsp).length).foldl (· + ·) 0

/-- A flit in answer to another. -/
def reply (f : Flit) (type : Nat) (slots : List (Nat × Nat)) (s : State) : State :=
  sendFlit s none (flitSrc f) type (flitWorld f) (flitGroup f) (flitView f) (flitTag f) slots

/-- A remote access is served while the package is in the domain and fewer than 4,096 are in service; others are answered with NACK (R88, R108). -/
def serve (f : Flit) (act : State → State) (s : State) : State :=
  if serving s < 4096 && ((lsdGroup s).map fun g => g.num.toNat) = some (flitGroup f) then act s else reply f flitNack [] s

/-- LD_REQ: the line with its sideband. -/
def serveLoad (f : Flit) (s : State) : State :=
  let pa := reqOffset f
  let l := readLine s pa (pageKeySlot s pa)
  let s := if l.poison then notePoison s pa fabricAgent else s
  reply f flitLdRsp [(leNat l.bytes, sideWord l.bytes { l.side with poison := l.poison })] s
where
  /-- The fabric's number among detecting agents (log 20). -/
  fabricAgent : Nat := 0x420

def execLdReq (s : State) : Out := acceptFlit flitLdReq (fun f => serve f (serveLoad f)) s

/-- How a remote atomic ended, in its response (log 13). -/
def atomDone : Nat := 0
def atomWorld : Nat := 1
def atomPoison : Nat := 2

/-- ATOM_REQ: the atomic performed at the line's home; the race field stays (09 R279). -/
def serveAtom (f : Flit) (s : State) : State :=
  let pa := reqOffset f
  let slot := pageKeySlot s pa
  let l := lineAt s pa slot
  let size := reqSize f
  if l.side.world ≠ flitWorld f then reply f flitAtomRsp [(atomWorld * 2 ^ 64, 0)] s
  else if l.poison then reply f flitAtomRsp [(atomPoison * 2 ^ 64, 0)] (notePoison s pa serveLoad.fabricAgent)
  else
    let old := leNat ((l.bytes.drop (pa % 64)).take size)
    let m := 2 ^ (8 * size)
    let s := match atomResult (reqOp f) size old (reqOperand f % m) (reqExpected f % m) with
      | some v => writeLine s pa ((leBytes size v).zipIdx.map fun q => (pa % 64 + q.2, q.1)) (flitWorld f) none false slot none
      | none => s
    reply f flitAtomRsp [(old + atomDone * 2 ^ 64, 0)] s

def execAtomReq (s : State) : Out := acceptFlit flitAtomReq (fun f => serve f (serveAtom f)) s

/-! ### At the sender -/

/-- An S instruction that awaits a value fails: a precise trap where it still stalls; under a cut it is tried again. -/
def failAwaiting (c : CoreNo) (x : Failed) (s : State) : State :=
  let s := focus s c
  if s.core.hold = .none && s.core.phase = awaiting then sFail x (modCore (fun k => { k with phase := 0 }) s) else sRetry c s

/-- The line of a column load that another package sent, or did not send. -/
def loadLine (r : Remote) (id : Nat) (line : BitVec 512) (poison : Bool) (fail : Option Failed) (s : State) : State :=
  let k := getCore s r.core
  putCore s r.core { k with loads := k.loads.map fun u => if u.id = id then
    { u with got := u.got ++ [(lineOf r.pa, BitVec.ofNat 512 (leNat (withOwnStores k r.pa (leBytes 64 line.toNat))))], poison := u.poison || poison,
             fail := u.fail.orElse fun _ => fail } else u }

/-- A line that another package sent goes into the cache that the load goes through, unless it is poisoned (06 R189, R190). -/
def fillCache (r : Remote) (line : BitVec 512) (d : Side) (s : State) : State :=
  if d.poison then s
  else
    let k := getCore s r.core
    let x : CacheLine := { va := r.va / 64 * 64, data := line, side := some d }
    putCore s r.core (if r.fill = 1 then { k with readCache := cachePut k.readCache x } else if r.fill = 2 then { k with constCache := cachePut k.constCache x } else k)

/-- The world check of a line that another package sent, at the reader's core port (R97). -/
def remoteFail (s : State) (r : Remote) (d : Side) : Option Failed :=
  let w := (getCore s r.core).sys.world
  let l : LineView := { bytes := [], side := d, poison := false, unwritten := false }
  match findPte s w r.va with
  | none => some (failAt .unmapped r.va)
  | some p => if worldReads s w p l then none else some (failAt .world r.va)

/-- The value of an S load, or the poll of a CWAIT. -/
def finishLoad (r : Remote) (line : BitVec 512) (s : State) : State :=
  let x := line.toNat / 2 ^ (8 * (r.pa % 64)) % 2 ^ (8 * r.size)
  match r.target with
  | some t => if reached x t.toNat then sComplete r.core 0 0 4 s else sRetry r.core s
  | none => sComplete r.core r.dest (extend r.signed r.size x) 1 s

/-- A line of a launch record has come; LAUNCH goes on with it (05 R156). -/
def keepRecord (r : Remote) (line : BitVec 512) (s : State) : State :=
  let k := getCore s r.core
  sRetry r.core (putCore s r.core { k with recLines := assocPut k.recLines (lineOf r.pa) line })

/-- The answer of a remote read: its line and sideband, which the reader's core port checks. -/
def endRead (r : Remote) (line : BitVec 512) (d : Side) (s : State) : State :=
  let fail := remoteFail s r d
  let s := if fail.isNone then fillCache r line d s else s
  match r.load, fail with
  | some id, _ => loadLine r id line d.poison fail s
  | none, some x => failAwaiting r.core x s
  | none, none =>
    if d.poison then failAwaiting r.core (failAt .poison (r.va / 64 * 64)) s
    else if r.record then keepRecord r line s
    else finishLoad r line s

/-- The remote access that a flit answers, taken from those in flight. -/
def answered (f : Flit) (atomic : Bool) (act : Remote → State → State) (s : State) : State :=
  match s.remotes.find? fun r => r.tag = flitTag f && r.isAtomic = atomic with
  | none => s
  | some r => act r { s with remotes := s.remotes.filter fun x => x.tag ≠ r.tag }

/-- LD_RSP. -/
def execLdRsp (s : State) : Out :=
  acceptFlit flitLdRsp (fun f => answered f false fun r => endRead r (flitLine f 0) (wordSide (flitSide f 0) 0)) s

/-- The release point of a remote atomic that is a release write: it acts at scope dom, and the line's race field stays (09 R275, R279, R280). -/
def remoteRelease (r : Remote) (old : Nat) (s : State) : State :=
  let m := 2 ^ (8 * r.size)
  if r.release && (atomResult r.op r.size (old % m) (r.operand.toNat % m) (r.expected.toNat % m)).isSome then releasePoint s r.core 3 .releaseWrite [] else s

/-- The release points of a combined add of another package: of those participants that a fence has armed. -/
def aggRelease (ps : List Participant) (s : State) : State :=
  (sortBy (fun a b => a.core < b.core) ps).foldl (fun s p => if (getCore s p.core).relArmed then releasePoint s p.core 3 .releaseWrite [] else s) s

/-- The end of a remote atomic: its pre-value, to the core or to the participants of a combined add, or its failure. -/
def endAtom (f : Flit) (r : Remote) (s : State) : State :=
  let old := (flitLine f 0).toNat % 2 ^ 64
  let status := (flitLine f 0).toNat / 2 ^ 64 % 256
  if status = atomDone then
    if r.agg = [] then sComplete r.core r.dest (BitVec.ofNat 64 (old % 2 ^ (8 * r.size))) 1 (remoteRelease r old s)
    else aggAnswer r.agg r.size old (aggRelease r.agg s)
  else
    let x := if status = atomPoison then failAt .poison (r.va / 64 * 64) else failAt .world r.va
    if r.agg = [] then failAwaiting r.core x s else aggFail r.agg x s

/-- ATOM_RSP. -/
def execAtomRsp (s : State) : Out := acceptFlit flitAtomRsp (fun f => answered f true (endAtom f)) s

/-- REMOTE_RETRY of the access that the event names by its tag: it is sent again. -/
def execRemoteRetry (s : State) : Out :=
  match s.remotes.find? fun r => r.tag.toNat = s.ev.n && r.retryAt.isSome with
  | none => .next s
  | some r =>
    let r' := { r with retryAt := none }
    .next (sendRequest { s with remotes := s.remotes.map fun x => if x.tag = r.tag then r' else x } r')

/-! ### COPYR (16 R447) -/

/-- The COPYR of this package with a transaction tag, while it is in flight. -/
def copyrRun (s : State) (tag : BitVec 16) : Option RunCmd := s.running.find? fun r => r.eng = 0x08 && r.pending && r.xid = tag

/-- Lines of a COPYR acknowledged or arrived; it ends with the last (R447). -/
def countLines (r : RunCmd) (n : Nat) (poison : Bool) (s : State) : State :=
  let o := copyrOp { core := r.core, seq := r.seq, bits := r.bits }
  let r := { r with done := (r.done.1, r.done.2 + n), poisoned := r.poisoned || poison }
  if o.len / 64 ≤ r.done.2 then putRun (endsWith { r with pending := false } (cycOf s r.core) (if r.poisoned then stPoisoned else stOk) 0) s else putRun r s

/-- A COPYR ends: its data could not be carried. -/
def failCopyr (r : RunCmd) (status : Nat) (s : State) : State := putRun (endsWith { r with pending := false } (cycOf s r.core) status 0) s

/-- One line of a copy from another package, written with a neutral race field under the command's world; none where it fails its checks. -/
def putCopied (w : BitVec 6) (va : Nat) (line : BitVec 512) (poison : Bool) (s : State) : Option State :=
  match xlate s w va true false with
  | .error _ => none
  | .ok (p, pa) =>
    if tierOf pa = .domain || tierOf pa = .host || !worldWrites s w p (lineAt s pa p.keySlot) then none
    else some (writeLine s pa ((leBytes 64 line.toNat).zipIdx.map fun q => (q.2, q.1)) w neutral poison p.keySlot none)

/-- The lines of a COPY_DATA flit, from slot 1 on; none where one fails. -/
def putAll (f : Flit) (va : Nat) (s : State) : Option State :=
  (List.range (flitSlots f - 1)).foldl (fun s i => s.bind (putCopied (flitWorld f) (va + 64 * i) (flitLine f (i + 1)) ((flitSide f (i + 1)).getLsbD 38))) (some s)

/-- One line read for another package, with its sideband's poison; none where it fails its checks. -/
def readCopied (s : State) (w : BitVec 6) (va : Nat) : Option (List Byte × Bool × Nat) :=
  match xlate s w va false false with
  | .error _ => none
  | .ok (p, pa) =>
    if tierOf pa = .domain || tierOf pa = .host || !worldReads s w p (lineAt s pa p.keySlot) then none
    else
      let l := readLine s pa p.keySlot
      some (l.bytes, l.poison, pa)

/-- The lines that another package asks for, in ascending address; a line that fails ends the copy with a NACK. -/
def sendCopied (f : Flit) (src back : Nat) : Nat → State → State
  | 0, s => s
  | n + 1, s =>
    match readCopied s (flitWorld f) src with
    | none => reply f flitNack [] s
    | some (b, poison, pa) =>
      let s := if poison then notePoison s pa serveLoad.fabricAgent else s
      let d : Side := { Side.neutral (flitWorld f) 0 with poison := poison }
      sendCopied f (src + 64) (back + 64) n (reply f flitCopyData [(copySlot0 back 64 0, 2), lineSlot b d] s)

/-- The world of a flit is a group world of its group. -/
def flitWorldOk (s : State) (f : Flit) : Bool :=
  match groupSlot s (flitGroup f) with
  | some i => groupWorld s (flitWorld f) i
  | none => false

/-- COPY_DATA: lines sent to this package, a request for lines of it, or the lines that it asked for (log 13). -/
def receiveCopy (f : Flit) (s : State) : State :=
  let x := (flitLine f 0).toNat
  let va := x % 2 ^ 64
  if !flitWorldOk s f then reply f flitNack [] s
  else if (flitSide f 0).toNat = 1 then sendCopied f va (x / 2 ^ 96 % 2 ^ 64) (x / 2 ^ 64 % 2 ^ 32 / 64) s
  else if (flitSide f 0).toNat = 2 then
    match copyrRun s (flitTag f) with
    | none => s
    | some r =>
      match putAll f va s with
      | none => failCopyr r stBadcmd s
      | some s => countLines r (flitSlots f - 1) ((flitBytes f).any (·.2)) s
  else
    match putAll f va s with
    | none => reply f flitNack [] s
    | some s => reply f flitCopyAck [(flitSlots f - 1, 0)] s

def execCopyData (s : State) : Out := acceptFlit flitCopyData receiveCopy s

/-- COPY_ACK: lines acknowledged. -/
def receiveAck (f : Flit) (s : State) : State :=
  match copyrRun s (flitTag f) with
  | none => s
  | some r => countLines r ((flitLine f 0).toNat % 256) false s

def execCopyAck (s : State) : Out := acceptFlit flitCopyAck receiveAck s

/-- NACK: a remote access is sent again after 256 cycles; a COPYR whose data was turned away ends with BADCMD (log 13). -/
def receiveNack (f : Flit) (s : State) : State :=
  if s.remotes.any fun r => r.tag = flitTag f then
    { s with remotes := s.remotes.map fun r => if r.tag = flitTag f then { r with retryAt := some (s.now + 256) } else r }
  else
    match copyrRun s (flitTag f) with
    | none => s
    | some r => failCopyr r stBadcmd s

def execNack (s : State) : Out := acceptFlit flitNack receiveNack s

/-- COL_DATA. -/
def execColData (s : State) : Out := acceptFlit flitColData receiveCol s

/-! ### Membership views (R104 to R107) -/

/-- Work with a departed member: reads return their data with poison, atomics raise a view-changed fault (R105). The data is free. -/
def departRemote (s : State) (r : Remote) : State :=
  if r.isAtomic then
    let x : Failed := { cause := .viewChanged, addr := BitVec.ofNat 64 r.va, detail := viewDetail s }
    if r.agg = [] then failAwaiting r.core x s else aggFail r.agg x s
  else
    let (x, s) := drawLine s
    match r.load with
    | some id => loadLine r id x true none s
    | none => failAwaiting r.core (failAt .poison (r.va / 64 * 64)) s
where
  drawLine (s : State) : BitVec 512 × State :=
    ((List.range 8).foldl (fun x i => x ||| (Config.freeWord (s.fresh + i)).setWidth 512 <<< (64 * i)) 0, { s with fresh := s.fresh + 8 })

/-- The COPYRs of a group slot to or from departed members end with VIEW_CHANGED. -/
def departCopies (slot : Nat) (left : List Nat) (s : State) : State :=
  (s.running.filter fun r => r.eng = 0x08 && r.pending && match copyrOp { core := r.core, seq := r.seq, bits := r.bits } with
    | o => o.group = slot && (left.contains o.srcNode || left.contains o.dstNode)).foldl (fun s r => failCopyr r stViewChanged s) s

/-- MEETs of a level of the load-store domain in progress end with a view-changed fault; the rounds of the new view count afresh (05 R144). -/
def loseMeets (s : State) : State :=
  let s := { s with meetHeard := [], arrivals := s.arrivals.map fun (a : Arrival) =>
      match findLaunch s a.part a.launch with
      | some l => if levelDomain l a.level = 4 && !a.complete then { a with viewLost := true } else a
      | none => a }
  { s with parts := s.parts.map fun (p : Part) => { p with launches := p.launches.map fun (l : Launch) => { l with meetSent := 0, meetDone := 0 } } }

/-- The group worlds of a slot. -/
def slotWorlds (s : State) (slot : Nat) : List Nat := (List.range 64).filter fun w => (getWorld s w).live && (getWorld s w).group = some slot

/-- After a leave every group world is swept under the key that the coordinator gives (R106); one whose sweep waits already takes that key. -/
def sweepGroup (slot : Nat) (s : State) : State := (slotWorlds s slot).foldl (fun s w => ((askSweep s w).map (·.1)).getD s) s

/-- The package leaves a group, whose link keys are destroyed (R94). -/
def leaveGroup (slot : Nat) (s : State) : State :=
  let s := { s with worlds := s.worlds.map (fun (w : World) => if w.group = some slot then { w with group := none, given := none } else w),
                    ports := s.ports.map fun (p : Port) => if p.serves = some slot then leavePort p else p }
  setGroup s slot Group.none

/-- The nodes of a list of members. -/
def nodesOf (l : List Nat) : List Nat := l.filter fun n => n ≠ noNode

/-- The keys that come with a view: a world that comes to the group takes the current key; after a leave the others take a new one, by a sweep (R106). -/
def takeKeys (slot : Nat) (keys : List (Nat × Nat)) (leaves : Bool) (s : State) : State :=
  (keys.filter fun x => 1 ≤ x.1 && x.1 < 64 && (getWorld s x.1).live).foldl (fun s x =>
    modWorld s x.1 fun w =>
      if w.group ≠ some slot then { w with group := some slot, key := x.2, given := none } else if leaves then { w with given := some x.2 } else w) s

/-- Aggregation windows that stand open for a word of a departed member: their participants take a view-changed fault (R105). -/
def departWindows (gone : List Window) (s : State) : State :=
  gone.foldl (fun s w => aggFail w.parts { cause := .viewChanged, addr := w.va, detail := viewDetail s } s) s

/-- A view applied to a group slot: the work under the old view ends by R105, the link keys and the view become current, and a leave starts the
sweeps of the group's worlds (R104 to R106). -/
def applyView (slot : Nat) (m : Memb) (s : State) : State :=
  let old := getGroup s slot
  let left := (nodesOf old.members).filter fun n => !m.members.contains n
  let away (pa : Nat) : Bool := old.lsd && (memberNode s (domainMember pa)).any fun n => left.contains n
  let gone := s.remotes.filter fun r => away r.pa
  let open_ := s.windows.filter fun w => !w.isCounter && isRemote s w.addr && away w.addr
  let s := departCopies slot left (if old.valid then endColls s slot else s)
  let s := if old.lsd then
      loseMeets { s with remotes := s.remotes.filter (fun r => !gone.contains r), windows := s.windows.filter fun w => !open_.contains w }
    else s
  let s := setGroup s slot { old with valid := true, pending := false, next := none, probes := [], num := m.group, view := m.view, members := m.members,
                                      secret := m.secret, member := BitVec.ofNat 10 m.member }
  let s := departWindows open_ (gone.foldl departRemote s)
  let s := raiseEvent (installKeys slot s) 0x0D none none noRecord [m.group.toNat, m.view.toNat]
  let s := takeKeys slot m.keys (!left.isEmpty) s
  let s := if left.isEmpty then s else sweepGroup slot s
  if m.members.contains s.node.toNat then s else leaveGroup slot s

/-! ### MEMB flits (R104) -/

/-- The members of a load-store domain at most (R86). -/
def domainSize : Nat := 1024

/-- The slot of a group that this package is in, or is to join. -/
def memberSlot (s : State) (group : BitVec 16) : Option Nat :=
  (List.range 8).find? fun i => ((getGroup s i).valid || (getGroup s i).pending) && (getGroup s i).num = group

/-- The slot that a new view goes to: the group's, or for a group new to this package the first free one. A package that is in a load-store domain
already joins no other, and a domain has at most 1,024 members (R86). -/
def commitSlot (s : State) (m : Memb) : Option Nat :=
  if m.domain && domainSize < m.members.length then none
  else
    match memberSlot s m.group with
    | some i => if (getGroup s i).valid && (getGroup s i).view = m.view then none else some i
    | none => if m.domain && (lsdGroup s).isSome then none else (List.range 8).find? fun i => !(getGroup s i).valid && !(getGroup s i).pending

/-- A new view received, which waits for its commit (R104, R107). -/
def receiveView (m : Memb) (s : State) : State :=
  match commitSlot s m with
  | none => s
  | some i => setGroup s i { getGroup s i with pending := true, num := m.group, next := some m }

/-- A view committed. A package that first joins a group takes its node identity (R85). -/
def enterView (i : Nat) (m : Memb) (s : State) : State :=
  let s := if s.node.toNat = noNode then { s with node := BitVec.ofNat 18 (m.members.getD m.member noNode) } else s
  let s := if (getGroup s i).valid then s else setGroup s i { Group.none with lsd := m.domain }
  applyView i m s

/-- The view that a commit names, where it has been received: its slot and what it holds. -/
def commitOf (s : State) (m : Memb) : Option (Nat × Memb) :=
  (memberSlot s m.group).bind fun i => ((getGroup s i).next.filter fun v => v.view = m.view).map fun v => (i, v)

/-- A commit. -/
def commitView (m : Memb) (s : State) : State :=
  match commitOf s m with
  | none => s
  | some x => enterView x.1 x.2 s

/-- This package is the coordinator of a group: it has the lowest node identity in the view. -/
def coordinates (s : State) (g : Group) : Bool := g.valid && (rankNodes g).head? = some s.node.toNat

/-- The code of a MEMB flit's kind (log 13). -/
def membCode : MembKind → Nat
  | .view => 0
  | .commit => 1
  | .join => 2
  | .leave => 3
  | .probe => 4
  | .answer => 5

/-- A MEMB message sent to a node, in as many flits as it takes: a header slot with the kind, the part and the length, and two lines of the message. -/
def sendMemb (node : Nat) (kind : MembKind) (g : Group) (view : BitVec 32) (body : List Byte) (s : State) : State :=
  (List.range (max 1 (ceilDiv body.length 128))).foldl (fun s i =>
    let part := (body.drop (128 * i)).take 128
    let line (b : List Byte) : Nat × Nat := (leNat (padTo 64 0 b), 0)
    let lines := (if part = [] then [] else [line (part.take 64)]) ++ if 64 < part.length then [line (part.drop 64)] else []
    sendFlit s none node flitMemb 0 g.num.toNat view.toNat 0 ((membCode kind + i * 2 ^ 8 + body.length * 2 ^ 24, 0) :: lines)) s

/-- A fresh secret of 32 bytes (log 7). -/
def drawSecret (s : State) : Nat × State :=
  ((List.range 4).foldl (fun x i => x + (Config.freeWord (s.fresh + i)).toNat * 2 ^ (64 * i)) 0, { s with fresh := s.fresh + 4 })

/-- The keys of a group's worlds for a new view: the current ones, or after a leave fresh ones (R106). -/
def viewKeys (slot : Nat) (leaves : Bool) (s : State) : List (Nat × Nat) × State :=
  (slotWorlds s slot).foldl (fun acc w =>
    if leaves then
      let (k, s) := drawKey acc.2
      (acc.1 ++ [(w, k)], s)
    else (acc.1 ++ [(w, (getWorld acc.2 w).key)], acc.2)) ([], s)

/-- The message of a new view for a member: the members, its index, the secret sealed under its ML-KEM key, and the world keys under the secret (R104,
R106; log 13). -/
def viewBody (m : Memb) (node : Nat) : List Byte :=
  leBytes 4 m.members.length ++ m.members.flatMap (leBytes 4) ++ leBytes 2 (m.members.idxOf node) ++ leBytes 2 m.domain.toNat
    ++ leBytes 1568 (Config.mlkemSeal node m.secret).toNat
    ++ m.keys.flatMap fun x => leBytes 4 x.1 ++ leBytes 64 (Config.wrapKey m.secret x.2).toNat

/-- The coordinator makes the next view with the given members: a fresh secret for each, the commit, and the view applied here (R104). -/
def makeView (slot : Nat) (members : List Nat) (s : State) : State :=
  let g := getGroup s slot
  let leaves := (nodesOf g.members).any fun n => !members.contains n
  let (secret, s) := drawSecret s
  let (keys, s) := viewKeys slot leaves s
  let m : Memb := { EvArgs.none.memb with kind := .view, group := g.num, view := g.view + 1, members := members, domain := g.lsd,
                                          member := members.idxOf s.node.toNat, keys := keys, secret := secret }
  let s := ((nodesOf members).filter fun n => n ≠ s.node.toNat).foldl (fun s n =>
    sendMemb n .commit g m.view [] (sendMemb n .view g m.view (viewBody m n) s)) s
  applyView slot m s

/-- The members after a join: a node takes the first free member index of a domain (R86). -/
def joined (g : Group) (node : Nat) : List Nat :=
  if g.lsd && g.members.contains noNode then g.members.set (g.members.idxOf noNode) node else g.members ++ [node]

/-- The members after a leave: the member indexes of a domain stay (R86). -/
def without (g : Group) (node : Nat) : List Nat :=
  if g.lsd then g.members.map fun n => if n = node then noNode else n else g.members.filter fun n => n ≠ node

/-- A request to join: from a package that the group does not hold, where there is room. -/
def joinMember (i : Nat) (node : Nat) (s : State) : State :=
  let g := getGroup s i
  let l := joined g node
  if !coordinates s g || g.members.contains node || noNode ≤ node || (g.lsd && domainSize < l.length) then s else makeView i l s

/-- A request to leave, or a member that is lost. -/
def dropMember (i : Nat) (node : Nat) (s : State) : State :=
  let g := getGroup s i
  if !coordinates s g || !g.members.contains node || node = s.node.toNat || node = noNode then s else makeView i (without g node) s

/-- What a MEMB flit does. -/
def membAct (m : Memb) (s : State) : State :=
  match m.kind with
  | .view => receiveView m s
  | .commit => commitView m s
  | .join => match groupSlot s m.group.toNat with
    | some i => joinMember i m.node s
    | none => s
  | .leave => match groupSlot s m.group.toNat with
    | some i => dropMember i m.node s
    | none => s
  | .probe => match groupSlot s m.group.toNat with
    | some i => sendMemb m.node .answer (getGroup s i) (getGroup s i).view [] s
    | none => s
  | .answer => match groupSlot s m.group.toNat with
    | some i => setGroup s i { getGroup s i with probes := (getGroup s i).probes.filter fun x => x.1 ≠ m.node }
    | none => s

/-- MEMB, in link order, from an authenticated peer (R82, R83). -/
def execMemb (s : State) : Out :=
  let m := s.ev.memb
  let p := getPort s m.port
  if p.st ≠ portUp || !p.auth || m.seq ≠ p.rxSeq then .next s else .next (membAct m (receiveFlit m.port m.ack s))

/-! ### Probes (R104) -/

/-- 100 µs on the 1.6 GHz clock; the coordinator probes its members twice as often (log 82). -/
def probeLimit : Nat := 160000
def probePace : Nat := 80000

/-- The members of a group that the coordinator is to probe now: those with no probe outstanding. -/
def toProbe (s : State) (i : Nat) : List Nat :=
  let g := getGroup s i
  if !coordinates s g || s.now % probePace ≠ 0 then []
  else (nodesOf g.members).filter fun n => n ≠ s.node.toNat && g.probes.all fun x => x.1 ≠ n

/-- The coordinator's probes. -/
def probeMembers (i : Nat) (s : State) : State :=
  let l := toProbe s i
  let g := getGroup s i
  let s := l.foldl (fun s n => sendMemb n .probe g g.view [] s) s
  setGroup s i { g with probes := g.probes ++ l.map fun n => (n, s.now) }

/-- The members of a group that have not answered for 100 µs. -/
def lostMembers (s : State) (i : Nat) : List Nat :=
  let g := getGroup s i
  if coordinates s g then (g.probes.filter fun x => x.2 + probeLimit ≤ s.now).map (·.1) else []

/-- MEMBER_LOST, of a group slot and a node: the coordinator makes the next view without the node. -/
def execMemberLost (s : State) : Out := .next (if (lostMembers s s.ev.n).contains s.ev.k then dropMember s.ev.n s.ev.k s else s)

end Sys2Proof.Machine
end

