-- ==== Sys2Proof/Machine/HostPart.lean ====
section
/-! DEFINITION. The admin commands on partitions: PART_CREATE, PART_RESIZE, PART_DESTROY and PART_RESET (04_host_interface R119, R120;
05_partitions_scheduler R133 to R136; 02_memory_tiers R49 to R51, R73). -/

namespace Sys2Proof.Machine

/-! ### Calendar maps -/

/-- A calendar map: slot and channel of each entry. -/
abbrev CalMap := List (Nat × Nat)

/-- A channel is calendared: it has trained, and it is not left without a spare (R30 step 6, R73). -/
def calendared (s : State) (ch : Nat) : Bool := (trainedBits s).testBit ch && (getChannel s ch).st ≠ 3

/-- The default map of a core (R51). -/
def defaultMap (c : CoreNo) : CalMap :=
  let i := c % 64
  (List.range 8).flatMap fun j => (List.range 8).map fun k => (i / 2 + 32 * j, 16 * (c / 64) + 8 * (i % 2) + k)

/-- A map read from its 128 bytes (R49). -/
def readMap (b : List Byte) : CalMap := (List.range 64).map fun i => let x := leNat ((b.drop (2 * i)).take 2); (x / 256, x % 256)

/-- The entries stand in ascending order of slot · 256 + channel. -/
def mapSorted : CalMap → Bool
  | x :: y :: rest => x.1 * 256 + x.2 < y.1 * 256 + y.2 && mapSorted (y :: rest)
  | _ => true

/-- Slots that follow each other cyclically lie at most 64 apart, for slots in ascending order. -/
def gapsOk (slots : List Nat) : Bool :=
  match slots with
  | [] => true
  | a :: _ => (slots.zip (slots.drop 1 ++ [a + 256])).all fun p => p.2 ≤ p.1 + 64

/-- One map by itself: in order, on channels of the partition's islands, with no wide gap (R50). -/
def mapOk (islands : BitVec 16) (m : CalMap) : Bool :=
  mapSorted m && m.all (fun e => islands.getLsbD (e.2 / 16))
    && ((m.map (·.2)).eraseDups.all fun ch => gapsOk ((m.filter fun e => e.2 = ch).map (·.1)))

/-- The cores of an island mask, in ascending number. -/
def maskCores (islands : BitVec 16) : List CoreNo :=
  ((List.range 16).filter fun n => islands.getLsbD n).flatMap fun n => (List.range 64).map (64 * n + ·)

/-- The maps of a block in host memory, or the default maps; none where the block cannot be read whole or breaks R49 or R50 (R120). -/
def calendarMaps (s : State) (islands : BitVec 16) (block : Nat) : Option (List (CoreNo × CalMap)) :=
  let cores := maskCores islands
  if block = 0 then some (cores.map fun c => (c, defaultMap c))
  else
    match hostRead s block (128 * cores.length) with
    | none => none
    | some b =>
      let maps := cores.zipIdx.map fun x => (x.1, readMap ((b.drop (128 * x.2)).take 128))
      let pairs := maps.flatMap (·.2)
      if maps.all (fun m => mapOk islands m.2) && pairs.eraseDups.length = pairs.length then some maps else none

/-- Maps installed for the cores of an island mask in place of what stood there; channels that are not calendared drop out. -/
def installMaps (s : State) (old : BitVec 16) (maps : List (CoreNo × CalMap)) : State :=
  let rest := s.calMaps.filter fun m => !old.getLsbD (m.1 / 64)
  let fresh := maps.map fun m => (m.1, m.2.filter fun e => calendared s e.2)
  { s with calMaps := fresh.foldl (fun l m => assocPut l m.1 m.2) rest }

/-! ### PART_CREATE -/

/-- The islands that a mask names, and the partition's number. -/
def partMask (h : HostCmd) : BitVec 16 := BitVec.ofNat 16 (hfld h 32 2)
def partNo (h : HostCmd) : Nat := hfld h 24 1

/-- The islands that a PART_RESIZE still to take effect adds to a partition. -/
def islandsToCome (s : State) (p : Nat) : BitVec 16 :=
  s.hostRuns.foldl (fun m r => match r.wait with
    | .resize n mask _ => if n = p then m ||| mask else m
    | _ => m) 0

/-- An island of the mask belongs to a partition other than `n`, or is about to. -/
def islandTaken (s : State) (mask : BitVec 16) (n : Nat) : Bool :=
  (List.range 16).any fun i => mask.getLsbD i && (List.range 16).any fun p =>
    p ≠ n && (getPart s p).present && ((getPart s p).islands ||| islandsToCome s p).getLsbD i

/-- The lowest free fabric ports, as many as asked for; none where too few are free. -/
def takePorts (s : State) (n : Nat) : Option (List Nat) :=
  let free := (List.range 18).filter fun p => (List.range 16).all fun q => !((getPart s q).ports.contains p)
  if n ≤ free.length then some (free.take n) else none

def partCreateValid (h : HostCmd) (s : State) : Bool :=
  let _ := s
  hzero h 16 24 && hzero h 25 32 && hfld h 34 1 ≤ 8 && hfld h 35 1 ≤ 18 && hzero h 36 64

def partCreateAct (h : HostCmd) (s : State) : State × Answer :=
  let n := partNo h
  let mask := partMask h
  if 15 < n then refuse s stNosuch
  else if (getPart s n).present || islandTaken s mask n then refuse s stBadcmd
  else
    match takePorts s (hfld h 35 1), calendarMaps s mask (ptr0 h) with
    | some ports, some maps =>
      let p : Part := { Part.absent with present := true, islands := mask, ways := hfld h 34 1, ports := ports }
      (setPart (installMaps s mask maps) n p, .now stOk 0)
    | _, _ => refuse s stBadcmd

def execPartCreate (h : HostCmd) (s : State) : Out := hostCommand h (partCreateValid h) (partCreateAct h) s

/-! ### PART_RESIZE (05 R136) -/

/-- The gangs that wait in the queues of clusters that the partition loses go back to its scheduler. -/
def looseGangs (s : State) (p : Nat) : State :=
  let keep := partClusters (getPart s p)
  { s with gangs := s.gangs.map fun g => if g.part = p && g.st = .queued && !keep.contains g.cluster then { g with cluster := noCluster } else g }

/-- The dispatch gangs with a task on an island of the mask are stopped. -/
def stopOn (s : State) (p : Nat) (mask : BitVec 16) (reason : Nat) : State :=
  (s.gangs.filter fun g => g.part = p && g.st = .resident && (gangCores s g.id).any fun c => mask.getLsbD (c / 64)).foldl
    (fun s g => stopGang s g.id reason) s

/-- No task is resident on an island of the mask. -/
def maskFree (s : State) (mask : BitVec 16) : Bool := (coreNos s).all fun c => !(mask.getLsbD (c / 64)) || (getCore s c).task.isNone

/-- A launch that no longer fits fails with BADCMD; its gangs that are not resident are discarded, those that stand pre-empted among them (log 92). -/
def failUnfit (s : State) (p : Nat) (l : Launch) : State :=
  if validLaunch s p l.bits || l.st = .failed || l.st = .done then s
  else
    let s := modLaunch s p l.num fun l => { l with st := .failed, nextGang := gangTotal l, status := if l.status = 0 then 0x04 else l.status }
    let mine (g : Gang) : Bool := g.part = p && g.launch = l.num
    let stay := (s.gangs.filter fun g => mine g && g.st ≠ .queued && g.st ≠ .wide).map (·.idx)
    let s := dropTasks s p l.num fun t => t.part = p && t.launch = l.num && !stay.contains (gangOf s t)
    { s with gangs := s.gangs.filter fun g => !mine g || stay.contains g.idx }

/-- The partition takes its new islands, once the islands that it loses are free. -/
def applyResize (n : Nat) (mask : BitVec 16) (maps : List (CoreNo × CalMap)) (s : State) : State :=
  let old := (getPart s n).islands
  let s := evictLost n (modPart (installMaps s (old ||| mask) maps) n fun p => { p with islands := mask, closing := 0, reserved := [] })
  let s := { s with gangs := s.gangs.map fun g => if g.part = n && g.st = .wide then { g with cluster := noCluster } else g }
  let gone (p : Nat × Nat × Nat) (l : Launch) : Bool :=
    (partClusters (getPart s n)).all fun c => instanceOf (levelDomain l p.1) c ≠ p.2.2
  let s := modPart s n fun p => { p with launches := p.launches.map fun l => { l with places := l.places.filter fun x => !gone x l } }
  (getPart s n).launches.foldl (fun s l => failUnfit s n l) (looseGangs s n)

def partResizeValid (h : HostCmd) (s : State) : Bool :=
  let _ := s
  hzero h 16 24 && hzero h 25 32 && hzero h 34 64

def partResizeAct (h : HostCmd) (s : State) : State × Answer :=
  let n := partNo h
  let mask := partMask h
  let p := getPart s n
  if 15 < n || !p.present then refuse s stNosuch
  else if frozen p then refuse s stLocked
  else if islandTaken s mask n then refuse s stBadcmd
  else
    match calendarMaps s mask (ptr0 h) with
    | none => refuse s stBadcmd
    | some maps =>
      let lost := p.islands &&& ~~~mask
      if maskFree s lost then (applyResize n mask maps s, .now stOk 0)
      else
        let s := modPart s n fun p => { p with closing := lost }
        (stopOn (looseGangs s n) n lost reasonResize, .later (.resize n mask maps))

def execPartResize (h : HostCmd) (s : State) : Out := hostCommand h (partResizeValid h) (partResizeAct h) s

/-! ### PART_DESTROY and PART_RESET -/

/-- No operand but the partition's number. -/
def partOnly (h : HostCmd) (s : State) : Bool :=
  let _ := s
  hzero h 8 24 && hzero h 25 64

/-- A queue stops as when EN is cleared (R114). -/
def stopQueue (s : State) (q : Nat) : State := if (getQueue s q).en then putQueue s q { getQueue s q with en := false } else s

/-- A partition destroyed: its tasks discarded, its resources scrubbed and given up. -/
def destroyPartition (s : State) (n : Nat) : State :=
  let s := (partQueues n).foldl stopQueue (clearPartition s n)
  let islands := (getPart s n).islands
  let s := { s with calMaps := s.calMaps.filter (fun m => !islands.getLsbD (m.1 / 64)),
                    worlds := s.worlds.map fun w => { w with parts := w.parts &&& ~~~(BitVec.ofNat 16 (2 ^ n)) } }
  setPart s n Part.absent

def partDestroyAct (h : HostCmd) (s : State) : State × Answer :=
  let n := partNo h
  if 15 < n || !(getPart s n).present then refuse s stNosuch
  else if frozen (getPart s n) then refuse s stLocked
  else (destroyPartition s n, .now stOk 0)

def execPartDestroy (h : HostCmd) (s : State) : Out := hostCommand h (partOnly h) (partDestroyAct h) s

def partResetAct (h : HostCmd) (s : State) : State × Answer :=
  let n := partNo h
  if 15 < n || !(getPart s n).present then refuse s stNosuch else (resetPartition s n causeCommand, .now stOk 0)

def execPartReset (h : HostCmd) (s : State) : Out := hostCommand h (partOnly h) (partResetAct h) s

end Sys2Proof.Machine
end

