-- ==== Sys2Proof/Machine/HostQueue.lean ====
section
/-! DEFINITION. The commands of the partition queues: LAUNCH, COPY_H2D, COPY_D2H and OBJ_WAIT (04_host_interface R122; 05_partitions_scheduler R137,
R155). -/

namespace Sys2Proof.Machine

/-- The partition of a queue. -/
def queuePart (h : HostCmd) : Nat := h.queue / 16

/-! ### LAUNCH -/

def launchValid (h : HostCmd) (s : State) : Bool :=
  let _ := s
  hzero h 16 64

/-- The record is checked, and accepted into the pool; its objects are sampled. A ptr0 that is not aligned to 256 bytes is read as it stands (log 92). -/
def launchAct (h : HostCmd) (s : State) : State × Answer :=
  let p := queuePart h
  match hostRead s (ptr0 h) 256 with
  | none => refuse s stBadcmd
  | some b =>
    let bits : BitVec 2048 := BitVec.ofNat 2048 (leNat b)
    if launchWorld (Launch.accept 0 bits []) ≠ hostWorld h || !validLaunch s p bits then refuse s stBadcmd
    else if poolFull s p then refuse s stFull
    else
      let (n, s) := acceptLaunch s p bits []
      (sampleLaunches s, .now stOk n.toNat)

def execQueueLaunch (h : HostCmd) (s : State) : Out := hostCommand h (launchValid h) (launchAct h) s

/-! ### COPY_H2D and COPY_D2H -/

/-- The length of a copy, and the device address that it names. -/
def copyLen (h : HostCmd) : Nat := hfld h 24 8

def hostCopyValid (va : HostCmd → Nat) (h : HostCmd) (s : State) : Bool :=
  let _ := s
  copyLen h % 64 = 0 && va h % 64 = 0 && hzero h 32 64

/-- The queue engine's stamp on the lines that it writes: the neutral race field (09 R279). -/
def toDevice (w : BitVec 6) : Nat → Nat → Nat → State → State × Nat
  | 0, _, _, s => (s, 0)
  | n + 1, src, va, s =>
    match xlate s w va true false with
    | .error _ => (s, n + 1)
    | .ok (p, pa) =>
      if !worldWrites s w p (lineAt s pa p.keySlot) then (s, n + 1)
      else
        let bs := (cellRead s.mem (hostPa src) 64).zipIdx.map fun x => (x.2, x.1)
        toDevice w n (src + 64) (va + 64) (writeLine s pa bs w neutral false p.keySlot none)

/-- COPY_H2D: lines in ascending order, up to one that fails. -/
def h2dAct (h : HostCmd) (s : State) : State × Answer :=
  if !s.linkUp then refuse s stBadcmd
  else
    let (s, left) := toDevice (hostWorld h) (copyLen h / 64) (ptr0 h) (ptr1 h) s
    (afterIncrement s, .now (if left = 0 then stOk else stBadcmd) (copyLen h - 64 * left))

def execCopyH2d (h : HostCmd) (s : State) : Out := hostCommand h (hostCopyValid ptr1 h) (h2dAct h) s

/-- The number that the queue engine has among detecting agents (log 20). -/
def queueAgent : Nat := 0x400

/-- Lines sent to the host, up to one that fails: how many are left, and whether one left poisoned. A line of the load-store domain fails as one that
is not mapped does (log 92). -/
def toHost (w : BitVec 6) : Nat → Nat → Nat → Bool → State → State × Nat × Bool
  | 0, _, _, bad, s => (s, 0, bad)
  | n + 1, va, dst, bad, s =>
    match xlate s w va false false with
    | .error _ => (s, n + 1, bad)
    | .ok (p, pa) =>
      if tierOf pa = .domain || !worldReads s w p (lineAt s pa p.keySlot) then (s, n + 1, bad)
      else
        let l := readLine s pa p.keySlot
        let s := if l.poison then notePoison s pa queueAgent else s
        toHost w n (va + 64) (dst + 64) (bad || l.poison) (hostSend s dst l.bytes l.poison)

/-- COPY_D2H: POISONED where a line left poisoned. -/
def d2hAct (h : HostCmd) (s : State) : State × Answer :=
  if !s.linkUp then refuse s stBadcmd
  else
    let (s, left, bad) := toHost (hostWorld h) (copyLen h / 64) (ptr0 h) (ptr1 h) false s
    (s, .now (if left ≠ 0 then stBadcmd else if bad then stPoisoned else stOk) (copyLen h - 64 * left))

def execCopyD2h (h : HostCmd) (s : State) : Out := hostCommand h (hostCopyValid ptr0 h) (d2hAct h) s

/-! ### OBJ_WAIT -/

/-- The waits of a partition. -/
def objWaits (s : State) (p : Nat) : Nat :=
  (s.hostRuns.filter fun r => r.queue < 256 && r.queue / 16 = p && match r.wait with
    | .object .. => true
    | _ => false).length

def objValid (h : HostCmd) (s : State) : Bool :=
  let _ := s
  hzero h 16 24 && hzero h 32 64 && ptr0 h % 16 = 0

def execObjWait (h : HostCmd) (s : State) : Out :=
  hostCommand h (objValid h) (fun s =>
    if 256 ≤ objWaits s (queuePart h) then refuse s stFull
    else if (findPte s (hostWorld h) (ptr0 h)).isNone then refuse s stNosuch
    else (s, .later (.object (hostWorld h) (ptr0 h) (BitVec.ofNat 64 (hfld h 24 8))))) s

end Sys2Proof.Machine
end

