-- ==== Sys2Proof/Machine/Power.lean ====
section
/-! DEFINITION. Boot, hot reset, power and the clocks of islands (01_package R20 to R32; 03_links_trust R108). -/

namespace Sys2Proof.Machine

/-! ### Boot (R30, R31) -/

/-- A signature of an image or a record, of 29,792 bytes (03 R90). -/
def signed (data sig : List Byte) : Bool := sig.length = 29792 && Config.slhVerify data sig

/-- A slot passes step 2. -/
def slotVerifies (x : FwSlot) (floor : Nat) : Bool := signed x.image x.sig && decide (floor ≤ x.security)

/-- The slot that step 2 takes, true for B. -/
def bootSlot (f : Flash) (floor : Nat) : Option Bool :=
  if slotVerifies f.slotA floor then some false else if slotVerifies f.slotB floor then some true else none

/-- The record passes step 4. -/
def recordVerifies (f : Flash) : Bool := signed f.record.content f.record.sig && decide (f.recordCounter ≤ f.record.seq)

/-- Recovery mode, with its event: the step that failed and the slot last tried. It holds no world keys (R32; 04 R121). -/
def enterRecovery (step : Nat) (slot : Dword) (s : State) : State :=
  let e : Event := { tick := s.tick, kind := 0x0E, part := none, world := none, record := BitVec.ofNat 32 noRecord, args := [step, slot.toNat] }
  let s := { s with worlds := s.worlds.setIfInBounds 0 World.absent }
  { s with phase := .recovery, recovery := (s.recovery ++ [e]).drop (s.recovery.length + 1 - 64), recoveryUnread := min 64 (s.recoveryUnread + 1),
           msix := s.msix ++ [(pf0, 0)] }

/-- The stroke period in force: 250 to 8,000 ns (00 R8; log 86). -/
def strokeBound (ns : Nat) : Nat := max 250 (min 8000 ns)

/-- Step 5: the record's settings in force (R8, R27; 02 R70), each bounded to its range (log 86). What the island limits and the template do, no rule
says (log 87). -/
def applyRecord (r : CfgRecord) (defaulted : Bool) (s : State) : State :=
  let cap := capStored 3600 r.powerCap
  let thresh : BitVec 15 := if r.thresh = 0 then 1 else r.thresh
  let win : BitVec 5 := if r.winExp.toNat < 16 then 16 else if 30 < r.winExp.toNat then 30 else r.winExp
  { s with powerCap := cap, recordCap := cap, strokeNs := strokeBound r.strokeNs, ways := min 8 r.ways, thresh := thresh, winExp := win,
           cfgDefaulted := defaulted, islandLimits := r.limits, template := r.template, recordInForce := r.content, cxlIde := r.cxlIde,
           channels := s.channels.map fun c => { c with thresh := thresh, winExp := win },
           linkStat := s.linkStat.map fun c => { c with thresh := thresh, winExp := win } }

/-- Step 6: a failing line takes a spare while one is left (02 R69); the decoders of the CXL ports are set (02 R62). -/
def train (s : State) : State :=
  let used (l : List (Nat × Nat)) (most n : Nat) : BitVec 3 := BitVec.ofNat 3 (min most ((assocGet l n).getD 0))
  let f := s.flash
  { s with channels := s.channels.mapIdx fun n c => { c with spares := used f.failLines 4 n },
           linkStat := s.linkStat.mapIdx fun n c => { c with spares := used f.failLanes 2 n }, hdm := f.hdm, cxlUp := BitVec.allOnes 8 }

/-- The event log placed in world 0 memory, unless it stands there already (04 R123; log 20). -/
def placeLog (s : State) : State :=
  if s.logPa.isSome then s
  else
    let pa := Config.eventLogPage % 0x7FFFFF * 65536
    let va := Config.eventLogVa.toNat / 65536 * 65536
    let map (i : Nat) : Pte := { world := 0, va := va + 65536 * i, pages := 1, pa := pa + 65536 * i, write := false, exec := false, keySlot := 0 }
    { takePage (takePage s pa 0 0) (pa + 65536) 0 0 with logPa := some pa, ptes := s.ptes ++ [map 0, map 1] }

/-- Steps 6 and 7: links and memories trained, the firmware started, the admin queue ready. -/
def startFirmware (s : State) : State := { placeLog (train s) with phase := .booted, rdy := true }

/-- Steps 4 to 7, for the slot that step 2 took. -/
def bootOn (slot : Bool) (s : State) : State :=
  let f := s.flash
  let s := { s with ident := Config.identity f.seed }
  if recordVerifies f then
    let floor := max f.securityFloor f.record.floor
    let s := { s with flash := { f with securityFloor := floor, recordCounter := max f.recordCounter f.record.seq, slotB_chosen := slot } }
    let chosen := if slot then f.slotB else f.slotA
    if floor ≤ chosen.security then startFirmware (applyRecord f.record false s)
    else if slotVerifies (if slot then f.slotA else f.slotB) floor then
      startFirmware (applyRecord f.record false { s with flash := { s.flash with slotB_chosen := !slot } })
    else enterRecovery 2 (if slot then 0 else 1) { s with ident := 0 }
  else startFirmware (applyRecord f.factory true { s with flash := { f with slotB_chosen := slot } })

/-- The mask ROM's steps in order. -/
def boot (s : State) : State :=
  let f := s.flash
  if !f.directory then
    let (x, s) := drawWord s
    enterRecovery 1 x s
  else
    match bootSlot f f.securityFloor with
    | none => enterRecovery 2 1 s
    | some slot => if f.puf then bootOn slot s else enterRecovery 3 (if slot then 1 else 0) { s with flash := { f with slotB_chosen := slot } }

/-- The inputs still to come, on a clock that begins anew. -/
def shiftInputs (s : State) : List (Cycle × Instr × EvArgs) := s.inputs.map fun x => (x.1 - s.now, x.2)

/-- A power cycle: flash, the HBF, its wear and the host's memory stay; every key but those of world 0 is gone (03 R94, R108). -/
def powerCycle (s : State) : State :=
  { State.reset with
    flash := s.flash, mem := s.mem.filter (fun c => tierOf c.1 = .hbf || tierOf c.1 = .host), side := s.side.filter (fun c => tierOf c.1 = .hbf),
    programmed := s.programmed, wear := s.wear, inputs := shiftInputs s, ev := s.ev, fresh := s.fresh, stepping := s.stepping, modrev := s.modrev }

/-- POWER_ON_RESET: the boot steps, before which a package that already runs loses its power. -/
def execPowerOnReset (s : State) : Out := .next (boot (if s.phase = .preBoot then s else powerCycle s))

/-! ### Hot reset (03 R108) -/

/-- What world 0 keeps of its quota record: the used fields; every limit reads 0 at reset (02 R45). -/
def keptQuota (q : Quota) : Quota := { q with hbmLimit := 0, hbfLimit := 0, cxlLimit := 0, wayLimit := 0, wayUsed := 0, kvLimit := 0 }

/-- The package after the effects of a hot reset, before the boot steps. -/
def hotState (s : State) : State :=
  let live := (List.range 16).filter fun p => (getPart s p).present
  let s := live.foldl (fun s p => freeSeqs (releasePins (retireAll s p) p) p) s
  let kept (x : Nat × BitVec 6 × Nat) : Bool := x.2.1 = 0
  let lost := (s.pages.filter fun x => !kept x).map fun x => (x.1, x.2.1)
  let page (a : Nat) : Bool := s.pages.any fun x => x.1 = a && kept x
  { State.reset with
    flash := s.flash, stepping := s.stepping, modrev := s.modrev, mem := s.mem, side := s.side, ptes := s.ptes.filter (fun p => p.world = 0),
    pages := s.pages.filter kept, scrub := s.scrub ++ lost, replicas := s.replicas.filter (fun r => page r.1),
    quotas := State.reset.quotas.setIfInBounds 0 (keptQuota (getQuota s 0)), programmed := s.programmed, wear := s.wear,
    events := s.events, unread := s.unread, lostNext := s.lostNext, nextEvent := s.nextEvent, errors := s.errors, nextError := s.nextError, logPa := s.logPa,
    hostEp := s.hostEp, ownerChain := s.ownerChain,
    prefixes := s.prefixes.filter (fun p => page p.pa),
    aht := (s.aht.filter fun a => a.owner = 0).map (fun a => { a with vers := a.vers.map fun v => { v with resident := [] } }),
    inputs := shiftInputs s, ev := s.ev, fresh := s.fresh }

/-- HOT_RESET; the boot steps follow. -/
def execHotReset (s : State) : Out := .next (hotState s)

/-! ### Power (R27 to R29) -/

/-- POWER_TRIP: every new strip start is held. -/
def execPowerTrip (s : State) : Out := .next (raiseEvent { s with powerTripped := true } 0x02 none none noRecord [s.ev.n, s.ev.k])

def execPowerTripRelease (s : State) : Out := .next { s with powerTripped := false }

/-- THERMAL_POWER_OFF: no state is saved. -/
def execThermalPowerOff (s : State) : Out := .next { s with phase := .off }

/-- Compute islands in the order of their draw. -/
def drawOrder (s : State) : List Nat := (s.ev.list.filter fun n => n < 16).eraseDups

/-- The next hold of strip starts, by class 3, 2 and 1, on the island of highest draw first. -/
def nextHold (s : State) : Option (Nat × Nat) :=
  ([3, 2, 1].flatMap fun c => (drawOrder s).map fun n => (n, c)).find? fun x => !s.heldStrips.contains x

/-- The island whose clock steps down next. -/
def nextStep (s : State) : Option Nat := (drawOrder s).find? fun n => islandMin n < (getIsland s n).tgt

/-- GOVERNOR_WINDOW: one act while the power is above the cap; below it, what it withholds and holds is released. -/
def execGovernorWindow (s : State) : Out :=
  if s.ev.n < s.powerCap then .next { s with withhold := false, heldStrips := [] }
  else if s.ev.n = s.powerCap then .next s
  else if !s.withhold then .next { s with withhold := true }
  else
    match nextHold s with
    | some x => .next { s with heldStrips := s.heldStrips ++ [x] }
    | none =>
      match nextStep s with
      | none => .next s
      | some n => .next (setIsland s n (setTarget (getIsland s n) ((getIsland s n).tgt - 100)))

/-! ### Clock changes (R23 to R26) -/

/-- TGT_MHZ as stored: the highest permitted point at or below the value, or else the lowest point. -/
def pointOf (n mhz : Nat) : Nat :=
  if n < 16 then min 1600 (max 400 (mhz / 100 * 100)) else if mhz < 1600 then 800 else 1600

/-- A write of TGT_MHZ; islands 20 to 23 ignore it. -/
def writeTarget (n mhz : Nat) (s : State) : State := if n < 20 then setIsland s n (setTarget (getIsland s n) (pointOf n mhz)) else s

def execIslCtlTgtWrite (s : State) : Out := .next (writeTarget s.ev.n (s.ev.v.toNat % 4096) s)

/-- A core has a running strip. -/
def stripRuns (k : Core) : Bool := k.colL.run.isSome || k.colC.run.isSome || k.colW.run.isSome

/-- The cores whose strips count for an island: its own, or for a memory-base island those of every partition that owns a slice of it. -/
def drainCores (s : State) (n : Nat) : List CoreNo :=
  (coreNos s).filter fun c =>
    if n < 16 then islandOf c = n
    else match partOfCore s c with
      | some p => (baseIslands s p).contains n
      | none => false

/-- No strip runs on a draining island. -/
def islandDrained (s : State) (n : Nat) : Bool := (getIsland s n).st = .drain && (drainCores s n).all fun c => !stripRuns (getCore s c)

/-- 4 µs on the 1.6 GHz clock. -/
def relockCycles : Nat := 6400

/-- The SLATTN under way in slices of a memory-base island make no progress while it relocks. -/
def stallAttn (n : Nat) (s : State) : State :=
  { s with running := s.running.map fun (r : RunCmd) =>
      if r.eng = 0x10 && !r.buf.isEmpty && r.blocks.any (fun b => 16 + b / 32 = n) then
        let d := coreCycles s r.core relockCycles
        { r with due := r.due + d, land := r.land + d }
      else r }

/-- DRAIN_COMPLETE: the island's clock stops. -/
def execDrainComplete (s : State) : Out :=
  let i := getIsland s s.ev.n
  .next (if islandDrained s s.ev.n then
      stallAttn s.ev.n (setIsland s s.ev.n { i with st := .relock, goal := i.tgt, relockEnd := s.now + relockCycles })
    else s)

/-- ISLAND_ABANDON: DRAIN_TICKS ticks have passed. -/
def execIslandAbandon (s : State) : Out :=
  let i := getIsland s s.ev.n
  .next (raiseEvent (setIsland s s.ev.n { i with st := .steady, abandon := true, drained := 0 }) 0x01 none none noRecord [s.ev.n])

/-- RELOCK_END: the clock runs at its new rate; a target written meanwhile starts a new DRAIN. -/
def execRelockEnd (s : State) : Out :=
  let i := getIsland s s.ev.n
  let i := { i with cur := i.goal, st := .steady, acc := 0 }
  .next (setIsland s s.ev.n (setTarget i i.tgt))

end Sys2Proof.Machine
end

