-- ==== Sys2Proof/Machine/LinkEvents.lean ====
section
/-! DEFINITION. The host link, SPDM and IDE, and the TDISP states (03_links_trust R75, R78, R91, R109, R110). -/

namespace Sys2Proof.Machine

/-! ### Link-down and retraining (R109, R110) -/

/-- 1 s on the 1.6 GHz clock (R110). -/
def linkLimit : Nat := 1600000000

/-- HOST_LINK_DOWN: the queues halt, and the IDE keys and the SPDM session are destroyed. -/
def execHostLinkDown (s : State) : Out :=
  if !s.linkUp then .next s
  else
    .next { s with linkUp := false, linkHeld := true, linkDownAt := s.now, spdm := false, ideKeys := [],
                   ideLost := s.ideLost ++ s.ideKeys.filter fun k => !s.ideLost.contains k }

/-- The queues resume once a new session stands and every stream that was in use has a new key; held completions are then delivered in order. -/
def releaseLink (s : State) : State :=
  if s.linkUp && s.linkHeld && s.spdm && s.ideLost.all (fun k => s.ideKeys.contains k) then drainHeld { s with linkHeld := false, ideLost := [] } else s

/-- HOST_LINK_RETRAIN: the queues stay halted until the conditions of R110 hold. -/
def execHostLinkRetrain (s : State) : Out := .next (releaseLink { s with linkUp := true })

/-- The link has been down for 1 s. -/
def linkOverdue (s : State) : Bool := !s.linkUp && s.linkHeld && s.linkDownAt + linkLimit ≤ s.now

/-- HOST_LINK_LOST: the effects of a hot reset, with the link still down, and its event. -/
def execHostLinkLost (s : State) : Out :=
  if linkOverdue s then .next (raiseEvent { hotState s with linkUp := false } 0x06 none none noRecord []) else .next s

/-! ### SPDM and IDE_KM (R75, R91) -/

/-- What the measurement block of a partition covers: its layout, calendar maps, quotas and world bindings (log 9 gives the order). -/
def partitionBytes (s : State) (n : Nat) : List Byte :=
  let p := getPart s n
  let worlds := (List.range 64).filter fun w => (getWorld s w).parts.getLsbD n
  leBytes 2 p.islands.toNat ++ leBytes 1 p.ways ++ p.ports.flatMap (leBytes 1)
    ++ (s.calMaps.filter fun x => partOfCore s x.1 = some n).flatMap (fun x => leBytes 2 x.1 ++ x.2.flatMap fun e => leBytes 2 (256 * e.1 + e.2))
    ++ worlds.flatMap fun w => leBytes 1 w ++ quotaBytes (getQuota s w)

/-- The object that a measurement index names (R91). A partition is measured while it is frozen. -/
def measured (s : State) (index : Nat) : Option (List Byte) :=
  let fw := if s.flash.slotB_chosen then s.flash.slotB else s.flash.slotA
  match index with
  | 1 => some Config.maskRom
  | 2 => some (fw.image ++ leBytes 2 fw.security)
  | 3 => some s.recordInForce
  | 4 => some (capTable { s with powerCap := 0, islands := s.islands.map fun (i : Island) => { i with cur := 0 } })
  | i => if 16 ≤ i && i < 32 && frozen (getPart s (i - 16)) then some (partitionBytes s (i - 16)) else none

/-- SPDM is served: the device runs its firmware and the link is up; in recovery mode requests receive an error (R92). -/
def spdmServed (s : State) : Bool := s.phase = .booted && s.linkUp

/-- The measurement block of an index: a SHAKE256 digest of 64 bytes. -/
def measurement (s : State) (index : Nat) : SpdmReply :=
  match measured s index with
  | some b => if spdmServed s then .measurement index (Config.shake256 b 64) else .error
  | none => .error

def execSpdmGetMeasurements (s : State) : Out := .next { s with spdmReply := measurement s s.ev.n }

/-- The requests of SPDM beside those that have rows of their own: they come with the row SPDM_KEY_EXCHANGE, by `k` (log 9). -/
def spdmExchange : Nat := 0
def spdmEnd : Nat := 1
def spdmSetCertificate : Nat := 2
def spdmGetCertificate : Nat := 3

/-- The end of the host's session destroys its keys (R94). -/
def endSession (s : State) : State := { s with spdm := false, ideKeys := [], spdmReply := .none }

/-- The certificate chain in a slot: 0 the manufacturer's, whose leaf certifies the identity key, 1 the owner's, where one has been provisioned (R91). -/
def certificate (s : State) (slot : Nat) : SpdmReply :=
  if slot = 0 then .certificate 0 (Config.makerChain s.flash.seed)
  else if slot = 1 && s.ownerChain ≠ [] then .certificate 1 s.ownerChain
  else .error

/-- SPDM on the host port: a session where the host accepts an offered algorithm of each kind, else an error and no session; its end; and the
certificate slots, of which slot 1 is provisioned through the session (R91). -/
def hostSpdm (s : State) : State :=
  if !spdmServed s then { s with spdmReply := .error }
  else if s.ev.k = spdmEnd then (if s.spdm then endSession s else { s with spdmReply := .error })
  else if s.ev.k = spdmSetCertificate then
    (if s.spdm then { s with ownerChain := s.ev.list.map (BitVec.ofNat 8), spdmReply := .none } else { s with spdmReply := .error })
  else if s.ev.k = spdmGetCertificate then { s with spdmReply := certificate s s.ev.v.toNat }
  else if s.ev.flag then releaseLink { s with spdm := true, spdmReply := .session }
  else { s with spdmReply := .error }

/-- SPDM on a fabric port, as requester and responder: the peer is authenticated, and the session's key, which ML-KEM gives, guards its MEMB flits; the
end of the session destroys it (R83, R91, R94). -/
def fabricSpdm (n : Nat) (s : State) : State :=
  let p := getPort s n
  if s.phase ≠ .booted || p.st ≠ portUp then s
  else if s.ev.k = spdmEnd || !s.ev.flag then setPort s n { leavePort p with auth := false }
  else
    let (k, s) := drawSecret s
    joinPort n (setPort s n { leavePort p with auth := true, key := k })

/-- SPDM_KEY_EXCHANGE, on the host port 0 or on fabric port n - 1. -/
def execSpdmKeyExchange (s : State) : Out := .next (if s.ev.n = 0 then hostSpdm s else fabricSpdm (s.ev.n - 1) s)

/-- IDE_KM over the session programs the key of a stream: 0 the link stream, 1 + n that of function n, of which PF0 is function 16. -/
def execIdeKmKeyProg (s : State) : Out :=
  if spdmServed s && s.spdm && s.ev.n < 18 then
    .next (drainHeld (releaseLink { s with ideKeys := s.ideKeys.filter (fun k => k ≠ s.ev.n) ++ [s.ev.n] }))
  else .next s

/-! ### TDISP (R78) -/

/-- A partition that leaves CONFIG_UNLOCKED clears DBG_EN in its tasks of protected worlds (10_traps R320). -/
def clearBreaks (s : State) (n : Nat) : State :=
  let off (k : Core) : Core := { k with sys := { k.sys with dbgEn := false } }
  let guarded (t : TaskRef) : Bool := t.part = n && match findLaunch s t.part t.launch with
    | some l => launchWorld l ≠ 0
    | none => false
  let s := mapCores (fun _ k => if (k.task.map guarded) = some true then off k else k) s
  { s with contexts := s.contexts.map fun (x : Context) => if guarded x.task then { x with core := off x.core } else x }

/-- The TDI of a partition moves to a state. -/
def moveTdi (s : State) (n : Nat) (t : Tdisp) : State :=
  let s := if (getPart s n).tdisp = .unlocked && t ≠ .unlocked then clearBreaks s n else s
  modPart s n fun p => { p with tdisp := t }

/-- IDE_CHECK_FAIL on a partition's stream: ERROR. -/
def execIdeCheckFail (s : State) : Out := if (getPart s s.ev.n).present then .next (moveTdi s s.ev.n .error) else .next s

/-- LOCK_INTERFACE: CONFIG_UNLOCKED to CONFIG_LOCKED, and the device reports its measurements. -/
def execLockInterface (s : State) : Out :=
  let p := getPart s s.ev.n
  if p.present && p.tdisp = .unlocked then
    let s := moveTdi s s.ev.n .locked
    .next { s with spdmReply := measurement s (16 + s.ev.n) }
  else .next s

/-- START_INTERFACE: CONFIG_LOCKED to RUN. -/
def execStartInterface (s : State) : Out :=
  let p := getPart s s.ev.n
  if p.present && p.tdisp = .locked then .next (drainHeld (moveTdi s s.ev.n .run)) else .next s

/-- The tile pages of a partition: those of protected worlds in its HBM regions, and in the other tiers those of the worlds bound to it (log 38). -/
def scrubPages (s : State) (n : Nat) : List Nat :=
  (s.pages.filter fun x => x.2.1 ≠ 0 &&
    (if tierOf x.1 = .hbm then (getPart s n).islands.getLsbD (x.1 / 0x800000000) else (getWorld s x.2.1.toNat).parts.getLsbD n)).map (·.1)

/-- A partition scrubbed: its tasks gone, its scratchpads and registers zeroed, and its pages' lines zero. -/
def scrubPartition (s : State) (n : Nat) : State :=
  let s := clearPartition s n
  let pages := scrubPages s n
  let inPage (a : Nat) : Bool := pages.contains (a / 65536 * 65536)
  { s with mem := s.mem.filter (fun c => !inPage c.1), side := s.side.filter fun x => !inPage x.1 }

/-- STOP_INTERFACE: to CONFIG_UNLOCKED, after the scrub. -/
def execStopInterface (s : State) : Out :=
  let p := getPart s s.ev.n
  if p.present && p.tdisp ≠ .unlocked then .next (drainHeld (moveTdi (scrubPartition s s.ev.n) s.ev.n .unlocked)) else .next s

end Sys2Proof.Machine
end

