-- ==== Sys2Proof/Machine/TrapEvents.lean ====
section
/-! DEFINITION. Trap entries, the supervisor, debug stops, WDOG_SET and soft errors with rollback (10_traps R296 to R321; 05_partitions_scheduler R163). -/

namespace Sys2Proof.Machine

/-! ### TRAP_ENTRY (R297 to R299, R306) -/

/-- Traps in the order of their cycle and then of their stream. -/
def trapBefore (a b : Cycle × Trap) : Bool := a.1 < b.1 || (a.1 = b.1 && a.2.source < b.2.source)

/-- The first trap that waits and is due. -/
def dueTrap (s : State) (k : Core) (c : CoreNo) : Option (Cycle × Trap) :=
  if k.hold = .none && !k.stopped && k.task.isSome then (sortBy trapBefore (k.deferred.filter fun x => x.1 ≤ cycOf s c)).head? else none

/-- TRAP_ENTRY: a trap that was raised by a report is taken; TRAP_PC of an entry trap is where the S stream stopped (R302). -/
def execTrapEntry (s : State) : Out :=
  let s := focus s s.ev.core
  match dueTrap s s.core s.coreId with
  | none => .next s
  | some x =>
    let s := modCore (fun k => { k with deferred := k.deferred.erase x }) s
    .next (takeTrap (if x.2.entry then { x.2 with pc := s.core.pc } else x.2) s)

/-! ### SUPERVISOR_RESOLVE (R298, R301, R307, R308) -/

/-- A page that translation knows: of 64 KiB, 2 MiB or 1 GiB, aligned to its size, at a physical address of 52 bits (00_scope R9). -/
def pageOk (va pages pa : Nat) : Bool :=
  (pages = 1 || pages = 32 || pages = 16384) && va % (65536 * pages) = 0 && pa % (65536 * pages) = 0 && va < 2 ^ 64 && pa < 2 ^ 52

/-- A translation that system software installs: world, virtual address, pages, physical address, write, execute, key slot. What is no page is not
installed (log 95). -/
def installPte (s : State) (w va pages pa wr ex slot : Nat) : State :=
  let world : BitVec 6 := BitVec.ofNat 6 w
  let p : Pte := { world := world, va := va, pages := pages, pa := pa, write := wr ≠ 0, exec := ex ≠ 0, keySlot := BitVec.ofNat 12 slot }
  if pageOk va pages pa then shootdown { s with ptes := s.ptes.filter (fun q => !(q.world = world && q.va = p.va)) ++ [p] } world p.va else s

/-- The translations of a list of sevens. -/
def installAll : List Nat → State → State
  | w :: va :: pages :: pa :: wr :: ex :: slot :: rest, s => installAll rest (installPte s w va pages pa wr ex slot)
  | _, s => s

/-- The work of a command of the adapter engine. -/
def adapterWork (c : Cmd) : RunCmd → State → State :=
  match cmdCode c.bits, fld c 16 1 with
  | 0x20, _ => adpinWork c
  | 0x21, _ => adunpinWork c
  | _, 0 => createWork c
  | _, 1 => onLive c ownsHandle (grantAct c)
  | _, 2 => onLive c publishes prepareAct
  | _, 3 => onLive c publishes (commitAct c)
  | _, _ => onLive c ownsHandle deleteAct

/-- The work of a started command, from where it stands. -/
def workOf (c : Cmd) (r : RunCmd) (s : State) : State :=
  match r.eng, cmdCode r.bits with
  | 0x00, _ | 0x01, _ => copyWork c r s
  | 0x08, _ => copyrWork c r s
  | 0x10, _ => attnWork c r s
  | 0x11, 0x18 => mergeWork c r s
  | 0x11, 0x19 => unmergeWork c r s
  | 0x11, 0x1A => lgsaveWork c r s
  | 0x11, 0x1B => lgdropWork c r s
  | 0x12, _ => adapterWork c r s
  | 0x15, _ => if r.waiting || r.pending then colResume r s else colWork c r s
  | 0x16, _ => wloadWork c r s
  | _, _ => s

/-- A command that was parked, or that waited, goes on from its line. -/
def continueCmd (r : RunCmd) (s : State) : State :=
  let s := focus s r.core
  let r := { r with parked := none, wait := .none }
  workOf { core := r.core, seq := r.seq, bits := r.bits } r (putRun r s)

/-- The command, taken up and parked, that an entry of a fault queue names. -/
def parkedRun (s : State) (c : CoreNo) (eng : Nat) (seq : BitVec 32) : Option RunCmd :=
  s.running.find? fun r => r.core = c && r.eng = eng && r.seq = seq && r.parked.isSome

/-- The world and the page that an entry of a fault queue waits for. -/
def entryPage (s : State) (e : FaultEntry) : Option (BitVec 6 × Nat) :=
  let k := getCore s e.core
  match e.cmd with
  | none => match k.hold with
    | .faultQueue t => some (k.sys.world, t.addr.toNat / 65536)
    | _ => none
  | some (eng, seq) =>
    match parkedRun s e.core eng seq with
    | some r => (r.parked.map fun t => (r.world, t.addr.toNat / 65536))
    | none => (findEntry k eng seq).bind fun q => if q.parked then some (cmdWorld q.bits, cmdObject q.bits / 65536) else none

/-- An unstarted entry whose completion object could not be translated is accepted again (16_isa_engines R440). -/
def unparkEntry (eng : Nat) (seq : BitVec 32) (k : Core) : Core :=
  let i := engineIndex eng
  { k with engQ := k.engQ.setIfInBounds i ((k.engQ.toList.getD i []).map fun q => if q.seq = seq then { q with parked := false, accepted := none } else q) }

/-- One entry resolved: its task resumes with action 0, or its command goes on. -/
def resumeEntry (s : State) (e : FaultEntry) : State :=
  match e.cmd with
  | none => goOn (cyc s + 1) (focus s e.core)
  | some (eng, seq) =>
    match parkedRun s e.core eng seq with
    | some r => continueCmd r s
    | none => putCore s e.core (unparkEntry eng seq (getCore s e.core))

/-- What stalls at a fault queue: a task, and the commands of it that have parked. -/
def stalledAt (s : State) (c : CoreNo) : List FaultEntry :=
  (match (getCore s c).hold with
    | .faultQueue _ => [{ core := c, cmd := none }]
    | _ => []) ++ (s.running.filter fun r => r.core = c && r.parked.isSome).map fun r => { core := c, cmd := some (r.eng, r.seq) }

/-- Tasks and commands that found the queue full take the places that are free, in ascending core (R307, R308; log 94). -/
def admitStalled (s : State) (cl : Nat) : State :=
  (((coreNos s).filter fun c => clusterOf c = cl).flatMap (stalledAt s)).foldl (fun s e => queueFault e s) s

/-- Every entry for the page of an entry resolved in one act (R307). -/
def resolvePage (e : FaultEntry) (s : State) : State :=
  let cl := clusterOf e.core
  let u := getCluster s cl
  let page := entryPage s e
  let mine := u.faultQ.filter fun x => x = e || (page.isSome && entryPage s x = page)
  let s := putCluster s { u with faultQ := u.faultQ.filter fun x => !mine.contains x }
  admitStalled (mine.foldl resumeEntry s) cl

/-- A task fails with the cause of its trap (05 R147). -/
def failAs (c : Cause) (s : State) : State := failTask (causeCode c) s

/-- An entry that cannot be resolved: its task fails, its command completes with BADCMD, or, with nowhere to report, is discarded with its task
(R307, R308; 16 R440). -/
def failEntry (e : FaultEntry) (s : State) : State :=
  let cl := clusterOf e.core
  let u := getCluster s cl
  let s := focus (putCluster s { u with faultQ := u.faultQ.filter fun x => x ≠ e }) e.core
  let s :=
    match e.cmd with
    | none => match s.core.hold with
      | .faultQueue t => failAs t.cause s
      | _ => s
    | some (eng, seq) =>
      match parkedRun s e.core eng seq with
      | some r => haltRun (stopWith stBadcmd) { r with parked := none } s
      | none => failAs .unmapped (modCore (dropEntry eng seq) s)
  admitStalled s cl

/-- The oldest entry of the fault queue of the cluster of the core in focus: the supervisor takes entries in order (R307). -/
def firstEntry (s : State) : Option FaultEntry := (getCluster s (clusterOf s.coreId)).faultQ.head?

/-- What the supervisor does with a trap that it holds; a nested trap fails its task (R301). -/
def resolveHeld (t : Trap) (act : SupAct) (s : State) : State :=
  match act with
  | .resume => if s.core.sys.trapCause.getLsbD 25 then failAs t.cause s else goOn (cyc s + 1) s
  | _ => failAs t.cause s

/-- SUPERVISOR_RESOLVE: for the task on a core that the supervisor holds, or else for the oldest entry of the fault queue of that core's cluster; `list`
holds the translations that it installs first. -/
def execSupervisorResolve (s : State) : Out :=
  let act := s.ev.act
  let s := focus (installAll s.ev.list s) s.ev.core
  match act, s.core.task with
  | .resetPartition, some t => .next (resetPartition s t.part causeSupervisor)
  | .resetPartition, none => .next s
  | _, _ =>
    match s.core.hold with
    | .supervisor t => .next (resolveHeld t act s)
    | _ =>
      match firstEntry s with
      | none => .next s
      | some e => .next (if act = .resume then resolvePage e s else failEntry e s)

/-! ### WDOG_SET (05 R163) -/

/-- The limit stored for the task that stands at a watchdog trap. -/
def applyLimit (c : CoreNo) (limit : BitVec 32) (s : State) : State :=
  let k := getCore s c
  match k.hold with
  | .supervisor t => if t.cause = .watchdog && k.task.isSome then putCore s c { k with sys := { k.sys with wdogLimit := limit } } else s
  | _ => s

def execWdogSetApply (s : State) : Out := .next (applyLimit s.ev.core (s.ev.v.setWidth 32) s)

/-! ### Debug stops (R320, R321) -/

/-- The image of a debug stop, in the save area with reason 5. -/
def debugImage (s : State) : State :=
  match s.core.task, taskLaunch s with
  | some t, some l =>
    if launchSave l = 0 then s
    else
      let st := match s.core.hold with
        | .supervisor _ => 2
        | _ => 1
      (contextImage s s.coreId s.core t st 5).foldl (fun s x => devWriteAll s s.core.sys.world (launchSave l + t.task.toNat * saveSize + x.1) x.2 none) s
  | _, _ => s

/-- One core's task stopped at its cut, with DBG_EN set where the request asks for it alone. -/
def stopCore (enable : Bool) (c : CoreNo) (s : State) : State :=
  let s := focus s c
  if s.core.task.isNone || debugClosed s then s
  else
    let s := if s.core.hold = .none then modCore (fun k => { k with hold := .debug }) (takeCut s) else s
    let s := modCore (fun k => { k with stopped := true, sys := { k.sys with dbgEn := k.sys.dbgEn || enable } }) s
    debugImage s

/-- STOP, of one task or of its dispatch gang. -/
def debugStop (c : CoreNo) (gang : Bool) (s : State) : State :=
  match (getCore s c).task with
  | none => s
  | some t => if gang then (gangCores s t.gang).foldl (fun s d => stopCore false d s) s else stopCore true c s

/-- RESUME: a stopped task goes on under R305, action 0. -/
def debugResume (c : CoreNo) (brkOff : Bool) (s : State) : State :=
  let s := focus s c
  if !s.core.stopped || s.core.task.isNone || debugClosed s then s
  else
    let s := modCore (fun k => { k with sys := { k.sys with dbgEn := k.sys.dbgEn && !brkOff } }) s
    if s.core.hold = .debug then pinAgain (resumeAt (cyc s + 1) s) else modCore (fun k => { k with stopped := false }) s

def execDbgStop (s : State) : Out :=
  .next (debugStop s.ev.core s.ev.flag (putCore s s.ev.core { getCore s s.ev.core with dbgGang := s.ev.flag }))

def execDbgResume (s : State) : Out := .next (debugResume s.ev.core s.ev.flag s)

/-! ### Rollback (R317) -/

/-- The machine fault of a task rolls its gang back: a checkpoint exists, the interval is not irrevocable, and fewer than 3 rollbacks came before. -/
def canRoll (k : Ckpt) : Bool := k.ord ≠ 0 && !k.irrev && k.rolls.toNat < 3

/-- A task belongs to the checkpoint gang. -/
def inCkpt (k : Ckpt) (t : TaskRef) : Bool := ckptIs t k

/-- Step 1: started commands end with ABORTED, unstarted entries are gone, and the tasks stop without a cut. -/
def rollStop (k : Ckpt) (s : State) : State :=
  let s := (s.running.filter fun r => inCkpt k r.task).foldl (fun s r => endNow { r with follow := none, trap := none } stAborted s) s
  let mine (c : Core) : Bool := (c.task.map (inCkpt k)) = some true
  let cores := (coreNos s).filter fun c => mine (getCore s c)
  let s := { s with clusters := s.clusters.map (fun (u : Cluster) => { u with faultQ := u.faultQ.filter fun e => !cores.contains e.core }),
                    remotes := s.remotes.filter (fun r => !cores.contains r.core), scFences := s.scFences.filter (fun f => !cores.contains f.core),
                    windows := s.windows.map fun w => { w with parts := w.parts.filter fun p => !cores.contains p.core } }
  mapCores (fun _ c => if mine c then { c with engQ := Vector.replicate 10 [], timed := [], loads := [], stores := [], fx := [], deferred := [] } else c) s

/-- Step 2: the first logged pre-image of each line restored. -/
def rollMemory (k : Ckpt) (s : State) : State :=
  let first := k.log.foldl (fun (l : List (Nat × Option Side × BitVec 512)) e => if l.any (fun x => x.1 = e.2.1) then l else l ++ [(e.2.1, e.2.2)]) []
  first.foldl (fun s x =>
    { s with mem := cellWrite s.mem x.1 (leBytes 64 x.2.2.toNat), side := match x.2.1 with
      | some d => assocPut s.side x.1 d
      | none => assocDel s.side x.1 }) s

/-- Step 3: pins and sequences of the interval undone, its maps dropped, and the copied maps back. -/
def rollStructures (k : Ckpt) (s : State) : State :=
  let s := k.pins.foldl (fun s p => releasePin s p.1 p.2.1 p.2.2) s
  let s := k.seqs.reverse.foldl (undoSeq k.part) s
  let s := freeMaps s fun m => m.part = k.part && inCkpt k { m.owner with part := m.part } && !(k.maps.any fun x => x.num = m.num && x.gen = m.gen)
  let back := k.maps.filter fun x => s.maps.all fun m => !(m.part = x.part && m.num = x.num && m.gen ≠ x.gen)
  { s with maps := s.maps.filter (fun m => !(back.any fun x => x.part = m.part && x.num = m.num)) ++ back }

/-- A task that ended in the interval is queued again. -/
def requeue (x : Context) (s : State) : State :=
  match findLaunch s x.task.part x.task.launch with
  | none => s
  | some l =>
    let wide := !isNarrow l
    let g : Gang := { id := s.nextGang, part := x.task.part, launch := x.task.launch, idx := gangOf s x.task, tasks := [x.task.task], cls := launchClass l,
                      dcls := launchClass l, enq := s.tick, since := s.tick, st := if wide then .wide else .queued,
                      cluster := if wide then noCluster else clusterOf s.coreId, isWide := wide, started := none, front := true }
    let g := { g with cluster := if wide then noCluster else (restCluster s g).getD g.cluster }
    modLaunch { s with gangs := g :: s.gangs, nextGang := s.nextGang + 1, contexts := s.contexts ++ [x] } x.task.part x.task.launch fun l =>
      { l with ended := l.ended - 1 }

/-- Step 4 for one task: its context restored from the copy in its checkpoint area, but for the watchdog's count, on its core, in its save area, or queued again. -/
def rollTask (s : State) (x : Context) : State :=
  let x := readContext s (fun l => ckptArea l x.task.task) x
  let count (n : BitVec 32) : Context := { x with core := { x.core with sys := { x.core.sys with wdogCount := n } } }
  match taskCore s x.task with
  | some c =>
    let y := count (getCore s c).sys.wdogCount
    restoreContext s c { y with task := (getCore s c).task.getD y.task, core := { y.core with hold := .none } }
  | none =>
    match findContext s x.task.part x.task.launch x.task.task with
    | some old =>
      let fresh : Context := count old.core.sys.wdogCount
      let y : Context := { fresh with st := old.st, reason := old.reason }
      { s with contexts := s.contexts.map fun z =>
          if z.task.part = x.task.part && z.task.launch = x.task.launch && z.task.task = x.task.task then y else z }
    | none => requeue x s

/-- A rollback of a checkpoint gang. -/
def rollback (k : Ckpt) (s : State) : State :=
  let s := rollStructures k (rollMemory k (rollStop k s))
  let mine (a : Arrival) : Bool := a.part = k.part && a.launch = k.launch && k.contexts.any fun x => x.task.task = a.task
  let s := { s with arrivals := s.arrivals.filter (fun a => !mine a) ++ k.arrivals,
                    ckpts := s.ckpts.map fun y => if y.part = k.part && y.launch = k.launch && y.idx = k.idx then
                      { y with rolls := y.rolls + 1, log := [], later := [], pins := [], seqs := [] } else y }
  k.contexts.foldl rollTask s

/-- A machine fault of a task: a rollback, or the reset of its partition. -/
def machineFault (t : TaskRef) (s : State) : State :=
  match ckptOf s t with
  | some k => if canRoll k then rollback k s else resetPartition s t.part causeMachine
  | none => resetPartition s t.part causeMachine

/-! ### SOFT_ERROR (R296) -/

/-- What an uncorrectable soft error does to the item that it strikes. -/
def strike (x : SoftItem) (s : State) : State :=
  match x with
  | .scratchLine l => modCore (putSpPoison (l * 64 % 0x80000) true) s
  | .vreg n => modCore (fun k => { k with v := k.v.set n.toNat { (k.v[n.toNat]'n.isLt) with poison := true } n.isLt }) s
  | .treg n => modCore (fun k => { k with t := k.t.set n.toNat { (k.t[n.toNat]'n.isLt) with poison := true } n.isLt }) s
  | .acc n => modCore (fun k => { k with a := k.a.set n.toNat { (k.a[n.toNat]'n.isLt) with poison := true } n.isLt }) s
  | .queueEntry q i =>
    modCore (fun k =>
      let x := (k.q[q.toNat]'q.isLt)
      { k with q := k.q.set q.toNat { x with entries := x.entries.zipIdx.map fun e => if e.2 = i then { e.1 with poison := true } else e.1 } q.isLt }) s
  | .stripStore c => refillStrips c s
  | .readCache l => modCore (fun k => { k with readCache := k.readCache.filter fun x => x.va ≠ l * 64 }) s
  | .constCache l => modCore (fun k => { k with constCache := k.constCache.filter fun x => x.va ≠ l * 64 }) s
  | .coreState | .engineState =>
    match s.core.task with
    | none => s
    | some t => machineFault t s

def execSoftError (s : State) : Out := .next (strike s.ev.soft (focus s s.ev.core))

end Sys2Proof.Machine
end

