-- ==== Sys2Proof/Machine/QueueEvents.lean ====
section
/-! DEFINITION. The registers of the host BARs, doorbells, and the completion of host commands (00_scope R10; 03_links_trust R76, R84;
04_host_interface R111 to R117, R121). -/

namespace Sys2Proof.Machine

/-! ### The queue registers -/

/-- A queue's registers answer: the admin queue's once it may be enabled, a partition's while it exists (R76, R113). -/
def queueThere (s : State) (q : Nat) : Bool :=
  s.phase = .booted && if q < 256 then (getPart s (q / 16)).present else q = adminQueue && s.rdy

/-- A bad doorbell value stops the queue (R114). -/
def queueError (s : State) (q v : Nat) : State :=
  raiseEvent (putQueue s q { getQueue s q with err := true }) 0x07 (if q < 256 then some (q / 16) else none) none noRecord [q, v]

/-- A request of the host for a VF in RUN that did not come on an IDE stream (03 R78). -/
def ideRefused (s : State) (fn : Nat) : Bool := fn < 16 && (getPart s fn).present && (getPart s fn).tdisp = .run && !s.ev.ide

/-- Such a request is dropped and logged; any other acts on the function. -/
def onFunction (fn : Nat) (act : State → State) (s : State) : State :=
  if ideRefused s fn then { s with ideDrops := s.ideDrops ++ [(s.tick, fn)] } else act s

/-- The queue takes SQ_TAIL doorbells. -/
def takesDoorbell (s : State) (q : Nat) : Bool := queueThere s q && (getQueue s q).en && !(getQueue s q).err

/-- The queue takes CQ_HEAD doorbells: until it has fully stopped, the completions of its fetched commands need room (R114). -/
def takesHead (s : State) (q : Nat) : Bool := queueThere s q && queueRuns s q

/-- A write of SQ_TAIL. -/
def ringTail (q v : Nat) (s : State) : State :=
  let h := getQueue s q
  if !takesDoorbell s q then s
  else if sqSize h ≤ v then queueError s q v
  else putQueue s q { h with sqTail := v }

def execSqTailWrite (s : State) : Out := .next (onFunction (queueFn s.ev.n) (ringTail s.ev.n (s.ev.v.toNat % 2 ^ 32)) s)

/-- A CQ_HEAD inside the range from the last one to CQ_TAIL. -/
def headOk (h : HQueue) (v : Nat) : Bool := v < cqSize h && (v + cqSize h - h.cqHead) % cqSize h ≤ (h.cqTail + cqSize h - h.cqHead) % cqSize h

/-- A write of CQ_HEAD. -/
def ringHead (q v : Nat) (s : State) : State :=
  let h := getQueue s q
  if !takesHead s q then s
  else if !headOk h v then queueError s q v
  else drainHeld (putQueue s q { h with cqHead := v })

def execCqHeadWrite (s : State) : Out := .next (onFunction (queueFn s.ev.n) (ringHead s.ev.n (s.ev.v.toNat % 2 ^ 32)) s)

/-- EN set: SQ_HEAD, CQ_TAIL and the doorbells 0, CQ_PHASE 1, ERR cleared (R112). -/
def enable (s : State) (q : Nat) : State :=
  let h := getQueue s q
  if queueThere s q && !h.en then putQueue s q { h with en := true, err := false, phase := true, sqHead := 0, sqTail := 0, cqTail := 0, cqHead := 0 } else s

/-- EN cleared: fetching stops (R114). -/
def disable (s : State) (q : Nat) : State := if queueThere s q then putQueue s q { getQueue s q with en := false } else s

def execQctlEnSet (s : State) : Out := .next (onFunction (queueFn s.ev.n) (enable · s.ev.n) s)

def execQctlEnClear (s : State) : Out := .next (onFunction (queueFn s.ev.n) (disable · s.ev.n) s)

/-- The registers other than EN take writes: EN and RUN are 0. -/
def queueOpen (s : State) (q : Nat) : Bool := queueThere s q && !(getQueue s q).en && !queueRuns s q

/-- A log size bounded to 4 to 12. -/
def logBound (n : Nat) : BitVec 4 := BitVec.ofNat 4 (max 4 (min 12 n))

/-- A write of QCTL: its fields, and then EN. -/
def writeQctl (q v : Nat) (s : State) : State :=
  let s := if queueOpen s q then
      putQueue s q { getQueue s q with cqLog := logBound (v / 2 ^ 28 % 16), sqLog := logBound (v / 2 ^ 24 % 16),
                                       vec := BitVec.ofNat 11 (min (v / 2 ^ 13 % 2048) (if q < 256 then 63 else 2047)) }
    else s
  if v % 2 = 1 then enable s q else disable s q

/-! ### The map of BAR0 (03 R76; R111, R121) -/

/-- A register of a row that begins at `base` and has `n` registers of 8 bytes. -/
def rowPlace (base n off : Nat) : Option Nat := if base ≤ off && off < base + 8 * n && off % 8 = 0 then some ((off - base) / 8) else none

/-- The registers of a queue's block. -/
def blockRegister (q off : Nat) : Option MmioReg :=
  match off with
  | 0x00 => some (.sqBase q)
  | 0x08 => some (.cqBase q)
  | 0x10 => some (.qctl q)
  | 0x18 => some (.qstat q)
  | _ => none

/-- The two doorbells of a queue. -/
def doorbell (q off : Nat) : Option MmioReg :=
  match off with
  | 0 => some (.sqTail q)
  | 4 => some (.cqHead q)
  | _ => none

/-- The scribe window of PF0. -/
def scribeRegister (off : Nat) : Option MmioReg :=
  [(rowPlace 0x4000 24 off).map MmioReg.islCtl, (rowPlace 0x5000 1 off).map fun _ => MmioReg.repairCtl, (rowPlace 0x6000 256 off).map MmioReg.repairStat,
    (rowPlace 0x6800 4 off).map MmioReg.linkStat, (rowPlace 0x7000 64 off).map MmioReg.keyStat, (rowPlace 0x7200 8 off).map MmioReg.grpStat,
    (rowPlace 0x7400 18 off).map MmioReg.fabpStat, (rowPlace 0x8000 1024 off).map MmioReg.dbgCtl, (rowPlace 0xA000 1024 off).map MmioReg.wdogSet].findSome? id

/-- What lies at an offset of PF0's BAR0. -/
def pfRegister (off : Nat) : Option MmioReg :=
  if off < 0x20 then blockRegister adminQueue off
  else if off = 0x800 then some .devStat
  else if 0x1000 ≤ off && off < 0x1008 then doorbell adminQueue (off - 0x1000)
  else if 0x2000 ≤ off && off < 0x2040 then (rowPlace 0x2000 8 off).map MmioReg.mboxArg
  else if off = 0x2040 then some .mboxCmd
  else if off = 0x2048 then some .mboxStat
  else if 0x800000 ≤ off && off < 0x810000 then (rowPlace 0x800000 8192 off).map MmioReg.mboxData
  else if 0x1000000 ≤ off && off < 0x1010000 then scribeRegister (off - 0x1000000)
  else none

/-- What lies at an offset of VFn's BAR0. -/
def vfRegister (n off : Nat) : Option MmioReg :=
  if off < 512 then blockRegister (16 * n + off / 32) (off % 32)
  else if 0x1000 ≤ off && off < 0x1080 then doorbell (16 * n + (off - 0x1000) / 8) (off % 8)
  else none

/-- The register at an offset of a function's BAR0; what has none is reserved. -/
def barRegister (fn off : Nat) : MmioReg := ((if fn = pf0 then pfRegister off else if fn < 16 then vfRegister fn off else none).getD (.reserved off))

/-- A register by its name. -/
def regName (r : MmioReg) : MmioReg :=
  match r with
  | .bar fn off => barRegister fn off
  | r => r

/-- The function through whose BAR0 a register is reached. -/
def regFn (r : MmioReg) : Nat :=
  match regName r with
  | .sqBase q | .cqBase q | .qctl q | .qstat q | .sqTail q | .cqHead q => queueFn q
  | _ => pf0

/-! ### Register values (R10, R11) -/

/-- ISL_CTL (01 R26). -/
def islCtl (i : Island) : Nat :=
  let st := match i.st with
    | .steady => 0
    | .drain => 1
    | .relock => 2
  i.drainTicks.toNat * 2 ^ 40 + st * 2 ^ 29 + i.abandon.toNat * 2 ^ 28 + i.cur * 2 ^ 16 + i.tgt

/-- REPAIR_STAT and LINK_STAT (02 R71). -/
def repairStat (c : Channel) : Nat :=
  c.repairs.toNat * 2 ^ 40 + c.exhausted.toNat * 2 ^ 36 + c.st.toNat * 2 ^ 34 + c.spares.toNat * 2 ^ 31 + c.errCount.toNat

/-- FABP_STAT (03 R84). -/
def fabpStat (p : Port) : Nat :=
  (if p.st = 2 then p.peer else 0) % 2 ^ 18 * 2 ^ 30 + p.st.toNat * 2 ^ 28 + p.lanes.toNat * 2 ^ 25 + p.rekeys.toNat * 2 ^ 16 + p.crcErr.toNat

/-- QCTL and QSTAT (R112). -/
def qctlWord (h : HQueue) : Nat := h.cqLog.toNat * 2 ^ 28 + h.sqLog.toNat * 2 ^ 24 + h.vec.toNat * 2 ^ 13 + h.en.toNat
def qstatWord (s : State) (q : Nat) : Nat :=
  let h := getQueue s q
  h.cqTail * 2 ^ 32 + h.sqHead * 2 ^ 16 + h.phase.toNat * 4 + h.err.toNat * 2 + (queueRuns s q).toNat

/-- DEV_STAT (R113). -/
def devStat (s : State) : Nat :=
  let pending := if s.phase = .recovery then s.recoveryUnread ≠ 0 else s.unread ≠ 0
  (decide pending).toNat * 8 + s.linkHeld.toNat * 4 + (decide (s.phase = .recovery)).toNat * 2 + s.rdy.toNat

/-- MBOX_STAT (R121). -/
def mboxStat (m : Mailbox) : Nat := m.result.toNat * 2 ^ 16 + m.status.toNat * 2 + m.busy.toNat

/-- What a register reads; the registers of an absent partition's function, the doorbells, and reserved ranges, read 0 (03 R76; 00 R10). -/
def registerValue (s : State) (r : MmioReg) : Nat :=
  let ofQueue (q x : Nat) : Nat := if q < 256 && !(getPart s (q / 16)).present then 0 else x
  match regName r with
  | .islCtl n => islCtl (getIsland s n)
  | .repairCtl => s.winExp.toNat * 2 ^ 24 + s.thresh.toNat * 2 + s.liveEn.toNat
  | .repairStat h => repairStat (getChannel s h)
  | .linkStat k => repairStat (s.linkStat.toList.getD k Channel.reset)
  | .fabpStat p => fabpStat (getPort s p)
  | .keyStat w => keyStat s w
  | .grpStat g => grpStat s g
  | .dbgCtl c => (if (getCore s c).stopped then 0x80 else 0) + (getCore s c).dbgGang.toNat * 4
  | .wdogSet c => (getCore s c).wdogSetLimit.toNat
  | .sqBase q => ofQueue q (getQueue s q).sqBase.toNat
  | .cqBase q => ofQueue q (getQueue s q).cqBase.toNat
  | .qctl q => ofQueue q (qctlWord (getQueue s q))
  | .qstat q => ofQueue q (qstatWord s q)
  | .devStat => devStat s
  | .mboxArg k => (s.mailbox.args.toList.getD k 0).toNat
  | .mboxCmd => s.mailbox.op.toNat
  | .mboxStat => mboxStat s.mailbox
  | .mboxData k => leNat (cellRead s.mailbox.data (8 * k) 8)
  | .sqTail _ | .cqHead _ | .reserved _ | .bar _ _ => 0

/-- FABP_STAT_READ: the value, and CRC_ERR cleared in the same access (03 R84). -/
def execFabpStatRead (s : State) : Out :=
  let p := s.ev.n
  let s := { s with mmioData := BitVec.ofNat 64 (registerValue s (.fabpStat p)) }
  .next (setPort s p { getPort s p with crcErr := 0 })

/-! ### REGISTER_WRITE (00 R10, R11) -/

/-- ISL_CTL: TGT_MHZ, DRAIN_TICKS and ABANDON. -/
def writeIsland (n v : Nat) (s : State) : State :=
  let i := getIsland s n
  let ticks := v / 2 ^ 40 % 256
  let i := { i with drainTicks := BitVec.ofNat 8 (max 1 ticks), abandon := i.abandon && v / 2 ^ 28 % 2 = 0 }
  writeTarget n (v % 4096) (setIsland s n i)

def writeRepairCtl (v : Nat) (s : State) : State :=
  { s with winExp := BitVec.ofNat 5 (max 16 (min 30 (v / 2 ^ 24 % 32))), thresh := BitVec.ofNat 15 (max 1 (v / 2 % 2 ^ 15)), liveEn := decide (v % 2 = 1) }

/-- EXHAUSTED is RW1C. -/
def writeStat (v : Nat) (c : Channel) : Channel := { c with exhausted := c.exhausted && v / 2 ^ 36 % 2 = 0 }

/-- DBG_CTL: GANG is stored; STOP stops, with DBG_EN where RESUME is 0; RESUME resumes (10_traps R320). -/
def writeDbg (c v : Nat) (s : State) : State :=
  let gang := decide (v / 4 % 2 = 1)
  let stop := decide (v % 2 = 1)
  let resume := decide (v / 2 % 2 = 1)
  let k := getCore s c
  let s := putCore s c { k with dbgGang := gang }
  let keep := (getCore s c).sys.dbgEn
  let s := if stop then debugStop c gang s else s
  let s := if stop && resume && !gang then
      let k := getCore s c
      putCore s c { k with sys := { k.sys with dbgEn := keep } }
    else s
  if resume then debugResume c (decide (v / 8 % 2 = 1)) s else s

/-- WDOG_SET: LIMIT is stored, and APPLY hands it to the task (05 R163). -/
def writeWdog (c v : Nat) (s : State) : State :=
  let limit := BitVec.ofNat 32 v
  let k := getCore s c
  let s := putCore s c { k with wdogSetLimit := limit }
  if v / 2 ^ 32 % 2 = 1 then applyLimit c limit s else s

/-- The mailbox registers; a command starts with MBOX_CMD unless one is in progress (R121). -/
def writeMailbox (v : Nat) (s : State) : State :=
  if (s.phase = .booted || s.phase = .recovery) && !s.mailbox.busy then { s with mailbox := { s.mailbox with op := BitVec.ofNat 8 v, busy := true } } else s

/-- In recovery mode only the mailbox is served (01 R32). -/
def regMailbox (r : MmioReg) : Bool :=
  match r with
  | .mboxArg _ | .mboxCmd => true
  | _ => false

/-- A register written: RW fields are stored, RW1C bits cleared, a doorbell acts, and the rest is ignored. -/
def storeRegister (r : MmioReg) (v : Nat) (s : State) : State :=
  match r with
  | .islCtl n => writeIsland n v s
  | .repairCtl => writeRepairCtl v s
  | .repairStat h => setChannel s h (writeStat v (getChannel s h))
  | .linkStat k => { s with linkStat := s.linkStat.setIfInBounds k (writeStat v (s.linkStat.toList.getD k Channel.reset)) }
  | .dbgCtl c => writeDbg c v s
  | .wdogSet c => writeWdog c v s
  | .sqBase q => if queueOpen s q then putQueue s q { getQueue s q with sqBase := BitVec.ofNat 64 (v / 4096 * 4096) } else s
  | .cqBase q => if queueOpen s q then putQueue s q { getQueue s q with cqBase := BitVec.ofNat 64 (v / 4096 * 4096) } else s
  | .qctl q => writeQctl q v s
  | .mboxArg k => { s with mailbox := { s.mailbox with args := s.mailbox.args.setIfInBounds k (BitVec.ofNat 64 v) } }
  | .mboxCmd => writeMailbox v s
  | .sqTail q => ringTail q (v % 2 ^ 32) s
  | .cqHead q => ringHead q (v % 2 ^ 32) s
  | .fabpStat _ | .keyStat _ | .grpStat _ | .qstat _ | .devStat | .mboxStat | .mboxData _ | .reserved _ | .bar _ _ => s

/-- A register write, where the register is served. -/
def writeRegister (r : MmioReg) (v : Nat) (s : State) : State :=
  if s.phase = .recovery && !regMailbox (regName r) then s else storeRegister (regName r) v s

def execRegisterWrite (s : State) : Out := .next (onFunction (regFn s.ev.reg) (writeRegister s.ev.reg s.ev.v.toNat) s)

/-! ### HOST_COMMAND_COMPLETE (R115 to R117) -/

/-- What a fetched command waits for has come about. -/
def hostWaitOver (s : State) (r : HostRun) : Bool :=
  match r.wait with
  | .none => r.done
  | .object w va target =>
    match objectCount s w va with
    | some n => decide (target.toNat ≤ n)
    | none => false
  | .sweep _ _ | .resync _ => false
  | .unbind w n => (coreNos s).all fun c => match (getCore s c).task with
      | some t => !(t.part = n && (getCore s c).sys.world.toNat = w)
      | none => true
  | .resize n _ _ => maskFree s (getPart s n).closing

/-- Its completion has a place: in host memory, or in the common buffer; one that is discarded needs none. -/
def hasRoom (s : State) (r : HostRun) : Bool :=
  r.dropped || (postable s r.queue && s.held.all (fun h => h.queue ≠ r.queue)) || decide (s.held.length < 4096)

/-- A RESYNC holds the fetching of commands, admin effects and the dispatch of launches until its cut (R125). -/
def cutPending (s : State) : Bool := s.hostRuns.any resyncWaits

/-- The end of the wait has an effect that the cut holds. -/
def effectHeld (s : State) (r : HostRun) : Bool :=
  !r.done && cutPending s && match r.wait with
    | .unbind _ _ | .resize _ _ _ => true
    | _ => false

/-- A fetched command whose completion can be posted. -/
def completable (s : State) (r : HostRun) : Bool :=
  r.queue ≠ mailboxQueue && (r.done || hostWaitOver s r) && hasRoom s r && !effectHeld s r

/-- The effects that come with the end of a wait. -/
def endWait (r : HostRun) (s : State) : State :=
  if r.done then s
  else match r.wait with
    | .unbind w n => modWorld s w fun x => { x with parts := x.parts &&& ~~~partBit n }
    | .resize n mask maps => applyResize n mask maps s
    | _ => s

/-- The completion of a command; one that a QRESET discards raises CPL_DROPPED. None while the common buffer is full. -/
def postRun (r : HostRun) (s : State) : Option State :=
  if r.dropped then some (dropCompletion r.queue s r.ident.toNat)
  else post? s { queue := r.queue, record := completion r.ident.toNat r.sqHead.toNat r.status.toNat r.res0.toNat r.res1.toNat,
                 irq := r.flags.getLsbD 1, isEvent := false, order := r.order }

/-- HOST_COMMAND_COMPLETE: the first fetched command that can complete does. -/
def execHostCommandComplete (s : State) : Out :=
  match s.hostRuns.find? (completable s) with
  | none => .next s
  | some r =>
    match postRun r (endWait r { s with hostRuns := s.hostRuns.erase r }) with
    | none => .next s
    | some t => .next t

end Sys2Proof.Machine
end

