-- ==== Sys2Proof/Machine/RepairEvents.lean ====
section
/-! DEFINITION. Link errors and live repair of HBM channels and interposer links (02_memory_tiers R56, R58, R69 to R74), and the CXL ports (R62; 03 R79).
A channel is numbered 0 to 255, and the link of compute stack k is numbered 256 + k. -/

namespace Sys2Proof.Machine

/-- The repair state of a channel or a link. -/
def getLane (s : State) (n : Nat) : Channel := if n < 256 then getChannel s n else s.linkStat.toList.getD (n - 256) Channel.reset

def setLane (s : State) (n : Nat) (c : Channel) : State :=
  if n < 256 then setChannel s n c else { s with linkStat := s.linkStat.setIfInBounds (n - 256) c }

/-- The spares of a channel, and of a link (R69, R71). -/
def spareLanes (n : Nat) : Nat := if n < 256 then 4 else 2

/-- States of REPAIR_STAT (R71). -/
def laneNormal : BitVec 2 := 0
def lanePending : BitVec 2 := 1
def laneRepairing : BitVec 2 := 2
def laneFailing : BitVec 2 := 3

/-- Poison set on a line at its home. -/
def poisonLine (s : State) (pa : Nat) : State :=
  let l := lineOf pa
  let w := pageWorld s l
  let d := (assocGet s.side l).getD (Side.neutral w (keyOf s l w 0))
  { s with side := assocPut s.side l { d with poison := true } }

/-- Poison set on the lines of a 512-byte transfer. -/
def poisonTransfer (s : State) (pa : Nat) : State := (List.range 8).foldl (fun s i => poisonLine s (pa / 512 * 512 + 64 * i)) s

/-- The retries of an untimed read, or of a write, after which a transfer's lines are poisoned (R58). -/
def maxRetries : Nat := 8

/-- What a failed CRC does to its transfer: a timed read becomes void for itself alone, and another transfer is retried. -/
def strikeTransfer (k : CrcKind) (s : State) : State :=
  match k with
  | .timedRead c i =>
    let core := getCore s c
    putCore s c { core with timed := core.timed.zipIdx.map fun x => if x.2 = i && !x.1.isWrite then { x.1 with isVoid := true } else x.1 }
  | .untimed l n | .timedWrite l n => if maxRetries ≤ n then poisonTransfer s l else s

/-- A repair is needed: it becomes pending while a spare is left, and otherwise the channel is failing (R72, R73). -/
def needRepair (n : Nat) (s : State) : State :=
  let c := getLane s n
  if c.spares.toNat < spareLanes n then setLane s n { c with st := lanePending }
  else raiseEvent (setLane s n { c with st := laneFailing, exhausted := true }) 0x03 none none noRecord [n]

/-- The error counted; a threshold crossed starts a live repair where these are enabled (R70, R72). -/
def countError (n : Nat) (s : State) : State :=
  let c := getLane s n
  let x := min 0xFFFF (c.errCount.toNat + 1)
  let s := setLane s n { c with errCount := BitVec.ofNat 16 x }
  let crossed := c.errCount.toNat < c.thresh.toNat && c.thresh.toNat ≤ x
  if s.liveEn && ((c.st = laneNormal && c.thresh.toNat ≤ x) || (c.st = laneFailing && crossed)) then needRepair n s else s

/-- LINK_CRC_FAIL on a channel or a link. -/
def execLinkCrcFail (s : State) : Out := .next (countError s.ev.n (strikeTransfer s.ev.crc s))

/-- A rotation boundary (R47). -/
def rotationEdge (s : State) : Bool := s.now % 1024 = 0

/-- VOID_WINDOW_START: at the next rotation boundary the repair begins (R72). -/
def execVoidWindowStart (s : State) : Out :=
  let c := getLane s s.ev.n
  .next (if c.st = lanePending && rotationEdge s then setLane s s.ev.n { c with st := laneRepairing, voidFrom := some s.now, voidTo := none } else s)

/-- The longest repair: 4 rotations (R72). -/
def maxRepair : Nat := 4096

/-- The repair has lasted as long as it may. -/
def repairOver (s : State) (n : Nat) : Bool :=
  let c := getLane s n
  c.st = laneRepairing && match c.voidFrom with
    | some a => a + maxRepair ≤ s.now
    | none => true

/-- REPAIR_END: at a rotation boundary after retraining (R72). -/
def execRepairEnd (s : State) : Out :=
  let c := getLane s s.ev.n
  .next (if c.st = laneRepairing && rotationEdge s then
    setLane s s.ev.n { c with st := laneNormal, voidTo := some s.now, spares := c.spares + 1, errCount := 0,
                              repairs := if c.repairs = 255 then 255 else c.repairs + 1 }
  else s)

/-- ERROR_WINDOW_BOUNDARY: the count restarts, and the settings of REPAIR_CTL take effect (R70, R71). -/
def execErrorWindowBoundary (s : State) : Out :=
  .next (setLane s s.ev.n { getLane s s.ev.n with errCount := 0, winExp := s.winExp, thresh := s.thresh })

/-! ### CXL ports -/

/-- CXL_DOWN of a port: accesses to its lines complete with poison from now on. -/
def execCxlDown (s : State) : Out :=
  if 8 ≤ s.ev.n then .next s
  else .next (raiseEvent { s with cxlUp := s.cxlUp &&& ~~~(BitVec.ofNat 8 (2 ^ s.ev.n)) } 0x04 none none noRecord [s.ev.n])

/-- CXL_RETRAIN of a port. -/
def execCxlRetrain (s : State) : Out :=
  if 8 ≤ s.ev.n then .next s else .next { s with cxlUp := s.cxlUp ||| BitVec.ofNat 8 (2 ^ s.ev.n) }

/-- CXL_POISON_REPORT: an expander reports poison on a line (R62). -/
def execCxlPoisonReport (s : State) : Out := .next (if tierOf s.ev.n = .cxl then poisonLine s s.ev.n else s)

end Sys2Proof.Machine
end

