-- ==== Sys2Proof/Machine/ScalarAlu.lean ====
section
/-! DEFINITION. Integer arithmetic, constants, funnel shifts, bit fields, compares and SEL of the S stream (12_isa_scalar R352 to R357). -/

namespace Sys2Proof.Machine

/-! ### Shared forms -/

/-- g[d] := x, readable `lat` cycles on; the instruction retires (R347, R370). -/
def aluEnd (d : GReg) (x : Dword) (lat : Nat) (s : State) : Out := .next (sNext (writeG d x lat s))

/-- A two-source form (R352). -/
def alu3 (f : Dword → Dword → Dword) (lat : Nat) (o : R3) (s : State) : Out :=
  aluEnd o.d (f (readG s o.a) (readG s o.b)) lat s

/-- A one-source form (R352). -/
def alu2 (f : Dword → Dword) (o : R2) (s : State) : Out := aluEnd o.d (f (readG s o.a)) 1 s

/-- The latency of multiplies and of divides (R370). -/
def mulLatency : Nat := 4
def divLatency : Nat := 36

/-- The shift amount g[b][5:0]. -/
def shiftAmount (y : Dword) : Nat := y.toNat % 64

/-- SInt(x) DIV SInt(y), with -1 for a division by zero; -2^63 by -1 wraps to -2^63. -/
def divSigned (x y : Dword) : Dword := if y = 0 then BitVec.allOnes 64 else BitVec.ofInt 64 (x.toInt.tdiv y.toInt)

def divUnsigned (x y : Dword) : Dword := if y = 0 then BitVec.allOnes 64 else BitVec.ofNat 64 (x.toNat / y.toNat)

def remSigned (x y : Dword) : Dword := if y = 0 then x else BitVec.ofInt 64 (x.toInt.tmod y.toInt)

def remUnsigned (x y : Dword) : Dword := if y = 0 then x else BitVec.ofNat 64 (x.toNat % y.toNat)

/-- The one bits among the `n` low bits of a number. -/
def countOnes : Nat → Nat → Nat
  | 0, _ => 0
  | n + 1, x => x % 2 + countOnes n (x / 2)

/-- The zero bits below the first one bit, of `n` bits. -/
def countTrailing : Nat → Nat → Nat
  | 0, _ => 0
  | n + 1, x => if x % 2 = 1 then 0 else 1 + countTrailing n (x / 2)

/-- The zero bits above the last one bit, of the `n` low bits. -/
def countLeading : Nat → Nat → Nat
  | 0, _ => 0
  | n + 1, x => if x.testBit n then 0 else 1 + countLeading n x

/-- The field of `w` bits at offset `o`. -/
def fieldOf (x o w : Nat) : Nat := x / 2 ^ o % 2 ^ w

/-- `x` with its field of `w` bits at offset `o` replaced by the low bits of `y`. -/
def fieldPut (x y o w : Nat) : Nat := x - fieldOf x o w * 2 ^ o + y % 2 ^ w * 2 ^ o

/-- BXT: the field, sign-extended (R355). -/
def bitExtract (x : Dword) (o w : Nat) : Dword := BitVec.ofInt 64 (sNat w (fieldOf x.toNat o w))

/-- BXZ: the field, zero-extended. -/
def bitExtractZ (x : Dword) (o w : Nat) : Dword := BitVec.ofNat 64 (fieldOf x.toNat o w)

/-- BINS: the low bits of `y` put into the field. -/
def bitInsert (x y : Dword) (o w : Nat) : Dword := BitVec.ofNat 64 (fieldPut x.toNat y.toNat o w)

/-- Offset and width of a register form, clamped: g[b][5:0], and g[b][13:8] + 1. -/
def bitFieldOf (y : Dword) : Nat × Nat :=
  let o := y.toNat % 64
  (o, min (y.toNat / 256 % 64 + 1) (64 - o))

/-- A register form of the bit fields. -/
def bitForm (f : Dword → Dword → Nat → Nat → Dword) (o : R3) (s : State) : Out :=
  let p := bitFieldOf (readG s o.b)
  aluEnd o.d (f (readG s o.d) (readG s o.a) p.1 p.2) 1 s

/-- An immediate form: a field beyond bit 63 is an illegal instruction. -/
def bitFormI (f : Dword → Dword → Nat → Nat → Dword) (o : RBf) (s : State) : Out :=
  if 64 < o.o.toNat + o.w.toNat + 1 then .next (sTrap .illegal 0 s)
  else aluEnd o.d (f (readG s o.d) (readG s o.a) o.o.toNat (o.w.toNat + 1)) 1 s

/-- The flag of a compare is written in the issue cycle (R356). -/
def compareEnd (o : RCmp) (y : Dword) (s : State) : Out :=
  .next (sNext (modCore (flagPut o.f.toNat (scalarCond o.c (readG s o.a) y)) s))

/-! ### Meanings -/

def execAdd (o : R3) (s : State) : Out := alu3 (· + ·) 1 o s
def execSub (o : R3) (s : State) : Out := alu3 (· - ·) 1 o s
def execMul (o : R3) (s : State) : Out := alu3 (· * ·) mulLatency o s
def execMulh (o : R3) (s : State) : Out := alu3 (fun x y => BitVec.ofInt 64 (x.toInt * y.toInt / 2 ^ 64)) mulLatency o s
def execMulhz (o : R3) (s : State) : Out := alu3 (fun x y => BitVec.ofNat 64 (x.toNat * y.toNat / 2 ^ 64)) mulLatency o s
def execDiv (o : R3) (s : State) : Out := alu3 divSigned divLatency o s
def execDivz (o : R3) (s : State) : Out := alu3 divUnsigned divLatency o s
def execRem (o : R3) (s : State) : Out := alu3 remSigned divLatency o s
def execRemz (o : R3) (s : State) : Out := alu3 remUnsigned divLatency o s
def execAndR (o : R3) (s : State) : Out := alu3 (· &&& ·) 1 o s
def execOrR (o : R3) (s : State) : Out := alu3 (· ||| ·) 1 o s
def execXorR (o : R3) (s : State) : Out := alu3 (· ^^^ ·) 1 o s
def execShl (o : R3) (s : State) : Out := alu3 (fun x y => x <<< shiftAmount y) 1 o s
def execShr (o : R3) (s : State) : Out := alu3 (fun x y => x >>> shiftAmount y) 1 o s
def execSra (o : R3) (s : State) : Out := alu3 (fun x y => x.sshiftRight (shiftAmount y)) 1 o s
def execMinR (o : R3) (s : State) : Out := alu3 (fun x y => if x.toInt ≤ y.toInt then x else y) 1 o s
def execMaxR (o : R3) (s : State) : Out := alu3 (fun x y => if x.toInt ≤ y.toInt then y else x) 1 o s
def execMinz (o : R3) (s : State) : Out := alu3 (fun x y => if x.toNat ≤ y.toNat then x else y) 1 o s
def execMaxz (o : R3) (s : State) : Out := alu3 (fun x y => if x.toNat ≤ y.toNat then y else x) 1 o s
def execClz (o : R2) (s : State) : Out := alu2 (fun x => BitVec.ofNat 64 (countLeading 64 x.toNat)) o s
def execCtz (o : R2) (s : State) : Out := alu2 (fun x => BitVec.ofNat 64 (countTrailing 64 x.toNat)) o s
def execPopc (o : R2) (s : State) : Out := alu2 (fun x => BitVec.ofNat 64 (countOnes 64 x.toNat)) o s

def execAddi (o : RI) (s : State) : Out := aluEnd o.d (readG s o.a + o.imm.signExtend 64) 1 s
def execAndi (o : RI) (s : State) : Out := aluEnd o.d (readG s o.a &&& o.imm.signExtend 64) 1 s
def execOri (o : RI) (s : State) : Out := aluEnd o.d (readG s o.a ||| o.imm.zeroExtend 64) 1 s
def execXori (o : RI) (s : State) : Out := aluEnd o.d (readG s o.a ^^^ o.imm.zeroExtend 64) 1 s
def execShli (o : RSh) (s : State) : Out := aluEnd o.d (readG s o.a <<< o.n.toNat) 1 s
def execShri (o : RSh) (s : State) : Out := aluEnd o.d (readG s o.a >>> o.n.toNat) 1 s
def execSrai (o : RSh) (s : State) : Out := aluEnd o.d ((readG s o.a).sshiftRight o.n.toNat) 1 s
def execLi (o : RL) (s : State) : Out := aluEnd o.d (o.imm.signExtend 64) 1 s
def execLui (o : RL) (s : State) : Out := aluEnd o.d (o.imm.signExtend 44 ++ (readG s o.d).extractLsb' 0 20) 1 s
def execLhi (o : RL) (s : State) : Out := aluEnd o.d (o.imm.signExtend 24 ++ (readG s o.d).extractLsb' 0 40) 1 s
def execAddpc (o : RL) (s : State) : Out := aluEnd o.d (s.core.pc + o.imm.signExtend 64 * 4) 1 s

/-- The upper half of the 128-bit funnel shifted left (R354). -/
def execFshl (o : R3) (s : State) : Out :=
  aluEnd o.d (((readG s o.d ++ readG s o.a) <<< shiftAmount (readG s o.b)).extractLsb' 64 64) 1 s
/-- The lower half of the 128-bit funnel shifted right (R354). -/
def execFshr (o : R3) (s : State) : Out :=
  aluEnd o.d (((readG s o.d ++ readG s o.a) >>> shiftAmount (readG s o.b)).extractLsb' 0 64) 1 s

def execBxt (o : R3) (s : State) : Out := bitForm (fun _ x p w => bitExtract x p w) o s
def execBxz (o : R3) (s : State) : Out := bitForm (fun _ x p w => bitExtractZ x p w) o s
def execBins (o : R3) (s : State) : Out := bitForm bitInsert o s
def execBxti (o : RBf) (s : State) : Out := bitFormI (fun _ x p w => bitExtract x p w) o s
def execBxzi (o : RBf) (s : State) : Out := bitFormI (fun _ x p w => bitExtractZ x p w) o s
def execBinsi (o : RBf) (s : State) : Out := bitFormI bitInsert o s

/-- The flag is read as at the end of the cycle before issue (R357). -/
def execSel (o : RSel) (s : State) : Out :=
  aluEnd o.d (if flagSeen s.core o.f.toNat then readG s o.a else readG s o.b) 1 s

def execCmp (o : RCmp) (s : State) : Out := compareEnd o (readG s o.b) s
def execCmpi (o : RCmp) (s : State) : Out := compareEnd o (o.b.signExtend 64) s

end Sys2Proof.Machine
end

