-- ==== Sys2Proof/Machine/VectorArith.lean ====
section
/-! DEFINITION. Vector arithmetic: floating point, fused multiply-add, special functions, integer and bit operations (13_isa_vector R378 to R382). -/

namespace Sys2Proof.Machine

/-! ### Two floating sources (R378) -/

/-- Sources a and b and the destination, with the checks of R373 and R374: tags of a set, then b as a. -/
def vPair (s : State) (o : V3) (set : List Nat) : Chk (VReg × VReg × VReg) := do
  let a ← vReady s o.a
  let b ← vReady s o.b
  let d ← vFree s o.d
  slotFree s .arith
  vTagIn o.a a set
  vLike o.b b a
  .ok (a, b, d)

/-- A word that rounds an exact result of two elements; `g` is told whether the rounding is RDN. -/
def vFloat2 (lat : Nat) (o : V3) (g : Bool → XReal → XReal → XReal × Bool) (s : State) : Out :=
  let mode := rmode s
  runV s o.d .arith lat do
    let (a, b, d) ← vPair s o tagsF
    let tag := a.tag.toNat
    let act := activeOf (readM s o.k) (vCount a)
    let f (st : Nat) (p : XReal × XReal) := roundDraw tag mode true st (g (mode = .rdn) p.1 p.2)
    let (res, r) := mapActive f act ((vVals a).zip (vVals b)) (Rounding.start s)
    let v ← vCommit d tag a.rows a.cols act res (a.poison || b.poison)
    .ok (slotCycles (vCount a) (tagWidth tag), v, r)

/-- A word that rounds nothing: the bits of a value that the format holds. `g` is also given the sign bit of the second source. -/
def vExact2 (o : V3) (g : Bool → XReal → XReal → XReal) (s : State) : Out :=
  runV s o.d .arith 3 do
    let (a, b, d) ← vPair s o tagsF
    let tag := a.tag.toNat
    let act := activeOf (readM s o.k) (vCount a)
    let res := ((vVals a).zip (vBits b)).map fun p =>
      (roundBits tag .rne 0 true (g (p.2.testBit (tagWidth tag - 1)) p.1 (decodeTag tag p.2))).1
    let v ← vCommit d tag a.rows a.cols act res (a.poison || b.poison)
    .ok (slotCycles (vCount a) (tagWidth tag), v, Rounding.start s)

/-- The same with one source. -/
def vExact1 (o : V2) (g : XReal → XReal) (s : State) : Out :=
  runV s o.d .arith 3 do
    let a ← vReady s o.a
    let d ← vFree s o.d
    slotFree s .arith
    vTagIn o.a a tagsF
    let tag := a.tag.toNat
    let act := activeOf (readM s o.k) (vCount a)
    let res := (vVals a).map fun x => (roundBits tag .rne 0 true (g x)).1
    let v ← vCommit d tag a.rows a.cols act res a.poison
    .ok (slotCycles (vCount a) (tagWidth tag), v, Rounding.start s)

/-- The lesser and the greater, with −0 < +0; NaN where either is NaN (R378). -/
def xMin (x y : XReal) : XReal :=
  match XReal.cmp x y with
  | none => .nan
  | some c => if c < 0 then x else if 0 < c then y else if x.signBit then x else y

def xMax (x y : XReal) : XReal :=
  match XReal.cmp x y with
  | none => .nan
  | some c => if c < 0 then y else if 0 < c then x else if x.signBit then y else x

/-- |x| with a sign: the sign bit of y's bits, NaN or not (log 16). -/
def xCopySign (neg : Bool) (x : XReal) : XReal := if neg then x.abs.neg else x.abs

def execVadd (o : V3) (s : State) : Out := vFloat2 3 o (fun d x y => exactSum d [x, y]) s
def execVsub (o : V3) (s : State) : Out := vFloat2 3 o (fun d x y => exactSum d [x, y.neg]) s
def execVmul (o : V3) (s : State) : Out := vFloat2 4 o (fun d x y => sumProducts d [xmulNv x y]) s
def execVmin (o : V3) (s : State) : Out := vExact2 o (fun _ x y => xMin x y) s
def execVmax (o : V3) (s : State) : Out := vExact2 o (fun _ x y => xMax x y) s
def execVcpsgn (o : V3) (s : State) : Out := vExact2 o (fun n x _ => xCopySign n x) s
def execVabs (o : V2) (s : State) : Out := vExact1 o XReal.abs s
def execVneg (o : V2) (s : State) : Out := vExact1 o XReal.neg s

/-! ### Fused multiply-add (R379) -/

/-- v[d] is the addend as well as the destination; all three agree in tag and shape. -/
def vFused (o : V3) (g : Bool → XReal → XReal → XReal → XReal × Bool) (s : State) : Out :=
  let mode := rmode s
  runV s o.d .arith 4 do
    let a ← vReady s o.a
    let b ← vReady s o.b
    let d ← vReady s o.d
    slotFree s .arith
    vTagIn o.a a tagsF
    vLike o.b b a
    vLike o.d d a
    let tag := a.tag.toNat
    let act := activeOf (readM s o.k) (vCount a)
    let f (st : Nat) (p : XReal × XReal × XReal) := roundDraw tag mode true st (g (mode = .rdn) p.1 p.2.1 p.2.2)
    let (res, r) := mapActive f act ((vVals a).zip ((vVals b).zip (vVals d))) (Rounding.start s)
    let v ← vCommit d tag a.rows a.cols act res (a.poison || b.poison || d.poison)
    .ok (slotCycles (vCount a) (tagWidth tag), v, r)

/-- A product negated. -/
def negProduct (p : XReal × Bool) : XReal × Bool := (p.1.neg, p.2)

def execVfma (o : V3) (s : State) : Out := vFused o (fun d x y z => sumProducts d [xmulNv x y, (z, false)]) s
def execVfms (o : V3) (s : State) : Out := vFused o (fun d x y z => sumProducts d [xmulNv x y, (z.neg, false)]) s
def execVfnma (o : V3) (s : State) : Out := vFused o (fun d x y z => sumProducts d [negProduct (xmulNv x y), (z, false)]) s

/-! ### Special functions (R380) -/

/-- NV, DZ and OF come from the algorithm, NX and UF from the rounding into the destination (R254, R380). -/
def specialBits (tag : Nat) (r : XReal × FpFlags) : Nat × FpFlags :=
  let q := roundBits tag .rne 0 true r.1
  (q.1, { r.2 with nx := q.2.nx, uf := q.2.uf })

def vSpecial (o : V2) (g : XReal → XReal × FpFlags) (s : State) : Out :=
  runV s o.d .arith 14 do
    let a ← vReady s o.a
    let d ← vFree s o.d
    slotFree s .arith
    vTagIn o.a a tagsF16
    let tag := a.tag.toNat
    let act := activeOf (readM s o.k) (vCount a)
    let (res, r) := mapActive (fun st x => (specialBits tag (g x), st)) act (vVals a) (Rounding.start s)
    let v ← vCommit d tag a.rows a.cols act res a.poison
    .ok (max 1 (ceilDiv (vCount a) 256), v, r)

def execVexp2 (o : V2) (s : State) : Out := vSpecial o exp2Alg s
def execVlog2 (o : V2) (s : State) : Out := vSpecial o log2Alg s
def execVrcp (o : V2) (s : State) : Out := vSpecial o rcpAlg s
def execVrsq (o : V2) (s : State) : Out := vSpecial o rsqAlg s
def execVsqrt (o : V2) (s : State) : Out := vSpecial o sqrtAlg s
def execVsigm (o : V2) (s : State) : Out := vSpecial o sigmAlg s

/-! ### Integer and bit operations (R381) -/

/-- A word on the bit strings of two sources that pass `chk`; `g` is given the width. -/
def vBitwise2 (o : V3) (chk : VReg → VReg → Chk Unit) (g : VReg → Nat → Nat → Nat) (s : State) : Out :=
  runV s o.d .arith 3 do
    let a ← vReady s o.a
    let b ← vReady s o.b
    let d ← vFree s o.d
    slotFree s .arith
    chk a b
    let act := activeOf (readM s o.k) (vCount a)
    let res := ((vBits a).zip (vBits b)).map fun p => g a p.1 p.2
    let v ← vCommit d a.tag.toNat a.rows a.cols act res (a.poison || b.poison)
    .ok (slotCycles (vCount a) (tagWidth a.tag.toNat), v, Rounding.start s)

/-- Both sources of one tag in a set. -/
def sameIn (o : V3) (set : List Nat) (a b : VReg) : Chk Unit := do
  vTagIn o.a a set
  vLike o.b b a

/-- Sources of equal width and shape in X (VAND, VOR, VXOR). -/
def sameWidth (o : V3) (a b : VReg) : Chk Unit := do
  vTagIn o.a a tagsX
  vTagIn o.b b (tagsX.filter fun t => tagWidth t = tagWidth a.tag.toNat)
  vShapeIs o.b b a

/-- The width of a register's elements. -/
def vWidth (r : VReg) : Nat := tagWidth r.tag.toNat

/-- INT8, INT16 and INT32 compare signed, UINT8 and INDEX32 unsigned (R381). -/
def signedTag (tag : Nat) : Bool := tag = tagInt8 || tag = tagInt16 || tag = tagInt32

/-- An element as the integer that VIMIN and VIMAX compare. -/
def intOrder (r : VReg) (x : Nat) : Int := if signedTag r.tag.toNat then sNat (vWidth r) x else (x : Int)

def execViadd (o : V3) (s : State) : Out := vBitwise2 o (sameIn o tagsI) (fun a x y => (x + y) % 2 ^ vWidth a) s
def execVisub (o : V3) (s : State) : Out := vBitwise2 o (sameIn o tagsI) (fun a x y => (x + 2 ^ vWidth a - y) % 2 ^ vWidth a) s
def execVimul (o : V3) (s : State) : Out := vBitwise2 o (sameIn o tagsI) (fun a x y => x * y % 2 ^ vWidth a) s
def execVimin (o : V3) (s : State) : Out := vBitwise2 o (sameIn o tagsI) (fun a x y => if intOrder a x ≤ intOrder a y then x else y) s
def execVimax (o : V3) (s : State) : Out := vBitwise2 o (sameIn o tagsI) (fun a x y => if intOrder a x ≤ intOrder a y then y else x) s
def execViminz (o : V3) (s : State) : Out := vBitwise2 o (sameIn o tagsI) (fun _ x y => min x y) s
def execVimaxz (o : V3) (s : State) : Out := vBitwise2 o (sameIn o tagsI) (fun _ x y => max x y) s
def execVand (o : V3) (s : State) : Out := vBitwise2 o (sameWidth o) (fun _ x y => x &&& y) s
def execVor (o : V3) (s : State) : Out := vBitwise2 o (sameWidth o) (fun _ x y => x ||| y) s
def execVxor (o : V3) (s : State) : Out := vBitwise2 o (sameWidth o) (fun _ x y => x ^^^ y) s

/-- The shifts and VPOPC accept I and raw. -/
def tagsIRaw : List Nat := 0 :: tagsI

def execVshl (o : V3) (s : State) : Out := vBitwise2 o (sameIn o tagsIRaw) (fun a x y => x * 2 ^ (y % vWidth a) % 2 ^ vWidth a) s
def execVshr (o : V3) (s : State) : Out := vBitwise2 o (sameIn o tagsIRaw) (fun a x y => x / 2 ^ (y % vWidth a)) s
def execVsra (o : V3) (s : State) : Out :=
  vBitwise2 o (sameIn o tagsIRaw) (fun a x y => intMod (vWidth a) (sNat (vWidth a) x / (2 ^ (y % vWidth a) : Nat))) s

def execVpopc (o : V2) (s : State) : Out :=
  runV s o.d .arith 3 do
    let a ← vReady s o.a
    let d ← vFree s o.d
    slotFree s .arith
    vTagIn o.a a tagsIRaw
    let act := activeOf (readM s o.k) (vCount a)
    let res := (vBits a).map fun x => onesOf (vWidth a) x
    let v ← vCommit d a.tag.toNat a.rows a.cols act res a.poison
    .ok (slotCycles (vCount a) (vWidth a), v, Rounding.start s)

/-! ### Bit fields and funnels (R382) -/

/-- The offset and the width that a control element gives within `w` bits. -/
def fieldOff (w c : Nat) : Nat := c % 32 % w
def fieldLen (w c : Nat) : Nat := min (c / 256 % 32 + 1) (w - fieldOff w c)

/-- v[b] holds the controls, INT32 or INDEX32 in the shape of v[a]; `reads` tells that v[d] is a source of the same tag and shape. -/
def vField (o : V3) (reads : Bool) (g : Nat → Nat → Nat → Nat → Nat) (s : State) : Out :=
  runV s o.d .arith 3 do
    let a ← vReady s o.a
    let b ← vReady s o.b
    let d ← if reads then vReady s o.d else vFree s o.d
    slotFree s .arith
    vTagIn o.a a tagsI
    vTagIn o.b b [tagInt32, tagIndex32]
    vShapeIs o.b b a
    if reads then vLike o.d d a else .ok ()
    let w := vWidth a
    let act := activeOf (readM s o.k) (vCount a)
    let olds := if reads then vBits d else List.replicate (vCount a) 0
    let res := ((vBits a).zip ((vBits b).zip olds)).map fun p => g w p.1 p.2.1 p.2.2
    let v ← vCommit d a.tag.toNat a.rows a.cols act res (a.poison || b.poison || (reads && d.poison))
    .ok (slotCycles (vCount a) w, v, Rounding.start s)

/-- The field of `x` that a control names. -/
def laneField (w x c : Nat) : Nat := x / 2 ^ fieldOff w c % 2 ^ fieldLen w c

def execVbxt (o : V3) (s : State) : Out := vField o false (fun w x c _ => intMod w (sNat (fieldLen w c) (laneField w x c))) s
def execVbxz (o : V3) (s : State) : Out := vField o false (fun w x c _ => laneField w x c) s
def execVbins (o : V3) (s : State) : Out :=
  vField o true (fun w x c z =>
    let o := fieldOff w c
    let n := fieldLen w c
    z - z / 2 ^ o % 2 ^ n * 2 ^ o + x % 2 ^ n * 2 ^ o) s
def execVfshl (o : V3) (s : State) : Out := vField o true (fun w x c z => (z * 2 ^ w + x) * 2 ^ (c % 32 % w) % 2 ^ (2 * w) / 2 ^ w) s
def execVfshr (o : V3) (s : State) : Out := vField o true (fun w x c z => (z * 2 ^ w + x) / 2 ^ (c % 32 % w) % 2 ^ w) s

end Sys2Proof.Machine
end

