-- ==== Sys2Proof/Machine/VectorData.lean ====
section
/-! DEFINITION. Vector compares, selects, votes, reductions, the permute slot, conversions, quantisation, moves, shapes and masks (13_isa_vector R377,
R383 to R391). -/

namespace Sys2Proof.Machine

/-! ### Masks (R376, R383, R391) -/

/-- A mask from its bits. -/
def maskOf (l : List Bool) : BitVec 2048 := BitVec.ofNat 2048 (packBits 1 (l.map Bool.toNat))

/-- A mask written in cycle `due`: the bits of `keep` stay (R376). -/
def postMask (due : Cycle) (m : BitVec 3) (keep val : BitVec 2048) (s : State) : State := post due 2 (.mask m keep val) s

/-- The condition of VCMP on floating values (R383). -/
def floatCond (c : Nat) (x y : XReal) : Bool :=
  match c with
  | 0 => XReal.cmp x y = some 0
  | 1 => XReal.cmp x y ≠ some 0
  | 2 => XReal.cmp x y = some (-1)
  | 3 => XReal.cmp x y = some 0 || XReal.cmp x y = some 1
  | 4 => XReal.cmp x.abs y.abs = some (-1)
  | 5 => XReal.cmp x.abs y.abs = some 0 || XReal.cmp x.abs y.abs = some 1
  | _ => x.isNan || y.isNan

/-- The condition of VCMP on integers: signed, or unsigned for UINT8 and INDEX32; LTZ and GEZ always unsigned (R383). -/
def intCond (r : VReg) (c x y : Nat) : Bool :=
  match c with
  | 0 => x = y
  | 1 => x ≠ y
  | 2 => intOrder r x < intOrder r y
  | 3 => intOrder r y ≤ intOrder r x
  | 4 => x < y
  | 5 => y ≤ x
  | _ => false

/-- VCMP: the destination bits of active elements, written with the latency of the arithmetic slot; a poisoned source traps (R372). -/
def execVcmp (o : VCmpOp) (s : State) : Out :=
  runCol .colC s do
    let a ← vReady s o.a
    let b ← vReady s o.b
    slotFree s .arith
    vTagIn o.a a (tagsF ++ tagsI)
    vLike o.b b a
    unpoisoned (a.poison || b.poison)
    let tag := a.tag.toNat
    let n := vCount a
    let bits := ((vBits a).zip (vBits b)).map fun p =>
      if tagsF.contains tag then floatCond o.c.toNat (decodeTag tag p.1) (decodeTag tag p.2) else intCond a o.c.toNat p.1 p.2
    let k := readM s o.k
    let act := k &&& BitVec.ofNat 2048 (2 ^ n - 1)
    let busy := slotCycles n (vWidth a)
    let c := cyc s
    let s := postMask (c + 3 + busy - 1) o.d (~~~act) (maskOf bits) s
    .ok (colNext .colC (modCore (fun k => { k with units := slotTake k.units (c + busy) .arith }) s))

/-- A mask operation: bit i of the destination changes only where mk[i] is 1; written in the issue cycle (R375, R391). -/
def maskWord (d k : BitVec 3) (v : BitVec 2048) (s : State) : Out := .next (colNext .colC (postMask (cyc s) d (~~~(readM s k)) v s))

def execMand (o : M3) (s : State) : Out := maskWord o.d o.k (readM s o.a &&& readM s o.b) s
def execMor (o : M3) (s : State) : Out := maskWord o.d o.k (readM s o.a ||| readM s o.b) s
def execMxor (o : M3) (s : State) : Out := maskWord o.d o.k (readM s o.a ^^^ readM s o.b) s
def execMnot (o : M2) (s : State) : Out := maskWord o.d o.k (~~~(readM s o.a)) s

/-- The bounds of MRANGE: INDEX32 unsigned, the others signed (R391). -/
def rangeBound (r : VReg) (i : Nat) : Int :=
  let x := elemAt r.data.toNat 32 i
  if r.tag.toNat = tagIndex32 then (x : Int) else sNat 32 x

/-- The mask with bits lo to hi set. -/
def rangeMask (lo hi : Int) : BitVec 2048 :=
  let a := max lo 0
  let b := min hi 2047
  if a ≤ b then BitVec.ofNat 2048 (2 ^ (b.toNat + 1) - 2 ^ a.toNat) else 0

def execMrange (o : MRng) (s : State) : Out :=
  runCol .colC s do
    let a ← vReady s o.a
    vTagIn o.a a [tagRaw, tagInt32, tagIndex32]
    unpoisoned a.poison
    let m := if vCount a = 1 then rangeMask 0 (rangeBound a 0) else rangeMask (rangeBound a 0) (rangeBound a 1)
    .ok (colNext .colC (postMask (cyc s + 1) o.d (~~~(readM s o.k)) m s))

/-- VANY and VALL write their flag in the issue cycle, in the C slot (R385). -/
def voteWord (o : VVote) (b : Bool) (s : State) : Out := .next (colNext .colC (modCore (flagPut o.f.toNat b) s))

def execVany (o : VVote) (s : State) : Out := voteWord o (decide (readM s o.k ≠ 0)) s
def execVall (o : VVote) (s : State) : Out := voteWord o (decide (readM s o.k = BitVec.allOnes 2048)) s

/-! ### Select and moves (R377, R384) -/

/-- VSEL: every element is active, and the mask selects. -/
def execVsel (o : V3) (s : State) : Out :=
  runV s o.d .arith 3 do
    let (a, b, d) ← vPair s o tagsX
    let n := vCount a
    let res := ((activeOf (readM s o.k) n).zip ((vBits a).zip (vBits b))).map fun p => if p.1 then p.2.1 else p.2.2
    let v ← vCommit d a.tag.toNat a.rows a.cols (List.replicate n true) res (a.poison || b.poison)
    .ok (slotCycles n (vWidth a), v, Rounding.start s)

/-- The scale plane of an SE register of `n` elements, in its place. -/
def scalePlane (x tag n : Nat) : Nat := x / 2 ^ (n * (seBits tag + 1)) % 2 ^ n * 2 ^ (n * (seBits tag + 1))

/-- The tags of the SE formats. -/
def tagsSe : List Nat := [6, 7, 8]

/-- VMOV copies element bits; of an SE source the scale plane is copied whole (R377). -/
def execVmov (o : V2) (s : State) : Out :=
  runV s o.d .arith 3 do
    let a ← vReady s o.a
    let d ← vFree s o.d
    slotFree s .arith
    vTagIn o.a a (tagsX ++ tagsSe)
    let tag := a.tag.toNat
    let n := vCount a
    let v ← vCommit d tag a.rows a.cols (activeOf (readM s o.k) n) (elemsOf a.data.toNat (elemWidth tag) n) a.poison
    let v := if isSe tag then { v with data := v.data + scalePlane a.data.toNat tag n } else v
    .ok (slotCycles n (elemWidth tag), v, Rounding.start s)

/-- VLDI: the immediate in the destination's own tag and shape (R377). -/
def execVldi (o : VImm) (s : State) : Out :=
  runV s o.d .arith 3 do
    let d ← vReady s o.d
    slotFree s .arith
    vTagIn o.d d tagsX
    let tag := d.tag.toNat
    let n := vCount d
    let x := o.i.toInt
    let bits : Nat × FpFlags := if tag = tagRaw then (intMod 32 x, {}) else roundBits tag .rne 0 false (XReal.ofInt x)
    let act := activeOf (readM s o.k) n
    let (res, r) := mapActive (fun st (_ : Nat) => (bits, st)) act (List.range n) (Rounding.start s)
    let v ← vCommit d tag d.rows d.cols act res false
    .ok (slotCycles n (vWidth d), v, r)

/-- VSHAPE: the same bytes under a new shape, seen from the next cycle (R376, R377). -/
def execVshape (o : VShapeOp) (s : State) : Out :=
  runCol .colC s do
    let rows := o.r.toNat + 1
    let cols := 2 ^ o.c.toNat
    need (rows * cols ≤ 2048 && o.c.toNat ≤ 11) (trapOf .illegal)
    let d ← vReady s o.d
    need (!(isSe d.tag.toNat) || rows * cols = vCount d) (formatTrap fileV o.d.toNat tagsX d.tag.toNat)
    .ok (colNext .colC (post (cyc s) 2 (.vWrite o.d d.data d.tag rows cols d.poison false) s))

/-! ### Reductions (R386) -/

/-- The active elements of row `j`, or of column `j`, of a register. -/
def lineElems (r : VReg) (act : List Bool) (xs : List Nat) (byRow : Bool) (j : Nat) : List Nat :=
  (act.zip xs).zipIdx.filterMap fun p =>
    if p.1.1 && (if byRow then p.2 / r.cols else p.2 % r.cols) = j then some p.1.2 else none

/-- A reduction by rows or by columns; every element of the result is active. -/
def vReduce (byRow : Bool) (o : V2) (f : VReg → Nat → List Nat → (Nat × FpFlags) × Nat) (s : State) : Out :=
  runV s o.d .arith 8 do
    let a ← vReady s o.a
    let d ← vFree s o.d
    slotFree s .arith
    vTagIn o.a a (tagsF ++ tagsI)
    let n := vCount a
    let act := activeOf (readM s o.k) n
    let m := if byRow then a.rows else a.cols
    let sets := (List.range m).map (lineElems a act (vBits a) byRow)
    let all := List.replicate m true
    let (res, r) := mapActive (fun st x => f a st x) all sets (Rounding.start s)
    let v ← vCommit d a.tag.toNat (if byRow then m else 1) (if byRow then 1 else m) all res a.poison
    .ok (slotCycles n (vWidth a), v, r)

/-- A sum: exact and rounded once, or modulo 2^W. -/
def redSum (mode : Mode) (r : VReg) (st : Nat) (l : List Nat) : (Nat × FpFlags) × Nat :=
  let tag := r.tag.toNat
  if tagsF.contains tag then roundDraw tag mode true st (exactSum (mode = .rdn) (l.map (decodeTag tag)))
  else ((l.foldl (· + ·) 0 % 2 ^ vWidth r, {}), st)

/-- The least and the greatest value of a floating format. -/
def lowestOf (f : FFmt) (neg : Bool) : XReal := if f.noInf then f.maxFin neg else .inf neg

/-- A maximum (`up`) or minimum; of no element, the format's lowest or highest value. -/
def redOrder (up : Bool) (r : VReg) (st : Nat) (l : List Nat) : (Nat × FpFlags) × Nat :=
  let tag := r.tag.toNat
  match fmtOf tag with
  | .fl f => ((encodeFl f ((l.map (decodeFl f)).foldl (if up then xMax else xMin) (lowestOf f up)), {}), st)
  | .int w _ =>
    let lo := intLo w (signedTag tag)
    let hi := intHi w (signedTag tag)
    let m := (l.map (intOrder r)).foldl (if up then max else min) (if up then lo else hi)
    ((intMod w m, {}), st)

def execVrsum (o : V2) (s : State) : Out := vReduce true o (redSum (rmode s)) s
def execVrmax (o : V2) (s : State) : Out := vReduce true o (redOrder true) s
def execVrmin (o : V2) (s : State) : Out := vReduce true o (redOrder false) s
def execVcsum (o : V2) (s : State) : Out := vReduce false o (redSum (rmode s)) s
def execVcmax (o : V2) (s : State) : Out := vReduce false o (redOrder true) s

/-! ### The permute slot (R387) -/

/-- A word of the permute slot: `f` gives the shape of the result and its elements. -/
def vMove (o : V3) (perm : Bool) (f : VReg → VReg → Nat × Nat × List Nat) (s : State) : Out :=
  runV s o.d .permute 4 do
    let a ← vReady s o.a
    let b ← vReady s o.b
    let d ← vFree s o.d
    slotFree s .permute
    vTagIn o.a a tagsX
    vTagIn o.b b [tagIndex32]
    let (rows, cols, res) := f a b
    let v ← vCommit d a.tag.toNat rows cols (activeOf (readM s o.k) (rows * cols)) res (a.poison || b.poison)
    let n := max (vCount a) (max (vCount b) (rows * cols))
    .ok (if perm then max 1 (ceilDiv n 128) else slotCycles n (vWidth a), v, Rounding.start s)

/-- UInt(element 0) of an INDEX32 register. -/
def indexZero (b : VReg) : Nat := elemAt b.data.toNat 32 0

/-- Element `i` of a register of `n` elements, zero bits outside. -/
def elemOr0 (r : VReg) (i : Nat) : Nat := if i < vCount r then elemAt r.data.toNat (vWidth r) i else 0

/-- The smallest power of two not below `n`, for n up to 32. -/
def pow2Above (n : Nat) : Nat := ((List.range 6).map (2 ^ ·)).find? (fun p => n ≤ p) |>.getD 32

def execVperm (o : V3) (s : State) : Out := vMove o true (fun a b => (b.rows, b.cols, (vBits b).map (elemOr0 a))) s

/-- VTRN: row r of the result is column k + r of the source. Its slot count is that of the source alone (R375). -/
def trnMove (a b : VReg) : Nat × Nat × List Nat :=
  let k := indexZero b % a.cols
  let w := min 32 (a.cols - k)
  let c := pow2Above a.rows
  (w, c, (List.range (w * c)).map fun i => if i % c < a.rows then elemOr0 a (i % c * a.cols + k + i / c) else 0)

def execVtrn (o : V3) (s : State) : Out :=
  runV s o.d .permute 4 do
    let a ← vReady s o.a
    let b ← vReady s o.b
    let d ← vFree s o.d
    slotFree s .permute
    vTagIn o.a a tagsX
    vTagIn o.b b [tagIndex32]
    let (rows, cols, res) := trnMove a b
    let v ← vCommit d a.tag.toNat rows cols (activeOf (readM s o.k) (rows * cols)) res (a.poison || b.poison)
    .ok (slotCycles (vCount a) (vWidth a), v, Rounding.start s)

def execVbcast (o : V3) (s : State) : Out :=
  vMove o false (fun a b => (a.rows, a.cols, List.replicate (vCount a) (elemOr0 a (indexZero b % vCount a)))) s

def execVrot (o : V3) (s : State) : Out :=
  vMove o false (fun a b => (a.rows, a.cols, (List.range (vCount a)).map fun i => elemOr0 a (i / a.cols * a.cols + (i % a.cols + indexZero b) % a.cols))) s

/-! ### Conversion and quantisation (R388 to R390) -/

/-- The mode that a rounding field names (R388). -/
def modeOf (s : State) (r : BitVec 3) : Mode :=
  match r.toNat with
  | 0 => rmode s
  | n => Mode.ofCode (n - 1)

def execVcvt (o : VCvtOp) (s : State) : Out :=
  let mode := modeOf s o.r
  runV s o.d .arith 4 do
    let a ← vReady s o.a
    let d ← vFree s o.d
    slotFree s .arith
    vTagIn o.a a tagsX
    let from_ := a.tag.toNat
    let tag := o.t.toNat
    let n := vCount a
    let act := activeOf (readM s o.k) n
    let f (st x : Nat) := roundDraw tag mode (tagsF.contains from_) st (decodeTag from_ x, false)
    let (res, r) := mapActive f act (vBits a) (Rounding.start s)
    let v ← vCommit d tag a.rows a.cols act res a.poison
    .ok (slotCycles n (max (tagWidth from_) (tagWidth tag)), v, r)

/-- One block quantised: its element bits and scale word; only active elements draw (R372, R389; log 17). -/
def quantBlock (p : Nat) (mode : Mode) (act : List Bool) (x : List XReal) (r : Rounding) : List Nat × Nat × Rounding :=
  let c := chooseScale p x
  let coded := c.1 % 256 ≠ 0 && c.1 % 256 ≠ 255
  let step (acc : List Nat × Rounding) (q : (Bool × XReal) × Nat) : List Nat × Rounding :=
    let d := if coded && q.1.1 then drawSr mode acc.2.sr else (acc.2.sr, 0)
    let e := encodeSe p c.1 q.2 mode d.2 q.1.2
    (acc.1 ++ [e.1], { sr := d.1, flags := { acc.2.flags with nx := acc.2.flags.nx || e.2 } })
  let y := (act.zip x).zipIdx.foldl step ([], { r with flags := { r.flags with nv := r.flags.nv || c.2 } })
  (y.1, c.1, y.2)

/-- Every block of a register quantised: element bits, scale words. -/
def quantAll (p : Nat) (mode : Mode) : Nat → List Bool → List XReal → Rounding → List Nat × List Nat × Rounding
  | 0, _, _, r => ([], [], r)
  | n + 1, act, x, r =>
    let b := quantBlock p mode (act.take 16) (x.take 16) r
    let rest := quantAll p mode n (act.drop 16) (x.drop 16) b.2.2
    (b.1 ++ rest.1, b.2.1 :: rest.2.1, rest.2.2)

def execVquant (o : VCvtOp) (s : State) : Out :=
  let mode := modeOf s o.r
  runV s o.d .arith 6 do
    let a ← vReady s o.a
    let _ ← vFree s o.d
    slotFree s .arith
    vTagIn o.a a tagsF
    let n := vCount a
    need (n % 16 = 0) (formatTrap fileV o.a.toNat tagsF a.tag.toNat)
    let tag := o.t.toNat
    let p := seBits tag
    let act := activeOf (readM s o.k) n
    let x := (act.zip (vVals a)).map fun q => if q.1 then q.2 else XReal.zero
    let (els, scales, r) := quantAll p mode (n / 16) act x (Rounding.start s)
    let data := packBits (p + 1) els + packBits 16 scales * 2 ^ (n * (p + 1))
    .ok (max 1 (ceilDiv n 256), { data := data, tag := tag, rows := a.rows, cols := a.cols, poison := a.poison }, r)

def execVdeq (o : VDeqOp) (s : State) : Out :=
  let mode := rmode s
  runV s o.d .arith 4 do
    let a ← vReady s o.a
    let d ← vFree s o.d
    slotFree s .arith
    vTagIn o.a a tagsSe
    let from_ := a.tag.toNat
    let tag := o.t.toNat
    let n := vCount a
    let act := activeOf (readM s o.k) n
    let x := (List.range n).map (seValue a.data.toNat from_ n)
    let (res, r) := mapActive (fun st y => roundDraw tag mode true st (y, false)) act x (Rounding.start s)
    let v ← vCommit d tag a.rows a.cols act res a.poison
    .ok (slotCycles n (max (elemWidth from_) (tagWidth tag)), v, r)

end Sys2Proof.Machine
end

