-- ==== Sys2Proof/Machine/Dispatch.lean ====
section
/-! DEFINITION. One arm for each instruction, command and event. -/

namespace Sys2Proof.Machine

/-- The meaning of an instruction. -/
def exec (i : Instr) (s : State) : Host.Outcome State Fault Refusal :=
  match i with
  | .trap o => Sys2Proof.Machine.execTrap o s
  | .add o => Sys2Proof.Machine.execAdd o s
  | .sub o => Sys2Proof.Machine.execSub o s
  | .mul o => Sys2Proof.Machine.execMul o s
  | .mulh o => Sys2Proof.Machine.execMulh o s
  | .mulhz o => Sys2Proof.Machine.execMulhz o s
  | .div o => Sys2Proof.Machine.execDiv o s
  | .divz o => Sys2Proof.Machine.execDivz o s
  | .rem o => Sys2Proof.Machine.execRem o s
  | .remz o => Sys2Proof.Machine.execRemz o s
  | .andR o => Sys2Proof.Machine.execAndR o s
  | .orR o => Sys2Proof.Machine.execOrR o s
  | .xorR o => Sys2Proof.Machine.execXorR o s
  | .shl o => Sys2Proof.Machine.execShl o s
  | .shr o => Sys2Proof.Machine.execShr o s
  | .sra o => Sys2Proof.Machine.execSra o s
  | .minR o => Sys2Proof.Machine.execMinR o s
  | .maxR o => Sys2Proof.Machine.execMaxR o s
  | .minz o => Sys2Proof.Machine.execMinz o s
  | .maxz o => Sys2Proof.Machine.execMaxz o s
  | .clz o => Sys2Proof.Machine.execClz o s
  | .ctz o => Sys2Proof.Machine.execCtz o s
  | .popc o => Sys2Proof.Machine.execPopc o s
  | .addi o => Sys2Proof.Machine.execAddi o s
  | .andi o => Sys2Proof.Machine.execAndi o s
  | .ori o => Sys2Proof.Machine.execOri o s
  | .xori o => Sys2Proof.Machine.execXori o s
  | .shli o => Sys2Proof.Machine.execShli o s
  | .shri o => Sys2Proof.Machine.execShri o s
  | .srai o => Sys2Proof.Machine.execSrai o s
  | .li o => Sys2Proof.Machine.execLi o s
  | .lui o => Sys2Proof.Machine.execLui o s
  | .lhi o => Sys2Proof.Machine.execLhi o s
  | .addpc o => Sys2Proof.Machine.execAddpc o s
  | .fshl o => Sys2Proof.Machine.execFshl o s
  | .fshr o => Sys2Proof.Machine.execFshr o s
  | .bxt o => Sys2Proof.Machine.execBxt o s
  | .bxz o => Sys2Proof.Machine.execBxz o s
  | .bins o => Sys2Proof.Machine.execBins o s
  | .bxti o => Sys2Proof.Machine.execBxti o s
  | .bxzi o => Sys2Proof.Machine.execBxzi o s
  | .binsi o => Sys2Proof.Machine.execBinsi o s
  | .sel o => Sys2Proof.Machine.execSel o s
  | .cmp o => Sys2Proof.Machine.execCmp o s
  | .cmpi o => Sys2Proof.Machine.execCmpi o s
  | .ptgt x0 x1 => Sys2Proof.Machine.execPtgt x0 x1 s
  | .ptgtr x0 x1 => Sys2Proof.Machine.execPtgtr x0 x1 s
  | .xfer o => Sys2Proof.Machine.execXfer o s
  | .xcall o => Sys2Proof.Machine.execXcall o s
  | .fset o => Sys2Proof.Machine.execFset o s
  | .fclr o => Sys2Proof.Machine.execFclr o s
  | .ftgl o => Sys2Proof.Machine.execFtgl o s
  | .ftest x0 x1 => Sys2Proof.Machine.execFtest x0 x1 s
  | .fmov x0 x1 => Sys2Proof.Machine.execFmov x0 x1 s
  | .fwait x0 x1 => Sys2Proof.Machine.execFwait x0 x1 s
  | .fwaita o => Sys2Proof.Machine.execFwaita o s
  | .fsetReg o => Sys2Proof.Machine.execFsetReg o s
  | .fclrReg o => Sys2Proof.Machine.execFclrReg o s
  | .ftglReg o => Sys2Proof.Machine.execFtglReg o s
  | .ftestReg o => Sys2Proof.Machine.execFtestReg o s
  | .fmovReg o => Sys2Proof.Machine.execFmovReg o s
  | .fwaitReg x0 x1 => Sys2Proof.Machine.execFwaitReg x0 x1 s
  | .fwaitaReg o => Sys2Proof.Machine.execFwaitaReg o s
  | .qput x0 x1 => Sys2Proof.Machine.execQput x0 x1 s
  | .qputToken o => Sys2Proof.Machine.execQputToken o s
  | .qget x0 x1 => Sys2Proof.Machine.execQget x0 x1 s
  | .qpeek x0 x1 => Sys2Proof.Machine.execQpeek x0 x1 s
  | .qcnt x0 x1 => Sys2Proof.Machine.execQcnt x0 x1 s
  | .ld o => Sys2Proof.Machine.execLd o s
  | .ldz o => Sys2Proof.Machine.execLdz o s
  | .st o => Sys2Proof.Machine.execSt o s
  | .ldnc o => Sys2Proof.Machine.execLdnc o s
  | .ldsl o => Sys2Proof.Machine.execLdsl o s
  | .stsl o => Sys2Proof.Machine.execStsl o s
  | .atom o => Sys2Proof.Machine.execAtom o s
  | .acas o => Sys2Proof.Machine.execAcas o s
  | .aagg o => Sys2Proof.Machine.execAagg o s
  | .rcsnap o => Sys2Proof.Machine.execRcsnap o s
  | .fenceAcq o => Sys2Proof.Machine.execFenceAcq o s
  | .fenceRel o => Sys2Proof.Machine.execFenceRel o s
  | .fenceAr o => Sys2Proof.Machine.execFenceAr o s
  | .fenceSc o => Sys2Proof.Machine.execFenceSc o s
  | .fenceInv o => Sys2Proof.Machine.execFenceInv o s
  | .push o => Sys2Proof.Machine.execPush o s
  | .strip o => Sys2Proof.Machine.execStrip o s
  | .cwait o => Sys2Proof.Machine.execCwait o s
  | .meet o => Sys2Proof.Machine.execMeet o s
  | .launch o => Sys2Proof.Machine.execLaunch o s
  | .launchw o => Sys2Proof.Machine.execLaunchw o s
  | .ringacq o => Sys2Proof.Machine.execRingacq o s
  | .ringrel o => Sys2Proof.Machine.execRingrel o s
  | .mfs x0 x1 => Sys2Proof.Machine.execMfs x0 x1 s
  | .mts x0 x1 => Sys2Proof.Machine.execMts x0 x1 s
  | .colQput o => Sys2Proof.Machine.execColQput o s
  | .colQget o => Sys2Proof.Machine.execColQget o s
  | .colFset o => Sys2Proof.Machine.execColFset o s
  | .colFclr o => Sys2Proof.Machine.execColFclr o s
  | .colFwait o => Sys2Proof.Machine.execColFwait o s
  | .nopg o => Sys2Proof.Machine.execNopg o s
  | .vadd o => Sys2Proof.Machine.execVadd o s
  | .vsub o => Sys2Proof.Machine.execVsub o s
  | .vmul o => Sys2Proof.Machine.execVmul o s
  | .vmin o => Sys2Proof.Machine.execVmin o s
  | .vmax o => Sys2Proof.Machine.execVmax o s
  | .vabs o => Sys2Proof.Machine.execVabs o s
  | .vneg o => Sys2Proof.Machine.execVneg o s
  | .vcpsgn o => Sys2Proof.Machine.execVcpsgn o s
  | .vfma o => Sys2Proof.Machine.execVfma o s
  | .vfms o => Sys2Proof.Machine.execVfms o s
  | .vfnma o => Sys2Proof.Machine.execVfnma o s
  | .vexp2 o => Sys2Proof.Machine.execVexp2 o s
  | .vlog2 o => Sys2Proof.Machine.execVlog2 o s
  | .vrcp o => Sys2Proof.Machine.execVrcp o s
  | .vrsq o => Sys2Proof.Machine.execVrsq o s
  | .vsqrt o => Sys2Proof.Machine.execVsqrt o s
  | .vsigm o => Sys2Proof.Machine.execVsigm o s
  | .viadd o => Sys2Proof.Machine.execViadd o s
  | .visub o => Sys2Proof.Machine.execVisub o s
  | .vimul o => Sys2Proof.Machine.execVimul o s
  | .vimin o => Sys2Proof.Machine.execVimin o s
  | .vimax o => Sys2Proof.Machine.execVimax o s
  | .viminz o => Sys2Proof.Machine.execViminz o s
  | .vimaxz o => Sys2Proof.Machine.execVimaxz o s
  | .vand o => Sys2Proof.Machine.execVand o s
  | .vor o => Sys2Proof.Machine.execVor o s
  | .vxor o => Sys2Proof.Machine.execVxor o s
  | .vshl o => Sys2Proof.Machine.execVshl o s
  | .vshr o => Sys2Proof.Machine.execVshr o s
  | .vsra o => Sys2Proof.Machine.execVsra o s
  | .vpopc o => Sys2Proof.Machine.execVpopc o s
  | .vbxt o => Sys2Proof.Machine.execVbxt o s
  | .vbxz o => Sys2Proof.Machine.execVbxz o s
  | .vbins o => Sys2Proof.Machine.execVbins o s
  | .vfshl o => Sys2Proof.Machine.execVfshl o s
  | .vfshr o => Sys2Proof.Machine.execVfshr o s
  | .vcmp o => Sys2Proof.Machine.execVcmp o s
  | .vsel o => Sys2Proof.Machine.execVsel o s
  | .vrsum o => Sys2Proof.Machine.execVrsum o s
  | .vrmax o => Sys2Proof.Machine.execVrmax o s
  | .vrmin o => Sys2Proof.Machine.execVrmin o s
  | .vcsum o => Sys2Proof.Machine.execVcsum o s
  | .vcmax o => Sys2Proof.Machine.execVcmax o s
  | .vany o => Sys2Proof.Machine.execVany o s
  | .vall o => Sys2Proof.Machine.execVall o s
  | .vperm o => Sys2Proof.Machine.execVperm o s
  | .vtrn o => Sys2Proof.Machine.execVtrn o s
  | .vbcast o => Sys2Proof.Machine.execVbcast o s
  | .vrot o => Sys2Proof.Machine.execVrot o s
  | .vcvt o => Sys2Proof.Machine.execVcvt o s
  | .vquant o => Sys2Proof.Machine.execVquant o s
  | .vdeq o => Sys2Proof.Machine.execVdeq o s
  | .vmov o => Sys2Proof.Machine.execVmov o s
  | .vldi o => Sys2Proof.Machine.execVldi o s
  | .vshape o => Sys2Proof.Machine.execVshape o s
  | .mand o => Sys2Proof.Machine.execMand o s
  | .mor o => Sys2Proof.Machine.execMor o s
  | .mxor o => Sys2Proof.Machine.execMxor o s
  | .mnot o => Sys2Proof.Machine.execMnot o s
  | .mrange o => Sys2Proof.Machine.execMrange o s
  | .mma o => Sys2Proof.Machine.execMma o s
  | .mmas o => Sys2Proof.Machine.execMmas o s
  | .mmag o => Sys2Proof.Machine.execMmag o s
  | .mzero o => Sys2Proof.Machine.execMzero o s
  | .mclose o => Sys2Proof.Machine.execMclose o s
  | .mwake o => Sys2Proof.Machine.execMwake o s
  | .mopen o => Sys2Proof.Machine.execMopen o s
  | .mshut o => Sys2Proof.Machine.execMshut o s
  | .smxstep o => Sys2Proof.Machine.execSmxstep o s
  | .smxfin o => Sys2Proof.Machine.execSmxfin o s
  | .smxmerge o => Sys2Proof.Machine.execSmxmerge o s
  | .mstget o => Sys2Proof.Machine.execMstget o s
  | .mstset o => Sys2Proof.Machine.execMstset o s
  | .macc2v o => Sys2Proof.Machine.execMacc2v o s
  | .mv2acc o => Sys2Proof.Machine.execMv2acc o s
  | .madh o => Sys2Proof.Machine.execMadh o s
  | .ldt o => Sys2Proof.Machine.execLdt o s
  | .ldtu o => Sys2Proof.Machine.execLdtu o s
  | .tld o => Sys2Proof.Machine.execTld o s
  | .vld o => Sys2Proof.Machine.execVld o s
  | .gld o => Sys2Proof.Machine.execGld o s
  | .bfx o => Sys2Proof.Machine.execBfx o s
  | .eadd o => Sys2Proof.Machine.execEadd o s
  | .eset o => Sys2Proof.Machine.execEset o s
  | .emov o => Sys2Proof.Machine.execEmov o s
  | .kvx o => Sys2Proof.Machine.execKvx o s
  | .wld o => Sys2Proof.Machine.execWld o s
  | .stt o => Sys2Proof.Machine.execStt o s
  | .sttu o => Sys2Proof.Machine.execSttu o s
  | .twr o => Sys2Proof.Machine.execTwr o s
  | .vst o => Sys2Proof.Machine.execVst o s
  | .sct o => Sys2Proof.Machine.execSct o s
  | .acst o => Sys2Proof.Machine.execAcst o s
  | .partCreate o => Sys2Proof.Machine.execPartCreate o s
  | .partResize o => Sys2Proof.Machine.execPartResize o s
  | .partDestroy o => Sys2Proof.Machine.execPartDestroy o s
  | .partReset o => Sys2Proof.Machine.execPartReset o s
  | .worldCreate o => Sys2Proof.Machine.execWorldCreate o s
  | .worldDestroy o => Sys2Proof.Machine.execWorldDestroy o s
  | .worldBind o => Sys2Proof.Machine.execWorldBind o s
  | .worldUnbind o => Sys2Proof.Machine.execWorldUnbind o s
  | .quotaGet o => Sys2Proof.Machine.execQuotaGet o s
  | .quotaSet o => Sys2Proof.Machine.execQuotaSet o s
  | .pageAlloc o => Sys2Proof.Machine.execPageAlloc o s
  | .pageFree o => Sys2Proof.Machine.execPageFree o s
  | .prefixReg o => Sys2Proof.Machine.execPrefixReg o s
  | .keyRotate o => Sys2Proof.Machine.execKeyRotate o s
  | .powerCapSet o => Sys2Proof.Machine.execPowerCapSet o s
  | .fwWrite o => Sys2Proof.Machine.execFwWrite o s
  | .cfgWrite o => Sys2Proof.Machine.execCfgWrite o s
  | .logRead o => Sys2Proof.Machine.execLogRead o s
  | .errRead o => Sys2Proof.Machine.execErrRead o s
  | .resync o => Sys2Proof.Machine.execResync o s
  | .qreset o => Sys2Proof.Machine.execQreset o s
  | .queueLaunch o => Sys2Proof.Machine.execQueueLaunch o s
  | .copyH2d o => Sys2Proof.Machine.execCopyH2d o s
  | .copyD2h o => Sys2Proof.Machine.execCopyD2h o s
  | .objWait o => Sys2Proof.Machine.execObjWait o s
  | .copy2d o => Sys2Proof.Machine.execCopy2d o s
  | .copyr o => Sys2Proof.Machine.execCopyr o s
  | .slattn o => Sys2Proof.Machine.execSlattn o s
  | .lgmerge o => Sys2Proof.Machine.execLgmerge o s
  | .lgunmerge o => Sys2Proof.Machine.execLgunmerge o s
  | .lgsave o => Sys2Proof.Machine.execLgsave o s
  | .lgdrop o => Sys2Proof.Machine.execLgdrop o s
  | .adpin o => Sys2Proof.Machine.execAdpin o s
  | .adunpin o => Sys2Proof.Machine.execAdunpin o s
  | .adpubCreate o => Sys2Proof.Machine.execAdpubCreate o s
  | .adpubGrant o => Sys2Proof.Machine.execAdpubGrant o s
  | .adpubPrepare o => Sys2Proof.Machine.execAdpubPrepare o s
  | .adpubCommit o => Sys2Proof.Machine.execAdpubCommit o s
  | .adpubDelete o => Sys2Proof.Machine.execAdpubDelete o s
  | .kalloc o => Sys2Proof.Machine.execKalloc o s
  | .kallocPool o => Sys2Proof.Machine.execKallocPool o s
  | .kextendAlloc o => Sys2Proof.Machine.execKextendAlloc o s
  | .kextendShare o => Sys2Proof.Machine.execKextendShare o s
  | .kextendSetlen o => Sys2Proof.Machine.execKextendSetlen o s
  | .kfree o => Sys2Proof.Machine.execKfree o s
  | .migrate o => Sys2Proof.Machine.execMigrate o s
  | .migrateReplica o => Sys2Proof.Machine.execMigrateReplica o s
  | .migrateCancel o => Sys2Proof.Machine.execMigrateCancel o s
  | .colred o => Sys2Proof.Machine.execColred o s
  | .colgat o => Sys2Proof.Machine.execColgat o s
  | .colscat o => Sys2Proof.Machine.execColscat o s
  | .wload o => Sys2Proof.Machine.execWload o s
  | .nop => Sys2Proof.Machine.execNop s
  | .eret => Sys2Proof.Machine.execEret s
  | .yieldGang => Sys2Proof.Machine.execYieldGang s
  | .exit => Sys2Proof.Machine.execExit s
  | .brk => Sys2Proof.Machine.execBrk s
  | .powerOnReset => Sys2Proof.Machine.execPowerOnReset s
  | .hotReset => Sys2Proof.Machine.execHotReset s
  | .powerTrip => Sys2Proof.Machine.execPowerTrip s
  | .powerTripRelease => Sys2Proof.Machine.execPowerTripRelease s
  | .thermalPowerOff => Sys2Proof.Machine.execThermalPowerOff s
  | .governorWindow => Sys2Proof.Machine.execGovernorWindow s
  | .islCtlTgtWrite => Sys2Proof.Machine.execIslCtlTgtWrite s
  | .drainComplete => Sys2Proof.Machine.execDrainComplete s
  | .islandAbandon => Sys2Proof.Machine.execIslandAbandon s
  | .relockEnd => Sys2Proof.Machine.execRelockEnd s
  | .strokeTick => Sys2Proof.Machine.execStrokeTick s
  | .weightsLate => Sys2Proof.Machine.execWeightsLate s
  | .ageingPromotion => Sys2Proof.Machine.execAgeingPromotion s
  | .watchdogExpiry => Sys2Proof.Machine.execWatchdogExpiry s
  | .gangDispatch => Sys2Proof.Machine.execGangDispatch s
  | .wideGangStart => Sys2Proof.Machine.execWideGangStart s
  | .preemptionSave => Sys2Proof.Machine.execPreemptionSave s
  | .launchEnd => Sys2Proof.Machine.execLaunchEnd s
  | .barrierComplete => Sys2Proof.Machine.execBarrierComplete s
  | .stripBodyLoad => Sys2Proof.Machine.execStripBodyLoad s
  | .stripGroupStart => Sys2Proof.Machine.execStripGroupStart s
  | .stripRepeatEnd => Sys2Proof.Machine.execStripRepeatEnd s
  | .slotDonation => Sys2Proof.Machine.execSlotDonation s
  | .slotMiss => Sys2Proof.Machine.execSlotMiss s
  | .timedReadDelivery => Sys2Proof.Machine.execTimedReadDelivery s
  | .timedWriteAccept => Sys2Proof.Machine.execTimedWriteAccept s
  | .untimedLoadArrival => Sys2Proof.Machine.execUntimedLoadArrival s
  | .storePerformed => Sys2Proof.Machine.execStorePerformed s
  | .linkCrcFail => Sys2Proof.Machine.execLinkCrcFail s
  | .voidWindowStart => Sys2Proof.Machine.execVoidWindowStart s
  | .repairEnd => Sys2Proof.Machine.execRepairEnd s
  | .errorWindowBoundary => Sys2Proof.Machine.execErrorWindowBoundary s
  | .cxlDown => Sys2Proof.Machine.execCxlDown s
  | .cxlRetrain => Sys2Proof.Machine.execCxlRetrain s
  | .cxlPoisonReport => Sys2Proof.Machine.execCxlPoisonReport s
  | .migrationStart => Sys2Proof.Machine.execMigrationStart s
  | .migrationSwitch => Sys2Proof.Machine.execMigrationSwitch s
  | .migrationAbandon => Sys2Proof.Machine.execMigrationAbandon s
  | .sweepStart => Sys2Proof.Machine.execSweepStart s
  | .sweepLine => Sys2Proof.Machine.execSweepLine s
  | .prefixRefetch => Sys2Proof.Machine.execPrefixRefetch s
  | .hostLinkDown => Sys2Proof.Machine.execHostLinkDown s
  | .hostLinkRetrain => Sys2Proof.Machine.execHostLinkRetrain s
  | .hostLinkLost => Sys2Proof.Machine.execHostLinkLost s
  | .ideCheckFail => Sys2Proof.Machine.execIdeCheckFail s
  | .lockInterface => Sys2Proof.Machine.execLockInterface s
  | .startInterface => Sys2Proof.Machine.execStartInterface s
  | .stopInterface => Sys2Proof.Machine.execStopInterface s
  | .spdmGetMeasurements => Sys2Proof.Machine.execSpdmGetMeasurements s
  | .spdmKeyExchange => Sys2Proof.Machine.execSpdmKeyExchange s
  | .ideKmKeyProg => Sys2Proof.Machine.execIdeKmKeyProg s
  | .null => Sys2Proof.Machine.execNull s
  | .ldReq => Sys2Proof.Machine.execLdReq s
  | .ldRsp => Sys2Proof.Machine.execLdRsp s
  | .atomReq => Sys2Proof.Machine.execAtomReq s
  | .atomRsp => Sys2Proof.Machine.execAtomRsp s
  | .nack => Sys2Proof.Machine.execNack s
  | .remoteRetry => Sys2Proof.Machine.execRemoteRetry s
  | .copyData => Sys2Proof.Machine.execCopyData s
  | .copyAck => Sys2Proof.Machine.execCopyAck s
  | .colData => Sys2Proof.Machine.execColData s
  | .memb => Sys2Proof.Machine.execMemb s
  | .memberLost => Sys2Proof.Machine.execMemberLost s
  | .flitCheckFail => Sys2Proof.Machine.execFlitCheckFail s
  | .portRetrain => Sys2Proof.Machine.execPortRetrain s
  | .linkRekey => Sys2Proof.Machine.execLinkRekey s
  | .sqTailWrite => Sys2Proof.Machine.execSqTailWrite s
  | .cqHeadWrite => Sys2Proof.Machine.execCqHeadWrite s
  | .qctlEnSet => Sys2Proof.Machine.execQctlEnSet s
  | .qctlEnClear => Sys2Proof.Machine.execQctlEnClear s
  | .hostCommandComplete => Sys2Proof.Machine.execHostCommandComplete s
  | .wdogSetApply => Sys2Proof.Machine.execWdogSetApply s
  | .dbgStop => Sys2Proof.Machine.execDbgStop s
  | .dbgResume => Sys2Proof.Machine.execDbgResume s
  | .fabpStatRead => Sys2Proof.Machine.execFabpStatRead s
  | .registerWrite => Sys2Proof.Machine.execRegisterWrite s
  | .trapEntry => Sys2Proof.Machine.execTrapEntry s
  | .supervisorResolve => Sys2Proof.Machine.execSupervisorResolve s
  | .translationWalkDone => Sys2Proof.Machine.execTranslationWalkDone s
  | .softError => Sys2Proof.Machine.execSoftError s
  | .aaggWindowClose => Sys2Proof.Machine.execAaggWindowClose s
  | .subarrayGate => Sys2Proof.Machine.execSubarrayGate s
  | .commandEnd => Sys2Proof.Machine.execCommandEnd s
  | .followOnIssue => Sys2Proof.Machine.execFollowOnIssue s
  | .migrationLineCopy => Sys2Proof.Machine.execMigrationLineCopy s
  | .refetchingMarkClear => Sys2Proof.Machine.execRefetchingMarkClear s

end Sys2Proof.Machine
end

