-- ==== Sys2Proof/Machine/Due.lean ====
section
/-! DEFINITION. The events that are due in a state of the machine: what the device does by itself, as each event's rule says when it happens
(opcode_table.json, the events; log 1). -/

namespace Sys2Proof.Machine

/-- What the machine does next: an instruction, command or event is run, or the state moves on by what surrounds the instructions. -/
inductive Act where
  | run (i : Instr) (s : State)
  | set (s : State)

/-- An event with its operands. -/
def event (i : Instr) (a : EvArgs) (s : State) : Act := .run i { s with ev := a }

/-- Operands of events. -/
def argN (n : Nat) : EvArgs := { EvArgs.none with n := n }
def argCore (c : CoreNo) : EvArgs := { EvArgs.none with core := c }
def argCoreN (c : CoreNo) (n : Nat) : EvArgs := { EvArgs.none with core := c, n := n }
def argCoreCol (c : CoreNo) (x : Col) : EvArgs := { EvArgs.none with core := c, col := x }
def argLaunch (p : Nat) (l : BitVec 32) : EvArgs := { EvArgs.none with n := p, v := l.zeroExtend 64 }

/-- The place of the first element of a list that passes `p`. -/
def placeOf {α : Type} (p : α → Bool) (l : List α) : Option Nat := l.findIdx? p

/-! ### Ticks and launches -/

/-- The edge of a stroke tick, after the ageing promotions that come with it (05 R152, 09 R289). -/
def tickAct (s : State) : Option Act :=
  if !s.tickDue then none
  else
    match s.gangs.find? (promotable s) with
    | some g => some (event .ageingPromotion (argN g.id) s)
    | none => some (event .strokeTick EvArgs.none s)

/-- The supervisor holds the task. -/
def supervised (k : Core) : Bool :=
  match k.hold with
  | .supervisor _ => true
  | _ => false

/-- Watchdogs that expire at the edge (05 R162). -/
def watchdogAct (s : State) : Option Act :=
  if !s.tickWork then none
  else ((coreNos s).find? fun c => watchExpired (getCore s c) && !supervised (getCore s c)).map fun c => event .watchdogExpiry (argCore c) s

/-- Launches whose weights are late, and launches that are over (05 R146, R148). -/
def launchEvent (s : State) : Option Act :=
  (List.range 16).findSome? fun p => (getPart s p).launches.findSome? fun l =>
    if weightsLate l then some (event .weightsLate (argLaunch p l.num) s)
    else if launchOver s p l then some (event .launchEnd (argLaunch p l.num) s)
    else none

/-! ### Links, islands and repairs -/

def linkAct (s : State) : Option Act := if linkOverdue s then some (event .hostLinkLost EvArgs.none s) else none

/-- A strip that waits calls for 1,600 MHz at a memory-base island of its partition, which stands at a lower clock (01 R22). -/
def wakeAsked (s : State) (n : Nat) : Bool :=
  let i := getIsland s n
  16 ≤ n && n < 20 && i.cur < 1600 && i.tgt = i.cur && (drainCores s n).any fun c =>
    let k := getCore s c
    k.task.isSome && !k.groups.isEmpty

/-- Steps of the islands' clock changes (01 R23, R24). -/
def islandAct (s : State) : Option Act :=
  (List.range 24).findSome? fun n =>
    let i := getIsland s n
    match i.st with
    | .steady => if wakeAsked s n then some (.set (setIsland s n (setTarget i 1600))) else none
    | .drain =>
      if islandDrained s n then some (event .drainComplete (argN n) s)
      else if i.drainTicks.toNat ≤ i.drained then some (event .islandAbandon (argN n) s)
      else none
    | .relock => if i.relockEnd ≤ s.now then some (event .relockEnd (argN n) s) else none

/-- Channels and links in the order of their numbers. -/
def lanes (s : State) : List (Channel × Nat) := s.channels.toList.zipIdx ++ s.linkStat.toList.zipIdx 256

/-- The error window of a channel ends: its count or its settings change (02 R70, R71). -/
def windowEnds (s : State) (c : Channel) : Bool :=
  s.now % 2 ^ c.winExp.toNat = 0 && (c.errCount ≠ 0 || c.winExp ≠ s.winExp || c.thresh ≠ s.thresh)

/-- Repairs, which begin and end at rotation boundaries, and error windows, which are whole rotations (02 R71, R72). -/
def laneAct (s : State) : Option Act :=
  if !rotationEdge s || s.now = 0 then none
  else
    (lanes s).findSome? fun x =>
      if windowEnds s x.1 then some (event .errorWindowBoundary (argN x.2) s)
      else if x.1.st = lanePending then some (event .voidWindowStart (argN x.2) s)
      else if x.1.st = laneRepairing && repairOver s x.2 then some (event .repairEnd (argN x.2) s)
      else none

/-! ### Pages -/

/-- The next line of a migration can be copied: nothing holds its source or its destination (02 R56). -/
def copyDue (s : State) (m : Migration) : Bool :=
  m.next ≤ s.now && match nextLine m.bitmap with
    | none => false
    | some i => !channelHeld s (m.src + 64 * i) && !channelHeld s (m.dst + 64 * i)

/-- Migrations (02 R64, R65). -/
def migrationAct (s : State) : Option Act :=
  if s.migQueue.any (migReady s) then some (event .migrationStart EvArgs.none s)
  else
    match placeOf (copyDue s) s.migrations with
    | some i => some (event .migrationLineCopy (argN i) s)
    | none =>
      match placeOf (fun (m : Migration) => (nextLine m.bitmap).isNone && (m.step ≠ 4 || m.replica.isSome || pageQuiet s m.src)) s.migrations with
      | some i => some (event .migrationSwitch (argN i) s)
      | none => if s.retiring.any (pageIdle s) then some (.set (freeRetired s)) else none

/-- Sweeps (03 R100). -/
def sweepAct (s : State) : Option Act :=
  s.worlds.toList.zipIdx.findSome? fun x =>
    if x.1.st = 1 && sweepReady s x.2 then some (event .sweepStart (argN x.2) s)
    else if x.1.st = 2 && x.1.next ≤ s.now && !channelHeld s (64 * x.1.ptr.toNat) then some (event .sweepLine (argN x.2) s)
    else none

/-- The copy of a clean home can end: it is there no more, or a page is free for it (04 R131). -/
def refetchEnds (s : State) (p : Prefix) : Bool :=
  p.refetching && p.ready ≤ s.now && (p.clean.isNone || (refetchPage s p.pa).isSome)

/-- Prefix pages (04 R131). -/
def prefixAct (s : State) : Option Act :=
  s.prefixes.findSome? fun p =>
    if p.wanted && !p.refetching && !p.lost then some (event .prefixRefetch (argN p.pa) s)
    else if refetchEnds s p then some (event .refetchingMarkClear (argN p.pa) s)
    else none

/-! ### Remote accesses, host commands, windows, barriers -/

/-- A remote access that was refused is sent again (03 R88). -/
def remoteAct (s : State) : Option Act :=
  s.remotes.findSome? fun r => r.retryAt.bind fun t => if t ≤ s.now then some (event .remoteRetry (argN r.tag.toNat) s) else none

/-- A host command completes (04 R115). -/
def completeAct (s : State) : Option Act := if s.hostRuns.any (completable s) then some (event .hostCommandComplete EvArgs.none s) else none

/-- The coordinator's probes of its groups, and the members that do not answer (03 R104). -/
def memberAct (s : State) : Option Act :=
  (List.range 8).findSome? fun i =>
    match lostMembers s i with
    | n :: _ => some (event .memberLost { argN i with k := n } s)
    | [] => if toProbe s i = [] then none else some (.set (probeMembers i s))

/-- An aggregation window closes (07 R232). -/
def windowAct (s : State) : Option Act :=
  (placeOf (windowOver s) s.windows).map fun i => event .aaggWindowClose (argN i) s

/-- A barrier completes (05 R142); one that spans the domain is announced to the other members first (R144). -/
def barrierAct (s : State) : Option Act :=
  s.arrivals.findSome? fun a =>
    if a.complete || a.viewLost then none
    else (findLaunch s a.part a.launch).bind fun l =>
      let no := gangAt l a.level a.task
      if meetReady s a.part l a.level no then some (event .barrierComplete { argLaunch a.part a.launch with k := a.level, list := [no] } s)
      else if levelDomain l a.level = 4 && l.meetSent ≤ l.meetDone && barrierReady s a.part l a.level no then some (.set (announceMeet a.part l s))
      else none

/-! ### Dispatch -/


/-- The gangs of a partition may start: its TDI is not in ERROR (03 R78). -/
def mayRun (s : State) (p : Nat) : Bool := (getPart s p).tdisp ≠ .error

/-- The clusters at whose queues gangs wait, in ascending number. -/
def waitingClusters (s : State) : List Nat :=
  sortBy (fun a b => a < b) ((s.gangs.filterMap fun g => if g.st = .queued && g.cluster < noCluster then some g.cluster else none).eraseDups)

/-- Narrow and wide gangs that start, and gangs that stop to make room for them (05 R150, R151, R159). -/
def dispatchEvent (s : State) : Option Act :=
  if s.gangs.isEmpty || cutPending s then none
  else
    match (waitingClusters s).find? fun c => ((partOfIsland s (c / 4)).any (mayRun s)) && (dispatchAct s c).isSome with
    | some c => some (event .gangDispatch (argN c) s)
    | none => ((List.range 16).find? fun p => (getPart s p).present && mayRun s p && (wideAct s p).isSome).map fun p => event .wideGangStart (argN p) s

/-- A gang that has stopped is saved (05 R158). -/
def saveEvent (s : State) : Option Act :=
  (s.gangs.find? fun g => ((stopReason g).isSome && gangStopped s g.id) || (parkable s g.id).isSome).map fun g => event .preemptionSave (argN g.id) s

/-- A command that its engine has taken up ends (16 R440). -/
def endDue (s : State) (r : RunCmd) : Bool :=
  r.due ≤ cycOf s r.core && !r.waiting && !r.pending && r.parked.isNone && r.follow.isNone && r.wait = .none && accessesDone (getCore s r.core) r.mark

/-- The SLATTN of a partition makes no progress while a memory-base island that holds its slices relocks (01 R23). -/
def baseStalls (s : State) (eng : Nat) (c : CoreNo) : Bool :=
  eng = 0x10 && (partOfCore s c).any fun p => (baseIslands s p).any fun n => (getIsland s n).st = .relock

def commandEvent (s : State) : Option Act :=
  match s.running.find? (attnLands s) with
  | some r => some (.set (attnLand r s))
  | none =>
    match placeOf (endDue s) s.running with
    | some i => some (event .commandEnd (argN i) s)
    | none => (s.running.find? fun r => waitOver s r && !baseStalls s r.eng r.core).map fun r => .set (continueCmd r s)

/-- The event of the package that is due, the first in the order of the list. -/
def packageAct (s : State) : Option Act :=
  [tickAct, watchdogAct, linkAct, islandAct, laneAct, migrationAct, sweepAct, prefixAct, remoteAct, memberAct, commandEvent, completeAct, windowAct, barrierAct, launchEvent,
    saveEvent, dispatchEvent].findSome? fun f => f s

/-! ### Events of a core -/

/-- The streams of a core run: it has a task that nothing holds. -/
def coreRuns (k : Core) : Bool := k.task.isSome && k.hold = .none && !k.stopped

/-- Its columns go on to the ends of their repeats even where the task stops to be parked (05 R157, R158). -/
def columnsRun (k : Core) : Bool := k.task.isSome && (k.hold = .none || k.hold = .parking) && !k.stopped

/-- The slots that begin 16 cycles from now and that nothing has claimed are donated, where some traffic of their owners can use them (02 R55). -/
def donationAct (s : State) : Option Act :=
  let n := (s.now + 16) % 1024 / 4
  if s.now % 4 ≠ 0 || (s.running.isEmpty && s.migrations.isEmpty) then none
  else
    (s.calMaps.flatMap fun m => (m.2.filter fun e => e.1 = n).map (·.2)).findSome? fun h =>
      if !slotClaimed s h (s.now + 16) && !isDonated s h (s.now + 16) && (donationUse s h n).isSome then
        some (event .slotDonation { argN h with k := n } s)
      else none

/-- Traffic on the calendar (02 R53, R54). -/
def timedAct (s : State) (c : CoreNo) : Option Act :=
  (getCore s c).timed.zipIdx.findSome? fun x =>
    if x.1.late && x.1.start ≤ s.now then some (event .slotMiss (argCoreN c x.2) s)
    else if readDue s x.1 then some (event .timedReadDelivery (argCoreN c x.2) s)
    else if writeDue s (getCore s c) x.1 then some (event .timedWriteAccept (argCoreN c x.2) s)
    else none

/-- Loads that arrive and stores that are performed (15 R427, R432). -/
def trafficAct (s : State) (c : CoreNo) : Option Act :=
  let k := getCore s c
  match placeOf (fun (u : ULoad) => decide (u.due ≤ cycOf s c) && loadComplete u) k.loads with
  | some i => some (event .untimedLoadArrival (argCoreN c i) s)
  | none =>
    if storeReady s c then some (event .storePerformed (argCore c) s)
    else
      let t := focus s c
      if lineArrives t then some (.set (takeWaiting t)) else none

/-- Walks that return (15 R413). -/
def walkAct (s : State) (c : CoreNo) : Option Act := if walksBack s c then some (event .translationWalkDone (argCore c) s) else none

/-- A repeat ends in the cycle after its last word (06 R172). -/
def repeatEnds (s : State) (c : CoreNo) (x : Col) : Bool :=
  let k := getCore s c
  columnsRun k && clockRuns s c && repeatOver s k x && (getCol k x).run.any fun r => r.next ≤ cycOf s c

/-- The body of a strip can be read: no walk that it needs waits for a page that is being switched (02 R65 step 4). -/
def bodyReads (s : State) (x : QStrip) : Bool := (bodyMiss s x).all fun p => !switching s (ownPa s (p.pa + ((x.hdr + 4).toNat - p.va)))

/-- What the column sequencers do by themselves (06 R170 to R172, R193). -/
def sequencerAct (s : State) (c : CoreNo) : Option Act :=
  let cols := [Col.colL, .colC, .colW]
  let k := getCore s c
  match cols.find? (repeatEnds s c) with
  | some x => some (event .stripRepeatEnd (argCoreCol c x) s)
  | none =>
    match cols.find? fun x => coreRuns k && clockRuns s c && (loadNext (getCol k x)).any (fun y => bodyReads (focus s c) y.2) with
    | some x => some (event .stripBodyLoad (argCoreCol c x) s)
    | none =>
      let t := focus s c
      if coreRuns k && clockRuns s c && ((faultyHead t).isSome || (startable t).isSome) then some (event .stripGroupStart (argCore c) s)
      else if gateDue s c then some (event .subarrayGate (argCore c) s)
      else none

/-- The event of a core that is due. -/
def coreEvent (s : State) (c : CoreNo) : Option Act := [timedAct, trafficAct, walkAct, sequencerAct].findSome? fun f => f s c

def coreAct (s : State) : Option Act := (coreNos s).findSome? (coreEvent s)


/-- A follow-on word issues or is refused, after the words of the columns (14 R401, R402). -/
def followAct (s : State) : Option Act :=
  (placeOf (fun (r : RunCmd) => r.follow.isSome && followActs r (focus s r.core)) s.running).map fun i => event .followOnIssue (argN i) s

end Sys2Proof.Machine
end

