-- ==== Sys2Proof/Machine/EngineIssue.lean ====
section
/-! DEFINITION. How engines accept the entries of the core-side queues and start commands (16_isa_engines R436 to R442; 06_core R177;
11_isa_formats R343). -/

namespace Sys2Proof.Machine

/-! ### The commands of each engine (R343, R451 to R453) -/

/-- The command that a record names and the check of its operands; none for a code or a mode that is not assigned. -/
def commandOf (eng : Nat) (c : Cmd) : Option (Instr × (State → Bool)) :=
  match eng, cmdCode c.bits with
  | 0x00, 0x01 | 0x01, 0x01 => some (.copy2d c, copyValid c)
  | 0x08, 0x08 => some (.copyr c, copyrValid c)
  | 0x10, 0x10 => some (.slattn c, attnValid c)
  | 0x11, 0x18 => some (.lgmerge c, mergeValid c)
  | 0x11, 0x19 => some (.lgunmerge c, unmergeValid c)
  | 0x11, 0x1A => some (.lgsave c, lgsaveValid c)
  | 0x11, 0x1B => some (.lgdrop c, lgdropValid c)
  | 0x12, 0x20 => some (.adpin c, adpinValid c)
  | 0x12, 0x21 => some (.adunpin c, adunpinValid c)
  | 0x12, 0x22 =>
    match fld c 16 1 with
    | 0 => some (.adpubCreate c, createValid c)
    | 1 => some (.adpubGrant c, grantValid c)
    | 2 => some (.adpubPrepare c, bareValid c)
    | 3 => some (.adpubCommit c, commitValid c)
    | 4 => some (.adpubDelete c, bareValid c)
    | _ => none
  | 0x13, 0x28 =>
    match fld c 23 1 with
    | 0 => some (.kalloc c, kallocValid c)
    | 1 => some (.kallocPool c, poolValid c)
    | _ => none
  | 0x13, 0x29 => some (.kfree c, kfreeValid c)
  | 0x13, 0x2A =>
    match fld c 18 1 with
    | 0 => some (.kextendAlloc c, extendValid c)
    | 1 => some (.kextendShare c, shareValid c)
    | 2 => some (.kextendSetlen c, extendValid c)
    | _ => none
  | 0x14, 0x30 =>
    let o := migOp c
    some (if o.cancel then .migrateCancel c else if o.replica then .migrateReplica c else .migrate c, migValid c)
  | 0x15, 0x38 => some (.colred c, colValid c)
  | 0x15, 0x39 => some (.colgat c, colValid c)
  | 0x15, 0x3A => some (.colscat c, colValid c)
  | 0x16, 0x40 => some (.wload c, wloadValid c)
  | _, _ => none

/-- The command of an entry. -/
def cmdOf (c : CoreNo) (e : QCmd) : Cmd := { core := c, seq := e.seq, bits := e.bits }

/-! ### Acceptance (R436, R438, R440) -/


/-- Cycles from the PUSH until the engine may accept an entry that stands first (log 8). -/
def acceptAfter (eng : Nat) (c : CoreNo) (e : QCmd) : Nat :=
  if eng < 2 then 2 else 20 + Config.acceptDelay (e.seq.toNat + 2 ^ 32 * c + 2 ^ 48 * eng) % 41

/-- The entries of an engine's queue: core, and entry, accepted and not started. -/
def acceptedIn (s : State) (eng key : Nat) : List (CoreNo × QCmd) :=
  (coreNos s).flatMap fun c =>
    if queueKey s eng c = key then
      (((getCore s c).engQ.toList.getD (engineIndex eng) []).filter fun e => e.accepted.isSome).map fun e => (c, e)
    else []

/-- The entries that the queue of a shared engine holds for a partition. -/
def engineQueueSize : Nat := 256

/-- The first entry of a core-side queue that has not been accepted, where it may be accepted now. -/
def acceptable (s : State) (c : CoreNo) (eng : Nat) : Option QCmd :=
  match ((getCore s c).engQ.toList.getD (engineIndex eng) []).find? fun e => e.accepted.isNone with
  | none => none
  | some e =>
    if !e.parked && e.pushed + acceptAfter eng c e ≤ cycOf s c
        && (eng < 2 || (acceptedIn s eng (queueKey s eng c)).length < engineQueueSize) then some e else none

/-- An entry of the core in focus changed. -/
def modEntry (eng : Nat) (seq : BitVec 32) (f : QCmd → QCmd) (s : State) : State :=
  let i := engineIndex eng
  modCore (fun k => { k with engQ := k.engQ.setIfInBounds i ((k.engQ.toList.getD i []).map fun e => if e.seq = seq then f e else e) }) s

/-- The completion object of an entry translates for the increment and the report, which share a block of 16 bytes. -/
def objectMaps (s : State) (e : QCmd) : Bool :=
  cmdObject e.bits = 0 || match xlate s (cmdWorld e.bits) (cmdObject e.bits) true false with
    | .ok _ => true
    | .error _ => false

/-- The cluster fault queue has a place. -/
def faultRoom (s : State) (c : CoreNo) : Bool := decide ((getCluster s (clusterOf c)).faultQ.length < 64)

/-- An entry that its engine takes up on the core in focus: parked where its object does not translate, ended with BADCMD where its record is not in
order, and otherwise in the engine's queue, with this cycle as its anchor in mode 0. -/
def acceptEntry (eng : Nat) (e : QCmd) (s : State) : Act :=
  let c := cmdOf s.coreId e
  if !objectMaps s e then
    .set (queueFault { core := s.coreId, cmd := some (eng, e.seq) } (modEntry eng e.seq (fun x => { x with parked := true }) s))
  else
    match commandOf eng c with
    | none => .set (putRun (endsWith (newRun s eng c) (cyc s) stBadcmd 0) (modCore (dropEntry eng c.seq) s))
    | some (i, valid) =>
      if !(headerOk e.bits && valid s) then .run i s
      else
        let now := s.now
        let t := cyc s
        .set (modEntry eng e.seq (fun x => { x with accepted := some now, anchor := if cmdMode e.bits then x.anchor else some t }) s)

/-! ### Starts (R439, R442; 09 R283) -/

/-- A command of the queue has started, and has not ended or been handed on; a COPYR is over with its acknowledgement, and a copy with a follow-on word
has written when it lands (09 R283). A shared engine serves one partition at a time. -/
def queueBusy (s : State) (eng key : Nat) : Bool :=
  s.running.any fun r => r.eng = eng && (sharedByAll eng || queueKey s eng r.core = key) && !r.waiting
    && (!r.pending || eng = 0x08 || (r.follow.isSome && cycOf s r.core ≤ r.land))

/-- Entry `b` stands before entry `a` in an engine's queue: by acceptance, and then by core. -/
def standsBefore (b a : CoreNo × QCmd) : Bool :=
  let x := b.2.accepted.getD 0
  let y := a.2.accepted.getD 0
  x < y || (x = y && (b.1 < a.1 || (b.1 = a.1 && b.2.seq.toNat < a.2.seq.toNat)))

/-- An entry trap of the engine waits: the entry stays queued until it is resolved (R177). -/
def entryTrapped (k : Core) (eng : Nat) : Bool := k.deferred.any fun x => x.2.entry && x.2.source = 0x80 + eng

/-- A part of an address range lies in the host window. -/
def touchesHost (s : State) (w : BitVec 6) (va n : Nat) : Bool :=
  (rangePages va n).any fun a => (findPte s w a).any fun p => tierOf (p.pa + (a - p.va)) = .host

/-- A copy engine's next access would go to a host that it cannot reach: the command stalls there (03 R78, R109). -/
def hostStalls (s : State) (eng : Nat) (c : CoreNo) (e : QCmd) : Bool :=
  let o := copyOp (cmdOf c e)
  let p := (partOfCore s c).getD 16
  eng < 2 && !(hostUp s && dmaOpen s p) && (List.range o.rows).any fun i =>
    (spEnd ≤ o.src && touchesHost s (cmdWorld e.bits) (rowAddr o.src o.sStride i) o.len)
      || (!o.tile && spEnd ≤ o.dst && touchesHost s (cmdWorld e.bits) (rowAddr o.dst o.dStride i) o.len)

/-- A KFREE that waits for a SLATTN, a WLOAD that waits for its banks, and a copy that cannot reach the host stay at the head of their queue. -/
def headWaits (s : State) (eng : Nat) (c : CoreNo) (e : QCmd) : Bool :=
  match eng with
  | 0x13 => cmdCode e.bits = 0x29 && kfreeHeld (cmdOf c e) s
  | 0x16 => wloadHeld (cmdOf c e) s
  | _ => hostStalls s eng c e


/-- The entry of a core's queue that can start now: first in the engine's queue, its start cycle reached. -/
def startable1 (s : State) (c : CoreNo) (eng : Nat) : Option QCmd :=
  let k := getCore s c
  let key := queueKey s eng c
  match (k.engQ.toList.getD (engineIndex eng) []).head? with
  | none => none
  | some e =>
    match e.accepted, e.anchor with
    | some _, some a =>
      if a + cmdOffset e.bits ≤ cycOf s c && (acceptedIn s eng key).all (fun x => !standsBefore x (c, e)) && !queueBusy s eng key
          && !entryTrapped k eng && !headWaits s eng c e && !baseStalls s eng c then some e
      else none
    | _, _ => none


/-- No other partition's entry comes before that of core `c` at a shared engine, which serves them round-robin (05 R133). -/
def hasTurn (s : State) (c : CoreNo) (eng : Nat) : Bool :=
  let p := queueKey s eng c
  (coreNos s).all fun d => !(turnAfter s eng (queueKey s eng d) < turnAfter s eng p && (startable1 s d eng).isSome)

/-- The entry of a core's queue that starts now. -/
def starting (s : State) (c : CoreNo) (eng : Nat) : Option QCmd :=
  if sharedByAll eng && !hasTurn s c eng then none else startable1 s c eng

/-- The TDI of a core's partition is in ERROR, and no engine command of the core is under way: its task is at the boundary where it stops (03 R78). -/
def errorStop (s : State) (c : CoreNo) : Bool :=
  match partOfCore s c with
  | none => false
  | some p => !mayRun s p && s.running.all fun r => r.core ≠ c || r.waiting

/-- The engines take entries of this core: its clock does not stand in RELOCK (01 R23). -/
def enginesRun (s : State) (c : CoreNo) : Bool := coreRuns (getCore s c) && clockRuns s c && !stopAsked s c && !errorStop s c

/-- What the engine of an id does for a core. -/
def engineStep (s : State) (c : CoreNo) (eng : Nat) : Option Act :=
  match acceptable s c eng with
  | some e => if objectMaps s e || faultRoom s c then some (acceptEntry eng e (focus s c)) else none
  | none => (starting s c eng).map fun e =>
    match commandOf eng (cmdOf c e) with
    | some (i, _) => .run i (focus s c)
    | none => .set s

def engineAct (s : State) : Option Act :=
  (coreNos s).findSome? fun c =>
    if (getCore s c).engQ.toList.all (·.isEmpty) || !enginesRun s c then none else engineOrder.findSome? fun eng => engineStep s c eng

end Sys2Proof.Machine
end

