-- ==== Sys2Proof/Machine/HostFetch.lean ====
section
/-! DEFINITION. Fetching host commands and taking mailbox commands (04_host_interface R114 to R116, R119, R121, R122; 03_links_trust R78, R109). -/

namespace Sys2Proof.Machine

/-! ### Opcodes -/

/-- The commands of the admin queue (R119). -/
def adminInstr (h : HostCmd) : Option Instr :=
  match hostOp h with
  | 0x01 => some (.partCreate h)
  | 0x02 => some (.partResize h)
  | 0x03 => some (.partDestroy h)
  | 0x04 => some (.partReset h)
  | 0x08 => some (.worldCreate h)
  | 0x09 => some (.worldDestroy h)
  | 0x0A => some (if hfld h 26 1 % 2 = 1 then .worldBind h else .worldUnbind h)
  | 0x0C => some (.quotaGet h)
  | 0x0D => some (.quotaSet h)
  | 0x10 => some (.pageAlloc h)
  | 0x11 => some (.pageFree h)
  | 0x12 => some (.prefixReg h)
  | 0x14 => some (.keyRotate h)
  | 0x18 => some (.powerCapSet h)
  | 0x1C => some (.fwWrite h)
  | 0x1D => some (.cfgWrite h)
  | 0x20 => some (.logRead h)
  | 0x21 => some (.errRead h)
  | 0x3F => some (.resync h)
  | _ => none

/-- The commands of a partition queue (R122). -/
def queueInstr (h : HostCmd) : Option Instr :=
  match hostOp h with
  | 0x01 => some (.queueLaunch h)
  | 0x02 => some (.copyH2d h)
  | 0x03 => some (.copyD2h h)
  | 0x04 => some (.objWait h)
  | _ => none

/-- The commands of the mailbox; QRESET is not among them in recovery mode (R121). -/
def mailboxInstr (recovery : Bool) (h : HostCmd) : Option Instr :=
  match hostOp h with
  | 0x1C => some (.fwWrite h)
  | 0x1D => some (.cfgWrite h)
  | 0x20 => some (.logRead h)
  | 0x21 => some (.errRead h)
  | 0x30 => if recovery then none else some (.qreset h)
  | 0x3F => some (.resync h)
  | _ => none

/-- A command of a queue; an opcode that the queue does not define is fetched and completes with BADCMD (R116). -/
def hostAct (h : HostCmd) (i : Option Instr) (s : State) : Act :=
  match i with
  | some i => .run i s
  | none =>
    match hostCommand h (fun _ => false) (fun s => (s, .now stBadcmd 0)) s with
    | .next t => .set t
    | _ => .set s

/-! ### The mailbox -/

/-- The record in the mailbox arguments, with the opcode of MBOX_CMD and no flags. -/
def mailboxRecord (m : Mailbox) : BitVec 512 :=
  let args := m.args.toList.flatMap fun x => leBytes 8 x.toNat
  BitVec.ofNat 512 (leNat (leBytes 1 m.op.toNat ++ leBytes 1 0 ++ args.drop 2))

/-- A command stands in the mailbox and has not been taken up. -/
def mailboxWaits (s : State) : Bool := s.mailbox.busy && s.hostRuns.all fun r => r.queue ≠ mailboxQueue

def mailboxAct (s : State) : Option Act :=
  if !mailboxWaits s || cutPending s then none
  else
    let h : HostCmd := { queue := mailboxQueue, bits := mailboxRecord s.mailbox }
    some (hostAct h (mailboxInstr (s.phase = .recovery) h) s)

/-! ### Submission queues -/

/-- The head entry of a submission queue. -/
def queueHead (s : State) (q : Nat) : HostCmd :=
  let h := getQueue s q
  { queue := q, bits := BitVec.ofNat 512 (leNat (cellRead s.mem (hostPa (h.sqBase.toNat / 4096 * 4096 + 64 * h.sqHead)) 64)) }

/-- Every earlier command of the queue has posted its completion. -/
def queueIdle (s : State) (q : Nat) : Bool := s.hostRuns.all (fun r => r.queue ≠ q) && s.held.all fun x => x.queue ≠ q || x.isEvent

/-- A queue fetches its head entry now. -/
def fetches (s : State) (q : Nat) : Bool :=
  let h := getQueue s q
  h.en && !h.err && h.sqHead ≠ h.sqTail && hostUp s && (256 ≤ q || (dmaOpen s (q / 16) && mayRun s (q / 16))) && !cqFull h
    && s.held.all (fun x => x.queue ≠ q) && (!(hostFlags (queueHead s q)).getLsbD 0 || queueIdle s q)

/-- The partition queues in round-robin order after the one served last. -/
def fetchOrder (s : State) : List Nat :=
  let l := (s.queues.map (·.1)).filter fun q => q < 256
  l.filter (fun q => s.lastQueue < q) ++ l.filter fun q => q ≤ s.lastQueue

/-- The next command fetched: the admin queue before every other (R115). -/
def fetchAct (s : State) : Option Act :=
  if cutPending s then none
  else if fetches s adminQueue then let h := queueHead s adminQueue; some (hostAct h (adminInstr h) s)
  else ((fetchOrder s).find? (fetches s)).map fun q =>
    let h := queueHead s q
    hostAct h (queueInstr h) { s with lastQueue := q }

end Sys2Proof.Machine
end

