-- ==== Sys2Proof/Machine/StreamIssue.lean ====
section
/-! DEFINITION. Which word of which stream issues next: the S stream (12_isa_scalar R347, R348; 10_traps R299) and the columns (06_core R172, R173;
10_traps R297, R303; 05_partitions_scheduler R158). -/

namespace Sys2Proof.Machine

/-! ### The S stream -/

/-- The S stream of a core may issue in this cycle: its task runs, or its user handler, and the stream is ready. -/
def scalarReady (s : State) (c : CoreNo) : Bool :=
  let k := getCore s c
  k.task.isSome && (k.hold = .none || k.hold = .handler) && !k.stopped && clockRuns s c && k.sReady ≤ cycOf s c && !stopAsked s c && !errorStop s c

/-- The S word at the program counter of the core in focus: a fetch that fails and a word that is no instruction trap, and an instruction whose
registers are not written yet is blocked. -/
def scalarIssue (s : State) : Act :=
  match fetchWord s s.core.pc with
  | .error f => .set (sFail f s)
  | .ok w =>
    match decode .s w with
    | .error _ => .set (sTrap .illegal 0 s)
    | .ok i => if gReady s i then .run i s else .set (sBlock s)

def scalarAct (s : State) : Option Act := ((coreNos s).find? (scalarReady s)).map fun c => scalarIssue (focus s c)

/-! ### The columns -/

/-- The word that a column has scheduled for this cycle or an earlier one, where nothing keeps it: a task that is to stop stops at the ends of
repeats. -/
def dueWord (s : State) (c : CoreNo) (x : Col) : Option Word :=
  let k := getCore s c
  match (getCol k x).run with
  | none => none
  | some r =>
    if columnsRun k && clockRuns s c && r.next ≤ cycOf s c && (r.idx ≠ 0 || !(stopAsked s c || k.hold = .parking)) then r.body[r.idx]? else none

/-- What a column word of the core in focus does: an undefined one traps. -/
def columnIssue (x : Col) (w : Word) (s : State) : Act :=
  match decode (.col x) w with
  | .error _ => .set (colTrap x .illegal s)
  | .ok i => .run i s

/-- The state that an act leaves. -/
def Act.after (a : Act) (s : State) : State :=
  match a with
  | .set t => t
  | .run i t =>
    match exec i t with
    | .next u => u
    | _ => s

/-- The word traps, or stops the task at its cut. -/
def cutsTask (a : Act) (s : State) : Bool :=
  let k := (a.after s).core
  k.task.isNone || (k.hold ≠ .none && k.hold ≠ .parking)

/-- The words of a core that are due in this cycle, in the stream order. -/
def dueWords (s : State) (c : CoreNo) : List (Col × Word) := [Col.colL, .colC, .colW].filterMap fun x => (dueWord s c x).map fun w => (x, w)

/-- The column word of a core that issues next: a word that takes the trap comes before every other word of its cycle, which does not issue (R303). -/
def columnChoice (s : State) (c : CoreNo) : Option (Col × Word) :=
  match dueWords s c with
  | [] => none
  | [x] => some x
  | x :: rest =>
    let t := focus s c
    match (x :: rest).find? fun y => cutsTask (columnIssue y.1 y.2 t) t with
    | some y => some y
    | none => some x

def columnAct (s : State) : Option Act := (coreNos s).findSome? fun c => (columnChoice s c).map fun x => columnIssue x.1 x.2 (focus s c)

/-- The cause of a trap that stands first among the traps of this cycle: a column word that traps before it in the stream order, or before an engine's
entry, is taken in its place (10 R297). -/
def wordFirst (s : State) (c : CoreNo) (t : Trap) : Bool :=
  let u := focus s c
  (dueWords s c).any fun y => (t.entry || colOrder y.1 < t.source) && cutsTask (columnIssue y.1 y.2 u) u

/-- A trap that waits is taken. -/
def trapAct (s : State) : Option Act :=
  ((coreNos s).find? fun c => match dueTrap s (getCore s c) c with
    | some x => !wordFirst s c x.2
    | none => false).map fun c => event .trapEntry (argCore c) s

/-! ### The outside world -/

/-- The first act of the outside world that is due, taken out of the list (log 1). -/
def inputAct (s : State) : Option Act :=
  (s.inputs.find? fun x => x.1 ≤ s.now).map fun x => event x.2.1 x.2.2 { s with inputs := s.inputs.erase x }

/-- Power returns: the first such input, with what stood before it lost. -/
def powerInput (s : State) : Option Act :=
  (s.inputs.findIdx? fun x => x.2.1 = .powerOnReset).bind fun n => (s.inputs[n]?).map fun x =>
    event .powerOnReset x.2.2 { s with now := max s.now x.1, inputs := s.inputs.drop (n + 1) }

/-- The acts of a package that has booted, in the order in which they are taken within a cycle. -/
def bootedActs : List (State → Option Act) :=
  [inputAct, packageAct, coreAct, mailboxAct, fetchAct, scalarAct, engineAct, trapAct, columnAct, followAct, donationAct]

/-- What a package that has booted does next; where nothing is due, its clocks go on. -/
def bootedAct (s : State) : Act := (bootedActs.findSome? fun f => f s).getD (.set (clockStep s))

/-- In recovery mode the mailbox alone serves (01_package R32; 04 R121). -/
def recoveryAct (s : State) : Act := ([inputAct, tickAct, mailboxAct].findSome? fun f => f s).getD (.set (clockStep s))

end Sys2Proof.Machine
end

