-- ==== Sys2Proof/Machine/Place.lean ====
section
/-! DEFINITION. A program's word placed where the machine fetches next, with the launch of its task that this takes (05_partitions_scheduler R133,
R137; 06_core R166, R169, R484; log 25). -/

namespace Sys2Proof.Machine

/-- What an act does. -/
def Act.take (a : Act) : Out :=
  match a with
  | .run i s => exec i s
  | .set s => .next s

/-- Where a placed word stands: a virtual page, mapped for execution to the first page of HBM. -/
def codeVa : Dword := 0x100000
def codePa : Nat := 0

/-- The column that a word belongs to, none for a word of the S stream or of no stream; the streams are tried as `decodeTableWord` tries them. -/
def columnOf (w : Word) : Option Col :=
  match decode .s w with
  | .ok _ => none
  | .error _ => [Col.colC, .colL, .colW].find? fun x => match decode (.col x) w with
    | .ok _ => true
    | .error _ => false

/-- The task that a placed word belongs to, where the core has none. -/
def placedTask : TaskRef := { part := 0, launch := 1, task := 0, gang := 0 }

/-- The word at the S stream's program counter. -/
def placeScalar (k : Core) : Core := { k with pc := codeVa, sEntry := codeVa }

/-- The word as the body of a strip that runs on a column, whose next word issues in cycle `c`; the S stream issues after it. -/
def placeColumn (x : Col) (c : Cycle) (w : Word) (k : Core) : Core :=
  let r : Running := { hdr := codeVa - 4, grp := 0, body := [w], count := 1, rep := 0, idx := 0, next := c }
  { setCol x { getCol k x with entry := codeVa - 4, run := some r } k with sReady := c + 1 }

/-- The package with the core in focus ready to run: booted, its island in a partition, its streams under a task that nothing holds. -/
def readyCore (s : State) : State :=
  let n := (partOfCore s s.coreId).getD 0
  let s := modPart { s with phase := .booted, inputs := s.inputs.filter fun x => s.now < x.1 } n fun p =>
    { p with present := true, islands := p.islands ||| BitVec.ofNat 16 (2 ^ islandOf s.coreId) }
  modCore (fun k => { k with task := k.task.orElse fun _ => some { placedTask with part := n }, hold := .none, stopped := false, xfer := none, phase := 0 }) s

/-- The page of the word, mapped in the task's world, and the word at its start. -/
def placeCode (w : Word) (s : State) : State :=
  let world := s.core.sys.world
  let p : Pte := { world := world, va := codeVa.toNat, pages := 1, pa := codePa, write := false, exec := true, keySlot := 0 }
  let s := { s with ptes := p :: s.ptes, pages := assocPut s.pages codePa (world, 0) }
  putLine s codePa ((leBytes 4 w.toNat).zipIdx.map fun x => (x.2, x.1)) world neutral false 0

/-- A word placed where the next step fetches and runs it. -/
def placeWord (w : Word) (s : State) : State :=
  let s := placeCode w (readyCore s)
  match columnOf w with
  | none => modCore placeScalar s
  | some x => modCore (placeColumn x (cyc s) w) s

end Sys2Proof.Machine
end

