-- ==== Sys2Proof/Machine/Step.lean ====
section
/-! DEFINITION. One step of the machine: an act of the outside world, an event, a word or a command, or a cycle of the clocks. -/

namespace Sys2Proof.Machine

/-- One step. A package without power does nothing until it returns (01_package R29); a package after reset boots (R30). -/
def step (s : State) : Host.Outcome State Fault Refusal :=
  match s.phase with
  | .off =>
    match powerInput s with
    | some a => a.take
    | none => .fault .poweredOff
  | .preBoot => exec .powerOnReset s
  | .booted => (bootedAct s).take
  | .recovery => (recoveryAct s).take

/-- The state with an instruction word where `step` fetches next (log 25). -/
def State.withFetchWord (s : State) (nbits w : Nat) : State := placeWord (BitVec.ofNat 32 (w % 2 ^ nbits)) s

end Sys2Proof.Machine
end

