-- ==== Sys2Proof/Safety.lean ====
section
/-! DEFINITION. What counts as a safe run, and the terms in which statements speak of a step: the canonical form of memory, one byte of memory, what a
step changes and what it leaves alone. -/

namespace Sys2Proof.Machine

/-! ### Memory -/

/-- The canonical form of a list of cells: addresses strictly rising, and no byte listed that reads as an unlisted one does (log 4). -/
abbrev Memory.wf (m : List Host.Cell) : Bool := cellsWf m

/-- The memory of the package is in canonical form. -/
def Canonical (s : State) : Prop := Memory.wf s.mem = true

/-- The byte at a physical address. -/
def byteAt (s : State) (a : Nat) : Byte := cellGet s.mem a

/-- Every byte of memory reads as before. -/
def SameMemory (s t : State) : Prop := ∀ a, byteAt t a = byteAt s a

/-- Every byte outside `n` bytes from `a` reads as before. -/
def SameOutside (a n : Nat) (s t : State) : Prop := ∀ x, x < a ∨ a + n ≤ x → byteAt t x = byteAt s x

/-- An address stands in a line that the next entry of a writer's checkpoint log goes to (10_traps R314, R315); in none for a writer without a checkpoint. -/
def inLogEntry (s : State) (who : Option TaskRef) (x : Nat) : Prop :=
  ∃ t k y, who = some t ∧ ckptOf s t = some k ∧ y ∈ ckptPlaces s t (ckptUsed k t) ∧ lineOf x = lineOf y.2.2.2

/-- What a write of `n` bytes at `pa`, inside one line, leaves alone: every byte of memory outside that line and outside the entry that the write puts
into its writer's checkpoint log, and the line's other bytes as the line reads. -/
def WritesInLine (pa n : Nat) (slot : BitVec 12) (who : Option TaskRef) (s t : State) : Prop :=
  (∀ x, lineOf x ≠ lineOf pa → ¬ inLogEntry s who x → byteAt t x = byteAt s x)
  ∧ (¬ inLogEntry s who pa → ∀ i, i < 64 → i < pa % 64 ∨ pa % 64 + n ≤ i →
      (lineAt t pa slot).bytes.getD i 0 = (lineAt s pa slot).bytes.getD i 0)

/-- `n` bytes of the scratchpad of the core in focus, from address `a` on. -/
def spBytes (s : State) (a n : Nat) : List Byte := (List.range n).map fun i => cellGet s.core.sp (a + i)

/-! ### What an S instruction changes -/

/-- Nothing changes but the general registers and where the S stream stands. -/
def OnlyScalars (s t : State) : Prop :=
  t = { s with core := { s.core with g := t.core.g, gReady := t.core.gReady, pc := t.core.pc, xfer := t.core.xfer, phase := t.core.phase,
                                     sReady := t.core.sReady } }

/-- The S instruction retires, the next one issuing `n` cycles after it: outside a delay word the pc goes on by 4 (12_isa_scalar R347). -/
def Retires (n : Nat) (s t : State) : Prop :=
  t.core.sReady = cyc s + n ∧ t.core.phase = 0 ∧ (s.core.xfer = none → t.core.pc = s.core.pc + 4 ∧ t.core.xfer = none)

/-- The instruction completes with `x` in g[d], readable `lat` cycles on; g0 takes nothing (R347, R370). All other registers, every flag, every
special register and all memory stay as they were. -/
def WritesG (i : Instr) (s : State) (d : GReg) (x : Dword) (lat : Nat) : Prop :=
  ∃ t, exec i s = .next t ∧ readG t d = (if d = 0 then 0 else x) ∧ (d ≠ 0 → t.core.gReady[d.toNat]'d.isLt = cyc s + lat)
    ∧ (∀ r, r ≠ d → readG t r = readG s r ∧ t.core.gReady[r.toNat]'r.isLt = s.core.gReady[r.toNat]'r.isLt)
    ∧ Retires 1 s t ∧ OnlyScalars s t ∧ SameMemory s t

/-- A core with the S stream where it stands in `t`. -/
def placed (t : State) (k : Core) : Core := { k with pc := t.core.pc, xfer := t.core.xfer, phase := t.core.phase, sReady := t.core.sReady }

/-- The S instruction completes with the effect `f`: the S stream moves on, the next instruction issuing `n` cycles later, and there is no other
change. -/
def CompletesWith (i : Instr) (s : State) (n : Nat) (f : State → State) : Prop :=
  ∃ t, exec i s = .next t ∧ Retires n s t ∧ t = modCore (placed t) (f s)

/-- The S instruction completes with core flag `n` at `b`, unless the flag is protected (06_core R183). All other flags, every register and all memory
stay as they were, and what tests see in this cycle does too (R181). -/
def FlagBecomes (i : Instr) (s : State) (n : Nat) (b : Bool) : Prop :=
  ∃ t, exec i s = .next t ∧ Retires 1 s t
    ∧ (∀ j, j < 4096 → t.core.flags.getLsbD j = if j = n ∧ flagWritable s.core n = true then b else s.core.flags.getLsbD j)
    ∧ t = modCore (fun k => placed t { k with flags := t.core.flags }) s ∧ SameMemory s t

/-- The S instruction completes with `x` in g[d] at least `lo` cycles later, when the next one issues (15_isa_memory R416). Every other general register
and all flags and memory stay as they were. -/
def LoadsG (i : Instr) (s : State) (d : GReg) (x : Dword) (lo : Nat) : Prop :=
  ∃ t n, exec i s = .next t ∧ lo ≤ n ∧ readG t d = (if d = 0 then 0 else x) ∧ (∀ r, r ≠ d → readG t r = readG s r) ∧ Retires n s t
    ∧ t.core.flags = s.core.flags ∧ t.core.sys = s.core.sys ∧ SameMemory s t

/-- The bytes of a number, little-endian, as they stand in memory (00_scope R6). -/
def Holds (s : State) (a n v : Nat) : Prop := ∀ i, i < n → byteAt s (a + i) = BitVec.ofNat 8 (v / 256 ^ i)

/-- The S instruction waits: it is tried again in the next cycle, and has no effect till then (R303). -/
def Waits (i : Instr) (s : State) : Prop :=
  ∃ t, exec i s = .next t ∧ t.core.sReady = cyc s + 1 ∧ t = modCore (fun k => { k with sReady := t.core.sReady }) s

/-- A trap of an S instruction is its next state. -/
def TrapsS (i : Instr) (s : State) (c : Cause) (addr : Dword) : Prop := exec i s = .next (sTrap c addr s)

/-! ### What a column word changes -/

/-- A column of a core moves past its word, which issued in cycle `at_`, or counts till it: the next word is due after its own gap (06_core R173, 11_isa_formats
R337, R338). -/
def passed (c : Col) (at_ : Cycle) (k : Core) : Core :=
  let q := getCol k c
  setCol c { q with lastIssue := at_, run := q.run.map fun r => { r with idx := r.idx + 1, next := at_ + 1 + gapAt r.body (r.idx + 1) } } k

/-- The column word completes with the effect `f`: its column moves on, the next word counting from `n` cycles later, and there is no other change. -/
def ColCompletes (i : Instr) (s : State) (c : Col) (n : Nat) (f : State → State) : Prop :=
  exec i s = .next (modCore (passed c (cyc s + n)) (f s))

/-- The column word waits: it is tried again in the next cycle, and has no effect till then (06_core R172). -/
def ColWaits (i : Instr) (s : State) (c : Col) : Prop :=
  exec i s = .next (modCore (fun k => setCol c { getCol k c with run := (getCol k c).run.map fun r => { r with next := cyc s + 1 } } k) s)

/-- A trap of a column word is its next state. -/
def ColTraps (i : Instr) (s : State) (c : Col) (t : Trap) : Prop := exec i s = .next (raiseCol c t s)

/-- A v register that a word may read: it has not failed, and no producer is still to write it (06_core R175). -/
def VIdle (s : State) (n : BitVec 5) : Prop := (readV s n).failed = none ∧ (readV s n).busy = 0

def TIdle (s : State) (n : BitVec 4) : Prop := (readT s n).failed = none ∧ (readT s n).busy = 0

/-- The commit keeps inactive elements of the old contents: tag and shape stay (13_isa_vector R372). -/
def VStays (old : VReg) (tag rows cols : Nat) : Prop := old.tag.toNat = tag ∧ old.rows = rows ∧ old.cols = cols

/-- Some element of a result is inactive. -/
def SomeOff (m : Nat → Bool) (n : Nat) : Prop := ∃ j, j < n ∧ m j = false

/-- A v register that a word may write with a result of a tag and a shape under a mask: a failed one may not be read for its old elements (R372, R414). -/
def VDest (s : State) (d : BitVec 5) (tag rows cols : Nat) (m : Nat → Bool) : Prop :=
  (readV s d).busy = 0 ∧ ((readV s d).failed = none ∨ ¬ (VStays (readV s d) tag rows cols ∧ SomeOff m (rows * cols)))

/-- Both sources may be read, and agree in a tag of the set and in shape (R373). -/
def VLikes (s : State) (a b : BitVec 5) (set : List Nat) : Prop :=
  VIdle s a ∧ VIdle s b ∧ (readV s a).tag.toNat ∈ set ∧ (readV s b).tag = (readV s a).tag ∧ (readV s b).rows = (readV s a).rows
    ∧ (readV s b).cols = (readV s a).cols

/-- Element `j` of a v register: its bits, and its value. -/
def vLane (r : VReg) (j : Nat) : Nat := elemAt r.data.toNat (vWidth r) j
def vValue (r : VReg) (j : Nat) : XReal := decodeTag r.tag.toNat (vLane r j)

/-- The bits of a mask register. -/
def maskBit (s : State) (k : BitVec 3) (j : Nat) : Bool := (readM s k).getLsbD j

/-- The elements of a committed result: the lane's value where active, the old bits or zero elsewhere, and zero beyond the elements (R372). -/
def Lanes (old : VReg) (m : Nat → Bool) (v : VNew) (lane : Nat → Nat) : Prop :=
  let w := elemWidth v.tag
  v.data < 2 ^ (w * (v.rows * v.cols))
    ∧ ∀ j, j < v.rows * v.cols →
      (m j = true → elemAt v.data w j = lane j % 2 ^ w)
      ∧ (m j = false → VStays old v.tag v.rows v.cols → elemAt v.data w j = elemAt old.data.toNat w j)
      ∧ (m j = false → ¬ VStays old v.tag v.rows v.cols → elemAt v.data w j = 0)

/-- The poison of a committed result (R372, 04_reliability R129). -/
def LanePoison (old : VReg) (m : Nat → Bool) (v : VNew) (srcs : Bool) : Prop :=
  v.poison = true ↔ srcs = true ∨ (VStays old v.tag v.rows v.cols ∧ SomeOff m (v.rows * v.cols) ∧ old.poison = true)

/-- The exceptions of a word are those of its active elements. -/
def FlagsOf (n : Nat) (m : Nat → Bool) (lane : Nat → FpFlags) (f : FpFlags) : Prop :=
  ∀ p ∈ [FpFlags.nv, FpFlags.dz, FpFlags.ov, FpFlags.uf, FpFlags.nx, FpFlags.sat], (p f = true ↔ ∃ j, j < n ∧ m j = true ∧ p (lane j) = true)

/-- The generator after the draws of the active elements below `n` (08_formats R246). -/
def drawsTo (mode : Mode) (m : Nat → Bool) (st : Nat) : Nat → Nat
  | 0 => st
  | n + 1 => if m n then (drawSr mode (drawsTo mode m st n)).1 else drawsTo mode m st n

/-- An exact value rounded into a format with the draw of element `j`: bits and exceptions (08_formats R240, R246). -/
def roundedLane (tag : Nat) (mode : Mode) (fromFl : Bool) (m : Nat → Bool) (st j : Nat) (x : XReal × Bool) : Nat × FpFlags :=
  let r := roundBits tag mode (drawSr mode (drawsTo mode m st j)).2 fromFl x.1
  (r.1, { r.2 with nv := r.2.nv || x.2 })

/-- The vector word sends a result: v[d] is to be written in cycle issue + L + B - 1 with the flags, its slot is taken for B cycles, and there is no other
change; or it takes the floating-point trap of its enabled exceptions, with their flags set and nothing else done (R374, R375). -/
def SendsV (i : Instr) (s : State) (d : BitVec 5) (x : Slot) (lat busy : Nat) (v : VNew) (r : Rounding) : Prop :=
  let due := cyc s + lat + busy - 1
  (trapping s r.flags = 0 →
    ColCompletes i s .colC 0 fun s =>
      modCore (fun k => { k with units := slotTake k.units (cyc s + busy) x, sys := { k.sys with srState := BitVec.ofNat 32 r.sr } })
        (postSticky due r.flags (sendV due d v.data v.tag v.rows v.cols v.poison s)))
  ∧ (trapping s r.flags ≠ 0 →
    exec i s = .next (raiseCol .colC (trapOf (.floating (trapping s r.flags))) (modSys (fun y => { y with sticky := y.sticky ||| r.flags.bits }) s)))

/-- The vector word sends a result of a tag and a shape whose active elements are `lane`, with their exceptions, leaving the generator at `sr`. -/
def SendsLanes (i : Instr) (s : State) (d : BitVec 5) (x : Slot) (lat busy tag rows cols : Nat) (m : Nat → Bool) (srcs : Bool)
    (lane : Nat → Nat × FpFlags) (sr : Nat) : Prop :=
  ∃ v r, SendsV i s d x lat busy v r ∧ v.tag = tag ∧ v.rows = rows ∧ v.cols = cols ∧ Lanes (readV s d) m v (fun j => (lane j).1)
    ∧ LanePoison (readV s d) m v srcs ∧ FlagsOf (rows * cols) m (fun j => (lane j).2) r.flags ∧ r.sr = sr

/-- No step and no other write of the accumulator is still to complete (14_isa_matrix R396). -/
def AIdle (s : State) (n : BitVec 2) : Prop := (readA s n).stepDone ≤ cyc s ∧ (readA s n).writeDone ≤ cyc s

/-- The bits of cell (`r`, `c`) of an accumulator. -/
def cellBits (a : Acc) (r c : Nat) : Nat := elemAt a.sums.toNat 32 (64 * r + c)

/-- Element `i` of the row or column `r` of a tile of depth `d` (R393). -/
def tileValue (t : TReg) (d r i : Nat) : XReal :=
  let tag := t.tag.toNat
  if isSe tag then seValue t.data.toNat tag (64 * d) (r * d + i) else decodeTag tag (elemAt t.data.toNat (tagWidth tag) (r * d + i))

/-- Nothing but the accumulators, the units, pending effects and the C column of the core in focus changes, nor the pins and latches of a step. -/
def OnlyMatrix (s t : State) : Prop :=
  t.core.g = s.core.g ∧ t.core.b = s.core.b ∧ t.core.e = s.core.e ∧ t.core.v = s.core.v ∧ t.core.t = s.core.t ∧ t.core.m = s.core.m
    ∧ t.core.flags = s.core.flags ∧ t.core.sp = s.core.sp ∧ t.core.sys = s.core.sys ∧ t.core.pc = s.core.pc ∧ SameMemory s t

/-- The last byte that the scratchpad writes among effects put at an address, and whether any of them carries poison. -/
def putAt (l : List Fx) (x : Nat) : Option Byte :=
  l.foldl (fun acc f => match f.eff with
    | .localWrite a bs _ => if a ≤ x ∧ x < a + bs.length then bs[x - a]? else acc
    | _ => acc) none

/-- The word posts writes of the scratchpad alone, all in cycle `due`, that put the bytes of `f`, holds the W port for `b` cycles, and has no other effect
(09_memory_model R273, 15_isa_memory R432, R434). -/
def StoresLocal (i : Instr) (s : State) (due b : Nat) (poison : Bool) (f : Nat → Option Byte) : Prop :=
  ∃ l : List Fx, (∀ x ∈ l, x.due = due ∧ x.order = 3 ∧ ∃ a bs, x.eff = .localWrite a bs poison) ∧ (∀ x, putAt l x = f x)
    ∧ ColCompletes i s .colW 0 fun s => holdPort .colW b (modCore (fun k => { k with fx := k.fx ++ l }) s)

/-! ### What an engine command changes (16_isa_engines R438 to R442) -/

/-- The state in which a command starts: its core in focus, its entry out of its queue. -/
def started (eng : Nat) (c : Cmd) (s : State) : State := modCore (dropEntry eng c.seq) (focus s c.core)

/-- The command as its engine takes it up. -/
def taking (eng : Nat) (c : Cmd) (s : State) : RunCmd := newRun (focus s c.core) eng c

/-- A copy as it works: a tagged one is a producer of its slot (R444, 06_core R185). -/
def copyTaking (c : Cmd) (s : State) : RunCmd :=
  let r := taking (copyEngine s c) c s
  if (copyOp c).tagged then { r with tag := some (copySlot (copyOp c), (copyOp c).seqTag, cyc (started (copyEngine s c) c s)) } else r

/-- The state in which a copy does its work: its engine has taken it up, and its slot or its tile register has a producer more (R444). -/
def copying (c : Cmd) (s : State) : State :=
  let o := copyOp c
  let e := copyEngine s c
  let z := started e c s
  let z1 := if o.tagged then post (cyc z) (engOrder e) (.slotPend (copySlot o)) z else z
  takeUp e (taking e c s) (if o.tile then post (cyc z) (engOrder e) (.tPend o.treg) z1 else z1)

/-- The command starts (R439): its header and its operands are in order and its scratchpad operands ready, and its work is its next state. -/
def StartsWith (i : Instr) (eng : Nat) (c : Cmd) (valid : State → Bool) (ready : State → Chk Unit) (work : RunCmd → State → State) (s : State) : Prop :=
  (headerOk c.bits = true → valid (focus s c.core) = true → ready (focus s c.core) = .ok () →
    exec i s = .next (work (taking eng c s) (started eng c s)))
  ∧ (headerOk c.bits = false ∨ valid (focus s c.core) = false →
    exec i s = .next (putRun (endsWith (taking eng c s) (cyc (focus s c.core)) stBadcmd 0) (started eng c s)))
  ∧ (∀ t, headerOk c.bits = true → valid (focus s c.core) = true → ready (focus s c.core) = .error t → exec i s = .next (entryTrap eng t (focus s c.core)))

/-- The command is on its way to its end, with a status and a result, at least `n` cycles from now; everything else stands as in `t`. -/
def EndsWith (i : Instr) (eng : Nat) (c : Cmd) (s : State) (n status result : Nat) (t : State) : Prop :=
  ∃ u r, exec i s = .next u ∧ r ∈ u.running ∧ r.core = c.core ∧ r.eng = eng ∧ r.seq = c.seq ∧ r.status.toNat = status % 256
    ∧ r.result.toNat = result % 2 ^ 48 ∧ cycOf t c.core + n ≤ r.due ∧ r.waiting = false ∧ r.pending = false ∧ r.parked = none
    ∧ u = { t with running := u.running, fresh := u.fresh }

/-! ### What a host command changes (04_host_interface R114 to R122) -/

/-- The state in which a host command acts: SQ_HEAD is past its entry (R114). -/
def fetched (h : HostCmd) (s : State) : State := fetchEntry s h.queue

/-- The command is executed: its identity is not the reserved one, and its record is in order (R116). -/
def Accepted (h : HostCmd) (valid : State → Bool) (s : State) : Prop :=
  hostIdent h ≠ 0xFFFF ∧ hostCommonOk (fetched h s) h = true ∧ valid (fetched h s) = true

/-- The completion record of a host command, before its answer stands (R117). -/
def RunOf (h : HostCmd) (t : State) (r : HostRun) : Prop :=
  r.queue = h.queue ∧ r.ident = hostIdent h ∧ r.flags = hostFlags h ∧ r.sqHead.toNat = (getQueue t h.queue).sqHead % 65536 ∧ r.dropped = false

/-- The command answers at once with a status and a result, what it did standing in `t`: in the mailbox, or as a completion to be posted. -/
def Completes (i : Instr) (h : HostCmd) (s : State) (st res : Nat) (t : State) : Prop :=
  (h.queue = mailboxQueue →
    exec i s = .next { t with mailbox := { t.mailbox with busy := false, status := BitVec.ofNat 15 st, result := BitVec.ofNat 48 res } })
  ∧ (h.queue ≠ mailboxQueue → ∃ r : HostRun, exec i s = .next { t with hostRuns := t.hostRuns ++ [r] } ∧ RunOf h t r ∧ r.done = true
      ∧ r.status = BitVec.ofNat 16 st ∧ r.res0 = BitVec.ofNat 64 res ∧ r.res1 = 0 ∧ r.wait = .none)

/-- The command answers later: it waits for `w`, what it did so far standing in `t`. -/
def Defers (i : Instr) (h : HostCmd) (s : State) (w : HostWait) (t : State) : Prop :=
  ∃ r : HostRun, exec i s = .next { t with hostRuns := t.hostRuns ++ [r] } ∧ RunOf h t r ∧ r.done = false ∧ r.wait = w

/-- The host commands, each with the check of its own operands. -/
def hostForms (h : HostCmd) : List (Instr × (State → Bool)) :=
  [(.partCreate h, partCreateValid h), (.partResize h, partResizeValid h), (.partDestroy h, partOnly h), (.partReset h, partOnly h),
   (.worldCreate h, worldOnly h), (.worldDestroy h, worldOnly h), (.worldBind h, bindValid h), (.worldUnbind h, bindValid h),
   (.quotaGet h, quotaValid h), (.quotaSet h, quotaValid h), (.pageAlloc h, pageAllocValid h), (.pageFree h, pageFreeValid h),
   (.prefixReg h, prefixValid h), (.keyRotate h, worldOnly h), (.powerCapSet h, powerValid h), (.fwWrite h, fwValid h), (.cfgWrite h, cfgValid h),
   (.logRead h, logValid h), (.errRead h, logValid h), (.resync h, resyncValid h), (.qreset h, qresetValid h), (.queueLaunch h, launchValid h),
   (.copyH2d h, hostCopyValid ptr1 h), (.copyD2h h, hostCopyValid ptr0 h), (.objWait h, objValid h)]

/-- The bytes of a list as they stand in host memory from an address on. -/
def HostHolds (s : State) (a : Nat) (bs : List Byte) : Prop := ∀ i, i < bs.length → byteAt s (hostPa a + i) = bs.getD i 0

/-! ### Events of the scribe's log (04_host_interface R123) -/

/-- One event of no partition is raised: its record ends the log, with the tick and no error record, an interrupt goes to PF0, and there is no other
change. -/
def Raises (kind : Nat) (args : List Nat) (s t : State) : Prop :=
  (∃ e : Event, t.events.getLast? = some e ∧ e.kind = kind ∧ e.tick = s.tick ∧ e.args = args ∧ e.part = none ∧ e.record.toNat = noRecord)
    ∧ t.msix = s.msix ++ [(pf0, 0)] ∧ t.nextEvent = (s.nextEvent + 1) % 4096
    ∧ t = { s with events := t.events, unread := t.unread, lostNext := t.lostNext, nextEvent := t.nextEvent, msix := t.msix }

/-- The event does what it does, with an event raised: its next state is that of `t` but for the log. -/
def RaisesFrom (i : Instr) (kind : Nat) (args : List Nat) (s t : State) : Prop := ∃ u, exec i s = .next u ∧ Raises kind args t u

/-! ### Flits received -/

/-- A flit at a port that is up and serves a group, in link order, of the type that its event names, for this package (R80 to R82, R108). -/
def Takes (type : Nat) (s : State) : Prop :=
  (getPort s s.ev.flit.port).st = portUp ∧ flitType s.ev.flit = type ∧ s.ev.flit.seq = (getPort s s.ev.flit.port).rxSeq
    ∧ flitDst s.ev.flit = s.node.toNat ∧ s.ev.flit.port < 18 ∧ (getPort s s.ev.flit.port).serves.isSome = true

/-- The state in which a flit taken acts: its acknowledgement clears the replay buffer, which takes flits that waited for room, and the next sequence
number is expected. -/
def afterTake (s : State) : State := receiveFlit s.ev.flit.port s.ev.flit.ack s

/-! ### Safe runs -/

/-- A step answers a next state. -/
def Answers (s : State) : Prop := ∃ t, step s = .next t

/-- A package that has power, or that an input gives power to. -/
def Powered (s : State) : Prop := s.phase ≠ .off ∨ (powerInput s).isSome

/-- A safe run: every one of its steps answers. -/
def SafeRun : Nat → State → Prop
  | 0, _ => True
  | n + 1, s => ∃ t, step s = .next t ∧ SafeRun n t

end Sys2Proof.Machine
end

