-- ==== Sys2Proof/Certificates/Slice0/Obligations.lean ====
section
/-! DEFINITION. The statements for the provers. Each docstring names the rules of spec/ that the statement formalises. -/

open Sys2Proof Sys2Proof.Machine

/-! ### Reset, memory, decoding, steps -/

/-- The reset values that the spec gives: 01_package R26, R27, 02_memory_tiers R45, R70, R71, 03_links_trust R78, R84, R85, R107, 04_host_interface R112,
05_partitions_scheduler R133, 06_core R183, R184, R193, 08_formats R243, R244, R246, 10_traps R302, 12_isa_scalar R484. Where the spec gives none, as for
memory (log 4), nothing is stated. -/
def Obligations.ResetValues : Prop :=
  let s := State.reset;
  (∀ n, n < 24 → (getIsland s n).cur = (if n = 22 then 800 else 1600) ∧ (getIsland s n).tgt = (getIsland s n).cur ∧ (getIsland s n).drainTicks = 64
    ∧ (getIsland s n).st = .steady ∧ (getIsland s n).abandon = false)
  ∧ s.powerCap = 3600 ∧ s.winExp = 20 ∧ s.thresh = 16 ∧ s.liveEn = true
  ∧ (∀ h, (getChannel s h).errCount = 0 ∧ (getChannel s h).st = 0 ∧ (getChannel s h).spares = 0 ∧ (getChannel s h).repairs = 0)
  ∧ (∀ w, (getQuota s w).hbmLimit = 0 ∧ (getQuota s w).hbfLimit = 0 ∧ (getQuota s w).cxlLimit = 0 ∧ (getQuota s w).kvLimit = 0)
  ∧ (∀ p, (getPart s p).present = false ∧ (getPart s p).tdisp = .unlocked) ∧ (∀ g, (getGroup s g).valid = false) ∧ s.node = 0x3FFFF
  ∧ (∀ p, (getPort s p).st = 0 ∧ (getPort s p).crcErr = 0)
  ∧ (∀ q, (getQueue s q).cqLog = 4 ∧ (getQueue s q).sqLog = 4 ∧ (getQueue s q).vec = 0 ∧ (getQueue s q).en = false ∧ (getQueue s q).phase = true)
  ∧ (∀ r, readG s r = 0) ∧ (∀ n, readB s n = 0) ∧ (∀ e, readE s e = EReg.zero) ∧ (∀ k, readM s k = if k = 0 then BitVec.allOnes 2048 else 0)
  ∧ s.core.flags = 0 ∧ s.core.pc = 0 ∧ (∀ i, (getSlot s.core i).tag = 0 ∧ (getSlot s.core i).pend = 0)
  ∧ s.core.sys.rmode = 0 ∧ s.core.sys.trapen = 0 ∧ s.core.sys.sticky = 0 ∧ s.core.sys.srSeed = 1 ∧ s.core.sys.gateIdle = 64 ∧ s.core.sys.ringLen = 0
  ∧ s.core.sys.tslotSel = 0 ∧ s.core.sys.trapCause = 0 ∧ s.core.sys.trapPc = 0 ∧ s.core.sys.trapAddr = 0 ∧ s.core.sys.trapVec = 0

/-- The memory of the package after reset is in canonical form (log 4). -/
def Obligations.ResetIsCanonical : Prop := Canonical State.reset

/-- Every step keeps the canonical form of memory: addresses strictly rise, and no byte is listed that reads as an unlisted one (log 4). It holds of
every state, not only of those that a run reaches. -/
def Obligations.StepKeepsMemoryCanonical : Prop := ∀ s t : State, Canonical s → step s = .next t → Canonical t

/-- 11_isa_formats R332 to R343: a stream decodes the word of a well-formed instruction of its own as that instruction, whatever its operands. -/
def Obligations.DecodeAfterEncode : Prop :=
  ∀ (st : Stream) (i : Instr), streamOf i = some st → reject? i = none → decode st (encode i) = .ok i

/-- 11_isa_formats R332 to R343: whatever a stream decodes is a well-formed instruction of that stream, and its word is the one that was decoded: no two
words of a stream mean the same, and no bit of a word is ignored. -/
def Obligations.EncodeAfterDecode : Prop :=
  ∀ (st : Stream) (w : Word) (i : Instr), decode st w = .ok i → streamOf i = some st ∧ reject? i = none ∧ encode i = w

/-- 11_isa_formats R332 to R343 and the encodings printed in 12 to 15: some words as the spec lays them out, of every stream and family, and words that are
no instruction. -/
def Obligations.SampleDecodings : Prop :=
  decode .s 0x04304200 = .ok (.add ⟨3, 1, 2⟩) ∧ decode .s 0x08413FFF = .ok (.addi ⟨4, 4, 0x3FFF⟩) ∧ decode .s 0x342050CC = .ok (.bxzi ⟨2, 1, 3, 12⟩)
    ∧ decode .s 0x40810805 = .ok (.cmp ⟨2, 1, 2, 5⟩) ∧ decode .s 0x51200003 = .ok (.xfer ⟨1, 1, 3⟩) ∧ decode .s 0x60000070 = .ok (.fset 7)
    ∧ decode .s 0xC5238000 = .ok (.strip ⟨1, 0, 1, 7, 0⟩) ∧ decode .s 0xD0000020 = .ok (.meet ⟨2, 0⟩) ∧ decode .s 0xF4010050 = .ok (.mts 4 0x050)
    ∧ decode (.col .colC) 0x04061120 = .ok (.vadd ⟨0, 3, 1, 2, 2⟩) ∧ decode (.col .colC) 0x300C5007 = .ok (.vquant ⟨0, 6, 5, 0, 0, 7⟩)
    ∧ decode (.col .colC) 0x3C021004 = .ok (.mrange ⟨0, 1, 1, 0⟩) ∧ decode (.col .colC) 0x80101C00 = .ok (.mma ⟨0, 1, 0, 1, 1, 1, 0⟩)
    ∧ decode (.col .colC) 0x90042268 = .ok (.smxstep ⟨0, 0, 8, 4, 9, 1, 2, 0⟩) ∧ decode (.col .colC) 0xF0224005 = .ok (.colQget ⟨.colC, 0, 2, 0x4005⟩)
    ∧ decode (.col .colL) 0x04041810 = .ok (.ldt ⟨0, 1, 3, 0, 0, 1⟩) ∧ decode (.col .colL) 0x140C8928 = .ok (.gld ⟨0, 3, 4, 9, 1, 1⟩)
    ∧ decode (.col .colL) 0x1C0A0400 = .ok (.emov ⟨.colL, 0, 2, 0, 1⟩) ∧ decode (.col .colL) 0x2014C000 = .ok (.kvx ⟨0, 5, 3⟩)
    ∧ decode (.col .colW) 0x04241910 = .ok (.stt ⟨0, 9, 3, 1, 0, 1⟩) ∧ decode (.col .colW) 0x14304760 = .ok (.sct ⟨0, 12, 2, 7, 3, 0⟩)
    ∧ decode (.col .colW) 0x18292000 = .ok (.acst ⟨0, 10, 1, 2⟩)
    ∧ (∀ st ∈ [Stream.s, .col .colL, .col .colC, .col .colW], (decode st 0 matches .error _) = true ∧ (decode st 0xFFFFFFFF matches .error _) = true)
    ∧ (decode (.col .colL) 0xF0224005 matches .error .selector) = true ∧ (decode .s 0x04304213 matches .error _) = true

/-- 06_core R165 to R173, 10_traps R297, 12_isa_scalar R347, R348: a step runs the instruction that it decodes. Where nothing else of the package is due, a
step at a core whose S stream may issue fetches the word at the pc and runs what it decodes to, or waits a cycle for its registers; a word that is no
instruction is an illegal-instruction trap. After the S stream and the engines, a column's scheduled word runs in the same way. -/
def Obligations.StepRunsTheDecodedWord : Prop :=
  ∀ (s : State) (c : CoreNo) (w : Word), s.phase = .booted → inputAct s = none → packageAct s = none → coreAct s = none → mailboxAct s = none →
    fetchAct s = none →
    let z := focus s c;
    ((coreNos s).find? (scalarReady s) = some c → fetchWord z z.core.pc = .ok w →
      (∀ i, decode .s w = .ok i → (gReady z i = true → step s = exec i z)
        ∧ (gReady z i = false → step s = .next (modCore (fun k => { k with sReady := cyc z + 1 }) z)))
      ∧ (∀ e, decode .s w = .error e → step s = .next (sTrap .illegal 0 z)))
    ∧ ((coreNos s).find? (scalarReady s) = none → engineAct s = none → trapAct s = none →
      ∀ x, columnChoice s c = some (x, w) → (∀ d ∈ coreNos s, d ≠ c → columnChoice s d = none) → c ∈ coreNos s →
        (∀ i, decode (.col x) w = .ok i → step s = exec i z) ∧ (∀ e, decode (.col x) w = .error e → step s = .next (colTrap x .illegal z)))

/-- 01_package R29, R30, R32: a package that has power always goes on. Every instruction, command and event answers a next state in every state; a step
answers one unless the package is without power and no input brings it back, and then it is the fault of a package without power. -/
def Obligations.EveryStepAnswers : Prop :=
  (∀ (i : Instr) (s : State), ∃ t, exec i s = .next t) ∧ (∀ s, Powered s → Answers s) ∧ ∀ s, ¬ Powered s → step s = .fault .poweredOff
/-! ### Scalar arithmetic, constants, fields, compares (12_isa_scalar R347, R352 to R357, R370) -/

/-- R352, R347, R370: the two-source arithmetic of the S stream completes in every state with the result of R352 modulo 2^64, readable 1, 4 or 36
cycles on, and changes nothing else. A write to g0 is discarded. The words are as R352 and R335 lay them out.
R352, R370: CLZ and CTZ give 64 for 0, and otherwise the number of zero bits above the highest and below the lowest one bit; POPC gives the number
of one bits. -/
def Obligations.ArithmeticResults : Prop :=
   (∀ (s : State) (o : R3),
      let x := readG s o.a
      let y := readG s o.b
      let n := y.toNat % 64
      let word (fn : Nat) : Word := BitVec.ofNat 32 (2 ^ 26 + o.d.toNat * 2 ^ 20 + o.a.toNat * 2 ^ 14 + o.b.toNat * 2 ^ 8 + fn)
      WritesG (.add o) s o.d (BitVec.ofNat 64 (x.toNat + y.toNat)) 1
      ∧ WritesG (.sub o) s o.d (BitVec.ofInt 64 ((x.toNat : Int) - y.toNat)) 1
      ∧ WritesG (.mul o) s o.d (BitVec.ofInt 64 (x.toInt * y.toInt)) 4
      ∧ WritesG (.mulh o) s o.d (BitVec.ofInt 64 (x.toInt * y.toInt / 2 ^ 64)) 4
      ∧ WritesG (.mulhz o) s o.d (BitVec.ofNat 64 (x.toNat * y.toNat / 2 ^ 64)) 4
      ∧ WritesG (.div o) s o.d (BitVec.ofInt 64 (if y = 0 then -1 else if x.toInt = -2 ^ 63 ∧ y.toInt = -1 then -2 ^ 63 else x.toInt.tdiv y.toInt)) 36
      ∧ WritesG (.divz o) s o.d (BitVec.ofNat 64 (if y = 0 then 2 ^ 64 - 1 else x.toNat / y.toNat)) 36
      ∧ WritesG (.rem o) s o.d (BitVec.ofInt 64 (if y = 0 then x.toInt else if x.toInt = -2 ^ 63 ∧ y.toInt = -1 then 0 else x.toInt.tmod y.toInt)) 36
      ∧ WritesG (.remz o) s o.d (BitVec.ofNat 64 (if y = 0 then x.toNat else x.toNat % y.toNat)) 36
      ∧ WritesG (.andR o) s o.d (x &&& y) 1
      ∧ WritesG (.orR o) s o.d (x ||| y) 1
      ∧ WritesG (.xorR o) s o.d (x ^^^ y) 1
      ∧ WritesG (.shl o) s o.d (BitVec.ofNat 64 (x.toNat * 2 ^ n)) 1
      ∧ WritesG (.shr o) s o.d (BitVec.ofNat 64 (x.toNat / 2 ^ n)) 1
      ∧ WritesG (.sra o) s o.d (BitVec.ofInt 64 (x.toInt / 2 ^ n)) 1
      ∧ WritesG (.minR o) s o.d (BitVec.ofInt 64 (min x.toInt y.toInt)) 1
      ∧ WritesG (.maxR o) s o.d (BitVec.ofInt 64 (max x.toInt y.toInt)) 1
      ∧ WritesG (.minz o) s o.d (BitVec.ofNat 64 (min x.toNat y.toNat)) 1
      ∧ WritesG (.maxz o) s o.d (BitVec.ofNat 64 (max x.toNat y.toNat)) 1
      ∧ (∀ p ∈ [(0x00, Instr.add o), (0x01, .sub o), (0x02, .mul o), (0x03, .mulh o), (0x04, .mulhz o), (0x05, .div o), (0x06, .divz o), (0x07, .rem o),
          (0x08, .remz o), (0x10, .andR o), (0x11, .orR o), (0x12, .xorR o), (0x18, .shl o), (0x19, .shr o), (0x1A, .sra o), (0x20, .minR o),
          (0x21, .maxR o), (0x22, .minz o), (0x23, .maxz o)], decode .s (word p.1) = .ok p.2))
 ∧ (∀ (s : State) (o : R2),
      let x := readG s o.a
      WritesG (.clz o) s o.d (BitVec.ofNat 64 (if x = 0 then 64 else 63 - x.toNat.log2)) 1
      ∧ (x = 0 → WritesG (.ctz o) s o.d 64 1)
      ∧ (∀ n, x.getLsbD n = true → (∀ i, i < n → x.getLsbD i = false) → WritesG (.ctz o) s o.d (BitVec.ofNat 64 n) 1)
      ∧ WritesG (.popc o) s o.d (BitVec.ofNat 64 ((List.range 64).filter fun i => x.getLsbD i).length) 1
      ∧ (∀ p ∈ [(0x28, Instr.clz o), (0x29, .ctz o), (0x2A, .popc o)],
          decode .s (BitVec.ofNat 32 (2 ^ 26 + o.d.toNat * 2 ^ 20 + o.a.toNat * 2 ^ 14 + p.1)) = .ok p.2))

/-- R353, R354, R370: the immediate and constant forms, and the funnel shifts, with the sign of the immediate extended where R353 says so.
R355, R370: the bit-field instructions. A register form clamps its width to 64 - o; an immediate form with o + w above 64 raises an
illegal-instruction trap, and every other one completes. -/
def Obligations.ImmediateAndFieldResults : Prop :=
   (∀ (s : State),
      (∀ o : RI, WritesG (.addi o) s o.d (BitVec.ofInt 64 ((readG s o.a).toNat + o.imm.toInt)) 1
        ∧ WritesG (.andi o) s o.d (readG s o.a &&& BitVec.ofInt 64 o.imm.toInt) 1
        ∧ WritesG (.ori o) s o.d (readG s o.a ||| BitVec.ofNat 64 o.imm.toNat) 1
        ∧ WritesG (.xori o) s o.d (readG s o.a ^^^ BitVec.ofNat 64 o.imm.toNat) 1)
      ∧ (∀ o : RSh, WritesG (.shli o) s o.d (BitVec.ofNat 64 ((readG s o.a).toNat * 2 ^ o.n.toNat)) 1
        ∧ WritesG (.shri o) s o.d (BitVec.ofNat 64 ((readG s o.a).toNat / 2 ^ o.n.toNat)) 1
        ∧ WritesG (.srai o) s o.d (BitVec.ofInt 64 ((readG s o.a).toInt / 2 ^ o.n.toNat)) 1)
      ∧ (∀ o : RL, WritesG (.li o) s o.d (BitVec.ofInt 64 o.imm.toInt) 1
        ∧ WritesG (.lui o) s o.d (BitVec.ofInt 64 (o.imm.toInt * 2 ^ 20 + (readG s o.d).toNat % 2 ^ 20)) 1
        ∧ WritesG (.lhi o) s o.d (BitVec.ofInt 64 (o.imm.toInt * 2 ^ 40 + (readG s o.d).toNat % 2 ^ 40)) 1
        ∧ WritesG (.addpc o) s o.d (BitVec.ofInt 64 (s.core.pc.toNat + 4 * o.imm.toInt)) 1)
      ∧ (∀ o : R3,
        let n := (readG s o.b).toNat % 64
        let w := (readG s o.d).toNat * 2 ^ 64 + (readG s o.a).toNat
        WritesG (.fshl o) s o.d (BitVec.ofNat 64 (w * 2 ^ n % 2 ^ 128 / 2 ^ 64)) 1
        ∧ WritesG (.fshr o) s o.d (BitVec.ofNat 64 (w / 2 ^ n)) 1))
 ∧ (∀ (s : State),
      (∀ o : R3,
        let p := (readG s o.b).toNat % 64
        let w := min ((readG s o.b).toNat / 256 % 64 + 1) (64 - p)
        let f := (readG s o.a).toNat / 2 ^ p % 2 ^ w
        WritesG (.bxz o) s o.d (BitVec.ofNat 64 f) 1
        ∧ WritesG (.bxt o) s o.d (BitVec.ofInt 64 (if f < 2 ^ (w - 1) then (f : Int) else (f : Int) - 2 ^ w)) 1
        ∧ (∃ r : Dword, WritesG (.bins o) s o.d r 1
            ∧ ∀ i, i < 64 → r.getLsbD i = if p ≤ i ∧ i < p + w then (readG s o.a).getLsbD (i - p) else (readG s o.d).getLsbD i))
      ∧ (∀ o : RBf,
        let p := o.o.toNat
        let w := o.w.toNat + 1
        let f := (readG s o.a).toNat / 2 ^ p % 2 ^ w
        (p + w ≤ 64 →
          WritesG (.bxzi o) s o.d (BitVec.ofNat 64 f) 1
          ∧ WritesG (.bxti o) s o.d (BitVec.ofInt 64 (if f < 2 ^ (w - 1) then (f : Int) else (f : Int) - 2 ^ w)) 1
          ∧ (∃ r : Dword, WritesG (.binsi o) s o.d r 1
              ∧ ∀ i, i < 64 → r.getLsbD i = if p ≤ i ∧ i < p + w then (readG s o.a).getLsbD (i - p) else (readG s o.d).getLsbD i))
        ∧ (64 < p + w → TrapsS (.bxzi o) s .illegal 0 ∧ TrapsS (.bxti o) s .illegal 0 ∧ TrapsS (.binsi o) s .illegal 0)))

/-- R356, R357, R181, R183: CMP and CMPI write the flag in their issue cycle, a protected flag of the enabled ring excepted, and no other flag or
register; a test sees the flags as at the end of the previous cycle, so SEL takes its choice from those. Their words are as R356 and R357 lay them out,
and conditions 8 to 15 are no instruction. -/
def Obligations.CompareAndSelect : Prop :=
  ∀ (s : State),
    (∀ (o : RSel), WritesG (.sel o) s o.d (if s.core.flagsPrev.getLsbD o.f.toNat then readG s o.a else readG s o.b) 1)
    ∧ (∀ (o : RCmp) (y : Dword) (i : Instr), (i = .cmp o ∧ y = readG s o.b) ∨ (i = .cmpi o ∧ y = BitVec.ofInt 64 o.b.toInt) → reject? i = none →
      let x := readG s o.a
      let holds : Bool := match o.c.toNat with
        | 0 => x = y
        | 1 => x ≠ y
        | 2 => x.toInt < y.toInt
        | 3 => x.toInt ≥ y.toInt
        | 4 => x.toNat < y.toNat
        | 5 => x.toNat ≥ y.toNat
        | 6 => x &&& y ≠ 0
        | _ => x &&& y = 0
      FlagBecomes i s o.f.toNat holds)
    ∧ (∀ o : RSel, decode .s (BitVec.ofNat 32 (0x0E * 2 ^ 26 + o.d.toNat * 2 ^ 20 + o.a.toNat * 2 ^ 14 + o.b.toNat * 2 ^ 8 + o.f.toNat)) = .ok (.sel o))
    ∧ (∀ o : RCmp,
      let word (major : Nat) : Word := BitVec.ofNat 32 (major * 2 ^ 26 + o.c.toNat * 2 ^ 22 + o.a.toNat * 2 ^ 16 + o.b.toNat * 2 ^ 10 + o.f.toNat)
      (o.c.toNat < 8 → decode .s (word 0x10) = .ok (.cmp o) ∧ decode .s (word 0x11) = .ok (.cmpi o))
      ∧ (8 ≤ o.c.toNat → ∀ i, decode .s (word 0x10) ≠ .ok i ∧ decode .s (word 0x11) ≠ .ok i))

/-! ### Transfer of control, flags, queues, slot memory, the ring, system registers (12_isa_scalar R349, R358 to R362, R367, R368) -/

/-- R358: PTGT and PTGTR write b[n] and no other register; PTGTR raises an alignment fault for a g[a] that is not a multiple of 4.
R359: after XFER and XCALL the two words that follow execute, and then the fetch goes to the old b[n] where the transfer is taken, and past the
delay words where it is not. XCALL writes b7 in both cases. A transfer or an ERET in a delay word is an illegal instruction. -/
def Obligations.TargetRegistersAndTransfers : Prop :=
   (∀ (s : State) (n : BitVec 3),
      (∀ i : BitVec 20, CompletesWith (.ptgt n i) s 1 (writeB n (BitVec.ofInt 64 (s.core.pc.toNat + 4 * i.toInt))))
      ∧ (∀ a : GReg, (readG s a).toNat % 4 = 0 → CompletesWith (.ptgtr n a) s 1 (writeB n (readG s a)))
      ∧ (∀ a : GReg, (readG s a).toNat % 4 ≠ 0 → TrapsS (.ptgtr n a) s .alignment (readG s a))
      ∧ (∀ (x : Dword) (m : BitVec 3), readB (writeB n x s) m = if m = n then x else readB s m))
 ∧ (∀ (s : State) (o : RXfer) (call : Bool), reject? (.xfer o) = none →
      let i : Instr := if call then .xcall o else .xfer o
      let flag := flagSeen s.core o.f.toNat
      let taken : Bool := o.m = 0 || (o.m = 1 && flag) || (o.m = 2 && !flag)
      (s.core.xfer = none → ∃ t u v, exec i s = .next t ∧ exec .nop t = .next u ∧ exec .nop u = .next v
        ∧ t.core.pc = s.core.pc + 4 ∧ u.core.pc = s.core.pc + 8 ∧ v.core.pc = (if taken then readB s o.n else s.core.pc + 12) ∧ v.core.xfer = none
        ∧ v = modCore (placed v) (if call then writeB 7 (s.core.pc + 12) s else s))
      ∧ (∀ x, s.core.xfer = some x → TrapsS i s .illegal 0 ∧ TrapsS .eret s .illegal 0))

/-- R360, R181, R183: FSET, FCLR, FTGL and FMOV write a core flag in their issue cycle, in the immediate and in the register form.
R360, R181: the register forms with C = 1 change a flag of the core's cluster; the cores see the change 8 cycles later, and not in this cycle.
R360, R181, R183: FTEST gives a core flag as it stood at the end of the previous cycle, 0 for a reserved flag of the enabled ring, or a cluster
flag as the core sees it.
R360, R181, R303: FWAIT completes in the first cycle in which its flag has the awaited value, FWAITA in the first in which it is set, and clears
it; till then they wait with no effect. An FWAITA on a cluster flag acts at the cluster, and completes 8 cycles after the act. -/
def Obligations.FlagInstructions : Prop :=
   (∀ (s : State),
      (∀ f : BitVec 10, FlagBecomes (.fset f) s f.toNat true ∧ FlagBecomes (.fclr f) s f.toNat false
        ∧ FlagBecomes (.ftgl f) s f.toNat (!s.core.flags.getLsbD f.toNat) ∧ ∀ d, FlagBecomes (.fmov d f) s f.toNat ((readG s d).getLsbD 0))
      ∧ (∀ a : GReg,
        let n := (readG s a).toNat % 4096
        FlagBecomes (.fsetReg ⟨a, 0⟩) s n true ∧ FlagBecomes (.fclrReg ⟨a, 0⟩) s n false
          ∧ FlagBecomes (.ftglReg ⟨a, 0⟩) s n (!s.core.flags.getLsbD n) ∧ ∀ d, FlagBecomes (.fmovReg ⟨d, a, 0⟩) s n ((readG s d).getLsbD 0)))
 ∧ (∀ (s : State) (a d : GReg) (i : Instr) (b : Bool),
      let n := (readG s a).toNat % 4096
      let u := getCluster s (clusterOf s.coreId)
      (i = .fsetReg ⟨a, 1⟩ ∧ b = true ∨ i = .fclrReg ⟨a, 1⟩ ∧ b = false ∨ i = .ftglReg ⟨a, 1⟩ ∧ b = !u.flags.getLsbD n
        ∨ i = .fmovReg ⟨d, a, 1⟩ ∧ b = (readG s d).getLsbD 0) →
      ∃ w : Cluster, CompletesWith i s 1 (fun s => putCluster s w) ∧ w.num = u.num ∧ w.counters = u.counters ∧ w.keys = u.keys ∧ w.faultQ = u.faultQ
        ∧ (∀ j, j < 4096 → w.flags.getLsbD j = if j = n then b else u.flags.getLsbD j)
        ∧ (∀ c, cyc s + 8 ≤ c → clusterSeen w c = w.flags) ∧ clusterSeen w (cyc s) = clusterSeen u (cyc s))
 ∧ (∀ (s : State) (d : GReg),
      let seen (n : Nat) : Dword := if s.core.flagsPrev.getLsbD n ∧ ¬ (768 ≤ n ∧ n < 768 + 16 * s.core.sys.ringLen.toNat ∧ 8 < n % 16) then 1 else 0
      (∀ f : BitVec 10, WritesG (.ftest d f) s d (seen f.toNat) 1)
      ∧ (∀ a : GReg, WritesG (.ftestReg ⟨d, a, 0⟩) s d (seen ((readG s a).toNat % 4096)) 1)
      ∧ (∀ a : GReg, WritesG (.ftestReg ⟨d, a, 1⟩) s d
          (if (clusterSeen (getCluster s (clusterOf s.coreId)) (cyc s)).getLsbD ((readG s a).toNat % 4096) then 1 else 0) 1))
 ∧ (∀ (s : State),
      (∀ (v : BitVec 1) (n : Nat) (i : Instr),
        (∃ f : BitVec 10, n = f.toNat ∧ i = .fwait v f) ∨ (∃ a : GReg, n = (readG s a).toNat % 4096 ∧ i = .fwaitReg v ⟨a, 0⟩) →
        (flagSeen s.core n = decide (v = 1) → CompletesWith i s 1 (fun s => if v = 1 then joinFlag n s else s))
        ∧ (flagSeen s.core n ≠ decide (v = 1) → Waits i s))
      ∧ (∀ (n : Nat) (i : Instr),
        (∃ f : BitVec 10, n = f.toNat ∧ i = .fwaita f) ∨ (∃ a : GReg, n = (readG s a).toNat % 4096 ∧ i = .fwaitaReg ⟨a, 0⟩) →
        (flagSeen s.core n = true → CompletesWith i s 1 (fun s => modCore (flagPut n false) (joinFlag n s)))
        ∧ (flagSeen s.core n = false → Waits i s))
      ∧ (∀ (a : GReg),
        let n := (readG s a).toNat % 4096
        let u := getCluster s (clusterOf s.coreId)
        (∀ v : BitVec 1, (clusterFlagSeen s n = decide (v = 1) → CompletesWith (.fwaitReg v ⟨a, 1⟩) s 1 id)
          ∧ (clusterFlagSeen s n ≠ decide (v = 1) → Waits (.fwaitReg v ⟨a, 1⟩) s))
        ∧ (flagBit (clusterBefore u (cyc s)) n = true ∧ flagBit u.flags n = true → CompletesWith (.fwaitaReg ⟨a, 1⟩) s 8 (setClusterFlag n false))
        ∧ (flagBit u.flags n = false → Waits (.fwaitaReg ⟨a, 1⟩) s)))

/-- R361, R178, R179: QPUT appends a payload or a token where the queue of 16 has room, and waits where it has none. QGET takes the oldest entry that
can be read, a token as 0; QPEEK leaves it there, and gives 0 for an empty queue; QCNT counts the readable entries, with TOKEN and POISON of the first.
A poisoned entry is not taken: QGET and QPEEK trap. -/
def Obligations.QueueOperations : Prop :=
  ∀ (s : State) (q : BitVec 4),
    let x := readQ s q
    let c := cyc s
    let room : Prop := x.entries.length + (if x.freedAt = c then x.freedN else 0) < 16
    let ready := x.entries.filter fun e => e.stamp < c
    (room → (∀ a, CompletesWith (.qput a q) s 1
        (writeQ q { x with entries := x.entries ++ [{ payload := readG s a, token := false, poison := false, stamp := c }] }))
      ∧ CompletesWith (.qputToken q) s 1 (writeQ q { x with entries := x.entries ++ [{ payload := 0, token := true, poison := false, stamp := c }] }))
    ∧ (¬ room → (∀ a, Waits (.qput a q) s) ∧ Waits (.qputToken q) s)
    ∧ (ready = [] → ∀ d, Waits (.qget d q) s ∧ WritesG (.qpeek d q) s d 0 1 ∧ WritesG (.qcnt d q) s d 0 1)
    ∧ (∀ e rest, ready = e :: rest → ∀ d,
      let value : Dword := if e.token then 0 else e.payload
      WritesG (.qcnt d q) s d (BitVec.ofNat 64 (ready.length + (if e.token then 256 else 0) + (if e.poison then 512 else 0))) 1
      ∧ (e.poison = false → WritesG (.qpeek d q) s d value 1
        ∧ CompletesWith (.qget d q) s 1 (fun s => writeG d value 1 (writeQ q (queuePop x c) s)))
      ∧ (e.poison = true → TrapsS (.qget d q) s .poison 0 ∧ TrapsS (.qpeek d q) s .poison 0))

/-- R362: LDSL and STSL act on one of 4,096 words of slot memory, which reads as last written; an index beyond 4,095 is an alignment fault.
R367, R183: RINGREL gives the state word of a stage and writes OWNER and FULL in one act; RINGACQ gives the state word once OWNER is g[b][7:0],
and waits till then. A stage that the enabled ring has not is an illegal instruction. -/
def Obligations.SlotMemoryAndRing : Prop :=
   (∀ (s : State) (o : RI),
      let i := (readG s o.a + BitVec.ofInt 64 o.imm.toInt).toNat
      let word (s : State) (j : Nat) : Dword := (assocGet s.core.slotMem j).getD 0
      (i ≤ 4095 → WritesG (.ldsl o) s o.d (word s i) 1
        ∧ ∃ t, exec (.stsl o) s = .next t ∧ Retires 1 s t ∧ (∀ j, word t j = if j = i then readG s o.d else word s j)
          ∧ t = modCore (fun k => placed t { k with slotMem := t.core.slotMem }) s ∧ SameMemory s t)
      ∧ (4095 < i → TrapsS (.ldsl o) s .alignment (BitVec.ofNat 64 i) ∧ TrapsS (.stsl o) s .alignment (BitVec.ofNat 64 i))
      ∧ (∀ p ∈ [(0x24, Instr.ldsl o), (0x25, .stsl o)],
          decode .s (BitVec.ofNat 32 (p.1 * 2 ^ 26 + o.d.toNat * 2 ^ 20 + o.a.toNat * 2 ^ 14 + o.imm.toNat)) = .ok p.2))
 ∧ (∀ (s : State) (o : R3),
      let st := (readG s o.a).toNat % 16
      let word := ringWord s.core.flagsPrev st
      (st < s.core.sys.ringLen.toNat →
        CompletesWith (.ringrel o) s 1 (fun s => writeG o.d (BitVec.ofNat 64 word) 1 (modCore (ringPut st ((readG s o.b).toNat % 512)) s))
        ∧ (word % 256 = (readG s o.b).toNat % 256 → WritesG (.ringacq o) s o.d (BitVec.ofNat 64 word) 1)
        ∧ (word % 256 ≠ (readG s o.b).toNat % 256 → Waits (.ringacq o) s))
      ∧ (s.core.sys.ringLen.toNat ≤ st → TrapsS (.ringacq o) s .illegal 0 ∧ TrapsS (.ringrel o) s .illegal 0)
      ∧ (∀ (w : Nat) (j : Nat), j < 9 → (ringPut st w s.core).flags.getLsbD (768 + 16 * st + j) = w.testBit j))

/-- R368, R336, R369, R370: MFS gives g[d] the register's value, that of TSLOT_VIEW readable a cycle later than the others.
R368: MTS writes TRAP_PC and TRAP_VEC at once, and posts the write of FP_CTL, FP_STICKY, SR_SEED, GATE_CTL, RING_CTL and TSLOT_SEL for the end of
the cycle. To every other register of R336 an MTS at user level is a privilege fault. -/
def Obligations.SystemRegisterAccesses : Prop :=
   (∀ (s : State) (d : GReg),
      (∀ r : BitVec 12, WritesG (.mfs d r) s d (mfsValue s r) (if r = 0x064 then 2 else 1))
      ∧ mfsValue s 0x010 = BitVec.ofNat 64 s.tick ∧ mfsValue s 0x011 = BitVec.ofNat 64 (cyc s)
      ∧ mfsValue s 0x012 = BitVec.ofNat 64 (s.now / 1024 % 2 ^ 32 * 2 ^ 32 + s.now % 1024)
      ∧ mfsValue s 0x020 = s.core.sys.taskId ∧ mfsValue s 0x030 = BitVec.ofNat 64 s.core.sys.world.toNat
      ∧ mfsValue s 0x040 = s.core.sys.trapCause ∧ mfsValue s 0x041 = s.core.sys.trapPc ∧ mfsValue s 0x042 = s.core.sys.trapAddr
      ∧ mfsValue s 0x043 = s.core.sys.trapCut ∧ mfsValue s 0x044 = s.core.sys.trapVec
      ∧ mfsValue s 0x050 = BitVec.ofNat 64 (s.core.sys.rmode.toNat * 256 + s.core.sys.trapen.toNat)
      ∧ mfsValue s 0x051 = BitVec.ofNat 64 s.core.sys.sticky.toNat ∧ mfsValue s 0x062 = BitVec.ofNat 64 s.core.sys.ringLen.toNat
      ∧ (∀ i : Fin 8, mfsValue s (BitVec.ofNat 12 (0x028 + i.val)) = s.core.sys.levelIdx[i.val])
      ∧ (mfsValue s 0x000).toNat = 2 ^ 60 + 24 * 2 ^ 54 + 16 * 2 ^ 49 + 1024 * 2 ^ 38 + 64 * 2 ^ 31 + 128 * 2 ^ 23 + calendarChannels s * 2 ^ 14
          + 4 * 2 ^ 10 + 8 * 2 ^ 6 + 18
      ∧ calendarChannels s ≤ 256 ∧ mfsValue s 0x001 = s.ident ++ (0x4B51 : BitVec 16) ++ s.stepping ++ s.modrev ++ BitVec.ofBool s.cfgDefaulted
      ∧ mfsValue s 0x031 = s.core.sys.wdogLimit ++ s.core.sys.wdogCount ∧ mfsValue s 0x052 = BitVec.ofNat 64 s.core.sys.srSeed.toNat
      ∧ mfsValue s 0x060 = BitVec.ofNat 64 s.core.sys.gateIdle.toNat ∧ mfsValue s 0x061 = 48
      ∧ mfsValue s 0x063 = BitVec.ofNat 64 s.core.sys.tslotSel.toNat
      ∧ (let x := getSlot s.core s.core.sys.tslotSel.toNat
         let y := (mfsValue s 0x064).toNat
         y % 2 ^ 16 = x.tag.toNat ∧ y / 2 ^ 16 % 2 ^ 4 = x.pend.toNat ∧ y.testBit 20 = decide (x.poison ≠ 0) ∧ y / 2 ^ 21 = x.owner.toNat)
      ∧ (∀ x, s.core.task = some x → ckptOf s x = none → mfsValue s 0x045 = 0)
      ∧ (∀ x k, s.core.task = some x → ckptOf s x = some k →
          mfsValue s 0x045 = BitVec.ofNat 64 (k.ord.toNat * 2 ^ 32 + k.rolls.toNat * 2 ^ 17 + k.irrev.toNat * 2 ^ 16 + ckptUsed k x % 2 ^ 16))
      ∧ (partOfCore s s.coreId = none → mfsValue s 0x002 = 0 ∧ mfsValue s 0x013 = 0)
      ∧ (partOfCore s s.coreId ≠ none → (mfsValue s 0x002).toNat % 4096 = 0 ∧ (mfsValue s 0x013).toNat % 128 = 1))
 ∧ (∀ (s : State) (a : GReg),
      let x := readG s a
      let c := cyc s
      CompletesWith (.mts a 0x041) s 1 (modSys fun y => { y with trapPc := x &&& 0xFFFFFFFFFFFFFFFC })
      ∧ CompletesWith (.mts a 0x044) s 1 (modSys fun y => { y with trapVec := x &&& 0xFFFFFFFFFFFFFFFD })
      ∧ CompletesWith (.mts a 0x050) s 1 (post c 0
          (.fpCtl (if x.toNat / 256 % 8 ≤ 4 then BitVec.ofNat 3 (x.toNat / 256) else s.core.sys.rmode) (BitVec.ofNat 6 x.toNat)))
      ∧ CompletesWith (.mts a 0x051) s 1 (post c 0 (.stickyClear (BitVec.ofNat 6 x.toNat)))
      ∧ CompletesWith (.mts a 0x052) s 1 (post c 0 (.srSeed (BitVec.ofNat 32 x.toNat)))
      ∧ CompletesWith (.mts a 0x060) s 1 (post c 0 (.gateIdle (BitVec.ofNat 16 x.toNat)))
      ∧ CompletesWith (.mts a 0x062) s 1 (post c 0 (.ringLen (BitVec.ofNat 5 (min (x.toNat % 32) 16))))
      ∧ CompletesWith (.mts a 0x063) s 1 (post c 0 (.tslotSel (BitVec.ofNat 7 x.toNat)))
      ∧ (∀ r : BitVec 12, r.toNat ∈ sysRegNumbers → r ∉ [0x041, 0x044, 0x050, 0x051, 0x052, 0x060, 0x062, (0x063 : BitVec 12)] →
          TrapsS (.mts a r) s .privilege 0))

/-! ### Traps and their return (10_traps R295 to R305; 12_isa_scalar R348, R349) -/

/-- R298, R299, R302, R304: a trap of the user row of R295, taken outside a handler by a task with a save area while TRAP_VEC.EN is 1, takes the cut in
this cycle at the pc. Where nothing that the core has issued or started is still to complete, it leaves TRAP_CAUSE, TRAP_PC and TRAP_ADDR as R302 lays
them out, with HANDLER at 1, and sends the S stream to TRAP_VEC.ADDR 40 cycles later, and memory is that with the trap record written; else the task
stands still till then, with no other change. No general, address, flag or vector register changes in either case.
R298, R147: a task without a context save area fails at its first trap, with the trap's cause code. -/
def Obligations.TrapEntry : Prop :=
   (∀ (s : State) (tr : Trap) (l : Launch),
      tr.slot = none → inHandler s = false → taskLaunch s = some l → launchSave l ≠ 0 → causeDest tr.cause = .user →
      s.core.sys.trapVec.getLsbD 0 = true →
      let z := dropOthers (takeCut s)
      let t := takeTrap tr s
      (quiet z = false → t.core.hold = .entering tr ∧ t.core.cut = cyc s ∧ t.core.cutPc = s.core.pc ∧ t.core.sys = s.core.sys ∧ t.core.g = s.core.g
        ∧ t.core.b = s.core.b ∧ t.core.e = s.core.e ∧ t.core.v = s.core.v ∧ t.core.flags = s.core.flags ∧ SameMemory s t)
      ∧ (∀ u, quiet z = true → writeRecord tr false (modCore (fun k => { k with reissue := [] }) z) = some u →
        t.core.sys.trapCause = BitVec.ofNat 64 (causeCode tr.cause + tr.source * 2 ^ 8 + subCode tr.cause * 2 ^ 16 + tr.entry.toNat * 2 ^ 24 + 2 ^ 26)
        ∧ (tr.source < 4 → inHandler t = true)
        ∧ t.core.sys.trapPc = BitVec.ofNat 64 (tr.pc.toNat / 4 * 4) ∧ t.core.sys.trapAddr = tr.addr
        ∧ t.core.pc = BitVec.ofNat 64 (s.core.sys.trapVec.toNat / 4 * 4) ∧ t.core.xfer = none ∧ t.core.sReady = cyc s + 40
        ∧ t.core.hold = .handler ∧ t.core.cut = cyc s ∧ t.core.cutPc = s.core.pc
        ∧ t.core.g = s.core.g ∧ t.core.b = s.core.b ∧ t.core.e = s.core.e ∧ t.core.v = s.core.v ∧ t.core.flags = s.core.flags
        ∧ (∀ a, byteAt t a = byteAt u a)))
 ∧ (∀ (s : State) (tr : Trap) (l : Launch), tr.slot = none → inHandler s = false → taskLaunch s = some l → launchSave l = 0 →
      takeTrap tr s = failTask (causeCode tr.cause) (dropOthers (takeCut s)))

/-- R349, R348, R295: TRAP takes its trap with the code as SUB and the cut PC behind it.
R349, R320: NOP only moves on, and so does BREAK where debugging is not enabled or the task's partition is closed to it. -/
def Obligations.TrapNopAndBreak : Prop :=
   (∀ (s : State) (c : BitVec 8),
      exec (.trap c) s = .next (takeTrap { cause := .trapInstr c, source := 0, pc := s.core.pc } (sNext s))
      ∧ causeCode (.trapInstr c) = 0x0F ∧ subCode (.trapInstr c) = c.toNat ∧ causeDest (.trapInstr c) = .user
      ∧ (s.core.xfer = none → (sNext s).core.pc = s.core.pc + 4))
 ∧ (∀ (s : State), CompletesWith .nop s 1 id
      ∧ (s.core.sys.dbgEn = false ∨ debugClosed s = true → CompletesWith .brk s 1 id)
      ∧ (s.core.sys.dbgEn = true → debugClosed s = false → TrapsS .brk s .debugBreak 0))

/-- R300, R305: ERET with HANDLER at 1 clears it and acts on the resume action of the trap record. REPLAY resumes the S stream at the cut PC in the next
cycle, with each column as far behind as it was at the cut; RESTART goes on at TRAP_PC with the task's strips and unstarted commands discarded. With
HANDLER at 0 it is an illegal instruction. -/
def Obligations.ReturnFromHandler : Prop :=
  ∀ (s : State),
    (inHandler s = false → TrapsS .eret s .illegal 0)
    ∧ (inHandler s = true → s.core.xfer = none → resumeAction s = some 0 →
      ∃ t, exec .eret s = .next t ∧ inHandler t = false ∧ t.core.hold = .none ∧ t.core.pc = s.core.cutPc ∧ t.core.xfer = s.core.cutXfer
        ∧ t.core.sReady = cyc s + 1 ∧ t.core.g = s.core.g ∧ t.core.flags = s.core.flags
        ∧ (∀ (c : Col) (r : Running), (getCol s.core c).run = some r →
          (getCol t.core c).run = some { r with next := cyc s + 1 + (r.next - s.core.cut) })
        ∧ SameMemory s t)
    ∧ (inHandler s = true → s.core.xfer = none → resumeAction s = some 2 → (∀ r ∈ s.running, r.core ≠ s.coreId) →
      ∃ t, exec .eret s = .next t ∧ inHandler t = false ∧ t.core.hold = .none ∧ t.core.pc = s.core.sys.trapPc ∧ t.core.xfer = none
        ∧ t.core.sReady = cyc s + 1 ∧ t.core.g = s.core.g ∧ t.core.flags = s.core.flags
        ∧ (∀ c : Col, (getCol t.core c).run = none ∧ (getCol t.core c).queue = []) ∧ (∀ i : Fin 10, t.core.engQ[i] = []) ∧ SameMemory s t)

/-! ### Tasks (12_isa_scalar R350, R351, R363 to R366; 05_partitions_scheduler R143, R155, R156; 16_isa_engines R435, R436) -/

/-- R350: EXIT goes through its steps in order. It closes the open strip group, waits for the columns, then for the engine commands, then for its
accesses, and then ends the task: the core is free, and its launch counts one more ended task.
R351: YIELD outside a handler moves on, and stops its gang where a gang of its class or a lower-numbered one waits for the cluster. -/
def Obligations.ExitAndYield : Prop :=
   (∀ (s : State),
      (s.core.phase = 0 → inHandler s = false → ∃ t, exec .exit s = .next t ∧ t.core.phase = 1 ∧ t.core.openGrp = none ∧ t.core.pc = s.core.pc)
      ∧ (s.core.phase = 1 → (columnsDone s.core = true → ∃ t, exec .exit s = .next t ∧ t.core.phase = 4) ∧ (columnsDone s.core = false → Waits .exit s))
      ∧ (s.core.phase = 4 → (enginesDone s = true → ∃ t, exec .exit s = .next t ∧ t.core.phase = 5) ∧ (enginesDone s = false → Waits .exit s))
      ∧ (s.core.phase = 5 → (drained s.core true true = false → Waits .exit s)
        ∧ (drained s.core true true = true → exec .exit s = .next (endTask (releasePoint s s.coreId 2 .other []) s.coreId)
          ∧ ∀ k, s.core.task = some k → ∃ t, exec .exit s = .next t ∧ t.core.task = none ∧ t.core.colC.run = none ∧ t.core.g = s.core.g)))
 ∧ (∀ (s : State) (k : TaskRef) (l : Launch), s.core.task = some k → taskLaunch s = some l →
      (inHandler s = true → TrapsS .yieldGang s .illegal 0)
      ∧ (inHandler s = false → yieldTo s (clusterOf s.coreId) (launchClass l) = false → CompletesWith .yieldGang s 1 id)
      ∧ (inHandler s = false → yieldTo s (clusterOf s.coreId) (launchClass l) = true →
        ∃ t, exec .yieldGang s = .next t ∧ Retires 1 s t ∧ t.core.g = s.core.g
          ∧ (∀ g ∈ t.gangs, g.id = k.gang → g.st ≠ .resident)
          ∧ t.gangs.map (·.id) = s.gangs.map (·.id) ∧ SameMemory s t))

/-- R156, R155, R157: LAUNCH of a valid record in a pool with room gives the launch number in g[d][63:32] 180 cycles later, and the
pool holds the record; a full pool gives status FULL to LAUNCH, and parks the task of a LAUNCHW, which is tried again. An invalid record gives BADCMD. -/
def Obligations.LaunchInstructions : Prop :=
  ∀ (s : State) (o : R2) (k : TaskRef) (own : Launch) (bs : List Byte) (x : Nat × Nat × Nat × Pte × Nat) (xs : List (Nat × Nat × Nat × Pte × Nat)),
    let va := (readG s o.a).toNat
    s.core.task = some k → taskLaunch s = some own → inHandler s = false → va % 256 = 0 →
    xlateSpan s s.core.sys.world va 256 false = .ok (x :: xs) → readRecord s (.ok (x :: xs)) = .ok bs → tlbHolds s.core s.core.sys.world va = true →
    recordHeld s (.ok (x :: xs)) = false → recordMissing s (.ok (x :: xs)) = none → s.core.phase ≠ 3 → s.core.loads = [] → s.core.stores = [] → s.core.timed = [] →
    let bits := BitVec.ofNat 2048 (leNat bs)
    launchWorld (Launch.accept 0 bits []) = s.core.sys.world →
    let answered (i : Instr) (v : Dword) : Prop :=
      ∃ t, exec i s = .next t ∧ readG t o.d = (if o.d = 0 then 0 else v) ∧ (∀ r, r ≠ o.d → readG t r = readG s r)
        ∧ t.core.sReady = cyc s + 180
    let fit := validLaunch s k.part bits = true ∧ launchClass own ≤ launchClass (Launch.accept 0 bits [])
    (¬ fit → answered (.launch o) (BitVec.ofNat 64 stBadcmd) ∧ answered (.launchw o) (BitVec.ofNat 64 stBadcmd))
    ∧ (fit → poolFull s k.part = true →
      answered (.launch o) (BitVec.ofNat 64 stFull)
      ∧ ∃ t, exec (.launchw o) s = .next t ∧ t.core.hold = .parking ∧ t.core.pc = s.core.pc ∧ t.core.cutPc = s.core.pc ∧ t.core.g = s.core.g)
    ∧ (fit → poolFull s k.part = false → k.part < 16 →
      let n := (getPart s k.part).nextLaunch
      answered (.launch o) (BitVec.ofNat 64 (n.toNat * 2 ^ 32)) ∧ answered (.launchw o) (BitVec.ofNat 64 (n.toNat * 2 ^ 32))
      ∧ ∀ t, exec (.launch o) s = .next t → (getPart t k.part).launches.map (·.num) = (getPart s k.part).launches.map (·.num) ++ [n])

/-- R365, R313: MEET at a level of the task's launch that has a barrier. Every form but WAIT records the arrival, after the accesses before it, and, where
it takes a checkpoint, the work before it: ARRIVE then moves on, and the other forms wait. A WAIT with no arrival outstanding moves on at once, and one
whose barrier is complete ends its wait. A level without a barrier, and the checkpoint form at a level whose BARRIER is not 2,
are illegal instructions. -/
def Obligations.MeetForms : Prop :=
  ∀ (s : State) (o : RMeet) (k : TaskRef) (l : Launch), s.core.task = some k → taskLaunch s = some l →
    let lv := o.l.toNat
    (launchLevels l ≤ lv ∨ levelBarrier l lv = 0 ∨ (o.f = 3 ∧ levelBarrier l lv ≠ 2) ∨ inHandler s = true → TrapsS (.meet o) s .illegal 0)
    ∧ (lv < launchLevels l → levelBarrier l lv ≠ 0 → inHandler s = false → (o.f = 3 → levelBarrier l lv = 2) →
      (o.f = 1 ∨ s.core.phase = 2 → arrivalOf s k lv = none → CompletesWith (.meet o) s 1 id)
      ∧ (∀ a, o.f = 1 ∨ s.core.phase = 2 → arrivalOf s k lv = some a → a.viewLost = false → a.complete = true →
        ∃ t, exec (.meet o) s = .next t ∧ t = meetEnd k lv a s ∧ Retires 1 s t ∧ arrivalOf t k lv = none ∧ t.core.g = s.core.g
          ∧ t.core.flags = s.core.flags ∧ SameMemory s t)
      ∧ (∀ a, o.f = 1 ∨ s.core.phase = 2 → arrivalOf s k lv = some a → a.viewLost = false → a.complete = false →
        ∃ t, exec (.meet o) s = .next t ∧ t = modCore (fun c => { c with phase := 2, sReady := cyc s + 1 }) s)
      ∧ (o.f ≠ 1 → s.core.phase = 0 → (∀ a, arrivalOf s k lv = some a → a.complete = true) →
        (takesCkpt s k l lv o.f.toNat = true → workDone s.core = true) → s.core.loads = [] → s.core.stores = [] → s.core.timed = [] →
        ∃ t a, exec (.meet o) s = .next t ∧ arrivalOf t k lv = some a ∧ a.complete = false ∧ a.viewLost = false
          ∧ a.ckpt = takesCkpt s k l lv o.f.toNat ∧ a.seqs = s.core.engSeq.toList.map (·.toNat)
          ∧ (o.f = 0 → Retires 1 s t) ∧ (o.f ≠ 0 → t.core.phase = 2 ∧ t.core.pc = s.core.pc ∧ t.core.sReady = cyc s + 1)
          ∧ t.core.g = s.core.g ∧ t.core.flags = s.core.flags ∧ SameMemory s t))

/-- R435, R436, R438: PUSH of a record of the task's world with an aligned object clears its queue-full flag and appends the record to the engine's
queue, under the next sequence number, where the queue has room; where it has none it sets the flag and drops the record. In a handler it is an illegal
instruction, a record of another world, or of one that is no longer live in the partition (03 R93), is a world fault, and an object that is not a multiple
of 16, or a tagged destination that is not within one tile slot (R443), is an alignment fault. -/
def Obligations.PushCommands : Prop :=
  ∀ (s : State) (o : RPush), reject? (.push o) = none →
    let r := pushRecord s o.a
    let i := engineIndex o.e.toNat
    let q := s.core.engQ.toList.getD i []
    let ours : Prop := cmdWorld r = s.core.sys.world ∧ ∀ k, s.core.task = some k → liveIn s (cmdWorld r) k.part = true
    (inHandler s = true → TrapsS (.push o) s .illegal 0)
    ∧ (inHandler s = false → ¬ ours → TrapsS (.push o) s .world 0)
    ∧ (inHandler s = false → ours → cmdObject r % 16 ≠ 0 →
      TrapsS (.push o) s .alignment (BitVec.ofNat 64 (cmdObject r)))
    ∧ (∀ x, inHandler s = false → ours → cmdObject r % 16 = 0 → taggedSpan s o.e.toNat r = some x → inOneSlot x = false →
      TrapsS (.push o) s .alignment 0)
    ∧ (inHandler s = false → ours → cmdObject r % 16 = 0 →
      (∀ x, taggedSpan s o.e.toNat r = some x → inOneSlot x = true) →
      (coreQueueSize i ≤ coreQueueLoad q → FlagBecomes (.push o) s o.f.toNat true)
      ∧ (coreQueueLoad q < coreQueueSize i →
        ∃ t e, exec (.push o) s = .next t ∧ Retires 1 s t ∧ t.core.engQ.toList.getD i [] = q ++ [e] ∧ e.bits = r ∧ e.accepted = none
          ∧ e.seq = s.core.engSeq.toList.getD i 0 ∧ t.core.engSeq.toList.getD i 0 = e.seq + 1
          ∧ (flagWritable s.core o.f.toNat = true → t.core.flags.getLsbD o.f.toNat = false)
          ∧ t.core.g = s.core.g ∧ SameMemory s t))

/-- R363, R169 to R171: STRIP queues a strip with its count into the open group of its column's queue, or waits while the queue holds four. A count above
65,535, a header of another form, and a column already in the open group are illegal instructions; a count of 0 queues nothing. With J = 0 the group is
closed, with a count of 0 too. A header that cannot be fetched is the fault of its fetch. -/
def Obligations.StripQueueing : Prop :=
  ∀ (s : State) (o : RStrip) (w : Word), reject? (.strip o) = none →
    let n := (readG s o.g).toNat
    let col := colOfCode o.c
    let hdr := (getCol s.core col).entry + BitVec.ofNat 64 (4 * o.o.toNat)
    let here := ((openGroup s.core).map (·.cols)).getD []
    let header := w.toNat / 65536 = 0xC57A ∧ w.toNat / 4096 % 16 = 0
    (inHandler s = true ∨ 65535 < n → TrapsS (.strip o) s .illegal 0)
    ∧ (inHandler s = false → n ≤ 65535 → fetchWord s hdr = .ok w →
      (¬ header ∨ col ∈ here → TrapsS (.strip o) s .illegal 0)
      ∧ (header → col ∉ here →
        (n ≠ 0 → 4 ≤ (getCol s.core col).queue.length → Waits (.strip o) s)
        ∧ (n ≠ 0 → (getCol s.core col).queue.length < 4 →
          ∃ t, exec (.strip o) s = .next t ∧ Retires 1 s t
            ∧ (∃ g, (getCol t.core col).queue = (getCol s.core col).queue
                ++ [{ hdr := hdr, len := w.toNat % 4096 + 1, count := n, grp := g, body := none, fault := none }])
            ∧ (o.j = 0 → t.core.openGrp = none) ∧ (o.j = 1 → t.core.openGrp ≠ none)
            ∧ t.core.g = s.core.g ∧ t.core.flags = s.core.flags ∧ SameMemory s t)
        ∧ (n = 0 → CompletesWith (.strip o) s 1 (if o.j = 1 then id else modCore (closeGroup (cyc s) (some o.l.toNat))))))
    ∧ (∀ f, inHandler s = false → n ≤ 65535 → fetchWord s hdr = .error f → exec (.strip o) s = .next (sFail f s))

/-- R364: CWAIT on an aligned object that has reached or passed its target completes 4 cycles after the read, with the acquire of R281 and no other
change; on one that has not, it reads again. An address that is not a multiple of 8 is an alignment fault. -/
def Obligations.CompletionWaits : Prop :=
  ∀ (s : State) (o : RWait),
    let va := (readG s o.a).toNat
    (s.core.phase ≠ 3 → va % 8 ≠ 0 → TrapsS (.cwait o) s .alignment (readG s o.a))
    ∧ (∀ (p : Pte) (pa : Nat) (bs : List Byte), s.core.phase ≠ 3 → va % 8 = 0 → xlate s s.core.sys.world va false false = .ok (p, pa) →
      tlbHolds s.core s.core.sys.world va = true → accessWaits s s.coreId pa = false → isRemote s pa = false → readObject s p pa va 8 = .ok bs →
      ((leNat bs + 2 ^ 64 - (readG s o.b).toNat) % 2 ^ 64 < 2 ^ 63 → CompletesWith (.cwait o) s 4 (joinObject p pa va))
      ∧ (¬ (leNat bs + 2 ^ 64 - (readG s o.b).toNat) % 2 ^ 64 < 2 ^ 63 → Waits (.cwait o) s))

/-! ### Loads, stores, atomics and fences of the S stream (15_isa_memory R411 to R421, 09_memory_model R286 to R289, 07_serving_structures R230, R231) -/

/-- R415, R411: a load or store whose address is not a multiple of its size is an alignment fault in every space, ST in space cn is an illegal
instruction, and ST in space wt a permission fault.
R411, R415, R416, R273: in space sp, LD and LDZ give the bytes of the scratchpad, with the writes of this cycle and before, two cycles on; ST puts
its bytes there with effect cycle issue + 2.
R411, R230, R191, R415: the other spaces and ranges of LDZ and ST: the flag array is read at the end of the cycle, a pattern slot as it stands, a
counter of the core's bank at once, a weight-store line of a bank that the partition owns; a bank of another world is a world fault, and a
weight-store bank of another partition a permission fault. -/
def Obligations.LocalLoadsAndStores : Prop :=
   (∀ (s : State),
      (∀ o : RMem,
        let va := (readG s o.a + BitVec.ofInt 64 (o.o.toInt * 2 ^ o.z.toNat)).toNat
        va = memAddr s o.a o.z o.o
        ∧ (va % 2 ^ o.z.toNat ≠ 0 → TrapsS (.ld o) s .alignment (BitVec.ofNat 64 va) ∧ TrapsS (.ldz o) s .alignment (BitVec.ofNat 64 va)
          ∧ (o.p ≠ 3 → TrapsS (.st o) s .alignment (BitVec.ofNat 64 va)))
        ∧ (o.p = 3 → TrapsS (.st o) s .illegal 0)
        ∧ (o.p = 2 → va % 2 ^ o.z.toNat = 0 → TrapsS (.st o) s .permission (BitVec.ofNat 64 va)))
      ∧ (∀ o : RMemNc, memAddr s o.a o.z o.o % 2 ^ o.z.toNat ≠ 0 → TrapsS (.ldnc o) s .alignment (BitVec.ofNat 64 (memAddr s o.a o.z o.o))))
 ∧ (∀ (s : State) (o : RMem),
      let size := 2 ^ o.z.toNat
      let va := memAddr s o.a o.z o.o
      let k := localView (cyc s) s.core
      let v := leNat (cellRead k.sp va size)
      o.p = 0 → va % size = 0 → va < 0x80000 →
        (spPoison k va = false → LoadsG (.ldz o) s o.d (BitVec.ofNat 64 v) 2
          ∧ LoadsG (.ld o) s o.d (BitVec.ofInt 64 (if v < 2 ^ (8 * size - 1) then (v : Int) else (v : Int) - 2 ^ (8 * size))) 2)
        ∧ (spPoison k va = true → TrapsS (.ld o) s .poison (BitVec.ofNat 64 (va / 64 * 64)) ∧ TrapsS (.ldz o) s .poison (BitVec.ofNat 64 (va / 64 * 64)))
        ∧ CompletesWith (.st o) s 1 (post (cyc s + 2) 0 (.localWrite va (leBytes size (readG s o.d).toNat) false)))
 ∧ (∀ (s : State) (o : RMem),
      let size := 2 ^ o.z.toNat
      let va := memAddr s o.a o.z o.o
      let c := counterAt va
      va % size = 0 →
        (o.p = 0 → 0x80000 ≤ va → va < 0x80200 → CompletesWith (.ldz o) s 2 (post (cyc s) 99 (.flagLoad o.d va size false))
          ∧ CompletesWith (.ld o) s 2 (post (cyc s) 99 (.flagLoad o.d va size true))
          ∧ CompletesWith (.st o) s 1 (post (cyc s + 2) 0 (.localWrite va (leBytes size (readG s o.d).toNat) false)))
        ∧ (o.p = 0 → 0x80800 ≤ va → va < 0x80A00 → LoadsG (.ldz o) s o.d (BitVec.ofNat 64 (leNat (localGet (localView (cyc s) s.core) va size))) 2)
        ∧ (o.p = 0 → 0x81000 ≤ va → va < 0x81400 → size = 4 →
          (bankOk s = true → LoadsG (.ldz o) s o.d (BitVec.ofNat 64 (counterGet s c)) 2
            ∧ ∃ t, exec (.st o) s = .next t ∧ Retires 1 s t ∧ counterGet t c = (readG s o.d).toNat % 2 ^ 32 ∧ (∀ j, j ≠ c → counterGet t j = counterGet s j)
              ∧ t.core.g = s.core.g ∧ SameMemory s t)
          ∧ (bankOk s = false → TrapsS (.ldz o) s .world (BitVec.ofNat 64 va) ∧ TrapsS (.st o) s .world (BitVec.ofNat 64 va)))
        ∧ (o.p = 2 → va < 0x40000000 →
          (bankOwned s (va / 2 ^ 24) = true → (lineAt s (weightPa s va) 0).poison = false →
            LoadsG (.ldz o) s o.d (BitVec.ofNat 64 (leNat (((lineAt s (weightPa s va) 0).bytes.drop (va % 64)).take size))) (coreCycles s s.coreId 60))
          ∧ (bankOwned s (va / 2 ^ 24) = false → TrapsS (.ldz o) s .permission (BitVec.ofNat 64 va))))

/-- R415, R412, R97, R282: in space gl, a load whose page and line pass every check gives the bytes that lie at its home where the read cache does not
hold the line, and the cached bytes where it does. LDNC always reads the home. A poisoned cached line traps. Latencies of the home are at least 80 cycles
of the 1.6 GHz clock.
R415, R412, R129: ST in space gl, with every check passed, writes its bytes at the home of its line, and no other byte of memory (while no migration
copies the page) but the entry of a checkpoint log that R315 has written before it; the line's other bytes read as before, and no register or flag
changes. -/
def Obligations.GlobalLoadsAndStores : Prop :=
   (∀ (s : State) (d a : GReg) (z : BitVec 2) (off : BitVec 10) (p : Pte) (pa : Nat),
      let size := 2 ^ z.toNat
      let va := memAddr s a z off
      let ldz : Instr := .ldz ⟨d, a, z, 1, off⟩
      let ldnc : Instr := .ldnc ⟨d, a, z, off⟩
      s.core.phase ≠ 3 → va % size = 0 → xlate s s.core.sys.world va false false = .ok (p, pa) → tlbHolds s.core s.core.sys.world va = true →
      ownPending s.core pa = false →
        (∀ bs, isRemote s pa = false → accessWaits s s.coreId pa = false → readHome s (taskAgent s) va size = (s, .ok bs) →
          (cacheGet s.core.readCache va = none → LoadsG ldz s d (BitVec.ofNat 64 (leNat bs)) (coreCycles s s.coreId 80))
          ∧ LoadsG ldnc s d (BitVec.ofInt 64 (sNat (8 * size) (leNat bs))) (coreCycles s s.coreId 80))
        ∧ (∀ c, cacheGet s.core.readCache va = some c → cachedFail s p pa va c = none →
          (cachedPoison c = false → LoadsG ldz s d (BitVec.ofNat 64 (leNat (((leBytes 64 c.data.toNat).drop (va % 64)).take size))) 6)
          ∧ (cachedPoison c = true → exec ldz s = .next (sFail (failAt .poison (va / 64 * 64)) s))))
 ∧ (∀ (s u : State) (d a : GReg) (z : BitVec 2) (off : BitVec 10) (p : Pte) (pa : Nat),
      let size := 2 ^ z.toNat
      let va := memAddr s a z off
      let home := lineOf pa + va % 64
      va % size = 0 → xlate s s.core.sys.world va true false = .ok (p, pa) → tlbHolds s.core s.core.sys.world va = true → ownPending s.core pa = false →
      writeWaits s s.coreId pa = false → writeHome s (taskAgent s) va (leBytes size (readG s d).toNat) (some (coreStamp s s.coreId)) false s.core.task = .ok u →
      (∀ m ∈ s.migrations, m.src ≠ pageOf (lineOf pa)) →
        ∃ t, exec (.st ⟨d, a, z, 1, off⟩) s = .next t ∧ Retires 1 s t ∧ Holds t home size (readG s d).toNat ∧ WritesInLine home size p.keySlot s.core.task s t
          ∧ t.core.g = s.core.g ∧ t.core.flags = s.core.flags ∧ t.core.sys = s.core.sys ∧ t.side = u.side)

/-- R417, R418: an atomic on a gl word gives g[d] the old value and leaves the operation's result in memory; ACAS writes only where the old value is the
expected one. It takes at least 200 cycles of the 1.6 GHz clock.
R417: the operations of ATOM on the old value and the operand, modulo the word's size. -/
def Obligations.Atomics : Prop :=
   (∀ (s : State) (o : RAtom) (q : RCas) (p : Pte) (pa : Nat) (addr d : GReg) (size va : Nat) (i : Instr) (new : Nat → Option Nat),
      (i = .atom o ∧ reject? i = none ∧ addr = o.a ∧ d = o.d ∧ size = 4 * (o.z.toNat + 1)
          ∧ new = (fun old => atomResult o.o.toNat size old ((readG s o.d).toNat % 2 ^ (8 * size)) 0)
        ∨ i = .acas q ∧ addr = q.a ∧ d = q.d ∧ size = 4 * (q.z.toNat + 1)
          ∧ new = (fun old => if old = (readG s q.d).toNat % 2 ^ (8 * size) then some ((readG s q.b).toNat % 2 ^ (8 * size)) else none)) →
      va = (readG s addr).toNat → va % size = 0 → 0x100000 ≤ va → s.core.phase ≠ 3 → s.core.loads = [] → s.core.stores = [] → s.core.timed = [] →
      xlate s s.core.sys.world va false false = .ok (p, pa) → xlate s s.core.sys.world va true false = .ok (p, pa) →
      tlbHolds s.core s.core.sys.world va = true → isRemote s pa = false → writeWaits s s.coreId pa = false →
      (∀ m ∈ s.migrations, m.src ≠ pageOf (lineOf pa)) →
      let l := lineAt s pa p.keySlot
      worldReads s s.core.sys.world p l = true → worldWrites s s.core.sys.world p l = true → l.poison = false →
      let old := leNat ((l.bytes.drop (va % 64)).take size)
      let home := lineOf pa + va % 64
      ∃ t n, exec i s = .next t ∧ coreCycles s s.coreId 200 ≤ n ∧ readG t d = (if d = 0 then 0 else BitVec.ofNat 64 old) ∧ (∀ r, r ≠ d → readG t r = readG s r) ∧ Retires n s t
        ∧ t.core.flags = s.core.flags
        ∧ (∀ v, new old = some v → Holds t home size v ∧ WritesInLine home size p.keySlot s.core.task s t) ∧ (new old = none → SameMemory s t))
 ∧ (∀ (size old x : Nat), (size = 4 ∨ size = 8) → old < 2 ^ (8 * size) → x < 2 ^ (8 * size) →
      let w := 8 * size
      let signed (n : Nat) : Int := if n < 2 ^ (w - 1) then (n : Int) else (n : Int) - 2 ^ w
      atomResult 0 size old x 0 = some ((old + x) % 2 ^ w)
      ∧ (∃ v, atomResult 1 size old x 0 = some v ∧ signed v = min (signed old) (signed x))
      ∧ (∃ v, atomResult 2 size old x 0 = some v ∧ signed v = max (signed old) (signed x))
      ∧ atomResult 3 size old x 0 = some (min old x) ∧ atomResult 4 size old x 0 = some (max old x) ∧ atomResult 5 size old x 0 = some (old &&& x)
      ∧ atomResult 6 size old x 0 = some (old ||| x) ∧ atomResult 7 size old x 0 = some (old ^^^ x) ∧ atomResult 8 size old x 0 = some x)

/-- R419, R232: AAGG on a counter, or on a gl word whose checks pass, joins the open window of its target or opens one of 16 cycles, and waits for its
close; RCSNAP copies counters to memory and clears them in one act (R420, R231). -/
def Obligations.AggregationAndCounterSnapshots : Prop :=
  ∀ (s : State),
    (∀ (o : RAgg),
      let va := (readG s o.a).toNat
      let part : Participant := { core := s.coreId, dest := o.d, addend := readG s o.d, acquire := decide (o.r = 1), scope := o.s.toNat }
      s.core.phase ≠ 3 → o.z = 0 → va % 4 = 0 → 0x81000 ≤ va → va < 0x81400 → bankOk s = true →
      ∃ t w, exec (.aagg o) s = .next t ∧ t.core.phase = 3 ∧ t.core.pc = s.core.pc ∧ t.core.g = s.core.g
        ∧ w ∈ t.windows ∧ w.cluster = clusterOf s.coreId ∧ w.addr = va ∧ part ∈ w.parts ∧ cyc s < w.close
        ∧ ((∀ x ∈ s.windows, ¬ (x.cluster = clusterOf s.coreId ∧ x.addr = va ∧ x.isCounter = true ∧ x.size = 4 ∧ cyc s < x.close)) →
          w.close = cyc s + 16 ∧ w.parts = [part]) ∧ SameMemory s t)
    ∧ (∀ (o : RAgg) (p : Pte) (pa : Nat),
      let va := (readG s o.a).toNat
      let size := 4 * (o.z.toNat + 1)
      let part : Participant := { core := s.coreId, dest := o.d, addend := readG s o.d, acquire := decide (o.r = 1), scope := o.s.toNat }
      let l := lineAt s pa p.keySlot
      s.core.phase ≠ 3 → va % size = 0 → 0x100000 ≤ va → xlate s s.core.sys.world va false false = .ok (p, pa) → isRemote s pa = false →
      xlate s s.core.sys.world va true false = .ok (p, pa) → tlbHolds s.core s.core.sys.world va = true → ownPending s.core pa = false →
      switching s pa = false → worldReads s s.core.sys.world p l = true → worldWrites s s.core.sys.world p l = true → l.poison = false →
      ∃ t w, exec (.aagg o) s = .next t ∧ t.core.phase = 3 ∧ t.core.pc = s.core.pc ∧ t.core.g = s.core.g
        ∧ w ∈ t.windows ∧ w.cluster = clusterOf s.coreId ∧ w.addr = pa ∧ w.isCounter = false ∧ part ∈ w.parts ∧ cyc s < w.close ∧ SameMemory s t)
    ∧ (∀ (o : RSnap) (ls : List (Nat × Nat × Nat × Pte × Nat)) (u : State),
      let va := (readG s o.a).toNat
      let first := (readG s o.b).toNat % 256
      let cnt := o.n.toNat + 1
      first + cnt ≤ 256 → va % 4 = 0 → 0x100000 ≤ va → xlateSpan s s.core.sys.world va (4 * cnt) true = .ok ls →
      (∀ x ∈ ls, tlbHolds s.core s.core.sys.world x.1 = true ∧ ownPending s.core x.2.2.2.2 = false
        ∧ writeWaits s s.coreId x.2.2.2.2 = false) → bankOk s = true →
      writeHome (takeBank s) (taskAgent (takeBank s)) va ((List.range cnt).flatMap fun i => leBytes 4 (counterGet (takeBank s) (first + i)))
        (some (coreStamp (takeBank s) s.coreId)) false s.core.task = .ok u →
      ∃ t n, exec (.rcsnap o) s = .next t ∧ coreCycles s s.coreId 80 ≤ n ∧ Retires n s t ∧ (∀ a, byteAt t a = byteAt u a)
        ∧ (∀ i, first ≤ i → i < first + cnt → counterGet t i = 0)
        ∧ (∀ i, i < 256 → i < first ∨ first + cnt ≤ i → counterGet t i = counterGet s i) ∧ t.core.g = s.core.g)

/-- R421, R288, R289, R280, R281: a fence at scope core completes at once and changes nothing else; a wider one completes once the earlier accesses that it
orders are performed, and waits till then. FENCE.ACQ merges the pending acquires into the sync vector, FENCE.REL makes a release point, FENCE.INV empties
the read cache. FENCE.SC at scope core or dom is an illegal instruction, and at another scope it sends its drain mark after its drain. -/
def Obligations.Fences : Prop :=
  ∀ (s : State) (c : BitVec 2),
    let m := markFence s
    (c = 0 → CompletesWith (.fenceAcq c) s 1 id ∧ CompletesWith (.fenceRel c) s 1 id ∧ CompletesWith (.fenceAr c) s 1 id)
    ∧ (c ≠ 0 →
      (drained m.core true false = true →
        ∃ t, exec (.fenceAcq c) s = .next t ∧ Retires 1 s t ∧ t.core.race.v = mergeCounts s.core.race.v s.core.race.p ∧ t.core.race.p = []
          ∧ t.core.g = s.core.g ∧ SameMemory s t)
      ∧ (drained m.core true false = false → exec (.fenceAcq c) s = .next (sBlock m))
      ∧ (drained m.core true true = true →
        (∃ t, exec (.fenceRel c) s = .next t ∧ Retires 1 s t ∧ t.core.race.own = s.core.race.own + 1 ∧ t.core.relArmed = true
          ∧ t.core.g = s.core.g ∧ SameMemory s t)
        ∧ (∃ t, exec (.fenceAr c) s = .next t ∧ Retires 1 s t ∧ t.core.race.own = s.core.race.own + 1 ∧ t.core.race.p = []
          ∧ t.core.g = s.core.g ∧ SameMemory s t))
      ∧ (drained m.core true true = false → exec (.fenceRel c) s = .next (sBlock m) ∧ exec (.fenceAr c) s = .next (sBlock m)))
    ∧ (drained m.core true false = true → ∃ t, exec (.fenceInv c) s = .next t ∧ Retires 65 s t ∧ t.core.readCache = [] ∧ t.core.g = s.core.g ∧ SameMemory s t)
    ∧ (c = 0 ∨ c = 3 → TrapsS (.fenceSc c) s .illegal 0)
    ∧ (c = 1 ∨ c = 2 → s.core.phase ≠ 2 → drained m.core true true = true →
      ∃ t f, exec (.fenceSc c) s = .next t ∧ t.scFences = s.scFences ++ [f] ∧ f.core = s.coreId ∧ f.scope = c.toNat ∧ t.core.phase = 2 ∧ t.core.pc = s.core.pc
        ∧ t.core.race.own = s.core.race.own + 1 ∧ SameMemory s t)
    ∧ (c = 1 ∨ c = 2 → s.core.phase = 2 → (∀ f ∈ s.scFences, f.core ≠ s.coreId) → CompletesWith (.fenceSc c) s 1 id)

/-! ### Columns: common words (11_isa_formats R338, 13_isa_vector R392) -/

/-- R338, R392, R178, R181, R173: the common words of a column. QPUT appends a token, an e register's address and tag, the first 8 bytes of a v register
with its poison, or a handle, where the queue has room, and waits where it has none; QGET takes the head, and waits for one; FSET and FCLR write a flag;
FWAIT waits for its value, and joins the commands that the flag it finds set reports (09 R281); after NOPG the next word counts from its count on. -/
def Obligations.CommonColumnWords : Prop :=
  ∀ (s : State),
    let c := cyc s
    (∀ o : CQ, reject? (.colQput o) = none →
      let q := readQ s o.q
      let room : Prop := q.entries.length + (if q.freedAt = c then q.freedN else 0) < 16
      let appends (x : Dword) (token poison : Bool) : Prop :=
        ColCompletes (.colQput o) s o.col 0
          (writeQ o.q { q with entries := q.entries ++ [{ payload := x, token := token, poison := poison, stamp := c }] })
      (¬ room → ColWaits (.colQput o) s o.col)
      ∧ (room → selClass o = 0 → appends 0 true false)
      ∧ (room → selClass o = 1 → appends ((readE s (selE o)).tag ++ (readE s (selE o)).addr) false false)
      ∧ (room → selClass o = 2 → VIdle s (selV o) → appends (BitVec.ofNat 64 (readV s (selV o)).data.toNat) false (readV s (selV o)).poison)
      ∧ (room → selClass o = 3 → appends (BitVec.ofNat 64 ((readAh s (selAh o)).handles.toList.getD (selElem o) 0).toNat) false false))
    ∧ (∀ o : CQ, reject? (.colQget o) = none →
      let q := readQ s o.q
      let ready := q.entries.filter fun e => e.stamp < c
      let popped : Queue := { q with entries := q.entries.drop 1, freedAt := c, freedN := if q.freedAt = c then q.freedN + 1 else 1 }
      (ready = [] → ColWaits (.colQget o) s o.col)
      ∧ (∀ e rest, ready = e :: rest →
        let x : Dword := if e.token then 0 else e.payload
        (selClass o = 0 → ColCompletes (.colQget o) s o.col 0 (writeQ o.q popped))
        ∧ (selClass o = 1 → e.poison = false → ColCompletes (.colQget o) s o.col 0 (fun s => writeQ o.q popped
            (writeE (selE o) { readE s (selE o) with addr := x.extractLsb' 0 48, tag := x.extractLsb' 48 16 } s)))
        ∧ (selClass o = 1 → e.poison = true → ColTraps (.colQget o) s o.col (trapOf .poison))
        ∧ (selClass o = 2 → VIdle s (selV o) →
            let r := readV s (selV o)
            ∃ y : BitVec 65536, (∀ i, i < 65536 → y.getLsbD i = if i < 64 then x.getLsbD i else r.data.getLsbD i)
              ∧ ColCompletes (.colQget o) s o.col 0 (fun s => writeQ o.q popped
                  (post c (colOrder o.col) (.vWrite (selV o) y r.tag r.rows r.cols (r.poison || e.poison) false) s)))
        ∧ (selClass o = 3 → (readA s (selAh o)).ctx.isOpen = false → (readA s (selAh o)).ctx.closing = 0 ∨ (readA s (selAh o)).ctx.closing < c → e.poison = false →
            ColCompletes (.colQget o) s o.col 0 (fun s => writeQ o.q popped (getHandle o x s)))
        ∧ (selClass o = 3 → (readA s (selAh o)).ctx.isOpen = true → ColTraps (.colQget o) s o.col (trapOf .illegal))))
    ∧ (∀ o : CF, ColCompletes (.colFset o) s o.col 0 (modCore (flagPut o.f.toNat true))
        ∧ ColCompletes (.colFclr o) s o.col 0 (modCore (flagPut o.f.toNat false)))
    ∧ (∀ o : CFW, (flagSeen s.core o.f.toNat = decide (o.v = 1) → ColCompletes (.colFwait o) s o.col 0 (fun s => if o.v = 1 then joinFlag o.f.toNat s else s))
        ∧ (flagSeen s.core o.f.toNat ≠ decide (o.v = 1) → ColWaits (.colFwait o) s o.col))
    ∧ (∀ o : CN, ColCompletes (.nopg o) s o.col o.n.toNat id)

/-! ### Vector words (13_isa_vector) -/

/-- R372, R373, R374, R375, R378, R379, R380, R240, R246: vector floating arithmetic. Each active element is the exact value rounded once under RMODE with its
own draw, or the exact minimum, maximum or sign change, or the special function; the others keep their bits or become zero; the result is on its way with
the latency of R375, and the flags with it. -/
def Obligations.VectorFloatResults : Prop :=
  ∀ (s : State),
    let mode := rmode s
    let rdn : Bool := mode = .rdn
    let st := s.core.sys.srState.toNat
    slotBusy s.core.units (cyc s) .arith = false →
    (∀ o : V3,
      let a := readV s o.a
      let b := readV s o.b
      let tag := a.tag.toNat
      let m := maskBit s o.k
      let n := a.rows * a.cols
      let busy := max 1 (ceilDiv (n * vWidth a) 8192)
      VLikes s o.a o.b tagsF →
      (VDest s o.d tag a.rows a.cols m →
        let rounds (i : Instr) (lat : Nat) (x : Nat → XReal × Bool) : Prop :=
          SendsLanes i s o.d .arith lat busy tag a.rows a.cols m (a.poison || b.poison) (fun j => roundedLane tag mode true m st j (x j)) (drawsTo mode m st n)
        let exact (i : Instr) (x : Nat → XReal) : Prop :=
          SendsLanes i s o.d .arith 3 busy tag a.rows a.cols m (a.poison || b.poison) (fun j => ((roundBits tag .rne 0 true (x j)).1, {})) st
        rounds (.vadd o) 3 (fun j => exactSum rdn [vValue a j, vValue b j])
        ∧ rounds (.vsub o) 3 (fun j => exactSum rdn [vValue a j, (vValue b j).neg])
        ∧ rounds (.vmul o) 4 (fun j => sumProducts rdn [xmulNv (vValue a j) (vValue b j)])
        ∧ exact (.vmin o) (fun j => xMin (vValue a j) (vValue b j))
        ∧ exact (.vmax o) (fun j => xMax (vValue a j) (vValue b j))
        ∧ exact (.vcpsgn o) (fun j => if (vLane b j).testBit (vWidth a - 1) then (vValue a j).abs.neg else (vValue a j).abs))
      ∧ (VLikes s o.a o.d tagsF →
        let d := readV s o.d
        let fuses (i : Instr) (x : Nat → XReal × Bool) : Prop :=
          SendsLanes i s o.d .arith 4 busy tag a.rows a.cols m (a.poison || b.poison || d.poison)
            (fun j => roundedLane tag mode true m st j (x j)) (drawsTo mode m st n)
        let product (j : Nat) := xmulNv (vValue a j) (vValue b j)
        fuses (.vfma o) (fun j => sumProducts rdn [product j, (vValue d j, false)])
        ∧ fuses (.vfms o) (fun j => sumProducts rdn [product j, ((vValue d j).neg, false)])
        ∧ fuses (.vfnma o) (fun j => sumProducts rdn [((product j).1.neg, (product j).2), (vValue d j, false)])))
    ∧ (∀ o : V2,
      let a := readV s o.a
      let tag := a.tag.toNat
      let m := maskBit s o.k
      let n := a.rows * a.cols
      VIdle s o.a → VDest s o.d tag a.rows a.cols m →
      (tag ∈ tagsF →
        let exact (i : Instr) (x : Nat → XReal) : Prop :=
          SendsLanes i s o.d .arith 3 (max 1 (ceilDiv (n * vWidth a) 8192)) tag a.rows a.cols m a.poison (fun j => ((roundBits tag .rne 0 true (x j)).1, {})) st
        exact (.vabs o) (fun j => (vValue a j).abs) ∧ exact (.vneg o) (fun j => (vValue a j).neg))
      ∧ (tag ∈ tagsF16 →
        let special (i : Instr) (g : XReal → XReal × FpFlags) : Prop :=
          SendsLanes i s o.d .arith 14 (max 1 (ceilDiv n 256)) tag a.rows a.cols m a.poison
            (fun j =>
              let y := g (vValue a j)
              let q := roundBits tag .rne 0 true y.1
              (q.1, { y.2 with nx := q.2.nx, uf := q.2.uf })) st
        special (.vexp2 o) exp2Alg ∧ special (.vlog2 o) log2Alg ∧ special (.vrcp o) rcpAlg ∧ special (.vrsq o) rsqAlg ∧ special (.vsqrt o) sqrtAlg
          ∧ special (.vsigm o) sigmAlg))

/-- R372, R373, R375, R381, R382: vector integer, bit and bit-field words. Each active element is the operation of R381 or R382 on the bits of its sources,
modulo 2^W; the others keep their bits or become zero; no word sets a flag or draws. -/
def Obligations.VectorIntegerResults : Prop :=
  ∀ (s : State),
    let st := s.core.sys.srState.toNat
    slotBusy s.core.units (cyc s) .arith = false →
    (∀ o : V3,
      let a := readV s o.a
      let b := readV s o.b
      let d := readV s o.d
      let w := vWidth a
      let m := maskBit s o.k
      let signed (x : Nat) : Int := if a.tag.toNat ∈ [tagInt8, tagInt16, tagInt32] then sNat w x else (x : Int)
      let gives (srcs : Bool) (i : Instr) (f : Nat → Nat) : Prop :=
        SendsLanes i s o.d .arith 3 (max 1 (ceilDiv (a.rows * a.cols * w) 8192)) a.tag.toNat a.rows a.cols m srcs (fun j => (f j, {})) st
      let x := vLane a
      let y := vLane b
      (VDest s o.d a.tag.toNat a.rows a.cols m →
        let two := gives (a.poison || b.poison)
        (VLikes s o.a o.b tagsI →
          two (.viadd o) (fun j => x j + y j)
          ∧ two (.visub o) (fun j => x j + 2 ^ w - y j)
          ∧ two (.vimul o) (fun j => x j * y j)
          ∧ two (.vimin o) (fun j => if signed (x j) ≤ signed (y j) then x j else y j)
          ∧ two (.vimax o) (fun j => if signed (x j) ≤ signed (y j) then y j else x j)
          ∧ two (.viminz o) (fun j => min (x j) (y j))
          ∧ two (.vimaxz o) (fun j => max (x j) (y j)))
        ∧ (VIdle s o.a → VIdle s o.b → a.tag.toNat ∈ tagsX → b.tag.toNat ∈ tagsX → vWidth b = w → b.rows = a.rows → b.cols = a.cols →
          two (.vand o) (fun j => x j &&& y j) ∧ two (.vor o) (fun j => x j ||| y j) ∧ two (.vxor o) (fun j => x j ^^^ y j))
        ∧ (VLikes s o.a o.b (tagRaw :: tagsI) →
          two (.vshl o) (fun j => x j * 2 ^ (y j % w))
          ∧ two (.vshr o) (fun j => x j / 2 ^ (y j % w))
          ∧ two (.vsra o) (fun j => ((sNat w (x j) / (2 : Int) ^ (y j % w)) % (2 : Int) ^ w).toNat)))
      ∧ (VIdle s o.a → VIdle s o.b → a.tag.toNat ∈ tagsI → b.tag.toNat ∈ [tagInt32, tagIndex32] → b.rows = a.rows → b.cols = a.cols →
        let p (j : Nat) := y j % 32 % w
        let len (j : Nat) := min (y j / 256 % 32 + 1) (w - p j)
        let field (j : Nat) := x j / 2 ^ p j % 2 ^ len j
        (VDest s o.d a.tag.toNat a.rows a.cols m →
          gives (a.poison || b.poison) (.vbxz o) field
          ∧ gives (a.poison || b.poison) (.vbxt o) (fun j => if field j < 2 ^ (len j - 1) then field j else field j + 2 ^ w - 2 ^ len j))
        ∧ (VIdle s o.d → d.tag = a.tag → d.rows = a.rows → d.cols = a.cols →
          let three := gives (a.poison || b.poison || d.poison)
          let z := vLane d
          three (.vbins o) (fun j => z j - z j / 2 ^ p j % 2 ^ len j * 2 ^ p j + x j % 2 ^ len j * 2 ^ p j)
          ∧ three (.vfshl o) (fun j => (z j * 2 ^ w + x j) * 2 ^ p j % 2 ^ (2 * w) / 2 ^ w)
          ∧ three (.vfshr o) (fun j => (z j * 2 ^ w + x j) / 2 ^ p j % 2 ^ w))))
    ∧ (∀ o : V2,
      let a := readV s o.a
      let m := maskBit s o.k
      VIdle s o.a → VDest s o.d a.tag.toNat a.rows a.cols m → a.tag.toNat ∈ tagRaw :: tagsI →
      SendsLanes (.vpopc o) s o.d .arith 3 (max 1 (ceilDiv (a.rows * a.cols * vWidth a) 8192)) a.tag.toNat a.rows a.cols m a.poison
        (fun j => (((List.range (vWidth a)).filter fun i => (vLane a j).testBit i).length, {})) st)

/-- R376, R383, R384, R385, R391: VCMP writes the bits of its mask that belong to active elements, 3 cycles and its slot later; VSEL takes each element by
its mask; VANY and VALL write their flag in the C slot; MAND, MOR, MXOR and MNOT write the bits of a mask that mk allows in the issue cycle, and MRANGE
those from lo to hi one cycle later. -/
def Obligations.MaskAndVoteResults : Prop :=
  ∀ (s : State),
    let c := cyc s
    (∀ o : VCmpOp, slotBusy s.core.units c .arith = false → VLikes s o.a o.b (tagsF ++ tagsI) → (readV s o.a).poison = false → (readV s o.b).poison = false →
      let a := readV s o.a
      let b := readV s o.b
      let n := a.rows * a.cols
      let busy := max 1 (ceilDiv (n * vWidth a) 8192)
      let signed (x : Nat) : Int := if a.tag.toNat ∈ [tagInt8, tagInt16, tagInt32] then sNat (vWidth a) x else (x : Int)
      let less (x y : XReal) : Bool := XReal.cmp x y = some (-1)
      let same (x y : XReal) : Bool := XReal.cmp x y = some 0
      let holds (j : Nat) : Bool :=
        let x := vLane a j
        let y := vLane b j
        if a.tag.toNat ∈ tagsF then
          let u := vValue a j
          let v := vValue b j
          match o.c.toNat with
          | 0 => same u v
          | 1 => !same u v
          | 2 => less u v
          | 3 => same u v || XReal.cmp u v = some 1
          | 4 => less u.abs v.abs
          | 5 => same u.abs v.abs || XReal.cmp u.abs v.abs = some 1
          | _ => u.isNan || v.isNan
        else
          match o.c.toNat with
          | 0 => x = y
          | 1 => x ≠ y
          | 2 => signed x < signed y
          | 3 => signed y ≤ signed x
          | 4 => x < y
          | 5 => y ≤ x
          | _ => false
      ∃ keep val : BitVec 2048, (∀ j, j < 2048 → keep.getLsbD j = !(decide (j < n) && maskBit s o.k j))
        ∧ (∀ j, j < n → j < 2048 → val.getLsbD j = holds j)
        ∧ ColCompletes (.vcmp o) s .colC 0 (fun s =>
            modCore (fun k => { k with units := { k.units with arith := c + busy } }) (post (c + 3 + busy - 1) 2 (.mask o.d keep val) s)))
    ∧ (∀ o : V3, slotBusy s.core.units c .arith = false → VLikes s o.a o.b tagsX → (readV s o.d).busy = 0 →
      let a := readV s o.a
      let b := readV s o.b
      SendsLanes (.vsel o) s o.d .arith 3 (max 1 (ceilDiv (a.rows * a.cols * vWidth a) 8192)) a.tag.toNat a.rows a.cols (fun _ => true)
        (a.poison || b.poison) (fun j => (if maskBit s o.k j then vLane a j else vLane b j, {})) s.core.sys.srState.toNat)
    ∧ (∀ o : VVote, ColCompletes (.vany o) s .colC 0 (modCore (flagPut o.f.toNat ((List.range 2048).any (maskBit s o.k))))
      ∧ ColCompletes (.vall o) s .colC 0 (modCore (flagPut o.f.toNat ((List.range 2048).all (maskBit s o.k)))))
    ∧ (∀ (o : M3),
      let writes (i : Instr) (v : BitVec 2048) : Prop := ColCompletes i s .colC 0 (post c 2 (.mask o.d (~~~(readM s o.k)) v))
      writes (.mand o) (readM s o.a &&& readM s o.b) ∧ writes (.mor o) (readM s o.a ||| readM s o.b) ∧ writes (.mxor o) (readM s o.a ^^^ readM s o.b))
    ∧ (∀ (o : M2), ColCompletes (.mnot o) s .colC 0 (post c 2 (.mask o.d (~~~(readM s o.k)) (~~~(readM s o.a)))))
    ∧ (∀ (o : MRng), VIdle s o.a → (readV s o.a).tag.toNat ∈ [tagRaw, tagInt32, tagIndex32] → (readV s o.a).poison = false →
      let a := readV s o.a
      let value (i : Nat) : Int := if a.tag.toNat = tagIndex32 then (elemAt a.data.toNat 32 i : Int) else sNat 32 (elemAt a.data.toNat 32 i)
      let lo : Int := if a.rows * a.cols = 1 then 0 else value 0
      let hi : Int := if a.rows * a.cols = 1 then value 0 else value 1
      ∃ val : BitVec 2048, (∀ j, j < 2048 → val.getLsbD j = decide (lo ≤ (j : Int) ∧ (j : Int) ≤ hi))
        ∧ ColCompletes (.mrange o) s .colC 0 (post (c + 1) 2 (.mask o.d (~~~(readM s o.k)) val)))

/-- R386, R375: a reduction gives for each row, or each column, the sum or the greatest or least of its active elements in a register of one column, or
one row; a sum of floating elements is exact and rounded once under RMODE, one of integers is modulo 2^W.
R387, R375: the words of the permute slot. VPERM gives the elements that v[b] names in v[b]'s shape, zero for an index beyond v[a]; VBCAST one element
everywhere; VROT each row rotated by k; VTRN row r of the result is column k + r of v[a], for up to 32 columns. -/
def Obligations.ReductionAndPermuteResults : Prop :=
   (∀ (s : State) (o : V2),
      let mode := rmode s
      let a := readV s o.a
      let tag := a.tag.toNat
      let w := vWidth a
      let m := maskBit s o.k
      let st := s.core.sys.srState.toNat
      let row (j : Nat) : List Nat := ((List.range a.cols).filter fun c => m (j * a.cols + c)).map fun c => vLane a (j * a.cols + c)
      let column (j : Nat) : List Nat := ((List.range a.rows).filter fun r => m (r * a.cols + j)).map fun r => vLane a (r * a.cols + j)
      let all : Nat → Bool := fun _ => true
      let floats : Bool := tagsF.contains tag
      let signed (x : Nat) : Int := if tag ∈ [tagInt8, tagInt16, tagInt32] then sNat w x else (x : Int)
      let sends (i : Instr) (rows cols : Nat) (lane : Nat → Nat × FpFlags) (sr : Nat) : Prop :=
        SendsLanes i s o.d .arith 8 (max 1 (ceilDiv (a.rows * a.cols * w) 8192)) tag rows cols all a.poison lane sr
      let sum (line : Nat → List Nat) (j : Nat) : Nat × FpFlags :=
        if floats then roundedLane tag mode true all st j (exactSum (mode = .rdn) ((line j).map (decodeTag tag))) else ((line j).sum, {})
      let after (n : Nat) : Nat := if floats then drawsTo mode all st n else st
      let lowest (up : Bool) (f : FFmt) : XReal := if f.noInf then f.maxFin up else .inf up
      let order (up : Bool) (line : List Nat) : Nat × FpFlags :=
        (match fmtOf tag with
          | .fl f => encodeFl f ((line.map (decodeFl f)).foldl (if up then xMax else xMin) (lowest up f))
          | .int w _ =>
            let lo : Int := if tag ∈ [tagInt8, tagInt16, tagInt32] then -2 ^ (w - 1) else 0
            let hi : Int := if tag ∈ [tagInt8, tagInt16, tagInt32] then 2 ^ (w - 1) - 1 else 2 ^ w - 1
            ((line.map signed).foldl (if up then max else min) (if up then lo else hi) % (2 : Int) ^ w).toNat, {})
      slotBusy s.core.units (cyc s) .arith = false → VIdle s o.a → (readV s o.d).busy = 0 → tag ∈ tagsF ++ tagsI →
      sends (.vrsum o) a.rows 1 (sum row) (after a.rows)
      ∧ sends (.vrmax o) a.rows 1 (fun j => order true (row j)) st
      ∧ sends (.vrmin o) a.rows 1 (fun j => order false (row j)) st
      ∧ sends (.vcsum o) 1 a.cols (sum column) (after a.cols)
      ∧ sends (.vcmax o) 1 a.cols (fun j => order true (column j)) st)
 ∧ (∀ (s : State) (o : V3),
      let a := readV s o.a
      let b := readV s o.b
      let m := maskBit s o.k
      let n := a.rows * a.cols
      let w := vWidth a
      let k := elemAt b.data.toNat 32 0
      let sends (i : Instr) (busy rows cols : Nat) (lane : Nat → Nat) : Prop :=
        VDest s o.d a.tag.toNat rows cols m →
        SendsLanes i s o.d .permute 4 (max 1 busy) a.tag.toNat rows cols m (a.poison || b.poison) (fun j => (lane j, {})) s.core.sys.srState.toNat
      let widest := max n (b.rows * b.cols)
      slotBusy s.core.units (cyc s) .permute = false → VIdle s o.a → VIdle s o.b → a.tag.toNat ∈ tagsX → b.tag.toNat = tagIndex32 →
      sends (.vperm o) (ceilDiv widest 128) b.rows b.cols (fun j => if vLane b j < n then vLane a (vLane b j) else 0)
      ∧ sends (.vbcast o) (ceilDiv (widest * w) 8192) a.rows a.cols (fun _ => if k % n < n then vLane a (k % n) else 0)
      ∧ sends (.vrot o) (ceilDiv (widest * w) 8192) a.rows a.cols (fun j => vLane a (j / a.cols * a.cols + (j % a.cols + k) % a.cols))
      ∧ (1 ≤ a.rows → a.rows ≤ 32 → 1 ≤ a.cols →
        let k := k % a.cols
        let lines := min 32 (a.cols - k)
        ∃ cols, a.rows ≤ cols ∧ cols < 2 * a.rows ∧ (∃ e, cols = 2 ^ e)
          ∧ sends (.vtrn o) (ceilDiv (n * w) 8192) lines cols (fun j => if j % cols < a.rows then vLane a (j % cols * a.cols + k + j / cols) else 0)))

/-- R377, R388, R389, R390, R375: VCVT rounds each active element once into the tag in fn, under the mode that its rounding field names; VDEQ the decoded
element of an SE register under RMODE; VQUANT makes the planar layout of R239 of all elements, inactive ones as +0; VMOV copies bits, VLDI writes an
immediate in v[d]'s own tag, and VSHAPE gives v[d] another shape over the same bytes. -/
def Obligations.ConversionAndMoveResults : Prop :=
  ∀ (s : State),
    let st := s.core.sys.srState.toNat
    let free := slotBusy s.core.units (cyc s) .arith = false
    let modeOf (r : BitVec 3) : Mode := if r = 0 then rmode s else Mode.ofCode (r.toNat - 1)
    (∀ o : VCvtOp,
      let a := readV s o.a
      let m := maskBit s o.k
      let n := a.rows * a.cols
      let t := o.t.toNat
      free → VIdle s o.a →
      (reject? (.vcvt o) = none → a.tag.toNat ∈ tagsX → VDest s o.d t a.rows a.cols m →
        SendsLanes (.vcvt o) s o.d .arith 4 (max 1 (ceilDiv (n * max (vWidth a) (tagWidth t)) 8192)) t a.rows a.cols m a.poison
          (fun j => roundedLane t (modeOf o.r) (tagsF.contains a.tag.toNat) m st j (vValue a j, false)) (drawsTo (modeOf o.r) m st n))
      ∧ (reject? (.vquant o) = none → a.tag.toNat ∈ tagsF → n % 16 = 0 → (readV s o.d).busy = 0 →
        let p := seBits t
        let act := (List.range n).map m
        let q := quantAll p (modeOf o.r) (n / 16) act ((List.range n).map fun j => if m j then vValue a j else XReal.zero) { sr := st, flags := {} }
        ∃ v, SendsV (.vquant o) s o.d .arith 6 (max 1 (ceilDiv n 256)) v q.2.2 ∧ v.tag = t ∧ v.rows = a.rows ∧ v.cols = a.cols ∧ v.poison = a.poison
          ∧ q.1.length = n ∧ q.2.1.length = n / 16
          ∧ (∀ j, j < n → elemAt v.data (p + 1) j = q.1.getD j 0 % 2 ^ (p + 1))
          ∧ (∀ k, k < n / 16 → v.data / 2 ^ (n * (p + 1) + 16 * k) % 2 ^ 16 = q.2.1.getD k 0 % 2 ^ 16)))
    ∧ (∀ o : VDeqOp,
      let a := readV s o.a
      let m := maskBit s o.k
      let n := a.rows * a.cols
      let t := o.t.toNat
      free → VIdle s o.a → a.tag.toNat ∈ [tagSe7, tagSe4, tagSe2] → reject? (.vdeq o) = none → VDest s o.d t a.rows a.cols m →
      SendsLanes (.vdeq o) s o.d .arith 4 (max 1 (ceilDiv (n * max (elemWidth a.tag.toNat) (tagWidth t)) 8192)) t a.rows a.cols m a.poison
        (fun j => roundedLane t (rmode s) true m st j (seValue a.data.toNat a.tag.toNat n j, false)) (drawsTo (rmode s) m st n))
    ∧ (∀ o : V2,
      let a := readV s o.a
      let m := maskBit s o.k
      let n := a.rows * a.cols
      let busy := max 1 (ceilDiv (n * elemWidth a.tag.toNat) 8192)
      free → VIdle s o.a → VDest s o.d a.tag.toNat a.rows a.cols m →
      (a.tag.toNat ∈ tagsX → SendsLanes (.vmov o) s o.d .arith 3 busy a.tag.toNat a.rows a.cols m a.poison (fun j => (vLane a j, {})) st)
      ∧ (a.tag.toNat ∈ [tagSe7, tagSe4, tagSe2] →
        let e := elemWidth a.tag.toNat
        ∃ v, SendsV (.vmov o) s o.d .arith 3 busy v { sr := st, flags := {} } ∧ v.tag = a.tag.toNat ∧ v.rows = a.rows ∧ v.cols = a.cols
          ∧ (∀ j, j < n → m j = true → elemAt v.data e j = elemAt a.data.toNat e j)
          ∧ v.data / 2 ^ (n * e) = a.data.toNat / 2 ^ (n * e) % 2 ^ n))
    ∧ (∀ o : VImm,
      let d := readV s o.d
      let t := d.tag.toNat
      let m := maskBit s o.k
      let n := d.rows * d.cols
      let x := o.i.toInt
      let bits : Nat × FpFlags := if t = tagRaw then ((x % (2 : Int) ^ 32).toNat, {}) else roundBits t .rne 0 false (.fin (decide (x < 0)) x.natAbs 0)
      free → VIdle s o.d → t ∈ tagsX →
      SendsLanes (.vldi o) s o.d .arith 3 (max 1 (ceilDiv (n * vWidth d) 8192)) t d.rows d.cols m false (fun _ => bits) st)
    ∧ (∀ o : VShapeOp,
      let d := readV s o.d
      let rows := o.r.toNat + 1
      let cols := 2 ^ o.c.toNat
      VIdle s o.d → reject? (.vshape o) = none → (d.tag.toNat ∈ [tagSe7, tagSe4, tagSe2] → rows * cols = d.rows * d.cols) →
      ColCompletes (.vshape o) s .colC 0 (post (cyc s) 2 (.vWrite o.d d.data d.tag rows cols d.poison false)))

/-- R373, R374, R175, 15_isa_memory R414: what stops a vector word of two sources. A failed source gives its own cause, one with a producer still to write
it and a busy slot give LATE, in the order a, b, d, slot; then a tag outside the set, or a second source that differs in tag, is a format-tag trap. -/
def Obligations.VectorOperandTraps : Prop :=
  ∀ (s : State) (o : V3) (i : Instr), i ∈ [.vadd o, .vsub o, .vmul o, .vmin o, .vmax o, .vcpsgn o] →
    let a := readV s o.a
    let b := readV s o.b
    (∀ f, a.failed = some f → ColTraps i s .colC { cause := f.cause, addr := f.addr, detail := f.detail })
    ∧ (a.failed = none → a.busy ≠ 0 → ColTraps i s .colC (trapOf .late))
    ∧ (VIdle s o.a → ∀ f, b.failed = some f → ColTraps i s .colC { cause := f.cause, addr := f.addr, detail := f.detail })
    ∧ (VIdle s o.a → b.failed = none → b.busy ≠ 0 → ColTraps i s .colC (trapOf .late))
    ∧ (VIdle s o.a → VIdle s o.b → (readV s o.d).busy ≠ 0 ∨ cyc s < s.core.units.arith → ColTraps i s .colC (trapOf .late))
    ∧ (VIdle s o.a → VIdle s o.b → (readV s o.d).busy = 0 → s.core.units.arith ≤ cyc s →
      (a.tag.toNat ∉ tagsF → ColTraps i s .colC (formatTrap fileV o.a.toNat tagsF a.tag.toNat))
      ∧ (a.tag.toNat ∈ tagsF → b.tag ≠ a.tag → ColTraps i s .colC (formatTrap fileV o.b.toNat [a.tag.toNat] b.tag.toNat)))

/-! ### The matrix array and streaming softmax (14_isa_matrix) -/

/-- R396, R397, R398, R399, R252: a step without a close gives every cell the old sum, 0 in a FRESH step, plus the exact sum of the products of a row of A
with a column of B, rounded once; MMAS places element i of a row at depth (i DIV N)·M + idx, and MMAG takes the rows from the scratchpad. The array is
busy till the step's end, and no other register or memory changes. The first part says when each of the three passes its checks, those of the
side path (R206) and of a close (R400) among them.
R252, R396, R397, R398, R399, R212, R214: the sums and side sums of a step without a close, and its timing. A step with a close does what the same step
does without it, and then adds the corrections of the groups that have a version (R213), each sum, scale and add rounded once, clears their side sums,
closes the context, and takes the cycles of R214 longer. -/
def Obligations.MatrixStepResults : Prop :=
   (∀ (s : State),
      let c := cyc s
      let from_ := wordAddr s.core .colC
      let free (n : BitVec 2) : Prop := (readA s n).window = false ∧ s.core.units.array ≤ c ∧ (readA s n).writeDone ≤ c
      let sideOk (n : BitVec 2) (side fresh close : BitVec 1) (tag : Nat) : Prop :=
        (close = 0 ∨ fresh = 1 ∨ tag ≠ tagInt32)
        ∧ (side = 0 ∨ ((fresh = 1 ∨ (readA s n).ctx.isOpen = true)
          ∧ ∀ g ∈ usedGroups s n, checkGroup s n tag g (if fresh = 1 then groupPin s n g else (readA s n).ctx.latched.toList.getD g none) = .ok ()))
      (∀ (o : MmaOp) (d tag : Nat), free o.n → sideOk o.n o.s o.f o.c tag → TIdle s o.a → TIdle s o.b →
        pairClass o.a o.b (readT s o.a) (readT s o.b) = .ok (d, tag) → o.f = 1 ∨ (readA s o.n).tag.toNat = tag →
        ∃ u, mmaStep o false wordSource from_ s = .ok u)
      ∧ (∀ (o : MmasOp) (d tag : Nat), free o.n → sideOk o.n o.s o.f o.c tag → TIdle s o.a → TIdle s o.x → o.b.toNat % rhoOf (readT s o.a).tag.toNat = 0 →
        (∀ i, i < rhoOf (readT s o.a).tag.toNat → TIdle s (o.b + BitVec.ofNat 4 i) ∧ (readT s (o.b + BitVec.ofNat 4 i)).tag = (readT s o.b).tag) →
        pairClass o.a o.b (readT s o.a) (readT s o.b) = .ok (d, tag) → (readT s o.x).tag.toNat ∈ [tagRaw, tagUint8] → (readT s o.x).poison = false →
        o.f = 1 ∨ (readA s o.n).tag.toNat = tag →
        ∃ u, mmasStep o false wordSource from_ s = .ok u)
      ∧ (∀ (o : MmagOp) (d tag : Nat), free o.n → sideOk o.n o.s o.f o.c tag → TIdle s o.b → VIdle s o.i → s.core.units.gather ≤ c →
        (readV s o.i).tag.toNat = tagIndex32 → 64 ≤ (readV s o.i).rows * (readV s o.i).cols → (readV s o.i).poison = false →
        (readT s o.b).tag.toNat ∈ [tagBf16, tagFp16, tagE4m3, tagE5m2, tagInt8, tagUint8] → pairClass o.b o.b (readT s o.b) (readT s o.b) = .ok (d, tag) →
        (∀ r, r < 64 → elemAt (readV s o.i).data.toNat 32 r = 0xFFFFFFFF ∨ elemAt (readV s o.i).data.toNat 32 r < 8192 - 64 * o.t.toNat) →
        (∀ k, k < 128 → (getSlot s.core k).failed = none ∧ (getSlot s.core k).pend = 0 ∧ (getSlot s.core k).tag.toNat ≠ 0xFFFF) →
        o.f = 1 ∨ (readA s o.n).tag.toNat = tag →
        ∃ u, mmagStep o wordSource from_ s = .ok u)
      ∧ (∀ o u, mmaStep o false wordSource from_ s = .ok u → ColCompletes (.mma o) s .colC 0 (fun _ => u))
      ∧ (∀ o u, mmasStep o false wordSource from_ s = .ok u → ColCompletes (.mmas o) s .colC 0 (fun _ => u))
      ∧ (∀ o u, mmagStep o wordSource from_ s = .ok u → ColCompletes (.mmag o) s .colC 0 (fun _ => u))
      ∧ (∀ o tr, mmaStep o false wordSource from_ s = .error tr → ColTraps (.mma o) s .colC tr)
      ∧ (∀ o tr, mmasStep o false wordSource from_ s = .error tr → ColTraps (.mmas o) s .colC tr)
      ∧ (∀ o tr, mmagStep o wordSource from_ s = .error tr → ColTraps (.mmag o) s .colC tr))
 ∧ (∀ (s u : State),
      let c := cyc s
      let w := wakeDelay s
      let from_ := wordAddr s.core .colC
      let after (n : BitVec 2) (side fresh : Bool) (d tag extra : Nat) (poison : Bool) (products : Nat → Nat → List (XReal × Bool))
          (stands : Nat → Nat → XReal) : Prop :=
        let kc := if fresh then 0 else (readA s n).ctx.cursor
        let groups := if side then sideGroups u n (readA u n).ctx else []
        let ranks := if side then ((usedGroups s n).map fun g => ((findAht s (groupHandle s.core n.toNat g)).map rankOf).getD 0).sum else 0
        let till := c + w + extra + max 64 (ceilDiv (8 * d * ranks) 1024)
        (∀ r k, r < 64 → k < 64 →
          cellBits (readA u n) r k
            = (roundSum tag ((decodeTag tag (if fresh then 0 else cellBits (readA s n) r k), false) :: products r k)).1 % 2 ^ 32)
        ∧ (readA u n).tag.toNat = tag ∧ (readA u n).poison = ((!fresh && (readA s n).poison) || poison)
        ∧ (readA u n).m = (readA s n).m ∧ (readA u n).l = (readA s n).l ∧ (readA u n).masked = (readA s n).masked
        ∧ (∀ k, k ≠ n → readA u k = readA s k)
        ∧ u.core.units.array = till ∧ (readA u n).stepDone = till + 9
        ∧ (∀ x ∈ groups, ∀ r j, r < 8 → j < x.rank →
            elemAt (readA u n).side.toNat 32 (64 * (8 * x.g + r) + j)
              = (roundSum tagFp32 ((fp32 (if fresh then 0 else elemAt (readA s n).side.toNat 32 (64 * (8 * x.g + r) + j)), false)
                  :: (List.range d).map fun i => xmulNv (stands (8 * x.g + r) i) (facA s x (kc + i) j))).1 % 2 ^ 32)
        ∧ (((readA s n).ctx.isOpen = true ∨ fresh = true) → (readA u n).ctx.isOpen = true ∧ (readA u n).ctx.cursor = kc + d)
        ∧ OnlyMatrix s u
      (∀ (o : MmaOp) (d tag : Nat), mmaStep o false wordSource from_ s = .ok u → o.c = 0 →
        pairClass o.a o.b (readT s o.a) (readT s o.b) = .ok (d, tag) →
        after o.n (decide (o.s = 1)) (decide (o.f = 1)) d tag 0 ((readT s o.a).poison || (readT s o.b).poison)
          (fun r k => (List.range d).map fun i => xmulNv (tileValue (readT s o.a) d r i) (tileValue (readT s o.b) d k i))
          (fun r i => xsum [tileValue (readT s o.a) d r i]))
      ∧ (∀ (o : MmasOp) (d tag : Nat), mmasStep o false wordSource from_ s = .ok u → o.c = 0 →
        pairClass o.a o.b (readT s o.a) (readT s o.b) = .ok (d, tag) →
        let rho := rhoOf (readT s o.a).tag.toNat
        let m := 4 * 2 ^ o.m.toNat
        let depth (r i : Nat) := i / (m / rho) * m + elemAt (readT s o.x).data.toNat 4 (r * d + i) % m
        let tile (i : Nat) := readT s (o.b + BitVec.ofNat 4 i)
        o.m ≠ 3 →
        after o.n (decide (o.s = 1)) (decide (o.f = 1)) (rho * d) tag 0 ((readT s o.a).poison || (List.range rho).any fun i => (tile i).poison)
          (fun r k => (List.range d).map fun i => xmulNv (tileValue (readT s o.a) d r i) (tileValue (tile (depth r i / d)) d k (depth r i % d)))
          (fun r k => xsum (((List.range d).filter fun i => depth r i = k).map (tileValue (readT s o.a) d r))))
      ∧ (∀ (o : MmagOp) (d tag : Nat), mmagStep o wordSource from_ s = .ok u → o.c = 0 → pairClass o.b o.b (readT s o.b) (readT s o.b) = .ok (d, tag) →
        let b := readT s o.b
        let row (r : Nat) : Option Nat :=
          let j := elemAt (readV s o.i).data.toNat 32 r
          if j = 0xFFFFFFFF then none else some (4096 * o.t.toNat + 64 * j)
        let a (r i : Nat) : XReal := match row r with
          | none => XReal.zero
          | some y => decodeTag b.tag.toNat (elemAt (leNat (cellRead s.core.sp y 64)) (tagWidth b.tag.toNat) i)
        after o.n (decide (o.s = 1)) (decide (o.f = 1)) d tag 8
          (b.poison || (List.range 64).any fun r => match row r with
            | none => false
            | some y => spPoison s.core y) (fun r k => (List.range d).map fun i => xmulNv (a r i) (tileValue b d k i)) (fun r i => xsum [a r i]))
      ∧ (let closes (n : BitVec 2) (z : State) : Prop :=
          let a := readA z n
          let b := readA u n
          let groups := sideGroups z n a.ctx
          let more := ceilDiv ((groups.map fun g => 512 * g.rank).sum) 1024
          (a.ctx.isOpen = false → u = z)
          ∧ (a.ctx.isOpen = true →
            (∀ x ∈ groups, ∀ r k, r < 8 → k < 64 →
              let corr := (roundSum tagFp32 ((List.range x.rank).map fun i =>
                xmulNv (fp32 (elemAt a.side.toNat 32 (64 * (8 * x.g + r) + i))) (facB s x i (64 * a.ctx.blk.toNat + k)))).1
              let scaled := (roundSum tagFp32 [xmulNv (fp32 x.ver.alpha.toNat) (fp32 corr)]).1
              cellBits b (8 * x.g + r) k = (roundSum tagFp32 [(fp32 (cellBits a (8 * x.g + r) k), false), (fp32 scaled, false)]).1 % 2 ^ 32)
            ∧ (∀ r k, r < 64 → k < 64 → (∀ x ∈ groups, x.g ≠ r / 8) → cellBits b r k = cellBits a r k)
            ∧ (∀ i, i < 4096 → elemAt b.side.toNat 32 i = if groups.any (fun x => x.g = i / 512) then 0 else elemAt a.side.toNat 32 i)
            ∧ b.ctx.isOpen = false ∧ b.tag = a.tag ∧ b.poison = a.poison ∧ b.sat = a.sat ∧ b.m = a.m ∧ b.l = a.l ∧ b.masked = a.masked
            ∧ u.core.units.array = z.core.units.array + more ∧ b.stepDone = a.stepDone + more ∧ (∀ k, k ≠ n → readA u k = readA z k) ∧ OnlyMatrix s u)
        (∀ o : MmaOp, o.c = 1 → mmaStep o false wordSource from_ s = .ok u → ∃ z, mmaStep { o with c := 0 } false wordSource from_ s = .ok z ∧ closes o.n z)
        ∧ (∀ o : MmasOp, o.c = 1 → mmasStep o false wordSource from_ s = .ok u → ∃ z, mmasStep { o with c := 0 } false wordSource from_ s = .ok z ∧ closes o.n z)
        ∧ (∀ o : MmagOp, o.c = 1 → mmagStep o wordSource from_ s = .ok u → ∃ z, mmagStep { o with c := 0 } wordSource from_ s = .ok z ∧ closes o.n z)))

/-- R400, R404, R405, R406, R193, R213, R396: the control and transfer words complete where no step or write of the accumulator is to complete. MZERO leaves
the state of R261; MCLOSE closes the side context, and adds the correction of R213 to the rows of each group that has a version; MWAKE wakes gated
sub-arrays, and MOPEN and MSHUT set the window, in every state; MACC2V and MV2ACC move the sums, and MSTGET and MSTSET the row state, in 12 and 4
cycles; MADH writes handles, side context or both in the next cycle. -/
def Obligations.AccumulatorWords : Prop :=
  ∀ (s : State),
    let c := cyc s
    let u := s.core.units
    (∀ (o : AccOp), AIdle s o.n →
      let a := readA s o.n
      (∃ z : Acc, ColCompletes (.mzero o) s .colC 0 (fun s => writeAcc o.n z (modCore (releaseLatches (c + 1) o.n.toNat) s))
        ∧ z.sums = 0 ∧ z.tag.toNat = tagFp32 ∧ z.poison = false ∧ (∀ r, r < 64 → elemAt z.m.toNat 32 r = 0x80000000) ∧ z.l = 0 ∧ z.masked = 0 ∧ z.sat = 0
        ∧ z.side = 0 ∧ z.ctx.isOpen = false ∧ z.window = a.window ∧ z.writeDone = c + 2)
      ∧ (a.ctx.isOpen = false → ColCompletes (.mclose o) s .colC 0 id)
      ∧ (a.ctx.isOpen = true → a.tag.toNat = tagInt32 → (∃ v ∈ a.ctx.latched.toList, v ≠ none) →
          ColTraps (.mclose o) s .colC (formatTrap fileA o.n.toNat [tagFp32] a.tag.toNat))
      ∧ (a.ctx.isOpen = true → a.tag.toNat = tagInt32 → (∀ v ∈ a.ctx.latched.toList, v = none) →
          ColCompletes (.mclose o) s .colC 0 (writeAcc o.n { a with ctx := { a.ctx with isOpen := false }, writeDone := c + 2 }))
      ∧ (a.ctx.isOpen = true → a.tag.toNat ≠ tagInt32 → c < u.array → ColTraps (.mclose o) s .colC (trapOf .late))
      ∧ (a.ctx.isOpen = true → a.tag.toNat ≠ tagInt32 → u.array ≤ c →
          let groups := sideGroups s o.n a.ctx
          let till := c + wakeDelay s + ceilDiv ((groups.map fun g => 512 * g.rank).sum) 1024
          ∃ t, exec (.mclose o) s = .next t ∧ (readA t o.n).ctx.isOpen = false ∧ (readA t o.n).writeDone = till + 9 ∧ t.core.units.array = till
            ∧ (∀ x ∈ groups, ∀ r k, r < 8 → k < 64 →
                let corr := (roundSum tagFp32 ((List.range x.rank).map fun i =>
                  xmulNv (fp32 (elemAt a.side.toNat 32 (64 * (8 * x.g + r) + i))) (facB s x i (64 * a.ctx.blk.toNat + k)))).1
                let scaled := (roundSum tagFp32 [xmulNv (fp32 x.ver.alpha.toNat) (fp32 corr)]).1
                cellBits (readA t o.n) (8 * x.g + r) k
                  = (roundSum tagFp32 [(fp32 (cellBits a (8 * x.g + r) k), false), (fp32 scaled, false)]).1 % 2 ^ 32)
            ∧ (∀ r k, r < 64 → k < 64 → (∀ x ∈ groups, x.g ≠ r / 8) → cellBits (readA t o.n) r k = cellBits a r k) ∧ (readA t o.n).m = a.m ∧ (readA t o.n).l = a.l ∧ (readA t o.n).tag = a.tag ∧ OnlyMatrix s t))
    ∧ (∀ o : Gap, ∃ v : Units, ColCompletes (.mwake o) s .colC 0 (modCore fun k => { k with units := v })
        ∧ (u.awake ≤ c → u.gated = true → v.gated = false ∧ v.awake = c + 48)
        ∧ (u.awake ≤ c → u.gated = false → v.gated = false ∧ v.awake = u.awake ∧ v.lastUse = max u.lastUse c)
        ∧ (c < u.awake → v = u))
    ∧ (∀ (o : AccOp), ColCompletes (.mopen o) s .colC 0 (writeAcc o.n { readA s o.n with window := true })
        ∧ ColCompletes (.mshut o) s .colC 0 (writeAcc o.n { readA s o.n with window := false }))
    ∧ (∀ (o : AccV), AIdle s o.n → u.accPort ≤ c →
      let a := readA s o.n
      let holds (n : Nat) : State → State := modCore fun k => { k with units := { k.units with accPort := c + n } }
      (o.v.toNat = 31 → ColTraps (.macc2v o) s .colC (trapOf .illegal) ∧ ColTraps (.mv2acc o) s .colC (trapOf .illegal))
      ∧ (o.v.toNat < 31 → (readV s o.v).busy = 0 → (readV s (o.v + 1)).busy = 0 →
        ∃ x y : Nat, (∀ i, i < 2048 → elemAt x 32 i = cellBits a (i / 64) (i % 64) ∧ elemAt y 32 i = cellBits a (32 + i / 64) (i % 64))
          ∧ ColCompletes (.macc2v o) s .colC 0 (fun s =>
              holds 8 (sendV (c + 12) (o.v + 1) y a.tag.toNat 32 64 a.poison (sendV (c + 12) o.v x a.tag.toNat 32 64 a.poison s))))
      ∧ (o.v.toNat < 31 → VIdle s o.v → VIdle s (o.v + 1) → (readV s o.v).tag.toNat ∈ [tagFp32, tagInt32] → (readV s (o.v + 1)).tag = (readV s o.v).tag →
        (readV s o.v).rows * (readV s o.v).cols = 2048 → (readV s (o.v + 1)).rows * (readV s (o.v + 1)).cols = 2048 →
        ∃ t, exec (.mv2acc o) s = .next t ∧ (readA t o.n).tag = (readV s o.v).tag
          ∧ (∀ i, i < 2048 → cellBits (readA t o.n) (i / 64) (i % 64) = elemAt (readV s o.v).data.toNat 32 i
              ∧ cellBits (readA t o.n) (32 + i / 64) (i % 64) = elemAt (readV s (o.v + 1)).data.toNat 32 i)
          ∧ (readA t o.n).poison = ((readV s o.v).poison || (readV s (o.v + 1)).poison) ∧ (readA t o.n).m = a.m ∧ (readA t o.n).l = a.l
          ∧ (readA t o.n).ctx = a.ctx ∧ (readA t o.n).window = a.window ∧ (readA t o.n).writeDone = c + 13 ∧ t.core.units.accPort = c + 8 ∧ OnlyMatrix s t)
      ∧ ((readV s o.v).busy = 0 →
        ∃ x : Nat, (∀ r, r < 64 → elemAt x 32 r = elemAt a.m.toNat 32 r ∧ elemAt x 32 (64 + r) = elemAt a.l.toNat 32 r)
          ∧ ColCompletes (.mstget o) s .colC 0 (fun s => holds 1 (sendV (c + 4) o.v x tagRaw 2 64 a.poison s)))
      ∧ (VIdle s o.v → (readV s o.v).tag.toNat ∈ [tagRaw, tagInt32] → (readV s o.v).rows * (readV s o.v).cols = 128 →
        ∃ t, exec (.mstset o) s = .next t
          ∧ (∀ r, r < 64 → elemAt (readA t o.n).m.toNat 32 r = elemAt (readV s o.v).data.toNat 32 r
              ∧ elemAt (readA t o.n).l.toNat 32 r = elemAt (readV s o.v).data.toNat 32 (64 + r))
          ∧ (readA t o.n).sums = a.sums ∧ (readA t o.n).masked = a.masked ∧ (readA t o.n).sat = a.sat
          ∧ (readA t o.n).poison = (a.poison || (readV s o.v).poison) ∧ (readA t o.n).writeDone = c + 5 ∧ t.core.units.accPort = c + 1 ∧ OnlyMatrix s t))
    ∧ (∀ (o : MadhOp), reject? (.madh o) = none → VIdle s o.v → AIdle s o.n →
      let a := readA s o.n
      let x := readV s o.v
      (a.ctx.isOpen = true → ColTraps (.madh o) s .colC (trapOf .illegal))
      ∧ (a.ctx.isOpen = false → x.tag.toNat ∈ [tagRaw, tagInt32, tagIndex32] → 16 ≤ x.rows * x.cols → x.poison = false →
        ∃ t, exec (.madh o) s = .next t
          ∧ (o.c = 1 → (readA t o.n).ctx.layer.toNat = elemAt x.data.toNat 32 8 % 2 ^ 12 ∧ (readA t o.n).ctx.proj.toNat = elemAt x.data.toNat 32 9 % 2 ^ 4
              ∧ (readA t o.n).ctx.blk.toNat = elemAt x.data.toNat 32 10 % 2 ^ 16)
          ∧ (o.c = 0 → (readA t o.n).ctx = a.ctx)
          ∧ (o.h = 1 → ∃ h : Vector (BitVec 32) 8, (∀ g : Fin 8, h[g].toNat = elemAt x.data.toNat 32 g.val % 2 ^ 24)
              ∧ { due := c + 1, order := 2, eff := .handles o.n h } ∈ t.core.fx)
          ∧ (readA t o.n).sums = a.sums ∧ (readA t o.n).writeDone = c + 2 ∧ OnlyMatrix s t))

/-- R262, R263, R264, R407, R408, R409, R265: streaming softmax. SMXSTEP applies a block of 32 scores to each row and writes the P tile 24 cycles on;
SMXFIN gives the exact quotients O / l rounded once, +0 in masked rows; SMXMERGE gives the merge of two triples, row by row, 20 cycles on. -/
def Obligations.StreamingSoftmax : Prop :=
  ∀ (s : State),
    let c := cyc s
    let e32 (r : VReg) (i : Nat) : XReal := fp32 (elemAt r.data.toNat 32 i)
    let state (a : Acc) (r : Nat) : RowState := (sNat 32 (elemAt a.m.toNat 32 r), elemAt a.l.toNat 32 r)
    let cells (a : Acc) (r : Nat) : List Nat := (List.range 64).map (cellBits a r)
    slotBusy s.core.units c .arith = false →
    (∀ (o : SmxOp), AIdle s o.n → VIdle s o.s → VIdle s o.x → (readT s o.p).busy = 0 → (readA s o.n).tag.toNat = tagFp32 → (readV s o.s).tag.toNat = tagFp32 →
      (readV s o.s).rows * (readV s o.s).cols = 2048 → (readV s o.x).tag.toNat ∈ [tagRaw, tagFp32] →
      (if o.b = 1 then 64 else 1) ≤ (readV s o.x).rows * (readV s o.x).cols →
      let a := readA s o.n
      let pf := tagBf16 + o.f.toNat
      let row (r : Nat) := smxRow (state a r) (cells a r) (e32 (readV s o.x) 0)
        ((List.range 32).map fun i => if maskBit s o.k (32 * r + i) then some (e32 (readV s o.s) (32 * r + i)) else none)
        ((List.range 32).map fun i => if o.b = 1 then some (e32 (readV s o.x) (32 + i)) else none) pf
      ∃ t, exec (.smxstep o) s = .next t
        ∧ (∀ r, r < 64 → elemAt (readA t o.n).m.toNat 32 r = intMod 32 (row r).1.1 ∧ elemAt (readA t o.n).l.toNat 32 r = (row r).1.2 % 2 ^ 32
            ∧ ∀ k, k < 64 → cellBits (readA t o.n) r k = ((row r).2.1).getD k 0 % 2 ^ 32)
        ∧ (∃ p : BitVec 65536, { due := c + 24, order := 2, eff := .tWrite o.p p (BitVec.ofNat 4 pf) ((readV s o.s).poison || (readV s o.x).poison) true } ∈ t.core.fx
            ∧ ∀ r i, r < 64 → i < 32 →
              elemAt p.toNat (tagWidth pf) ((if pf ≤ tagFp16 then 32 else 64) * r + i) = ((row r).2.2.1).getD i 0 % 2 ^ tagWidth pf)
        ∧ (readA t o.n).poison = (a.poison || (readV s o.s).poison || (readV s o.x).poison) ∧ (readA t o.n).writeDone = c + 25
        ∧ t.core.units.arith = c + 8 ∧ OnlyMatrix s t)
    ∧ (∀ (o : AccV), AIdle s o.n → (readA s o.n).tag.toNat = tagFp32 →
      let a := readA s o.n
      (o.v.toNat < 31 → (readV s o.v).busy = 0 → (readV s (o.v + 1)).busy = 0 →
        let out (i : Nat) : Nat :=
          if (state a (i / 64)).1 = -0x80000000 then 0
          else toFp32 (divide32 (fp32 (cellBits a (i / 64) (i % 64))) (fp32 (state a (i / 64)).2)).1 % 2 ^ 32
        ∃ t x y, exec (.smxfin o) s = .next t
          ∧ (∀ i, i < 2048 → elemAt x 32 i = out i ∧ elemAt y 32 i = out (2048 + i))
          ∧ { due := c + 20, order := 2, eff := .vWrite o.v (BitVec.ofNat 65536 x) (BitVec.ofNat 4 tagFp32) 32 64 a.poison true } ∈ t.core.fx
          ∧ { due := c + 20, order := 2, eff := .vWrite (o.v + 1) (BitVec.ofNat 65536 y) (BitVec.ofNat 4 tagFp32) 32 64 a.poison true } ∈ t.core.fx
          ∧ (∀ r, r < 64 → (readA t o.n).masked.getLsbD r = (a.masked.getLsbD r || decide ((state a r).1 = -0x80000000)))
          ∧ (readA t o.n).sums = a.sums ∧ (readA t o.n).m = a.m ∧ (readA t o.n).l = a.l ∧ (readA t o.n).writeDone = c + 21
          ∧ t.core.units.arith = c + 16 ∧ OnlyMatrix s t)
      ∧ (o.v.toNat < 30 → VIdle s o.v → VIdle s (o.v + 1) → VIdle s (o.v + 2) → (readV s o.v).tag.toNat = tagFp32 → (readV s (o.v + 1)).tag.toNat = tagFp32 →
        (readV s (o.v + 2)).tag.toNat = tagRaw → (readV s o.v).rows * (readV s o.v).cols = 2048 → (readV s (o.v + 1)).rows * (readV s (o.v + 1)).cols = 2048 →
        (readV s (o.v + 2)).rows = 2 → (readV s (o.v + 2)).cols = 64 →
        let x := (readV s o.v).data.toNat
        let y := (readV s (o.v + 1)).data.toNat
        let z := (readV s (o.v + 2)).data.toNat
        let other (r : Nat) : RowState × List Nat :=
          ((sNat 32 (elemAt z 32 r), elemAt z 32 (64 + r)), (List.range 64).map fun k => if r < 32 then elemAt x 32 (64 * r + k) else elemAt y 32 (64 * (r - 32) + k))
        let row (r : Nat) := (mergeRow (state a r, cells a r) (other r)).1
        ∃ t, exec (.smxmerge o) s = .next t
          ∧ (∀ r, r < 64 → elemAt (readA t o.n).m.toNat 32 r = intMod 32 (row r).1.1 ∧ elemAt (readA t o.n).l.toNat 32 r = (row r).1.2 % 2 ^ 32
              ∧ ∀ k, k < 64 → cellBits (readA t o.n) r k = (row r).2.getD k 0 % 2 ^ 32)
          ∧ (readA t o.n).masked = a.masked ∧ (readA t o.n).sat = a.sat ∧ (readA t o.n).writeDone = c + 21 ∧ t.core.units.arith = c + 16 ∧ OnlyMatrix s t))

/-! ### Column memory words (15_isa_memory) -/

/-- R422, R430, R172: EADD, ESET and EMOV write one part of an e register and leave the other two; KVX takes the head of its queue, translates the position
it names in its sequence, and writes the address 8 cycles on; an empty queue makes it wait. -/
def Obligations.AddressRegisterWords : Prop :=
  ∀ (s : State),
    let c := cyc s
    (∀ o : EImm, reject? (.eadd o) = none →
      let e := readE s o.e
      (o.p = 0 → ColCompletes (.eadd o) s o.col 0 (writeE o.e { e with addr := BitVec.ofInt 48 (e.addr.toNat + o.i.toInt) })
        ∧ ColCompletes (.eset o) s o.col 0 (writeE o.e { e with addr := BitVec.ofInt 48 o.i.toInt }))
      ∧ (o.p = 1 → ColCompletes (.eadd o) s o.col 0 (writeE o.e { e with stride := BitVec.ofInt 32 (e.stride.toNat + o.i.toInt) })
        ∧ ColCompletes (.eset o) s o.col 0 (writeE o.e { e with stride := BitVec.ofInt 32 o.i.toInt }))
      ∧ (o.p = 2 → ColCompletes (.eadd o) s o.col 0 (writeE o.e { e with tag := BitVec.ofNat 16 (e.tag.toNat + o.i.toNat) })
        ∧ ColCompletes (.eset o) s o.col 0 (writeE o.e { e with tag := BitVec.ofNat 16 o.i.toNat })))
    ∧ (∀ o : EMovOp, reject? (.emov o) = none →
      let e := readE s o.e
      let f := readE s o.s
      (o.p = 0 → ColCompletes (.emov o) s o.col 0 (writeE o.e { e with addr := f.addr }))
      ∧ (o.p = 1 → ColCompletes (.emov o) s o.col 0 (writeE o.e { e with stride := f.stride }))
      ∧ (o.p = 2 → ColCompletes (.emov o) s o.col 0 (writeE o.e { e with tag := f.tag })))
    ∧ (∀ o : KvxOp,
      let q := readQ s o.q
      let ready := q.entries.filter fun e => e.stamp < c
      (ready = [] → ColWaits (.kvx o) s .colL)
      ∧ (∀ x rest va, ready = x :: rest → x.poison = false →
        let payload := if x.token then 0 else x.payload.toNat
        let seq := payload / 2 ^ 32 % 2 ^ 16
        tlbHolds s.core s.core.sys.world (seqKey seq) = true → kvAddr s seq (payload % 2 ^ 32) = .ok va →
        ColCompletes (.kvx o) s .colL 0 (fun s => post (c + 8) 1 (.eAddr o.e (BitVec.ofNat 48 va))
          (writeQ o.q { q with entries := q.entries.drop 1, freedAt := c, freedN := if q.freedAt = c then q.freedN + 1 else 1 } s)))
      ∧ (∀ x rest, ready = x :: rest → x.poison = true → ColTraps (.kvx o) s .colL (trapOf .poison)))

/-- R423, R424, R52, R185: LDT and STT, and LDTU and STTU alike, bind their requests to the slots that the calendar gives, one record for each, and hold
their port for one cycle; a tagged load becomes a producer of its slot. Offsets beyond the slot and addresses off the grid are alignment faults, and a
channel that gives no slot, or an address of the domain window (03_links_trust R87), is LATE. -/
def Obligations.TimedTransfers : Prop :=
  ∀ (s : State) (o : TimedOp) (i : Instr) (write : Bool), (i = .ldt o ∨ i = .ldtu o) ∧ write = false ∨ (i = .stt o ∨ i = .sttu o) ∧ write = true →
    let col : Col := if write then .colW else .colL
    let e := readE s o.e
    let n := o.n.toNat + 1
    let va := e.addr.toNat
    let slot := o.s.toNat
    let grid : Prop := va % 512 = 0 ∧ va % 4096 + 512 * n ≤ 4096
    (getCol s.core col).portBusy ≤ cyc s → ¬ (o.t = 1 ∧ e.tag = 0xFFFF) →
    (write = true → (getSlot s.core slot).failed = none ∧ (getSlot s.core slot).pend = 0 ∧ (getSlot s.core slot).tag.toNat ≠ 0xFFFF
      ∧ (o.t = 1 → (getSlot s.core slot).tag.toNat = e.tag.toNat)) →
    (8 < o.k.toNat + n ∨ ¬ grid → ColTraps i s col { cause := .alignment, addr := BitVec.ofNat 64 va })
    ∧ (o.k.toNat + n ≤ 8 → grid → ∀ pa p, xlateAll s false [va] = .ok [(pa, va, p)] → isRemote s pa = true → ColTraps i s col (trapOf .late))
    ∧ (o.k.toNat + n ≤ 8 → grid → ∀ pa p, xlateTimed s write va = .ok [(pa, va, p)] →
      (tierOf pa ≠ .hbm ∨ bindSlots s s.coreId (channelOf pa) n (s.now + requestPath) = none → ColTraps i s col (trapOf .late))
      ∧ (∀ starts, tierOf pa = .hbm → bindSlots s s.coreId (channelOf pa) n (s.now + requestPath) = some starts →
        (write = false → o.t = 1 → (getSlot s.core slot).pend ≠ 15) →
        ∃ t l, exec i s = .next t ∧ t.core.timed = s.core.timed ++ l ∧ l.length = starts.length
          ∧ (∀ j, j < starts.length → ∃ r, l[j]? = some r ∧ r.start = starts.getD j 0 ∧ r.pa = pa + 512 * j ∧ r.isWrite = write ∧ r.slot = slot
              ∧ r.off = 512 * o.k.toNat + 512 * j ∧ (r.tagged = if o.t = 1 ∧ write = false then some e.tag else none)
              ∧ (write = true → r.data.toNat = leNat (cellRead s.core.sp (4096 * slot + 512 * o.k.toNat + 512 * j) 512)))
          ∧ (getCol t.core col).portBusy = cyc s + 1
          ∧ t.core.fx = s.core.fx ++ (if o.t = 1 ∧ write = false then [{ due := cyc s, order := 1, eff := .slotPend slot }] else [])
          ∧ t.core.g = s.core.g ∧ t.core.v = s.core.v ∧ t.core.t = s.core.t ∧ t.core.flags = s.core.flags ∧ t.core.sp = s.core.sp ∧ SameMemory s t))

/-- R425 to R429, R431, R434, R372, R393: column loads. A load from the scratchpad reads it in its issue cycle and is written B + 3 cycles on: TLD the bytes
of the tile's format, VLD and GLD the active elements, BFX the fields of its pattern. A load from space gl whose pages are mapped, and one from the weight
store, leaves with its lines and one port cycle. WLD copies 512 bytes into a slot 52 cycles of the 1.6 GHz clock later.
R432, R433, R434, R273, R393, R372: column stores. A store to the scratchpad writes all its bytes 4 cycles on, ACST 6: VST the active elements, SCT those
that the index vector places, the later of two at one byte, TWR the bytes of the tile's format, ACST the converted sums in row order. A store to space gl
whose pages may be written leaves by the core port. Space wt is a permission fault, and code 3 an illegal instruction. -/
def Obligations.ColumnLoadsAndStores : Prop :=
   (∀ (s : State),
      let c := cyc s
      let port : Prop := s.core.colL.portBusy ≤ c
      let room : Prop := s.core.loads.length < 8
      let format (e : EReg) (old : BitVec 4) : Nat := if e.tag.toNat / 4096 = 0 then old.toNat else e.tag.toNat / 4096
      let known (e : EReg) : Prop := e.tag.toNat / 4096 < 14
      let vSends (i : Instr) (v : BitVec 5) (b : Nat) (x : VNew) : Prop :=
        ColCompletes i s .colL 0 fun s => holdPort .colL b
          (post (c + b + 3) 1 (.vWrite v (BitVec.ofNat 65536 x.data) (BitVec.ofNat 4 x.tag) x.rows x.cols x.poison true) (post c 1 (.vPend v) s))
      (∀ o : TldOp,
        let e := readE s o.e
        let a := e.addr.toNat
        let tag := format e (readT s o.t).tag
        let n := tileBytes tag
        known e → (readT s o.t).busy = 0 → port → a % 64 = 0 →
        (a < 0x100000 → a + n ≤ 0x80000 → ¬ (o.x = 1 ∧ e.tag = 0xFFFF) → checkSlots s [(a, n)] (if o.x = 1 then some e.tag.toNat else none) = .ok () →
          let x : BitVec 65536 := BitVec.ofNat 65536 (leNat (spBytes s a n))
          ColCompletes (.tld o) s .colL 0 fun s => holdPort .colL (ceilDiv n 256)
            (post (c + ceilDiv n 256 + 3) 1 (.tWrite o.t x (BitVec.ofNat 4 tag) (runsPoison s.core [(a, n)]) true) (post c 1 (.tPend o.t) s)))
        ∧ (∀ ls, 0x100000 ≤ a → o.x = 0 → room → xlateFar s false (runLines [(a, n)]) = .ok ls →
          ColCompletes (.tld o) s .colL 0 (loadFar (.treg o.t (BitVec.ofNat 4 tag)) (byteRun a n) ls false)))
      ∧ (∀ o : VldOp,
        let e := readE s o.e
        let old := readV s o.v
        let a := e.addr.toNat
        let tag := format e old.tag
        let n := old.rows * old.cols
        let m := maskBit s o.k
        let w := tagWidth tag / 8
        let on := (List.range n).filter m
        known e → port → tag ∉ [tagSe7, tagSe4, tagSe2] → VDest s o.v tag old.rows old.cols m → a % w = 0 →
        (o.p = 0 → ¬ (o.x = 1 ∧ e.tag = 0xFFFF) → (∀ j ∈ on, a + j * w + w ≤ 0x80000) →
          checkSlots s (on.map fun j => (a + j * w, w)) (if o.x = 1 then some e.tag.toNat else none) = .ok () →
          ∃ x, vSends (.vld o) o.v (ceilDiv (on.length * w) 256) x ∧ x.tag = tag ∧ x.rows = old.rows ∧ x.cols = old.cols
            ∧ Lanes old m x (fun j => leNat (spBytes s (a + j * w) w))
            ∧ LanePoison old m x (runsPoison s.core (on.map fun j => (a + j * w, w))))
        ∧ (∀ ls, o.p = 1 → o.x = 0 → room → xlateFar s false (runLines (on.map fun j => (a + j * w, w))) = .ok ls →
          ColCompletes (.vld o) s .colL 0 (loadFar (.vreg o.v (BitVec.ofNat 4 tag) (readM s o.k))
            ((List.range n).flatMap fun j => if m j then byteRun (a + j * w) w else List.replicate w none) ls true))
        ∧ (∀ u, o.p = 2 → o.x = 0 → room →
          loadWt (.vreg o.v (BitVec.ofNat 4 tag) (readM s o.k)) ((List.range n).flatMap fun j => if m j then byteRun (a + j * w) w else List.replicate w none)
            (on.map fun j => (a + j * w, w)) s = .ok u → ColCompletes (.vld o) s .colL 0 (fun _ => u))
        ∧ (o.p = 3 → ColTraps (.vld o) s .colL (trapOf .illegal) ∨ ¬ room))
      ∧ (∀ o : VldOp,
        let e := readE s o.e
        let old := readV s o.v
        let a := e.addr.toNat
        let tag := format e old.tag
        let n := seBytes tag (old.rows * old.cols)
        known e → port → tag ∈ [tagSe7, tagSe4, tagSe2] → old.busy = 0 → (old.rows * old.cols) % 16 = 0 → a % 2 = 0 → o.x = 0 →
        (o.p = 0 → a + n ≤ 0x80000 → checkSlots s [(a, n)] none = .ok () →
          vSends (.vld o) o.v (ceilDiv n 256)
            { data := leNat (spBytes s a n), tag := tag, rows := old.rows, cols := old.cols, poison := runsPoison s.core [(a, n)] })
        ∧ (∀ ls, o.p = 1 → room → xlateFar s false (runLines [(a, n)]) = .ok ls →
          ColCompletes (.vld o) s .colL 0 (loadFar (.vreg o.v (BitVec.ofNat 4 tag) (BitVec.allOnes 2048)) (byteRun a n) ls true)))
      ∧ (∀ o : IdxOp,
        let e := readE s o.e
        let old := readV s o.v
        let x := readV s o.i
        let tag := format e old.tag
        let n := old.rows * old.cols
        let m := maskBit s o.k
        let w := tagWidth tag / 8
        let index (j : Nat) := elemAt x.data.toNat 32 j
        let place (j : Nat) := e.addr.toNat + index j * w
        let on := (List.range n).filter m
        let hits := (on.filter fun j => index j ≠ 0xFFFFFFFF).map place
        let runs := hits.map fun y => (y, w)
        known e → port → tag ∉ [tagSe7, tagSe4, tagSe2] → VDest s o.v tag old.rows old.cols m → VIdle s o.i → x.tag.toNat = tagIndex32 →
        x.rows * x.cols = n → x.poison = false → (∀ y ∈ hits, y % w = 0) →
        (o.p = 0 → (∀ y ∈ hits, y + w ≤ 0x80000) → checkSlots s runs none = .ok () →
          ∃ v, vSends (.gld o) o.v (ceilDiv on.length 32) v ∧ v.tag = tag ∧ v.rows = old.rows ∧ v.cols = old.cols
            ∧ Lanes old m v (fun j => if index j = 0xFFFFFFFF then 0 else leNat (spBytes s (place j) w))
            ∧ LanePoison old m v (runsPoison s.core runs))
        ∧ (∀ ls, o.p = 1 → room → xlateFar s false (runLines runs) = .ok ls →
          ColCompletes (.gld o) s .colL 0 (loadFar (.vreg o.v (BitVec.ofNat 4 tag) (readM s o.k))
            ((List.range n).flatMap fun j => if m j ∧ index j ≠ 0xFFFFFFFF then byteRun (place j) w else List.replicate w none) ls false)))
      ∧ (∀ (o : BfxOp) (period : Nat) (fs : List (Nat × Nat × Bool)),
        let e := readE s o.e
        let old := readV s o.v
        let a := e.addr.toNat
        let tag := format e old.tag
        let w := tagWidth tag
        let count := old.rows * old.cols
        let n := ceilDiv (ceilDiv count fs.length * period) 8
        let pattern := (s.core.p[o.p.toNat]'o.p.isLt)
        known e → port → old.busy = 0 → patternOf pattern = some (period, fs) → tag ∈ [tagInt8, tagInt16, tagInt32, tagUint8, tagIndex32] →
        (∀ f ∈ fs, f.2.1 ≤ w) →
        (o.s = 0 → a + n ≤ 0x80000 → checkSlots s [(a, n)] none = .ok () →
          let field (k : Nat) : Nat :=
            let f := fs.getD (k % fs.length) (0, 1, false)
            let x := leNat (spBytes s a n) / 2 ^ (k / fs.length * period + f.1) % 2 ^ f.2.1
            if f.2.2 ∧ 2 ^ (f.2.1 - 1) ≤ x then x + 2 ^ w - 2 ^ f.2.1 else x
          ∃ v, vSends (.bfx o) o.v (ceilDiv n 256) v ∧ v.tag = tag ∧ v.rows = old.rows ∧ v.cols = old.cols
            ∧ (∀ k, k < count → elemAt v.data w k = field k) ∧ v.poison = runsPoison s.core [(a, n)])
        ∧ (∀ ls, o.s = 1 → room → xlateFar s false (runLines [(a, n)]) = .ok ls →
          ColCompletes (.bfx o) s .colL 0 (loadFar (.bitfield o.v (BitVec.ofNat 4 tag) pattern) (byteRun a n) ls false)))
      ∧ (∀ o : WldOp,
        let e := readE s o.e
        let off := e.addr.toNat
        let bank := off / 2 ^ 24
        ¬ (o.t = 1 ∧ e.tag = 0xFFFF) →
        (off % 512 ≠ 0 → ColTraps (.wld o) s .colL { cause := .alignment, addr := BitVec.ofNat 64 off })
        ∧ (off % 512 = 0 → (0x3FFFFFFF < off ∨ bankOwned s bank = false) →
          ColTraps (.wld o) s .colL { cause := .permission, addr := BitVec.ofNat 64 off })
        ∧ (off % 512 = 0 → off ≤ 0x3FFFFFFF → bankOwned s bank = true → port → (o.t = 0 ∨ (getSlot s.core o.s.toNat).pend ≠ 15) →
          (refreshHits s bank = true ∨ s.now + 12 < bankFreeAt s bank → ColTraps (.wld o) s .colL (trapOf .late))
          ∧ (refreshHits s bank = false → bankFreeAt s bank ≤ s.now + 12 →
            ∃ t l, exec (.wld o) s = .next t ∧ t.core.fx = s.core.fx ++ l ∧ (∀ x ∈ l, x.eff = .slotPend o.s.toNat ∨ x.due = coreAfter s 52)
              ∧ (∀ i, i < 8 →
                  let line := lineAt s (weightPa s (off + 64 * i)) 0
                  { due := coreAfter s 52, order := 1, eff := .localWrite (4096 * o.s.toNat + 512 * o.k.toNat + 64 * i) line.bytes line.poison } ∈ l)
              ∧ (o.t = 1 → { due := c, order := 1, eff := .slotPend o.s.toNat } ∈ l ∧ { due := coreAfter s 52, order := 1, eff := .slotLand o.s.toNat e.tag c } ∈ l)
              ∧ (getCol t.core .colL).portBusy = c + 1 ∧ assocGet t.core.banks bank = some (s.now + 44)
              ∧ t.core.g = s.core.g ∧ t.core.v = s.core.v ∧ t.core.t = s.core.t ∧ t.core.sp = s.core.sp ∧ SameMemory s t))))
 ∧ (∀ (s : State),
      let c := cyc s
      let port : Prop := s.core.colW.portBusy ≤ c
      let room : Prop := s.core.stores.length < 16
      let bytesAt (a : Nat) (bs : List Byte) (x : Nat) : Option Byte := if a ≤ x then bs[x - a]? else none
      (∀ o : VstOp,
        let e := readE s o.e
        let r := readV s o.v
        let a := e.addr.toNat
        let w := vWidth r / 8
        let n := r.rows * r.cols
        let m := maskBit s o.k
        (o.p = 2 → ColTraps (.vst o) s .colW { cause := .permission, addr := BitVec.ofNat 64 a })
        ∧ (o.p = 3 → ColTraps (.vst o) s .colW (trapOf .illegal))
        ∧ (VIdle s o.v → port → r.tag.toNat ∉ [tagSe7, tagSe4, tagSe2] → a % w = 0 →
          (o.p = 0 → (∀ j, j < n → m j = true → a + j * w + w ≤ 0x80000) →
            StoresLocal (.vst o) s (c + 4) (ceilDiv (((List.range n).filter m).length * w) 256) r.poison fun x =>
              let j := (x - a) / w
              if a ≤ x ∧ j < n ∧ m j = true then some (BitVec.ofNat 8 (vLane r j / 256 ^ ((x - a) % w))) else none)
          ∧ (∀ ls, o.p = 1 → room → xlateFar s true (runLines ((vectorRuns r (readM s o.k) a).map fun x => (x.1, x.2.length))) = .ok ls →
            ColCompletes (.vst o) s .colW 0
              (storeFar (ceilDiv (runsSize (vectorRuns r (readM s o.k) a)) 256) (vectorRuns r (readM s o.k) a) ls r.poison)))
        ∧ (VIdle s o.v → port → r.tag.toNat ∈ [tagSe7, tagSe4, tagSe2] → a % 2 = 0 → o.p = 0 → a + seBytes r.tag.toNat n ≤ 0x80000 →
          StoresLocal (.vst o) s (c + 4) (ceilDiv (seBytes r.tag.toNat n) 256) r.poison (bytesAt a (leBytes (seBytes r.tag.toNat n) r.data.toNat))))
      ∧ (∀ o : IdxOp,
        let e := readE s o.e
        let r := readV s o.v
        let y := readV s o.i
        let w := vWidth r / 8
        let n := r.rows * r.cols
        let index (j : Nat) := elemAt y.data.toNat 32 j
        let place (j : Nat) := e.addr.toNat + index j * w
        let on (j : Nat) : Bool := maskBit s o.k j && index j ≠ 0xFFFFFFFF
        VIdle s o.v → VIdle s o.i → port → y.tag.toNat = tagIndex32 → y.rows * y.cols = n → r.tag.toNat ∉ [tagSe7, tagSe4, tagSe2] → y.poison = false →
        (∀ j, j < n → on j = true → place j % w = 0) →
        (o.p = 0 → (∀ j, j < n → on j = true → place j + w ≤ 0x80000) →
          ∃ b, StoresLocal (.sct o) s (c + 4) b r.poison fun x =>
            (List.range n).foldl (fun acc j => if on j = true ∧ place j ≤ x ∧ x < place j + w then some (BitVec.ofNat 8 (vLane r j / 256 ^ (x - place j))) else acc) none)
        ∧ (∀ ls, o.p = 1 → room →
          let runs := elemRuns w (((List.range n).filter on).map fun j => (place j, vLane r j))
          xlateFar s true (runLines (runs.map fun x => (x.1, x.2.length))) = .ok ls →
          ColCompletes (.sct o) s .colW 0 (storeFar (ceilDiv (runsSize runs) 256) runs ls r.poison)))
      ∧ (∀ o : TwrOp,
        let a := (readE s o.e).addr.toNat
        let t := readT s o.t
        let bs := leBytes (tileBytes t.tag.toNat) t.data.toNat
        TIdle s o.t → port → a % 64 = 0 →
        (a + bs.length ≤ 0x80000 → StoresLocal (.twr o) s (c + 4) (ceilDiv bs.length 256) t.poison (bytesAt a bs))
        ∧ (∀ ls, 0x100000 ≤ a → room → xlateFar s true (runLines [(a, bs.length)]) = .ok ls →
          ColCompletes (.twr o) s .colW 0 (storeFar (ceilDiv bs.length 256) [(a, bs)] ls t.poison))
        ∧ (0x80000 < a + bs.length → a < 0x100000 → ColTraps (.twr o) s .colW { cause := .alignment, addr := BitVec.ofNat 64 a }))
      ∧ (∀ o : AcstOp,
        let a := (readE s o.e).addr.toNat
        let x := readA s o.n
        let ft := o.t.toNat
        let w := tagWidth ft
        let floats : Bool := x.tag.toNat = tagFp32
        let mode : Mode := if floats then rmode s else .rne
        let all : Nat → Bool := fun _ => true
        let st := s.core.sys.srState.toNat
        let sum (j : Nat) : Nat × FpFlags := roundedLane ft mode floats all st j (decodeTag x.tag.toNat (elemAt x.sums.toNat 32 j), false)
        let flags (f : FpFlags) : Prop := FlagsOf 4096 all (fun j => (sum j).2) f
        AIdle s o.n → port → a % 64 = 0 → reject? (.acst o) = none → (floats = true ↔ ft ∈ tagsF) → a + 512 * w ≤ 0x80000 →
        ∃ f, flags f
          ∧ (trapping s f ≠ 0 → exec (.acst o) s
              = .next (raiseCol .colW (trapOf (.floating (trapping s f))) (modSys (fun y => { y with sticky := y.sticky ||| f.bits }) s)))
          ∧ (trapping s f = 0 → ∃ bs : List Byte, bs.length = 512 * w ∧ (∀ j, j < 4096 → elemAt (leNat bs) w j = (sum j).1 % 2 ^ w)
              ∧ ColCompletes (.acst o) s .colW 0 fun s =>
                  modSys (fun y => { y with srState := BitVec.ofNat 32 (drawsTo mode all st 4096) })
                    ((if f.bits = 0 then id else post (c + 6) 3 (.sticky f.bits))
                      (holdPort .colW (ceilDiv bs.length 256) (post (c + 6) 3 (.localWrite a bs x.poison) s))))))

/-! ### Engine commands (16_isa_engines R438 to R456; 07_serving_structures; 02_memory_tiers R64) -/

/-- R438, R439, R442: how every engine command starts. A record in order with its operands ready leaves its queue and does its work, at once or when the
clear of its engine and the accesses before it are over (03_links_trust R99, 09_memory_model R283); one that is not in order ends with BADCMD; a
scratchpad operand that is not ready is an entry trap, and the command stays queued. A WLOAD on a held bank and a KFREE of a sequence that a SLATTN reads
wait. -/
def Obligations.EngineCommandStarts : Prop :=
  ∀ (s : State) (c : Cmd),
    StartsWith (.copy2d c) (copyEngine s c) c (copyValid c) (copyReady c) (copyStart c) s
    ∧ StartsWith (.copyr c) 0x08 c (copyrValid c) noOperands (whenReady 0x08 true (copyrWork c)) s
    ∧ StartsWith (.slattn c) 0x10 c (attnValid c) (attnReady c) (attnStart c) s
    ∧ StartsWith (.lgmerge c) 0x11 c (mergeValid c) (mergeReady c) (whenReady 0x11 true (mergeWork c)) s
    ∧ StartsWith (.lgunmerge c) 0x11 c (unmergeValid c) (unmergeReady c) (whenReady 0x11 true (unmergeWork c)) s
    ∧ StartsWith (.lgsave c) 0x11 c (lgsaveValid c) noOperands (whenReady 0x11 true (lgsaveWork c)) s
    ∧ StartsWith (.lgdrop c) 0x11 c (lgdropValid c) noOperands (whenReady 0x11 false (lgdropWork c)) s
    ∧ StartsWith (.adpin c) 0x12 c (adpinValid c) noOperands (whenReady 0x12 false (adpinWork c)) s
    ∧ StartsWith (.adunpin c) 0x12 c (adunpinValid c) noOperands (whenReady 0x12 false (adunpinWork c)) s
    ∧ StartsWith (.adpubCreate c) 0x12 c (createValid c) noOperands (whenReady 0x12 false (createWork c)) s
    ∧ StartsWith (.adpubGrant c) 0x12 c (grantValid c) noOperands (whenReady 0x12 false (onLive c ownsHandle (grantAct c))) s
    ∧ StartsWith (.adpubPrepare c) 0x12 c (bareValid c) noOperands (whenReady 0x12 false (onLive c publishes prepareAct)) s
    ∧ StartsWith (.adpubCommit c) 0x12 c (commitValid c) noOperands (whenReady 0x12 true (onLive c publishes (commitAct c))) s
    ∧ StartsWith (.adpubDelete c) 0x12 c (bareValid c) noOperands (whenReady 0x12 false (onLive c ownsHandle deleteAct)) s
    ∧ StartsWith (.kalloc c) 0x13 c (kallocValid c) noOperands (kallocWork c) s
    ∧ StartsWith (.kallocPool c) 0x13 c (poolValid c) noOperands (poolWork c) s
    ∧ StartsWith (.kextendAlloc c) 0x13 c (extendValid c) noOperands (extendAllocWork c) s
    ∧ StartsWith (.kextendShare c) 0x13 c (shareValid c) noOperands (shareWork c) s
    ∧ StartsWith (.kextendSetlen c) 0x13 c (extendValid c) noOperands (setlenWork c) s
    ∧ (kfreeHeld c s = false → StartsWith (.kfree c) 0x13 c (kfreeValid c) noOperands (kfreeWork c) s)
    ∧ (kfreeHeld c s = true → headerOk c.bits = true → kfreeValid c s = true → exec (.kfree c) s = .next (focus s c.core))
    ∧ StartsWith (.migrate c) 0x14 c (migValid c) noOperands (migWork c) s
    ∧ StartsWith (.migrateReplica c) 0x14 c (migValid c) noOperands (migWork c) s
    ∧ StartsWith (.migrateCancel c) 0x14 c (migValid c) noOperands (cancelWork c) s
    ∧ StartsWith (.colred c) 0x15 c (colValid c) noOperands (whenReady 0x15 true (colWork c)) s
    ∧ StartsWith (.colgat c) 0x15 c (colValid c) noOperands (whenReady 0x15 true (colWork c)) s
    ∧ StartsWith (.colscat c) 0x15 c (colValid c) noOperands (whenReady 0x15 true (colWork c)) s
    ∧ (wloadHeld c s = false → StartsWith (.wload c) 0x16 c (wloadValid c) noOperands (whenReady 0x16 true (wloadWork c)) s)
    ∧ (wloadHeld c s = true → headerOk c.bits = true → wloadValid c s = true → exec (.wload c) s = .next (focus s c.core))

/-- R443, R444, R445, R447, R448, R449, R456: what the data engines do when nothing keeps them waiting. A COPY2D within the scratchpad, or from it to a
tile register, copies its rows as if one at a time and lands 8 + B/128 cycles on, tagged or with its follow-on word; one of one row with an end off the
core moves the row's bytes, and stops, parks or waits where its first failing line does; a COPYR of an old view ends with VIEWCHANGED and one whose source
is elsewhere asks for it; SLATTN forms each query's triple over the blocks it took at its start, tagged or not; LGMERGE reports its map and how many pairs
it merged, and the map's entries follow them, LGUNMERGE and LGDROP free theirs; a WLOAD writes its lines into the weight store. -/
def Obligations.DataEngineResults : Prop :=
  ∀ (s : State) (c : Cmd),
    (let o := copyOp c
      let e := copyEngine s c
      let z := copying c s
      let r := copyTaking c s
      let from_ := rowAddr o.src o.sStride
      let to_ := rowAddr o.dst o.dStride
      let row (m : List Host.Cell) (a : Nat) : List Byte := (spanLines a o.len).flatMap fun y => cellRead m y.2.1 (y.2.2 - y.2.1)
      let goes (u : State) (due : Cycle) (status : List Nat) : Prop :=
        exec (.copy2d c) s = .next u ∧ ∃ q ∈ u.running, q.seq = c.seq ∧ q.eng = e ∧ q.due = due ∧ q.status.toNat ∈ status ∧ q.pending = false
      let lands (z : State) (u : State) (l : List Fx) : Prop := u = { z with running := u.running, core := { z.core with fx := z.core.fx ++ l } }
      worksAtOnce e (!o.near) (taking e c s) (started e c s) = true → headerOk c.bits = true → copyValid c (focus s c.core) = true →
      copyReady c (focus s c.core) = .ok () →
      (let land := cyc z + 8 + ceilDiv (o.rows * o.len) 128
        let copied : List Host.Cell × List (Nat × List Byte) := (List.range o.rows).foldl
          (fun a i => ((spanLines (to_ i) o.len).foldl (fun m y => cellWrite m y.2.1 (((row a.1 (from_ i)).drop (y.2.1 - to_ i)).take (y.2.2 - y.2.1))) a.1,
            a.2 ++ [(to_ i, row a.1 (from_ i))])) (z.core.sp, [])
        o.src < 0x80000 →
        (o.tile = false → o.dst < 0x80000 → ∃ u l, goes u (land + 4) [stOk, stPoisoned] ∧ lands z u l ∧ (∀ x ∈ l, x.due = land)
          ∧ (∀ x, putAt l x = copied.2.foldl (fun acc w => if w.1 ≤ x ∧ x < w.1 + w.2.length then w.2[x - w.1]? else acc) none)
          ∧ (o.tagged = true → { due := land, order := engOrder e, eff := .slotLand (copySlot o) o.seqTag (cyc z) } ∈ l))
        ∧ (o.tile = true → ∃ u d p, lands z u [{ due := land, order := engOrder e, eff := .tWrite o.treg d (BitVec.ofNat 4 o.fmt) p true }]
          ∧ (∀ i, i < 8192 → elemAt d.toNat 8 i = if i < o.rows * o.len then (((row z.core.sp (from_ (i / o.len)))[i % o.len]?).map (·.toNat)).getD 0 else 0)
          ∧ (o.follow = false → goes u (land + 4) [stOk, stPoisoned])
          ∧ (o.follow = true → exec (.copy2d c) s = .next u ∧ ∃ q ∈ u.running, q.seq = c.seq ∧ q.follow = some o.word ∧ q.land = land ∧ q.pending = true)))
      ∧ (let z1 := (copyLands o z).2
        let land := (copyLands o z).1
        let read : Except Halt EBytes :=
          if o.src < 0x80000 then .ok ((spanLines o.src o.len).flatMap fun y => (cellRead z.core.sp y.2.1 (y.2.2 - y.2.1)).map fun b => (b, spPoison z.core y.1))
          else engRead z1 r .copy o.src o.len
        o.near = false → o.rows = 1 → o.follow = false →
        cyc z + coreCycles z z.coreId (farCopyBase + ceilDiv o.len 64) ≤ land
        ∧ (∀ b, read = .ok b → (∀ y ∈ b, y.2 = false) →
          (o.tile = false → o.dst < 0x80000 → ∃ u l, goes u (land + 4) [stOk] ∧ lands z1 u l ∧ (∀ x ∈ l, x.due = land)
            ∧ (∀ x, putAt l x = if o.dst ≤ x then (b[x - o.dst]?).map (·.1) else none)
            ∧ (o.tagged = true → { due := land, order := engOrder e, eff := .slotLand (copySlot o) o.seqTag (cyc z) } ∈ l))
          ∧ (o.tile = true → ∃ u d, goes u (land + 4) [stOk]
            ∧ lands z1 u [{ due := land, order := engOrder e, eff := .tWrite o.treg d (BitVec.ofNat 4 o.fmt) false true }]
            ∧ ∀ i, i < 8192 → elemAt d.toNat 8 i = ((b[i]?).map fun y => y.1.toNat).getD 0)
          ∧ (o.tile = false → 0x80000 ≤ o.dst → (engWrite z1 r .copy (cmdStamp r) o.dst b 0).halt = none →
            ∃ u, goes u (land + 4) [stOk] ∧ u = { (engWrite z1 r .copy (cmdStamp r) o.dst b 0).s with running := u.running }))
        ∧ (∀ st t, read = .error (.stop st t) → ∃ u, goes u (land + 4) [st % 256])
        ∧ (∀ f, read = .error (.park f) → ∃ u, exec (.copy2d c) s = .next u ∧ ∃ q ∈ u.running, q.seq = c.seq
            ∧ q.parked = some { cause := f.cause, addr := f.addr, detail := f.detail, source := 0x80 + e, entry := true })
        ∧ (∀ pa w, read = .error (.wait pa w) → ∃ u, exec (.copy2d c) s = .next u ∧ ∃ q ∈ u.running, q.seq = c.seq ∧ q.wait = .line pa w)))
    ∧ (let o := copyrOp c
      let r0 := taking 0x08 c s
      let z := takeUp 0x08 r0 (started 0x08 c s);
      worksAtOnce 0x08 true r0 (started 0x08 c s) = true → headerOk c.bits = true → copyrValid c (focus s c.core) = true →
      ((getGroup z o.group).view ≠ o.view → EndsWith (.copyr c) 0x08 c s 0 stViewChanged 0 (irrevocableFor z r0.task))
      ∧ ((getGroup z o.group).view = o.view → selfNode z o.srcNode = false →
        ∃ u r, exec (.copyr c) s = .next u ∧ r ∈ u.running ∧ r.seq = c.seq ∧ r.eng = 0x08 ∧ r.pending = true))
    ∧ (let o := attnOp c
      let y := started 0x10 c s
      let r0 := attnLatch c (taking 0x10 c s) y
      let r := if o.tagged then { r0 with tag := some (o.dst / 4096, o.seqTag, cyc y) } else r0
      let z := takeUp 0x10 r (if o.tagged then post (cyc y) (engOrder 0x10) (.slotPend (o.dst / 4096)) y else y);
      worksAtOnce 0x10 true r0 y = true →
      headerOk c.bits = true → attnValid c (focus s c.core) = true → attnReady c (focus s c.core) = .ok () →
      ∀ q x, attnSeq c z = some q → q.world = r.world → q.stopped = false →
        r.blocks.contains uncached = false → readBlocks z r q (r.blocks.zip (seqBlocks r.done.1 q)) = .ok x →
        let u := attnFinish o q r x.1 x.2 z
        let n := tripleBytes q.dim
        exec (.slattn c) s = .next u ∧ ∃ p ∈ u.running, p.seq = c.seq ∧ p.due = p.land + 4 ∧ (p.status.toNat = stOk ∨ p.status.toNat = stPoisoned)
          ∧ cyc z + coreCycles z z.coreId (460 + attnCycles z o q.dim x.1) ≤ p.land ∧ p.tag = r.tag
          ∧ ∀ i, i < o.queries → ((p.buf.drop (n * i)).take n).map (·.1) = tripleOut (attnQuery o q.dim x.1 (queryAt r.held q.dim i).1))
    ∧ (let r := taking 0x11 c s
      let z := takeUp 0x11 r (started 0x11 c s);
      headerOk c.bits = true → worksAtOnce 0x11 true r (started 0x11 c s) = true →
      (∀ m k x y, mergeValid c (focus s c.core) = true → mergeReady c (focus s c.core) = .ok () → mergeMap (mergeOp c) r z = .ok m →
        mergeRead (mergeOp c) r z = .ok (k, x, y) →
        let o := mergeOp c
        let u := mergeOn o m k x y r z
        let edges := (chooseEdges (rowsOfBytes tagBf16 o.d o.n (k.map (·.1))) o.r).1
        exec (.lgmerge c) s = .next u ∧ edges.length ≤ o.r
          ∧ (o.out + o.n * o.dx * xBytes o.fp32 + 8 * o.n + 128 ≤ 0x80000 →
            (∃ p ∈ u.running, p.seq = c.seq ∧ p.result.toNat = (mapHandle m + edges.length * 2 ^ 32) % 2 ^ 48)
            ∧ ∃ w ∈ u.maps, w.part = m.part ∧ w.num = m.num ∧ w.gen = m.gen ∧ w.kept = (keptList o.n edges).length
                ∧ w.entries = mergeEntries m.entries edges (keptList o.n edges)))
      ∧ (∀ m b, unmergeValid c (focus s c.core) = true → unmergeReady c (focus s c.core) = .ok () → findMap z r (fld c 16 4) = .ok m →
        ligAddrOk (fld c 32 8) (unmergeRow c * m.entries.length) = true → ligRead z r (fld c 24 8) (unmergeRow c * m.kept) = .ok b →
        let out := m.entries.flatMap fun e => (b.drop (unmergeRow c * e.2)).take (unmergeRow c);
        exec (.lgunmerge c) s = .next (ligFinish r (ceilDiv (m.entries.length * fld c 20 2) 256) [(fld c 32 8, out)] (out.any (·.2)) 0 {} (fun s => freeMap s m) z))
      ∧ (∀ m, lgsaveValid c (focus s c.core) = true → findMap z r (fld c 16 4) = .ok m → ligAddrOk (fld c 24 8) (mapBytes m.entries.length) = true →
        exec (.lgsave c) s = .next (ligFinish r (ceilDiv m.entries.length 16) [(fld c 24 8, ligBytes false (m.entries.flatMap entryOut))] false 0 {} id z))
      ∧ (∀ m, lgdropValid c (focus s c.core) = true → findMap z r (fld c 16 4) = .ok m →
        EndsWith (.lgdrop c) 0x11 c s (coreCycles z c.core 20) stOk 0 (freeMap z m)
          ∧ ∀ y ∈ (freeMap z m).maps, ¬ (y.part = m.part ∧ y.num = m.num)))
    ∧ (let z := started 0x16 c s
      let r := taking 0x16 c s
      let len := (wloadOp c).2.2.1
      let a := (List.range (len / 64)).foldl (wloadLine c r) { s := z, lines := 0, poisoned := false, halt := none };
      worksAtOnce 0x16 true r z = true → headerOk c.bits = true → wloadValid c s = true → wloadValid c (focus s c.core) = true → wloadHeld c s = false → a.halt = none →
      EndsWith (.wload c) 0x16 c s (coreCycles a.s c.core (farCopyBase + len / 64)) (if a.poisoned then stPoisoned else stOk) 0 a.s)

/-- R197 to R209, R450, R451, R452, R218, R64, R453, R454: what the table engines do. The adapter engine pins, unpins, creates, grants, prepares, commits
and deletes; the allocator opens a pool, allocates, extends, shares, sets a length and frees, and reports the sequence or the extent; the migration engine
queues a migration or cancels one; the collective engine tells the other members of a command and waits for theirs. -/
def Obligations.TableEngineResults : Prop :=
  ∀ (s : State) (c : Cmd), headerOk c.bits = true →
    let f := focus s c.core;
    (let r := taking 0x12 c s
      let z := takeUp 0x12 r (started 0x12 c s)
      let p := r.task.part;
      (∀ a v t n, adpinValid c f = true → liveAht z (pinHandle c) = some a → currentVersion a p = some v → mayUse a r.world = true →
        admitVersion c r a v z = .ok (t, n) → EndsWith (.adpin c) 0x12 c s 0 stOk n t ∧ n = v.num.toNat)
      ∧ (liveAht z (pinHandle c) = none → adpinValid c f = true → EndsWith (.adpin c) 0x12 c s 0 stNosuch 0 z)
      ∧ (adunpinValid c f = true → ckptOf z r.task = none → pinHeld z p (pinHandle c) (BitVec.ofNat 32 (fld c 20 4)) = true →
        EndsWith (.adunpin c) 0x12 c s 0 stOk 0 (releasePin z p (pinHandle c) (BitVec.ofNat 32 (fld c 20 4))))
      ∧ (createValid c f = true → (pubHandle c).toNat % 2 ^ 20 ≠ 0 → (∀ a ∈ z.aht, a.handle.toNat % 2 ^ 20 ≠ (pubHandle c).toNat % 2 ^ 20) →
        ∃ t a, EndsWith (.adpubCreate c) 0x12 c s 0 stOk 0 t ∧ t = { z with aht := t.aht } ∧ (∀ x, x ∈ t.aht ↔ x = a ∨ x ∈ z.aht)
          ∧ a.handle = pubHandle c ∧ a.owner = r.world ∧ a.deleting = false ∧ a.selectors = BitVec.allOnes 32 ∧ ∀ v ∈ a.vers.toList, v.st = 0)
      ∧ (∀ a, liveAht z (pubHandle c) = some a →
        (grantValid c f = true → a.owner = r.world →
          ∃ t, EndsWith (.adpubGrant c) 0x12 c s 0 stOk 0 t ∧ t = { z with aht := t.aht }
            ∧ ∀ b ∈ t.aht, b.handle = a.handle → b.grants = BitVec.ofNat 64 (fld c 24 8))
        ∧ (bareValid c f = true → a.owner = r.world ∨ a.publisher = some r.world → ∀ i slot, a.vers.toList.findIdx? (fun v => v.st = 0) = some i →
          freeKeySlot z = some slot → a.next ≠ 0xFFFFFFFF →
          ∃ t, EndsWith (.adpubPrepare c) 0x12 c s 0 stOk (a.next.toNat + slot * 2 ^ 32) t
            ∧ ∀ b ∈ t.aht, b.handle = a.handle → ∃ v ∈ b.vers.toList, v.num = a.next ∧ v.st = 1 ∧ v.keySlot.toNat = slot % 4096)
        ∧ (bareValid c f = true → a.owner = r.world → EndsWith (.adpubDelete c) 0x12 c s 0 stOk 0 (deleteEntry a z))
        ∧ (∀ v es t, worksAtOnce 0x12 true r (started 0x12 c s) = true → commitValid c f = true → a.owner = r.world ∨ a.publisher = some r.world →
          a.vers.toList.find? (fun v => v.num = BitVec.ofNat 32 (fld c 20 4) && v.st = 1) = some v → (∀ q ∈ commitTargets c, boundIn z a.owner q = true) →
          allOk (readFactors z r (fld c 32 8) (rankOf a)) (List.range (fld c 28 2 * fld c 30 1)) = .ok es →
          (commitTargets c).foldl (commitPlace a.handle v.num a) (commitResolve r a v c es z) = .ok t →
          EndsWith (.adpubCommit c) 0x12 c s 0 stOk v.num.toNat (commitSwap (commitTargets c) a.handle v.num t))))
    ∧ (let z := started 0x13 c s
      let r := taking 0x13 c s
      let p := r.task.part;
      (∀ t e n, kallocValid c f = true → allocExtent z p r.world (fld c 16 1) (fld c 24 4) = .ok (t, e) → freeSeq z p = some n →
        let q : Seq := { num := n, world := r.world, stopped := false, fmt := BitVec.ofNat 4 (fld c 17 1), len := 0, dim := fld c 18 2, voff := fld c 20 2,
                         pool := fld c 16 1, extents := [e] }
        EndsWith (.kalloc c) 0x13 c s 0 stOk n (noteSeq r n 0 0 (putSeq t p q)))
      ∧ (∀ e, kallocValid c f = true → allocExtent z p r.world (fld c 16 1) (fld c 24 4) = .error e → EndsWith (.kalloc c) 0x13 c s 0 e 0 z)
      ∧ (poolValid c f = true → EndsWith (.kallocPool c) 0x13 c s 0 stOk 0 (putPool z p (newPool c r.world)))
      ∧ (∀ q, getSeq z p (fld c 16 2) = some q → q.stopped = false → q.world = r.world →
        (∀ t e, extendValid c f = true → q.extents.length < 16 → allocExtent z p r.world q.pool (fld c 24 4) = .ok (t, e) →
          EndsWith (.kextendAlloc c) 0x13 c s 0 stOk q.extents.length
            (noteSeq r q.num q.extents.length q.len (putSeq t p { q with extents := q.extents ++ [e] })))
        ∧ (∀ x, shareValid c f = true → q.extents.length < 16 → getPool (getPart z p) q.pool = some x → fld c 32 8 % x.stride = 0 →
          (∀ a ∈ rangePages (fld c 32 8) (fld c 24 4 * x.stride), ∃ y, prefixAt z r.world a = some y ∧ y.clean.isSome = true ∧ y.lost = false) →
          EndsWith (.kextendShare c) 0x13 c s 0 stOk q.extents.length
            (noteSeq r q.num q.extents.length q.len
              (putSeq z p { q with extents := q.extents ++ [{ base := fld c 32 8, len := fld c 24 4, stride := x.stride, shared := true, order := 31 }] })))
        ∧ (extendValid c f = true → fld c 24 4 ≤ (q.extents.map (·.len)).sum →
          EndsWith (.kextendSetlen c) 0x13 c s 0 stOk 0 (noteSeq r q.num q.extents.length q.len (putSeq z p { q with len := fld c 24 4 })))
        ∧ (kfreeValid c s = true → kfreeValid c f = true → kfreeHeld c s = false → ckptOf z r.task = none →
          EndsWith (.kfree c) 0x13 c s 0 stOk 0 (dropSeq z p (fld c 16 2)))))
    ∧ (let z := started 0x14 c s
      let r := taking 0x14 c s
      let o := migOp c;
      migValid c f = true →
      (∀ i ∈ [Instr.migrate c, Instr.migrateReplica c], migTakes z r.task.part r.world o = true →
        ∃ u q m, exec i s = .next u ∧ q ∈ u.running ∧ q.seq = c.seq ∧ q.pending = true ∧ u.migQueue = z.migQueue ++ [m] ∧ m.va = o.va ∧ m.world = r.world
          ∧ m.tier = o.tier ∧ m.wish = o.wish ∧ m.replica = (if o.replica then some o.at_ else none) ∧ m.erase = o.erase
          ∧ u = { z with running := u.running, migQueue := u.migQueue })
      ∧ (∀ m, (z.migrations ++ z.migQueue).find? (fun m => m.world = r.world && m.va = o.va && m.step < 4) = some m →
        EndsWith (.migrateCancel c) 0x14 c s 0 stOk 0 (abandon m z))
      ∧ ((∀ m ∈ z.migrations ++ z.migQueue, ¬ (m.world = r.world ∧ m.va = o.va ∧ m.step < 4)) → EndsWith (.migrateCancel c) 0x14 c s 0 stNosuch 0 z))
    ∧ (let z := takeUp 0x15 (taking 0x15 c s) (started 0x15 c s)
      let o := colOp c.bits
      let g := getGroup z o.slot;
      worksAtOnce 0x15 true (taking 0x15 c s) (started 0x15 c s) = true → colValid c f = true → ∀ i ∈ [Instr.colred c, Instr.colgat c, Instr.colscat c],
        (g.view ≠ o.view → EndsWith i 0x15 c s 0 stViewChanged 0 z)
        ∧ (g.view = o.view → findColl z g.num.toNat o.view o.tag = none → (∃ k, k < (rankNodes g).length ∧ k ≠ ownRank z g) →
          ∃ u q x, exec i s = .next u ∧ q ∈ u.running ∧ q.seq = c.seq ∧ q.waiting = true ∧ x ∈ u.colls ∧ x.group = g.num.toNat ∧ x.view = o.view ∧ x.tag = o.tag
            ∧ x.ours = some ((taking 0x15 c s).task, c.seq) ∧ x.heard = []))

/-! ### Host commands (04_host_interface R114 to R126; 05_partitions_scheduler R133 to R137) -/

/-- R116: how every host command starts. A record that is not in order completes with BADCMD and does nothing else; a command under the reserved identity
is not executed, and where it came by a queue its completion carries RES1 of all ones. -/
def Obligations.HostCommandChecks : Prop :=
  ∀ (s : State) (h : HostCmd), ∀ p ∈ hostForms h,
    (h.queue ≠ mailboxQueue → hostIdent h = 0xFFFF →
      ∃ r : HostRun, exec p.1 s = .next { fetched h s with hostRuns := (fetched h s).hostRuns ++ [r] } ∧ RunOf h (fetched h s) r ∧ r.done = true
        ∧ r.status = BitVec.ofNat 16 stBadcmd ∧ r.res1 = BitVec.allOnes 64)
    ∧ (h.queue = mailboxQueue → hostIdent h = 0xFFFF → Completes p.1 h s stBadcmd 0 (fetched h s))
    ∧ (h.queue = mailboxQueue ∨ hostIdent h ≠ 0xFFFF → hostCommonOk (fetched h s) h = false ∨ p.2 (fetched h s) = false →
      Completes p.1 h s stBadcmd 0 (fetched h s))

/-- R119, R120, R133, R136, R319: the commands on partitions. PART_CREATE gives a free number its islands, ways, the lowest free ports and calendar maps;
PART_RESIZE applies at once where the islands that it gives up are free, and else stops what runs there and waits; PART_DESTROY leaves no partition and
no bound world; PART_RESET leaves its TDI in ERROR. A number or an island that cannot be taken, and a frozen partition, are refused.
R93, R94, R119: the commands on worlds. WORLD_CREATE gives a free number two new keys; WORLD_DESTROY leaves a number that is not live; WORLD_BIND adds a
partition to a world, and its unbind form waits for the world's tasks there; KEY_ROTATE asks for a sweep, or queues one behind the sweep that runs, and
is refused where one is queued. -/
def Obligations.AdminCommands : Prop :=
   (∀ (s : State) (h : HostCmd),
      let z := fetched h s
      let n := partNo h
      let mask := partMask h;
      (Accepted h (partCreateValid h) s →
        (15 < n → Completes (.partCreate h) h s stNosuch 0 z)
        ∧ (n ≤ 15 → (getPart z n).present = true ∨ islandTaken z mask n = true → Completes (.partCreate h) h s stBadcmd 0 z)
        ∧ (n ≤ 15 → (getPart z n).present = false → islandTaken z mask n = false → ∀ ports maps, takePorts z (hfld h 35 1) = some ports →
          calendarMaps z mask (ptr0 h) = some maps →
          ∃ t, Completes (.partCreate h) h s stOk 0 t
            ∧ getPart t n = { Part.absent with present := true, islands := mask, ways := hfld h 34 1, ports := ports }
            ∧ (∀ m, m ≠ n → getPart t m = getPart z m) ∧ t.calMaps = (installMaps z mask maps).calMaps ∧ t = { z with parts := t.parts, calMaps := t.calMaps }))
      ∧ (Accepted h (partResizeValid h) s → n ≤ 15 → (getPart z n).present = true →
        let lost := (getPart z n).islands &&& ~~~mask
        (frozen (getPart z n) = true → Completes (.partResize h) h s stLocked 0 z)
        ∧ (frozen (getPart z n) = false → islandTaken z mask n = false → ∀ maps, calendarMaps z mask (ptr0 h) = some maps →
          (maskFree z lost = true →
            Completes (.partResize h) h s stOk 0 (applyResize n mask maps z) ∧ (getPart (applyResize n mask maps z) n).islands = mask)
          ∧ (maskFree z lost = false →
            Defers (.partResize h) h s (.resize n mask maps)
              (stopOn (looseGangs (modPart z n fun p => { p with closing := lost }) n) n lost reasonResize))))
      ∧ (Accepted h (partOnly h) s →
        (15 < n ∨ (getPart z n).present = false → Completes (.partDestroy h) h s stNosuch 0 z ∧ Completes (.partReset h) h s stNosuch 0 z)
        ∧ (n ≤ 15 → frozen (getPart z n) = true → Completes (.partDestroy h) h s stLocked 0 z)
        ∧ (n ≤ 15 → (getPart z n).present = true → frozen (getPart z n) = false →
          ∃ t, Completes (.partDestroy h) h s stOk 0 t ∧ t = destroyPartition z n ∧ getPart t n = Part.absent
            ∧ ∀ w, (getWorld t w).parts.getLsbD n = false)
        ∧ (n ≤ 15 → (getPart z n).present = true →
          ∃ t, Completes (.partReset h) h s stOk 0 t ∧ t = resetPartition z n causeCommand ∧ (getPart t n).tdisp = .error)))
 ∧ (∀ (s : State) (h : HostCmd),
      let z := fetched h s
      let w := worldNo h;
      (Accepted h (worldOnly h) s →
        (w = 0 ∨ 63 < w ∨ (getWorld z w).live = true ∨ awaitsScrub z w = true → Completes (.worldCreate h) h s stBadcmd 0 z)
        ∧ (0 < w → w < 64 → (getWorld z w).live = false → awaitsScrub z w = false →
          ∃ t k j, Completes (.worldCreate h) h s stOk 0 t ∧ t = { z with worlds := t.worlds, fresh := t.fresh }
            ∧ getWorld t w = { World.absent with live := true, key := k, hbfKey := j, gen := (getWorld z w).gen } ∧ ∀ v, v ≠ w → getWorld t v = getWorld z v)
        ∧ (0 < w → w < 64 → (getWorld z w).live = true →
          (worldFrozen z w = true → Completes (.worldDestroy h) h s stLocked 0 z)
          ∧ (worldFrozen z w = false → Completes (.worldDestroy h) h s stOk 0 (destroyWorld z w) ∧ (getWorld (destroyWorld z w) w).live = false)
          ∧ ((getWorld z w).st = 0 → Defers (.keyRotate h) h s (.sweep w ((getWorld z w).gen + 1)) (modWorld z w fun x => { x with st := 1 }))
          ∧ ((getWorld z w).st ≠ 0 → (getWorld z w).queued = false →
            Defers (.keyRotate h) h s (.sweep w (if (getWorld z w).st = 1 then (getWorld z w).gen + 2 else (getWorld z w).gen + 1))
              (modWorld z w fun x => { x with queued := true }))
          ∧ ((getWorld z w).st ≠ 0 → (getWorld z w).queued = true → Completes (.keyRotate h) h s stFull 0 z))
        ∧ (0 < w → w < 64 → (getWorld z w).live = false →
          Completes (.worldDestroy h) h s stNosuch 0 z ∧ Completes (.keyRotate h) h s stNosuch 0 z))
      ∧ (Accepted h (bindValid h) s → 0 < w → w < 64 → (getWorld z w).live = true →
        let n := hfld h 25 1
        (15 < n ∨ (getPart z n).present = false → Completes (.worldBind h) h s stNosuch 0 z ∧ Completes (.worldUnbind h) h s stNosuch 0 z)
        ∧ (n ≤ 15 → (getPart z n).present = true →
          (frozen (getPart z n) = true ∨ worldFrozen z w = true → Completes (.worldBind h) h s stLocked 0 z ∧ Completes (.worldUnbind h) h s stLocked 0 z)
          ∧ (frozen (getPart z n) = false → worldFrozen z w = false →
            Completes (.worldBind h) h s stOk 0 (modWorld z w fun x => { x with parts := x.parts ||| partBit n })
            ∧ Defers (.worldUnbind h) h s (.unbind w n) z))))

/-- R27, R45, R131, R485: quotas, pages, prefix pages and the power cap. QUOTA_GET writes a world's record to host memory and nothing else; QUOTA_SET takes
its limits; PAGE_ALLOC maps free pages at the listed addresses under the world's quota, and PAGE_FREE gives them back; PREFIX_REG registers a read-only
page; POWER_CAP_SET rounds down to 50 W within its bounds and reports the cap stored. PAGE_ALLOC's permissions are the model's (log 19). -/
def Obligations.ResourceCommands : Prop :=
  ∀ (s : State) (h : HostCmd),
    let z := fetched h s
    let w := worldNo h
    let w' : BitVec 6 := BitVec.ofNat 6 w;
    (Accepted h (quotaValid h) s → w < 64 →
      (worldLive z w = false → Completes (.quotaGet h) h s stNosuch 0 z ∧ Completes (.quotaSet h) h s stNosuch 0 z)
      ∧ (worldLive z w = true →
        (∃ t, Completes (.quotaGet h) h s stOk 0 t ∧ t = { z with mem := t.mem } ∧ HostHolds t (ptr0 h) (quotaBytes (getQuota z w))
          ∧ SameOutside (hostPa (ptr0 h)) 64 z t)
        ∧ (quotaFrozen z w = true → Completes (.quotaSet h) h s stLocked 0 z)
        ∧ (∀ b, quotaFrozen z w = false → hostRead z (ptr0 h) 64 = some b →
          Completes (.quotaSet h) h s stOk 0 (setQuota z w (quotaApply b (getQuota z w))))))
    ∧ (w < 64 → worldLive z w = true →
      let tier := pageTierNo h
      let n := pageCount h;
      (∀ vas listed, Accepted h (pageAllocValid h) s → hostList z (ptr0 h) n = some vas →
        (if ptr1 h = 0 then some [] else hostList z (ptr1 h) n) = some listed → vasOk z w' vas = true → listed.all (listedOk z w tier) = true →
        allDistinct listed = true →
        let pages := if ptr1 h = 0 then freeIn z (tierRanges z w tier) n else listed;
        (pagesFit z w' tier n = false → Completes (.pageAlloc h) h s stQuota 0 z)
        ∧ (pagesFit z w' tier n = true → pages.length < n → Completes (.pageAlloc h) h s stFull 0 z)
        ∧ (pagesFit z w' tier n = true → n ≤ pages.length →
          ∃ t, Completes (.pageAlloc h) h s stOk n t ∧ t = (vas.zip pages).foldl (allocPage w' tier) z
            ∧ ∀ x ∈ vas.zip pages, ∃ p ∈ t.ptes, p.world = w' ∧ p.va = x.1 ∧ p.pa = x.2 ∧ p.pages = 1 ∧ p.exec = false ∧ p.write = decide (tier ≠ 1)))
      ∧ (∀ vas, Accepted h (pageFreeValid h) s → hostList z (ptr0 h) n = some vas →
        (vas.all (fun a => (pageToFree z w' tier a).isSome) = false ∨ allDistinct vas = false → Completes (.pageFree h) h s stBadcmd 0 z)
        ∧ (vas.all (fun a => (pageToFree z w' tier a).isSome) = true → allDistinct vas = true →
          Completes (.pageFree h) h s stOk 0
            (((vas.filterMap fun a => pageToFree z w' tier a).eraseDups).foldl freeHome (vas.foldl (fun s a => unmapPage s w' a) z))))
      ∧ (∀ p clean, Accepted h (prefixValid h) s → findPte z w' (ptr0 h) = some p → cleanHome z w' (ptr1 h) = some clean → ptr0 h % 65536 = 0 → p.pages = 1 →
        p.write = false → (z.replicas.length < replicaTable ∨ ∃ r ∈ z.replicas, r.1 = p.pa) →
        Completes (.prefixReg h) h s stOk 0 (registerPrefix w' p clean z)
          ∧ ∃ x ∈ (registerPrefix w' p clean z).prefixes, x.pa = p.pa ∧ x.clean = clean ∧ x.lost = false ∧ x.refetching = false))
    ∧ (Accepted h (powerValid h) s →
      let x := min z.recordCap (max 1200 (hfld h 24 4 / 50 * 50));
      Completes (.powerCapSet h) h s stOk x { z with powerCap := x })

/-- R31, R121, R123, R125, R126: the service commands. FW_WRITE writes the inactive slot alone and CFG_WRITE the record; LOG_READ returns the oldest unread
records and marks them read; ERR_READ returns a record of the ring; RESYNC waits for the tick of its cut; QRESET stops a queue and discards its
completions.
R122, R137: the commands of a partition's queues. LAUNCH takes a record that is in order into the pool and reports its number; the copies move whole
lines in ascending order and report the bytes moved; OBJ_WAIT waits for an object that is mapped, while fewer than 256 wait. -/
def Obligations.ServiceAndQueueCommands : Prop :=
   (∀ (s : State) (h : HostCmd),
      let z := fetched h s;
      (∀ b, Accepted h (fwValid h) s → hostRead z (ptr0 h) (hfld h 28 4) = some b →
        ∃ t, Completes (.fwWrite h) h s stOk 0 t ∧ t = { z with flash := t.flash } ∧ t.flash.record = z.flash.record
          ∧ t.flash.slotB_chosen = z.flash.slotB_chosen ∧ (z.flash.slotB_chosen = true → t.flash.slotB = z.flash.slotB)
          ∧ (z.flash.slotB_chosen = false → t.flash.slotA = z.flash.slotA)
          ∧ (if z.flash.slotB_chosen then t.flash.slotA.image else t.flash.slotB.image)
            = patchImage (if z.flash.slotB_chosen then z.flash.slotA.image else z.flash.slotB.image) (hfld h 24 4) b)
      ∧ (∀ b, Accepted h (cfgValid h) s → hostRead z (ptr0 h) (hfld h 28 4) = some b →
        Completes (.cfgWrite h) h s stOk 0 { z with flash := { z.flash with record := recordOf b } })
      ∧ (Accepted h (logValid h) s →
        (z.phase ≠ .recovery → h.queue ≠ mailboxQueue →
          let l := unreadOf z.events z.unread (hfld h 24 4)
          ∃ t, Completes (.logRead h) h s stOk l.length t ∧ HostHolds t (ptr0 h) (logBytes z.lostNext l) ∧ t.unread = z.unread - l.length
            ∧ SameOutside (hostPa (ptr0 h)) (logBytes z.lostNext l).length z t
            ∧ t = { z with mem := t.mem, unread := t.unread, lostNext := z.lostNext && l.isEmpty })
        ∧ (z.phase = .recovery →
          let l := unreadOf z.recovery z.recoveryUnread (logMax h)
          Completes (.logRead h) h s stOk l.length { giveData h z (ptr0 h) (logBytes false l) with recoveryUnread := z.recoveryUnread - l.length }
            ∧ Completes (.errRead h) h s stNosuch 0 z)
        ∧ (z.phase ≠ .recovery →
          (∀ b, assocGet z.errors (hfld h 24 4) = some b → Completes (.errRead h) h s stOk 0 (giveData h z (ptr0 h) (padTo 4096 0 b)))
          ∧ (assocGet z.errors (hfld h 24 4) = none → Completes (.errRead h) h s stNosuch 0 z)))
      ∧ (Accepted h (resyncValid h) s →
        (z.phase ≠ .recovery → Defers (.resync h) h s (.resync (ptr0 h)) z)
        ∧ (z.phase = .recovery → Completes (.resync h) h s stOk 0 (giveData h z (ptr0 h) (summary z))))
      ∧ (Accepted h (qresetValid h) s → z.phase ≠ .recovery →
        let q := qresetQueue h
        (q = adminQueue ∨ q < 256 ∧ (getPart z (q / 16)).present = true ∧ hfld h 24 1 ≤ 15 →
          ∃ t, Completes (.qreset h) h s stOk 0 t ∧ (getQueue t q).en = false ∧ (∀ x ∈ t.held, x.queue ≠ q) ∧ ∀ r ∈ t.hostRuns, r.queue = q → r.dropped = true)
        ∧ (256 < q → Completes (.qreset h) h s stNosuch 0 z)))
 ∧ (∀ (s : State) (h : HostCmd),
      let z := fetched h s
      let p := queuePart h;
      (∀ b, Accepted h (launchValid h) s → h.queue < 256 → hostRead z (ptr0 h) 256 = some b →
        let bits : BitVec 2048 := BitVec.ofNat 2048 (leNat b);
        (recBytes bits 2 1 % 64 ≠ (hostWorld h).toNat ∨ validLaunch z p bits = false → Completes (.queueLaunch h) h s stBadcmd 0 z)
        ∧ (recBytes bits 2 1 % 64 = (hostWorld h).toNat → validLaunch z p bits = true →
          (poolFull z p = true → Completes (.queueLaunch h) h s stFull 0 z)
          ∧ (poolFull z p = false → ∃ t n, acceptLaunch z p bits [] = (n, t) ∧ Completes (.queueLaunch h) h s stOk n.toNat (sampleLaunches t)
              ∧ ∃ l ∈ (getPart t p).launches, l.num = n ∧ l.bits = bits)))
      ∧ (Accepted h (hostCopyValid ptr1 h) s → z.linkUp = true →
        ∃ t left, toDevice (hostWorld h) (copyLen h / 64) (ptr0 h) (ptr1 h) z = (t, left) ∧ left ≤ copyLen h / 64
          ∧ Completes (.copyH2d h) h s (if left = 0 then stOk else stBadcmd) (copyLen h - 64 * left) (afterIncrement t))
      ∧ (Accepted h (hostCopyValid ptr0 h) s → z.linkUp = true →
        ∃ t left bad, toHost (hostWorld h) (copyLen h / 64) (ptr0 h) (ptr1 h) false z = (t, left, bad) ∧ left ≤ copyLen h / 64
          ∧ Completes (.copyD2h h) h s (if left ≠ 0 then stBadcmd else if bad then stPoisoned else stOk) (copyLen h - 64 * left) t)
      ∧ (Accepted h (objValid h) s →
        (256 ≤ objWaits z p → Completes (.objWait h) h s stFull 0 z)
        ∧ (objWaits z p < 256 → findPte z (hostWorld h) (ptr0 h) = none → Completes (.objWait h) h s stNosuch 0 z)
        ∧ (objWaits z p < 256 → findPte z (hostWorld h) (ptr0 h) ≠ none →
          Defers (.objWait h) h s (.object (hostWorld h) (ptr0 h) (BitVec.ofNat 64 (hfld h 24 8))) z)))

/-! ### Power, clocks and boot (01_package R20 to R32; 03_links_trust R108) -/

/-- R30, R31, R32: what the boot steps leave. A readable flash with a slot that verifies and a PUF that reconstructs starts the firmware of the slot, under
the configuration record where it verifies and the slot's security version meets its floor, and under the factory defaults, with CFGDEF set, where it does
not; each step that fails goes to recovery mode. A package that runs already loses its power first.
R20 to R29, R108: power, the governor and the clocks of islands. HOT_RESET leaves a package before its boot steps, without partitions, worlds, tasks or
keys, with the pages of world 0 alone; the power trip holds new strips; a governor window acts once; a new target drains its island, which relocks for
4 µs and runs at the new clock, or abandons the change. -/
def Obligations.BootPowerAndClockEvents : Prop :=
   (∀ (s : State),
      let z := if s.phase = .preBoot then s else powerCycle s
      let f := z.flash;
      (f.directory = false → ∃ t, exec .powerOnReset s = .next t ∧ t.phase = .recovery ∧ t.parts = z.parts)
      ∧ (f.directory = true → bootSlot f f.securityFloor = none → exec .powerOnReset s = .next (enterRecovery 2 1 z))
      ∧ (∀ slot, f.directory = true → bootSlot f f.securityFloor = some slot →
        (f.puf = false → ∃ t, exec .powerOnReset s = .next t ∧ t.phase = .recovery ∧ t.flash.slotB_chosen = slot)
        ∧ (f.puf = true → recordVerifies f = false →
          ∃ t, exec .powerOnReset s = .next t ∧ t.phase = .booted ∧ t.rdy = true ∧ t.cfgDefaulted = true ∧ t.strokeNs = strokeBound f.factory.strokeNs
            ∧ t.powerCap = capStored 3600 f.factory.powerCap ∧ t.flash = { f with slotB_chosen := slot } ∧ t.ident = Config.identity f.seed ∧ t.core = z.core)
        ∧ (f.puf = true → recordVerifies f = true →
          let floor := max f.securityFloor f.record.floor;
          floor ≤ (if slot then f.slotB else f.slotA).security →
          ∃ t, exec .powerOnReset s = .next t ∧ t.phase = .booted ∧ t.rdy = true ∧ t.cfgDefaulted = false ∧ t.strokeNs = strokeBound f.record.strokeNs
            ∧ t.powerCap = capStored 3600 f.record.powerCap ∧ t.ident = Config.identity f.seed ∧ t.core = z.core
            ∧ t.flash = { f with securityFloor := floor, recordCounter := max f.recordCounter f.record.seq, slotB_chosen := slot })))
 ∧ (∀ (s : State),
      let n := s.ev.n
      let i := getIsland s n;
      (∃ t, exec .hotReset s = .next t ∧ t.phase = .preBoot ∧ t.core = Core.reset ∧ t.others = [] ∧ t.parts = State.reset.parts ∧ t.worlds = State.reset.worlds
        ∧ t.queues = [] ∧ t.gangs = [] ∧ t.ideKeys = [] ∧ t.spdm = false ∧ t.now = 0 ∧ (∀ x ∈ t.pages, x.2.1 = 0) ∧ ∀ p ∈ t.ptes, p.world = 0)
      ∧ RaisesFrom .powerTrip 0x02 [n, s.ev.k] s { s with powerTripped := true }
      ∧ exec .powerTripRelease s = .next { s with powerTripped := false }
      ∧ exec .thermalPowerOff s = .next { s with phase := .off }
      ∧ (n < s.powerCap → exec .governorWindow s = .next { s with withhold := false, heldStrips := [] })
      ∧ (n = s.powerCap → exec .governorWindow s = .next s)
      ∧ (s.powerCap < n → s.withhold = false → exec .governorWindow s = .next { s with withhold := true })
      ∧ (s.powerCap < n → s.withhold = true →
        (∀ x, nextHold s = some x → exec .governorWindow s = .next { s with heldStrips := s.heldStrips ++ [x] })
        ∧ (∀ m, nextHold s = none → nextStep s = some m →
          exec .governorWindow s = .next (setIsland s m (setTarget (getIsland s m) ((getIsland s m).tgt - 100)))))
      ∧ (let mhz := s.ev.v.toNat % 4096
        let p := if n < 16 then min 1600 (max 400 (mhz / 100 * 100)) else if mhz < 1600 then 800 else 1600;
        (20 ≤ n → exec .islCtlTgtWrite s = .next s)
        ∧ (n < 20 → ∃ t, exec .islCtlTgtWrite s = .next t ∧ (getIsland t n).tgt = p ∧ (getIsland t n).cur = i.cur ∧ t = { s with islands := t.islands }
            ∧ (i.st = .steady → (getIsland t n).st = if p = i.cur then .steady else .drain)
            ∧ ∀ m, m ≠ n → getIsland t m = getIsland s m))
      ∧ (n < 24 →
        (islandDrained s n = true →
          exec .drainComplete s = .next (stallAttn n (setIsland s n { i with st := .relock, goal := i.tgt, relockEnd := s.now + 6400 })))
        ∧ RaisesFrom .islandAbandon 0x01 [n] s (setIsland s n { i with st := .steady, abandon := true, drained := 0 })
        ∧ (∃ t, exec .relockEnd s = .next t ∧ (getIsland t n).cur = i.goal ∧ (getIsland t n).tgt = i.tgt
            ∧ (getIsland t n).st = (if i.tgt = i.goal then .steady else .drain) ∧ t = { s with islands := t.islands })))

/-! ### Schedulers and sequencers (05_partitions_scheduler R142 to R162; 06_core R170 to R173, R193; 10_traps) -/

/-- R142 to R162, R289: the tick and the schedulers. An edge counts the watchdogs of resident tasks; weights that are late fail their launch; a gang that
has waited is promoted a class; a dispatcher starts its head gang and a scheduler a wide gang that has its cores; a stopped gang is saved, or discarded
where a task of it failed; a launch that is over leaves the pool; and a barrier completes every arrival with the merged vectors. -/
def Obligations.SchedulerEvents : Prop :=
  ∀ (s : State),
    let n := s.ev.n
    let num := s.ev.v.setWidth 32;
    (∃ t, exec .strokeTick s = .next t ∧ t.tick = s.tick + 1 ∧ t.tickDue = false ∧ t.tickWork = true ∧ t.now = s.now
      ∧ ∀ c, (getCore t c).sys.wdogCount = (countWatch (getCore s c)).sys.wdogCount)
    ∧ (∀ l, findLaunch s n num = some l → weightsLate l = true →
      ∃ t, exec .weightsLate s = .next t ∧ t = { s with parts := t.parts }
        ∧ findLaunch t n num = some { l with st := .failed, status := if l.status = 0 then 0x06 else l.status })
    ∧ (∀ g, (s.gangs.find? fun g => g.id = n && promotable s g) = some g →
      ∃ t h, exec .ageingPromotion s = .next t ∧ h ∈ t.gangs ∧ h = { g with dcls := g.dcls - 1, since := edgeTick s } ∧ t = { s with gangs := t.gangs })
    ∧ (let z := focus s s.ev.core
      watchExpired z.core = true → exec .watchdogExpiry s = .next (takeHeld { cause := .watchdog, pc := z.core.pc } z))
    ∧ (∀ g t, headGang s n = some g → canStart s n g = true → startGang s g ((freeCores s n).take g.tasks.length) = some t →
      exec .gangDispatch s = .next t)
    ∧ (∀ g t, reservationOk s n = true → reserving s n = some g →
      let free := (getPart s n).reserved.flatMap (freeCores s);
      g.tasks.length ≤ free.length → startGang s g (free.take g.tasks.length) = some t →
      exec .wideGangStart s = .next (modPart t n fun x => { x with reserved := [] }))
    ∧ (∀ g, (s.gangs.find? fun g => g.id = n && (stopReason g).isSome && gangStopped s g.id) = some g →
      exec .preemptionSave s = .next (if stopReason g = some reasonFail then dropGang s g.part g.launch g.idx else saveGang s g ((stopReason g).getD 0)))
    ∧ (∀ l, findLaunch s n num = some l → launchOver s n l = true →
      ∃ t, exec .launchEnd s = .next t ∧ t = finishLaunch (forgetMeets l s) n l ∧ ∀ x ∈ (getPart t n).launches, x.num ≠ num)
    ∧ (∀ l, findLaunch s n num = some l →
      let lv := s.ev.k
      let no := s.ev.list.headD 0;
      let vec := (openArrivals s n l lv no).foldl (fun v a => mergeCounts (mergeCounts v a.vec) (joinedBy s a)) [];
      meetReady s n l lv no = true → levelDomain l lv ≠ 4 → barrierCkpt s n l lv no = false →
      ∃ t, exec .barrierComplete s = .next t ∧ t = { s with arrivals := t.arrivals } ∧ openArrivals t n l lv no = []
        ∧ ∀ a ∈ openArrivals s n l lv no,
          { a with complete := true, vec := vec, rebase := rebaseCounts s n l lv no } ∈ t.arrivals)

/-- R170 to R172, R193, R297, R301, R413, R163, R320, R321, R296: the sequencers, traps and debug of a core. A body is loaded, or its fault kept; a group
starts on all its columns in one cycle; the end of a repeat advances the address registers by their strides and begins the next; a waiting trap is taken;
walks that return let the task go on; the supervisor resumes or fails it, or the oldest entry of its cluster's fault queue; a soft error poisons what it
strikes. -/
def Obligations.CoreEvents : Prop :=
  ∀ (s : State),
    let z := focus s s.ev.core
    let col := s.ev.col
    let q := getCol z.core col;
    (∀ i x, loadNext q = some (i, x) → bodyMiss z x = none →
      (∀ l, fetchBody z x.len (x.hdr + 4) = .ok l →
        exec .stripBodyLoad s = .next (modCore (setCol col { q with queue := q.queue.set i { x with body := some l } }) z))
      ∧ (∀ f, fetchBody z x.len (x.hdr + 4) = .error f →
        ∃ y, exec .stripBodyLoad s = .next (modCore (setCol col { q with queue := q.queue.set i { x with fault := some y } }) z)
          ∧ y.cause = f.cause ∧ y.addr = f.addr ∧ y.pc = x.hdr ∧ y.source = colOrder col))
    ∧ (∀ i x p, loadNext q = some (i, x) → bodyMiss z x = some p → exec .stripBodyLoad s = .next (modCore (tlbFill p) z))
    ∧ (∀ g, faultyHead z = none → startable z = some g → g.cols.Nodup →
      ∃ t, exec .stripGroupStart s = .next t ∧ t = startGroup g z
        ∧ ∀ c ∈ g.cols, ∃ x xs, (getCol z.core c).queue = x :: xs ∧ (getCol t.core c).queue = xs
          ∧ (getCol t.core c).run
            = some { hdr := x.hdr, grp := x.grp, body := x.body.getD [], count := x.count, rep := 0, idx := 0, next := cyc z + gapAt (x.body.getD []) 0 })
    ∧ (∀ x r, faultyHead z = some (x, r) → exec .stripGroupStart s = .next (takeTrap r (modCore (clearFault x) z)))
    ∧ (∀ r, q.run = some r → r.body.length ≤ r.idx →
      ∃ t, exec .stripRepeatEnd s = .next t
        ∧ (∀ e, readE t e = if (columnERegs col).contains e then { readE z e with addr := (readE z e).addr + (readE z e).stride.signExtend 48 } else readE z e)
        ∧ (r.rep + 1 < r.count → (getCol t.core col).run = some { r with rep := r.rep + 1, idx := 0, next := r.next + gapAt r.body 0 })
        ∧ (r.count ≤ r.rep + 1 → (getCol t.core col).run = none) ∧ SameMemory z t)
    ∧ (gateDue z z.coreId = true → exec .subarrayGate s = .next (modCore (fun k => { k with units := { k.units with gated := true } }) z))
    ∧ (∀ x, dueTrap z z.core z.coreId = some x →
      exec .trapEntry s = .next (takeTrap (if x.2.entry then { x.2 with pc := z.core.pc } else x.2)
        (modCore (fun k => { k with deferred := k.deferred.erase x }) z)))
    ∧ (∀ pages due r, z.core.hold = .walk pages due r → walksBack s s.ev.core = true →
      ((∀ a ∈ pages, (walkResult z a).isSome = true) → z.core.stopped = false →
        ∃ t u, exec .translationWalkDone s = .next t ∧ t.core.hold = .none ∧ t.core.pc = z.core.cutPc ∧ t.core.sReady = cyc z + 1
          ∧ t.core.g = z.core.g ∧ t = goOn (cyc z + 1) u ∧ u = { z with core := { z.core with tlb := u.core.tlb } })
      ∧ (∀ a, pages.find? (fun a => (walkResult z a).isNone) = some a →
        ∃ u, exec .translationWalkDone s = .next (trapAtCut { r with addr := BitVec.ofNat 64 a } u) ∧ u = { z with core := { z.core with tlb := u.core.tlb } }))
    ∧ (let y := focus (installAll s.ev.list s) s.ev.core;
      (∀ r, y.core.hold = .supervisor r →
        (s.ev.act = .resume → y.core.sys.trapCause.getLsbD 25 = false → exec .supervisorResolve s = .next (goOn (cyc y + 1) y))
        ∧ (s.ev.act = .resume → y.core.sys.trapCause.getLsbD 25 = true → exec .supervisorResolve s = .next (failTask (causeCode r.cause) y))
        ∧ (s.ev.act = .fail → exec .supervisorResolve s = .next (failTask (causeCode r.cause) y)))
      ∧ (∀ e, (∀ r, y.core.hold ≠ .supervisor r) → firstEntry y = some e →
        (s.ev.act = .resume → exec .supervisorResolve s = .next (resolvePage e y)) ∧ (s.ev.act = .fail → exec .supervisorResolve s = .next (failEntry e y)))
      ∧ (∀ k, s.ev.act = .resetPartition → y.core.task = some k → exec .supervisorResolve s = .next (resetPartition y k.part causeSupervisor)))
    ∧ (∀ r, (getCore s s.ev.core).hold = .supervisor r → r.cause = .watchdog → (getCore s s.ev.core).task.isSome = true →
      ∃ t, exec .wdogSetApply s = .next t ∧ (getCore t s.ev.core).sys.wdogLimit = s.ev.v.setWidth 32
        ∧ ∀ c, c ≠ s.ev.core → getCore t c = getCore s c)
    ∧ (s.ev.flag = false → z.core.task.isSome = true → debugClosed z = false →
      ∃ t, exec .dbgStop s = .next t ∧ t.core.stopped = true ∧ t.core.sys.dbgEn = true ∧ t.core.hold = (if z.core.hold = .none then .debug else z.core.hold))
    ∧ (z.core.task.isSome = true → debugClosed z = false → z.core.stopped = true → z.core.hold = .debug →
      ∃ t, exec .dbgResume s = .next t ∧ t.core.hold = .none ∧ t.core.stopped = false ∧ t.core.pc = z.core.cutPc
        ∧ t.core.sys.dbgEn = (z.core.sys.dbgEn && !s.ev.flag))
    ∧ ((∀ l, s.ev.soft = .scratchLine l → exec .softError s = .next (modCore (putSpPoison (l * 64 % 0x80000) true) z))
      ∧ (∀ v, s.ev.soft = .vreg v → ∃ t, exec .softError s = .next t ∧ (readV t v).poison = true ∧ (readV t v).data = (readV z v).data
          ∧ ∀ u, u ≠ v → readV t u = readV z u)
      ∧ (∀ v, s.ev.soft = .treg v → ∃ t, exec .softError s = .next t ∧ (readT t v).poison = true ∧ ∀ u, u ≠ v → readT t u = readT z u)
      ∧ (∀ v, s.ev.soft = .acc v → ∃ t, exec .softError s = .next t ∧ (readA t v).poison = true ∧ (readA t v).sums = (readA z v).sums
          ∧ ∀ u, u ≠ v → readA t u = readA z u)
      ∧ (∀ k, s.ev.soft = .coreState → z.core.task = some k → exec .softError s = .next (machineFault k z)))

/-! ### Memory traffic that completes (02_memory_tiers R53 to R57; 14_isa_matrix R401; 15_isa_memory R414, R427, R432; 16_isa_engines R440; 07 R232) -/

/-- R53 to R57, R232, R401, R414, R427, R432, R440: a slot near its start that no request claims is donated; a request that cannot use its slot waits for
the same slot of the next rotation; a timed read lands 320 cycles after its slot start and a timed write is accepted 96 cycles after it; a load that has
all its lines lands; a store is performed line by line, in order; an engine command reports, counts its object and signals its end; a follow-on step
issues where its accumulator's window is open; and an aggregation window answers each participant. -/
def Obligations.TrafficEvents : Prop :=
  ∀ (s : State),
    let z := focus s s.ev.core
    let n := s.ev.n;
    (let t := slotStart s.ev.k s.now;
      s.ev.k < 256 → t ≤ s.now + 16 → slotClaimed s n t = false → isDonated s n t = false →
      ∃ u d, exec .slotDonation s = .next u ∧ d ∈ u.donated ∧ d.channel = n ∧ d.start = t ∧ d.use = donationUse s n s.ev.k
        ∧ u = { s with donated := u.donated })
    ∧ (∀ x, z.core.timed[n]? = some x →
      (unserved z x = true → ∃ u, exec .slotMiss s = .next u ∧ u = { z with core := u.core }
        ∧ u.core.timed = z.core.timed.map fun y =>
          if y.instr = x.instr && y.isWrite = x.isWrite && x.off ≤ y.off then { y with start := y.start + 1024, late := false } else y)
      ∧ (x.isWrite = false → x.late = false → x.start + 320 ≤ z.now → exec .timedReadDelivery s = .next (deliver x (modCore (dropTimed n) z)))
      ∧ (x.isWrite = true → x.late = false → x.start + 96 ≤ z.now → behindOwn z.core x = false →
        ∃ f u, acceptWrite x (performBefore x (modCore (dropTimed n) z)) = (f, u) ∧ exec .timedWriteAccept s = .next (answerStore x f u)))
    ∧ (∀ u, z.core.loads[n]? = some u → u.due ≤ cyc z → loadComplete u = true → exec .untimedLoadArrival s = .next (deliverLoad u z))
    ∧ (∀ w ws l ls, z.core.stores = w :: ws → w.lines = l :: ls → storeReady s s.ev.core = true →
      ∃ u, exec .storePerformed s = .next (performOne w.pc w.stamp w.poison l u)
        ∧ u = modCore (fun k => { k with stores := if ls = [] then ws else { w with lines := ls } :: ws }) z)
    ∧ (∀ r, s.running[n]? = some r → exec .commandEnd s = .next (endRun r s) ∧ r ∉ (endRun r s).running)
    ∧ (∀ r w k x, s.running[n]? = some r → r.follow = some w →
      let y := focus s r.core
      let due := max r.land (cyc y) + 4
      let r1 := { r with follow := none, pending := false, due := due };
      followStep w y = some (k, x) →
        ((readA y k).window = false → exec .followOnIssue s = .next (putRun { r1 with status := BitVec.ofNat 8 stAborted } y))
        ∧ (∀ t, (readA y k).window = true → x = .ok t → exec .followOnIssue s = .next (putRun r1 t)))
    ∧ (∀ w, s.windows[n]? = some w → windowOver s w = true →
      let y := { s with windows := s.windows.eraseIdx n };
      (w.isCounter = true → (∀ x, (getCluster s w.cluster).world = some x → x = (getCore s w.first).sys.world) →
        ∃ t, exec .aaggWindowClose s = .next t
          ∧ (assocGet (getCluster t w.cluster).counters (counterAt w.addr)).getD 0
            = (assocGet (getCluster s w.cluster).counters (counterAt w.addr)).getD 0 + BitVec.ofNat 32 (w.parts.map (·.addend.toNat)).sum)
      ∧ (w.isCounter = false → isRemote y w.addr = false → exec .aaggWindowClose s = .next (aggHome w y))
      ∧ (w.isCounter = false → isRemote y w.addr = true → exec .aaggWindowClose s = .next (aggRemote w y)))

/-! ### Repair, migration, sweeps and prefix pages (02_memory_tiers R58 to R74; 03_links_trust R100 to R102; 04_host_interface R131, R132) -/

/-- R56, R58, R61 to R68, R70 to R74: errors are counted up to a live repair, which begins and ends at rotation boundaries and uses a spare; the CXL ports
go down and come back; a migration takes its destination, copies its lines in ascending order, is marked switching, moves the home once the accesses to the
source have drained and frees it, or before its switch gives up its destination. The pace of a copy and its free delay are the model's (log 8).
R43, R100 to R102, R131, R132: a sweep of a world takes a new key, keeps the previous one until it ends, and re-encrypts the world's lines in ascending
order; at its end the previous key is gone and a queued sweep waits. A poisoned prefix page with a clean home is refetched into a new page that takes over
its translations and registration; one without is lost. -/
def Obligations.RepairMigrationAndSweepEvents : Prop :=
   (∀ (s : State),
      let n := s.ev.n
      let c := getLane s n;
      (∀ a i, s.ev.crc = .timedRead a i → s.liveEn = false →
        ∃ t, exec .linkCrcFail s = .next t ∧ (n < 260 → (getLane t n).errCount.toNat = min 0xFFFF (c.errCount.toNat + 1))
          ∧ SameMemory s t ∧ (∀ x, (getCore s a).timed[i]? = some x → x.isWrite = false → (getCore t a).timed[i]? = some { x with isVoid := true }))
      ∧ (∀ l k, s.ev.crc = .untimed l k → k < 8 → n < 260 → s.liveEn = true → c.st = 0 → c.errCount.toNat + 1 < c.thresh.toNat → c.errCount.toNat < 0xFFFF →
        exec .linkCrcFail s = .next (setLane s n { c with errCount := c.errCount + 1 }))
      ∧ (∀ l k, s.ev.crc = .untimed l k → k < 8 → n < 260 → s.liveEn = true → c.st = 0 → c.errCount.toNat < 0xFFFF → c.thresh.toNat ≤ c.errCount.toNat + 1 →
        c.spares.toNat < spareLanes n → exec .linkCrcFail s = .next (setLane s n { c with errCount := c.errCount + 1, st := 1 }))
      ∧ (c.st = 1 → s.now % 1024 = 0 → exec .voidWindowStart s = .next (setLane s n { c with st := 2, voidFrom := some s.now, voidTo := none }))
      ∧ (c.st = 2 → s.now % 1024 = 0 →
        let r := if c.repairs = 255 then 255 else c.repairs + 1;
        exec .repairEnd s = .next (setLane s n { c with st := 0, voidTo := some s.now, spares := c.spares + 1, errCount := 0, repairs := r }))
      ∧ exec .errorWindowBoundary s = .next (setLane s n { c with errCount := 0, winExp := s.winExp, thresh := s.thresh })
      ∧ (n < 8 → (∃ t, RaisesFrom .cxlDown 0x04 [n] s t ∧ t = { s with cxlUp := t.cxlUp } ∧ ∀ i, t.cxlUp.getLsbD i = (s.cxlUp.getLsbD i && decide (i ≠ n)))
        ∧ ∃ t, exec .cxlRetrain s = .next t ∧ t = { s with cxlUp := t.cxlUp } ∧ ∀ i, i < 8 → t.cxlUp.getLsbD i = (s.cxlUp.getLsbD i || decide (i = n)))
      ∧ (tierOf n = .cxl → exec .cxlPoisonReport s = .next (poisonLine s n) ∧ ((assocGet (poisonLine s n).side (lineOf n)).map (·.poison)) = some true)
      ∧ (∀ m, nextMigration s = some m → exec .migrationStart s = .next (migBegin m { s with served := assocPut s.served migId m.task.part }))
      ∧ (∀ m, s.migrations[n]? = some m →
        (∀ i, nextLine m.bitmap = some i →
          ∃ t, exec .migrationLineCopy s = .next t
            ∧ (∀ x ∈ t.migrations, x.src = m.src → x.dst = m.dst → x.bitmap.getLsbD i = true)
            ∧ (let l := lineAt s (m.src + 64 * i) (((s.ptes.find? fun p => p.pa = m.src).map (·.keySlot)).getD 0);
              l.poison = false → SameOutside (m.dst + 64 * i) 64 s t
                ∧ (l.unwritten = false → ∀ j, j < 64 → byteAt t (m.dst + 64 * i + j) = l.bytes.getD j 0)))
        ∧ (nextLine m.bitmap = none → m.step ≠ 4 →
          ∃ t, exec .migrationSwitch s = .next t ∧ t = { s with migrations := t.migrations }
            ∧ ∀ x ∈ t.migrations, x.src = m.src → x.dst = m.dst → x = { m with step := 4 })
        ∧ (nextLine m.bitmap = none → m.step = 4 →
          let y := { s with migrations := s.migrations.filter fun x => x ≠ m };
          (m.replica = none → pageQuiet s m.src = true → exec .migrationSwitch s = .next (migEnd m stOk (moveHome m y))
            ∧ ∀ p ∈ (moveHome m y).ptes, m.src ≠ m.dst → p.pa ≠ m.src)
          ∧ (m.replica = none → pageQuiet s m.src = false → exec .migrationSwitch s = .next s)
          ∧ (∀ va, m.replica = some va → exec .migrationSwitch s = .next (migEnd m stOk (placeReplica m va y))))
        ∧ (m.step < 4 → exec .migrationAbandon s = .next (abandon m (if m.tier = 1 then retireBlock s m.dst else s)))
        ∧ (4 ≤ m.step → exec .migrationAbandon s = .next s)))
 ∧ (∀ (s : State),
      let n := s.ev.n
      let w := getWorld s n;
      (sweepReady s n = true →
        ∃ t x, exec .sweepStart s = .next t ∧ x = getWorld t n ∧ x.prevKey = some w.key ∧ x.st = 2 ∧ x.gen = w.gen + 1 ∧ x.live = w.live
          ∧ x.ptr = BitVec.ofNat 46 ((sweepFrom t n 0).getD 0 / 64) ∧ x.next = s.now + sweepPace ∧ SameMemory s t)
      ∧ (w.st = 2 →
        (sweepFrom s n (w.ptr.toNat * 64) = none →
          ∃ t, exec .sweepLine s = .next t ∧ (getWorld t n).prevKey = none ∧ (getWorld t n).st = (if w.queued then 1 else 0) ∧ (getWorld t n).queued = false
            ∧ (getWorld t n).key = w.key ∧ SameMemory s t)
        ∧ (∀ l m, sweepFrom s n (w.ptr.toNat * 64) = some l → sweepFrom s n (l + 64) = some m →
          ∃ t, exec .sweepLine s = .next t ∧ (getWorld t n).ptr = BitVec.ofNat 46 (m / 64) ∧ (getWorld t n).st = 2 ∧ (getWorld t n).key = w.key ∧ SameMemory s t
            ∧ (∀ d, assocGet s.side l = some d → d.world.toNat = n → pageKeySlot s l = 0 →
              ∃ e, assocGet t.side l = some e ∧ e.key = w.key ∧ (e.poison = true ↔ d.poison = true ∨ some d.key ≠ w.prevKey))))
      ∧ (∀ p, findPrefix s n = some p →
        (p.wanted = true → p.refetching = false → p.lost = false →
          (∀ c, p.clean = some c → ∃ t, exec .prefixRefetch s = .next t ∧ (∃ e, t.events.getLast? = some e ∧ e.kind = 0x0A ∧ e.args = [p.pa, c] ∧ e.world = some p.world)
            ∧ (∃ x ∈ t.prefixes, x.pa = p.pa ∧ x.refetching = true ∧ x.wanted = false ∧ s.now + refetchPace ≤ x.ready) ∧ SameMemory s t)
          ∧ (p.clean = none → exec .prefixRefetch s = .next (losePrefix p.pa s)))
        ∧ (p.refetching = true →
          (p.clean = none → exec .refetchingMarkClear s = .next (losePrefix p.pa s))
          ∧ (∀ c, p.clean = some c → pagePoisoned s c (pageKeySlot s c) = true → exec .refetchingMarkClear s = .next (losePrefix p.pa s))
          ∧ (∀ c g, p.clean = some c → pagePoisoned s c (pageKeySlot s c) = false → refetchPage s p.pa = some g →
            exec .refetchingMarkClear s = .next (replaceReplica p c g s)
              ∧ ∃ x ∈ (replaceReplica p c g s).prefixes, x.pa = g ∧ x.clean = some c ∧ x.refetching = false))))

/-! ### The host link and the registers (00_scope R10, R11; 03_links_trust R75 to R78, R84, R91, R109, R110; 04_host_interface R111 to R117) -/

/-- R75, R78, R91, R109, R110: the host link and the trust states. A link that goes down halts the queues and destroys its keys and its session; the queues
resume once the link is up with a new session and a new key for each stream that was in use; LOCK, START and STOP move a TDI between its states, and a
failed check leaves it in ERROR; measurements, certificates and sessions are answered where SPDM is served, and a session on a fabric port authenticates
its peer. What the digests and keys are is abstract (log 9).
R10, R11, R84, R111 to R117: the queue registers, register writes and completions. A request for a VF in RUN that did not come on its IDE stream is
dropped and logged (R78); a doorbell inside its range is taken and one outside it stops the queue with an event; EN starts a queue from nothing and ends its fetching; FABP_STAT returns its value and clears CRC_ERR; a write of a register stores its
writable fields; and a command that is done gives its completion. -/
def Obligations.HostLinkAndRegisterEvents : Prop :=
   (∀ (s : State),
      let n := s.ev.n
      let p := getPart s n;
      (s.linkUp = false → exec .hostLinkDown s = .next s)
      ∧ (s.linkUp = true → ∃ t, exec .hostLinkDown s = .next t ∧ t.linkUp = false ∧ t.linkHeld = true ∧ t.linkDownAt = s.now ∧ t.spdm = false
          ∧ t.ideKeys = [] ∧ (∀ k, k ∈ t.ideLost ↔ k ∈ s.ideLost ∨ k ∈ s.ideKeys) ∧ t.held = s.held ∧ t.queues = s.queues ∧ SameMemory s t)
      ∧ (∃ t, exec .hostLinkRetrain s = .next t ∧ t.linkUp = true
          ∧ (s.linkHeld = true → (s.spdm = false ∨ ∃ k ∈ s.ideLost, k ∉ s.ideKeys) → t = { s with linkUp := true })
          ∧ (s.linkHeld = true → s.spdm = true → (∀ k ∈ s.ideLost, k ∈ s.ideKeys) → t.linkHeld = false ∧ t.ideLost = []))
      ∧ (linkOverdue s = true →
        ∃ t, RaisesFrom .hostLinkLost 0x06 [] s t ∧ t.linkUp = false ∧ t.phase = .preBoot ∧ t.parts = State.reset.parts ∧ ∀ x ∈ t.pages, x.2.1 = 0)
      ∧ (p.present = true →
        (∃ t, exec .ideCheckFail s = .next t ∧ (getPart t n).tdisp = .error ∧ SameMemory s t)
        ∧ (p.tdisp = .unlocked → ∃ t, exec .lockInterface s = .next t ∧ (getPart t n).tdisp = .locked ∧ (getPart t n).islands = p.islands ∧ SameMemory s t)
        ∧ (p.tdisp = .locked → ∃ t, exec .startInterface s = .next t ∧ (getPart t n).tdisp = .run ∧ (getPart t n).islands = p.islands)
        ∧ (p.tdisp ≠ .unlocked → ∃ t, exec .stopInterface s = .next t ∧ (getPart t n).tdisp = .unlocked)
        ∧ (p.tdisp ≠ .unlocked → exec .lockInterface s = .next s) ∧ (p.tdisp ≠ .locked → exec .startInterface s = .next s))
      ∧ (∀ b, s.phase = .booted → s.linkUp = true → measured s n = some b →
        exec .spdmGetMeasurements s = .next { s with spdmReply := .measurement n (Config.shake256 b 64) })
      ∧ (spdmServed s = false ∨ measured s n = none → exec .spdmGetMeasurements s = .next { s with spdmReply := .error })
      ∧ (n = 0 →
        (spdmServed s = true → s.ev.k = spdmExchange → s.ev.flag = true → ∃ t, exec .spdmKeyExchange s = .next t ∧ t.spdm = true ∧ t.spdmReply = .session)
        ∧ (spdmServed s = false ∨ s.ev.k = spdmExchange ∧ s.ev.flag = false → exec .spdmKeyExchange s = .next { s with spdmReply := .error })
        ∧ (spdmServed s = true → s.spdm = true → s.ev.k = spdmEnd →
          exec .spdmKeyExchange s = .next { s with spdm := false, ideKeys := [], spdmReply := .none })
        ∧ (spdmServed s = true → s.ev.k = spdmGetCertificate → s.ev.v = 0 →
          exec .spdmKeyExchange s = .next { s with spdmReply := .certificate 0 (Config.makerChain s.flash.seed) }))
      ∧ (∀ m, n = m + 1 → m < 18 → s.phase = .booted → (getPort s m).st = portUp → s.ev.k = spdmExchange → s.ev.flag = true →
        ∃ t, exec .spdmKeyExchange s = .next t ∧ (getPort t m).auth = true ∧ ∀ i, i ≠ m → getPort t i = getPort s i)
      ∧ (spdmServed s = true → s.spdm = true → n < 18 →
        ∃ t, exec .ideKmKeyProg s = .next t ∧ (∀ k, k ∈ t.ideKeys ↔ k = n ∨ k ∈ s.ideKeys)))
 ∧ (∀ (s : State),
      let q := s.ev.n
      let v := s.ev.v.toNat % 2 ^ 32
      let h := getQueue s q;
      (ideRefused s (queueFn q) = true → ∀ i ∈ [Instr.sqTailWrite, .cqHeadWrite, .qctlEnSet, .qctlEnClear],
        exec i s = .next { s with ideDrops := s.ideDrops ++ [(s.tick, queueFn q)] })
      ∧ (ideRefused s (queueFn q) = false → takesDoorbell s q = false → exec .sqTailWrite s = .next s)
      ∧ (ideRefused s (queueFn q) = false → takesHead s q = false → exec .cqHeadWrite s = .next s)
      ∧ (ideRefused s (queueFn q) = false → takesDoorbell s q = true →
        (v < sqSize h → exec .sqTailWrite s = .next (putQueue s q { h with sqTail := v }))
        ∧ (sqSize h ≤ v → ∃ t, exec .sqTailWrite s = .next t ∧ (getQueue t q).err = true ∧ (getQueue t q).sqTail = h.sqTail
            ∧ ∃ e, t.events.getLast? = some e ∧ e.kind = 0x07 ∧ e.args = [q, v]))
      ∧ (ideRefused s (queueFn q) = false → takesHead s q = true →
        (headOk h v = true → ∃ t, exec .cqHeadWrite s = .next t ∧ (getQueue t q).cqHead = v ∧ (s.held = [] → t = putQueue s q { h with cqHead := v }))
        ∧ (headOk h v = false → ∃ t, exec .cqHeadWrite s = .next t ∧ (getQueue t q).err = true))
      ∧ (ideRefused s (queueFn q) = false → queueThere s q = true →
        (h.en = false → exec .qctlEnSet s = .next (putQueue s q { h with en := true, err := false, phase := true, sqHead := 0, sqTail := 0, cqTail := 0, cqHead := 0 }))
        ∧ (h.en = true → exec .qctlEnSet s = .next s)
        ∧ exec .qctlEnClear s = .next (putQueue s q { h with en := false }))
      ∧ (q < 18 → ∃ t, exec .fabpStatRead s = .next t ∧ t.mmioData = BitVec.ofNat 64 (fabpStat (getPort s q)) ∧ (getPort t q).crcErr = 0
          ∧ (getPort t q).st = (getPort s q).st ∧ ∀ p, p ≠ q → getPort t p = getPort s p)
      ∧ (∀ c, s.ev.reg = .wdogSet c → s.phase ≠ .recovery → ∃ t, exec .registerWrite s = .next t ∧ (getCore t c).wdogSetLimit = s.ev.v.setWidth 32)
      ∧ (∀ k, s.ev.reg = .mboxArg k → k < 8 → ∃ t, exec .registerWrite s = .next t ∧ t.mailbox.args[k]? = some s.ev.v ∧ t = { s with mailbox := t.mailbox })
      ∧ (s.ev.reg = .mboxCmd → s.phase = .booted → s.mailbox.busy = false →
        exec .registerWrite s = .next { s with mailbox := { s.mailbox with op := s.ev.v.setWidth 8, busy := true } })
      ∧ (s.ev.reg = .repairCtl → s.phase ≠ .recovery → exec .registerWrite s = .next (writeRepairCtl s.ev.v.toNat s)
          ∧ 16 ≤ (writeRepairCtl s.ev.v.toNat s).winExp.toNat ∧ (writeRepairCtl s.ev.v.toNat s).winExp.toNat ≤ 30
          ∧ 1 ≤ (writeRepairCtl s.ev.v.toNat s).thresh.toNat)
      ∧ (s.ev.reg = .devStat ∨ s.ev.reg = .mboxStat → exec .registerWrite s = .next s)
      ∧ (∀ r, s.hostRuns.find? (completable s) = some r → r.done = true → r.dropped = false → postable s r.queue = true → (∀ x ∈ s.held, x.queue ≠ r.queue) →
        let g := getQueue s r.queue
        ∃ t, exec .hostCommandComplete s = .next t ∧ t.hostRuns = s.hostRuns.erase r ∧ (getQueue t r.queue).cqTail = (g.cqTail + 1) % cqSize g
          ∧ (r.flags.getLsbD 1 = true → t.msix = s.msix ++ [(queueFn r.queue, g.vec.toNat)]) ∧ (r.flags.getLsbD 1 = false → t.msix = s.msix)
          ∧ SameOutside (hostPa (g.cqBase.toNat / 4096 * 4096 + 32 * g.cqTail)) 32 s t
          ∧ Holds t (hostPa (g.cqBase.toNat / 4096 * 4096 + 32 * g.cqTail)) 2 r.ident.toNat))

/-! ### The fabric (03_links_trust R80 to R89, R104 to R107; 16_isa_engines R447, R455) -/

/-- R80 to R84, R87 to R89, R104 to R107, R447, R455: what the fabric's flits and ports do. A flit of another type is dropped and counted, and one out of link
order is dropped; a read or an atomic of a member is served at its home and answered; an answer ends the access that it names; a NACK has the access sent
again 256 cycles later; copied lines are written and acknowledged; a new view waits for its commit, which makes it current, and a lost member makes the
coordinator form one; a port goes down after 16 failed replays, retrains at most once in a millisecond, and rekeys when a direction has wrapped 2^32 times.
The layout of the slots, and how a view comes about, are the model's (log 13, log 82). -/
def Obligations.FabricEvents : Prop :=
  ∀ (s : State),
    let f := s.ev.flit
    let n := s.ev.n
    let p := getPort s n
    let y := afterTake s;
    (∀ x ∈ [(Instr.ldReq, flitLdReq), (.ldRsp, flitLdRsp), (.atomReq, flitAtomReq), (.atomRsp, flitAtomRsp), (.nack, flitNack), (.copyData, flitCopyData),
            (.copyAck, flitCopyAck), (.colData, flitColData)],
      (getPort s f.port).st ≠ portUp ∨ (flitType f = x.2 ∧ f.seq ≠ (getPort s f.port).rxSeq) → exec x.1 s = .next s)
    ∧ (∀ x ∈ [(Instr.null, flitNull), (.ldReq, flitLdReq), (.ldRsp, flitLdRsp), (.atomReq, flitAtomReq), (.atomRsp, flitAtomRsp), (.nack, flitNack),
              (.copyData, flitCopyData), (.copyAck, flitCopyAck), (.colData, flitColData)],
      (getPort s f.port).st = portUp → flitType f ≠ x.2 → exec x.1 s = .next (setPort s f.port (countCrc (getPort s f.port))))
    ∧ ((getPort s f.port).st = portUp → flitType f = flitNull →
      (flitTag f = replayTag → exec .null s = .next (replayAll f.port (takeAck f.port f.ack s)))
      ∧ (flitTag f ≠ replayTag → exec .null s = .next (takeAck f.port f.ack s)
          ∧ ((getPort s f.port).pend = [] → f.port < 18 →
            (getPort (takeAck f.port f.ack s) f.port).replay = acknowledged f.ack (getPort s f.port).replay)))
    ∧ (∀ x ∈ [(Instr.ldReq, flitLdReq), (.atomReq, flitAtomReq)], (getPort s f.port).st = portUp → flitType f = x.2 → f.seq = (getPort s f.port).rxSeq →
      (getPort s f.port).serves = none → exec x.1 s = .next (outsideGroup f y))
    ∧ (Takes flitLdReq s → exec .ldReq s = .next (serve f (serveLoad f) y))
    ∧ (Takes flitAtomReq s → exec .atomReq s = .next (serve f (serveAtom f) y))
    ∧ (∀ r, Takes flitLdRsp s → (s.remotes.find? fun r => r.tag = flitTag f && r.isAtomic = false) = some r →
      exec .ldRsp s = .next (endRead r (flitLine f 0) (wordSide (flitSide f 0) 0) { y with remotes := s.remotes.filter fun x => x.tag ≠ r.tag }))
    ∧ (∀ r, Takes flitAtomRsp s → (s.remotes.find? fun r => r.tag = flitTag f && r.isAtomic = true) = some r →
      exec .atomRsp s = .next (endAtom f r { y with remotes := s.remotes.filter fun x => x.tag ≠ r.tag }))
    ∧ (Takes flitNack s → (∃ r ∈ s.remotes, r.tag = flitTag f) →
      exec .nack s = .next { y with remotes := s.remotes.map fun r => if r.tag = flitTag f then { r with retryAt := some (s.now + 256) } else r })
    ∧ (∀ r, (s.remotes.find? fun r => r.tag.toNat = n && r.retryAt.isSome) = some r →
      ∃ t, exec .remoteRetry s = .next (sendRequest t { r with retryAt := none })
        ∧ t = { s with remotes := s.remotes.map fun x => if x.tag = r.tag then { r with retryAt := none } else x })
    ∧ (Takes flitCopyData s → exec .copyData s = .next (receiveCopy f y)
        ∧ (∀ t, flitWorldOk y f = true → (flitSide f 0).toNat ≠ 1 → (flitSide f 0).toNat ≠ 2 → putAll f ((flitLine f 0).toNat % 2 ^ 64) y = some t →
          exec .copyData s = .next (reply f flitCopyAck [(flitSlots f - 1, 0)] t)))
    ∧ (∀ r, Takes flitCopyAck s → copyrRun y (flitTag f) = some r → exec .copyAck s = .next (countLines r ((flitLine f 0).toNat % 256) false y))
    ∧ (Takes flitColData s → exec .colData s = .next (receiveCol f y))
    ∧ (let m := s.ev.memb
      let q := getPort s m.port
      let z := receiveFlit m.port m.ack s;
      (q.st ≠ portUp ∨ q.auth = false ∨ m.seq ≠ q.rxSeq → exec .memb s = .next s)
      ∧ (q.st = portUp → q.auth = true → m.seq = q.rxSeq →
        exec .memb s = .next (membAct m z)
        ∧ (∀ i, m.kind = .view → commitSlot z m = some i →
          exec .memb s = .next (setGroup z i { getGroup z i with pending := true, num := m.group, next := some m }))
        ∧ (∀ i v, m.kind = .commit → commitOf z m = some (i, v) →
          exec .memb s = .next (enterView i v z)
            ∧ ∃ e, (enterView i v z).events.getLast? = some e ∧ e.kind = 0x0D ∧ e.args = [v.group.toNat, v.view.toNat])))
    ∧ (let g := getGroup s n;
      (lostMembers s n).contains s.ev.k = true → coordinates s g = true → g.members.contains s.ev.k = true → s.ev.k ≠ s.node.toNat → s.ev.k ≠ noNode → n < 8 →
      ∃ t e, exec .memberLost s = .next t ∧ t.events.getLast? = some e ∧ e.kind = 0x0D ∧ e.args = [g.num.toNat, (g.view + 1).toNat])
    ∧ (n < 18 → p.st = portUp →
      (p.replays < 16 → ∃ t, exec .flitCheckFail s = .next t ∧ (getPort t n).replays = p.replays + 1 ∧ (getPort t n).st = portUp
          ∧ t = { s with ports := t.ports, lanesOut := t.lanesOut })
      ∧ (16 ≤ p.replays → ∃ t, exec .flitCheckFail s = .next t ∧ (getPort t n).st = 0 ∧ (getPort t n).lanes = 0
          ∧ ∃ e, t.events.getLast? = some e ∧ e.kind = 0x05 ∧ e.args = [n, p.peer]))
    ∧ (n < 18 → p.st ≠ portUp →
      (s.now < p.retrainAt → exec .portRetrain s = .next s)
      ∧ (p.retrainAt ≤ s.now → s.ev.flag = true → p.resends < 16 →
        ∃ t, exec .portRetrain s = .next t ∧ (getPort t n).st = portUp ∧ (getPort t n).peer = s.ev.k % 2 ^ 18 ∧ (getPort t n).refusals = 0
          ∧ t = { s with ports := t.ports, lanesOut := t.lanesOut })
      ∧ (p.retrainAt ≤ s.now → s.ev.flag = false →
        ∃ t, exec .portRetrain s = .next t ∧ (getPort t n).st = (if 8 ≤ p.refusals + 1 then 3 else 1) ∧ (getPort t n).refusals = p.refusals + 1
          ∧ t = { s with ports := t.ports }))
    ∧ (n < 18 → 2 ^ 32 ≤ p.txWraps ∨ 2 ^ 32 ≤ p.rxWraps →
      ∃ t, exec .linkRekey s = .next t ∧ (getPort t n).txWraps = 0 ∧ (getPort t n).rxWraps = 0
        ∧ (getPort t n).rekeys = (if p.rekeys = 255 then 255 else p.rekeys + 1) ∧ t = { s with ports := t.ports, fresh := t.fresh })

/-! ### Where instructions complete -/

/-- 12_isa_scalar R363, R365, R366; 14_isa_matrix R400, R404, R405, R406: STRIP, MEET, MZERO, MCLOSE, MWAKE, MOPEN, MSHUT, MSTGET, MSTSET, MACC2V, MV2ACC and
MADH complete. For every state and operands that meet the conditions named for the word, on the state and the operands alone, exec answers a next state that
holds the word's own effect: a strip more in its queue, an arrival recorded or taken away, a cleared accumulator, a closed side context, awake sub-arrays, a
window set, row state or sums moved, handles or side context written. The S stream or the column has moved past the word. -/
def Obligations.StripMeetAndAccumulatorCompletion : Prop :=
  ∀ s : State,
    let c := cyc s
    let past (t : State) : Prop := (getCol t.core .colC).run = (getCol (passed .colC c s.core) .colC).run
    (∀ (o : RStrip) (w : Word), reject? (.strip o) = none → inHandler s = false → (readG s o.g).toNat ≤ 65535 →
      fetchWord s ((getCol s.core (colOfCode o.c)).entry + BitVec.ofNat 64 (4 * o.o.toNat)) = .ok w → w.toNat / 65536 = 0xC57A → w.toNat / 4096 % 16 = 0 →
      colOfCode o.c ∉ ((openGroup s.core).map (·.cols)).getD [] → (getCol s.core (colOfCode o.c)).queue.length < 4 →
      ∃ t, exec (.strip o) s = .next t ∧ Retires 1 s t
        ∧ (getCol t.core (colOfCode o.c)).queue.length = (getCol s.core (colOfCode o.c)).queue.length + (if readG s o.g = 0 then 0 else 1))
    ∧ (∀ (o : RMeet) (k : TaskRef) (l : Launch), s.core.task = some k → taskLaunch s = some l → o.l.toNat < launchLevels l →
      levelBarrier l o.l.toNat ≠ 0 → inHandler s = false → (o.f = 3 → levelBarrier l o.l.toNat = 2) →
      (o.f = 0 → s.core.phase = 0 → arrivalOf s k o.l.toNat = none → workDone s.core = true → s.core.loads = [] → s.core.stores = [] → s.core.timed = [] →
        ∃ t a, exec (.meet o) s = .next t ∧ Retires 1 s t ∧ arrivalOf t k o.l.toNat = some a ∧ a.complete = false)
      ∧ (∀ a, o.f = 1 ∨ s.core.phase = 2 → arrivalOf s k o.l.toNat = some a → a.viewLost = false → a.complete = true →
        ∃ t, exec (.meet o) s = .next t ∧ Retires 1 s t ∧ arrivalOf t k o.l.toNat = none))
    ∧ (∀ o : AccOp, AIdle s o.n →
      (∃ t, exec (.mzero o) s = .next t ∧ past t ∧ (readA t o.n).sums = 0 ∧ (readA t o.n).l = 0 ∧ (readA t o.n).ctx.isOpen = false)
      ∧ ((readA s o.n).ctx.isOpen = false ∨ ((readA s o.n).tag.toNat ≠ tagInt32 ∧ s.core.units.array ≤ c) →
        ∃ t, exec (.mclose o) s = .next t ∧ past t ∧ (readA t o.n).ctx.isOpen = false))
    ∧ (∀ o : Gap, ∃ t, exec (.mwake o) s = .next t ∧ past t ∧ (s.core.units.awake ≤ c → t.core.units.gated = false))
    ∧ (∀ o : AccOp, (∃ t, exec (.mopen o) s = .next t ∧ past t ∧ (readA t o.n).window = true)
      ∧ ∃ t, exec (.mshut o) s = .next t ∧ past t ∧ (readA t o.n).window = false)
    ∧ (∀ o : AccV, AIdle s o.n → s.core.units.accPort ≤ c →
      ((readV s o.v).busy = 0 →
        ∃ t x, exec (.mstget o) s = .next t ∧ past t ∧ x ∈ t.core.fx ∧ x.due = c + 4
          ∧ ∃ d, x.eff = .vWrite o.v d (BitVec.ofNat 4 tagRaw) 2 64 (readA s o.n).poison true ∧ ∀ r, r < 64 → elemAt d.toNat 32 r = elemAt (readA s o.n).m.toNat 32 r)
      ∧ (VIdle s o.v → (readV s o.v).tag.toNat = tagRaw → (readV s o.v).rows * (readV s o.v).cols = 128 →
        ∃ t, exec (.mstset o) s = .next t ∧ past t ∧ ∀ r, r < 64 → elemAt (readA t o.n).m.toNat 32 r = elemAt (readV s o.v).data.toNat 32 r)
      ∧ (o.v.toNat < 31 → (readV s o.v).busy = 0 → (readV s (o.v + 1)).busy = 0 →
        ∃ t x, exec (.macc2v o) s = .next t ∧ past t ∧ x ∈ t.core.fx ∧ x.due = c + 12
          ∧ ∃ d, x.eff = .vWrite o.v d (readA s o.n).tag 32 64 (readA s o.n).poison true ∧ ∀ i, i < 2048 → elemAt d.toNat 32 i = elemAt (readA s o.n).sums.toNat 32 i)
      ∧ (o.v.toNat < 31 → VIdle s o.v → VIdle s (o.v + 1) → (readV s o.v).tag.toNat = tagFp32 → (readV s (o.v + 1)).tag.toNat = tagFp32 →
        (readV s o.v).rows * (readV s o.v).cols = 2048 → (readV s (o.v + 1)).rows * (readV s (o.v + 1)).cols = 2048 →
        ∃ t, exec (.mv2acc o) s = .next t ∧ past t ∧ (readA t o.n).tag.toNat = tagFp32
          ∧ ∀ i, i < 2048 → elemAt (readA t o.n).sums.toNat 32 i = elemAt (readV s o.v).data.toNat 32 i))
    ∧ (∀ o : MadhOp, VIdle s o.v → AIdle s o.n → (readA s o.n).ctx.isOpen = false → (readV s o.v).tag.toNat = tagRaw →
      16 ≤ (readV s o.v).rows * (readV s o.v).cols → (readV s o.v).poison = false →
      ∃ t, exec (.madh o) s = .next t ∧ past t ∧ (o.c = 1 → (readA t o.n).ctx.blk.toNat = elemAt (readV s o.v).data.toNat 32 10 % 2 ^ 16))

/-- 16_isa_engines R438 to R456, 07_serving_structures R197 to R232, 02_memory_tiers R64: COPY2D, COPYR, SLATTN, LGMERGE, LGUNMERGE, LGSAVE, LGDROP, ADPIN,
ADUNPIN, ADPUB.CREATE, ADPUB.GRANT, ADPUB.PREPARE, ADPUB.COMMIT, ADPUB.DELETE, KALLOC, KALLOC.POOL, KEXTEND.ALLOC, KEXTEND.SHARE, KEXTEND.SETLEN, KFREE, MIGRATE,
MIGRATE.REPLICA, MIGRATE.CANCEL, COLRED, COLGAT, COLSCAT and WLOAD complete. For every state and record that meet the conditions named, on the state and the
record alone, exec answers a next state in which the command is on its way to its end with status OK, POISONED where it copied poison, and what it does is
done; a migration is queued, and a copy between packages or a collective has asked the other packages, whose answers end it (R447, R454). -/
def Obligations.EngineCommandCompletion : Prop :=
  ∀ (s : State) (c : Cmd), headerOk c.bits = true →
    let f := focus s c.core
    let r (eng : Nat) : RunCmd := taking eng c s
    let z (eng : Nat) : State := started eng c s
    let y (eng : Nat) : State := takeUp eng (r eng) (z eng)
    let free (eng : Nat) (all : Bool) : Prop := worksAtOnce eng all (r eng) (z eng) = true
    let ends (t : State) (eng st : Nat) : Prop := ∃ q ∈ t.running, q.core = c.core ∧ q.eng = eng ∧ q.seq = c.seq ∧ q.status.toNat = st ∧ q.pending = false ∧ q.waiting = false
    let goesOn (t : State) (eng : Nat) : Prop := ∃ q ∈ t.running, q.core = c.core ∧ q.eng = eng ∧ q.seq = c.seq ∧ (q.pending = true ∨ q.waiting = true)
    (let o := copyOp c
      let e := copyEngine s c;
      free e false → copyValid c f = true → copyReady c f = .ok () → o.src + o.len ≤ 0x80000 → o.dst + o.len ≤ 0x80000 → o.rows = 1 → o.tile = false →
      o.tagged = false → o.follow = false → ∃ t, exec (.copy2d c) s = .next t ∧ (ends t e stOk ∨ ends t e stPoisoned))
    ∧ (free 0x08 true → copyrValid c f = true → (getGroup (y 0x08) (copyrOp c).group).view = (copyrOp c).view →
      selfNode (y 0x08) (copyrOp c).srcNode = false → ∃ t, exec (.copyr c) s = .next t ∧ goesOn t 0x08)
    ∧ (∀ q x, let rr := attnLatch c (r 0x10) (z 0x10)
      let yy := takeUp 0x10 rr (z 0x10);
      worksAtOnce 0x10 true rr (z 0x10) = true → attnValid c f = true → attnReady c f = .ok () → (attnOp c).tagged = false → attnSeq c yy = some q →
      q.world = rr.world → q.stopped = false → rr.blocks.contains uncached = false → readBlocks yy rr q (rr.blocks.zip (seqBlocks rr.done.1 q)) = .ok x →
      ∃ t, exec (.slattn c) s = .next t ∧ (ends t 0x10 stOk ∨ ends t 0x10 stPoisoned))
    ∧ (free 0x11 true →
      (∀ m k x w, mergeValid c f = true → mergeReady c f = .ok () → mergeMap (mergeOp c) (r 0x11) (y 0x11) = .ok m →
        mergeRead (mergeOp c) (r 0x11) (y 0x11) = .ok (k, x, w) → ∃ t, exec (.lgmerge c) s = .next t ∧ t = mergeOn (mergeOp c) m k x w (r 0x11) (y 0x11)
          ∧ ((mergeOp c).out + (mergeOp c).n * (mergeOp c).dx * xBytes (mergeOp c).fp32 + 8 * (mergeOp c).n + 128 ≤ 0x80000 →
            ends t 0x11 stOk ∨ ends t 0x11 stPoisoned))
      ∧ (∀ m b, unmergeValid c f = true → unmergeReady c f = .ok () → findMap (y 0x11) (r 0x11) (fld c 16 4) = .ok m →
        ligAddrOk (fld c 32 8) (unmergeRow c * m.entries.length) = true → ligRead (y 0x11) (r 0x11) (fld c 24 8) (unmergeRow c * m.kept) = .ok b →
        ∃ t out, exec (.lgunmerge c) s = .next t ∧ out = m.entries.flatMap (fun e => (b.drop (unmergeRow c * e.2)).take (unmergeRow c))
          ∧ t = ligFinish (r 0x11) (ceilDiv (m.entries.length * fld c 20 2) 256) [(fld c 32 8, out)] (out.any (·.2)) 0 {} (fun s => freeMap s m) (y 0x11)
          ∧ (fld c 32 8 < 0x80000 → ends t 0x11 stOk ∨ ends t 0x11 stPoisoned))
      ∧ (∀ m, lgsaveValid c f = true → findMap (y 0x11) (r 0x11) (fld c 16 4) = .ok m → ligAddrOk (fld c 24 8) (mapBytes m.entries.length) = true →
        ∃ t, exec (.lgsave c) s = .next t
          ∧ t = ligFinish (r 0x11) (ceilDiv m.entries.length 16) [(fld c 24 8, ligBytes false (m.entries.flatMap entryOut))] false 0 {} id (y 0x11)
          ∧ (fld c 24 8 < 0x80000 → ends t 0x11 stOk)))
    ∧ (∀ m, free 0x11 false → lgdropValid c f = true → findMap (y 0x11) (r 0x11) (fld c 16 4) = .ok m → ∃ t, exec (.lgdrop c) s = .next t ∧ ends t 0x11 stOk)
    ∧ (free 0x12 false →
      (∀ a v u n, adpinValid c f = true → liveAht (y 0x12) (pinHandle c) = some a → currentVersion a (r 0x12).task.part = some v →
        mayUse a (r 0x12).world = true → admitVersion c (r 0x12) a v (y 0x12) = .ok (u, n) → ∃ t, exec (.adpin c) s = .next t ∧ ends t 0x12 stOk)
      ∧ (adunpinValid c f = true → ckptOf (y 0x12) (r 0x12).task = none →
        pinHeld (y 0x12) (r 0x12).task.part (pinHandle c) (BitVec.ofNat 32 (fld c 20 4)) = true → ∃ t, exec (.adunpin c) s = .next t ∧ ends t 0x12 stOk)
      ∧ (createValid c f = true → (pubHandle c).toNat % 2 ^ 20 ≠ 0 → (∀ a ∈ (y 0x12).aht, a.handle.toNat % 2 ^ 20 ≠ (pubHandle c).toNat % 2 ^ 20) →
        ∃ t, exec (.adpubCreate c) s = .next t ∧ ends t 0x12 stOk ∧ ∃ a ∈ t.aht, a.handle = pubHandle c)
      ∧ (∀ a, liveAht (y 0x12) (pubHandle c) = some a → a.owner = (r 0x12).world →
        (grantValid c f = true → ∃ t, exec (.adpubGrant c) s = .next t ∧ ends t 0x12 stOk)
        ∧ (bareValid c f = true → (∃ v ∈ a.vers.toList, v.st = 0) → (freeKeySlot (y 0x12)).isSome = true → a.next ≠ 0xFFFFFFFF →
          ∃ t, exec (.adpubPrepare c) s = .next t ∧ ends t 0x12 stOk)
        ∧ (bareValid c f = true → ∃ t, exec (.adpubDelete c) s = .next t ∧ ends t 0x12 stOk)))
    ∧ (∀ a v es u, free 0x12 true → commitValid c f = true → liveAht (y 0x12) (pubHandle c) = some a → a.owner = (r 0x12).world →
      a.vers.toList.find? (fun v => v.num = BitVec.ofNat 32 (fld c 20 4) && v.st = 1) = some v → (∀ q ∈ commitTargets c, boundIn (y 0x12) a.owner q = true) →
      allOk (readFactors (y 0x12) (r 0x12) (fld c 32 8) (rankOf a)) (List.range (fld c 28 2 * fld c 30 1)) = .ok es →
      (commitTargets c).foldl (commitPlace a.handle v.num a) (commitResolve (r 0x12) a v c es (y 0x12)) = .ok u →
      ∃ t, exec (.adpubCommit c) s = .next t ∧ ends t 0x12 stOk)
    ∧ (let p := (r 0x13).task.part
      (∀ u e n, kallocValid c f = true → allocExtent (z 0x13) p (r 0x13).world (fld c 16 1) (fld c 24 4) = .ok (u, e) → freeSeq (z 0x13) p = some n →
        ∃ t, exec (.kalloc c) s = .next t ∧ ends t 0x13 stOk)
      ∧ (poolValid c f = true → ∃ t, exec (.kallocPool c) s = .next t ∧ ends t 0x13 stOk)
      ∧ (∀ q, getSeq (z 0x13) p (fld c 16 2) = some q → q.stopped = false → q.world = (r 0x13).world →
        (∀ u e, extendValid c f = true → q.extents.length < 16 → allocExtent (z 0x13) p (r 0x13).world q.pool (fld c 24 4) = .ok (u, e) →
          ∃ t, exec (.kextendAlloc c) s = .next t ∧ ends t 0x13 stOk)
        ∧ (∀ x, shareValid c f = true → q.extents.length < 16 → getPool (getPart (z 0x13) p) q.pool = some x → fld c 32 8 % x.stride = 0 →
          (∀ a ∈ rangePages (fld c 32 8) (fld c 24 4 * x.stride), ∃ w, prefixAt (z 0x13) (r 0x13).world a = some w ∧ w.clean.isSome = true ∧ w.lost = false) →
          ∃ t, exec (.kextendShare c) s = .next t ∧ ends t 0x13 stOk)
        ∧ (extendValid c f = true → fld c 24 4 ≤ (q.extents.map (·.len)).sum → ∃ t, exec (.kextendSetlen c) s = .next t ∧ ends t 0x13 stOk)
        ∧ (kfreeValid c s = true → kfreeValid c f = true → kfreeHeld c s = false → ckptOf (z 0x13) (r 0x13).task = none →
          ∃ t, exec (.kfree c) s = .next t ∧ ends t 0x13 stOk)))
    ∧ (migValid c f = true →
      (migTakes (z 0x14) (r 0x14).task.part (r 0x14).world (migOp c) = true →
        (∃ t, exec (.migrate c) s = .next t ∧ goesOn t 0x14 ∧ t.migQueue.length = (z 0x14).migQueue.length + 1)
        ∧ ∃ t, exec (.migrateReplica c) s = .next t ∧ goesOn t 0x14 ∧ t.migQueue.length = (z 0x14).migQueue.length + 1)
      ∧ (∀ m, ((z 0x14).migrations ++ (z 0x14).migQueue).find? (fun m => m.world = (r 0x14).world && m.va = (migOp c).va && m.step < 4) = some m →
        ∃ t, exec (.migrateCancel c) s = .next t ∧ ends t 0x14 stOk))
    ∧ (let o := colOp c.bits
      let g := getGroup (y 0x15) o.slot;
      free 0x15 true → colValid c f = true → g.view = o.view → findColl (y 0x15) g.num.toNat o.view o.tag = none →
      (∃ k, k < (rankNodes g).length ∧ k ≠ ownRank (y 0x15) g) →
      (∃ t, exec (.colred c) s = .next t ∧ goesOn t 0x15) ∧ (∃ t, exec (.colgat c) s = .next t ∧ goesOn t 0x15)
        ∧ ∃ t, exec (.colscat c) s = .next t ∧ goesOn t 0x15)
    ∧ (free 0x16 true → wloadValid c s = true → wloadValid c f = true → wloadHeld c s = false →
      ((List.range ((wloadOp c).2.2.1 / 64)).foldl (wloadLine c (r 0x16)) { s := z 0x16, lines := 0, poisoned := false, halt := none }).halt = none →
      ∃ t, exec (.wload c) s = .next t ∧ (ends t 0x16 stOk ∨ ends t 0x16 stPoisoned))

/-- 04_host_interface R114 to R126, R131, R485; 05_partitions_scheduler R133 to R137; 03_links_trust R93, R94, R100; 02_memory_tiers R45; 01_package R27, R31:
PART_CREATE, PART_RESIZE, PART_DESTROY, PART_RESET, WORLD_CREATE, WORLD_DESTROY, WORLD_BIND in both forms, QUOTA_GET, QUOTA_SET, PAGE_ALLOC, PAGE_FREE,
PREFIX_REG, KEY_ROTATE, POWER_CAP_SET, FW_WRITE, CFG_WRITE, LOG_READ, ERR_READ, RESYNC, QRESET, LAUNCH, COPY_H2D, COPY_D2H and OBJ_WAIT of a queue complete. For
every state and record that meet the conditions named, on the state and the record alone, exec answers a next state with the command's completion at status
OK and what it does done; KEY_ROTATE, the unbind form, RESYNC and OBJ_WAIT have begun their wait, which the spec has them end in later. -/
def Obligations.HostCommandCompletion : Prop :=
  ∀ (s : State) (h : HostCmd), h.queue ≠ mailboxQueue → hostIdent h ≠ 0xFFFF → hostCommonOk (fetchEntry s h.queue) h = true →
    let z := fetchEntry s h.queue
    let n := partNo h
    let w := worldNo h
    let w' : BitVec 6 := BitVec.ofNat 6 w
    let ok (t : State) : Prop := ∃ r ∈ t.hostRuns, r.queue = h.queue ∧ r.ident = hostIdent h ∧ r.done = true ∧ r.status.toNat = stOk
    let waits (t : State) (x : HostWait) : Prop := ∃ r ∈ t.hostRuns, r.queue = h.queue ∧ r.ident = hostIdent h ∧ r.done = false ∧ r.wait = x
    (∀ ports maps, partCreateValid h z = true → n ≤ 15 → (getPart z n).present = false → islandTaken z (partMask h) n = false →
      takePorts z (hfld h 35 1) = some ports → calendarMaps z (partMask h) (ptr0 h) = some maps →
      ∃ t, exec (.partCreate h) s = .next t ∧ ok t ∧ (getPart t n).present = true ∧ (getPart t n).islands = partMask h)
    ∧ (∀ maps, partResizeValid h z = true → n ≤ 15 → (getPart z n).present = true → frozen (getPart z n) = false → islandTaken z (partMask h) n = false →
      calendarMaps z (partMask h) (ptr0 h) = some maps → maskFree z ((getPart z n).islands &&& ~~~(partMask h)) = true →
      ∃ t, exec (.partResize h) s = .next t ∧ ok t ∧ (getPart t n).islands = partMask h)
    ∧ (partOnly h z = true → n ≤ 15 → (getPart z n).present = true →
      (frozen (getPart z n) = false → ∃ t, exec (.partDestroy h) s = .next t ∧ ok t ∧ (getPart t n).present = false)
      ∧ ∃ t, exec (.partReset h) s = .next t ∧ ok t ∧ (getPart t n).tdisp = .error)
    ∧ (worldOnly h z = true → 0 < w → w < 64 →
      ((getWorld z w).live = false → awaitsScrub z w = false → ∃ t, exec (.worldCreate h) s = .next t ∧ ok t ∧ (getWorld t w).live = true)
      ∧ ((getWorld z w).live = true → worldFrozen z w = false → ∃ t, exec (.worldDestroy h) s = .next t ∧ ok t ∧ (getWorld t w).live = false)
      ∧ ((getWorld z w).live = true → (getWorld z w).st = 0 →
        ∃ t, exec (.keyRotate h) s = .next t ∧ waits t (.sweep w ((getWorld z w).gen + 1)) ∧ (getWorld t w).st = 1))
    ∧ (bindValid h z = true → 0 < w → w < 64 → (getWorld z w).live = true → hfld h 25 1 ≤ 15 → (getPart z (hfld h 25 1)).present = true →
      frozen (getPart z (hfld h 25 1)) = false → worldFrozen z w = false →
      (∃ t, exec (.worldBind h) s = .next t ∧ ok t ∧ (getWorld t w).parts.getLsbD (hfld h 25 1) = true)
      ∧ ∃ t, exec (.worldUnbind h) s = .next t ∧ waits t (.unbind w (hfld h 25 1)))
    ∧ (quotaValid h z = true → w < 64 → worldLive z w = true →
      (∃ t, exec (.quotaGet h) s = .next t ∧ ok t ∧ HostHolds t (ptr0 h) (quotaBytes (getQuota z w)))
      ∧ (quotaFrozen z w = false → z.linkUp = true →
        ∃ t, exec (.quotaSet h) s = .next t ∧ ok t ∧ getQuota t w = quotaApply (cellRead z.mem (hostPa (ptr0 h)) 64) (getQuota z w)))
    ∧ (∀ vas, pageAllocValid h z = true → w < 64 → worldLive z w = true → ptr1 h = 0 → hostList z (ptr0 h) (pageCount h) = some vas → vasOk z w' vas = true →
      pagesFit z w' (pageTierNo h) (pageCount h) = true → pageCount h ≤ (freeIn z (tierRanges z w (pageTierNo h)) (pageCount h)).length →
      ∃ t, exec (.pageAlloc h) s = .next t ∧ ok t ∧ ∀ a ∈ vas, ∃ p ∈ t.ptes, p.world = w' ∧ p.va = a ∧ p.pages = 1)
    ∧ (∀ vas, pageFreeValid h z = true → w < 64 → worldLive z w = true → hostList z (ptr0 h) (pageCount h) = some vas →
      vas.all (fun a => (pageToFree z w' (pageTierNo h) a).isSome) = true → allDistinct vas = true → ∃ t, exec (.pageFree h) s = .next t ∧ ok t)
    ∧ (∀ p clean, prefixValid h z = true → w < 64 → worldLive z w = true → findPte z w' (ptr0 h) = some p → cleanHome z w' (ptr1 h) = some clean →
      ptr0 h % 65536 = 0 → p.pages = 1 → p.write = false → z.replicas.length < replicaTable →
      ∃ t, exec (.prefixReg h) s = .next t ∧ ok t ∧ ∃ x ∈ t.prefixes, x.pa = p.pa ∧ x.clean = clean)
    ∧ (powerValid h z = true → ∃ t, exec (.powerCapSet h) s = .next t ∧ ok t ∧ t.powerCap = capStored z.recordCap (hfld h 24 4))
    ∧ (z.linkUp = true →
      (fwValid h z = true → ∃ t, exec (.fwWrite h) s = .next t ∧ ok t ∧ t.flash = (writeSlot z (hfld h 24 4) (cellRead z.mem (hostPa (ptr0 h)) (hfld h 28 4))).flash)
      ∧ (cfgValid h z = true → ∃ t, exec (.cfgWrite h) s = .next t ∧ ok t ∧ t.flash.record.content = cellRead z.mem (hostPa (ptr0 h)) (hfld h 28 4)))
    ∧ (z.phase ≠ .recovery →
      (logValid h z = true → ∃ t, exec (.logRead h) s = .next t ∧ ok t ∧ t.unread = z.unread - (unreadOf z.events z.unread (hfld h 24 4)).length)
      ∧ (∀ b, logValid h z = true → assocGet z.errors (hfld h 24 4) = some b →
        ∃ t, exec (.errRead h) s = .next t ∧ ok t ∧ HostHolds t (ptr0 h) (padTo 4096 0 b))
      ∧ (resyncValid h z = true → ∃ t, exec (.resync h) s = .next t ∧ waits t (.resync (ptr0 h)))
      ∧ (qresetValid h z = true → qresetQueue h = adminQueue → ∃ t, exec (.qreset h) s = .next t ∧ ok t ∧ (getQueue t adminQueue).en = false))
    ∧ (z.linkUp = true →
      (launchValid h z = true → launchWorld (Launch.accept 0 (BitVec.ofNat 2048 (leNat (cellRead z.mem (hostPa (ptr0 h)) 256))) []) = hostWorld h →
        validLaunch z (queuePart h) (BitVec.ofNat 2048 (leNat (cellRead z.mem (hostPa (ptr0 h)) 256))) = true → poolFull z (queuePart h) = false → h.queue < 256 →
        ∃ t, exec (.queueLaunch h) s = .next t ∧ ok t
          ∧ ∃ l ∈ (getPart t (queuePart h)).launches, l.bits = BitVec.ofNat 2048 (leNat (cellRead z.mem (hostPa (ptr0 h)) 256)))
      ∧ (hostCopyValid ptr1 h z = true → (toDevice (hostWorld h) (copyLen h / 64) (ptr0 h) (ptr1 h) z).2 = 0 →
        ∃ t, exec (.copyH2d h) s = .next t ∧ ok t ∧ t.mem = (afterIncrement (toDevice (hostWorld h) (copyLen h / 64) (ptr0 h) (ptr1 h) z).1).mem)
      ∧ (hostCopyValid ptr0 h z = true → (toHost (hostWorld h) (copyLen h / 64) (ptr0 h) (ptr1 h) false z).2 = (0, false) →
        ∃ t, exec (.copyD2h h) s = .next t ∧ ok t ∧ t.mem = (toHost (hostWorld h) (copyLen h / 64) (ptr0 h) (ptr1 h) false z).1.mem))
    ∧ (objValid h z = true → objWaits z (queuePart h) < 256 → findPte z (hostWorld h) (ptr0 h) ≠ none →
      ∃ t, exec (.objWait h) s = .next t ∧ waits t (.object (hostWorld h) (ptr0 h) (BitVec.ofNat 64 (hfld h 24 8))))
end

