-- ==== Sys2Proof/Laws/Encoding.lean ====
section
/-! SUPPORT. Fields packed into a word and read back: what the encoder lays side by side, the decoder finds. -/

namespace Sys2Proof.Laws.RoundTrip

/-- Every value of a list of fields ends below the field before it. -/
def Fits : Nat → List (Nat × Nat) → Prop
  | _, [] => True
  | hi, (lo, v) :: rest => lo ≤ hi ∧ v < 2 ^ (hi - lo) ∧ Fits lo rest

/-- The field of `len` bits from bit `k`, read off the list of fields. -/
def look : List (Nat × Nat) → Nat → Nat → Nat
  | [], _, _ => 0
  | (lo, v) :: rest, k, len =>
    if k + len ≤ lo then look rest k len
    else if lo ≤ k then fldN v (k - lo) len
    else fldN v 0 (k + len - lo) * 2 ^ (lo - k) + look rest k (lo - k)

theorem pack_lt : ∀ {l hi}, Fits hi l → pack l < 2 ^ hi
  | [], hi, _ => by simp [pack, Nat.two_pow_pos]
  | (lo, v) :: rest, hi, ⟨h, hv, hr⟩ => by
    have below := pack_lt hr
    have e : 2 ^ hi = 2 ^ (hi - lo) * 2 ^ lo := by rw [← Nat.pow_add]; congr 1; omega
    have top : (v + 1) * 2 ^ lo ≤ 2 ^ (hi - lo) * 2 ^ lo := Nat.mul_le_mul_right _ hv
    simp only [pack, e]
    rw [Nat.add_mul] at top; omega

/-- A field below a value is that of the rest. -/
theorem fldN_below {v r lo k len : Nat} (h : k + len ≤ lo) : fldN (v * 2 ^ lo + r) k len = fldN r k len := by
  have e : v * 2 ^ lo = 2 ^ k * (2 ^ len * (v * 2 ^ (lo - k - len))) := by
    have : lo = k + (len + (lo - k - len)) := by omega
    conv => lhs; rw [this, Nat.pow_add, Nat.pow_add]
    ac_rfl
  simp only [fldN, e]
  rw [Nat.mul_add_div (Nat.two_pow_pos k), Nat.mul_add_mod]

/-- A field at or above a value's lowest bit is that of the value. -/
theorem fldN_above {v r lo k len : Nat} (hr : r < 2 ^ lo) (h : lo ≤ k) : fldN (v * 2 ^ lo + r) k len = fldN v (k - lo) len := by
  have e : 2 ^ k = 2 ^ lo * 2 ^ (k - lo) := by rw [← Nat.pow_add]; congr 1; omega
  simp only [fldN, e, ← Nat.div_div_eq_div_mul]
  rw [Nat.mul_comm v, Nat.mul_add_div (Nat.two_pow_pos lo), Nat.div_eq_of_lt hr, Nat.add_zero]

theorem fldN_split {n k a b : Nat} : fldN n k (a + b) = fldN n (k + a) b * 2 ^ a + fldN n k a := by
  simp only [fldN, Nat.pow_add, ← Nat.div_div_eq_div_mul]
  rw [Nat.mod_mul, Nat.mul_comm, Nat.add_comm]

theorem fldN_pack : ∀ {l hi}, Fits hi l → ∀ k len, fldN (pack l) k len = look l k len
  | [], _, _, k, len => by simp [pack, look, fldN]
  | (lo, v) :: rest, hi, ⟨h, hv, hr⟩, k, len => by
    simp only [pack, look]
    split
    · rw [fldN_below ‹_›, fldN_pack hr]
    · split
      · rw [fldN_above (pack_lt hr) ‹_›]
      · have hk : k + (lo - k) = lo := by omega
        have hl : len = (lo - k) + (k + len - lo) := by omega
        conv => lhs; rw [hl]
        rw [fldN_split, hk, fldN_above (pack_lt hr) (Nat.le_refl lo), fldN_below (Nat.le_of_eq hk), fldN_pack hr, Nat.sub_self]

theorem fldN_self {w : Nat} (x : BitVec w) : fldN x.toNat 0 w = x.toNat := by simp [fldN]

theorem fld_pack {l : List (Nat × Nat)} {k len : Nat} {x : BitVec len} (F : Fits 32 l) (h : look l k len = x.toNat) : fld (pack l) k len = x := by
  apply BitVec.eq_of_toNat_eq
  rw [← h, ← fldN_pack F]; simp [fld, fldN]

theorem lt_of_isLt {w n : Nat} (x : BitVec w) (h : 2 ^ w ≤ n) : x.toNat < n := Nat.lt_of_lt_of_le x.isLt h

/-- A word with a field that is not 0 is not the all-zero word. -/
theorem pos_of_look {l : List (Nat × Nat)} {k len c : Nat} (F : Fits 32 l) (h : look l k len = c + 1) : 0 < pack l := by
  apply Nat.pos_of_ne_zero
  intro e
  have := fldN_pack F k len
  rw [e, h] at this; simp [fldN] at this

/-- Decoding a word whose reading by the opcode map is a well-formed instruction. -/
theorem decode_of {st : Stream} {i : Instr} {n : Nat} (he : encodeNat i = n) (h0 : 0 < n) (h1 : n < 2 ^ 32) (hr : rawOf st n = .ok i)
    (hw : reject? i = none) : decode st (encode i) = .ok i := by
  have e : (encode i).toNat = n := by simp only [encode, he, BitVec.toNat_ofNat]; exact Nat.mod_eq_of_lt h1
  simp only [decode, e, hr, checked, hw]
  exact if_neg (Nat.ne_of_gt h0)

/-- An instruction on an address register that is well formed belongs to the L or the W column. -/
theorem col_of_rejectE {c : Col} {e : BitVec 4} {p : BitVec 2} (h : rejectE c e p = none) : c = .colL ∨ c = .colW := by
  cases c <;> simp_all [rejectE, rejectIf, eRegOk]

theorem col_of_eadd {o : EImm} (h : reject? (.eadd o) = none) : o.col = .colL ∨ o.col = .colW := col_of_rejectE h

theorem col_of_eset {o : EImm} (h : reject? (.eset o) = none) : o.col = .colL ∨ o.col = .colW := col_of_rejectE h

theorem col_of_emov {o : EMovOp} (h : reject? (.emov o) = none) : o.col = .colL ∨ o.col = .colW := by
  refine col_of_rejectE (e := o.e) (p := o.p) ?_
  change (rejectE o.col o.e o.p).orElse _ = none at h
  cases hr : rejectE o.col o.e o.p <;> simp_all

end Sys2Proof.Laws.RoundTrip
end

