-- ==== Sys2Proof/Laws/Engine.lean ====
section
/-! SUPPORT. How an engine command starts and ends, once for all of them. -/

namespace Sys2Proof.Laws.Engine

open Sys2Proof Sys2Proof.Machine

/-- An instruction that is the start of a command starts as R439 says. -/
theorem startsWith_of {i : Instr} {eng : Nat} {c : Cmd} {valid : State → Bool} {ready : State → Chk Unit} {work : RunCmd → State → State} {s : State}
    (h : exec i s = startCommand eng c valid ready work s) : StartsWith i eng c valid ready work s := by
  refine ⟨fun a b r => ?_, fun b => ?_, fun t a b r => ?_⟩
  · rw [h]; unfold startCommand started taking; simp only [a, b, r]; rfl
  · rw [h]; unfold startCommand started taking
    rcases b with b | b <;> simp [b]
  · rw [h]; unfold startCommand; simp only [a, b, r]; rfl

/-- A command stands among the running ones once it is put there. -/
theorem mem_putRun (r : RunCmd) (s : State) : r ∈ (putRun r s).running := by
  unfold putRun
  by_cases h : (s.running.any fun x => x.task = r.task && x.eng = r.eng && x.seq = r.seq) = true
  · simp only [h, if_true]
    rw [List.any_eq_true] at h
    obtain ⟨x, hx, e⟩ := h
    exact List.mem_map.2 ⟨x, hx, by simp only [e, if_true]⟩
  · simp only [h]
    exact List.mem_append_right _ (List.mem_singleton.2 rfl)

/-- Putting a command among the running ones changes nothing but those. -/
theorem putRun_eq (r : RunCmd) (s : State) : putRun r s = { s with running := (putRun r s).running } := by
  unfold putRun
  by_cases h : (s.running.any fun x => x.task = r.task && x.eng = r.eng && x.seq = r.seq) = true <;> simp only [h, if_true] <;> rfl

/-- A command on its way to its end. -/
theorem endsWith_of {i : Instr} {eng : Nat} {c : Cmd} {s t : State} {n due status result : Nat} {r : RunCmd}
    (h : exec i s = .next (putRun (endsWith r due status result) t)) (hc : r.core = c.core) (he : r.eng = eng) (hs : r.seq = c.seq)
    (hd : cycOf t c.core + n ≤ due) : EndsWith i eng c s n status result t := by
  refine ⟨_, endsWith r due status result, h, mem_putRun _ _, hc, he, hs, ?_, ?_, hd, rfl, rfl, rfl, ?_⟩
  · simp [endsWith]
  · simp [endsWith]
  · rw [putRun_eq]

end Sys2Proof.Laws.Engine
end

