-- ==== Sys2Proof/Laws/Host.lean ====
section
/-! SUPPORT. What a host command does, once for all of them: it is turned away, or it acts and answers at once, or it acts and waits. -/

namespace Sys2Proof.Laws.Host

open Sys2Proof Sys2Proof.Machine

/-- A command that is executed acts on the state in which its entry is fetched, and its answer is noted. -/
theorem hostCommand_accepted {h : HostCmd} {valid : State → Bool} {act : State → State × Answer} {s : State} (a : Accepted h valid s) :
    hostCommand h valid act s = .next (answer h (act (fetched h s)).1 (act (fetched h s)).2) := by
  obtain ⟨q, c, v⟩ := a
  unfold hostCommand
  simp only [fetched] at *
  rw [if_neg q, if_neg (by simp [c, v])]

/-- A command whose record is not in order answers BADCMD. -/
theorem hostCommand_rejected {h : HostCmd} {valid : State → Bool} {act : State → State × Answer} {s : State}
    (q : hostIdent h ≠ 0xFFFF) (b : hostCommonOk (fetched h s) h = false ∨ valid (fetched h s) = false) :
    hostCommand h valid act s = .next (answer h (fetched h s) (.now stBadcmd 0)) := by
  unfold hostCommand
  simp only [fetched] at *
  rw [if_neg q, if_pos (by rcases b with b | b <;> simp [b])]

/-- A command under the reserved identity is not executed. -/
theorem hostCommand_reserved {h : HostCmd} {valid : State → Bool} {act : State → State × Answer} {s : State}
    (i : hostIdent h = 0xFFFF) : hostCommand h valid act s = .next (reservedIdent h (fetched h s)) := by
  unfold hostCommand
  simp only [fetched]
  rw [if_pos i]

theorem run_of (h : HostCmd) (t : State) : RunOf h t (hostRun t h) := ⟨rfl, rfl, rfl, by simp [hostRun], rfl⟩

/-- An answer at once, as `Completes` reads it. -/
theorem completes_of {i : Instr} {h : HostCmd} {s t : State} {st res : Nat} (e : exec i s = .next (answer h t (.now st res))) : Completes i h s st res t := by
  constructor
  · intro m; rw [e]; simp [answer, m]
  · intro m
    refine ⟨{ hostRun t h with done := true, status := BitVec.ofNat 16 st, res0 := BitVec.ofNat 64 res }, ?_, run_of h t, rfl, rfl, rfl, rfl, rfl⟩
    rw [e]; simp [answer, m]

/-- An answer that waits, as `Defers` reads it. -/
theorem defers_of {i : Instr} {h : HostCmd} {s t : State} {w : HostWait} (e : exec i s = .next (answer h t (.later w))) : Defers i h s w t :=
  ⟨{ hostRun t h with wait := w }, by rw [e]; rfl, run_of h t, rfl, rfl⟩

end Sys2Proof.Laws.Host
end

