-- ==== Sys2Proof/Laws/Memory.lean ====
section
/-! SUPPORT. Memory as a list of cells: every operation keeps the canonical form, and a byte reads as it was last written. -/

namespace Sys2Proof.Machine

/-! ### The canonical form -/

theorem wf_cons {a : Nat} {x : Byte} {m : List Host.Cell} :
    Memory.wf ((a, x) :: m) = true ↔ x ≠ 0 ∧ (∀ c ∈ m, a < c.1) ∧ Memory.wf m = true := by
  simp [Memory.wf, cellsWf, and_assoc]

/-- Cells taken away leave a canonical form. -/
theorem wf_filter (p : Host.Cell → Bool) {m : List Host.Cell} (h : Memory.wf m = true) : Memory.wf (m.filter p) = true := by
  induction m with
  | nil => rfl
  | cons c m ih =>
    obtain ⟨x0, lo, hm⟩ := wf_cons.mp h
    by_cases hp : p c
    · rw [List.filter_cons_of_pos hp]
      exact wf_cons.mpr ⟨x0, fun d hd => lo d (List.mem_filter.mp hd).1, ih hm⟩
    · rw [List.filter_cons_of_neg hp]; exact ih hm

/-- Two canonical lists side by side, the first wholly below the second. -/
theorem wf_append {l m : List Host.Cell} (hl : Memory.wf l = true) (hm : Memory.wf m = true) (lo : ∀ c ∈ l, ∀ d ∈ m, c.1 < d.1) :
    Memory.wf (l ++ m) = true := by
  induction l with
  | nil => exact hm
  | cons c l ih =>
    obtain ⟨x0, below, hl⟩ := wf_cons.mp hl
    refine wf_cons.mpr ⟨x0, fun d hd => ?_, ih hl fun e he => lo e (List.mem_cons_of_mem _ he)⟩
    rcases List.mem_append.mp hd with h | h
    · exact below d h
    · exact lo c (List.mem_cons_self ..) d h

theorem mem_listed {bs : List Byte} : ∀ {a : Nat} {c : Host.Cell}, c ∈ listed a bs → a ≤ c.1 ∧ c.1 < a + bs.length := by
  induction bs with
  | nil => intro a c h; simp [listed] at h
  | cons b bs ih =>
    intro a c h
    simp only [listed] at h
    split at h
    · have := ih h; simp only [List.length_cons]; omega
    · rcases List.mem_cons.mp h with rfl | h
      · simp
      · have := ih h; simp only [List.length_cons]; omega

theorem wf_listed (bs : List Byte) : ∀ a, Memory.wf (listed a bs) = true := by
  induction bs with
  | nil => intro a; rfl
  | cons b bs ih =>
    intro a
    simp only [listed]
    split
    · exact ih _
    · exact wf_cons.mpr ⟨‹_›, fun c hc => by have := mem_listed hc; omega, ih _⟩

/-- A write keeps the canonical form. -/
theorem wf_cellWrite {m : List Host.Cell} (h : Memory.wf m = true) (a : Nat) (bs : List Byte) : Memory.wf (cellWrite m a bs) = true := by
  unfold cellWrite
  refine wf_append (wf_append (wf_filter _ h) (wf_listed _ _) fun c hc d hd => ?_) (wf_filter _ h) fun c hc d hd => ?_
  · have := mem_listed hd
    have := (List.mem_filter.mp hc).2
    simp only [decide_eq_true_eq] at this; omega
  · have hd := (List.mem_filter.mp hd).2
    simp only [decide_eq_true_eq] at hd
    rcases List.mem_append.mp hc with hc | hc
    · have := (List.mem_filter.mp hc).2
      simp only [decide_eq_true_eq] at this; omega
    · have := mem_listed hc; omega

/-! ### Read after write -/

theorem cellGet_append {l m : List Host.Cell} {x : Nat} (h : ∀ c ∈ l, c.1 ≠ x) : cellGet (l ++ m) x = cellGet m x := by
  induction l with
  | nil => rfl
  | cons c l ih =>
    rw [List.cons_append, cellGet, if_neg (h c (List.mem_cons_self ..))]
    exact ih fun d hd => h d (List.mem_cons_of_mem _ hd)

theorem cellGet_none {l : List Host.Cell} {x : Nat} (h : ∀ c ∈ l, c.1 ≠ x) : cellGet l x = 0 := by
  rw [← List.append_nil l, cellGet_append h]; rfl

/-- Cells of other addresses taken away do not change what an address reads as. -/
theorem cellGet_filter {p : Host.Cell → Bool} {x : Nat} (m : List Host.Cell) (h : ∀ b, p (x, b) = true) : cellGet (m.filter p) x = cellGet m x := by
  induction m with
  | nil => rfl
  | cons c m ih =>
    obtain ⟨y, b⟩ := c
    by_cases hy : y = x
    · subst hy; rw [List.filter_cons_of_pos (h b)]; simp [cellGet]
    · by_cases hp : p (y, b)
      · rw [List.filter_cons_of_pos hp]; simp [cellGet, hy, ih]
      · rw [List.filter_cons_of_neg hp, ih]; simp [cellGet, hy]

theorem cellGet_listed (bs : List Byte) : ∀ (a i : Nat), i < bs.length → ∀ m, (∀ c ∈ m, a + bs.length ≤ c.1) → cellGet (listed a bs ++ m) (a + i) = bs.getD i 0 := by
  induction bs with
  | nil => intro a i h; exact absurd h (Nat.not_lt_zero _)
  | cons b bs ih =>
    intro a i hi m hm
    have above : ∀ c ∈ listed (a + 1) bs ++ m, a < c.1 := fun c hc => by
      rcases List.mem_append.mp hc with hc | hc
      · have := mem_listed hc; omega
      · have := hm c hc; simp only [List.length_cons] at this; omega
    have rest : ∀ j, i = j + 1 → cellGet (listed (a + 1) bs ++ m) (a + i) = (b :: bs).getD i 0 := fun j hj => by
      subst hj
      have := ih (a + 1) j (by simpa using hi) m fun c hc => by have := hm c hc; simp only [List.length_cons] at this; omega
      rw [show a + (j + 1) = a + 1 + j by omega, this]; simp
    simp only [listed]
    split
    · rename_i hb
      cases i with
      | zero => rw [Nat.add_zero, cellGet_none fun c hc => by have := above c hc; omega]; simp [hb]
      | succ j => exact rest j rfl
    · cases i with
      | zero => simp [cellGet]
      | succ j => rw [List.cons_append, cellGet, if_neg (by omega)]; exact rest j rfl

/-- A byte just written reads as written. -/
theorem cellGet_cellWrite_in (m : List Host.Cell) (a : Nat) (bs : List Byte) {i : Nat} (h : i < bs.length) :
    cellGet (cellWrite m a bs) (a + i) = bs.getD i 0 := by
  unfold cellWrite
  rw [List.append_assoc, cellGet_append, cellGet_listed _ _ _ h]
  · intro c hc; have := (List.mem_filter.mp hc).2; simpa using this
  · intro c hc; have := (List.mem_filter.mp hc).2; simp only [decide_eq_true_eq] at this; omega

/-- A byte outside those written reads as before. -/
theorem cellGet_cellWrite_out (m : List Host.Cell) (a : Nat) (bs : List Byte) {x : Nat} (h : x < a ∨ a + bs.length ≤ x) :
    cellGet (cellWrite m a bs) x = cellGet m x := by
  unfold cellWrite
  rcases h with h | h
  · rw [List.append_assoc]
    have e : cellGet (m.filter (fun c => c.1 < a)) x = cellGet m x := cellGet_filter m fun b => by simpa using h
    rw [← e]
    clear e
    induction m.filter (fun c => c.1 < a) with
    | nil =>
      rw [List.nil_append, cellGet_none]; · rfl
      intro c hc
      rcases List.mem_append.mp hc with hc | hc
      · have := mem_listed hc; omega
      · have := (List.mem_filter.mp hc).2; simp only [decide_eq_true_eq] at this; omega
    | cons c l ih => rw [List.cons_append, cellGet, cellGet, ih]
  · rw [cellGet_append]
    · exact cellGet_filter m fun b => by simpa using h
    · intro c hc
      rcases List.mem_append.mp hc with hc | hc
      · have := (List.mem_filter.mp hc).2; simp only [decide_eq_true_eq] at this; omega
      · have := mem_listed hc; omega

/-! ### The operations on memory -/

theorem canonical_of_mem {s t : State} (h : t.mem = s.mem) (c : Canonical s) : Canonical t := by unfold Canonical; rw [h]; exact c

theorem canonical_putLine {s : State} (c : Canonical s) (pa : Nat) (bs : List (Nat × Byte)) (w : BitVec 6) (stamp : Option (BitVec 10 × BitVec 8))
    (poison : Bool) (slot : BitVec 12) : Canonical (putLine s pa bs w stamp poison slot) := wf_cellWrite c _ _

/-- A fold of acts that keep the canonical form keeps it. -/
theorem canonical_foldl {α : Type} (f : State → α → State) (hf : ∀ s x, Canonical s → Canonical (f s x)) (l : List α) {s : State} (c : Canonical s) :
    Canonical (l.foldl f s) := by
  induction l generalizing s with
  | nil => exact c
  | cons x l ih => exact ih (hf s x c)

/-- A checkpoint log keeps the canonical form. -/
theorem canonical_ckptLog {s : State} (c : Canonical s) (who : Option TaskRef) (l : Nat) : Canonical (ckptLog s who l) := by
  unfold ckptLog
  split
  · exact c
  · split
    · exact c
    · simp only
      split
      · exact c
      · exact canonical_of_mem rfl (canonical_foldl _ (fun _ _ h => canonical_putLine h _ _ _ _ _ _) _ (canonical_of_mem rfl c))

/-- A line written to its home, and to the page that a migration copies it to, keeps the canonical form. -/
theorem canonical_writeLine {s : State} (c : Canonical s) (pa : Nat) (bs : List (Nat × Byte)) (w : BitVec 6) (stamp : Option (BitVec 10 × BitVec 8))
    (poison : Bool) (slot : BitVec 12) (who : Option TaskRef) : Canonical (writeLine s pa bs w stamp poison slot who) := by
  have h : Memory.wf (putLine (ckptLog s who (lineOf pa)) (lineOf pa) bs w stamp poison slot).mem = true :=
    wf_cellWrite (canonical_ckptLog c _ _) _ _
  unfold writeLine Canonical
  simp only
  split
  · exact h
  · split
    · exact wf_cellWrite h _ _
    · exact wf_cellWrite h _ _

theorem canonical_hostWrite {s : State} (c : Canonical s) (a : Nat) (bs : List Byte) : Canonical (hostWrite s a bs) := wf_cellWrite c _ _

theorem canonical_writeCompletion {s : State} (c : Canonical s) (q : Nat) (r : BitVec 256) : Canonical (writeCompletion s q r) := wf_cellWrite c _ _

theorem canonical_takePage {s : State} (c : Canonical s) (base : Nat) (w : BitVec 6) (tier : Nat) : Canonical (takePage s base w tier) := wf_filter _ c

theorem canonical_copyLine {s : State} (c : Canonical s) (src dst : Nat) (slot : BitVec 12) (r : Bool) : Canonical (copyLine s src dst slot r) := by
  unfold copyLine; simp only; split
  · exact c
  · exact wf_cellWrite c _ _

theorem canonical_scrubOne {s : State} (c : Canonical s) : Canonical (scrubOne s) := by
  unfold scrubOne; split
  · exact c
  · exact wf_filter _ c

theorem canonical_powerCycle {s : State} (c : Canonical s) : Canonical (powerCycle s) := wf_filter _ c

end Sys2Proof.Machine
end

