-- ==== Sys2Proof/Laws/PerInstr.lean ====
section
/-! SUPPORT. The round trip of the encoding, one lemma per constructor: what a stream decodes from the word of a well-formed instruction of its own is
that instruction. -/

namespace Sys2Proof.Laws.RoundTrip

/-- Every stream that the instruction belongs to decodes it from its word (11_isa_formats R332). -/
def Statement (i : Instr) : Prop := ∀ st, streamOf i = some st → reject? i = none → decode st (encode i) = .ok i

theorem decS00_of {n : Nat} (m : fldN n 26 6 = 0) : rawOf .s n = decS00 n := by show rawS n = _; unfold rawS; rw [m]; rfl
theorem decS01_of {n : Nat} (m : fldN n 26 6 = 1) : rawOf .s n = decS01 n := by show rawS n = _; unfold rawS; rw [m]; rfl
theorem decS02_of {n : Nat} (m : fldN n 26 6 = 2) : rawOf .s n = decS02 n := by show rawS n = _; unfold rawS; rw [m]; rfl
theorem decS03_of {n : Nat} (m : fldN n 26 6 = 3) : rawOf .s n = decS03 n := by show rawS n = _; unfold rawS; rw [m]; rfl
theorem decS04_of {n : Nat} (m : fldN n 26 6 = 4) : rawOf .s n = decS04 n := by show rawS n = _; unfold rawS; rw [m]; rfl
theorem decS05_of {n : Nat} (m : fldN n 26 6 = 5) : rawOf .s n = decS05 n := by show rawS n = _; unfold rawS; rw [m]; rfl
theorem decS06_of {n : Nat} (m : fldN n 26 6 = 6) : rawOf .s n = decS06 n := by show rawS n = _; unfold rawS; rw [m]; rfl
theorem decS07_of {n : Nat} (m : fldN n 26 6 = 7) : rawOf .s n = decS07 n := by show rawS n = _; unfold rawS; rw [m]; rfl
theorem decS08_of {n : Nat} (m : fldN n 26 6 = 8) : rawOf .s n = decS08 n := by show rawS n = _; unfold rawS; rw [m]; rfl
theorem decS09_of {n : Nat} (m : fldN n 26 6 = 9) : rawOf .s n = decS09 n := by show rawS n = _; unfold rawS; rw [m]; rfl
theorem decS0a_of {n : Nat} (m : fldN n 26 6 = 10) : rawOf .s n = decS0a n := by show rawS n = _; unfold rawS; rw [m]; rfl
theorem decS0b_of {n : Nat} (m : fldN n 26 6 = 11) : rawOf .s n = decS0b n := by show rawS n = _; unfold rawS; rw [m]; rfl
theorem decS0c_of {n : Nat} (m : fldN n 26 6 = 12) : rawOf .s n = decS0c n := by show rawS n = _; unfold rawS; rw [m]; rfl
theorem decS0d_of {n : Nat} (m : fldN n 26 6 = 13) : rawOf .s n = decS0d n := by show rawS n = _; unfold rawS; rw [m]; rfl
theorem decS0e_of {n : Nat} (m : fldN n 26 6 = 14) : rawOf .s n = decS0e n := by show rawS n = _; unfold rawS; rw [m]; rfl
theorem decS10_of {n : Nat} (m : fldN n 26 6 = 16) : rawOf .s n = decS10 n := by show rawS n = _; unfold rawS; rw [m]; rfl
theorem decS11_of {n : Nat} (m : fldN n 26 6 = 17) : rawOf .s n = decS11 n := by show rawS n = _; unfold rawS; rw [m]; rfl
theorem decS12_of {n : Nat} (m : fldN n 26 6 = 18) : rawOf .s n = decS12 n := by show rawS n = _; unfold rawS; rw [m]; rfl
theorem decS13_of {n : Nat} (m : fldN n 26 6 = 19) : rawOf .s n = decS13 n := by show rawS n = _; unfold rawS; rw [m]; rfl
theorem decS14_of {n : Nat} (m : fldN n 26 6 = 20) : rawOf .s n = decS14 n := by show rawS n = _; unfold rawS; rw [m]; rfl
theorem decS15_of {n : Nat} (m : fldN n 26 6 = 21) : rawOf .s n = decS15 n := by show rawS n = _; unfold rawS; rw [m]; rfl
theorem decS18_of {n : Nat} (m : fldN n 26 6 = 24) : rawOf .s n = decS18 n := by show rawS n = _; unfold rawS; rw [m]; rfl
theorem decS1a_of {n : Nat} (m : fldN n 26 6 = 26) : rawOf .s n = decS1a n := by show rawS n = _; unfold rawS; rw [m]; rfl
theorem decS20_of {n : Nat} (m : fldN n 26 6 = 32) : rawOf .s n = decS20 n := by show rawS n = _; unfold rawS; rw [m]; rfl
theorem decS21_of {n : Nat} (m : fldN n 26 6 = 33) : rawOf .s n = decS21 n := by show rawS n = _; unfold rawS; rw [m]; rfl
theorem decS22_of {n : Nat} (m : fldN n 26 6 = 34) : rawOf .s n = decS22 n := by show rawS n = _; unfold rawS; rw [m]; rfl
theorem decS23_of {n : Nat} (m : fldN n 26 6 = 35) : rawOf .s n = decS23 n := by show rawS n = _; unfold rawS; rw [m]; rfl
theorem decS24_of {n : Nat} (m : fldN n 26 6 = 36) : rawOf .s n = decS24 n := by show rawS n = _; unfold rawS; rw [m]; rfl
theorem decS25_of {n : Nat} (m : fldN n 26 6 = 37) : rawOf .s n = decS25 n := by show rawS n = _; unfold rawS; rw [m]; rfl
theorem decS28_of {n : Nat} (m : fldN n 26 6 = 40) : rawOf .s n = decS28 n := by show rawS n = _; unfold rawS; rw [m]; rfl
theorem decS29_of {n : Nat} (m : fldN n 26 6 = 41) : rawOf .s n = decS29 n := by show rawS n = _; unfold rawS; rw [m]; rfl
theorem decS2a_of {n : Nat} (m : fldN n 26 6 = 42) : rawOf .s n = decS2a n := by show rawS n = _; unfold rawS; rw [m]; rfl
theorem decS2b_of {n : Nat} (m : fldN n 26 6 = 43) : rawOf .s n = decS2b n := by show rawS n = _; unfold rawS; rw [m]; rfl
theorem decS2c_of {n : Nat} (m : fldN n 26 6 = 44) : rawOf .s n = decS2c n := by show rawS n = _; unfold rawS; rw [m]; rfl
theorem decS30_of {n : Nat} (m : fldN n 26 6 = 48) : rawOf .s n = decS30 n := by show rawS n = _; unfold rawS; rw [m]; rfl
theorem decS31_of {n : Nat} (m : fldN n 26 6 = 49) : rawOf .s n = decS31 n := by show rawS n = _; unfold rawS; rw [m]; rfl
theorem decS32_of {n : Nat} (m : fldN n 26 6 = 50) : rawOf .s n = decS32 n := by show rawS n = _; unfold rawS; rw [m]; rfl
theorem decS34_of {n : Nat} (m : fldN n 26 6 = 52) : rawOf .s n = decS34 n := by show rawS n = _; unfold rawS; rw [m]; rfl
theorem decS35_of {n : Nat} (m : fldN n 26 6 = 53) : rawOf .s n = decS35 n := by show rawS n = _; unfold rawS; rw [m]; rfl
theorem decS36_of {n : Nat} (m : fldN n 26 6 = 54) : rawOf .s n = decS36 n := by show rawS n = _; unfold rawS; rw [m]; rfl
theorem decS3c_of {n : Nat} (m : fldN n 26 6 = 60) : rawOf .s n = decS3c n := by show rawS n = _; unfold rawS; rw [m]; rfl
theorem decS3d_of {n : Nat} (m : fldN n 26 6 = 61) : rawOf .s n = decS3d n := by show rawS n = _; unfold rawS; rw [m]; rfl
theorem decL01_of {n : Nat} (m : fldN n 26 6 = 1) : rawOf (.col .colL) n = decL01 n := by show rawL n = _; unfold rawL; rw [m]; rfl
theorem decL02_of {n : Nat} (m : fldN n 26 6 = 2) : rawOf (.col .colL) n = decL02 n := by show rawL n = _; unfold rawL; rw [m]; rfl
theorem decL03_of {n : Nat} (m : fldN n 26 6 = 3) : rawOf (.col .colL) n = decL03 n := by show rawL n = _; unfold rawL; rw [m]; rfl
theorem decL04_of {n : Nat} (m : fldN n 26 6 = 4) : rawOf (.col .colL) n = decL04 n := by show rawL n = _; unfold rawL; rw [m]; rfl
theorem decL05_of {n : Nat} (m : fldN n 26 6 = 5) : rawOf (.col .colL) n = decL05 n := by show rawL n = _; unfold rawL; rw [m]; rfl
theorem decL06_of {n : Nat} (m : fldN n 26 6 = 6) : rawOf (.col .colL) n = decL06 n := by show rawL n = _; unfold rawL; rw [m]; rfl
theorem decL08_of {n : Nat} (m : fldN n 26 6 = 8) : rawOf (.col .colL) n = decL08 n := by show rawL n = _; unfold rawL; rw [m]; rfl
theorem decL09_of {n : Nat} (m : fldN n 26 6 = 9) : rawOf (.col .colL) n = decL09 n := by show rawL n = _; unfold rawL; rw [m]; rfl
theorem decC01_of {n : Nat} (m : fldN n 26 6 = 1) : rawOf (.col .colC) n = decC01 n := by show rawC n = _; unfold rawC; rw [m]; rfl
theorem decC02_of {n : Nat} (m : fldN n 26 6 = 2) : rawOf (.col .colC) n = decC02 n := by show rawC n = _; unfold rawC; rw [m]; rfl
theorem decC03_of {n : Nat} (m : fldN n 26 6 = 3) : rawOf (.col .colC) n = decC03 n := by show rawC n = _; unfold rawC; rw [m]; rfl
theorem decC04_of {n : Nat} (m : fldN n 26 6 = 4) : rawOf (.col .colC) n = decC04 n := by show rawC n = _; unfold rawC; rw [m]; rfl
theorem decC05_of {n : Nat} (m : fldN n 26 6 = 5) : rawOf (.col .colC) n = decC05 n := by show rawC n = _; unfold rawC; rw [m]; rfl
theorem decC06_of {n : Nat} (m : fldN n 26 6 = 6) : rawOf (.col .colC) n = decC06 n := by show rawC n = _; unfold rawC; rw [m]; rfl
theorem decC07_of {n : Nat} (m : fldN n 26 6 = 7) : rawOf (.col .colC) n = decC07 n := by show rawC n = _; unfold rawC; rw [m]; rfl
theorem decC08_of {n : Nat} (m : fldN n 26 6 = 8) : rawOf (.col .colC) n = decC08 n := by show rawC n = _; unfold rawC; rw [m]; rfl
theorem decC09_of {n : Nat} (m : fldN n 26 6 = 9) : rawOf (.col .colC) n = decC09 n := by show rawC n = _; unfold rawC; rw [m]; rfl
theorem decC0a_of {n : Nat} (m : fldN n 26 6 = 10) : rawOf (.col .colC) n = decC0a n := by show rawC n = _; unfold rawC; rw [m]; rfl
theorem decC0b_of {n : Nat} (m : fldN n 26 6 = 11) : rawOf (.col .colC) n = decC0b n := by show rawC n = _; unfold rawC; rw [m]; rfl
theorem decC0c_of {n : Nat} (m : fldN n 26 6 = 12) : rawOf (.col .colC) n = decC0c n := by show rawC n = _; unfold rawC; rw [m]; rfl
theorem decC0d_of {n : Nat} (m : fldN n 26 6 = 13) : rawOf (.col .colC) n = decC0d n := by show rawC n = _; unfold rawC; rw [m]; rfl
theorem decC0e_of {n : Nat} (m : fldN n 26 6 = 14) : rawOf (.col .colC) n = decC0e n := by show rawC n = _; unfold rawC; rw [m]; rfl
theorem decC0f_of {n : Nat} (m : fldN n 26 6 = 15) : rawOf (.col .colC) n = decC0f n := by show rawC n = _; unfold rawC; rw [m]; rfl
theorem decC20_of {n : Nat} (m : fldN n 26 6 = 32) : rawOf (.col .colC) n = decC20 n := by show rawC n = _; unfold rawC; rw [m]; rfl
theorem decC21_of {n : Nat} (m : fldN n 26 6 = 33) : rawOf (.col .colC) n = decC21 n := by show rawC n = _; unfold rawC; rw [m]; rfl
theorem decC22_of {n : Nat} (m : fldN n 26 6 = 34) : rawOf (.col .colC) n = decC22 n := by show rawC n = _; unfold rawC; rw [m]; rfl
theorem decC23_of {n : Nat} (m : fldN n 26 6 = 35) : rawOf (.col .colC) n = decC23 n := by show rawC n = _; unfold rawC; rw [m]; rfl
theorem decC24_of {n : Nat} (m : fldN n 26 6 = 36) : rawOf (.col .colC) n = decC24 n := by show rawC n = _; unfold rawC; rw [m]; rfl
theorem decC25_of {n : Nat} (m : fldN n 26 6 = 37) : rawOf (.col .colC) n = decC25 n := by show rawC n = _; unfold rawC; rw [m]; rfl
theorem decC26_of {n : Nat} (m : fldN n 26 6 = 38) : rawOf (.col .colC) n = decC26 n := by show rawC n = _; unfold rawC; rw [m]; rfl
theorem decC27_of {n : Nat} (m : fldN n 26 6 = 39) : rawOf (.col .colC) n = decC27 n := by show rawC n = _; unfold rawC; rw [m]; rfl
theorem decC28_of {n : Nat} (m : fldN n 26 6 = 40) : rawOf (.col .colC) n = decC28 n := by show rawC n = _; unfold rawC; rw [m]; rfl
theorem decC29_of {n : Nat} (m : fldN n 26 6 = 41) : rawOf (.col .colC) n = decC29 n := by show rawC n = _; unfold rawC; rw [m]; rfl
theorem decW01_of {n : Nat} (m : fldN n 26 6 = 1) : rawOf (.col .colW) n = decW01 n := by show rawW n = _; unfold rawW; rw [m]; rfl
theorem decW02_of {n : Nat} (m : fldN n 26 6 = 2) : rawOf (.col .colW) n = decW02 n := by show rawW n = _; unfold rawW; rw [m]; rfl
theorem decW03_of {n : Nat} (m : fldN n 26 6 = 3) : rawOf (.col .colW) n = decW03 n := by show rawW n = _; unfold rawW; rw [m]; rfl
theorem decW04_of {n : Nat} (m : fldN n 26 6 = 4) : rawOf (.col .colW) n = decW04 n := by show rawW n = _; unfold rawW; rw [m]; rfl
theorem decW05_of {n : Nat} (m : fldN n 26 6 = 5) : rawOf (.col .colW) n = decW05 n := by show rawW n = _; unfold rawW; rw [m]; rfl
theorem decW06_of {n : Nat} (m : fldN n 26 6 = 6) : rawOf (.col .colW) n = decW06 n := by show rawW n = _; unfold rawW; rw [m]; rfl

theorem trap (code : BitVec 8) : Statement (.trap code) := by
  intro st hs hw; cases hs
  have F : Fits 32 [(26, 0), (8, code.toNat), (0, 2)] :=
    ⟨by decide, by decide, by decide, lt_of_isLt code (by decide), by decide, by decide, trivial⟩
  refine decode_of (n := pack [(26, 0), (8, code.toNat), (0, 2)]) rfl (pos_of_look (k := 0) (len := 2) F rfl) (pack_lt F) ?_ hw
  have m : fldN _ 26 6 = 0 := (fldN_pack F 26 6).trans rfl
  have n0_26_1 : fldN (pack [(26, 0), (8, code.toNat), (0, 2)]) 0 26 ≠ 1 := by rw [fldN_pack F]; simp [look, fldN] <;> omega
  have e0_8 : fldN _ 0 8 = 2 := (fldN_pack F 0 8).trans (rfl)
  have e16_10 : fldN _ 16 10 = 0 := (fldN_pack F 16 10).trans (by have := code.isLt; simp [look, fldN]; omega)
  have f8 : fld _ 8 8 = code := fld_pack F (fldN_self code)
  generalize pack [(26, 0), (8, code.toNat), (0, 2)] = n at *
  rw [decS00_of m]
  simp [decS00, n0_26_1, e0_8, e16_10, f8]

theorem add (o : R3) : Statement (.add o) := by
  intro st hs hw; cases hs
  have F : Fits 32 [(26, 1), (20, o.d.toNat), (14, o.a.toNat), (8, o.b.toNat)] :=
    ⟨by decide, by decide, by decide, lt_of_isLt o.d (by decide), by decide, lt_of_isLt o.a (by decide), by decide, lt_of_isLt o.b (by decide), trivial⟩
  refine decode_of (n := pack [(26, 1), (20, o.d.toNat), (14, o.a.toNat), (8, o.b.toNat)]) rfl (pos_of_look (k := 26) (len := 1) F rfl) (pack_lt F) ?_ hw
  have m : fldN _ 26 6 = 1 := (fldN_pack F 26 6).trans rfl
  have e0_8 : fldN _ 0 8 = 0 := (fldN_pack F 0 8).trans (rfl)
  have f20 : fld _ 20 6 = o.d := fld_pack F (fldN_self o.d)
  have f14 : fld _ 14 6 = o.a := fld_pack F (fldN_self o.a)
  have f8 : fld _ 8 6 = o.b := fld_pack F (fldN_self o.b)
  generalize pack [(26, 1), (20, o.d.toNat), (14, o.a.toNat), (8, o.b.toNat)] = n at *
  rw [decS01_of m]
  simp [decS01, e0_8, f20, f14, f8]

theorem sub (o : R3) : Statement (.sub o) := by
  intro st hs hw; cases hs
  have F : Fits 32 [(26, 1), (20, o.d.toNat), (14, o.a.toNat), (8, o.b.toNat), (0, 1)] :=
    ⟨by decide, by decide, by decide, lt_of_isLt o.d (by decide), by decide, lt_of_isLt o.a (by decide), by decide, lt_of_isLt o.b (by decide), by decide, by decide, trivial⟩
  refine decode_of (n := pack [(26, 1), (20, o.d.toNat), (14, o.a.toNat), (8, o.b.toNat), (0, 1)]) rfl (pos_of_look (k := 0) (len := 1) F rfl) (pack_lt F) ?_ hw
  have m : fldN _ 26 6 = 1 := (fldN_pack F 26 6).trans rfl
  have e0_8 : fldN _ 0 8 = 1 := (fldN_pack F 0 8).trans (rfl)
  have f20 : fld _ 20 6 = o.d := fld_pack F (fldN_self o.d)
  have f14 : fld _ 14 6 = o.a := fld_pack F (fldN_self o.a)
  have f8 : fld _ 8 6 = o.b := fld_pack F (fldN_self o.b)
  generalize pack [(26, 1), (20, o.d.toNat), (14, o.a.toNat), (8, o.b.toNat), (0, 1)] = n at *
  rw [decS01_of m]
  simp [decS01, e0_8, f20, f14, f8]

theorem mul (o : R3) : Statement (.mul o) := by
  intro st hs hw; cases hs
  have F : Fits 32 [(26, 1), (20, o.d.toNat), (14, o.a.toNat), (8, o.b.toNat), (0, 2)] :=
    ⟨by decide, by decide, by decide, lt_of_isLt o.d (by decide), by decide, lt_of_isLt o.a (by decide), by decide, lt_of_isLt o.b (by decide), by decide, by decide, trivial⟩
  refine decode_of (n := pack [(26, 1), (20, o.d.toNat), (14, o.a.toNat), (8, o.b.toNat), (0, 2)]) rfl (pos_of_look (k := 0) (len := 2) F rfl) (pack_lt F) ?_ hw
  have m : fldN _ 26 6 = 1 := (fldN_pack F 26 6).trans rfl
  have e0_8 : fldN _ 0 8 = 2 := (fldN_pack F 0 8).trans (rfl)
  have f20 : fld _ 20 6 = o.d := fld_pack F (fldN_self o.d)
  have f14 : fld _ 14 6 = o.a := fld_pack F (fldN_self o.a)
  have f8 : fld _ 8 6 = o.b := fld_pack F (fldN_self o.b)
  generalize pack [(26, 1), (20, o.d.toNat), (14, o.a.toNat), (8, o.b.toNat), (0, 2)] = n at *
  rw [decS01_of m]
  simp [decS01, e0_8, f20, f14, f8]

theorem mulh (o : R3) : Statement (.mulh o) := by
  intro st hs hw; cases hs
  have F : Fits 32 [(26, 1), (20, o.d.toNat), (14, o.a.toNat), (8, o.b.toNat), (0, 3)] :=
    ⟨by decide, by decide, by decide, lt_of_isLt o.d (by decide), by decide, lt_of_isLt o.a (by decide), by decide, lt_of_isLt o.b (by decide), by decide, by decide, trivial⟩
  refine decode_of (n := pack [(26, 1), (20, o.d.toNat), (14, o.a.toNat), (8, o.b.toNat), (0, 3)]) rfl (pos_of_look (k := 0) (len := 2) F rfl) (pack_lt F) ?_ hw
  have m : fldN _ 26 6 = 1 := (fldN_pack F 26 6).trans rfl
  have e0_8 : fldN _ 0 8 = 3 := (fldN_pack F 0 8).trans (rfl)
  have f20 : fld _ 20 6 = o.d := fld_pack F (fldN_self o.d)
  have f14 : fld _ 14 6 = o.a := fld_pack F (fldN_self o.a)
  have f8 : fld _ 8 6 = o.b := fld_pack F (fldN_self o.b)
  generalize pack [(26, 1), (20, o.d.toNat), (14, o.a.toNat), (8, o.b.toNat), (0, 3)] = n at *
  rw [decS01_of m]
  simp [decS01, e0_8, f20, f14, f8]

theorem mulhz (o : R3) : Statement (.mulhz o) := by
  intro st hs hw; cases hs
  have F : Fits 32 [(26, 1), (20, o.d.toNat), (14, o.a.toNat), (8, o.b.toNat), (0, 4)] :=
    ⟨by decide, by decide, by decide, lt_of_isLt o.d (by decide), by decide, lt_of_isLt o.a (by decide), by decide, lt_of_isLt o.b (by decide), by decide, by decide, trivial⟩
  refine decode_of (n := pack [(26, 1), (20, o.d.toNat), (14, o.a.toNat), (8, o.b.toNat), (0, 4)]) rfl (pos_of_look (k := 0) (len := 3) F rfl) (pack_lt F) ?_ hw
  have m : fldN _ 26 6 = 1 := (fldN_pack F 26 6).trans rfl
  have e0_8 : fldN _ 0 8 = 4 := (fldN_pack F 0 8).trans (rfl)
  have f20 : fld _ 20 6 = o.d := fld_pack F (fldN_self o.d)
  have f14 : fld _ 14 6 = o.a := fld_pack F (fldN_self o.a)
  have f8 : fld _ 8 6 = o.b := fld_pack F (fldN_self o.b)
  generalize pack [(26, 1), (20, o.d.toNat), (14, o.a.toNat), (8, o.b.toNat), (0, 4)] = n at *
  rw [decS01_of m]
  simp [decS01, e0_8, f20, f14, f8]

theorem div (o : R3) : Statement (.div o) := by
  intro st hs hw; cases hs
  have F : Fits 32 [(26, 1), (20, o.d.toNat), (14, o.a.toNat), (8, o.b.toNat), (0, 5)] :=
    ⟨by decide, by decide, by decide, lt_of_isLt o.d (by decide), by decide, lt_of_isLt o.a (by decide), by decide, lt_of_isLt o.b (by decide), by decide, by decide, trivial⟩
  refine decode_of (n := pack [(26, 1), (20, o.d.toNat), (14, o.a.toNat), (8, o.b.toNat), (0, 5)]) rfl (pos_of_look (k := 0) (len := 3) F rfl) (pack_lt F) ?_ hw
  have m : fldN _ 26 6 = 1 := (fldN_pack F 26 6).trans rfl
  have e0_8 : fldN _ 0 8 = 5 := (fldN_pack F 0 8).trans (rfl)
  have f20 : fld _ 20 6 = o.d := fld_pack F (fldN_self o.d)
  have f14 : fld _ 14 6 = o.a := fld_pack F (fldN_self o.a)
  have f8 : fld _ 8 6 = o.b := fld_pack F (fldN_self o.b)
  generalize pack [(26, 1), (20, o.d.toNat), (14, o.a.toNat), (8, o.b.toNat), (0, 5)] = n at *
  rw [decS01_of m]
  simp [decS01, e0_8, f20, f14, f8]

theorem divz (o : R3) : Statement (.divz o) := by
  intro st hs hw; cases hs
  have F : Fits 32 [(26, 1), (20, o.d.toNat), (14, o.a.toNat), (8, o.b.toNat), (0, 6)] :=
    ⟨by decide, by decide, by decide, lt_of_isLt o.d (by decide), by decide, lt_of_isLt o.a (by decide), by decide, lt_of_isLt o.b (by decide), by decide, by decide, trivial⟩
  refine decode_of (n := pack [(26, 1), (20, o.d.toNat), (14, o.a.toNat), (8, o.b.toNat), (0, 6)]) rfl (pos_of_look (k := 0) (len := 3) F rfl) (pack_lt F) ?_ hw
  have m : fldN _ 26 6 = 1 := (fldN_pack F 26 6).trans rfl
  have e0_8 : fldN _ 0 8 = 6 := (fldN_pack F 0 8).trans (rfl)
  have f20 : fld _ 20 6 = o.d := fld_pack F (fldN_self o.d)
  have f14 : fld _ 14 6 = o.a := fld_pack F (fldN_self o.a)
  have f8 : fld _ 8 6 = o.b := fld_pack F (fldN_self o.b)
  generalize pack [(26, 1), (20, o.d.toNat), (14, o.a.toNat), (8, o.b.toNat), (0, 6)] = n at *
  rw [decS01_of m]
  simp [decS01, e0_8, f20, f14, f8]

theorem rem (o : R3) : Statement (.rem o) := by
  intro st hs hw; cases hs
  have F : Fits 32 [(26, 1), (20, o.d.toNat), (14, o.a.toNat), (8, o.b.toNat), (0, 7)] :=
    ⟨by decide, by decide, by decide, lt_of_isLt o.d (by decide), by decide, lt_of_isLt o.a (by decide), by decide, lt_of_isLt o.b (by decide), by decide, by decide, trivial⟩
  refine decode_of (n := pack [(26, 1), (20, o.d.toNat), (14, o.a.toNat), (8, o.b.toNat), (0, 7)]) rfl (pos_of_look (k := 0) (len := 3) F rfl) (pack_lt F) ?_ hw
  have m : fldN _ 26 6 = 1 := (fldN_pack F 26 6).trans rfl
  have e0_8 : fldN _ 0 8 = 7 := (fldN_pack F 0 8).trans (rfl)
  have f20 : fld _ 20 6 = o.d := fld_pack F (fldN_self o.d)
  have f14 : fld _ 14 6 = o.a := fld_pack F (fldN_self o.a)
  have f8 : fld _ 8 6 = o.b := fld_pack F (fldN_self o.b)
  generalize pack [(26, 1), (20, o.d.toNat), (14, o.a.toNat), (8, o.b.toNat), (0, 7)] = n at *
  rw [decS01_of m]
  simp [decS01, e0_8, f20, f14, f8]

theorem remz (o : R3) : Statement (.remz o) := by
  intro st hs hw; cases hs
  have F : Fits 32 [(26, 1), (20, o.d.toNat), (14, o.a.toNat), (8, o.b.toNat), (0, 8)] :=
    ⟨by decide, by decide, by decide, lt_of_isLt o.d (by decide), by decide, lt_of_isLt o.a (by decide), by decide, lt_of_isLt o.b (by decide), by decide, by decide, trivial⟩
  refine decode_of (n := pack [(26, 1), (20, o.d.toNat), (14, o.a.toNat), (8, o.b.toNat), (0, 8)]) rfl (pos_of_look (k := 0) (len := 4) F rfl) (pack_lt F) ?_ hw
  have m : fldN _ 26 6 = 1 := (fldN_pack F 26 6).trans rfl
  have e0_8 : fldN _ 0 8 = 8 := (fldN_pack F 0 8).trans (rfl)
  have f20 : fld _ 20 6 = o.d := fld_pack F (fldN_self o.d)
  have f14 : fld _ 14 6 = o.a := fld_pack F (fldN_self o.a)
  have f8 : fld _ 8 6 = o.b := fld_pack F (fldN_self o.b)
  generalize pack [(26, 1), (20, o.d.toNat), (14, o.a.toNat), (8, o.b.toNat), (0, 8)] = n at *
  rw [decS01_of m]
  simp [decS01, e0_8, f20, f14, f8]

theorem andR (o : R3) : Statement (.andR o) := by
  intro st hs hw; cases hs
  have F : Fits 32 [(26, 1), (20, o.d.toNat), (14, o.a.toNat), (8, o.b.toNat), (0, 16)] :=
    ⟨by decide, by decide, by decide, lt_of_isLt o.d (by decide), by decide, lt_of_isLt o.a (by decide), by decide, lt_of_isLt o.b (by decide), by decide, by decide, trivial⟩
  refine decode_of (n := pack [(26, 1), (20, o.d.toNat), (14, o.a.toNat), (8, o.b.toNat), (0, 16)]) rfl (pos_of_look (k := 0) (len := 5) F rfl) (pack_lt F) ?_ hw
  have m : fldN _ 26 6 = 1 := (fldN_pack F 26 6).trans rfl
  have e0_8 : fldN _ 0 8 = 16 := (fldN_pack F 0 8).trans (rfl)
  have f20 : fld _ 20 6 = o.d := fld_pack F (fldN_self o.d)
  have f14 : fld _ 14 6 = o.a := fld_pack F (fldN_self o.a)
  have f8 : fld _ 8 6 = o.b := fld_pack F (fldN_self o.b)
  generalize pack [(26, 1), (20, o.d.toNat), (14, o.a.toNat), (8, o.b.toNat), (0, 16)] = n at *
  rw [decS01_of m]
  simp [decS01, e0_8, f20, f14, f8]

theorem orR (o : R3) : Statement (.orR o) := by
  intro st hs hw; cases hs
  have F : Fits 32 [(26, 1), (20, o.d.toNat), (14, o.a.toNat), (8, o.b.toNat), (0, 17)] :=
    ⟨by decide, by decide, by decide, lt_of_isLt o.d (by decide), by decide, lt_of_isLt o.a (by decide), by decide, lt_of_isLt o.b (by decide), by decide, by decide, trivial⟩
  refine decode_of (n := pack [(26, 1), (20, o.d.toNat), (14, o.a.toNat), (8, o.b.toNat), (0, 17)]) rfl (pos_of_look (k := 0) (len := 5) F rfl) (pack_lt F) ?_ hw
  have m : fldN _ 26 6 = 1 := (fldN_pack F 26 6).trans rfl
  have e0_8 : fldN _ 0 8 = 17 := (fldN_pack F 0 8).trans (rfl)
  have f20 : fld _ 20 6 = o.d := fld_pack F (fldN_self o.d)
  have f14 : fld _ 14 6 = o.a := fld_pack F (fldN_self o.a)
  have f8 : fld _ 8 6 = o.b := fld_pack F (fldN_self o.b)
  generalize pack [(26, 1), (20, o.d.toNat), (14, o.a.toNat), (8, o.b.toNat), (0, 17)] = n at *
  rw [decS01_of m]
  simp [decS01, e0_8, f20, f14, f8]

theorem xorR (o : R3) : Statement (.xorR o) := by
  intro st hs hw; cases hs
  have F : Fits 32 [(26, 1), (20, o.d.toNat), (14, o.a.toNat), (8, o.b.toNat), (0, 18)] :=
    ⟨by decide, by decide, by decide, lt_of_isLt o.d (by decide), by decide, lt_of_isLt o.a (by decide), by decide, lt_of_isLt o.b (by decide), by decide, by decide, trivial⟩
  refine decode_of (n := pack [(26, 1), (20, o.d.toNat), (14, o.a.toNat), (8, o.b.toNat), (0, 18)]) rfl (pos_of_look (k := 0) (len := 5) F rfl) (pack_lt F) ?_ hw
  have m : fldN _ 26 6 = 1 := (fldN_pack F 26 6).trans rfl
  have e0_8 : fldN _ 0 8 = 18 := (fldN_pack F 0 8).trans (rfl)
  have f20 : fld _ 20 6 = o.d := fld_pack F (fldN_self o.d)
  have f14 : fld _ 14 6 = o.a := fld_pack F (fldN_self o.a)
  have f8 : fld _ 8 6 = o.b := fld_pack F (fldN_self o.b)
  generalize pack [(26, 1), (20, o.d.toNat), (14, o.a.toNat), (8, o.b.toNat), (0, 18)] = n at *
  rw [decS01_of m]
  simp [decS01, e0_8, f20, f14, f8]

theorem shl (o : R3) : Statement (.shl o) := by
  intro st hs hw; cases hs
  have F : Fits 32 [(26, 1), (20, o.d.toNat), (14, o.a.toNat), (8, o.b.toNat), (0, 24)] :=
    ⟨by decide, by decide, by decide, lt_of_isLt o.d (by decide), by decide, lt_of_isLt o.a (by decide), by decide, lt_of_isLt o.b (by decide), by decide, by decide, trivial⟩
  refine decode_of (n := pack [(26, 1), (20, o.d.toNat), (14, o.a.toNat), (8, o.b.toNat), (0, 24)]) rfl (pos_of_look (k := 0) (len := 5) F rfl) (pack_lt F) ?_ hw
  have m : fldN _ 26 6 = 1 := (fldN_pack F 26 6).trans rfl
  have e0_8 : fldN _ 0 8 = 24 := (fldN_pack F 0 8).trans (rfl)
  have f20 : fld _ 20 6 = o.d := fld_pack F (fldN_self o.d)
  have f14 : fld _ 14 6 = o.a := fld_pack F (fldN_self o.a)
  have f8 : fld _ 8 6 = o.b := fld_pack F (fldN_self o.b)
  generalize pack [(26, 1), (20, o.d.toNat), (14, o.a.toNat), (8, o.b.toNat), (0, 24)] = n at *
  rw [decS01_of m]
  simp [decS01, e0_8, f20, f14, f8]

theorem shr (o : R3) : Statement (.shr o) := by
  intro st hs hw; cases hs
  have F : Fits 32 [(26, 1), (20, o.d.toNat), (14, o.a.toNat), (8, o.b.toNat), (0, 25)] :=
    ⟨by decide, by decide, by decide, lt_of_isLt o.d (by decide), by decide, lt_of_isLt o.a (by decide), by decide, lt_of_isLt o.b (by decide), by decide, by decide, trivial⟩
  refine decode_of (n := pack [(26, 1), (20, o.d.toNat), (14, o.a.toNat), (8, o.b.toNat), (0, 25)]) rfl (pos_of_look (k := 0) (len := 5) F rfl) (pack_lt F) ?_ hw
  have m : fldN _ 26 6 = 1 := (fldN_pack F 26 6).trans rfl
  have e0_8 : fldN _ 0 8 = 25 := (fldN_pack F 0 8).trans (rfl)
  have f20 : fld _ 20 6 = o.d := fld_pack F (fldN_self o.d)
  have f14 : fld _ 14 6 = o.a := fld_pack F (fldN_self o.a)
  have f8 : fld _ 8 6 = o.b := fld_pack F (fldN_self o.b)
  generalize pack [(26, 1), (20, o.d.toNat), (14, o.a.toNat), (8, o.b.toNat), (0, 25)] = n at *
  rw [decS01_of m]
  simp [decS01, e0_8, f20, f14, f8]

theorem sra (o : R3) : Statement (.sra o) := by
  intro st hs hw; cases hs
  have F : Fits 32 [(26, 1), (20, o.d.toNat), (14, o.a.toNat), (8, o.b.toNat), (0, 26)] :=
    ⟨by decide, by decide, by decide, lt_of_isLt o.d (by decide), by decide, lt_of_isLt o.a (by decide), by decide, lt_of_isLt o.b (by decide), by decide, by decide, trivial⟩
  refine decode_of (n := pack [(26, 1), (20, o.d.toNat), (14, o.a.toNat), (8, o.b.toNat), (0, 26)]) rfl (pos_of_look (k := 0) (len := 5) F rfl) (pack_lt F) ?_ hw
  have m : fldN _ 26 6 = 1 := (fldN_pack F 26 6).trans rfl
  have e0_8 : fldN _ 0 8 = 26 := (fldN_pack F 0 8).trans (rfl)
  have f20 : fld _ 20 6 = o.d := fld_pack F (fldN_self o.d)
  have f14 : fld _ 14 6 = o.a := fld_pack F (fldN_self o.a)
  have f8 : fld _ 8 6 = o.b := fld_pack F (fldN_self o.b)
  generalize pack [(26, 1), (20, o.d.toNat), (14, o.a.toNat), (8, o.b.toNat), (0, 26)] = n at *
  rw [decS01_of m]
  simp [decS01, e0_8, f20, f14, f8]

theorem minR (o : R3) : Statement (.minR o) := by
  intro st hs hw; cases hs
  have F : Fits 32 [(26, 1), (20, o.d.toNat), (14, o.a.toNat), (8, o.b.toNat), (0, 32)] :=
    ⟨by decide, by decide, by decide, lt_of_isLt o.d (by decide), by decide, lt_of_isLt o.a (by decide), by decide, lt_of_isLt o.b (by decide), by decide, by decide, trivial⟩
  refine decode_of (n := pack [(26, 1), (20, o.d.toNat), (14, o.a.toNat), (8, o.b.toNat), (0, 32)]) rfl (pos_of_look (k := 0) (len := 6) F rfl) (pack_lt F) ?_ hw
  have m : fldN _ 26 6 = 1 := (fldN_pack F 26 6).trans rfl
  have e0_8 : fldN _ 0 8 = 32 := (fldN_pack F 0 8).trans (rfl)
  have f20 : fld _ 20 6 = o.d := fld_pack F (fldN_self o.d)
  have f14 : fld _ 14 6 = o.a := fld_pack F (fldN_self o.a)
  have f8 : fld _ 8 6 = o.b := fld_pack F (fldN_self o.b)
  generalize pack [(26, 1), (20, o.d.toNat), (14, o.a.toNat), (8, o.b.toNat), (0, 32)] = n at *
  rw [decS01_of m]
  simp [decS01, e0_8, f20, f14, f8]

theorem maxR (o : R3) : Statement (.maxR o) := by
  intro st hs hw; cases hs
  have F : Fits 32 [(26, 1), (20, o.d.toNat), (14, o.a.toNat), (8, o.b.toNat), (0, 33)] :=
    ⟨by decide, by decide, by decide, lt_of_isLt o.d (by decide), by decide, lt_of_isLt o.a (by decide), by decide, lt_of_isLt o.b (by decide), by decide, by decide, trivial⟩
  refine decode_of (n := pack [(26, 1), (20, o.d.toNat), (14, o.a.toNat), (8, o.b.toNat), (0, 33)]) rfl (pos_of_look (k := 0) (len := 6) F rfl) (pack_lt F) ?_ hw
  have m : fldN _ 26 6 = 1 := (fldN_pack F 26 6).trans rfl
  have e0_8 : fldN _ 0 8 = 33 := (fldN_pack F 0 8).trans (rfl)
  have f20 : fld _ 20 6 = o.d := fld_pack F (fldN_self o.d)
  have f14 : fld _ 14 6 = o.a := fld_pack F (fldN_self o.a)
  have f8 : fld _ 8 6 = o.b := fld_pack F (fldN_self o.b)
  generalize pack [(26, 1), (20, o.d.toNat), (14, o.a.toNat), (8, o.b.toNat), (0, 33)] = n at *
  rw [decS01_of m]
  simp [decS01, e0_8, f20, f14, f8]

theorem minz (o : R3) : Statement (.minz o) := by
  intro st hs hw; cases hs
  have F : Fits 32 [(26, 1), (20, o.d.toNat), (14, o.a.toNat), (8, o.b.toNat), (0, 34)] :=
    ⟨by decide, by decide, by decide, lt_of_isLt o.d (by decide), by decide, lt_of_isLt o.a (by decide), by decide, lt_of_isLt o.b (by decide), by decide, by decide, trivial⟩
  refine decode_of (n := pack [(26, 1), (20, o.d.toNat), (14, o.a.toNat), (8, o.b.toNat), (0, 34)]) rfl (pos_of_look (k := 0) (len := 6) F rfl) (pack_lt F) ?_ hw
  have m : fldN _ 26 6 = 1 := (fldN_pack F 26 6).trans rfl
  have e0_8 : fldN _ 0 8 = 34 := (fldN_pack F 0 8).trans (rfl)
  have f20 : fld _ 20 6 = o.d := fld_pack F (fldN_self o.d)
  have f14 : fld _ 14 6 = o.a := fld_pack F (fldN_self o.a)
  have f8 : fld _ 8 6 = o.b := fld_pack F (fldN_self o.b)
  generalize pack [(26, 1), (20, o.d.toNat), (14, o.a.toNat), (8, o.b.toNat), (0, 34)] = n at *
  rw [decS01_of m]
  simp [decS01, e0_8, f20, f14, f8]

theorem maxz (o : R3) : Statement (.maxz o) := by
  intro st hs hw; cases hs
  have F : Fits 32 [(26, 1), (20, o.d.toNat), (14, o.a.toNat), (8, o.b.toNat), (0, 35)] :=
    ⟨by decide, by decide, by decide, lt_of_isLt o.d (by decide), by decide, lt_of_isLt o.a (by decide), by decide, lt_of_isLt o.b (by decide), by decide, by decide, trivial⟩
  refine decode_of (n := pack [(26, 1), (20, o.d.toNat), (14, o.a.toNat), (8, o.b.toNat), (0, 35)]) rfl (pos_of_look (k := 0) (len := 6) F rfl) (pack_lt F) ?_ hw
  have m : fldN _ 26 6 = 1 := (fldN_pack F 26 6).trans rfl
  have e0_8 : fldN _ 0 8 = 35 := (fldN_pack F 0 8).trans (rfl)
  have f20 : fld _ 20 6 = o.d := fld_pack F (fldN_self o.d)
  have f14 : fld _ 14 6 = o.a := fld_pack F (fldN_self o.a)
  have f8 : fld _ 8 6 = o.b := fld_pack F (fldN_self o.b)
  generalize pack [(26, 1), (20, o.d.toNat), (14, o.a.toNat), (8, o.b.toNat), (0, 35)] = n at *
  rw [decS01_of m]
  simp [decS01, e0_8, f20, f14, f8]

theorem clz (o : R2) : Statement (.clz o) := by
  intro st hs hw; cases hs
  have F : Fits 32 [(26, 1), (20, o.d.toNat), (14, o.a.toNat), (0, 40)] :=
    ⟨by decide, by decide, by decide, lt_of_isLt o.d (by decide), by decide, lt_of_isLt o.a (by decide), by decide, by decide, trivial⟩
  refine decode_of (n := pack [(26, 1), (20, o.d.toNat), (14, o.a.toNat), (0, 40)]) rfl (pos_of_look (k := 0) (len := 6) F rfl) (pack_lt F) ?_ hw
  have m : fldN _ 26 6 = 1 := (fldN_pack F 26 6).trans rfl
  have e0_8 : fldN _ 0 8 = 40 := (fldN_pack F 0 8).trans (rfl)
  have e0_14 : fldN _ 0 14 = 40 := (fldN_pack F 0 14).trans (rfl)
  have f20 : fld _ 20 6 = o.d := fld_pack F (fldN_self o.d)
  have f14 : fld _ 14 6 = o.a := fld_pack F (fldN_self o.a)
  generalize pack [(26, 1), (20, o.d.toNat), (14, o.a.toNat), (0, 40)] = n at *
  rw [decS01_of m]
  simp [decS01, e0_8, e0_14, f20, f14]

theorem ctz (o : R2) : Statement (.ctz o) := by
  intro st hs hw; cases hs
  have F : Fits 32 [(26, 1), (20, o.d.toNat), (14, o.a.toNat), (0, 41)] :=
    ⟨by decide, by decide, by decide, lt_of_isLt o.d (by decide), by decide, lt_of_isLt o.a (by decide), by decide, by decide, trivial⟩
  refine decode_of (n := pack [(26, 1), (20, o.d.toNat), (14, o.a.toNat), (0, 41)]) rfl (pos_of_look (k := 0) (len := 6) F rfl) (pack_lt F) ?_ hw
  have m : fldN _ 26 6 = 1 := (fldN_pack F 26 6).trans rfl
  have e0_8 : fldN _ 0 8 = 41 := (fldN_pack F 0 8).trans (rfl)
  have e0_14 : fldN _ 0 14 = 41 := (fldN_pack F 0 14).trans (rfl)
  have f20 : fld _ 20 6 = o.d := fld_pack F (fldN_self o.d)
  have f14 : fld _ 14 6 = o.a := fld_pack F (fldN_self o.a)
  generalize pack [(26, 1), (20, o.d.toNat), (14, o.a.toNat), (0, 41)] = n at *
  rw [decS01_of m]
  simp [decS01, e0_8, e0_14, f20, f14]

theorem popc (o : R2) : Statement (.popc o) := by
  intro st hs hw; cases hs
  have F : Fits 32 [(26, 1), (20, o.d.toNat), (14, o.a.toNat), (0, 42)] :=
    ⟨by decide, by decide, by decide, lt_of_isLt o.d (by decide), by decide, lt_of_isLt o.a (by decide), by decide, by decide, trivial⟩
  refine decode_of (n := pack [(26, 1), (20, o.d.toNat), (14, o.a.toNat), (0, 42)]) rfl (pos_of_look (k := 0) (len := 6) F rfl) (pack_lt F) ?_ hw
  have m : fldN _ 26 6 = 1 := (fldN_pack F 26 6).trans rfl
  have e0_8 : fldN _ 0 8 = 42 := (fldN_pack F 0 8).trans (rfl)
  have e0_14 : fldN _ 0 14 = 42 := (fldN_pack F 0 14).trans (rfl)
  have f20 : fld _ 20 6 = o.d := fld_pack F (fldN_self o.d)
  have f14 : fld _ 14 6 = o.a := fld_pack F (fldN_self o.a)
  generalize pack [(26, 1), (20, o.d.toNat), (14, o.a.toNat), (0, 42)] = n at *
  rw [decS01_of m]
  simp [decS01, e0_8, e0_14, f20, f14]

theorem addi (o : RI) : Statement (.addi o) := by
  intro st hs hw; cases hs
  have F : Fits 32 [(26, 2), (20, o.d.toNat), (14, o.a.toNat), (0, o.imm.toNat)] :=
    ⟨by decide, by decide, by decide, lt_of_isLt o.d (by decide), by decide, lt_of_isLt o.a (by decide), by decide, lt_of_isLt o.imm (by decide), trivial⟩
  refine decode_of (n := pack [(26, 2), (20, o.d.toNat), (14, o.a.toNat), (0, o.imm.toNat)]) rfl (pos_of_look (k := 26) (len := 2) F rfl) (pack_lt F) ?_ hw
  have m : fldN _ 26 6 = 2 := (fldN_pack F 26 6).trans rfl
  have f20 : fld _ 20 6 = o.d := fld_pack F (fldN_self o.d)
  have f14 : fld _ 14 6 = o.a := fld_pack F (fldN_self o.a)
  have f0 : fld _ 0 14 = o.imm := fld_pack F (fldN_self o.imm)
  generalize pack [(26, 2), (20, o.d.toNat), (14, o.a.toNat), (0, o.imm.toNat)] = n at *
  rw [decS02_of m]
  simp [decS02, f20, f14, f0]

theorem andi (o : RI) : Statement (.andi o) := by
  intro st hs hw; cases hs
  have F : Fits 32 [(26, 3), (20, o.d.toNat), (14, o.a.toNat), (0, o.imm.toNat)] :=
    ⟨by decide, by decide, by decide, lt_of_isLt o.d (by decide), by decide, lt_of_isLt o.a (by decide), by decide, lt_of_isLt o.imm (by decide), trivial⟩
  refine decode_of (n := pack [(26, 3), (20, o.d.toNat), (14, o.a.toNat), (0, o.imm.toNat)]) rfl (pos_of_look (k := 26) (len := 2) F rfl) (pack_lt F) ?_ hw
  have m : fldN _ 26 6 = 3 := (fldN_pack F 26 6).trans rfl
  have f20 : fld _ 20 6 = o.d := fld_pack F (fldN_self o.d)
  have f14 : fld _ 14 6 = o.a := fld_pack F (fldN_self o.a)
  have f0 : fld _ 0 14 = o.imm := fld_pack F (fldN_self o.imm)
  generalize pack [(26, 3), (20, o.d.toNat), (14, o.a.toNat), (0, o.imm.toNat)] = n at *
  rw [decS03_of m]
  simp [decS03, f20, f14, f0]

theorem ori (o : RI) : Statement (.ori o) := by
  intro st hs hw; cases hs
  have F : Fits 32 [(26, 4), (20, o.d.toNat), (14, o.a.toNat), (0, o.imm.toNat)] :=
    ⟨by decide, by decide, by decide, lt_of_isLt o.d (by decide), by decide, lt_of_isLt o.a (by decide), by decide, lt_of_isLt o.imm (by decide), trivial⟩
  refine decode_of (n := pack [(26, 4), (20, o.d.toNat), (14, o.a.toNat), (0, o.imm.toNat)]) rfl (pos_of_look (k := 26) (len := 3) F rfl) (pack_lt F) ?_ hw
  have m : fldN _ 26 6 = 4 := (fldN_pack F 26 6).trans rfl
  have f20 : fld _ 20 6 = o.d := fld_pack F (fldN_self o.d)
  have f14 : fld _ 14 6 = o.a := fld_pack F (fldN_self o.a)
  have f0 : fld _ 0 14 = o.imm := fld_pack F (fldN_self o.imm)
  generalize pack [(26, 4), (20, o.d.toNat), (14, o.a.toNat), (0, o.imm.toNat)] = n at *
  rw [decS04_of m]
  simp [decS04, f20, f14, f0]

theorem xori (o : RI) : Statement (.xori o) := by
  intro st hs hw; cases hs
  have F : Fits 32 [(26, 5), (20, o.d.toNat), (14, o.a.toNat), (0, o.imm.toNat)] :=
    ⟨by decide, by decide, by decide, lt_of_isLt o.d (by decide), by decide, lt_of_isLt o.a (by decide), by decide, lt_of_isLt o.imm (by decide), trivial⟩
  refine decode_of (n := pack [(26, 5), (20, o.d.toNat), (14, o.a.toNat), (0, o.imm.toNat)]) rfl (pos_of_look (k := 26) (len := 3) F rfl) (pack_lt F) ?_ hw
  have m : fldN _ 26 6 = 5 := (fldN_pack F 26 6).trans rfl
  have f20 : fld _ 20 6 = o.d := fld_pack F (fldN_self o.d)
  have f14 : fld _ 14 6 = o.a := fld_pack F (fldN_self o.a)
  have f0 : fld _ 0 14 = o.imm := fld_pack F (fldN_self o.imm)
  generalize pack [(26, 5), (20, o.d.toNat), (14, o.a.toNat), (0, o.imm.toNat)] = n at *
  rw [decS05_of m]
  simp [decS05, f20, f14, f0]

theorem shli (o : RSh) : Statement (.shli o) := by
  intro st hs hw; cases hs
  have F : Fits 32 [(26, 6), (20, o.d.toNat), (14, o.a.toNat), (0, o.n.toNat)] :=
    ⟨by decide, by decide, by decide, lt_of_isLt o.d (by decide), by decide, lt_of_isLt o.a (by decide), by decide, lt_of_isLt o.n (by decide), trivial⟩
  refine decode_of (n := pack [(26, 6), (20, o.d.toNat), (14, o.a.toNat), (0, o.n.toNat)]) rfl (pos_of_look (k := 26) (len := 3) F rfl) (pack_lt F) ?_ hw
  have m : fldN _ 26 6 = 6 := (fldN_pack F 26 6).trans rfl
  have e6_8 : fldN _ 6 8 = 0 := (fldN_pack F 6 8).trans (by have := o.n.isLt; simp [look, fldN]; omega)
  have f20 : fld _ 20 6 = o.d := fld_pack F (fldN_self o.d)
  have f14 : fld _ 14 6 = o.a := fld_pack F (fldN_self o.a)
  have f0 : fld _ 0 6 = o.n := fld_pack F (fldN_self o.n)
  generalize pack [(26, 6), (20, o.d.toNat), (14, o.a.toNat), (0, o.n.toNat)] = n at *
  rw [decS06_of m]
  simp [decS06, e6_8, f20, f14, f0]

theorem shri (o : RSh) : Statement (.shri o) := by
  intro st hs hw; cases hs
  have F : Fits 32 [(26, 6), (20, o.d.toNat), (14, o.a.toNat), (6, 64), (0, o.n.toNat)] :=
    ⟨by decide, by decide, by decide, lt_of_isLt o.d (by decide), by decide, lt_of_isLt o.a (by decide), by decide, by decide, by decide, lt_of_isLt o.n (by decide), trivial⟩
  refine decode_of (n := pack [(26, 6), (20, o.d.toNat), (14, o.a.toNat), (6, 64), (0, o.n.toNat)]) rfl (pos_of_look (k := 6) (len := 7) F rfl) (pack_lt F) ?_ hw
  have m : fldN _ 26 6 = 6 := (fldN_pack F 26 6).trans rfl
  have e6_8 : fldN _ 6 8 = 64 := (fldN_pack F 6 8).trans (rfl)
  have f20 : fld _ 20 6 = o.d := fld_pack F (fldN_self o.d)
  have f14 : fld _ 14 6 = o.a := fld_pack F (fldN_self o.a)
  have f0 : fld _ 0 6 = o.n := fld_pack F (fldN_self o.n)
  generalize pack [(26, 6), (20, o.d.toNat), (14, o.a.toNat), (6, 64), (0, o.n.toNat)] = n at *
  rw [decS06_of m]
  simp [decS06, e6_8, f20, f14, f0]

theorem srai (o : RSh) : Statement (.srai o) := by
  intro st hs hw; cases hs
  have F : Fits 32 [(26, 6), (20, o.d.toNat), (14, o.a.toNat), (6, 128), (0, o.n.toNat)] :=
    ⟨by decide, by decide, by decide, lt_of_isLt o.d (by decide), by decide, lt_of_isLt o.a (by decide), by decide, by decide, by decide, lt_of_isLt o.n (by decide), trivial⟩
  refine decode_of (n := pack [(26, 6), (20, o.d.toNat), (14, o.a.toNat), (6, 128), (0, o.n.toNat)]) rfl (pos_of_look (k := 6) (len := 8) F rfl) (pack_lt F) ?_ hw
  have m : fldN _ 26 6 = 6 := (fldN_pack F 26 6).trans rfl
  have e6_8 : fldN _ 6 8 = 128 := (fldN_pack F 6 8).trans (rfl)
  have f20 : fld _ 20 6 = o.d := fld_pack F (fldN_self o.d)
  have f14 : fld _ 14 6 = o.a := fld_pack F (fldN_self o.a)
  have f0 : fld _ 0 6 = o.n := fld_pack F (fldN_self o.n)
  generalize pack [(26, 6), (20, o.d.toNat), (14, o.a.toNat), (6, 128), (0, o.n.toNat)] = n at *
  rw [decS06_of m]
  simp [decS06, e6_8, f20, f14, f0]

theorem li (o : RL) : Statement (.li o) := by
  intro st hs hw; cases hs
  have F : Fits 32 [(26, 7), (20, o.d.toNat), (0, o.imm.toNat)] :=
    ⟨by decide, by decide, by decide, lt_of_isLt o.d (by decide), by decide, lt_of_isLt o.imm (by decide), trivial⟩
  refine decode_of (n := pack [(26, 7), (20, o.d.toNat), (0, o.imm.toNat)]) rfl (pos_of_look (k := 26) (len := 3) F rfl) (pack_lt F) ?_ hw
  have m : fldN _ 26 6 = 7 := (fldN_pack F 26 6).trans rfl
  have f20 : fld _ 20 6 = o.d := fld_pack F (fldN_self o.d)
  have f0 : fld _ 0 20 = o.imm := fld_pack F (fldN_self o.imm)
  generalize pack [(26, 7), (20, o.d.toNat), (0, o.imm.toNat)] = n at *
  rw [decS07_of m]
  simp [decS07, f20, f0]

theorem lui (o : RL) : Statement (.lui o) := by
  intro st hs hw; cases hs
  have F : Fits 32 [(26, 8), (20, o.d.toNat), (0, o.imm.toNat)] :=
    ⟨by decide, by decide, by decide, lt_of_isLt o.d (by decide), by decide, lt_of_isLt o.imm (by decide), trivial⟩
  refine decode_of (n := pack [(26, 8), (20, o.d.toNat), (0, o.imm.toNat)]) rfl (pos_of_look (k := 26) (len := 4) F rfl) (pack_lt F) ?_ hw
  have m : fldN _ 26 6 = 8 := (fldN_pack F 26 6).trans rfl
  have f20 : fld _ 20 6 = o.d := fld_pack F (fldN_self o.d)
  have f0 : fld _ 0 20 = o.imm := fld_pack F (fldN_self o.imm)
  generalize pack [(26, 8), (20, o.d.toNat), (0, o.imm.toNat)] = n at *
  rw [decS08_of m]
  simp [decS08, f20, f0]

theorem lhi (o : RL) : Statement (.lhi o) := by
  intro st hs hw; cases hs
  have F : Fits 32 [(26, 9), (20, o.d.toNat), (0, o.imm.toNat)] :=
    ⟨by decide, by decide, by decide, lt_of_isLt o.d (by decide), by decide, lt_of_isLt o.imm (by decide), trivial⟩
  refine decode_of (n := pack [(26, 9), (20, o.d.toNat), (0, o.imm.toNat)]) rfl (pos_of_look (k := 26) (len := 4) F rfl) (pack_lt F) ?_ hw
  have m : fldN _ 26 6 = 9 := (fldN_pack F 26 6).trans rfl
  have f20 : fld _ 20 6 = o.d := fld_pack F (fldN_self o.d)
  have f0 : fld _ 0 20 = o.imm := fld_pack F (fldN_self o.imm)
  generalize pack [(26, 9), (20, o.d.toNat), (0, o.imm.toNat)] = n at *
  rw [decS09_of m]
  simp [decS09, f20, f0]

theorem addpc (o : RL) : Statement (.addpc o) := by
  intro st hs hw; cases hs
  have F : Fits 32 [(26, 10), (20, o.d.toNat), (0, o.imm.toNat)] :=
    ⟨by decide, by decide, by decide, lt_of_isLt o.d (by decide), by decide, lt_of_isLt o.imm (by decide), trivial⟩
  refine decode_of (n := pack [(26, 10), (20, o.d.toNat), (0, o.imm.toNat)]) rfl (pos_of_look (k := 26) (len := 4) F rfl) (pack_lt F) ?_ hw
  have m : fldN _ 26 6 = 10 := (fldN_pack F 26 6).trans rfl
  have f20 : fld _ 20 6 = o.d := fld_pack F (fldN_self o.d)
  have f0 : fld _ 0 20 = o.imm := fld_pack F (fldN_self o.imm)
  generalize pack [(26, 10), (20, o.d.toNat), (0, o.imm.toNat)] = n at *
  rw [decS0a_of m]
  simp [decS0a, f20, f0]

theorem fshl (o : R3) : Statement (.fshl o) := by
  intro st hs hw; cases hs
  have F : Fits 32 [(26, 11), (20, o.d.toNat), (14, o.a.toNat), (8, o.b.toNat)] :=
    ⟨by decide, by decide, by decide, lt_of_isLt o.d (by decide), by decide, lt_of_isLt o.a (by decide), by decide, lt_of_isLt o.b (by decide), trivial⟩
  refine decode_of (n := pack [(26, 11), (20, o.d.toNat), (14, o.a.toNat), (8, o.b.toNat)]) rfl (pos_of_look (k := 26) (len := 4) F rfl) (pack_lt F) ?_ hw
  have m : fldN _ 26 6 = 11 := (fldN_pack F 26 6).trans rfl
  have e0_8 : fldN _ 0 8 = 0 := (fldN_pack F 0 8).trans (rfl)
  have f20 : fld _ 20 6 = o.d := fld_pack F (fldN_self o.d)
  have f14 : fld _ 14 6 = o.a := fld_pack F (fldN_self o.a)
  have f8 : fld _ 8 6 = o.b := fld_pack F (fldN_self o.b)
  generalize pack [(26, 11), (20, o.d.toNat), (14, o.a.toNat), (8, o.b.toNat)] = n at *
  rw [decS0b_of m]
  simp [decS0b, e0_8, f20, f14, f8]

theorem fshr (o : R3) : Statement (.fshr o) := by
  intro st hs hw; cases hs
  have F : Fits 32 [(26, 11), (20, o.d.toNat), (14, o.a.toNat), (8, o.b.toNat), (0, 1)] :=
    ⟨by decide, by decide, by decide, lt_of_isLt o.d (by decide), by decide, lt_of_isLt o.a (by decide), by decide, lt_of_isLt o.b (by decide), by decide, by decide, trivial⟩
  refine decode_of (n := pack [(26, 11), (20, o.d.toNat), (14, o.a.toNat), (8, o.b.toNat), (0, 1)]) rfl (pos_of_look (k := 0) (len := 1) F rfl) (pack_lt F) ?_ hw
  have m : fldN _ 26 6 = 11 := (fldN_pack F 26 6).trans rfl
  have e0_8 : fldN _ 0 8 = 1 := (fldN_pack F 0 8).trans (rfl)
  have f20 : fld _ 20 6 = o.d := fld_pack F (fldN_self o.d)
  have f14 : fld _ 14 6 = o.a := fld_pack F (fldN_self o.a)
  have f8 : fld _ 8 6 = o.b := fld_pack F (fldN_self o.b)
  generalize pack [(26, 11), (20, o.d.toNat), (14, o.a.toNat), (8, o.b.toNat), (0, 1)] = n at *
  rw [decS0b_of m]
  simp [decS0b, e0_8, f20, f14, f8]

theorem bxt (o : R3) : Statement (.bxt o) := by
  intro st hs hw; cases hs
  have F : Fits 32 [(26, 12), (20, o.d.toNat), (14, o.a.toNat), (8, o.b.toNat)] :=
    ⟨by decide, by decide, by decide, lt_of_isLt o.d (by decide), by decide, lt_of_isLt o.a (by decide), by decide, lt_of_isLt o.b (by decide), trivial⟩
  refine decode_of (n := pack [(26, 12), (20, o.d.toNat), (14, o.a.toNat), (8, o.b.toNat)]) rfl (pos_of_look (k := 26) (len := 4) F rfl) (pack_lt F) ?_ hw
  have m : fldN _ 26 6 = 12 := (fldN_pack F 26 6).trans rfl
  have e0_8 : fldN _ 0 8 = 0 := (fldN_pack F 0 8).trans (rfl)
  have f20 : fld _ 20 6 = o.d := fld_pack F (fldN_self o.d)
  have f14 : fld _ 14 6 = o.a := fld_pack F (fldN_self o.a)
  have f8 : fld _ 8 6 = o.b := fld_pack F (fldN_self o.b)
  generalize pack [(26, 12), (20, o.d.toNat), (14, o.a.toNat), (8, o.b.toNat)] = n at *
  rw [decS0c_of m]
  simp [decS0c, e0_8, f20, f14, f8]

theorem bxz (o : R3) : Statement (.bxz o) := by
  intro st hs hw; cases hs
  have F : Fits 32 [(26, 12), (20, o.d.toNat), (14, o.a.toNat), (8, o.b.toNat), (0, 1)] :=
    ⟨by decide, by decide, by decide, lt_of_isLt o.d (by decide), by decide, lt_of_isLt o.a (by decide), by decide, lt_of_isLt o.b (by decide), by decide, by decide, trivial⟩
  refine decode_of (n := pack [(26, 12), (20, o.d.toNat), (14, o.a.toNat), (8, o.b.toNat), (0, 1)]) rfl (pos_of_look (k := 0) (len := 1) F rfl) (pack_lt F) ?_ hw
  have m : fldN _ 26 6 = 12 := (fldN_pack F 26 6).trans rfl
  have e0_8 : fldN _ 0 8 = 1 := (fldN_pack F 0 8).trans (rfl)
  have f20 : fld _ 20 6 = o.d := fld_pack F (fldN_self o.d)
  have f14 : fld _ 14 6 = o.a := fld_pack F (fldN_self o.a)
  have f8 : fld _ 8 6 = o.b := fld_pack F (fldN_self o.b)
  generalize pack [(26, 12), (20, o.d.toNat), (14, o.a.toNat), (8, o.b.toNat), (0, 1)] = n at *
  rw [decS0c_of m]
  simp [decS0c, e0_8, f20, f14, f8]

theorem bins (o : R3) : Statement (.bins o) := by
  intro st hs hw; cases hs
  have F : Fits 32 [(26, 12), (20, o.d.toNat), (14, o.a.toNat), (8, o.b.toNat), (0, 2)] :=
    ⟨by decide, by decide, by decide, lt_of_isLt o.d (by decide), by decide, lt_of_isLt o.a (by decide), by decide, lt_of_isLt o.b (by decide), by decide, by decide, trivial⟩
  refine decode_of (n := pack [(26, 12), (20, o.d.toNat), (14, o.a.toNat), (8, o.b.toNat), (0, 2)]) rfl (pos_of_look (k := 0) (len := 2) F rfl) (pack_lt F) ?_ hw
  have m : fldN _ 26 6 = 12 := (fldN_pack F 26 6).trans rfl
  have e0_8 : fldN _ 0 8 = 2 := (fldN_pack F 0 8).trans (rfl)
  have f20 : fld _ 20 6 = o.d := fld_pack F (fldN_self o.d)
  have f14 : fld _ 14 6 = o.a := fld_pack F (fldN_self o.a)
  have f8 : fld _ 8 6 = o.b := fld_pack F (fldN_self o.b)
  generalize pack [(26, 12), (20, o.d.toNat), (14, o.a.toNat), (8, o.b.toNat), (0, 2)] = n at *
  rw [decS0c_of m]
  simp [decS0c, e0_8, f20, f14, f8]

theorem bxti (o : RBf) : Statement (.bxti o) := by
  intro st hs hw; cases hs
  have F : Fits 32 [(26, 13), (20, o.d.toNat), (14, o.a.toNat), (6, o.w.toNat), (0, o.o.toNat)] :=
    ⟨by decide, by decide, by decide, lt_of_isLt o.d (by decide), by decide, lt_of_isLt o.a (by decide), by decide, lt_of_isLt o.w (by decide), by decide, lt_of_isLt o.o (by decide), trivial⟩
  refine decode_of (n := pack [(26, 13), (20, o.d.toNat), (14, o.a.toNat), (6, o.w.toNat), (0, o.o.toNat)]) rfl (pos_of_look (k := 26) (len := 4) F rfl) (pack_lt F) ?_ hw
  have m : fldN _ 26 6 = 13 := (fldN_pack F 26 6).trans rfl
  have e12_2 : fldN _ 12 2 = 0 := (fldN_pack F 12 2).trans (by have := o.w.isLt; simp [look, fldN]; omega)
  have f20 : fld _ 20 6 = o.d := fld_pack F (fldN_self o.d)
  have f14 : fld _ 14 6 = o.a := fld_pack F (fldN_self o.a)
  have f6 : fld _ 6 6 = o.w := fld_pack F (fldN_self o.w)
  have f0 : fld _ 0 6 = o.o := fld_pack F (fldN_self o.o)
  generalize pack [(26, 13), (20, o.d.toNat), (14, o.a.toNat), (6, o.w.toNat), (0, o.o.toNat)] = n at *
  rw [decS0d_of m]
  simp [decS0d, e12_2, f20, f14, f6, f0]

theorem bxzi (o : RBf) : Statement (.bxzi o) := by
  intro st hs hw; cases hs
  have F : Fits 32 [(26, 13), (20, o.d.toNat), (14, o.a.toNat), (12, 1), (6, o.w.toNat), (0, o.o.toNat)] :=
    ⟨by decide, by decide, by decide, lt_of_isLt o.d (by decide), by decide, lt_of_isLt o.a (by decide), by decide, by decide, by decide, lt_of_isLt o.w (by decide), by decide, lt_of_isLt o.o (by decide), trivial⟩
  refine decode_of (n := pack [(26, 13), (20, o.d.toNat), (14, o.a.toNat), (12, 1), (6, o.w.toNat), (0, o.o.toNat)]) rfl (pos_of_look (k := 12) (len := 1) F rfl) (pack_lt F) ?_ hw
  have m : fldN _ 26 6 = 13 := (fldN_pack F 26 6).trans rfl
  have e12_2 : fldN _ 12 2 = 1 := (fldN_pack F 12 2).trans (rfl)
  have f20 : fld _ 20 6 = o.d := fld_pack F (fldN_self o.d)
  have f14 : fld _ 14 6 = o.a := fld_pack F (fldN_self o.a)
  have f6 : fld _ 6 6 = o.w := fld_pack F (fldN_self o.w)
  have f0 : fld _ 0 6 = o.o := fld_pack F (fldN_self o.o)
  generalize pack [(26, 13), (20, o.d.toNat), (14, o.a.toNat), (12, 1), (6, o.w.toNat), (0, o.o.toNat)] = n at *
  rw [decS0d_of m]
  simp [decS0d, e12_2, f20, f14, f6, f0]

theorem binsi (o : RBf) : Statement (.binsi o) := by
  intro st hs hw; cases hs
  have F : Fits 32 [(26, 13), (20, o.d.toNat), (14, o.a.toNat), (12, 2), (6, o.w.toNat), (0, o.o.toNat)] :=
    ⟨by decide, by decide, by decide, lt_of_isLt o.d (by decide), by decide, lt_of_isLt o.a (by decide), by decide, by decide, by decide, lt_of_isLt o.w (by decide), by decide, lt_of_isLt o.o (by decide), trivial⟩
  refine decode_of (n := pack [(26, 13), (20, o.d.toNat), (14, o.a.toNat), (12, 2), (6, o.w.toNat), (0, o.o.toNat)]) rfl (pos_of_look (k := 12) (len := 2) F rfl) (pack_lt F) ?_ hw
  have m : fldN _ 26 6 = 13 := (fldN_pack F 26 6).trans rfl
  have e12_2 : fldN _ 12 2 = 2 := (fldN_pack F 12 2).trans (rfl)
  have f20 : fld _ 20 6 = o.d := fld_pack F (fldN_self o.d)
  have f14 : fld _ 14 6 = o.a := fld_pack F (fldN_self o.a)
  have f6 : fld _ 6 6 = o.w := fld_pack F (fldN_self o.w)
  have f0 : fld _ 0 6 = o.o := fld_pack F (fldN_self o.o)
  generalize pack [(26, 13), (20, o.d.toNat), (14, o.a.toNat), (12, 2), (6, o.w.toNat), (0, o.o.toNat)] = n at *
  rw [decS0d_of m]
  simp [decS0d, e12_2, f20, f14, f6, f0]

theorem sel (o : RSel) : Statement (.sel o) := by
  intro st hs hw; cases hs
  have F : Fits 32 [(26, 14), (20, o.d.toNat), (14, o.a.toNat), (8, o.b.toNat), (0, o.f.toNat)] :=
    ⟨by decide, by decide, by decide, lt_of_isLt o.d (by decide), by decide, lt_of_isLt o.a (by decide), by decide, lt_of_isLt o.b (by decide), by decide, lt_of_isLt o.f (by decide), trivial⟩
  refine decode_of (n := pack [(26, 14), (20, o.d.toNat), (14, o.a.toNat), (8, o.b.toNat), (0, o.f.toNat)]) rfl (pos_of_look (k := 26) (len := 4) F rfl) (pack_lt F) ?_ hw
  have m : fldN _ 26 6 = 14 := (fldN_pack F 26 6).trans rfl
  have f20 : fld _ 20 6 = o.d := fld_pack F (fldN_self o.d)
  have f14 : fld _ 14 6 = o.a := fld_pack F (fldN_self o.a)
  have f8 : fld _ 8 6 = o.b := fld_pack F (fldN_self o.b)
  have f0 : fld _ 0 8 = o.f := fld_pack F (fldN_self o.f)
  generalize pack [(26, 14), (20, o.d.toNat), (14, o.a.toNat), (8, o.b.toNat), (0, o.f.toNat)] = n at *
  rw [decS0e_of m]
  simp [decS0e, f20, f14, f8, f0]

theorem cmp (o : RCmp) : Statement (.cmp o) := by
  intro st hs hw; cases hs
  have F : Fits 32 [(26, 16), (22, o.c.toNat), (16, o.a.toNat), (10, o.b.toNat), (0, o.f.toNat)] :=
    ⟨by decide, by decide, by decide, lt_of_isLt o.c (by decide), by decide, lt_of_isLt o.a (by decide), by decide, lt_of_isLt o.b (by decide), by decide, lt_of_isLt o.f (by decide), trivial⟩
  refine decode_of (n := pack [(26, 16), (22, o.c.toNat), (16, o.a.toNat), (10, o.b.toNat), (0, o.f.toNat)]) rfl (pos_of_look (k := 26) (len := 5) F rfl) (pack_lt F) ?_ hw
  have m : fldN _ 26 6 = 16 := (fldN_pack F 26 6).trans rfl
  have f22 : fld _ 22 4 = o.c := fld_pack F (fldN_self o.c)
  have f16 : fld _ 16 6 = o.a := fld_pack F (fldN_self o.a)
  have f10 : fld _ 10 6 = o.b := fld_pack F (fldN_self o.b)
  have f0 : fld _ 0 10 = o.f := fld_pack F (fldN_self o.f)
  generalize pack [(26, 16), (22, o.c.toNat), (16, o.a.toNat), (10, o.b.toNat), (0, o.f.toNat)] = n at *
  rw [decS10_of m]
  simp [decS10, f22, f16, f10, f0]

theorem cmpi (o : RCmp) : Statement (.cmpi o) := by
  intro st hs hw; cases hs
  have F : Fits 32 [(26, 17), (22, o.c.toNat), (16, o.a.toNat), (10, o.b.toNat), (0, o.f.toNat)] :=
    ⟨by decide, by decide, by decide, lt_of_isLt o.c (by decide), by decide, lt_of_isLt o.a (by decide), by decide, lt_of_isLt o.b (by decide), by decide, lt_of_isLt o.f (by decide), trivial⟩
  refine decode_of (n := pack [(26, 17), (22, o.c.toNat), (16, o.a.toNat), (10, o.b.toNat), (0, o.f.toNat)]) rfl (pos_of_look (k := 26) (len := 5) F rfl) (pack_lt F) ?_ hw
  have m : fldN _ 26 6 = 17 := (fldN_pack F 26 6).trans rfl
  have f22 : fld _ 22 4 = o.c := fld_pack F (fldN_self o.c)
  have f16 : fld _ 16 6 = o.a := fld_pack F (fldN_self o.a)
  have f10 : fld _ 10 6 = o.b := fld_pack F (fldN_self o.b)
  have f0 : fld _ 0 10 = o.f := fld_pack F (fldN_self o.f)
  generalize pack [(26, 17), (22, o.c.toNat), (16, o.a.toNat), (10, o.b.toNat), (0, o.f.toNat)] = n at *
  rw [decS11_of m]
  simp [decS11, f22, f16, f10, f0]

theorem ptgt (n : BitVec 3) (i : BitVec 20) : Statement (.ptgt n i) := by
  intro st hs hw; cases hs
  have F : Fits 32 [(26, 18), (20, n.toNat), (0, i.toNat)] :=
    ⟨by decide, by decide, by decide, lt_of_isLt n (by decide), by decide, lt_of_isLt i (by decide), trivial⟩
  refine decode_of (n := pack [(26, 18), (20, n.toNat), (0, i.toNat)]) rfl (pos_of_look (k := 26) (len := 5) F rfl) (pack_lt F) ?_ hw
  have m : fldN _ 26 6 = 18 := (fldN_pack F 26 6).trans rfl
  have e23_3 : fldN _ 23 3 = 0 := (fldN_pack F 23 3).trans (by have := n.isLt; simp [look, fldN]; omega)
  have f20 : fld _ 20 3 = n := fld_pack F (fldN_self n)
  have f0 : fld _ 0 20 = i := fld_pack F (fldN_self i)
  generalize pack [(26, 18), (20, n.toNat), (0, i.toNat)] = n at *
  rw [decS12_of m]
  simp [decS12, e23_3, f20, f0]

theorem ptgtr (n : BitVec 3) (a : GReg) : Statement (.ptgtr n a) := by
  intro st hs hw; cases hs
  have F : Fits 32 [(26, 19), (20, n.toNat), (14, a.toNat)] :=
    ⟨by decide, by decide, by decide, lt_of_isLt n (by decide), by decide, lt_of_isLt a (by decide), trivial⟩
  refine decode_of (n := pack [(26, 19), (20, n.toNat), (14, a.toNat)]) rfl (pos_of_look (k := 26) (len := 5) F rfl) (pack_lt F) ?_ hw
  have m : fldN _ 26 6 = 19 := (fldN_pack F 26 6).trans rfl
  have e0_14 : fldN _ 0 14 = 0 := (fldN_pack F 0 14).trans (rfl)
  have e23_3 : fldN _ 23 3 = 0 := (fldN_pack F 23 3).trans (by have := n.isLt; simp [look, fldN]; omega)
  have f20 : fld _ 20 3 = n := fld_pack F (fldN_self n)
  have f14 : fld _ 14 6 = a := fld_pack F (fldN_self a)
  generalize pack [(26, 19), (20, n.toNat), (14, a.toNat)] = n at *
  rw [decS13_of m]
  simp [decS13, e0_14, e23_3, f20, f14]

theorem xfer (o : RXfer) : Statement (.xfer o) := by
  intro st hs hw; cases hs
  have F : Fits 32 [(26, 20), (24, o.m.toNat), (21, o.n.toNat), (0, o.f.toNat)] :=
    ⟨by decide, by decide, by decide, lt_of_isLt o.m (by decide), by decide, lt_of_isLt o.n (by decide), by decide, lt_of_isLt o.f (by decide), trivial⟩
  refine decode_of (n := pack [(26, 20), (24, o.m.toNat), (21, o.n.toNat), (0, o.f.toNat)]) rfl (pos_of_look (k := 26) (len := 5) F rfl) (pack_lt F) ?_ hw
  have m : fldN _ 26 6 = 20 := (fldN_pack F 26 6).trans rfl
  have e10_11 : fldN _ 10 11 = 0 := (fldN_pack F 10 11).trans (by have := o.f.isLt; simp [look, fldN]; omega)
  have f24 : fld _ 24 2 = o.m := fld_pack F (fldN_self o.m)
  have f21 : fld _ 21 3 = o.n := fld_pack F (fldN_self o.n)
  have f0 : fld _ 0 10 = o.f := fld_pack F (fldN_self o.f)
  generalize pack [(26, 20), (24, o.m.toNat), (21, o.n.toNat), (0, o.f.toNat)] = n at *
  rw [decS14_of m]
  simp [decS14, e10_11, f24, f21, f0]

theorem xcall (o : RXfer) : Statement (.xcall o) := by
  intro st hs hw; cases hs
  have F : Fits 32 [(26, 21), (24, o.m.toNat), (21, o.n.toNat), (0, o.f.toNat)] :=
    ⟨by decide, by decide, by decide, lt_of_isLt o.m (by decide), by decide, lt_of_isLt o.n (by decide), by decide, lt_of_isLt o.f (by decide), trivial⟩
  refine decode_of (n := pack [(26, 21), (24, o.m.toNat), (21, o.n.toNat), (0, o.f.toNat)]) rfl (pos_of_look (k := 26) (len := 5) F rfl) (pack_lt F) ?_ hw
  have m : fldN _ 26 6 = 21 := (fldN_pack F 26 6).trans rfl
  have e10_11 : fldN _ 10 11 = 0 := (fldN_pack F 10 11).trans (by have := o.f.isLt; simp [look, fldN]; omega)
  have f24 : fld _ 24 2 = o.m := fld_pack F (fldN_self o.m)
  have f21 : fld _ 21 3 = o.n := fld_pack F (fldN_self o.n)
  have f0 : fld _ 0 10 = o.f := fld_pack F (fldN_self o.f)
  generalize pack [(26, 21), (24, o.m.toNat), (21, o.n.toNat), (0, o.f.toNat)] = n at *
  rw [decS15_of m]
  simp [decS15, e10_11, f24, f21, f0]

theorem fset (f : BitVec 10) : Statement (.fset f) := by
  intro st hs hw; cases hs
  have F : Fits 32 [(26, 24), (4, f.toNat)] :=
    ⟨by decide, by decide, by decide, lt_of_isLt f (by decide), trivial⟩
  refine decode_of (n := pack [(26, 24), (4, f.toNat)]) rfl (pos_of_look (k := 26) (len := 5) F rfl) (pack_lt F) ?_ hw
  have m : fldN _ 26 6 = 24 := (fldN_pack F 26 6).trans rfl
  have e0_4 : fldN _ 0 4 = 0 := (fldN_pack F 0 4).trans (rfl)
  have e14_12 : fldN _ 14 12 = 0 := (fldN_pack F 14 12).trans (by have := f.isLt; simp [look, fldN]; omega)
  have f4 : fld _ 4 10 = f := fld_pack F (fldN_self f)
  generalize pack [(26, 24), (4, f.toNat)] = n at *
  rw [decS18_of m]
  simp [decS18, e0_4, e14_12, f4]

theorem fclr (f : BitVec 10) : Statement (.fclr f) := by
  intro st hs hw; cases hs
  have F : Fits 32 [(26, 24), (4, f.toNat), (0, 1)] :=
    ⟨by decide, by decide, by decide, lt_of_isLt f (by decide), by decide, by decide, trivial⟩
  refine decode_of (n := pack [(26, 24), (4, f.toNat), (0, 1)]) rfl (pos_of_look (k := 0) (len := 1) F rfl) (pack_lt F) ?_ hw
  have m : fldN _ 26 6 = 24 := (fldN_pack F 26 6).trans rfl
  have e0_4 : fldN _ 0 4 = 1 := (fldN_pack F 0 4).trans (rfl)
  have e14_12 : fldN _ 14 12 = 0 := (fldN_pack F 14 12).trans (by have := f.isLt; simp [look, fldN]; omega)
  have f4 : fld _ 4 10 = f := fld_pack F (fldN_self f)
  generalize pack [(26, 24), (4, f.toNat), (0, 1)] = n at *
  rw [decS18_of m]
  simp [decS18, e0_4, e14_12, f4]

theorem ftgl (f : BitVec 10) : Statement (.ftgl f) := by
  intro st hs hw; cases hs
  have F : Fits 32 [(26, 24), (4, f.toNat), (0, 2)] :=
    ⟨by decide, by decide, by decide, lt_of_isLt f (by decide), by decide, by decide, trivial⟩
  refine decode_of (n := pack [(26, 24), (4, f.toNat), (0, 2)]) rfl (pos_of_look (k := 0) (len := 2) F rfl) (pack_lt F) ?_ hw
  have m : fldN _ 26 6 = 24 := (fldN_pack F 26 6).trans rfl
  have e0_4 : fldN _ 0 4 = 2 := (fldN_pack F 0 4).trans (rfl)
  have e14_12 : fldN _ 14 12 = 0 := (fldN_pack F 14 12).trans (by have := f.isLt; simp [look, fldN]; omega)
  have f4 : fld _ 4 10 = f := fld_pack F (fldN_self f)
  generalize pack [(26, 24), (4, f.toNat), (0, 2)] = n at *
  rw [decS18_of m]
  simp [decS18, e0_4, e14_12, f4]

theorem ftest (d : GReg) (f : BitVec 10) : Statement (.ftest d f) := by
  intro st hs hw; cases hs
  have F : Fits 32 [(26, 24), (20, d.toNat), (4, f.toNat), (0, 3)] :=
    ⟨by decide, by decide, by decide, lt_of_isLt d (by decide), by decide, lt_of_isLt f (by decide), by decide, by decide, trivial⟩
  refine decode_of (n := pack [(26, 24), (20, d.toNat), (4, f.toNat), (0, 3)]) rfl (pos_of_look (k := 0) (len := 2) F rfl) (pack_lt F) ?_ hw
  have m : fldN _ 26 6 = 24 := (fldN_pack F 26 6).trans rfl
  have e0_4 : fldN _ 0 4 = 3 := (fldN_pack F 0 4).trans (rfl)
  have e14_6 : fldN _ 14 6 = 0 := (fldN_pack F 14 6).trans (by have := f.isLt; simp [look, fldN]; omega)
  have f20 : fld _ 20 6 = d := fld_pack F (fldN_self d)
  have f4 : fld _ 4 10 = f := fld_pack F (fldN_self f)
  generalize pack [(26, 24), (20, d.toNat), (4, f.toNat), (0, 3)] = n at *
  rw [decS18_of m]
  simp [decS18, e0_4, e14_6, f20, f4]

theorem fmov (d : GReg) (f : BitVec 10) : Statement (.fmov d f) := by
  intro st hs hw; cases hs
  have F : Fits 32 [(26, 24), (20, d.toNat), (4, f.toNat), (0, 4)] :=
    ⟨by decide, by decide, by decide, lt_of_isLt d (by decide), by decide, lt_of_isLt f (by decide), by decide, by decide, trivial⟩
  refine decode_of (n := pack [(26, 24), (20, d.toNat), (4, f.toNat), (0, 4)]) rfl (pos_of_look (k := 0) (len := 3) F rfl) (pack_lt F) ?_ hw
  have m : fldN _ 26 6 = 24 := (fldN_pack F 26 6).trans rfl
  have e0_4 : fldN _ 0 4 = 4 := (fldN_pack F 0 4).trans (rfl)
  have e14_6 : fldN _ 14 6 = 0 := (fldN_pack F 14 6).trans (by have := f.isLt; simp [look, fldN]; omega)
  have f20 : fld _ 20 6 = d := fld_pack F (fldN_self d)
  have f4 : fld _ 4 10 = f := fld_pack F (fldN_self f)
  generalize pack [(26, 24), (20, d.toNat), (4, f.toNat), (0, 4)] = n at *
  rw [decS18_of m]
  simp [decS18, e0_4, e14_6, f20, f4]

theorem fwait (v : BitVec 1) (f : BitVec 10) : Statement (.fwait v f) := by
  intro st hs hw; cases hs
  have F : Fits 32 [(26, 24), (20, v.toNat), (4, f.toNat), (0, 5)] :=
    ⟨by decide, by decide, by decide, lt_of_isLt v (by decide), by decide, lt_of_isLt f (by decide), by decide, by decide, trivial⟩
  refine decode_of (n := pack [(26, 24), (20, v.toNat), (4, f.toNat), (0, 5)]) rfl (pos_of_look (k := 0) (len := 3) F rfl) (pack_lt F) ?_ hw
  have m : fldN _ 26 6 = 24 := (fldN_pack F 26 6).trans rfl
  have e0_4 : fldN _ 0 4 = 5 := (fldN_pack F 0 4).trans (rfl)
  have e14_6 : fldN _ 14 6 = 0 := (fldN_pack F 14 6).trans (by have := f.isLt; simp [look, fldN]; omega)
  have e21_5 : fldN _ 21 5 = 0 := (fldN_pack F 21 5).trans (by have := v.isLt; simp [look, fldN]; omega)
  have f20 : fld _ 20 1 = v := fld_pack F (fldN_self v)
  have f4 : fld _ 4 10 = f := fld_pack F (fldN_self f)
  generalize pack [(26, 24), (20, v.toNat), (4, f.toNat), (0, 5)] = n at *
  rw [decS18_of m]
  simp [decS18, e0_4, e14_6, e21_5, f20, f4]

theorem fwaita (f : BitVec 10) : Statement (.fwaita f) := by
  intro st hs hw; cases hs
  have F : Fits 32 [(26, 24), (4, f.toNat), (0, 6)] :=
    ⟨by decide, by decide, by decide, lt_of_isLt f (by decide), by decide, by decide, trivial⟩
  refine decode_of (n := pack [(26, 24), (4, f.toNat), (0, 6)]) rfl (pos_of_look (k := 0) (len := 3) F rfl) (pack_lt F) ?_ hw
  have m : fldN _ 26 6 = 24 := (fldN_pack F 26 6).trans rfl
  have e0_4 : fldN _ 0 4 = 6 := (fldN_pack F 0 4).trans (rfl)
  have e14_12 : fldN _ 14 12 = 0 := (fldN_pack F 14 12).trans (by have := f.isLt; simp [look, fldN]; omega)
  have f4 : fld _ 4 10 = f := fld_pack F (fldN_self f)
  generalize pack [(26, 24), (4, f.toNat), (0, 6)] = n at *
  rw [decS18_of m]
  simp [decS18, e0_4, e14_12, f4]

theorem fsetReg (o : RFlag) : Statement (.fsetReg o) := by
  intro st hs hw; cases hs
  have F : Fits 32 [(26, 24), (14, o.a.toNat), (13, o.c.toNat), (0, 8)] :=
    ⟨by decide, by decide, by decide, lt_of_isLt o.a (by decide), by decide, lt_of_isLt o.c (by decide), by decide, by decide, trivial⟩
  refine decode_of (n := pack [(26, 24), (14, o.a.toNat), (13, o.c.toNat), (0, 8)]) rfl (pos_of_look (k := 0) (len := 4) F rfl) (pack_lt F) ?_ hw
  have m : fldN _ 26 6 = 24 := (fldN_pack F 26 6).trans rfl
  have e0_4 : fldN _ 0 4 = 8 := (fldN_pack F 0 4).trans (rfl)
  have e0_13 : fldN _ 0 13 = 8 := (fldN_pack F 0 13).trans (rfl)
  have e20_6 : fldN _ 20 6 = 0 := (fldN_pack F 20 6).trans (by have := o.a.isLt; simp [look, fldN]; omega)
  have f14 : fld _ 14 6 = o.a := fld_pack F (fldN_self o.a)
  have f13 : fld _ 13 1 = o.c := fld_pack F (fldN_self o.c)
  generalize pack [(26, 24), (14, o.a.toNat), (13, o.c.toNat), (0, 8)] = n at *
  rw [decS18_of m]
  simp [decS18, e0_4, e0_13, e20_6, f14, f13]

theorem fclrReg (o : RFlag) : Statement (.fclrReg o) := by
  intro st hs hw; cases hs
  have F : Fits 32 [(26, 24), (14, o.a.toNat), (13, o.c.toNat), (0, 9)] :=
    ⟨by decide, by decide, by decide, lt_of_isLt o.a (by decide), by decide, lt_of_isLt o.c (by decide), by decide, by decide, trivial⟩
  refine decode_of (n := pack [(26, 24), (14, o.a.toNat), (13, o.c.toNat), (0, 9)]) rfl (pos_of_look (k := 0) (len := 4) F rfl) (pack_lt F) ?_ hw
  have m : fldN _ 26 6 = 24 := (fldN_pack F 26 6).trans rfl
  have e0_4 : fldN _ 0 4 = 9 := (fldN_pack F 0 4).trans (rfl)
  have e0_13 : fldN _ 0 13 = 9 := (fldN_pack F 0 13).trans (rfl)
  have e20_6 : fldN _ 20 6 = 0 := (fldN_pack F 20 6).trans (by have := o.a.isLt; simp [look, fldN]; omega)
  have f14 : fld _ 14 6 = o.a := fld_pack F (fldN_self o.a)
  have f13 : fld _ 13 1 = o.c := fld_pack F (fldN_self o.c)
  generalize pack [(26, 24), (14, o.a.toNat), (13, o.c.toNat), (0, 9)] = n at *
  rw [decS18_of m]
  simp [decS18, e0_4, e0_13, e20_6, f14, f13]

theorem ftglReg (o : RFlag) : Statement (.ftglReg o) := by
  intro st hs hw; cases hs
  have F : Fits 32 [(26, 24), (14, o.a.toNat), (13, o.c.toNat), (0, 10)] :=
    ⟨by decide, by decide, by decide, lt_of_isLt o.a (by decide), by decide, lt_of_isLt o.c (by decide), by decide, by decide, trivial⟩
  refine decode_of (n := pack [(26, 24), (14, o.a.toNat), (13, o.c.toNat), (0, 10)]) rfl (pos_of_look (k := 0) (len := 4) F rfl) (pack_lt F) ?_ hw
  have m : fldN _ 26 6 = 24 := (fldN_pack F 26 6).trans rfl
  have e0_4 : fldN _ 0 4 = 10 := (fldN_pack F 0 4).trans (rfl)
  have e0_13 : fldN _ 0 13 = 10 := (fldN_pack F 0 13).trans (rfl)
  have e20_6 : fldN _ 20 6 = 0 := (fldN_pack F 20 6).trans (by have := o.a.isLt; simp [look, fldN]; omega)
  have f14 : fld _ 14 6 = o.a := fld_pack F (fldN_self o.a)
  have f13 : fld _ 13 1 = o.c := fld_pack F (fldN_self o.c)
  generalize pack [(26, 24), (14, o.a.toNat), (13, o.c.toNat), (0, 10)] = n at *
  rw [decS18_of m]
  simp [decS18, e0_4, e0_13, e20_6, f14, f13]

theorem ftestReg (o : RFlagD) : Statement (.ftestReg o) := by
  intro st hs hw; cases hs
  have F : Fits 32 [(26, 24), (20, o.d.toNat), (14, o.a.toNat), (13, o.c.toNat), (0, 11)] :=
    ⟨by decide, by decide, by decide, lt_of_isLt o.d (by decide), by decide, lt_of_isLt o.a (by decide), by decide, lt_of_isLt o.c (by decide), by decide, by decide, trivial⟩
  refine decode_of (n := pack [(26, 24), (20, o.d.toNat), (14, o.a.toNat), (13, o.c.toNat), (0, 11)]) rfl (pos_of_look (k := 0) (len := 4) F rfl) (pack_lt F) ?_ hw
  have m : fldN _ 26 6 = 24 := (fldN_pack F 26 6).trans rfl
  have e0_4 : fldN _ 0 4 = 11 := (fldN_pack F 0 4).trans (rfl)
  have e0_13 : fldN _ 0 13 = 11 := (fldN_pack F 0 13).trans (rfl)
  have f20 : fld _ 20 6 = o.d := fld_pack F (fldN_self o.d)
  have f14 : fld _ 14 6 = o.a := fld_pack F (fldN_self o.a)
  have f13 : fld _ 13 1 = o.c := fld_pack F (fldN_self o.c)
  generalize pack [(26, 24), (20, o.d.toNat), (14, o.a.toNat), (13, o.c.toNat), (0, 11)] = n at *
  rw [decS18_of m]
  simp [decS18, e0_4, e0_13, f20, f14, f13]

theorem fmovReg (o : RFlagD) : Statement (.fmovReg o) := by
  intro st hs hw; cases hs
  have F : Fits 32 [(26, 24), (20, o.d.toNat), (14, o.a.toNat), (13, o.c.toNat), (0, 12)] :=
    ⟨by decide, by decide, by decide, lt_of_isLt o.d (by decide), by decide, lt_of_isLt o.a (by decide), by decide, lt_of_isLt o.c (by decide), by decide, by decide, trivial⟩
  refine decode_of (n := pack [(26, 24), (20, o.d.toNat), (14, o.a.toNat), (13, o.c.toNat), (0, 12)]) rfl (pos_of_look (k := 0) (len := 4) F rfl) (pack_lt F) ?_ hw
  have m : fldN _ 26 6 = 24 := (fldN_pack F 26 6).trans rfl
  have e0_4 : fldN _ 0 4 = 12 := (fldN_pack F 0 4).trans (rfl)
  have e0_13 : fldN _ 0 13 = 12 := (fldN_pack F 0 13).trans (rfl)
  have f20 : fld _ 20 6 = o.d := fld_pack F (fldN_self o.d)
  have f14 : fld _ 14 6 = o.a := fld_pack F (fldN_self o.a)
  have f13 : fld _ 13 1 = o.c := fld_pack F (fldN_self o.c)
  generalize pack [(26, 24), (20, o.d.toNat), (14, o.a.toNat), (13, o.c.toNat), (0, 12)] = n at *
  rw [decS18_of m]
  simp [decS18, e0_4, e0_13, f20, f14, f13]

theorem fwaitReg (v : BitVec 1) (o : RFlag) : Statement (.fwaitReg v o) := by
  intro st hs hw; cases hs
  have F : Fits 32 [(26, 24), (20, v.toNat), (14, o.a.toNat), (13, o.c.toNat), (0, 13)] :=
    ⟨by decide, by decide, by decide, lt_of_isLt v (by decide), by decide, lt_of_isLt o.a (by decide), by decide, lt_of_isLt o.c (by decide), by decide, by decide, trivial⟩
  refine decode_of (n := pack [(26, 24), (20, v.toNat), (14, o.a.toNat), (13, o.c.toNat), (0, 13)]) rfl (pos_of_look (k := 0) (len := 4) F rfl) (pack_lt F) ?_ hw
  have m : fldN _ 26 6 = 24 := (fldN_pack F 26 6).trans rfl
  have e0_4 : fldN _ 0 4 = 13 := (fldN_pack F 0 4).trans (rfl)
  have e0_13 : fldN _ 0 13 = 13 := (fldN_pack F 0 13).trans (rfl)
  have e21_5 : fldN _ 21 5 = 0 := (fldN_pack F 21 5).trans (by have := v.isLt; simp [look, fldN]; omega)
  have f20 : fld _ 20 1 = v := fld_pack F (fldN_self v)
  have f14 : fld _ 14 6 = o.a := fld_pack F (fldN_self o.a)
  have f13 : fld _ 13 1 = o.c := fld_pack F (fldN_self o.c)
  generalize pack [(26, 24), (20, v.toNat), (14, o.a.toNat), (13, o.c.toNat), (0, 13)] = n at *
  rw [decS18_of m]
  simp [decS18, e0_4, e0_13, e21_5, f20, f14, f13]

theorem fwaitaReg (o : RFlag) : Statement (.fwaitaReg o) := by
  intro st hs hw; cases hs
  have F : Fits 32 [(26, 24), (14, o.a.toNat), (13, o.c.toNat), (0, 14)] :=
    ⟨by decide, by decide, by decide, lt_of_isLt o.a (by decide), by decide, lt_of_isLt o.c (by decide), by decide, by decide, trivial⟩
  refine decode_of (n := pack [(26, 24), (14, o.a.toNat), (13, o.c.toNat), (0, 14)]) rfl (pos_of_look (k := 0) (len := 4) F rfl) (pack_lt F) ?_ hw
  have m : fldN _ 26 6 = 24 := (fldN_pack F 26 6).trans rfl
  have e0_4 : fldN _ 0 4 = 14 := (fldN_pack F 0 4).trans (rfl)
  have e0_13 : fldN _ 0 13 = 14 := (fldN_pack F 0 13).trans (rfl)
  have e20_6 : fldN _ 20 6 = 0 := (fldN_pack F 20 6).trans (by have := o.a.isLt; simp [look, fldN]; omega)
  have f14 : fld _ 14 6 = o.a := fld_pack F (fldN_self o.a)
  have f13 : fld _ 13 1 = o.c := fld_pack F (fldN_self o.c)
  generalize pack [(26, 24), (14, o.a.toNat), (13, o.c.toNat), (0, 14)] = n at *
  rw [decS18_of m]
  simp [decS18, e0_4, e0_13, e20_6, f14, f13]

theorem qput (a : GReg) (q : BitVec 4) : Statement (.qput a q) := by
  intro st hs hw; cases hs
  have F : Fits 32 [(26, 26), (14, a.toNat), (10, q.toNat)] :=
    ⟨by decide, by decide, by decide, lt_of_isLt a (by decide), by decide, lt_of_isLt q (by decide), trivial⟩
  refine decode_of (n := pack [(26, 26), (14, a.toNat), (10, q.toNat)]) rfl (pos_of_look (k := 26) (len := 5) F rfl) (pack_lt F) ?_ hw
  have m : fldN _ 26 6 = 26 := (fldN_pack F 26 6).trans rfl
  have e0_10 : fldN _ 0 10 = 0 := (fldN_pack F 0 10).trans (rfl)
  have e20_6 : fldN _ 20 6 = 0 := (fldN_pack F 20 6).trans (by have := a.isLt; simp [look, fldN]; omega)
  have f14 : fld _ 14 6 = a := fld_pack F (fldN_self a)
  have f10 : fld _ 10 4 = q := fld_pack F (fldN_self q)
  generalize pack [(26, 26), (14, a.toNat), (10, q.toNat)] = n at *
  rw [decS1a_of m]
  simp [decS1a, e0_10, e20_6, f14, f10]

theorem qputToken (q : BitVec 4) : Statement (.qputToken q) := by
  intro st hs hw; cases hs
  have F : Fits 32 [(26, 26), (10, q.toNat), (0, 4)] :=
    ⟨by decide, by decide, by decide, lt_of_isLt q (by decide), by decide, by decide, trivial⟩
  refine decode_of (n := pack [(26, 26), (10, q.toNat), (0, 4)]) rfl (pos_of_look (k := 0) (len := 3) F rfl) (pack_lt F) ?_ hw
  have m : fldN _ 26 6 = 26 := (fldN_pack F 26 6).trans rfl
  have e0_10 : fldN _ 0 10 = 4 := (fldN_pack F 0 10).trans (rfl)
  have e14_12 : fldN _ 14 12 = 0 := (fldN_pack F 14 12).trans (by have := q.isLt; simp [look, fldN]; omega)
  have f10 : fld _ 10 4 = q := fld_pack F (fldN_self q)
  generalize pack [(26, 26), (10, q.toNat), (0, 4)] = n at *
  rw [decS1a_of m]
  simp [decS1a, e0_10, e14_12, f10]

theorem qget (d : GReg) (q : BitVec 4) : Statement (.qget d q) := by
  intro st hs hw; cases hs
  have F : Fits 32 [(26, 26), (20, d.toNat), (10, q.toNat), (0, 1)] :=
    ⟨by decide, by decide, by decide, lt_of_isLt d (by decide), by decide, lt_of_isLt q (by decide), by decide, by decide, trivial⟩
  refine decode_of (n := pack [(26, 26), (20, d.toNat), (10, q.toNat), (0, 1)]) rfl (pos_of_look (k := 0) (len := 1) F rfl) (pack_lt F) ?_ hw
  have m : fldN _ 26 6 = 26 := (fldN_pack F 26 6).trans rfl
  have e0_10 : fldN _ 0 10 = 1 := (fldN_pack F 0 10).trans (rfl)
  have e14_6 : fldN _ 14 6 = 0 := (fldN_pack F 14 6).trans (by have := q.isLt; simp [look, fldN]; omega)
  have f20 : fld _ 20 6 = d := fld_pack F (fldN_self d)
  have f10 : fld _ 10 4 = q := fld_pack F (fldN_self q)
  generalize pack [(26, 26), (20, d.toNat), (10, q.toNat), (0, 1)] = n at *
  rw [decS1a_of m]
  simp [decS1a, e0_10, e14_6, f20, f10]

theorem qpeek (d : GReg) (q : BitVec 4) : Statement (.qpeek d q) := by
  intro st hs hw; cases hs
  have F : Fits 32 [(26, 26), (20, d.toNat), (10, q.toNat), (0, 2)] :=
    ⟨by decide, by decide, by decide, lt_of_isLt d (by decide), by decide, lt_of_isLt q (by decide), by decide, by decide, trivial⟩
  refine decode_of (n := pack [(26, 26), (20, d.toNat), (10, q.toNat), (0, 2)]) rfl (pos_of_look (k := 0) (len := 2) F rfl) (pack_lt F) ?_ hw
  have m : fldN _ 26 6 = 26 := (fldN_pack F 26 6).trans rfl
  have e0_10 : fldN _ 0 10 = 2 := (fldN_pack F 0 10).trans (rfl)
  have e14_6 : fldN _ 14 6 = 0 := (fldN_pack F 14 6).trans (by have := q.isLt; simp [look, fldN]; omega)
  have f20 : fld _ 20 6 = d := fld_pack F (fldN_self d)
  have f10 : fld _ 10 4 = q := fld_pack F (fldN_self q)
  generalize pack [(26, 26), (20, d.toNat), (10, q.toNat), (0, 2)] = n at *
  rw [decS1a_of m]
  simp [decS1a, e0_10, e14_6, f20, f10]

theorem qcnt (d : GReg) (q : BitVec 4) : Statement (.qcnt d q) := by
  intro st hs hw; cases hs
  have F : Fits 32 [(26, 26), (20, d.toNat), (10, q.toNat), (0, 3)] :=
    ⟨by decide, by decide, by decide, lt_of_isLt d (by decide), by decide, lt_of_isLt q (by decide), by decide, by decide, trivial⟩
  refine decode_of (n := pack [(26, 26), (20, d.toNat), (10, q.toNat), (0, 3)]) rfl (pos_of_look (k := 0) (len := 2) F rfl) (pack_lt F) ?_ hw
  have m : fldN _ 26 6 = 26 := (fldN_pack F 26 6).trans rfl
  have e0_10 : fldN _ 0 10 = 3 := (fldN_pack F 0 10).trans (rfl)
  have e14_6 : fldN _ 14 6 = 0 := (fldN_pack F 14 6).trans (by have := q.isLt; simp [look, fldN]; omega)
  have f20 : fld _ 20 6 = d := fld_pack F (fldN_self d)
  have f10 : fld _ 10 4 = q := fld_pack F (fldN_self q)
  generalize pack [(26, 26), (20, d.toNat), (10, q.toNat), (0, 3)] = n at *
  rw [decS1a_of m]
  simp [decS1a, e0_10, e14_6, f20, f10]

theorem ld (o : RMem) : Statement (.ld o) := by
  intro st hs hw; cases hs
  have F : Fits 32 [(26, 32), (20, o.d.toNat), (14, o.a.toNat), (12, o.z.toNat), (10, o.p.toNat), (0, o.o.toNat)] :=
    ⟨by decide, by decide, by decide, lt_of_isLt o.d (by decide), by decide, lt_of_isLt o.a (by decide), by decide, lt_of_isLt o.z (by decide), by decide, lt_of_isLt o.p (by decide), by decide, lt_of_isLt o.o (by decide), trivial⟩
  refine decode_of (n := pack [(26, 32), (20, o.d.toNat), (14, o.a.toNat), (12, o.z.toNat), (10, o.p.toNat), (0, o.o.toNat)]) rfl (pos_of_look (k := 26) (len := 6) F rfl) (pack_lt F) ?_ hw
  have m : fldN _ 26 6 = 32 := (fldN_pack F 26 6).trans rfl
  have f20 : fld _ 20 6 = o.d := fld_pack F (fldN_self o.d)
  have f14 : fld _ 14 6 = o.a := fld_pack F (fldN_self o.a)
  have f12 : fld _ 12 2 = o.z := fld_pack F (fldN_self o.z)
  have f10 : fld _ 10 2 = o.p := fld_pack F (fldN_self o.p)
  have f0 : fld _ 0 10 = o.o := fld_pack F (fldN_self o.o)
  generalize pack [(26, 32), (20, o.d.toNat), (14, o.a.toNat), (12, o.z.toNat), (10, o.p.toNat), (0, o.o.toNat)] = n at *
  rw [decS20_of m]
  simp [decS20, f20, f14, f12, f10, f0]

theorem ldz (o : RMem) : Statement (.ldz o) := by
  intro st hs hw; cases hs
  have F : Fits 32 [(26, 33), (20, o.d.toNat), (14, o.a.toNat), (12, o.z.toNat), (10, o.p.toNat), (0, o.o.toNat)] :=
    ⟨by decide, by decide, by decide, lt_of_isLt o.d (by decide), by decide, lt_of_isLt o.a (by decide), by decide, lt_of_isLt o.z (by decide), by decide, lt_of_isLt o.p (by decide), by decide, lt_of_isLt o.o (by decide), trivial⟩
  refine decode_of (n := pack [(26, 33), (20, o.d.toNat), (14, o.a.toNat), (12, o.z.toNat), (10, o.p.toNat), (0, o.o.toNat)]) rfl (pos_of_look (k := 26) (len := 6) F rfl) (pack_lt F) ?_ hw
  have m : fldN _ 26 6 = 33 := (fldN_pack F 26 6).trans rfl
  have f20 : fld _ 20 6 = o.d := fld_pack F (fldN_self o.d)
  have f14 : fld _ 14 6 = o.a := fld_pack F (fldN_self o.a)
  have f12 : fld _ 12 2 = o.z := fld_pack F (fldN_self o.z)
  have f10 : fld _ 10 2 = o.p := fld_pack F (fldN_self o.p)
  have f0 : fld _ 0 10 = o.o := fld_pack F (fldN_self o.o)
  generalize pack [(26, 33), (20, o.d.toNat), (14, o.a.toNat), (12, o.z.toNat), (10, o.p.toNat), (0, o.o.toNat)] = n at *
  rw [decS21_of m]
  simp [decS21, f20, f14, f12, f10, f0]

theorem st (o : RMem) : Statement (.st o) := by
  intro st hs hw; cases hs
  have F : Fits 32 [(26, 34), (20, o.d.toNat), (14, o.a.toNat), (12, o.z.toNat), (10, o.p.toNat), (0, o.o.toNat)] :=
    ⟨by decide, by decide, by decide, lt_of_isLt o.d (by decide), by decide, lt_of_isLt o.a (by decide), by decide, lt_of_isLt o.z (by decide), by decide, lt_of_isLt o.p (by decide), by decide, lt_of_isLt o.o (by decide), trivial⟩
  refine decode_of (n := pack [(26, 34), (20, o.d.toNat), (14, o.a.toNat), (12, o.z.toNat), (10, o.p.toNat), (0, o.o.toNat)]) rfl (pos_of_look (k := 26) (len := 6) F rfl) (pack_lt F) ?_ hw
  have m : fldN _ 26 6 = 34 := (fldN_pack F 26 6).trans rfl
  have f20 : fld _ 20 6 = o.d := fld_pack F (fldN_self o.d)
  have f14 : fld _ 14 6 = o.a := fld_pack F (fldN_self o.a)
  have f12 : fld _ 12 2 = o.z := fld_pack F (fldN_self o.z)
  have f10 : fld _ 10 2 = o.p := fld_pack F (fldN_self o.p)
  have f0 : fld _ 0 10 = o.o := fld_pack F (fldN_self o.o)
  generalize pack [(26, 34), (20, o.d.toNat), (14, o.a.toNat), (12, o.z.toNat), (10, o.p.toNat), (0, o.o.toNat)] = n at *
  rw [decS22_of m]
  simp [decS22, f20, f14, f12, f10, f0]

theorem ldnc (o : RMemNc) : Statement (.ldnc o) := by
  intro st hs hw; cases hs
  have F : Fits 32 [(26, 35), (20, o.d.toNat), (14, o.a.toNat), (12, o.z.toNat), (10, 1), (0, o.o.toNat)] :=
    ⟨by decide, by decide, by decide, lt_of_isLt o.d (by decide), by decide, lt_of_isLt o.a (by decide), by decide, lt_of_isLt o.z (by decide), by decide, by decide, by decide, lt_of_isLt o.o (by decide), trivial⟩
  refine decode_of (n := pack [(26, 35), (20, o.d.toNat), (14, o.a.toNat), (12, o.z.toNat), (10, 1), (0, o.o.toNat)]) rfl (pos_of_look (k := 10) (len := 1) F rfl) (pack_lt F) ?_ hw
  have m : fldN _ 26 6 = 35 := (fldN_pack F 26 6).trans rfl
  have e10_2 : fldN _ 10 2 = 1 := (fldN_pack F 10 2).trans (rfl)
  have f20 : fld _ 20 6 = o.d := fld_pack F (fldN_self o.d)
  have f14 : fld _ 14 6 = o.a := fld_pack F (fldN_self o.a)
  have f12 : fld _ 12 2 = o.z := fld_pack F (fldN_self o.z)
  have f0 : fld _ 0 10 = o.o := fld_pack F (fldN_self o.o)
  generalize pack [(26, 35), (20, o.d.toNat), (14, o.a.toNat), (12, o.z.toNat), (10, 1), (0, o.o.toNat)] = n at *
  rw [decS23_of m]
  simp [decS23, e10_2, f20, f14, f12, f0]

theorem ldsl (o : RI) : Statement (.ldsl o) := by
  intro st hs hw; cases hs
  have F : Fits 32 [(26, 36), (20, o.d.toNat), (14, o.a.toNat), (0, o.imm.toNat)] :=
    ⟨by decide, by decide, by decide, lt_of_isLt o.d (by decide), by decide, lt_of_isLt o.a (by decide), by decide, lt_of_isLt o.imm (by decide), trivial⟩
  refine decode_of (n := pack [(26, 36), (20, o.d.toNat), (14, o.a.toNat), (0, o.imm.toNat)]) rfl (pos_of_look (k := 26) (len := 6) F rfl) (pack_lt F) ?_ hw
  have m : fldN _ 26 6 = 36 := (fldN_pack F 26 6).trans rfl
  have f20 : fld _ 20 6 = o.d := fld_pack F (fldN_self o.d)
  have f14 : fld _ 14 6 = o.a := fld_pack F (fldN_self o.a)
  have f0 : fld _ 0 14 = o.imm := fld_pack F (fldN_self o.imm)
  generalize pack [(26, 36), (20, o.d.toNat), (14, o.a.toNat), (0, o.imm.toNat)] = n at *
  rw [decS24_of m]
  simp [decS24, f20, f14, f0]

theorem stsl (o : RI) : Statement (.stsl o) := by
  intro st hs hw; cases hs
  have F : Fits 32 [(26, 37), (20, o.d.toNat), (14, o.a.toNat), (0, o.imm.toNat)] :=
    ⟨by decide, by decide, by decide, lt_of_isLt o.d (by decide), by decide, lt_of_isLt o.a (by decide), by decide, lt_of_isLt o.imm (by decide), trivial⟩
  refine decode_of (n := pack [(26, 37), (20, o.d.toNat), (14, o.a.toNat), (0, o.imm.toNat)]) rfl (pos_of_look (k := 26) (len := 6) F rfl) (pack_lt F) ?_ hw
  have m : fldN _ 26 6 = 37 := (fldN_pack F 26 6).trans rfl
  have f20 : fld _ 20 6 = o.d := fld_pack F (fldN_self o.d)
  have f14 : fld _ 14 6 = o.a := fld_pack F (fldN_self o.a)
  have f0 : fld _ 0 14 = o.imm := fld_pack F (fldN_self o.imm)
  generalize pack [(26, 37), (20, o.d.toNat), (14, o.a.toNat), (0, o.imm.toNat)] = n at *
  rw [decS25_of m]
  simp [decS25, f20, f14, f0]

theorem atom (o : RAtom) : Statement (.atom o) := by
  intro st hs hw; cases hs
  have F : Fits 32 [(26, 40), (20, o.d.toNat), (14, o.a.toNat), (13, o.z.toNat), (4, o.o.toNat), (2, o.r.toNat), (0, o.s.toNat)] :=
    ⟨by decide, by decide, by decide, lt_of_isLt o.d (by decide), by decide, lt_of_isLt o.a (by decide), by decide, lt_of_isLt o.z (by decide), by decide, lt_of_isLt o.o (by decide), by decide, lt_of_isLt o.r (by decide), by decide, lt_of_isLt o.s (by decide), trivial⟩
  refine decode_of (n := pack [(26, 40), (20, o.d.toNat), (14, o.a.toNat), (13, o.z.toNat), (4, o.o.toNat), (2, o.r.toNat), (0, o.s.toNat)]) rfl (pos_of_look (k := 26) (len := 6) F rfl) (pack_lt F) ?_ hw
  have m : fldN _ 26 6 = 40 := (fldN_pack F 26 6).trans rfl
  have e8_5 : fldN _ 8 5 = 0 := (fldN_pack F 8 5).trans (by have := o.o.isLt; simp [look, fldN]; omega)
  have f20 : fld _ 20 6 = o.d := fld_pack F (fldN_self o.d)
  have f14 : fld _ 14 6 = o.a := fld_pack F (fldN_self o.a)
  have f13 : fld _ 13 1 = o.z := fld_pack F (fldN_self o.z)
  have f4 : fld _ 4 4 = o.o := fld_pack F (fldN_self o.o)
  have f2 : fld _ 2 2 = o.r := fld_pack F (fldN_self o.r)
  have f0 : fld _ 0 2 = o.s := fld_pack F (fldN_self o.s)
  generalize pack [(26, 40), (20, o.d.toNat), (14, o.a.toNat), (13, o.z.toNat), (4, o.o.toNat), (2, o.r.toNat), (0, o.s.toNat)] = n at *
  rw [decS28_of m]
  simp [decS28, e8_5, f20, f14, f13, f4, f2, f0]

theorem acas (o : RCas) : Statement (.acas o) := by
  intro st hs hw; cases hs
  have F : Fits 32 [(26, 41), (20, o.d.toNat), (14, o.a.toNat), (8, o.b.toNat), (7, o.z.toNat), (2, o.r.toNat), (0, o.s.toNat)] :=
    ⟨by decide, by decide, by decide, lt_of_isLt o.d (by decide), by decide, lt_of_isLt o.a (by decide), by decide, lt_of_isLt o.b (by decide), by decide, lt_of_isLt o.z (by decide), by decide, lt_of_isLt o.r (by decide), by decide, lt_of_isLt o.s (by decide), trivial⟩
  refine decode_of (n := pack [(26, 41), (20, o.d.toNat), (14, o.a.toNat), (8, o.b.toNat), (7, o.z.toNat), (2, o.r.toNat), (0, o.s.toNat)]) rfl (pos_of_look (k := 26) (len := 6) F rfl) (pack_lt F) ?_ hw
  have m : fldN _ 26 6 = 41 := (fldN_pack F 26 6).trans rfl
  have e4_3 : fldN _ 4 3 = 0 := (fldN_pack F 4 3).trans (by have := o.r.isLt; simp [look, fldN]; omega)
  have f20 : fld _ 20 6 = o.d := fld_pack F (fldN_self o.d)
  have f14 : fld _ 14 6 = o.a := fld_pack F (fldN_self o.a)
  have f8 : fld _ 8 6 = o.b := fld_pack F (fldN_self o.b)
  have f7 : fld _ 7 1 = o.z := fld_pack F (fldN_self o.z)
  have f2 : fld _ 2 2 = o.r := fld_pack F (fldN_self o.r)
  have f0 : fld _ 0 2 = o.s := fld_pack F (fldN_self o.s)
  generalize pack [(26, 41), (20, o.d.toNat), (14, o.a.toNat), (8, o.b.toNat), (7, o.z.toNat), (2, o.r.toNat), (0, o.s.toNat)] = n at *
  rw [decS29_of m]
  simp [decS29, e4_3, f20, f14, f8, f7, f2, f0]

theorem aagg (o : RAgg) : Statement (.aagg o) := by
  intro st hs hw; cases hs
  have F : Fits 32 [(26, 42), (20, o.d.toNat), (14, o.a.toNat), (13, o.z.toNat), (2, o.r.toNat), (0, o.s.toNat)] :=
    ⟨by decide, by decide, by decide, lt_of_isLt o.d (by decide), by decide, lt_of_isLt o.a (by decide), by decide, lt_of_isLt o.z (by decide), by decide, lt_of_isLt o.r (by decide), by decide, lt_of_isLt o.s (by decide), trivial⟩
  refine decode_of (n := pack [(26, 42), (20, o.d.toNat), (14, o.a.toNat), (13, o.z.toNat), (2, o.r.toNat), (0, o.s.toNat)]) rfl (pos_of_look (k := 26) (len := 6) F rfl) (pack_lt F) ?_ hw
  have m : fldN _ 26 6 = 42 := (fldN_pack F 26 6).trans rfl
  have e3_10 : fldN _ 3 10 = 0 := (fldN_pack F 3 10).trans (by have := o.r.isLt; simp [look, fldN]; omega)
  have f20 : fld _ 20 6 = o.d := fld_pack F (fldN_self o.d)
  have f14 : fld _ 14 6 = o.a := fld_pack F (fldN_self o.a)
  have f13 : fld _ 13 1 = o.z := fld_pack F (fldN_self o.z)
  have f2 : fld _ 2 1 = o.r := fld_pack F (fldN_self o.r)
  have f0 : fld _ 0 2 = o.s := fld_pack F (fldN_self o.s)
  generalize pack [(26, 42), (20, o.d.toNat), (14, o.a.toNat), (13, o.z.toNat), (2, o.r.toNat), (0, o.s.toNat)] = n at *
  rw [decS2a_of m]
  simp [decS2a, e3_10, f20, f14, f13, f2, f0]

theorem rcsnap (o : RSnap) : Statement (.rcsnap o) := by
  intro st hs hw; cases hs
  have F : Fits 32 [(26, 43), (14, o.a.toNat), (8, o.b.toNat), (0, o.n.toNat)] :=
    ⟨by decide, by decide, by decide, lt_of_isLt o.a (by decide), by decide, lt_of_isLt o.b (by decide), by decide, lt_of_isLt o.n (by decide), trivial⟩
  refine decode_of (n := pack [(26, 43), (14, o.a.toNat), (8, o.b.toNat), (0, o.n.toNat)]) rfl (pos_of_look (k := 26) (len := 6) F rfl) (pack_lt F) ?_ hw
  have m : fldN _ 26 6 = 43 := (fldN_pack F 26 6).trans rfl
  have e20_6 : fldN _ 20 6 = 0 := (fldN_pack F 20 6).trans (by have := o.a.isLt; simp [look, fldN]; omega)
  have f14 : fld _ 14 6 = o.a := fld_pack F (fldN_self o.a)
  have f8 : fld _ 8 6 = o.b := fld_pack F (fldN_self o.b)
  have f0 : fld _ 0 8 = o.n := fld_pack F (fldN_self o.n)
  generalize pack [(26, 43), (14, o.a.toNat), (8, o.b.toNat), (0, o.n.toNat)] = n at *
  rw [decS2b_of m]
  simp [decS2b, e20_6, f14, f8, f0]

theorem fenceAcq (s : BitVec 2) : Statement (.fenceAcq s) := by
  intro st hs hw; cases hs
  have F : Fits 32 [(26, 44), (0, s.toNat)] :=
    ⟨by decide, by decide, by decide, lt_of_isLt s (by decide), trivial⟩
  refine decode_of (n := pack [(26, 44), (0, s.toNat)]) rfl (pos_of_look (k := 26) (len := 6) F rfl) (pack_lt F) ?_ hw
  have m : fldN _ 26 6 = 44 := (fldN_pack F 26 6).trans rfl
  have e2_24 : fldN _ 2 24 = 0 := (fldN_pack F 2 24).trans (by have := s.isLt; simp [look, fldN]; omega)
  have f0 : fld _ 0 2 = s := fld_pack F (fldN_self s)
  generalize pack [(26, 44), (0, s.toNat)] = n at *
  rw [decS2c_of m]
  simp [decS2c, e2_24, f0]

theorem fenceRel (s : BitVec 2) : Statement (.fenceRel s) := by
  intro st hs hw; cases hs
  have F : Fits 32 [(26, 44), (2, 4), (0, s.toNat)] :=
    ⟨by decide, by decide, by decide, by decide, by decide, lt_of_isLt s (by decide), trivial⟩
  refine decode_of (n := pack [(26, 44), (2, 4), (0, s.toNat)]) rfl (pos_of_look (k := 2) (len := 3) F rfl) (pack_lt F) ?_ hw
  have m : fldN _ 26 6 = 44 := (fldN_pack F 26 6).trans rfl
  have e2_24 : fldN _ 2 24 = 4 := (fldN_pack F 2 24).trans (rfl)
  have f0 : fld _ 0 2 = s := fld_pack F (fldN_self s)
  generalize pack [(26, 44), (2, 4), (0, s.toNat)] = n at *
  rw [decS2c_of m]
  simp [decS2c, e2_24, f0]

theorem fenceAr (s : BitVec 2) : Statement (.fenceAr s) := by
  intro st hs hw; cases hs
  have F : Fits 32 [(26, 44), (2, 8), (0, s.toNat)] :=
    ⟨by decide, by decide, by decide, by decide, by decide, lt_of_isLt s (by decide), trivial⟩
  refine decode_of (n := pack [(26, 44), (2, 8), (0, s.toNat)]) rfl (pos_of_look (k := 2) (len := 4) F rfl) (pack_lt F) ?_ hw
  have m : fldN _ 26 6 = 44 := (fldN_pack F 26 6).trans rfl
  have e2_24 : fldN _ 2 24 = 8 := (fldN_pack F 2 24).trans (rfl)
  have f0 : fld _ 0 2 = s := fld_pack F (fldN_self s)
  generalize pack [(26, 44), (2, 8), (0, s.toNat)] = n at *
  rw [decS2c_of m]
  simp [decS2c, e2_24, f0]

theorem fenceSc (s : BitVec 2) : Statement (.fenceSc s) := by
  intro st hs hw; cases hs
  have F : Fits 32 [(26, 44), (2, 12), (0, s.toNat)] :=
    ⟨by decide, by decide, by decide, by decide, by decide, lt_of_isLt s (by decide), trivial⟩
  refine decode_of (n := pack [(26, 44), (2, 12), (0, s.toNat)]) rfl (pos_of_look (k := 2) (len := 4) F rfl) (pack_lt F) ?_ hw
  have m : fldN _ 26 6 = 44 := (fldN_pack F 26 6).trans rfl
  have e2_24 : fldN _ 2 24 = 12 := (fldN_pack F 2 24).trans (rfl)
  have f0 : fld _ 0 2 = s := fld_pack F (fldN_self s)
  generalize pack [(26, 44), (2, 12), (0, s.toNat)] = n at *
  rw [decS2c_of m]
  simp [decS2c, e2_24, f0]

theorem fenceInv (s : BitVec 2) : Statement (.fenceInv s) := by
  intro st hs hw; cases hs
  have F : Fits 32 [(26, 44), (2, 16), (0, s.toNat)] :=
    ⟨by decide, by decide, by decide, by decide, by decide, lt_of_isLt s (by decide), trivial⟩
  refine decode_of (n := pack [(26, 44), (2, 16), (0, s.toNat)]) rfl (pos_of_look (k := 2) (len := 5) F rfl) (pack_lt F) ?_ hw
  have m : fldN _ 26 6 = 44 := (fldN_pack F 26 6).trans rfl
  have e2_24 : fldN _ 2 24 = 16 := (fldN_pack F 2 24).trans (rfl)
  have f0 : fld _ 0 2 = s := fld_pack F (fldN_self s)
  generalize pack [(26, 44), (2, 16), (0, s.toNat)] = n at *
  rw [decS2c_of m]
  simp [decS2c, e2_24, f0]

theorem push (o : RPush) : Statement (.push o) := by
  intro st hs hw; cases hs
  have F : Fits 32 [(26, 48), (20, o.e.toNat), (14, o.a.toNat), (0, o.f.toNat)] :=
    ⟨by decide, by decide, by decide, lt_of_isLt o.e (by decide), by decide, lt_of_isLt o.a (by decide), by decide, lt_of_isLt o.f (by decide), trivial⟩
  refine decode_of (n := pack [(26, 48), (20, o.e.toNat), (14, o.a.toNat), (0, o.f.toNat)]) rfl (pos_of_look (k := 26) (len := 6) F rfl) (pack_lt F) ?_ hw
  have m : fldN _ 26 6 = 48 := (fldN_pack F 26 6).trans rfl
  have e10_4 : fldN _ 10 4 = 0 := (fldN_pack F 10 4).trans (by have := o.f.isLt; simp [look, fldN]; omega)
  have f20 : fld _ 20 6 = o.e := fld_pack F (fldN_self o.e)
  have f14 : fld _ 14 6 = o.a := fld_pack F (fldN_self o.a)
  have f0 : fld _ 0 10 = o.f := fld_pack F (fldN_self o.f)
  generalize pack [(26, 48), (20, o.e.toNat), (14, o.a.toNat), (0, o.f.toNat)] = n at *
  rw [decS30_of m]
  simp [decS30, e10_4, f20, f14, f0]

theorem strip (o : RStrip) : Statement (.strip o) := by
  intro st hs hw; cases hs
  have F : Fits 32 [(26, 49), (24, o.c.toNat), (23, o.j.toNat), (21, o.l.toNat), (15, o.g.toNat), (0, o.o.toNat)] :=
    ⟨by decide, by decide, by decide, lt_of_isLt o.c (by decide), by decide, lt_of_isLt o.j (by decide), by decide, lt_of_isLt o.l (by decide), by decide, lt_of_isLt o.g (by decide), by decide, lt_of_isLt o.o (by decide), trivial⟩
  refine decode_of (n := pack [(26, 49), (24, o.c.toNat), (23, o.j.toNat), (21, o.l.toNat), (15, o.g.toNat), (0, o.o.toNat)]) rfl (pos_of_look (k := 26) (len := 6) F rfl) (pack_lt F) ?_ hw
  have m : fldN _ 26 6 = 49 := (fldN_pack F 26 6).trans rfl
  have f24 : fld _ 24 2 = o.c := fld_pack F (fldN_self o.c)
  have f23 : fld _ 23 1 = o.j := fld_pack F (fldN_self o.j)
  have f21 : fld _ 21 2 = o.l := fld_pack F (fldN_self o.l)
  have f15 : fld _ 15 6 = o.g := fld_pack F (fldN_self o.g)
  have f0 : fld _ 0 15 = o.o := fld_pack F (fldN_self o.o)
  generalize pack [(26, 49), (24, o.c.toNat), (23, o.j.toNat), (21, o.l.toNat), (15, o.g.toNat), (0, o.o.toNat)] = n at *
  rw [decS31_of m]
  simp [decS31, f24, f23, f21, f15, f0]

theorem cwait (o : RWait) : Statement (.cwait o) := by
  intro st hs hw; cases hs
  have F : Fits 32 [(26, 50), (14, o.a.toNat), (8, o.b.toNat)] :=
    ⟨by decide, by decide, by decide, lt_of_isLt o.a (by decide), by decide, lt_of_isLt o.b (by decide), trivial⟩
  refine decode_of (n := pack [(26, 50), (14, o.a.toNat), (8, o.b.toNat)]) rfl (pos_of_look (k := 26) (len := 6) F rfl) (pack_lt F) ?_ hw
  have m : fldN _ 26 6 = 50 := (fldN_pack F 26 6).trans rfl
  have e0_8 : fldN _ 0 8 = 0 := (fldN_pack F 0 8).trans (rfl)
  have e20_6 : fldN _ 20 6 = 0 := (fldN_pack F 20 6).trans (by have := o.a.isLt; simp [look, fldN]; omega)
  have f14 : fld _ 14 6 = o.a := fld_pack F (fldN_self o.a)
  have f8 : fld _ 8 6 = o.b := fld_pack F (fldN_self o.b)
  generalize pack [(26, 50), (14, o.a.toNat), (8, o.b.toNat)] = n at *
  rw [decS32_of m]
  simp [decS32, e0_8, e20_6, f14, f8]

theorem meet (o : RMeet) : Statement (.meet o) := by
  intro st hs hw; cases hs
  have F : Fits 32 [(26, 52), (4, o.f.toNat), (0, o.l.toNat)] :=
    ⟨by decide, by decide, by decide, lt_of_isLt o.f (by decide), by decide, lt_of_isLt o.l (by decide), trivial⟩
  refine decode_of (n := pack [(26, 52), (4, o.f.toNat), (0, o.l.toNat)]) rfl (pos_of_look (k := 26) (len := 6) F rfl) (pack_lt F) ?_ hw
  have m : fldN _ 26 6 = 52 := (fldN_pack F 26 6).trans rfl
  have e3_1 : fldN _ 3 1 = 0 := (fldN_pack F 3 1).trans (by have := o.l.isLt; simp [look, fldN]; omega)
  have e6_20 : fldN _ 6 20 = 0 := (fldN_pack F 6 20).trans (by have := o.f.isLt; simp [look, fldN]; omega)
  have f4 : fld _ 4 2 = o.f := fld_pack F (fldN_self o.f)
  have f0 : fld _ 0 3 = o.l := fld_pack F (fldN_self o.l)
  generalize pack [(26, 52), (4, o.f.toNat), (0, o.l.toNat)] = n at *
  rw [decS34_of m]
  simp [decS34, e3_1, e6_20, f4, f0]

theorem launch (o : R2) : Statement (.launch o) := by
  intro st hs hw; cases hs
  have F : Fits 32 [(26, 53), (20, o.d.toNat), (14, o.a.toNat)] :=
    ⟨by decide, by decide, by decide, lt_of_isLt o.d (by decide), by decide, lt_of_isLt o.a (by decide), trivial⟩
  refine decode_of (n := pack [(26, 53), (20, o.d.toNat), (14, o.a.toNat)]) rfl (pos_of_look (k := 26) (len := 6) F rfl) (pack_lt F) ?_ hw
  have m : fldN _ 26 6 = 53 := (fldN_pack F 26 6).trans rfl
  have e0_14 : fldN _ 0 14 = 0 := (fldN_pack F 0 14).trans (rfl)
  have f20 : fld _ 20 6 = o.d := fld_pack F (fldN_self o.d)
  have f14 : fld _ 14 6 = o.a := fld_pack F (fldN_self o.a)
  generalize pack [(26, 53), (20, o.d.toNat), (14, o.a.toNat)] = n at *
  rw [decS35_of m]
  simp [decS35, e0_14, f20, f14]

theorem launchw (o : R2) : Statement (.launchw o) := by
  intro st hs hw; cases hs
  have F : Fits 32 [(26, 53), (20, o.d.toNat), (14, o.a.toNat), (0, 1)] :=
    ⟨by decide, by decide, by decide, lt_of_isLt o.d (by decide), by decide, lt_of_isLt o.a (by decide), by decide, by decide, trivial⟩
  refine decode_of (n := pack [(26, 53), (20, o.d.toNat), (14, o.a.toNat), (0, 1)]) rfl (pos_of_look (k := 0) (len := 1) F rfl) (pack_lt F) ?_ hw
  have m : fldN _ 26 6 = 53 := (fldN_pack F 26 6).trans rfl
  have e0_14 : fldN _ 0 14 = 1 := (fldN_pack F 0 14).trans (rfl)
  have f20 : fld _ 20 6 = o.d := fld_pack F (fldN_self o.d)
  have f14 : fld _ 14 6 = o.a := fld_pack F (fldN_self o.a)
  generalize pack [(26, 53), (20, o.d.toNat), (14, o.a.toNat), (0, 1)] = n at *
  rw [decS35_of m]
  simp [decS35, e0_14, f20, f14]

theorem ringacq (o : R3) : Statement (.ringacq o) := by
  intro st hs hw; cases hs
  have F : Fits 32 [(26, 54), (20, o.d.toNat), (14, o.a.toNat), (8, o.b.toNat)] :=
    ⟨by decide, by decide, by decide, lt_of_isLt o.d (by decide), by decide, lt_of_isLt o.a (by decide), by decide, lt_of_isLt o.b (by decide), trivial⟩
  refine decode_of (n := pack [(26, 54), (20, o.d.toNat), (14, o.a.toNat), (8, o.b.toNat)]) rfl (pos_of_look (k := 26) (len := 6) F rfl) (pack_lt F) ?_ hw
  have m : fldN _ 26 6 = 54 := (fldN_pack F 26 6).trans rfl
  have e0_8 : fldN _ 0 8 = 0 := (fldN_pack F 0 8).trans (rfl)
  have f20 : fld _ 20 6 = o.d := fld_pack F (fldN_self o.d)
  have f14 : fld _ 14 6 = o.a := fld_pack F (fldN_self o.a)
  have f8 : fld _ 8 6 = o.b := fld_pack F (fldN_self o.b)
  generalize pack [(26, 54), (20, o.d.toNat), (14, o.a.toNat), (8, o.b.toNat)] = n at *
  rw [decS36_of m]
  simp [decS36, e0_8, f20, f14, f8]

theorem ringrel (o : R3) : Statement (.ringrel o) := by
  intro st hs hw; cases hs
  have F : Fits 32 [(26, 54), (20, o.d.toNat), (14, o.a.toNat), (8, o.b.toNat), (0, 1)] :=
    ⟨by decide, by decide, by decide, lt_of_isLt o.d (by decide), by decide, lt_of_isLt o.a (by decide), by decide, lt_of_isLt o.b (by decide), by decide, by decide, trivial⟩
  refine decode_of (n := pack [(26, 54), (20, o.d.toNat), (14, o.a.toNat), (8, o.b.toNat), (0, 1)]) rfl (pos_of_look (k := 0) (len := 1) F rfl) (pack_lt F) ?_ hw
  have m : fldN _ 26 6 = 54 := (fldN_pack F 26 6).trans rfl
  have e0_8 : fldN _ 0 8 = 1 := (fldN_pack F 0 8).trans (rfl)
  have f20 : fld _ 20 6 = o.d := fld_pack F (fldN_self o.d)
  have f14 : fld _ 14 6 = o.a := fld_pack F (fldN_self o.a)
  have f8 : fld _ 8 6 = o.b := fld_pack F (fldN_self o.b)
  generalize pack [(26, 54), (20, o.d.toNat), (14, o.a.toNat), (8, o.b.toNat), (0, 1)] = n at *
  rw [decS36_of m]
  simp [decS36, e0_8, f20, f14, f8]

theorem mfs (d : GReg) (r : BitVec 12) : Statement (.mfs d r) := by
  intro st hs hw; cases hs
  have F : Fits 32 [(26, 60), (20, d.toNat), (0, r.toNat)] :=
    ⟨by decide, by decide, by decide, lt_of_isLt d (by decide), by decide, lt_of_isLt r (by decide), trivial⟩
  refine decode_of (n := pack [(26, 60), (20, d.toNat), (0, r.toNat)]) rfl (pos_of_look (k := 26) (len := 6) F rfl) (pack_lt F) ?_ hw
  have m : fldN _ 26 6 = 60 := (fldN_pack F 26 6).trans rfl
  have e12_8 : fldN _ 12 8 = 0 := (fldN_pack F 12 8).trans (by have := r.isLt; simp [look, fldN]; omega)
  have f20 : fld _ 20 6 = d := fld_pack F (fldN_self d)
  have f0 : fld _ 0 12 = r := fld_pack F (fldN_self r)
  generalize pack [(26, 60), (20, d.toNat), (0, r.toNat)] = n at *
  rw [decS3c_of m]
  simp [decS3c, e12_8, f20, f0]

theorem mts (a : GReg) (r : BitVec 12) : Statement (.mts a r) := by
  intro st hs hw; cases hs
  have F : Fits 32 [(26, 61), (14, a.toNat), (0, r.toNat)] :=
    ⟨by decide, by decide, by decide, lt_of_isLt a (by decide), by decide, lt_of_isLt r (by decide), trivial⟩
  refine decode_of (n := pack [(26, 61), (14, a.toNat), (0, r.toNat)]) rfl (pos_of_look (k := 26) (len := 6) F rfl) (pack_lt F) ?_ hw
  have m : fldN _ 26 6 = 61 := (fldN_pack F 26 6).trans rfl
  have e12_2 : fldN _ 12 2 = 0 := (fldN_pack F 12 2).trans (by have := r.isLt; simp [look, fldN]; omega)
  have e20_6 : fldN _ 20 6 = 0 := (fldN_pack F 20 6).trans (by have := a.isLt; simp [look, fldN]; omega)
  have f14 : fld _ 14 6 = a := fld_pack F (fldN_self a)
  have f0 : fld _ 0 12 = r := fld_pack F (fldN_self r)
  generalize pack [(26, 61), (14, a.toNat), (0, r.toNat)] = n at *
  rw [decS3d_of m]
  simp [decS3d, e12_2, e20_6, f14, f0]

theorem colQput (o : CQ) : Statement (.colQput o) := by
  intro st hs hw; cases hs
  have F : Fits 32 [(26, 60), (22, o.gap.toNat), (16, o.q.toNat), (0, o.sel.toNat)] :=
    ⟨by decide, by decide, by decide, lt_of_isLt o.gap (by decide), by decide, lt_of_isLt o.q (by decide), by decide, lt_of_isLt o.sel (by decide), trivial⟩
  refine decode_of (n := pack [(26, 60), (22, o.gap.toNat), (16, o.q.toNat), (0, o.sel.toNat)]) rfl (pos_of_look (k := 26) (len := 6) F rfl) (pack_lt F) ?_ hw
  have m : fldN _ 26 6 = 60 := (fldN_pack F 26 6).trans rfl
  have e20_2 : fldN _ 20 2 = 0 := (fldN_pack F 20 2).trans (by have := o.q.isLt; simp [look, fldN]; omega)
  have f22 : fld _ 22 4 = o.gap := fld_pack F (fldN_self o.gap)
  have f16 : fld _ 16 4 = o.q := fld_pack F (fldN_self o.q)
  have f0 : fld _ 0 16 = o.sel := fld_pack F (fldN_self o.sel)
  generalize pack [(26, 60), (22, o.gap.toNat), (16, o.q.toNat), (0, o.sel.toNat)] = n at *
  have h : rawOf (.col o.col) n = decCommon3c o.col n := by
    cases o.col <;> simp only [rawOf, rawL, rawC, rawW, rawCommon, m]
  rw [h]; simp [decCommon3c, e20_2, f22, f16, f0]

theorem colQget (o : CQ) : Statement (.colQget o) := by
  intro st hs hw; cases hs
  have F : Fits 32 [(26, 60), (22, o.gap.toNat), (20, 2), (16, o.q.toNat), (0, o.sel.toNat)] :=
    ⟨by decide, by decide, by decide, lt_of_isLt o.gap (by decide), by decide, by decide, by decide, lt_of_isLt o.q (by decide), by decide, lt_of_isLt o.sel (by decide), trivial⟩
  refine decode_of (n := pack [(26, 60), (22, o.gap.toNat), (20, 2), (16, o.q.toNat), (0, o.sel.toNat)]) rfl (pos_of_look (k := 20) (len := 2) F rfl) (pack_lt F) ?_ hw
  have m : fldN _ 26 6 = 60 := (fldN_pack F 26 6).trans rfl
  have e20_2 : fldN _ 20 2 = 2 := (fldN_pack F 20 2).trans (rfl)
  have f22 : fld _ 22 4 = o.gap := fld_pack F (fldN_self o.gap)
  have f16 : fld _ 16 4 = o.q := fld_pack F (fldN_self o.q)
  have f0 : fld _ 0 16 = o.sel := fld_pack F (fldN_self o.sel)
  generalize pack [(26, 60), (22, o.gap.toNat), (20, 2), (16, o.q.toNat), (0, o.sel.toNat)] = n at *
  have h : rawOf (.col o.col) n = decCommon3c o.col n := by
    cases o.col <;> simp only [rawOf, rawL, rawC, rawW, rawCommon, m]
  rw [h]; simp [decCommon3c, e20_2, f22, f16, f0]

theorem colFset (o : CF) : Statement (.colFset o) := by
  intro st hs hw; cases hs
  have F : Fits 32 [(26, 61), (22, o.gap.toNat), (0, o.f.toNat)] :=
    ⟨by decide, by decide, by decide, lt_of_isLt o.gap (by decide), by decide, lt_of_isLt o.f (by decide), trivial⟩
  refine decode_of (n := pack [(26, 61), (22, o.gap.toNat), (0, o.f.toNat)]) rfl (pos_of_look (k := 26) (len := 6) F rfl) (pack_lt F) ?_ hw
  have m : fldN _ 26 6 = 61 := (fldN_pack F 26 6).trans rfl
  have e10_12 : fldN _ 10 12 = 0 := (fldN_pack F 10 12).trans (by have := o.f.isLt; simp [look, fldN]; omega)
  have f22 : fld _ 22 4 = o.gap := fld_pack F (fldN_self o.gap)
  have f0 : fld _ 0 10 = o.f := fld_pack F (fldN_self o.f)
  generalize pack [(26, 61), (22, o.gap.toNat), (0, o.f.toNat)] = n at *
  have h : rawOf (.col o.col) n = decCommon3d o.col n := by
    cases o.col <;> simp only [rawOf, rawL, rawC, rawW, rawCommon, m]
  rw [h]; simp [decCommon3d, e10_12, f22, f0]

theorem colFclr (o : CF) : Statement (.colFclr o) := by
  intro st hs hw; cases hs
  have F : Fits 32 [(26, 61), (22, o.gap.toNat), (10, 1024), (0, o.f.toNat)] :=
    ⟨by decide, by decide, by decide, lt_of_isLt o.gap (by decide), by decide, by decide, by decide, lt_of_isLt o.f (by decide), trivial⟩
  refine decode_of (n := pack [(26, 61), (22, o.gap.toNat), (10, 1024), (0, o.f.toNat)]) rfl (pos_of_look (k := 10) (len := 11) F rfl) (pack_lt F) ?_ hw
  have m : fldN _ 26 6 = 61 := (fldN_pack F 26 6).trans rfl
  have e10_12 : fldN _ 10 12 = 1024 := (fldN_pack F 10 12).trans (rfl)
  have f22 : fld _ 22 4 = o.gap := fld_pack F (fldN_self o.gap)
  have f0 : fld _ 0 10 = o.f := fld_pack F (fldN_self o.f)
  generalize pack [(26, 61), (22, o.gap.toNat), (10, 1024), (0, o.f.toNat)] = n at *
  have h : rawOf (.col o.col) n = decCommon3d o.col n := by
    cases o.col <;> simp only [rawOf, rawL, rawC, rawW, rawCommon, m]
  rw [h]; simp [decCommon3d, e10_12, f22, f0]

theorem colFwait (o : CFW) : Statement (.colFwait o) := by
  intro st hs hw; cases hs
  have F : Fits 32 [(26, 61), (22, o.gap.toNat), (20, 2), (19, o.v.toNat), (0, o.f.toNat)] :=
    ⟨by decide, by decide, by decide, lt_of_isLt o.gap (by decide), by decide, by decide, by decide, lt_of_isLt o.v (by decide), by decide, lt_of_isLt o.f (by decide), trivial⟩
  refine decode_of (n := pack [(26, 61), (22, o.gap.toNat), (20, 2), (19, o.v.toNat), (0, o.f.toNat)]) rfl (pos_of_look (k := 20) (len := 2) F rfl) (pack_lt F) ?_ hw
  have m : fldN _ 26 6 = 61 := (fldN_pack F 26 6).trans rfl
  have n10_12_0 : fldN (pack [(26, 61), (22, o.gap.toNat), (20, 2), (19, o.v.toNat), (0, o.f.toNat)]) 10 12 ≠ 0 := by rw [fldN_pack F]; simp [look, fldN] <;> omega
  have n10_12_1024 : fldN (pack [(26, 61), (22, o.gap.toNat), (20, 2), (19, o.v.toNat), (0, o.f.toNat)]) 10 12 ≠ 1024 := by rw [fldN_pack F]; simp [look, fldN] <;> omega
  have e10_9 : fldN _ 10 9 = 0 := (fldN_pack F 10 9).trans (by have := o.f.isLt; simp [look, fldN]; omega)
  have e20_2 : fldN _ 20 2 = 2 := (fldN_pack F 20 2).trans (rfl)
  have f22 : fld _ 22 4 = o.gap := fld_pack F (fldN_self o.gap)
  have f19 : fld _ 19 1 = o.v := fld_pack F (fldN_self o.v)
  have f0 : fld _ 0 10 = o.f := fld_pack F (fldN_self o.f)
  generalize pack [(26, 61), (22, o.gap.toNat), (20, 2), (19, o.v.toNat), (0, o.f.toNat)] = n at *
  have h : rawOf (.col o.col) n = decCommon3d o.col n := by
    cases o.col <;> simp only [rawOf, rawL, rawC, rawW, rawCommon, m]
  rw [h]; simp [decCommon3d, n10_12_0, n10_12_1024, e10_9, e20_2, f22, f19, f0]

theorem nopg (o : CN) : Statement (.nopg o) := by
  intro st hs hw; cases hs
  have F : Fits 32 [(26, 62), (22, o.gap.toNat), (0, o.n.toNat)] :=
    ⟨by decide, by decide, by decide, lt_of_isLt o.gap (by decide), by decide, lt_of_isLt o.n (by decide), trivial⟩
  refine decode_of (n := pack [(26, 62), (22, o.gap.toNat), (0, o.n.toNat)]) rfl (pos_of_look (k := 26) (len := 6) F rfl) (pack_lt F) ?_ hw
  have m : fldN _ 26 6 = 62 := (fldN_pack F 26 6).trans rfl
  have e16_6 : fldN _ 16 6 = 0 := (fldN_pack F 16 6).trans (by have := o.n.isLt; simp [look, fldN]; omega)
  have f22 : fld _ 22 4 = o.gap := fld_pack F (fldN_self o.gap)
  have f0 : fld _ 0 16 = o.n := fld_pack F (fldN_self o.n)
  generalize pack [(26, 62), (22, o.gap.toNat), (0, o.n.toNat)] = n at *
  have h : rawOf (.col o.col) n = decCommon3e o.col n := by
    cases o.col <;> simp only [rawOf, rawL, rawC, rawW, rawCommon, m]
  rw [h]; simp [decCommon3e, e16_6, f22, f0]

theorem vadd (o : V3) : Statement (.vadd o) := by
  intro st hs hw; cases hs
  have F : Fits 32 [(26, 1), (22, o.gap.toNat), (17, o.d.toNat), (12, o.a.toNat), (7, o.b.toNat), (4, o.k.toNat)] :=
    ⟨by decide, by decide, by decide, lt_of_isLt o.gap (by decide), by decide, lt_of_isLt o.d (by decide), by decide, lt_of_isLt o.a (by decide), by decide, lt_of_isLt o.b (by decide), by decide, lt_of_isLt o.k (by decide), trivial⟩
  refine decode_of (n := pack [(26, 1), (22, o.gap.toNat), (17, o.d.toNat), (12, o.a.toNat), (7, o.b.toNat), (4, o.k.toNat)]) rfl (pos_of_look (k := 26) (len := 1) F rfl) (pack_lt F) ?_ hw
  have m : fldN _ 26 6 = 1 := (fldN_pack F 26 6).trans rfl
  have e0_4 : fldN _ 0 4 = 0 := (fldN_pack F 0 4).trans (rfl)
  have f22 : fld _ 22 4 = o.gap := fld_pack F (fldN_self o.gap)
  have f17 : fld _ 17 5 = o.d := fld_pack F (fldN_self o.d)
  have f12 : fld _ 12 5 = o.a := fld_pack F (fldN_self o.a)
  have f7 : fld _ 7 5 = o.b := fld_pack F (fldN_self o.b)
  have f4 : fld _ 4 3 = o.k := fld_pack F (fldN_self o.k)
  generalize pack [(26, 1), (22, o.gap.toNat), (17, o.d.toNat), (12, o.a.toNat), (7, o.b.toNat), (4, o.k.toNat)] = n at *
  rw [decC01_of m]
  simp [decC01, e0_4, f22, f17, f12, f7, f4]

theorem vsub (o : V3) : Statement (.vsub o) := by
  intro st hs hw; cases hs
  have F : Fits 32 [(26, 1), (22, o.gap.toNat), (17, o.d.toNat), (12, o.a.toNat), (7, o.b.toNat), (4, o.k.toNat), (0, 1)] :=
    ⟨by decide, by decide, by decide, lt_of_isLt o.gap (by decide), by decide, lt_of_isLt o.d (by decide), by decide, lt_of_isLt o.a (by decide), by decide, lt_of_isLt o.b (by decide), by decide, lt_of_isLt o.k (by decide), by decide, by decide, trivial⟩
  refine decode_of (n := pack [(26, 1), (22, o.gap.toNat), (17, o.d.toNat), (12, o.a.toNat), (7, o.b.toNat), (4, o.k.toNat), (0, 1)]) rfl (pos_of_look (k := 0) (len := 1) F rfl) (pack_lt F) ?_ hw
  have m : fldN _ 26 6 = 1 := (fldN_pack F 26 6).trans rfl
  have e0_4 : fldN _ 0 4 = 1 := (fldN_pack F 0 4).trans (rfl)
  have f22 : fld _ 22 4 = o.gap := fld_pack F (fldN_self o.gap)
  have f17 : fld _ 17 5 = o.d := fld_pack F (fldN_self o.d)
  have f12 : fld _ 12 5 = o.a := fld_pack F (fldN_self o.a)
  have f7 : fld _ 7 5 = o.b := fld_pack F (fldN_self o.b)
  have f4 : fld _ 4 3 = o.k := fld_pack F (fldN_self o.k)
  generalize pack [(26, 1), (22, o.gap.toNat), (17, o.d.toNat), (12, o.a.toNat), (7, o.b.toNat), (4, o.k.toNat), (0, 1)] = n at *
  rw [decC01_of m]
  simp [decC01, e0_4, f22, f17, f12, f7, f4]

theorem vmul (o : V3) : Statement (.vmul o) := by
  intro st hs hw; cases hs
  have F : Fits 32 [(26, 1), (22, o.gap.toNat), (17, o.d.toNat), (12, o.a.toNat), (7, o.b.toNat), (4, o.k.toNat), (0, 2)] :=
    ⟨by decide, by decide, by decide, lt_of_isLt o.gap (by decide), by decide, lt_of_isLt o.d (by decide), by decide, lt_of_isLt o.a (by decide), by decide, lt_of_isLt o.b (by decide), by decide, lt_of_isLt o.k (by decide), by decide, by decide, trivial⟩
  refine decode_of (n := pack [(26, 1), (22, o.gap.toNat), (17, o.d.toNat), (12, o.a.toNat), (7, o.b.toNat), (4, o.k.toNat), (0, 2)]) rfl (pos_of_look (k := 0) (len := 2) F rfl) (pack_lt F) ?_ hw
  have m : fldN _ 26 6 = 1 := (fldN_pack F 26 6).trans rfl
  have e0_4 : fldN _ 0 4 = 2 := (fldN_pack F 0 4).trans (rfl)
  have f22 : fld _ 22 4 = o.gap := fld_pack F (fldN_self o.gap)
  have f17 : fld _ 17 5 = o.d := fld_pack F (fldN_self o.d)
  have f12 : fld _ 12 5 = o.a := fld_pack F (fldN_self o.a)
  have f7 : fld _ 7 5 = o.b := fld_pack F (fldN_self o.b)
  have f4 : fld _ 4 3 = o.k := fld_pack F (fldN_self o.k)
  generalize pack [(26, 1), (22, o.gap.toNat), (17, o.d.toNat), (12, o.a.toNat), (7, o.b.toNat), (4, o.k.toNat), (0, 2)] = n at *
  rw [decC01_of m]
  simp [decC01, e0_4, f22, f17, f12, f7, f4]

theorem vmin (o : V3) : Statement (.vmin o) := by
  intro st hs hw; cases hs
  have F : Fits 32 [(26, 1), (22, o.gap.toNat), (17, o.d.toNat), (12, o.a.toNat), (7, o.b.toNat), (4, o.k.toNat), (0, 3)] :=
    ⟨by decide, by decide, by decide, lt_of_isLt o.gap (by decide), by decide, lt_of_isLt o.d (by decide), by decide, lt_of_isLt o.a (by decide), by decide, lt_of_isLt o.b (by decide), by decide, lt_of_isLt o.k (by decide), by decide, by decide, trivial⟩
  refine decode_of (n := pack [(26, 1), (22, o.gap.toNat), (17, o.d.toNat), (12, o.a.toNat), (7, o.b.toNat), (4, o.k.toNat), (0, 3)]) rfl (pos_of_look (k := 0) (len := 2) F rfl) (pack_lt F) ?_ hw
  have m : fldN _ 26 6 = 1 := (fldN_pack F 26 6).trans rfl
  have e0_4 : fldN _ 0 4 = 3 := (fldN_pack F 0 4).trans (rfl)
  have f22 : fld _ 22 4 = o.gap := fld_pack F (fldN_self o.gap)
  have f17 : fld _ 17 5 = o.d := fld_pack F (fldN_self o.d)
  have f12 : fld _ 12 5 = o.a := fld_pack F (fldN_self o.a)
  have f7 : fld _ 7 5 = o.b := fld_pack F (fldN_self o.b)
  have f4 : fld _ 4 3 = o.k := fld_pack F (fldN_self o.k)
  generalize pack [(26, 1), (22, o.gap.toNat), (17, o.d.toNat), (12, o.a.toNat), (7, o.b.toNat), (4, o.k.toNat), (0, 3)] = n at *
  rw [decC01_of m]
  simp [decC01, e0_4, f22, f17, f12, f7, f4]

theorem vmax (o : V3) : Statement (.vmax o) := by
  intro st hs hw; cases hs
  have F : Fits 32 [(26, 1), (22, o.gap.toNat), (17, o.d.toNat), (12, o.a.toNat), (7, o.b.toNat), (4, o.k.toNat), (0, 4)] :=
    ⟨by decide, by decide, by decide, lt_of_isLt o.gap (by decide), by decide, lt_of_isLt o.d (by decide), by decide, lt_of_isLt o.a (by decide), by decide, lt_of_isLt o.b (by decide), by decide, lt_of_isLt o.k (by decide), by decide, by decide, trivial⟩
  refine decode_of (n := pack [(26, 1), (22, o.gap.toNat), (17, o.d.toNat), (12, o.a.toNat), (7, o.b.toNat), (4, o.k.toNat), (0, 4)]) rfl (pos_of_look (k := 0) (len := 3) F rfl) (pack_lt F) ?_ hw
  have m : fldN _ 26 6 = 1 := (fldN_pack F 26 6).trans rfl
  have e0_4 : fldN _ 0 4 = 4 := (fldN_pack F 0 4).trans (rfl)
  have f22 : fld _ 22 4 = o.gap := fld_pack F (fldN_self o.gap)
  have f17 : fld _ 17 5 = o.d := fld_pack F (fldN_self o.d)
  have f12 : fld _ 12 5 = o.a := fld_pack F (fldN_self o.a)
  have f7 : fld _ 7 5 = o.b := fld_pack F (fldN_self o.b)
  have f4 : fld _ 4 3 = o.k := fld_pack F (fldN_self o.k)
  generalize pack [(26, 1), (22, o.gap.toNat), (17, o.d.toNat), (12, o.a.toNat), (7, o.b.toNat), (4, o.k.toNat), (0, 4)] = n at *
  rw [decC01_of m]
  simp [decC01, e0_4, f22, f17, f12, f7, f4]

theorem vabs (o : V2) : Statement (.vabs o) := by
  intro st hs hw; cases hs
  have F : Fits 32 [(26, 1), (22, o.gap.toNat), (17, o.d.toNat), (12, o.a.toNat), (4, o.k.toNat), (0, 5)] :=
    ⟨by decide, by decide, by decide, lt_of_isLt o.gap (by decide), by decide, lt_of_isLt o.d (by decide), by decide, lt_of_isLt o.a (by decide), by decide, lt_of_isLt o.k (by decide), by decide, by decide, trivial⟩
  refine decode_of (n := pack [(26, 1), (22, o.gap.toNat), (17, o.d.toNat), (12, o.a.toNat), (4, o.k.toNat), (0, 5)]) rfl (pos_of_look (k := 0) (len := 3) F rfl) (pack_lt F) ?_ hw
  have m : fldN _ 26 6 = 1 := (fldN_pack F 26 6).trans rfl
  have e0_4 : fldN _ 0 4 = 5 := (fldN_pack F 0 4).trans (rfl)
  have e7_5 : fldN _ 7 5 = 0 := (fldN_pack F 7 5).trans (by have := o.k.isLt; simp [look, fldN]; omega)
  have f22 : fld _ 22 4 = o.gap := fld_pack F (fldN_self o.gap)
  have f17 : fld _ 17 5 = o.d := fld_pack F (fldN_self o.d)
  have f12 : fld _ 12 5 = o.a := fld_pack F (fldN_self o.a)
  have f4 : fld _ 4 3 = o.k := fld_pack F (fldN_self o.k)
  generalize pack [(26, 1), (22, o.gap.toNat), (17, o.d.toNat), (12, o.a.toNat), (4, o.k.toNat), (0, 5)] = n at *
  rw [decC01_of m]
  simp [decC01, e0_4, e7_5, f22, f17, f12, f4]

theorem vneg (o : V2) : Statement (.vneg o) := by
  intro st hs hw; cases hs
  have F : Fits 32 [(26, 1), (22, o.gap.toNat), (17, o.d.toNat), (12, o.a.toNat), (4, o.k.toNat), (0, 6)] :=
    ⟨by decide, by decide, by decide, lt_of_isLt o.gap (by decide), by decide, lt_of_isLt o.d (by decide), by decide, lt_of_isLt o.a (by decide), by decide, lt_of_isLt o.k (by decide), by decide, by decide, trivial⟩
  refine decode_of (n := pack [(26, 1), (22, o.gap.toNat), (17, o.d.toNat), (12, o.a.toNat), (4, o.k.toNat), (0, 6)]) rfl (pos_of_look (k := 0) (len := 3) F rfl) (pack_lt F) ?_ hw
  have m : fldN _ 26 6 = 1 := (fldN_pack F 26 6).trans rfl
  have e0_4 : fldN _ 0 4 = 6 := (fldN_pack F 0 4).trans (rfl)
  have e7_5 : fldN _ 7 5 = 0 := (fldN_pack F 7 5).trans (by have := o.k.isLt; simp [look, fldN]; omega)
  have f22 : fld _ 22 4 = o.gap := fld_pack F (fldN_self o.gap)
  have f17 : fld _ 17 5 = o.d := fld_pack F (fldN_self o.d)
  have f12 : fld _ 12 5 = o.a := fld_pack F (fldN_self o.a)
  have f4 : fld _ 4 3 = o.k := fld_pack F (fldN_self o.k)
  generalize pack [(26, 1), (22, o.gap.toNat), (17, o.d.toNat), (12, o.a.toNat), (4, o.k.toNat), (0, 6)] = n at *
  rw [decC01_of m]
  simp [decC01, e0_4, e7_5, f22, f17, f12, f4]

theorem vcpsgn (o : V3) : Statement (.vcpsgn o) := by
  intro st hs hw; cases hs
  have F : Fits 32 [(26, 1), (22, o.gap.toNat), (17, o.d.toNat), (12, o.a.toNat), (7, o.b.toNat), (4, o.k.toNat), (0, 7)] :=
    ⟨by decide, by decide, by decide, lt_of_isLt o.gap (by decide), by decide, lt_of_isLt o.d (by decide), by decide, lt_of_isLt o.a (by decide), by decide, lt_of_isLt o.b (by decide), by decide, lt_of_isLt o.k (by decide), by decide, by decide, trivial⟩
  refine decode_of (n := pack [(26, 1), (22, o.gap.toNat), (17, o.d.toNat), (12, o.a.toNat), (7, o.b.toNat), (4, o.k.toNat), (0, 7)]) rfl (pos_of_look (k := 0) (len := 3) F rfl) (pack_lt F) ?_ hw
  have m : fldN _ 26 6 = 1 := (fldN_pack F 26 6).trans rfl
  have e0_4 : fldN _ 0 4 = 7 := (fldN_pack F 0 4).trans (rfl)
  have f22 : fld _ 22 4 = o.gap := fld_pack F (fldN_self o.gap)
  have f17 : fld _ 17 5 = o.d := fld_pack F (fldN_self o.d)
  have f12 : fld _ 12 5 = o.a := fld_pack F (fldN_self o.a)
  have f7 : fld _ 7 5 = o.b := fld_pack F (fldN_self o.b)
  have f4 : fld _ 4 3 = o.k := fld_pack F (fldN_self o.k)
  generalize pack [(26, 1), (22, o.gap.toNat), (17, o.d.toNat), (12, o.a.toNat), (7, o.b.toNat), (4, o.k.toNat), (0, 7)] = n at *
  rw [decC01_of m]
  simp [decC01, e0_4, f22, f17, f12, f7, f4]

theorem vfma (o : V3) : Statement (.vfma o) := by
  intro st hs hw; cases hs
  have F : Fits 32 [(26, 2), (22, o.gap.toNat), (17, o.d.toNat), (12, o.a.toNat), (7, o.b.toNat), (4, o.k.toNat)] :=
    ⟨by decide, by decide, by decide, lt_of_isLt o.gap (by decide), by decide, lt_of_isLt o.d (by decide), by decide, lt_of_isLt o.a (by decide), by decide, lt_of_isLt o.b (by decide), by decide, lt_of_isLt o.k (by decide), trivial⟩
  refine decode_of (n := pack [(26, 2), (22, o.gap.toNat), (17, o.d.toNat), (12, o.a.toNat), (7, o.b.toNat), (4, o.k.toNat)]) rfl (pos_of_look (k := 26) (len := 2) F rfl) (pack_lt F) ?_ hw
  have m : fldN _ 26 6 = 2 := (fldN_pack F 26 6).trans rfl
  have e0_4 : fldN _ 0 4 = 0 := (fldN_pack F 0 4).trans (rfl)
  have f22 : fld _ 22 4 = o.gap := fld_pack F (fldN_self o.gap)
  have f17 : fld _ 17 5 = o.d := fld_pack F (fldN_self o.d)
  have f12 : fld _ 12 5 = o.a := fld_pack F (fldN_self o.a)
  have f7 : fld _ 7 5 = o.b := fld_pack F (fldN_self o.b)
  have f4 : fld _ 4 3 = o.k := fld_pack F (fldN_self o.k)
  generalize pack [(26, 2), (22, o.gap.toNat), (17, o.d.toNat), (12, o.a.toNat), (7, o.b.toNat), (4, o.k.toNat)] = n at *
  rw [decC02_of m]
  simp [decC02, e0_4, f22, f17, f12, f7, f4]

theorem vfms (o : V3) : Statement (.vfms o) := by
  intro st hs hw; cases hs
  have F : Fits 32 [(26, 2), (22, o.gap.toNat), (17, o.d.toNat), (12, o.a.toNat), (7, o.b.toNat), (4, o.k.toNat), (0, 1)] :=
    ⟨by decide, by decide, by decide, lt_of_isLt o.gap (by decide), by decide, lt_of_isLt o.d (by decide), by decide, lt_of_isLt o.a (by decide), by decide, lt_of_isLt o.b (by decide), by decide, lt_of_isLt o.k (by decide), by decide, by decide, trivial⟩
  refine decode_of (n := pack [(26, 2), (22, o.gap.toNat), (17, o.d.toNat), (12, o.a.toNat), (7, o.b.toNat), (4, o.k.toNat), (0, 1)]) rfl (pos_of_look (k := 0) (len := 1) F rfl) (pack_lt F) ?_ hw
  have m : fldN _ 26 6 = 2 := (fldN_pack F 26 6).trans rfl
  have e0_4 : fldN _ 0 4 = 1 := (fldN_pack F 0 4).trans (rfl)
  have f22 : fld _ 22 4 = o.gap := fld_pack F (fldN_self o.gap)
  have f17 : fld _ 17 5 = o.d := fld_pack F (fldN_self o.d)
  have f12 : fld _ 12 5 = o.a := fld_pack F (fldN_self o.a)
  have f7 : fld _ 7 5 = o.b := fld_pack F (fldN_self o.b)
  have f4 : fld _ 4 3 = o.k := fld_pack F (fldN_self o.k)
  generalize pack [(26, 2), (22, o.gap.toNat), (17, o.d.toNat), (12, o.a.toNat), (7, o.b.toNat), (4, o.k.toNat), (0, 1)] = n at *
  rw [decC02_of m]
  simp [decC02, e0_4, f22, f17, f12, f7, f4]

theorem vfnma (o : V3) : Statement (.vfnma o) := by
  intro st hs hw; cases hs
  have F : Fits 32 [(26, 2), (22, o.gap.toNat), (17, o.d.toNat), (12, o.a.toNat), (7, o.b.toNat), (4, o.k.toNat), (0, 2)] :=
    ⟨by decide, by decide, by decide, lt_of_isLt o.gap (by decide), by decide, lt_of_isLt o.d (by decide), by decide, lt_of_isLt o.a (by decide), by decide, lt_of_isLt o.b (by decide), by decide, lt_of_isLt o.k (by decide), by decide, by decide, trivial⟩
  refine decode_of (n := pack [(26, 2), (22, o.gap.toNat), (17, o.d.toNat), (12, o.a.toNat), (7, o.b.toNat), (4, o.k.toNat), (0, 2)]) rfl (pos_of_look (k := 0) (len := 2) F rfl) (pack_lt F) ?_ hw
  have m : fldN _ 26 6 = 2 := (fldN_pack F 26 6).trans rfl
  have e0_4 : fldN _ 0 4 = 2 := (fldN_pack F 0 4).trans (rfl)
  have f22 : fld _ 22 4 = o.gap := fld_pack F (fldN_self o.gap)
  have f17 : fld _ 17 5 = o.d := fld_pack F (fldN_self o.d)
  have f12 : fld _ 12 5 = o.a := fld_pack F (fldN_self o.a)
  have f7 : fld _ 7 5 = o.b := fld_pack F (fldN_self o.b)
  have f4 : fld _ 4 3 = o.k := fld_pack F (fldN_self o.k)
  generalize pack [(26, 2), (22, o.gap.toNat), (17, o.d.toNat), (12, o.a.toNat), (7, o.b.toNat), (4, o.k.toNat), (0, 2)] = n at *
  rw [decC02_of m]
  simp [decC02, e0_4, f22, f17, f12, f7, f4]

theorem vexp2 (o : V2) : Statement (.vexp2 o) := by
  intro st hs hw; cases hs
  have F : Fits 32 [(26, 3), (22, o.gap.toNat), (17, o.d.toNat), (12, o.a.toNat), (4, o.k.toNat)] :=
    ⟨by decide, by decide, by decide, lt_of_isLt o.gap (by decide), by decide, lt_of_isLt o.d (by decide), by decide, lt_of_isLt o.a (by decide), by decide, lt_of_isLt o.k (by decide), trivial⟩
  refine decode_of (n := pack [(26, 3), (22, o.gap.toNat), (17, o.d.toNat), (12, o.a.toNat), (4, o.k.toNat)]) rfl (pos_of_look (k := 26) (len := 2) F rfl) (pack_lt F) ?_ hw
  have m : fldN _ 26 6 = 3 := (fldN_pack F 26 6).trans rfl
  have e0_4 : fldN _ 0 4 = 0 := (fldN_pack F 0 4).trans (rfl)
  have e7_5 : fldN _ 7 5 = 0 := (fldN_pack F 7 5).trans (by have := o.k.isLt; simp [look, fldN]; omega)
  have f22 : fld _ 22 4 = o.gap := fld_pack F (fldN_self o.gap)
  have f17 : fld _ 17 5 = o.d := fld_pack F (fldN_self o.d)
  have f12 : fld _ 12 5 = o.a := fld_pack F (fldN_self o.a)
  have f4 : fld _ 4 3 = o.k := fld_pack F (fldN_self o.k)
  generalize pack [(26, 3), (22, o.gap.toNat), (17, o.d.toNat), (12, o.a.toNat), (4, o.k.toNat)] = n at *
  rw [decC03_of m]
  simp [decC03, e0_4, e7_5, f22, f17, f12, f4]

theorem vlog2 (o : V2) : Statement (.vlog2 o) := by
  intro st hs hw; cases hs
  have F : Fits 32 [(26, 3), (22, o.gap.toNat), (17, o.d.toNat), (12, o.a.toNat), (4, o.k.toNat), (0, 1)] :=
    ⟨by decide, by decide, by decide, lt_of_isLt o.gap (by decide), by decide, lt_of_isLt o.d (by decide), by decide, lt_of_isLt o.a (by decide), by decide, lt_of_isLt o.k (by decide), by decide, by decide, trivial⟩
  refine decode_of (n := pack [(26, 3), (22, o.gap.toNat), (17, o.d.toNat), (12, o.a.toNat), (4, o.k.toNat), (0, 1)]) rfl (pos_of_look (k := 0) (len := 1) F rfl) (pack_lt F) ?_ hw
  have m : fldN _ 26 6 = 3 := (fldN_pack F 26 6).trans rfl
  have e0_4 : fldN _ 0 4 = 1 := (fldN_pack F 0 4).trans (rfl)
  have e7_5 : fldN _ 7 5 = 0 := (fldN_pack F 7 5).trans (by have := o.k.isLt; simp [look, fldN]; omega)
  have f22 : fld _ 22 4 = o.gap := fld_pack F (fldN_self o.gap)
  have f17 : fld _ 17 5 = o.d := fld_pack F (fldN_self o.d)
  have f12 : fld _ 12 5 = o.a := fld_pack F (fldN_self o.a)
  have f4 : fld _ 4 3 = o.k := fld_pack F (fldN_self o.k)
  generalize pack [(26, 3), (22, o.gap.toNat), (17, o.d.toNat), (12, o.a.toNat), (4, o.k.toNat), (0, 1)] = n at *
  rw [decC03_of m]
  simp [decC03, e0_4, e7_5, f22, f17, f12, f4]

theorem vrcp (o : V2) : Statement (.vrcp o) := by
  intro st hs hw; cases hs
  have F : Fits 32 [(26, 3), (22, o.gap.toNat), (17, o.d.toNat), (12, o.a.toNat), (4, o.k.toNat), (0, 2)] :=
    ⟨by decide, by decide, by decide, lt_of_isLt o.gap (by decide), by decide, lt_of_isLt o.d (by decide), by decide, lt_of_isLt o.a (by decide), by decide, lt_of_isLt o.k (by decide), by decide, by decide, trivial⟩
  refine decode_of (n := pack [(26, 3), (22, o.gap.toNat), (17, o.d.toNat), (12, o.a.toNat), (4, o.k.toNat), (0, 2)]) rfl (pos_of_look (k := 0) (len := 2) F rfl) (pack_lt F) ?_ hw
  have m : fldN _ 26 6 = 3 := (fldN_pack F 26 6).trans rfl
  have e0_4 : fldN _ 0 4 = 2 := (fldN_pack F 0 4).trans (rfl)
  have e7_5 : fldN _ 7 5 = 0 := (fldN_pack F 7 5).trans (by have := o.k.isLt; simp [look, fldN]; omega)
  have f22 : fld _ 22 4 = o.gap := fld_pack F (fldN_self o.gap)
  have f17 : fld _ 17 5 = o.d := fld_pack F (fldN_self o.d)
  have f12 : fld _ 12 5 = o.a := fld_pack F (fldN_self o.a)
  have f4 : fld _ 4 3 = o.k := fld_pack F (fldN_self o.k)
  generalize pack [(26, 3), (22, o.gap.toNat), (17, o.d.toNat), (12, o.a.toNat), (4, o.k.toNat), (0, 2)] = n at *
  rw [decC03_of m]
  simp [decC03, e0_4, e7_5, f22, f17, f12, f4]

theorem vrsq (o : V2) : Statement (.vrsq o) := by
  intro st hs hw; cases hs
  have F : Fits 32 [(26, 3), (22, o.gap.toNat), (17, o.d.toNat), (12, o.a.toNat), (4, o.k.toNat), (0, 3)] :=
    ⟨by decide, by decide, by decide, lt_of_isLt o.gap (by decide), by decide, lt_of_isLt o.d (by decide), by decide, lt_of_isLt o.a (by decide), by decide, lt_of_isLt o.k (by decide), by decide, by decide, trivial⟩
  refine decode_of (n := pack [(26, 3), (22, o.gap.toNat), (17, o.d.toNat), (12, o.a.toNat), (4, o.k.toNat), (0, 3)]) rfl (pos_of_look (k := 0) (len := 2) F rfl) (pack_lt F) ?_ hw
  have m : fldN _ 26 6 = 3 := (fldN_pack F 26 6).trans rfl
  have e0_4 : fldN _ 0 4 = 3 := (fldN_pack F 0 4).trans (rfl)
  have e7_5 : fldN _ 7 5 = 0 := (fldN_pack F 7 5).trans (by have := o.k.isLt; simp [look, fldN]; omega)
  have f22 : fld _ 22 4 = o.gap := fld_pack F (fldN_self o.gap)
  have f17 : fld _ 17 5 = o.d := fld_pack F (fldN_self o.d)
  have f12 : fld _ 12 5 = o.a := fld_pack F (fldN_self o.a)
  have f4 : fld _ 4 3 = o.k := fld_pack F (fldN_self o.k)
  generalize pack [(26, 3), (22, o.gap.toNat), (17, o.d.toNat), (12, o.a.toNat), (4, o.k.toNat), (0, 3)] = n at *
  rw [decC03_of m]
  simp [decC03, e0_4, e7_5, f22, f17, f12, f4]

theorem vsqrt (o : V2) : Statement (.vsqrt o) := by
  intro st hs hw; cases hs
  have F : Fits 32 [(26, 3), (22, o.gap.toNat), (17, o.d.toNat), (12, o.a.toNat), (4, o.k.toNat), (0, 4)] :=
    ⟨by decide, by decide, by decide, lt_of_isLt o.gap (by decide), by decide, lt_of_isLt o.d (by decide), by decide, lt_of_isLt o.a (by decide), by decide, lt_of_isLt o.k (by decide), by decide, by decide, trivial⟩
  refine decode_of (n := pack [(26, 3), (22, o.gap.toNat), (17, o.d.toNat), (12, o.a.toNat), (4, o.k.toNat), (0, 4)]) rfl (pos_of_look (k := 0) (len := 3) F rfl) (pack_lt F) ?_ hw
  have m : fldN _ 26 6 = 3 := (fldN_pack F 26 6).trans rfl
  have e0_4 : fldN _ 0 4 = 4 := (fldN_pack F 0 4).trans (rfl)
  have e7_5 : fldN _ 7 5 = 0 := (fldN_pack F 7 5).trans (by have := o.k.isLt; simp [look, fldN]; omega)
  have f22 : fld _ 22 4 = o.gap := fld_pack F (fldN_self o.gap)
  have f17 : fld _ 17 5 = o.d := fld_pack F (fldN_self o.d)
  have f12 : fld _ 12 5 = o.a := fld_pack F (fldN_self o.a)
  have f4 : fld _ 4 3 = o.k := fld_pack F (fldN_self o.k)
  generalize pack [(26, 3), (22, o.gap.toNat), (17, o.d.toNat), (12, o.a.toNat), (4, o.k.toNat), (0, 4)] = n at *
  rw [decC03_of m]
  simp [decC03, e0_4, e7_5, f22, f17, f12, f4]

theorem vsigm (o : V2) : Statement (.vsigm o) := by
  intro st hs hw; cases hs
  have F : Fits 32 [(26, 3), (22, o.gap.toNat), (17, o.d.toNat), (12, o.a.toNat), (4, o.k.toNat), (0, 5)] :=
    ⟨by decide, by decide, by decide, lt_of_isLt o.gap (by decide), by decide, lt_of_isLt o.d (by decide), by decide, lt_of_isLt o.a (by decide), by decide, lt_of_isLt o.k (by decide), by decide, by decide, trivial⟩
  refine decode_of (n := pack [(26, 3), (22, o.gap.toNat), (17, o.d.toNat), (12, o.a.toNat), (4, o.k.toNat), (0, 5)]) rfl (pos_of_look (k := 0) (len := 3) F rfl) (pack_lt F) ?_ hw
  have m : fldN _ 26 6 = 3 := (fldN_pack F 26 6).trans rfl
  have e0_4 : fldN _ 0 4 = 5 := (fldN_pack F 0 4).trans (rfl)
  have e7_5 : fldN _ 7 5 = 0 := (fldN_pack F 7 5).trans (by have := o.k.isLt; simp [look, fldN]; omega)
  have f22 : fld _ 22 4 = o.gap := fld_pack F (fldN_self o.gap)
  have f17 : fld _ 17 5 = o.d := fld_pack F (fldN_self o.d)
  have f12 : fld _ 12 5 = o.a := fld_pack F (fldN_self o.a)
  have f4 : fld _ 4 3 = o.k := fld_pack F (fldN_self o.k)
  generalize pack [(26, 3), (22, o.gap.toNat), (17, o.d.toNat), (12, o.a.toNat), (4, o.k.toNat), (0, 5)] = n at *
  rw [decC03_of m]
  simp [decC03, e0_4, e7_5, f22, f17, f12, f4]

theorem viadd (o : V3) : Statement (.viadd o) := by
  intro st hs hw; cases hs
  have F : Fits 32 [(26, 4), (22, o.gap.toNat), (17, o.d.toNat), (12, o.a.toNat), (7, o.b.toNat), (4, o.k.toNat)] :=
    ⟨by decide, by decide, by decide, lt_of_isLt o.gap (by decide), by decide, lt_of_isLt o.d (by decide), by decide, lt_of_isLt o.a (by decide), by decide, lt_of_isLt o.b (by decide), by decide, lt_of_isLt o.k (by decide), trivial⟩
  refine decode_of (n := pack [(26, 4), (22, o.gap.toNat), (17, o.d.toNat), (12, o.a.toNat), (7, o.b.toNat), (4, o.k.toNat)]) rfl (pos_of_look (k := 26) (len := 3) F rfl) (pack_lt F) ?_ hw
  have m : fldN _ 26 6 = 4 := (fldN_pack F 26 6).trans rfl
  have e0_4 : fldN _ 0 4 = 0 := (fldN_pack F 0 4).trans (rfl)
  have f22 : fld _ 22 4 = o.gap := fld_pack F (fldN_self o.gap)
  have f17 : fld _ 17 5 = o.d := fld_pack F (fldN_self o.d)
  have f12 : fld _ 12 5 = o.a := fld_pack F (fldN_self o.a)
  have f7 : fld _ 7 5 = o.b := fld_pack F (fldN_self o.b)
  have f4 : fld _ 4 3 = o.k := fld_pack F (fldN_self o.k)
  generalize pack [(26, 4), (22, o.gap.toNat), (17, o.d.toNat), (12, o.a.toNat), (7, o.b.toNat), (4, o.k.toNat)] = n at *
  rw [decC04_of m]
  simp [decC04, e0_4, f22, f17, f12, f7, f4]

theorem visub (o : V3) : Statement (.visub o) := by
  intro st hs hw; cases hs
  have F : Fits 32 [(26, 4), (22, o.gap.toNat), (17, o.d.toNat), (12, o.a.toNat), (7, o.b.toNat), (4, o.k.toNat), (0, 1)] :=
    ⟨by decide, by decide, by decide, lt_of_isLt o.gap (by decide), by decide, lt_of_isLt o.d (by decide), by decide, lt_of_isLt o.a (by decide), by decide, lt_of_isLt o.b (by decide), by decide, lt_of_isLt o.k (by decide), by decide, by decide, trivial⟩
  refine decode_of (n := pack [(26, 4), (22, o.gap.toNat), (17, o.d.toNat), (12, o.a.toNat), (7, o.b.toNat), (4, o.k.toNat), (0, 1)]) rfl (pos_of_look (k := 0) (len := 1) F rfl) (pack_lt F) ?_ hw
  have m : fldN _ 26 6 = 4 := (fldN_pack F 26 6).trans rfl
  have e0_4 : fldN _ 0 4 = 1 := (fldN_pack F 0 4).trans (rfl)
  have f22 : fld _ 22 4 = o.gap := fld_pack F (fldN_self o.gap)
  have f17 : fld _ 17 5 = o.d := fld_pack F (fldN_self o.d)
  have f12 : fld _ 12 5 = o.a := fld_pack F (fldN_self o.a)
  have f7 : fld _ 7 5 = o.b := fld_pack F (fldN_self o.b)
  have f4 : fld _ 4 3 = o.k := fld_pack F (fldN_self o.k)
  generalize pack [(26, 4), (22, o.gap.toNat), (17, o.d.toNat), (12, o.a.toNat), (7, o.b.toNat), (4, o.k.toNat), (0, 1)] = n at *
  rw [decC04_of m]
  simp [decC04, e0_4, f22, f17, f12, f7, f4]

theorem vimul (o : V3) : Statement (.vimul o) := by
  intro st hs hw; cases hs
  have F : Fits 32 [(26, 4), (22, o.gap.toNat), (17, o.d.toNat), (12, o.a.toNat), (7, o.b.toNat), (4, o.k.toNat), (0, 2)] :=
    ⟨by decide, by decide, by decide, lt_of_isLt o.gap (by decide), by decide, lt_of_isLt o.d (by decide), by decide, lt_of_isLt o.a (by decide), by decide, lt_of_isLt o.b (by decide), by decide, lt_of_isLt o.k (by decide), by decide, by decide, trivial⟩
  refine decode_of (n := pack [(26, 4), (22, o.gap.toNat), (17, o.d.toNat), (12, o.a.toNat), (7, o.b.toNat), (4, o.k.toNat), (0, 2)]) rfl (pos_of_look (k := 0) (len := 2) F rfl) (pack_lt F) ?_ hw
  have m : fldN _ 26 6 = 4 := (fldN_pack F 26 6).trans rfl
  have e0_4 : fldN _ 0 4 = 2 := (fldN_pack F 0 4).trans (rfl)
  have f22 : fld _ 22 4 = o.gap := fld_pack F (fldN_self o.gap)
  have f17 : fld _ 17 5 = o.d := fld_pack F (fldN_self o.d)
  have f12 : fld _ 12 5 = o.a := fld_pack F (fldN_self o.a)
  have f7 : fld _ 7 5 = o.b := fld_pack F (fldN_self o.b)
  have f4 : fld _ 4 3 = o.k := fld_pack F (fldN_self o.k)
  generalize pack [(26, 4), (22, o.gap.toNat), (17, o.d.toNat), (12, o.a.toNat), (7, o.b.toNat), (4, o.k.toNat), (0, 2)] = n at *
  rw [decC04_of m]
  simp [decC04, e0_4, f22, f17, f12, f7, f4]

theorem vimin (o : V3) : Statement (.vimin o) := by
  intro st hs hw; cases hs
  have F : Fits 32 [(26, 4), (22, o.gap.toNat), (17, o.d.toNat), (12, o.a.toNat), (7, o.b.toNat), (4, o.k.toNat), (0, 3)] :=
    ⟨by decide, by decide, by decide, lt_of_isLt o.gap (by decide), by decide, lt_of_isLt o.d (by decide), by decide, lt_of_isLt o.a (by decide), by decide, lt_of_isLt o.b (by decide), by decide, lt_of_isLt o.k (by decide), by decide, by decide, trivial⟩
  refine decode_of (n := pack [(26, 4), (22, o.gap.toNat), (17, o.d.toNat), (12, o.a.toNat), (7, o.b.toNat), (4, o.k.toNat), (0, 3)]) rfl (pos_of_look (k := 0) (len := 2) F rfl) (pack_lt F) ?_ hw
  have m : fldN _ 26 6 = 4 := (fldN_pack F 26 6).trans rfl
  have e0_4 : fldN _ 0 4 = 3 := (fldN_pack F 0 4).trans (rfl)
  have f22 : fld _ 22 4 = o.gap := fld_pack F (fldN_self o.gap)
  have f17 : fld _ 17 5 = o.d := fld_pack F (fldN_self o.d)
  have f12 : fld _ 12 5 = o.a := fld_pack F (fldN_self o.a)
  have f7 : fld _ 7 5 = o.b := fld_pack F (fldN_self o.b)
  have f4 : fld _ 4 3 = o.k := fld_pack F (fldN_self o.k)
  generalize pack [(26, 4), (22, o.gap.toNat), (17, o.d.toNat), (12, o.a.toNat), (7, o.b.toNat), (4, o.k.toNat), (0, 3)] = n at *
  rw [decC04_of m]
  simp [decC04, e0_4, f22, f17, f12, f7, f4]

theorem vimax (o : V3) : Statement (.vimax o) := by
  intro st hs hw; cases hs
  have F : Fits 32 [(26, 4), (22, o.gap.toNat), (17, o.d.toNat), (12, o.a.toNat), (7, o.b.toNat), (4, o.k.toNat), (0, 4)] :=
    ⟨by decide, by decide, by decide, lt_of_isLt o.gap (by decide), by decide, lt_of_isLt o.d (by decide), by decide, lt_of_isLt o.a (by decide), by decide, lt_of_isLt o.b (by decide), by decide, lt_of_isLt o.k (by decide), by decide, by decide, trivial⟩
  refine decode_of (n := pack [(26, 4), (22, o.gap.toNat), (17, o.d.toNat), (12, o.a.toNat), (7, o.b.toNat), (4, o.k.toNat), (0, 4)]) rfl (pos_of_look (k := 0) (len := 3) F rfl) (pack_lt F) ?_ hw
  have m : fldN _ 26 6 = 4 := (fldN_pack F 26 6).trans rfl
  have e0_4 : fldN _ 0 4 = 4 := (fldN_pack F 0 4).trans (rfl)
  have f22 : fld _ 22 4 = o.gap := fld_pack F (fldN_self o.gap)
  have f17 : fld _ 17 5 = o.d := fld_pack F (fldN_self o.d)
  have f12 : fld _ 12 5 = o.a := fld_pack F (fldN_self o.a)
  have f7 : fld _ 7 5 = o.b := fld_pack F (fldN_self o.b)
  have f4 : fld _ 4 3 = o.k := fld_pack F (fldN_self o.k)
  generalize pack [(26, 4), (22, o.gap.toNat), (17, o.d.toNat), (12, o.a.toNat), (7, o.b.toNat), (4, o.k.toNat), (0, 4)] = n at *
  rw [decC04_of m]
  simp [decC04, e0_4, f22, f17, f12, f7, f4]

theorem viminz (o : V3) : Statement (.viminz o) := by
  intro st hs hw; cases hs
  have F : Fits 32 [(26, 4), (22, o.gap.toNat), (17, o.d.toNat), (12, o.a.toNat), (7, o.b.toNat), (4, o.k.toNat), (0, 5)] :=
    ⟨by decide, by decide, by decide, lt_of_isLt o.gap (by decide), by decide, lt_of_isLt o.d (by decide), by decide, lt_of_isLt o.a (by decide), by decide, lt_of_isLt o.b (by decide), by decide, lt_of_isLt o.k (by decide), by decide, by decide, trivial⟩
  refine decode_of (n := pack [(26, 4), (22, o.gap.toNat), (17, o.d.toNat), (12, o.a.toNat), (7, o.b.toNat), (4, o.k.toNat), (0, 5)]) rfl (pos_of_look (k := 0) (len := 3) F rfl) (pack_lt F) ?_ hw
  have m : fldN _ 26 6 = 4 := (fldN_pack F 26 6).trans rfl
  have e0_4 : fldN _ 0 4 = 5 := (fldN_pack F 0 4).trans (rfl)
  have f22 : fld _ 22 4 = o.gap := fld_pack F (fldN_self o.gap)
  have f17 : fld _ 17 5 = o.d := fld_pack F (fldN_self o.d)
  have f12 : fld _ 12 5 = o.a := fld_pack F (fldN_self o.a)
  have f7 : fld _ 7 5 = o.b := fld_pack F (fldN_self o.b)
  have f4 : fld _ 4 3 = o.k := fld_pack F (fldN_self o.k)
  generalize pack [(26, 4), (22, o.gap.toNat), (17, o.d.toNat), (12, o.a.toNat), (7, o.b.toNat), (4, o.k.toNat), (0, 5)] = n at *
  rw [decC04_of m]
  simp [decC04, e0_4, f22, f17, f12, f7, f4]

theorem vimaxz (o : V3) : Statement (.vimaxz o) := by
  intro st hs hw; cases hs
  have F : Fits 32 [(26, 4), (22, o.gap.toNat), (17, o.d.toNat), (12, o.a.toNat), (7, o.b.toNat), (4, o.k.toNat), (0, 6)] :=
    ⟨by decide, by decide, by decide, lt_of_isLt o.gap (by decide), by decide, lt_of_isLt o.d (by decide), by decide, lt_of_isLt o.a (by decide), by decide, lt_of_isLt o.b (by decide), by decide, lt_of_isLt o.k (by decide), by decide, by decide, trivial⟩
  refine decode_of (n := pack [(26, 4), (22, o.gap.toNat), (17, o.d.toNat), (12, o.a.toNat), (7, o.b.toNat), (4, o.k.toNat), (0, 6)]) rfl (pos_of_look (k := 0) (len := 3) F rfl) (pack_lt F) ?_ hw
  have m : fldN _ 26 6 = 4 := (fldN_pack F 26 6).trans rfl
  have e0_4 : fldN _ 0 4 = 6 := (fldN_pack F 0 4).trans (rfl)
  have f22 : fld _ 22 4 = o.gap := fld_pack F (fldN_self o.gap)
  have f17 : fld _ 17 5 = o.d := fld_pack F (fldN_self o.d)
  have f12 : fld _ 12 5 = o.a := fld_pack F (fldN_self o.a)
  have f7 : fld _ 7 5 = o.b := fld_pack F (fldN_self o.b)
  have f4 : fld _ 4 3 = o.k := fld_pack F (fldN_self o.k)
  generalize pack [(26, 4), (22, o.gap.toNat), (17, o.d.toNat), (12, o.a.toNat), (7, o.b.toNat), (4, o.k.toNat), (0, 6)] = n at *
  rw [decC04_of m]
  simp [decC04, e0_4, f22, f17, f12, f7, f4]

theorem vand (o : V3) : Statement (.vand o) := by
  intro st hs hw; cases hs
  have F : Fits 32 [(26, 4), (22, o.gap.toNat), (17, o.d.toNat), (12, o.a.toNat), (7, o.b.toNat), (4, o.k.toNat), (0, 7)] :=
    ⟨by decide, by decide, by decide, lt_of_isLt o.gap (by decide), by decide, lt_of_isLt o.d (by decide), by decide, lt_of_isLt o.a (by decide), by decide, lt_of_isLt o.b (by decide), by decide, lt_of_isLt o.k (by decide), by decide, by decide, trivial⟩
  refine decode_of (n := pack [(26, 4), (22, o.gap.toNat), (17, o.d.toNat), (12, o.a.toNat), (7, o.b.toNat), (4, o.k.toNat), (0, 7)]) rfl (pos_of_look (k := 0) (len := 3) F rfl) (pack_lt F) ?_ hw
  have m : fldN _ 26 6 = 4 := (fldN_pack F 26 6).trans rfl
  have e0_4 : fldN _ 0 4 = 7 := (fldN_pack F 0 4).trans (rfl)
  have f22 : fld _ 22 4 = o.gap := fld_pack F (fldN_self o.gap)
  have f17 : fld _ 17 5 = o.d := fld_pack F (fldN_self o.d)
  have f12 : fld _ 12 5 = o.a := fld_pack F (fldN_self o.a)
  have f7 : fld _ 7 5 = o.b := fld_pack F (fldN_self o.b)
  have f4 : fld _ 4 3 = o.k := fld_pack F (fldN_self o.k)
  generalize pack [(26, 4), (22, o.gap.toNat), (17, o.d.toNat), (12, o.a.toNat), (7, o.b.toNat), (4, o.k.toNat), (0, 7)] = n at *
  rw [decC04_of m]
  simp [decC04, e0_4, f22, f17, f12, f7, f4]

theorem vor (o : V3) : Statement (.vor o) := by
  intro st hs hw; cases hs
  have F : Fits 32 [(26, 4), (22, o.gap.toNat), (17, o.d.toNat), (12, o.a.toNat), (7, o.b.toNat), (4, o.k.toNat), (0, 8)] :=
    ⟨by decide, by decide, by decide, lt_of_isLt o.gap (by decide), by decide, lt_of_isLt o.d (by decide), by decide, lt_of_isLt o.a (by decide), by decide, lt_of_isLt o.b (by decide), by decide, lt_of_isLt o.k (by decide), by decide, by decide, trivial⟩
  refine decode_of (n := pack [(26, 4), (22, o.gap.toNat), (17, o.d.toNat), (12, o.a.toNat), (7, o.b.toNat), (4, o.k.toNat), (0, 8)]) rfl (pos_of_look (k := 0) (len := 4) F rfl) (pack_lt F) ?_ hw
  have m : fldN _ 26 6 = 4 := (fldN_pack F 26 6).trans rfl
  have e0_4 : fldN _ 0 4 = 8 := (fldN_pack F 0 4).trans (rfl)
  have f22 : fld _ 22 4 = o.gap := fld_pack F (fldN_self o.gap)
  have f17 : fld _ 17 5 = o.d := fld_pack F (fldN_self o.d)
  have f12 : fld _ 12 5 = o.a := fld_pack F (fldN_self o.a)
  have f7 : fld _ 7 5 = o.b := fld_pack F (fldN_self o.b)
  have f4 : fld _ 4 3 = o.k := fld_pack F (fldN_self o.k)
  generalize pack [(26, 4), (22, o.gap.toNat), (17, o.d.toNat), (12, o.a.toNat), (7, o.b.toNat), (4, o.k.toNat), (0, 8)] = n at *
  rw [decC04_of m]
  simp [decC04, e0_4, f22, f17, f12, f7, f4]

theorem vxor (o : V3) : Statement (.vxor o) := by
  intro st hs hw; cases hs
  have F : Fits 32 [(26, 4), (22, o.gap.toNat), (17, o.d.toNat), (12, o.a.toNat), (7, o.b.toNat), (4, o.k.toNat), (0, 9)] :=
    ⟨by decide, by decide, by decide, lt_of_isLt o.gap (by decide), by decide, lt_of_isLt o.d (by decide), by decide, lt_of_isLt o.a (by decide), by decide, lt_of_isLt o.b (by decide), by decide, lt_of_isLt o.k (by decide), by decide, by decide, trivial⟩
  refine decode_of (n := pack [(26, 4), (22, o.gap.toNat), (17, o.d.toNat), (12, o.a.toNat), (7, o.b.toNat), (4, o.k.toNat), (0, 9)]) rfl (pos_of_look (k := 0) (len := 4) F rfl) (pack_lt F) ?_ hw
  have m : fldN _ 26 6 = 4 := (fldN_pack F 26 6).trans rfl
  have e0_4 : fldN _ 0 4 = 9 := (fldN_pack F 0 4).trans (rfl)
  have f22 : fld _ 22 4 = o.gap := fld_pack F (fldN_self o.gap)
  have f17 : fld _ 17 5 = o.d := fld_pack F (fldN_self o.d)
  have f12 : fld _ 12 5 = o.a := fld_pack F (fldN_self o.a)
  have f7 : fld _ 7 5 = o.b := fld_pack F (fldN_self o.b)
  have f4 : fld _ 4 3 = o.k := fld_pack F (fldN_self o.k)
  generalize pack [(26, 4), (22, o.gap.toNat), (17, o.d.toNat), (12, o.a.toNat), (7, o.b.toNat), (4, o.k.toNat), (0, 9)] = n at *
  rw [decC04_of m]
  simp [decC04, e0_4, f22, f17, f12, f7, f4]

theorem vshl (o : V3) : Statement (.vshl o) := by
  intro st hs hw; cases hs
  have F : Fits 32 [(26, 4), (22, o.gap.toNat), (17, o.d.toNat), (12, o.a.toNat), (7, o.b.toNat), (4, o.k.toNat), (0, 10)] :=
    ⟨by decide, by decide, by decide, lt_of_isLt o.gap (by decide), by decide, lt_of_isLt o.d (by decide), by decide, lt_of_isLt o.a (by decide), by decide, lt_of_isLt o.b (by decide), by decide, lt_of_isLt o.k (by decide), by decide, by decide, trivial⟩
  refine decode_of (n := pack [(26, 4), (22, o.gap.toNat), (17, o.d.toNat), (12, o.a.toNat), (7, o.b.toNat), (4, o.k.toNat), (0, 10)]) rfl (pos_of_look (k := 0) (len := 4) F rfl) (pack_lt F) ?_ hw
  have m : fldN _ 26 6 = 4 := (fldN_pack F 26 6).trans rfl
  have e0_4 : fldN _ 0 4 = 10 := (fldN_pack F 0 4).trans (rfl)
  have f22 : fld _ 22 4 = o.gap := fld_pack F (fldN_self o.gap)
  have f17 : fld _ 17 5 = o.d := fld_pack F (fldN_self o.d)
  have f12 : fld _ 12 5 = o.a := fld_pack F (fldN_self o.a)
  have f7 : fld _ 7 5 = o.b := fld_pack F (fldN_self o.b)
  have f4 : fld _ 4 3 = o.k := fld_pack F (fldN_self o.k)
  generalize pack [(26, 4), (22, o.gap.toNat), (17, o.d.toNat), (12, o.a.toNat), (7, o.b.toNat), (4, o.k.toNat), (0, 10)] = n at *
  rw [decC04_of m]
  simp [decC04, e0_4, f22, f17, f12, f7, f4]

theorem vshr (o : V3) : Statement (.vshr o) := by
  intro st hs hw; cases hs
  have F : Fits 32 [(26, 4), (22, o.gap.toNat), (17, o.d.toNat), (12, o.a.toNat), (7, o.b.toNat), (4, o.k.toNat), (0, 11)] :=
    ⟨by decide, by decide, by decide, lt_of_isLt o.gap (by decide), by decide, lt_of_isLt o.d (by decide), by decide, lt_of_isLt o.a (by decide), by decide, lt_of_isLt o.b (by decide), by decide, lt_of_isLt o.k (by decide), by decide, by decide, trivial⟩
  refine decode_of (n := pack [(26, 4), (22, o.gap.toNat), (17, o.d.toNat), (12, o.a.toNat), (7, o.b.toNat), (4, o.k.toNat), (0, 11)]) rfl (pos_of_look (k := 0) (len := 4) F rfl) (pack_lt F) ?_ hw
  have m : fldN _ 26 6 = 4 := (fldN_pack F 26 6).trans rfl
  have e0_4 : fldN _ 0 4 = 11 := (fldN_pack F 0 4).trans (rfl)
  have f22 : fld _ 22 4 = o.gap := fld_pack F (fldN_self o.gap)
  have f17 : fld _ 17 5 = o.d := fld_pack F (fldN_self o.d)
  have f12 : fld _ 12 5 = o.a := fld_pack F (fldN_self o.a)
  have f7 : fld _ 7 5 = o.b := fld_pack F (fldN_self o.b)
  have f4 : fld _ 4 3 = o.k := fld_pack F (fldN_self o.k)
  generalize pack [(26, 4), (22, o.gap.toNat), (17, o.d.toNat), (12, o.a.toNat), (7, o.b.toNat), (4, o.k.toNat), (0, 11)] = n at *
  rw [decC04_of m]
  simp [decC04, e0_4, f22, f17, f12, f7, f4]

theorem vsra (o : V3) : Statement (.vsra o) := by
  intro st hs hw; cases hs
  have F : Fits 32 [(26, 4), (22, o.gap.toNat), (17, o.d.toNat), (12, o.a.toNat), (7, o.b.toNat), (4, o.k.toNat), (0, 12)] :=
    ⟨by decide, by decide, by decide, lt_of_isLt o.gap (by decide), by decide, lt_of_isLt o.d (by decide), by decide, lt_of_isLt o.a (by decide), by decide, lt_of_isLt o.b (by decide), by decide, lt_of_isLt o.k (by decide), by decide, by decide, trivial⟩
  refine decode_of (n := pack [(26, 4), (22, o.gap.toNat), (17, o.d.toNat), (12, o.a.toNat), (7, o.b.toNat), (4, o.k.toNat), (0, 12)]) rfl (pos_of_look (k := 0) (len := 4) F rfl) (pack_lt F) ?_ hw
  have m : fldN _ 26 6 = 4 := (fldN_pack F 26 6).trans rfl
  have e0_4 : fldN _ 0 4 = 12 := (fldN_pack F 0 4).trans (rfl)
  have f22 : fld _ 22 4 = o.gap := fld_pack F (fldN_self o.gap)
  have f17 : fld _ 17 5 = o.d := fld_pack F (fldN_self o.d)
  have f12 : fld _ 12 5 = o.a := fld_pack F (fldN_self o.a)
  have f7 : fld _ 7 5 = o.b := fld_pack F (fldN_self o.b)
  have f4 : fld _ 4 3 = o.k := fld_pack F (fldN_self o.k)
  generalize pack [(26, 4), (22, o.gap.toNat), (17, o.d.toNat), (12, o.a.toNat), (7, o.b.toNat), (4, o.k.toNat), (0, 12)] = n at *
  rw [decC04_of m]
  simp [decC04, e0_4, f22, f17, f12, f7, f4]

theorem vpopc (o : V2) : Statement (.vpopc o) := by
  intro st hs hw; cases hs
  have F : Fits 32 [(26, 4), (22, o.gap.toNat), (17, o.d.toNat), (12, o.a.toNat), (4, o.k.toNat), (0, 13)] :=
    ⟨by decide, by decide, by decide, lt_of_isLt o.gap (by decide), by decide, lt_of_isLt o.d (by decide), by decide, lt_of_isLt o.a (by decide), by decide, lt_of_isLt o.k (by decide), by decide, by decide, trivial⟩
  refine decode_of (n := pack [(26, 4), (22, o.gap.toNat), (17, o.d.toNat), (12, o.a.toNat), (4, o.k.toNat), (0, 13)]) rfl (pos_of_look (k := 0) (len := 4) F rfl) (pack_lt F) ?_ hw
  have m : fldN _ 26 6 = 4 := (fldN_pack F 26 6).trans rfl
  have e0_4 : fldN _ 0 4 = 13 := (fldN_pack F 0 4).trans (rfl)
  have e7_5 : fldN _ 7 5 = 0 := (fldN_pack F 7 5).trans (by have := o.k.isLt; simp [look, fldN]; omega)
  have f22 : fld _ 22 4 = o.gap := fld_pack F (fldN_self o.gap)
  have f17 : fld _ 17 5 = o.d := fld_pack F (fldN_self o.d)
  have f12 : fld _ 12 5 = o.a := fld_pack F (fldN_self o.a)
  have f4 : fld _ 4 3 = o.k := fld_pack F (fldN_self o.k)
  generalize pack [(26, 4), (22, o.gap.toNat), (17, o.d.toNat), (12, o.a.toNat), (4, o.k.toNat), (0, 13)] = n at *
  rw [decC04_of m]
  simp [decC04, e0_4, e7_5, f22, f17, f12, f4]

theorem vbxt (o : V3) : Statement (.vbxt o) := by
  intro st hs hw; cases hs
  have F : Fits 32 [(26, 5), (22, o.gap.toNat), (17, o.d.toNat), (12, o.a.toNat), (7, o.b.toNat), (4, o.k.toNat)] :=
    ⟨by decide, by decide, by decide, lt_of_isLt o.gap (by decide), by decide, lt_of_isLt o.d (by decide), by decide, lt_of_isLt o.a (by decide), by decide, lt_of_isLt o.b (by decide), by decide, lt_of_isLt o.k (by decide), trivial⟩
  refine decode_of (n := pack [(26, 5), (22, o.gap.toNat), (17, o.d.toNat), (12, o.a.toNat), (7, o.b.toNat), (4, o.k.toNat)]) rfl (pos_of_look (k := 26) (len := 3) F rfl) (pack_lt F) ?_ hw
  have m : fldN _ 26 6 = 5 := (fldN_pack F 26 6).trans rfl
  have e0_4 : fldN _ 0 4 = 0 := (fldN_pack F 0 4).trans (rfl)
  have f22 : fld _ 22 4 = o.gap := fld_pack F (fldN_self o.gap)
  have f17 : fld _ 17 5 = o.d := fld_pack F (fldN_self o.d)
  have f12 : fld _ 12 5 = o.a := fld_pack F (fldN_self o.a)
  have f7 : fld _ 7 5 = o.b := fld_pack F (fldN_self o.b)
  have f4 : fld _ 4 3 = o.k := fld_pack F (fldN_self o.k)
  generalize pack [(26, 5), (22, o.gap.toNat), (17, o.d.toNat), (12, o.a.toNat), (7, o.b.toNat), (4, o.k.toNat)] = n at *
  rw [decC05_of m]
  simp [decC05, e0_4, f22, f17, f12, f7, f4]

theorem vbxz (o : V3) : Statement (.vbxz o) := by
  intro st hs hw; cases hs
  have F : Fits 32 [(26, 5), (22, o.gap.toNat), (17, o.d.toNat), (12, o.a.toNat), (7, o.b.toNat), (4, o.k.toNat), (0, 1)] :=
    ⟨by decide, by decide, by decide, lt_of_isLt o.gap (by decide), by decide, lt_of_isLt o.d (by decide), by decide, lt_of_isLt o.a (by decide), by decide, lt_of_isLt o.b (by decide), by decide, lt_of_isLt o.k (by decide), by decide, by decide, trivial⟩
  refine decode_of (n := pack [(26, 5), (22, o.gap.toNat), (17, o.d.toNat), (12, o.a.toNat), (7, o.b.toNat), (4, o.k.toNat), (0, 1)]) rfl (pos_of_look (k := 0) (len := 1) F rfl) (pack_lt F) ?_ hw
  have m : fldN _ 26 6 = 5 := (fldN_pack F 26 6).trans rfl
  have e0_4 : fldN _ 0 4 = 1 := (fldN_pack F 0 4).trans (rfl)
  have f22 : fld _ 22 4 = o.gap := fld_pack F (fldN_self o.gap)
  have f17 : fld _ 17 5 = o.d := fld_pack F (fldN_self o.d)
  have f12 : fld _ 12 5 = o.a := fld_pack F (fldN_self o.a)
  have f7 : fld _ 7 5 = o.b := fld_pack F (fldN_self o.b)
  have f4 : fld _ 4 3 = o.k := fld_pack F (fldN_self o.k)
  generalize pack [(26, 5), (22, o.gap.toNat), (17, o.d.toNat), (12, o.a.toNat), (7, o.b.toNat), (4, o.k.toNat), (0, 1)] = n at *
  rw [decC05_of m]
  simp [decC05, e0_4, f22, f17, f12, f7, f4]

theorem vbins (o : V3) : Statement (.vbins o) := by
  intro st hs hw; cases hs
  have F : Fits 32 [(26, 5), (22, o.gap.toNat), (17, o.d.toNat), (12, o.a.toNat), (7, o.b.toNat), (4, o.k.toNat), (0, 2)] :=
    ⟨by decide, by decide, by decide, lt_of_isLt o.gap (by decide), by decide, lt_of_isLt o.d (by decide), by decide, lt_of_isLt o.a (by decide), by decide, lt_of_isLt o.b (by decide), by decide, lt_of_isLt o.k (by decide), by decide, by decide, trivial⟩
  refine decode_of (n := pack [(26, 5), (22, o.gap.toNat), (17, o.d.toNat), (12, o.a.toNat), (7, o.b.toNat), (4, o.k.toNat), (0, 2)]) rfl (pos_of_look (k := 0) (len := 2) F rfl) (pack_lt F) ?_ hw
  have m : fldN _ 26 6 = 5 := (fldN_pack F 26 6).trans rfl
  have e0_4 : fldN _ 0 4 = 2 := (fldN_pack F 0 4).trans (rfl)
  have f22 : fld _ 22 4 = o.gap := fld_pack F (fldN_self o.gap)
  have f17 : fld _ 17 5 = o.d := fld_pack F (fldN_self o.d)
  have f12 : fld _ 12 5 = o.a := fld_pack F (fldN_self o.a)
  have f7 : fld _ 7 5 = o.b := fld_pack F (fldN_self o.b)
  have f4 : fld _ 4 3 = o.k := fld_pack F (fldN_self o.k)
  generalize pack [(26, 5), (22, o.gap.toNat), (17, o.d.toNat), (12, o.a.toNat), (7, o.b.toNat), (4, o.k.toNat), (0, 2)] = n at *
  rw [decC05_of m]
  simp [decC05, e0_4, f22, f17, f12, f7, f4]

theorem vfshl (o : V3) : Statement (.vfshl o) := by
  intro st hs hw; cases hs
  have F : Fits 32 [(26, 5), (22, o.gap.toNat), (17, o.d.toNat), (12, o.a.toNat), (7, o.b.toNat), (4, o.k.toNat), (0, 3)] :=
    ⟨by decide, by decide, by decide, lt_of_isLt o.gap (by decide), by decide, lt_of_isLt o.d (by decide), by decide, lt_of_isLt o.a (by decide), by decide, lt_of_isLt o.b (by decide), by decide, lt_of_isLt o.k (by decide), by decide, by decide, trivial⟩
  refine decode_of (n := pack [(26, 5), (22, o.gap.toNat), (17, o.d.toNat), (12, o.a.toNat), (7, o.b.toNat), (4, o.k.toNat), (0, 3)]) rfl (pos_of_look (k := 0) (len := 2) F rfl) (pack_lt F) ?_ hw
  have m : fldN _ 26 6 = 5 := (fldN_pack F 26 6).trans rfl
  have e0_4 : fldN _ 0 4 = 3 := (fldN_pack F 0 4).trans (rfl)
  have f22 : fld _ 22 4 = o.gap := fld_pack F (fldN_self o.gap)
  have f17 : fld _ 17 5 = o.d := fld_pack F (fldN_self o.d)
  have f12 : fld _ 12 5 = o.a := fld_pack F (fldN_self o.a)
  have f7 : fld _ 7 5 = o.b := fld_pack F (fldN_self o.b)
  have f4 : fld _ 4 3 = o.k := fld_pack F (fldN_self o.k)
  generalize pack [(26, 5), (22, o.gap.toNat), (17, o.d.toNat), (12, o.a.toNat), (7, o.b.toNat), (4, o.k.toNat), (0, 3)] = n at *
  rw [decC05_of m]
  simp [decC05, e0_4, f22, f17, f12, f7, f4]

theorem vfshr (o : V3) : Statement (.vfshr o) := by
  intro st hs hw; cases hs
  have F : Fits 32 [(26, 5), (22, o.gap.toNat), (17, o.d.toNat), (12, o.a.toNat), (7, o.b.toNat), (4, o.k.toNat), (0, 4)] :=
    ⟨by decide, by decide, by decide, lt_of_isLt o.gap (by decide), by decide, lt_of_isLt o.d (by decide), by decide, lt_of_isLt o.a (by decide), by decide, lt_of_isLt o.b (by decide), by decide, lt_of_isLt o.k (by decide), by decide, by decide, trivial⟩
  refine decode_of (n := pack [(26, 5), (22, o.gap.toNat), (17, o.d.toNat), (12, o.a.toNat), (7, o.b.toNat), (4, o.k.toNat), (0, 4)]) rfl (pos_of_look (k := 0) (len := 3) F rfl) (pack_lt F) ?_ hw
  have m : fldN _ 26 6 = 5 := (fldN_pack F 26 6).trans rfl
  have e0_4 : fldN _ 0 4 = 4 := (fldN_pack F 0 4).trans (rfl)
  have f22 : fld _ 22 4 = o.gap := fld_pack F (fldN_self o.gap)
  have f17 : fld _ 17 5 = o.d := fld_pack F (fldN_self o.d)
  have f12 : fld _ 12 5 = o.a := fld_pack F (fldN_self o.a)
  have f7 : fld _ 7 5 = o.b := fld_pack F (fldN_self o.b)
  have f4 : fld _ 4 3 = o.k := fld_pack F (fldN_self o.k)
  generalize pack [(26, 5), (22, o.gap.toNat), (17, o.d.toNat), (12, o.a.toNat), (7, o.b.toNat), (4, o.k.toNat), (0, 4)] = n at *
  rw [decC05_of m]
  simp [decC05, e0_4, f22, f17, f12, f7, f4]

theorem vcmp (o : VCmpOp) : Statement (.vcmp o) := by
  intro st hs hw; cases hs
  have F : Fits 32 [(26, 6), (22, o.gap.toNat), (17, o.d.toNat), (12, o.a.toNat), (7, o.b.toNat), (4, o.k.toNat), (0, o.c.toNat)] :=
    ⟨by decide, by decide, by decide, lt_of_isLt o.gap (by decide), by decide, lt_of_isLt o.d (by decide), by decide, lt_of_isLt o.a (by decide), by decide, lt_of_isLt o.b (by decide), by decide, lt_of_isLt o.k (by decide), by decide, lt_of_isLt o.c (by decide), trivial⟩
  refine decode_of (n := pack [(26, 6), (22, o.gap.toNat), (17, o.d.toNat), (12, o.a.toNat), (7, o.b.toNat), (4, o.k.toNat), (0, o.c.toNat)]) rfl (pos_of_look (k := 26) (len := 3) F rfl) (pack_lt F) ?_ hw
  have m : fldN _ 26 6 = 6 := (fldN_pack F 26 6).trans rfl
  have e20_2 : fldN _ 20 2 = 0 := (fldN_pack F 20 2).trans (by have := o.d.isLt; simp [look, fldN]; omega)
  have f22 : fld _ 22 4 = o.gap := fld_pack F (fldN_self o.gap)
  have f17 : fld _ 17 3 = o.d := fld_pack F (fldN_self o.d)
  have f12 : fld _ 12 5 = o.a := fld_pack F (fldN_self o.a)
  have f7 : fld _ 7 5 = o.b := fld_pack F (fldN_self o.b)
  have f4 : fld _ 4 3 = o.k := fld_pack F (fldN_self o.k)
  have f0 : fld _ 0 4 = o.c := fld_pack F (fldN_self o.c)
  generalize pack [(26, 6), (22, o.gap.toNat), (17, o.d.toNat), (12, o.a.toNat), (7, o.b.toNat), (4, o.k.toNat), (0, o.c.toNat)] = n at *
  rw [decC06_of m]
  simp [decC06, e20_2, f22, f17, f12, f7, f4, f0]

theorem vsel (o : V3) : Statement (.vsel o) := by
  intro st hs hw; cases hs
  have F : Fits 32 [(26, 7), (22, o.gap.toNat), (17, o.d.toNat), (12, o.a.toNat), (7, o.b.toNat), (4, o.k.toNat)] :=
    ⟨by decide, by decide, by decide, lt_of_isLt o.gap (by decide), by decide, lt_of_isLt o.d (by decide), by decide, lt_of_isLt o.a (by decide), by decide, lt_of_isLt o.b (by decide), by decide, lt_of_isLt o.k (by decide), trivial⟩
  refine decode_of (n := pack [(26, 7), (22, o.gap.toNat), (17, o.d.toNat), (12, o.a.toNat), (7, o.b.toNat), (4, o.k.toNat)]) rfl (pos_of_look (k := 26) (len := 3) F rfl) (pack_lt F) ?_ hw
  have m : fldN _ 26 6 = 7 := (fldN_pack F 26 6).trans rfl
  have e0_4 : fldN _ 0 4 = 0 := (fldN_pack F 0 4).trans (rfl)
  have f22 : fld _ 22 4 = o.gap := fld_pack F (fldN_self o.gap)
  have f17 : fld _ 17 5 = o.d := fld_pack F (fldN_self o.d)
  have f12 : fld _ 12 5 = o.a := fld_pack F (fldN_self o.a)
  have f7 : fld _ 7 5 = o.b := fld_pack F (fldN_self o.b)
  have f4 : fld _ 4 3 = o.k := fld_pack F (fldN_self o.k)
  generalize pack [(26, 7), (22, o.gap.toNat), (17, o.d.toNat), (12, o.a.toNat), (7, o.b.toNat), (4, o.k.toNat)] = n at *
  rw [decC07_of m]
  simp [decC07, e0_4, f22, f17, f12, f7, f4]

theorem vrsum (o : V2) : Statement (.vrsum o) := by
  intro st hs hw; cases hs
  have F : Fits 32 [(26, 8), (22, o.gap.toNat), (17, o.d.toNat), (12, o.a.toNat), (4, o.k.toNat)] :=
    ⟨by decide, by decide, by decide, lt_of_isLt o.gap (by decide), by decide, lt_of_isLt o.d (by decide), by decide, lt_of_isLt o.a (by decide), by decide, lt_of_isLt o.k (by decide), trivial⟩
  refine decode_of (n := pack [(26, 8), (22, o.gap.toNat), (17, o.d.toNat), (12, o.a.toNat), (4, o.k.toNat)]) rfl (pos_of_look (k := 26) (len := 4) F rfl) (pack_lt F) ?_ hw
  have m : fldN _ 26 6 = 8 := (fldN_pack F 26 6).trans rfl
  have e0_4 : fldN _ 0 4 = 0 := (fldN_pack F 0 4).trans (rfl)
  have e7_5 : fldN _ 7 5 = 0 := (fldN_pack F 7 5).trans (by have := o.k.isLt; simp [look, fldN]; omega)
  have f22 : fld _ 22 4 = o.gap := fld_pack F (fldN_self o.gap)
  have f17 : fld _ 17 5 = o.d := fld_pack F (fldN_self o.d)
  have f12 : fld _ 12 5 = o.a := fld_pack F (fldN_self o.a)
  have f4 : fld _ 4 3 = o.k := fld_pack F (fldN_self o.k)
  generalize pack [(26, 8), (22, o.gap.toNat), (17, o.d.toNat), (12, o.a.toNat), (4, o.k.toNat)] = n at *
  rw [decC08_of m]
  simp [decC08, e0_4, e7_5, f22, f17, f12, f4]

theorem vrmax (o : V2) : Statement (.vrmax o) := by
  intro st hs hw; cases hs
  have F : Fits 32 [(26, 8), (22, o.gap.toNat), (17, o.d.toNat), (12, o.a.toNat), (4, o.k.toNat), (0, 1)] :=
    ⟨by decide, by decide, by decide, lt_of_isLt o.gap (by decide), by decide, lt_of_isLt o.d (by decide), by decide, lt_of_isLt o.a (by decide), by decide, lt_of_isLt o.k (by decide), by decide, by decide, trivial⟩
  refine decode_of (n := pack [(26, 8), (22, o.gap.toNat), (17, o.d.toNat), (12, o.a.toNat), (4, o.k.toNat), (0, 1)]) rfl (pos_of_look (k := 0) (len := 1) F rfl) (pack_lt F) ?_ hw
  have m : fldN _ 26 6 = 8 := (fldN_pack F 26 6).trans rfl
  have e0_4 : fldN _ 0 4 = 1 := (fldN_pack F 0 4).trans (rfl)
  have e7_5 : fldN _ 7 5 = 0 := (fldN_pack F 7 5).trans (by have := o.k.isLt; simp [look, fldN]; omega)
  have f22 : fld _ 22 4 = o.gap := fld_pack F (fldN_self o.gap)
  have f17 : fld _ 17 5 = o.d := fld_pack F (fldN_self o.d)
  have f12 : fld _ 12 5 = o.a := fld_pack F (fldN_self o.a)
  have f4 : fld _ 4 3 = o.k := fld_pack F (fldN_self o.k)
  generalize pack [(26, 8), (22, o.gap.toNat), (17, o.d.toNat), (12, o.a.toNat), (4, o.k.toNat), (0, 1)] = n at *
  rw [decC08_of m]
  simp [decC08, e0_4, e7_5, f22, f17, f12, f4]

theorem vrmin (o : V2) : Statement (.vrmin o) := by
  intro st hs hw; cases hs
  have F : Fits 32 [(26, 8), (22, o.gap.toNat), (17, o.d.toNat), (12, o.a.toNat), (4, o.k.toNat), (0, 2)] :=
    ⟨by decide, by decide, by decide, lt_of_isLt o.gap (by decide), by decide, lt_of_isLt o.d (by decide), by decide, lt_of_isLt o.a (by decide), by decide, lt_of_isLt o.k (by decide), by decide, by decide, trivial⟩
  refine decode_of (n := pack [(26, 8), (22, o.gap.toNat), (17, o.d.toNat), (12, o.a.toNat), (4, o.k.toNat), (0, 2)]) rfl (pos_of_look (k := 0) (len := 2) F rfl) (pack_lt F) ?_ hw
  have m : fldN _ 26 6 = 8 := (fldN_pack F 26 6).trans rfl
  have e0_4 : fldN _ 0 4 = 2 := (fldN_pack F 0 4).trans (rfl)
  have e7_5 : fldN _ 7 5 = 0 := (fldN_pack F 7 5).trans (by have := o.k.isLt; simp [look, fldN]; omega)
  have f22 : fld _ 22 4 = o.gap := fld_pack F (fldN_self o.gap)
  have f17 : fld _ 17 5 = o.d := fld_pack F (fldN_self o.d)
  have f12 : fld _ 12 5 = o.a := fld_pack F (fldN_self o.a)
  have f4 : fld _ 4 3 = o.k := fld_pack F (fldN_self o.k)
  generalize pack [(26, 8), (22, o.gap.toNat), (17, o.d.toNat), (12, o.a.toNat), (4, o.k.toNat), (0, 2)] = n at *
  rw [decC08_of m]
  simp [decC08, e0_4, e7_5, f22, f17, f12, f4]

theorem vcsum (o : V2) : Statement (.vcsum o) := by
  intro st hs hw; cases hs
  have F : Fits 32 [(26, 8), (22, o.gap.toNat), (17, o.d.toNat), (12, o.a.toNat), (4, o.k.toNat), (0, 3)] :=
    ⟨by decide, by decide, by decide, lt_of_isLt o.gap (by decide), by decide, lt_of_isLt o.d (by decide), by decide, lt_of_isLt o.a (by decide), by decide, lt_of_isLt o.k (by decide), by decide, by decide, trivial⟩
  refine decode_of (n := pack [(26, 8), (22, o.gap.toNat), (17, o.d.toNat), (12, o.a.toNat), (4, o.k.toNat), (0, 3)]) rfl (pos_of_look (k := 0) (len := 2) F rfl) (pack_lt F) ?_ hw
  have m : fldN _ 26 6 = 8 := (fldN_pack F 26 6).trans rfl
  have e0_4 : fldN _ 0 4 = 3 := (fldN_pack F 0 4).trans (rfl)
  have e7_5 : fldN _ 7 5 = 0 := (fldN_pack F 7 5).trans (by have := o.k.isLt; simp [look, fldN]; omega)
  have f22 : fld _ 22 4 = o.gap := fld_pack F (fldN_self o.gap)
  have f17 : fld _ 17 5 = o.d := fld_pack F (fldN_self o.d)
  have f12 : fld _ 12 5 = o.a := fld_pack F (fldN_self o.a)
  have f4 : fld _ 4 3 = o.k := fld_pack F (fldN_self o.k)
  generalize pack [(26, 8), (22, o.gap.toNat), (17, o.d.toNat), (12, o.a.toNat), (4, o.k.toNat), (0, 3)] = n at *
  rw [decC08_of m]
  simp [decC08, e0_4, e7_5, f22, f17, f12, f4]

theorem vcmax (o : V2) : Statement (.vcmax o) := by
  intro st hs hw; cases hs
  have F : Fits 32 [(26, 8), (22, o.gap.toNat), (17, o.d.toNat), (12, o.a.toNat), (4, o.k.toNat), (0, 4)] :=
    ⟨by decide, by decide, by decide, lt_of_isLt o.gap (by decide), by decide, lt_of_isLt o.d (by decide), by decide, lt_of_isLt o.a (by decide), by decide, lt_of_isLt o.k (by decide), by decide, by decide, trivial⟩
  refine decode_of (n := pack [(26, 8), (22, o.gap.toNat), (17, o.d.toNat), (12, o.a.toNat), (4, o.k.toNat), (0, 4)]) rfl (pos_of_look (k := 0) (len := 3) F rfl) (pack_lt F) ?_ hw
  have m : fldN _ 26 6 = 8 := (fldN_pack F 26 6).trans rfl
  have e0_4 : fldN _ 0 4 = 4 := (fldN_pack F 0 4).trans (rfl)
  have e7_5 : fldN _ 7 5 = 0 := (fldN_pack F 7 5).trans (by have := o.k.isLt; simp [look, fldN]; omega)
  have f22 : fld _ 22 4 = o.gap := fld_pack F (fldN_self o.gap)
  have f17 : fld _ 17 5 = o.d := fld_pack F (fldN_self o.d)
  have f12 : fld _ 12 5 = o.a := fld_pack F (fldN_self o.a)
  have f4 : fld _ 4 3 = o.k := fld_pack F (fldN_self o.k)
  generalize pack [(26, 8), (22, o.gap.toNat), (17, o.d.toNat), (12, o.a.toNat), (4, o.k.toNat), (0, 4)] = n at *
  rw [decC08_of m]
  simp [decC08, e0_4, e7_5, f22, f17, f12, f4]

theorem vany (o : VVote) : Statement (.vany o) := by
  intro st hs hw; cases hs
  have F : Fits 32 [(26, 9), (22, o.gap.toNat), (12, o.f.toNat), (4, o.k.toNat)] :=
    ⟨by decide, by decide, by decide, lt_of_isLt o.gap (by decide), by decide, lt_of_isLt o.f (by decide), by decide, lt_of_isLt o.k (by decide), trivial⟩
  refine decode_of (n := pack [(26, 9), (22, o.gap.toNat), (12, o.f.toNat), (4, o.k.toNat)]) rfl (pos_of_look (k := 26) (len := 4) F rfl) (pack_lt F) ?_ hw
  have m : fldN _ 26 6 = 9 := (fldN_pack F 26 6).trans rfl
  have e0_4 : fldN _ 0 4 = 0 := (fldN_pack F 0 4).trans (rfl)
  have e7_5 : fldN _ 7 5 = 0 := (fldN_pack F 7 5).trans (by have := o.k.isLt; simp [look, fldN]; omega)
  have f22 : fld _ 22 4 = o.gap := fld_pack F (fldN_self o.gap)
  have f12 : fld _ 12 10 = o.f := fld_pack F (fldN_self o.f)
  have f4 : fld _ 4 3 = o.k := fld_pack F (fldN_self o.k)
  generalize pack [(26, 9), (22, o.gap.toNat), (12, o.f.toNat), (4, o.k.toNat)] = n at *
  rw [decC09_of m]
  simp [decC09, e0_4, e7_5, f22, f12, f4]

theorem vall (o : VVote) : Statement (.vall o) := by
  intro st hs hw; cases hs
  have F : Fits 32 [(26, 9), (22, o.gap.toNat), (12, o.f.toNat), (4, o.k.toNat), (0, 1)] :=
    ⟨by decide, by decide, by decide, lt_of_isLt o.gap (by decide), by decide, lt_of_isLt o.f (by decide), by decide, lt_of_isLt o.k (by decide), by decide, by decide, trivial⟩
  refine decode_of (n := pack [(26, 9), (22, o.gap.toNat), (12, o.f.toNat), (4, o.k.toNat), (0, 1)]) rfl (pos_of_look (k := 0) (len := 1) F rfl) (pack_lt F) ?_ hw
  have m : fldN _ 26 6 = 9 := (fldN_pack F 26 6).trans rfl
  have e0_4 : fldN _ 0 4 = 1 := (fldN_pack F 0 4).trans (rfl)
  have e7_5 : fldN _ 7 5 = 0 := (fldN_pack F 7 5).trans (by have := o.k.isLt; simp [look, fldN]; omega)
  have f22 : fld _ 22 4 = o.gap := fld_pack F (fldN_self o.gap)
  have f12 : fld _ 12 10 = o.f := fld_pack F (fldN_self o.f)
  have f4 : fld _ 4 3 = o.k := fld_pack F (fldN_self o.k)
  generalize pack [(26, 9), (22, o.gap.toNat), (12, o.f.toNat), (4, o.k.toNat), (0, 1)] = n at *
  rw [decC09_of m]
  simp [decC09, e0_4, e7_5, f22, f12, f4]

theorem vperm (o : V3) : Statement (.vperm o) := by
  intro st hs hw; cases hs
  have F : Fits 32 [(26, 10), (22, o.gap.toNat), (17, o.d.toNat), (12, o.a.toNat), (7, o.b.toNat), (4, o.k.toNat)] :=
    ⟨by decide, by decide, by decide, lt_of_isLt o.gap (by decide), by decide, lt_of_isLt o.d (by decide), by decide, lt_of_isLt o.a (by decide), by decide, lt_of_isLt o.b (by decide), by decide, lt_of_isLt o.k (by decide), trivial⟩
  refine decode_of (n := pack [(26, 10), (22, o.gap.toNat), (17, o.d.toNat), (12, o.a.toNat), (7, o.b.toNat), (4, o.k.toNat)]) rfl (pos_of_look (k := 26) (len := 4) F rfl) (pack_lt F) ?_ hw
  have m : fldN _ 26 6 = 10 := (fldN_pack F 26 6).trans rfl
  have e0_4 : fldN _ 0 4 = 0 := (fldN_pack F 0 4).trans (rfl)
  have f22 : fld _ 22 4 = o.gap := fld_pack F (fldN_self o.gap)
  have f17 : fld _ 17 5 = o.d := fld_pack F (fldN_self o.d)
  have f12 : fld _ 12 5 = o.a := fld_pack F (fldN_self o.a)
  have f7 : fld _ 7 5 = o.b := fld_pack F (fldN_self o.b)
  have f4 : fld _ 4 3 = o.k := fld_pack F (fldN_self o.k)
  generalize pack [(26, 10), (22, o.gap.toNat), (17, o.d.toNat), (12, o.a.toNat), (7, o.b.toNat), (4, o.k.toNat)] = n at *
  rw [decC0a_of m]
  simp [decC0a, e0_4, f22, f17, f12, f7, f4]

theorem vtrn (o : V3) : Statement (.vtrn o) := by
  intro st hs hw; cases hs
  have F : Fits 32 [(26, 10), (22, o.gap.toNat), (17, o.d.toNat), (12, o.a.toNat), (7, o.b.toNat), (4, o.k.toNat), (0, 1)] :=
    ⟨by decide, by decide, by decide, lt_of_isLt o.gap (by decide), by decide, lt_of_isLt o.d (by decide), by decide, lt_of_isLt o.a (by decide), by decide, lt_of_isLt o.b (by decide), by decide, lt_of_isLt o.k (by decide), by decide, by decide, trivial⟩
  refine decode_of (n := pack [(26, 10), (22, o.gap.toNat), (17, o.d.toNat), (12, o.a.toNat), (7, o.b.toNat), (4, o.k.toNat), (0, 1)]) rfl (pos_of_look (k := 0) (len := 1) F rfl) (pack_lt F) ?_ hw
  have m : fldN _ 26 6 = 10 := (fldN_pack F 26 6).trans rfl
  have e0_4 : fldN _ 0 4 = 1 := (fldN_pack F 0 4).trans (rfl)
  have f22 : fld _ 22 4 = o.gap := fld_pack F (fldN_self o.gap)
  have f17 : fld _ 17 5 = o.d := fld_pack F (fldN_self o.d)
  have f12 : fld _ 12 5 = o.a := fld_pack F (fldN_self o.a)
  have f7 : fld _ 7 5 = o.b := fld_pack F (fldN_self o.b)
  have f4 : fld _ 4 3 = o.k := fld_pack F (fldN_self o.k)
  generalize pack [(26, 10), (22, o.gap.toNat), (17, o.d.toNat), (12, o.a.toNat), (7, o.b.toNat), (4, o.k.toNat), (0, 1)] = n at *
  rw [decC0a_of m]
  simp [decC0a, e0_4, f22, f17, f12, f7, f4]

theorem vbcast (o : V3) : Statement (.vbcast o) := by
  intro st hs hw; cases hs
  have F : Fits 32 [(26, 10), (22, o.gap.toNat), (17, o.d.toNat), (12, o.a.toNat), (7, o.b.toNat), (4, o.k.toNat), (0, 2)] :=
    ⟨by decide, by decide, by decide, lt_of_isLt o.gap (by decide), by decide, lt_of_isLt o.d (by decide), by decide, lt_of_isLt o.a (by decide), by decide, lt_of_isLt o.b (by decide), by decide, lt_of_isLt o.k (by decide), by decide, by decide, trivial⟩
  refine decode_of (n := pack [(26, 10), (22, o.gap.toNat), (17, o.d.toNat), (12, o.a.toNat), (7, o.b.toNat), (4, o.k.toNat), (0, 2)]) rfl (pos_of_look (k := 0) (len := 2) F rfl) (pack_lt F) ?_ hw
  have m : fldN _ 26 6 = 10 := (fldN_pack F 26 6).trans rfl
  have e0_4 : fldN _ 0 4 = 2 := (fldN_pack F 0 4).trans (rfl)
  have f22 : fld _ 22 4 = o.gap := fld_pack F (fldN_self o.gap)
  have f17 : fld _ 17 5 = o.d := fld_pack F (fldN_self o.d)
  have f12 : fld _ 12 5 = o.a := fld_pack F (fldN_self o.a)
  have f7 : fld _ 7 5 = o.b := fld_pack F (fldN_self o.b)
  have f4 : fld _ 4 3 = o.k := fld_pack F (fldN_self o.k)
  generalize pack [(26, 10), (22, o.gap.toNat), (17, o.d.toNat), (12, o.a.toNat), (7, o.b.toNat), (4, o.k.toNat), (0, 2)] = n at *
  rw [decC0a_of m]
  simp [decC0a, e0_4, f22, f17, f12, f7, f4]

theorem vrot (o : V3) : Statement (.vrot o) := by
  intro st hs hw; cases hs
  have F : Fits 32 [(26, 10), (22, o.gap.toNat), (17, o.d.toNat), (12, o.a.toNat), (7, o.b.toNat), (4, o.k.toNat), (0, 3)] :=
    ⟨by decide, by decide, by decide, lt_of_isLt o.gap (by decide), by decide, lt_of_isLt o.d (by decide), by decide, lt_of_isLt o.a (by decide), by decide, lt_of_isLt o.b (by decide), by decide, lt_of_isLt o.k (by decide), by decide, by decide, trivial⟩
  refine decode_of (n := pack [(26, 10), (22, o.gap.toNat), (17, o.d.toNat), (12, o.a.toNat), (7, o.b.toNat), (4, o.k.toNat), (0, 3)]) rfl (pos_of_look (k := 0) (len := 2) F rfl) (pack_lt F) ?_ hw
  have m : fldN _ 26 6 = 10 := (fldN_pack F 26 6).trans rfl
  have e0_4 : fldN _ 0 4 = 3 := (fldN_pack F 0 4).trans (rfl)
  have f22 : fld _ 22 4 = o.gap := fld_pack F (fldN_self o.gap)
  have f17 : fld _ 17 5 = o.d := fld_pack F (fldN_self o.d)
  have f12 : fld _ 12 5 = o.a := fld_pack F (fldN_self o.a)
  have f7 : fld _ 7 5 = o.b := fld_pack F (fldN_self o.b)
  have f4 : fld _ 4 3 = o.k := fld_pack F (fldN_self o.k)
  generalize pack [(26, 10), (22, o.gap.toNat), (17, o.d.toNat), (12, o.a.toNat), (7, o.b.toNat), (4, o.k.toNat), (0, 3)] = n at *
  rw [decC0a_of m]
  simp [decC0a, e0_4, f22, f17, f12, f7, f4]

theorem vcvt (o : VCvtOp) : Statement (.vcvt o) := by
  intro st hs hw; cases hs
  have F : Fits 32 [(26, 11), (22, o.gap.toNat), (17, o.d.toNat), (12, o.a.toNat), (9, o.r.toNat), (4, o.k.toNat), (0, o.t.toNat)] :=
    ⟨by decide, by decide, by decide, lt_of_isLt o.gap (by decide), by decide, lt_of_isLt o.d (by decide), by decide, lt_of_isLt o.a (by decide), by decide, lt_of_isLt o.r (by decide), by decide, lt_of_isLt o.k (by decide), by decide, lt_of_isLt o.t (by decide), trivial⟩
  refine decode_of (n := pack [(26, 11), (22, o.gap.toNat), (17, o.d.toNat), (12, o.a.toNat), (9, o.r.toNat), (4, o.k.toNat), (0, o.t.toNat)]) rfl (pos_of_look (k := 26) (len := 4) F rfl) (pack_lt F) ?_ hw
  have m : fldN _ 26 6 = 11 := (fldN_pack F 26 6).trans rfl
  have e7_2 : fldN _ 7 2 = 0 := (fldN_pack F 7 2).trans (by have := o.k.isLt; simp [look, fldN]; omega)
  have f22 : fld _ 22 4 = o.gap := fld_pack F (fldN_self o.gap)
  have f17 : fld _ 17 5 = o.d := fld_pack F (fldN_self o.d)
  have f12 : fld _ 12 5 = o.a := fld_pack F (fldN_self o.a)
  have f9 : fld _ 9 3 = o.r := fld_pack F (fldN_self o.r)
  have f4 : fld _ 4 3 = o.k := fld_pack F (fldN_self o.k)
  have f0 : fld _ 0 4 = o.t := fld_pack F (fldN_self o.t)
  generalize pack [(26, 11), (22, o.gap.toNat), (17, o.d.toNat), (12, o.a.toNat), (9, o.r.toNat), (4, o.k.toNat), (0, o.t.toNat)] = n at *
  rw [decC0b_of m]
  simp [decC0b, e7_2, f22, f17, f12, f9, f4, f0]

theorem vquant (o : VCvtOp) : Statement (.vquant o) := by
  intro st hs hw; cases hs
  have F : Fits 32 [(26, 12), (22, o.gap.toNat), (17, o.d.toNat), (12, o.a.toNat), (9, o.r.toNat), (4, o.k.toNat), (0, o.t.toNat)] :=
    ⟨by decide, by decide, by decide, lt_of_isLt o.gap (by decide), by decide, lt_of_isLt o.d (by decide), by decide, lt_of_isLt o.a (by decide), by decide, lt_of_isLt o.r (by decide), by decide, lt_of_isLt o.k (by decide), by decide, lt_of_isLt o.t (by decide), trivial⟩
  refine decode_of (n := pack [(26, 12), (22, o.gap.toNat), (17, o.d.toNat), (12, o.a.toNat), (9, o.r.toNat), (4, o.k.toNat), (0, o.t.toNat)]) rfl (pos_of_look (k := 26) (len := 4) F rfl) (pack_lt F) ?_ hw
  have m : fldN _ 26 6 = 12 := (fldN_pack F 26 6).trans rfl
  have e7_2 : fldN _ 7 2 = 0 := (fldN_pack F 7 2).trans (by have := o.k.isLt; simp [look, fldN]; omega)
  have f22 : fld _ 22 4 = o.gap := fld_pack F (fldN_self o.gap)
  have f17 : fld _ 17 5 = o.d := fld_pack F (fldN_self o.d)
  have f12 : fld _ 12 5 = o.a := fld_pack F (fldN_self o.a)
  have f9 : fld _ 9 3 = o.r := fld_pack F (fldN_self o.r)
  have f4 : fld _ 4 3 = o.k := fld_pack F (fldN_self o.k)
  have f0 : fld _ 0 4 = o.t := fld_pack F (fldN_self o.t)
  generalize pack [(26, 12), (22, o.gap.toNat), (17, o.d.toNat), (12, o.a.toNat), (9, o.r.toNat), (4, o.k.toNat), (0, o.t.toNat)] = n at *
  rw [decC0c_of m]
  simp [decC0c, e7_2, f22, f17, f12, f9, f4, f0]

theorem vdeq (o : VDeqOp) : Statement (.vdeq o) := by
  intro st hs hw; cases hs
  have F : Fits 32 [(26, 13), (22, o.gap.toNat), (17, o.d.toNat), (12, o.a.toNat), (4, o.k.toNat), (0, o.t.toNat)] :=
    ⟨by decide, by decide, by decide, lt_of_isLt o.gap (by decide), by decide, lt_of_isLt o.d (by decide), by decide, lt_of_isLt o.a (by decide), by decide, lt_of_isLt o.k (by decide), by decide, lt_of_isLt o.t (by decide), trivial⟩
  refine decode_of (n := pack [(26, 13), (22, o.gap.toNat), (17, o.d.toNat), (12, o.a.toNat), (4, o.k.toNat), (0, o.t.toNat)]) rfl (pos_of_look (k := 26) (len := 4) F rfl) (pack_lt F) ?_ hw
  have m : fldN _ 26 6 = 13 := (fldN_pack F 26 6).trans rfl
  have e7_5 : fldN _ 7 5 = 0 := (fldN_pack F 7 5).trans (by have := o.k.isLt; simp [look, fldN]; omega)
  have f22 : fld _ 22 4 = o.gap := fld_pack F (fldN_self o.gap)
  have f17 : fld _ 17 5 = o.d := fld_pack F (fldN_self o.d)
  have f12 : fld _ 12 5 = o.a := fld_pack F (fldN_self o.a)
  have f4 : fld _ 4 3 = o.k := fld_pack F (fldN_self o.k)
  have f0 : fld _ 0 4 = o.t := fld_pack F (fldN_self o.t)
  generalize pack [(26, 13), (22, o.gap.toNat), (17, o.d.toNat), (12, o.a.toNat), (4, o.k.toNat), (0, o.t.toNat)] = n at *
  rw [decC0d_of m]
  simp [decC0d, e7_5, f22, f17, f12, f4, f0]

theorem vmov (o : V2) : Statement (.vmov o) := by
  intro st hs hw; cases hs
  have F : Fits 32 [(26, 14), (22, o.gap.toNat), (17, o.d.toNat), (12, o.a.toNat), (4, o.k.toNat)] :=
    ⟨by decide, by decide, by decide, lt_of_isLt o.gap (by decide), by decide, lt_of_isLt o.d (by decide), by decide, lt_of_isLt o.a (by decide), by decide, lt_of_isLt o.k (by decide), trivial⟩
  refine decode_of (n := pack [(26, 14), (22, o.gap.toNat), (17, o.d.toNat), (12, o.a.toNat), (4, o.k.toNat)]) rfl (pos_of_look (k := 26) (len := 4) F rfl) (pack_lt F) ?_ hw
  have m : fldN _ 26 6 = 14 := (fldN_pack F 26 6).trans rfl
  have e0_4 : fldN _ 0 4 = 0 := (fldN_pack F 0 4).trans (rfl)
  have e7_5 : fldN _ 7 5 = 0 := (fldN_pack F 7 5).trans (by have := o.k.isLt; simp [look, fldN]; omega)
  have f22 : fld _ 22 4 = o.gap := fld_pack F (fldN_self o.gap)
  have f17 : fld _ 17 5 = o.d := fld_pack F (fldN_self o.d)
  have f12 : fld _ 12 5 = o.a := fld_pack F (fldN_self o.a)
  have f4 : fld _ 4 3 = o.k := fld_pack F (fldN_self o.k)
  generalize pack [(26, 14), (22, o.gap.toNat), (17, o.d.toNat), (12, o.a.toNat), (4, o.k.toNat)] = n at *
  rw [decC0e_of m]
  simp [decC0e, e0_4, e7_5, f22, f17, f12, f4]

theorem vldi (o : VImm) : Statement (.vldi o) := by
  intro st hs hw; cases hs
  have F : Fits 32 [(26, 14), (22, o.gap.toNat), (17, o.d.toNat), (7, o.i.toNat), (4, o.k.toNat), (0, 1)] :=
    ⟨by decide, by decide, by decide, lt_of_isLt o.gap (by decide), by decide, lt_of_isLt o.d (by decide), by decide, lt_of_isLt o.i (by decide), by decide, lt_of_isLt o.k (by decide), by decide, by decide, trivial⟩
  refine decode_of (n := pack [(26, 14), (22, o.gap.toNat), (17, o.d.toNat), (7, o.i.toNat), (4, o.k.toNat), (0, 1)]) rfl (pos_of_look (k := 0) (len := 1) F rfl) (pack_lt F) ?_ hw
  have m : fldN _ 26 6 = 14 := (fldN_pack F 26 6).trans rfl
  have e0_4 : fldN _ 0 4 = 1 := (fldN_pack F 0 4).trans (rfl)
  have f22 : fld _ 22 4 = o.gap := fld_pack F (fldN_self o.gap)
  have f17 : fld _ 17 5 = o.d := fld_pack F (fldN_self o.d)
  have f7 : fld _ 7 10 = o.i := fld_pack F (fldN_self o.i)
  have f4 : fld _ 4 3 = o.k := fld_pack F (fldN_self o.k)
  generalize pack [(26, 14), (22, o.gap.toNat), (17, o.d.toNat), (7, o.i.toNat), (4, o.k.toNat), (0, 1)] = n at *
  rw [decC0e_of m]
  simp [decC0e, e0_4, f22, f17, f7, f4]

theorem vshape (o : VShapeOp) : Statement (.vshape o) := by
  intro st hs hw; cases hs
  have F : Fits 32 [(26, 14), (22, o.gap.toNat), (17, o.d.toNat), (12, o.r.toNat), (8, o.c.toNat), (0, 2)] :=
    ⟨by decide, by decide, by decide, lt_of_isLt o.gap (by decide), by decide, lt_of_isLt o.d (by decide), by decide, lt_of_isLt o.r (by decide), by decide, lt_of_isLt o.c (by decide), by decide, by decide, trivial⟩
  refine decode_of (n := pack [(26, 14), (22, o.gap.toNat), (17, o.d.toNat), (12, o.r.toNat), (8, o.c.toNat), (0, 2)]) rfl (pos_of_look (k := 0) (len := 2) F rfl) (pack_lt F) ?_ hw
  have m : fldN _ 26 6 = 14 := (fldN_pack F 26 6).trans rfl
  have e0_4 : fldN _ 0 4 = 2 := (fldN_pack F 0 4).trans (rfl)
  have e0_8 : fldN _ 0 8 = 2 := (fldN_pack F 0 8).trans (rfl)
  have f22 : fld _ 22 4 = o.gap := fld_pack F (fldN_self o.gap)
  have f17 : fld _ 17 5 = o.d := fld_pack F (fldN_self o.d)
  have f12 : fld _ 12 5 = o.r := fld_pack F (fldN_self o.r)
  have f8 : fld _ 8 4 = o.c := fld_pack F (fldN_self o.c)
  generalize pack [(26, 14), (22, o.gap.toNat), (17, o.d.toNat), (12, o.r.toNat), (8, o.c.toNat), (0, 2)] = n at *
  rw [decC0e_of m]
  simp [decC0e, e0_4, e0_8, f22, f17, f12, f8]

theorem mand (o : M3) : Statement (.mand o) := by
  intro st hs hw; cases hs
  have F : Fits 32 [(26, 15), (22, o.gap.toNat), (17, o.d.toNat), (12, o.a.toNat), (7, o.b.toNat), (4, o.k.toNat)] :=
    ⟨by decide, by decide, by decide, lt_of_isLt o.gap (by decide), by decide, lt_of_isLt o.d (by decide), by decide, lt_of_isLt o.a (by decide), by decide, lt_of_isLt o.b (by decide), by decide, lt_of_isLt o.k (by decide), trivial⟩
  refine decode_of (n := pack [(26, 15), (22, o.gap.toNat), (17, o.d.toNat), (12, o.a.toNat), (7, o.b.toNat), (4, o.k.toNat)]) rfl (pos_of_look (k := 26) (len := 4) F rfl) (pack_lt F) ?_ hw
  have m : fldN _ 26 6 = 15 := (fldN_pack F 26 6).trans rfl
  have e0_4 : fldN _ 0 4 = 0 := (fldN_pack F 0 4).trans (rfl)
  have e10_2 : fldN _ 10 2 = 0 := (fldN_pack F 10 2).trans (by have := o.b.isLt; simp [look, fldN]; omega)
  have e15_2 : fldN _ 15 2 = 0 := (fldN_pack F 15 2).trans (by have := o.a.isLt; simp [look, fldN]; omega)
  have e20_2 : fldN _ 20 2 = 0 := (fldN_pack F 20 2).trans (by have := o.d.isLt; simp [look, fldN]; omega)
  have f22 : fld _ 22 4 = o.gap := fld_pack F (fldN_self o.gap)
  have f17 : fld _ 17 3 = o.d := fld_pack F (fldN_self o.d)
  have f12 : fld _ 12 3 = o.a := fld_pack F (fldN_self o.a)
  have f7 : fld _ 7 3 = o.b := fld_pack F (fldN_self o.b)
  have f4 : fld _ 4 3 = o.k := fld_pack F (fldN_self o.k)
  generalize pack [(26, 15), (22, o.gap.toNat), (17, o.d.toNat), (12, o.a.toNat), (7, o.b.toNat), (4, o.k.toNat)] = n at *
  rw [decC0f_of m]
  simp [decC0f, e0_4, e10_2, e15_2, e20_2, f22, f17, f12, f7, f4]

theorem mor (o : M3) : Statement (.mor o) := by
  intro st hs hw; cases hs
  have F : Fits 32 [(26, 15), (22, o.gap.toNat), (17, o.d.toNat), (12, o.a.toNat), (7, o.b.toNat), (4, o.k.toNat), (0, 1)] :=
    ⟨by decide, by decide, by decide, lt_of_isLt o.gap (by decide), by decide, lt_of_isLt o.d (by decide), by decide, lt_of_isLt o.a (by decide), by decide, lt_of_isLt o.b (by decide), by decide, lt_of_isLt o.k (by decide), by decide, by decide, trivial⟩
  refine decode_of (n := pack [(26, 15), (22, o.gap.toNat), (17, o.d.toNat), (12, o.a.toNat), (7, o.b.toNat), (4, o.k.toNat), (0, 1)]) rfl (pos_of_look (k := 0) (len := 1) F rfl) (pack_lt F) ?_ hw
  have m : fldN _ 26 6 = 15 := (fldN_pack F 26 6).trans rfl
  have e0_4 : fldN _ 0 4 = 1 := (fldN_pack F 0 4).trans (rfl)
  have e10_2 : fldN _ 10 2 = 0 := (fldN_pack F 10 2).trans (by have := o.b.isLt; simp [look, fldN]; omega)
  have e15_2 : fldN _ 15 2 = 0 := (fldN_pack F 15 2).trans (by have := o.a.isLt; simp [look, fldN]; omega)
  have e20_2 : fldN _ 20 2 = 0 := (fldN_pack F 20 2).trans (by have := o.d.isLt; simp [look, fldN]; omega)
  have f22 : fld _ 22 4 = o.gap := fld_pack F (fldN_self o.gap)
  have f17 : fld _ 17 3 = o.d := fld_pack F (fldN_self o.d)
  have f12 : fld _ 12 3 = o.a := fld_pack F (fldN_self o.a)
  have f7 : fld _ 7 3 = o.b := fld_pack F (fldN_self o.b)
  have f4 : fld _ 4 3 = o.k := fld_pack F (fldN_self o.k)
  generalize pack [(26, 15), (22, o.gap.toNat), (17, o.d.toNat), (12, o.a.toNat), (7, o.b.toNat), (4, o.k.toNat), (0, 1)] = n at *
  rw [decC0f_of m]
  simp [decC0f, e0_4, e10_2, e15_2, e20_2, f22, f17, f12, f7, f4]

theorem mxor (o : M3) : Statement (.mxor o) := by
  intro st hs hw; cases hs
  have F : Fits 32 [(26, 15), (22, o.gap.toNat), (17, o.d.toNat), (12, o.a.toNat), (7, o.b.toNat), (4, o.k.toNat), (0, 2)] :=
    ⟨by decide, by decide, by decide, lt_of_isLt o.gap (by decide), by decide, lt_of_isLt o.d (by decide), by decide, lt_of_isLt o.a (by decide), by decide, lt_of_isLt o.b (by decide), by decide, lt_of_isLt o.k (by decide), by decide, by decide, trivial⟩
  refine decode_of (n := pack [(26, 15), (22, o.gap.toNat), (17, o.d.toNat), (12, o.a.toNat), (7, o.b.toNat), (4, o.k.toNat), (0, 2)]) rfl (pos_of_look (k := 0) (len := 2) F rfl) (pack_lt F) ?_ hw
  have m : fldN _ 26 6 = 15 := (fldN_pack F 26 6).trans rfl
  have e0_4 : fldN _ 0 4 = 2 := (fldN_pack F 0 4).trans (rfl)
  have e10_2 : fldN _ 10 2 = 0 := (fldN_pack F 10 2).trans (by have := o.b.isLt; simp [look, fldN]; omega)
  have e15_2 : fldN _ 15 2 = 0 := (fldN_pack F 15 2).trans (by have := o.a.isLt; simp [look, fldN]; omega)
  have e20_2 : fldN _ 20 2 = 0 := (fldN_pack F 20 2).trans (by have := o.d.isLt; simp [look, fldN]; omega)
  have f22 : fld _ 22 4 = o.gap := fld_pack F (fldN_self o.gap)
  have f17 : fld _ 17 3 = o.d := fld_pack F (fldN_self o.d)
  have f12 : fld _ 12 3 = o.a := fld_pack F (fldN_self o.a)
  have f7 : fld _ 7 3 = o.b := fld_pack F (fldN_self o.b)
  have f4 : fld _ 4 3 = o.k := fld_pack F (fldN_self o.k)
  generalize pack [(26, 15), (22, o.gap.toNat), (17, o.d.toNat), (12, o.a.toNat), (7, o.b.toNat), (4, o.k.toNat), (0, 2)] = n at *
  rw [decC0f_of m]
  simp [decC0f, e0_4, e10_2, e15_2, e20_2, f22, f17, f12, f7, f4]

theorem mnot (o : M2) : Statement (.mnot o) := by
  intro st hs hw; cases hs
  have F : Fits 32 [(26, 15), (22, o.gap.toNat), (17, o.d.toNat), (12, o.a.toNat), (4, o.k.toNat), (0, 3)] :=
    ⟨by decide, by decide, by decide, lt_of_isLt o.gap (by decide), by decide, lt_of_isLt o.d (by decide), by decide, lt_of_isLt o.a (by decide), by decide, lt_of_isLt o.k (by decide), by decide, by decide, trivial⟩
  refine decode_of (n := pack [(26, 15), (22, o.gap.toNat), (17, o.d.toNat), (12, o.a.toNat), (4, o.k.toNat), (0, 3)]) rfl (pos_of_look (k := 0) (len := 2) F rfl) (pack_lt F) ?_ hw
  have m : fldN _ 26 6 = 15 := (fldN_pack F 26 6).trans rfl
  have e0_4 : fldN _ 0 4 = 3 := (fldN_pack F 0 4).trans (rfl)
  have e7_5 : fldN _ 7 5 = 0 := (fldN_pack F 7 5).trans (by have := o.k.isLt; simp [look, fldN]; omega)
  have e15_2 : fldN _ 15 2 = 0 := (fldN_pack F 15 2).trans (by have := o.a.isLt; simp [look, fldN]; omega)
  have e20_2 : fldN _ 20 2 = 0 := (fldN_pack F 20 2).trans (by have := o.d.isLt; simp [look, fldN]; omega)
  have f22 : fld _ 22 4 = o.gap := fld_pack F (fldN_self o.gap)
  have f17 : fld _ 17 3 = o.d := fld_pack F (fldN_self o.d)
  have f12 : fld _ 12 3 = o.a := fld_pack F (fldN_self o.a)
  have f4 : fld _ 4 3 = o.k := fld_pack F (fldN_self o.k)
  generalize pack [(26, 15), (22, o.gap.toNat), (17, o.d.toNat), (12, o.a.toNat), (4, o.k.toNat), (0, 3)] = n at *
  rw [decC0f_of m]
  simp [decC0f, e0_4, e7_5, e15_2, e20_2, f22, f17, f12, f4]

theorem mrange (o : MRng) : Statement (.mrange o) := by
  intro st hs hw; cases hs
  have F : Fits 32 [(26, 15), (22, o.gap.toNat), (17, o.d.toNat), (12, o.a.toNat), (4, o.k.toNat), (0, 4)] :=
    ⟨by decide, by decide, by decide, lt_of_isLt o.gap (by decide), by decide, lt_of_isLt o.d (by decide), by decide, lt_of_isLt o.a (by decide), by decide, lt_of_isLt o.k (by decide), by decide, by decide, trivial⟩
  refine decode_of (n := pack [(26, 15), (22, o.gap.toNat), (17, o.d.toNat), (12, o.a.toNat), (4, o.k.toNat), (0, 4)]) rfl (pos_of_look (k := 0) (len := 3) F rfl) (pack_lt F) ?_ hw
  have m : fldN _ 26 6 = 15 := (fldN_pack F 26 6).trans rfl
  have e0_4 : fldN _ 0 4 = 4 := (fldN_pack F 0 4).trans (rfl)
  have e7_5 : fldN _ 7 5 = 0 := (fldN_pack F 7 5).trans (by have := o.k.isLt; simp [look, fldN]; omega)
  have e20_2 : fldN _ 20 2 = 0 := (fldN_pack F 20 2).trans (by have := o.d.isLt; simp [look, fldN]; omega)
  have f22 : fld _ 22 4 = o.gap := fld_pack F (fldN_self o.gap)
  have f17 : fld _ 17 3 = o.d := fld_pack F (fldN_self o.d)
  have f12 : fld _ 12 5 = o.a := fld_pack F (fldN_self o.a)
  have f4 : fld _ 4 3 = o.k := fld_pack F (fldN_self o.k)
  generalize pack [(26, 15), (22, o.gap.toNat), (17, o.d.toNat), (12, o.a.toNat), (4, o.k.toNat), (0, 4)] = n at *
  rw [decC0f_of m]
  simp [decC0f, e0_4, e7_5, e20_2, f22, f17, f12, f4]

theorem mma (o : MmaOp) : Statement (.mma o) := by
  intro st hs hw; cases hs
  have F : Fits 32 [(26, 32), (22, o.gap.toNat), (20, o.n.toNat), (16, o.a.toNat), (12, o.b.toNat), (11, o.s.toNat), (10, o.f.toNat), (9, o.c.toNat)] :=
    ⟨by decide, by decide, by decide, lt_of_isLt o.gap (by decide), by decide, lt_of_isLt o.n (by decide), by decide, lt_of_isLt o.a (by decide), by decide, lt_of_isLt o.b (by decide), by decide, lt_of_isLt o.s (by decide), by decide, lt_of_isLt o.f (by decide), by decide, lt_of_isLt o.c (by decide), trivial⟩
  refine decode_of (n := pack [(26, 32), (22, o.gap.toNat), (20, o.n.toNat), (16, o.a.toNat), (12, o.b.toNat), (11, o.s.toNat), (10, o.f.toNat), (9, o.c.toNat)]) rfl (pos_of_look (k := 26) (len := 6) F rfl) (pack_lt F) ?_ hw
  have m : fldN _ 26 6 = 32 := (fldN_pack F 26 6).trans rfl
  have e0_9 : fldN _ 0 9 = 0 := (fldN_pack F 0 9).trans (rfl)
  have f22 : fld _ 22 4 = o.gap := fld_pack F (fldN_self o.gap)
  have f20 : fld _ 20 2 = o.n := fld_pack F (fldN_self o.n)
  have f16 : fld _ 16 4 = o.a := fld_pack F (fldN_self o.a)
  have f12 : fld _ 12 4 = o.b := fld_pack F (fldN_self o.b)
  have f11 : fld _ 11 1 = o.s := fld_pack F (fldN_self o.s)
  have f10 : fld _ 10 1 = o.f := fld_pack F (fldN_self o.f)
  have f9 : fld _ 9 1 = o.c := fld_pack F (fldN_self o.c)
  generalize pack [(26, 32), (22, o.gap.toNat), (20, o.n.toNat), (16, o.a.toNat), (12, o.b.toNat), (11, o.s.toNat), (10, o.f.toNat), (9, o.c.toNat)] = n at *
  rw [decC20_of m]
  simp [decC20, e0_9, f22, f20, f16, f12, f11, f10, f9]

theorem mmas (o : MmasOp) : Statement (.mmas o) := by
  intro st hs hw; cases hs
  have F : Fits 32 [(26, 33), (22, o.gap.toNat), (20, o.n.toNat), (16, o.a.toNat), (12, o.b.toNat), (8, o.x.toNat), (6, o.m.toNat), (5, o.s.toNat), (4, o.f.toNat), (3, o.c.toNat)] :=
    ⟨by decide, by decide, by decide, lt_of_isLt o.gap (by decide), by decide, lt_of_isLt o.n (by decide), by decide, lt_of_isLt o.a (by decide), by decide, lt_of_isLt o.b (by decide), by decide, lt_of_isLt o.x (by decide), by decide, lt_of_isLt o.m (by decide), by decide, lt_of_isLt o.s (by decide), by decide, lt_of_isLt o.f (by decide), by decide, lt_of_isLt o.c (by decide), trivial⟩
  refine decode_of (n := pack [(26, 33), (22, o.gap.toNat), (20, o.n.toNat), (16, o.a.toNat), (12, o.b.toNat), (8, o.x.toNat), (6, o.m.toNat), (5, o.s.toNat), (4, o.f.toNat), (3, o.c.toNat)]) rfl (pos_of_look (k := 26) (len := 6) F rfl) (pack_lt F) ?_ hw
  have m : fldN _ 26 6 = 33 := (fldN_pack F 26 6).trans rfl
  have e0_3 : fldN _ 0 3 = 0 := (fldN_pack F 0 3).trans (rfl)
  have f22 : fld _ 22 4 = o.gap := fld_pack F (fldN_self o.gap)
  have f20 : fld _ 20 2 = o.n := fld_pack F (fldN_self o.n)
  have f16 : fld _ 16 4 = o.a := fld_pack F (fldN_self o.a)
  have f12 : fld _ 12 4 = o.b := fld_pack F (fldN_self o.b)
  have f8 : fld _ 8 4 = o.x := fld_pack F (fldN_self o.x)
  have f6 : fld _ 6 2 = o.m := fld_pack F (fldN_self o.m)
  have f5 : fld _ 5 1 = o.s := fld_pack F (fldN_self o.s)
  have f4 : fld _ 4 1 = o.f := fld_pack F (fldN_self o.f)
  have f3 : fld _ 3 1 = o.c := fld_pack F (fldN_self o.c)
  generalize pack [(26, 33), (22, o.gap.toNat), (20, o.n.toNat), (16, o.a.toNat), (12, o.b.toNat), (8, o.x.toNat), (6, o.m.toNat), (5, o.s.toNat), (4, o.f.toNat), (3, o.c.toNat)] = n at *
  rw [decC21_of m]
  simp [decC21, e0_3, f22, f20, f16, f12, f8, f6, f5, f4, f3]

theorem mmag (o : MmagOp) : Statement (.mmag o) := by
  intro st hs hw; cases hs
  have F : Fits 32 [(26, 34), (22, o.gap.toNat), (20, o.n.toNat), (15, o.i.toNat), (11, o.b.toNat), (10, o.s.toNat), (9, o.f.toNat), (8, o.c.toNat), (1, o.t.toNat)] :=
    ⟨by decide, by decide, by decide, lt_of_isLt o.gap (by decide), by decide, lt_of_isLt o.n (by decide), by decide, lt_of_isLt o.i (by decide), by decide, lt_of_isLt o.b (by decide), by decide, lt_of_isLt o.s (by decide), by decide, lt_of_isLt o.f (by decide), by decide, lt_of_isLt o.c (by decide), by decide, lt_of_isLt o.t (by decide), trivial⟩
  refine decode_of (n := pack [(26, 34), (22, o.gap.toNat), (20, o.n.toNat), (15, o.i.toNat), (11, o.b.toNat), (10, o.s.toNat), (9, o.f.toNat), (8, o.c.toNat), (1, o.t.toNat)]) rfl (pos_of_look (k := 26) (len := 6) F rfl) (pack_lt F) ?_ hw
  have m : fldN _ 26 6 = 34 := (fldN_pack F 26 6).trans rfl
  have e0_1 : fldN _ 0 1 = 0 := (fldN_pack F 0 1).trans (rfl)
  have f22 : fld _ 22 4 = o.gap := fld_pack F (fldN_self o.gap)
  have f20 : fld _ 20 2 = o.n := fld_pack F (fldN_self o.n)
  have f15 : fld _ 15 5 = o.i := fld_pack F (fldN_self o.i)
  have f11 : fld _ 11 4 = o.b := fld_pack F (fldN_self o.b)
  have f10 : fld _ 10 1 = o.s := fld_pack F (fldN_self o.s)
  have f9 : fld _ 9 1 = o.f := fld_pack F (fldN_self o.f)
  have f8 : fld _ 8 1 = o.c := fld_pack F (fldN_self o.c)
  have f1 : fld _ 1 7 = o.t := fld_pack F (fldN_self o.t)
  generalize pack [(26, 34), (22, o.gap.toNat), (20, o.n.toNat), (15, o.i.toNat), (11, o.b.toNat), (10, o.s.toNat), (9, o.f.toNat), (8, o.c.toNat), (1, o.t.toNat)] = n at *
  rw [decC22_of m]
  simp [decC22, e0_1, f22, f20, f15, f11, f10, f9, f8, f1]

theorem mzero (o : AccOp) : Statement (.mzero o) := by
  intro st hs hw; cases hs
  have F : Fits 32 [(26, 35), (22, o.gap.toNat), (20, o.n.toNat)] :=
    ⟨by decide, by decide, by decide, lt_of_isLt o.gap (by decide), by decide, lt_of_isLt o.n (by decide), trivial⟩
  refine decode_of (n := pack [(26, 35), (22, o.gap.toNat), (20, o.n.toNat)]) rfl (pos_of_look (k := 26) (len := 6) F rfl) (pack_lt F) ?_ hw
  have m : fldN _ 26 6 = 35 := (fldN_pack F 26 6).trans rfl
  have e0_20 : fldN _ 0 20 = 0 := (fldN_pack F 0 20).trans (rfl)
  have f22 : fld _ 22 4 = o.gap := fld_pack F (fldN_self o.gap)
  have f20 : fld _ 20 2 = o.n := fld_pack F (fldN_self o.n)
  generalize pack [(26, 35), (22, o.gap.toNat), (20, o.n.toNat)] = n at *
  rw [decC23_of m]
  simp [decC23, e0_20, f22, f20]

theorem mclose (o : AccOp) : Statement (.mclose o) := by
  intro st hs hw; cases hs
  have F : Fits 32 [(26, 35), (22, o.gap.toNat), (20, o.n.toNat), (0, 1)] :=
    ⟨by decide, by decide, by decide, lt_of_isLt o.gap (by decide), by decide, lt_of_isLt o.n (by decide), by decide, by decide, trivial⟩
  refine decode_of (n := pack [(26, 35), (22, o.gap.toNat), (20, o.n.toNat), (0, 1)]) rfl (pos_of_look (k := 0) (len := 1) F rfl) (pack_lt F) ?_ hw
  have m : fldN _ 26 6 = 35 := (fldN_pack F 26 6).trans rfl
  have e0_20 : fldN _ 0 20 = 1 := (fldN_pack F 0 20).trans (rfl)
  have f22 : fld _ 22 4 = o.gap := fld_pack F (fldN_self o.gap)
  have f20 : fld _ 20 2 = o.n := fld_pack F (fldN_self o.n)
  generalize pack [(26, 35), (22, o.gap.toNat), (20, o.n.toNat), (0, 1)] = n at *
  rw [decC23_of m]
  simp [decC23, e0_20, f22, f20]

theorem mwake (gap : Gap) : Statement (.mwake gap) := by
  intro st hs hw; cases hs
  have F : Fits 32 [(26, 35), (22, gap.toNat), (0, 2)] :=
    ⟨by decide, by decide, by decide, lt_of_isLt gap (by decide), by decide, by decide, trivial⟩
  refine decode_of (n := pack [(26, 35), (22, gap.toNat), (0, 2)]) rfl (pos_of_look (k := 0) (len := 2) F rfl) (pack_lt F) ?_ hw
  have m : fldN _ 26 6 = 35 := (fldN_pack F 26 6).trans rfl
  have e0_20 : fldN _ 0 20 = 2 := (fldN_pack F 0 20).trans (rfl)
  have e0_22 : fldN _ 0 22 = 2 := (fldN_pack F 0 22).trans (rfl)
  have f22 : fld _ 22 4 = gap := fld_pack F (fldN_self gap)
  generalize pack [(26, 35), (22, gap.toNat), (0, 2)] = n at *
  rw [decC23_of m]
  simp [decC23, e0_20, e0_22, f22]

theorem mopen (o : AccOp) : Statement (.mopen o) := by
  intro st hs hw; cases hs
  have F : Fits 32 [(26, 35), (22, o.gap.toNat), (20, o.n.toNat), (0, 3)] :=
    ⟨by decide, by decide, by decide, lt_of_isLt o.gap (by decide), by decide, lt_of_isLt o.n (by decide), by decide, by decide, trivial⟩
  refine decode_of (n := pack [(26, 35), (22, o.gap.toNat), (20, o.n.toNat), (0, 3)]) rfl (pos_of_look (k := 0) (len := 2) F rfl) (pack_lt F) ?_ hw
  have m : fldN _ 26 6 = 35 := (fldN_pack F 26 6).trans rfl
  have e0_20 : fldN _ 0 20 = 3 := (fldN_pack F 0 20).trans (rfl)
  have n0_22_2 : fldN (pack [(26, 35), (22, o.gap.toNat), (20, o.n.toNat), (0, 3)]) 0 22 ≠ 2 := by rw [fldN_pack F]; simp [look, fldN] <;> omega
  have f22 : fld _ 22 4 = o.gap := fld_pack F (fldN_self o.gap)
  have f20 : fld _ 20 2 = o.n := fld_pack F (fldN_self o.n)
  generalize pack [(26, 35), (22, o.gap.toNat), (20, o.n.toNat), (0, 3)] = n at *
  rw [decC23_of m]
  simp [decC23, e0_20, n0_22_2, f22, f20]

theorem mshut (o : AccOp) : Statement (.mshut o) := by
  intro st hs hw; cases hs
  have F : Fits 32 [(26, 35), (22, o.gap.toNat), (20, o.n.toNat), (0, 4)] :=
    ⟨by decide, by decide, by decide, lt_of_isLt o.gap (by decide), by decide, lt_of_isLt o.n (by decide), by decide, by decide, trivial⟩
  refine decode_of (n := pack [(26, 35), (22, o.gap.toNat), (20, o.n.toNat), (0, 4)]) rfl (pos_of_look (k := 0) (len := 3) F rfl) (pack_lt F) ?_ hw
  have m : fldN _ 26 6 = 35 := (fldN_pack F 26 6).trans rfl
  have e0_20 : fldN _ 0 20 = 4 := (fldN_pack F 0 20).trans (rfl)
  have n0_22_2 : fldN (pack [(26, 35), (22, o.gap.toNat), (20, o.n.toNat), (0, 4)]) 0 22 ≠ 2 := by rw [fldN_pack F]; simp [look, fldN] <;> omega
  have f22 : fld _ 22 4 = o.gap := fld_pack F (fldN_self o.gap)
  have f20 : fld _ 20 2 = o.n := fld_pack F (fldN_self o.n)
  generalize pack [(26, 35), (22, o.gap.toNat), (20, o.n.toNat), (0, 4)] = n at *
  rw [decC23_of m]
  simp [decC23, e0_20, n0_22_2, f22, f20]

theorem smxstep (o : SmxOp) : Statement (.smxstep o) := by
  intro st hs hw; cases hs
  have F : Fits 32 [(26, 36), (22, o.gap.toNat), (20, o.n.toNat), (15, o.s.toNat), (11, o.p.toNat), (6, o.x.toNat), (5, o.b.toNat), (2, o.k.toNat), (0, o.f.toNat)] :=
    ⟨by decide, by decide, by decide, lt_of_isLt o.gap (by decide), by decide, lt_of_isLt o.n (by decide), by decide, lt_of_isLt o.s (by decide), by decide, lt_of_isLt o.p (by decide), by decide, lt_of_isLt o.x (by decide), by decide, lt_of_isLt o.b (by decide), by decide, lt_of_isLt o.k (by decide), by decide, lt_of_isLt o.f (by decide), trivial⟩
  refine decode_of (n := pack [(26, 36), (22, o.gap.toNat), (20, o.n.toNat), (15, o.s.toNat), (11, o.p.toNat), (6, o.x.toNat), (5, o.b.toNat), (2, o.k.toNat), (0, o.f.toNat)]) rfl (pos_of_look (k := 26) (len := 6) F rfl) (pack_lt F) ?_ hw
  have m : fldN _ 26 6 = 36 := (fldN_pack F 26 6).trans rfl
  have f22 : fld _ 22 4 = o.gap := fld_pack F (fldN_self o.gap)
  have f20 : fld _ 20 2 = o.n := fld_pack F (fldN_self o.n)
  have f15 : fld _ 15 5 = o.s := fld_pack F (fldN_self o.s)
  have f11 : fld _ 11 4 = o.p := fld_pack F (fldN_self o.p)
  have f6 : fld _ 6 5 = o.x := fld_pack F (fldN_self o.x)
  have f5 : fld _ 5 1 = o.b := fld_pack F (fldN_self o.b)
  have f2 : fld _ 2 3 = o.k := fld_pack F (fldN_self o.k)
  have f0 : fld _ 0 2 = o.f := fld_pack F (fldN_self o.f)
  generalize pack [(26, 36), (22, o.gap.toNat), (20, o.n.toNat), (15, o.s.toNat), (11, o.p.toNat), (6, o.x.toNat), (5, o.b.toNat), (2, o.k.toNat), (0, o.f.toNat)] = n at *
  rw [decC24_of m]
  simp [decC24, f22, f20, f15, f11, f6, f5, f2, f0]

theorem smxfin (o : AccV) : Statement (.smxfin o) := by
  intro st hs hw; cases hs
  have F : Fits 32 [(26, 37), (22, o.gap.toNat), (20, o.n.toNat), (15, o.v.toNat)] :=
    ⟨by decide, by decide, by decide, lt_of_isLt o.gap (by decide), by decide, lt_of_isLt o.n (by decide), by decide, lt_of_isLt o.v (by decide), trivial⟩
  refine decode_of (n := pack [(26, 37), (22, o.gap.toNat), (20, o.n.toNat), (15, o.v.toNat)]) rfl (pos_of_look (k := 26) (len := 6) F rfl) (pack_lt F) ?_ hw
  have m : fldN _ 26 6 = 37 := (fldN_pack F 26 6).trans rfl
  have e0_15 : fldN _ 0 15 = 0 := (fldN_pack F 0 15).trans (rfl)
  have f22 : fld _ 22 4 = o.gap := fld_pack F (fldN_self o.gap)
  have f20 : fld _ 20 2 = o.n := fld_pack F (fldN_self o.n)
  have f15 : fld _ 15 5 = o.v := fld_pack F (fldN_self o.v)
  generalize pack [(26, 37), (22, o.gap.toNat), (20, o.n.toNat), (15, o.v.toNat)] = n at *
  rw [decC25_of m]
  simp [decC25, e0_15, f22, f20, f15]

theorem smxmerge (o : AccV) : Statement (.smxmerge o) := by
  intro st hs hw; cases hs
  have F : Fits 32 [(26, 38), (22, o.gap.toNat), (20, o.n.toNat), (15, o.v.toNat)] :=
    ⟨by decide, by decide, by decide, lt_of_isLt o.gap (by decide), by decide, lt_of_isLt o.n (by decide), by decide, lt_of_isLt o.v (by decide), trivial⟩
  refine decode_of (n := pack [(26, 38), (22, o.gap.toNat), (20, o.n.toNat), (15, o.v.toNat)]) rfl (pos_of_look (k := 26) (len := 6) F rfl) (pack_lt F) ?_ hw
  have m : fldN _ 26 6 = 38 := (fldN_pack F 26 6).trans rfl
  have e0_15 : fldN _ 0 15 = 0 := (fldN_pack F 0 15).trans (rfl)
  have f22 : fld _ 22 4 = o.gap := fld_pack F (fldN_self o.gap)
  have f20 : fld _ 20 2 = o.n := fld_pack F (fldN_self o.n)
  have f15 : fld _ 15 5 = o.v := fld_pack F (fldN_self o.v)
  generalize pack [(26, 38), (22, o.gap.toNat), (20, o.n.toNat), (15, o.v.toNat)] = n at *
  rw [decC26_of m]
  simp [decC26, e0_15, f22, f20, f15]

theorem mstget (o : AccV) : Statement (.mstget o) := by
  intro st hs hw; cases hs
  have F : Fits 32 [(26, 39), (22, o.gap.toNat), (20, o.n.toNat), (15, o.v.toNat)] :=
    ⟨by decide, by decide, by decide, lt_of_isLt o.gap (by decide), by decide, lt_of_isLt o.n (by decide), by decide, lt_of_isLt o.v (by decide), trivial⟩
  refine decode_of (n := pack [(26, 39), (22, o.gap.toNat), (20, o.n.toNat), (15, o.v.toNat)]) rfl (pos_of_look (k := 26) (len := 6) F rfl) (pack_lt F) ?_ hw
  have m : fldN _ 26 6 = 39 := (fldN_pack F 26 6).trans rfl
  have e0_15 : fldN _ 0 15 = 0 := (fldN_pack F 0 15).trans (rfl)
  have f22 : fld _ 22 4 = o.gap := fld_pack F (fldN_self o.gap)
  have f20 : fld _ 20 2 = o.n := fld_pack F (fldN_self o.n)
  have f15 : fld _ 15 5 = o.v := fld_pack F (fldN_self o.v)
  generalize pack [(26, 39), (22, o.gap.toNat), (20, o.n.toNat), (15, o.v.toNat)] = n at *
  rw [decC27_of m]
  simp [decC27, e0_15, f22, f20, f15]

theorem mstset (o : AccV) : Statement (.mstset o) := by
  intro st hs hw; cases hs
  have F : Fits 32 [(26, 39), (22, o.gap.toNat), (20, o.n.toNat), (15, o.v.toNat), (0, 1)] :=
    ⟨by decide, by decide, by decide, lt_of_isLt o.gap (by decide), by decide, lt_of_isLt o.n (by decide), by decide, lt_of_isLt o.v (by decide), by decide, by decide, trivial⟩
  refine decode_of (n := pack [(26, 39), (22, o.gap.toNat), (20, o.n.toNat), (15, o.v.toNat), (0, 1)]) rfl (pos_of_look (k := 0) (len := 1) F rfl) (pack_lt F) ?_ hw
  have m : fldN _ 26 6 = 39 := (fldN_pack F 26 6).trans rfl
  have e0_15 : fldN _ 0 15 = 1 := (fldN_pack F 0 15).trans (rfl)
  have f22 : fld _ 22 4 = o.gap := fld_pack F (fldN_self o.gap)
  have f20 : fld _ 20 2 = o.n := fld_pack F (fldN_self o.n)
  have f15 : fld _ 15 5 = o.v := fld_pack F (fldN_self o.v)
  generalize pack [(26, 39), (22, o.gap.toNat), (20, o.n.toNat), (15, o.v.toNat), (0, 1)] = n at *
  rw [decC27_of m]
  simp [decC27, e0_15, f22, f20, f15]

theorem macc2v (o : AccV) : Statement (.macc2v o) := by
  intro st hs hw; cases hs
  have F : Fits 32 [(26, 40), (22, o.gap.toNat), (20, o.n.toNat), (15, o.v.toNat)] :=
    ⟨by decide, by decide, by decide, lt_of_isLt o.gap (by decide), by decide, lt_of_isLt o.n (by decide), by decide, lt_of_isLt o.v (by decide), trivial⟩
  refine decode_of (n := pack [(26, 40), (22, o.gap.toNat), (20, o.n.toNat), (15, o.v.toNat)]) rfl (pos_of_look (k := 26) (len := 6) F rfl) (pack_lt F) ?_ hw
  have m : fldN _ 26 6 = 40 := (fldN_pack F 26 6).trans rfl
  have e0_15 : fldN _ 0 15 = 0 := (fldN_pack F 0 15).trans (rfl)
  have f22 : fld _ 22 4 = o.gap := fld_pack F (fldN_self o.gap)
  have f20 : fld _ 20 2 = o.n := fld_pack F (fldN_self o.n)
  have f15 : fld _ 15 5 = o.v := fld_pack F (fldN_self o.v)
  generalize pack [(26, 40), (22, o.gap.toNat), (20, o.n.toNat), (15, o.v.toNat)] = n at *
  rw [decC28_of m]
  simp [decC28, e0_15, f22, f20, f15]

theorem mv2acc (o : AccV) : Statement (.mv2acc o) := by
  intro st hs hw; cases hs
  have F : Fits 32 [(26, 40), (22, o.gap.toNat), (20, o.n.toNat), (15, o.v.toNat), (0, 1)] :=
    ⟨by decide, by decide, by decide, lt_of_isLt o.gap (by decide), by decide, lt_of_isLt o.n (by decide), by decide, lt_of_isLt o.v (by decide), by decide, by decide, trivial⟩
  refine decode_of (n := pack [(26, 40), (22, o.gap.toNat), (20, o.n.toNat), (15, o.v.toNat), (0, 1)]) rfl (pos_of_look (k := 0) (len := 1) F rfl) (pack_lt F) ?_ hw
  have m : fldN _ 26 6 = 40 := (fldN_pack F 26 6).trans rfl
  have e0_15 : fldN _ 0 15 = 1 := (fldN_pack F 0 15).trans (rfl)
  have f22 : fld _ 22 4 = o.gap := fld_pack F (fldN_self o.gap)
  have f20 : fld _ 20 2 = o.n := fld_pack F (fldN_self o.n)
  have f15 : fld _ 15 5 = o.v := fld_pack F (fldN_self o.v)
  generalize pack [(26, 40), (22, o.gap.toNat), (20, o.n.toNat), (15, o.v.toNat), (0, 1)] = n at *
  rw [decC28_of m]
  simp [decC28, e0_15, f22, f20, f15]

theorem madh (o : MadhOp) : Statement (.madh o) := by
  intro st hs hw; cases hs
  have F : Fits 32 [(26, 41), (22, o.gap.toNat), (20, o.n.toNat), (15, o.v.toNat), (1, o.c.toNat), (0, o.h.toNat)] :=
    ⟨by decide, by decide, by decide, lt_of_isLt o.gap (by decide), by decide, lt_of_isLt o.n (by decide), by decide, lt_of_isLt o.v (by decide), by decide, lt_of_isLt o.c (by decide), by decide, lt_of_isLt o.h (by decide), trivial⟩
  refine decode_of (n := pack [(26, 41), (22, o.gap.toNat), (20, o.n.toNat), (15, o.v.toNat), (1, o.c.toNat), (0, o.h.toNat)]) rfl (pos_of_look (k := 26) (len := 6) F rfl) (pack_lt F) ?_ hw
  have m : fldN _ 26 6 = 41 := (fldN_pack F 26 6).trans rfl
  have e2_13 : fldN _ 2 13 = 0 := (fldN_pack F 2 13).trans (by have := o.c.isLt; simp [look, fldN]; omega)
  have f22 : fld _ 22 4 = o.gap := fld_pack F (fldN_self o.gap)
  have f20 : fld _ 20 2 = o.n := fld_pack F (fldN_self o.n)
  have f15 : fld _ 15 5 = o.v := fld_pack F (fldN_self o.v)
  have f1 : fld _ 1 1 = o.c := fld_pack F (fldN_self o.c)
  have f0 : fld _ 0 1 = o.h := fld_pack F (fldN_self o.h)
  generalize pack [(26, 41), (22, o.gap.toNat), (20, o.n.toNat), (15, o.v.toNat), (1, o.c.toNat), (0, o.h.toNat)] = n at *
  rw [decC29_of m]
  simp [decC29, e2_13, f22, f20, f15, f1, f0]

theorem ldt (o : TimedOp) : Statement (.ldt o) := by
  intro st hs hw; cases hs
  have F : Fits 32 [(26, 1), (22, o.gap.toNat), (18, o.e.toNat), (11, o.s.toNat), (8, o.n.toNat), (5, o.k.toNat), (4, o.t.toNat)] :=
    ⟨by decide, by decide, by decide, lt_of_isLt o.gap (by decide), by decide, lt_of_isLt o.e (by decide), by decide, lt_of_isLt o.s (by decide), by decide, lt_of_isLt o.n (by decide), by decide, lt_of_isLt o.k (by decide), by decide, lt_of_isLt o.t (by decide), trivial⟩
  refine decode_of (n := pack [(26, 1), (22, o.gap.toNat), (18, o.e.toNat), (11, o.s.toNat), (8, o.n.toNat), (5, o.k.toNat), (4, o.t.toNat)]) rfl (pos_of_look (k := 26) (len := 1) F rfl) (pack_lt F) ?_ hw
  have m : fldN _ 26 6 = 1 := (fldN_pack F 26 6).trans rfl
  have e0_4 : fldN _ 0 4 = 0 := (fldN_pack F 0 4).trans (rfl)
  have f22 : fld _ 22 4 = o.gap := fld_pack F (fldN_self o.gap)
  have f18 : fld _ 18 4 = o.e := fld_pack F (fldN_self o.e)
  have f11 : fld _ 11 7 = o.s := fld_pack F (fldN_self o.s)
  have f8 : fld _ 8 3 = o.n := fld_pack F (fldN_self o.n)
  have f5 : fld _ 5 3 = o.k := fld_pack F (fldN_self o.k)
  have f4 : fld _ 4 1 = o.t := fld_pack F (fldN_self o.t)
  generalize pack [(26, 1), (22, o.gap.toNat), (18, o.e.toNat), (11, o.s.toNat), (8, o.n.toNat), (5, o.k.toNat), (4, o.t.toNat)] = n at *
  rw [decL01_of m]
  simp [decL01, e0_4, f22, f18, f11, f8, f5, f4]

theorem ldtu (o : TimedOp) : Statement (.ldtu o) := by
  intro st hs hw; cases hs
  have F : Fits 32 [(26, 2), (22, o.gap.toNat), (18, o.e.toNat), (11, o.s.toNat), (8, o.n.toNat), (5, o.k.toNat), (4, o.t.toNat)] :=
    ⟨by decide, by decide, by decide, lt_of_isLt o.gap (by decide), by decide, lt_of_isLt o.e (by decide), by decide, lt_of_isLt o.s (by decide), by decide, lt_of_isLt o.n (by decide), by decide, lt_of_isLt o.k (by decide), by decide, lt_of_isLt o.t (by decide), trivial⟩
  refine decode_of (n := pack [(26, 2), (22, o.gap.toNat), (18, o.e.toNat), (11, o.s.toNat), (8, o.n.toNat), (5, o.k.toNat), (4, o.t.toNat)]) rfl (pos_of_look (k := 26) (len := 2) F rfl) (pack_lt F) ?_ hw
  have m : fldN _ 26 6 = 2 := (fldN_pack F 26 6).trans rfl
  have e0_4 : fldN _ 0 4 = 0 := (fldN_pack F 0 4).trans (rfl)
  have f22 : fld _ 22 4 = o.gap := fld_pack F (fldN_self o.gap)
  have f18 : fld _ 18 4 = o.e := fld_pack F (fldN_self o.e)
  have f11 : fld _ 11 7 = o.s := fld_pack F (fldN_self o.s)
  have f8 : fld _ 8 3 = o.n := fld_pack F (fldN_self o.n)
  have f5 : fld _ 5 3 = o.k := fld_pack F (fldN_self o.k)
  have f4 : fld _ 4 1 = o.t := fld_pack F (fldN_self o.t)
  generalize pack [(26, 2), (22, o.gap.toNat), (18, o.e.toNat), (11, o.s.toNat), (8, o.n.toNat), (5, o.k.toNat), (4, o.t.toNat)] = n at *
  rw [decL02_of m]
  simp [decL02, e0_4, f22, f18, f11, f8, f5, f4]

theorem tld (o : TldOp) : Statement (.tld o) := by
  intro st hs hw; cases hs
  have F : Fits 32 [(26, 3), (22, o.gap.toNat), (18, o.e.toNat), (14, o.t.toNat), (13, o.x.toNat)] :=
    ⟨by decide, by decide, by decide, lt_of_isLt o.gap (by decide), by decide, lt_of_isLt o.e (by decide), by decide, lt_of_isLt o.t (by decide), by decide, lt_of_isLt o.x (by decide), trivial⟩
  refine decode_of (n := pack [(26, 3), (22, o.gap.toNat), (18, o.e.toNat), (14, o.t.toNat), (13, o.x.toNat)]) rfl (pos_of_look (k := 26) (len := 2) F rfl) (pack_lt F) ?_ hw
  have m : fldN _ 26 6 = 3 := (fldN_pack F 26 6).trans rfl
  have e0_13 : fldN _ 0 13 = 0 := (fldN_pack F 0 13).trans (rfl)
  have f22 : fld _ 22 4 = o.gap := fld_pack F (fldN_self o.gap)
  have f18 : fld _ 18 4 = o.e := fld_pack F (fldN_self o.e)
  have f14 : fld _ 14 4 = o.t := fld_pack F (fldN_self o.t)
  have f13 : fld _ 13 1 = o.x := fld_pack F (fldN_self o.x)
  generalize pack [(26, 3), (22, o.gap.toNat), (18, o.e.toNat), (14, o.t.toNat), (13, o.x.toNat)] = n at *
  rw [decL03_of m]
  simp [decL03, e0_13, f22, f18, f14, f13]

theorem vld (o : VldOp) : Statement (.vld o) := by
  intro st hs hw; cases hs
  have F : Fits 32 [(26, 4), (22, o.gap.toNat), (18, o.e.toNat), (13, o.v.toNat), (10, o.k.toNat), (8, o.p.toNat), (7, o.x.toNat)] :=
    ⟨by decide, by decide, by decide, lt_of_isLt o.gap (by decide), by decide, lt_of_isLt o.e (by decide), by decide, lt_of_isLt o.v (by decide), by decide, lt_of_isLt o.k (by decide), by decide, lt_of_isLt o.p (by decide), by decide, lt_of_isLt o.x (by decide), trivial⟩
  refine decode_of (n := pack [(26, 4), (22, o.gap.toNat), (18, o.e.toNat), (13, o.v.toNat), (10, o.k.toNat), (8, o.p.toNat), (7, o.x.toNat)]) rfl (pos_of_look (k := 26) (len := 3) F rfl) (pack_lt F) ?_ hw
  have m : fldN _ 26 6 = 4 := (fldN_pack F 26 6).trans rfl
  have e0_7 : fldN _ 0 7 = 0 := (fldN_pack F 0 7).trans (rfl)
  have f22 : fld _ 22 4 = o.gap := fld_pack F (fldN_self o.gap)
  have f18 : fld _ 18 4 = o.e := fld_pack F (fldN_self o.e)
  have f13 : fld _ 13 5 = o.v := fld_pack F (fldN_self o.v)
  have f10 : fld _ 10 3 = o.k := fld_pack F (fldN_self o.k)
  have f8 : fld _ 8 2 = o.p := fld_pack F (fldN_self o.p)
  have f7 : fld _ 7 1 = o.x := fld_pack F (fldN_self o.x)
  generalize pack [(26, 4), (22, o.gap.toNat), (18, o.e.toNat), (13, o.v.toNat), (10, o.k.toNat), (8, o.p.toNat), (7, o.x.toNat)] = n at *
  rw [decL04_of m]
  simp [decL04, e0_7, f22, f18, f13, f10, f8, f7]

theorem gld (o : IdxOp) : Statement (.gld o) := by
  intro st hs hw; cases hs
  have F : Fits 32 [(26, 5), (22, o.gap.toNat), (18, o.e.toNat), (13, o.v.toNat), (8, o.i.toNat), (5, o.k.toNat), (3, o.p.toNat)] :=
    ⟨by decide, by decide, by decide, lt_of_isLt o.gap (by decide), by decide, lt_of_isLt o.e (by decide), by decide, lt_of_isLt o.v (by decide), by decide, lt_of_isLt o.i (by decide), by decide, lt_of_isLt o.k (by decide), by decide, lt_of_isLt o.p (by decide), trivial⟩
  refine decode_of (n := pack [(26, 5), (22, o.gap.toNat), (18, o.e.toNat), (13, o.v.toNat), (8, o.i.toNat), (5, o.k.toNat), (3, o.p.toNat)]) rfl (pos_of_look (k := 26) (len := 3) F rfl) (pack_lt F) ?_ hw
  have m : fldN _ 26 6 = 5 := (fldN_pack F 26 6).trans rfl
  have e0_3 : fldN _ 0 3 = 0 := (fldN_pack F 0 3).trans (rfl)
  have f22 : fld _ 22 4 = o.gap := fld_pack F (fldN_self o.gap)
  have f18 : fld _ 18 4 = o.e := fld_pack F (fldN_self o.e)
  have f13 : fld _ 13 5 = o.v := fld_pack F (fldN_self o.v)
  have f8 : fld _ 8 5 = o.i := fld_pack F (fldN_self o.i)
  have f5 : fld _ 5 3 = o.k := fld_pack F (fldN_self o.k)
  have f3 : fld _ 3 2 = o.p := fld_pack F (fldN_self o.p)
  generalize pack [(26, 5), (22, o.gap.toNat), (18, o.e.toNat), (13, o.v.toNat), (8, o.i.toNat), (5, o.k.toNat), (3, o.p.toNat)] = n at *
  rw [decL05_of m]
  simp [decL05, e0_3, f22, f18, f13, f8, f5, f3]

theorem bfx (o : BfxOp) : Statement (.bfx o) := by
  intro st hs hw; cases hs
  have F : Fits 32 [(26, 6), (22, o.gap.toNat), (18, o.e.toNat), (13, o.v.toNat), (10, o.p.toNat), (8, o.s.toNat)] :=
    ⟨by decide, by decide, by decide, lt_of_isLt o.gap (by decide), by decide, lt_of_isLt o.e (by decide), by decide, lt_of_isLt o.v (by decide), by decide, lt_of_isLt o.p (by decide), by decide, lt_of_isLt o.s (by decide), trivial⟩
  refine decode_of (n := pack [(26, 6), (22, o.gap.toNat), (18, o.e.toNat), (13, o.v.toNat), (10, o.p.toNat), (8, o.s.toNat)]) rfl (pos_of_look (k := 26) (len := 3) F rfl) (pack_lt F) ?_ hw
  have m : fldN _ 26 6 = 6 := (fldN_pack F 26 6).trans rfl
  have e0_8 : fldN _ 0 8 = 0 := (fldN_pack F 0 8).trans (rfl)
  have f22 : fld _ 22 4 = o.gap := fld_pack F (fldN_self o.gap)
  have f18 : fld _ 18 4 = o.e := fld_pack F (fldN_self o.e)
  have f13 : fld _ 13 5 = o.v := fld_pack F (fldN_self o.v)
  have f10 : fld _ 10 3 = o.p := fld_pack F (fldN_self o.p)
  have f8 : fld _ 8 2 = o.s := fld_pack F (fldN_self o.s)
  generalize pack [(26, 6), (22, o.gap.toNat), (18, o.e.toNat), (13, o.v.toNat), (10, o.p.toNat), (8, o.s.toNat)] = n at *
  rw [decL06_of m]
  simp [decL06, e0_8, f22, f18, f13, f10, f8]

theorem eadd (o : EImm) : Statement (.eadd o) := by
  intro st hs hw; cases hs
  have F : Fits 32 [(26, 7), (22, o.gap.toNat), (18, o.e.toNat), (14, o.p.toNat), (0, o.i.toNat)] :=
    ⟨by decide, by decide, by decide, lt_of_isLt o.gap (by decide), by decide, lt_of_isLt o.e (by decide), by decide, lt_of_isLt o.p (by decide), by decide, lt_of_isLt o.i (by decide), trivial⟩
  refine decode_of (n := pack [(26, 7), (22, o.gap.toNat), (18, o.e.toNat), (14, o.p.toNat), (0, o.i.toNat)]) rfl (pos_of_look (k := 26) (len := 3) F rfl) (pack_lt F) ?_ hw
  have m : fldN _ 26 6 = 7 := (fldN_pack F 26 6).trans rfl
  have e16_2 : fldN _ 16 2 = 0 := (fldN_pack F 16 2).trans (by have := o.p.isLt; simp [look, fldN]; omega)
  have f22 : fld _ 22 4 = o.gap := fld_pack F (fldN_self o.gap)
  have f18 : fld _ 18 4 = o.e := fld_pack F (fldN_self o.e)
  have f14 : fld _ 14 2 = o.p := fld_pack F (fldN_self o.p)
  have f0 : fld _ 0 14 = o.i := fld_pack F (fldN_self o.i)
  generalize pack [(26, 7), (22, o.gap.toNat), (18, o.e.toNat), (14, o.p.toNat), (0, o.i.toNat)] = n at *
  have h : rawOf (.col o.col) n = decE o.col n := by
    have hc := col_of_eadd hw
    rcases hc with hc | hc <;> rw [hc] <;> simp only [rawOf, rawL, rawW, m]
  rw [h]; simp [decE, e16_2, f22, f18, f14, f0]

theorem eset (o : EImm) : Statement (.eset o) := by
  intro st hs hw; cases hs
  have F : Fits 32 [(26, 7), (22, o.gap.toNat), (18, o.e.toNat), (16, 1), (14, o.p.toNat), (0, o.i.toNat)] :=
    ⟨by decide, by decide, by decide, lt_of_isLt o.gap (by decide), by decide, lt_of_isLt o.e (by decide), by decide, by decide, by decide, lt_of_isLt o.p (by decide), by decide, lt_of_isLt o.i (by decide), trivial⟩
  refine decode_of (n := pack [(26, 7), (22, o.gap.toNat), (18, o.e.toNat), (16, 1), (14, o.p.toNat), (0, o.i.toNat)]) rfl (pos_of_look (k := 16) (len := 1) F rfl) (pack_lt F) ?_ hw
  have m : fldN _ 26 6 = 7 := (fldN_pack F 26 6).trans rfl
  have e16_2 : fldN _ 16 2 = 1 := (fldN_pack F 16 2).trans (rfl)
  have f22 : fld _ 22 4 = o.gap := fld_pack F (fldN_self o.gap)
  have f18 : fld _ 18 4 = o.e := fld_pack F (fldN_self o.e)
  have f14 : fld _ 14 2 = o.p := fld_pack F (fldN_self o.p)
  have f0 : fld _ 0 14 = o.i := fld_pack F (fldN_self o.i)
  generalize pack [(26, 7), (22, o.gap.toNat), (18, o.e.toNat), (16, 1), (14, o.p.toNat), (0, o.i.toNat)] = n at *
  have h : rawOf (.col o.col) n = decE o.col n := by
    have hc := col_of_eset hw
    rcases hc with hc | hc <;> rw [hc] <;> simp only [rawOf, rawL, rawW, m]
  rw [h]; simp [decE, e16_2, f22, f18, f14, f0]

theorem emov (o : EMovOp) : Statement (.emov o) := by
  intro st hs hw; cases hs
  have F : Fits 32 [(26, 7), (22, o.gap.toNat), (18, o.e.toNat), (16, 2), (14, o.p.toNat), (10, o.s.toNat)] :=
    ⟨by decide, by decide, by decide, lt_of_isLt o.gap (by decide), by decide, lt_of_isLt o.e (by decide), by decide, by decide, by decide, lt_of_isLt o.p (by decide), by decide, lt_of_isLt o.s (by decide), trivial⟩
  refine decode_of (n := pack [(26, 7), (22, o.gap.toNat), (18, o.e.toNat), (16, 2), (14, o.p.toNat), (10, o.s.toNat)]) rfl (pos_of_look (k := 16) (len := 2) F rfl) (pack_lt F) ?_ hw
  have m : fldN _ 26 6 = 7 := (fldN_pack F 26 6).trans rfl
  have e16_2 : fldN _ 16 2 = 2 := (fldN_pack F 16 2).trans (rfl)
  have e0_10 : fldN _ 0 10 = 0 := (fldN_pack F 0 10).trans (rfl)
  have f22 : fld _ 22 4 = o.gap := fld_pack F (fldN_self o.gap)
  have f18 : fld _ 18 4 = o.e := fld_pack F (fldN_self o.e)
  have f14 : fld _ 14 2 = o.p := fld_pack F (fldN_self o.p)
  have f10 : fld _ 10 4 = o.s := fld_pack F (fldN_self o.s)
  generalize pack [(26, 7), (22, o.gap.toNat), (18, o.e.toNat), (16, 2), (14, o.p.toNat), (10, o.s.toNat)] = n at *
  have h : rawOf (.col o.col) n = decE o.col n := by
    have hc := col_of_emov hw
    rcases hc with hc | hc <;> rw [hc] <;> simp only [rawOf, rawL, rawW, m]
  rw [h]; simp [decE, e16_2, e0_10, f22, f18, f14, f10]

theorem kvx (o : KvxOp) : Statement (.kvx o) := by
  intro st hs hw; cases hs
  have F : Fits 32 [(26, 8), (22, o.gap.toNat), (18, o.e.toNat), (14, o.q.toNat)] :=
    ⟨by decide, by decide, by decide, lt_of_isLt o.gap (by decide), by decide, lt_of_isLt o.e (by decide), by decide, lt_of_isLt o.q (by decide), trivial⟩
  refine decode_of (n := pack [(26, 8), (22, o.gap.toNat), (18, o.e.toNat), (14, o.q.toNat)]) rfl (pos_of_look (k := 26) (len := 4) F rfl) (pack_lt F) ?_ hw
  have m : fldN _ 26 6 = 8 := (fldN_pack F 26 6).trans rfl
  have e0_14 : fldN _ 0 14 = 0 := (fldN_pack F 0 14).trans (rfl)
  have f22 : fld _ 22 4 = o.gap := fld_pack F (fldN_self o.gap)
  have f18 : fld _ 18 4 = o.e := fld_pack F (fldN_self o.e)
  have f14 : fld _ 14 4 = o.q := fld_pack F (fldN_self o.q)
  generalize pack [(26, 8), (22, o.gap.toNat), (18, o.e.toNat), (14, o.q.toNat)] = n at *
  rw [decL08_of m]
  simp [decL08, e0_14, f22, f18, f14]

theorem wld (o : WldOp) : Statement (.wld o) := by
  intro st hs hw; cases hs
  have F : Fits 32 [(26, 9), (22, o.gap.toNat), (18, o.e.toNat), (11, o.s.toNat), (8, o.k.toNat), (7, o.t.toNat)] :=
    ⟨by decide, by decide, by decide, lt_of_isLt o.gap (by decide), by decide, lt_of_isLt o.e (by decide), by decide, lt_of_isLt o.s (by decide), by decide, lt_of_isLt o.k (by decide), by decide, lt_of_isLt o.t (by decide), trivial⟩
  refine decode_of (n := pack [(26, 9), (22, o.gap.toNat), (18, o.e.toNat), (11, o.s.toNat), (8, o.k.toNat), (7, o.t.toNat)]) rfl (pos_of_look (k := 26) (len := 4) F rfl) (pack_lt F) ?_ hw
  have m : fldN _ 26 6 = 9 := (fldN_pack F 26 6).trans rfl
  have e0_7 : fldN _ 0 7 = 0 := (fldN_pack F 0 7).trans (rfl)
  have f22 : fld _ 22 4 = o.gap := fld_pack F (fldN_self o.gap)
  have f18 : fld _ 18 4 = o.e := fld_pack F (fldN_self o.e)
  have f11 : fld _ 11 7 = o.s := fld_pack F (fldN_self o.s)
  have f8 : fld _ 8 3 = o.k := fld_pack F (fldN_self o.k)
  have f7 : fld _ 7 1 = o.t := fld_pack F (fldN_self o.t)
  generalize pack [(26, 9), (22, o.gap.toNat), (18, o.e.toNat), (11, o.s.toNat), (8, o.k.toNat), (7, o.t.toNat)] = n at *
  rw [decL09_of m]
  simp [decL09, e0_7, f22, f18, f11, f8, f7]

theorem stt (o : TimedOp) : Statement (.stt o) := by
  intro st hs hw; cases hs
  have F : Fits 32 [(26, 1), (22, o.gap.toNat), (18, o.e.toNat), (11, o.s.toNat), (8, o.n.toNat), (5, o.k.toNat), (4, o.t.toNat)] :=
    ⟨by decide, by decide, by decide, lt_of_isLt o.gap (by decide), by decide, lt_of_isLt o.e (by decide), by decide, lt_of_isLt o.s (by decide), by decide, lt_of_isLt o.n (by decide), by decide, lt_of_isLt o.k (by decide), by decide, lt_of_isLt o.t (by decide), trivial⟩
  refine decode_of (n := pack [(26, 1), (22, o.gap.toNat), (18, o.e.toNat), (11, o.s.toNat), (8, o.n.toNat), (5, o.k.toNat), (4, o.t.toNat)]) rfl (pos_of_look (k := 26) (len := 1) F rfl) (pack_lt F) ?_ hw
  have m : fldN _ 26 6 = 1 := (fldN_pack F 26 6).trans rfl
  have e0_4 : fldN _ 0 4 = 0 := (fldN_pack F 0 4).trans (rfl)
  have f22 : fld _ 22 4 = o.gap := fld_pack F (fldN_self o.gap)
  have f18 : fld _ 18 4 = o.e := fld_pack F (fldN_self o.e)
  have f11 : fld _ 11 7 = o.s := fld_pack F (fldN_self o.s)
  have f8 : fld _ 8 3 = o.n := fld_pack F (fldN_self o.n)
  have f5 : fld _ 5 3 = o.k := fld_pack F (fldN_self o.k)
  have f4 : fld _ 4 1 = o.t := fld_pack F (fldN_self o.t)
  generalize pack [(26, 1), (22, o.gap.toNat), (18, o.e.toNat), (11, o.s.toNat), (8, o.n.toNat), (5, o.k.toNat), (4, o.t.toNat)] = n at *
  rw [decW01_of m]
  simp [decW01, e0_4, f22, f18, f11, f8, f5, f4]

theorem sttu (o : TimedOp) : Statement (.sttu o) := by
  intro st hs hw; cases hs
  have F : Fits 32 [(26, 2), (22, o.gap.toNat), (18, o.e.toNat), (11, o.s.toNat), (8, o.n.toNat), (5, o.k.toNat), (4, o.t.toNat)] :=
    ⟨by decide, by decide, by decide, lt_of_isLt o.gap (by decide), by decide, lt_of_isLt o.e (by decide), by decide, lt_of_isLt o.s (by decide), by decide, lt_of_isLt o.n (by decide), by decide, lt_of_isLt o.k (by decide), by decide, lt_of_isLt o.t (by decide), trivial⟩
  refine decode_of (n := pack [(26, 2), (22, o.gap.toNat), (18, o.e.toNat), (11, o.s.toNat), (8, o.n.toNat), (5, o.k.toNat), (4, o.t.toNat)]) rfl (pos_of_look (k := 26) (len := 2) F rfl) (pack_lt F) ?_ hw
  have m : fldN _ 26 6 = 2 := (fldN_pack F 26 6).trans rfl
  have e0_4 : fldN _ 0 4 = 0 := (fldN_pack F 0 4).trans (rfl)
  have f22 : fld _ 22 4 = o.gap := fld_pack F (fldN_self o.gap)
  have f18 : fld _ 18 4 = o.e := fld_pack F (fldN_self o.e)
  have f11 : fld _ 11 7 = o.s := fld_pack F (fldN_self o.s)
  have f8 : fld _ 8 3 = o.n := fld_pack F (fldN_self o.n)
  have f5 : fld _ 5 3 = o.k := fld_pack F (fldN_self o.k)
  have f4 : fld _ 4 1 = o.t := fld_pack F (fldN_self o.t)
  generalize pack [(26, 2), (22, o.gap.toNat), (18, o.e.toNat), (11, o.s.toNat), (8, o.n.toNat), (5, o.k.toNat), (4, o.t.toNat)] = n at *
  rw [decW02_of m]
  simp [decW02, e0_4, f22, f18, f11, f8, f5, f4]

theorem twr (o : TwrOp) : Statement (.twr o) := by
  intro st hs hw; cases hs
  have F : Fits 32 [(26, 3), (22, o.gap.toNat), (18, o.e.toNat), (14, o.t.toNat)] :=
    ⟨by decide, by decide, by decide, lt_of_isLt o.gap (by decide), by decide, lt_of_isLt o.e (by decide), by decide, lt_of_isLt o.t (by decide), trivial⟩
  refine decode_of (n := pack [(26, 3), (22, o.gap.toNat), (18, o.e.toNat), (14, o.t.toNat)]) rfl (pos_of_look (k := 26) (len := 2) F rfl) (pack_lt F) ?_ hw
  have m : fldN _ 26 6 = 3 := (fldN_pack F 26 6).trans rfl
  have e0_14 : fldN _ 0 14 = 0 := (fldN_pack F 0 14).trans (rfl)
  have f22 : fld _ 22 4 = o.gap := fld_pack F (fldN_self o.gap)
  have f18 : fld _ 18 4 = o.e := fld_pack F (fldN_self o.e)
  have f14 : fld _ 14 4 = o.t := fld_pack F (fldN_self o.t)
  generalize pack [(26, 3), (22, o.gap.toNat), (18, o.e.toNat), (14, o.t.toNat)] = n at *
  rw [decW03_of m]
  simp [decW03, e0_14, f22, f18, f14]

theorem vst (o : VstOp) : Statement (.vst o) := by
  intro st hs hw; cases hs
  have F : Fits 32 [(26, 4), (22, o.gap.toNat), (18, o.e.toNat), (13, o.v.toNat), (10, o.k.toNat), (8, o.p.toNat)] :=
    ⟨by decide, by decide, by decide, lt_of_isLt o.gap (by decide), by decide, lt_of_isLt o.e (by decide), by decide, lt_of_isLt o.v (by decide), by decide, lt_of_isLt o.k (by decide), by decide, lt_of_isLt o.p (by decide), trivial⟩
  refine decode_of (n := pack [(26, 4), (22, o.gap.toNat), (18, o.e.toNat), (13, o.v.toNat), (10, o.k.toNat), (8, o.p.toNat)]) rfl (pos_of_look (k := 26) (len := 3) F rfl) (pack_lt F) ?_ hw
  have m : fldN _ 26 6 = 4 := (fldN_pack F 26 6).trans rfl
  have e0_8 : fldN _ 0 8 = 0 := (fldN_pack F 0 8).trans (rfl)
  have f22 : fld _ 22 4 = o.gap := fld_pack F (fldN_self o.gap)
  have f18 : fld _ 18 4 = o.e := fld_pack F (fldN_self o.e)
  have f13 : fld _ 13 5 = o.v := fld_pack F (fldN_self o.v)
  have f10 : fld _ 10 3 = o.k := fld_pack F (fldN_self o.k)
  have f8 : fld _ 8 2 = o.p := fld_pack F (fldN_self o.p)
  generalize pack [(26, 4), (22, o.gap.toNat), (18, o.e.toNat), (13, o.v.toNat), (10, o.k.toNat), (8, o.p.toNat)] = n at *
  rw [decW04_of m]
  simp [decW04, e0_8, f22, f18, f13, f10, f8]

theorem sct (o : IdxOp) : Statement (.sct o) := by
  intro st hs hw; cases hs
  have F : Fits 32 [(26, 5), (22, o.gap.toNat), (18, o.e.toNat), (13, o.v.toNat), (8, o.i.toNat), (5, o.k.toNat), (3, o.p.toNat)] :=
    ⟨by decide, by decide, by decide, lt_of_isLt o.gap (by decide), by decide, lt_of_isLt o.e (by decide), by decide, lt_of_isLt o.v (by decide), by decide, lt_of_isLt o.i (by decide), by decide, lt_of_isLt o.k (by decide), by decide, lt_of_isLt o.p (by decide), trivial⟩
  refine decode_of (n := pack [(26, 5), (22, o.gap.toNat), (18, o.e.toNat), (13, o.v.toNat), (8, o.i.toNat), (5, o.k.toNat), (3, o.p.toNat)]) rfl (pos_of_look (k := 26) (len := 3) F rfl) (pack_lt F) ?_ hw
  have m : fldN _ 26 6 = 5 := (fldN_pack F 26 6).trans rfl
  have e0_3 : fldN _ 0 3 = 0 := (fldN_pack F 0 3).trans (rfl)
  have f22 : fld _ 22 4 = o.gap := fld_pack F (fldN_self o.gap)
  have f18 : fld _ 18 4 = o.e := fld_pack F (fldN_self o.e)
  have f13 : fld _ 13 5 = o.v := fld_pack F (fldN_self o.v)
  have f8 : fld _ 8 5 = o.i := fld_pack F (fldN_self o.i)
  have f5 : fld _ 5 3 = o.k := fld_pack F (fldN_self o.k)
  have f3 : fld _ 3 2 = o.p := fld_pack F (fldN_self o.p)
  generalize pack [(26, 5), (22, o.gap.toNat), (18, o.e.toNat), (13, o.v.toNat), (8, o.i.toNat), (5, o.k.toNat), (3, o.p.toNat)] = n at *
  rw [decW05_of m]
  simp [decW05, e0_3, f22, f18, f13, f8, f5, f3]

theorem acst (o : AcstOp) : Statement (.acst o) := by
  intro st hs hw; cases hs
  have F : Fits 32 [(26, 6), (22, o.gap.toNat), (18, o.e.toNat), (16, o.n.toNat), (12, o.t.toNat)] :=
    ⟨by decide, by decide, by decide, lt_of_isLt o.gap (by decide), by decide, lt_of_isLt o.e (by decide), by decide, lt_of_isLt o.n (by decide), by decide, lt_of_isLt o.t (by decide), trivial⟩
  refine decode_of (n := pack [(26, 6), (22, o.gap.toNat), (18, o.e.toNat), (16, o.n.toNat), (12, o.t.toNat)]) rfl (pos_of_look (k := 26) (len := 3) F rfl) (pack_lt F) ?_ hw
  have m : fldN _ 26 6 = 6 := (fldN_pack F 26 6).trans rfl
  have e0_12 : fldN _ 0 12 = 0 := (fldN_pack F 0 12).trans (rfl)
  have f22 : fld _ 22 4 = o.gap := fld_pack F (fldN_self o.gap)
  have f18 : fld _ 18 4 = o.e := fld_pack F (fldN_self o.e)
  have f16 : fld _ 16 2 = o.n := fld_pack F (fldN_self o.n)
  have f12 : fld _ 12 4 = o.t := fld_pack F (fldN_self o.t)
  generalize pack [(26, 6), (22, o.gap.toNat), (18, o.e.toNat), (16, o.n.toNat), (12, o.t.toNat)] = n at *
  rw [decW06_of m]
  simp [decW06, e0_12, f22, f18, f16, f12]

theorem partCreate (h : HostCmd) : Statement (.partCreate h) := by intro st hs; cases hs

theorem partResize (h : HostCmd) : Statement (.partResize h) := by intro st hs; cases hs

theorem partDestroy (h : HostCmd) : Statement (.partDestroy h) := by intro st hs; cases hs

theorem partReset (h : HostCmd) : Statement (.partReset h) := by intro st hs; cases hs

theorem worldCreate (h : HostCmd) : Statement (.worldCreate h) := by intro st hs; cases hs

theorem worldDestroy (h : HostCmd) : Statement (.worldDestroy h) := by intro st hs; cases hs

theorem worldBind (h : HostCmd) : Statement (.worldBind h) := by intro st hs; cases hs

theorem worldUnbind (h : HostCmd) : Statement (.worldUnbind h) := by intro st hs; cases hs

theorem quotaGet (h : HostCmd) : Statement (.quotaGet h) := by intro st hs; cases hs

theorem quotaSet (h : HostCmd) : Statement (.quotaSet h) := by intro st hs; cases hs

theorem pageAlloc (h : HostCmd) : Statement (.pageAlloc h) := by intro st hs; cases hs

theorem pageFree (h : HostCmd) : Statement (.pageFree h) := by intro st hs; cases hs

theorem prefixReg (h : HostCmd) : Statement (.prefixReg h) := by intro st hs; cases hs

theorem keyRotate (h : HostCmd) : Statement (.keyRotate h) := by intro st hs; cases hs

theorem powerCapSet (h : HostCmd) : Statement (.powerCapSet h) := by intro st hs; cases hs

theorem fwWrite (h : HostCmd) : Statement (.fwWrite h) := by intro st hs; cases hs

theorem cfgWrite (h : HostCmd) : Statement (.cfgWrite h) := by intro st hs; cases hs

theorem logRead (h : HostCmd) : Statement (.logRead h) := by intro st hs; cases hs

theorem errRead (h : HostCmd) : Statement (.errRead h) := by intro st hs; cases hs

theorem resync (h : HostCmd) : Statement (.resync h) := by intro st hs; cases hs

theorem qreset (h : HostCmd) : Statement (.qreset h) := by intro st hs; cases hs

theorem queueLaunch (h : HostCmd) : Statement (.queueLaunch h) := by intro st hs; cases hs

theorem copyH2d (h : HostCmd) : Statement (.copyH2d h) := by intro st hs; cases hs

theorem copyD2h (h : HostCmd) : Statement (.copyD2h h) := by intro st hs; cases hs

theorem objWait (h : HostCmd) : Statement (.objWait h) := by intro st hs; cases hs

theorem copy2d (c : Cmd) : Statement (.copy2d c) := by intro st hs; cases hs

theorem copyr (c : Cmd) : Statement (.copyr c) := by intro st hs; cases hs

theorem slattn (c : Cmd) : Statement (.slattn c) := by intro st hs; cases hs

theorem lgmerge (c : Cmd) : Statement (.lgmerge c) := by intro st hs; cases hs

theorem lgunmerge (c : Cmd) : Statement (.lgunmerge c) := by intro st hs; cases hs

theorem lgsave (c : Cmd) : Statement (.lgsave c) := by intro st hs; cases hs

theorem lgdrop (c : Cmd) : Statement (.lgdrop c) := by intro st hs; cases hs

theorem adpin (c : Cmd) : Statement (.adpin c) := by intro st hs; cases hs

theorem adunpin (c : Cmd) : Statement (.adunpin c) := by intro st hs; cases hs

theorem adpubCreate (c : Cmd) : Statement (.adpubCreate c) := by intro st hs; cases hs

theorem adpubGrant (c : Cmd) : Statement (.adpubGrant c) := by intro st hs; cases hs

theorem adpubPrepare (c : Cmd) : Statement (.adpubPrepare c) := by intro st hs; cases hs

theorem adpubCommit (c : Cmd) : Statement (.adpubCommit c) := by intro st hs; cases hs

theorem adpubDelete (c : Cmd) : Statement (.adpubDelete c) := by intro st hs; cases hs

theorem kalloc (c : Cmd) : Statement (.kalloc c) := by intro st hs; cases hs

theorem kallocPool (c : Cmd) : Statement (.kallocPool c) := by intro st hs; cases hs

theorem kextendAlloc (c : Cmd) : Statement (.kextendAlloc c) := by intro st hs; cases hs

theorem kextendShare (c : Cmd) : Statement (.kextendShare c) := by intro st hs; cases hs

theorem kextendSetlen (c : Cmd) : Statement (.kextendSetlen c) := by intro st hs; cases hs

theorem kfree (c : Cmd) : Statement (.kfree c) := by intro st hs; cases hs

theorem migrate (c : Cmd) : Statement (.migrate c) := by intro st hs; cases hs

theorem migrateReplica (c : Cmd) : Statement (.migrateReplica c) := by intro st hs; cases hs

theorem migrateCancel (c : Cmd) : Statement (.migrateCancel c) := by intro st hs; cases hs

theorem colred (c : Cmd) : Statement (.colred c) := by intro st hs; cases hs

theorem colgat (c : Cmd) : Statement (.colgat c) := by intro st hs; cases hs

theorem colscat (c : Cmd) : Statement (.colscat c) := by intro st hs; cases hs

theorem wload (c : Cmd) : Statement (.wload c) := by intro st hs; cases hs

theorem nop : Statement .nop := by
  intro st hs hw; cases hs
  have F : Fits 32 [(26, 0), (0, 1)] :=
    ⟨by decide, by decide, by decide, by decide, trivial⟩
  refine decode_of (n := pack [(26, 0), (0, 1)]) rfl (pos_of_look (k := 0) (len := 1) F rfl) (pack_lt F) ?_ hw
  have m : fldN _ 26 6 = 0 := (fldN_pack F 26 6).trans rfl
  have e0_26 : fldN _ 0 26 = 1 := (fldN_pack F 0 26).trans (rfl)
  generalize pack [(26, 0), (0, 1)] = n at *
  rw [decS00_of m]
  simp [decS00, e0_26]

theorem eret : Statement .eret := by
  intro st hs hw; cases hs
  have F : Fits 32 [(26, 0), (0, 3)] :=
    ⟨by decide, by decide, by decide, by decide, trivial⟩
  refine decode_of (n := pack [(26, 0), (0, 3)]) rfl (pos_of_look (k := 0) (len := 2) F rfl) (pack_lt F) ?_ hw
  have m : fldN _ 26 6 = 0 := (fldN_pack F 26 6).trans rfl
  have e0_26 : fldN _ 0 26 = 3 := (fldN_pack F 0 26).trans (rfl)
  have e0_8 : fldN _ 0 8 = 3 := (fldN_pack F 0 8).trans (rfl)
  generalize pack [(26, 0), (0, 3)] = n at *
  rw [decS00_of m]
  simp [decS00, e0_26, e0_8]

theorem yieldGang : Statement .yieldGang := by
  intro st hs hw; cases hs
  have F : Fits 32 [(26, 0), (0, 4)] :=
    ⟨by decide, by decide, by decide, by decide, trivial⟩
  refine decode_of (n := pack [(26, 0), (0, 4)]) rfl (pos_of_look (k := 0) (len := 3) F rfl) (pack_lt F) ?_ hw
  have m : fldN _ 26 6 = 0 := (fldN_pack F 26 6).trans rfl
  have e0_26 : fldN _ 0 26 = 4 := (fldN_pack F 0 26).trans (rfl)
  have e0_8 : fldN _ 0 8 = 4 := (fldN_pack F 0 8).trans (rfl)
  generalize pack [(26, 0), (0, 4)] = n at *
  rw [decS00_of m]
  simp [decS00, e0_26, e0_8]

theorem exit : Statement .exit := by
  intro st hs hw; cases hs
  have F : Fits 32 [(26, 0), (0, 5)] :=
    ⟨by decide, by decide, by decide, by decide, trivial⟩
  refine decode_of (n := pack [(26, 0), (0, 5)]) rfl (pos_of_look (k := 0) (len := 3) F rfl) (pack_lt F) ?_ hw
  have m : fldN _ 26 6 = 0 := (fldN_pack F 26 6).trans rfl
  have e0_26 : fldN _ 0 26 = 5 := (fldN_pack F 0 26).trans (rfl)
  have e0_8 : fldN _ 0 8 = 5 := (fldN_pack F 0 8).trans (rfl)
  generalize pack [(26, 0), (0, 5)] = n at *
  rw [decS00_of m]
  simp [decS00, e0_26, e0_8]

theorem brk : Statement .brk := by
  intro st hs hw; cases hs
  have F : Fits 32 [(26, 0), (0, 6)] :=
    ⟨by decide, by decide, by decide, by decide, trivial⟩
  refine decode_of (n := pack [(26, 0), (0, 6)]) rfl (pos_of_look (k := 0) (len := 3) F rfl) (pack_lt F) ?_ hw
  have m : fldN _ 26 6 = 0 := (fldN_pack F 26 6).trans rfl
  have e0_26 : fldN _ 0 26 = 6 := (fldN_pack F 0 26).trans (rfl)
  have e0_8 : fldN _ 0 8 = 6 := (fldN_pack F 0 8).trans (rfl)
  generalize pack [(26, 0), (0, 6)] = n at *
  rw [decS00_of m]
  simp [decS00, e0_26, e0_8]

theorem powerOnReset : Statement .powerOnReset := by intro st hs; cases hs

theorem hotReset : Statement .hotReset := by intro st hs; cases hs

theorem powerTrip : Statement .powerTrip := by intro st hs; cases hs

theorem powerTripRelease : Statement .powerTripRelease := by intro st hs; cases hs

theorem thermalPowerOff : Statement .thermalPowerOff := by intro st hs; cases hs

theorem governorWindow : Statement .governorWindow := by intro st hs; cases hs

theorem islCtlTgtWrite : Statement .islCtlTgtWrite := by intro st hs; cases hs

theorem drainComplete : Statement .drainComplete := by intro st hs; cases hs

theorem islandAbandon : Statement .islandAbandon := by intro st hs; cases hs

theorem relockEnd : Statement .relockEnd := by intro st hs; cases hs

theorem strokeTick : Statement .strokeTick := by intro st hs; cases hs

theorem weightsLate : Statement .weightsLate := by intro st hs; cases hs

theorem ageingPromotion : Statement .ageingPromotion := by intro st hs; cases hs

theorem watchdogExpiry : Statement .watchdogExpiry := by intro st hs; cases hs

theorem gangDispatch : Statement .gangDispatch := by intro st hs; cases hs

theorem wideGangStart : Statement .wideGangStart := by intro st hs; cases hs

theorem preemptionSave : Statement .preemptionSave := by intro st hs; cases hs

theorem launchEnd : Statement .launchEnd := by intro st hs; cases hs

theorem barrierComplete : Statement .barrierComplete := by intro st hs; cases hs

theorem stripBodyLoad : Statement .stripBodyLoad := by intro st hs; cases hs

theorem stripGroupStart : Statement .stripGroupStart := by intro st hs; cases hs

theorem stripRepeatEnd : Statement .stripRepeatEnd := by intro st hs; cases hs

theorem slotDonation : Statement .slotDonation := by intro st hs; cases hs

theorem slotMiss : Statement .slotMiss := by intro st hs; cases hs

theorem timedReadDelivery : Statement .timedReadDelivery := by intro st hs; cases hs

theorem timedWriteAccept : Statement .timedWriteAccept := by intro st hs; cases hs

theorem untimedLoadArrival : Statement .untimedLoadArrival := by intro st hs; cases hs

theorem storePerformed : Statement .storePerformed := by intro st hs; cases hs

theorem linkCrcFail : Statement .linkCrcFail := by intro st hs; cases hs

theorem voidWindowStart : Statement .voidWindowStart := by intro st hs; cases hs

theorem repairEnd : Statement .repairEnd := by intro st hs; cases hs

theorem errorWindowBoundary : Statement .errorWindowBoundary := by intro st hs; cases hs

theorem cxlDown : Statement .cxlDown := by intro st hs; cases hs

theorem cxlRetrain : Statement .cxlRetrain := by intro st hs; cases hs

theorem cxlPoisonReport : Statement .cxlPoisonReport := by intro st hs; cases hs

theorem migrationStart : Statement .migrationStart := by intro st hs; cases hs

theorem migrationSwitch : Statement .migrationSwitch := by intro st hs; cases hs

theorem migrationAbandon : Statement .migrationAbandon := by intro st hs; cases hs

theorem sweepStart : Statement .sweepStart := by intro st hs; cases hs

theorem sweepLine : Statement .sweepLine := by intro st hs; cases hs

theorem prefixRefetch : Statement .prefixRefetch := by intro st hs; cases hs

theorem hostLinkDown : Statement .hostLinkDown := by intro st hs; cases hs

theorem hostLinkRetrain : Statement .hostLinkRetrain := by intro st hs; cases hs

theorem hostLinkLost : Statement .hostLinkLost := by intro st hs; cases hs

theorem ideCheckFail : Statement .ideCheckFail := by intro st hs; cases hs

theorem lockInterface : Statement .lockInterface := by intro st hs; cases hs

theorem startInterface : Statement .startInterface := by intro st hs; cases hs

theorem stopInterface : Statement .stopInterface := by intro st hs; cases hs

theorem spdmGetMeasurements : Statement .spdmGetMeasurements := by intro st hs; cases hs

theorem spdmKeyExchange : Statement .spdmKeyExchange := by intro st hs; cases hs

theorem ideKmKeyProg : Statement .ideKmKeyProg := by intro st hs; cases hs

theorem null : Statement .null := by intro st hs; cases hs

theorem ldReq : Statement .ldReq := by intro st hs; cases hs

theorem ldRsp : Statement .ldRsp := by intro st hs; cases hs

theorem atomReq : Statement .atomReq := by intro st hs; cases hs

theorem atomRsp : Statement .atomRsp := by intro st hs; cases hs

theorem nack : Statement .nack := by intro st hs; cases hs

theorem remoteRetry : Statement .remoteRetry := by intro st hs; cases hs

theorem copyData : Statement .copyData := by intro st hs; cases hs

theorem copyAck : Statement .copyAck := by intro st hs; cases hs

theorem colData : Statement .colData := by intro st hs; cases hs

theorem memb : Statement .memb := by intro st hs; cases hs

theorem memberLost : Statement .memberLost := by intro st hs; cases hs

theorem flitCheckFail : Statement .flitCheckFail := by intro st hs; cases hs

theorem portRetrain : Statement .portRetrain := by intro st hs; cases hs

theorem linkRekey : Statement .linkRekey := by intro st hs; cases hs

theorem sqTailWrite : Statement .sqTailWrite := by intro st hs; cases hs

theorem cqHeadWrite : Statement .cqHeadWrite := by intro st hs; cases hs

theorem qctlEnSet : Statement .qctlEnSet := by intro st hs; cases hs

theorem qctlEnClear : Statement .qctlEnClear := by intro st hs; cases hs

theorem hostCommandComplete : Statement .hostCommandComplete := by intro st hs; cases hs

theorem wdogSetApply : Statement .wdogSetApply := by intro st hs; cases hs

theorem dbgStop : Statement .dbgStop := by intro st hs; cases hs

theorem dbgResume : Statement .dbgResume := by intro st hs; cases hs

theorem fabpStatRead : Statement .fabpStatRead := by intro st hs; cases hs

theorem registerWrite : Statement .registerWrite := by intro st hs; cases hs

theorem trapEntry : Statement .trapEntry := by intro st hs; cases hs

theorem supervisorResolve : Statement .supervisorResolve := by intro st hs; cases hs

theorem translationWalkDone : Statement .translationWalkDone := by intro st hs; cases hs

theorem softError : Statement .softError := by intro st hs; cases hs

theorem aaggWindowClose : Statement .aaggWindowClose := by intro st hs; cases hs

theorem subarrayGate : Statement .subarrayGate := by intro st hs; cases hs

theorem commandEnd : Statement .commandEnd := by intro st hs; cases hs

theorem followOnIssue : Statement .followOnIssue := by intro st hs; cases hs

theorem migrationLineCopy : Statement .migrationLineCopy := by intro st hs; cases hs

theorem refetchingMarkClear : Statement .refetchingMarkClear := by intro st hs; cases hs

end Sys2Proof.Laws.RoundTrip
end

