-- ==== Sys2Proof/Laws/State.lean ====
section
/-! SUPPORT. The state record: one lemma per field per update, and what the updates of the core in focus do. -/

namespace Sys2Proof.Machine

/-! ### The core in focus changed -/

@[simp] theorem modCore_core (f : Core → Core) (s : State) : (modCore f s).core = f s.core := rfl
@[simp] theorem modCore_coreId (f : Core → Core) (s : State) : (modCore f s).coreId = s.coreId := rfl
@[simp] theorem modCore_others (f : Core → Core) (s : State) : (modCore f s).others = s.others := rfl
@[simp] theorem modCore_now (f : Core → Core) (s : State) : (modCore f s).now = s.now := rfl
@[simp] theorem modCore_tick (f : Core → Core) (s : State) : (modCore f s).tick = s.tick := rfl
@[simp] theorem modCore_strokeNs (f : Core → Core) (s : State) : (modCore f s).strokeNs = s.strokeNs := rfl
@[simp] theorem modCore_tickDue (f : Core → Core) (s : State) : (modCore f s).tickDue = s.tickDue := rfl
@[simp] theorem modCore_tickWork (f : Core → Core) (s : State) : (modCore f s).tickWork = s.tickWork := rfl
@[simp] theorem modCore_phase (f : Core → Core) (s : State) : (modCore f s).phase = s.phase := rfl
@[simp] theorem modCore_flash (f : Core → Core) (s : State) : (modCore f s).flash = s.flash := rfl
@[simp] theorem modCore_cfgDefaulted (f : Core → Core) (s : State) : (modCore f s).cfgDefaulted = s.cfgDefaulted := rfl
@[simp] theorem modCore_ident (f : Core → Core) (s : State) : (modCore f s).ident = s.ident := rfl
@[simp] theorem modCore_stepping (f : Core → Core) (s : State) : (modCore f s).stepping = s.stepping := rfl
@[simp] theorem modCore_modrev (f : Core → Core) (s : State) : (modCore f s).modrev = s.modrev := rfl
@[simp] theorem modCore_powerCap (f : Core → Core) (s : State) : (modCore f s).powerCap = s.powerCap := rfl
@[simp] theorem modCore_recordCap (f : Core → Core) (s : State) : (modCore f s).recordCap = s.recordCap := rfl
@[simp] theorem modCore_powerTripped (f : Core → Core) (s : State) : (modCore f s).powerTripped = s.powerTripped := rfl
@[simp] theorem modCore_withhold (f : Core → Core) (s : State) : (modCore f s).withhold = s.withhold := rfl
@[simp] theorem modCore_heldStrips (f : Core → Core) (s : State) : (modCore f s).heldStrips = s.heldStrips := rfl
@[simp] theorem modCore_islands (f : Core → Core) (s : State) : (modCore f s).islands = s.islands := rfl
@[simp] theorem modCore_refresh (f : Core → Core) (s : State) : (modCore f s).refresh = s.refresh := rfl
@[simp] theorem modCore_ways (f : Core → Core) (s : State) : (modCore f s).ways = s.ways := rfl
@[simp] theorem modCore_mem (f : Core → Core) (s : State) : (modCore f s).mem = s.mem := rfl
@[simp] theorem modCore_side (f : Core → Core) (s : State) : (modCore f s).side = s.side := rfl
@[simp] theorem modCore_ptes (f : Core → Core) (s : State) : (modCore f s).ptes = s.ptes := rfl
@[simp] theorem modCore_pages (f : Core → Core) (s : State) : (modCore f s).pages = s.pages := rfl
@[simp] theorem modCore_scrub (f : Core → Core) (s : State) : (modCore f s).scrub = s.scrub := rfl
@[simp] theorem modCore_replicas (f : Core → Core) (s : State) : (modCore f s).replicas = s.replicas := rfl
@[simp] theorem modCore_quotas (f : Core → Core) (s : State) : (modCore f s).quotas = s.quotas := rfl
@[simp] theorem modCore_programmed (f : Core → Core) (s : State) : (modCore f s).programmed = s.programmed := rfl
@[simp] theorem modCore_wear (f : Core → Core) (s : State) : (modCore f s).wear = s.wear := rfl
@[simp] theorem modCore_winExp (f : Core → Core) (s : State) : (modCore f s).winExp = s.winExp := rfl
@[simp] theorem modCore_thresh (f : Core → Core) (s : State) : (modCore f s).thresh = s.thresh := rfl
@[simp] theorem modCore_liveEn (f : Core → Core) (s : State) : (modCore f s).liveEn = s.liveEn := rfl
@[simp] theorem modCore_channels (f : Core → Core) (s : State) : (modCore f s).channels = s.channels := rfl
@[simp] theorem modCore_linkStat (f : Core → Core) (s : State) : (modCore f s).linkStat = s.linkStat := rfl
@[simp] theorem modCore_cxlUp (f : Core → Core) (s : State) : (modCore f s).cxlUp = s.cxlUp := rfl
@[simp] theorem modCore_migrations (f : Core → Core) (s : State) : (modCore f s).migrations = s.migrations := rfl
@[simp] theorem modCore_migQueue (f : Core → Core) (s : State) : (modCore f s).migQueue = s.migQueue := rfl
@[simp] theorem modCore_worlds (f : Core → Core) (s : State) : (modCore f s).worlds = s.worlds := rfl
@[simp] theorem modCore_keySlots (f : Core → Core) (s : State) : (modCore f s).keySlots = s.keySlots := rfl
@[simp] theorem modCore_parts (f : Core → Core) (s : State) : (modCore f s).parts = s.parts := rfl
@[simp] theorem modCore_calMaps (f : Core → Core) (s : State) : (modCore f s).calMaps = s.calMaps := rfl
@[simp] theorem modCore_donated (f : Core → Core) (s : State) : (modCore f s).donated = s.donated := rfl
@[simp] theorem modCore_hdm (f : Core → Core) (s : State) : (modCore f s).hdm = s.hdm := rfl
@[simp] theorem modCore_retiring (f : Core → Core) (s : State) : (modCore f s).retiring = s.retiring := rfl
@[simp] theorem modCore_islandLimits (f : Core → Core) (s : State) : (modCore f s).islandLimits = s.islandLimits := rfl
@[simp] theorem modCore_template (f : Core → Core) (s : State) : (modCore f s).template = s.template := rfl
@[simp] theorem modCore_recordInForce (f : Core → Core) (s : State) : (modCore f s).recordInForce = s.recordInForce := rfl
@[simp] theorem modCore_cxlIde (f : Core → Core) (s : State) : (modCore f s).cxlIde = s.cxlIde := rfl
@[simp] theorem modCore_gangs (f : Core → Core) (s : State) : (modCore f s).gangs = s.gangs := rfl
@[simp] theorem modCore_nextGang (f : Core → Core) (s : State) : (modCore f s).nextGang = s.nextGang := rfl
@[simp] theorem modCore_startCount (f : Core → Core) (s : State) : (modCore f s).startCount = s.startCount := rfl
@[simp] theorem modCore_arrivals (f : Core → Core) (s : State) : (modCore f s).arrivals = s.arrivals := rfl
@[simp] theorem modCore_contexts (f : Core → Core) (s : State) : (modCore f s).contexts = s.contexts := rfl
@[simp] theorem modCore_ckpts (f : Core → Core) (s : State) : (modCore f s).ckpts = s.ckpts := rfl
@[simp] theorem modCore_logOrdinals (f : Core → Core) (s : State) : (modCore f s).logOrdinals = s.logOrdinals := rfl
@[simp] theorem modCore_clusters (f : Core → Core) (s : State) : (modCore f s).clusters = s.clusters := rfl
@[simp] theorem modCore_windows (f : Core → Core) (s : State) : (modCore f s).windows = s.windows := rfl
@[simp] theorem modCore_linkUp (f : Core → Core) (s : State) : (modCore f s).linkUp = s.linkUp := rfl
@[simp] theorem modCore_linkHeld (f : Core → Core) (s : State) : (modCore f s).linkHeld = s.linkHeld := rfl
@[simp] theorem modCore_linkDownAt (f : Core → Core) (s : State) : (modCore f s).linkDownAt = s.linkDownAt := rfl
@[simp] theorem modCore_spdm (f : Core → Core) (s : State) : (modCore f s).spdm = s.spdm := rfl
@[simp] theorem modCore_spdmReply (f : Core → Core) (s : State) : (modCore f s).spdmReply = s.spdmReply := rfl
@[simp] theorem modCore_ownerChain (f : Core → Core) (s : State) : (modCore f s).ownerChain = s.ownerChain := rfl
@[simp] theorem modCore_ideKeys (f : Core → Core) (s : State) : (modCore f s).ideKeys = s.ideKeys := rfl
@[simp] theorem modCore_ideLost (f : Core → Core) (s : State) : (modCore f s).ideLost = s.ideLost := rfl
@[simp] theorem modCore_rdy (f : Core → Core) (s : State) : (modCore f s).rdy = s.rdy := rfl
@[simp] theorem modCore_node (f : Core → Core) (s : State) : (modCore f s).node = s.node := rfl
@[simp] theorem modCore_groups (f : Core → Core) (s : State) : (modCore f s).groups = s.groups := rfl
@[simp] theorem modCore_ports (f : Core → Core) (s : State) : (modCore f s).ports = s.ports := rfl
@[simp] theorem modCore_lanesOut (f : Core → Core) (s : State) : (modCore f s).lanesOut = s.lanesOut := rfl
@[simp] theorem modCore_remotes (f : Core → Core) (s : State) : (modCore f s).remotes = s.remotes := rfl
@[simp] theorem modCore_queues (f : Core → Core) (s : State) : (modCore f s).queues = s.queues := rfl
@[simp] theorem modCore_lastQueue (f : Core → Core) (s : State) : (modCore f s).lastQueue = s.lastQueue := rfl
@[simp] theorem modCore_hostRuns (f : Core → Core) (s : State) : (modCore f s).hostRuns = s.hostRuns := rfl
@[simp] theorem modCore_held (f : Core → Core) (s : State) : (modCore f s).held = s.held := rfl
@[simp] theorem modCore_fetched (f : Core → Core) (s : State) : (modCore f s).fetched = s.fetched := rfl
@[simp] theorem modCore_hostEp (f : Core → Core) (s : State) : (modCore f s).hostEp = s.hostEp := rfl
@[simp] theorem modCore_ideDrops (f : Core → Core) (s : State) : (modCore f s).ideDrops = s.ideDrops := rfl
@[simp] theorem modCore_logPa (f : Core → Core) (s : State) : (modCore f s).logPa = s.logPa := rfl
@[simp] theorem modCore_msix (f : Core → Core) (s : State) : (modCore f s).msix = s.msix := rfl
@[simp] theorem modCore_mailbox (f : Core → Core) (s : State) : (modCore f s).mailbox = s.mailbox := rfl
@[simp] theorem modCore_mmioData (f : Core → Core) (s : State) : (modCore f s).mmioData = s.mmioData := rfl
@[simp] theorem modCore_events (f : Core → Core) (s : State) : (modCore f s).events = s.events := rfl
@[simp] theorem modCore_unread (f : Core → Core) (s : State) : (modCore f s).unread = s.unread := rfl
@[simp] theorem modCore_lostNext (f : Core → Core) (s : State) : (modCore f s).lostNext = s.lostNext := rfl
@[simp] theorem modCore_nextEvent (f : Core → Core) (s : State) : (modCore f s).nextEvent = s.nextEvent := rfl
@[simp] theorem modCore_recovery (f : Core → Core) (s : State) : (modCore f s).recovery = s.recovery := rfl
@[simp] theorem modCore_recoveryUnread (f : Core → Core) (s : State) : (modCore f s).recoveryUnread = s.recoveryUnread := rfl
@[simp] theorem modCore_errors (f : Core → Core) (s : State) : (modCore f s).errors = s.errors := rfl
@[simp] theorem modCore_nextError (f : Core → Core) (s : State) : (modCore f s).nextError = s.nextError := rfl
@[simp] theorem modCore_poisonSeen (f : Core → Core) (s : State) : (modCore f s).poisonSeen = s.poisonSeen := rfl
@[simp] theorem modCore_prefixes (f : Core → Core) (s : State) : (modCore f s).prefixes = s.prefixes := rfl
@[simp] theorem modCore_aht (f : Core → Core) (s : State) : (modCore f s).aht = s.aht := rfl
@[simp] theorem modCore_maps (f : Core → Core) (s : State) : (modCore f s).maps = s.maps := rfl
@[simp] theorem modCore_mapGens (f : Core → Core) (s : State) : (modCore f s).mapGens = s.mapGens := rfl
@[simp] theorem modCore_running (f : Core → Core) (s : State) : (modCore f s).running = s.running := rfl
@[simp] theorem modCore_colls (f : Core → Core) (s : State) : (modCore f s).colls = s.colls := rfl
@[simp] theorem modCore_meetHeard (f : Core → Core) (s : State) : (modCore f s).meetHeard = s.meetHeard := rfl
@[simp] theorem modCore_engWorld (f : Core → Core) (s : State) : (modCore f s).engWorld = s.engWorld := rfl
@[simp] theorem modCore_served (f : Core → Core) (s : State) : (modCore f s).served = s.served := rfl
@[simp] theorem modCore_scFences (f : Core → Core) (s : State) : (modCore f s).scFences = s.scFences := rfl
@[simp] theorem modCore_scVecs (f : Core → Core) (s : State) : (modCore f s).scVecs = s.scVecs := rfl
@[simp] theorem modCore_inputs (f : Core → Core) (s : State) : (modCore f s).inputs = s.inputs := rfl
@[simp] theorem modCore_ev (f : Core → Core) (s : State) : (modCore f s).ev = s.ev := rfl
@[simp] theorem modCore_fresh (f : Core → Core) (s : State) : (modCore f s).fresh = s.fresh := rfl

@[simp] theorem modCore_modCore (f g : Core → Core) (s : State) : modCore f (modCore g s) = modCore (fun k => f (g k)) s := rfl

@[simp] theorem cyc_modCore (f : Core → Core) (s : State) : cyc (modCore f s) = cyc s := rfl

/-! ### The rest of the package changed -/

@[simp] theorem setIsland_coreId (s : State) (n : Nat) (x : Island) : (setIsland s n x).coreId = s.coreId := rfl
@[simp] theorem setIsland_core (s : State) (n : Nat) (x : Island) : (setIsland s n x).core = s.core := rfl
@[simp] theorem setIsland_others (s : State) (n : Nat) (x : Island) : (setIsland s n x).others = s.others := rfl
@[simp] theorem setIsland_now (s : State) (n : Nat) (x : Island) : (setIsland s n x).now = s.now := rfl
@[simp] theorem setIsland_tick (s : State) (n : Nat) (x : Island) : (setIsland s n x).tick = s.tick := rfl
@[simp] theorem setIsland_strokeNs (s : State) (n : Nat) (x : Island) : (setIsland s n x).strokeNs = s.strokeNs := rfl
@[simp] theorem setIsland_tickDue (s : State) (n : Nat) (x : Island) : (setIsland s n x).tickDue = s.tickDue := rfl
@[simp] theorem setIsland_tickWork (s : State) (n : Nat) (x : Island) : (setIsland s n x).tickWork = s.tickWork := rfl
@[simp] theorem setIsland_phase (s : State) (n : Nat) (x : Island) : (setIsland s n x).phase = s.phase := rfl
@[simp] theorem setIsland_flash (s : State) (n : Nat) (x : Island) : (setIsland s n x).flash = s.flash := rfl
@[simp] theorem setIsland_cfgDefaulted (s : State) (n : Nat) (x : Island) : (setIsland s n x).cfgDefaulted = s.cfgDefaulted := rfl
@[simp] theorem setIsland_ident (s : State) (n : Nat) (x : Island) : (setIsland s n x).ident = s.ident := rfl
@[simp] theorem setIsland_stepping (s : State) (n : Nat) (x : Island) : (setIsland s n x).stepping = s.stepping := rfl
@[simp] theorem setIsland_modrev (s : State) (n : Nat) (x : Island) : (setIsland s n x).modrev = s.modrev := rfl
@[simp] theorem setIsland_powerCap (s : State) (n : Nat) (x : Island) : (setIsland s n x).powerCap = s.powerCap := rfl
@[simp] theorem setIsland_recordCap (s : State) (n : Nat) (x : Island) : (setIsland s n x).recordCap = s.recordCap := rfl
@[simp] theorem setIsland_powerTripped (s : State) (n : Nat) (x : Island) : (setIsland s n x).powerTripped = s.powerTripped := rfl
@[simp] theorem setIsland_withhold (s : State) (n : Nat) (x : Island) : (setIsland s n x).withhold = s.withhold := rfl
@[simp] theorem setIsland_heldStrips (s : State) (n : Nat) (x : Island) : (setIsland s n x).heldStrips = s.heldStrips := rfl
@[simp] theorem setIsland_refresh (s : State) (n : Nat) (x : Island) : (setIsland s n x).refresh = s.refresh := rfl
@[simp] theorem setIsland_ways (s : State) (n : Nat) (x : Island) : (setIsland s n x).ways = s.ways := rfl
@[simp] theorem setIsland_mem (s : State) (n : Nat) (x : Island) : (setIsland s n x).mem = s.mem := rfl
@[simp] theorem setIsland_side (s : State) (n : Nat) (x : Island) : (setIsland s n x).side = s.side := rfl
@[simp] theorem setIsland_ptes (s : State) (n : Nat) (x : Island) : (setIsland s n x).ptes = s.ptes := rfl
@[simp] theorem setIsland_pages (s : State) (n : Nat) (x : Island) : (setIsland s n x).pages = s.pages := rfl
@[simp] theorem setIsland_scrub (s : State) (n : Nat) (x : Island) : (setIsland s n x).scrub = s.scrub := rfl
@[simp] theorem setIsland_replicas (s : State) (n : Nat) (x : Island) : (setIsland s n x).replicas = s.replicas := rfl
@[simp] theorem setIsland_quotas (s : State) (n : Nat) (x : Island) : (setIsland s n x).quotas = s.quotas := rfl
@[simp] theorem setIsland_programmed (s : State) (n : Nat) (x : Island) : (setIsland s n x).programmed = s.programmed := rfl
@[simp] theorem setIsland_wear (s : State) (n : Nat) (x : Island) : (setIsland s n x).wear = s.wear := rfl
@[simp] theorem setIsland_winExp (s : State) (n : Nat) (x : Island) : (setIsland s n x).winExp = s.winExp := rfl
@[simp] theorem setIsland_thresh (s : State) (n : Nat) (x : Island) : (setIsland s n x).thresh = s.thresh := rfl
@[simp] theorem setIsland_liveEn (s : State) (n : Nat) (x : Island) : (setIsland s n x).liveEn = s.liveEn := rfl
@[simp] theorem setIsland_channels (s : State) (n : Nat) (x : Island) : (setIsland s n x).channels = s.channels := rfl
@[simp] theorem setIsland_linkStat (s : State) (n : Nat) (x : Island) : (setIsland s n x).linkStat = s.linkStat := rfl
@[simp] theorem setIsland_cxlUp (s : State) (n : Nat) (x : Island) : (setIsland s n x).cxlUp = s.cxlUp := rfl
@[simp] theorem setIsland_migrations (s : State) (n : Nat) (x : Island) : (setIsland s n x).migrations = s.migrations := rfl
@[simp] theorem setIsland_migQueue (s : State) (n : Nat) (x : Island) : (setIsland s n x).migQueue = s.migQueue := rfl
@[simp] theorem setIsland_worlds (s : State) (n : Nat) (x : Island) : (setIsland s n x).worlds = s.worlds := rfl
@[simp] theorem setIsland_keySlots (s : State) (n : Nat) (x : Island) : (setIsland s n x).keySlots = s.keySlots := rfl
@[simp] theorem setIsland_parts (s : State) (n : Nat) (x : Island) : (setIsland s n x).parts = s.parts := rfl
@[simp] theorem setIsland_calMaps (s : State) (n : Nat) (x : Island) : (setIsland s n x).calMaps = s.calMaps := rfl
@[simp] theorem setIsland_donated (s : State) (n : Nat) (x : Island) : (setIsland s n x).donated = s.donated := rfl
@[simp] theorem setIsland_hdm (s : State) (n : Nat) (x : Island) : (setIsland s n x).hdm = s.hdm := rfl
@[simp] theorem setIsland_retiring (s : State) (n : Nat) (x : Island) : (setIsland s n x).retiring = s.retiring := rfl
@[simp] theorem setIsland_islandLimits (s : State) (n : Nat) (x : Island) : (setIsland s n x).islandLimits = s.islandLimits := rfl
@[simp] theorem setIsland_template (s : State) (n : Nat) (x : Island) : (setIsland s n x).template = s.template := rfl
@[simp] theorem setIsland_recordInForce (s : State) (n : Nat) (x : Island) : (setIsland s n x).recordInForce = s.recordInForce := rfl
@[simp] theorem setIsland_cxlIde (s : State) (n : Nat) (x : Island) : (setIsland s n x).cxlIde = s.cxlIde := rfl
@[simp] theorem setIsland_gangs (s : State) (n : Nat) (x : Island) : (setIsland s n x).gangs = s.gangs := rfl
@[simp] theorem setIsland_nextGang (s : State) (n : Nat) (x : Island) : (setIsland s n x).nextGang = s.nextGang := rfl
@[simp] theorem setIsland_startCount (s : State) (n : Nat) (x : Island) : (setIsland s n x).startCount = s.startCount := rfl
@[simp] theorem setIsland_arrivals (s : State) (n : Nat) (x : Island) : (setIsland s n x).arrivals = s.arrivals := rfl
@[simp] theorem setIsland_contexts (s : State) (n : Nat) (x : Island) : (setIsland s n x).contexts = s.contexts := rfl
@[simp] theorem setIsland_ckpts (s : State) (n : Nat) (x : Island) : (setIsland s n x).ckpts = s.ckpts := rfl
@[simp] theorem setIsland_logOrdinals (s : State) (n : Nat) (x : Island) : (setIsland s n x).logOrdinals = s.logOrdinals := rfl
@[simp] theorem setIsland_clusters (s : State) (n : Nat) (x : Island) : (setIsland s n x).clusters = s.clusters := rfl
@[simp] theorem setIsland_windows (s : State) (n : Nat) (x : Island) : (setIsland s n x).windows = s.windows := rfl
@[simp] theorem setIsland_linkUp (s : State) (n : Nat) (x : Island) : (setIsland s n x).linkUp = s.linkUp := rfl
@[simp] theorem setIsland_linkHeld (s : State) (n : Nat) (x : Island) : (setIsland s n x).linkHeld = s.linkHeld := rfl
@[simp] theorem setIsland_linkDownAt (s : State) (n : Nat) (x : Island) : (setIsland s n x).linkDownAt = s.linkDownAt := rfl
@[simp] theorem setIsland_spdm (s : State) (n : Nat) (x : Island) : (setIsland s n x).spdm = s.spdm := rfl
@[simp] theorem setIsland_spdmReply (s : State) (n : Nat) (x : Island) : (setIsland s n x).spdmReply = s.spdmReply := rfl
@[simp] theorem setIsland_ownerChain (s : State) (n : Nat) (x : Island) : (setIsland s n x).ownerChain = s.ownerChain := rfl
@[simp] theorem setIsland_ideKeys (s : State) (n : Nat) (x : Island) : (setIsland s n x).ideKeys = s.ideKeys := rfl
@[simp] theorem setIsland_ideLost (s : State) (n : Nat) (x : Island) : (setIsland s n x).ideLost = s.ideLost := rfl
@[simp] theorem setIsland_rdy (s : State) (n : Nat) (x : Island) : (setIsland s n x).rdy = s.rdy := rfl
@[simp] theorem setIsland_node (s : State) (n : Nat) (x : Island) : (setIsland s n x).node = s.node := rfl
@[simp] theorem setIsland_groups (s : State) (n : Nat) (x : Island) : (setIsland s n x).groups = s.groups := rfl
@[simp] theorem setIsland_ports (s : State) (n : Nat) (x : Island) : (setIsland s n x).ports = s.ports := rfl
@[simp] theorem setIsland_lanesOut (s : State) (n : Nat) (x : Island) : (setIsland s n x).lanesOut = s.lanesOut := rfl
@[simp] theorem setIsland_remotes (s : State) (n : Nat) (x : Island) : (setIsland s n x).remotes = s.remotes := rfl
@[simp] theorem setIsland_queues (s : State) (n : Nat) (x : Island) : (setIsland s n x).queues = s.queues := rfl
@[simp] theorem setIsland_lastQueue (s : State) (n : Nat) (x : Island) : (setIsland s n x).lastQueue = s.lastQueue := rfl
@[simp] theorem setIsland_hostRuns (s : State) (n : Nat) (x : Island) : (setIsland s n x).hostRuns = s.hostRuns := rfl
@[simp] theorem setIsland_held (s : State) (n : Nat) (x : Island) : (setIsland s n x).held = s.held := rfl
@[simp] theorem setIsland_fetched (s : State) (n : Nat) (x : Island) : (setIsland s n x).fetched = s.fetched := rfl
@[simp] theorem setIsland_hostEp (s : State) (n : Nat) (x : Island) : (setIsland s n x).hostEp = s.hostEp := rfl
@[simp] theorem setIsland_ideDrops (s : State) (n : Nat) (x : Island) : (setIsland s n x).ideDrops = s.ideDrops := rfl
@[simp] theorem setIsland_logPa (s : State) (n : Nat) (x : Island) : (setIsland s n x).logPa = s.logPa := rfl
@[simp] theorem setIsland_msix (s : State) (n : Nat) (x : Island) : (setIsland s n x).msix = s.msix := rfl
@[simp] theorem setIsland_mailbox (s : State) (n : Nat) (x : Island) : (setIsland s n x).mailbox = s.mailbox := rfl
@[simp] theorem setIsland_mmioData (s : State) (n : Nat) (x : Island) : (setIsland s n x).mmioData = s.mmioData := rfl
@[simp] theorem setIsland_events (s : State) (n : Nat) (x : Island) : (setIsland s n x).events = s.events := rfl
@[simp] theorem setIsland_unread (s : State) (n : Nat) (x : Island) : (setIsland s n x).unread = s.unread := rfl
@[simp] theorem setIsland_lostNext (s : State) (n : Nat) (x : Island) : (setIsland s n x).lostNext = s.lostNext := rfl
@[simp] theorem setIsland_nextEvent (s : State) (n : Nat) (x : Island) : (setIsland s n x).nextEvent = s.nextEvent := rfl
@[simp] theorem setIsland_recovery (s : State) (n : Nat) (x : Island) : (setIsland s n x).recovery = s.recovery := rfl
@[simp] theorem setIsland_recoveryUnread (s : State) (n : Nat) (x : Island) : (setIsland s n x).recoveryUnread = s.recoveryUnread := rfl
@[simp] theorem setIsland_errors (s : State) (n : Nat) (x : Island) : (setIsland s n x).errors = s.errors := rfl
@[simp] theorem setIsland_nextError (s : State) (n : Nat) (x : Island) : (setIsland s n x).nextError = s.nextError := rfl
@[simp] theorem setIsland_poisonSeen (s : State) (n : Nat) (x : Island) : (setIsland s n x).poisonSeen = s.poisonSeen := rfl
@[simp] theorem setIsland_prefixes (s : State) (n : Nat) (x : Island) : (setIsland s n x).prefixes = s.prefixes := rfl
@[simp] theorem setIsland_aht (s : State) (n : Nat) (x : Island) : (setIsland s n x).aht = s.aht := rfl
@[simp] theorem setIsland_maps (s : State) (n : Nat) (x : Island) : (setIsland s n x).maps = s.maps := rfl
@[simp] theorem setIsland_mapGens (s : State) (n : Nat) (x : Island) : (setIsland s n x).mapGens = s.mapGens := rfl
@[simp] theorem setIsland_running (s : State) (n : Nat) (x : Island) : (setIsland s n x).running = s.running := rfl
@[simp] theorem setIsland_colls (s : State) (n : Nat) (x : Island) : (setIsland s n x).colls = s.colls := rfl
@[simp] theorem setIsland_meetHeard (s : State) (n : Nat) (x : Island) : (setIsland s n x).meetHeard = s.meetHeard := rfl
@[simp] theorem setIsland_engWorld (s : State) (n : Nat) (x : Island) : (setIsland s n x).engWorld = s.engWorld := rfl
@[simp] theorem setIsland_served (s : State) (n : Nat) (x : Island) : (setIsland s n x).served = s.served := rfl
@[simp] theorem setIsland_scFences (s : State) (n : Nat) (x : Island) : (setIsland s n x).scFences = s.scFences := rfl
@[simp] theorem setIsland_scVecs (s : State) (n : Nat) (x : Island) : (setIsland s n x).scVecs = s.scVecs := rfl
@[simp] theorem setIsland_inputs (s : State) (n : Nat) (x : Island) : (setIsland s n x).inputs = s.inputs := rfl
@[simp] theorem setIsland_ev (s : State) (n : Nat) (x : Island) : (setIsland s n x).ev = s.ev := rfl
@[simp] theorem setIsland_fresh (s : State) (n : Nat) (x : Island) : (setIsland s n x).fresh = s.fresh := rfl

@[simp] theorem setPart_coreId (s : State) (n : Nat) (x : Part) : (setPart s n x).coreId = s.coreId := rfl
@[simp] theorem setPart_core (s : State) (n : Nat) (x : Part) : (setPart s n x).core = s.core := rfl
@[simp] theorem setPart_others (s : State) (n : Nat) (x : Part) : (setPart s n x).others = s.others := rfl
@[simp] theorem setPart_now (s : State) (n : Nat) (x : Part) : (setPart s n x).now = s.now := rfl
@[simp] theorem setPart_tick (s : State) (n : Nat) (x : Part) : (setPart s n x).tick = s.tick := rfl
@[simp] theorem setPart_strokeNs (s : State) (n : Nat) (x : Part) : (setPart s n x).strokeNs = s.strokeNs := rfl
@[simp] theorem setPart_tickDue (s : State) (n : Nat) (x : Part) : (setPart s n x).tickDue = s.tickDue := rfl
@[simp] theorem setPart_tickWork (s : State) (n : Nat) (x : Part) : (setPart s n x).tickWork = s.tickWork := rfl
@[simp] theorem setPart_phase (s : State) (n : Nat) (x : Part) : (setPart s n x).phase = s.phase := rfl
@[simp] theorem setPart_flash (s : State) (n : Nat) (x : Part) : (setPart s n x).flash = s.flash := rfl
@[simp] theorem setPart_cfgDefaulted (s : State) (n : Nat) (x : Part) : (setPart s n x).cfgDefaulted = s.cfgDefaulted := rfl
@[simp] theorem setPart_ident (s : State) (n : Nat) (x : Part) : (setPart s n x).ident = s.ident := rfl
@[simp] theorem setPart_stepping (s : State) (n : Nat) (x : Part) : (setPart s n x).stepping = s.stepping := rfl
@[simp] theorem setPart_modrev (s : State) (n : Nat) (x : Part) : (setPart s n x).modrev = s.modrev := rfl
@[simp] theorem setPart_powerCap (s : State) (n : Nat) (x : Part) : (setPart s n x).powerCap = s.powerCap := rfl
@[simp] theorem setPart_recordCap (s : State) (n : Nat) (x : Part) : (setPart s n x).recordCap = s.recordCap := rfl
@[simp] theorem setPart_powerTripped (s : State) (n : Nat) (x : Part) : (setPart s n x).powerTripped = s.powerTripped := rfl
@[simp] theorem setPart_withhold (s : State) (n : Nat) (x : Part) : (setPart s n x).withhold = s.withhold := rfl
@[simp] theorem setPart_heldStrips (s : State) (n : Nat) (x : Part) : (setPart s n x).heldStrips = s.heldStrips := rfl
@[simp] theorem setPart_islands (s : State) (n : Nat) (x : Part) : (setPart s n x).islands = s.islands := rfl
@[simp] theorem setPart_refresh (s : State) (n : Nat) (x : Part) : (setPart s n x).refresh = s.refresh := rfl
@[simp] theorem setPart_ways (s : State) (n : Nat) (x : Part) : (setPart s n x).ways = s.ways := rfl
@[simp] theorem setPart_mem (s : State) (n : Nat) (x : Part) : (setPart s n x).mem = s.mem := rfl
@[simp] theorem setPart_side (s : State) (n : Nat) (x : Part) : (setPart s n x).side = s.side := rfl
@[simp] theorem setPart_ptes (s : State) (n : Nat) (x : Part) : (setPart s n x).ptes = s.ptes := rfl
@[simp] theorem setPart_pages (s : State) (n : Nat) (x : Part) : (setPart s n x).pages = s.pages := rfl
@[simp] theorem setPart_scrub (s : State) (n : Nat) (x : Part) : (setPart s n x).scrub = s.scrub := rfl
@[simp] theorem setPart_replicas (s : State) (n : Nat) (x : Part) : (setPart s n x).replicas = s.replicas := rfl
@[simp] theorem setPart_quotas (s : State) (n : Nat) (x : Part) : (setPart s n x).quotas = s.quotas := rfl
@[simp] theorem setPart_programmed (s : State) (n : Nat) (x : Part) : (setPart s n x).programmed = s.programmed := rfl
@[simp] theorem setPart_wear (s : State) (n : Nat) (x : Part) : (setPart s n x).wear = s.wear := rfl
@[simp] theorem setPart_winExp (s : State) (n : Nat) (x : Part) : (setPart s n x).winExp = s.winExp := rfl
@[simp] theorem setPart_thresh (s : State) (n : Nat) (x : Part) : (setPart s n x).thresh = s.thresh := rfl
@[simp] theorem setPart_liveEn (s : State) (n : Nat) (x : Part) : (setPart s n x).liveEn = s.liveEn := rfl
@[simp] theorem setPart_channels (s : State) (n : Nat) (x : Part) : (setPart s n x).channels = s.channels := rfl
@[simp] theorem setPart_linkStat (s : State) (n : Nat) (x : Part) : (setPart s n x).linkStat = s.linkStat := rfl
@[simp] theorem setPart_cxlUp (s : State) (n : Nat) (x : Part) : (setPart s n x).cxlUp = s.cxlUp := rfl
@[simp] theorem setPart_migrations (s : State) (n : Nat) (x : Part) : (setPart s n x).migrations = s.migrations := rfl
@[simp] theorem setPart_migQueue (s : State) (n : Nat) (x : Part) : (setPart s n x).migQueue = s.migQueue := rfl
@[simp] theorem setPart_worlds (s : State) (n : Nat) (x : Part) : (setPart s n x).worlds = s.worlds := rfl
@[simp] theorem setPart_keySlots (s : State) (n : Nat) (x : Part) : (setPart s n x).keySlots = s.keySlots := rfl
@[simp] theorem setPart_calMaps (s : State) (n : Nat) (x : Part) : (setPart s n x).calMaps = s.calMaps := rfl
@[simp] theorem setPart_donated (s : State) (n : Nat) (x : Part) : (setPart s n x).donated = s.donated := rfl
@[simp] theorem setPart_hdm (s : State) (n : Nat) (x : Part) : (setPart s n x).hdm = s.hdm := rfl
@[simp] theorem setPart_retiring (s : State) (n : Nat) (x : Part) : (setPart s n x).retiring = s.retiring := rfl
@[simp] theorem setPart_islandLimits (s : State) (n : Nat) (x : Part) : (setPart s n x).islandLimits = s.islandLimits := rfl
@[simp] theorem setPart_template (s : State) (n : Nat) (x : Part) : (setPart s n x).template = s.template := rfl
@[simp] theorem setPart_recordInForce (s : State) (n : Nat) (x : Part) : (setPart s n x).recordInForce = s.recordInForce := rfl
@[simp] theorem setPart_cxlIde (s : State) (n : Nat) (x : Part) : (setPart s n x).cxlIde = s.cxlIde := rfl
@[simp] theorem setPart_gangs (s : State) (n : Nat) (x : Part) : (setPart s n x).gangs = s.gangs := rfl
@[simp] theorem setPart_nextGang (s : State) (n : Nat) (x : Part) : (setPart s n x).nextGang = s.nextGang := rfl
@[simp] theorem setPart_startCount (s : State) (n : Nat) (x : Part) : (setPart s n x).startCount = s.startCount := rfl
@[simp] theorem setPart_arrivals (s : State) (n : Nat) (x : Part) : (setPart s n x).arrivals = s.arrivals := rfl
@[simp] theorem setPart_contexts (s : State) (n : Nat) (x : Part) : (setPart s n x).contexts = s.contexts := rfl
@[simp] theorem setPart_ckpts (s : State) (n : Nat) (x : Part) : (setPart s n x).ckpts = s.ckpts := rfl
@[simp] theorem setPart_logOrdinals (s : State) (n : Nat) (x : Part) : (setPart s n x).logOrdinals = s.logOrdinals := rfl
@[simp] theorem setPart_clusters (s : State) (n : Nat) (x : Part) : (setPart s n x).clusters = s.clusters := rfl
@[simp] theorem setPart_windows (s : State) (n : Nat) (x : Part) : (setPart s n x).windows = s.windows := rfl
@[simp] theorem setPart_linkUp (s : State) (n : Nat) (x : Part) : (setPart s n x).linkUp = s.linkUp := rfl
@[simp] theorem setPart_linkHeld (s : State) (n : Nat) (x : Part) : (setPart s n x).linkHeld = s.linkHeld := rfl
@[simp] theorem setPart_linkDownAt (s : State) (n : Nat) (x : Part) : (setPart s n x).linkDownAt = s.linkDownAt := rfl
@[simp] theorem setPart_spdm (s : State) (n : Nat) (x : Part) : (setPart s n x).spdm = s.spdm := rfl
@[simp] theorem setPart_spdmReply (s : State) (n : Nat) (x : Part) : (setPart s n x).spdmReply = s.spdmReply := rfl
@[simp] theorem setPart_ownerChain (s : State) (n : Nat) (x : Part) : (setPart s n x).ownerChain = s.ownerChain := rfl
@[simp] theorem setPart_ideKeys (s : State) (n : Nat) (x : Part) : (setPart s n x).ideKeys = s.ideKeys := rfl
@[simp] theorem setPart_ideLost (s : State) (n : Nat) (x : Part) : (setPart s n x).ideLost = s.ideLost := rfl
@[simp] theorem setPart_rdy (s : State) (n : Nat) (x : Part) : (setPart s n x).rdy = s.rdy := rfl
@[simp] theorem setPart_node (s : State) (n : Nat) (x : Part) : (setPart s n x).node = s.node := rfl
@[simp] theorem setPart_groups (s : State) (n : Nat) (x : Part) : (setPart s n x).groups = s.groups := rfl
@[simp] theorem setPart_ports (s : State) (n : Nat) (x : Part) : (setPart s n x).ports = s.ports := rfl
@[simp] theorem setPart_lanesOut (s : State) (n : Nat) (x : Part) : (setPart s n x).lanesOut = s.lanesOut := rfl
@[simp] theorem setPart_remotes (s : State) (n : Nat) (x : Part) : (setPart s n x).remotes = s.remotes := rfl
@[simp] theorem setPart_queues (s : State) (n : Nat) (x : Part) : (setPart s n x).queues = s.queues := rfl
@[simp] theorem setPart_lastQueue (s : State) (n : Nat) (x : Part) : (setPart s n x).lastQueue = s.lastQueue := rfl
@[simp] theorem setPart_hostRuns (s : State) (n : Nat) (x : Part) : (setPart s n x).hostRuns = s.hostRuns := rfl
@[simp] theorem setPart_held (s : State) (n : Nat) (x : Part) : (setPart s n x).held = s.held := rfl
@[simp] theorem setPart_fetched (s : State) (n : Nat) (x : Part) : (setPart s n x).fetched = s.fetched := rfl
@[simp] theorem setPart_hostEp (s : State) (n : Nat) (x : Part) : (setPart s n x).hostEp = s.hostEp := rfl
@[simp] theorem setPart_ideDrops (s : State) (n : Nat) (x : Part) : (setPart s n x).ideDrops = s.ideDrops := rfl
@[simp] theorem setPart_logPa (s : State) (n : Nat) (x : Part) : (setPart s n x).logPa = s.logPa := rfl
@[simp] theorem setPart_msix (s : State) (n : Nat) (x : Part) : (setPart s n x).msix = s.msix := rfl
@[simp] theorem setPart_mailbox (s : State) (n : Nat) (x : Part) : (setPart s n x).mailbox = s.mailbox := rfl
@[simp] theorem setPart_mmioData (s : State) (n : Nat) (x : Part) : (setPart s n x).mmioData = s.mmioData := rfl
@[simp] theorem setPart_events (s : State) (n : Nat) (x : Part) : (setPart s n x).events = s.events := rfl
@[simp] theorem setPart_unread (s : State) (n : Nat) (x : Part) : (setPart s n x).unread = s.unread := rfl
@[simp] theorem setPart_lostNext (s : State) (n : Nat) (x : Part) : (setPart s n x).lostNext = s.lostNext := rfl
@[simp] theorem setPart_nextEvent (s : State) (n : Nat) (x : Part) : (setPart s n x).nextEvent = s.nextEvent := rfl
@[simp] theorem setPart_recovery (s : State) (n : Nat) (x : Part) : (setPart s n x).recovery = s.recovery := rfl
@[simp] theorem setPart_recoveryUnread (s : State) (n : Nat) (x : Part) : (setPart s n x).recoveryUnread = s.recoveryUnread := rfl
@[simp] theorem setPart_errors (s : State) (n : Nat) (x : Part) : (setPart s n x).errors = s.errors := rfl
@[simp] theorem setPart_nextError (s : State) (n : Nat) (x : Part) : (setPart s n x).nextError = s.nextError := rfl
@[simp] theorem setPart_poisonSeen (s : State) (n : Nat) (x : Part) : (setPart s n x).poisonSeen = s.poisonSeen := rfl
@[simp] theorem setPart_prefixes (s : State) (n : Nat) (x : Part) : (setPart s n x).prefixes = s.prefixes := rfl
@[simp] theorem setPart_aht (s : State) (n : Nat) (x : Part) : (setPart s n x).aht = s.aht := rfl
@[simp] theorem setPart_maps (s : State) (n : Nat) (x : Part) : (setPart s n x).maps = s.maps := rfl
@[simp] theorem setPart_mapGens (s : State) (n : Nat) (x : Part) : (setPart s n x).mapGens = s.mapGens := rfl
@[simp] theorem setPart_running (s : State) (n : Nat) (x : Part) : (setPart s n x).running = s.running := rfl
@[simp] theorem setPart_colls (s : State) (n : Nat) (x : Part) : (setPart s n x).colls = s.colls := rfl
@[simp] theorem setPart_meetHeard (s : State) (n : Nat) (x : Part) : (setPart s n x).meetHeard = s.meetHeard := rfl
@[simp] theorem setPart_engWorld (s : State) (n : Nat) (x : Part) : (setPart s n x).engWorld = s.engWorld := rfl
@[simp] theorem setPart_served (s : State) (n : Nat) (x : Part) : (setPart s n x).served = s.served := rfl
@[simp] theorem setPart_scFences (s : State) (n : Nat) (x : Part) : (setPart s n x).scFences = s.scFences := rfl
@[simp] theorem setPart_scVecs (s : State) (n : Nat) (x : Part) : (setPart s n x).scVecs = s.scVecs := rfl
@[simp] theorem setPart_inputs (s : State) (n : Nat) (x : Part) : (setPart s n x).inputs = s.inputs := rfl
@[simp] theorem setPart_ev (s : State) (n : Nat) (x : Part) : (setPart s n x).ev = s.ev := rfl
@[simp] theorem setPart_fresh (s : State) (n : Nat) (x : Part) : (setPart s n x).fresh = s.fresh := rfl

@[simp] theorem setWorld_coreId (s : State) (n : Nat) (x : World) : (setWorld s n x).coreId = s.coreId := rfl
@[simp] theorem setWorld_core (s : State) (n : Nat) (x : World) : (setWorld s n x).core = s.core := rfl
@[simp] theorem setWorld_others (s : State) (n : Nat) (x : World) : (setWorld s n x).others = s.others := rfl
@[simp] theorem setWorld_now (s : State) (n : Nat) (x : World) : (setWorld s n x).now = s.now := rfl
@[simp] theorem setWorld_tick (s : State) (n : Nat) (x : World) : (setWorld s n x).tick = s.tick := rfl
@[simp] theorem setWorld_strokeNs (s : State) (n : Nat) (x : World) : (setWorld s n x).strokeNs = s.strokeNs := rfl
@[simp] theorem setWorld_tickDue (s : State) (n : Nat) (x : World) : (setWorld s n x).tickDue = s.tickDue := rfl
@[simp] theorem setWorld_tickWork (s : State) (n : Nat) (x : World) : (setWorld s n x).tickWork = s.tickWork := rfl
@[simp] theorem setWorld_phase (s : State) (n : Nat) (x : World) : (setWorld s n x).phase = s.phase := rfl
@[simp] theorem setWorld_flash (s : State) (n : Nat) (x : World) : (setWorld s n x).flash = s.flash := rfl
@[simp] theorem setWorld_cfgDefaulted (s : State) (n : Nat) (x : World) : (setWorld s n x).cfgDefaulted = s.cfgDefaulted := rfl
@[simp] theorem setWorld_ident (s : State) (n : Nat) (x : World) : (setWorld s n x).ident = s.ident := rfl
@[simp] theorem setWorld_stepping (s : State) (n : Nat) (x : World) : (setWorld s n x).stepping = s.stepping := rfl
@[simp] theorem setWorld_modrev (s : State) (n : Nat) (x : World) : (setWorld s n x).modrev = s.modrev := rfl
@[simp] theorem setWorld_powerCap (s : State) (n : Nat) (x : World) : (setWorld s n x).powerCap = s.powerCap := rfl
@[simp] theorem setWorld_recordCap (s : State) (n : Nat) (x : World) : (setWorld s n x).recordCap = s.recordCap := rfl
@[simp] theorem setWorld_powerTripped (s : State) (n : Nat) (x : World) : (setWorld s n x).powerTripped = s.powerTripped := rfl
@[simp] theorem setWorld_withhold (s : State) (n : Nat) (x : World) : (setWorld s n x).withhold = s.withhold := rfl
@[simp] theorem setWorld_heldStrips (s : State) (n : Nat) (x : World) : (setWorld s n x).heldStrips = s.heldStrips := rfl
@[simp] theorem setWorld_islands (s : State) (n : Nat) (x : World) : (setWorld s n x).islands = s.islands := rfl
@[simp] theorem setWorld_refresh (s : State) (n : Nat) (x : World) : (setWorld s n x).refresh = s.refresh := rfl
@[simp] theorem setWorld_ways (s : State) (n : Nat) (x : World) : (setWorld s n x).ways = s.ways := rfl
@[simp] theorem setWorld_mem (s : State) (n : Nat) (x : World) : (setWorld s n x).mem = s.mem := rfl
@[simp] theorem setWorld_side (s : State) (n : Nat) (x : World) : (setWorld s n x).side = s.side := rfl
@[simp] theorem setWorld_ptes (s : State) (n : Nat) (x : World) : (setWorld s n x).ptes = s.ptes := rfl
@[simp] theorem setWorld_pages (s : State) (n : Nat) (x : World) : (setWorld s n x).pages = s.pages := rfl
@[simp] theorem setWorld_scrub (s : State) (n : Nat) (x : World) : (setWorld s n x).scrub = s.scrub := rfl
@[simp] theorem setWorld_replicas (s : State) (n : Nat) (x : World) : (setWorld s n x).replicas = s.replicas := rfl
@[simp] theorem setWorld_quotas (s : State) (n : Nat) (x : World) : (setWorld s n x).quotas = s.quotas := rfl
@[simp] theorem setWorld_programmed (s : State) (n : Nat) (x : World) : (setWorld s n x).programmed = s.programmed := rfl
@[simp] theorem setWorld_wear (s : State) (n : Nat) (x : World) : (setWorld s n x).wear = s.wear := rfl
@[simp] theorem setWorld_winExp (s : State) (n : Nat) (x : World) : (setWorld s n x).winExp = s.winExp := rfl
@[simp] theorem setWorld_thresh (s : State) (n : Nat) (x : World) : (setWorld s n x).thresh = s.thresh := rfl
@[simp] theorem setWorld_liveEn (s : State) (n : Nat) (x : World) : (setWorld s n x).liveEn = s.liveEn := rfl
@[simp] theorem setWorld_channels (s : State) (n : Nat) (x : World) : (setWorld s n x).channels = s.channels := rfl
@[simp] theorem setWorld_linkStat (s : State) (n : Nat) (x : World) : (setWorld s n x).linkStat = s.linkStat := rfl
@[simp] theorem setWorld_cxlUp (s : State) (n : Nat) (x : World) : (setWorld s n x).cxlUp = s.cxlUp := rfl
@[simp] theorem setWorld_migrations (s : State) (n : Nat) (x : World) : (setWorld s n x).migrations = s.migrations := rfl
@[simp] theorem setWorld_migQueue (s : State) (n : Nat) (x : World) : (setWorld s n x).migQueue = s.migQueue := rfl
@[simp] theorem setWorld_keySlots (s : State) (n : Nat) (x : World) : (setWorld s n x).keySlots = s.keySlots := rfl
@[simp] theorem setWorld_parts (s : State) (n : Nat) (x : World) : (setWorld s n x).parts = s.parts := rfl
@[simp] theorem setWorld_calMaps (s : State) (n : Nat) (x : World) : (setWorld s n x).calMaps = s.calMaps := rfl
@[simp] theorem setWorld_donated (s : State) (n : Nat) (x : World) : (setWorld s n x).donated = s.donated := rfl
@[simp] theorem setWorld_hdm (s : State) (n : Nat) (x : World) : (setWorld s n x).hdm = s.hdm := rfl
@[simp] theorem setWorld_retiring (s : State) (n : Nat) (x : World) : (setWorld s n x).retiring = s.retiring := rfl
@[simp] theorem setWorld_islandLimits (s : State) (n : Nat) (x : World) : (setWorld s n x).islandLimits = s.islandLimits := rfl
@[simp] theorem setWorld_template (s : State) (n : Nat) (x : World) : (setWorld s n x).template = s.template := rfl
@[simp] theorem setWorld_recordInForce (s : State) (n : Nat) (x : World) : (setWorld s n x).recordInForce = s.recordInForce := rfl
@[simp] theorem setWorld_cxlIde (s : State) (n : Nat) (x : World) : (setWorld s n x).cxlIde = s.cxlIde := rfl
@[simp] theorem setWorld_gangs (s : State) (n : Nat) (x : World) : (setWorld s n x).gangs = s.gangs := rfl
@[simp] theorem setWorld_nextGang (s : State) (n : Nat) (x : World) : (setWorld s n x).nextGang = s.nextGang := rfl
@[simp] theorem setWorld_startCount (s : State) (n : Nat) (x : World) : (setWorld s n x).startCount = s.startCount := rfl
@[simp] theorem setWorld_arrivals (s : State) (n : Nat) (x : World) : (setWorld s n x).arrivals = s.arrivals := rfl
@[simp] theorem setWorld_contexts (s : State) (n : Nat) (x : World) : (setWorld s n x).contexts = s.contexts := rfl
@[simp] theorem setWorld_ckpts (s : State) (n : Nat) (x : World) : (setWorld s n x).ckpts = s.ckpts := rfl
@[simp] theorem setWorld_logOrdinals (s : State) (n : Nat) (x : World) : (setWorld s n x).logOrdinals = s.logOrdinals := rfl
@[simp] theorem setWorld_clusters (s : State) (n : Nat) (x : World) : (setWorld s n x).clusters = s.clusters := rfl
@[simp] theorem setWorld_windows (s : State) (n : Nat) (x : World) : (setWorld s n x).windows = s.windows := rfl
@[simp] theorem setWorld_linkUp (s : State) (n : Nat) (x : World) : (setWorld s n x).linkUp = s.linkUp := rfl
@[simp] theorem setWorld_linkHeld (s : State) (n : Nat) (x : World) : (setWorld s n x).linkHeld = s.linkHeld := rfl
@[simp] theorem setWorld_linkDownAt (s : State) (n : Nat) (x : World) : (setWorld s n x).linkDownAt = s.linkDownAt := rfl
@[simp] theorem setWorld_spdm (s : State) (n : Nat) (x : World) : (setWorld s n x).spdm = s.spdm := rfl
@[simp] theorem setWorld_spdmReply (s : State) (n : Nat) (x : World) : (setWorld s n x).spdmReply = s.spdmReply := rfl
@[simp] theorem setWorld_ownerChain (s : State) (n : Nat) (x : World) : (setWorld s n x).ownerChain = s.ownerChain := rfl
@[simp] theorem setWorld_ideKeys (s : State) (n : Nat) (x : World) : (setWorld s n x).ideKeys = s.ideKeys := rfl
@[simp] theorem setWorld_ideLost (s : State) (n : Nat) (x : World) : (setWorld s n x).ideLost = s.ideLost := rfl
@[simp] theorem setWorld_rdy (s : State) (n : Nat) (x : World) : (setWorld s n x).rdy = s.rdy := rfl
@[simp] theorem setWorld_node (s : State) (n : Nat) (x : World) : (setWorld s n x).node = s.node := rfl
@[simp] theorem setWorld_groups (s : State) (n : Nat) (x : World) : (setWorld s n x).groups = s.groups := rfl
@[simp] theorem setWorld_ports (s : State) (n : Nat) (x : World) : (setWorld s n x).ports = s.ports := rfl
@[simp] theorem setWorld_lanesOut (s : State) (n : Nat) (x : World) : (setWorld s n x).lanesOut = s.lanesOut := rfl
@[simp] theorem setWorld_remotes (s : State) (n : Nat) (x : World) : (setWorld s n x).remotes = s.remotes := rfl
@[simp] theorem setWorld_queues (s : State) (n : Nat) (x : World) : (setWorld s n x).queues = s.queues := rfl
@[simp] theorem setWorld_lastQueue (s : State) (n : Nat) (x : World) : (setWorld s n x).lastQueue = s.lastQueue := rfl
@[simp] theorem setWorld_hostRuns (s : State) (n : Nat) (x : World) : (setWorld s n x).hostRuns = s.hostRuns := rfl
@[simp] theorem setWorld_held (s : State) (n : Nat) (x : World) : (setWorld s n x).held = s.held := rfl
@[simp] theorem setWorld_fetched (s : State) (n : Nat) (x : World) : (setWorld s n x).fetched = s.fetched := rfl
@[simp] theorem setWorld_hostEp (s : State) (n : Nat) (x : World) : (setWorld s n x).hostEp = s.hostEp := rfl
@[simp] theorem setWorld_ideDrops (s : State) (n : Nat) (x : World) : (setWorld s n x).ideDrops = s.ideDrops := rfl
@[simp] theorem setWorld_logPa (s : State) (n : Nat) (x : World) : (setWorld s n x).logPa = s.logPa := rfl
@[simp] theorem setWorld_msix (s : State) (n : Nat) (x : World) : (setWorld s n x).msix = s.msix := rfl
@[simp] theorem setWorld_mailbox (s : State) (n : Nat) (x : World) : (setWorld s n x).mailbox = s.mailbox := rfl
@[simp] theorem setWorld_mmioData (s : State) (n : Nat) (x : World) : (setWorld s n x).mmioData = s.mmioData := rfl
@[simp] theorem setWorld_events (s : State) (n : Nat) (x : World) : (setWorld s n x).events = s.events := rfl
@[simp] theorem setWorld_unread (s : State) (n : Nat) (x : World) : (setWorld s n x).unread = s.unread := rfl
@[simp] theorem setWorld_lostNext (s : State) (n : Nat) (x : World) : (setWorld s n x).lostNext = s.lostNext := rfl
@[simp] theorem setWorld_nextEvent (s : State) (n : Nat) (x : World) : (setWorld s n x).nextEvent = s.nextEvent := rfl
@[simp] theorem setWorld_recovery (s : State) (n : Nat) (x : World) : (setWorld s n x).recovery = s.recovery := rfl
@[simp] theorem setWorld_recoveryUnread (s : State) (n : Nat) (x : World) : (setWorld s n x).recoveryUnread = s.recoveryUnread := rfl
@[simp] theorem setWorld_errors (s : State) (n : Nat) (x : World) : (setWorld s n x).errors = s.errors := rfl
@[simp] theorem setWorld_nextError (s : State) (n : Nat) (x : World) : (setWorld s n x).nextError = s.nextError := rfl
@[simp] theorem setWorld_poisonSeen (s : State) (n : Nat) (x : World) : (setWorld s n x).poisonSeen = s.poisonSeen := rfl
@[simp] theorem setWorld_prefixes (s : State) (n : Nat) (x : World) : (setWorld s n x).prefixes = s.prefixes := rfl
@[simp] theorem setWorld_aht (s : State) (n : Nat) (x : World) : (setWorld s n x).aht = s.aht := rfl
@[simp] theorem setWorld_maps (s : State) (n : Nat) (x : World) : (setWorld s n x).maps = s.maps := rfl
@[simp] theorem setWorld_mapGens (s : State) (n : Nat) (x : World) : (setWorld s n x).mapGens = s.mapGens := rfl
@[simp] theorem setWorld_running (s : State) (n : Nat) (x : World) : (setWorld s n x).running = s.running := rfl
@[simp] theorem setWorld_colls (s : State) (n : Nat) (x : World) : (setWorld s n x).colls = s.colls := rfl
@[simp] theorem setWorld_meetHeard (s : State) (n : Nat) (x : World) : (setWorld s n x).meetHeard = s.meetHeard := rfl
@[simp] theorem setWorld_engWorld (s : State) (n : Nat) (x : World) : (setWorld s n x).engWorld = s.engWorld := rfl
@[simp] theorem setWorld_served (s : State) (n : Nat) (x : World) : (setWorld s n x).served = s.served := rfl
@[simp] theorem setWorld_scFences (s : State) (n : Nat) (x : World) : (setWorld s n x).scFences = s.scFences := rfl
@[simp] theorem setWorld_scVecs (s : State) (n : Nat) (x : World) : (setWorld s n x).scVecs = s.scVecs := rfl
@[simp] theorem setWorld_inputs (s : State) (n : Nat) (x : World) : (setWorld s n x).inputs = s.inputs := rfl
@[simp] theorem setWorld_ev (s : State) (n : Nat) (x : World) : (setWorld s n x).ev = s.ev := rfl
@[simp] theorem setWorld_fresh (s : State) (n : Nat) (x : World) : (setWorld s n x).fresh = s.fresh := rfl

@[simp] theorem setQuota_coreId (s : State) (n : Nat) (x : Quota) : (setQuota s n x).coreId = s.coreId := rfl
@[simp] theorem setQuota_core (s : State) (n : Nat) (x : Quota) : (setQuota s n x).core = s.core := rfl
@[simp] theorem setQuota_others (s : State) (n : Nat) (x : Quota) : (setQuota s n x).others = s.others := rfl
@[simp] theorem setQuota_now (s : State) (n : Nat) (x : Quota) : (setQuota s n x).now = s.now := rfl
@[simp] theorem setQuota_tick (s : State) (n : Nat) (x : Quota) : (setQuota s n x).tick = s.tick := rfl
@[simp] theorem setQuota_strokeNs (s : State) (n : Nat) (x : Quota) : (setQuota s n x).strokeNs = s.strokeNs := rfl
@[simp] theorem setQuota_tickDue (s : State) (n : Nat) (x : Quota) : (setQuota s n x).tickDue = s.tickDue := rfl
@[simp] theorem setQuota_tickWork (s : State) (n : Nat) (x : Quota) : (setQuota s n x).tickWork = s.tickWork := rfl
@[simp] theorem setQuota_phase (s : State) (n : Nat) (x : Quota) : (setQuota s n x).phase = s.phase := rfl
@[simp] theorem setQuota_flash (s : State) (n : Nat) (x : Quota) : (setQuota s n x).flash = s.flash := rfl
@[simp] theorem setQuota_cfgDefaulted (s : State) (n : Nat) (x : Quota) : (setQuota s n x).cfgDefaulted = s.cfgDefaulted := rfl
@[simp] theorem setQuota_ident (s : State) (n : Nat) (x : Quota) : (setQuota s n x).ident = s.ident := rfl
@[simp] theorem setQuota_stepping (s : State) (n : Nat) (x : Quota) : (setQuota s n x).stepping = s.stepping := rfl
@[simp] theorem setQuota_modrev (s : State) (n : Nat) (x : Quota) : (setQuota s n x).modrev = s.modrev := rfl
@[simp] theorem setQuota_powerCap (s : State) (n : Nat) (x : Quota) : (setQuota s n x).powerCap = s.powerCap := rfl
@[simp] theorem setQuota_recordCap (s : State) (n : Nat) (x : Quota) : (setQuota s n x).recordCap = s.recordCap := rfl
@[simp] theorem setQuota_powerTripped (s : State) (n : Nat) (x : Quota) : (setQuota s n x).powerTripped = s.powerTripped := rfl
@[simp] theorem setQuota_withhold (s : State) (n : Nat) (x : Quota) : (setQuota s n x).withhold = s.withhold := rfl
@[simp] theorem setQuota_heldStrips (s : State) (n : Nat) (x : Quota) : (setQuota s n x).heldStrips = s.heldStrips := rfl
@[simp] theorem setQuota_islands (s : State) (n : Nat) (x : Quota) : (setQuota s n x).islands = s.islands := rfl
@[simp] theorem setQuota_refresh (s : State) (n : Nat) (x : Quota) : (setQuota s n x).refresh = s.refresh := rfl
@[simp] theorem setQuota_ways (s : State) (n : Nat) (x : Quota) : (setQuota s n x).ways = s.ways := rfl
@[simp] theorem setQuota_mem (s : State) (n : Nat) (x : Quota) : (setQuota s n x).mem = s.mem := rfl
@[simp] theorem setQuota_side (s : State) (n : Nat) (x : Quota) : (setQuota s n x).side = s.side := rfl
@[simp] theorem setQuota_ptes (s : State) (n : Nat) (x : Quota) : (setQuota s n x).ptes = s.ptes := rfl
@[simp] theorem setQuota_pages (s : State) (n : Nat) (x : Quota) : (setQuota s n x).pages = s.pages := rfl
@[simp] theorem setQuota_scrub (s : State) (n : Nat) (x : Quota) : (setQuota s n x).scrub = s.scrub := rfl
@[simp] theorem setQuota_replicas (s : State) (n : Nat) (x : Quota) : (setQuota s n x).replicas = s.replicas := rfl
@[simp] theorem setQuota_programmed (s : State) (n : Nat) (x : Quota) : (setQuota s n x).programmed = s.programmed := rfl
@[simp] theorem setQuota_wear (s : State) (n : Nat) (x : Quota) : (setQuota s n x).wear = s.wear := rfl
@[simp] theorem setQuota_winExp (s : State) (n : Nat) (x : Quota) : (setQuota s n x).winExp = s.winExp := rfl
@[simp] theorem setQuota_thresh (s : State) (n : Nat) (x : Quota) : (setQuota s n x).thresh = s.thresh := rfl
@[simp] theorem setQuota_liveEn (s : State) (n : Nat) (x : Quota) : (setQuota s n x).liveEn = s.liveEn := rfl
@[simp] theorem setQuota_channels (s : State) (n : Nat) (x : Quota) : (setQuota s n x).channels = s.channels := rfl
@[simp] theorem setQuota_linkStat (s : State) (n : Nat) (x : Quota) : (setQuota s n x).linkStat = s.linkStat := rfl
@[simp] theorem setQuota_cxlUp (s : State) (n : Nat) (x : Quota) : (setQuota s n x).cxlUp = s.cxlUp := rfl
@[simp] theorem setQuota_migrations (s : State) (n : Nat) (x : Quota) : (setQuota s n x).migrations = s.migrations := rfl
@[simp] theorem setQuota_migQueue (s : State) (n : Nat) (x : Quota) : (setQuota s n x).migQueue = s.migQueue := rfl
@[simp] theorem setQuota_worlds (s : State) (n : Nat) (x : Quota) : (setQuota s n x).worlds = s.worlds := rfl
@[simp] theorem setQuota_keySlots (s : State) (n : Nat) (x : Quota) : (setQuota s n x).keySlots = s.keySlots := rfl
@[simp] theorem setQuota_parts (s : State) (n : Nat) (x : Quota) : (setQuota s n x).parts = s.parts := rfl
@[simp] theorem setQuota_calMaps (s : State) (n : Nat) (x : Quota) : (setQuota s n x).calMaps = s.calMaps := rfl
@[simp] theorem setQuota_donated (s : State) (n : Nat) (x : Quota) : (setQuota s n x).donated = s.donated := rfl
@[simp] theorem setQuota_hdm (s : State) (n : Nat) (x : Quota) : (setQuota s n x).hdm = s.hdm := rfl
@[simp] theorem setQuota_retiring (s : State) (n : Nat) (x : Quota) : (setQuota s n x).retiring = s.retiring := rfl
@[simp] theorem setQuota_islandLimits (s : State) (n : Nat) (x : Quota) : (setQuota s n x).islandLimits = s.islandLimits := rfl
@[simp] theorem setQuota_template (s : State) (n : Nat) (x : Quota) : (setQuota s n x).template = s.template := rfl
@[simp] theorem setQuota_recordInForce (s : State) (n : Nat) (x : Quota) : (setQuota s n x).recordInForce = s.recordInForce := rfl
@[simp] theorem setQuota_cxlIde (s : State) (n : Nat) (x : Quota) : (setQuota s n x).cxlIde = s.cxlIde := rfl
@[simp] theorem setQuota_gangs (s : State) (n : Nat) (x : Quota) : (setQuota s n x).gangs = s.gangs := rfl
@[simp] theorem setQuota_nextGang (s : State) (n : Nat) (x : Quota) : (setQuota s n x).nextGang = s.nextGang := rfl
@[simp] theorem setQuota_startCount (s : State) (n : Nat) (x : Quota) : (setQuota s n x).startCount = s.startCount := rfl
@[simp] theorem setQuota_arrivals (s : State) (n : Nat) (x : Quota) : (setQuota s n x).arrivals = s.arrivals := rfl
@[simp] theorem setQuota_contexts (s : State) (n : Nat) (x : Quota) : (setQuota s n x).contexts = s.contexts := rfl
@[simp] theorem setQuota_ckpts (s : State) (n : Nat) (x : Quota) : (setQuota s n x).ckpts = s.ckpts := rfl
@[simp] theorem setQuota_logOrdinals (s : State) (n : Nat) (x : Quota) : (setQuota s n x).logOrdinals = s.logOrdinals := rfl
@[simp] theorem setQuota_clusters (s : State) (n : Nat) (x : Quota) : (setQuota s n x).clusters = s.clusters := rfl
@[simp] theorem setQuota_windows (s : State) (n : Nat) (x : Quota) : (setQuota s n x).windows = s.windows := rfl
@[simp] theorem setQuota_linkUp (s : State) (n : Nat) (x : Quota) : (setQuota s n x).linkUp = s.linkUp := rfl
@[simp] theorem setQuota_linkHeld (s : State) (n : Nat) (x : Quota) : (setQuota s n x).linkHeld = s.linkHeld := rfl
@[simp] theorem setQuota_linkDownAt (s : State) (n : Nat) (x : Quota) : (setQuota s n x).linkDownAt = s.linkDownAt := rfl
@[simp] theorem setQuota_spdm (s : State) (n : Nat) (x : Quota) : (setQuota s n x).spdm = s.spdm := rfl
@[simp] theorem setQuota_spdmReply (s : State) (n : Nat) (x : Quota) : (setQuota s n x).spdmReply = s.spdmReply := rfl
@[simp] theorem setQuota_ownerChain (s : State) (n : Nat) (x : Quota) : (setQuota s n x).ownerChain = s.ownerChain := rfl
@[simp] theorem setQuota_ideKeys (s : State) (n : Nat) (x : Quota) : (setQuota s n x).ideKeys = s.ideKeys := rfl
@[simp] theorem setQuota_ideLost (s : State) (n : Nat) (x : Quota) : (setQuota s n x).ideLost = s.ideLost := rfl
@[simp] theorem setQuota_rdy (s : State) (n : Nat) (x : Quota) : (setQuota s n x).rdy = s.rdy := rfl
@[simp] theorem setQuota_node (s : State) (n : Nat) (x : Quota) : (setQuota s n x).node = s.node := rfl
@[simp] theorem setQuota_groups (s : State) (n : Nat) (x : Quota) : (setQuota s n x).groups = s.groups := rfl
@[simp] theorem setQuota_ports (s : State) (n : Nat) (x : Quota) : (setQuota s n x).ports = s.ports := rfl
@[simp] theorem setQuota_lanesOut (s : State) (n : Nat) (x : Quota) : (setQuota s n x).lanesOut = s.lanesOut := rfl
@[simp] theorem setQuota_remotes (s : State) (n : Nat) (x : Quota) : (setQuota s n x).remotes = s.remotes := rfl
@[simp] theorem setQuota_queues (s : State) (n : Nat) (x : Quota) : (setQuota s n x).queues = s.queues := rfl
@[simp] theorem setQuota_lastQueue (s : State) (n : Nat) (x : Quota) : (setQuota s n x).lastQueue = s.lastQueue := rfl
@[simp] theorem setQuota_hostRuns (s : State) (n : Nat) (x : Quota) : (setQuota s n x).hostRuns = s.hostRuns := rfl
@[simp] theorem setQuota_held (s : State) (n : Nat) (x : Quota) : (setQuota s n x).held = s.held := rfl
@[simp] theorem setQuota_fetched (s : State) (n : Nat) (x : Quota) : (setQuota s n x).fetched = s.fetched := rfl
@[simp] theorem setQuota_hostEp (s : State) (n : Nat) (x : Quota) : (setQuota s n x).hostEp = s.hostEp := rfl
@[simp] theorem setQuota_ideDrops (s : State) (n : Nat) (x : Quota) : (setQuota s n x).ideDrops = s.ideDrops := rfl
@[simp] theorem setQuota_logPa (s : State) (n : Nat) (x : Quota) : (setQuota s n x).logPa = s.logPa := rfl
@[simp] theorem setQuota_msix (s : State) (n : Nat) (x : Quota) : (setQuota s n x).msix = s.msix := rfl
@[simp] theorem setQuota_mailbox (s : State) (n : Nat) (x : Quota) : (setQuota s n x).mailbox = s.mailbox := rfl
@[simp] theorem setQuota_mmioData (s : State) (n : Nat) (x : Quota) : (setQuota s n x).mmioData = s.mmioData := rfl
@[simp] theorem setQuota_events (s : State) (n : Nat) (x : Quota) : (setQuota s n x).events = s.events := rfl
@[simp] theorem setQuota_unread (s : State) (n : Nat) (x : Quota) : (setQuota s n x).unread = s.unread := rfl
@[simp] theorem setQuota_lostNext (s : State) (n : Nat) (x : Quota) : (setQuota s n x).lostNext = s.lostNext := rfl
@[simp] theorem setQuota_nextEvent (s : State) (n : Nat) (x : Quota) : (setQuota s n x).nextEvent = s.nextEvent := rfl
@[simp] theorem setQuota_recovery (s : State) (n : Nat) (x : Quota) : (setQuota s n x).recovery = s.recovery := rfl
@[simp] theorem setQuota_recoveryUnread (s : State) (n : Nat) (x : Quota) : (setQuota s n x).recoveryUnread = s.recoveryUnread := rfl
@[simp] theorem setQuota_errors (s : State) (n : Nat) (x : Quota) : (setQuota s n x).errors = s.errors := rfl
@[simp] theorem setQuota_nextError (s : State) (n : Nat) (x : Quota) : (setQuota s n x).nextError = s.nextError := rfl
@[simp] theorem setQuota_poisonSeen (s : State) (n : Nat) (x : Quota) : (setQuota s n x).poisonSeen = s.poisonSeen := rfl
@[simp] theorem setQuota_prefixes (s : State) (n : Nat) (x : Quota) : (setQuota s n x).prefixes = s.prefixes := rfl
@[simp] theorem setQuota_aht (s : State) (n : Nat) (x : Quota) : (setQuota s n x).aht = s.aht := rfl
@[simp] theorem setQuota_maps (s : State) (n : Nat) (x : Quota) : (setQuota s n x).maps = s.maps := rfl
@[simp] theorem setQuota_mapGens (s : State) (n : Nat) (x : Quota) : (setQuota s n x).mapGens = s.mapGens := rfl
@[simp] theorem setQuota_running (s : State) (n : Nat) (x : Quota) : (setQuota s n x).running = s.running := rfl
@[simp] theorem setQuota_colls (s : State) (n : Nat) (x : Quota) : (setQuota s n x).colls = s.colls := rfl
@[simp] theorem setQuota_meetHeard (s : State) (n : Nat) (x : Quota) : (setQuota s n x).meetHeard = s.meetHeard := rfl
@[simp] theorem setQuota_engWorld (s : State) (n : Nat) (x : Quota) : (setQuota s n x).engWorld = s.engWorld := rfl
@[simp] theorem setQuota_served (s : State) (n : Nat) (x : Quota) : (setQuota s n x).served = s.served := rfl
@[simp] theorem setQuota_scFences (s : State) (n : Nat) (x : Quota) : (setQuota s n x).scFences = s.scFences := rfl
@[simp] theorem setQuota_scVecs (s : State) (n : Nat) (x : Quota) : (setQuota s n x).scVecs = s.scVecs := rfl
@[simp] theorem setQuota_inputs (s : State) (n : Nat) (x : Quota) : (setQuota s n x).inputs = s.inputs := rfl
@[simp] theorem setQuota_ev (s : State) (n : Nat) (x : Quota) : (setQuota s n x).ev = s.ev := rfl
@[simp] theorem setQuota_fresh (s : State) (n : Nat) (x : Quota) : (setQuota s n x).fresh = s.fresh := rfl

@[simp] theorem setChannel_coreId (s : State) (n : Nat) (x : Channel) : (setChannel s n x).coreId = s.coreId := rfl
@[simp] theorem setChannel_core (s : State) (n : Nat) (x : Channel) : (setChannel s n x).core = s.core := rfl
@[simp] theorem setChannel_others (s : State) (n : Nat) (x : Channel) : (setChannel s n x).others = s.others := rfl
@[simp] theorem setChannel_now (s : State) (n : Nat) (x : Channel) : (setChannel s n x).now = s.now := rfl
@[simp] theorem setChannel_tick (s : State) (n : Nat) (x : Channel) : (setChannel s n x).tick = s.tick := rfl
@[simp] theorem setChannel_strokeNs (s : State) (n : Nat) (x : Channel) : (setChannel s n x).strokeNs = s.strokeNs := rfl
@[simp] theorem setChannel_tickDue (s : State) (n : Nat) (x : Channel) : (setChannel s n x).tickDue = s.tickDue := rfl
@[simp] theorem setChannel_tickWork (s : State) (n : Nat) (x : Channel) : (setChannel s n x).tickWork = s.tickWork := rfl
@[simp] theorem setChannel_phase (s : State) (n : Nat) (x : Channel) : (setChannel s n x).phase = s.phase := rfl
@[simp] theorem setChannel_flash (s : State) (n : Nat) (x : Channel) : (setChannel s n x).flash = s.flash := rfl
@[simp] theorem setChannel_cfgDefaulted (s : State) (n : Nat) (x : Channel) : (setChannel s n x).cfgDefaulted = s.cfgDefaulted := rfl
@[simp] theorem setChannel_ident (s : State) (n : Nat) (x : Channel) : (setChannel s n x).ident = s.ident := rfl
@[simp] theorem setChannel_stepping (s : State) (n : Nat) (x : Channel) : (setChannel s n x).stepping = s.stepping := rfl
@[simp] theorem setChannel_modrev (s : State) (n : Nat) (x : Channel) : (setChannel s n x).modrev = s.modrev := rfl
@[simp] theorem setChannel_powerCap (s : State) (n : Nat) (x : Channel) : (setChannel s n x).powerCap = s.powerCap := rfl
@[simp] theorem setChannel_recordCap (s : State) (n : Nat) (x : Channel) : (setChannel s n x).recordCap = s.recordCap := rfl
@[simp] theorem setChannel_powerTripped (s : State) (n : Nat) (x : Channel) : (setChannel s n x).powerTripped = s.powerTripped := rfl
@[simp] theorem setChannel_withhold (s : State) (n : Nat) (x : Channel) : (setChannel s n x).withhold = s.withhold := rfl
@[simp] theorem setChannel_heldStrips (s : State) (n : Nat) (x : Channel) : (setChannel s n x).heldStrips = s.heldStrips := rfl
@[simp] theorem setChannel_islands (s : State) (n : Nat) (x : Channel) : (setChannel s n x).islands = s.islands := rfl
@[simp] theorem setChannel_refresh (s : State) (n : Nat) (x : Channel) : (setChannel s n x).refresh = s.refresh := rfl
@[simp] theorem setChannel_ways (s : State) (n : Nat) (x : Channel) : (setChannel s n x).ways = s.ways := rfl
@[simp] theorem setChannel_mem (s : State) (n : Nat) (x : Channel) : (setChannel s n x).mem = s.mem := rfl
@[simp] theorem setChannel_side (s : State) (n : Nat) (x : Channel) : (setChannel s n x).side = s.side := rfl
@[simp] theorem setChannel_ptes (s : State) (n : Nat) (x : Channel) : (setChannel s n x).ptes = s.ptes := rfl
@[simp] theorem setChannel_pages (s : State) (n : Nat) (x : Channel) : (setChannel s n x).pages = s.pages := rfl
@[simp] theorem setChannel_scrub (s : State) (n : Nat) (x : Channel) : (setChannel s n x).scrub = s.scrub := rfl
@[simp] theorem setChannel_replicas (s : State) (n : Nat) (x : Channel) : (setChannel s n x).replicas = s.replicas := rfl
@[simp] theorem setChannel_quotas (s : State) (n : Nat) (x : Channel) : (setChannel s n x).quotas = s.quotas := rfl
@[simp] theorem setChannel_programmed (s : State) (n : Nat) (x : Channel) : (setChannel s n x).programmed = s.programmed := rfl
@[simp] theorem setChannel_wear (s : State) (n : Nat) (x : Channel) : (setChannel s n x).wear = s.wear := rfl
@[simp] theorem setChannel_winExp (s : State) (n : Nat) (x : Channel) : (setChannel s n x).winExp = s.winExp := rfl
@[simp] theorem setChannel_thresh (s : State) (n : Nat) (x : Channel) : (setChannel s n x).thresh = s.thresh := rfl
@[simp] theorem setChannel_liveEn (s : State) (n : Nat) (x : Channel) : (setChannel s n x).liveEn = s.liveEn := rfl
@[simp] theorem setChannel_linkStat (s : State) (n : Nat) (x : Channel) : (setChannel s n x).linkStat = s.linkStat := rfl
@[simp] theorem setChannel_cxlUp (s : State) (n : Nat) (x : Channel) : (setChannel s n x).cxlUp = s.cxlUp := rfl
@[simp] theorem setChannel_migrations (s : State) (n : Nat) (x : Channel) : (setChannel s n x).migrations = s.migrations := rfl
@[simp] theorem setChannel_migQueue (s : State) (n : Nat) (x : Channel) : (setChannel s n x).migQueue = s.migQueue := rfl
@[simp] theorem setChannel_worlds (s : State) (n : Nat) (x : Channel) : (setChannel s n x).worlds = s.worlds := rfl
@[simp] theorem setChannel_keySlots (s : State) (n : Nat) (x : Channel) : (setChannel s n x).keySlots = s.keySlots := rfl
@[simp] theorem setChannel_parts (s : State) (n : Nat) (x : Channel) : (setChannel s n x).parts = s.parts := rfl
@[simp] theorem setChannel_calMaps (s : State) (n : Nat) (x : Channel) : (setChannel s n x).calMaps = s.calMaps := rfl
@[simp] theorem setChannel_donated (s : State) (n : Nat) (x : Channel) : (setChannel s n x).donated = s.donated := rfl
@[simp] theorem setChannel_hdm (s : State) (n : Nat) (x : Channel) : (setChannel s n x).hdm = s.hdm := rfl
@[simp] theorem setChannel_retiring (s : State) (n : Nat) (x : Channel) : (setChannel s n x).retiring = s.retiring := rfl
@[simp] theorem setChannel_islandLimits (s : State) (n : Nat) (x : Channel) : (setChannel s n x).islandLimits = s.islandLimits := rfl
@[simp] theorem setChannel_template (s : State) (n : Nat) (x : Channel) : (setChannel s n x).template = s.template := rfl
@[simp] theorem setChannel_recordInForce (s : State) (n : Nat) (x : Channel) : (setChannel s n x).recordInForce = s.recordInForce := rfl
@[simp] theorem setChannel_cxlIde (s : State) (n : Nat) (x : Channel) : (setChannel s n x).cxlIde = s.cxlIde := rfl
@[simp] theorem setChannel_gangs (s : State) (n : Nat) (x : Channel) : (setChannel s n x).gangs = s.gangs := rfl
@[simp] theorem setChannel_nextGang (s : State) (n : Nat) (x : Channel) : (setChannel s n x).nextGang = s.nextGang := rfl
@[simp] theorem setChannel_startCount (s : State) (n : Nat) (x : Channel) : (setChannel s n x).startCount = s.startCount := rfl
@[simp] theorem setChannel_arrivals (s : State) (n : Nat) (x : Channel) : (setChannel s n x).arrivals = s.arrivals := rfl
@[simp] theorem setChannel_contexts (s : State) (n : Nat) (x : Channel) : (setChannel s n x).contexts = s.contexts := rfl
@[simp] theorem setChannel_ckpts (s : State) (n : Nat) (x : Channel) : (setChannel s n x).ckpts = s.ckpts := rfl
@[simp] theorem setChannel_logOrdinals (s : State) (n : Nat) (x : Channel) : (setChannel s n x).logOrdinals = s.logOrdinals := rfl
@[simp] theorem setChannel_clusters (s : State) (n : Nat) (x : Channel) : (setChannel s n x).clusters = s.clusters := rfl
@[simp] theorem setChannel_windows (s : State) (n : Nat) (x : Channel) : (setChannel s n x).windows = s.windows := rfl
@[simp] theorem setChannel_linkUp (s : State) (n : Nat) (x : Channel) : (setChannel s n x).linkUp = s.linkUp := rfl
@[simp] theorem setChannel_linkHeld (s : State) (n : Nat) (x : Channel) : (setChannel s n x).linkHeld = s.linkHeld := rfl
@[simp] theorem setChannel_linkDownAt (s : State) (n : Nat) (x : Channel) : (setChannel s n x).linkDownAt = s.linkDownAt := rfl
@[simp] theorem setChannel_spdm (s : State) (n : Nat) (x : Channel) : (setChannel s n x).spdm = s.spdm := rfl
@[simp] theorem setChannel_spdmReply (s : State) (n : Nat) (x : Channel) : (setChannel s n x).spdmReply = s.spdmReply := rfl
@[simp] theorem setChannel_ownerChain (s : State) (n : Nat) (x : Channel) : (setChannel s n x).ownerChain = s.ownerChain := rfl
@[simp] theorem setChannel_ideKeys (s : State) (n : Nat) (x : Channel) : (setChannel s n x).ideKeys = s.ideKeys := rfl
@[simp] theorem setChannel_ideLost (s : State) (n : Nat) (x : Channel) : (setChannel s n x).ideLost = s.ideLost := rfl
@[simp] theorem setChannel_rdy (s : State) (n : Nat) (x : Channel) : (setChannel s n x).rdy = s.rdy := rfl
@[simp] theorem setChannel_node (s : State) (n : Nat) (x : Channel) : (setChannel s n x).node = s.node := rfl
@[simp] theorem setChannel_groups (s : State) (n : Nat) (x : Channel) : (setChannel s n x).groups = s.groups := rfl
@[simp] theorem setChannel_ports (s : State) (n : Nat) (x : Channel) : (setChannel s n x).ports = s.ports := rfl
@[simp] theorem setChannel_lanesOut (s : State) (n : Nat) (x : Channel) : (setChannel s n x).lanesOut = s.lanesOut := rfl
@[simp] theorem setChannel_remotes (s : State) (n : Nat) (x : Channel) : (setChannel s n x).remotes = s.remotes := rfl
@[simp] theorem setChannel_queues (s : State) (n : Nat) (x : Channel) : (setChannel s n x).queues = s.queues := rfl
@[simp] theorem setChannel_lastQueue (s : State) (n : Nat) (x : Channel) : (setChannel s n x).lastQueue = s.lastQueue := rfl
@[simp] theorem setChannel_hostRuns (s : State) (n : Nat) (x : Channel) : (setChannel s n x).hostRuns = s.hostRuns := rfl
@[simp] theorem setChannel_held (s : State) (n : Nat) (x : Channel) : (setChannel s n x).held = s.held := rfl
@[simp] theorem setChannel_fetched (s : State) (n : Nat) (x : Channel) : (setChannel s n x).fetched = s.fetched := rfl
@[simp] theorem setChannel_hostEp (s : State) (n : Nat) (x : Channel) : (setChannel s n x).hostEp = s.hostEp := rfl
@[simp] theorem setChannel_ideDrops (s : State) (n : Nat) (x : Channel) : (setChannel s n x).ideDrops = s.ideDrops := rfl
@[simp] theorem setChannel_logPa (s : State) (n : Nat) (x : Channel) : (setChannel s n x).logPa = s.logPa := rfl
@[simp] theorem setChannel_msix (s : State) (n : Nat) (x : Channel) : (setChannel s n x).msix = s.msix := rfl
@[simp] theorem setChannel_mailbox (s : State) (n : Nat) (x : Channel) : (setChannel s n x).mailbox = s.mailbox := rfl
@[simp] theorem setChannel_mmioData (s : State) (n : Nat) (x : Channel) : (setChannel s n x).mmioData = s.mmioData := rfl
@[simp] theorem setChannel_events (s : State) (n : Nat) (x : Channel) : (setChannel s n x).events = s.events := rfl
@[simp] theorem setChannel_unread (s : State) (n : Nat) (x : Channel) : (setChannel s n x).unread = s.unread := rfl
@[simp] theorem setChannel_lostNext (s : State) (n : Nat) (x : Channel) : (setChannel s n x).lostNext = s.lostNext := rfl
@[simp] theorem setChannel_nextEvent (s : State) (n : Nat) (x : Channel) : (setChannel s n x).nextEvent = s.nextEvent := rfl
@[simp] theorem setChannel_recovery (s : State) (n : Nat) (x : Channel) : (setChannel s n x).recovery = s.recovery := rfl
@[simp] theorem setChannel_recoveryUnread (s : State) (n : Nat) (x : Channel) : (setChannel s n x).recoveryUnread = s.recoveryUnread := rfl
@[simp] theorem setChannel_errors (s : State) (n : Nat) (x : Channel) : (setChannel s n x).errors = s.errors := rfl
@[simp] theorem setChannel_nextError (s : State) (n : Nat) (x : Channel) : (setChannel s n x).nextError = s.nextError := rfl
@[simp] theorem setChannel_poisonSeen (s : State) (n : Nat) (x : Channel) : (setChannel s n x).poisonSeen = s.poisonSeen := rfl
@[simp] theorem setChannel_prefixes (s : State) (n : Nat) (x : Channel) : (setChannel s n x).prefixes = s.prefixes := rfl
@[simp] theorem setChannel_aht (s : State) (n : Nat) (x : Channel) : (setChannel s n x).aht = s.aht := rfl
@[simp] theorem setChannel_maps (s : State) (n : Nat) (x : Channel) : (setChannel s n x).maps = s.maps := rfl
@[simp] theorem setChannel_mapGens (s : State) (n : Nat) (x : Channel) : (setChannel s n x).mapGens = s.mapGens := rfl
@[simp] theorem setChannel_running (s : State) (n : Nat) (x : Channel) : (setChannel s n x).running = s.running := rfl
@[simp] theorem setChannel_colls (s : State) (n : Nat) (x : Channel) : (setChannel s n x).colls = s.colls := rfl
@[simp] theorem setChannel_meetHeard (s : State) (n : Nat) (x : Channel) : (setChannel s n x).meetHeard = s.meetHeard := rfl
@[simp] theorem setChannel_engWorld (s : State) (n : Nat) (x : Channel) : (setChannel s n x).engWorld = s.engWorld := rfl
@[simp] theorem setChannel_served (s : State) (n : Nat) (x : Channel) : (setChannel s n x).served = s.served := rfl
@[simp] theorem setChannel_scFences (s : State) (n : Nat) (x : Channel) : (setChannel s n x).scFences = s.scFences := rfl
@[simp] theorem setChannel_scVecs (s : State) (n : Nat) (x : Channel) : (setChannel s n x).scVecs = s.scVecs := rfl
@[simp] theorem setChannel_inputs (s : State) (n : Nat) (x : Channel) : (setChannel s n x).inputs = s.inputs := rfl
@[simp] theorem setChannel_ev (s : State) (n : Nat) (x : Channel) : (setChannel s n x).ev = s.ev := rfl
@[simp] theorem setChannel_fresh (s : State) (n : Nat) (x : Channel) : (setChannel s n x).fresh = s.fresh := rfl

@[simp] theorem setPort_coreId (s : State) (n : Nat) (x : Port) : (setPort s n x).coreId = s.coreId := rfl
@[simp] theorem setPort_core (s : State) (n : Nat) (x : Port) : (setPort s n x).core = s.core := rfl
@[simp] theorem setPort_others (s : State) (n : Nat) (x : Port) : (setPort s n x).others = s.others := rfl
@[simp] theorem setPort_now (s : State) (n : Nat) (x : Port) : (setPort s n x).now = s.now := rfl
@[simp] theorem setPort_tick (s : State) (n : Nat) (x : Port) : (setPort s n x).tick = s.tick := rfl
@[simp] theorem setPort_strokeNs (s : State) (n : Nat) (x : Port) : (setPort s n x).strokeNs = s.strokeNs := rfl
@[simp] theorem setPort_tickDue (s : State) (n : Nat) (x : Port) : (setPort s n x).tickDue = s.tickDue := rfl
@[simp] theorem setPort_tickWork (s : State) (n : Nat) (x : Port) : (setPort s n x).tickWork = s.tickWork := rfl
@[simp] theorem setPort_phase (s : State) (n : Nat) (x : Port) : (setPort s n x).phase = s.phase := rfl
@[simp] theorem setPort_flash (s : State) (n : Nat) (x : Port) : (setPort s n x).flash = s.flash := rfl
@[simp] theorem setPort_cfgDefaulted (s : State) (n : Nat) (x : Port) : (setPort s n x).cfgDefaulted = s.cfgDefaulted := rfl
@[simp] theorem setPort_ident (s : State) (n : Nat) (x : Port) : (setPort s n x).ident = s.ident := rfl
@[simp] theorem setPort_stepping (s : State) (n : Nat) (x : Port) : (setPort s n x).stepping = s.stepping := rfl
@[simp] theorem setPort_modrev (s : State) (n : Nat) (x : Port) : (setPort s n x).modrev = s.modrev := rfl
@[simp] theorem setPort_powerCap (s : State) (n : Nat) (x : Port) : (setPort s n x).powerCap = s.powerCap := rfl
@[simp] theorem setPort_recordCap (s : State) (n : Nat) (x : Port) : (setPort s n x).recordCap = s.recordCap := rfl
@[simp] theorem setPort_powerTripped (s : State) (n : Nat) (x : Port) : (setPort s n x).powerTripped = s.powerTripped := rfl
@[simp] theorem setPort_withhold (s : State) (n : Nat) (x : Port) : (setPort s n x).withhold = s.withhold := rfl
@[simp] theorem setPort_heldStrips (s : State) (n : Nat) (x : Port) : (setPort s n x).heldStrips = s.heldStrips := rfl
@[simp] theorem setPort_islands (s : State) (n : Nat) (x : Port) : (setPort s n x).islands = s.islands := rfl
@[simp] theorem setPort_refresh (s : State) (n : Nat) (x : Port) : (setPort s n x).refresh = s.refresh := rfl
@[simp] theorem setPort_ways (s : State) (n : Nat) (x : Port) : (setPort s n x).ways = s.ways := rfl
@[simp] theorem setPort_mem (s : State) (n : Nat) (x : Port) : (setPort s n x).mem = s.mem := rfl
@[simp] theorem setPort_side (s : State) (n : Nat) (x : Port) : (setPort s n x).side = s.side := rfl
@[simp] theorem setPort_ptes (s : State) (n : Nat) (x : Port) : (setPort s n x).ptes = s.ptes := rfl
@[simp] theorem setPort_pages (s : State) (n : Nat) (x : Port) : (setPort s n x).pages = s.pages := rfl
@[simp] theorem setPort_scrub (s : State) (n : Nat) (x : Port) : (setPort s n x).scrub = s.scrub := rfl
@[simp] theorem setPort_replicas (s : State) (n : Nat) (x : Port) : (setPort s n x).replicas = s.replicas := rfl
@[simp] theorem setPort_quotas (s : State) (n : Nat) (x : Port) : (setPort s n x).quotas = s.quotas := rfl
@[simp] theorem setPort_programmed (s : State) (n : Nat) (x : Port) : (setPort s n x).programmed = s.programmed := rfl
@[simp] theorem setPort_wear (s : State) (n : Nat) (x : Port) : (setPort s n x).wear = s.wear := rfl
@[simp] theorem setPort_winExp (s : State) (n : Nat) (x : Port) : (setPort s n x).winExp = s.winExp := rfl
@[simp] theorem setPort_thresh (s : State) (n : Nat) (x : Port) : (setPort s n x).thresh = s.thresh := rfl
@[simp] theorem setPort_liveEn (s : State) (n : Nat) (x : Port) : (setPort s n x).liveEn = s.liveEn := rfl
@[simp] theorem setPort_channels (s : State) (n : Nat) (x : Port) : (setPort s n x).channels = s.channels := rfl
@[simp] theorem setPort_linkStat (s : State) (n : Nat) (x : Port) : (setPort s n x).linkStat = s.linkStat := rfl
@[simp] theorem setPort_cxlUp (s : State) (n : Nat) (x : Port) : (setPort s n x).cxlUp = s.cxlUp := rfl
@[simp] theorem setPort_migrations (s : State) (n : Nat) (x : Port) : (setPort s n x).migrations = s.migrations := rfl
@[simp] theorem setPort_migQueue (s : State) (n : Nat) (x : Port) : (setPort s n x).migQueue = s.migQueue := rfl
@[simp] theorem setPort_worlds (s : State) (n : Nat) (x : Port) : (setPort s n x).worlds = s.worlds := rfl
@[simp] theorem setPort_keySlots (s : State) (n : Nat) (x : Port) : (setPort s n x).keySlots = s.keySlots := rfl
@[simp] theorem setPort_parts (s : State) (n : Nat) (x : Port) : (setPort s n x).parts = s.parts := rfl
@[simp] theorem setPort_calMaps (s : State) (n : Nat) (x : Port) : (setPort s n x).calMaps = s.calMaps := rfl
@[simp] theorem setPort_donated (s : State) (n : Nat) (x : Port) : (setPort s n x).donated = s.donated := rfl
@[simp] theorem setPort_hdm (s : State) (n : Nat) (x : Port) : (setPort s n x).hdm = s.hdm := rfl
@[simp] theorem setPort_retiring (s : State) (n : Nat) (x : Port) : (setPort s n x).retiring = s.retiring := rfl
@[simp] theorem setPort_islandLimits (s : State) (n : Nat) (x : Port) : (setPort s n x).islandLimits = s.islandLimits := rfl
@[simp] theorem setPort_template (s : State) (n : Nat) (x : Port) : (setPort s n x).template = s.template := rfl
@[simp] theorem setPort_recordInForce (s : State) (n : Nat) (x : Port) : (setPort s n x).recordInForce = s.recordInForce := rfl
@[simp] theorem setPort_cxlIde (s : State) (n : Nat) (x : Port) : (setPort s n x).cxlIde = s.cxlIde := rfl
@[simp] theorem setPort_gangs (s : State) (n : Nat) (x : Port) : (setPort s n x).gangs = s.gangs := rfl
@[simp] theorem setPort_nextGang (s : State) (n : Nat) (x : Port) : (setPort s n x).nextGang = s.nextGang := rfl
@[simp] theorem setPort_startCount (s : State) (n : Nat) (x : Port) : (setPort s n x).startCount = s.startCount := rfl
@[simp] theorem setPort_arrivals (s : State) (n : Nat) (x : Port) : (setPort s n x).arrivals = s.arrivals := rfl
@[simp] theorem setPort_contexts (s : State) (n : Nat) (x : Port) : (setPort s n x).contexts = s.contexts := rfl
@[simp] theorem setPort_ckpts (s : State) (n : Nat) (x : Port) : (setPort s n x).ckpts = s.ckpts := rfl
@[simp] theorem setPort_logOrdinals (s : State) (n : Nat) (x : Port) : (setPort s n x).logOrdinals = s.logOrdinals := rfl
@[simp] theorem setPort_clusters (s : State) (n : Nat) (x : Port) : (setPort s n x).clusters = s.clusters := rfl
@[simp] theorem setPort_windows (s : State) (n : Nat) (x : Port) : (setPort s n x).windows = s.windows := rfl
@[simp] theorem setPort_linkUp (s : State) (n : Nat) (x : Port) : (setPort s n x).linkUp = s.linkUp := rfl
@[simp] theorem setPort_linkHeld (s : State) (n : Nat) (x : Port) : (setPort s n x).linkHeld = s.linkHeld := rfl
@[simp] theorem setPort_linkDownAt (s : State) (n : Nat) (x : Port) : (setPort s n x).linkDownAt = s.linkDownAt := rfl
@[simp] theorem setPort_spdm (s : State) (n : Nat) (x : Port) : (setPort s n x).spdm = s.spdm := rfl
@[simp] theorem setPort_spdmReply (s : State) (n : Nat) (x : Port) : (setPort s n x).spdmReply = s.spdmReply := rfl
@[simp] theorem setPort_ownerChain (s : State) (n : Nat) (x : Port) : (setPort s n x).ownerChain = s.ownerChain := rfl
@[simp] theorem setPort_ideKeys (s : State) (n : Nat) (x : Port) : (setPort s n x).ideKeys = s.ideKeys := rfl
@[simp] theorem setPort_ideLost (s : State) (n : Nat) (x : Port) : (setPort s n x).ideLost = s.ideLost := rfl
@[simp] theorem setPort_rdy (s : State) (n : Nat) (x : Port) : (setPort s n x).rdy = s.rdy := rfl
@[simp] theorem setPort_node (s : State) (n : Nat) (x : Port) : (setPort s n x).node = s.node := rfl
@[simp] theorem setPort_groups (s : State) (n : Nat) (x : Port) : (setPort s n x).groups = s.groups := rfl
@[simp] theorem setPort_lanesOut (s : State) (n : Nat) (x : Port) : (setPort s n x).lanesOut = s.lanesOut := rfl
@[simp] theorem setPort_remotes (s : State) (n : Nat) (x : Port) : (setPort s n x).remotes = s.remotes := rfl
@[simp] theorem setPort_queues (s : State) (n : Nat) (x : Port) : (setPort s n x).queues = s.queues := rfl
@[simp] theorem setPort_lastQueue (s : State) (n : Nat) (x : Port) : (setPort s n x).lastQueue = s.lastQueue := rfl
@[simp] theorem setPort_hostRuns (s : State) (n : Nat) (x : Port) : (setPort s n x).hostRuns = s.hostRuns := rfl
@[simp] theorem setPort_held (s : State) (n : Nat) (x : Port) : (setPort s n x).held = s.held := rfl
@[simp] theorem setPort_fetched (s : State) (n : Nat) (x : Port) : (setPort s n x).fetched = s.fetched := rfl
@[simp] theorem setPort_hostEp (s : State) (n : Nat) (x : Port) : (setPort s n x).hostEp = s.hostEp := rfl
@[simp] theorem setPort_ideDrops (s : State) (n : Nat) (x : Port) : (setPort s n x).ideDrops = s.ideDrops := rfl
@[simp] theorem setPort_logPa (s : State) (n : Nat) (x : Port) : (setPort s n x).logPa = s.logPa := rfl
@[simp] theorem setPort_msix (s : State) (n : Nat) (x : Port) : (setPort s n x).msix = s.msix := rfl
@[simp] theorem setPort_mailbox (s : State) (n : Nat) (x : Port) : (setPort s n x).mailbox = s.mailbox := rfl
@[simp] theorem setPort_mmioData (s : State) (n : Nat) (x : Port) : (setPort s n x).mmioData = s.mmioData := rfl
@[simp] theorem setPort_events (s : State) (n : Nat) (x : Port) : (setPort s n x).events = s.events := rfl
@[simp] theorem setPort_unread (s : State) (n : Nat) (x : Port) : (setPort s n x).unread = s.unread := rfl
@[simp] theorem setPort_lostNext (s : State) (n : Nat) (x : Port) : (setPort s n x).lostNext = s.lostNext := rfl
@[simp] theorem setPort_nextEvent (s : State) (n : Nat) (x : Port) : (setPort s n x).nextEvent = s.nextEvent := rfl
@[simp] theorem setPort_recovery (s : State) (n : Nat) (x : Port) : (setPort s n x).recovery = s.recovery := rfl
@[simp] theorem setPort_recoveryUnread (s : State) (n : Nat) (x : Port) : (setPort s n x).recoveryUnread = s.recoveryUnread := rfl
@[simp] theorem setPort_errors (s : State) (n : Nat) (x : Port) : (setPort s n x).errors = s.errors := rfl
@[simp] theorem setPort_nextError (s : State) (n : Nat) (x : Port) : (setPort s n x).nextError = s.nextError := rfl
@[simp] theorem setPort_poisonSeen (s : State) (n : Nat) (x : Port) : (setPort s n x).poisonSeen = s.poisonSeen := rfl
@[simp] theorem setPort_prefixes (s : State) (n : Nat) (x : Port) : (setPort s n x).prefixes = s.prefixes := rfl
@[simp] theorem setPort_aht (s : State) (n : Nat) (x : Port) : (setPort s n x).aht = s.aht := rfl
@[simp] theorem setPort_maps (s : State) (n : Nat) (x : Port) : (setPort s n x).maps = s.maps := rfl
@[simp] theorem setPort_mapGens (s : State) (n : Nat) (x : Port) : (setPort s n x).mapGens = s.mapGens := rfl
@[simp] theorem setPort_running (s : State) (n : Nat) (x : Port) : (setPort s n x).running = s.running := rfl
@[simp] theorem setPort_colls (s : State) (n : Nat) (x : Port) : (setPort s n x).colls = s.colls := rfl
@[simp] theorem setPort_meetHeard (s : State) (n : Nat) (x : Port) : (setPort s n x).meetHeard = s.meetHeard := rfl
@[simp] theorem setPort_engWorld (s : State) (n : Nat) (x : Port) : (setPort s n x).engWorld = s.engWorld := rfl
@[simp] theorem setPort_served (s : State) (n : Nat) (x : Port) : (setPort s n x).served = s.served := rfl
@[simp] theorem setPort_scFences (s : State) (n : Nat) (x : Port) : (setPort s n x).scFences = s.scFences := rfl
@[simp] theorem setPort_scVecs (s : State) (n : Nat) (x : Port) : (setPort s n x).scVecs = s.scVecs := rfl
@[simp] theorem setPort_inputs (s : State) (n : Nat) (x : Port) : (setPort s n x).inputs = s.inputs := rfl
@[simp] theorem setPort_ev (s : State) (n : Nat) (x : Port) : (setPort s n x).ev = s.ev := rfl
@[simp] theorem setPort_fresh (s : State) (n : Nat) (x : Port) : (setPort s n x).fresh = s.fresh := rfl

@[simp] theorem setGroup_coreId (s : State) (n : Nat) (x : Group) : (setGroup s n x).coreId = s.coreId := rfl
@[simp] theorem setGroup_core (s : State) (n : Nat) (x : Group) : (setGroup s n x).core = s.core := rfl
@[simp] theorem setGroup_others (s : State) (n : Nat) (x : Group) : (setGroup s n x).others = s.others := rfl
@[simp] theorem setGroup_now (s : State) (n : Nat) (x : Group) : (setGroup s n x).now = s.now := rfl
@[simp] theorem setGroup_tick (s : State) (n : Nat) (x : Group) : (setGroup s n x).tick = s.tick := rfl
@[simp] theorem setGroup_strokeNs (s : State) (n : Nat) (x : Group) : (setGroup s n x).strokeNs = s.strokeNs := rfl
@[simp] theorem setGroup_tickDue (s : State) (n : Nat) (x : Group) : (setGroup s n x).tickDue = s.tickDue := rfl
@[simp] theorem setGroup_tickWork (s : State) (n : Nat) (x : Group) : (setGroup s n x).tickWork = s.tickWork := rfl
@[simp] theorem setGroup_phase (s : State) (n : Nat) (x : Group) : (setGroup s n x).phase = s.phase := rfl
@[simp] theorem setGroup_flash (s : State) (n : Nat) (x : Group) : (setGroup s n x).flash = s.flash := rfl
@[simp] theorem setGroup_cfgDefaulted (s : State) (n : Nat) (x : Group) : (setGroup s n x).cfgDefaulted = s.cfgDefaulted := rfl
@[simp] theorem setGroup_ident (s : State) (n : Nat) (x : Group) : (setGroup s n x).ident = s.ident := rfl
@[simp] theorem setGroup_stepping (s : State) (n : Nat) (x : Group) : (setGroup s n x).stepping = s.stepping := rfl
@[simp] theorem setGroup_modrev (s : State) (n : Nat) (x : Group) : (setGroup s n x).modrev = s.modrev := rfl
@[simp] theorem setGroup_powerCap (s : State) (n : Nat) (x : Group) : (setGroup s n x).powerCap = s.powerCap := rfl
@[simp] theorem setGroup_recordCap (s : State) (n : Nat) (x : Group) : (setGroup s n x).recordCap = s.recordCap := rfl
@[simp] theorem setGroup_powerTripped (s : State) (n : Nat) (x : Group) : (setGroup s n x).powerTripped = s.powerTripped := rfl
@[simp] theorem setGroup_withhold (s : State) (n : Nat) (x : Group) : (setGroup s n x).withhold = s.withhold := rfl
@[simp] theorem setGroup_heldStrips (s : State) (n : Nat) (x : Group) : (setGroup s n x).heldStrips = s.heldStrips := rfl
@[simp] theorem setGroup_islands (s : State) (n : Nat) (x : Group) : (setGroup s n x).islands = s.islands := rfl
@[simp] theorem setGroup_refresh (s : State) (n : Nat) (x : Group) : (setGroup s n x).refresh = s.refresh := rfl
@[simp] theorem setGroup_ways (s : State) (n : Nat) (x : Group) : (setGroup s n x).ways = s.ways := rfl
@[simp] theorem setGroup_mem (s : State) (n : Nat) (x : Group) : (setGroup s n x).mem = s.mem := rfl
@[simp] theorem setGroup_side (s : State) (n : Nat) (x : Group) : (setGroup s n x).side = s.side := rfl
@[simp] theorem setGroup_ptes (s : State) (n : Nat) (x : Group) : (setGroup s n x).ptes = s.ptes := rfl
@[simp] theorem setGroup_pages (s : State) (n : Nat) (x : Group) : (setGroup s n x).pages = s.pages := rfl
@[simp] theorem setGroup_scrub (s : State) (n : Nat) (x : Group) : (setGroup s n x).scrub = s.scrub := rfl
@[simp] theorem setGroup_replicas (s : State) (n : Nat) (x : Group) : (setGroup s n x).replicas = s.replicas := rfl
@[simp] theorem setGroup_quotas (s : State) (n : Nat) (x : Group) : (setGroup s n x).quotas = s.quotas := rfl
@[simp] theorem setGroup_programmed (s : State) (n : Nat) (x : Group) : (setGroup s n x).programmed = s.programmed := rfl
@[simp] theorem setGroup_wear (s : State) (n : Nat) (x : Group) : (setGroup s n x).wear = s.wear := rfl
@[simp] theorem setGroup_winExp (s : State) (n : Nat) (x : Group) : (setGroup s n x).winExp = s.winExp := rfl
@[simp] theorem setGroup_thresh (s : State) (n : Nat) (x : Group) : (setGroup s n x).thresh = s.thresh := rfl
@[simp] theorem setGroup_liveEn (s : State) (n : Nat) (x : Group) : (setGroup s n x).liveEn = s.liveEn := rfl
@[simp] theorem setGroup_channels (s : State) (n : Nat) (x : Group) : (setGroup s n x).channels = s.channels := rfl
@[simp] theorem setGroup_linkStat (s : State) (n : Nat) (x : Group) : (setGroup s n x).linkStat = s.linkStat := rfl
@[simp] theorem setGroup_cxlUp (s : State) (n : Nat) (x : Group) : (setGroup s n x).cxlUp = s.cxlUp := rfl
@[simp] theorem setGroup_migrations (s : State) (n : Nat) (x : Group) : (setGroup s n x).migrations = s.migrations := rfl
@[simp] theorem setGroup_migQueue (s : State) (n : Nat) (x : Group) : (setGroup s n x).migQueue = s.migQueue := rfl
@[simp] theorem setGroup_worlds (s : State) (n : Nat) (x : Group) : (setGroup s n x).worlds = s.worlds := rfl
@[simp] theorem setGroup_keySlots (s : State) (n : Nat) (x : Group) : (setGroup s n x).keySlots = s.keySlots := rfl
@[simp] theorem setGroup_parts (s : State) (n : Nat) (x : Group) : (setGroup s n x).parts = s.parts := rfl
@[simp] theorem setGroup_calMaps (s : State) (n : Nat) (x : Group) : (setGroup s n x).calMaps = s.calMaps := rfl
@[simp] theorem setGroup_donated (s : State) (n : Nat) (x : Group) : (setGroup s n x).donated = s.donated := rfl
@[simp] theorem setGroup_hdm (s : State) (n : Nat) (x : Group) : (setGroup s n x).hdm = s.hdm := rfl
@[simp] theorem setGroup_retiring (s : State) (n : Nat) (x : Group) : (setGroup s n x).retiring = s.retiring := rfl
@[simp] theorem setGroup_islandLimits (s : State) (n : Nat) (x : Group) : (setGroup s n x).islandLimits = s.islandLimits := rfl
@[simp] theorem setGroup_template (s : State) (n : Nat) (x : Group) : (setGroup s n x).template = s.template := rfl
@[simp] theorem setGroup_recordInForce (s : State) (n : Nat) (x : Group) : (setGroup s n x).recordInForce = s.recordInForce := rfl
@[simp] theorem setGroup_cxlIde (s : State) (n : Nat) (x : Group) : (setGroup s n x).cxlIde = s.cxlIde := rfl
@[simp] theorem setGroup_gangs (s : State) (n : Nat) (x : Group) : (setGroup s n x).gangs = s.gangs := rfl
@[simp] theorem setGroup_nextGang (s : State) (n : Nat) (x : Group) : (setGroup s n x).nextGang = s.nextGang := rfl
@[simp] theorem setGroup_startCount (s : State) (n : Nat) (x : Group) : (setGroup s n x).startCount = s.startCount := rfl
@[simp] theorem setGroup_arrivals (s : State) (n : Nat) (x : Group) : (setGroup s n x).arrivals = s.arrivals := rfl
@[simp] theorem setGroup_contexts (s : State) (n : Nat) (x : Group) : (setGroup s n x).contexts = s.contexts := rfl
@[simp] theorem setGroup_ckpts (s : State) (n : Nat) (x : Group) : (setGroup s n x).ckpts = s.ckpts := rfl
@[simp] theorem setGroup_logOrdinals (s : State) (n : Nat) (x : Group) : (setGroup s n x).logOrdinals = s.logOrdinals := rfl
@[simp] theorem setGroup_clusters (s : State) (n : Nat) (x : Group) : (setGroup s n x).clusters = s.clusters := rfl
@[simp] theorem setGroup_windows (s : State) (n : Nat) (x : Group) : (setGroup s n x).windows = s.windows := rfl
@[simp] theorem setGroup_linkUp (s : State) (n : Nat) (x : Group) : (setGroup s n x).linkUp = s.linkUp := rfl
@[simp] theorem setGroup_linkHeld (s : State) (n : Nat) (x : Group) : (setGroup s n x).linkHeld = s.linkHeld := rfl
@[simp] theorem setGroup_linkDownAt (s : State) (n : Nat) (x : Group) : (setGroup s n x).linkDownAt = s.linkDownAt := rfl
@[simp] theorem setGroup_spdm (s : State) (n : Nat) (x : Group) : (setGroup s n x).spdm = s.spdm := rfl
@[simp] theorem setGroup_spdmReply (s : State) (n : Nat) (x : Group) : (setGroup s n x).spdmReply = s.spdmReply := rfl
@[simp] theorem setGroup_ownerChain (s : State) (n : Nat) (x : Group) : (setGroup s n x).ownerChain = s.ownerChain := rfl
@[simp] theorem setGroup_ideKeys (s : State) (n : Nat) (x : Group) : (setGroup s n x).ideKeys = s.ideKeys := rfl
@[simp] theorem setGroup_ideLost (s : State) (n : Nat) (x : Group) : (setGroup s n x).ideLost = s.ideLost := rfl
@[simp] theorem setGroup_rdy (s : State) (n : Nat) (x : Group) : (setGroup s n x).rdy = s.rdy := rfl
@[simp] theorem setGroup_node (s : State) (n : Nat) (x : Group) : (setGroup s n x).node = s.node := rfl
@[simp] theorem setGroup_ports (s : State) (n : Nat) (x : Group) : (setGroup s n x).ports = s.ports := rfl
@[simp] theorem setGroup_lanesOut (s : State) (n : Nat) (x : Group) : (setGroup s n x).lanesOut = s.lanesOut := rfl
@[simp] theorem setGroup_remotes (s : State) (n : Nat) (x : Group) : (setGroup s n x).remotes = s.remotes := rfl
@[simp] theorem setGroup_queues (s : State) (n : Nat) (x : Group) : (setGroup s n x).queues = s.queues := rfl
@[simp] theorem setGroup_lastQueue (s : State) (n : Nat) (x : Group) : (setGroup s n x).lastQueue = s.lastQueue := rfl
@[simp] theorem setGroup_hostRuns (s : State) (n : Nat) (x : Group) : (setGroup s n x).hostRuns = s.hostRuns := rfl
@[simp] theorem setGroup_held (s : State) (n : Nat) (x : Group) : (setGroup s n x).held = s.held := rfl
@[simp] theorem setGroup_fetched (s : State) (n : Nat) (x : Group) : (setGroup s n x).fetched = s.fetched := rfl
@[simp] theorem setGroup_hostEp (s : State) (n : Nat) (x : Group) : (setGroup s n x).hostEp = s.hostEp := rfl
@[simp] theorem setGroup_ideDrops (s : State) (n : Nat) (x : Group) : (setGroup s n x).ideDrops = s.ideDrops := rfl
@[simp] theorem setGroup_logPa (s : State) (n : Nat) (x : Group) : (setGroup s n x).logPa = s.logPa := rfl
@[simp] theorem setGroup_msix (s : State) (n : Nat) (x : Group) : (setGroup s n x).msix = s.msix := rfl
@[simp] theorem setGroup_mailbox (s : State) (n : Nat) (x : Group) : (setGroup s n x).mailbox = s.mailbox := rfl
@[simp] theorem setGroup_mmioData (s : State) (n : Nat) (x : Group) : (setGroup s n x).mmioData = s.mmioData := rfl
@[simp] theorem setGroup_events (s : State) (n : Nat) (x : Group) : (setGroup s n x).events = s.events := rfl
@[simp] theorem setGroup_unread (s : State) (n : Nat) (x : Group) : (setGroup s n x).unread = s.unread := rfl
@[simp] theorem setGroup_lostNext (s : State) (n : Nat) (x : Group) : (setGroup s n x).lostNext = s.lostNext := rfl
@[simp] theorem setGroup_nextEvent (s : State) (n : Nat) (x : Group) : (setGroup s n x).nextEvent = s.nextEvent := rfl
@[simp] theorem setGroup_recovery (s : State) (n : Nat) (x : Group) : (setGroup s n x).recovery = s.recovery := rfl
@[simp] theorem setGroup_recoveryUnread (s : State) (n : Nat) (x : Group) : (setGroup s n x).recoveryUnread = s.recoveryUnread := rfl
@[simp] theorem setGroup_errors (s : State) (n : Nat) (x : Group) : (setGroup s n x).errors = s.errors := rfl
@[simp] theorem setGroup_nextError (s : State) (n : Nat) (x : Group) : (setGroup s n x).nextError = s.nextError := rfl
@[simp] theorem setGroup_poisonSeen (s : State) (n : Nat) (x : Group) : (setGroup s n x).poisonSeen = s.poisonSeen := rfl
@[simp] theorem setGroup_prefixes (s : State) (n : Nat) (x : Group) : (setGroup s n x).prefixes = s.prefixes := rfl
@[simp] theorem setGroup_aht (s : State) (n : Nat) (x : Group) : (setGroup s n x).aht = s.aht := rfl
@[simp] theorem setGroup_maps (s : State) (n : Nat) (x : Group) : (setGroup s n x).maps = s.maps := rfl
@[simp] theorem setGroup_mapGens (s : State) (n : Nat) (x : Group) : (setGroup s n x).mapGens = s.mapGens := rfl
@[simp] theorem setGroup_running (s : State) (n : Nat) (x : Group) : (setGroup s n x).running = s.running := rfl
@[simp] theorem setGroup_colls (s : State) (n : Nat) (x : Group) : (setGroup s n x).colls = s.colls := rfl
@[simp] theorem setGroup_meetHeard (s : State) (n : Nat) (x : Group) : (setGroup s n x).meetHeard = s.meetHeard := rfl
@[simp] theorem setGroup_engWorld (s : State) (n : Nat) (x : Group) : (setGroup s n x).engWorld = s.engWorld := rfl
@[simp] theorem setGroup_served (s : State) (n : Nat) (x : Group) : (setGroup s n x).served = s.served := rfl
@[simp] theorem setGroup_scFences (s : State) (n : Nat) (x : Group) : (setGroup s n x).scFences = s.scFences := rfl
@[simp] theorem setGroup_scVecs (s : State) (n : Nat) (x : Group) : (setGroup s n x).scVecs = s.scVecs := rfl
@[simp] theorem setGroup_inputs (s : State) (n : Nat) (x : Group) : (setGroup s n x).inputs = s.inputs := rfl
@[simp] theorem setGroup_ev (s : State) (n : Nat) (x : Group) : (setGroup s n x).ev = s.ev := rfl
@[simp] theorem setGroup_fresh (s : State) (n : Nat) (x : Group) : (setGroup s n x).fresh = s.fresh := rfl

@[simp] theorem putCluster_coreId (s : State) (x : Cluster) : (putCluster s x).coreId = s.coreId := rfl
@[simp] theorem putCluster_core (s : State) (x : Cluster) : (putCluster s x).core = s.core := rfl
@[simp] theorem putCluster_others (s : State) (x : Cluster) : (putCluster s x).others = s.others := rfl
@[simp] theorem putCluster_now (s : State) (x : Cluster) : (putCluster s x).now = s.now := rfl
@[simp] theorem putCluster_tick (s : State) (x : Cluster) : (putCluster s x).tick = s.tick := rfl
@[simp] theorem putCluster_strokeNs (s : State) (x : Cluster) : (putCluster s x).strokeNs = s.strokeNs := rfl
@[simp] theorem putCluster_tickDue (s : State) (x : Cluster) : (putCluster s x).tickDue = s.tickDue := rfl
@[simp] theorem putCluster_tickWork (s : State) (x : Cluster) : (putCluster s x).tickWork = s.tickWork := rfl
@[simp] theorem putCluster_phase (s : State) (x : Cluster) : (putCluster s x).phase = s.phase := rfl
@[simp] theorem putCluster_flash (s : State) (x : Cluster) : (putCluster s x).flash = s.flash := rfl
@[simp] theorem putCluster_cfgDefaulted (s : State) (x : Cluster) : (putCluster s x).cfgDefaulted = s.cfgDefaulted := rfl
@[simp] theorem putCluster_ident (s : State) (x : Cluster) : (putCluster s x).ident = s.ident := rfl
@[simp] theorem putCluster_stepping (s : State) (x : Cluster) : (putCluster s x).stepping = s.stepping := rfl
@[simp] theorem putCluster_modrev (s : State) (x : Cluster) : (putCluster s x).modrev = s.modrev := rfl
@[simp] theorem putCluster_powerCap (s : State) (x : Cluster) : (putCluster s x).powerCap = s.powerCap := rfl
@[simp] theorem putCluster_recordCap (s : State) (x : Cluster) : (putCluster s x).recordCap = s.recordCap := rfl
@[simp] theorem putCluster_powerTripped (s : State) (x : Cluster) : (putCluster s x).powerTripped = s.powerTripped := rfl
@[simp] theorem putCluster_withhold (s : State) (x : Cluster) : (putCluster s x).withhold = s.withhold := rfl
@[simp] theorem putCluster_heldStrips (s : State) (x : Cluster) : (putCluster s x).heldStrips = s.heldStrips := rfl
@[simp] theorem putCluster_islands (s : State) (x : Cluster) : (putCluster s x).islands = s.islands := rfl
@[simp] theorem putCluster_refresh (s : State) (x : Cluster) : (putCluster s x).refresh = s.refresh := rfl
@[simp] theorem putCluster_ways (s : State) (x : Cluster) : (putCluster s x).ways = s.ways := rfl
@[simp] theorem putCluster_mem (s : State) (x : Cluster) : (putCluster s x).mem = s.mem := rfl
@[simp] theorem putCluster_side (s : State) (x : Cluster) : (putCluster s x).side = s.side := rfl
@[simp] theorem putCluster_ptes (s : State) (x : Cluster) : (putCluster s x).ptes = s.ptes := rfl
@[simp] theorem putCluster_pages (s : State) (x : Cluster) : (putCluster s x).pages = s.pages := rfl
@[simp] theorem putCluster_scrub (s : State) (x : Cluster) : (putCluster s x).scrub = s.scrub := rfl
@[simp] theorem putCluster_replicas (s : State) (x : Cluster) : (putCluster s x).replicas = s.replicas := rfl
@[simp] theorem putCluster_quotas (s : State) (x : Cluster) : (putCluster s x).quotas = s.quotas := rfl
@[simp] theorem putCluster_programmed (s : State) (x : Cluster) : (putCluster s x).programmed = s.programmed := rfl
@[simp] theorem putCluster_wear (s : State) (x : Cluster) : (putCluster s x).wear = s.wear := rfl
@[simp] theorem putCluster_winExp (s : State) (x : Cluster) : (putCluster s x).winExp = s.winExp := rfl
@[simp] theorem putCluster_thresh (s : State) (x : Cluster) : (putCluster s x).thresh = s.thresh := rfl
@[simp] theorem putCluster_liveEn (s : State) (x : Cluster) : (putCluster s x).liveEn = s.liveEn := rfl
@[simp] theorem putCluster_channels (s : State) (x : Cluster) : (putCluster s x).channels = s.channels := rfl
@[simp] theorem putCluster_linkStat (s : State) (x : Cluster) : (putCluster s x).linkStat = s.linkStat := rfl
@[simp] theorem putCluster_cxlUp (s : State) (x : Cluster) : (putCluster s x).cxlUp = s.cxlUp := rfl
@[simp] theorem putCluster_migrations (s : State) (x : Cluster) : (putCluster s x).migrations = s.migrations := rfl
@[simp] theorem putCluster_migQueue (s : State) (x : Cluster) : (putCluster s x).migQueue = s.migQueue := rfl
@[simp] theorem putCluster_worlds (s : State) (x : Cluster) : (putCluster s x).worlds = s.worlds := rfl
@[simp] theorem putCluster_keySlots (s : State) (x : Cluster) : (putCluster s x).keySlots = s.keySlots := rfl
@[simp] theorem putCluster_parts (s : State) (x : Cluster) : (putCluster s x).parts = s.parts := rfl
@[simp] theorem putCluster_calMaps (s : State) (x : Cluster) : (putCluster s x).calMaps = s.calMaps := rfl
@[simp] theorem putCluster_donated (s : State) (x : Cluster) : (putCluster s x).donated = s.donated := rfl
@[simp] theorem putCluster_hdm (s : State) (x : Cluster) : (putCluster s x).hdm = s.hdm := rfl
@[simp] theorem putCluster_retiring (s : State) (x : Cluster) : (putCluster s x).retiring = s.retiring := rfl
@[simp] theorem putCluster_islandLimits (s : State) (x : Cluster) : (putCluster s x).islandLimits = s.islandLimits := rfl
@[simp] theorem putCluster_template (s : State) (x : Cluster) : (putCluster s x).template = s.template := rfl
@[simp] theorem putCluster_recordInForce (s : State) (x : Cluster) : (putCluster s x).recordInForce = s.recordInForce := rfl
@[simp] theorem putCluster_cxlIde (s : State) (x : Cluster) : (putCluster s x).cxlIde = s.cxlIde := rfl
@[simp] theorem putCluster_gangs (s : State) (x : Cluster) : (putCluster s x).gangs = s.gangs := rfl
@[simp] theorem putCluster_nextGang (s : State) (x : Cluster) : (putCluster s x).nextGang = s.nextGang := rfl
@[simp] theorem putCluster_startCount (s : State) (x : Cluster) : (putCluster s x).startCount = s.startCount := rfl
@[simp] theorem putCluster_arrivals (s : State) (x : Cluster) : (putCluster s x).arrivals = s.arrivals := rfl
@[simp] theorem putCluster_contexts (s : State) (x : Cluster) : (putCluster s x).contexts = s.contexts := rfl
@[simp] theorem putCluster_ckpts (s : State) (x : Cluster) : (putCluster s x).ckpts = s.ckpts := rfl
@[simp] theorem putCluster_logOrdinals (s : State) (x : Cluster) : (putCluster s x).logOrdinals = s.logOrdinals := rfl
@[simp] theorem putCluster_windows (s : State) (x : Cluster) : (putCluster s x).windows = s.windows := rfl
@[simp] theorem putCluster_linkUp (s : State) (x : Cluster) : (putCluster s x).linkUp = s.linkUp := rfl
@[simp] theorem putCluster_linkHeld (s : State) (x : Cluster) : (putCluster s x).linkHeld = s.linkHeld := rfl
@[simp] theorem putCluster_linkDownAt (s : State) (x : Cluster) : (putCluster s x).linkDownAt = s.linkDownAt := rfl
@[simp] theorem putCluster_spdm (s : State) (x : Cluster) : (putCluster s x).spdm = s.spdm := rfl
@[simp] theorem putCluster_spdmReply (s : State) (x : Cluster) : (putCluster s x).spdmReply = s.spdmReply := rfl
@[simp] theorem putCluster_ownerChain (s : State) (x : Cluster) : (putCluster s x).ownerChain = s.ownerChain := rfl
@[simp] theorem putCluster_ideKeys (s : State) (x : Cluster) : (putCluster s x).ideKeys = s.ideKeys := rfl
@[simp] theorem putCluster_ideLost (s : State) (x : Cluster) : (putCluster s x).ideLost = s.ideLost := rfl
@[simp] theorem putCluster_rdy (s : State) (x : Cluster) : (putCluster s x).rdy = s.rdy := rfl
@[simp] theorem putCluster_node (s : State) (x : Cluster) : (putCluster s x).node = s.node := rfl
@[simp] theorem putCluster_groups (s : State) (x : Cluster) : (putCluster s x).groups = s.groups := rfl
@[simp] theorem putCluster_ports (s : State) (x : Cluster) : (putCluster s x).ports = s.ports := rfl
@[simp] theorem putCluster_lanesOut (s : State) (x : Cluster) : (putCluster s x).lanesOut = s.lanesOut := rfl
@[simp] theorem putCluster_remotes (s : State) (x : Cluster) : (putCluster s x).remotes = s.remotes := rfl
@[simp] theorem putCluster_queues (s : State) (x : Cluster) : (putCluster s x).queues = s.queues := rfl
@[simp] theorem putCluster_lastQueue (s : State) (x : Cluster) : (putCluster s x).lastQueue = s.lastQueue := rfl
@[simp] theorem putCluster_hostRuns (s : State) (x : Cluster) : (putCluster s x).hostRuns = s.hostRuns := rfl
@[simp] theorem putCluster_held (s : State) (x : Cluster) : (putCluster s x).held = s.held := rfl
@[simp] theorem putCluster_fetched (s : State) (x : Cluster) : (putCluster s x).fetched = s.fetched := rfl
@[simp] theorem putCluster_hostEp (s : State) (x : Cluster) : (putCluster s x).hostEp = s.hostEp := rfl
@[simp] theorem putCluster_ideDrops (s : State) (x : Cluster) : (putCluster s x).ideDrops = s.ideDrops := rfl
@[simp] theorem putCluster_logPa (s : State) (x : Cluster) : (putCluster s x).logPa = s.logPa := rfl
@[simp] theorem putCluster_msix (s : State) (x : Cluster) : (putCluster s x).msix = s.msix := rfl
@[simp] theorem putCluster_mailbox (s : State) (x : Cluster) : (putCluster s x).mailbox = s.mailbox := rfl
@[simp] theorem putCluster_mmioData (s : State) (x : Cluster) : (putCluster s x).mmioData = s.mmioData := rfl
@[simp] theorem putCluster_events (s : State) (x : Cluster) : (putCluster s x).events = s.events := rfl
@[simp] theorem putCluster_unread (s : State) (x : Cluster) : (putCluster s x).unread = s.unread := rfl
@[simp] theorem putCluster_lostNext (s : State) (x : Cluster) : (putCluster s x).lostNext = s.lostNext := rfl
@[simp] theorem putCluster_nextEvent (s : State) (x : Cluster) : (putCluster s x).nextEvent = s.nextEvent := rfl
@[simp] theorem putCluster_recovery (s : State) (x : Cluster) : (putCluster s x).recovery = s.recovery := rfl
@[simp] theorem putCluster_recoveryUnread (s : State) (x : Cluster) : (putCluster s x).recoveryUnread = s.recoveryUnread := rfl
@[simp] theorem putCluster_errors (s : State) (x : Cluster) : (putCluster s x).errors = s.errors := rfl
@[simp] theorem putCluster_nextError (s : State) (x : Cluster) : (putCluster s x).nextError = s.nextError := rfl
@[simp] theorem putCluster_poisonSeen (s : State) (x : Cluster) : (putCluster s x).poisonSeen = s.poisonSeen := rfl
@[simp] theorem putCluster_prefixes (s : State) (x : Cluster) : (putCluster s x).prefixes = s.prefixes := rfl
@[simp] theorem putCluster_aht (s : State) (x : Cluster) : (putCluster s x).aht = s.aht := rfl
@[simp] theorem putCluster_maps (s : State) (x : Cluster) : (putCluster s x).maps = s.maps := rfl
@[simp] theorem putCluster_mapGens (s : State) (x : Cluster) : (putCluster s x).mapGens = s.mapGens := rfl
@[simp] theorem putCluster_running (s : State) (x : Cluster) : (putCluster s x).running = s.running := rfl
@[simp] theorem putCluster_colls (s : State) (x : Cluster) : (putCluster s x).colls = s.colls := rfl
@[simp] theorem putCluster_meetHeard (s : State) (x : Cluster) : (putCluster s x).meetHeard = s.meetHeard := rfl
@[simp] theorem putCluster_engWorld (s : State) (x : Cluster) : (putCluster s x).engWorld = s.engWorld := rfl
@[simp] theorem putCluster_served (s : State) (x : Cluster) : (putCluster s x).served = s.served := rfl
@[simp] theorem putCluster_scFences (s : State) (x : Cluster) : (putCluster s x).scFences = s.scFences := rfl
@[simp] theorem putCluster_scVecs (s : State) (x : Cluster) : (putCluster s x).scVecs = s.scVecs := rfl
@[simp] theorem putCluster_inputs (s : State) (x : Cluster) : (putCluster s x).inputs = s.inputs := rfl
@[simp] theorem putCluster_ev (s : State) (x : Cluster) : (putCluster s x).ev = s.ev := rfl
@[simp] theorem putCluster_fresh (s : State) (x : Cluster) : (putCluster s x).fresh = s.fresh := rfl

@[simp] theorem putQueue_coreId (s : State) (n : Nat) (x : HQueue) : (putQueue s n x).coreId = s.coreId := rfl
@[simp] theorem putQueue_core (s : State) (n : Nat) (x : HQueue) : (putQueue s n x).core = s.core := rfl
@[simp] theorem putQueue_others (s : State) (n : Nat) (x : HQueue) : (putQueue s n x).others = s.others := rfl
@[simp] theorem putQueue_now (s : State) (n : Nat) (x : HQueue) : (putQueue s n x).now = s.now := rfl
@[simp] theorem putQueue_tick (s : State) (n : Nat) (x : HQueue) : (putQueue s n x).tick = s.tick := rfl
@[simp] theorem putQueue_strokeNs (s : State) (n : Nat) (x : HQueue) : (putQueue s n x).strokeNs = s.strokeNs := rfl
@[simp] theorem putQueue_tickDue (s : State) (n : Nat) (x : HQueue) : (putQueue s n x).tickDue = s.tickDue := rfl
@[simp] theorem putQueue_tickWork (s : State) (n : Nat) (x : HQueue) : (putQueue s n x).tickWork = s.tickWork := rfl
@[simp] theorem putQueue_phase (s : State) (n : Nat) (x : HQueue) : (putQueue s n x).phase = s.phase := rfl
@[simp] theorem putQueue_flash (s : State) (n : Nat) (x : HQueue) : (putQueue s n x).flash = s.flash := rfl
@[simp] theorem putQueue_cfgDefaulted (s : State) (n : Nat) (x : HQueue) : (putQueue s n x).cfgDefaulted = s.cfgDefaulted := rfl
@[simp] theorem putQueue_ident (s : State) (n : Nat) (x : HQueue) : (putQueue s n x).ident = s.ident := rfl
@[simp] theorem putQueue_stepping (s : State) (n : Nat) (x : HQueue) : (putQueue s n x).stepping = s.stepping := rfl
@[simp] theorem putQueue_modrev (s : State) (n : Nat) (x : HQueue) : (putQueue s n x).modrev = s.modrev := rfl
@[simp] theorem putQueue_powerCap (s : State) (n : Nat) (x : HQueue) : (putQueue s n x).powerCap = s.powerCap := rfl
@[simp] theorem putQueue_recordCap (s : State) (n : Nat) (x : HQueue) : (putQueue s n x).recordCap = s.recordCap := rfl
@[simp] theorem putQueue_powerTripped (s : State) (n : Nat) (x : HQueue) : (putQueue s n x).powerTripped = s.powerTripped := rfl
@[simp] theorem putQueue_withhold (s : State) (n : Nat) (x : HQueue) : (putQueue s n x).withhold = s.withhold := rfl
@[simp] theorem putQueue_heldStrips (s : State) (n : Nat) (x : HQueue) : (putQueue s n x).heldStrips = s.heldStrips := rfl
@[simp] theorem putQueue_islands (s : State) (n : Nat) (x : HQueue) : (putQueue s n x).islands = s.islands := rfl
@[simp] theorem putQueue_refresh (s : State) (n : Nat) (x : HQueue) : (putQueue s n x).refresh = s.refresh := rfl
@[simp] theorem putQueue_ways (s : State) (n : Nat) (x : HQueue) : (putQueue s n x).ways = s.ways := rfl
@[simp] theorem putQueue_mem (s : State) (n : Nat) (x : HQueue) : (putQueue s n x).mem = s.mem := rfl
@[simp] theorem putQueue_side (s : State) (n : Nat) (x : HQueue) : (putQueue s n x).side = s.side := rfl
@[simp] theorem putQueue_ptes (s : State) (n : Nat) (x : HQueue) : (putQueue s n x).ptes = s.ptes := rfl
@[simp] theorem putQueue_pages (s : State) (n : Nat) (x : HQueue) : (putQueue s n x).pages = s.pages := rfl
@[simp] theorem putQueue_scrub (s : State) (n : Nat) (x : HQueue) : (putQueue s n x).scrub = s.scrub := rfl
@[simp] theorem putQueue_replicas (s : State) (n : Nat) (x : HQueue) : (putQueue s n x).replicas = s.replicas := rfl
@[simp] theorem putQueue_quotas (s : State) (n : Nat) (x : HQueue) : (putQueue s n x).quotas = s.quotas := rfl
@[simp] theorem putQueue_programmed (s : State) (n : Nat) (x : HQueue) : (putQueue s n x).programmed = s.programmed := rfl
@[simp] theorem putQueue_wear (s : State) (n : Nat) (x : HQueue) : (putQueue s n x).wear = s.wear := rfl
@[simp] theorem putQueue_winExp (s : State) (n : Nat) (x : HQueue) : (putQueue s n x).winExp = s.winExp := rfl
@[simp] theorem putQueue_thresh (s : State) (n : Nat) (x : HQueue) : (putQueue s n x).thresh = s.thresh := rfl
@[simp] theorem putQueue_liveEn (s : State) (n : Nat) (x : HQueue) : (putQueue s n x).liveEn = s.liveEn := rfl
@[simp] theorem putQueue_channels (s : State) (n : Nat) (x : HQueue) : (putQueue s n x).channels = s.channels := rfl
@[simp] theorem putQueue_linkStat (s : State) (n : Nat) (x : HQueue) : (putQueue s n x).linkStat = s.linkStat := rfl
@[simp] theorem putQueue_cxlUp (s : State) (n : Nat) (x : HQueue) : (putQueue s n x).cxlUp = s.cxlUp := rfl
@[simp] theorem putQueue_migrations (s : State) (n : Nat) (x : HQueue) : (putQueue s n x).migrations = s.migrations := rfl
@[simp] theorem putQueue_migQueue (s : State) (n : Nat) (x : HQueue) : (putQueue s n x).migQueue = s.migQueue := rfl
@[simp] theorem putQueue_worlds (s : State) (n : Nat) (x : HQueue) : (putQueue s n x).worlds = s.worlds := rfl
@[simp] theorem putQueue_keySlots (s : State) (n : Nat) (x : HQueue) : (putQueue s n x).keySlots = s.keySlots := rfl
@[simp] theorem putQueue_parts (s : State) (n : Nat) (x : HQueue) : (putQueue s n x).parts = s.parts := rfl
@[simp] theorem putQueue_calMaps (s : State) (n : Nat) (x : HQueue) : (putQueue s n x).calMaps = s.calMaps := rfl
@[simp] theorem putQueue_donated (s : State) (n : Nat) (x : HQueue) : (putQueue s n x).donated = s.donated := rfl
@[simp] theorem putQueue_hdm (s : State) (n : Nat) (x : HQueue) : (putQueue s n x).hdm = s.hdm := rfl
@[simp] theorem putQueue_retiring (s : State) (n : Nat) (x : HQueue) : (putQueue s n x).retiring = s.retiring := rfl
@[simp] theorem putQueue_islandLimits (s : State) (n : Nat) (x : HQueue) : (putQueue s n x).islandLimits = s.islandLimits := rfl
@[simp] theorem putQueue_template (s : State) (n : Nat) (x : HQueue) : (putQueue s n x).template = s.template := rfl
@[simp] theorem putQueue_recordInForce (s : State) (n : Nat) (x : HQueue) : (putQueue s n x).recordInForce = s.recordInForce := rfl
@[simp] theorem putQueue_cxlIde (s : State) (n : Nat) (x : HQueue) : (putQueue s n x).cxlIde = s.cxlIde := rfl
@[simp] theorem putQueue_gangs (s : State) (n : Nat) (x : HQueue) : (putQueue s n x).gangs = s.gangs := rfl
@[simp] theorem putQueue_nextGang (s : State) (n : Nat) (x : HQueue) : (putQueue s n x).nextGang = s.nextGang := rfl
@[simp] theorem putQueue_startCount (s : State) (n : Nat) (x : HQueue) : (putQueue s n x).startCount = s.startCount := rfl
@[simp] theorem putQueue_arrivals (s : State) (n : Nat) (x : HQueue) : (putQueue s n x).arrivals = s.arrivals := rfl
@[simp] theorem putQueue_contexts (s : State) (n : Nat) (x : HQueue) : (putQueue s n x).contexts = s.contexts := rfl
@[simp] theorem putQueue_ckpts (s : State) (n : Nat) (x : HQueue) : (putQueue s n x).ckpts = s.ckpts := rfl
@[simp] theorem putQueue_logOrdinals (s : State) (n : Nat) (x : HQueue) : (putQueue s n x).logOrdinals = s.logOrdinals := rfl
@[simp] theorem putQueue_clusters (s : State) (n : Nat) (x : HQueue) : (putQueue s n x).clusters = s.clusters := rfl
@[simp] theorem putQueue_windows (s : State) (n : Nat) (x : HQueue) : (putQueue s n x).windows = s.windows := rfl
@[simp] theorem putQueue_linkUp (s : State) (n : Nat) (x : HQueue) : (putQueue s n x).linkUp = s.linkUp := rfl
@[simp] theorem putQueue_linkHeld (s : State) (n : Nat) (x : HQueue) : (putQueue s n x).linkHeld = s.linkHeld := rfl
@[simp] theorem putQueue_linkDownAt (s : State) (n : Nat) (x : HQueue) : (putQueue s n x).linkDownAt = s.linkDownAt := rfl
@[simp] theorem putQueue_spdm (s : State) (n : Nat) (x : HQueue) : (putQueue s n x).spdm = s.spdm := rfl
@[simp] theorem putQueue_spdmReply (s : State) (n : Nat) (x : HQueue) : (putQueue s n x).spdmReply = s.spdmReply := rfl
@[simp] theorem putQueue_ownerChain (s : State) (n : Nat) (x : HQueue) : (putQueue s n x).ownerChain = s.ownerChain := rfl
@[simp] theorem putQueue_ideKeys (s : State) (n : Nat) (x : HQueue) : (putQueue s n x).ideKeys = s.ideKeys := rfl
@[simp] theorem putQueue_ideLost (s : State) (n : Nat) (x : HQueue) : (putQueue s n x).ideLost = s.ideLost := rfl
@[simp] theorem putQueue_rdy (s : State) (n : Nat) (x : HQueue) : (putQueue s n x).rdy = s.rdy := rfl
@[simp] theorem putQueue_node (s : State) (n : Nat) (x : HQueue) : (putQueue s n x).node = s.node := rfl
@[simp] theorem putQueue_groups (s : State) (n : Nat) (x : HQueue) : (putQueue s n x).groups = s.groups := rfl
@[simp] theorem putQueue_ports (s : State) (n : Nat) (x : HQueue) : (putQueue s n x).ports = s.ports := rfl
@[simp] theorem putQueue_lanesOut (s : State) (n : Nat) (x : HQueue) : (putQueue s n x).lanesOut = s.lanesOut := rfl
@[simp] theorem putQueue_remotes (s : State) (n : Nat) (x : HQueue) : (putQueue s n x).remotes = s.remotes := rfl
@[simp] theorem putQueue_lastQueue (s : State) (n : Nat) (x : HQueue) : (putQueue s n x).lastQueue = s.lastQueue := rfl
@[simp] theorem putQueue_hostRuns (s : State) (n : Nat) (x : HQueue) : (putQueue s n x).hostRuns = s.hostRuns := rfl
@[simp] theorem putQueue_held (s : State) (n : Nat) (x : HQueue) : (putQueue s n x).held = s.held := rfl
@[simp] theorem putQueue_fetched (s : State) (n : Nat) (x : HQueue) : (putQueue s n x).fetched = s.fetched := rfl
@[simp] theorem putQueue_hostEp (s : State) (n : Nat) (x : HQueue) : (putQueue s n x).hostEp = s.hostEp := rfl
@[simp] theorem putQueue_ideDrops (s : State) (n : Nat) (x : HQueue) : (putQueue s n x).ideDrops = s.ideDrops := rfl
@[simp] theorem putQueue_logPa (s : State) (n : Nat) (x : HQueue) : (putQueue s n x).logPa = s.logPa := rfl
@[simp] theorem putQueue_msix (s : State) (n : Nat) (x : HQueue) : (putQueue s n x).msix = s.msix := rfl
@[simp] theorem putQueue_mailbox (s : State) (n : Nat) (x : HQueue) : (putQueue s n x).mailbox = s.mailbox := rfl
@[simp] theorem putQueue_mmioData (s : State) (n : Nat) (x : HQueue) : (putQueue s n x).mmioData = s.mmioData := rfl
@[simp] theorem putQueue_events (s : State) (n : Nat) (x : HQueue) : (putQueue s n x).events = s.events := rfl
@[simp] theorem putQueue_unread (s : State) (n : Nat) (x : HQueue) : (putQueue s n x).unread = s.unread := rfl
@[simp] theorem putQueue_lostNext (s : State) (n : Nat) (x : HQueue) : (putQueue s n x).lostNext = s.lostNext := rfl
@[simp] theorem putQueue_nextEvent (s : State) (n : Nat) (x : HQueue) : (putQueue s n x).nextEvent = s.nextEvent := rfl
@[simp] theorem putQueue_recovery (s : State) (n : Nat) (x : HQueue) : (putQueue s n x).recovery = s.recovery := rfl
@[simp] theorem putQueue_recoveryUnread (s : State) (n : Nat) (x : HQueue) : (putQueue s n x).recoveryUnread = s.recoveryUnread := rfl
@[simp] theorem putQueue_errors (s : State) (n : Nat) (x : HQueue) : (putQueue s n x).errors = s.errors := rfl
@[simp] theorem putQueue_nextError (s : State) (n : Nat) (x : HQueue) : (putQueue s n x).nextError = s.nextError := rfl
@[simp] theorem putQueue_poisonSeen (s : State) (n : Nat) (x : HQueue) : (putQueue s n x).poisonSeen = s.poisonSeen := rfl
@[simp] theorem putQueue_prefixes (s : State) (n : Nat) (x : HQueue) : (putQueue s n x).prefixes = s.prefixes := rfl
@[simp] theorem putQueue_aht (s : State) (n : Nat) (x : HQueue) : (putQueue s n x).aht = s.aht := rfl
@[simp] theorem putQueue_maps (s : State) (n : Nat) (x : HQueue) : (putQueue s n x).maps = s.maps := rfl
@[simp] theorem putQueue_mapGens (s : State) (n : Nat) (x : HQueue) : (putQueue s n x).mapGens = s.mapGens := rfl
@[simp] theorem putQueue_running (s : State) (n : Nat) (x : HQueue) : (putQueue s n x).running = s.running := rfl
@[simp] theorem putQueue_colls (s : State) (n : Nat) (x : HQueue) : (putQueue s n x).colls = s.colls := rfl
@[simp] theorem putQueue_meetHeard (s : State) (n : Nat) (x : HQueue) : (putQueue s n x).meetHeard = s.meetHeard := rfl
@[simp] theorem putQueue_engWorld (s : State) (n : Nat) (x : HQueue) : (putQueue s n x).engWorld = s.engWorld := rfl
@[simp] theorem putQueue_served (s : State) (n : Nat) (x : HQueue) : (putQueue s n x).served = s.served := rfl
@[simp] theorem putQueue_scFences (s : State) (n : Nat) (x : HQueue) : (putQueue s n x).scFences = s.scFences := rfl
@[simp] theorem putQueue_scVecs (s : State) (n : Nat) (x : HQueue) : (putQueue s n x).scVecs = s.scVecs := rfl
@[simp] theorem putQueue_inputs (s : State) (n : Nat) (x : HQueue) : (putQueue s n x).inputs = s.inputs := rfl
@[simp] theorem putQueue_ev (s : State) (n : Nat) (x : HQueue) : (putQueue s n x).ev = s.ev := rfl
@[simp] theorem putQueue_fresh (s : State) (n : Nat) (x : HQueue) : (putQueue s n x).fresh = s.fresh := rfl

/-! ### The S stream moves past an instruction (12_isa_scalar R347, R359) -/

/-- Where the S stream goes on, and the transfer that is then pending. -/
def nextPc (k : Core) : Dword :=
  match k.xfer with
  | none => k.pc + 4
  | some x => if x.left ≤ 1 && x.taken then x.target else k.pc + 4

def nextXfer (k : Core) : Option Xfer :=
  match k.xfer with
  | none => none
  | some x => if x.left ≤ 1 then none else some { x with left := x.left - 1 }

theorem sAdvance_eq (k : Core) : sAdvance k = { k with pc := nextPc k, xfer := nextXfer k, phase := 0 } := by
  unfold sAdvance nextPc nextXfer
  cases h : k.xfer with
  | none => simp only
  | some x => by_cases h1 : x.left ≤ 1 <;> by_cases h2 : x.taken = true <;> simp [h1, h2]

theorem sNextAt_eq (n : Nat) (s : State) :
    sNextAt n s = { s with core := { s.core with pc := nextPc s.core, xfer := nextXfer s.core, phase := 0, sReady := cyc s + n } } := by
  show modCore (fun k => { sAdvance k with sReady := cyc s + n }) s = _
  simp only [sAdvance_eq]; rfl

@[simp] theorem sAdvance_pc (k : Core) : (sAdvance k).pc = nextPc k := by rw [sAdvance_eq]
@[simp] theorem sAdvance_xfer (k : Core) : (sAdvance k).xfer = nextXfer k := by rw [sAdvance_eq]
@[simp] theorem sAdvance_phase (k : Core) : (sAdvance k).phase = 0 := by rw [sAdvance_eq]
@[simp] theorem sAdvance_g (k : Core) : (sAdvance k).g = k.g := by rw [sAdvance_eq]
@[simp] theorem sAdvance_gReady (k : Core) : (sAdvance k).gReady = k.gReady := by rw [sAdvance_eq]
@[simp] theorem sAdvance_b (k : Core) : (sAdvance k).b = k.b := by rw [sAdvance_eq]
@[simp] theorem sAdvance_e (k : Core) : (sAdvance k).e = k.e := by rw [sAdvance_eq]
@[simp] theorem sAdvance_m (k : Core) : (sAdvance k).m = k.m := by rw [sAdvance_eq]
@[simp] theorem sAdvance_v (k : Core) : (sAdvance k).v = k.v := by rw [sAdvance_eq]
@[simp] theorem sAdvance_t (k : Core) : (sAdvance k).t = k.t := by rw [sAdvance_eq]
@[simp] theorem sAdvance_a (k : Core) : (sAdvance k).a = k.a := by rw [sAdvance_eq]
@[simp] theorem sAdvance_ah (k : Core) : (sAdvance k).ah = k.ah := by rw [sAdvance_eq]
@[simp] theorem sAdvance_p (k : Core) : (sAdvance k).p = k.p := by rw [sAdvance_eq]
@[simp] theorem sAdvance_q (k : Core) : (sAdvance k).q = k.q := by rw [sAdvance_eq]
@[simp] theorem sAdvance_slotMem (k : Core) : (sAdvance k).slotMem = k.slotMem := by rw [sAdvance_eq]
@[simp] theorem sAdvance_flags (k : Core) : (sAdvance k).flags = k.flags := by rw [sAdvance_eq]
@[simp] theorem sAdvance_flagsPrev (k : Core) : (sAdvance k).flagsPrev = k.flagsPrev := by rw [sAdvance_eq]
@[simp] theorem sAdvance_sp (k : Core) : (sAdvance k).sp = k.sp := by rw [sAdvance_eq]
@[simp] theorem sAdvance_slots (k : Core) : (sAdvance k).slots = k.slots := by rw [sAdvance_eq]
@[simp] theorem sAdvance_sys (k : Core) : (sAdvance k).sys = k.sys := by rw [sAdvance_eq]
@[simp] theorem sAdvance_sEntry (k : Core) : (sAdvance k).sEntry = k.sEntry := by rw [sAdvance_eq]
@[simp] theorem sAdvance_sReady (k : Core) : (sAdvance k).sReady = k.sReady := by rw [sAdvance_eq]
@[simp] theorem sAdvance_colL (k : Core) : (sAdvance k).colL = k.colL := by rw [sAdvance_eq]
@[simp] theorem sAdvance_colC (k : Core) : (sAdvance k).colC = k.colC := by rw [sAdvance_eq]
@[simp] theorem sAdvance_colW (k : Core) : (sAdvance k).colW = k.colW := by rw [sAdvance_eq]
@[simp] theorem sAdvance_groups (k : Core) : (sAdvance k).groups = k.groups := by rw [sAdvance_eq]
@[simp] theorem sAdvance_nextGrp (k : Core) : (sAdvance k).nextGrp = k.nextGrp := by rw [sAdvance_eq]
@[simp] theorem sAdvance_openGrp (k : Core) : (sAdvance k).openGrp = k.openGrp := by rw [sAdvance_eq]
@[simp] theorem sAdvance_fx (k : Core) : (sAdvance k).fx = k.fx := by rw [sAdvance_eq]
@[simp] theorem sAdvance_hold (k : Core) : (sAdvance k).hold = k.hold := by rw [sAdvance_eq]
@[simp] theorem sAdvance_cut (k : Core) : (sAdvance k).cut = k.cut := by rw [sAdvance_eq]
@[simp] theorem sAdvance_cutPc (k : Core) : (sAdvance k).cutPc = k.cutPc := by rw [sAdvance_eq]
@[simp] theorem sAdvance_deferred (k : Core) : (sAdvance k).deferred = k.deferred := by rw [sAdvance_eq]
@[simp] theorem sAdvance_cutXfer (k : Core) : (sAdvance k).cutXfer = k.cutXfer := by rw [sAdvance_eq]
@[simp] theorem sAdvance_cutPhase (k : Core) : (sAdvance k).cutPhase = k.cutPhase := by rw [sAdvance_eq]
@[simp] theorem sAdvance_missed (k : Core) : (sAdvance k).missed = k.missed := by rw [sAdvance_eq]
@[simp] theorem sAdvance_reissue (k : Core) : (sAdvance k).reissue = k.reissue := by rw [sAdvance_eq]
@[simp] theorem sAdvance_timed (k : Core) : (sAdvance k).timed = k.timed := by rw [sAdvance_eq]
@[simp] theorem sAdvance_nextInstr (k : Core) : (sAdvance k).nextInstr = k.nextInstr := by rw [sAdvance_eq]
@[simp] theorem sAdvance_fenceMark (k : Core) : (sAdvance k).fenceMark = k.fenceMark := by rw [sAdvance_eq]
@[simp] theorem sAdvance_relArmed (k : Core) : (sAdvance k).relArmed = k.relArmed := by rw [sAdvance_eq]
@[simp] theorem sAdvance_acqMark (k : Core) : (sAdvance k).acqMark = k.acqMark := by rw [sAdvance_eq]
@[simp] theorem sAdvance_recLines (k : Core) : (sAdvance k).recLines = k.recLines := by rw [sAdvance_eq]
@[simp] theorem sAdvance_loads (k : Core) : (sAdvance k).loads = k.loads := by rw [sAdvance_eq]
@[simp] theorem sAdvance_stores (k : Core) : (sAdvance k).stores = k.stores := by rw [sAdvance_eq]
@[simp] theorem sAdvance_tlb (k : Core) : (sAdvance k).tlb = k.tlb := by rw [sAdvance_eq]
@[simp] theorem sAdvance_readCache (k : Core) : (sAdvance k).readCache = k.readCache := by rw [sAdvance_eq]
@[simp] theorem sAdvance_constCache (k : Core) : (sAdvance k).constCache = k.constCache := by rw [sAdvance_eq]
@[simp] theorem sAdvance_units (k : Core) : (sAdvance k).units = k.units := by rw [sAdvance_eq]
@[simp] theorem sAdvance_banks (k : Core) : (sAdvance k).banks = k.banks := by rw [sAdvance_eq]
@[simp] theorem sAdvance_race (k : Core) : (sAdvance k).race = k.race := by rw [sAdvance_eq]
@[simp] theorem sAdvance_engQ (k : Core) : (sAdvance k).engQ = k.engQ := by rw [sAdvance_eq]
@[simp] theorem sAdvance_engSeq (k : Core) : (sAdvance k).engSeq = k.engSeq := by rw [sAdvance_eq]
@[simp] theorem sAdvance_task (k : Core) : (sAdvance k).task = k.task := by rw [sAdvance_eq]
@[simp] theorem sAdvance_lastWorld (k : Core) : (sAdvance k).lastWorld = k.lastWorld := by rw [sAdvance_eq]
@[simp] theorem sAdvance_lastLaunch (k : Core) : (sAdvance k).lastLaunch = k.lastLaunch := by rw [sAdvance_eq]
@[simp] theorem sAdvance_arrived (k : Core) : (sAdvance k).arrived = k.arrived := by rw [sAdvance_eq]
@[simp] theorem sAdvance_dbgGang (k : Core) : (sAdvance k).dbgGang = k.dbgGang := by rw [sAdvance_eq]
@[simp] theorem sAdvance_wdogSetLimit (k : Core) : (sAdvance k).wdogSetLimit = k.wdogSetLimit := by rw [sAdvance_eq]
@[simp] theorem sAdvance_pinned (k : Core) : (sAdvance k).pinned = k.pinned := by rw [sAdvance_eq]
@[simp] theorem sAdvance_unpins (k : Core) : (sAdvance k).unpins = k.unpins := by rw [sAdvance_eq]
@[simp] theorem sAdvance_stopped (k : Core) : (sAdvance k).stopped = k.stopped := by rw [sAdvance_eq]

@[simp] theorem sNext_eq_sNextAt (s : State) : sNext s = sNextAt 1 s := rfl
@[simp] theorem sNextAt_coreId (n : Nat) (s : State) : (sNextAt n s).coreId = s.coreId := rfl
@[simp] theorem sNextAt_others (n : Nat) (s : State) : (sNextAt n s).others = s.others := rfl
@[simp] theorem sNextAt_now (n : Nat) (s : State) : (sNextAt n s).now = s.now := rfl
@[simp] theorem sNextAt_tick (n : Nat) (s : State) : (sNextAt n s).tick = s.tick := rfl
@[simp] theorem sNextAt_strokeNs (n : Nat) (s : State) : (sNextAt n s).strokeNs = s.strokeNs := rfl
@[simp] theorem sNextAt_tickDue (n : Nat) (s : State) : (sNextAt n s).tickDue = s.tickDue := rfl
@[simp] theorem sNextAt_tickWork (n : Nat) (s : State) : (sNextAt n s).tickWork = s.tickWork := rfl
@[simp] theorem sNextAt_phase (n : Nat) (s : State) : (sNextAt n s).phase = s.phase := rfl
@[simp] theorem sNextAt_flash (n : Nat) (s : State) : (sNextAt n s).flash = s.flash := rfl
@[simp] theorem sNextAt_cfgDefaulted (n : Nat) (s : State) : (sNextAt n s).cfgDefaulted = s.cfgDefaulted := rfl
@[simp] theorem sNextAt_ident (n : Nat) (s : State) : (sNextAt n s).ident = s.ident := rfl
@[simp] theorem sNextAt_stepping (n : Nat) (s : State) : (sNextAt n s).stepping = s.stepping := rfl
@[simp] theorem sNextAt_modrev (n : Nat) (s : State) : (sNextAt n s).modrev = s.modrev := rfl
@[simp] theorem sNextAt_powerCap (n : Nat) (s : State) : (sNextAt n s).powerCap = s.powerCap := rfl
@[simp] theorem sNextAt_recordCap (n : Nat) (s : State) : (sNextAt n s).recordCap = s.recordCap := rfl
@[simp] theorem sNextAt_powerTripped (n : Nat) (s : State) : (sNextAt n s).powerTripped = s.powerTripped := rfl
@[simp] theorem sNextAt_withhold (n : Nat) (s : State) : (sNextAt n s).withhold = s.withhold := rfl
@[simp] theorem sNextAt_heldStrips (n : Nat) (s : State) : (sNextAt n s).heldStrips = s.heldStrips := rfl
@[simp] theorem sNextAt_islands (n : Nat) (s : State) : (sNextAt n s).islands = s.islands := rfl
@[simp] theorem sNextAt_refresh (n : Nat) (s : State) : (sNextAt n s).refresh = s.refresh := rfl
@[simp] theorem sNextAt_ways (n : Nat) (s : State) : (sNextAt n s).ways = s.ways := rfl
@[simp] theorem sNextAt_mem (n : Nat) (s : State) : (sNextAt n s).mem = s.mem := rfl
@[simp] theorem sNextAt_side (n : Nat) (s : State) : (sNextAt n s).side = s.side := rfl
@[simp] theorem sNextAt_ptes (n : Nat) (s : State) : (sNextAt n s).ptes = s.ptes := rfl
@[simp] theorem sNextAt_pages (n : Nat) (s : State) : (sNextAt n s).pages = s.pages := rfl
@[simp] theorem sNextAt_scrub (n : Nat) (s : State) : (sNextAt n s).scrub = s.scrub := rfl
@[simp] theorem sNextAt_replicas (n : Nat) (s : State) : (sNextAt n s).replicas = s.replicas := rfl
@[simp] theorem sNextAt_quotas (n : Nat) (s : State) : (sNextAt n s).quotas = s.quotas := rfl
@[simp] theorem sNextAt_programmed (n : Nat) (s : State) : (sNextAt n s).programmed = s.programmed := rfl
@[simp] theorem sNextAt_wear (n : Nat) (s : State) : (sNextAt n s).wear = s.wear := rfl
@[simp] theorem sNextAt_winExp (n : Nat) (s : State) : (sNextAt n s).winExp = s.winExp := rfl
@[simp] theorem sNextAt_thresh (n : Nat) (s : State) : (sNextAt n s).thresh = s.thresh := rfl
@[simp] theorem sNextAt_liveEn (n : Nat) (s : State) : (sNextAt n s).liveEn = s.liveEn := rfl
@[simp] theorem sNextAt_channels (n : Nat) (s : State) : (sNextAt n s).channels = s.channels := rfl
@[simp] theorem sNextAt_linkStat (n : Nat) (s : State) : (sNextAt n s).linkStat = s.linkStat := rfl
@[simp] theorem sNextAt_cxlUp (n : Nat) (s : State) : (sNextAt n s).cxlUp = s.cxlUp := rfl
@[simp] theorem sNextAt_migrations (n : Nat) (s : State) : (sNextAt n s).migrations = s.migrations := rfl
@[simp] theorem sNextAt_migQueue (n : Nat) (s : State) : (sNextAt n s).migQueue = s.migQueue := rfl
@[simp] theorem sNextAt_worlds (n : Nat) (s : State) : (sNextAt n s).worlds = s.worlds := rfl
@[simp] theorem sNextAt_keySlots (n : Nat) (s : State) : (sNextAt n s).keySlots = s.keySlots := rfl
@[simp] theorem sNextAt_parts (n : Nat) (s : State) : (sNextAt n s).parts = s.parts := rfl
@[simp] theorem sNextAt_calMaps (n : Nat) (s : State) : (sNextAt n s).calMaps = s.calMaps := rfl
@[simp] theorem sNextAt_donated (n : Nat) (s : State) : (sNextAt n s).donated = s.donated := rfl
@[simp] theorem sNextAt_hdm (n : Nat) (s : State) : (sNextAt n s).hdm = s.hdm := rfl
@[simp] theorem sNextAt_retiring (n : Nat) (s : State) : (sNextAt n s).retiring = s.retiring := rfl
@[simp] theorem sNextAt_islandLimits (n : Nat) (s : State) : (sNextAt n s).islandLimits = s.islandLimits := rfl
@[simp] theorem sNextAt_template (n : Nat) (s : State) : (sNextAt n s).template = s.template := rfl
@[simp] theorem sNextAt_recordInForce (n : Nat) (s : State) : (sNextAt n s).recordInForce = s.recordInForce := rfl
@[simp] theorem sNextAt_cxlIde (n : Nat) (s : State) : (sNextAt n s).cxlIde = s.cxlIde := rfl
@[simp] theorem sNextAt_gangs (n : Nat) (s : State) : (sNextAt n s).gangs = s.gangs := rfl
@[simp] theorem sNextAt_nextGang (n : Nat) (s : State) : (sNextAt n s).nextGang = s.nextGang := rfl
@[simp] theorem sNextAt_startCount (n : Nat) (s : State) : (sNextAt n s).startCount = s.startCount := rfl
@[simp] theorem sNextAt_arrivals (n : Nat) (s : State) : (sNextAt n s).arrivals = s.arrivals := rfl
@[simp] theorem sNextAt_contexts (n : Nat) (s : State) : (sNextAt n s).contexts = s.contexts := rfl
@[simp] theorem sNextAt_ckpts (n : Nat) (s : State) : (sNextAt n s).ckpts = s.ckpts := rfl
@[simp] theorem sNextAt_logOrdinals (n : Nat) (s : State) : (sNextAt n s).logOrdinals = s.logOrdinals := rfl
@[simp] theorem sNextAt_clusters (n : Nat) (s : State) : (sNextAt n s).clusters = s.clusters := rfl
@[simp] theorem sNextAt_windows (n : Nat) (s : State) : (sNextAt n s).windows = s.windows := rfl
@[simp] theorem sNextAt_linkUp (n : Nat) (s : State) : (sNextAt n s).linkUp = s.linkUp := rfl
@[simp] theorem sNextAt_linkHeld (n : Nat) (s : State) : (sNextAt n s).linkHeld = s.linkHeld := rfl
@[simp] theorem sNextAt_linkDownAt (n : Nat) (s : State) : (sNextAt n s).linkDownAt = s.linkDownAt := rfl
@[simp] theorem sNextAt_spdm (n : Nat) (s : State) : (sNextAt n s).spdm = s.spdm := rfl
@[simp] theorem sNextAt_spdmReply (n : Nat) (s : State) : (sNextAt n s).spdmReply = s.spdmReply := rfl
@[simp] theorem sNextAt_ownerChain (n : Nat) (s : State) : (sNextAt n s).ownerChain = s.ownerChain := rfl
@[simp] theorem sNextAt_ideKeys (n : Nat) (s : State) : (sNextAt n s).ideKeys = s.ideKeys := rfl
@[simp] theorem sNextAt_ideLost (n : Nat) (s : State) : (sNextAt n s).ideLost = s.ideLost := rfl
@[simp] theorem sNextAt_rdy (n : Nat) (s : State) : (sNextAt n s).rdy = s.rdy := rfl
@[simp] theorem sNextAt_node (n : Nat) (s : State) : (sNextAt n s).node = s.node := rfl
@[simp] theorem sNextAt_groups (n : Nat) (s : State) : (sNextAt n s).groups = s.groups := rfl
@[simp] theorem sNextAt_ports (n : Nat) (s : State) : (sNextAt n s).ports = s.ports := rfl
@[simp] theorem sNextAt_lanesOut (n : Nat) (s : State) : (sNextAt n s).lanesOut = s.lanesOut := rfl
@[simp] theorem sNextAt_remotes (n : Nat) (s : State) : (sNextAt n s).remotes = s.remotes := rfl
@[simp] theorem sNextAt_queues (n : Nat) (s : State) : (sNextAt n s).queues = s.queues := rfl
@[simp] theorem sNextAt_lastQueue (n : Nat) (s : State) : (sNextAt n s).lastQueue = s.lastQueue := rfl
@[simp] theorem sNextAt_hostRuns (n : Nat) (s : State) : (sNextAt n s).hostRuns = s.hostRuns := rfl
@[simp] theorem sNextAt_held (n : Nat) (s : State) : (sNextAt n s).held = s.held := rfl
@[simp] theorem sNextAt_fetched (n : Nat) (s : State) : (sNextAt n s).fetched = s.fetched := rfl
@[simp] theorem sNextAt_hostEp (n : Nat) (s : State) : (sNextAt n s).hostEp = s.hostEp := rfl
@[simp] theorem sNextAt_ideDrops (n : Nat) (s : State) : (sNextAt n s).ideDrops = s.ideDrops := rfl
@[simp] theorem sNextAt_logPa (n : Nat) (s : State) : (sNextAt n s).logPa = s.logPa := rfl
@[simp] theorem sNextAt_msix (n : Nat) (s : State) : (sNextAt n s).msix = s.msix := rfl
@[simp] theorem sNextAt_mailbox (n : Nat) (s : State) : (sNextAt n s).mailbox = s.mailbox := rfl
@[simp] theorem sNextAt_mmioData (n : Nat) (s : State) : (sNextAt n s).mmioData = s.mmioData := rfl
@[simp] theorem sNextAt_events (n : Nat) (s : State) : (sNextAt n s).events = s.events := rfl
@[simp] theorem sNextAt_unread (n : Nat) (s : State) : (sNextAt n s).unread = s.unread := rfl
@[simp] theorem sNextAt_lostNext (n : Nat) (s : State) : (sNextAt n s).lostNext = s.lostNext := rfl
@[simp] theorem sNextAt_nextEvent (n : Nat) (s : State) : (sNextAt n s).nextEvent = s.nextEvent := rfl
@[simp] theorem sNextAt_recovery (n : Nat) (s : State) : (sNextAt n s).recovery = s.recovery := rfl
@[simp] theorem sNextAt_recoveryUnread (n : Nat) (s : State) : (sNextAt n s).recoveryUnread = s.recoveryUnread := rfl
@[simp] theorem sNextAt_errors (n : Nat) (s : State) : (sNextAt n s).errors = s.errors := rfl
@[simp] theorem sNextAt_nextError (n : Nat) (s : State) : (sNextAt n s).nextError = s.nextError := rfl
@[simp] theorem sNextAt_poisonSeen (n : Nat) (s : State) : (sNextAt n s).poisonSeen = s.poisonSeen := rfl
@[simp] theorem sNextAt_prefixes (n : Nat) (s : State) : (sNextAt n s).prefixes = s.prefixes := rfl
@[simp] theorem sNextAt_aht (n : Nat) (s : State) : (sNextAt n s).aht = s.aht := rfl
@[simp] theorem sNextAt_maps (n : Nat) (s : State) : (sNextAt n s).maps = s.maps := rfl
@[simp] theorem sNextAt_mapGens (n : Nat) (s : State) : (sNextAt n s).mapGens = s.mapGens := rfl
@[simp] theorem sNextAt_running (n : Nat) (s : State) : (sNextAt n s).running = s.running := rfl
@[simp] theorem sNextAt_colls (n : Nat) (s : State) : (sNextAt n s).colls = s.colls := rfl
@[simp] theorem sNextAt_meetHeard (n : Nat) (s : State) : (sNextAt n s).meetHeard = s.meetHeard := rfl
@[simp] theorem sNextAt_engWorld (n : Nat) (s : State) : (sNextAt n s).engWorld = s.engWorld := rfl
@[simp] theorem sNextAt_served (n : Nat) (s : State) : (sNextAt n s).served = s.served := rfl
@[simp] theorem sNextAt_scFences (n : Nat) (s : State) : (sNextAt n s).scFences = s.scFences := rfl
@[simp] theorem sNextAt_scVecs (n : Nat) (s : State) : (sNextAt n s).scVecs = s.scVecs := rfl
@[simp] theorem sNextAt_inputs (n : Nat) (s : State) : (sNextAt n s).inputs = s.inputs := rfl
@[simp] theorem sNextAt_ev (n : Nat) (s : State) : (sNextAt n s).ev = s.ev := rfl
@[simp] theorem sNextAt_fresh (n : Nat) (s : State) : (sNextAt n s).fresh = s.fresh := rfl
@[simp] theorem sNextAt_core_sReady (n : Nat) (s : State) : (sNextAt n s).core.sReady = cyc s + n := rfl
@[simp] theorem sNextAt_core_g (n : Nat) (s : State) : (sNextAt n s).core.g = s.core.g := by rw [sNextAt_eq]
@[simp] theorem sNextAt_core_gReady (n : Nat) (s : State) : (sNextAt n s).core.gReady = s.core.gReady := by rw [sNextAt_eq]
@[simp] theorem sNextAt_core_b (n : Nat) (s : State) : (sNextAt n s).core.b = s.core.b := by rw [sNextAt_eq]
@[simp] theorem sNextAt_core_e (n : Nat) (s : State) : (sNextAt n s).core.e = s.core.e := by rw [sNextAt_eq]
@[simp] theorem sNextAt_core_m (n : Nat) (s : State) : (sNextAt n s).core.m = s.core.m := by rw [sNextAt_eq]
@[simp] theorem sNextAt_core_v (n : Nat) (s : State) : (sNextAt n s).core.v = s.core.v := by rw [sNextAt_eq]
@[simp] theorem sNextAt_core_t (n : Nat) (s : State) : (sNextAt n s).core.t = s.core.t := by rw [sNextAt_eq]
@[simp] theorem sNextAt_core_a (n : Nat) (s : State) : (sNextAt n s).core.a = s.core.a := by rw [sNextAt_eq]
@[simp] theorem sNextAt_core_ah (n : Nat) (s : State) : (sNextAt n s).core.ah = s.core.ah := by rw [sNextAt_eq]
@[simp] theorem sNextAt_core_p (n : Nat) (s : State) : (sNextAt n s).core.p = s.core.p := by rw [sNextAt_eq]
@[simp] theorem sNextAt_core_q (n : Nat) (s : State) : (sNextAt n s).core.q = s.core.q := by rw [sNextAt_eq]
@[simp] theorem sNextAt_core_slotMem (n : Nat) (s : State) : (sNextAt n s).core.slotMem = s.core.slotMem := by rw [sNextAt_eq]
@[simp] theorem sNextAt_core_flags (n : Nat) (s : State) : (sNextAt n s).core.flags = s.core.flags := by rw [sNextAt_eq]
@[simp] theorem sNextAt_core_flagsPrev (n : Nat) (s : State) : (sNextAt n s).core.flagsPrev = s.core.flagsPrev := by rw [sNextAt_eq]
@[simp] theorem sNextAt_core_sp (n : Nat) (s : State) : (sNextAt n s).core.sp = s.core.sp := by rw [sNextAt_eq]
@[simp] theorem sNextAt_core_slots (n : Nat) (s : State) : (sNextAt n s).core.slots = s.core.slots := by rw [sNextAt_eq]
@[simp] theorem sNextAt_core_sys (n : Nat) (s : State) : (sNextAt n s).core.sys = s.core.sys := by rw [sNextAt_eq]
@[simp] theorem sNextAt_core_sEntry (n : Nat) (s : State) : (sNextAt n s).core.sEntry = s.core.sEntry := by rw [sNextAt_eq]
@[simp] theorem sNextAt_core_colL (n : Nat) (s : State) : (sNextAt n s).core.colL = s.core.colL := by rw [sNextAt_eq]
@[simp] theorem sNextAt_core_colC (n : Nat) (s : State) : (sNextAt n s).core.colC = s.core.colC := by rw [sNextAt_eq]
@[simp] theorem sNextAt_core_colW (n : Nat) (s : State) : (sNextAt n s).core.colW = s.core.colW := by rw [sNextAt_eq]
@[simp] theorem sNextAt_core_groups (n : Nat) (s : State) : (sNextAt n s).core.groups = s.core.groups := by rw [sNextAt_eq]
@[simp] theorem sNextAt_core_nextGrp (n : Nat) (s : State) : (sNextAt n s).core.nextGrp = s.core.nextGrp := by rw [sNextAt_eq]
@[simp] theorem sNextAt_core_openGrp (n : Nat) (s : State) : (sNextAt n s).core.openGrp = s.core.openGrp := by rw [sNextAt_eq]
@[simp] theorem sNextAt_core_fx (n : Nat) (s : State) : (sNextAt n s).core.fx = s.core.fx := by rw [sNextAt_eq]
@[simp] theorem sNextAt_core_hold (n : Nat) (s : State) : (sNextAt n s).core.hold = s.core.hold := by rw [sNextAt_eq]
@[simp] theorem sNextAt_core_cut (n : Nat) (s : State) : (sNextAt n s).core.cut = s.core.cut := by rw [sNextAt_eq]
@[simp] theorem sNextAt_core_cutPc (n : Nat) (s : State) : (sNextAt n s).core.cutPc = s.core.cutPc := by rw [sNextAt_eq]
@[simp] theorem sNextAt_core_deferred (n : Nat) (s : State) : (sNextAt n s).core.deferred = s.core.deferred := by rw [sNextAt_eq]
@[simp] theorem sNextAt_core_cutXfer (n : Nat) (s : State) : (sNextAt n s).core.cutXfer = s.core.cutXfer := by rw [sNextAt_eq]
@[simp] theorem sNextAt_core_cutPhase (n : Nat) (s : State) : (sNextAt n s).core.cutPhase = s.core.cutPhase := by rw [sNextAt_eq]
@[simp] theorem sNextAt_core_missed (n : Nat) (s : State) : (sNextAt n s).core.missed = s.core.missed := by rw [sNextAt_eq]
@[simp] theorem sNextAt_core_reissue (n : Nat) (s : State) : (sNextAt n s).core.reissue = s.core.reissue := by rw [sNextAt_eq]
@[simp] theorem sNextAt_core_timed (n : Nat) (s : State) : (sNextAt n s).core.timed = s.core.timed := by rw [sNextAt_eq]
@[simp] theorem sNextAt_core_nextInstr (n : Nat) (s : State) : (sNextAt n s).core.nextInstr = s.core.nextInstr := by rw [sNextAt_eq]
@[simp] theorem sNextAt_core_fenceMark (n : Nat) (s : State) : (sNextAt n s).core.fenceMark = s.core.fenceMark := by rw [sNextAt_eq]
@[simp] theorem sNextAt_core_relArmed (n : Nat) (s : State) : (sNextAt n s).core.relArmed = s.core.relArmed := by rw [sNextAt_eq]
@[simp] theorem sNextAt_core_acqMark (n : Nat) (s : State) : (sNextAt n s).core.acqMark = s.core.acqMark := by rw [sNextAt_eq]
@[simp] theorem sNextAt_core_recLines (n : Nat) (s : State) : (sNextAt n s).core.recLines = s.core.recLines := by rw [sNextAt_eq]
@[simp] theorem sNextAt_core_loads (n : Nat) (s : State) : (sNextAt n s).core.loads = s.core.loads := by rw [sNextAt_eq]
@[simp] theorem sNextAt_core_stores (n : Nat) (s : State) : (sNextAt n s).core.stores = s.core.stores := by rw [sNextAt_eq]
@[simp] theorem sNextAt_core_tlb (n : Nat) (s : State) : (sNextAt n s).core.tlb = s.core.tlb := by rw [sNextAt_eq]
@[simp] theorem sNextAt_core_readCache (n : Nat) (s : State) : (sNextAt n s).core.readCache = s.core.readCache := by rw [sNextAt_eq]
@[simp] theorem sNextAt_core_constCache (n : Nat) (s : State) : (sNextAt n s).core.constCache = s.core.constCache := by rw [sNextAt_eq]
@[simp] theorem sNextAt_core_units (n : Nat) (s : State) : (sNextAt n s).core.units = s.core.units := by rw [sNextAt_eq]
@[simp] theorem sNextAt_core_banks (n : Nat) (s : State) : (sNextAt n s).core.banks = s.core.banks := by rw [sNextAt_eq]
@[simp] theorem sNextAt_core_race (n : Nat) (s : State) : (sNextAt n s).core.race = s.core.race := by rw [sNextAt_eq]
@[simp] theorem sNextAt_core_engQ (n : Nat) (s : State) : (sNextAt n s).core.engQ = s.core.engQ := by rw [sNextAt_eq]
@[simp] theorem sNextAt_core_engSeq (n : Nat) (s : State) : (sNextAt n s).core.engSeq = s.core.engSeq := by rw [sNextAt_eq]
@[simp] theorem sNextAt_core_task (n : Nat) (s : State) : (sNextAt n s).core.task = s.core.task := by rw [sNextAt_eq]
@[simp] theorem sNextAt_core_lastWorld (n : Nat) (s : State) : (sNextAt n s).core.lastWorld = s.core.lastWorld := by rw [sNextAt_eq]
@[simp] theorem sNextAt_core_lastLaunch (n : Nat) (s : State) : (sNextAt n s).core.lastLaunch = s.core.lastLaunch := by rw [sNextAt_eq]
@[simp] theorem sNextAt_core_arrived (n : Nat) (s : State) : (sNextAt n s).core.arrived = s.core.arrived := by rw [sNextAt_eq]
@[simp] theorem sNextAt_core_dbgGang (n : Nat) (s : State) : (sNextAt n s).core.dbgGang = s.core.dbgGang := by rw [sNextAt_eq]
@[simp] theorem sNextAt_core_wdogSetLimit (n : Nat) (s : State) : (sNextAt n s).core.wdogSetLimit = s.core.wdogSetLimit := by rw [sNextAt_eq]
@[simp] theorem sNextAt_core_pinned (n : Nat) (s : State) : (sNextAt n s).core.pinned = s.core.pinned := by rw [sNextAt_eq]
@[simp] theorem sNextAt_core_unpins (n : Nat) (s : State) : (sNextAt n s).core.unpins = s.core.unpins := by rw [sNextAt_eq]
@[simp] theorem sNextAt_core_stopped (n : Nat) (s : State) : (sNextAt n s).core.stopped = s.core.stopped := by rw [sNextAt_eq]
@[simp] theorem sNextAt_core_pc (n : Nat) (s : State) : (sNextAt n s).core.pc = nextPc s.core := by rw [sNextAt_eq]
@[simp] theorem sNextAt_core_xfer (n : Nat) (s : State) : (sNextAt n s).core.xfer = nextXfer s.core := by rw [sNextAt_eq]
@[simp] theorem sNextAt_core_phase (n : Nat) (s : State) : (sNextAt n s).core.phase = 0 := by rw [sNextAt_eq]

/-- Outside a delay word the pc goes on by 4. -/
theorem nextPc_none {k : Core} (h : k.xfer = none) : nextPc k = k.pc + 4 := by simp [nextPc, h]

theorem nextXfer_none {k : Core} (h : k.xfer = none) : nextXfer k = none := by simp [nextXfer, h]

/-! ### General registers (R347) -/

@[simp] theorem readG_zero (s : State) : readG s 0#6 = 0#64 := if_pos rfl

@[simp] theorem writeG_zero (x : Dword) (lat : Nat) (s : State) : writeG 0#6 x lat s = s := if_pos rfl

theorem writeG_eq {d : GReg} (h : d ≠ 0) (x : Dword) (lat : Nat) (s : State) :
    writeG d x lat s =
      modCore (fun k => { k with g := k.g.set d.toNat x d.isLt, gReady := k.gReady.set d.toNat (cyc s + lat) d.isLt }) s := by
  exact if_neg h

@[simp] theorem writeG_coreId (d : GReg) (x : Dword) (lat : Nat) (s : State) : (writeG d x lat s).coreId = s.coreId := by unfold writeG; split <;> rfl
@[simp] theorem writeG_others (d : GReg) (x : Dword) (lat : Nat) (s : State) : (writeG d x lat s).others = s.others := by unfold writeG; split <;> rfl
@[simp] theorem writeG_now (d : GReg) (x : Dword) (lat : Nat) (s : State) : (writeG d x lat s).now = s.now := by unfold writeG; split <;> rfl
@[simp] theorem writeG_tick (d : GReg) (x : Dword) (lat : Nat) (s : State) : (writeG d x lat s).tick = s.tick := by unfold writeG; split <;> rfl
@[simp] theorem writeG_strokeNs (d : GReg) (x : Dword) (lat : Nat) (s : State) : (writeG d x lat s).strokeNs = s.strokeNs := by unfold writeG; split <;> rfl
@[simp] theorem writeG_tickDue (d : GReg) (x : Dword) (lat : Nat) (s : State) : (writeG d x lat s).tickDue = s.tickDue := by unfold writeG; split <;> rfl
@[simp] theorem writeG_tickWork (d : GReg) (x : Dword) (lat : Nat) (s : State) : (writeG d x lat s).tickWork = s.tickWork := by unfold writeG; split <;> rfl
@[simp] theorem writeG_phase (d : GReg) (x : Dword) (lat : Nat) (s : State) : (writeG d x lat s).phase = s.phase := by unfold writeG; split <;> rfl
@[simp] theorem writeG_flash (d : GReg) (x : Dword) (lat : Nat) (s : State) : (writeG d x lat s).flash = s.flash := by unfold writeG; split <;> rfl
@[simp] theorem writeG_cfgDefaulted (d : GReg) (x : Dword) (lat : Nat) (s : State) : (writeG d x lat s).cfgDefaulted = s.cfgDefaulted := by unfold writeG; split <;> rfl
@[simp] theorem writeG_ident (d : GReg) (x : Dword) (lat : Nat) (s : State) : (writeG d x lat s).ident = s.ident := by unfold writeG; split <;> rfl
@[simp] theorem writeG_stepping (d : GReg) (x : Dword) (lat : Nat) (s : State) : (writeG d x lat s).stepping = s.stepping := by unfold writeG; split <;> rfl
@[simp] theorem writeG_modrev (d : GReg) (x : Dword) (lat : Nat) (s : State) : (writeG d x lat s).modrev = s.modrev := by unfold writeG; split <;> rfl
@[simp] theorem writeG_powerCap (d : GReg) (x : Dword) (lat : Nat) (s : State) : (writeG d x lat s).powerCap = s.powerCap := by unfold writeG; split <;> rfl
@[simp] theorem writeG_recordCap (d : GReg) (x : Dword) (lat : Nat) (s : State) : (writeG d x lat s).recordCap = s.recordCap := by unfold writeG; split <;> rfl
@[simp] theorem writeG_powerTripped (d : GReg) (x : Dword) (lat : Nat) (s : State) : (writeG d x lat s).powerTripped = s.powerTripped := by unfold writeG; split <;> rfl
@[simp] theorem writeG_withhold (d : GReg) (x : Dword) (lat : Nat) (s : State) : (writeG d x lat s).withhold = s.withhold := by unfold writeG; split <;> rfl
@[simp] theorem writeG_heldStrips (d : GReg) (x : Dword) (lat : Nat) (s : State) : (writeG d x lat s).heldStrips = s.heldStrips := by unfold writeG; split <;> rfl
@[simp] theorem writeG_islands (d : GReg) (x : Dword) (lat : Nat) (s : State) : (writeG d x lat s).islands = s.islands := by unfold writeG; split <;> rfl
@[simp] theorem writeG_refresh (d : GReg) (x : Dword) (lat : Nat) (s : State) : (writeG d x lat s).refresh = s.refresh := by unfold writeG; split <;> rfl
@[simp] theorem writeG_ways (d : GReg) (x : Dword) (lat : Nat) (s : State) : (writeG d x lat s).ways = s.ways := by unfold writeG; split <;> rfl
@[simp] theorem writeG_mem (d : GReg) (x : Dword) (lat : Nat) (s : State) : (writeG d x lat s).mem = s.mem := by unfold writeG; split <;> rfl
@[simp] theorem writeG_side (d : GReg) (x : Dword) (lat : Nat) (s : State) : (writeG d x lat s).side = s.side := by unfold writeG; split <;> rfl
@[simp] theorem writeG_ptes (d : GReg) (x : Dword) (lat : Nat) (s : State) : (writeG d x lat s).ptes = s.ptes := by unfold writeG; split <;> rfl
@[simp] theorem writeG_pages (d : GReg) (x : Dword) (lat : Nat) (s : State) : (writeG d x lat s).pages = s.pages := by unfold writeG; split <;> rfl
@[simp] theorem writeG_scrub (d : GReg) (x : Dword) (lat : Nat) (s : State) : (writeG d x lat s).scrub = s.scrub := by unfold writeG; split <;> rfl
@[simp] theorem writeG_replicas (d : GReg) (x : Dword) (lat : Nat) (s : State) : (writeG d x lat s).replicas = s.replicas := by unfold writeG; split <;> rfl
@[simp] theorem writeG_quotas (d : GReg) (x : Dword) (lat : Nat) (s : State) : (writeG d x lat s).quotas = s.quotas := by unfold writeG; split <;> rfl
@[simp] theorem writeG_programmed (d : GReg) (x : Dword) (lat : Nat) (s : State) : (writeG d x lat s).programmed = s.programmed := by unfold writeG; split <;> rfl
@[simp] theorem writeG_wear (d : GReg) (x : Dword) (lat : Nat) (s : State) : (writeG d x lat s).wear = s.wear := by unfold writeG; split <;> rfl
@[simp] theorem writeG_winExp (d : GReg) (x : Dword) (lat : Nat) (s : State) : (writeG d x lat s).winExp = s.winExp := by unfold writeG; split <;> rfl
@[simp] theorem writeG_thresh (d : GReg) (x : Dword) (lat : Nat) (s : State) : (writeG d x lat s).thresh = s.thresh := by unfold writeG; split <;> rfl
@[simp] theorem writeG_liveEn (d : GReg) (x : Dword) (lat : Nat) (s : State) : (writeG d x lat s).liveEn = s.liveEn := by unfold writeG; split <;> rfl
@[simp] theorem writeG_channels (d : GReg) (x : Dword) (lat : Nat) (s : State) : (writeG d x lat s).channels = s.channels := by unfold writeG; split <;> rfl
@[simp] theorem writeG_linkStat (d : GReg) (x : Dword) (lat : Nat) (s : State) : (writeG d x lat s).linkStat = s.linkStat := by unfold writeG; split <;> rfl
@[simp] theorem writeG_cxlUp (d : GReg) (x : Dword) (lat : Nat) (s : State) : (writeG d x lat s).cxlUp = s.cxlUp := by unfold writeG; split <;> rfl
@[simp] theorem writeG_migrations (d : GReg) (x : Dword) (lat : Nat) (s : State) : (writeG d x lat s).migrations = s.migrations := by unfold writeG; split <;> rfl
@[simp] theorem writeG_migQueue (d : GReg) (x : Dword) (lat : Nat) (s : State) : (writeG d x lat s).migQueue = s.migQueue := by unfold writeG; split <;> rfl
@[simp] theorem writeG_worlds (d : GReg) (x : Dword) (lat : Nat) (s : State) : (writeG d x lat s).worlds = s.worlds := by unfold writeG; split <;> rfl
@[simp] theorem writeG_keySlots (d : GReg) (x : Dword) (lat : Nat) (s : State) : (writeG d x lat s).keySlots = s.keySlots := by unfold writeG; split <;> rfl
@[simp] theorem writeG_parts (d : GReg) (x : Dword) (lat : Nat) (s : State) : (writeG d x lat s).parts = s.parts := by unfold writeG; split <;> rfl
@[simp] theorem writeG_calMaps (d : GReg) (x : Dword) (lat : Nat) (s : State) : (writeG d x lat s).calMaps = s.calMaps := by unfold writeG; split <;> rfl
@[simp] theorem writeG_donated (d : GReg) (x : Dword) (lat : Nat) (s : State) : (writeG d x lat s).donated = s.donated := by unfold writeG; split <;> rfl
@[simp] theorem writeG_hdm (d : GReg) (x : Dword) (lat : Nat) (s : State) : (writeG d x lat s).hdm = s.hdm := by unfold writeG; split <;> rfl
@[simp] theorem writeG_retiring (d : GReg) (x : Dword) (lat : Nat) (s : State) : (writeG d x lat s).retiring = s.retiring := by unfold writeG; split <;> rfl
@[simp] theorem writeG_islandLimits (d : GReg) (x : Dword) (lat : Nat) (s : State) : (writeG d x lat s).islandLimits = s.islandLimits := by unfold writeG; split <;> rfl
@[simp] theorem writeG_template (d : GReg) (x : Dword) (lat : Nat) (s : State) : (writeG d x lat s).template = s.template := by unfold writeG; split <;> rfl
@[simp] theorem writeG_recordInForce (d : GReg) (x : Dword) (lat : Nat) (s : State) : (writeG d x lat s).recordInForce = s.recordInForce := by unfold writeG; split <;> rfl
@[simp] theorem writeG_cxlIde (d : GReg) (x : Dword) (lat : Nat) (s : State) : (writeG d x lat s).cxlIde = s.cxlIde := by unfold writeG; split <;> rfl
@[simp] theorem writeG_gangs (d : GReg) (x : Dword) (lat : Nat) (s : State) : (writeG d x lat s).gangs = s.gangs := by unfold writeG; split <;> rfl
@[simp] theorem writeG_nextGang (d : GReg) (x : Dword) (lat : Nat) (s : State) : (writeG d x lat s).nextGang = s.nextGang := by unfold writeG; split <;> rfl
@[simp] theorem writeG_startCount (d : GReg) (x : Dword) (lat : Nat) (s : State) : (writeG d x lat s).startCount = s.startCount := by unfold writeG; split <;> rfl
@[simp] theorem writeG_arrivals (d : GReg) (x : Dword) (lat : Nat) (s : State) : (writeG d x lat s).arrivals = s.arrivals := by unfold writeG; split <;> rfl
@[simp] theorem writeG_contexts (d : GReg) (x : Dword) (lat : Nat) (s : State) : (writeG d x lat s).contexts = s.contexts := by unfold writeG; split <;> rfl
@[simp] theorem writeG_ckpts (d : GReg) (x : Dword) (lat : Nat) (s : State) : (writeG d x lat s).ckpts = s.ckpts := by unfold writeG; split <;> rfl
@[simp] theorem writeG_logOrdinals (d : GReg) (x : Dword) (lat : Nat) (s : State) : (writeG d x lat s).logOrdinals = s.logOrdinals := by unfold writeG; split <;> rfl
@[simp] theorem writeG_clusters (d : GReg) (x : Dword) (lat : Nat) (s : State) : (writeG d x lat s).clusters = s.clusters := by unfold writeG; split <;> rfl
@[simp] theorem writeG_windows (d : GReg) (x : Dword) (lat : Nat) (s : State) : (writeG d x lat s).windows = s.windows := by unfold writeG; split <;> rfl
@[simp] theorem writeG_linkUp (d : GReg) (x : Dword) (lat : Nat) (s : State) : (writeG d x lat s).linkUp = s.linkUp := by unfold writeG; split <;> rfl
@[simp] theorem writeG_linkHeld (d : GReg) (x : Dword) (lat : Nat) (s : State) : (writeG d x lat s).linkHeld = s.linkHeld := by unfold writeG; split <;> rfl
@[simp] theorem writeG_linkDownAt (d : GReg) (x : Dword) (lat : Nat) (s : State) : (writeG d x lat s).linkDownAt = s.linkDownAt := by unfold writeG; split <;> rfl
@[simp] theorem writeG_spdm (d : GReg) (x : Dword) (lat : Nat) (s : State) : (writeG d x lat s).spdm = s.spdm := by unfold writeG; split <;> rfl
@[simp] theorem writeG_spdmReply (d : GReg) (x : Dword) (lat : Nat) (s : State) : (writeG d x lat s).spdmReply = s.spdmReply := by unfold writeG; split <;> rfl
@[simp] theorem writeG_ownerChain (d : GReg) (x : Dword) (lat : Nat) (s : State) : (writeG d x lat s).ownerChain = s.ownerChain := by unfold writeG; split <;> rfl
@[simp] theorem writeG_ideKeys (d : GReg) (x : Dword) (lat : Nat) (s : State) : (writeG d x lat s).ideKeys = s.ideKeys := by unfold writeG; split <;> rfl
@[simp] theorem writeG_ideLost (d : GReg) (x : Dword) (lat : Nat) (s : State) : (writeG d x lat s).ideLost = s.ideLost := by unfold writeG; split <;> rfl
@[simp] theorem writeG_rdy (d : GReg) (x : Dword) (lat : Nat) (s : State) : (writeG d x lat s).rdy = s.rdy := by unfold writeG; split <;> rfl
@[simp] theorem writeG_node (d : GReg) (x : Dword) (lat : Nat) (s : State) : (writeG d x lat s).node = s.node := by unfold writeG; split <;> rfl
@[simp] theorem writeG_groups (d : GReg) (x : Dword) (lat : Nat) (s : State) : (writeG d x lat s).groups = s.groups := by unfold writeG; split <;> rfl
@[simp] theorem writeG_ports (d : GReg) (x : Dword) (lat : Nat) (s : State) : (writeG d x lat s).ports = s.ports := by unfold writeG; split <;> rfl
@[simp] theorem writeG_lanesOut (d : GReg) (x : Dword) (lat : Nat) (s : State) : (writeG d x lat s).lanesOut = s.lanesOut := by unfold writeG; split <;> rfl
@[simp] theorem writeG_remotes (d : GReg) (x : Dword) (lat : Nat) (s : State) : (writeG d x lat s).remotes = s.remotes := by unfold writeG; split <;> rfl
@[simp] theorem writeG_queues (d : GReg) (x : Dword) (lat : Nat) (s : State) : (writeG d x lat s).queues = s.queues := by unfold writeG; split <;> rfl
@[simp] theorem writeG_lastQueue (d : GReg) (x : Dword) (lat : Nat) (s : State) : (writeG d x lat s).lastQueue = s.lastQueue := by unfold writeG; split <;> rfl
@[simp] theorem writeG_hostRuns (d : GReg) (x : Dword) (lat : Nat) (s : State) : (writeG d x lat s).hostRuns = s.hostRuns := by unfold writeG; split <;> rfl
@[simp] theorem writeG_held (d : GReg) (x : Dword) (lat : Nat) (s : State) : (writeG d x lat s).held = s.held := by unfold writeG; split <;> rfl
@[simp] theorem writeG_fetched (d : GReg) (x : Dword) (lat : Nat) (s : State) : (writeG d x lat s).fetched = s.fetched := by unfold writeG; split <;> rfl
@[simp] theorem writeG_hostEp (d : GReg) (x : Dword) (lat : Nat) (s : State) : (writeG d x lat s).hostEp = s.hostEp := by unfold writeG; split <;> rfl
@[simp] theorem writeG_ideDrops (d : GReg) (x : Dword) (lat : Nat) (s : State) : (writeG d x lat s).ideDrops = s.ideDrops := by unfold writeG; split <;> rfl
@[simp] theorem writeG_logPa (d : GReg) (x : Dword) (lat : Nat) (s : State) : (writeG d x lat s).logPa = s.logPa := by unfold writeG; split <;> rfl
@[simp] theorem writeG_msix (d : GReg) (x : Dword) (lat : Nat) (s : State) : (writeG d x lat s).msix = s.msix := by unfold writeG; split <;> rfl
@[simp] theorem writeG_mailbox (d : GReg) (x : Dword) (lat : Nat) (s : State) : (writeG d x lat s).mailbox = s.mailbox := by unfold writeG; split <;> rfl
@[simp] theorem writeG_mmioData (d : GReg) (x : Dword) (lat : Nat) (s : State) : (writeG d x lat s).mmioData = s.mmioData := by unfold writeG; split <;> rfl
@[simp] theorem writeG_events (d : GReg) (x : Dword) (lat : Nat) (s : State) : (writeG d x lat s).events = s.events := by unfold writeG; split <;> rfl
@[simp] theorem writeG_unread (d : GReg) (x : Dword) (lat : Nat) (s : State) : (writeG d x lat s).unread = s.unread := by unfold writeG; split <;> rfl
@[simp] theorem writeG_lostNext (d : GReg) (x : Dword) (lat : Nat) (s : State) : (writeG d x lat s).lostNext = s.lostNext := by unfold writeG; split <;> rfl
@[simp] theorem writeG_nextEvent (d : GReg) (x : Dword) (lat : Nat) (s : State) : (writeG d x lat s).nextEvent = s.nextEvent := by unfold writeG; split <;> rfl
@[simp] theorem writeG_recovery (d : GReg) (x : Dword) (lat : Nat) (s : State) : (writeG d x lat s).recovery = s.recovery := by unfold writeG; split <;> rfl
@[simp] theorem writeG_recoveryUnread (d : GReg) (x : Dword) (lat : Nat) (s : State) : (writeG d x lat s).recoveryUnread = s.recoveryUnread := by unfold writeG; split <;> rfl
@[simp] theorem writeG_errors (d : GReg) (x : Dword) (lat : Nat) (s : State) : (writeG d x lat s).errors = s.errors := by unfold writeG; split <;> rfl
@[simp] theorem writeG_nextError (d : GReg) (x : Dword) (lat : Nat) (s : State) : (writeG d x lat s).nextError = s.nextError := by unfold writeG; split <;> rfl
@[simp] theorem writeG_poisonSeen (d : GReg) (x : Dword) (lat : Nat) (s : State) : (writeG d x lat s).poisonSeen = s.poisonSeen := by unfold writeG; split <;> rfl
@[simp] theorem writeG_prefixes (d : GReg) (x : Dword) (lat : Nat) (s : State) : (writeG d x lat s).prefixes = s.prefixes := by unfold writeG; split <;> rfl
@[simp] theorem writeG_aht (d : GReg) (x : Dword) (lat : Nat) (s : State) : (writeG d x lat s).aht = s.aht := by unfold writeG; split <;> rfl
@[simp] theorem writeG_maps (d : GReg) (x : Dword) (lat : Nat) (s : State) : (writeG d x lat s).maps = s.maps := by unfold writeG; split <;> rfl
@[simp] theorem writeG_mapGens (d : GReg) (x : Dword) (lat : Nat) (s : State) : (writeG d x lat s).mapGens = s.mapGens := by unfold writeG; split <;> rfl
@[simp] theorem writeG_running (d : GReg) (x : Dword) (lat : Nat) (s : State) : (writeG d x lat s).running = s.running := by unfold writeG; split <;> rfl
@[simp] theorem writeG_colls (d : GReg) (x : Dword) (lat : Nat) (s : State) : (writeG d x lat s).colls = s.colls := by unfold writeG; split <;> rfl
@[simp] theorem writeG_meetHeard (d : GReg) (x : Dword) (lat : Nat) (s : State) : (writeG d x lat s).meetHeard = s.meetHeard := by unfold writeG; split <;> rfl
@[simp] theorem writeG_engWorld (d : GReg) (x : Dword) (lat : Nat) (s : State) : (writeG d x lat s).engWorld = s.engWorld := by unfold writeG; split <;> rfl
@[simp] theorem writeG_served (d : GReg) (x : Dword) (lat : Nat) (s : State) : (writeG d x lat s).served = s.served := by unfold writeG; split <;> rfl
@[simp] theorem writeG_scFences (d : GReg) (x : Dword) (lat : Nat) (s : State) : (writeG d x lat s).scFences = s.scFences := by unfold writeG; split <;> rfl
@[simp] theorem writeG_scVecs (d : GReg) (x : Dword) (lat : Nat) (s : State) : (writeG d x lat s).scVecs = s.scVecs := by unfold writeG; split <;> rfl
@[simp] theorem writeG_inputs (d : GReg) (x : Dword) (lat : Nat) (s : State) : (writeG d x lat s).inputs = s.inputs := by unfold writeG; split <;> rfl
@[simp] theorem writeG_ev (d : GReg) (x : Dword) (lat : Nat) (s : State) : (writeG d x lat s).ev = s.ev := by unfold writeG; split <;> rfl
@[simp] theorem writeG_fresh (d : GReg) (x : Dword) (lat : Nat) (s : State) : (writeG d x lat s).fresh = s.fresh := by unfold writeG; split <;> rfl
@[simp] theorem writeG_core_b (d : GReg) (x : Dword) (lat : Nat) (s : State) : (writeG d x lat s).core.b = s.core.b := by unfold writeG; split <;> rfl
@[simp] theorem writeG_core_e (d : GReg) (x : Dword) (lat : Nat) (s : State) : (writeG d x lat s).core.e = s.core.e := by unfold writeG; split <;> rfl
@[simp] theorem writeG_core_m (d : GReg) (x : Dword) (lat : Nat) (s : State) : (writeG d x lat s).core.m = s.core.m := by unfold writeG; split <;> rfl
@[simp] theorem writeG_core_v (d : GReg) (x : Dword) (lat : Nat) (s : State) : (writeG d x lat s).core.v = s.core.v := by unfold writeG; split <;> rfl
@[simp] theorem writeG_core_t (d : GReg) (x : Dword) (lat : Nat) (s : State) : (writeG d x lat s).core.t = s.core.t := by unfold writeG; split <;> rfl
@[simp] theorem writeG_core_a (d : GReg) (x : Dword) (lat : Nat) (s : State) : (writeG d x lat s).core.a = s.core.a := by unfold writeG; split <;> rfl
@[simp] theorem writeG_core_ah (d : GReg) (x : Dword) (lat : Nat) (s : State) : (writeG d x lat s).core.ah = s.core.ah := by unfold writeG; split <;> rfl
@[simp] theorem writeG_core_p (d : GReg) (x : Dword) (lat : Nat) (s : State) : (writeG d x lat s).core.p = s.core.p := by unfold writeG; split <;> rfl
@[simp] theorem writeG_core_q (d : GReg) (x : Dword) (lat : Nat) (s : State) : (writeG d x lat s).core.q = s.core.q := by unfold writeG; split <;> rfl
@[simp] theorem writeG_core_slotMem (d : GReg) (x : Dword) (lat : Nat) (s : State) : (writeG d x lat s).core.slotMem = s.core.slotMem := by unfold writeG; split <;> rfl
@[simp] theorem writeG_core_flags (d : GReg) (x : Dword) (lat : Nat) (s : State) : (writeG d x lat s).core.flags = s.core.flags := by unfold writeG; split <;> rfl
@[simp] theorem writeG_core_flagsPrev (d : GReg) (x : Dword) (lat : Nat) (s : State) : (writeG d x lat s).core.flagsPrev = s.core.flagsPrev := by unfold writeG; split <;> rfl
@[simp] theorem writeG_core_sp (d : GReg) (x : Dword) (lat : Nat) (s : State) : (writeG d x lat s).core.sp = s.core.sp := by unfold writeG; split <;> rfl
@[simp] theorem writeG_core_slots (d : GReg) (x : Dword) (lat : Nat) (s : State) : (writeG d x lat s).core.slots = s.core.slots := by unfold writeG; split <;> rfl
@[simp] theorem writeG_core_sys (d : GReg) (x : Dword) (lat : Nat) (s : State) : (writeG d x lat s).core.sys = s.core.sys := by unfold writeG; split <;> rfl
@[simp] theorem writeG_core_sEntry (d : GReg) (x : Dword) (lat : Nat) (s : State) : (writeG d x lat s).core.sEntry = s.core.sEntry := by unfold writeG; split <;> rfl
@[simp] theorem writeG_core_pc (d : GReg) (x : Dword) (lat : Nat) (s : State) : (writeG d x lat s).core.pc = s.core.pc := by unfold writeG; split <;> rfl
@[simp] theorem writeG_core_sReady (d : GReg) (x : Dword) (lat : Nat) (s : State) : (writeG d x lat s).core.sReady = s.core.sReady := by unfold writeG; split <;> rfl
@[simp] theorem writeG_core_xfer (d : GReg) (x : Dword) (lat : Nat) (s : State) : (writeG d x lat s).core.xfer = s.core.xfer := by unfold writeG; split <;> rfl
@[simp] theorem writeG_core_phase (d : GReg) (x : Dword) (lat : Nat) (s : State) : (writeG d x lat s).core.phase = s.core.phase := by unfold writeG; split <;> rfl
@[simp] theorem writeG_core_colL (d : GReg) (x : Dword) (lat : Nat) (s : State) : (writeG d x lat s).core.colL = s.core.colL := by unfold writeG; split <;> rfl
@[simp] theorem writeG_core_colC (d : GReg) (x : Dword) (lat : Nat) (s : State) : (writeG d x lat s).core.colC = s.core.colC := by unfold writeG; split <;> rfl
@[simp] theorem writeG_core_colW (d : GReg) (x : Dword) (lat : Nat) (s : State) : (writeG d x lat s).core.colW = s.core.colW := by unfold writeG; split <;> rfl
@[simp] theorem writeG_core_groups (d : GReg) (x : Dword) (lat : Nat) (s : State) : (writeG d x lat s).core.groups = s.core.groups := by unfold writeG; split <;> rfl
@[simp] theorem writeG_core_nextGrp (d : GReg) (x : Dword) (lat : Nat) (s : State) : (writeG d x lat s).core.nextGrp = s.core.nextGrp := by unfold writeG; split <;> rfl
@[simp] theorem writeG_core_openGrp (d : GReg) (x : Dword) (lat : Nat) (s : State) : (writeG d x lat s).core.openGrp = s.core.openGrp := by unfold writeG; split <;> rfl
@[simp] theorem writeG_core_fx (d : GReg) (x : Dword) (lat : Nat) (s : State) : (writeG d x lat s).core.fx = s.core.fx := by unfold writeG; split <;> rfl
@[simp] theorem writeG_core_hold (d : GReg) (x : Dword) (lat : Nat) (s : State) : (writeG d x lat s).core.hold = s.core.hold := by unfold writeG; split <;> rfl
@[simp] theorem writeG_core_cut (d : GReg) (x : Dword) (lat : Nat) (s : State) : (writeG d x lat s).core.cut = s.core.cut := by unfold writeG; split <;> rfl
@[simp] theorem writeG_core_cutPc (d : GReg) (x : Dword) (lat : Nat) (s : State) : (writeG d x lat s).core.cutPc = s.core.cutPc := by unfold writeG; split <;> rfl
@[simp] theorem writeG_core_deferred (d : GReg) (x : Dword) (lat : Nat) (s : State) : (writeG d x lat s).core.deferred = s.core.deferred := by unfold writeG; split <;> rfl
@[simp] theorem writeG_core_cutXfer (d : GReg) (x : Dword) (lat : Nat) (s : State) : (writeG d x lat s).core.cutXfer = s.core.cutXfer := by unfold writeG; split <;> rfl
@[simp] theorem writeG_core_cutPhase (d : GReg) (x : Dword) (lat : Nat) (s : State) : (writeG d x lat s).core.cutPhase = s.core.cutPhase := by unfold writeG; split <;> rfl
@[simp] theorem writeG_core_missed (d : GReg) (x : Dword) (lat : Nat) (s : State) : (writeG d x lat s).core.missed = s.core.missed := by unfold writeG; split <;> rfl
@[simp] theorem writeG_core_reissue (d : GReg) (x : Dword) (lat : Nat) (s : State) : (writeG d x lat s).core.reissue = s.core.reissue := by unfold writeG; split <;> rfl
@[simp] theorem writeG_core_timed (d : GReg) (x : Dword) (lat : Nat) (s : State) : (writeG d x lat s).core.timed = s.core.timed := by unfold writeG; split <;> rfl
@[simp] theorem writeG_core_nextInstr (d : GReg) (x : Dword) (lat : Nat) (s : State) : (writeG d x lat s).core.nextInstr = s.core.nextInstr := by unfold writeG; split <;> rfl
@[simp] theorem writeG_core_fenceMark (d : GReg) (x : Dword) (lat : Nat) (s : State) : (writeG d x lat s).core.fenceMark = s.core.fenceMark := by unfold writeG; split <;> rfl
@[simp] theorem writeG_core_relArmed (d : GReg) (x : Dword) (lat : Nat) (s : State) : (writeG d x lat s).core.relArmed = s.core.relArmed := by unfold writeG; split <;> rfl
@[simp] theorem writeG_core_acqMark (d : GReg) (x : Dword) (lat : Nat) (s : State) : (writeG d x lat s).core.acqMark = s.core.acqMark := by unfold writeG; split <;> rfl
@[simp] theorem writeG_core_recLines (d : GReg) (x : Dword) (lat : Nat) (s : State) : (writeG d x lat s).core.recLines = s.core.recLines := by unfold writeG; split <;> rfl
@[simp] theorem writeG_core_loads (d : GReg) (x : Dword) (lat : Nat) (s : State) : (writeG d x lat s).core.loads = s.core.loads := by unfold writeG; split <;> rfl
@[simp] theorem writeG_core_stores (d : GReg) (x : Dword) (lat : Nat) (s : State) : (writeG d x lat s).core.stores = s.core.stores := by unfold writeG; split <;> rfl
@[simp] theorem writeG_core_tlb (d : GReg) (x : Dword) (lat : Nat) (s : State) : (writeG d x lat s).core.tlb = s.core.tlb := by unfold writeG; split <;> rfl
@[simp] theorem writeG_core_readCache (d : GReg) (x : Dword) (lat : Nat) (s : State) : (writeG d x lat s).core.readCache = s.core.readCache := by unfold writeG; split <;> rfl
@[simp] theorem writeG_core_constCache (d : GReg) (x : Dword) (lat : Nat) (s : State) : (writeG d x lat s).core.constCache = s.core.constCache := by unfold writeG; split <;> rfl
@[simp] theorem writeG_core_units (d : GReg) (x : Dword) (lat : Nat) (s : State) : (writeG d x lat s).core.units = s.core.units := by unfold writeG; split <;> rfl
@[simp] theorem writeG_core_banks (d : GReg) (x : Dword) (lat : Nat) (s : State) : (writeG d x lat s).core.banks = s.core.banks := by unfold writeG; split <;> rfl
@[simp] theorem writeG_core_race (d : GReg) (x : Dword) (lat : Nat) (s : State) : (writeG d x lat s).core.race = s.core.race := by unfold writeG; split <;> rfl
@[simp] theorem writeG_core_engQ (d : GReg) (x : Dword) (lat : Nat) (s : State) : (writeG d x lat s).core.engQ = s.core.engQ := by unfold writeG; split <;> rfl
@[simp] theorem writeG_core_engSeq (d : GReg) (x : Dword) (lat : Nat) (s : State) : (writeG d x lat s).core.engSeq = s.core.engSeq := by unfold writeG; split <;> rfl
@[simp] theorem writeG_core_task (d : GReg) (x : Dword) (lat : Nat) (s : State) : (writeG d x lat s).core.task = s.core.task := by unfold writeG; split <;> rfl
@[simp] theorem writeG_core_lastWorld (d : GReg) (x : Dword) (lat : Nat) (s : State) : (writeG d x lat s).core.lastWorld = s.core.lastWorld := by unfold writeG; split <;> rfl
@[simp] theorem writeG_core_lastLaunch (d : GReg) (x : Dword) (lat : Nat) (s : State) : (writeG d x lat s).core.lastLaunch = s.core.lastLaunch := by unfold writeG; split <;> rfl
@[simp] theorem writeG_core_arrived (d : GReg) (x : Dword) (lat : Nat) (s : State) : (writeG d x lat s).core.arrived = s.core.arrived := by unfold writeG; split <;> rfl
@[simp] theorem writeG_core_dbgGang (d : GReg) (x : Dword) (lat : Nat) (s : State) : (writeG d x lat s).core.dbgGang = s.core.dbgGang := by unfold writeG; split <;> rfl
@[simp] theorem writeG_core_wdogSetLimit (d : GReg) (x : Dword) (lat : Nat) (s : State) : (writeG d x lat s).core.wdogSetLimit = s.core.wdogSetLimit := by unfold writeG; split <;> rfl
@[simp] theorem writeG_core_pinned (d : GReg) (x : Dword) (lat : Nat) (s : State) : (writeG d x lat s).core.pinned = s.core.pinned := by unfold writeG; split <;> rfl
@[simp] theorem writeG_core_unpins (d : GReg) (x : Dword) (lat : Nat) (s : State) : (writeG d x lat s).core.unpins = s.core.unpins := by unfold writeG; split <;> rfl
@[simp] theorem writeG_core_stopped (d : GReg) (x : Dword) (lat : Nat) (s : State) : (writeG d x lat s).core.stopped = s.core.stopped := by unfold writeG; split <;> rfl

@[simp] theorem cyc_writeG (d : GReg) (x : Dword) (lat : Nat) (s : State) : cyc (writeG d x lat s) = cyc s := by
  simp [cyc, cycOf, getIsland]

@[simp] theorem cyc_sNextAt (n : Nat) (s : State) : cyc (sNextAt n s) = cyc s := rfl

@[simp] theorem readG_sNextAt (n : Nat) (s : State) (r : GReg) : readG (sNextAt n s) r = readG s r := by simp [readG]

theorem readG_writeG_self (d : GReg) (x : Dword) (lat : Nat) (s : State) : readG (writeG d x lat s) d = if d = 0 then 0 else x := by
  by_cases h : d = 0
  · subst h; exact if_pos rfl
  · rw [if_neg h, writeG_eq h]; unfold readG; rw [if_neg h]; simp

theorem readG_writeG_ne {d r : GReg} (h : r ≠ d) (x : Dword) (lat : Nat) (s : State) : readG (writeG d x lat s) r = readG s r := by
  have hn : d.toNat ≠ r.toNat := fun e => h (BitVec.eq_of_toNat_eq e.symm)
  by_cases hd : d = 0
  · subst hd; rfl
  · rw [writeG_eq hd]; simp [readG, hn]

theorem gReady_writeG_self {d : GReg} (h : d ≠ 0) (x : Dword) (lat : Nat) (s : State) :
    (writeG d x lat s).core.gReady[d.toNat]'d.isLt = cyc s + lat := by
  simp only [writeG_eq h]; simp

theorem gReady_writeG_ne {d r : GReg} (h : r ≠ d) (x : Dword) (lat : Nat) (s : State) :
    (writeG d x lat s).core.gReady[r.toNat]'r.isLt = s.core.gReady[r.toNat]'r.isLt := by
  have hn : d.toNat ≠ r.toNat := fun e => h (BitVec.eq_of_toNat_eq e.symm)
  by_cases hd : d = 0
  · subst hd; rfl
  · simp only [writeG_eq hd]; simp [hn]

end Sys2Proof.Machine
end

