-- ==== Sys2Proof/Laws/Scalar.lean ====
section
/-! SUPPORT. What the shared forms of the S stream do, said once: the end of an instruction that writes a general register, and of one that writes a
core flag. -/

namespace Sys2Proof.Machine

theorem retires_sNextAt (n : Nat) (s : State) : Retires n s (sNextAt n s) :=
  ⟨rfl, by simp, fun h => ⟨by simp [nextPc_none h], by simp [nextXfer_none h]⟩⟩

theorem onlyScalars_writeG (d : GReg) (x : Dword) (lat n : Nat) (s : State) : OnlyScalars s (sNextAt n (writeG d x lat s)) := by
  by_cases hd : d = 0
  · subst hd; rw [show writeG (0 : GReg) x lat s = s from if_pos rfl, sNextAt_eq]; rfl
  · rw [writeG_eq hd, sNextAt_eq]; rfl

theorem sameMemory_of_mem {s t : State} (h : t.mem = s.mem) : SameMemory s t := fun a => by simp [byteAt, h]

/-- An instruction that ends by writing a general register and retiring. -/
theorem writesG_of_aluEnd {i : Instr} {s : State} {d : GReg} {x : Dword} {lat : Nat} (h : exec i s = aluEnd d x lat s) : WritesG i s d x lat := by
  refine ⟨sNext (writeG d x lat s), h, ?_, ?_, ?_, ?_, onlyScalars_writeG d x lat 1 s, sameMemory_of_mem (by simp)⟩
  · rw [sNext_eq_sNextAt, readG_sNextAt, readG_writeG_self]
  · intro hd; simp only [sNext_eq_sNextAt, sNextAt_core_gReady]; exact gReady_writeG_self hd x lat s
  · intro r hr
    simp only [sNext_eq_sNextAt, readG_sNextAt, sNextAt_core_gReady]
    exact ⟨readG_writeG_ne hr x lat s, gReady_writeG_ne hr x lat s⟩
  · have h := retires_sNextAt 1 (writeG d x lat s)
    simpa [Retires, nextPc, nextXfer] using h

/-- An instruction that retires with the effect `f`, which leaves the place of the S stream and the clock alone. -/
theorem completesWith_of_sNextAt {i : Instr} {s : State} {n : Nat} {f : State → State} (h : exec i s = .next (sNextAt n (f s)))
    (hx : (f s).core.xfer = s.core.xfer) (hp : (f s).core.pc = s.core.pc) (hc : cyc (f s) = cyc s) : CompletesWith i s n f := by
  refine ⟨_, h, ?_, by rw [sNextAt_eq]; rfl⟩
  simpa [Retires, nextPc, nextXfer, hx, hp, hc] using retires_sNextAt n (f s)

theorem waits_of_sBlock {i : Instr} {s : State} (h : exec i s = .next (sBlock s)) : Waits i s := ⟨_, h, rfl, rfl⟩

/-! ### Core flags (06_core R180, R183) -/

theorem getLsbD_two_pow {n j : Nat} (h : j < 4096) : (BitVec.ofNat 4096 (2 ^ n)).getLsbD j = decide (n = j) := by
  rw [BitVec.getLsbD_ofNat, Nat.testBit_two_pow]; simp [h]

theorem getLsbD_putBit (f : BitVec 4096) {n j : Nat} (b : Bool) (h : j < 4096) :
    (putBit f n b).getLsbD j = if j = n then b else f.getLsbD j := by
  have e := @getLsbD_two_pow n j h
  unfold putBit
  by_cases hj : j = n
  · subst hj; cases b
    · rw [if_neg (by decide), BitVec.getLsbD_and, BitVec.getLsbD_not, e]; simp
    · rw [if_pos rfl, BitVec.getLsbD_or, e]; simp
  · have hj' : ¬ n = j := fun x => hj x.symm
    cases b
    · rw [if_neg (by decide), BitVec.getLsbD_and, BitVec.getLsbD_not, e]; simp [hj, hj', h]
    · rw [if_pos rfl, BitVec.getLsbD_or, e]; simp [hj, hj']

theorem flagPut_eq (n : Nat) (b : Bool) (k : Core) :
    flagPut n b k = { k with flags := if flagWritable k n then putBit k.flags n b else k.flags } := by
  unfold flagPut; split <;> rfl

/-- An instruction that ends by writing a core flag. -/
theorem flagBecomes_of_flagPut {i : Instr} {s : State} {n : Nat} {b : Bool}
    (h : exec i s = .next (sNext (modCore (flagPut n b) s))) : FlagBecomes i s n b := by
  refine ⟨_, h, ?_, ?_, ?_, sameMemory_of_mem (by simp)⟩
  · have h := retires_sNextAt 1 (modCore (flagPut n b) s)
    simpa [Retires, nextPc, nextXfer, flagPut_eq] using h
  · intro j hj
    simp only [sNext_eq_sNextAt, sNextAt_core_flags, modCore_core, flagPut_eq]
    by_cases hw : flagWritable s.core n = true
    · simp [hw, getLsbD_putBit _ _ hj]
    · simp [hw]
  · rw [sNext_eq_sNextAt, sNextAt_eq, show flagPut n b = _ from funext (flagPut_eq n b)]; rfl

end Sys2Proof.Machine
end

