-- ==== Sys2Proof/Tests/Slice0.lean ====
section
/-! SUPPORT. Small tests: what is not well formed is refused, the words of the spec decode as it says, and the hypotheses of every statement can be met
together. The words and the expected results come from the encodings and the rules of spec/, not from the model. -/

namespace Sys2Proof.Tests

set_option Elab.async false

open Sys2Proof Sys2Proof.Machine

/-! ### Ill-formed instructions (11_isa_formats R332): one for each check -/

theorem test_refuses_all_zero : decode .s 0 = .error .allZero := by decide
theorem test_refuses_major : decode .s 0xFC000000 = .error .major ∧ decode (.col .colL) 0x80101C00 = .error .major := by decide
theorem test_refuses_field : decode .s 0x04304213 = .error .field := by decide
theorem test_refuses_condition : reject? (.cmp ⟨8, 1, 2, 5⟩) = some .condition ∧ reject? (.cmp ⟨7, 1, 2, 5⟩) = none := by decide
theorem test_refuses_mode : reject? (.xfer ⟨3, 1, 0⟩) = some .mode ∧ reject? (.xfer ⟨0, 1, 1⟩) = some .mode := by decide
theorem test_refuses_operation : reject? (.atom ⟨1, 2, 0, 9, 0, 0⟩) = some .operation ∧ reject? (.atom ⟨1, 2, 0, 8, 0, 0⟩) = none := by decide
theorem test_refuses_space : reject? (.st ⟨1, 2, 0, 3, 0⟩) = some .space := by decide
theorem test_refuses_scope : reject? (.fenceSc 3) = some .scope ∧ reject? (.fenceSc 0) = some .scope := by decide
theorem test_refuses_engine : reject? (.push ⟨2, 0, 0⟩) = some .engine := by decide
theorem test_refuses_push_base : reject? (.push ⟨1, 4, 0⟩) = some .pushBase := by decide
theorem test_refuses_strip : reject? (.strip ⟨0, 0, 1, 7, 0⟩) = some .strip ∧ reject? (.strip ⟨1, 0, 3, 7, 0⟩) = some .strip := by decide
theorem test_refuses_sys_reg : reject? (.mfs 4 0x046) = some .sysReg ∧ reject? (.mfs 4 0x045) = none := by decide
theorem test_refuses_selector : reject? (.colQput ⟨.colL, 0, 3, 0x4005⟩) = some .selector ∧ reject? (.colQput ⟨.colC, 0, 3, 0x4005⟩) = none := by decide
theorem test_refuses_tag : reject? (.vquant ⟨0, 6, 5, 0, 0, 9⟩) = some .tag := by decide
theorem test_refuses_shape : reject? (.vshape ⟨0, 1, 0, 11⟩) = none ∧ reject? (.vshape ⟨0, 1, 1, 11⟩) = some .shape := by decide
theorem test_refuses_sparsity : reject? (.mmas ⟨0, 0, 0, 2, 6, 3, 1, 0, 0⟩) = some .sparsity := by decide
theorem test_refuses_e_reg : reject? (.tld ⟨0, 8, 2, 0⟩) = some .eReg ∧ reject? (.tld ⟨0, 7, 2, 0⟩) = none := by decide
theorem test_refuses_range : reject? (.lgdrop ⟨1024, 0, 0⟩) = some .range ∧ reject? (.lgdrop ⟨1023, 0, 0⟩) = none := by decide

/-! ### Words as the spec prints them (11_isa_formats R329 to R343, and the program texts of 17 to 19), the major in the six bits on the left -/

theorem test_decodes_add : decode .s 0b00000100001100000100001000000000 = .ok (.add ⟨3, 1, 2⟩) := by decide
theorem test_decodes_divz : decode .s 0b00000100100100100100000100000110 = .ok (.divz ⟨9, 9, 1⟩) := by decide
theorem test_decodes_lui : decode .s 0b00100000011000010000000000000000 = .ok (.lui ⟨6, 0x10000⟩) := by decide
theorem test_decodes_addi : decode .s 0b00001000010000010011111111111111 = .ok (.addi ⟨4, 4, 0x3FFF⟩) := by decide
theorem test_decodes_shli : decode .s 0b00011000010100010100000000000011 = .ok (.shli ⟨5, 5, 3⟩) := by decide
theorem test_decodes_bxzi : decode .s 0b00110100001000000101000011001100 = .ok (.bxzi ⟨2, 1, 3, 12⟩) := by decide
theorem test_decodes_cmp : decode .s 0b01000000100000010000100000000101 = .ok (.cmp ⟨2, 1, 2, 5⟩) := by decide
theorem test_decodes_sel : decode .s 0b00111000001100000100001000001100 = .ok (.sel ⟨3, 1, 2, 12⟩) := by decide
theorem test_decodes_xfer : decode .s 0b01010001001000000000000000000011 = .ok (.xfer ⟨1, 1, 3⟩) := by decide
theorem test_decodes_fset : decode .s 0b01100000000000000000000001110000 = .ok (.fset 7) := by decide
theorem test_decodes_fwait : decode .s 0b01100000000100000000000001110101 = .ok (.fwait 1 7) := by decide
theorem test_decodes_strip : decode .s 0b11000101001000111000000000000000 = .ok (.strip ⟨1, 0, 1, 7, 0⟩) := by decide
theorem test_decodes_cwait : decode .s 0b11001000000000010100011000000000 = .ok (.cwait ⟨5, 6⟩) := by decide
theorem test_decodes_meet : decode .s 0b11010000000000000000000000100000 = .ok (.meet ⟨2, 0⟩) := by decide
theorem test_decodes_mfs : decode .s 0b11110000010000000000000000010010 = .ok (.mfs 4 0x012) := by decide
theorem test_decodes_mts : decode .s 0b11110100000000010000000001010000 = .ok (.mts 4 0x050) := by decide
theorem test_decodes_vadd : decode (.col .colC) 0b00000100000001100001000100100000 = .ok (.vadd ⟨0, 3, 1, 2, 2⟩) := by decide
theorem test_decodes_vsel : decode (.col .colC) 0b00011100000001100001000100010000 = .ok (.vsel ⟨0, 3, 1, 2, 1⟩) := by decide
theorem test_decodes_vany : decode (.col .colC) 0b00100100000000001001000000010000 = .ok (.vany ⟨0, 9, 1⟩) := by decide
theorem test_decodes_vquant : decode (.col .colC) 0b00110000000011000101000000000111 = .ok (.vquant ⟨0, 6, 5, 0, 0, 7⟩) := by decide
theorem test_decodes_vdeq : decode (.col .colC) 0b00110100000011100110000000000001 = .ok (.vdeq ⟨0, 7, 6, 0, 1⟩) := by decide
theorem test_decodes_mrange : decode (.col .colC) 0b00111100000000100001000000000100 = .ok (.mrange ⟨0, 1, 1, 0⟩) := by decide
theorem test_decodes_mma : decode (.col .colC) 0b10000000000100000001110000000000 = .ok (.mma ⟨0, 1, 0, 1, 1, 1, 0⟩) := by decide
theorem test_decodes_mmas : decode (.col .colC) 0b10000100000000000010011001100000 = .ok (.mmas ⟨0, 0, 0, 2, 6, 1, 1, 0, 0⟩) := by decide
theorem test_decodes_mmag : decode (.col .colC) 0b10001000001001001010100000011000 = .ok (.mmag ⟨0, 2, 9, 5, 0, 0, 0, 12⟩) := by decide
theorem test_decodes_madh : decode (.col .colC) 0b10100100000100100000000000000011 = .ok (.madh ⟨0, 1, 4, 1, 1⟩) := by decide
theorem test_decodes_smxstep : decode (.col .colC) 0b10010000000001000010001001101000 = .ok (.smxstep ⟨0, 0, 8, 4, 9, 1, 2, 0⟩) := by decide
theorem test_decodes_smxfin : decode (.col .colC) 0b10010100000001010000000000000000 = .ok (.smxfin ⟨0, 0, 10⟩) := by decide
theorem test_decodes_col_qget : decode (.col .colC) 0b11110000001000100100000000000101 = .ok (.colQget ⟨.colC, 0, 2, 0x4005⟩) := by decide
theorem test_decodes_col_fwait : decode (.col .colC) 0b11110100001010000000000000000111 = .ok (.colFwait ⟨.colC, 0, 1, 7⟩) := by decide
theorem test_decodes_ldt : decode (.col .colL) 0b00000100000001000001100000010000 = .ok (.ldt ⟨0, 1, 3, 0, 0, 1⟩) := by decide
theorem test_decodes_tld : decode (.col .colL) 0b00001100000010001010000000000000 = .ok (.tld ⟨0, 2, 2, 1⟩) := by decide
theorem test_decodes_vld : decode (.col .colL) 0b00010000000011001000010100000000 = .ok (.vld ⟨0, 3, 4, 1, 1, 0⟩) := by decide
theorem test_decodes_gld : decode (.col .colL) 0b00010100000011001000100100101000 = .ok (.gld ⟨0, 3, 4, 9, 1, 1⟩) := by decide
theorem test_decodes_bfx : decode (.col .colL) 0b00011000000000001100100000000000 = .ok (.bfx ⟨0, 0, 6, 2, 0⟩) := by decide
theorem test_decodes_eadd : decode (.col .colL) 0b00011100000001001000000000000001 = .ok (.eadd ⟨.colL, 0, 1, 2, 1⟩) := by decide
theorem test_decodes_emov : decode (.col .colL) 0b00011100000010100000010000000000 = .ok (.emov ⟨.colL, 0, 2, 0, 1⟩) := by decide
theorem test_decodes_kvx : decode (.col .colL) 0b00100000000101001100000000000000 = .ok (.kvx ⟨0, 5, 3⟩) := by decide
theorem test_decodes_wld : decode (.col .colL) 0b00100100000110000100100010000000 = .ok (.wld ⟨0, 6, 9, 0, 1⟩) := by decide
theorem test_decodes_stt : decode (.col .colW) 0b00000100001001000001100100010000 = .ok (.stt ⟨0, 9, 3, 1, 0, 1⟩) := by decide
theorem test_decodes_vst : decode (.col .colW) 0b00010000001000000110000100000000 = .ok (.vst ⟨0, 8, 3, 0, 1⟩) := by decide
theorem test_decodes_sct : decode (.col .colW) 0b00010100001100000100011101100000 = .ok (.sct ⟨0, 12, 2, 7, 3, 0⟩) := by decide
theorem test_decodes_twr : decode (.col .colW) 0b00001100001011010000000000000000 = .ok (.twr ⟨0, 11, 4⟩) := by decide
theorem test_decodes_acst : decode (.col .colW) 0b00011000001010010010000000000000 = .ok (.acst ⟨0, 10, 1, 2⟩) := by decide

/-! ### Records: the opcode and the command code name the instruction (04_host_interface R119, 16_isa_engines R443 to R456) -/

/-- A host command of the admin queue whose record holds bytes at offsets. -/
def hostRecord (queue : Nat) (l : List (Nat × Nat)) : HostCmd := { queue := queue, bits := BitVec.ofNat 512 ((l.map fun x => x.2 * 256 ^ x.1).sum) }

/-- An engine command of core 0 whose record holds numbers at byte offsets. -/
def command (l : List (Nat × Nat)) : Cmd := { core := 0, seq := 7, bits := BitVec.ofNat 512 ((l.map fun x => x.2 * 256 ^ x.1).sum) }

theorem test_host_opcodes :
    adminInstr (hostRecord 256 [(0, 0x01)]) = some (.partCreate (hostRecord 256 [(0, 0x01)]))
    ∧ adminInstr (hostRecord 256 [(0, 0x0A), (26, 1)]) = some (.worldBind (hostRecord 256 [(0, 0x0A), (26, 1)]))
    ∧ adminInstr (hostRecord 256 [(0, 0x0A)]) = some (.worldUnbind (hostRecord 256 [(0, 0x0A)])) ∧ adminInstr (hostRecord 256 [(0, 0x05)]) = none
    ∧ queueInstr (hostRecord 0 [(0, 0x03)]) = some (.copyD2h (hostRecord 0 [(0, 0x03)]))
    ∧ mailboxInstr false (hostRecord 257 [(0, 0x30)]) = some (.qreset (hostRecord 257 [(0, 0x30)]))
    ∧ mailboxInstr true (hostRecord 257 [(0, 0x30)]) = none := by decide +kernel

theorem test_engine_codes :
    (commandOf 0x11 (command [(0, 0x1B)])).map (·.1) = some (.lgdrop (command [(0, 0x1B)]))
    ∧ (commandOf 0x12 (command [(0, 0x22), (16, 4)])).map (·.1) = some (.adpubDelete (command [(0, 0x22), (16, 4)]))
    ∧ (commandOf 0x13 (command [(0, 0x2A), (18, 2)])).map (·.1) = some (.kextendSetlen (command [(0, 0x2A), (18, 2)]))
    ∧ (commandOf 0x15 (command [(0, 0x3A)])).map (·.1) = some (.colscat (command [(0, 0x3A)]))
    ∧ (commandOf 0x10 (command [(0, 0x11)])).isNone = true := by decide +kernel

/-! ### The hypotheses of the statements can be met: the machine, the S stream -/

/-- A booted package, and changes of its core in focus. -/
def base : State := { State.reset with phase := .booted }
def withG (r : GReg) (x : Dword) (s : State) : State := modCore (fun k => { k with g := k.g.setIfInBounds r.toNat x }) s
def withFlags (f : BitVec 4096) (s : State) : State := modCore (fun k => { k with flags := f, flagsPrev := f }) s
def withSys (f : SysRegs → SysRegs) (s : State) : State := modCore (fun k => { k with sys := f k.sys }) s
/-- Core 0 at cycle `c` of its island. -/
def atCycle (c : Cycle) (s : State) : State := setIsland s 0 { getIsland s 0 with cycles := c }
/-- An instruction placed where the next step fetches. -/
def placedAt (w : Nat) : State := State.reset.withFetchWord 32 w

/-- A task of launch 1 of partition 0, with a 256-byte launch record made of (byte offset, number) pairs. -/
def launchOf (l : List (Nat × Nat)) : Launch := Launch.accept 1 (BitVec.ofNat 2048 ((l.map fun x => x.2 * 256 ^ x.1).sum)) []
def withTask (l : Launch) (s : State) : State :=
  modCore (fun k => { k with task := some placedTask }) (modPart s 0 fun p => { p with present := true, islands := 1, launches := [l] })

/-- An answer, where there is one. -/
def holds {α ε : Type} (x : Except ε α) (f : α → Bool) : Bool :=
  match x with
  | .ok a => f a
  | .error _ => false

theorem test_witness_memory_canonical : Canonical base ∧ ∃ t, step base = .next t := ⟨by unfold Canonical; decide, _, rfl⟩

theorem test_witness_decode : streamOf (.add ⟨63, 63, 63⟩) = some .s ∧ reject? (.add ⟨63, 63, 63⟩) = none
    ∧ streamOf (.acst ⟨15, 15, 3, 12⟩) = some (.col .colW) ∧ reject? (.acst ⟨15, 15, 3, 12⟩) = none
    ∧ decode (.col .colW) 0x18292000 = .ok (.acst ⟨0, 10, 1, 2⟩) := by decide

/-- An S instruction and a column word stand where a step takes them up. -/
theorem test_witness_step_runs :
    (let s := placedAt 0x04304200
     s.phase = .booted ∧ inputAct s = none ∧ packageAct s = none ∧ coreAct s = none ∧ mailboxAct s = none ∧ fetchAct s = none
      ∧ (coreNos s).find? (scalarReady s) = some 0 ∧ holds (fetchWord (focus s 0) (focus s 0).core.pc) (fun w => w = 0x04304200) = true)
    ∧ (let s := placedAt 0x300C5007
       inputAct s = none ∧ packageAct s = none ∧ coreAct s = none ∧ mailboxAct s = none ∧ fetchAct s = none
        ∧ (coreNos s).find? (scalarReady s) = none ∧ engineAct s = none ∧ trapAct s = none ∧ columnChoice s 0 = some (.colC, 0x300C5007)) := by
  refine ⟨⟨rfl, rfl, rfl, rfl, rfl, rfl, rfl, rfl⟩, rfl, rfl, rfl, rfl, rfl, rfl, rfl, rfl, rfl⟩

theorem test_witness_powered : Powered State.reset ∧ ¬ Powered { State.reset with phase := .off } := by
  constructor
  · exact .inl (by decide)
  · rintro (h | h) <;> revert h <;> decide

theorem test_witness_arithmetic : (readG base 1 = 0) ∧ (readG (withG 1 0x8000000000000000 base) 1).getLsbD 63 = true
    ∧ (∀ i, i < 63 → (readG (withG 1 0x8000000000000000 base) 1).getLsbD i = false) := by decide +kernel

/-- o + w is 64, and 65. -/
theorem test_witness_bit_fields : (60 : BitVec 6).toNat + ((3 : BitVec 6).toNat + 1) ≤ 64 ∧ 64 < (60 : BitVec 6).toNat + ((4 : BitVec 6).toNat + 1) := by decide

theorem test_witness_compare : reject? (.cmp ⟨7, 1, 2, 1023⟩) = none ∧ reject? (.cmpi ⟨0, 1, 0, 0⟩) = none := by decide

theorem test_witness_targets : (readG (withG 1 8 base) 1).toNat % 4 = 0 ∧ (readG (withG 1 6 base) 1).toNat % 4 ≠ 0 := by decide +kernel

theorem test_witness_transfers : reject? (.xfer ⟨2, 7, 1023⟩) = none ∧ base.core.xfer = none
    ∧ (modCore (fun k => { k with xfer := some { left := 1, taken := true, target := 8 } }) base).core.xfer = some { left := 1, taken := true, target := 8 } := by
  decide +kernel

theorem test_witness_flags : (∀ v : BitVec 1, flagSeen (withFlags (if v = 1 then 1 else 0) base).core 0 = decide (v = 1))
    ∧ flagSeen base.core 4095 = false ∧ flagSeen (withFlags (BitVec.allOnes 4096) base).core 4095 = true
    ∧ clusterFlagSeen base 4095 = decide ((0 : BitVec 1) = 1) ∧ clusterFlagSeen base 4095 ≠ decide ((1 : BitVec 1) = 1)
    ∧ flagBit (getCluster base 0).flags 4095 = false
    ∧ (let s := putCluster base { getCluster base 0 with flags := BitVec.allOnes 4096, seen := BitVec.allOnes 4096 }
       clusterFlagSeen s 4095 = true ∧ flagBit (clusterBefore (getCluster s 0) (cyc s)) 4095 = true ∧ flagBit (getCluster s 0).flags 4095 = true) := by decide +kernel

/-- A queue with `n` entries, the first of which is `e`. -/
def withQ (n : Nat) (e : QEntry) (s : State) : State := writeQ 3 { entries := List.replicate n e, freedAt := 0, freedN := 0 } s
def entry (token poison : Bool) : QEntry := { payload := 5, token := token, poison := poison, stamp := 0 }

theorem test_witness_queues :
    (let s := atCycle 1 (withQ 15 (entry true false) base)
     let x := readQ s 3
     x.entries.length + (if x.freedAt = cyc s then x.freedN else 0) < 16 ∧ x.entries.filter (fun e => e.stamp < cyc s) = entry true false :: List.replicate 14 (entry true false))
    ∧ (let s := atCycle 1 (withQ 16 (entry false true) base)
       ¬ (readQ s 3).entries.length < 16 ∧ (entry false true).poison = true ∧ (readQ s 3).entries.filter (fun e => e.stamp < cyc s) ≠ [])
    ∧ (readQ base 3).entries.filter (fun e => e.stamp < cyc base) = [] := by decide +kernel

theorem test_witness_slot_memory : (readG (withG 1 4095 base) 1 + BitVec.ofInt 64 0).toNat ≤ 4095 ∧ 4095 < (readG (withG 1 4095 base) 1 + BitVec.ofInt 64 1).toNat := by
  decide +kernel

theorem test_witness_ring :
    (let s := withSys (fun y => { y with ringLen := 16 }) base
     15 < s.core.sys.ringLen.toNat ∧ ringWord s.core.flagsPrev 15 % 256 = 0 ∧ ringWord s.core.flagsPrev 15 % 256 ≠ (readG (withG 2 1 s) 2).toNat % 256)
    ∧ base.core.sys.ringLen.toNat ≤ 0 := by decide +kernel

theorem test_witness_system_registers : (0x062 : BitVec 12).toNat ∈ sysRegNumbers ∧ (0x000 : BitVec 12).toNat ∈ sysRegNumbers ∧ (0x064 : BitVec 12).toNat ∈ sysRegNumbers
    ∧ (0x064 : BitVec 12) ∉ [0x041, 0x044, 0x050, 0x051, 0x052, 0x060, 0x062, (0x063 : BitVec 12)] := by decide

/-! ### The S stream: traps, tasks, memory -/

/-- A page of HBM at 0x100000 in the space of world 0, which may be written, held by the core's translation buffer; bytes at offsets in it. -/
def page : Pte := { world := 0, va := 0x100000, pages := 1, pa := 0x10000, write := true, exec := false, keySlot := 0 }
def withPage (bytes : List (Nat × Byte)) (s : State) : State :=
  bytes.foldl (fun s x => putLine s (0x10000 + x.1 / 64 * 64) [(x.1 % 64, x.2)] 0 neutral false 0)
    (modCore (fun k => { k with tlb := [page] }) { s with ptes := [page], pages := [(0x10000, 0, 0)] })

/-- A launch of one level of one task with a barrier, and one without; with a context save area or without. -/
def oneTask (barrier save : Nat) : Launch := launchOf [(0, 1), (4, 1), (0x38, save), (0x40, barrier * 16 + 256)]

theorem test_witness_trap_entry :
    (let s := withSys (fun y => { y with trapVec := 0x2001, trapCut := 0x100000 }) (withTask (oneTask 0 0x100000) (withPage [] base))
     let tr : Trap := { cause := .trapInstr 3 }
     tr.slot = none ∧ inHandler s = false ∧ (taskLaunch s).map launchSave = some 0x100000 ∧ causeDest tr.cause = .user ∧ s.core.sys.trapVec.getLsbD 0 = true
      ∧ (writeRecord tr false (modCore (fun k => { k with reissue := [] }) (takeCut s))).isSome = true ∧ tr.source < 4)
    ∧ ((taskLaunch (withTask (oneTask 0 0) base)).map launchSave = some 0) := by decide +kernel

theorem test_witness_break : base.core.sys.dbgEn = false ∧ (withSys (fun y => { y with dbgEn := true }) base).core.sys.dbgEn = true ∧ debugClosed base = false := by
  decide +kernel

/-- In a handler, with resume action 0, and 2, in the trap record. -/
def handling (action : Byte) : State :=
  withSys (fun y => { y with trapCause := 0x4000000, trapCut := 0x100000 - 0x100 }) (withPage [(0x18, action)] base)

theorem test_witness_return : inHandler base = false ∧ inHandler (handling 0) = true ∧ (handling 0).core.xfer = none ∧ resumeAction (handling 0) = some 0
    ∧ resumeAction (handling 2) = some 2 ∧ (handling 2).running = [] := by decide +kernel

/-- A timed transfer on its way. -/
def transfer (write : Bool) : Timed :=
  { isWrite := write, instr := 0, channel := 0, start := 0, late := false, pa := 0x10000, va := 0x100000, page := page, slot := 0, off := 0, base := 0, total := 1,
    tagged := none, issued := 0, last := true, isVoid := false, voided := false, faulty := false, data := 0, sample := none, sides := [], stamp := 0, world := 0, word := 0 }

theorem test_witness_exit : base.core.phase = 0 ∧ columnsDone base.core = true ∧ enginesDone base = true ∧ drained base.core true true = true
    ∧ columnsDone (placedAt 0x300C5007).core = false
    ∧ enginesDone (modCore (fun k => { k with engQ := k.engQ.setIfInBounds 9 [{ seq := 0, bits := 0, stamp := 0, pushed := 0, mark := 0, accepted := none, anchor := none, parked := false }] }) base) = false
    ∧ drained (modCore (fun k => { k with timed := [transfer true], fenceMark := 1 }) base).core true true = false
    ∧ (withTask (oneTask 0 0) base).core.task = some placedTask := by decide +kernel

/-- A gang of launch 1 that waits for cluster 0. -/
def waitingGang : Gang :=
  { id := 9, part := 0, launch := 1, idx := 1, tasks := [1], cls := 0, dcls := 0, enq := 0, since := 0, st := .queued, cluster := 0, isWide := false, started := none, front := false }

theorem test_witness_yield :
    (let s := withTask (oneTask 0 0) base
     (taskLaunch s).isSome = true ∧ inHandler s = false ∧ yieldTo s (clusterOf s.coreId) (launchClass (oneTask 0 0)) = false
      ∧ yieldTo { s with gangs := [waitingGang] } (clusterOf s.coreId) (launchClass (oneTask 0 0)) = true)
    ∧ inHandler (withSys (fun y => { y with trapCause := 0x4000000 }) (withTask (oneTask 0 0) base)) = true := by decide +kernel

/-- A record at g[a] that is a valid launch of one task, one that is not, and a full pool. -/
def launching (first : Byte) : State :=
  withG 5 0x100000 (withTask (oneTask 0 0) (withPage [(0, first), (1, 0), (2, 0), (3, 0), (4, 1), (0x41, 1)] base))

theorem test_witness_launch :
    (let s := launching 1
     let spans := xlateSpan s s.core.sys.world 0x100000 256 false
     (readG s 5).toNat % 256 = 0 ∧ holds spans (fun l => l.length = 4) = true ∧ recordHeld s spans = false ∧ recordMissing s spans = none ∧ tlbHolds s.core s.core.sys.world 0x100000 = true
      ∧ holds (readRecord s spans) (fun b => validLaunch s 0 (BitVec.ofNat 2048 (leNat b))
          && launchWorld (Launch.accept 0 (BitVec.ofNat 2048 (leNat b)) []) = s.core.sys.world && launchClass (Launch.accept 0 (BitVec.ofNat 2048 (leNat b)) []) = 0) = true
      ∧ poolFull s 0 = false ∧ s.core.loads = [] ∧ s.core.stores = [] ∧ s.core.timed = [])
    ∧ (let s := launching 2
       holds (readRecord s (xlateSpan s s.core.sys.world 0x100000 256 false)) (fun b => !validLaunch s 0 (BitVec.ofNat 2048 (leNat b))) = true)
    ∧ poolFull (modPart (launching 1) 0 fun p => { p with launches := List.replicate 4096 (oneTask 0 0) }) 0 = true := by decide +kernel

/-- An arrival of the placed task at level 0. -/
def arrivalAt (complete : Bool) : Arrival :=
  { part := 0, launch := 1, task := 0, level := 0, vec := [], rebase := [], seqs := [], ready := 0, ckpt := false, complete := complete, viewLost := false }

theorem test_witness_meet :
    (let s := withTask (oneTask 1 0) base
     (taskLaunch s).map (fun l => (launchLevels l, levelBarrier l 0)) = some (1, 1) ∧ inHandler s = false ∧ s.core.phase = 0
      ∧ arrivalOf s placedTask 0 = none ∧ takesCkpt s placedTask (oneTask 1 0) 0 0 = false
      ∧ arrivalOf { s with arrivals := [arrivalAt true] } placedTask 0 = some (arrivalAt true)
      ∧ arrivalOf { s with arrivals := [arrivalAt false] } placedTask 0 = some (arrivalAt false))
    ∧ levelBarrier (oneTask 0 0) 0 = 0 ∧ launchLevels (oneTask 1 0) ≤ 1 := by decide +kernel

/-- g8 to g15 hold a COPY2D record: code, engine flags, object, source, destination, length, rows, tag bits. -/
def pushing (object dst flags : Nat) : State :=
  let bits := 1 + object * 256 ^ 8 + dst * 256 ^ 24 + 4096 * 256 ^ 32 + 256 ^ 36 + flags * 256 ^ 52
  (List.range 8).foldl (fun s i => withG (BitVec.ofNat 6 (8 + i)) (BitVec.ofNat 64 (bits / 2 ^ (64 * i))) s) base

theorem test_witness_push : reject? (.push ⟨0, 8, 3⟩) = none ∧ cmdWorld (pushRecord (pushing 0 0 0) 8) = base.core.sys.world
    ∧ cmdObject (pushRecord (pushing 0 0 0) 8) % 16 = 0 ∧ cmdObject (pushRecord (pushing 8 0 0) 8) % 16 ≠ 0
    ∧ taggedSpan (pushing 0 0 0) 0 (pushRecord (pushing 0 0 0) 8) = none
    ∧ (taggedSpan (pushing 0 0 1) 0 (pushRecord (pushing 0 0 1) 8)).map inOneSlot = some true
    ∧ (taggedSpan (pushing 0 64 1) 0 (pushRecord (pushing 0 64 1) 8)).map inOneSlot = some false
    ∧ coreQueueLoad [] < coreQueueSize 0 ∧ cmdWorld (pushRecord (pushing 0 0 0) 8) ≠ (withSys (fun y => { y with world := 1 }) base).core.sys.world := by
  decide +kernel

/-- A strip header at the entry address of column L, and a count. -/
def stripping (count : Dword) : State :=
  withG 7 count (withTask (oneTask 0 0) (modCore (fun k => { k with colL := { k.colL with entry := 0x100000 } })
    (let s := withPage [(0, 0x01), (1, 0x00), (2, 0x7A), (3, 0xC5)] base
     { s with ptes := [{ page with write := false, exec := true }] })))

theorem test_witness_strip : reject? (.strip ⟨1, 1, 2, 7, 0⟩) = none ∧ (readG (stripping 65535) 7).toNat ≤ 65535 ∧ 65535 < (readG (stripping 65536) 7).toNat
    ∧ holds (fetchWord (stripping 1) 0x100000) (fun w => w.toNat / 65536 = 0xC57A ∧ w.toNat / 4096 % 16 = 0) = true
    ∧ (getCol (stripping 1).core (colOfCode 1)).queue.length < 4 ∧ openGroup (stripping 1).core = none ∧ (readG (stripping 0) 7).toNat = 0 := by decide +kernel

theorem test_witness_cwait :
    (let s := withG 5 0x100008 (withPage [(8, 5)] base)
     s.core.phase ≠ 3 ∧ (readG s 5).toNat % 8 = 0
      ∧ holds (xlate s s.core.sys.world 0x100008 false false) (fun x => x.2 = 0x10008 && !isRemote s x.2 && !accessWaits s s.coreId x.2 && holds (readObject s x.1 x.2 0x100008 8) (fun b => leNat b = 5)) = true
      ∧ tlbHolds s.core s.core.sys.world 0x100008 = true ∧ (5 + 2 ^ 64 - 5) % 2 ^ 64 < 2 ^ 63 ∧ ¬ (5 + 2 ^ 64 - 6) % 2 ^ 64 < 2 ^ 63) := by decide +kernel

/-- Addresses at the ends of the ranges of space sp, aligned and not. -/
theorem test_witness_addresses :
    memAddr (withG 1 0x7FFF8 base) 1 3 0 = 0x7FFF8 ∧ 0x7FFF8 % 2 ^ 3 = 0 ∧ memAddr (withG 1 0x7FFF4 base) 1 3 0 % 2 ^ 3 ≠ 0
    ∧ spPoison (localView 0 base.core) 0x7FFF8 = false ∧ spPoison (localView 0 (putSpPoison 0x7FFC0 true base.core)) 0x7FFF8 = true
    ∧ memAddr (withG 1 0x801FF base) 1 0 0 < 0x80200 ∧ memAddr (withG 1 0x80800 base) 1 0 0 = 0x80800 ∧ memAddr (withG 1 0x813FC base) 1 2 0 = 0x813FC
    ∧ bankOk base = true ∧ bankOk (putCluster base { getCluster base 0 with world := some 5 }) = false
    ∧ bankOwned (withTask (oneTask 0 0) base) 15 = true ∧ bankOwned (withTask (oneTask 0 0) base) 16 = false
    ∧ (lineAt base (weightPa base 0xFFFFFF8) 0).poison = false := by decide +kernel

theorem test_witness_global :
    (let s := withG 5 0x10FFF8 (withPage [] base)
     let va := memAddr s 5 3 0
     va = 0x10FFF8 ∧ va % 2 ^ 3 = 0 ∧ s.core.phase ≠ 3
      ∧ holds (xlate s s.core.sys.world va false false) (fun x => !isRemote s x.2 && !ownPending s.core x.2 && s.migrations.all (fun m => m.src ≠ pageOf (lineOf x.2))) = true
      ∧ holds (xlate s s.core.sys.world va true false) (fun x => !ownPending s.core x.2) = true
      ∧ tlbHolds s.core s.core.sys.world va = true ∧ holds (readHome s (taskAgent s) va 8).2 (fun b => b.length = 8) = true ∧ (readHome s (taskAgent s) va 8).1 = s
      ∧ cacheGet s.core.readCache va = none
      ∧ holds (writeHome s (taskAgent s) va (leBytes 8 0) (some (coreStamp s s.coreId)) false s.core.task) (fun _ => true) = true) := by
  refine ⟨?_, ?_, ?_, ?_, ?_, ?_, ?_, rfl, ?_, ?_⟩ <;> decide +kernel

theorem test_witness_cached :
    (let c : CacheLine := { va := 0x100000, data := 5, side := none }
     let s := modCore (fun k => { k with readCache := [c] }) (withG 5 0x100000 (withPage [] base))
     cacheGet s.core.readCache 0x100000 = some c ∧ cachedFail s page 0x10000 0x100000 c = none) := by decide +kernel

theorem test_witness_atomics :
    (let s := withG 5 0x100038 (withPage [(0x38, 9)] base)
     reject? (.atom ⟨1, 5, 1, 8, 0, 0⟩) = none ∧ (readG s 5).toNat % 8 = 0 ∧ 0x100000 ≤ (readG s 5).toNat
      ∧ holds (xlate s s.core.sys.world 0x100038 true false) (fun x => x.1 = page && x.2 = 0x10038) = true
      ∧ holds (xlate s s.core.sys.world 0x100038 false false) (fun x => x.1 = page && x.2 = 0x10038 && !isRemote s x.2) = true
      ∧ worldReads s s.core.sys.world page (lineAt s 0x10038 0) = true ∧ worldWrites s s.core.sys.world page (lineAt s 0x10038 0) = true
      ∧ (lineAt s 0x10038 0).poison = false ∧ (atomResult 8 8 9 (2 ^ 64 - 1) 0) = some (2 ^ 64 - 1)) := by decide +kernel

theorem test_witness_aggregation :
    (let s := withG 5 0x813FC base
     s.core.phase ≠ 3 ∧ (readG s 5).toNat % 4 = 0 ∧ (readG s 5).toNat < 0x81400 ∧ bankOk s = true ∧ s.windows = [])
    ∧ (let s := withG 6 255 (withG 5 0x100000 (withPage [] base))
       (readG s 6).toNat % 256 + ((0 : BitVec 8).toNat + 1) ≤ 256
        ∧ holds (xlateSpan s s.core.sys.world 0x100000 4 true) (fun l => l.all fun x => tlbHolds s.core s.core.sys.world x.1 && !ownPending s.core x.2.2.2.2) = true
        ∧ holds (writeHome (takeBank s) (taskAgent (takeBank s)) 0x100000 [0, 0, 0, 0] (some (coreStamp (takeBank s) s.coreId)) false s.core.task) (fun _ => true) = true) := by
  decide +kernel

theorem test_witness_fences : drained (markFence base).core true false = true ∧ drained (markFence base).core true true = true ∧ base.scFences = []
    ∧ (modCore (fun k => { k with phase := 2 }) base).core.phase = 2
    ∧ drained (markFence (modCore (fun k => { k with timed := [transfer false], nextInstr := 1 }) base)).core true false = false := by decide +kernel

/-- The placed task with a checkpoint of ordinal 5, rolled back twice, irrevocable, and one log entry. -/
def savedPoint : Ckpt :=
  { part := 0, launch := 1, idx := 0, size := 1, ord := 5, rolls := 2, irrev := true, contexts := [], arrivals := [],
    log := [(0, 0x10000, none, 0)], later := [], pins := [], seqs := [], maps := [] }
def checkpointed : State := { withTask (oneTask 0 0) base with ckpts := [savedPoint] }

/-- The layout of CKPT_STAT is that of 10_traps R318. -/
theorem test_checkpoint_status : mfsValue checkpointed 0x045 = 0x500050001 := by decide +kernel

theorem test_witness_register_reads :
    checkpointed.core.task = some placedTask ∧ ckptOf checkpointed placedTask = some savedPoint
    ∧ (withTask (oneTask 0 0) base).core.task = some placedTask ∧ ckptOf (withTask (oneTask 0 0) base) placedTask = none
    ∧ partOfCore (withTask (oneTask 0 0) base) base.coreId ≠ none ∧ partOfCore base base.coreId = none := by decide +kernel

/-! ### The columns -/

/-- A v register of a tag and a shape, and registers put in their files. -/
def vreg (tag : BitVec 4) (rows cols data : Nat) : VReg := { VReg.zero with tag := tag, rows := rows, cols := cols, data := BitVec.ofNat 65536 data }
def withV (n : BitVec 5) (r : VReg) (s : State) : State := modCore (fun k => { k with v := k.v.setIfInBounds n.toNat r }) s
def withT (n : BitVec 4) (tag : BitVec 4) (s : State) : State := modCore (fun k => { k with t := k.t.setIfInBounds n.toNat { TReg.zero with tag := tag } }) s
def withE (n : BitVec 4) (addr : BitVec 48) (tag : BitVec 16) (s : State) : State := writeE n { addr := addr, tag := tag, stride := 0 } s
def withA (n : BitVec 2) (f : Acc → Acc) (s : State) : State := modCore (fun k => { k with a := k.a.setIfInBounds n.toNat (f (readA s n)) }) s
/-- A failed mark, and a register with it. -/
def failedMark : Failed := { cause := .unmapped, addr := 0, detail := 0 }

theorem test_witness_common_words :
    reject? (.colQput ⟨.colC, 0, 3, 0⟩) = none ∧ selClass ⟨.colC, 0, 3, 0⟩ = 0
    ∧ reject? (.colQput ⟨.colW, 0, 3, 0x200F⟩) = none ∧ selClass ⟨.colW, 0, 3, 0x200F⟩ = 1
    ∧ reject? (.colQget ⟨.colC, 0, 3, 0x401F⟩) = none ∧ selClass ⟨.colC, 0, 3, 0x401F⟩ = 2
    ∧ reject? (.colQget ⟨.colC, 0, 3, 0x601F⟩) = none ∧ selClass ⟨.colC, 0, 3, 0x601F⟩ = 3
    ∧ (readV base 31).failed = none ∧ (readV base 31).busy = 0 ∧ (readA base 3).ctx.isOpen = false ∧ (readA base 3).ctx.closing = 0
    ∧ (readA (withA 3 (fun a => { a with ctx := { a.ctx with isOpen := true } }) base) 3).ctx.isOpen = true := by decide +kernel

/-- FP32 sources of one element, INT8 sources of 2,048. -/
def floats : State := withV 1 (vreg 1 1 1 0) (withV 2 (vreg 1 1 1 0) (withV 3 (vreg 1 1 1 0) base))
def ints : State := withV 1 (vreg 9 1 2048 0) (withV 2 (vreg 9 1 2048 0) (withV 3 (vreg 9 1 2048 0) base))

theorem test_witness_vector_float : slotBusy floats.core.units (cyc floats) .arith = false ∧ VLikes floats 1 2 tagsF ∧ VLikes floats 1 3 tagsF
    ∧ VDest floats 3 1 1 1 (fun _ => false) ∧ (readV floats 1).tag.toNat ∈ tagsF16 := by
  unfold VLikes VIdle VDest; exact ⟨rfl, by decide +kernel, by decide +kernel, ⟨rfl, .inl rfl⟩, by decide +kernel⟩

theorem test_witness_vector_integer : slotBusy ints.core.units (cyc ints) .arith = false ∧ VLikes ints 1 2 tagsI ∧ VLikes ints 1 2 (tagRaw :: tagsI)
    ∧ VDest ints 3 9 1 2048 (fun _ => false) ∧ (readV ints 1).tag.toNat ∈ tagsX ∧ vWidth (readV ints 2) = vWidth (readV ints 1)
    ∧ (let s := withV 2 (vreg 13 1 2048 0) ints
       VIdle s 2 ∧ (readV s 2).tag.toNat ∈ [tagInt32, tagIndex32] ∧ (readV s 3).tag = (readV s 1).tag ∧ (readV s 3).rows = (readV s 1).rows) := by
  unfold VLikes VIdle VDest; exact ⟨rfl, by decide +kernel, by decide +kernel, ⟨rfl, .inl rfl⟩, by decide +kernel, by decide +kernel, by decide +kernel⟩

theorem test_witness_masks : VLikes ints 1 2 (tagsF ++ tagsI) ∧ (readV ints 1).poison = false ∧ VLikes floats 1 2 tagsX ∧ (readV floats 3).busy = 0
    ∧ VIdle (withV 1 (vreg 13 1 2 0) base) 1 ∧ (readV (withV 1 (vreg 13 1 2 0) base) 1).tag.toNat ∈ [tagRaw, tagInt32, tagIndex32] := by
  unfold VLikes VIdle; decide +kernel

theorem test_witness_permutes :
    (let s := withV 1 (vreg 1 32 1 0) (withV 2 (vreg 13 1 1 0) base)
     slotBusy s.core.units (cyc s) .permute = false ∧ VIdle s 1 ∧ VIdle s 2 ∧ (readV s 1).tag.toNat ∈ tagsX ∧ (readV s 2).tag.toNat = tagIndex32
      ∧ (readV s 1).rows ≤ 32 ∧ 1 ≤ (readV s 1).cols)
    ∧ VIdle floats 1 ∧ (readV floats 1).tag.toNat ∈ tagsF ++ tagsI := by unfold VIdle; decide +kernel

theorem test_witness_conversions : reject? (.vcvt ⟨0, 3, 1, 5, 0, 13⟩) = none ∧ reject? (.vquant ⟨0, 3, 1, 0, 0, 8⟩) = none ∧ reject? (.vdeq ⟨0, 3, 1, 0, 3⟩) = none
    ∧ reject? (.vshape ⟨0, 3, 31, 6⟩) = none
    ∧ (let s := withV 1 (vreg 8 1 16 0) (withV 2 (vreg 1 1 16 0) base)
       VIdle s 1 ∧ (readV s 1).tag.toNat ∈ [tagSe7, tagSe4, tagSe2] ∧ (readV s 2).tag.toNat ∈ tagsF ∧ (readV s 2).rows * (readV s 2).cols % 16 = 0
        ∧ (readV s 3).busy = 0 ∧ (readV s 3).tag.toNat ∈ tagsX ∧ (readV s 1).rows * (readV s 1).cols = 1 * 16)
    ∧ VDest floats 3 13 1 1 (fun _ => false) := by
  unfold VIdle VDest; exact ⟨by decide, by decide, by decide, by decide, by decide +kernel, rfl, .inl rfl⟩

theorem test_witness_vector_traps :
    (readV (withV 1 { VReg.zero with failed := some failedMark } base) 1).failed = some failedMark
    ∧ (readV (withV 1 { VReg.zero with busy := 1 } base) 1).busy ≠ 0 ∧ (readV (withV 1 { VReg.zero with busy := 1 } base) 1).failed = none
    ∧ (readV base 1).tag.toNat ∉ tagsF ∧ (readV (withV 2 (vreg 2 1 1 0) floats) 2).tag ≠ (readV floats 1).tag
    ∧ cyc base < (modCore (fun k => { k with units := { k.units with arith := 1 } }) base).core.units.arith := by decide +kernel

/-- BF16 tiles, an index tile for MMAS, an index vector for MMAG. -/
def tiles : State := withT 0 2 (withT 1 2 (withT 2 2 (withT 3 2 (withT 6 0 (withV 9 (vreg 13 1 64 (2 ^ 2048 - 1)) base)))))

theorem test_witness_matrix :
    (readA tiles 0).window = false ∧ tiles.core.units.array ≤ cyc tiles ∧ (readA tiles 0).writeDone ≤ cyc tiles ∧ TIdle tiles 0 ∧ TIdle tiles 1 ∧ TIdle tiles 6
    ∧ holds (pairClass 0 1 (readT tiles 0) (readT tiles 1)) (fun x => x = (32, tagFp32)) = true ∧ (readA tiles 0).tag.toNat = tagFp32
    ∧ (readT tiles 6).tag.toNat ∈ [tagRaw, tagUint8] ∧ (2 : BitVec 4).toNat % rhoOf (readT tiles 0).tag.toNat = 0
    ∧ (∀ i, i < rhoOf (readT tiles 0).tag.toNat → TIdle tiles (2 + BitVec.ofNat 4 i) ∧ (readT tiles (2 + BitVec.ofNat 4 i)).tag = (readT tiles 2).tag)
    ∧ VIdle tiles 9 ∧ (readV tiles 9).tag.toNat = tagIndex32 ∧ 64 ≤ (readV tiles 9).rows * (readV tiles 9).cols ∧ tiles.core.units.gather ≤ cyc tiles
    ∧ (∀ r, r < 64 → elemAt (readV tiles 9).data.toNat 32 r = 0xFFFFFFFF)
    ∧ (∀ k, k < 128 → (getSlot tiles.core k).failed = none ∧ (getSlot tiles.core k).pend = 0 ∧ (getSlot tiles.core k).tag.toNat ≠ 0xFFFF) := by
  unfold TIdle VIdle; decide +kernel

theorem test_witness_accumulators : AIdle base 0 ∧ base.core.units.accPort ≤ cyc base ∧ (readA base 0).ctx.isOpen = false
    ∧ (let s := withA 0 (fun a => { a with tag := 11, ctx := { a.ctx with isOpen := true } }) base
       AIdle s 0 ∧ (readA s 0).ctx.isOpen = true ∧ (readA s 0).tag.toNat = tagInt32 ∧ (readA s 0).ctx.latched.toList.all (fun v => v.isNone) = true ∧ s.core.units.array ≤ cyc s)
    ∧ (let s := withA 0 (fun a => { a with tag := 11, ctx := { a.ctx with isOpen := true, latched := a.ctx.latched.setIfInBounds 7 (some 5) } }) base
       some (5 : BitVec 32) ∈ (readA s 0).ctx.latched.toList)
    ∧ base.core.units.awake ≤ cyc base ∧ base.core.units.gated = true
    ∧ (let s := withV 4 (vreg 1 32 64 0) (withV 5 (vreg 1 32 64 0) base)
       (30 : BitVec 5).toNat < 31 ∧ VIdle s 4 ∧ VIdle s (4 + 1) ∧ (readV s (4 + 1)).tag = (readV s 4).tag ∧ (readV s 4).rows * (readV s 4).cols = 2048)
    ∧ (let s := withV 4 (vreg 0 2 64 0) base
       VIdle s 4 ∧ (readV s 4).rows * (readV s 4).cols = 128)
    ∧ reject? (.madh ⟨0, 0, 4, 1, 1⟩) = none ∧ (let s := withV 4 (vreg 13 1 16 0) base; 16 ≤ (readV s 4).rows * (readV s 4).cols ∧ (readV s 4).poison = false) := by
  unfold AIdle VIdle; decide +kernel

/-- The same clause in the statement's words. -/
theorem test_witness_unlatched :
    ∀ v ∈ (readA (withA 0 (fun a => { a with tag := 11, ctx := { a.ctx with isOpen := true } }) base) 0).ctx.latched.toList, v = none := by
  have h : (readA (withA 0 (fun a => { a with tag := 11, ctx := { a.ctx with isOpen := true } }) base) 0).ctx.latched.toList.all Option.isNone = true := by
    decide +kernel
  exact fun v hv => Option.isNone_iff_eq_none.mp (List.all_eq_true.mp h v hv)

theorem test_witness_softmax :
    (let s := withV 8 (vreg 1 32 64 0) (withV 9 (vreg 1 32 64 0) (withV 10 (vreg 0 2 64 0) base))
     slotBusy s.core.units (cyc s) .arith = false ∧ AIdle s 0 ∧ VIdle s 8 ∧ VIdle s 9 ∧ VIdle s 10 ∧ (readT s 4).busy = 0 ∧ (readA s 0).tag.toNat = tagFp32
      ∧ (readV s 8).tag.toNat = tagFp32 ∧ (readV s 8).rows * (readV s 8).cols = 2048 ∧ 64 ≤ (readV s 9).rows * (readV s 9).cols
      ∧ (readV s 10).tag.toNat = tagRaw ∧ (readV s 10).rows = 2 ∧ (readV s 10).cols = 64 ∧ (8 : BitVec 5) + 2 = 10) := by unfold AIdle VIdle; decide +kernel

/-- A partition with island 0 and a sequence 5 of one extent at 0x100000. -/
def sequenced : State :=
  modPart (withTask (oneTask 0 0) (withPage [] base)) 0 fun p =>
    { p with seqs := [{ num := 5, world := 0, stopped := false, fmt := 2, len := 0, dim := 64, voff := 0, pool := 0,
                        extents := [{ base := 0x100000, len := 16, stride := 64, shared := false, order := 0 }] }] }

theorem test_witness_address_words : reject? (.eadd ⟨.colW, 0, 8, 2, 0x2000⟩) = none ∧ reject? (.eadd ⟨.colL, 0, 7, 0, 0⟩) = none ∧ reject? (.emov ⟨.colL, 0, 7, 1, 0⟩) = none
    ∧ (let s := atCycle 1 (writeQ 3 { entries := [{ payload := 0x50000000F, token := false, poison := false, stamp := 0 }], freedAt := 0, freedN := 0 }
         (modCore (fun k => { k with tlb := page :: k.tlb ++ [{ page with va := seqKey 5 }] }) sequenced))
       ((readQ s 3).entries.filter fun e => e.stamp < cyc s).length = 1 ∧ tlbHolds s.core s.core.sys.world (seqKey 5) = true
        ∧ holds (kvAddr s 5 15) (fun va => va = 0x100000 + 15 * 64) = true) := by decide +kernel

/-- Core 0 owns slot 0 of channel 0 of a partition that it is in. -/
def calendared : State := { withE 1 0x100000 7 (withTask (oneTask 0 0) (withPage [] base)) with calMaps := [(0, [(0, channelOf 0x10000)])] }

theorem test_witness_timed :
    (getCol calendared.core .colL).portBusy ≤ cyc calendared ∧ ¬ ((1 : BitVec 1) = 1 ∧ (readE calendared 1).tag = 0xFFFF) ∧ (readE calendared 1).addr.toNat % 512 = 0
    ∧ (readE calendared 1).addr.toNat % 4096 + 512 * 8 ≤ 4096
    ∧ holds (xlateAll calendared false [0x100000]) (fun l => l.map (·.1) = [0x10000]) = true ∧ tierOf 0x10000 = .hbm
    ∧ holds (xlateAll calendared true [0x100000]) (fun l => l.map (·.1) = [0x10000]) = true
    ∧ (bindSlots calendared 0 (channelOf 0x10000) 8 (calendared.now + requestPath)).isSome = true
    ∧ bindSlots base 0 (channelOf 0x10000) 1 (base.now + requestPath) = none ∧ 8 < (1 : BitVec 3).toNat + 8
    ∧ (getSlot calendared.core 3).failed = none ∧ (getSlot calendared.core 3).pend = 0 ∧ (getSlot calendared.core 3).tag.toNat ≠ 0xFFFF := by decide +kernel

theorem test_witness_column_memory :
    (let s := withE 1 0x7E000 0x2000 (withV 4 (vreg 1 1 1 0) (withV 9 (vreg 13 1 1 0xFFFFFFFF) (withTask (oneTask 0 0) (withPage [] base))))
     s.core.colL.portBusy ≤ cyc s ∧ s.core.loads.length < 8 ∧ s.core.stores.length < 16 ∧ (readE s 1).tag.toNat / 4096 < 14 ∧ (readT s 2).busy = 0
      ∧ (readE s 1).addr.toNat % 64 = 0 ∧ (readE s 1).addr.toNat + tileBytes 2 ≤ 0x80000 ∧ holds (checkSlots s [(0x7E000, tileBytes 2)] none) (fun _ => true) = true
      ∧ holds (xlateAll s false (runLines [(0x100000, 64)])) (fun l => l.length = 1) = true ∧ holds (xlateAll s true (runLines [(0x100000, 64)])) (fun l => l.length = 1) = true
      ∧ VIdle s 9 ∧ (readV s 9).tag.toNat = tagIndex32 ∧ (readV s 9).rows * (readV s 9).cols = (readV s 4).rows * (readV s 4).cols
      ∧ VIdle s 4 ∧ VDest s 4 1 1 1 (fun _ => true) ∧ (readV s 4).tag.toNat ∉ [tagSe7, tagSe4, tagSe2]
      ∧ bankOwned s 0 = true ∧ bankOwned s 63 = false ∧ refreshHits { s with now := 1000 } 0 = false ∧ bankFreeAt s 0 ≤ s.now + 12 ∧ (getSlot s.core 9).pend ≠ 15
      ∧ TIdle s 2 ∧ AIdle s 0 ∧ reject? (.acst ⟨0, 10, 0, 1⟩) = none)
    ∧ (patternOf (BitVec.ofNat 512 (0x07 + 0x01 * 2 ^ 8 + (0 + 7 * 2 ^ 7) * 2 ^ 16))).isSome = true
    ∧ (let s := withV 4 (vreg 8 1 16 0) base
       (readV s 4).tag.toNat ∈ [tagSe7, tagSe4, tagSe2] ∧ (readV s 4).rows * (readV s 4).cols % 16 = 0 ∧ seBytes 8 16 ≤ 0x80000) := by
  unfold VIdle VDest TIdle AIdle
  refine ⟨⟨?_, ?_, ?_, ?_, ?_, ?_, ?_, ?_, ?_, ?_, ?_, ?_, ?_, ?_, ⟨rfl, .inl rfl⟩, ?_, ?_, ?_, ?_, ?_, ?_, ?_, ?_, ?_⟩, ?_, ?_⟩ <;> decide +kernel

/-! ### Engine commands -/

/-- A COPY2D of one row of 128 bytes from address 0 to the last of the scratchpad. -/
def copyCmd : Cmd := command [(0, 1), (24, 0x7FF80), (32, 128), (36, 1)]
/-- The placed task on core 0 of partition 0, with a page, a KV pool at its start, a prefix page and room for one page more. -/
def serving : State :=
  let s := modPart sequenced 0 fun p =>
    { p with pools := [{ idx := 0, world := 0, base := 0x100000, stride := 64, top := 0, free := [(0, 0)] }],
             seqs := p.seqs.map fun q => { q with len := 1, pool := 0 } }
  { s with prefixes := [{ world := 0, va := 0x100000, pa := 0x10000, clean := some 0x200000000000, wanted := false, refetching := false, ready := 0, lost := false }],
           quotas := s.quotas.set 0 { Quota.zero with hbmLimit := 1, kvLimit := 16 } }
/-- A command taken up by an engine for the placed task. -/
def taken (eng : Nat) (c : Cmd) : RunCmd := { newRun base eng c with task := placedTask }

theorem test_witness_engine_start :
    headerOk copyCmd.bits = true ∧ copyValid copyCmd (focus base 0) = true ∧ holds (copyReady copyCmd (focus base 0)) (fun _ => true) = true
    ∧ headerOk (command [(0, 1), (3, 4)]).bits = false ∧ copyValid (command [(0, 1)]) base = false
    ∧ holds (copyReady copyCmd (focus (modCore (modSlot 0 fun x => { x with pend := 1 }) base) 0)) (fun _ => true) = false
    ∧ (let c := command [(0, 0x29), (16, 5)]
       kfreeHeld c serving = false ∧ kfreeValid c serving = true ∧ headerOk c.bits = true
        ∧ kfreeHeld c { serving with running := [taken 0x10 (command [(0, 0x10), (16, 5)])] } = true)
    ∧ (let c := command [(0, 0x40), (16, 0x100000), (28, 512)]
       let a := (List.range 8).foldl (wloadLine c (taking 0x16 c serving)) { s := started 0x16 c serving, lines := 0, poisoned := false, halt := none }
       wloadHeld c serving = false ∧ wloadValid c serving = true ∧ headerOk c.bits = true ∧ a.halt.isNone = true ∧ a.lines = 8
        ∧ wloadHeld c (withTask { launchOf [(0, 1), (4, 1), (7, 1), (0xCC, 1), (0xCE, 1)] with st := .running } serving) = true) := by decide +kernel

/-- The state in which a command of `serving` starts. -/
def startOf (eng : Nat) (c : Cmd) : State := started eng c serving
/-- The package is node 5 of group slot 0, of which node 9 is the other member, and world 0 is its group world. -/
def grouped : State :=
  let s := { serving with node := 5, groups := serving.groups.set 0 { Group.none with valid := true, num := 3, view := 2, members := [5, 9] } }
  setWorld s 0 { getWorld s 0 with group := some 0 }

/-- Copies in each of their forms: two overlapping rows into a tagged slot, a tile with and without a follow-on MMA, and from, to and between pages. -/
def copyForms : List Cmd :=
  [command [(0, 1), (24, 64), (32, 128), (36, 2), (38, 9), (40, 64), (44, 64), (52, 1)],
   command [(0, 1), (32, 128), (36, 2), (40, 128), (52, 4), (53, 0x21)],
   command [(0, 1), (32, 128), (36, 2), (40, 128), (48, 0b10000000000100000001110000000000), (52, 6), (53, 0x21)],
   command [(0, 1), (16, 0x100000), (32, 64), (36, 1), (38, 9), (52, 1)],
   command [(0, 1), (16, 0x100000), (32, 64), (36, 1), (52, 4), (53, 0x21)],
   command [(0, 1), (24, 0x100000), (32, 64), (36, 1)],
   command [(0, 1), (16, 0x100000), (24, 0x100040), (32, 64), (36, 1)]]

theorem test_witness_copies :
    (copyForms.all fun c =>
      let e := copyEngine serving c
      worksAtOnce e (!(copyOp c).near) (taking e c serving) (started e c serving) && headerOk c.bits && copyValid c (focus serving c.core)
        && holds (copyReady c (focus serving c.core)) fun _ => true) = true
    ∧ (copyForms.map fun c => ((copyOp c).near, (copyOp c).tile, (copyOp c).tagged, (copyOp c).follow)) =
        [(true, false, true, false), (true, true, false, false), (true, true, false, true), (false, false, true, false), (false, true, false, false),
         (false, false, false, false), (false, false, false, false)] := by decide +kernel

/-- A read and a write of a page that is there, and a read of one that is not. -/
theorem test_witness_far_copies :
    (let c : Cmd := command [(0, 1), (16, 0x100000), (24, 0x100040), (32, 64), (36, 1)]
     let z := (copyLands (copyOp c) (copying c serving)).2
     let r := copyTaking c serving
     holds (engRead z r .copy 0x100000 64) (fun b => b.all (fun y => !y.2)
        && (engWrite z r .copy (cmdStamp r) 0x100040 b 0).halt.isNone) = true
      ∧ (match engRead z r .copy 0x900000 64 with
        | .error (.park f) => decide (f.cause = .unmapped)
        | _ => false) = true) := by decide +kernel

theorem test_witness_data_engines :
    (let o := copyOp copyCmd
     o.src + o.len ≤ 0x80000 ∧ o.dst + o.len ≤ 0x80000 ∧ o.rows = 1 ∧ o.tile = false ∧ o.tagged = false ∧ o.follow = false)
    ∧ (let c (v : Nat) := command [(0, 8), (16, 0x100000), (24, 0x100040), (32, 9), (36, 5), (40, 64), (48, v)]
       let z := started 0x08 (c 2) grouped
       headerOk (c 2).bits = true ∧ copyrValid (c 2) (focus grouped 0) = true ∧ (getGroup z 0).view = (copyrOp (c 2)).view ∧ selfNode z (copyrOp (c 2)).srcNode = false
        ∧ worksAtOnce 0x08 true (taking 0x08 (c 2) grouped) z = true
        ∧ copyrValid (c 1) (focus grouped 0) = true ∧ (getGroup (started 0x08 (c 1) grouped) 0).view ≠ (copyrOp (c 1)).view)
    ∧ (let c := command [(0, 0x10), (16, 5), (20, 0x3F800000), (40, 0x7FEF8)]
       let r := attnLatch c (taking 0x10 c serving) (startOf 0x10 c)
       let z := takeUp 0x10 r (startOf 0x10 c)
       headerOk c.bits = true ∧ attnValid c (focus serving 0) = true ∧ holds (attnReady c (focus serving 0)) (fun _ => true) = true ∧ (attnOp c).tagged = false
        ∧ worksAtOnce 0x10 true r (startOf 0x10 c) = true ∧ r.blocks.length = 1 ∧ r.blocks.contains uncached = false
        ∧ ((attnSeq c z).any fun q => q.world = r.world && !q.stopped && holds (readBlocks z r q (r.blocks.zip (seqBlocks r.done.1 q))) (fun _ => true)) = true) := by
  decide +kernel

/-- Engines that are idle, whose core has nothing under way before the command. -/
theorem test_witness_idle_engines :
    [0x10, 0x11, 0x12, 0x15, 0x16].all (fun e => worksAtOnce e true (taking e (command []) serving) (startOf e (command []))) = true
    ∧ worksAtOnce 0 false (taking (copyEngine base copyCmd) copyCmd base) (started (copyEngine base copyCmd) copyCmd base) = true ∧ copyEngine base copyCmd = 0
    ∧ worksAtOnce 0x15 true (taking 0x15 (command []) grouped) (started 0x15 (command []) grouped) = true
    ∧ worksAtOnce 0x11 true (taking 0x11 (command []) { serving with engWorld := [(0x11, 0, 1)] })
        (started 0x11 (command []) { serving with engWorld := [(0x11, 0, 1)] }) = false := by decide +kernel

theorem test_witness_ligature :
    (let c := command [(0, 0x18), (20, 2), (24, 16), (26, 1), (28, 1), (40, 0x40), (48, 0x80), (56, 0x7FF00)]
     let r := taking 0x11 c serving
     headerOk c.bits = true ∧ mergeValid c (focus serving 0) = true ∧ holds (mergeReady c (focus serving 0)) (fun _ => true) = true
      ∧ holds (mergeMap (mergeOp c) r (startOf 0x11 c)) (fun m => m.kept = 2) = true ∧ holds (mergeRead (mergeOp c) r (startOf 0x11 c)) (fun _ => true) = true
      ∧ (mergeOp c).out + (mergeOp c).n * (mergeOp c).dx * xBytes (mergeOp c).fp32 + 8 * (mergeOp c).n + 128 ≤ 0x80000)
    ∧ (let m : LigMap := { part := 0, num := 0, gen := 1, owner := placedTask, unit := 0, offset := 0, entries := [(false, 0), (true, 0)], kept := 1, saved := none }
       let s := { serving with maps := [m] }
       let c := command [(0, 0x19), (16, 0x1000), (20, 1), (32, 0x40)]
       let d := command [(0, 0x1B), (16, 0x1000)]
       headerOk c.bits = true ∧ unmergeValid c (focus s 0) = true ∧ holds (unmergeReady c (focus s 0)) (fun _ => true) = true
        ∧ holds (findMap (started 0x11 c s) (taking 0x11 c s) (Machine.fld c 16 4)) (fun x => x = m) = true ∧ ligAddrOk (Machine.fld c 32 8) (unmergeRow c * 2) = true
        ∧ holds (ligRead (started 0x11 c s) (taking 0x11 c s) (Machine.fld c 24 8) (unmergeRow c * 1)) (fun b => b.length = 2) = true
        ∧ Machine.fld c 32 8 < 0x80000 ∧ Machine.fld d 24 8 < 0x80000
        ∧ lgsaveValid d (focus s 0) = true ∧ ligAddrOk (Machine.fld d 24 8) (mapBytes 2) = true ∧ lgdropValid d (focus s 0) = true
        ∧ holds (findMap (started 0x11 d s) (taking 0x11 d s) (Machine.fld d 16 4)) (fun x => x = m) = true) := by decide +kernel

/-- A handle 1 of world 0, its version 1 current everywhere and resident in partition 0, its version 2 prepared. -/
def adapters : State :=
  let v : Version := { Version.empty with num := 1, keySlot := 1, st := 2, pins := [(0, 1)], resident := [(0, [])] }
  { serving with aht := [{ handle := 1, owner := 0, deleting := false, rank := 0, publisher := none, grants := 0, selectors := 0, next := 3,
                           vers := #v[v, { Version.empty with num := 2, keySlot := 2, st := 1 }, Version.empty] }] }

/-- That handle in group 0 of accumulator 0, pinned, at layer 0 of one, and a side context that is open and holds the version. -/
def adapted : State :=
  let s := { adapters with aht := adapters.aht.map fun x => { x with vers := x.vers.map fun v => { v with layers := 1, projs := 1 } } }
  let s := modCore (fun k => { k with ah := k.ah.set 0 { handles := (k.ah[0]).handles.set 0 1, pins := (k.ah[0]).pins.set 0 (some (1, 1)) } }) s
  withA 0 (fun a => { a with tag := 1, ctx := { a.ctx with isOpen := true, latched := a.ctx.latched.set 0 (some 1) } }) s

theorem test_witness_side_path : usedGroups adapted 0 = [0] ∧ groupPin adapted 0 0 = some 1 ∧ tagFp32 ≠ tagInt32
    ∧ (readA adapted 0).ctx.isOpen = true ∧ (sideGroups adapted 0 (readA adapted 0).ctx).map (·.rank) = [8]
    ∧ (∀ g ∈ [0], holds (checkGroup adapted 0 tagFp32 g (groupPin adapted 0 g)) (fun _ => true) = true) := by decide +kernel

theorem test_witness_adapters :
    (let s := adapters
     let z := started 0x12 (command []) s
     let r := taking 0x12 (command [(16, 1)]) s
     let c := command [(0, 0x20), (16, 1)]
     let h := command [(0, 0x22), (17, 1), (20, 2), (28, 1), (30, 1), (32, 0x100000), (40, 1)]
     headerOk c.bits = true ∧ adpinValid c (focus s 0) = true ∧ ((liveAht z (pinHandle c)).any fun a => mayUse a r.world
        && (currentVersion a r.task.part).any fun v => holds (admitVersion c r a v z) fun x => x.2 = 1) = true
      ∧ (liveAht z (pinHandle (command [(16, 2)]))).isNone = true
      ∧ adunpinValid (command [(0, 0x21), (16, 1), (20, 1)]) (focus s 0) = true ∧ (ckptOf z r.task).isNone = true ∧ pinHeld z r.task.part 1 1 = true
      ∧ createValid (command [(0, 0x22), (17, 2)]) (focus s 0) = true ∧ (pubHandle (command [(0, 0x22), (17, 2)])).toNat % 2 ^ 20 = 2
      ∧ grantValid (command [(0, 0x22), (16, 1), (17, 1)]) (focus s 0) = true ∧ bareValid (command [(0, 0x22), (16, 2), (17, 1)]) (focus s 0) = true
      ∧ ((liveAht z 1).any fun a => a.vers.toList.findIdx? (fun v => v.st = 0) = some 2 && a.next ≠ 0xFFFFFFFF && freeKeySlot z = some 1
        && (a.vers.toList.find? fun v => v.num = 2 && v.st = 1).any fun v =>
          holds (allOk (readFactors z r 0x100000 (rankOf a)) (List.range 1)) fun es =>
            holds ((commitTargets h).foldl (commitPlace 1 2 a) (commitResolve r a v h es z)) fun _ => true) = true
      ∧ commitValid h (focus s 0) = true ∧ commitTargets h = [0] ∧ boundIn z 0 0 = true) := by decide +kernel

theorem test_witness_allocator :
    (let s := serving
     let z := startOf 0x13 (command [])
     let c := command [(0, 0x28), (17, 2), (18, 64), (24, 16)]
     headerOk c.bits = true ∧ kallocValid c (focus s 0) = true ∧ holds (allocExtent z 0 0 0 16) (fun _ => true) = true ∧ freeSeq z 0 = some 0
      ∧ holds (allocExtent z 0 0 0 17) (fun _ => true) = false
      ∧ poolValid (command [(0, 0x28), (16, 15), (18, 4096), (21, 1), (23, 1), (24, 0x100000)]) (focus s 0) = true
      ∧ ((getSeq z 0 5).any fun q => !q.stopped && q.world = 0 && q.extents.length < 16 && (q.extents.map (·.len)).sum = 16) = true
      ∧ extendValid (command [(0, 0x2A), (16, 5), (24, 16)]) (focus s 0) = true
      ∧ shareValid (command [(0, 0x2A), (16, 5), (18, 1), (24, 2 ^ 10), (32, 0x100000)]) (focus s 0) = true
      ∧ ((getPool (getPart z 0) 0).any fun x => 0x100000 % x.stride = 0) = true
      ∧ (rangePages 0x100000 (2 ^ 10 * 64)).all (fun a => (prefixAt z 0 a).any fun y => y.clean.isSome && !y.lost) = true) := by decide +kernel

theorem test_witness_migrations_and_collectives :
    (let c := command [(0, 0x30), (16, 0x100000), (24, 2)]
     let m : Migration := { src := 0, dst := 0, va := 0x100000, world := 0, tier := 2, wish := 0, step := 0, bitmap := 0, replica := none, erase := false,
                            task := placedTask, seq := 6, next := 0 }
     headerOk c.bits = true ∧ migValid c (focus serving 0) = true ∧ migTakes (startOf 0x14 c) 0 0 (migOp c) = true
      ∧ ((started 0x14 c { serving with migQueue := [m] }).migQueue.find? fun m => m.world = 0 && m.va = (migOp c).va && m.step < 4) = some m
      ∧ (startOf 0x14 c).migrations = [] ∧ (startOf 0x14 c).migQueue = [])
    ∧ (let c (v : Nat) := command [(0, 0x38), (17, 0x10), (20, v), (24, 0x100000), (32, 0x100000), (40, 1)]
       let z := started 0x15 (c 2) grouped
       headerOk (c 2).bits = true ∧ colValid (c 2) (focus grouped 0) = true ∧ (getGroup z 0).view = (colOp (c 2).bits).view
        ∧ colValid (c 1) (focus grouped 0) = true ∧ (getGroup z 0).view ≠ (colOp (c 1).bits).view
        ∧ (findColl z (getGroup z 0).num.toNat 2 0).isNone = true ∧ 1 < (rankNodes (getGroup z 0)).length ∧ 1 ≠ ownRank z (getGroup z 0)) := by decide +kernel

/-! ### Host commands -/

/-- Host memory holds bytes at offsets from address 0. -/
def hostBytes (l : List (Nat × Byte)) (s : State) : State := l.foldl (fun s x => hostWrite s x.1 [x.2]) s
/-- World 1, live and bound to partition 0, which is as `f` makes it. -/
def bound (f : Part → Part) : State :=
  modPart (setWorld serving 1 { World.absent with live := true, parts := 1 }) 0 f
def rec257 (l : List (Nat × Nat)) : HostCmd := hostRecord 257 l

theorem test_witness_host_checks :
    (let h := hostRecord 256 [(0, 1), (2, 0xFFFF)]
     h.queue ≠ mailboxQueue ∧ hostIdent h = 0xFFFF)
    ∧ hostCommonOk (fetched (hostRecord 256 [(4, 1)]) base) (hostRecord 256 [(4, 1)]) = false
    ∧ (hostForms (rec257 [(63, 1)])).all (fun p => !p.2 base) = true := by decide +kernel

/-- Accepted on the admin queue and in the mailbox under the highest identity that is not reserved. -/
theorem test_witness_accepted : Accepted (hostRecord 256 [(2, 0xFFFE)]) (partOnly (hostRecord 256 [(2, 0xFFFE)])) base
    ∧ Accepted (rec257 [(2, 0xFFFE)]) (partOnly (rec257 [(2, 0xFFFE)])) base ∧ hostIdent (rec257 [(2, 0xFFFF)]) = 0xFFFF := by unfold Accepted; decide +kernel

theorem test_witness_partition_commands :
    (let h := rec257 [(24, 15), (32, 0x8000), (35, 18)]
     partCreateValid h base = true ∧ partNo h = 15 ∧ (getPart base 15).present = false ∧ islandTaken base (partMask h) 15 = false
      ∧ takePorts base 18 = some (List.range 18) ∧ (calendarMaps base (partMask h) (ptr0 h)).isSome = true ∧ partNo (rec257 [(24, 16)]) = 16
      ∧ islandTaken (bound id) 1 15 = true)
    ∧ (let h := rec257 [(32, 2)]
       partResizeValid h base = true ∧ frozen (getPart (bound fun p => { p with tdisp := .locked }) 0) = true ∧ frozen (getPart (bound id) 0) = false
        ∧ islandTaken (bound id) (partMask h) 0 = false ∧ (calendarMaps (bound id) (partMask h) (ptr0 h)).isSome = true
        ∧ maskFree (bound id) ((getPart (bound id) 0).islands &&& ~~~(partMask h)) = false ∧ maskFree base 0xFFFF = true)
    ∧ partOnly (rec257 [(24, 15)]) base = true ∧ partOnly (rec257 [(24, 16)]) base = true := by decide +kernel

theorem test_witness_world_commands :
    worldOnly (rec257 [(24, 63)]) base = true ∧ worldNo (rec257 [(24, 63)]) = 63 ∧ (getWorld base 63).live = false ∧ awaitsScrub base 63 = false
    ∧ worldOnly (rec257 []) base = true ∧ worldNo (rec257 [(24, 64)]) = 64
    ∧ (getWorld (bound id) 1).live = true ∧ worldFrozen (bound id) 1 = false ∧ worldFrozen (bound fun p => { p with tdisp := .run }) 1 = true
    ∧ (getWorld (bound id) 1).st = 0
    ∧ (let x (q : Bool) : World := getWorld (modWorld (bound id) 1 fun w => { w with st := 1, queued := q }) 1
       (x true).st ≠ 0 ∧ (x true).queued = true ∧ (x true).live = true ∧ (x false).queued = false)
    ∧ bindValid (rec257 [(24, 1), (25, 15), (26, 1)]) base = true ∧ hfld (rec257 [(25, 16)]) 25 1 = 16 ∧ (getPart (bound id) 0).present = true
    ∧ (getPart (bound id) 15).present = false ∧ frozen (getPart (bound id) 0) = false := by decide +kernel

theorem test_witness_resource_commands :
    (let s := bound id
     quotaValid (rec257 [(24, 1)]) s = true ∧ worldLive s 1 = true ∧ worldLive s 63 = false ∧ (hostRead s 0 64).isSome = true)
    ∧ (let h := rec257 [(8, 0x100), (28, 1)]
       let s := hostBytes [(0x102, 0x12)] serving
       let pages := freeIn s (tierRanges s 0 0) 1
       pageAllocValid h s = true ∧ hostList s 0x100 1 = some [0x120000] ∧ ptr1 h = 0 ∧ vasOk s 0 [0x120000] = true ∧ pagesFit s 0 0 1 = true
        ∧ pagesFit base 0 0 1 = false ∧ 1 ≤ pages.length ∧ worldLive s 0 = true
        ∧ freeIn (modPart s 0 fun p => { p with islands := 0xFFFF }) (tierRanges (modPart s 0 fun p => { p with islands := 0xFFFF }) 0 0) 1 = []
        ∧ pageFreeValid h s = true ∧ (pageToFree s 0 0 0x120000).isSome = false
        ∧ hostList (hostBytes [(0x102, 0x10)] serving) 0x100 1 = some [0x100000] ∧ (pageToFree serving 0 0 0x100000).isSome = true)
    ∧ (let s := { serving with ptes := [{ page with write := false }] }
       prefixValid (rec257 [(8, 0x100000)]) s = true ∧ findPte s 0 0x100000 = some { page with write := false } ∧ cleanHome s 0 0 = some none
        ∧ s.replicas.length < replicaTable)
    ∧ powerValid (rec257 [(24, 1249)]) base = true := by decide +kernel

theorem test_witness_service_commands :
    (let h := rec257 [(28, 64)]
     fwValid h base = true ∧ cfgValid h base = true ∧ (hostRead base (ptr0 h) (hfld h 28 4)).isSome = true)
    ∧ (let h := hostRecord 256 [(24, 1)]
       logValid h base = true ∧ h.queue ≠ mailboxQueue ∧ base.phase ≠ .recovery ∧ ({ base with phase := .recovery } : State).phase = .recovery
        ∧ assocGet base.errors (hfld h 24 4) = none ∧ assocGet ({ base with errors := [(1, [5])] } : State).errors (hfld h 24 4) = some [5])
    ∧ resyncValid (rec257 []) base = true ∧ qresetValid (rec257 [(24, 15)]) base = true ∧ qresetQueue (rec257 [(24, 15)]) = 15
    ∧ (getPart (bound id) 0).present = true ∧ hfld (rec257 [(24, 15)]) 24 1 ≤ 15 ∧ 256 < qresetQueue (rec257 [(24, 1), (25, 16)]) := by decide +kernel

theorem test_witness_queue_commands :
    (let h := hostRecord 0 [(0, 1)]
     let s := hostBytes [(0, 1), (4, 1), (0x41, 1)] serving
     let bits : BitVec 2048 := BitVec.ofNat 2048 (leNat ((hostRead s (ptr0 h) 256).getD []))
     launchValid h s = true ∧ h.queue < 256 ∧ hostCommonOk (fetched h s) h = true ∧ (hostRead s (ptr0 h) 256).isSome = true
      ∧ poolFull s 0 = false ∧ validLaunch s 0 bits = true ∧ recBytes bits 2 1 % 64 = (hostWorld h).toNat ∧ validLaunch s 0 0 = false)
    ∧ hostCopyValid ptr1 (hostRecord 0 [(16, 0x100000), (24, 64)]) serving = true ∧ hostCopyValid ptr0 (hostRecord 0 [(8, 0x100000), (24, 64)]) serving = true
    ∧ serving.linkUp = true
    ∧ objValid (hostRecord 0 [(8, 0x100000), (24, 5)]) serving = true ∧ objWaits serving 0 = 0 ∧ (findPte serving 0 0x100000).isSome = true
    ∧ findPte serving 0 0x200000 = none := by decide +kernel

/-! ### Events -/

/-- An event of the given operands comes. -/
def withEv (e : EvArgs) (s : State) : State := { s with ev := e }
/-- Core 0's island and the package at cycle `c`. -/
def atTime (c : Cycle) (s : State) : State := { atCycle c s with now := c }

/-- A flash whose slot A and record carry a signature. -/
def signedFlash (sig : List Byte) : Flash :=
  { Flash.model with slotA := { FwSlot.blank with sig := sig }, record := { CfgRecord.factory with sig := sig } }

/-- A signature check that holds is a free value (log 9): of a signature of the size of R90, the slot is taken where it does. -/
theorem test_witness_boot (sig : List Byte) (n : sig.length = 29792) :
    (Config.slhVerify [] sig = true → bootSlot (signedFlash sig) 0 = some false ∧ recordVerifies (signedFlash sig) = true)
    ∧ bootSlot Flash.model 0 = none ∧ recordVerifies { signedFlash sig with recordCounter := 1 } = false
    ∧ max (signedFlash sig).securityFloor (signedFlash sig).record.floor ≤ (signedFlash sig).slotA.security ∧ (signedFlash sig).directory = true
    ∧ (signedFlash sig).puf = true := by
  refine ⟨fun h => ⟨?_, ?_⟩, ?_, ?_, ?_, ?_, ?_⟩ <;>
    simp_all [bootSlot, slotVerifies, signed, recordVerifies, signedFlash, Flash.model, FwSlot.blank, CfgRecord.factory]

theorem test_signature_size : (List.replicate 29792 (0 : Byte)).length = 29792 := List.length_replicate

theorem test_witness_power :
    3599 < base.powerCap ∧ base.withhold = false ∧ ¬ 3600 < base.powerCap ∧ base.powerCap < 3601
    ∧ nextHold (withEv { EvArgs.none with list := [15] } base) = some (15, 3) ∧ nextHold base = none
    ∧ nextStep (withEv { EvArgs.none with list := [15] } base) = some 15
    ∧ (getIsland base 19).st = .steady ∧ islandDrained (setIsland base 0 { getIsland base 0 with st := .drain }) 0 = true := by decide +kernel

/-- The placed task's dispatch gang. -/
def gang (st : GangSt) (cls : Nat) : Gang :=
  { id := 0, part := 0, launch := 1, idx := 0, tasks := [0], cls := cls, dcls := cls, enq := 0, since := 0, st := st, cluster := 0, isWide := false, started := none, front := false }
/-- Partition 0 with launch 1 in a state, and a gang. -/
def scheduled (st : LaunchSt) (g : List Gang) : State :=
  { modPart base 0 fun p => { p with present := true, islands := 1, launches := [{ oneTask 1 0 with st := st, nextGang := 1, gated := 5 }] } with gangs := g, tick := 65 }

theorem test_witness_scheduler :
    (let l : Launch := { launchOf [(0, 1), (4, 1), (8, 5), (0x40, 256)] with st := .gated, gated := 5 }
     weightsLate l = true ∧ findLaunch (modPart base 0 fun p => { p with launches := [l] }) 0 1 = some l)
    ∧ ((scheduled .running [gang .queued 2]).gangs.find? fun g => g.id = 0 && promotable (scheduled .running [gang .queued 2]) g) = some (gang .queued 2)
    ∧ watchExpired (withSys (fun y => { y with wdogLimit := 5, wdogCount := 5 }) (withTask (oneTask 0 0) base)).core = true
    ∧ (let s := scheduled .ready [gang .queued 0]
       headGang s 0 = some (gang .queued 0) ∧ canStart s 0 (gang .queued 0) = true ∧ (startGang s (gang .queued 0) ((freeCores s 0).take 1)).isSome = true)
    ∧ (let s := modPart (scheduled .ready [gang .wide 0]) 0 fun p => { p with reserved := [0] }
       reservationOk s 0 = true ∧ reserving s 0 = some (gang .wide 0) ∧ (freeCores s 0).length = 16
        ∧ (startGang s (gang .wide 0) ((freeCores s 0).take 1)).isSome = true)
    ∧ (let s := scheduled .running [gang (.stopping 1) 0]
       (s.gangs.find? fun g => g.id = 0 && (stopReason g).isSome && gangStopped s g.id) = some (gang (.stopping 1) 0))
    ∧ ((findLaunch (scheduled .running []) 0 1).any fun l => launchOver (scheduled .running []) 0 l) = true
    ∧ (let s := { scheduled .running [gang .resident 0] with arrivals := [arrivalAt false] }
       ((findLaunch s 0 1).any fun l => barrierReady s 0 l 0 0 && !barrierCkpt s 0 l 0 0) = true) := by decide +kernel

/-- A queued strip of one word in group 0, loaded or not, and the group closed. -/
def strips (body : Option (List Word)) (fault : Option Trap) : State :=
  atTime 5 (modCore (fun k => { k with
    colL := { k.colL with queue := [{ hdr := 0x100000, len := 1, count := 1, grp := 0, body := body, fault := fault }] },
    groups := [{ id := 0, cols := [.colL], align := 0, closed := some 4 }] }) (stripping 1))
/-- Column L runs the last word of a repeat. -/
def repeating (count : Nat) : State :=
  modCore (fun k => { k with colL := { k.colL with run := some { hdr := 0, grp := 0, body := [0], count := count, rep := 0, idx := 1, next := 0 } } }) base
/-- The core's task is held. -/
def heldAs (h : Hold) : State := modCore (fun k => { k with hold := h }) (withTask (oneTask 0 0) base)

theorem test_witness_sequencers :
    (let s := strips none none
     ((loadNext s.core.colL).map (·.1)) = some 0 ∧ holds (fetchBody s 1 0x100004) (fun _ => true) = true ∧ holds (fetchBody s 1 0x200004) (fun _ => true) = false)
    ∧ (let s := strips (some [0]) none
       faultyHead s = none ∧ ((startable s).map (·.cols)) = some [.colL])
    ∧ (faultyHead (strips none (some { cause := .unmapped }))).isSome = true
    ∧ (repeating 2).core.colL.run.isSome = true ∧ 0 + 1 < 2 ∧ 1 ≤ 0 + 1
    ∧ gateDue (atTime 1024 (modCore (fun k => { k with units := { k.units with gated := false } }) base)) 0 = true := by decide +kernel

theorem test_witness_traps_and_debug :
    (let s := atTime 5 (modCore (fun k => { k with deferred := [(5, { cause := .poison })] }) (withTask (oneTask 0 0) base))
     dueTrap s s.core 0 = some (5, { cause := .poison }))
    ∧ (let s := withPage [] (heldAs (.walk [0x100000] 0 { cause := .unmapped }))
       (walkResult s 0x100000).isSome = true ∧ s.core.stopped = false ∧ (walkResult s 0x200000).isNone = true ∧ 0 ≤ cyc s)
    ∧ (heldAs (.supervisor { cause := .watchdog })).core.sys.trapCause.getLsbD 25 = false
    ∧ (withSys (fun y => { y with trapCause := 0x2000000 }) (heldAs (.supervisor { cause := .watchdog }))).core.sys.trapCause.getLsbD 25 = true
    ∧ installAll [] (heldAs .none) = heldAs .none ∧ (heldAs .none).core.task = some placedTask ∧ debugClosed (heldAs .none) = false
    ∧ (modCore (fun k => { k with stopped := true }) (heldAs .debug)).core.hold = .debug := by
  refine ⟨?_, ?_, ?_, ?_, rfl, ?_, ?_, ?_⟩ <;> decide +kernel

/-- A load of one line that has come, a store of one line, a window of two participants. -/
def loading (got : Bool) : ULoad :=
  { id := 0, due := 0, kind := .treg 0 0, src := [some 0x10000], lines := [(0x10000, 0x100000, page)], got := if got then [(0x10000, 0)] else [], poison := false, wait := [], cached := false, fail := none }
def storing : WStore := { id := 0, stamp := 0, due := 0, pc := 0, poison := false, lines := [{ pa := 0x10000, va := 0x100000, page := page, bytes := [(0, 5)] }] }
def window (counter : Bool) (pa : Nat) : Window := { cluster := 0, addr := pa, va := 0x100000, isCounter := counter, size := 4, close := 0, parts := [] }

theorem test_witness_traffic :
    slotStart 0 1009 < 1009 + 16 ∧ slotClaimed (atTime 1009 base) 0 (slotStart 0 1009) = false ∧ slotStart 255 0 = 1020
    ∧ unserved base (transfer false) = true ∧ 0 + 320 ≤ (atTime 320 base).now ∧ 0 + 96 ≤ (atTime 96 base).now
    ∧ (transfer true).late = false ∧ (modCore (fun k => { k with timed := [transfer true] }) base).core.timed[0]? = some (transfer true)
    ∧ loadComplete (loading true) = true ∧ loadComplete (loading false) = false ∧ (loading true).due ≤ cyc base
    ∧ (modCore (fun k => { k with stores := [storing] }) base).core.stores = [storing] ∧ storing.lines.length = 1
    ∧ (let r : RunCmd := { taken 0 copyCmd with follow := some 0b10000000000100000001110000000000 }
       let s := { withTask (oneTask 0 0) base with running := [r] }
       s.running[0]? = some r ∧ ((followStep 0b10000000000100000001110000000000 s).map (·.1)) = some 1 ∧ (readA s 1).window = false
        ∧ (let t := withT 0 2 (withT 1 2 (withA 1 (fun a => { a with window := true }) s))
           (readA t 1).window = true ∧ ((followStep 0b10000000000000000001110000000000 t).map fun x => holds x.2 fun _ => true) = some true))
    ∧ (window true 0x80800).close ≤ cycOf base 0 ∧ isRemote { base with windows := [] } 0x10000 = false := by decide +kernel

/-- A channel or link in a state, at cycle 1,024. -/
def lane (n : Nat) (c : Channel) : State := setLane { atTime 1024 base with liveEn := true } n c
def moving (done : Bool) : Migration :=
  { src := 0x10000, dst := 0x20000, va := 0x100000, world := 0, tier := 1, wish := 0, step := 3, bitmap := if done then BitVec.allOnes 1024 else 0, replica := none,
    erase := false, task := placedTask, seq := 0, next := 0 }

theorem test_witness_repair_and_migration :
    ({ base with liveEn := false } : State).liveEn = false ∧ (modCore (fun k => { k with timed := [transfer false] }) base).core.timed[0]? = some (transfer false)
    ∧ (let s := lane 259 { Channel.reset with errCount := 14 }
       (getLane s 259).st = 0 ∧ (getLane s 259).errCount.toNat + 1 < (getLane s 259).thresh.toNat ∧ s.liveEn = true)
    ∧ (let s := lane 259 { Channel.reset with errCount := 15, spares := 1 }
       (getLane s 259).thresh.toNat ≤ (getLane s 259).errCount.toNat + 1 ∧ (getLane s 259).spares.toNat < spareLanes 259)
    ∧ (let s := lane 255 { Channel.reset with st := 1 }
       (getLane s 255).st = 1 ∧ s.now % 1024 = 0)
    ∧ (getLane (lane 255 { Channel.reset with st := 2, repairs := 255 }) 255).st = 2 ∧ tierOf 0x200000000000 = .cxl ∧ tierOf 0x3FFFFFFFFFFF = .cxl
    ∧ (({ base with migQueue := [moving false] } : State).migQueue.find? (migReady base)) = some (moving false)
    ∧ nextLine (moving false).bitmap = some 0 ∧ nextLine (moving true).bitmap = none
    ∧ (let l := lineAt (withPage [(0, 7)] base) 0x10000 0
       l.poison = false ∧ l.unwritten = false) := by decide +kernel

/-- World 1 with a page at 0x10000, in a state of its sweep. -/
def sweeping (st : BitVec 2) (line : Nat) : State :=
  { setWorld serving 1 { World.absent with live := true, st := st, ptr := BitVec.ofNat 46 line } with
    pages := [(0x10000, 1, 0)], ptes := [], side := [(0x10000, { Side.neutral 1 0 with poison := true })] }
/-- A prefix page at 0x10000. -/
def prefixed (f : Prefix → Prefix) : State :=
  { serving with cxlUp := 255, hdm := [Hdm.model], prefixes := [f { world := 0, va := 0x100000, pa := 0x10000, clean := some 0x200000000000, wanted := true, refetching := false, ready := 0, lost := false }] }

theorem test_witness_sweeps :
    sweepReady (sweeping 1 0) 1 = true ∧ (getWorld (sweeping 2 0) 1).st = 2 ∧ sweepFrom (sweeping 2 0x800) 1 (0x800 * 64) = none
    ∧ sweepFrom (sweeping 2 0) 1 0 = some 0x10000 ∧ sweepFrom (sweeping 2 0) 1 (0x10000 + 64) = some 0x10040
    ∧ ((assocGet (sweeping 2 0).side 0x10000).map fun d => d.world.toNat) = some 1 ∧ pageKeySlot (sweeping 2 0) 0x10000 = 0
    ∧ ((findPrefix (prefixed id) 0x10000).any fun p => p.wanted && !p.refetching && !p.lost && p.clean = some 0x200000000000) = true
    ∧ ((findPrefix (prefixed fun p => { p with clean := none }) 0x10000).any fun p => p.wanted && p.clean = none) = true
    ∧ ((findPrefix (prefixed fun p => { p with refetching := true }) 0x10000).any fun p => p.refetching) = true
    ∧ pagePoisoned (prefixed id) 0x200000000000 0 = false ∧ refetchPage (prefixed id) 0x10000 = some 0
    ∧ pagePoisoned (poisonLine (prefixed id) 0x20000000FFC0) 0x200000000000 0 = true := by decide +kernel

theorem test_witness_host_link :
    base.linkUp = true ∧ base.phase = .booted ∧ spdmServed base = true ∧ spdmServed { base with linkUp := false } = false
    ∧ linkOverdue { atTime 1600000000 base with linkUp := false, linkHeld := true } = true
    ∧ (bound id).parts.toList.head?.map (·.tdisp) = some .unlocked ∧ (getPart (bound fun p => { p with tdisp := .locked }) 0).tdisp = .locked
    ∧ (measured base 4).isSome = true ∧ measured base 15 = none ∧ (measured (bound fun p => { p with tdisp := .locked }) 16).isSome = true
    ∧ measured (bound id) 16 = none := by decide +kernel

/-- The admin queue enabled, of 16 entries, with a command done. -/
def queued : State :=
  let r : HostRun := { queue := 256, ident := 3, flags := 2, sqHead := 0, done := true, dropped := false, status := 0, res0 := 0, res1 := 0, wait := .none, order := 0 }
  { putQueue base 256 { HQueue.reset with en := true, cqTail := 15, cqHead := 14 } with rdy := true, hostRuns := [r] }

theorem test_witness_queues_and_registers :
    takesDoorbell queued 256 = true ∧ takesDoorbell queued 0 = false ∧ sqSize (getQueue queued 256) = 16 ∧ queued.held = []
    ∧ headOk (getQueue queued 256) 15 = true ∧ headOk (getQueue queued 256) 0 = false ∧ queueThere queued 256 = true ∧ queueThere queued 257 = false
    ∧ ({ queued with queues := [] } : State).queues.length = 0 ∧ queued.mailbox.busy = false
    ∧ ((queued.hostRuns.find? (completable queued)).any fun r => r.done && !r.dropped && postable queued r.queue) = true := by decide +kernel

/-- Port 17 up to node 9 of group 3 of a load-store domain, at whose member 1 a word is read, and a flit of a type there. -/
def linked (f : Port → Port) : State :=
  { grouped with
    ports := grouped.ports.setIfInBounds 17 (f { Port.down with st := 2, lanes := 4, peer := 9, auth := true, serves := some 0 })
    remotes := [{ tag := 1, core := 0, isAtomic := false, pa := 0x810000000000, va := 0x200000, fill := 0, dest := 5, size := 8, signed := false, op := 0, operand := 0,
                  expected := 0, load := none, order := 0, target := none, record := false, release := false, agg := [], retryAt := some 0 }] }
def flit (type slots : Nat) (side : Nat) : Flit :=
  { port := 17, hdr0 := BitVec.ofNat 64 (5 + 9 * 2 ^ 18 + type * 2 ^ 42 + 3 * 2 ^ 48), hdr1 := BitVec.ofNat 64 (2 + 1 * 2 ^ 32 + slots * 2 ^ 48),
    slots := BitVec.ofNat 1728 (0x100000 + side * 2 ^ 512), gcm := 0, seq := 0, ack := 0, crc := 0 }
def received (type slots side : Nat) : State := withEv { EvArgs.none with flit := flit type slots side } (linked id)

theorem test_witness_flits :
    Takes flitLdReq (received flitLdReq 1 0) ∧ Takes flitAtomRsp (received flitAtomRsp 1 0)
    ∧ (linked fun p => { p with st := 0 }).ports.toList.length = 18 ∧ flitType (flit flitNull 0 0) = flitNull ∧ flitType (flit 9 0 0) ≠ flitNull
    ∧ ((received flitLdRsp 1 0).remotes.find? fun r => r.tag = flitTag (flit flitLdRsp 1 0) && r.isAtomic = false).isSome = true
    ∧ (({ linked id with remotes := (linked id).remotes.map fun r => { r with isAtomic := true } } : State).remotes.find? fun r =>
        r.tag = flitTag (flit flitAtomRsp 1 0) && r.isAtomic = true).isSome = true
    ∧ ((linked id).remotes.find? fun r => r.tag.toNat = 1 && r.retryAt.isSome).isSome = true
    ∧ (let s := received flitCopyData 2 0
       flitWorldOk (afterTake s) (flit flitCopyData 2 0) = true ∧ (flitSide (flit flitCopyData 2 0) 0).toNat = 0
        ∧ (flitLine (flit flitCopyData 2 0) 0).toNat % 2 ^ 64 = 0x100000 ∧ (putAll (flit flitCopyData 2 0) 0x100000 (afterTake s)).isSome = true)
    ∧ (copyrRun { afterTake (received flitCopyAck 1 0) with running := [{ taken 8 copyCmd with pending := true, xid := 1 }] } 1).isSome = true := by
  unfold Takes; decide +kernel

theorem test_witness_views_and_ports :
    commitSlot (linked id) { EvArgs.none.memb with group := 3, view := 3 } = some 0 ∧ commitSlot (linked id) { EvArgs.none.memb with group := 3, view := 2 } = none
    ∧ commitSlot (linked id) { EvArgs.none.memb with group := 4 } = some 1
    ∧ (getGroup (linked id) 0).valid = true ∧ coordinates (linked id) (getGroup (linked id) 0) = true ∧ (getGroup (linked id) 0).members.contains 9 = true
    ∧ (9 : Nat) ≠ (linked id).node.toNat ∧ (9 : Nat) ≠ noNode ∧ (getPort (linked id) 17).st = portUp
    ∧ (getPort (linked fun p => { p with replays := 16 }) 17).replays = 16 ∧ (getPort (linked fun p => { p with replays := 15 }) 17).replays < 16
    ∧ (getPort base 17).st ≠ portUp ∧ base.now < (getPort (linked fun p => { p with st := 0, retrainAt := 1 }) 17).retrainAt ∧ (getPort base 17).retrainAt ≤ base.now
    ∧ 2 ^ 32 ≤ (getPort (linked fun p => { p with txWraps := 2 ^ 32 }) 17).txWraps := by decide +kernel

/-! ### Domains, waits and the completion statements -/

/-- The group is the load-store domain of the package, at whose member 1 a page of world 0 lies. -/
def domained : State :=
  let p : Pte := { page with va := 0x300000, pa := 0x8020000000000 }
  modCore (fun k => { k with tlb := [p] }) { grouped with groups := grouped.groups.set 0 { getGroup grouped 0 with lsd := true }, ptes := p :: grouped.ptes }

/-- The window of member 1 is remote, that of the package's own member is not. -/
theorem test_witness_domain : isRemote domained 0x8020000000000 = true ∧ isRemote domained 0x8000000000000 = false
    ∧ holds (xlateAll domained false [0x300000]) (fun l => l.map (·.1) = [0x8020000000000]) = true
    ∧ isRemote { domained with windows := [] } 0x8020000000000 = true ∧ (window false 0x8020000000000).isCounter = false := by decide +kernel

/-- Nothing keeps an access of a page waiting; a page that is being switched does. -/
theorem test_witness_waits :
    (let s := withPage [] base
     accessWaits s 0 0x10000 = false ∧ writeWaits s 0 0x10000 = false ∧ switching s 0x10000 = false
      ∧ switching { s with migrations := [{ moving true with step := 4 }] } 0x10000 = true)
    ∧ storeReady (modCore (fun k => { k with stores := [storing] }) base) 0 = true ∧ windowOver base (window true 0x80800) = true
    ∧ windowOver base (window false 0x10000) = true ∧ pageQuiet base 0x10000 = true
    ∧ pageQuiet (modCore (fun k => { k with stores := [storing] }) base) 0x10000 = false ∧ behindOwn base.core (transfer true) = false
    ∧ nextMigration { base with migQueue := [moving false] } = some (moving false) ∧ isDonated base 0 0 = false := by decide +kernel

theorem test_witness_cached_poison :
    (let d : Side := { Side.neutral 0 0 with poison := true }
     let c : CacheLine := { va := 0x100000, data := 5, side := some d }
     let s := modCore (fun k => { k with readCache := [c] }) (withG 5 0x100000 (withPage [] base))
     cachedPoison c = true ∧ cacheGet s.core.readCache 0x100000 = some c ∧ cachedFail s page 0x10000 0x100000 c = none)
    ∧ cachedPoison { va := 0x100000, data := 5, side := none } = false := by decide +kernel

theorem test_witness_walks :
    (let s := strips none none
     (loadNext s.core.colL).all (fun x => (bodyMiss s x.2).isNone) = true
      ∧ (loadNext s.core.colL).any (fun x => (bodyMiss (modCore (fun k => { k with tlb := [] }) s) x.2).isSome) = true)
    ∧ walksBack (withPage [] (heldAs (.walk [0x100000] 0 { cause := .unmapped }))) 0 = true
    ∧ (let s := putCluster base { getCluster base 0 with faultQ := [{ core := 0, cmd := none }] }
       firstEntry s = some { core := 0, cmd := none } ∧ s.core.hold = .none) := by decide +kernel

theorem test_witness_barrier :
    (let s := { scheduled .running [gang .resident 0] with arrivals := [arrivalAt false] }
     ((findLaunch s 0 1).any fun l => meetReady s 0 l 0 0 && levelDomain l 0 ≠ 4 && !barrierCkpt s 0 l 0 0) = true)
    ∧ (let s := withTask (oneTask 1 0) base
       workDone s.core = true ∧ s.core.loads = [] ∧ s.core.stores = [] ∧ s.core.timed = [])
    ∧ faultyHead (strips (some [0]) none) = none ∧ ((startable (strips (some [0]) none)).any fun g => g.cols = [.colL]) = true := by decide +kernel

/-- What the host and the peers of the fabric send: a request without IDE for a VF in RUN, a session with node 9, a view and its commit. -/
theorem test_witness_requests :
    (let s := bound fun p => { p with tdisp := .run }
     ideRefused (withEv { EvArgs.none with ide := false } s) 0 = true ∧ ideRefused s 0 = false ∧ ideRefused s 16 = false)
    ∧ takesHead queued 256 = true ∧ takesHead queued 0 = false
    ∧ (let s := withEv { EvArgs.none with n := 18, k := spdmExchange, flag := true } (linked fun p => { p with auth := false })
       s.phase = .booted ∧ (getPort s 17).st = portUp ∧ s.ev.n = 17 + 1)
    ∧ spdmServed { base with spdm := true } = true ∧ ({ base with spdm := true } : State).spdm = true
    ∧ (let m : Memb := { EvArgs.none.memb with kind := .view, port := 17, group := 3, view := 3, members := [5, 9] }
       let s := linked id
       (getPort s m.port).st = portUp ∧ (getPort s m.port).auth = true ∧ m.seq = (getPort s m.port).rxSeq ∧ commitSlot (receiveFlit m.port m.ack s) m = some 0
        ∧ (let t := setGroup s 0 { getGroup s 0 with pending := true, next := some m }
           commitOf (receiveFlit m.port m.ack t) { m with kind := .commit } = some (0, m))
        ∧ lostMembers (setGroup (atTime 8000000 s) 0 { getGroup s 0 with probes := [(9, 0)] }) 0 = [9])
    ∧ (let f := flit flitNull 0 0
       flitType f = flitNull ∧ flitTag f = replayTag ∧ flitTag { f with hdr1 := 0 } ≠ replayTag
        ∧ (getPort (linked fun p => { p with serves := none }) 17).serves = none ∧ (getPort (linked id) 17).pend = []) := by decide +kernel

/-- Commands accepted on the admin queue and on a queue of a partition, and copies that go through whole. -/
theorem test_witness_host_completion :
    (let h := hostRecord 256 [(2, 5)]
     h.queue ≠ mailboxQueue ∧ hostIdent h ≠ 0xFFFF ∧ hostCommonOk (fetchEntry queued 256) h = true ∧ (fetchEntry queued 256).linkUp = true)
    ∧ (let h := hostRecord 0 [(2, 5), (8, 0x40), (16, 0x100000), (24, 64)]
       let z := fetchEntry serving 0
       h.queue ≠ mailboxQueue ∧ hostCommonOk z h = true ∧ hostCopyValid ptr1 h z = true ∧ (toDevice (hostWorld h) (copyLen h / 64) (ptr0 h) (ptr1 h) z).2 = 0)
    ∧ (let h := hostRecord 0 [(2, 5), (8, 0x100000), (16, 0x40), (24, 64)]
       let z := fetchEntry serving 0
       hostCopyValid ptr0 h z = true ∧ (toHost (hostWorld h) (copyLen h / 64) (ptr0 h) (ptr1 h) false z).2 = (0, false))
    ∧ quotaFrozen (fetchEntry (bound id) 256) 1 = false ∧ qresetQueue (hostRecord 256 [(25, 0xFF)]) = adminQueue := by decide +kernel

end Sys2Proof.Tests
end

namespace Sys2Proof.Machine

/-! ### Outcomes that are a next state (01_package R29)

The lemmas of this layer follow the branches of the model's functions: each branch is a next state, or it is a form that several functions share and that
has its own lemma. -/

/-- The outcome is a next state: neither a fault nor a refusal. -/
def Goes (o : Out) : Prop := ∃ t, o = .next t

theorem goes_next (t : State) : Goes (.next t) := ⟨t, rfl⟩

theorem goes_ite {c : Prop} [Decidable c] {a b : Out} (ha : Goes a) (hb : Goes b) : Goes (if c then a else b) := by
  split
  · exact ha
  · exact hb

/-! ### Loads, stores and atomics of the S stream (12_isa_scalar R411 to R418) -/

theorem goes_loadLocal (d : GReg) (addr size : Nat) (signed : Bool) (s : State) : Goes (loadLocal d addr size signed s) := by
  unfold loadLocal
  dsimp only
  split
  · exact goes_next _
  · exact goes_ite (goes_next _) (goes_next _)
  · exact goes_next _
  · exact goes_next _
  · exact goes_ite (goes_next _) (goes_next _)

theorem goes_storeLocal (addr size : Nat) (x : Dword) (s : State) : Goes (storeLocal addr size x s) := by
  unfold storeLocal
  dsimp only
  split
  · exact goes_next _
  · exact goes_ite (goes_next _) (goes_next _)
  · exact goes_next _

theorem goes_loadHome (d : GReg) (p : Pte) (pa va size : Nat) (signed : Bool) (v : Via) (s : State) : Goes (loadHome d p pa va size signed v s) := by
  unfold loadHome
  split <;> exact goes_next _

theorem goes_loadMapped (d : GReg) (p : Pte) (pa va size : Nat) (signed : Bool) (v : Via) (s : State) : Goes (loadMapped d p pa va size signed v s) := by
  unfold loadMapped
  refine goes_ite (goes_next _) (goes_ite (goes_next _) ?_)
  split
  · split
    · exact goes_next _
    · exact goes_ite (goes_next _) (goes_next _)
  · exact goes_ite (goes_next _) (goes_ite (goes_next _) (goes_loadHome ..))

theorem goes_loadGlobal (d : GReg) (va size : Nat) (signed : Bool) (v : Via) (s : State) : Goes (loadGlobal d va size signed v s) := by
  unfold loadGlobal
  refine goes_ite (goes_next _) ?_
  split
  · exact goes_loadMapped ..
  · split <;> exact goes_next _

theorem goes_storeGlobal (va size : Nat) (x : Dword) (s : State) : Goes (storeGlobal va size x s) := by
  unfold storeGlobal
  split
  · exact goes_next _
  · refine goes_ite (goes_next _) (goes_ite (goes_next _) ?_)
    dsimp only
    split <;> exact goes_next _

theorem goes_loadWeight (d : GReg) (off size : Nat) (signed : Bool) (s : State) : Goes (loadWeight d off size signed s) :=
  goes_ite (goes_next _) (goes_ite (goes_next _) (goes_next _))

theorem goes_loadForm (o : RMem) (signed : Bool) (s : State) : Goes (loadForm o signed s) := by
  unfold loadForm
  refine goes_ite (goes_next _) ?_
  split
  · exact goes_loadLocal ..
  · exact goes_loadGlobal ..
  · exact goes_loadWeight ..
  · exact goes_loadGlobal ..

theorem goes_execLdnc (o : RMemNc) (s : State) : Goes (execLdnc o s) := goes_ite (goes_next _) (goes_loadGlobal ..)

theorem goes_execSt (o : RMem) (s : State) : Goes (execSt o s) := by
  unfold execSt
  refine goes_ite (goes_next _) (goes_ite (goes_next _) ?_)
  split
  · exact goes_storeLocal ..
  · exact goes_storeGlobal ..
  · exact goes_next _

theorem goes_atomLocal (a : AtomOp) (addr : Nat) (s : State) : Goes (atomLocal a addr s) := by
  unfold atomLocal
  dsimp only
  split
  · exact goes_next _
  · exact goes_ite (goes_next _) (goes_next _)
  · exact goes_ite (goes_next _) (goes_next _)

theorem goes_atomHome (a : AtomOp) (p : Pte) (pa va : Nat) (s : State) : Goes (atomHome a p pa va s) :=
  goes_ite (goes_next _) (goes_ite (goes_next _) (goes_next _))

theorem goes_atomGlobal (a : AtomOp) (va : Nat) (s : State) : Goes (atomGlobal a va s) := by
  unfold atomGlobal
  refine goes_ite (goes_next _) ?_
  split
  · exact goes_next _
  · exact goes_ite (goes_next _) (goes_ite (goes_next _) (goes_ite (goes_next _) (goes_ite (goes_next _) (goes_ite (goes_next _) (goes_atomHome ..)))))

theorem goes_atomForm (a : AtomOp) (addr : GReg) (s : State) : Goes (atomForm a addr s) :=
  goes_ite (goes_next _) (goes_ite (goes_atomLocal ..) (goes_atomGlobal ..))

theorem goes_execAagg (o : RAgg) (s : State) : Goes (execAagg o s) := by
  unfold execAagg
  refine goes_ite (goes_next _) (goes_ite (goes_next _) (goes_ite (goes_ite (goes_ite (goes_next _) (goes_next _)) (goes_next _)) ?_))
  split
  · exact goes_next _
  · refine goes_ite (goes_next _) (goes_ite (goes_next _) (goes_ite (goes_next _) (goes_ite (goes_next _) ?_)))
    exact goes_ite (goes_next _) (goes_ite (goes_next _) (goes_next _))

theorem goes_execRcsnap (o : RSnap) (s : State) : Goes (execRcsnap o s) := by
  unfold execRcsnap
  refine goes_ite (goes_next _) ?_
  split
  · exact goes_next _
  · split
    · exact goes_next _
    · refine goes_ite (goes_next _) (goes_ite (goes_next _) ?_)
      dsimp only
      split <;> exact goes_next _

theorem goes_execFenceSc (c : BitVec 2) (s : State) : Goes (execFenceSc c s) :=
  goes_ite (goes_next _) (goes_ite (goes_ite (goes_next _) (goes_next _)) (goes_ite (goes_next _) (goes_next _)))

/-! ### Control, flags, queues and slots of the S stream -/

theorem goes_execFwaitReg (v : BitVec 1) (o : RFlag) (s : State) : Goes (execFwaitReg v o s) :=
  goes_ite (goes_ite (goes_next _) (goes_next _)) (goes_ite (goes_next _) (goes_next _))

theorem goes_execFwaitaReg (o : RFlag) (s : State) : Goes (execFwaitaReg o s) :=
  goes_ite (goes_ite (goes_next _) (goes_next _)) (goes_ite (goes_next _) (goes_next _))

theorem goes_execQget (d : GReg) (q : BitVec 4) (s : State) : Goes (execQget d q s) := by
  unfold execQget
  dsimp only
  split
  · exact goes_next _
  · exact goes_ite (goes_next _) (goes_next _)

theorem goes_execQpeek (d : GReg) (q : BitVec 4) (s : State) : Goes (execQpeek d q s) := by
  unfold execQpeek
  split
  · exact goes_next _
  · exact goes_ite (goes_next _) (goes_next _)

theorem goes_execRingacq (o : R3) (s : State) : Goes (execRingacq o s) := by
  unfold execRingacq
  split
  · exact goes_next _
  · exact goes_ite (goes_next _) (goes_next _)

theorem goes_execRingrel (o : R3) (s : State) : Goes (execRingrel o s) := by
  unfold execRingrel
  split <;> exact goes_next _

theorem goes_execMts (a : GReg) (r : BitVec 12) (s : State) : Goes (execMts a r s) := by
  unfold execMts
  split <;> exact goes_next _

/-! ### Strips, engines, barriers and launches of the S stream -/

theorem goes_execStrip (o : RStrip) (s : State) : Goes (execStrip o s) := by
  unfold execStrip
  refine goes_ite (goes_next _) ?_
  dsimp only
  split
  · exact goes_next _
  · exact goes_ite (goes_next _) (goes_ite (goes_next _) (goes_ite (goes_next _) (goes_next _)))

theorem goes_execPush (o : RPush) (s : State) : Goes (execPush o s) :=
  goes_ite (goes_next _) (goes_ite (goes_next _) (goes_ite (goes_next _) (goes_ite (goes_next _) (goes_ite (goes_next _) (goes_next _)))))

theorem goes_execCwait (o : RWait) (s : State) : Goes (execCwait o s) := by
  unfold execCwait
  refine goes_ite (goes_next _) (goes_ite (goes_next _) ?_)
  split
  · exact goes_next _
  · refine goes_ite (goes_next _) (goes_ite (goes_next _) (goes_ite (goes_next _) ?_))
    split
    · exact goes_next _
    · exact goes_ite (goes_next _) (goes_next _)

theorem goes_meetWaiting (t : TaskRef) (lv : Nat) (s : State) : Goes (meetWaiting t lv s) := by
  unfold meetWaiting
  split
  · exact goes_next _
  · exact goes_ite (goes_next _) (goes_ite (goes_next _) (goes_next _))

theorem goes_meetArrive (t : TaskRef) (l : Launch) (lv form : Nat) (s : State) : Goes (meetArrive t l lv form s) :=
  goes_ite (goes_next _) (goes_ite (goes_next _) (goes_ite (goes_next _) (goes_ite (goes_next _) (goes_next _))))

theorem goes_execMeet (o : RMeet) (s : State) : Goes (execMeet o s) := by
  unfold execMeet
  dsimp only
  split
  · exact goes_ite (goes_next _) (goes_ite (goes_meetWaiting ..) (goes_meetArrive ..))
  · exact goes_next _

theorem goes_launchRecord (t : TaskRef) (own : Launch) (wait : Bool) (d : GReg) (bits : BitVec 2048) (s : State) :
    Goes (launchRecord t own wait d bits s) :=
  goes_ite (goes_next _) (goes_ite (goes_ite (goes_next _) (goes_next _)) (goes_next _))

theorem goes_launchForm (wait : Bool) (o : R2) (s : State) : Goes (launchForm wait o s) := by
  unfold launchForm
  dsimp only
  split
  next =>
    refine goes_ite (goes_next _) (goes_ite (goes_next _) (goes_ite (goes_next _) ?_))
    split
    · exact goes_next _
    · split
      · refine goes_ite (goes_next _) (goes_ite (goes_next _) ?_)
        split
        · exact goes_next _
        · exact goes_ite (goes_next _) (goes_ite (goes_next _) (goes_launchRecord ..))
      · exact goes_next _
  next => exact goes_next _

theorem goes_execYieldGang (s : State) : Goes (execYieldGang s) := by
  unfold execYieldGang
  split
  · exact goes_ite (goes_next _) (goes_ite (goes_next _) (goes_next _))
  · exact goes_next _

theorem goes_execExit (s : State) : Goes (execExit s) :=
  goes_ite (goes_next _) (goes_ite (goes_ite (goes_next _) (goes_next _)) (goes_ite (goes_ite (goes_next _) (goes_next _))
    (goes_ite (goes_next _) (goes_next _))))

theorem goes_execEret (s : State) : Goes (execEret s) := by
  unfold execEret
  refine goes_ite (goes_next _) ?_
  split
  · exact goes_next _
  · exact goes_ite (goes_next _) (goes_next _)
  · exact goes_ite (goes_next _) (goes_next _)
  · exact goes_next _

/-! ### Words of the columns -/

theorem goes_runCol (c : Col) (s : State) (r : Chk State) : Goes (runCol c s r) := by
  unfold runCol
  split <;> exact goes_next _

theorem goes_runMem (c : Col) (s : State) (r : MChk State) : Goes (runMem c s r) := by
  unfold runMem
  split <;> exact goes_next _

theorem goes_finishV (d : BitVec 5) (x : Slot) (lat busy : Nat) (v : VNew) (r : Rounding) (s : State) : Goes (finishV d x lat busy v r s) :=
  goes_ite (goes_next _) (goes_next _)

theorem goes_runV (s : State) (d : BitVec 5) (x : Slot) (lat : Nat) (r : Chk (Nat × VNew × Rounding)) : Goes (runV s d x lat r) := by
  unfold runV
  split
  · exact goes_next _
  · exact goes_finishV ..

theorem goes_execKvx (o : KvxOp) (s : State) : Goes (execKvx o s) := by
  unfold execKvx
  dsimp only
  split
  · exact goes_next _
  · exact goes_runMem ..

theorem goes_execAcst (o : AcstOp) (s : State) : Goes (execAcst o s) := by
  unfold execAcst
  extract_lets _ _ r
  clear_value r
  split
  · exact goes_runMem ..
  · dsimp only
    split
    · exact goes_runMem ..
    · exact goes_ite (goes_next _) (goes_next _)

theorem goes_execColQput (o : CQ) (s : State) : Goes (execColQput o s) := goes_ite (goes_next _) (goes_runCol ..)

theorem goes_execColQget (o : CQ) (s : State) : Goes (execColQget o s) := by
  unfold execColQget
  dsimp only
  split
  · exact goes_next _
  · exact goes_runCol ..

/-! ### Commands of the engines and of the host -/

theorem goes_startCommand (eng : Nat) (c : Cmd) (valid : State → Bool) (ready : State → Chk Unit) (work : RunCmd → State → State) (s : State) :
    Goes (startCommand eng c valid ready work s) := by
  unfold startCommand
  refine goes_ite (goes_next _) ?_
  split <;> exact goes_next _

theorem goes_execWload (c : Cmd) (s : State) : Goes (execWload c s) := goes_ite (goes_next _) (goes_startCommand ..)

theorem goes_execKfree (c : Cmd) (s : State) : Goes (execKfree c s) := goes_ite (goes_next _) (goes_startCommand ..)

theorem goes_hostCommand (h : HostCmd) (valid : State → Bool) (act : State → State × Answer) (s : State) : Goes (hostCommand h valid act s) :=
  goes_ite (goes_next _) (goes_ite (goes_next _) (goes_next _))

/-! ### Events of engines, migrations, worlds and registered pages -/

theorem goes_execCommandEnd (s : State) : Goes (execCommandEnd s) := by
  unfold execCommandEnd
  split <;> exact goes_next _

theorem goes_execFollowOnIssue (s : State) : Goes (execFollowOnIssue s) := by
  unfold execFollowOnIssue
  split
  · exact goes_next _
  · dsimp only
    split
    · exact goes_next _
    · split
      · exact goes_next _
      · refine goes_ite (goes_next _) ?_
        split <;> exact goes_next _

theorem goes_execMigrationStart (s : State) : Goes (execMigrationStart s) := by
  unfold execMigrationStart
  split <;> exact goes_next _

theorem goes_execMigrationLineCopy (s : State) : Goes (execMigrationLineCopy s) := by
  unfold execMigrationLineCopy
  split
  · exact goes_next _
  · split <;> exact goes_next _

theorem goes_execMigrationSwitch (s : State) : Goes (execMigrationSwitch s) := by
  unfold execMigrationSwitch
  split
  · exact goes_next _
  · exact goes_ite (goes_next _) (goes_ite (goes_next _) (goes_ite (goes_next _) (goes_next _)))

theorem goes_execMigrationAbandon (s : State) : Goes (execMigrationAbandon s) := by
  unfold execMigrationAbandon
  split
  · exact goes_next _
  · exact goes_ite (goes_next _) (goes_next _)

theorem goes_execSweepLine (s : State) : Goes (execSweepLine s) := by
  unfold execSweepLine
  refine goes_ite (goes_next _) ?_
  dsimp only
  split
  · exact goes_next _
  · split <;> exact goes_next _

theorem goes_execPrefixRefetch (s : State) : Goes (execPrefixRefetch s) := by
  unfold execPrefixRefetch
  split
  · exact goes_next _
  · refine goes_ite (goes_next _) ?_
    split <;> exact goes_next _

theorem goes_execRefetchingMarkClear (s : State) : Goes (execRefetchingMarkClear s) := by
  unfold execRefetchingMarkClear
  split
  · exact goes_next _
  · refine goes_ite (goes_next _) ?_
    split
    · exact goes_next _
    · refine goes_ite (goes_next _) ?_
      split <;> exact goes_next _

/-! ### Events of the scheduler and of cores -/

theorem goes_execLaunchEnd (s : State) : Goes (execLaunchEnd s) := by
  unfold execLaunchEnd
  split <;> exact goes_next _

theorem goes_execAgeingPromotion (s : State) : Goes (execAgeingPromotion s) := by
  unfold execAgeingPromotion
  split <;> exact goes_next _

theorem goes_execPreemptionSave (s : State) : Goes (execPreemptionSave s) := by
  unfold execPreemptionSave
  split
  · exact goes_next _
  · split <;> exact goes_next _

theorem goes_execBarrierComplete (s : State) : Goes (execBarrierComplete s) := by
  unfold execBarrierComplete
  dsimp only
  split
  · exact goes_next _
  · exact goes_ite (goes_next _) (goes_next _)

theorem goes_execStripBodyLoad (s : State) : Goes (execStripBodyLoad s) := by
  unfold execStripBodyLoad
  dsimp only
  split
  · exact goes_next _
  · split <;> exact goes_next _

theorem goes_execStripGroupStart (s : State) : Goes (execStripGroupStart s) := by
  unfold execStripGroupStart
  dsimp only
  split
  · exact goes_next _
  · split <;> exact goes_next _

theorem goes_execStripRepeatEnd (s : State) : Goes (execStripRepeatEnd s) := by
  unfold execStripRepeatEnd
  refine goes_ite (goes_next _) ?_
  dsimp only
  split
  · exact goes_next _
  · exact goes_ite (goes_next _) (goes_next _)

theorem goes_execSlotMiss (s : State) : Goes (execSlotMiss s) := by
  unfold execSlotMiss
  dsimp only
  split <;> exact goes_next _

theorem goes_execTimedReadDelivery (s : State) : Goes (execTimedReadDelivery s) := by
  unfold execTimedReadDelivery
  dsimp only
  split <;> exact goes_next _

theorem goes_execTimedWriteAccept (s : State) : Goes (execTimedWriteAccept s) := by
  unfold execTimedWriteAccept
  dsimp only
  split
  · exact goes_next _
  · exact goes_ite (goes_next _) (goes_next _)

theorem goes_execUntimedLoadArrival (s : State) : Goes (execUntimedLoadArrival s) := by
  unfold execUntimedLoadArrival
  dsimp only
  split <;> exact goes_next _

theorem goes_execTranslationWalkDone (s : State) : Goes (execTranslationWalkDone s) := by
  unfold execTranslationWalkDone
  dsimp only
  split <;> exact goes_next _

theorem goes_execAaggWindowClose (s : State) : Goes (execAaggWindowClose s) := by
  unfold execAaggWindowClose
  split
  · exact goes_next _
  · exact goes_ite (goes_next _) (goes_next _)

theorem goes_execTrapEntry (s : State) : Goes (execTrapEntry s) := by
  unfold execTrapEntry
  dsimp only
  split <;> exact goes_next _

theorem goes_execSupervisorResolve (s : State) : Goes (execSupervisorResolve s) := by
  unfold execSupervisorResolve
  dsimp only
  split
  · exact goes_next _
  · exact goes_next _
  · split
    · exact goes_next _
    · split <;> exact goes_next _

/-! ### Events of links, ports and the host interface -/

theorem goes_execPortRetrain (s : State) : Goes (execPortRetrain s) :=
  goes_ite (goes_next _) (goes_ite (goes_next _) (goes_ite (goes_next _) (goes_ite (goes_next _) (goes_next _))))

theorem goes_acceptFlit (type : Nat) (act : Flit → State → State) (s : State) : Goes (acceptFlit type act s) :=
  goes_ite (goes_next _) (goes_ite (goes_next _) (goes_ite (goes_next _) (goes_next _)))

theorem goes_execNull (s : State) : Goes (execNull s) := goes_ite (goes_next _) (goes_ite (goes_next _) (goes_next _))

theorem goes_execRemoteRetry (s : State) : Goes (execRemoteRetry s) := by
  unfold execRemoteRetry
  split <;> exact goes_next _

theorem goes_execGovernorWindow (s : State) : Goes (execGovernorWindow s) := by
  unfold execGovernorWindow
  refine goes_ite (goes_next _) (goes_ite (goes_next _) (goes_ite (goes_next _) ?_))
  split
  · exact goes_next _
  · split <;> exact goes_next _

theorem goes_execHostCommandComplete (s : State) : Goes (execHostCommandComplete s) := by
  unfold execHostCommandComplete
  split
  · exact goes_next _
  · split <;> exact goes_next _

/-! ### Every instruction, command and event -/

theorem goes_exec (i : Instr) (s : State) : Goes (exec i s) := by
  cases i with unfold exec
  | trap _ | add _ | sub _ | mul _ | mulh _ | mulhz _ | div _ | divz _ | rem _ | remz _ | andR _ | orR _ | xorR _ | shl _ | shr _ | sra _ | minR _
  | maxR _ | minz _ | maxz _ | clz _ | ctz _ | popc _ | addi _ | andi _ | ori _ | xori _ | shli _ | shri _ | srai _ | li _ | lui _ | lhi _ | addpc _
  | fshl _ | fshr _ | bxt _ | bxz _ | bins _ | sel _ | cmp _ | cmpi _ | ptgt _ _ | fset _ | fclr _ | ftgl _ | ftest _ _ | fmov _ _ | ftestReg _
  | qcnt _ _ | mfs _ _ | colFset _ | colFclr _ | nopg _ | vany _ | vall _ | mand _ | mor _ | mxor _ | mnot _ | mwake _ | mopen _ | mshut _ | eadd _
  | eset _ | emov _ | nop | powerOnReset | hotReset | powerTrip | powerTripRelease | thermalPowerOff | islCtlTgtWrite | drainComplete | islandAbandon
  | relockEnd | strokeTick | weightsLate | gangDispatch | wideGangStart | slotDonation | storePerformed | linkCrcFail | voidWindowStart | repairEnd
  | errorWindowBoundary | cxlPoisonReport | hostLinkRetrain | spdmGetMeasurements | spdmKeyExchange | memberLost | sqTailWrite | cqHeadWrite
  | qctlEnSet | qctlEnClear | wdogSetApply | dbgStop | dbgResume | fabpStatRead | registerWrite | softError | subarrayGate =>
    exact goes_next _
  | bxti _ | bxzi _ | binsi _ | ptgtr _ _ | xfer _ | xcall _ | fwait _ _ | fwaita _ | fsetReg _ | fclrReg _ | ftglReg _ | fmovReg _ | qput _ _
  | qputToken _ | ldsl _ | stsl _ | fenceInv _ | colFwait _ | brk | watchdogExpiry | cxlDown | cxlRetrain | sweepStart | hostLinkDown | hostLinkLost
  | ideCheckFail | lockInterface | startInterface | stopInterface | ideKmKeyProg | memb | flitCheckFail | linkRekey =>
    exact goes_ite (goes_next _) (goes_next _)
  | fwaitReg _ _ => exact goes_execFwaitReg ..
  | fwaitaReg _ => exact goes_execFwaitaReg ..
  | qget _ _ => exact goes_execQget ..
  | qpeek _ _ => exact goes_execQpeek ..
  | ld _ | ldz _ => exact goes_loadForm ..
  | st _ => exact goes_execSt ..
  | ldnc _ => exact goes_execLdnc ..
  | atom _ | acas _ => exact goes_atomForm ..
  | aagg _ => exact goes_execAagg ..
  | rcsnap _ => exact goes_execRcsnap ..
  | fenceAcq _ | fenceRel _ | fenceAr _ => exact goes_ite (goes_next _) (goes_ite (goes_next _) (goes_next _))
  | fenceSc _ => exact goes_execFenceSc ..
  | push _ => exact goes_execPush ..
  | strip _ => exact goes_execStrip ..
  | cwait _ => exact goes_execCwait ..
  | meet _ => exact goes_execMeet ..
  | launch _ | launchw _ => exact goes_launchForm ..
  | ringacq _ => exact goes_execRingacq ..
  | ringrel _ => exact goes_execRingrel ..
  | mts _ _ => exact goes_execMts ..
  | colQput _ => exact goes_execColQput ..
  | colQget _ => exact goes_execColQget ..
  | vadd _ | vsub _ | vmul _ | vmin _ | vmax _ | vabs _ | vneg _ | vcpsgn _ | vfma _ | vfms _ | vfnma _ | vexp2 _ | vlog2 _ | vrcp _ | vrsq _
  | vsqrt _ | vsigm _ | viadd _ | visub _ | vimul _ | vimin _ | vimax _ | viminz _ | vimaxz _ | vand _ | vor _ | vxor _ | vshl _ | vshr _ | vsra _
  | vpopc _ | vbxt _ | vbxz _ | vbins _ | vfshl _ | vfshr _ | vsel _ | vrsum _ | vrmax _ | vrmin _ | vcsum _ | vcmax _ | vperm _ | vtrn _ | vbcast _
  | vrot _ | vcvt _ | vquant _ | vdeq _ | vmov _ | vldi _ => exact goes_runV ..
  | vcmp _ | vshape _ | mrange _ | mma _ | mmas _ | mmag _ | mzero _ | mclose _ | smxstep _ | smxfin _ | smxmerge _ | mstget _ | mstset _ | macc2v _
  | mv2acc _ | madh _ | wld _ => exact goes_runCol ..
  | ldt _ | ldtu _ | tld _ | vld _ | gld _ | bfx _ | stt _ | sttu _ | twr _ | vst _ | sct _ => exact goes_runMem ..
  | kvx _ => exact goes_execKvx ..
  | acst _ => exact goes_execAcst ..
  | partCreate _ | partResize _ | partDestroy _ | partReset _ | worldCreate _ | worldDestroy _ | worldBind _ | worldUnbind _ | quotaGet _
  | quotaSet _ | pageAlloc _ | pageFree _ | prefixReg _ | keyRotate _ | powerCapSet _ | fwWrite _ | cfgWrite _ | logRead _ | errRead _ | resync _
  | qreset _ | queueLaunch _ | copyH2d _ | copyD2h _ | objWait _ => exact goes_hostCommand ..
  | copy2d _ | copyr _ | slattn _ | lgmerge _ | lgunmerge _ | lgsave _ | lgdrop _ | adpin _ | adunpin _ | adpubCreate _ | adpubGrant _
  | adpubPrepare _ | adpubCommit _ | adpubDelete _ | kalloc _ | kallocPool _ | kextendAlloc _ | kextendShare _ | kextendSetlen _ | migrate _
  | migrateReplica _ | migrateCancel _ | colred _ | colgat _ | colscat _ => exact goes_startCommand ..
  | kfree _ => exact goes_execKfree ..
  | wload _ => exact goes_execWload ..
  | eret => exact goes_execEret ..
  | yieldGang => exact goes_execYieldGang ..
  | exit => exact goes_execExit ..
  | governorWindow => exact goes_execGovernorWindow ..
  | ageingPromotion => exact goes_execAgeingPromotion ..
  | preemptionSave => exact goes_execPreemptionSave ..
  | launchEnd => exact goes_execLaunchEnd ..
  | barrierComplete => exact goes_execBarrierComplete ..
  | stripBodyLoad => exact goes_execStripBodyLoad ..
  | stripGroupStart => exact goes_execStripGroupStart ..
  | stripRepeatEnd => exact goes_execStripRepeatEnd ..
  | slotMiss => exact goes_execSlotMiss ..
  | timedReadDelivery => exact goes_execTimedReadDelivery ..
  | timedWriteAccept => exact goes_execTimedWriteAccept ..
  | untimedLoadArrival => exact goes_execUntimedLoadArrival ..
  | migrationStart => exact goes_execMigrationStart ..
  | migrationSwitch => exact goes_execMigrationSwitch ..
  | migrationAbandon => exact goes_execMigrationAbandon ..
  | sweepLine => exact goes_execSweepLine ..
  | prefixRefetch => exact goes_execPrefixRefetch ..
  | null => exact goes_execNull ..
  | ldReq | ldRsp | atomReq | atomRsp | nack | copyData | copyAck | colData => exact goes_acceptFlit ..
  | remoteRetry => exact goes_execRemoteRetry ..
  | portRetrain => exact goes_execPortRetrain ..
  | hostCommandComplete => exact goes_execHostCommandComplete ..
  | trapEntry => exact goes_execTrapEntry ..
  | supervisorResolve => exact goes_execSupervisorResolve ..
  | translationWalkDone => exact goes_execTranslationWalkDone ..
  | aaggWindowClose => exact goes_execAaggWindowClose ..
  | commandEnd => exact goes_execCommandEnd ..
  | followOnIssue => exact goes_execFollowOnIssue ..
  | migrationLineCopy => exact goes_execMigrationLineCopy ..
  | refetchingMarkClear => exact goes_execRefetchingMarkClear ..

/-! ### Acts and steps -/

theorem goes_take (a : Act) : Goes a.take := by
  cases a with
  | run i s => exact goes_exec i s
  | set s => exact goes_next s

/-- A package that is not switched off takes a step: it boots, or it does what is due. -/
theorem goes_step_of_on {s : State} (h : s.phase ≠ .off) : Goes (step s) := by
  unfold step
  split
  next off => exact absurd off h
  next => exact goes_exec ..
  next => exact goes_take _
  next => exact goes_take _

theorem step_of_off_of_input {s : State} {a : Act} (off : s.phase = .off) (h : powerInput s = some a) : step s = a.take := by
  simp only [step, off, h]

theorem step_of_off_of_noInput {s : State} (off : s.phase = .off) (h : powerInput s = none) : step s = .fault .poweredOff := by
  simp only [step, off, h]

theorem goes_step_of_powered {s : State} (h : Powered s) : Goes (step s) := by
  by_cases off : s.phase = .off
  · rcases h with on | input
    · exact absurd off on
    · obtain ⟨a, ha⟩ := Option.isSome_iff_exists.mp input
      rw [step_of_off_of_input off ha]
      exact goes_take a
  · exact goes_step_of_on off

theorem step_of_not_powered {s : State} (h : ¬ Powered s) : step s = .fault .poweredOff := by
  obtain ⟨off, noInput⟩ := not_or.mp h
  exact step_of_off_of_noInput (Decidable.not_not.mp off) (Option.not_isSome_iff_eq_none.mp noInput)

end Sys2Proof.Machine

namespace Sys2Proof.Proofs

open Sys2Proof.Machine

/-- Settles O8: every arm of `exec` ends in a next state, and so does every act that a step takes. -/
theorem everyStepAnswers : Obligations.EveryStepAnswers :=
  ⟨goes_exec, fun _ => goes_step_of_powered, fun _ => step_of_not_powered⟩

end Sys2Proof.Proofs

namespace Sys2Proof.Machine

/-! ### Entries of the tables of the package after reset -/

/-- A table filled with its default reads as the default, within its bounds and beyond. -/
theorem getD_replicate_default {α : Type} (n i : Nat) (x : α) : (Vector.replicate n x).toList.getD i x = x := by
  rw [Vector.toList_replicate, List.getD_eq_getElem?_getD, List.getElem?_replicate]
  split <;> rfl

theorem getIsland_reset {n : Nat} (h : n < 24) : getIsland State.reset n = Island.reset (if n = 22 then 800 else 1600) := by
  unfold getIsland
  rw [List.getD_eq_getElem?_getD, Vector.getElem?_toList]
  show ((((Vector.replicate 24 (Island.reset 1600)).set 22 (Island.reset 800)))[n]?).getD _ = _
  rw [Vector.getElem?_set, Vector.getElem?_replicate]
  by_cases e : n = 22
  · simp [e]
  · simp [e, h, Ne.symm e]

theorem getChannel_reset (h : Nat) : getChannel State.reset h = Channel.reset := getD_replicate_default 256 h _
theorem getQuota_reset (w : Nat) : getQuota State.reset w = Quota.zero := getD_replicate_default 64 w _
theorem getPart_reset (p : Nat) : getPart State.reset p = Part.absent := getD_replicate_default 16 p _
theorem getGroup_reset (g : Nat) : getGroup State.reset g = Group.none := getD_replicate_default 8 g _
theorem getPort_reset (p : Nat) : getPort State.reset p = Port.down := getD_replicate_default 18 p _
theorem getQueue_reset (q : Nat) : getQueue State.reset q = HQueue.reset := rfl
theorem getSlot_reset (i : Nat) : getSlot State.reset.core i = TileSlot.zero := getD_replicate_default 128 i _

/-! ### Registers of the core in focus after reset -/

theorem readG_reset (r : GReg) : readG State.reset r = 0 := by
  unfold readG
  split
  · rfl
  · exact Vector.getElem_replicate _

theorem readB_reset (n : BitVec 3) : readB State.reset n = 0 := Vector.getElem_replicate _
theorem readE_reset (e : BitVec 4) : readE State.reset e = EReg.zero := Vector.getElem_replicate _

theorem readM_reset (k : BitVec 3) : readM State.reset k = if k = 0 then BitVec.allOnes 2048 else 0 := by
  have h : readM State.reset k = if 0 = k.toNat then BitVec.allOnes 2048 else (Vector.replicate 8 (0 : BitVec 2048))[k.toNat]'k.isLt :=
    Vector.getElem_set (by decide) k.isLt
  rw [h, Vector.getElem_replicate]
  by_cases e : k = 0
  · simp [e]
  · rw [if_neg e, if_neg fun z => e (BitVec.eq_of_toNat_eq z.symm)]

end Sys2Proof.Machine

namespace Sys2Proof.Proofs

open Sys2Proof.Machine

/-- Settles O1: each table and register file reads as its reset entry, whose fields the spec gives. -/
theorem resetValues : Obligations.ResetValues := by
  unfold Obligations.ResetValues
  intro s
  refine ⟨fun n h => ?_, rfl, rfl, rfl, rfl, fun h => ?_, fun w => ?_, fun p => ?_, fun g => ?_, rfl, fun p => ?_, fun q => ?_, readG_reset, readB_reset,
    readE_reset, readM_reset, rfl, rfl, fun i => ?_, rfl, rfl, rfl, rfl, rfl, rfl, rfl, rfl, rfl, rfl, rfl⟩
  · rw [getIsland_reset h]; exact ⟨rfl, rfl, rfl, rfl, rfl⟩
  · rw [getChannel_reset]; exact ⟨rfl, rfl, rfl, rfl⟩
  · rw [getQuota_reset]; exact ⟨rfl, rfl, rfl, rfl⟩
  · rw [getPart_reset]; exact ⟨rfl, rfl⟩
  · rw [getGroup_reset]; rfl
  · rw [getPort_reset]; exact ⟨rfl, rfl⟩
  · rw [getQueue_reset]; exact ⟨rfl, rfl, rfl, rfl, rfl⟩
  · rw [getSlot_reset]; exact ⟨rfl, rfl⟩

end Sys2Proof.Proofs

namespace Sys2Proof.Machine

/-! ### Events of the scribe's log (04_host_interface R123) -/

/-- An event that concerns no partition posts to no queue: the log and the interrupt of PF0 are all that it changes. -/
theorem raises_raiseEvent (kind : Nat) (args : List Nat) (s : State) : Raises kind args s (raiseEvent s kind none none noRecord args) := by
  let e : Event := { tick := s.tick, kind := kind, part := none, world := none, record := BitVec.ofNat 32 noRecord, args := args }
  have last (l : List Event) : (l ++ [e]).getLast? = some e := by simp
  by_cases h : s.events.length < 4096
  · simp only [raiseEvent, raiseEventTo, Option.toList, List.foldl_nil, if_pos h]
    exact ⟨⟨e, last _, rfl, rfl, rfl, rfl, rfl⟩, rfl, rfl, rfl⟩
  · simp only [raiseEvent, raiseEventTo, Option.toList, List.foldl_nil, if_neg h]
    exact ⟨⟨e, last _, rfl, rfl, rfl, rfl, rfl⟩, rfl, rfl, rfl⟩

/-! ### Islands and their clocks (01_package R23 to R26) -/

theorem getIsland_setIsland_self {n : Nat} (h : n < 24) (s : State) (i : Island) : getIsland (setIsland s n i) n = i := by
  simp [getIsland, setIsland, h]

theorem getIsland_setIsland_ne {n m : Nat} (h : m ≠ n) (s : State) (i : Island) : getIsland (setIsland s n i) m = getIsland s m := by
  simp [getIsland, setIsland, List.getElem?_set_ne h.symm]

theorem setTarget_tgt (i : Island) (mhz : Nat) : (setTarget i mhz).tgt = mhz := by
  unfold setTarget
  split
  case h_3 => rfl
  all_goals split <;> rfl

theorem setTarget_cur (i : Island) (mhz : Nat) : (setTarget i mhz).cur = i.cur := by
  unfold setTarget
  split
  case h_3 => rfl
  all_goals split <;> rfl

/-- A target written to a steady island starts a drain, unless it is the clock that runs. -/
theorem setTarget_st_of_steady {i : Island} (h : i.st = .steady) (mhz : Nat) : (setTarget i mhz).st = if mhz = i.cur then .steady else .drain := by
  unfold setTarget
  simp only [h]
  split <;> rfl

/-! ### The boot steps (01_package R30, R31) -/

/-- The log placed in memory takes two pages of world 0 and maps them; there is no other change. -/
theorem placeLog_frame (s : State) :
    placeLog s = { s with mem := (placeLog s).mem, side := (placeLog s).side, scrub := (placeLog s).scrub, pages := (placeLog s).pages,
                          logPa := (placeLog s).logPa, ptes := (placeLog s).ptes } := by
  unfold placeLog
  split <;> rfl

/-- What the start of the firmware leaves: the package runs, under the settings that stood before. -/
theorem startFirmware_keeps (s : State) :
    (startFirmware s).phase = .booted ∧ (startFirmware s).rdy = true ∧ (startFirmware s).cfgDefaulted = s.cfgDefaulted
      ∧ (startFirmware s).strokeNs = s.strokeNs ∧ (startFirmware s).powerCap = s.powerCap ∧ (startFirmware s).ident = s.ident
      ∧ (startFirmware s).core = s.core ∧ (startFirmware s).flash = s.flash := by
  unfold startFirmware
  rw [placeLog_frame]
  exact ⟨rfl, rfl, rfl, rfl, rfl, rfl, rfl, rfl⟩

/-- The slot that step 2 takes starts under the factory defaults where the record does not verify. -/
theorem bootOn_of_badRecord {s : State} (slot : Bool) (h : recordVerifies s.flash = false) :
    bootOn slot s = startFirmware (applyRecord s.flash.factory true
      { s with ident := Config.identity s.flash.seed, flash := { s.flash with slotB_chosen := slot } }) := by
  unfold bootOn
  simp only [h, Bool.false_eq_true, if_false]

/-- It starts under the record where that verifies and the slot's security version meets the floor that stands then. -/
theorem bootOn_of_record {s : State} {slot : Bool} (h : recordVerifies s.flash = true)
    (v : max s.flash.securityFloor s.flash.record.floor ≤ (if slot then s.flash.slotB else s.flash.slotA).security) :
    bootOn slot s = startFirmware (applyRecord s.flash.record false
      { s with ident := Config.identity s.flash.seed,
               flash := { s.flash with securityFloor := max s.flash.securityFloor s.flash.record.floor,
                                       recordCounter := max s.flash.recordCounter s.flash.record.seq, slotB_chosen := slot } }) := by
  unfold bootOn
  simp only [h, if_true, if_pos v]

theorem boot_of_noDirectory {s : State} (h : s.flash.directory = false) : boot s = enterRecovery 1 (drawWord s).1 (drawWord s).2 := by
  unfold boot; simp only [h]; rfl

theorem boot_of_noSlot {s : State} (h : s.flash.directory = true) (n : bootSlot s.flash s.flash.securityFloor = none) : boot s = enterRecovery 2 1 s := by
  unfold boot; simp only [h, n]; rfl

theorem boot_of_noPuf {s : State} {slot : Bool} (h : s.flash.directory = true) (n : bootSlot s.flash s.flash.securityFloor = some slot)
    (p : s.flash.puf = false) :
    boot s = enterRecovery 3 (if slot then 1 else 0) { s with flash := { s.flash with slotB_chosen := slot } } := by
  unfold boot; simp only [h, n, p]; rfl

theorem boot_of_slot {s : State} {slot : Bool} (h : s.flash.directory = true) (n : bootSlot s.flash s.flash.securityFloor = some slot)
    (p : s.flash.puf = true) : boot s = bootOn slot s := by
  unfold boot; simp only [h, n, p]; rfl

/-! ### HOT_RESET (03_links_trust R108) -/

/-- No page but those of world 0 outlives a hot reset, and none is mapped for another world. -/
theorem hotState_keeps_world0 (s : State) : (∀ x ∈ (hotState s).pages, x.2.1 = 0) ∧ ∀ p ∈ (hotState s).ptes, p.world = 0 := by
  unfold hotState
  exact ⟨fun x hx => of_decide_eq_true (List.mem_filter.mp hx).2, fun p hp => of_decide_eq_true (List.mem_filter.mp hp).2⟩

/-! ### GOVERNOR_WINDOW (01_package R28) -/

/-- Above the cap, with the donated slots withheld already, a window holds the next strips, and when all are held a clock steps down. -/
theorem execGovernorWindow_above {s : State} (above : s.powerCap < s.ev.n) (w : s.withhold = true) :
    (∀ x, nextHold s = some x → execGovernorWindow s = .next { s with heldStrips := s.heldStrips ++ [x] })
    ∧ (∀ m, nextHold s = none → nextStep s = some m →
      execGovernorWindow s = .next (setIsland s m (setTarget (getIsland s m) ((getIsland s m).tgt - 100)))) := by
  have less : ¬ s.ev.n < s.powerCap := by omega
  have ne : ¬ s.ev.n = s.powerCap := by omega
  unfold execGovernorWindow
  rw [if_neg less, if_neg ne, w]
  exact ⟨fun x h => by rw [h]; rfl, fun m h k => by rw [h, k]; rfl⟩

/-! ### Clock changes (01_package R23 to R26) -/

/-- TGT_MHZ written at an island below 20: the target is a permitted point, and no other island is touched. -/
theorem writeTarget_below20 {n : Nat} (h : n < 20) (mhz : Nat) (s : State) :
    let t := writeTarget n mhz s
    let i := getIsland s n;
    (getIsland t n).tgt = pointOf n mhz ∧ (getIsland t n).cur = i.cur ∧ t = { s with islands := t.islands }
      ∧ (i.st = .steady → (getIsland t n).st = if pointOf n mhz = i.cur then .steady else .drain) ∧ ∀ m, m ≠ n → getIsland t m = getIsland s m := by
  intro t i
  have e : t = setIsland s n (setTarget i (pointOf n mhz)) := if_pos h
  have self : getIsland t n = setTarget i (pointOf n mhz) := by rw [e, getIsland_setIsland_self (by omega)]
  rw [self]
  exact ⟨setTarget_tgt _ _, setTarget_cur _ _, by rw [e]; rfl, fun st => setTarget_st_of_steady st _, fun m hm => by rw [e, getIsland_setIsland_ne hm]⟩

/-- RELOCK_END: the island runs at the clock that it relocked to, and drains again where its target has changed meanwhile. -/
theorem relockEnd_runs {s : State} (h : s.ev.n < 24) :
    let i := getIsland s s.ev.n
    ∃ t, execRelockEnd s = .next t ∧ (getIsland t s.ev.n).cur = i.goal ∧ (getIsland t s.ev.n).tgt = i.tgt
      ∧ (getIsland t s.ev.n).st = (if i.tgt = i.goal then .steady else .drain) ∧ t = { s with islands := t.islands } := by
  intro i
  refine ⟨_, rfl, ?_⟩
  rw [getIsland_setIsland_self h]
  exact ⟨setTarget_cur _ _, setTarget_tgt _ _, setTarget_st_of_steady rfl _, rfl⟩

/-- DRAIN_COMPLETE of an island on which no strip runs. -/
theorem execDrainComplete_drained {s : State} (d : islandDrained s s.ev.n = true) :
    execDrainComplete s = .next (stallAttn s.ev.n (setIsland s s.ev.n
      { getIsland s s.ev.n with st := .relock, goal := (getIsland s s.ev.n).tgt, relockEnd := s.now + relockCycles })) := by
  unfold execDrainComplete
  rw [d]; rfl

end Sys2Proof.Machine

namespace Sys2Proof.Proofs

open Sys2Proof.Machine

/-- Settles O51: the boot steps case by case, then each event of power and of the clocks. -/
theorem bootPowerAndClockEvents : Obligations.BootPowerAndClockEvents := by
  unfold Obligations.BootPowerAndClockEvents
  refine ⟨fun s => ?boot, fun s => ?events⟩
  case boot =>
    intro z f
    have e : exec .powerOnReset s = .next (boot z) := rfl
    refine ⟨fun d => ⟨_, e, ?_⟩, fun d n => by rw [e, boot_of_noSlot d n], fun slot d n => ⟨fun p => ⟨_, e, ?_⟩, fun p r => ⟨_, e, ?_⟩, ?_⟩⟩
    · rw [boot_of_noDirectory d]; exact ⟨rfl, rfl⟩
    · rw [boot_of_noPuf d n p]; exact ⟨rfl, rfl⟩
    · rw [boot_of_slot d n p, bootOn_of_badRecord slot r]
      obtain ⟨phase, rdy, cfg, stroke, cap, ident, core, flash⟩ := startFirmware_keeps (applyRecord f.factory true
        { z with ident := Config.identity f.seed, flash := { f with slotB_chosen := slot } })
      exact ⟨phase, rdy, cfg, stroke, cap, flash, ident, core⟩
    · intro p r floor v
      refine ⟨_, e, ?_⟩
      rw [boot_of_slot d n p, bootOn_of_record r v]
      exact startFirmware_keeps _
  case events =>
    intro n i
    obtain ⟨pages, ptes⟩ := hotState_keeps_world0 s
    refine ⟨⟨_, rfl, rfl, rfl, rfl, rfl, rfl, rfl, rfl, rfl, rfl, rfl, pages, ptes⟩, ⟨_, rfl, raises_raiseEvent 0x02 [n, s.ev.k] _⟩, rfl, rfl,
      fun below => if_pos below, fun atCap => ?_, fun above open_ => ?_, execGovernorWindow_above, ⟨fun fixed => ?_, fun moves => ⟨_, rfl, ?_⟩⟩,
      fun known => ⟨execDrainComplete_drained, ⟨_, rfl, raises_raiseEvent 0x01 [n] _⟩, relockEnd_runs known⟩⟩
    · exact (if_neg (by omega)).trans (if_pos atCap)
    · exact (if_neg (by omega)).trans ((if_neg (by omega)).trans (by rw [open_]; rfl))
    · show Host.Outcome.next (writeTarget n _ s) = _
      rw [writeTarget, if_neg (by omega)]
    · exact writeTarget_below20 moves _ s

end Sys2Proof.Proofs

namespace Sys2Proof.Machine

open Sys2Proof.Laws.Host

/-! ### A host command that is executed: what its act answers is what it does (04_host_interface R116, R117) -/

theorem completes_of_act {i : Instr} {h : HostCmd} {valid : State → Bool} {act : State → State × Answer} {s t : State} {st res : Nat}
    (e : exec i s = hostCommand h valid act s) (a : Accepted h valid s) (r : act (fetched h s) = (t, .now st res)) : Completes i h s st res t :=
  completes_of (by rw [e, hostCommand_accepted a, r])

theorem defers_of_act {i : Instr} {h : HostCmd} {valid : State → Bool} {act : State → State × Answer} {s t : State} {w : HostWait}
    (e : exec i s = hostCommand h valid act s) (a : Accepted h valid s) (r : act (fetched h s) = (t, .later w)) : Defers i h s w t :=
  defers_of (by rw [e, hostCommand_accepted a, r])

/-! ### Bytes written to host memory (03_links_trust R77) -/

theorem byteAt_hostWrite_in (s : State) (a : Nat) (bs : List Byte) : HostHolds (hostWrite s a bs) a bs :=
  fun _ h => cellGet_cellWrite_in s.mem (hostPa a) bs h

theorem sameOutside_hostWrite (s : State) (a : Nat) (bs : List Byte) : SameOutside (hostPa a) bs.length s (hostWrite s a bs) :=
  fun _ h => cellGet_cellWrite_out s.mem (hostPa a) bs h

@[simp] theorem length_leBytes (n x : Nat) : (leBytes n x).length = n := by
  induction n generalizing x with
  | zero => rfl
  | succ n ih => simp [leBytes, ih]

theorem length_quotaBytes (q : Quota) : (quotaBytes q).length = 64 := by simp [quotaBytes]

/-! ### Commands on a world (03_links_trust R93) -/

theorem onWorld_of_live {h : HostCmd} {s : State} (w : worldNo h < 64) (l : worldLive s (worldNo h) = true) (act : State → State × Answer) :
    onWorld h s act = act s := by
  unfold onWorld
  rw [if_neg (by omega), l]; rfl

theorem onWorld_of_absent {h : HostCmd} {s : State} (w : worldNo h < 64) (l : worldLive s (worldNo h) = false) (act : State → State × Answer) :
    onWorld h s act = (s, .now stNosuch 0) := by
  unfold onWorld
  rw [if_neg (by omega), l]; rfl

/-! ### PAGE_ALLOC (04_host_interface R485) -/

/-- The translation that PAGE_ALLOC gives a page: read-only in HBF, and never for code (log 19). -/
def allocPte (w : BitVec 6) (tier : Nat) (x : Nat × Nat) : Pte :=
  { world := w, va := x.1, pages := 1, pa := x.2, write := tier ≠ 1, exec := false, keySlot := 0 }

theorem allocPage_ptes (w : BitVec 6) (tier : Nat) (s : State) (x : Nat × Nat) : (allocPage w tier s x).ptes = s.ptes ++ [allocPte w tier x] := rfl

/-- Pages allocated one after the other: each takes a translation of its own, and none is lost. -/
theorem foldl_allocPage_ptes (w : BitVec 6) (tier : Nat) (l : List (Nat × Nat)) (s : State) :
    (l.foldl (allocPage w tier) s).ptes = s.ptes ++ l.map (allocPte w tier) := by
  induction l generalizing s with
  | nil => simp
  | cons x l ih => rw [List.foldl_cons, ih, allocPage_ptes, List.append_assoc]; rfl

/-- What PAGE_ALLOC answers once its lists pass their checks: QUOTA, then FULL, then the pages. -/
theorem pageAllocAct_eq {h : HostCmd} {s : State} {vas listed : List Nat} (w : worldNo h < 64) (l : worldLive s (worldNo h) = true)
    (hv : hostList s (ptr0 h) (pageCount h) = some vas)
    (hl : (if ptr1 h = 0 then some [] else hostList s (ptr1 h) (pageCount h)) = some listed)
    (v : vasOk s (BitVec.ofNat 6 (worldNo h)) vas = true) (ok : listed.all (listedOk s (worldNo h) (pageTierNo h)) = true) (d : allDistinct listed = true) :
    let tier := pageTierNo h
    let n := pageCount h
    let pages := if ptr1 h = 0 then freeIn s (tierRanges s (worldNo h) tier) n else listed
    pageAllocAct h s =
      if pagesFit s (BitVec.ofNat 6 (worldNo h)) tier n = false then (s, .now stQuota 0)
      else if pages.length < n then (s, .now stFull 0)
      else ((vas.zip pages).foldl (allocPage (BitVec.ofNat 6 (worldNo h)) tier) s, .now stOk n) := by
  intro tier n pages
  unfold pageAllocAct
  rw [onWorld_of_live w l]
  simp only [hv, hl, v, ok, d, Bool.and_self, Bool.not_true, Bool.false_eq_true, if_false, Bool.not_eq_true']
  rfl

/-! ### PAGE_FREE -/

theorem pageFreeAct_of_bad {h : HostCmd} {s : State} {vas : List Nat} (w : worldNo h < 64) (l : worldLive s (worldNo h) = true)
    (hv : hostList s (ptr0 h) (pageCount h) = some vas)
    (b : vas.all (fun a => (pageToFree s (BitVec.ofNat 6 (worldNo h)) (pageTierNo h) a).isSome) = false ∨ allDistinct vas = false) :
    pageFreeAct h s = (s, .now stBadcmd 0) := by
  unfold pageFreeAct
  rw [onWorld_of_live w l, hv]
  exact if_pos (by rcases b with b | b <;> simp [b])

theorem pageFreeAct_of_ok {h : HostCmd} {s : State} {vas : List Nat} (w : worldNo h < 64) (l : worldLive s (worldNo h) = true)
    (hv : hostList s (ptr0 h) (pageCount h) = some vas)
    (a : vas.all (fun a => (pageToFree s (BitVec.ofNat 6 (worldNo h)) (pageTierNo h) a).isSome) = true) (d : allDistinct vas = true) :
    pageFreeAct h s =
      (((vas.filterMap fun a => pageToFree s (BitVec.ofNat 6 (worldNo h)) (pageTierNo h) a).eraseDups).foldl freeHome
        (vas.foldl (fun s a => unmapPage s (BitVec.ofNat 6 (worldNo h)) a) s), .now stOk 0) := by
  unfold pageFreeAct
  rw [onWorld_of_live w l, hv]
  exact if_neg (by simp [a, d])

/-! ### QUOTA_GET, QUOTA_SET (02_memory_tiers R45) and POWER_CAP_SET (01_package R27) -/

theorem execQuotaGet_eq (h : HostCmd) (s : State) :
    exec (.quotaGet h) s = hostCommand h (quotaValid h)
      (fun s => onWorld h s fun s => (hostWrite s (ptr0 h) (quotaBytes (getQuota s (worldNo h))), .now stOk 0)) s := rfl

theorem execPowerCapSet_eq (h : HostCmd) (s : State) :
    exec (.powerCapSet h) s = hostCommand h (powerValid h)
      (fun s => ({ s with powerCap := capStored s.recordCap (hfld h 24 4) }, .now stOk (capStored s.recordCap (hfld h 24 4)))) s := rfl

theorem quotaSetAct_of_frozen {h : HostCmd} {s : State} (w : worldNo h < 64) (l : worldLive s (worldNo h) = true)
    (f : quotaFrozen s (worldNo h) = true) : quotaSetAct h s = (s, .now stLocked 0) := by
  unfold quotaSetAct
  rw [onWorld_of_live w l]
  exact if_pos f

theorem quotaSetAct_of_read {h : HostCmd} {s : State} {b : List Byte} (w : worldNo h < 64) (l : worldLive s (worldNo h) = true)
    (f : quotaFrozen s (worldNo h) = false) (r : hostRead s (ptr0 h) 64 = some b) :
    quotaSetAct h s = (setQuota s (worldNo h) (quotaApply b (getQuota s (worldNo h))), .now stOk 0) := by
  unfold quotaSetAct
  rw [onWorld_of_live w l, f, r]; rfl

/-! ### PREFIX_REG (04_host_interface R131) -/

/-- A page that is registered already, or one for which the replica table has room, is registered where it is a read-only page of its own. -/
theorem prefixRegAct_of_ok {h : HostCmd} {s : State} {p : Pte} {clean : Option Nat} (w : worldNo h < 64) (l : worldLive s (worldNo h) = true)
    (hp : findPte s (BitVec.ofNat 6 (worldNo h)) (ptr0 h) = some p) (hc : cleanHome s (BitVec.ofNat 6 (worldNo h)) (ptr1 h) = some clean)
    (aligned : ptr0 h % 65536 = 0) (single : p.pages = 1) (readOnly : p.write = false)
    (room : s.replicas.length < replicaTable ∨ ∃ r ∈ s.replicas, r.1 = p.pa) :
    prefixRegAct h s = (registerPrefix (BitVec.ofNat 6 (worldNo h)) p clean s, .now stOk 0) := by
  have fits : (replicaTable ≤ s.replicas.length && s.replicas.all (fun r => r.1 ≠ p.pa)) = false := by
    rcases room with r | ⟨r, hr, e⟩
    · simp [Nat.not_le.mpr r]
    · rw [Bool.and_eq_false_iff]
      exact .inr (List.all_eq_false.mpr ⟨r, hr, by simp [e]⟩)
  unfold prefixRegAct
  rw [onWorld_of_live w l]
  simp only [hp, hc, aligned, single, readOnly, fits]
  rfl

end Sys2Proof.Machine

namespace Sys2Proof.Proofs

open Sys2Proof.Machine

/-- Settles O49, command by command. -/
theorem resourceCommands : Obligations.ResourceCommands := by
  unfold Obligations.ResourceCommands
  intro s h z w w'
  refine ⟨fun a hw => ⟨fun dead => ⟨?_, ?_⟩, fun live => ⟨?_, fun f => ?_, fun b f r => ?_⟩⟩, fun hw live => ?_, fun a => ?_⟩
  · exact completes_of_act (execQuotaGet_eq h s) a (onWorld_of_absent hw dead _)
  · exact completes_of_act rfl a (onWorld_of_absent hw dead _)
  · refine ⟨_, completes_of_act (execQuotaGet_eq h s) a (onWorld_of_live hw live _), rfl, byteAt_hostWrite_in _ _ _, ?_⟩
    rw [← length_quotaBytes (getQuota z w)]
    exact sameOutside_hostWrite _ _ _
  · exact completes_of_act rfl a (quotaSetAct_of_frozen hw live f)
  · exact completes_of_act rfl a (quotaSetAct_of_read hw live f r)
  · intro tier n
    refine ⟨fun vas listed a hv hl v ok d => ?alloc, fun vas a hv => ⟨fun bad => ?_, fun all d => ?_⟩,
      fun p clean a hp hc aligned single readOnly room => ⟨?_, ?_⟩⟩
    case alloc =>
      intro pages
      have act := pageAllocAct_eq hw live hv hl v ok d
      refine ⟨fun q => ?_, fun q full => ?_, fun q room => ⟨_, ?_, rfl, fun x hx => ?_⟩⟩
      · exact completes_of_act rfl a (act.trans (if_pos q))
      · exact completes_of_act rfl a (act.trans ((if_neg (by rw [q]; decide)).trans (if_pos full)))
      · exact completes_of_act rfl a (act.trans ((if_neg (by rw [q]; decide)).trans (if_neg (Nat.not_lt.mpr room))))
      · refine ⟨allocPte w' tier x, ?_, rfl, rfl, rfl, rfl, rfl, rfl⟩
        rw [foldl_allocPage_ptes]
        exact List.mem_append_right _ (List.mem_map_of_mem hx)
    · exact completes_of_act rfl a (pageFreeAct_of_bad hw live hv bad)
    · exact completes_of_act rfl a (pageFreeAct_of_ok hw live hv all d)
    · exact completes_of_act rfl a (prefixRegAct_of_ok hw live hp hc aligned single readOnly room)
    · exact ⟨_, List.mem_append_right _ (List.mem_singleton.mpr rfl), rfl, rfl, rfl, rfl⟩
  · exact completes_of_act (execPowerCapSet_eq h s) a rfl

end Sys2Proof.Proofs

namespace Sys2Proof.Machine

/-! ### Values listed under numbers -/

theorem assocGet_append {α : Type} (l m : List (Nat × α)) (k : Nat) : assocGet (l ++ m) k = (assocGet l k).or (assocGet m k) := by
  induction l with
  | nil => rfl
  | cons p l ih =>
    obtain ⟨j, x⟩ := p
    rw [List.cons_append, assocGet, assocGet]
    split
    · rfl
    · exact ih

theorem assocGet_filter {α : Type} {p : Nat → Bool} (l : List (Nat × α)) (k : Nat) :
    assocGet (l.filter fun x => p x.1) k = if p k then assocGet l k else none := by
  induction l with
  | nil => simp [assocGet]
  | cons y l ih =>
    obtain ⟨j, x⟩ := y
    by_cases hj : j = k
    · subst hj
      by_cases hp : p j <;> simp [hp, assocGet, ih]
    · by_cases hp : p j <;> simp [hp, assocGet, hj, ih]

theorem assocGet_assocPut_self {α : Type} (l : List (Nat × α)) (k : Nat) (x : α) : assocGet (assocPut l k x) k = some x := by
  unfold assocPut
  rw [assocGet_append, assocGet_filter (p := fun j => j < k)]
  simp [assocGet]

theorem assocGet_assocPut_ne {α : Type} {j k : Nat} (h : j ≠ k) (l : List (Nat × α)) (x : α) : assocGet (assocPut l k x) j = assocGet l j := by
  unfold assocPut
  rw [assocGet_append, assocGet_filter (p := fun i => i < k), assocGet, if_neg h.symm, assocGet_filter (p := fun i => k < i)]
  rcases Nat.lt_or_gt_of_ne h with lt | gt
  · simp [lt, Nat.lt_asymm lt]
  · simp [gt, Nat.lt_asymm gt]

theorem getQueue_putQueue_self (s : State) (q : Nat) (h : HQueue) : getQueue (putQueue s q h) q = h := by
  simp [getQueue, putQueue, assocGet_assocPut_self]

theorem getQueue_putQueue_ne {p q : Nat} (e : p ≠ q) (s : State) (h : HQueue) : getQueue (putQueue s q h) p = getQueue s p := by
  simp [getQueue, putQueue, assocGet_assocPut_ne e]

/-! ### A queue that QRESET has stopped (04_host_interface R121, R126) -/

/-- The queue is not enabled, no completion is held for it, and none of its commands posts one any more. -/
def QueueStopped (q : Nat) (s : State) : Prop :=
  (getQueue s q).en = false ∧ (∀ x ∈ s.held, x.queue ≠ q) ∧ ∀ r ∈ s.hostRuns, r.queue = q → r.dropped = true

theorem queueStopped_of_eq {q : Nat} {s t : State} (hq : t.queues = s.queues) (hh : t.held = s.held) (hr : t.hostRuns = s.hostRuns)
    (h : QueueStopped q s) : QueueStopped q t := by
  unfold QueueStopped getQueue at *
  rwa [hq, hh, hr]

/-- A completion posted to another queue leaves a stopped queue stopped. -/
theorem queueStopped_deliverCompletion {q : Nat} {s : State} {x : HeldCpl} (e : x.queue ≠ q) (h : QueueStopped q s) :
    QueueStopped q (deliverCompletion s x) := by
  have w : QueueStopped q (writeCompletion s x.queue x.record) := by
    obtain ⟨en, held, runs⟩ := h
    refine ⟨?_, held, runs⟩
    unfold writeCompletion
    rw [getQueue_putQueue_ne e.symm]
    exact en
  unfold deliverCompletion
  dsimp only
  split
  · exact queueStopped_of_eq rfl rfl rfl w
  · exact w

theorem queueStopped_post? {q : Nat} {s t : State} {x : HeldCpl} (e : x.queue ≠ q) (p : post? s x = some t) (h : QueueStopped q s) :
    QueueStopped q t := by
  unfold post? at p
  split at p
  · cases p; exact queueStopped_deliverCompletion e h
  · split at p
    · cases p
      obtain ⟨en, held, runs⟩ := h
      refine ⟨en, fun y hy => ?_, runs⟩
      rcases List.mem_append.mp hy with hy | hy
      · exact held y hy
      · rw [List.mem_singleton.mp hy]; exact e
    · cases p

/-- Events go to queues that are enabled, so not to one that is stopped. -/
theorem eventQueue_ne_of_stopped {q p r : Nat} {s : State} (h : QueueStopped q s) (e : eventQueue s p = some r) : r ≠ q := by
  rintro rfl
  have on := List.find?_some e
  rw [h.1] at on
  cases on

theorem queueStopped_raiseEventTo {q : Nat} {s : State} (kind : Nat) (part : Option Nat) (world : Option (BitVec 6)) (record : Nat) (args posts : List Nat)
    (h : QueueStopped q s) : QueueStopped q (raiseEventTo s kind part world record args posts) := by
  unfold raiseEventTo
  dsimp only
  refine List.foldlRecOn posts _ ?_ fun t ht p _ => ?_
  · split <;> exact queueStopped_of_eq rfl rfl rfl h
  · split
    · exact ht
    · next r e =>
      cases hp : post? t { queue := r, record := completion 0xFFFF (getQueue t r).sqHead 0 kind record, irq := false, isEvent := true, order := 0 } with
      | none => exact ht
      | some u => exact queueStopped_post? (eventQueue_ne_of_stopped ht e) hp ht

theorem queueStopped_dropCompletion {q r : Nat} {s : State} (ident : Nat) (h : QueueStopped q s) : QueueStopped q (dropCompletion r s ident) :=
  queueStopped_raiseEventTo _ _ _ _ _ _ h

/-- The state in which QRESET has disabled a queue and marked what it still owes, before it reports the completions that it discards. -/
def queueCutOff (q : Nat) (s : State) : State :=
  { putQueue s q { getQueue s q with en := false } with
    held := s.held.filter (fun x => x.queue ≠ q), hostRuns := s.hostRuns.map fun r => if r.queue = q then { r with dropped := true } else r }

theorem queueStopped_queueCutOff (q : Nat) (s : State) : QueueStopped q (queueCutOff q s) := by
  refine ⟨?_, fun x hx => of_decide_eq_true (List.mem_filter.mp hx).2, fun r hr e => ?_⟩
  · show (getQueue (putQueue s q _) q).en = false
    rw [getQueue_putQueue_self]
  · obtain ⟨r, -, rfl⟩ := List.mem_map.mp hr
    split
    · rfl
    · next ne => rw [if_neg ne] at e; exact absurd e ne

/-- QRESET of a queue that is there. -/
theorem qresetAct_of_known {h : HostCmd} {s : State} (r : s.phase ≠ .recovery)
    (k : qresetQueue h = adminQueue ∨ qresetQueue h < 256 ∧ (getPart s (qresetQueue h / 16)).present = true ∧ hfld h 24 1 ≤ 15) :
    qresetAct h s = ((heldOf s (qresetQueue h)).foldl (fun s x => dropCompletion (qresetQueue h) s (recBytes x 0 2)) (queueCutOff (qresetQueue h) s),
      .now stOk 0) := by
  have known : (qresetQueue h < 256 && !(getPart s (qresetQueue h / 16)).present || 256 < qresetQueue h
      || (qresetQueue h < 256 && 15 < hfld h 24 1)) = false := by
    rcases k with k | ⟨lt, p, l⟩
    · simp [k, adminQueue]
    · simp [p, Nat.le_of_lt lt, l]
  unfold qresetAct
  dsimp only
  rw [if_neg r, known]
  rfl

theorem qresetAct_of_unknown {h : HostCmd} {s : State} (r : s.phase ≠ .recovery) (k : 256 < qresetQueue h) :
    qresetAct h s = (s, .now stNosuch 0) := by
  unfold qresetAct
  dsimp only
  rw [if_neg r, if_pos (by simp [k])]
  rfl

/-! ### FW_WRITE (03_links_trust R92) -/

/-- A write of an image goes to the slot that is not chosen, and leaves everything else of the flash alone. -/
theorem writeSlot_inactive (s : State) (off : Nat) (b : List Byte) :
    let t := writeSlot s off b;
    t = { s with flash := t.flash } ∧ t.flash.record = s.flash.record ∧ t.flash.slotB_chosen = s.flash.slotB_chosen
      ∧ (s.flash.slotB_chosen = true → t.flash.slotB = s.flash.slotB) ∧ (s.flash.slotB_chosen = false → t.flash.slotA = s.flash.slotA)
      ∧ (if s.flash.slotB_chosen then t.flash.slotA.image else t.flash.slotB.image)
        = patchImage (if s.flash.slotB_chosen then s.flash.slotA.image else s.flash.slotB.image) off b := by
  intro t
  cases h : s.flash.slotB_chosen with
  | true =>
    have e : t.flash = { s.flash with slotA := slotOf (patchImage s.flash.slotA.image off b) } := if_pos h
    rw [e]
    exact ⟨e ▸ rfl, rfl, h, fun _ => rfl, fun c => Bool.noConfusion c, rfl⟩
  | false =>
    have e : t.flash = { s.flash with slotB := slotOf (patchImage s.flash.slotB.image off b) } := if_neg (by rw [h]; decide)
    rw [e]
    exact ⟨e ▸ rfl, rfl, h, fun c => Bool.noConfusion c, fun _ => rfl, rfl⟩

/-- What FW_WRITE does with the bytes that it reads. -/
def fwWriteAct (h : HostCmd) (s : State) : State × Answer :=
  match hostRead s (ptr0 h) (hfld h 28 4) with
  | none => refuse s stBadcmd
  | some b => (writeSlot s (hfld h 24 4) b, .now stOk 0)

theorem execFwWrite_eq (h : HostCmd) (s : State) : exec (.fwWrite h) s = hostCommand h (fwValid h) (fwWriteAct h) s := rfl

theorem fwWriteAct_of_read {h : HostCmd} {s : State} {b : List Byte} (r : hostRead s (ptr0 h) (hfld h 28 4) = some b) :
    fwWriteAct h s = (writeSlot s (hfld h 24 4) b, .now stOk 0) := by
  unfold fwWriteAct; rw [r]

/-- What CFG_WRITE does with the bytes that it reads. -/
def cfgWriteAct (h : HostCmd) (s : State) : State × Answer :=
  match hostRead s (ptr0 h) (hfld h 28 4) with
  | none => refuse s stBadcmd
  | some b => ({ s with flash := { s.flash with record := recordOf b } }, .now stOk 0)

theorem execCfgWrite_eq (h : HostCmd) (s : State) : exec (.cfgWrite h) s = hostCommand h (cfgValid h) (cfgWriteAct h) s := rfl

theorem cfgWriteAct_of_read {h : HostCmd} {s : State} {b : List Byte} (r : hostRead s (ptr0 h) (hfld h 28 4) = some b) :
    cfgWriteAct h s = ({ s with flash := { s.flash with record := recordOf b } }, .now stOk 0) := by
  unfold cfgWriteAct; rw [r]

/-! ### RESYNC (04_host_interface R125) and OBJ_WAIT (R122) -/

theorem execResync_eq (h : HostCmd) (s : State) :
    exec (.resync h) s = hostCommand h (resyncValid h)
      (fun s => if s.phase = .recovery then (giveData h s (ptr0 h) (summary s), .now stOk 0) else (s, .later (.resync (ptr0 h)))) s := rfl

theorem execObjWait_eq (h : HostCmd) (s : State) :
    exec (.objWait h) s = hostCommand h (objValid h)
      (fun s => if 256 ≤ objWaits s (queuePart h) then refuse s stFull
        else if (findPte s (hostWorld h) (ptr0 h)).isNone then refuse s stNosuch
        else (s, .later (.object (hostWorld h) (ptr0 h) (BitVec.ofNat 64 (hfld h 24 8))))) s := rfl

/-! ### LOG_READ and ERR_READ (04_host_interface R123) -/

/-- LOG_READ of a queue writes the records to the host's buffer. -/
theorem logReadAct_of_queue {h : HostCmd} {s : State} (r : s.phase ≠ .recovery) (q : h.queue ≠ mailboxQueue) :
    let l := unreadOf s.events s.unread (hfld h 24 4)
    logReadAct h s = ({ hostWrite s (ptr0 h) (logBytes s.lostNext l) with unread := s.unread - l.length, lostNext := s.lostNext && l.isEmpty },
      .now stOk l.length) := by
  unfold logReadAct
  simp only [if_neg r, logMax, giveData, if_neg q]

theorem logReadAct_of_recovery {h : HostCmd} {s : State} (r : s.phase = .recovery) :
    let l := unreadOf s.recovery s.recoveryUnread (logMax h)
    logReadAct h s = ({ giveData h s (ptr0 h) (logBytes false l) with recoveryUnread := s.recoveryUnread - l.length }, .now stOk l.length) := if_pos r

theorem errReadAct_of_recovery {h : HostCmd} {s : State} (r : s.phase = .recovery) : errReadAct h s = (s, .now stNosuch 0) := by
  unfold errReadAct; rw [if_pos r]; rfl

theorem errReadAct_of_listed {h : HostCmd} {s : State} {b : List Byte} (r : s.phase ≠ .recovery) (e : assocGet s.errors (hfld h 24 4) = some b) :
    errReadAct h s = (giveData h s (ptr0 h) (padTo 4096 0 b), .now stOk 0) := by
  unfold errReadAct; rw [if_neg r, e]

theorem errReadAct_of_missing {h : HostCmd} {s : State} (r : s.phase ≠ .recovery) (e : assocGet s.errors (hfld h 24 4) = none) :
    errReadAct h s = (s, .now stNosuch 0) := by
  unfold errReadAct; rw [if_neg r, e]; rfl

/-! ### LAUNCH (05_partitions_scheduler R137) -/

theorem getPart_setPart_self {p : Nat} (h : p < 16) (s : State) (x : Part) : getPart (setPart s p x) p = x := by
  simp [getPart, setPart, h]

/-- A launch accepted stands in its partition's pool, under the number that is reported. -/
theorem acceptLaunch_listed {p : Nat} (h : p < 16) (s : State) (bits : BitVec 2048) (base : Counts) :
    ∃ l ∈ (getPart (acceptLaunch s p bits base).2 p).launches, l.num = (acceptLaunch s p bits base).1 ∧ l.bits = bits := by
  unfold acceptLaunch
  dsimp only
  rw [getPart_setPart_self h]
  exact ⟨_, List.mem_append_right _ (List.mem_singleton.mpr rfl), rfl, rfl⟩

/-- The world that a record names is the command's. -/
theorem launchWorld_eq_hostWorld (h : HostCmd) (bits : BitVec 2048) :
    launchWorld (Launch.accept 0 bits []) = hostWorld h ↔ recBytes bits 2 1 % 64 = (hostWorld h).toNat := by
  rw [← BitVec.toNat_inj]
  simp [launchWorld, launchField, Launch.accept]

/-- What LAUNCH answers, once its record is read: BADCMD, then FULL, then the number of the launch. -/
theorem launchAct_eq {h : HostCmd} {s : State} {b : List Byte} (r : hostRead s (ptr0 h) 256 = some b) :
    let bits : BitVec 2048 := BitVec.ofNat 2048 (leNat b)
    launchAct h s =
      if recBytes bits 2 1 % 64 ≠ (hostWorld h).toNat ∨ validLaunch s (queuePart h) bits = false then (s, .now stBadcmd 0)
      else if poolFull s (queuePart h) = true then (s, .now stFull 0)
      else (sampleLaunches (acceptLaunch s (queuePart h) bits []).2, .now stOk (acceptLaunch s (queuePart h) bits []).1.toNat) := by
  intro bits
  unfold launchAct
  simp only [r, Bool.or_eq_true, Bool.not_eq_true', decide_eq_true_eq, ne_eq, launchWorld_eq_hostWorld]
  rfl

/-! ### COPY_H2D and COPY_D2H (04_host_interface R122) -/

theorem toDevice_left_le (w : BitVec 6) (n src va : Nat) (s : State) : (toDevice w n src va s).2 ≤ n := by
  induction n generalizing src va s with
  | zero => exact Nat.le_refl 0
  | succ n ih =>
    unfold toDevice
    split
    · exact Nat.le_refl _
    · split
      · exact Nat.le_refl _
      · exact Nat.le_succ_of_le (ih ..)

theorem toHost_left_le (w : BitVec 6) (n va dst : Nat) (bad : Bool) (s : State) : (toHost w n va dst bad s).2.1 ≤ n := by
  induction n generalizing va dst bad s with
  | zero => exact Nat.le_refl 0
  | succ n ih =>
    unfold toHost
    split
    · exact Nat.le_refl _
    · split
      · exact Nat.le_refl _
      · exact Nat.le_succ_of_le (ih ..)

theorem h2dAct_of_up {h : HostCmd} {s : State} (u : s.linkUp = true) :
    let x := toDevice (hostWorld h) (copyLen h / 64) (ptr0 h) (ptr1 h) s
    h2dAct h s = (afterIncrement x.1, .now (if x.2 = 0 then stOk else stBadcmd) (copyLen h - 64 * x.2)) := by
  intro x
  unfold h2dAct
  rw [u]; rfl

theorem d2hAct_of_up {h : HostCmd} {s : State} (u : s.linkUp = true) :
    let x := toHost (hostWorld h) (copyLen h / 64) (ptr0 h) (ptr1 h) false s
    d2hAct h s = (x.1, .now (if x.2.1 ≠ 0 then stBadcmd else if x.2.2 then stPoisoned else stOk) (copyLen h - 64 * x.2.1)) := by
  intro x
  unfold d2hAct
  rw [u]; rfl

end Sys2Proof.Machine

namespace Sys2Proof.Proofs

open Sys2Proof.Machine

/-- Settles O50, command by command. -/
theorem serviceAndQueueCommands : Obligations.ServiceAndQueueCommands := by
  unfold Obligations.ServiceAndQueueCommands
  refine ⟨fun s h => ?service, fun s h => ?queues⟩
  case service =>
    intro z
    refine ⟨fun b a r => ⟨_, completes_of_act (execFwWrite_eq h s) a (fwWriteAct_of_read r), writeSlot_inactive ..⟩,
      fun b a r => completes_of_act (execCfgWrite_eq h s) a (cfgWriteAct_of_read r), fun a => ⟨?log, ?recovery, ?errors⟩, fun a => ⟨?cut, ?summary⟩,
      fun a r => ?reset⟩
    case log =>
      intro r q l
      exact ⟨_, completes_of_act rfl a (logReadAct_of_queue r q), byteAt_hostWrite_in z _ _, rfl, sameOutside_hostWrite z _ _, rfl⟩
    case recovery =>
      intro r l
      exact ⟨completes_of_act rfl a (logReadAct_of_recovery r), completes_of_act rfl a (errReadAct_of_recovery r)⟩
    case errors =>
      intro r
      exact ⟨fun b e => completes_of_act rfl a (errReadAct_of_listed r e), fun e => completes_of_act rfl a (errReadAct_of_missing r e)⟩
    case cut =>
      intro r
      exact defers_of_act (execResync_eq h s) a (if_neg r)
    case summary =>
      intro r
      exact completes_of_act (execResync_eq h s) a (if_pos r)
    case reset =>
      intro q
      refine ⟨fun k => ⟨_, completes_of_act rfl a (qresetAct_of_known r k), ?_⟩, fun k => completes_of_act rfl a (qresetAct_of_unknown r k)⟩
      exact List.foldlRecOn (motive := QueueStopped q) _ _ (queueStopped_queueCutOff q z) fun t ht x _ => queueStopped_dropCompletion _ ht
  case queues =>
    intro z p
    refine ⟨fun b a q r => ?launch, fun a u => ⟨_, _, rfl, toDevice_left_le .., completes_of_act rfl a (h2dAct_of_up u)⟩,
      fun a u => ⟨_, _, _, rfl, toHost_left_le .., completes_of_act rfl a (d2hAct_of_up u)⟩,
      fun a => ⟨fun full => ?full, fun room m => ?unmapped, fun room m => ?waits⟩⟩
    case launch =>
      intro bits
      have act := launchAct_eq r
      refine ⟨fun bad => completes_of_act rfl a (act.trans (if_pos bad)), fun w v => ?_⟩
      have ok : ¬ (recBytes bits 2 1 % 64 ≠ (hostWorld h).toNat ∨ validLaunch z p bits = false) := by simp [w, v]
      refine ⟨fun full => completes_of_act rfl a (act.trans ((if_neg ok).trans (if_pos full))), fun room => ⟨_, _, rfl, ?_, ?_⟩⟩
      · exact completes_of_act rfl a (act.trans ((if_neg ok).trans (if_neg (Bool.eq_false_iff.mp room))))
      · exact acceptLaunch_listed (show h.queue / 16 < 16 by omega) z bits []
    case full => exact completes_of_act (execObjWait_eq h s) a (if_pos full)
    case unmapped => exact completes_of_act (execObjWait_eq h s) a ((if_neg (Nat.not_le.mpr room)).trans (if_pos (Option.isNone_iff_eq_none.mpr m)))
    case waits => exact defers_of_act (execObjWait_eq h s) a ((if_neg (Nat.not_le.mpr room)).trans (if_neg (mt Option.isNone_iff_eq_none.mp m)))

end Sys2Proof.Proofs

namespace Sys2Proof.Machine

/-! ### How every host command starts (04_host_interface R116) -/

/-- Every host command is fetched and checked in one way, with its own check of its operands. -/
theorem exec_hostForm (h : HostCmd) : ∀ p ∈ hostForms h, ∃ act, ∀ s, exec p.1 s = hostCommand h p.2 act s := by
  simp only [hostForms, List.forall_mem_cons]
  exact ⟨⟨_, fun _ => rfl⟩, ⟨_, fun _ => rfl⟩, ⟨_, fun _ => rfl⟩, ⟨_, fun _ => rfl⟩, ⟨_, fun _ => rfl⟩, ⟨_, fun _ => rfl⟩, ⟨_, fun _ => rfl⟩,
    ⟨_, fun _ => rfl⟩, ⟨_, execQuotaGet_eq h⟩, ⟨_, fun _ => rfl⟩, ⟨_, fun _ => rfl⟩, ⟨_, fun _ => rfl⟩, ⟨_, fun _ => rfl⟩, ⟨_, fun _ => rfl⟩,
    ⟨_, execPowerCapSet_eq h⟩, ⟨_, execFwWrite_eq h⟩, ⟨_, execCfgWrite_eq h⟩, ⟨_, fun _ => rfl⟩, ⟨_, fun _ => rfl⟩, ⟨_, execResync_eq h⟩,
    ⟨_, fun _ => rfl⟩, ⟨_, fun _ => rfl⟩, ⟨_, fun _ => rfl⟩, ⟨_, fun _ => rfl⟩, ⟨_, execObjWait_eq h⟩, fun _ no => (List.not_mem_nil no).elim⟩

theorem reservedIdent_of_mailbox {h : HostCmd} (q : h.queue = mailboxQueue) (s : State) : reservedIdent h s = answer h s (.now stBadcmd 0) := if_pos q

/-- The completion of a command under the reserved identity. -/
def reservedRun (h : HostCmd) (s : State) : HostRun :=
  { hostRun s h with done := true, status := BitVec.ofNat 16 stBadcmd, res1 := BitVec.allOnes 64 }

theorem reservedIdent_of_queue {h : HostCmd} (q : h.queue ≠ mailboxQueue) (s : State) :
    reservedIdent h s = { s with hostRuns := s.hostRuns ++ [reservedRun h s] } := if_neg q

end Sys2Proof.Machine

namespace Sys2Proof.Proofs

open Sys2Proof.Machine Sys2Proof.Laws.Host

/-- Settles O47: every host command is one form, which turns away a reserved identity first and then a record that is not in order. -/
theorem hostCommandChecks : Obligations.HostCommandChecks := by
  unfold Obligations.HostCommandChecks
  intro s h p hp
  obtain ⟨act, e⟩ := exec_hostForm h p hp
  have mailbox (q : h.queue = mailboxQueue) (i : hostIdent h = 0xFFFF) : Completes p.1 h s stBadcmd 0 (fetched h s) :=
    completes_of (by rw [e, hostCommand_reserved i, reservedIdent_of_mailbox q])
  refine ⟨fun q i => ⟨reservedRun h (fetched h s), ?_, run_of h _, rfl, rfl, rfl⟩, mailbox, fun known bad => ?_⟩
  · rw [e, hostCommand_reserved i, reservedIdent_of_queue q]
  · by_cases i : hostIdent h = 0xFFFF
    · exact mailbox (known.resolve_right (not_not_intro i)) i
    · exact completes_of (by rw [e, hostCommand_rejected i bad])

end Sys2Proof.Proofs

namespace Sys2Proof.Machine

/-! ### Entries of the tables of partitions, worlds and quotas -/

theorem getPart_setPart_ne {m n : Nat} (e : m ≠ n) (s : State) (x : Part) : getPart (setPart s n x) m = getPart s m := by
  simp [getPart, setPart, List.getElem?_set_ne e.symm]

theorem getPart_setPart_beyond {m n : Nat} (h : 16 ≤ n) (s : State) (x : Part) : getPart (setPart s n x) m = getPart s m := by
  unfold getPart setPart
  rw [Vector.toList_setIfInBounds, List.set_eq_of_length_le (by simpa using h)]

theorem getWorld_setWorld_self {w : Nat} (h : w < 64) (s : State) (x : World) : getWorld (setWorld s w x) w = x := by
  simp [getWorld, setWorld, h]

theorem getWorld_setWorld_ne {v w : Nat} (e : v ≠ w) (s : State) (x : World) : getWorld (setWorld s w x) v = getWorld s v := by
  simp [getWorld, setWorld, List.getElem?_set_ne e.symm]

theorem getQuota_setQuota_self {w : Nat} (h : w < 64) (s : State) (q : Quota) : getQuota (setQuota s w q) w = q := by
  simp [getQuota, setQuota, h]

/-! ### The islands of a partition, which only a resize changes (05_partitions_scheduler R136) -/

/-- The islands of a partition. -/
def islandsOf (n : Nat) (s : State) : BitVec 16 := (getPart s n).islands

theorem islandsOf_modPart {f : Part → Part} (hf : ∀ x, (f x).islands = x.islands) (m n : Nat) (s : State) :
    islandsOf m (modPart s n f) = islandsOf m s := by
  unfold islandsOf modPart
  by_cases e : m = n
  · subst e
    rcases Nat.lt_or_ge m 16 with lt | ge
    · rw [getPart_setPart_self lt, hf]
    · rw [getPart_setPart_beyond ge]
  · rw [getPart_setPart_ne e]

theorem islandsOf_foldl {α : Type} {n : Nat} {f : State → α → State} (hf : ∀ s x, islandsOf n (f s x) = islandsOf n s) (l : List α) (s : State) :
    islandsOf n (l.foldl f s) = islandsOf n s :=
  List.foldlRecOn (motive := fun t => islandsOf n t = islandsOf n s) l f rfl fun t ht x _ => (hf t x).trans ht

theorem islandsOf_evictVersion (n p : Nat) (h : BitVec 24) (v : BitVec 32) (s : State) : islandsOf n (evictVersion s p h v) = islandsOf n s := by
  unfold evictVersion
  split
  · rfl
  · exact islandsOf_modPart (by intro; rfl) ..

theorem islandsOf_evictLost (n p : Nat) (s : State) : islandsOf n (evictLost p s) = islandsOf n s := by
  refine islandsOf_foldl (fun s a => islandsOf_foldl (fun s v => ?_) _ s) _ s
  split
  · rfl
  · exact islandsOf_evictVersion ..

theorem islandsOf_dropTasks (n p : Nat) (l : BitVec 32) (mine : TaskRef → Bool) (s : State) :
    islandsOf n (dropTasks s p l mine) = islandsOf n s := by
  unfold dropTasks
  extract_lets here vec pins last s1 s2 s3 s4 s5
  calc islandsOf n _ = islandsOf n s5 := rfl
    _ = islandsOf n s4 := islandsOf_modPart (by intro; rfl) ..
    _ = islandsOf n s1 := rfl
    _ = islandsOf n s := islandsOf_modPart (by intro; rfl) ..

theorem islandsOf_failUnfit (n p : Nat) (l : Launch) (s : State) : islandsOf n (failUnfit s p l) = islandsOf n s := by
  unfold failUnfit
  split
  · rfl
  · extract_lets s1 mine stay s2
    calc islandsOf n _ = islandsOf n s2 := rfl
      _ = islandsOf n s1 := islandsOf_dropTasks ..
      _ = islandsOf n s := islandsOf_modPart (by intro; rfl) ..

/-- A resize that applies leaves the partition its new islands. -/
theorem islandsOf_applyResize {n : Nat} (h : n < 16) (mask : BitVec 16) (maps : List (CoreNo × CalMap)) (s : State) :
    islandsOf n (applyResize n mask maps s) = mask := by
  unfold applyResize
  extract_lets old s1 s2 gone s3
  calc islandsOf n _ = islandsOf n (looseGangs s3 n) := islandsOf_foldl (fun s l => islandsOf_failUnfit ..) _ _
    _ = islandsOf n s3 := rfl
    _ = islandsOf n s2 := islandsOf_modPart (by intro; rfl) ..
    _ = islandsOf n s1 := rfl
    _ = islandsOf n (modPart (installMaps s (old ||| mask) maps) n _) := islandsOf_evictLost ..
    _ = mask := by unfold islandsOf modPart; rw [getPart_setPart_self h]

/-! ### Events leave partitions alone (04_host_interface R123, R124) -/

theorem parts_deliverCompletion (s : State) (x : HeldCpl) : (deliverCompletion s x).parts = s.parts := by
  unfold deliverCompletion
  dsimp only
  split <;> rfl

theorem parts_post? {s t : State} {x : HeldCpl} (p : post? s x = some t) : t.parts = s.parts := by
  unfold post? at p
  split at p
  · cases p; exact parts_deliverCompletion s x
  · split at p
    · cases p; rfl
    · cases p

theorem parts_raiseEvent (s : State) (kind : Nat) (part : Option Nat) (world : Option (BitVec 6)) (record : Nat) (args : List Nat) :
    (raiseEvent s kind part world record args).parts = s.parts := by
  unfold raiseEvent raiseEventTo
  dsimp only
  refine List.foldlRecOn (motive := fun t : State => t.parts = s.parts) _ _ ?_ fun t ht p _ => ?_
  · split <;> rfl
  · split
    · exact ht
    · next q e =>
      cases hp : post? t { queue := q, record := completion 0xFFFF (getQueue t q).sqHead 0 kind record, irq := false, isEvent := true, order := 0 } with
      | none => exact ht
      | some u => exact (parts_post? hp).trans ht

/-! ### PART_CREATE, PART_RESIZE, PART_DESTROY and PART_RESET (04_host_interface R119, R120) -/

/-- The partition that PART_CREATE makes. -/
def createdPart (h : HostCmd) (ports : List Nat) : Part :=
  { Part.absent with present := true, islands := partMask h, ways := hfld h 34 1, ports := ports }

section
variable {h : HostCmd} {s : State}

theorem partCreateAct_of_noNumber (n : 15 < partNo h) : partCreateAct h s = (s, .now stNosuch 0) := if_pos n

theorem partCreateAct_of_taken (n : partNo h ≤ 15) (t : (getPart s (partNo h)).present = true ∨ islandTaken s (partMask h) (partNo h) = true) :
    partCreateAct h s = (s, .now stBadcmd 0) :=
  (if_neg (Nat.not_lt.mpr n)).trans (if_pos (by simpa using t))

theorem partCreateAct_of_free {ports : List Nat} {maps : List (CoreNo × CalMap)} (n : partNo h ≤ 15) (p : (getPart s (partNo h)).present = false)
    (i : islandTaken s (partMask h) (partNo h) = false) (hp : takePorts s (hfld h 35 1) = some ports)
    (hm : calendarMaps s (partMask h) (ptr0 h) = some maps) :
    partCreateAct h s = (setPart (installMaps s (partMask h) maps) (partNo h) (createdPart h ports), .now stOk 0) := by
  unfold partCreateAct
  simp only [if_neg (Nat.not_lt.mpr n), p, i, hp, hm]
  rfl

theorem partResizeAct_of_frozen (n : partNo h ≤ 15) (f : frozen (getPart s (partNo h)) = true) (p : (getPart s (partNo h)).present = true) :
    partResizeAct h s = (s, .now stLocked 0) :=
  (if_neg (by simp [p, n])).trans (if_pos f)

/-- What PART_RESIZE does once its checks pass: it applies, or it stops what runs on the islands that it gives up, and waits. -/
theorem partResizeAct_eq {maps : List (CoreNo × CalMap)} (n : partNo h ≤ 15) (p : (getPart s (partNo h)).present = true)
    (f : frozen (getPart s (partNo h)) = false) (i : islandTaken s (partMask h) (partNo h) = false)
    (hm : calendarMaps s (partMask h) (ptr0 h) = some maps) :
    let lost := (getPart s (partNo h)).islands &&& ~~~(partMask h)
    partResizeAct h s =
      if maskFree s lost = true then (applyResize (partNo h) (partMask h) maps s, .now stOk 0)
      else (stopOn (looseGangs (modPart s (partNo h) fun p => { p with closing := lost }) (partNo h)) (partNo h) lost reasonResize,
        .later (.resize (partNo h) (partMask h) maps)) := by
  intro lost
  unfold partResizeAct
  simp only [p, Nat.not_lt.mpr n, f, i, hm]
  rfl

theorem partDestroyAct_of_absent (a : 15 < partNo h ∨ (getPart s (partNo h)).present = false) : partDestroyAct h s = (s, .now stNosuch 0) :=
  if_pos (by simpa using a)

theorem partDestroyAct_of_frozen (n : partNo h ≤ 15) (f : frozen (getPart s (partNo h)) = true) : partDestroyAct h s = (s, .now stLocked 0) := by
  have p : (getPart s (partNo h)).present = true := (Bool.and_eq_true_iff.mp f).1
  exact (if_neg (by simp [p, n])).trans (if_pos f)

theorem partDestroyAct_of_ok (n : partNo h ≤ 15) (p : (getPart s (partNo h)).present = true) (f : frozen (getPart s (partNo h)) = false) :
    partDestroyAct h s = (destroyPartition s (partNo h), .now stOk 0) :=
  (if_neg (by simp [p, n])).trans (if_neg (by simp [f]))

theorem partResetAct_of_absent (a : 15 < partNo h ∨ (getPart s (partNo h)).present = false) : partResetAct h s = (s, .now stNosuch 0) :=
  if_pos (by simpa using a)

theorem partResetAct_of_present (n : partNo h ≤ 15) (p : (getPart s (partNo h)).present = true) :
    partResetAct h s = (resetPartition s (partNo h) causeCommand, .now stOk 0) :=
  if_neg (by simp [p, n])

end

theorem getPart_destroyPartition {n : Nat} (h : n < 16) (s : State) : getPart (destroyPartition s n) n = Part.absent := getPart_setPart_self h _ _

theorem getLsbD_partBit {n : Nat} (h : n < 16) : (partBit n).getLsbD n = true := by
  unfold partBit
  rw [BitVec.getLsbD_ofNat, Nat.testBit_two_pow_self]
  simpa using h

/-- No world is bound to a partition that is destroyed. -/
theorem unbound_destroyPartition {n : Nat} (h : n < 16) (s : State) (w : Nat) : (getWorld (destroyPartition s n) w).parts.getLsbD n = false := by
  unfold destroyPartition getWorld
  dsimp only [setPart]
  rw [Vector.toList_map, List.getD_eq_getElem?_getD, List.getElem?_map]
  cases ((partQueues n).foldl stopQueue (clearPartition s n)).worlds.toList[w]? with
  | none => exact BitVec.getLsbD_zero
  | some x =>
    show (x.parts &&& ~~~(partBit n)).getLsbD n = false
    rw [BitVec.getLsbD_and, BitVec.getLsbD_not, getLsbD_partBit h]
    simp

theorem tdisp_resetPartition {n : Nat} (h : n < 16) (s : State) (cause : Nat) : (getPart (resetPartition s n cause) n).tdisp = .error := by
  unfold resetPartition getPart
  dsimp only
  rw [parts_raiseEvent]
  exact congrArg Part.tdisp (getPart_setPart_self h _ _)

/-! ### WORLD_CREATE, WORLD_DESTROY, WORLD_BIND and KEY_ROTATE (03_links_trust R93, R94, R100) -/

theorem worldLive_of_protected {s : State} {w : Nat} (z : 0 < w) (h : w < 64) : worldLive s w = (getWorld s w).live := by
  simp [worldLive, h, Nat.ne_of_gt z]

/-- A world as WORLD_CREATE makes it: two new keys, and the generation that its number had. -/
def createdWorld (key hbf : Nat) (gen : BitVec 8) : World := { World.absent with live := true, key := key, hbfKey := hbf, gen := gen }

section
variable {h : HostCmd} {s : State}

theorem worldCreateAct_of_taken
    (t : worldNo h = 0 ∨ 63 < worldNo h ∨ (getWorld s (worldNo h)).live = true ∨ awaitsScrub s (worldNo h) = true) :
    worldCreateAct h s = (s, .now stBadcmd 0) :=
  if_pos (by simpa [or_assoc] using t)

theorem worldCreateAct_of_free (z : 0 < worldNo h) (w : worldNo h < 64) (l : (getWorld s (worldNo h)).live = false)
    (a : awaitsScrub s (worldNo h) = false) :
    ∃ k j n, worldCreateAct h s =
      (setWorld { s with fresh := n } (worldNo h) (createdWorld k j (getWorld s (worldNo h)).gen), .now stOk 0) :=
  ⟨_, _, _, if_neg (by simp [l, a]; omega)⟩

theorem worldDestroyAct_of_absent (z : 0 < worldNo h) (w : worldNo h < 64) (l : (getWorld s (worldNo h)).live = false) :
    worldDestroyAct h s = (s, .now stNosuch 0) :=
  (if_neg (Nat.ne_of_gt z)).trans (onWorld_of_absent w ((worldLive_of_protected z w).trans l) _)

theorem worldDestroyAct_of_live (z : 0 < worldNo h) (w : worldNo h < 64) (l : (getWorld s (worldNo h)).live = true) :
    worldDestroyAct h s =
      if worldFrozen s (worldNo h) = true then (s, .now stLocked 0) else (destroyWorld s (worldNo h), .now stOk 0) :=
  (if_neg (Nat.ne_of_gt z)).trans (onWorld_of_live w ((worldLive_of_protected z w).trans l) _)

theorem keyRotateAct_of_absent (z : 0 < worldNo h) (w : worldNo h < 64) (l : (getWorld s (worldNo h)).live = false) :
    keyRotateAct h s = (s, .now stNosuch 0) :=
  (if_neg (Nat.ne_of_gt z)).trans (onWorld_of_absent w ((worldLive_of_protected z w).trans l) _)

/-- What KEY_ROTATE does on a live world: it asks for a sweep, or queues one behind the sweep that runs, or is refused. -/
theorem keyRotateAct_of_live (z : 0 < worldNo h) (w : worldNo h < 64) (l : (getWorld s (worldNo h)).live = true) :
    let x := getWorld s (worldNo h)
    keyRotateAct h s =
      if x.st = 0 then (modWorld s (worldNo h) fun x => { x with st := 1 }, .later (.sweep (worldNo h) (x.gen + 1)))
      else if x.queued = true then (s, .now stFull 0)
      else (modWorld s (worldNo h) fun x => { x with queued := true }, .later (.sweep (worldNo h) (if x.st = 1 then x.gen + 2 else x.gen + 1))) := by
  intro x
  unfold keyRotateAct
  rw [if_neg (Nat.ne_of_gt z), onWorld_of_live w ((worldLive_of_protected z w).trans l)]
  unfold askSweep
  by_cases idle : (getWorld s (worldNo h)).st = 0
  · simp only [x, idle]; rfl
  · by_cases queued : (getWorld s (worldNo h)).queued = true <;> simp only [x, idle, queued] <;> rfl

variable {act : Nat → Nat → State → State × Answer}

/-- What either form of WORLD_BIND does on a live protected world. -/
theorem bindAct_of_live (z : 0 < worldNo h) (w : worldNo h < 64) (l : (getWorld s (worldNo h)).live = true) :
    bindAct h act s =
      if 15 < hfld h 25 1 ∨ (getPart s (hfld h 25 1)).present = false then (s, .now stNosuch 0)
      else if frozen (getPart s (hfld h 25 1)) = true ∨ worldFrozen s (worldNo h) = true then (s, .now stLocked 0)
      else act (worldNo h) (hfld h 25 1) s := by
  unfold bindAct
  dsimp only
  rw [if_neg (Nat.ne_of_gt z), onWorld_of_live w ((worldLive_of_protected z w).trans l)]
  simp only [Bool.or_eq_true, decide_eq_true_eq, Bool.not_eq_true', refuse]

theorem bindAct_of_locked (z : 0 < worldNo h) (w : worldNo h < 64) (l : (getWorld s (worldNo h)).live = true) (n : hfld h 25 1 ≤ 15)
    (p : (getPart s (hfld h 25 1)).present = true) (f : frozen (getPart s (hfld h 25 1)) = true ∨ worldFrozen s (worldNo h) = true) :
    bindAct h act s = (s, .now stLocked 0) := by
  rw [bindAct_of_live z w l, if_neg (by simp [p, n]), if_pos f]

theorem bindAct_of_ok (z : 0 < worldNo h) (w : worldNo h < 64) (l : (getWorld s (worldNo h)).live = true) (n : hfld h 25 1 ≤ 15)
    (p : (getPart s (hfld h 25 1)).present = true) (f : frozen (getPart s (hfld h 25 1)) = false) (g : worldFrozen s (worldNo h) = false) :
    bindAct h act s = act (worldNo h) (hfld h 25 1) s := by
  rw [bindAct_of_live z w l, if_neg (by simp [p, n]), if_neg (by simp [f, g])]

end

theorem execWorldBind_eq (h : HostCmd) (s : State) :
    exec (.worldBind h) s = hostCommand h (bindValid h)
      (bindAct h fun w n s => (modWorld s w fun x => { x with parts := x.parts ||| partBit n }, .now stOk 0)) s := rfl

theorem execWorldUnbind_eq (h : HostCmd) (s : State) :
    exec (.worldUnbind h) s = hostCommand h (bindValid h) (bindAct h fun w n s => (s, .later (.unbind w n))) s := rfl

theorem getWorld_destroyWorld_live {w : Nat} (h : w < 64) (s : State) : (getWorld (destroyWorld s w) w).live = false := by
  unfold destroyWorld
  dsimp only
  rw [getWorld_setWorld_self h]
  rfl

end Sys2Proof.Machine

namespace Sys2Proof.Proofs

open Sys2Proof.Machine

/-- Settles O48, command by command. -/
theorem adminCommands : Obligations.AdminCommands := by
  unfold Obligations.AdminCommands
  refine ⟨fun s h => ?partitions, fun s h => ?worlds⟩
  case partitions =>
    intro z n mask
    refine ⟨fun a => ⟨fun big => ?_, fun le taken => ?_, fun le free island ports maps hp hm => ?create⟩, fun a le present => ?resize,
      fun a => ⟨fun absent => ⟨?_, ?_⟩, fun le f => ?_, fun le present f => ⟨_, ?_, rfl, ?_, ?_⟩, fun le present => ⟨_, ?_, rfl, ?_⟩⟩⟩
    · exact completes_of_act rfl a (partCreateAct_of_noNumber big)
    · exact completes_of_act rfl a (partCreateAct_of_taken le taken)
    case create =>
      refine ⟨_, completes_of_act rfl a (partCreateAct_of_free le free island hp hm), ?_, fun m ne => ?_, rfl, rfl⟩
      · exact getPart_setPart_self (Nat.lt_succ_of_le le) _ _
      · exact getPart_setPart_ne ne _ _
    case resize =>
      intro lost
      refine ⟨fun f => completes_of_act rfl a (partResizeAct_of_frozen le f present), fun f island maps hm => ?_⟩
      have act := partResizeAct_eq le present f island hm
      refine ⟨fun idle => ⟨?_, ?_⟩, fun busy => ?_⟩
      · exact completes_of_act rfl a (act.trans (if_pos idle))
      · exact islandsOf_applyResize (Nat.lt_succ_of_le le) mask maps z
      · exact defers_of_act rfl a (act.trans (if_neg (Bool.eq_false_iff.mp busy)))
    · exact completes_of_act rfl a (partDestroyAct_of_absent absent)
    · exact completes_of_act rfl a (partResetAct_of_absent absent)
    · exact completes_of_act rfl a (partDestroyAct_of_frozen le f)
    · exact completes_of_act rfl a (partDestroyAct_of_ok le present f)
    · exact getPart_destroyPartition (Nat.lt_succ_of_le le) z
    · exact unbound_destroyPartition (Nat.lt_succ_of_le le) z
    · exact completes_of_act rfl a (partResetAct_of_present le present)
    · exact tdisp_resetPartition (Nat.lt_succ_of_le le) z causeCommand
  case worlds =>
    intro z w
    refine ⟨fun a => ⟨fun taken => ?_, fun pos lt dead scrubbed => ?create, fun pos lt live => ?live, fun pos lt dead => ⟨?_, ?_⟩⟩,
      fun a pos lt live => ?bind⟩
    · exact completes_of_act rfl a (worldCreateAct_of_taken taken)
    case create =>
      obtain ⟨k, j, _, act⟩ := worldCreateAct_of_free pos lt dead scrubbed
      exact ⟨_, k, j, completes_of_act rfl a act, rfl, getWorld_setWorld_self lt _ _, fun v ne => getWorld_setWorld_ne ne _ _⟩
    case live =>
      have destroy := worldDestroyAct_of_live pos lt live
      have rotate := keyRotateAct_of_live pos lt live
      refine ⟨fun f => ?_, fun f => ⟨?_, getWorld_destroyWorld_live lt z⟩, fun idle => ?_, fun runs room => ?_, fun runs full => ?_⟩
      · exact completes_of_act rfl a (destroy.trans (if_pos f))
      · exact completes_of_act rfl a (destroy.trans (if_neg (Bool.eq_false_iff.mp f)))
      · exact defers_of_act rfl a (rotate.trans (if_pos idle))
      · exact defers_of_act rfl a (rotate.trans ((if_neg runs).trans (if_neg (Bool.eq_false_iff.mp room))))
      · exact completes_of_act rfl a (rotate.trans ((if_neg runs).trans (if_pos full)))
    · exact completes_of_act rfl a (worldDestroyAct_of_absent pos lt dead)
    · exact completes_of_act rfl a (keyRotateAct_of_absent pos lt dead)
    case bind =>
      intro n
      refine ⟨fun absent => ⟨?_, ?_⟩, fun le present => ⟨fun f => ⟨?_, ?_⟩, fun f g => ⟨?_, ?_⟩⟩⟩
      · exact completes_of_act (execWorldBind_eq h s) a ((bindAct_of_live pos lt live).trans (if_pos absent))
      · exact completes_of_act (execWorldUnbind_eq h s) a ((bindAct_of_live pos lt live).trans (if_pos absent))
      · exact completes_of_act (execWorldBind_eq h s) a (bindAct_of_locked pos lt live le present f)
      · exact completes_of_act (execWorldUnbind_eq h s) a (bindAct_of_locked pos lt live le present f)
      · exact completes_of_act (execWorldBind_eq h s) a (bindAct_of_ok pos lt live le present f g)
      · exact defers_of_act (execWorldUnbind_eq h s) a (bindAct_of_ok pos lt live le present f g)

end Sys2Proof.Proofs

namespace Sys2Proof.Machine

/-! ### A host command of a queue that is executed, as its run shows it (04_host_interface R117) -/

/-- A completion with status OK is to be posted for the command. -/
def OkToPost (h : HostCmd) (t : State) : Prop :=
  ∃ r ∈ t.hostRuns, r.queue = h.queue ∧ r.ident = hostIdent h ∧ r.done = true ∧ r.status.toNat = stOk

/-- The command waits for `w`. -/
def WaitsFor (h : HostCmd) (t : State) (w : HostWait) : Prop :=
  ∃ r ∈ t.hostRuns, r.queue = h.queue ∧ r.ident = hostIdent h ∧ r.done = false ∧ r.wait = w

theorem getPart_hostRuns (t : State) (l : List HostRun) (n : Nat) : getPart { t with hostRuns := l } n = getPart t n := rfl

theorem getWorld_hostRuns (t : State) (l : List HostRun) (w : Nat) : getWorld { t with hostRuns := l } w = getWorld t w := rfl

/-- A command of a queue that completes with OK has its completion to post, and does whatever it does to the rest of the state. -/
theorem okToPost_of_completes {i : Instr} {h : HostCmd} {s t : State} {res : Nat} {P : State → Prop} (q : h.queue ≠ mailboxQueue)
    (c : Completes i h s stOk res t) (p : ∀ l, P { t with hostRuns := l }) : ∃ u, exec i s = .next u ∧ OkToPost h u ∧ P u := by
  obtain ⟨r, e, ⟨queue, ident, -, -, -⟩, done, status, -, -, -⟩ := c.2 q
  exact ⟨_, e, ⟨r, List.mem_append_right _ (List.mem_singleton.mpr rfl), queue, ident, done, by rw [status]; rfl⟩, p _⟩

theorem waitsFor_of_defers {i : Instr} {h : HostCmd} {s t : State} {w : HostWait} {P : State → Prop}
    (d : Defers i h s w t) (p : ∀ l, P { t with hostRuns := l }) : ∃ u, exec i s = .next u ∧ WaitsFor h u w ∧ P u := by
  obtain ⟨r, e, ⟨queue, ident, -, -, -⟩, waits, wait⟩ := d
  exact ⟨_, e, ⟨r, List.mem_append_right _ (List.mem_singleton.mpr rfl), queue, ident, waits, wait⟩, p _⟩

theorem ok_of_completes {i : Instr} {h : HostCmd} {s t : State} {res : Nat} (q : h.queue ≠ mailboxQueue) (c : Completes i h s stOk res t) :
    ∃ u, exec i s = .next u ∧ OkToPost h u := by
  obtain ⟨u, e, post, -⟩ := okToPost_of_completes (P := fun _ => True) q c fun _ => trivial
  exact ⟨u, e, post⟩

theorem waits_of_defers {i : Instr} {h : HostCmd} {s t : State} {w : HostWait} (d : Defers i h s w t) : ∃ u, exec i s = .next u ∧ WaitsFor h u w := by
  obtain ⟨u, e, waits, -⟩ := waitsFor_of_defers (P := fun _ => True) d fun _ => trivial
  exact ⟨u, e, waits⟩

/-! ### Host memory while the link is up (03_links_trust R77) -/

theorem hostRead_of_up {s : State} (u : s.linkUp = true) (a n : Nat) : hostRead s a n = some (cellRead s.mem (hostPa a) n) := if_pos u

theorem length_hostList {s : State} {a n : Nat} {l : List Nat} (e : hostList s a n = some l) : l.length = n := by
  obtain ⟨b, -, rfl⟩ := Option.map_eq_some_iff.mp e
  simp

theorem giveData_of_queue {h : HostCmd} (q : h.queue ≠ mailboxQueue) (s : State) (a : Nat) (bs : List Byte) : giveData h s a bs = hostWrite s a bs :=
  if_neg q

/-! ### Pages, worlds, queues, launches and copies that a command leaves behind -/

/-- Each address of a PAGE_ALLOC is mapped, where there are pages enough. -/
theorem allocated_mapped {w : BitVec 6} {tier : Nat} {vas pages : List Nat} (room : vas.length ≤ pages.length) (s : State) {a : Nat} (ha : a ∈ vas) :
    ∃ p ∈ ((vas.zip pages).foldl (allocPage w tier) s).ptes, p.world = w ∧ p.va = a ∧ p.pages = 1 := by
  rw [← List.map_fst_zip room] at ha
  obtain ⟨x, hx, rfl⟩ := List.mem_map.mp ha
  refine ⟨allocPte w tier x, ?_, rfl, rfl, rfl⟩
  rw [foldl_allocPage_ptes]
  exact List.mem_append_right _ (List.mem_map_of_mem hx)

/-- A world bound to a partition is. -/
theorem bound_modWorld {w n : Nat} (hw : w < 64) (hn : n < 16) (s : State) :
    (getWorld (modWorld s w fun x => { x with parts := x.parts ||| partBit n }) w).parts.getLsbD n = true := by
  unfold modWorld
  rw [getWorld_setWorld_self hw, BitVec.getLsbD_or, getLsbD_partBit hn, Bool.or_true]

/-- QRESET of a queue that is there stops it. -/
theorem qresetAct_stops {h : HostCmd} {s : State} (r : s.phase ≠ .recovery)
    (k : qresetQueue h = adminQueue ∨ qresetQueue h < 256 ∧ (getPart s (qresetQueue h / 16)).present = true ∧ hfld h 24 1 ≤ 15) :
    ∃ t, qresetAct h s = (t, .now stOk 0) ∧ QueueStopped (qresetQueue h) t :=
  ⟨_, qresetAct_of_known r k,
    List.foldlRecOn (motive := QueueStopped (qresetQueue h)) _ _ (queueStopped_queueCutOff _ s) fun _ ht _ _ => queueStopped_dropCompletion _ ht⟩

theorem sampleLaunch_bits (s : State) (l : Launch) : (sampleLaunch s l).bits = l.bits := by
  unfold sampleLaunch
  extract_lets w l'
  have kept : l'.bits = l.bits := by
    simp only [l']
    split <;> rfl
  split <;> exact kept

theorem launches_sampleLaunches (s : State) (p : Nat) : (getPart (sampleLaunches s) p).launches = (getPart s p).launches.map (sampleLaunch s) := by
  unfold sampleLaunches getPart
  rw [Vector.toList_map, List.getD_eq_getElem?_getD, List.getD_eq_getElem?_getD, List.getElem?_map]
  cases s.parts.toList[p]? <;> rfl

/-- A launch accepted stands in its pool with its record, its objects sampled. -/
theorem acceptLaunch_sampled {p : Nat} (h : p < 16) (s : State) (bits : BitVec 2048) (base : Counts) :
    ∃ l ∈ (getPart (sampleLaunches (acceptLaunch s p bits base).2) p).launches, l.bits = bits := by
  obtain ⟨l, hl, -, eq⟩ := acceptLaunch_listed h s bits base
  rw [launches_sampleLaunches]
  exact ⟨_, List.mem_map_of_mem hl, (sampleLaunch_bits _ l).trans eq⟩

theorem h2dAct_of_whole {h : HostCmd} {s : State} (u : s.linkUp = true)
    (whole : (toDevice (hostWorld h) (copyLen h / 64) (ptr0 h) (ptr1 h) s).2 = 0) :
    h2dAct h s = (afterIncrement (toDevice (hostWorld h) (copyLen h / 64) (ptr0 h) (ptr1 h) s).1, .now stOk (copyLen h)) := by
  rw [h2dAct_of_up u, whole]
  rfl

theorem d2hAct_of_whole {h : HostCmd} {s : State} (u : s.linkUp = true)
    (whole : (toHost (hostWorld h) (copyLen h / 64) (ptr0 h) (ptr1 h) false s).2 = (0, false)) :
    d2hAct h s = ((toHost (hostWorld h) (copyLen h / 64) (ptr0 h) (ptr1 h) false s).1, .now stOk (copyLen h)) := by
  rw [d2hAct_of_up u, whole]
  rfl

end Sys2Proof.Machine

namespace Sys2Proof.Proofs

open Sys2Proof.Machine

/-- Settles O60, command by command: what each answers, and what its answer leaves in the state. -/
theorem hostCommandCompletion : Obligations.HostCommandCompletion := by
  unfold Obligations.HostCommandCompletion
  intro s h q known common z n w w' ok waits
  have accepted {valid : State → Bool} (v : valid z = true) : Accepted h valid s := ⟨known, common, v⟩
  refine ⟨?create, ?resize, ?parts, ?worlds, ?bind, ?quotas, ?alloc, ?free, ?register, ?power, ?flash, ?service, ?link, ?wait⟩
  case create =>
    intro ports maps v le free island hp hm
    have made := getPart_setPart_self (Nat.lt_succ_of_le le) (installMaps z (partMask h) maps) (createdPart h ports)
    exact okToPost_of_completes q (completes_of_act rfl (accepted v) (partCreateAct_of_free le free island hp hm))
      fun _ => ⟨congrArg Part.present made, congrArg Part.islands made⟩
  case resize =>
    intro maps v le present f island hm idle
    exact okToPost_of_completes q (completes_of_act rfl (accepted v) ((partResizeAct_eq le present f island hm).trans (if_pos idle)))
      fun _ => by rw [getPart_hostRuns]; exact islandsOf_applyResize (Nat.lt_succ_of_le le) (partMask h) maps z
  case parts =>
    intro v le present
    refine ⟨fun f => ?_, ?_⟩
    · exact okToPost_of_completes q (completes_of_act rfl (accepted v) (partDestroyAct_of_ok le present f))
        fun _ => by rw [getPart_hostRuns]; exact congrArg Part.present (getPart_destroyPartition (Nat.lt_succ_of_le le) z)
    · exact okToPost_of_completes q (completes_of_act rfl (accepted v) (partResetAct_of_present le present))
        fun _ => by rw [getPart_hostRuns]; exact tdisp_resetPartition (Nat.lt_succ_of_le le) z causeCommand
  case worlds =>
    intro v pos lt
    refine ⟨fun dead scrubbed => ?_, fun live f => ?_, fun live idle => ?_⟩
    · obtain ⟨k, j, _, act⟩ := worldCreateAct_of_free pos lt dead scrubbed
      exact okToPost_of_completes q (completes_of_act rfl (accepted v) act) fun _ => congrArg World.live (getWorld_setWorld_self lt _ _)
    · exact okToPost_of_completes q
        (completes_of_act rfl (accepted v) ((worldDestroyAct_of_live pos lt live).trans (if_neg (Bool.eq_false_iff.mp f))))
        fun _ => by rw [getWorld_hostRuns]; exact getWorld_destroyWorld_live lt z
    · exact waitsFor_of_defers (defers_of_act rfl (accepted v) ((keyRotateAct_of_live pos lt live).trans (if_pos idle)))
        fun _ => congrArg World.st (getWorld_setWorld_self lt _ _)
  case bind =>
    intro v pos lt live le present f g
    refine ⟨?_, ?_⟩
    · exact okToPost_of_completes q (completes_of_act (execWorldBind_eq h s) (accepted v) (bindAct_of_ok pos lt live le present f g))
        fun _ => bound_modWorld lt (Nat.lt_succ_of_le le) z
    · exact waits_of_defers (defers_of_act (execWorldUnbind_eq h s) (accepted v) (bindAct_of_ok pos lt live le present f g))
  case quotas =>
    intro v lt live
    refine ⟨?_, fun f up => ?_⟩
    · exact okToPost_of_completes q (completes_of_act (execQuotaGet_eq h s) (accepted v) (onWorld_of_live lt live _))
        fun _ => byteAt_hostWrite_in z _ _
    · exact okToPost_of_completes q (completes_of_act rfl (accepted v) (quotaSetAct_of_read lt live f (hostRead_of_up up _ _)))
        fun _ => getQuota_setQuota_self lt _ _
  case alloc =>
    intro vas v lt live none listed vasOk fits room
    have act := pageAllocAct_eq lt live listed (if_pos none) vasOk rfl rfl
    simp only [if_pos none] at act
    refine okToPost_of_completes q (completes_of_act rfl (accepted v)
      (act.trans ((if_neg (by rw [fits]; decide)).trans (if_neg (Nat.not_lt.mpr room))))) fun _ a ha => ?_
    exact allocated_mapped (Nat.le_trans (Nat.le_of_eq (length_hostList listed)) room) z ha
  case free =>
    intro vas v lt live listed all distinct
    exact ok_of_completes q (completes_of_act rfl (accepted v) (pageFreeAct_of_ok lt live listed all distinct))
  case register =>
    intro p clean v lt live hp hc aligned single readOnly room
    exact okToPost_of_completes q
      (completes_of_act rfl (accepted v) (prefixRegAct_of_ok lt live hp hc aligned single readOnly (.inl room)))
      fun _ => ⟨_, List.mem_append_right _ (List.mem_singleton.mpr rfl), rfl, rfl⟩
  case power => exact fun v => okToPost_of_completes q (completes_of_act (execPowerCapSet_eq h s) (accepted v) rfl) fun _ => rfl
  case flash =>
    intro up
    have read := hostRead_of_up up (ptr0 h) (hfld h 28 4)
    refine ⟨fun v => ?_, fun v => ?_⟩
    · exact okToPost_of_completes q (completes_of_act (execFwWrite_eq h s) (accepted v) (fwWriteAct_of_read read)) fun _ => rfl
    · exact okToPost_of_completes q (completes_of_act (execCfgWrite_eq h s) (accepted v) (cfgWriteAct_of_read read)) fun _ => rfl
  case service =>
    intro runs
    refine ⟨fun v => ?_, fun b v e => ?_, fun v => ?_, fun v admin => ?_⟩
    · exact okToPost_of_completes q (completes_of_act rfl (accepted v) (logReadAct_of_queue runs q)) fun _ => rfl
    · have act := errReadAct_of_listed runs e
      rw [giveData_of_queue q] at act
      exact okToPost_of_completes q (completes_of_act rfl (accepted v) act) fun _ => byteAt_hostWrite_in z _ _
    · exact waits_of_defers (defers_of_act (execResync_eq h s) (accepted v) (if_neg runs))
    · obtain ⟨t, act, stopped, -, -⟩ := qresetAct_stops runs (.inl admin)
      rw [admin] at stopped
      exact okToPost_of_completes q (completes_of_act rfl (accepted v) act) fun _ => stopped
  case link =>
    intro up
    refine ⟨fun v world valid room lt => ?_, fun v whole => ?_, fun v whole => ?_⟩
    · have act := launchAct_eq (hostRead_of_up up (ptr0 h) 256)
      have inOrder := not_or_intro (not_not_intro ((launchWorld_eq_hostWorld h _).mp world)) (Bool.not_eq_false _ ▸ valid)
      exact okToPost_of_completes q
        (completes_of_act rfl (accepted v) (act.trans ((if_neg inOrder).trans (if_neg (Bool.eq_false_iff.mp room)))))
        fun _ => by rw [getPart_hostRuns]; exact acceptLaunch_sampled (show h.queue / 16 < 16 by omega) z _ []
    · exact okToPost_of_completes q (completes_of_act rfl (accepted v) (h2dAct_of_whole up whole)) fun _ => rfl
    · exact okToPost_of_completes q (completes_of_act rfl (accepted v) (d2hAct_of_whole up whole)) fun _ => rfl
  case wait =>
    intro v room mapped
    exact waits_of_defers (defers_of_act (execObjWait_eq h s) (accepted v)
      ((if_neg (Nat.not_le.mpr room)).trans (if_neg (mt Option.isNone_iff_eq_none.mp mapped))))

end Sys2Proof.Proofs

namespace Sys2Proof.Machine

/-! ### The tick: what it leaves of the clock and of the cores (09_memory_model R289, 05_partitions_scheduler R154) -/

theorem foldl_keeps {α β : Type} {p : State → β} {f : State → α → State} (h : ∀ s x, p (f s x) = p s) (l : List α) (s : State) :
    p (l.foldl f s) = p s :=
  List.foldlRecOn (motive := fun t => p t = p s) l f rfl fun t ht x _ => (h t x).trans ht

/-- The clock, the tick and the cores: what samples, scrubbing, stealing and placement leave alone. -/
def clockAndCores (s : State) : (Nat × Nat × Bool × Bool) × CoreNo × Core × List (CoreNo × Core) :=
  ((s.now, s.tick, s.tickDue, s.tickWork), s.coreId, s.core, s.others)

theorem clockAndCores_placeNext {s t : State} {p : Nat} {l : Launch} (h : placeNext s p l = some t) : clockAndCores t = clockAndCores s := by
  unfold placeNext at h
  split at h
  · cases h
  · dsimp only at h
    split at h
    · split at h
      · cases h
      · cases h; rfl
    · cases h; rfl

theorem clockAndCores_placeMany (n p : Nat) (l : BitVec 32) (s : State) : clockAndCores (placeMany n s p l) = clockAndCores s := by
  induction n generalizing s with
  | zero => rfl
  | succ n ih =>
    unfold placeMany
    split
    · rfl
    next t h =>
      obtain ⟨x, -, placed⟩ := Option.bind_eq_some_iff.mp h
      exact (ih t).trans (clockAndCores_placeNext placed)

theorem clockAndCores_placeLoose (s : State) (p : Nat) : clockAndCores (placeLoose s p) = clockAndCores s := by
  refine foldl_keeps (fun s g => ?_) _ s
  split
  · rfl
  · split <;> rfl

theorem clockAndCores_placeAll (s : State) : clockAndCores (placeAll s) = clockAndCores s :=
  foldl_keeps (fun s p => (foldl_keeps (fun s _ => clockAndCores_placeMany _ _ _ s) _ _).trans (clockAndCores_placeLoose s p)) _ s

theorem clockAndCores_reinsert (s : State) (g : Gang) : clockAndCores (reinsert s g) = clockAndCores s := rfl

theorem clockAndCores_stealFor (s : State) (p thief : Nat) : clockAndCores (stealFor s p thief) = clockAndCores s := by
  unfold stealFor
  split
  · rfl
  · dsimp only
    split
    · rfl
    · exact foldl_keeps (fun s _ => clockAndCores_reinsert s _) _ s

theorem clockAndCores_stealAll (s : State) : clockAndCores (stealAll s) = clockAndCores s :=
  foldl_keeps (fun s p => foldl_keeps (fun s c => clockAndCores_stealFor s p c) _ s) _ s

theorem clockAndCores_scrubOne (s : State) : clockAndCores (scrubOne s) = clockAndCores s := by
  unfold scrubOne
  split <;> rfl

theorem clockAndCores_answerResync (cut : List Byte) (s : State) (r : HostRun) : clockAndCores (answerResync cut s r) = clockAndCores s := by
  unfold answerResync
  split
  · split <;> rfl
  · rfl

theorem clockAndCores_resyncAll (s : State) : clockAndCores (resyncAll s) = clockAndCores s :=
  foldl_keeps (fun s r => clockAndCores_answerResync _ s r) _ s

theorem getCore_of_clockAndCores {s t : State} (h : clockAndCores t = clockAndCores s) (c : CoreNo) : getCore t c = getCore s c := by
  simp only [clockAndCores, Prod.mk.injEq] at h
  obtain ⟨-, hid, hcore, hothers⟩ := h
  unfold getCore
  rw [hid, hcore, hothers]

/-- Of the clock, the tick and the cores, only what the race detector keeps is changed. -/
structure OnlyRaces (s t : State) : Prop where
  clock : (clockAndCores t).1 = (clockAndCores s).1
  core : ∀ c, ∃ r, getCore t c = { getCore s c with race := r }

theorem OnlyRaces.trans {s t u : State} (h : OnlyRaces s t) (k : OnlyRaces t u) : OnlyRaces s u where
  clock := k.clock.trans h.clock
  core c := by
    obtain ⟨x, hx⟩ := h.core c
    obtain ⟨y, hy⟩ := k.core c
    exact ⟨y, by rw [hy, hx]⟩

theorem getCore_putCore_self (s : State) (c : CoreNo) (k : Core) : getCore (putCore s c k) c = k := by
  unfold putCore
  split
  next e => exact if_pos e
  next e => simp [getCore, e, assocGet_assocPut_self]

theorem getCore_putCore_ne {c d : CoreNo} (e : d ≠ c) (s : State) (k : Core) : getCore (putCore s c k) d = getCore s d := by
  unfold putCore
  split
  next h => subst h; simp [getCore, e]
  next => simp [getCore, assocGet_assocPut_ne e]

theorem onlyRaces_acquireInto (s : State) (c : CoreNo) (x : Counts) : OnlyRaces s (acquireInto s c x) where
  clock := by unfold acquireInto putCore; dsimp only; split <;> rfl
  core d := by
    by_cases e : d = c
    · subst e; exact ⟨_, getCore_putCore_self ..⟩
    · exact ⟨_, getCore_putCore_ne e ..⟩

theorem onlyRaces_completeFence (s : State) (f : ScFence) : OnlyRaces s (completeFence s f) :=
  have joined := onlyRaces_acquireInto { s with scVecs := _ } f.core _
  ⟨joined.clock, joined.core⟩

theorem onlyRaces_completeFences (s : State) : OnlyRaces s (completeFences s) :=
  List.foldlRecOn (motive := OnlyRaces s) _ _ ⟨rfl, fun _ => ⟨_, rfl⟩⟩ fun _ h _ _ => h.trans (onlyRaces_completeFence _ _)

theorem assocGet_map {α β : Type} (f : Nat → α → β) (l : List (Nat × α)) (k : Nat) :
    assocGet (l.map fun p => (p.1, f p.1 p.2)) k = (assocGet l k).map (f k) := by
  induction l with
  | nil => rfl
  | cons p l ih =>
    rw [List.map_cons, assocGet, assocGet]
    by_cases e : p.1 = k
    · rw [if_pos e, if_pos e, e]; rfl
    · rw [if_neg e, if_neg e]; exact ih

/-- A change of every core that leaves one after reset alone reaches the cores that are not listed, too. -/
theorem getCore_mapCores {f : Core → Core} (h : f Core.reset = Core.reset) (s : State) (c : CoreNo) :
    getCore (mapCores (fun _ => f) s) c = f (getCore s c) := by
  unfold getCore mapCores
  dsimp only
  rw [assocGet_map fun _ => f]
  split
  · rfl
  · cases assocGet s.others c with
    | none => exact h.symm
    | some k => rfl

theorem countWatch_race (k : Core) (r : Race) : (countWatch { k with race := r }).sys = (countWatch k).sys := by
  unfold countWatch
  rw [apply_ite Core.sys, apply_ite Core.sys]
  rfl

/-- The cores and the tick after an edge: the watchdogs have counted, on every core. -/
theorem execStrokeTick_keeps (s : State) :
    ∃ t, execStrokeTick s = .next t
      ∧ clockAndCores t
        = clockAndCores (mapCores (fun _ => countWatch) (completeFences { s with tick := s.tick + 1, tickDue := false, tickWork := true })) :=
  ⟨_, rfl, calc
    _ = _ := clockAndCores_placeAll _
    _ = _ := clockAndCores_stealAll _
    _ = _ := clockAndCores_scrubOne _
    _ = _ := clockAndCores_resyncAll _
    _ = _ := rfl⟩

theorem execStrokeTick_counts (s : State) : ∃ t, execStrokeTick s = .next t ∧ t.tick = s.tick + 1 ∧ t.tickDue = false ∧ t.tickWork = true
    ∧ t.now = s.now ∧ ∀ c, (getCore t c).sys.wdogCount = (countWatch (getCore s c)).sys.wdogCount := by
  obtain ⟨t, ht, kept⟩ := execStrokeTick_keeps s
  have fences := onlyRaces_completeFences { s with tick := s.tick + 1, tickDue := false, tickWork := true }
  have clock := (congrArg Prod.fst kept).trans fences.clock
  simp only [clockAndCores, Prod.mk.injEq] at clock
  obtain ⟨now, tick, due, work⟩ := clock
  refine ⟨t, ht, tick, due, work, now, fun c => ?_⟩
  obtain ⟨r, hr⟩ := fences.core c
  rw [getCore_of_clockAndCores kept, getCore_mapCores rfl, hr, countWatch_race]
  rfl

/-! ### Launches of a pool (05_partitions_scheduler R145 to R148) -/

theorem num_of_findLaunch {s : State} {p : Nat} {n : BitVec 32} {l : Launch} (h : findLaunch s p n = some l) : l.num = n := by
  simpa using List.find?_some h

/-- Only a partition's pool holds launches. -/
theorem lt_of_findLaunch {s : State} {p : Nat} {n : BitVec 32} {l : Launch} (h : findLaunch s p n = some l) : p < 16 := by
  refine Nat.lt_of_not_le fun ge => ?_
  have absent : getPart s p = Part.absent := by
    unfold getPart
    rw [List.getD_eq_getElem?_getD, List.getElem?_eq_none (by rwa [Vector.length_toList])]
    rfl
  rw [findLaunch, absent] at h
  cases h

/-- A change of a launch that keeps its number is seen under that number. -/
theorem findLaunch_modLaunch_self {p : Nat} (h : p < 16) {f : Launch → Launch} (hf : ∀ x, (f x).num = x.num) (s : State) (n : BitVec 32) :
    findLaunch (modLaunch s p n f) p n = (findLaunch s p n).map f := by
  unfold findLaunch modLaunch modPart
  rw [getPart_setPart_self h, List.find?_map]
  have same : ((fun x : Launch => decide (x.num = n)) ∘ fun x => if x.num = n then f x else x) = fun x => decide (x.num = n) := by
    funext x
    by_cases e : x.num = n <;> simp [e, hf]
  rw [same]
  cases e : (getPart s p).launches.find? fun x => decide (x.num = n) with
  | none => rfl
  | some l => simp [num_of_findLaunch e]

/-- A change of a partition that keeps its launches keeps every pool. -/
theorem launches_modPart {f : Part → Part} (hf : ∀ x, (f x).launches = x.launches) (m n : Nat) (s : State) :
    (getPart (modPart s n f) m).launches = (getPart s m).launches := by
  unfold modPart
  by_cases e : m = n
  · subst e
    rcases Nat.lt_or_ge m 16 with lt | ge
    · rw [getPart_setPart_self lt, hf]
    · rw [getPart_setPart_beyond ge]
  · rw [getPart_setPart_ne e]

theorem launches_unpark (s : State) (p m : Nat) : (getPart (unpark s p) m).launches = (getPart s m).launches := by
  unfold unpark
  dsimp only
  split
  · rfl
  · split
    · rfl
    · exact launches_modPart (by intro; rfl) ..

theorem sampleLaunch_num (s : State) (l : Launch) : (sampleLaunch s l).num = l.num := by
  unfold sampleLaunch
  extract_lets w l'
  have kept : l'.num = l.num := by
    simp only [l']
    split <;> rfl
  split <;> exact kept

/-- A sample leaves the numbers of the launches of a pool. -/
theorem nums_sampleLaunches (s : State) (p : Nat) :
    (getPart (sampleLaunches s) p).launches.map (·.num) = (getPart s p).launches.map (·.num) := by
  rw [launches_sampleLaunches, List.map_map]
  exact List.map_congr_left fun l _ => sampleLaunch_num s l

/-- The pool record of a launch that ends is freed. -/
theorem num_notMem_finishLaunch {p : Nat} (h : p < 16) (s : State) (l : Launch) :
    l.num ∉ (getPart (finishLaunch s p l) p).launches.map (·.num) := by
  unfold finishLaunch afterIncrement
  extract_lets w sw eo s1 s2 s3 s4 s5
  have freed : (getPart s5 p).launches = (getPart s3 p).launches.filter fun x => x.num ≠ l.num :=
    congrArg Part.launches (getPart_setPart_self h s3 _)
  rw [nums_sampleLaunches, launches_unpark, freed]
  simp

theorem execLaunchEnd_of_over {s : State} {l : Launch} (h : findLaunch s s.ev.n (s.ev.v.setWidth 32) = some l) (done : launchOver s s.ev.n l = true) :
    execLaunchEnd s = .next (finishLaunch (forgetMeets l s) s.ev.n l) := by
  unfold execLaunchEnd
  rw [h]
  exact congrArg _ (if_pos done)

/-! ### Ageing (R152) -/

theorem mem_queueInsert (g : Gang) (l : List Gang) : g ∈ queueInsert g l := by
  induction l with
  | nil => exact List.mem_singleton.mpr rfl
  | cons x l ih =>
    unfold queueInsert
    split
    · exact List.mem_cons_self
    · exact List.mem_cons_of_mem _ ih

/-- A gang promoted stands in its new class. -/
theorem mem_gangs_promote {s : State} {g : Gang} (h : g ∈ s.gangs) :
    { g with dcls := g.dcls - 1, since := edgeTick s } ∈ (promote s g).gangs := by
  unfold promote
  dsimp only
  split
  next wide => exact List.mem_map.mpr ⟨g, h, by simp [wide]⟩
  next => exact mem_queueInsert _ _

theorem promote_frame (s : State) (g : Gang) : promote s g = { s with gangs := (promote s g).gangs } := by
  unfold promote
  dsimp only
  split <;> rfl

theorem execAgeingPromotion_of_found {s : State} {g : Gang} (h : (s.gangs.find? fun g => g.id = s.ev.n && promotable s g) = some g) :
    execAgeingPromotion s = .next (promote s g) := by
  unfold execAgeingPromotion
  rw [h]

/-! ### Starts and stops of gangs (R150, R151, R158) -/

theorem execGangDispatch_of_fits {s t : State} {g : Gang} (h : headGang s s.ev.n = some g) (fits : canStart s s.ev.n g = true)
    (started : startGang s g ((freeCores s s.ev.n).take g.tasks.length) = some t) : execGangDispatch s = .next t := by
  have act : dispatchAct s s.ev.n = some t := by
    unfold dispatchAct
    rw [h]
    exact (if_pos fits).trans started
  unfold execGangDispatch
  rw [act]
  rfl

theorem execWideGangStart_of_fits {s t : State} {g : Gang} (ok : reservationOk s s.ev.n = true) (h : reserving s s.ev.n = some g)
    (fits : g.tasks.length ≤ ((getPart s s.ev.n).reserved.flatMap (freeCores s)).length)
    (started : startGang s g (((getPart s s.ev.n).reserved.flatMap (freeCores s)).take g.tasks.length) = some t) :
    execWideGangStart s = .next (modPart t s.ev.n fun x => { x with reserved := [] }) := by
  have act : wideAct s s.ev.n = some (modPart t s.ev.n fun x => { x with reserved := [] }) := by
    unfold wideAct
    rw [ok, h]
    exact (if_pos fits).trans (congrArg _ started)
  unfold execWideGangStart
  rw [act]
  rfl

theorem execPreemptionSave_of_stopped {s : State} {g : Gang}
    (h : (s.gangs.find? fun g => g.id = s.ev.n && (stopReason g).isSome && gangStopped s g.id) = some g) :
    execPreemptionSave s =
      .next (if stopReason g = some reasonFail then dropGang s g.part g.launch g.idx else saveGang s g ((stopReason g).getD 0)) := by
  unfold execPreemptionSave
  rw [h]

/-! ### Barriers (R142) -/

theorem openArrivals_completeBarrier (s : State) (p : Nat) (l : Launch) (lv no : Nat) :
    openArrivals (completeBarrier s p l lv no) p l lv no = [] := by
  refine List.filter_eq_nil_iff.mpr fun a ha => ?_
  obtain ⟨b, -, rfl⟩ := List.mem_map.mp ha
  split
  · simp
  next still => exact still

/-- An arrival of the gang completes, with the vectors merged and the counts of the re-base. -/
theorem mem_arrivals_completeBarrier {s : State} {p : Nat} {l : Launch} {lv no : Nat} {a : Arrival} (h : a ∈ openArrivals s p l lv no) :
    { a with complete := true, vec := (openArrivals s p l lv no).foldl (fun v a => mergeCounts (mergeCounts v a.vec) (joinedBy s a)) [],
             rebase := rebaseCounts s p l lv no } ∈ (completeBarrier s p l lv no).arrivals := by
  obtain ⟨mem, isOpen⟩ := List.mem_filter.mp h
  exact List.mem_map.mpr ⟨a, mem, if_pos isOpen⟩

/-- A barrier of this package that takes no checkpoint only completes its arrivals. -/
theorem execBarrierComplete_of_ready {s : State} {l : Launch} (h : findLaunch s s.ev.n (s.ev.v.setWidth 32) = some l)
    (ready : meetReady s s.ev.n l s.ev.k (s.ev.list.headD 0) = true) (here : levelDomain l s.ev.k ≠ 4)
    (plain : barrierCkpt s s.ev.n l s.ev.k (s.ev.list.headD 0) = false) :
    execBarrierComplete s = .next (completeBarrier s s.ev.n l s.ev.k (s.ev.list.headD 0)) := by
  unfold execBarrierComplete
  simp only [h, ready, here, plain]
  rfl

end Sys2Proof.Machine

namespace Sys2Proof.Proofs

open Sys2Proof.Machine

/-- Settles O52, event by event. -/
theorem schedulerEvents : Obligations.SchedulerEvents := by
  unfold Obligations.SchedulerEvents
  intro s n num
  refine ⟨execStrokeTick_counts s, ?late, ?ageing, ?watch, ?dispatch, ?wide, ?save, ?ends, ?barrier⟩
  case late =>
    intro l found late
    refine ⟨_, rfl, rfl, ?_⟩
    refine (findLaunch_modLaunch_self (lt_of_findLaunch found) (fun x => ?_) s num).trans ?_
    · split <;> rfl
    · rw [found]
      exact congrArg some (if_pos late)
  case ageing =>
    intro g found
    exact ⟨_, _, execAgeingPromotion_of_found found, mem_gangs_promote (List.mem_of_find?_eq_some found), rfl, promote_frame s g⟩
  case watch => exact fun expired => if_pos expired
  case dispatch => exact fun g t head fits started => execGangDispatch_of_fits head fits started
  case wide => exact fun g t ok holds fits started => execWideGangStart_of_fits ok holds fits started
  case save => exact fun g found => execPreemptionSave_of_stopped found
  case ends =>
    intro l found done
    refine ⟨_, execLaunchEnd_of_over found done, rfl, fun x hx e => ?_⟩
    refine num_notMem_finishLaunch (lt_of_findLaunch found) (forgetMeets l s) l (List.mem_map.mpr ⟨x, hx, ?_⟩)
    exact e.trans (num_of_findLaunch found).symm
  case barrier =>
    intro l found lv no vec ready here plain
    exact ⟨_, execBarrierComplete_of_ready found ready here plain, rfl, openArrivals_completeBarrier ..,
      fun a ha => mem_arrivals_completeBarrier ha⟩

end Sys2Proof.Proofs

namespace Sys2Proof.Machine

/-! ### A launch record that a task hands over (05_partitions_scheduler R156) -/

/-- The task of the core in focus, of launch `own`, has read a record of its world at g[a], and nothing that it has issued is outstanding. -/
structure HandsOver (s : State) (a : GReg) (t : TaskRef) (own : Launch) (bits : BitVec 2048) : Prop where
  task : s.core.task = some t
  launch : taskLaunch s = some own
  noHandler : inHandler s = false
  aligned : (readG s a).toNat % 256 = 0
  phase : s.core.phase ≠ awaiting
  record : ∃ bs x xs, xlateSpan s s.core.sys.world (readG s a).toNat 256 false = .ok (x :: xs) ∧ readRecord s (.ok (x :: xs)) = .ok bs
    ∧ recordHeld s (.ok (x :: xs)) = false ∧ recordMissing s (.ok (x :: xs)) = none ∧ bits = BitVec.ofNat 2048 (leNat bs)
  cached : tlbHolds s.core s.core.sys.world (readG s a).toNat = true
  noLoads : s.core.loads = []
  noStores : s.core.stores = []
  noTimed : s.core.timed = []
  world : launchWorld (Launch.accept 0 bits []) = s.core.sys.world

/-- The scheduler takes the record: it is valid, and its class is not more urgent than that of the launch that hands it over. -/
def Acceptable (s : State) (t : TaskRef) (own : Launch) (bits : BitVec 2048) : Prop :=
  validLaunch s t.part bits = true ∧ launchClass own ≤ launchClass (Launch.accept 0 bits [])

/-! A fence mark changes the mark and the phase of the S stream alone. -/

theorem markFence_core_g (s : State) : (markFence s).core.g = s.core.g := by unfold markFence; split <;> rfl
theorem markFence_core_pc (s : State) : (markFence s).core.pc = s.core.pc := by unfold markFence; split <;> rfl
theorem markFence_core_sys (s : State) : (markFence s).core.sys = s.core.sys := by unfold markFence; split <;> rfl
theorem cyc_markFence (s : State) : cyc (markFence s) = cyc s := by unfold markFence; split <;> rfl
theorem getPart_markFence (s : State) (p : Nat) : getPart (markFence s) p = getPart s p := by unfold markFence; split <;> rfl

theorem acceptable_markFence {s : State} {t : TaskRef} {own : Launch} {bits : BitVec 2048} :
    Acceptable (markFence s) t own bits ↔ Acceptable s t own bits := by
  unfold markFence
  split <;> rfl

theorem drained_markFence {s : State} (l : s.core.loads = []) (w : s.core.stores = []) (t : s.core.timed = []) (reads writes : Bool) :
    drained (markFence s).core reads writes = true := by
  unfold markFence
  split <;> simp [drained, l, w, t]

/-- A record handed over comes to the partition's scheduler. -/
theorem launchForm_of_handsOver {s : State} {o : R2} {t : TaskRef} {own : Launch} {bits : BitVec 2048} (h : HandsOver s o.a t own bits)
    (wait : Bool) : launchForm wait o s = launchRecord t own wait o.d bits (markFence s) := by
  obtain ⟨bs, x, xs, span, read, free, here, rfl⟩ := h.record
  have idle := drained_markFence h.noLoads h.noStores h.noTimed true true
  have world := h.world.trans (congrArg SysRegs.world (markFence_core_sys s).symm)
  unfold launchForm
  simp only [h.task, h.launch, h.phase, h.noHandler, h.aligned, span, read, h.cached, free, here, idle, world, Bool.not_true, Bool.false_eq_true,
    ne_eq, not_true_eq_false, reduceIte]

/-- The status or the launch number comes back to the task. -/
def launchAnswer (d : GReg) (x : Nat) (s : State) : State :=
  sNextAt launchCycles (writeG d (BitVec.ofNat 64 x) launchCycles (modCore (fun k => { k with recLines := [] }) s))

/-- The registers of the core and its next issue after an answer, from a state that agrees with `s` in them. -/
theorem launchAnswer_regs {s u : State} (g : u.core.g = s.core.g) (c : cyc u = cyc s) (d : GReg) (x : Nat) :
    readG (launchAnswer d x u) d = (if d = 0 then 0 else BitVec.ofNat 64 x) ∧ (∀ r, r ≠ d → readG (launchAnswer d x u) r = readG s r)
      ∧ (launchAnswer d x u).core.sReady = cyc s + 180 := by
  unfold launchAnswer
  refine ⟨?_, fun r hr => ?_, ?_⟩
  · rw [readG_sNextAt, readG_writeG_self]
  · rw [readG_sNextAt, readG_writeG_ne hr]
    simp [readG, g]
  · simp [c, launchCycles]

theorem getPart_launchAnswer (d : GReg) (x : Nat) (s : State) (p : Nat) : getPart (launchAnswer d x s) p = getPart s p := by
  unfold launchAnswer getPart
  simp

section
variable {s : State} {t : TaskRef} {own : Launch} {bits : BitVec 2048}

theorem launchRecord_of_unfit (h : ¬Acceptable s t own bits) (wait : Bool) (d : GReg) :
    launchRecord t own wait d bits s = .next (launchAnswer d stBadcmd s) := by
  refine if_pos ?_
  cases valid : validLaunch s t.part bits with
  | false => rfl
  | true => exact decide_eq_true (Nat.lt_of_not_le fun le => h ⟨valid, le⟩)

variable (fit : Acceptable s t own bits)
include fit

theorem not_unfit : ¬(!validLaunch s t.part bits || decide (launchClass (Launch.accept 0 bits []) < launchClass own)) = true := by
  obtain ⟨valid, le⟩ := fit
  rw [valid, decide_eq_false (Nat.not_lt.mpr le)]
  decide

theorem launchRecord_of_full (full : poolFull s t.part = true) (wait : Bool) (d : GReg) :
    launchRecord t own wait d bits s = .next (if wait
      then modCore (fun k => { k with hold := .parking, phase := 0, cut := cyc s, cutPc := k.pc, cutXfer := k.xfer, cutPhase := 0 }) s
      else launchAnswer d stFull s) := by
  refine (if_neg (not_unfit fit)).trans ((if_pos full).trans ?_)
  split <;> rfl

/-- With room, the record is accepted at a release point of the core, and its launch number comes back. -/
theorem launchRecord_of_room (room : poolFull s t.part = false) (wait : Bool) (d : GReg) :
    ∃ vec, launchRecord t own wait d bits s =
      .next (launchAnswer d ((acceptLaunch (irrevocable (releasePoint s s.coreId 2 .other [])) t.part bits vec).1.toNat * 2 ^ 32)
        (sampleLaunches (acceptLaunch (irrevocable (releasePoint s s.coreId 2 .other [])) t.part bits vec).2)) :=
  ⟨_, (if_neg (not_unfit fit)).trans (if_neg (Bool.eq_false_iff.mp room))⟩

end

/-! ### The state in which a record is accepted -/

/-- A release point of the core in focus changes only that core's race state. -/
theorem releasePoint_focus (s : State) (scope : Nat) (kind : SnapKind) (more : Counts) :
    ∃ r, releasePoint s s.coreId scope kind more = modCore (fun k => { k with relArmed := false, race := r }) s := by
  unfold releasePoint getCore putCore
  simp only [if_pos]
  exact ⟨_, rfl⟩

theorem irrevocable_frame (s : State) : irrevocable s = { s with ckpts := (irrevocable s).ckpts } := by
  unfold irrevocable
  split <;> rfl

/-- The release point of an acceptance leaves the partitions, the islands and the core's general registers. -/
theorem acceptPoint_keeps (s : State) :
    let u := irrevocable (releasePoint s s.coreId 2 .other [])
    u.parts = s.parts ∧ u.core.g = s.core.g ∧ cyc u = cyc s := by
  obtain ⟨r, released⟩ := releasePoint_focus s 2 .other []
  rw [released, irrevocable_frame]
  exact ⟨rfl, rfl, rfl⟩

theorem acceptLaunch_num (s : State) (p : Nat) (bits : BitVec 2048) (base : Counts) :
    (acceptLaunch s p bits base).1 = (getPart s p).nextLaunch := rfl

theorem nums_acceptLaunch {p : Nat} (h : p < 16) (s : State) (bits : BitVec 2048) (base : Counts) :
    (getPart (acceptLaunch s p bits base).2 p).launches.map (·.num) = (getPart s p).launches.map (·.num) ++ [(getPart s p).nextLaunch] := by
  unfold acceptLaunch
  dsimp only
  rw [getPart_setPart_self h]
  exact List.map_append

/-- With room, the launch number comes back, and the pool holds the record under it. -/
theorem launchRecord_accepts {s : State} {t : TaskRef} {own : Launch} {bits : BitVec 2048}
    (fit : Acceptable s t own bits) (room : poolFull s t.part = false)
    (p : t.part < 16) (wait : Bool) (d : GReg) :
    ∃ u, launchRecord t own wait d bits s = .next (launchAnswer d ((getPart s t.part).nextLaunch.toNat * 2 ^ 32) u)
      ∧ u.core.g = s.core.g ∧ cyc u = cyc s
      ∧ (getPart u t.part).launches.map (·.num) = (getPart s t.part).launches.map (·.num) ++ [(getPart s t.part).nextLaunch] := by
  obtain ⟨vec, eq⟩ := launchRecord_of_room fit room wait d
  obtain ⟨parts, g, c⟩ := acceptPoint_keeps s
  have same : getPart (irrevocable (releasePoint s s.coreId 2 .other [])) t.part = getPart s t.part := by
    unfold getPart
    rw [parts]
  rw [acceptLaunch_num, same] at eq
  refine ⟨_, eq, g, c, ?_⟩
  rw [nums_sampleLaunches, nums_acceptLaunch p, same]

/-! ### LAUNCH and LAUNCHW of a record handed over -/

section
variable {s : State} {o : R2} {t : TaskRef} {own : Launch} {bits : BitVec 2048} (h : HandsOver s o.a t own bits)
include h

theorem launchForm_of_unfit (unfit : ¬Acceptable s t own bits) (wait : Bool) :
    launchForm wait o s = .next (launchAnswer o.d stBadcmd (markFence s)) :=
  (launchForm_of_handsOver h wait).trans (launchRecord_of_unfit (mt acceptable_markFence.mp unfit) wait o.d)

variable (fit : Acceptable s t own bits)
include fit

theorem launchForm_of_full (full : poolFull s t.part = true) (wait : Bool) :
    launchForm wait o s = .next (if wait
      then modCore (fun k => { k with hold := .parking, phase := 0, cut := cyc s, cutPc := k.pc, cutXfer := k.xfer, cutPhase := 0 }) (markFence s)
      else launchAnswer o.d stFull (markFence s)) := by
  rw [← cyc_markFence s]
  exact (launchForm_of_handsOver h wait).trans
    (launchRecord_of_full (acceptable_markFence.mpr fit) (by rwa [poolFull, getPart_markFence]) wait o.d)

theorem launchForm_accepts (room : poolFull s t.part = false) (p : t.part < 16) (wait : Bool) :
    ∃ u, launchForm wait o s = .next (launchAnswer o.d ((getPart s t.part).nextLaunch.toNat * 2 ^ 32) u)
      ∧ u.core.g = s.core.g ∧ cyc u = cyc s
      ∧ (getPart u t.part).launches.map (·.num) = (getPart s t.part).launches.map (·.num) ++ [(getPart s t.part).nextLaunch] := by
  have accepted := launchRecord_accepts (acceptable_markFence.mpr fit) (by rwa [poolFull, getPart_markFence]) p wait o.d
  rw [markFence_core_g, cyc_markFence, getPart_markFence] at accepted
  rw [launchForm_of_handsOver h wait]
  exact accepted

end

end Sys2Proof.Machine

namespace Sys2Proof.Proofs

open Sys2Proof.Machine

/-- Settles O21: the record that was read comes to the scheduler, which turns it away, holds the task back, or accepts it. -/
theorem launchInstructions : Obligations.LaunchInstructions := by
  unfold Obligations.LaunchInstructions
  intro s o k own bs x xs va task launch noHandler aligned span read cached free here phase noLoads noStores noTimed bits world answered fit
  have handed : HandsOver s o.a k own bits :=
    ⟨task, launch, noHandler, aligned, phase, ⟨bs, x, xs, span, read, free, here, rfl⟩, cached, noLoads, noStores, noTimed, world⟩
  have g := markFence_core_g s
  have c := cyc_markFence s
  refine ⟨fun unfit => ⟨?_, ?_⟩, fun fit full => ⟨?_, ?_⟩, fun fit room hp => ?_⟩
  · exact ⟨_, launchForm_of_unfit handed unfit false, launchAnswer_regs g c o.d stBadcmd⟩
  · exact ⟨_, launchForm_of_unfit handed unfit true, launchAnswer_regs g c o.d stBadcmd⟩
  · exact ⟨_, launchForm_of_full handed fit full false, launchAnswer_regs g c o.d stFull⟩
  · exact ⟨_, launchForm_of_full handed fit full true, rfl, markFence_core_pc s, markFence_core_pc s, g⟩
  · have accepts := launchForm_accepts handed fit room hp
    obtain ⟨u, eq, gu, cu, nums⟩ := accepts false
    obtain ⟨u', eq', gu', cu', -⟩ := accepts true
    refine ⟨⟨_, eq, launchAnswer_regs gu cu o.d _⟩, ⟨_, eq', launchAnswer_regs gu' cu' o.d _⟩, fun t ht => ?_⟩
    cases eq.symm.trans ht
    rw [getPart_launchAnswer]
    exact nums

end Sys2Proof.Proofs

namespace Sys2Proof.Machine

/-! ### The act that a step takes (06_core R165 to R173, 12_isa_scalar R347, R348) -/

/-- The package has booted, and nothing that comes before the streams is due. -/
structure OnlyStreamsDue (s : State) : Prop where
  booted : s.phase = .booted
  input : inputAct s = none
  package : packageAct s = none
  core : coreAct s = none
  mailbox : mailboxAct s = none
  fetch : fetchAct s = none

theorem step_of_booted {s : State} (h : s.phase = .booted) : step s = (bootedAct s).take := by
  unfold step
  rw [h]

theorem step_of_scalarAct {s : State} (only : OnlyStreamsDue s) {a : Act} (h : scalarAct s = some a) : step s = a.take := by
  obtain ⟨booted, input, package, core, mailbox, fetch⟩ := only
  rw [step_of_booted booted]
  simp [bootedAct, bootedActs, input, package, core, mailbox, fetch, h]

theorem step_of_columnAct {s : State} (only : OnlyStreamsDue s) (scalar : scalarAct s = none) (engine : engineAct s = none) (trap : trapAct s = none)
    {a : Act} (h : columnAct s = some a) : step s = a.take := by
  obtain ⟨booted, input, package, core, mailbox, fetch⟩ := only
  rw [step_of_booted booted]
  simp [bootedAct, bootedActs, input, package, core, mailbox, fetch, scalar, engine, trap, h]

theorem scalarAct_of_ready {s : State} {c : CoreNo} (h : (coreNos s).find? (scalarReady s) = some c) : scalarAct s = some (scalarIssue (focus s c)) := by
  rw [scalarAct, h]
  rfl

theorem scalarAct_of_idle {s : State} (h : (coreNos s).find? (scalarReady s) = none) : scalarAct s = none := by
  rw [scalarAct, h]
  rfl

theorem scalarIssue_of_undefined {s : State} {w : Word} {e : Reject} (f : fetchWord s s.core.pc = .ok w) (d : decode .s w = .error e) :
    scalarIssue s = .set (sTrap .illegal 0 s) := by
  simp [scalarIssue, f, d]

theorem scalarIssue_of_decoded {s : State} {w : Word} {i : Instr} (f : fetchWord s s.core.pc = .ok w) (d : decode .s w = .ok i) :
    scalarIssue s = if gReady s i then .run i s else .set (sBlock s) := by
  simp [scalarIssue, f, d]

theorem columnIssue_of_undefined {s : State} {x : Col} {w : Word} {e : Reject} (d : decode (.col x) w = .error e) :
    columnIssue x w s = .set (colTrap x .illegal s) := by
  simp [columnIssue, d]

theorem columnIssue_of_decoded {s : State} {x : Col} {w : Word} {i : Instr} (d : decode (.col x) w = .ok i) : columnIssue x w s = .run i s := by
  simp [columnIssue, d]

/-- Where one core alone has a column word to issue, it is the word of that core. -/
theorem columnAct_of_only {s : State} {c : CoreNo} {x : Col} {w : Word} (there : c ∈ coreNos s) (choice : columnChoice s c = some (x, w))
    (others : ∀ d ∈ coreNos s, d ≠ c → columnChoice s d = none) : columnAct s = some (columnIssue x w (focus s c)) := by
  obtain ⟨before, after, split, fresh⟩ := List.eq_append_cons_of_mem there
  refine List.findSome?_eq_some_iff.mpr ⟨before, c, after, split, by rw [choice]; rfl, fun d hd => ?_⟩
  have hne : d ≠ c := fun e => fresh (e ▸ hd)
  rw [others d (split ▸ List.mem_append_left _ hd) hne]
  rfl

end Sys2Proof.Machine

namespace Sys2Proof.Proofs

open Sys2Proof.Machine

/-- Settles O7: the step's act is that of the stream in question, and the word's decoding says which act it is. -/
theorem stepRunsTheDecodedWord : Obligations.StepRunsTheDecodedWord := by
  unfold Obligations.StepRunsTheDecodedWord
  intro s c w booted input package core mailbox fetch z
  have only : OnlyStreamsDue s := ⟨booted, input, package, core, mailbox, fetch⟩
  refine ⟨fun ready fetched => ?scalar, fun idle engine trap x choice others there => ?column⟩
  case scalar =>
    have taken : step s = (scalarIssue z).take := step_of_scalarAct only (scalarAct_of_ready ready)
    refine ⟨fun i d => ⟨fun r => ?_, fun r => ?_⟩, fun e d => ?_⟩
    · rw [taken, scalarIssue_of_decoded fetched d, r]; rfl
    · rw [taken, scalarIssue_of_decoded fetched d, r]; rfl
    · rw [taken, scalarIssue_of_undefined fetched d]; rfl
  case column =>
    have taken : step s = (columnIssue x w z).take :=
      step_of_columnAct only (scalarAct_of_idle idle) engine trap (columnAct_of_only there choice others)
    refine ⟨fun i d => ?_, fun e d => ?_⟩
    · rw [taken, columnIssue_of_decoded d]; rfl
    · rw [taken, columnIssue_of_undefined d]; rfl

end Sys2Proof.Proofs

namespace Sys2Proof.Machine

/-! ### The sequencers of a core's columns -/

theorem getCol_setCol_self (k : Core) (c : Col) (q : ColSeq) : getCol (setCol c q k) c = q := by cases c <;> rfl

theorem getCol_setCol_ne {c d : Col} (h : c ≠ d) (k : Core) (q : ColSeq) : getCol (setCol d q k) c = getCol k c := by
  cases d with
  | colL => cases c with
    | colL => exact absurd rfl h
    | colC | colW => rfl
  | colC => cases c with
    | colC => exact absurd rfl h
    | colL | colW => rfl
  | colW => cases c with
    | colW => exact absurd rfl h
    | colL | colC => rfl

theorem setCol_getCol (k : Core) (c : Col) : setCol c (getCol k c) k = k := by cases c <;> rfl

theorem setCol_e (k : Core) (c : Col) (q : ColSeq) : (setCol c q k).e = k.e := by cases c <;> rfl

/-! ### STRIP_BODY_LOAD (06_core R170) -/

section
variable {s : State} {i : Nat} {x : QStrip} (h : loadNext (getCol (focus s s.ev.core).core s.ev.col) = some (i, x))
include h

theorem execStripBodyLoad_of_miss {p : Pte} (miss : bodyMiss (focus s s.ev.core) x = some p) :
    execStripBodyLoad s = .next (modCore (tlbFill p) (focus s s.ev.core)) := by
  simp only [execStripBodyLoad, h, miss]

variable (hit : bodyMiss (focus s s.ev.core) x = none)
include hit

theorem execStripBodyLoad_of_loaded {l : List Word} (f : fetchBody (focus s s.ev.core) x.len (x.hdr + 4) = .ok l) :
    let q := getCol (focus s s.ev.core).core s.ev.col
    execStripBodyLoad s = .next (modCore (setCol s.ev.col { q with queue := q.queue.set i { x with body := some l } }) (focus s s.ev.core)) := by
  simp only [execStripBodyLoad, h, hit, f]

theorem execStripBodyLoad_of_fault {f : Failed} (e : fetchBody (focus s s.ev.core) x.len (x.hdr + 4) = .error f) :
    let q := getCol (focus s s.ev.core).core s.ev.col
    let y : Trap := { cause := f.cause, source := colOrder s.ev.col, pc := x.hdr, addr := f.addr, detail := f.detail }
    execStripBodyLoad s = .next (modCore (setCol s.ev.col { q with queue := q.queue.set i { x with fault := some y } }) (focus s s.ev.core)) := by
  simp only [execStripBodyLoad, h, hit, e]

end

/-! ### Pins: what taking them leaves of the core (07_serving_structures R203) -/

/-- A core but for its adapter handles and the pins that it holds. -/
def withoutPins (k : Core) : Core := { k with ah := Core.reset.ah, pinned := [] }

theorem core_takeReader (p : Nat) (s : State) (x : BitVec 24 × BitVec 32) : (takeReader p s x).core = s.core := rfl

theorem withoutPins_pinGroup (n g : Nat) (s : State) : withoutPins (pinGroup n g s).core = withoutPins s.core := by
  let p := (partOfCore s s.coreId).getD 0
  calc withoutPins (pinGroup n g s).core
    _ = withoutPins ((pinFor s n g).toList.foldl (takeReader p) s).core := rfl
    _ = withoutPins s.core := congrArg withoutPins (foldl_keeps (p := State.core) (core_takeReader p) _ s)

theorem withoutPins_pinStrip (s : State) : withoutPins (pinStrip s).core = withoutPins s.core :=
  foldl_keeps (p := fun t => withoutPins t.core) (fun t n =>
    foldl_keeps (p := fun t => withoutPins t.core) (fun u g => withoutPins_pinGroup n g u) _ t) _ s

theorem withoutPins_pinAgain (s : State) : withoutPins (pinAgain s).core = withoutPins s.core := by
  unfold pinAgain
  split
  next => rfl
  next =>
    refine foldl_keeps (p := fun t => withoutPins t.core) (fun t n => ?_) _ s
    refine foldl_keeps (p := fun t => withoutPins t.core) (fun u g => ?_) _ t
    split
    · rfl
    · exact withoutPins_pinGroup n g u

/-- What does not look at handles and pins reads as before once pins are taken again. -/
theorem pinAgain_keeps {α : Type} {p : Core → α} (h : ∀ k, p (withoutPins k) = p k) (s : State) : p (pinAgain s).core = p s.core := by
  rw [← h, withoutPins_pinAgain, h]

theorem getCol_withoutPins (k : Core) (c : Col) : getCol (withoutPins k) c = getCol k c := by cases c <;> rfl

/-! ### STRIP_GROUP_START (06_core R171) -/

/-- What the start of its head strip in cycle `c` makes of a column. -/
def startHead (c : Cycle) (q : ColSeq) : ColSeq :=
  match q.queue with
  | [] => q
  | x :: rest =>
    let body := x.body.getD []
    { q with queue := rest, ordinal := q.ordinal + 1,
             run := some { hdr := x.hdr, grp := x.grp, body := body, count := x.count, rep := 0, idx := 0, next := c + gapAt body 0 } }

theorem startStrip_eq (n : Cycle) (k : Core) (c : Col) : startStrip n k c = setCol c (startHead n (getCol k c)) k := by
  cases h : (getCol k c).queue with
  | nil => simp only [startStrip, startHead, h, setCol_getCol]
  | cons x rest => simp only [startStrip, startHead, h]

/-- Strips that start together start each in its own column. -/
theorem getCol_startStrips (n : Cycle) {l : List Col} (nodup : l.Nodup) (k : Core) (c : Col) :
    getCol (l.foldl (startStrip n) k) c = if c ∈ l then startHead n (getCol k c) else getCol k c := by
  induction l generalizing k with
  | nil => rfl
  | cons d l ih =>
    obtain ⟨fresh, rest⟩ := List.nodup_cons.mp nodup
    rw [List.foldl_cons, ih rest, startStrip_eq]
    by_cases e : c = d
    · subst e
      rw [if_neg fresh, if_pos List.mem_cons_self, getCol_setCol_self]
    · simp only [getCol_setCol_ne e, List.mem_cons, e, false_or]

theorem getCol_startGroup (g : Grp) (s : State) (c : Col) :
    getCol (startGroup g s).core c
      = getCol (g.cols.foldl (startStrip (cyc s)) { s.core with groups := s.core.groups.filter fun x => x.id ≠ g.id }) c := by
  have seeded (k : Core) : getCol (seedSr k) c = getCol k c := by cases c <;> rfl
  have pinned (t : State) : getCol (pinStrip t).core c = getCol t.core c := by
    rw [← getCol_withoutPins, withoutPins_pinStrip, getCol_withoutPins]
  have cleared (k : Core) : getCol { k with missed := [] } c = getCol k c := by cases c <;> rfl
  have anchored (k : Core) : getCol (anchorPushed (cyc s) k) c = getCol k c := by cases c <;> rfl
  unfold startGroup
  dsimp only
  split <;> split <;> simp only [pinned, modCore_core, seeded, cleared, anchored]

theorem cols_headReady_of_startable {s : State} {g : Grp} (h : startable s = some g) : ∀ c ∈ g.cols, headReady s.core (cyc s) g c = true := by
  have ready := List.find?_some h
  simp only [Bool.and_eq_true] at ready
  obtain ⟨⟨⟨⟨-, heads⟩, -⟩, -⟩, -⟩ := ready
  exact List.all_eq_true.mp heads

theorem queue_of_headReady {k : Core} {n : Cycle} {g : Grp} {c : Col} (h : headReady k n g c = true) : ∃ x xs, (getCol k c).queue = x :: xs := by
  cases e : (getCol k c).queue with
  | nil => simp [headReady, e] at h
  | cons x xs => exact ⟨x, xs, rfl⟩

theorem startGroup_starts {s : State} {g : Grp} (h : startable s = some g) (nodup : g.cols.Nodup) {c : Col} (hc : c ∈ g.cols) :
    ∃ x xs, (getCol s.core c).queue = x :: xs ∧ (getCol (startGroup g s).core c).queue = xs
      ∧ (getCol (startGroup g s).core c).run = some { hdr := x.hdr, grp := x.grp, body := x.body.getD [], count := x.count, rep := 0, idx := 0,
                                                      next := cyc s + gapAt (x.body.getD []) 0 } := by
  obtain ⟨x, xs, queued⟩ := queue_of_headReady (cols_headReady_of_startable h c hc)
  have ungrouped : getCol { s.core with groups := s.core.groups.filter fun x => x.id ≠ g.id } c = getCol s.core c := by cases c <;> rfl
  have started : getCol (startGroup g s).core c = startHead (cyc s) (getCol s.core c) := by
    rw [getCol_startGroup, getCol_startStrips (cyc s) nodup, if_pos hc, ungrouped]
  refine ⟨x, xs, queued, ?_, ?_⟩
  · simp only [started, startHead, queued]
  · simp only [started, startHead, queued]

theorem execStripGroupStart_of_fault {s : State} {c : Col} {t : Trap} (h : faultyHead (focus s s.ev.core) = some (c, t)) :
    execStripGroupStart s = .next (takeTrap t (modCore (clearFault c) (focus s s.ev.core))) := by
  simp only [execStripGroupStart, h]

theorem execStripGroupStart_of_startable {s : State} {g : Grp} (none : faultyHead (focus s s.ev.core) = none)
    (h : startable (focus s s.ev.core) = some g) : execStripGroupStart s = .next (startGroup g (focus s s.ev.core)) := by
  simp only [execStripGroupStart, none, h]

/-! ### STRIP_REPEAT_END (06_core R172) -/

/-- An address register after one stride. -/
def EReg.stepped (x : EReg) : EReg := { x with addr := x.addr + x.stride.signExtend 48 }

/-- The address registers of a column advanced by their strides. -/
def strideAll (c : Col) (s : State) : State := (columnERegs c).foldl strideOne s

theorem readE_strideOne (s : State) (n e : BitVec 4) : readE (strideOne s n) e = if e = n then (readE s n).stepped else readE s e := by
  unfold strideOne readE writeE
  simp only [modCore_core, Vector.getElem_set, BitVec.toNat_inj, eq_comm (a := n)]
  rfl

theorem readE_foldl_strideOne {l : List (BitVec 4)} (nodup : l.Nodup) (s : State) (e : BitVec 4) :
    readE (l.foldl strideOne s) e = if l.contains e then (readE s e).stepped else readE s e := by
  induction l generalizing s with
  | nil => rfl
  | cons n l ih =>
    obtain ⟨fresh, rest⟩ := List.nodup_cons.mp nodup
    rw [List.foldl_cons, ih rest, readE_strideOne]
    by_cases h : e = n
    · subst h
      simp [fresh]
    · simp [h]

theorem nodup_columnERegs (c : Col) : (columnERegs c).Nodup := by cases c <;> decide

theorem readE_strideAll (c : Col) (s : State) (e : BitVec 4) :
    readE (strideAll c s) e = if (columnERegs c).contains e then (readE s e).stepped else readE s e :=
  readE_foldl_strideOne (nodup_columnERegs c) s e

theorem getCol_strideAll (c d : Col) (s : State) : getCol (strideAll c s).core d = getCol s.core d :=
  foldl_keeps (p := fun t => getCol t.core d) (fun _ _ => by cases d <;> rfl) _ s

theorem mem_strideAll (c : Col) (s : State) : (strideAll c s).mem = s.mem := foldl_keeps (p := State.mem) (f := strideOne) (fun _ _ => rfl) _ s

/-- The last repeat of a strip leaves its column idle; a C strip gives its pins back. -/
def endStrip (c : Col) (s : State) : State :=
  let t := modCore (setCol c { getCol s.core c with run := none }) s
  if c = .colC then unpinStrip t else t

theorem readE_endStrip (c : Col) (s : State) (e : BitVec 4) : readE (endStrip c s) e = readE s e := by cases c <;> rfl
theorem mem_endStrip (c : Col) (s : State) : (endStrip c s).mem = s.mem := by cases c <;> rfl
theorem run_endStrip (c : Col) (s : State) : (getCol (endStrip c s).core c).run = none := by cases c <;> rfl

section
variable {s : State} {r : Running} (h : (getCol (focus s s.ev.core).core s.ev.col).run = some r) (spent : r.body.length ≤ r.idx)
include h spent

theorem execStripRepeatEnd_of_over :
    let z := strideAll s.ev.col (focus s s.ev.core)
    let q := getCol z.core s.ev.col
    execStripRepeatEnd s = if r.rep + 1 < r.count
      then .next (modCore (setCol s.ev.col { q with run := some { r with rep := r.rep + 1, idx := 0, next := r.next + gapAt r.body 0 } }) z)
      else .next (endStrip s.ev.col z) := by
  have run : (getCol (strideAll s.ev.col (focus s s.ev.core)).core s.ev.col).run = some r := by rw [getCol_strideAll, h]
  have due : repeatOver (focus s s.ev.core) (focus s s.ev.core).core s.ev.col = true := by simp [repeatOver, h, spent]
  unfold strideAll at run ⊢
  simp only [execStripRepeatEnd, due, Bool.not_true, Bool.false_eq_true, if_false, run]
  rfl

theorem execStripRepeatEnd_steps :
    let z := focus s s.ev.core
    ∃ t, execStripRepeatEnd s = .next t
      ∧ (∀ e, readE t e = if (columnERegs s.ev.col).contains e then (readE z e).stepped else readE z e)
      ∧ (r.rep + 1 < r.count → (getCol t.core s.ev.col).run = some { r with rep := r.rep + 1, idx := 0, next := r.next + gapAt r.body 0 })
      ∧ (r.count ≤ r.rep + 1 → (getCol t.core s.ev.col).run = none) ∧ SameMemory z t := by
  intro z
  have ended := execStripRepeatEnd_of_over h spent
  dsimp only at ended
  by_cases more : r.rep + 1 < r.count
  · rw [if_pos more] at ended
    refine ⟨_, ended, fun e => ?_, fun _ => ?_, fun last => absurd more (Nat.not_lt.mpr last), sameMemory_of_mem (mem_strideAll _ _)⟩
    · rw [← readE_strideAll]
      simp only [readE, modCore_core, setCol_e, z]
    · rw [modCore_core, getCol_setCol_self]
  · rw [if_neg more] at ended
    refine ⟨_, ended, fun e => ?_, fun m => absurd m more, fun _ => run_endStrip _ _, sameMemory_of_mem ?_⟩
    · rw [readE_endStrip, readE_strideAll]
    · rw [mem_endStrip, mem_strideAll]

end

/-! ### SUBARRAY_GATE (06_core R193) and TRAP_ENTRY (10_traps R297) -/

theorem execSubarrayGate_of_due {s : State} (h : gateDue (focus s s.ev.core) (focus s s.ev.core).coreId = true) :
    execSubarrayGate s = .next (modCore (fun k => { k with units := { k.units with gated := true } }) (focus s s.ev.core)) := by
  simp only [execSubarrayGate, h, if_true]

theorem execTrapEntry_of_due {s : State} {x : Cycle × Trap}
    (h : dueTrap (focus s s.ev.core) (focus s s.ev.core).core (focus s s.ev.core).coreId = some x) :
    execTrapEntry s = .next (takeTrap (if x.2.entry then { x.2 with pc := (focus s s.ev.core).core.pc } else x.2)
      (modCore (fun k => { k with deferred := k.deferred.erase x }) (focus s s.ev.core))) := by
  simp only [execTrapEntry, h, modCore_core]

/-! ### A task that goes on from its cut (10_traps R305) -/

/-- A task that is resumed stands at its cut, held by nothing. -/
theorem pinAgain_resumeAt_core (r : Cycle) (s : State) :
    let k := (pinAgain (resumeAt r s)).core
    k.hold = .none ∧ k.stopped = false ∧ k.pc = s.core.cutPc ∧ k.sReady = r ∧ k.g = s.core.g ∧ k.sys = s.core.sys := by
  have keeps {α : Type} {p : Core → α} (h : ∀ k, p (withoutPins k) = p k) : p (pinAgain (resumeAt r s)).core = p (resumeAt r s).core :=
    pinAgain_keeps h _
  exact ⟨keeps (p := Core.hold) fun _ => rfl, keeps (p := Core.stopped) fun _ => rfl, keeps (p := Core.pc) fun _ => rfl,
    keeps (p := Core.sReady) fun _ => rfl, keeps (p := Core.g) fun _ => rfl, keeps (p := Core.sys) fun _ => rfl⟩

theorem goOn_of_running {s : State} (h : s.core.stopped = false) (r : Cycle) : goOn r s = pinAgain (resumeAt r s) := by
  simp only [goOn, h, Bool.false_eq_true, if_false]

/-! ### TRANSLATION_WALK_DONE (15_isa_memory R413) -/

/-- What the walk of an address puts into the translation buffer. -/
def fillWalk (s : State) (k : Core) (va : Nat) : Core :=
  match walkResult s va with
  | some p => tlbFill p k
  | none => k

/-- The pages that were walked stand in the translation buffer. -/
def walked (pages : List Nat) (s : State) : State := modCore (fun k => pages.foldl (fillWalk s) k) s

theorem fillWalk_frame (s : State) (k : Core) (va : Nat) : fillWalk s k va = { k with tlb := (fillWalk s k va).tlb } := by
  unfold fillWalk
  split <;> rfl

theorem walked_frame (pages : List Nat) (s : State) : walked pages s = { s with core := { s.core with tlb := (walked pages s).core.tlb } } := by
  have core : pages.foldl (fillWalk s) s.core = { s.core with tlb := (pages.foldl (fillWalk s) s.core).tlb } :=
    List.foldlRecOn (motive := fun k => k = { s.core with tlb := k.tlb }) pages (fillWalk s) rfl
      fun k hk va _ => by rw [fillWalk_frame, hk]
  exact congrArg (fun k => { s with core := k }) core

/-- What does not look at the translation buffer reads as before the walks. -/
theorem walked_keeps {α : Type} {p : Core → α} (h : ∀ k l, p { k with tlb := l } = p k) (pages : List Nat) (s : State) :
    p (walked pages s).core = p s.core := by
  rw [walked_frame]
  exact h _ _

/-- A task whose walks have returned goes on from its cut with the registers that it had. -/
theorem goOn_walked {s : State} (running : s.core.stopped = false) (pages : List Nat) (r : Cycle) :
    let k := (goOn r (walked pages s)).core
    k.hold = .none ∧ k.pc = s.core.cutPc ∧ k.sReady = r ∧ k.g = s.core.g := by
  have still : (walked pages s).core.stopped = false := (walked_keeps (p := Core.stopped) (fun _ _ => rfl) pages s).trans running
  have cutPc := walked_keeps (p := Core.cutPc) (fun _ _ => rfl) pages s
  have g := walked_keeps (p := Core.g) (fun _ _ => rfl) pages s
  obtain ⟨hold, -, pc, ready, regs, -⟩ := pinAgain_resumeAt_core r (walked pages s)
  rw [goOn_of_running still]
  exact ⟨hold, pc.trans cutPc, ready, regs.trans g⟩

theorem walkResult_walked (pages : List Nat) (s : State) : walkResult (walked pages s) = walkResult s := by
  rw [walked_frame]
  rfl

theorem walksDone_eq (pages : List Nat) (t : Trap) (s : State) :
    walksDone pages t s = ((pages.find? fun va => (walkResult s va).isNone).elim (goOn (cyc s + 1) (walked pages s))
      fun va => trapAtCut { t with addr := BitVec.ofNat 64 va } (walked pages s)) := by
  rw [← walkResult_walked pages s]
  change (match pages.find? fun va => (walkResult (walked pages s) va).isNone with
    | none => goOn (cyc s + 1) (walked pages s)
    | some va => trapAtCut { t with addr := BitVec.ofNat 64 va } (walked pages s)) = _
  cases pages.find? fun va => (walkResult (walked pages s) va).isNone <;> rfl

theorem walksDone_of_all {pages : List Nat} {s : State} (h : ∀ a ∈ pages, (walkResult s a).isSome = true) (t : Trap) :
    walksDone pages t s = goOn (cyc s + 1) (walked pages s) := by
  have found : (pages.find? fun va => (walkResult s va).isNone) = none := by
    simpa [List.find?_eq_none, Option.isSome_iff_ne_none] using h
  rw [walksDone_eq, found]
  rfl

theorem walksDone_of_missing {pages : List Nat} {s : State} {a : Nat} (h : pages.find? (fun va => (walkResult s va).isNone) = some a) (t : Trap) :
    walksDone pages t s = trapAtCut { t with addr := BitVec.ofNat 64 a } (walked pages s) := by
  rw [walksDone_eq, h]
  rfl

theorem execTranslationWalkDone_of_back {s : State} {pages : List Nat} {due : Cycle} {t : Trap}
    (h : (focus s s.ev.core).core.hold = .walk pages due t) (back : walksBack s s.ev.core = true) :
    execTranslationWalkDone s = .next (walksDone pages t (focus s s.ev.core)) := by
  simp only [execTranslationWalkDone, h, back, if_true]

/-! ### SUPERVISOR_RESOLVE (10_traps R298, R301, R307) -/

theorem resolveHeld_of_single {s : State} (h : s.core.sys.trapCause.getLsbD 25 = false) (t : Trap) : resolveHeld t .resume s = goOn (cyc s + 1) s := by
  simp only [resolveHeld, h, Bool.false_eq_true, if_false]

theorem resolveHeld_of_nested {s : State} (h : s.core.sys.trapCause.getLsbD 25 = true) (t : Trap) :
    resolveHeld t .resume s = failTask (causeCode t.cause) s := by
  simp only [resolveHeld, h, if_true, failAs]

section
variable {s : State} {act : SupAct} (asked : s.ev.act = act)
include asked

theorem execSupervisorResolve_of_reset {k : TaskRef} (reset : act = .resetPartition)
    (task : (focus (installAll s.ev.list s) s.ev.core).core.task = some k) :
    execSupervisorResolve s = .next (resetPartition (focus (installAll s.ev.list s) s.ev.core) k.part causeSupervisor) := by
  simp only [execSupervisorResolve, asked, reset, task]

variable (no : act ≠ .resetPartition)
include no

theorem execSupervisorResolve_of_held {r : Trap} (h : (focus (installAll s.ev.list s) s.ev.core).core.hold = .supervisor r) :
    execSupervisorResolve s = .next (resolveHeld r act (focus (installAll s.ev.list s) s.ev.core)) := by
  cases act with
  | resetPartition => exact absurd rfl no
  | resume => simp only [execSupervisorResolve, asked, h]
  | fail => simp only [execSupervisorResolve, asked, h]

theorem execSupervisorResolve_of_entry {e : FaultEntry} (h : ∀ r, (focus (installAll s.ev.list s) s.ev.core).core.hold ≠ .supervisor r)
    (first : firstEntry (focus (installAll s.ev.list s) s.ev.core) = some e) :
    execSupervisorResolve s = .next (if act = .resume then resolvePage e (focus (installAll s.ev.list s) s.ev.core)
      else failEntry e (focus (installAll s.ev.list s) s.ev.core)) := by
  cases act with
  | resetPartition => exact absurd rfl no
  | resume =>
    simp only [execSupervisorResolve, asked, first, if_true]
  | fail => simp [execSupervisorResolve, asked, first]

end

/-! ### WDOG_SET at a watchdog trap (05_partitions_scheduler R163) -/

theorem execWdogSetApply_of_watchdog {s : State} {r : Trap} (h : (getCore s s.ev.core).hold = .supervisor r) (w : r.cause = .watchdog)
    (task : (getCore s s.ev.core).task.isSome = true) :
    let k := getCore s s.ev.core
    execWdogSetApply s = .next (putCore s s.ev.core { k with sys := { k.sys with wdogLimit := s.ev.v.setWidth 32 } }) := by
  simp [execWdogSetApply, applyLimit, h, w, task]

/-! ### A core brought into focus -/

theorem core_focus (s : State) (c : CoreNo) : (focus s c).core = getCore s c := by
  unfold focus getCore
  split <;> rfl

theorem parts_focus (s : State) (c : CoreNo) : (focus s c).parts = s.parts := by
  unfold focus
  split <;> rfl

theorem parts_putCore (s : State) (c : CoreNo) (k : Core) : (putCore s c k).parts = s.parts := by
  unfold putCore
  split <;> rfl

theorem core_focus_putCore (s : State) (c : CoreNo) (k : Core) : (focus (putCore s c k) c).core = k := by rw [core_focus, getCore_putCore_self]

/-! ### Debug stops (10_traps R320, R321) -/

/-! A write of the device to memory leaves the core in focus alone. -/

theorem core_modCkpt (s : State) (t : TaskRef) (f : Ckpt → Ckpt) : (modCkpt s t f).core = s.core := rfl

theorem core_ckptLog (s : State) (who : Option TaskRef) (line : Nat) : (ckptLog s who line).core = s.core := by
  unfold ckptLog
  split
  · rfl
  · split
    · rfl
    · dsimp only
      split
      · rfl
      · rw [core_modCkpt]
        refine foldl_keeps (p := State.core) (fun t x => ?_) _ _
        rfl

theorem core_writeLine (s : State) (pa : Nat) (bs : List (Nat × Byte)) (w : BitVec 6) (stamp : Option (BitVec 10 × BitVec 8)) (poison : Bool)
    (slot : BitVec 12) (who : Option TaskRef) : (writeLine s pa bs w stamp poison slot who).core = s.core := by
  rw [← core_ckptLog s who (lineOf pa)]
  unfold writeLine
  dsimp only
  split
  · rfl
  · split <;> rfl

theorem core_devWrite (s : State) (w : BitVec 6) (va : Nat) (bs : List Byte) (stamp : Option (BitVec 10 × BitVec 8)) (who : Option TaskRef) :
    (devWrite s w va bs stamp who).core = s.core := by
  unfold devWrite
  split
  · rfl
  · exact core_writeLine ..

theorem core_devWriteAll (s : State) (w : BitVec 6) (va : Nat) (bs : List Byte) (who : Option TaskRef) : (devWriteAll s w va bs who).core = s.core :=
  foldl_keeps (p := State.core) (fun _ _ => core_devWrite ..) _ s

theorem core_debugImage (s : State) : (debugImage s).core = s.core := by
  unfold debugImage
  split
  · split
    · rfl
    · exact foldl_keeps (p := State.core) (fun _ _ => core_devWriteAll ..) _ s
  · rfl

theorem debugClosed_congr {s t : State} (parts : t.parts = s.parts) (world : t.core.sys.world = s.core.sys.world) (task : t.core.task = s.core.task) :
    debugClosed t = debugClosed s := by
  unfold debugClosed getPart
  rw [parts, world, task]

theorem stopCore_of_open {s : State} {c : CoreNo} (task : (focus s c).core.task.isSome = true) (isOpen : debugClosed (focus s c) = false) (enable : Bool) :
    let k := (stopCore enable c s).core
    k.stopped = true ∧ k.sys.dbgEn = ((focus s c).core.sys.dbgEn || enable)
      ∧ k.hold = if (focus s c).core.hold = .none then .debug else (focus s c).core.hold := by
  have here : ((focus s c).core.task.isNone || debugClosed (focus s c)) = false := by simp [isOpen, Option.isNone_eq_false_iff.mpr task]
  by_cases hold : (focus s c).core.hold = .none
  · simp [stopCore, here, hold, core_debugImage, takeCut]
  · simp [stopCore, here, hold, core_debugImage]

theorem debugStop_of_one {s : State} {c : CoreNo} (task : (getCore s c).task.isSome = true) : debugStop c false s = stopCore true c s := by
  obtain ⟨t, ht⟩ := Option.isSome_iff_exists.mp task
  simp [debugStop, ht]

theorem execDbgStop_of_one {s : State} (one : s.ev.flag = false) (task : (focus s s.ev.core).core.task.isSome = true)
    (isOpen : debugClosed (focus s s.ev.core) = false) :
    let k := (focus s s.ev.core).core
    ∃ t, execDbgStop s = .next t ∧ t.core.stopped = true ∧ t.core.sys.dbgEn = true ∧ t.core.hold = if k.hold = .none then .debug else k.hold := by
  let k : Core := { getCore s s.ev.core with dbgGang := s.ev.flag }
  have core : (focus (putCore s s.ev.core k) s.ev.core).core = k := core_focus_putCore ..
  rw [core_focus] at task ⊢
  have still : debugClosed (focus (putCore s s.ev.core k) s.ev.core) = false := by
    rw [← isOpen]
    refine debugClosed_congr ?_ ?_ ?_
    · simp only [parts_focus, parts_putCore]
    · rw [core, core_focus]
    · rw [core, core_focus]
  have stop := stopCore_of_open (core.symm ▸ task) still true
  rw [core, Bool.or_true] at stop
  refine ⟨stopCore true s.ev.core (putCore s s.ev.core k), ?_, stop⟩
  rw [← debugStop_of_one (by rw [getCore_putCore_self]; exact task), ← one]
  rfl

theorem execDbgResume_of_debug {s : State} (task : (focus s s.ev.core).core.task.isSome = true) (isOpen : debugClosed (focus s s.ev.core) = false)
    (stopped : (focus s s.ev.core).core.stopped = true) (hold : (focus s s.ev.core).core.hold = .debug) :
    let k := (focus s s.ev.core).core
    ∃ t, execDbgResume s = .next t ∧ t.core.hold = .none ∧ t.core.stopped = false ∧ t.core.pc = k.cutPc
      ∧ t.core.sys.dbgEn = (k.sys.dbgEn && !s.ev.flag) := by
  let z := focus s s.ev.core
  let u := modCore (fun k => { k with sys := { k.sys with dbgEn := k.sys.dbgEn && !s.ev.flag } }) z
  have here : (!z.core.stopped || z.core.task.isNone || debugClosed z) = false := by
    simp [z, isOpen, stopped, Option.isNone_eq_false_iff.mpr task]
  have resumed : execDbgResume s = .next (pinAgain (resumeAt (cyc u + 1) u)) := by
    simp only [execDbgResume, debugResume, z] at here ⊢
    simp only [here, Bool.false_eq_true, if_false, modCore_core, hold, if_true, u, z]
  obtain ⟨free, going, pc, -, -, sys⟩ := pinAgain_resumeAt_core (cyc u + 1) u
  exact ⟨_, resumed, free, going, pc, congrArg SysRegs.dbgEn sys⟩

/-! ### SOFT_ERROR (10_traps R296) -/

theorem execSoftError_of_item {s : State} {x : SoftItem} (h : s.ev.soft = x) : execSoftError s = .next (strike x (focus s s.ev.core)) := by
  rw [execSoftError, h]

theorem readV_strike (s : State) (v u : BitVec 5) :
    readV (strike (.vreg v) s) u = if u = v then { readV s v with poison := true } else readV s u := by
  simp only [readV, strike, modCore_core, Vector.getElem_set, BitVec.toNat_inj, eq_comm (a := v)]

theorem readT_strike (s : State) (v u : BitVec 4) :
    readT (strike (.treg v) s) u = if u = v then { readT s v with poison := true } else readT s u := by
  simp only [readT, strike, modCore_core, Vector.getElem_set, BitVec.toNat_inj, eq_comm (a := v)]

theorem readA_strike (s : State) (v u : BitVec 2) :
    readA (strike (.acc v) s) u = if u = v then { readA s v with poison := true } else readA s u := by
  simp only [readA, strike, modCore_core, Vector.getElem_set, BitVec.toNat_inj, eq_comm (a := v)]

end Sys2Proof.Machine

namespace Sys2Proof.Proofs

open Sys2Proof.Machine

/-- Settles O53, event by event. -/
theorem coreEvents : Obligations.CoreEvents := by
  unfold Obligations.CoreEvents
  intro s z col q
  refine ⟨?load, ?miss, ?start, ?fault, ?repeats, ?gate, ?trap, ?walk, ?supervisor, ?wdog, ?stop, ?resume, ?soft⟩
  case load =>
    intro i x next hit
    exact ⟨fun l loaded => execStripBodyLoad_of_loaded next hit loaded,
      fun f failed => ⟨_, execStripBodyLoad_of_fault next hit failed, rfl, rfl, rfl, rfl⟩⟩
  case miss => exact fun i x p next miss => execStripBodyLoad_of_miss next miss
  case start =>
    intro g sound ready nodup
    exact ⟨_, execStripGroupStart_of_startable sound ready, rfl, fun c hc => startGroup_starts ready nodup hc⟩
  case fault => exact fun x r faulty => execStripGroupStart_of_fault faulty
  case repeats => exact fun r run spent => execStripRepeatEnd_steps run spent
  case gate => exact fun due => execSubarrayGate_of_due due
  case trap => exact fun x due => execTrapEntry_of_due due
  case walk =>
    intro pages due r hold back
    have done := execTranslationWalkDone_of_back hold back
    refine ⟨fun all running => ?_, fun a missing => ?_⟩
    · rw [walksDone_of_all all] at done
      obtain ⟨free, pc, ready, g⟩ := goOn_walked running pages (cyc z + 1)
      exact ⟨_, walked pages z, done, free, pc, ready, g, rfl, walked_frame pages z⟩
    · rw [walksDone_of_missing missing] at done
      exact ⟨walked pages z, done, walked_frame pages z⟩
  case supervisor =>
    intro y
    refine ⟨fun r held => ⟨fun act single => ?_, fun act nested => ?_, fun act => ?_⟩, fun e free first => ⟨fun act => ?_, fun act => ?_⟩,
      fun k act task => execSupervisorResolve_of_reset act rfl task⟩
    · exact (execSupervisorResolve_of_held act (by decide) held).trans (congrArg _ (resolveHeld_of_single single r))
    · exact (execSupervisorResolve_of_held act (by decide) held).trans (congrArg _ (resolveHeld_of_nested nested r))
    · exact execSupervisorResolve_of_held act (by decide) held
    · exact execSupervisorResolve_of_entry act (by decide) free first
    · exact execSupervisorResolve_of_entry act (by decide) free first
  case wdog =>
    intro r held watch task
    refine ⟨_, execWdogSetApply_of_watchdog held watch task, ?_, fun c hc => getCore_putCore_ne hc s _⟩
    rw [getCore_putCore_self]
  case stop => exact fun one task isOpen => execDbgStop_of_one one task isOpen
  case resume => exact fun task isOpen stopped hold => execDbgResume_of_debug task isOpen stopped hold
  case soft =>
    refine ⟨fun l item => execSoftError_of_item item, fun v item => ?_, fun v item => ?_, fun v item => ?_, fun k item task => ?_⟩
    · refine ⟨_, execSoftError_of_item item, ?_, ?_, fun u hu => (readV_strike z v u).trans (if_neg hu)⟩
      · rw [readV_strike, if_pos rfl]
      · rw [readV_strike, if_pos rfl]
    · refine ⟨_, execSoftError_of_item item, ?_, fun u hu => (readT_strike z v u).trans (if_neg hu)⟩
      rw [readT_strike, if_pos rfl]
    · refine ⟨_, execSoftError_of_item item, ?_, ?_, fun u hu => (readA_strike z v u).trans (if_neg hu)⟩
      · rw [readA_strike, if_pos rfl]
      · rw [readA_strike, if_pos rfl]
    · refine (execSoftError_of_item item).trans (congrArg _ ?_)
      simp only [strike, z, task]

end Sys2Proof.Proofs

namespace Sys2Proof.Machine

open Sys2Proof.Laws.Engine

/-! ### An engine command without scratchpad operands: what its work does is what it does (16_isa_engines R439, R440) -/

theorem coreId_focus (s : State) (c : CoreNo) : (focus s c).coreId = c := by
  unfold focus
  split
  next here => exact here.symm
  next => rfl

theorem core_taking (eng : Nat) (c : Cmd) (s : State) : (taking eng c s).core = c.core := coreId_focus s c.core

theorem exec_of_start {i : Instr} {eng : Nat} {c : Cmd} {valid : State → Bool} {work : RunCmd → State → State} {s : State}
    (start : exec i s = startCommand eng c valid noOperands work s) (header : headerOk c.bits = true) (v : valid (focus s c.core) = true) :
    exec i s = .next (work (taking eng c s) (started eng c s)) :=
  (startsWith_of start).1 header v rfl

theorem whenReady_of_atOnce {eng : Nat} {all : Bool} {r : RunCmd} {s : State} (h : worksAtOnce eng all r s = true) (work : RunCmd → State → State) :
    whenReady eng all work r s = work r (takeUp eng r s) :=
  if_pos h

/-- The adapter engine clears nothing between worlds, and no mode but COMMIT waits for an earlier access of its core. -/
theorem whenReady_adapter (work : RunCmd → State → State) (r : RunCmd) (s : State) : whenReady 0x12 false work r s = work r (takeUp 0x12 r s) :=
  whenReady_of_atOnce rfl work

/-- A command that ends at once ends in the cycle of its core. -/
theorem endsWith_of_now {i : Instr} {eng : Nat} {c : Cmd} {s t : State} {status : Nat}
    (h : exec i s = .next (putRun (endsWith (taking eng c s) (cycOf t (taking eng c s).core) status 0) t)) : EndsWith i eng c s 0 status 0 t := by
  refine endsWith_of h (core_taking ..) rfl rfl (Nat.le_of_eq ?_)
  rw [core_taking, Nat.add_zero]

/-- A command that ends after a delay that the spec leaves open ends in no earlier cycle than this one. -/
theorem endsWith_of_later {i : Instr} {eng : Nat} {c : Cmd} {s t : State} {status result : Nat}
    (h : exec i s = .next (endsLater 0 status result (taking eng c s) t)) : EndsWith i eng c s 0 status result t := by
  let d := Config.freeDelay t.fresh
  let due := cycOf t (taking eng c s).core + coreCycles t (taking eng c s).core (0 + d)
  have after : cycOf { t with fresh := t.fresh + 1 } c.core + 0 ≤ due := by
    simp only [due, core_taking]
    exact Nat.le_add_right ..
  obtain ⟨u, q, next, mem, core, engine, seq, st, res, time, waiting, pending, parked, frame⟩ :=
    endsWith_of (i := i) (t := { t with fresh := t.fresh + 1 }) (due := due) h (core_taking ..) rfl rfl after
  exact ⟨u, q, next, mem, core, engine, seq, st, res, time, waiting, pending, parked, by rw [frame]⟩

/-- A command whose work is to end, after a delay that the spec leaves open, in the state `t`. -/
theorem endsWith_of_work {i : Instr} {eng : Nat} {c : Cmd} {valid : State → Bool} {work : RunCmd → State → State} {s t : State} {status result : Nat}
    (start : exec i s = startCommand eng c valid noOperands work s) (header : headerOk c.bits = true) (v : valid (focus s c.core) = true)
    (ends : work (taking eng c s) (started eng c s) = endsLater 0 status result (taking eng c s) t) : EndsWith i eng c s 0 status result t :=
  endsWith_of_later ((exec_of_start start header v).trans (congrArg _ ends))

/-- The same of a mode of the adapter engine that waits for no access. -/
theorem endsWith_of_adapter {i : Instr} {c : Cmd} {valid : State → Bool} {work : RunCmd → State → State} {s t : State} {status result : Nat}
    (start : exec i s = startCommand 0x12 c valid noOperands (whenReady 0x12 false work) s) (header : headerOk c.bits = true)
    (v : valid (focus s c.core) = true)
    (ends : work (taking 0x12 c s) (takeUp 0x12 (taking 0x12 c s) (started 0x12 c s)) = adeEnd status result (taking 0x12 c s) t) :
    EndsWith i 0x12 c s 0 status result t :=
  endsWith_of_work start header v ((whenReady_adapter ..).trans ends)

/-! ### ADPIN and ADUNPIN (07_serving_structures R203, R204, R450) -/

section
variable {c : Cmd} {r : RunCmd} {s t : State} {a : Aht} {v : Version}

theorem admitVersion_result {n : Nat} (h : admitVersion c r a v s = .ok (t, n)) : n = v.num.toNat := by
  unfold admitVersion at h
  dsimp only at h
  split at h
  · cases h
  split at h
  · cases h
  split at h
  · cases h
  · cases h
    rfl

theorem adpinWork_of_admitted {n : Nat} (live : liveAht s (pinHandle c) = some a) (current : currentVersion a r.task.part = some v)
    (may : mayUse a r.world = true) (admitted : admitVersion c r a v s = .ok (t, n)) : adpinWork c r s = adeEnd stOk n r t := by
  simp [adpinWork, live, current, cmdPart, may, admitted, adeDo]

theorem adpinWork_of_absent (h : liveAht s (pinHandle c) = none) : adpinWork c r s = adeEnd stNosuch 0 r s := by
  simp [adpinWork, h]

theorem adunpinWork_of_held (outside : ckptOf s r.task = none) (held : pinHeld s r.task.part (pinHandle c) (BitVec.ofNat 32 (fld c 20 4)) = true) :
    adunpinWork c r s = adeEnd stOk 0 r (releasePin s r.task.part (pinHandle c) (BitVec.ofNat 32 (fld c 20 4))) := by
  simp [adunpinWork, outside, cmdPart, held, adunpinEffect]

/-! ### ADPUB (R201, R209, R451) -/

theorem mem_insertBy {α : Type} (lt : α → α → Bool) (x y : α) (l : List α) : y ∈ insertBy lt x l ↔ y = x ∨ y ∈ l := by
  induction l with
  | nil => simp [insertBy]
  | cons z l ih =>
    unfold insertBy
    split
    · simp
    · simp only [List.mem_cons, ih]
      exact or_left_comm

theorem mem_foldl_insertBy {α : Type} (lt : α → α → Bool) (l acc : List α) (y : α) :
    y ∈ l.foldl (fun acc x => insertBy lt x acc) acc ↔ y ∈ acc ∨ y ∈ l := by
  induction l generalizing acc with
  | nil => simp
  | cons x l ih =>
    rw [List.foldl_cons, ih, mem_insertBy, List.mem_cons, or_comm (a := y = x), or_assoc]

theorem mem_sortBy {α : Type} (lt : α → α → Bool) (l : List α) (y : α) : y ∈ sortBy lt l ↔ y ∈ l := by
  simpa [sortBy] using mem_foldl_insertBy lt l [] y

/-- The entry that CREATE makes: three empty records, which no partition selects. -/
def createdEntry (c : Cmd) (r : RunCmd) : Aht :=
  { handle := pubHandle c, owner := r.world, deleting := false, rank := BitVec.ofNat 2 (fld c 20 1), publisher := publisherOf c,
    grants := BitVec.ofNat 64 (fld c 24 8), selectors := noSelectors, next := 1, vers := Vector.replicate 3 Version.empty }

/-- The table with an entry more, in ascending order of its indices. -/
def insertAht (a : Aht) (s : State) : State := { s with aht := sortBy (fun x y => x.handle.toNat % 2 ^ 20 < y.handle.toNat % 2 ^ 20) (s.aht ++ [a]) }

theorem insertAht_frame (a : Aht) (s : State) : insertAht a s = { s with aht := (insertAht a s).aht } := rfl

theorem mem_aht_insertAht (a x : Aht) (s : State) : x ∈ (insertAht a s).aht ↔ x = a ∨ x ∈ s.aht := by
  simp only [insertAht, mem_sortBy, List.mem_append, List.mem_singleton, or_comm]

theorem st_of_mem_createdEntry (h : v ∈ (createdEntry c r).vers.toList) : v.st = 0 := by
  rw [createdEntry, Vector.toList_replicate] at h
  rw [List.eq_of_mem_replicate h]
  rfl

theorem createWork_of_free (index : (pubHandle c).toNat % 2 ^ 20 ≠ 0) (free : ∀ a ∈ s.aht, a.handle.toNat % 2 ^ 20 ≠ (pubHandle c).toNat % 2 ^ 20) :
    createWork c r s = adeEnd stOk 0 r (insertAht (createdEntry c r) s) := by
  refine if_neg ?_
  simp only [Bool.or_eq_true, decide_eq_true_eq, List.any_eq_true, not_or, not_exists, not_and]
  exact ⟨index, free⟩

theorem onLive_of_may {may : Aht → RunCmd → Bool} (live : liveAht s (pubHandle c) = some a) (m : may a r = true) (f : Aht → RunCmd → State → State) :
    onLive c may f r s = f a r s := by
  simp [onLive, live, m]

theorem ownsHandle_iff : ownsHandle a r = true ↔ a.owner = r.world := decide_eq_true_iff

theorem publishes_iff : publishes a r = true ↔ a.owner = r.world ∨ a.publisher = some r.world := by
  simp only [publishes, Bool.or_eq_true, decide_eq_true_eq]

theorem modAht_frame (s : State) (h : BitVec 24) (f : Aht → Aht) : modAht s h f = { s with aht := (modAht s h f).aht } := rfl

/-- An entry of a handle stands in the table as the change of that handle's entries has left it. -/
theorem exists_of_mem_modAht {h : BitVec 24} {f : Aht → Aht} {b : Aht} (mem : b ∈ (modAht s h f).aht) (handle : b.handle = h) :
    ∃ x : Aht, x.handle = h ∧ b = f x := by
  obtain ⟨x, -, rfl⟩ := List.mem_map.mp mem
  by_cases same : x.handle = h
  · exact ⟨x, same, if_pos same⟩
  · rw [if_neg same] at handle
    exact absurd handle same

/-- What a GRANT makes of an entry. -/
def granted (c : Cmd) (a b : Aht) : Aht :=
  revive { b with grants := BitVec.ofNat 64 (fld c 24 8), publisher := publisherOf c,
                  selectors := (List.range 16).foldl (grantSelector a (fld c 32 4)) a.selectors }

theorem grantAct_eq (c : Cmd) (a : Aht) (r : RunCmd) (s : State) : grantAct c a r s = adeEnd stOk 0 r (modAht s a.handle (granted c a)) := rfl

theorem grants_of_mem_granted {b : Aht} (mem : b ∈ (modAht s a.handle (granted c a)).aht) (handle : b.handle = a.handle) :
    b.grants = BitVec.ofNat 64 (fld c 24 8) := by
  obtain ⟨x, -, rfl⟩ := exists_of_mem_modAht mem handle
  rfl

/-- The record that PREPARE makes, with its key slot. -/
def preparedVersion (n : BitVec 32) (slot : Nat) : Version := { Version.empty with num := n, keySlot := BitVec.ofNat 12 slot, st := 1 }

/-- An entry with that record in an empty place, and its next version number. -/
def prepared (a : Aht) (i slot : Nat) (b : Aht) : Aht := { b with next := b.next + 1, vers := b.vers.setIfInBounds i (preparedVersion a.next slot) }

/-- What a PREPARE does: a fresh key in a free slot, and the record. -/
def prepareVersion (a : Aht) (i slot : Nat) (s : State) : State :=
  let t := modAht (drawKey s).2 a.handle (prepared a i slot)
  { t with keySlots := t.keySlots ++ [(BitVec.ofNat 12 slot, (drawKey s).1, a.handle)] }

theorem prepareAct_of_room {i slot : Nat} (place : a.vers.toList.findIdx? (fun v => v.st = 0) = some i) (free : freeKeySlot s = some slot)
    (next : a.next ≠ 0xFFFFFFFF) : prepareAct a r s = adeEnd stOk (a.next.toNat + slot * 2 ^ 32) r (prepareVersion a i slot s) := by
  simp only [prepareAct, place, free, if_neg next]
  rfl

theorem mem_vers_prepared {i : Nat} (a b : Aht) (slot : Nat) (h : i < 3) : preparedVersion a.next slot ∈ (prepared a i slot b).vers.toList := by
  rw [prepared, Vector.mem_toList_iff, Vector.mem_iff_getElem]
  exact ⟨i, h, Vector.getElem_setIfInBounds_self _⟩

theorem lt_of_findIdx?_vers {p : Version → Bool} {i : Nat} (h : a.vers.toList.findIdx? p = some i) : i < 3 := by
  obtain ⟨lt, -⟩ := List.findIdx?_eq_some_iff_getElem.mp h
  simpa using lt

theorem exists_prepared_of_mem {i slot : Nat} (h : i < 3) {b : Aht} (mem : b ∈ (prepareVersion a i slot s).aht) (handle : b.handle = a.handle) :
    ∃ v ∈ b.vers.toList, v.num = a.next ∧ v.st = 1 ∧ v.keySlot.toNat = slot % 4096 := by
  obtain ⟨x, -, rfl⟩ := exists_of_mem_modAht mem handle
  exact ⟨_, mem_vers_prepared a x slot h, rfl, rfl, BitVec.toNat_ofNat ..⟩

theorem commitAct_of_steps {es : List Factors} (record : a.vers.toList.find? (fun v => v.num = BitVec.ofNat 32 (fld c 20 4) && v.st = 1) = some v)
    (bound : ∀ q ∈ commitTargets c, boundIn s a.owner q = true)
    (read : allOk (readFactors s r (fld c 32 8) (rankOf a)) (List.range (fld c 28 2 * fld c 30 1)) = .ok es)
    (placed : (commitTargets c).foldl (commitPlace a.handle v.num a) (commitResolve r a v c es s) = .ok t) :
    commitAct c a r s = adeEnd stOk v.num.toNat r (commitSwap (commitTargets c) a.handle v.num t) := by
  have number : v.num = BitVec.ofNat 32 (fld c 20 4) := by
    have found := List.find?_some record
    simp only [Bool.and_eq_true, decide_eq_true_eq] at found
    exact found.1
  have all : (commitTargets c).all (boundIn s a.owner) = true := List.all_eq_true.mpr bound
  rw [number] at placed ⊢
  simp [commitAct, record, all, read, placed]

end

/-! ### KALLOC, KEXTEND and KFREE (07_serving_structures R215 to R218, R452) -/

section
variable {c : Cmd} {r : RunCmd} {s t : State} {q : Seq}

theorem kallocWork_of_extent {e : Extent} {n : Nat} (block : allocExtent s r.task.part r.world (fld c 16 1) (fld c 24 4) = .ok (t, e))
    (free : freeSeq s r.task.part = some n) :
    kallocWork c r s = endsLater 0 stOk n r (noteSeq r n 0 0 (putSeq t r.task.part
      { num := n, world := r.world, stopped := false, fmt := BitVec.ofNat 4 (fld c 17 1), len := 0, dim := fld c 18 2, voff := fld c 20 2,
        pool := fld c 16 1, extents := [e] })) := by
  simp only [kallocWork, block, free, kvaDo]

theorem kallocWork_of_failed {e : Nat} (failed : allocExtent s r.task.part r.world (fld c 16 1) (fld c 24 4) = .error e) :
    kallocWork c r s = endsLater 0 e 0 r s := by
  simp only [kallocWork, failed, kvaDo]

theorem namedSeq_of_own (named : getSeq s r.task.part (fld c 16 2) = some q) (running : q.stopped = false) (world : q.world = r.world) :
    namedSeq c r s = .ok q := by
  simp [namedSeq, named, running, world]

theorem extentsFull_of_lt (room : q.extents.length < 16) : extentsFull q = false := decide_eq_false (Nat.not_le.mpr room)

theorem capacity_eq_sum (q : Seq) : capacity q = (q.extents.map (·.len)).sum := List.sum_eq_foldl.symm

theorem extendAllocWork_of_extent {e : Extent} (named : namedSeq c r s = .ok q) (room : q.extents.length < 16)
    (block : allocExtent s r.task.part r.world q.pool (fld c 24 4) = .ok (t, e)) :
    extendAllocWork c r s = endsLater 0 stOk q.extents.length r
      (noteSeq r q.num q.extents.length q.len (putSeq t r.task.part { q with extents := q.extents ++ [e] })) := by
  simp [extendAllocWork, named, extentsFull_of_lt room, block, kvaDo, appendExtent]

theorem shareWork_of_registered {x : KvPool} (named : namedSeq c r s = .ok q) (room : q.extents.length < 16)
    (pool : getPool (getPart s r.task.part) q.pool = some x) (aligned : fld c 32 8 % x.stride = 0)
    (pages : ∀ a ∈ rangePages (fld c 32 8) (fld c 24 4 * x.stride), ∃ y, prefixAt s r.world a = some y ∧ y.clean.isSome = true ∧ y.lost = false) :
    shareWork c r s = endsLater 0 stOk q.extents.length r
      (noteSeq r q.num q.extents.length q.len (putSeq s r.task.part
        { q with extents := q.extents ++ [{ base := fld c 32 8, len := fld c 24 4, stride := x.stride, shared := true, order := 31 }] })) := by
  have registered : (rangePages (fld c 32 8) (fld c 24 4 * x.stride)).all
      (fun a => ((prefixAt s r.world a).map fun y => y.clean.isSome && !y.lost).getD false) = true := by
    refine List.all_eq_true.mpr fun a mem => ?_
    obtain ⟨y, found, clean, kept⟩ := pages a mem
    simp [found, clean, kept]
  simp [shareWork, named, extentsFull_of_lt room, pool, aligned, registered, kvaDo, appendExtent]

theorem setlenWork_of_le (named : namedSeq c r s = .ok q) (fits : fld c 24 4 ≤ (q.extents.map (·.len)).sum) :
    setlenWork c r s = endsLater 0 stOk 0 r (noteSeq r q.num q.extents.length q.len (putSeq s r.task.part { q with len := fld c 24 4 })) := by
  rw [← capacity_eq_sum] at fits
  simp [setlenWork, named, Nat.not_lt.mpr fits, kvaDo]

theorem kfreeWork_of_own (outside : ckptOf s r.task = none) (named : getSeq s r.task.part (fld c 16 2) = some q) (world : q.world = r.world) :
    kfreeWork c r s = endsLater 0 stOk 0 r (dropSeq s r.task.part (fld c 16 2)) := by
  simp [kfreeWork, outside, named, world, kvaDo, kfreeEffect]

theorem execKfree_of_free (free : kfreeHeld c s = false) : execKfree c s = startCommand 0x13 c (kfreeValid c) noOperands (kfreeWork c) s := by
  refine if_neg ?_
  simp [free]

end

/-! ### MIGRATE (02_memory_tiers R64, R453) -/

section
variable {c : Cmd} {r : RunCmd} {s : State}

/-- The migration that a MIGRATE queues, with its source and its destination still to be found. -/
def queuedMigration (c : Cmd) (r : RunCmd) : Migration :=
  let o := migOp c
  { src := 0, dst := 0, va := o.va, world := r.world, tier := o.tier, wish := o.wish, step := 0, bitmap := 0,
    replica := if o.replica then some o.at_ else none, erase := o.erase, task := r.task, seq := c.seq, next := 0 }

theorem migWork_of_takes (takes : migTakes s r.task.part r.world (migOp c) = true) :
    migWork c r s = putRun { r with pending := true } { s with migQueue := s.migQueue ++ [queuedMigration c r] } := by
  refine if_neg ?_
  simp [takes]

theorem cancelWork_of_found {m : Migration}
    (found : (s.migrations ++ s.migQueue).find? (fun m => m.world = r.world && m.va = (migOp c).va && m.step < 4) = some m) :
    cancelWork c r s = endsLater 0 stOk 0 r (abandon m s) := by
  simp only [cancelWork, found]

theorem cancelWork_of_absent (absent : ∀ m ∈ s.migrations ++ s.migQueue, ¬ (m.world = r.world ∧ m.va = (migOp c).va ∧ m.step < 4)) :
    cancelWork c r s = putRun (endsWith r (cycOf s r.core) stNosuch 0) s := by
  have found : (s.migrations ++ s.migQueue).find? (fun m => m.world = r.world && m.va = (migOp c).va && m.step < 4) = none := by
    refine List.find?_eq_none.mpr fun m mem => ?_
    simpa [and_assoc] using absent m mem
  simp only [cancelWork, found]

/-! ### Collectives (03_links_trust R105, R454) -/

/-- Commands that stand among the running ones under the task, the engine and the number of one put there are that one. -/
theorem eq_of_mem_putRun {q : RunCmd} (mem : q ∈ (putRun r s).running) (task : q.task = r.task) (eng : q.eng = r.eng) (seq : q.seq = r.seq) : q = r := by
  unfold putRun at mem
  dsimp only at mem
  split at mem
  next =>
    obtain ⟨x, -, stands⟩ := List.mem_map.mp mem
    split at stands
    next => exact stands.symm
    next other =>
      subst stands
      exact absurd (by simp [task, eng, seq]) other
  next noStand =>
    rcases List.mem_append.mp mem with old | new
    · exact absurd (List.any_eq_true.mpr ⟨q, old, by simp [task, eng, seq]⟩) noStand
    · exact List.mem_singleton.mp new

theorem find?_putRun (r : RunCmd) (s : State) : (putRun r s).running.find? (fun q => q.task = r.task && q.eng = r.eng && q.seq = r.seq) = some r := by
  have stands : ((putRun r s).running.find? fun q => q.task = r.task && q.eng = r.eng && q.seq = r.seq).isSome = true :=
    List.find?_isSome.mpr ⟨r, mem_putRun r s, by simp⟩
  obtain ⟨q, found⟩ := Option.isSome_iff_exists.mp stands
  have same := List.find?_some found
  simp only [Bool.and_eq_true, decide_eq_true_eq] at same
  obtain ⟨⟨task, eng⟩, seq⟩ := same
  rw [found, eq_of_mem_putRun (List.mem_of_find?_eq_some found) task eng seq]

theorem groups_sendFlit (s : State) (who : Option Nat) (node type : Nat) (w : BitVec 6) (group view : Nat) (tag : BitVec 16) (slots : List (Nat × Nat)) :
    (sendFlit s who node type w group view tag slots).groups = s.groups := by
  unfold sendFlit
  split <;> rfl

theorem node_sendFlit (s : State) (who : Option Nat) (node type : Nat) (w : BitVec 6) (group view : Nat) (tag : BitVec 16) (slots : List (Nat × Nat)) :
    (sendFlit s who node type w group view tag slots).node = s.node := by
  unfold sendFlit
  split <;> rfl

/-- A collective command told to the other members of its group. -/
def announceColl (g : Group) (o : ColOp) (r : RunCmd) (s : State) : State :=
  (others s g).foldl (fun s node => sendCol s (some r.task.part) node r.world g o [colAnnounce o]) s

theorem groups_announceColl (g : Group) (o : ColOp) (r : RunCmd) (s : State) : (announceColl g o r s).groups = s.groups :=
  foldl_keeps (p := State.groups) (fun _ _ => groups_sendFlit ..) _ s

theorem node_announceColl (g : Group) (o : ColOp) (r : RunCmd) (s : State) : (announceColl g o r s).node = s.node :=
  foldl_keeps (p := State.node) (fun _ _ => node_sendFlit ..) _ s

/-- The collective of a command of which no other member has been heard. -/
def firstColl (c : Cmd) (r : RunCmd) (g : Group) : Coll :=
  { group := g.num.toNat, view := (colOp c.bits).view, tag := (colOp c.bits).tag, ours := some (r.task, c.seq), heard := [], from_ := [] }

theorem mem_colls_putColl (x : Coll) (s : State) : x ∈ (putColl x s).colls := List.mem_append_right _ (List.mem_singleton.mpr rfl)

theorem running_putColl (x : Coll) (s : State) : (putColl x s).running = s.running := rfl

theorem collRun_of_putRun (x : Coll) (own : x.ours = some (r.task, r.seq)) (eng : r.eng = colId) : collRun (putColl x (putRun r s)) x = some r := by
  have found := find?_putRun r s
  rw [eng] at found
  simp only [collRun, own, Option.bind_some]
  exact found

theorem allHeard_of_unheard {g : Group} {x : Coll} {k : Nat} (unheard : x.heard = []) (member : k < (rankNodes g).length) (other : k ≠ ownRank s g) :
    allHeard s g x = false := by
  refine List.all_eq_false.mpr ⟨k, List.mem_range.mpr member, ?_⟩
  simp [unheard, other, assocGet]

theorem colGoOn_of_unheard {x : Coll} (run : collRun s x = some r) (missing : allHeard s (getGroup s (colOp r.bits).slot) x = false) :
    colGoOn x s = s := by
  simp [colGoOn, run, missing]

theorem colWork_of_oldView (old : (getGroup s (colOp c.bits).slot).view ≠ (colOp c.bits).view) :
    colWork c r s = putRun (endsWith r (cycOf s r.core) stViewChanged 0) s :=
  if_pos old

/-- The first command of a collective waits, where the group has another member. -/
theorem colWork_of_first {k : Nat} (eng : r.eng = colId) (seq : r.seq = c.seq) (bits : r.bits = c.bits)
    (view : (getGroup s (colOp c.bits).slot).view = (colOp c.bits).view)
    (first : findColl s (getGroup s (colOp c.bits).slot).num.toNat (colOp c.bits).view (colOp c.bits).tag = none)
    (member : k < (rankNodes (getGroup s (colOp c.bits).slot)).length) (other : k ≠ ownRank s (getGroup s (colOp c.bits).slot)) :
    let g := getGroup s (colOp c.bits).slot
    let x := firstColl c r g
    colWork c r s = putColl x (putRun { r with waiting := true } (announceColl g (colOp c.bits) r s)) := by
  intro g x
  let q : RunCmd := { r with waiting := true }
  let t := putColl x (putRun q (announceColl g (colOp c.bits) r s))
  have frame : t = { announceColl g (colOp c.bits) r s with running := t.running, colls := t.colls } := by
    simp only [t, putColl]
    rw [putRun_eq]
  have group : getGroup t (colOp q.bits).slot = g := by
    rw [frame]
    unfold getGroup
    simp only [groups_announceColl, q, bits]
    rfl
  have rank : ownRank t g = ownRank s g := by
    rw [frame]
    simp only [ownRank, node_announceColl]
  have run : collRun t x = some q := collRun_of_putRun x (by simp [x, firstColl, q, seq]) eng
  have missing : allHeard t (getGroup t (colOp q.bits).slot) x = false := by
    rw [group]
    exact allHeard_of_unheard rfl member (rank ▸ other)
  have work : colWork c r s = colGoOn x t := by
    simp only [colWork, view, first, ne_eq, not_true_eq_false, if_false, Option.getD_none, Option.isSome_none, Bool.false_eq_true]
    rfl
  rw [work, colGoOn_of_unheard run missing]

end

end Sys2Proof.Machine

namespace Sys2Proof.Proofs

open Sys2Proof.Machine Sys2Proof.Laws.Engine

/-- Settles O46, engine by engine and command by command. -/
theorem tableEngineResults : Obligations.TableEngineResults := by
  unfold Obligations.TableEngineResults
  intro s c header f
  refine ⟨?adapter, ?allocator, ?migration, ?collective⟩
  case adapter =>
    intro r z p
    refine ⟨fun a v t n valid live current may admitted => ⟨?_, admitVersion_result admitted⟩, fun absent valid => ?_, fun valid outside held => ?_,
      fun valid index free => ?_, fun a live => ⟨fun valid own => ?_, fun valid may i slot place key next => ?_, fun valid own => ?_, ?commit⟩⟩
    · exact endsWith_of_adapter rfl header valid (adpinWork_of_admitted live current may admitted)
    · exact endsWith_of_adapter rfl header valid (adpinWork_of_absent absent)
    · exact endsWith_of_adapter rfl header valid (adunpinWork_of_held outside held)
    · exact ⟨_, createdEntry c r, endsWith_of_adapter rfl header valid (createWork_of_free index free), insertAht_frame _ z,
        fun x => mem_aht_insertAht _ x z, rfl, rfl, rfl, rfl, fun v => st_of_mem_createdEntry⟩
    · exact ⟨_, endsWith_of_adapter rfl header valid ((onLive_of_may live (ownsHandle_iff.mpr own) _).trans (grantAct_eq c a r z)),
        modAht_frame z a.handle _, fun b => grants_of_mem_granted⟩
    · exact ⟨_, endsWith_of_adapter rfl header valid ((onLive_of_may live (publishes_iff.mpr may) _).trans (prepareAct_of_room place key next)),
        fun b => exists_prepared_of_mem (lt_of_findIdx?_vers place)⟩
    · exact endsWith_of_adapter rfl header valid (onLive_of_may live (ownsHandle_iff.mpr own) _)
    case commit =>
      intro v es t atOnce valid may record bound read placed
      exact endsWith_of_work rfl header valid ((whenReady_of_atOnce atOnce _).trans
        ((onLive_of_may live (publishes_iff.mpr may) _).trans (commitAct_of_steps record bound read placed)))
  case allocator =>
    intro z r p
    refine ⟨fun t e n valid block free => ?_, fun e valid failed => ?_, fun valid => ?_, fun q named running world => ?seq⟩
    · exact endsWith_of_work rfl header valid (kallocWork_of_extent block free)
    · exact endsWith_of_work rfl header valid (kallocWork_of_failed failed)
    · exact endsWith_of_work (work := poolWork c) rfl header valid rfl
    case seq =>
      have own : namedSeq c r z = .ok q := namedSeq_of_own named running world
      refine ⟨fun t e valid room block => ?_, fun x valid room pool aligned pages => ?_, fun valid fits => ?_, fun _ valid free outside => ?_⟩
      · exact endsWith_of_work rfl header valid (extendAllocWork_of_extent own room block)
      · exact endsWith_of_work rfl header valid (shareWork_of_registered own room pool aligned pages)
      · exact endsWith_of_work rfl header valid (setlenWork_of_le own fits)
      · exact endsWith_of_work (execKfree_of_free free) header valid (kfreeWork_of_own outside named world)
  case migration =>
    intro z r o valid
    refine ⟨fun i hi takes => ?_, fun m found => ?_, fun absent => ?_⟩
    · have start : exec i s = startCommand 0x14 c (migValid c) noOperands (migWork c) s := by
        simp only [List.mem_cons, List.not_mem_nil, or_false] at hi
        rcases hi with rfl | rfl <;> rfl
      refine ⟨_, _, queuedMigration c r, (exec_of_start start header valid).trans (congrArg _ (migWork_of_takes takes)), mem_putRun _ _, rfl, rfl, ?_,
        rfl, rfl, rfl, rfl, rfl, rfl, ?_⟩
      · rw [putRun_eq]
      · rw [putRun_eq]
    · exact endsWith_of_work rfl header valid (cancelWork_of_found found)
    · exact endsWith_of_now ((exec_of_start (work := cancelWork c) rfl header valid).trans (congrArg _ (cancelWork_of_absent absent)))
  case collective =>
    intro z o g atOnce valid i hi
    have start : exec i s = startCommand 0x15 c (colValid c) noOperands (whenReady 0x15 true (colWork c)) s := by
      simp only [List.mem_cons, List.not_mem_nil, or_false] at hi
      rcases hi with rfl | rfl | rfl <;> rfl
    have works := (exec_of_start start header valid).trans (congrArg _ (whenReady_of_atOnce atOnce (colWork c)))
    refine ⟨fun old => ?_, fun view first ⟨k, member, other⟩ => ?_⟩
    · exact endsWith_of_now (works.trans (congrArg _ (colWork_of_oldView old)))
    · refine ⟨_, { taking 0x15 c s with waiting := true }, firstColl c (taking 0x15 c s) g,
        works.trans (congrArg _ (colWork_of_first rfl rfl rfl view first member other)), ?_, rfl, rfl, mem_colls_putColl _ _, rfl, rfl, rfl, rfl, rfl⟩
      rw [running_putColl]
      exact mem_putRun _ _

end Sys2Proof.Proofs

namespace Sys2Proof.Machine

/-! ### The trap registers (10_traps R295, R302) -/

theorem causeCode_lt (c : Cause) : causeCode c < 256 := by cases c <;> simp [causeCode]

theorem subCode_lt (c : Cause) : subCode c < 256 := by
  cases c
  case trapInstr code => exact code.isLt
  case floating f => exact Nat.lt_trans f.isLt (by decide)
  all_goals simp [subCode]

/-! ### The trap record written: memory apart, the core in focus and its clock stay (10_traps R298) -/

theorem cyc_modCkpt (s : State) (t : TaskRef) (f : Ckpt → Ckpt) : cyc (modCkpt s t f) = cyc s := rfl

theorem cyc_ckptLog (s : State) (who : Option TaskRef) (line : Nat) : cyc (ckptLog s who line) = cyc s := by
  unfold ckptLog
  split
  · rfl
  · split
    · rfl
    · dsimp only
      split
      · rfl
      · rw [cyc_modCkpt]
        refine foldl_keeps (p := cyc) (fun t x => ?_) _ _
        rfl

theorem cyc_writeLine (s : State) (pa : Nat) (bs : List (Nat × Byte)) (w : BitVec 6) (stamp : Option (BitVec 10 × BitVec 8)) (poison : Bool)
    (slot : BitVec 12) (who : Option TaskRef) : cyc (writeLine s pa bs w stamp poison slot who) = cyc s := by
  rw [← cyc_ckptLog s who (lineOf pa)]
  unfold writeLine
  dsimp only
  split
  · rfl
  · split <;> rfl

/-- What the write of a line leaves alone, the write of the trap record does too. -/
theorem writeRecord_keeps {α : Type} {p : State → α} (line : ∀ s pa bs w stamp poison slot who, p (writeLine s pa bs w stamp poison slot who) = p s)
    {t : Trap} {nested : Bool} {s u : State} (h : writeRecord t nested s = some u) : p u = p s := by
  unfold writeRecord at h
  dsimp only at h
  split at h
  · cases h
  · split at h
    · cases h
    · cases h
      exact foldl_keeps (p := p) (fun _ _ => line ..) _ s

/-! ### A trap taken outside a handler (10_traps R298, R299) -/

/-- The task stands at its cut in this cycle, the other traps of the cycle gone. -/
def atCut (s : State) : State := dropOthers (takeCut s)

theorem atCut_core (s : State) : (atCut s).core =
    { s.core with
      cut := cyc s
      cutPc := s.core.pc
      cutXfer := s.core.xfer
      cutPhase := s.core.phase
      deferred := s.core.deferred.filter fun x => x.2.entry || cyc s < x.1 } := rfl

theorem mem_atCut (s : State) : (atCut s).mem = s.mem := rfl

/-- The trap registers as a handler finds them, HANDLER among them (R302). -/
def handlerRegs (t : Trap) (r : SysRegs) : SysRegs :=
  { r with
    trapCause := BitVec.ofNat 64 (causeCode t.cause + t.source * 2 ^ 8 + subCode t.cause * 2 ^ 16 + t.entry.toNat * 2 ^ 24 + 2 ^ 26)
    trapPc := BitVec.ofNat 64 (t.pc.toNat / 4 * 4)
    trapAddr := t.addr }

theorem handlerRegs_trapVec (t : Trap) (r : SysRegs) : (handlerRegs t r).trapVec = r.trapVec := by rw [handlerRegs]

theorem setTrapRegs_handler (t : Trap) (s : State) : setTrapRegs t true false s = modSys (handlerRegs t) s := by
  rw [setTrapRegs, Bool.toNat_false, Nat.zero_mul, Nat.add_zero, Bool.toNat_true, Nat.one_mul]
  rfl

/-- The source of a trap has two bits, so that no other field of TRAP_CAUSE reaches HANDLER. -/
theorem handlerRegs_handler {t : Trap} (source : t.source < 4) (r : SysRegs) : (handlerRegs t r).trapCause.getLsbD 26 = true := by
  have below : causeCode t.cause + t.source * 2 ^ 8 + subCode t.cause * 2 ^ 16 + t.entry.toNat * 2 ^ 24 < 2 ^ 26 := by
    have := causeCode_lt t.cause
    have := subCode_lt t.cause
    have := t.entry.toNat_le
    omega
  rw [handlerRegs, BitVec.getLsbD_ofNat, Nat.add_comm _ (2 ^ 26), Nat.testBit_two_pow_add_eq, Nat.testBit_lt_two_pow below]
  rfl

/-- The trap registers changed by `f`, the handler starts in cycle `c`: the S stream is at TRAP_VEC.ADDR 40 cycles later. -/
def startedHandler (f : SysRegs → SysRegs) (c : Cycle) (s : State) : State :=
  modCore (fun k => { k with hold := .handler, pc := BitVec.ofNat 64 (k.sys.trapVec.toNat / 4 * 4), xfer := none, phase := 0, sReady := c + 40 }) (modSys f s)

theorem mem_startedHandler (f : SysRegs → SysRegs) (c : Cycle) (s : State) : (startedHandler f c s).mem = s.mem := rfl

theorem startedHandler_core {k : Core} {s : State} (core : s.core = k) (f : SysRegs → SysRegs) (c : Cycle) :
    let h := (startedHandler f c s).core
    h.sys = f k.sys ∧ h.pc = BitVec.ofNat 64 ((f k.sys).trapVec.toNat / 4 * 4) ∧ h.xfer = none ∧ h.sReady = c + 40 ∧ h.hold = .handler ∧ h.cut = k.cut
      ∧ h.cutPc = k.cutPc ∧ h.g = k.g ∧ h.b = k.b ∧ h.e = k.e ∧ h.v = k.v ∧ h.flags = k.flags := by
  subst core
  exact ⟨rfl, rfl, rfl, rfl, rfl, rfl, rfl, rfl, rfl, rfl, rfl, rfl⟩

theorem listReissue_of_no_slot {t : Trap} (slot : t.slot = none) (s : State) : listReissue t s = modCore (fun k => { k with reissue := [] }) s := by
  simp only [listReissue, slot]

section
variable {s : State} {t : Trap} {l : Launch} (outside : inHandler s = false) (task : taskLaunch s = some l)
include outside task

theorem takeTrap_of_no_save_area (save : launchSave l = 0) : takeTrap t s = failTask (causeCode t.cause) (atCut s) := by
  have here : taskLaunch (dropOthers (takeCut s)) = some l := task
  simp [takeTrap, outside, here, save, atCut]

theorem takeTrap_of_user (save : launchSave l ≠ 0) (user : causeDest t.cause = .user) (enabled : s.core.sys.trapVec.getLsbD 0 = true) :
    takeTrap t s = enterHandler t (atCut s) := by
  have here : taskLaunch (dropOthers (takeCut s)) = some l := task
  have handler : toHandler t (dropOthers (takeCut s)) = true := by
    have still : inHandler (dropOthers (takeCut s)) = false := outside
    have vec : (dropOthers (takeCut s)).core.sys.trapVec.getLsbD 0 = true := enabled
    simp [toHandler, still, user, vec]
  simp [takeTrap, outside, here, save, handler, atCut]

end

theorem enterHandler_of_unquiet {s : State} (busy : quiet s = false) (t : Trap) :
    enterHandler t s = modCore (fun k => { k with hold := .entering t, phase := 0 }) s := by
  simp [enterHandler, busy]

theorem startHandler_of_record {s u : State} {t : Trap} (record : writeRecord t false (listReissue t s) = some u) :
    startHandler t s = startedHandler (handlerRegs t) (cyc u) u := by
  have clock : cyc (modSys (handlerRegs t) u) = cyc u := cyc_modCore ..
  rw [startHandler, record, startedHandler, ← clock, ← setTrapRegs_handler]

theorem enterHandler_of_record {s u : State} {t : Trap} (idle : quiet s = true) (slot : t.slot = none)
    (record : writeRecord t false (modCore (fun k => { k with reissue := [] }) s) = some u) :
    enterHandler t s = startedHandler (handlerRegs t) (cyc s) u := by
  have clock : cyc u = cyc s := (writeRecord_keeps (p := cyc) cyc_writeLine record :)
  rw [enterHandler, if_pos idle, startHandler_of_record (listReissue_of_no_slot slot s ▸ record), clock]

/-! ### The return from a handler (10_traps R300, R305) -/

theorem inHandler_leaveHandler (s : State) : inHandler (leaveHandler s) = false := by
  simp only [inHandler, leaveHandler, modSys, modCore_core, BitVec.getLsbD_and, BitVec.getLsbD_not, BitVec.getLsbD_ofNat, Nat.testBit_two_pow_self]
  simp

theorem mem_pinGroup (n g : Nat) (s : State) : (pinGroup n g s).mem = s.mem :=
  foldl_keeps (p := State.mem) (f := takeReader _) (fun _ _ => rfl) _ s

theorem mem_pinAgain (s : State) : (pinAgain s).mem = s.mem := by
  unfold pinAgain
  split
  · rfl
  · refine foldl_keeps (p := State.mem) (fun t n => ?_) _ s
    refine foldl_keeps (p := State.mem) (fun u g => ?_) _ t
    split
    · rfl
    · exact mem_pinGroup n g u

/-- The word that a column is at issues as many cycles after `r` as it was due after the cut. -/
theorem getCol_resumeAt (r : Cycle) (s : State) (c : Col) :
    getCol (resumeAt r s).core c =
      { getCol s.core c with run := (getCol s.core c).run.map fun x => { x with next := r + (x.next - s.core.cut) } } := by
  cases c <;> rfl

theorem getCol_leaveHandler (s : State) (c : Col) : getCol (leaveHandler s).core c = getCol s.core c := by cases c <;> rfl

theorem getCol_pinAgain (s : State) (c : Col) : getCol (pinAgain s).core c = getCol s.core c :=
  pinAgain_keeps (p := fun k => getCol k c) (fun k => getCol_withoutPins k c) s

theorem getCol_restartTask (s : State) (c : Col) : getCol (restartTask s).core c = { getCol s.core c with queue := [], run := none } := by
  cases c <;> rfl

theorem inHandler_restartTask (s : State) : inHandler (restartTask s) = false := inHandler_leaveHandler (discardWork s)

theorem trapsS_eret_of_outside {s : State} (outside : inHandler s = false) : TrapsS .eret s .illegal 0 :=
  show execEret s = sIllegal s by simp [execEret, outside]

section
variable {s : State} (inside : inHandler s = true) (still : s.core.xfer = none)
include inside still

theorem exec_eret_of_replay (action : resumeAction s = some 0) :
    exec .eret s = .next (pinAgain (resumeAt (cyc s + 1) (leaveHandler s))) := by
  show execEret s = _
  simp [execEret, inside, still, action]

theorem exec_eret_of_restart (action : resumeAction s = some 2) (idle : ∀ r ∈ s.running, r.core ≠ s.coreId) :
    exec .eret s = .next (restartTask s) := by
  have idle : (s.running.all fun r => r.core ≠ s.coreId) = true := by simpa using idle
  show execEret s = _
  simp only [execEret, inside, still, action, idle]
  rfl

end

end Sys2Proof.Machine

namespace Sys2Proof.Proofs

open Sys2Proof.Machine

/-- Settles O17: where the trap goes (`takeTrap_of_user`, `takeTrap_of_no_save_area`), and what the handler finds (`enterHandler_of_record`). -/
theorem trapEntry : Obligations.TrapEntry := by
  unfold Obligations.TrapEntry
  constructor
  case left =>
    intro s tr l slot outside task save user enabled z t
    have entered : t = enterHandler tr z := takeTrap_of_user outside task save user enabled
    constructor
    case left =>
      intro busy
      have stands : z.core = _ := atCut_core s
      rw [entered, enterHandler_of_unquiet busy, modCore_core, stands]
      exact ⟨rfl, rfl, rfl, rfl, rfl, rfl, rfl, rfl, rfl, sameMemory_of_mem (mem_atCut s)⟩
    case right =>
      intro u idle record
      have core : u.core = { z.core with reissue := [] } := writeRecord_keeps (p := State.core) core_writeLine record
      rw [entered, enterHandler_of_record idle slot record]
      obtain ⟨sys, rest⟩ := startedHandler_core core (handlerRegs tr) (cyc z)
      obtain ⟨pc, xfer, ready, hold, cut, cutPc, g, b, e, v, flags⟩ := rest
      rw [handlerRegs_trapVec] at pc
      refine ⟨?_, fun source => ?_, ?_, ?_, pc, xfer, ready, hold, cut, cutPc, g, b, e, v, flags, sameMemory_of_mem (mem_startedHandler ..)⟩
      · rw [sys, handlerRegs]
      · rw [inHandler, sys]
        exact handlerRegs_handler source _
      · rw [sys, handlerRegs]
      · rw [sys, handlerRegs]
  case right =>
    intro s tr l _ outside task save
    exact takeTrap_of_no_save_area outside task save

/-- Settles O19 by the two resume actions; outside a handler ERET is illegal (`trapsS_eret_of_outside`). -/
theorem returnFromHandler : Obligations.ReturnFromHandler := by
  unfold Obligations.ReturnFromHandler
  intro s
  refine ⟨trapsS_eret_of_outside, ?replay, ?restart⟩
  case replay =>
    intro inside still action
    obtain ⟨free, -, pc, ready, g, sys⟩ := pinAgain_resumeAt_core (cyc s + 1) (leaveHandler s)
    refine ⟨_, exec_eret_of_replay inside still action, ?_, free, pc, ?_, ready, g, ?_, fun c r run => ?_, sameMemory_of_mem (mem_pinAgain _)⟩
    · rw [inHandler, sys]
      exact inHandler_leaveHandler s
    · exact pinAgain_keeps (p := Core.xfer) (fun _ => rfl) _
    · exact pinAgain_keeps (p := Core.flags) (fun _ => rfl) _
    · rw [getCol_pinAgain, getCol_resumeAt, getCol_leaveHandler, run]
      rfl
  case restart =>
    intro inside still action idle
    refine ⟨restartTask s, exec_eret_of_restart inside still action idle, inHandler_restartTask s, rfl, rfl, rfl, rfl, rfl, rfl, fun c => ?_, fun i => ?_,
      sameMemory_of_mem rfl⟩
    · rw [getCol_restartTask]
      exact ⟨rfl, rfl⟩
    · exact Vector.getElem_replicate i.isLt

end Sys2Proof.Proofs

namespace Sys2Proof.Laws.RoundTrip

/-! ### The word of an instruction decodes to it (11_isa_formats R332 to R343) -/

/-- The round trip of every constructor: those that are no word of a stream have nothing to show. -/
theorem decode_encode (i : Instr) : Statement i := by
  cases i with
  | trap code => exact trap code
  | add o => exact add o
  | sub o => exact sub o
  | mul o => exact mul o
  | mulh o => exact mulh o
  | mulhz o => exact mulhz o
  | div o => exact div o
  | divz o => exact divz o
  | rem o => exact rem o
  | remz o => exact remz o
  | andR o => exact andR o
  | orR o => exact orR o
  | xorR o => exact xorR o
  | shl o => exact shl o
  | shr o => exact shr o
  | sra o => exact sra o
  | minR o => exact minR o
  | maxR o => exact maxR o
  | minz o => exact minz o
  | maxz o => exact maxz o
  | clz o => exact clz o
  | ctz o => exact ctz o
  | popc o => exact popc o
  | addi o => exact addi o
  | andi o => exact andi o
  | ori o => exact ori o
  | xori o => exact xori o
  | shli o => exact shli o
  | shri o => exact shri o
  | srai o => exact srai o
  | li o => exact li o
  | lui o => exact lui o
  | lhi o => exact lhi o
  | addpc o => exact addpc o
  | fshl o => exact fshl o
  | fshr o => exact fshr o
  | bxt o => exact bxt o
  | bxz o => exact bxz o
  | bins o => exact bins o
  | bxti o => exact bxti o
  | bxzi o => exact bxzi o
  | binsi o => exact binsi o
  | sel o => exact sel o
  | cmp o => exact cmp o
  | cmpi o => exact cmpi o
  | ptgt n i => exact ptgt n i
  | ptgtr n a => exact ptgtr n a
  | xfer o => exact xfer o
  | xcall o => exact xcall o
  | fset f => exact fset f
  | fclr f => exact fclr f
  | ftgl f => exact ftgl f
  | ftest d f => exact ftest d f
  | fmov d f => exact fmov d f
  | fwait v f => exact fwait v f
  | fwaita f => exact fwaita f
  | fsetReg o => exact fsetReg o
  | fclrReg o => exact fclrReg o
  | ftglReg o => exact ftglReg o
  | ftestReg o => exact ftestReg o
  | fmovReg o => exact fmovReg o
  | fwaitReg v o => exact fwaitReg v o
  | fwaitaReg o => exact fwaitaReg o
  | qput a q => exact qput a q
  | qputToken q => exact qputToken q
  | qget d q => exact qget d q
  | qpeek d q => exact qpeek d q
  | qcnt d q => exact qcnt d q
  | ld o => exact ld o
  | ldz o => exact ldz o
  | st o => exact st o
  | ldnc o => exact ldnc o
  | ldsl o => exact ldsl o
  | stsl o => exact stsl o
  | atom o => exact atom o
  | acas o => exact acas o
  | aagg o => exact aagg o
  | rcsnap o => exact rcsnap o
  | fenceAcq s => exact fenceAcq s
  | fenceRel s => exact fenceRel s
  | fenceAr s => exact fenceAr s
  | fenceSc s => exact fenceSc s
  | fenceInv s => exact fenceInv s
  | push o => exact push o
  | strip o => exact strip o
  | cwait o => exact cwait o
  | meet o => exact meet o
  | launch o => exact launch o
  | launchw o => exact launchw o
  | ringacq o => exact ringacq o
  | ringrel o => exact ringrel o
  | mfs d r => exact mfs d r
  | mts a r => exact mts a r
  | colQput o => exact colQput o
  | colQget o => exact colQget o
  | colFset o => exact colFset o
  | colFclr o => exact colFclr o
  | colFwait o => exact colFwait o
  | nopg o => exact nopg o
  | vadd o => exact vadd o
  | vsub o => exact vsub o
  | vmul o => exact vmul o
  | vmin o => exact vmin o
  | vmax o => exact vmax o
  | vabs o => exact vabs o
  | vneg o => exact vneg o
  | vcpsgn o => exact vcpsgn o
  | vfma o => exact vfma o
  | vfms o => exact vfms o
  | vfnma o => exact vfnma o
  | vexp2 o => exact vexp2 o
  | vlog2 o => exact vlog2 o
  | vrcp o => exact vrcp o
  | vrsq o => exact vrsq o
  | vsqrt o => exact vsqrt o
  | vsigm o => exact vsigm o
  | viadd o => exact viadd o
  | visub o => exact visub o
  | vimul o => exact vimul o
  | vimin o => exact vimin o
  | vimax o => exact vimax o
  | viminz o => exact viminz o
  | vimaxz o => exact vimaxz o
  | vand o => exact vand o
  | vor o => exact vor o
  | vxor o => exact vxor o
  | vshl o => exact vshl o
  | vshr o => exact vshr o
  | vsra o => exact vsra o
  | vpopc o => exact vpopc o
  | vbxt o => exact vbxt o
  | vbxz o => exact vbxz o
  | vbins o => exact vbins o
  | vfshl o => exact vfshl o
  | vfshr o => exact vfshr o
  | vcmp o => exact vcmp o
  | vsel o => exact vsel o
  | vrsum o => exact vrsum o
  | vrmax o => exact vrmax o
  | vrmin o => exact vrmin o
  | vcsum o => exact vcsum o
  | vcmax o => exact vcmax o
  | vany o => exact vany o
  | vall o => exact vall o
  | vperm o => exact vperm o
  | vtrn o => exact vtrn o
  | vbcast o => exact vbcast o
  | vrot o => exact vrot o
  | vcvt o => exact vcvt o
  | vquant o => exact vquant o
  | vdeq o => exact vdeq o
  | vmov o => exact vmov o
  | vldi o => exact vldi o
  | vshape o => exact vshape o
  | mand o => exact mand o
  | mor o => exact mor o
  | mxor o => exact mxor o
  | mnot o => exact mnot o
  | mrange o => exact mrange o
  | mma o => exact mma o
  | mmas o => exact mmas o
  | mmag o => exact mmag o
  | mzero o => exact mzero o
  | mclose o => exact mclose o
  | mwake gap => exact mwake gap
  | mopen o => exact mopen o
  | mshut o => exact mshut o
  | smxstep o => exact smxstep o
  | smxfin o => exact smxfin o
  | smxmerge o => exact smxmerge o
  | mstget o => exact mstget o
  | mstset o => exact mstset o
  | macc2v o => exact macc2v o
  | mv2acc o => exact mv2acc o
  | madh o => exact madh o
  | ldt o => exact ldt o
  | ldtu o => exact ldtu o
  | tld o => exact tld o
  | vld o => exact vld o
  | gld o => exact gld o
  | bfx o => exact bfx o
  | eadd o => exact eadd o
  | eset o => exact eset o
  | emov o => exact emov o
  | kvx o => exact kvx o
  | wld o => exact wld o
  | stt o => exact stt o
  | sttu o => exact sttu o
  | twr o => exact twr o
  | vst o => exact vst o
  | sct o => exact sct o
  | acst o => exact acst o
  | nop => exact nop
  | eret => exact eret
  | yieldGang => exact yieldGang
  | exit => exact exit
  | brk => exact brk
  | _ => exact fun _ stream => nomatch stream

/-! ### Fields side by side are the word -/

@[simp] theorem toNat_fld (n lo len : Nat) : (fld n lo len).toNat = fldN n lo len := by simp [fld, fldN]

@[simp] theorem fldN_zero (n k : Nat) : fldN n k 0 = 0 := by simp [fldN, Nat.mod_one]

theorem fldN_of_lt {n len : Nat} (h : n < 2 ^ len) : fldN n 0 len = n := by rw [fldN, Nat.pow_zero, Nat.div_one, Nat.mod_eq_of_lt h]

/-- A field is as its lower part where its upper part is 0: the reserved bits above an operand. -/
theorem fldN_eq_narrower {n k len low : Nat} (h : low < len) : fldN n k len = fldN n k low ↔ fldN n (k + low) (len - low) = 0 := by
  obtain ⟨high, rfl⟩ := Nat.exists_eq_add_of_le (Nat.le_of_lt h)
  have nonzero : 2 ^ low ≠ 0 := Nat.ne_of_gt (Nat.two_pow_pos low)
  rw [fldN_split, Nat.add_eq_right, Nat.add_sub_cancel_left, Nat.mul_eq_zero, or_iff_left nonzero]

/-- Each value of a list of fields is what `n` holds from the field's lowest bit up to the field before it, and below the last field `n` holds 0. -/
def LaidIn (n : Nat) : Nat → List (Nat × Nat) → Prop
  | hi, [] => fldN n 0 hi = 0
  | hi, (lo, v) :: rest => lo ≤ hi ∧ fldN n lo (hi - lo) = v ∧ LaidIn n lo rest

theorem pack_of_laidIn {n : Nat} : ∀ {l hi}, LaidIn n hi l → pack l = fldN n 0 hi
  | [], _, zero => zero.symm
  | (lo, v) :: rest, hi, ⟨le, top, below⟩ => by
    obtain ⟨len, rfl⟩ := Nat.exists_eq_add_of_le le
    rw [fldN_split, pack, pack_of_laidIn below, Nat.zero_add, ← top, Nat.add_sub_cancel_left]

/-! ### What the opcode maps read is encoded by the word read -/

/-- If `d` is an instruction, it belongs to the stream and `n` is its encoding. -/
def Reads (st : Stream) (n : Nat) (d : Decoded) : Prop := ∀ i, d = .ok i → streamOf i = some st ∧ encodeNat i = n

theorem reads_error {st : Stream} {n : Nat} {r : Reject} : Reads st n (.error r) := fun _ h => nomatch h

theorem reads_ok {st : Stream} {n : Nat} {i : Instr} {l : List (Nat × Nat)} (lt : n < 2 ^ 32) (stream : streamOf i = some st) (fields : encodeNat i = pack l)
    (laid : LaidIn n 32 l) : Reads st n (.ok i) := by
  rintro _ ⟨⟩
  exact ⟨stream, by rw [fields, pack_of_laidIn laid, fldN_of_lt lt]⟩

/-- A branch of a map may use the fields that it tests; the later branches do not need that the test fails. -/
theorem reads_branch {st : Stream} {n : Nat} {p : Prop} [Decidable p] {d e : Decoded} (taken : p → Reads st n d) (other : Reads st n e) :
    Reads st n (if p then d else e) := by
  split
  · exact taken ‹p›
  · exact other

/-! Each map is taken apart into its majors, each major into its branches. A branch that answers an instruction knows the major and the fields it has
tested, and so lays that instruction's fields over the whole word. -/

theorem reads_rawCommon {n : Nat} (lt : n < 2 ^ 32) (c : Col) : Reads (.col c) n (rawCommon c n) := by
  unfold rawCommon
  split
  case h_4 => exact reads_error
  all_goals simp only [decCommon3c, decCommon3d, decCommon3e]
  all_goals repeat' refine reads_branch (fun _ => ?_) ?_
  any_goals exact reads_error
  all_goals exact reads_ok lt rfl rfl (by simp [LaidIn, fldN_eq_narrower, *])

theorem reads_rawS {n : Nat} (lt : n < 2 ^ 32) : Reads .s n (rawS n) := by
  unfold rawS
  split
  case h_43 => exact reads_error
  all_goals simp only [decS00, decS01, decS02, decS03, decS04, decS05, decS06, decS07, decS08, decS09, decS0a, decS0b, decS0c, decS0d, decS0e, decS10,
    decS11, decS12, decS13, decS14, decS15, decS18, decS1a, decS20, decS21, decS22, decS23, decS24, decS25, decS28, decS29, decS2a, decS2b, decS2c,
    decS30, decS31, decS32, decS34, decS35, decS36, decS3c, decS3d]
  all_goals repeat' refine reads_branch (fun _ => ?_) ?_
  any_goals exact reads_error
  all_goals exact reads_ok lt rfl rfl (by simp [LaidIn, fldN_eq_narrower, *])

theorem reads_rawL {n : Nat} (lt : n < 2 ^ 32) : Reads (.col .colL) n (rawL n) := by
  unfold rawL
  split
  case h_10 => exact reads_rawCommon lt .colL
  all_goals simp only [decL01, decL02, decL03, decL04, decL05, decL06, decE, decL08, decL09]
  all_goals repeat' refine reads_branch (fun _ => ?_) ?_
  any_goals exact reads_error
  all_goals exact reads_ok lt rfl rfl (by simp [LaidIn, fldN_eq_narrower, *])

theorem reads_rawC {n : Nat} (lt : n < 2 ^ 32) : Reads (.col .colC) n (rawC n) := by
  unfold rawC
  split
  case h_26 => exact reads_rawCommon lt .colC
  all_goals simp only [decC01, decC02, decC03, decC04, decC05, decC06, decC07, decC08, decC09, decC0a, decC0b, decC0c, decC0d, decC0e, decC0f, decC20,
    decC21, decC22, decC23, decC24, decC25, decC26, decC27, decC28, decC29]
  all_goals repeat' refine reads_branch (fun _ => ?_) ?_
  any_goals exact reads_error
  all_goals exact reads_ok lt rfl rfl (by simp [LaidIn, fldN_eq_narrower, *])

theorem reads_rawW {n : Nat} (lt : n < 2 ^ 32) : Reads (.col .colW) n (rawW n) := by
  unfold rawW
  split
  case h_8 => exact reads_rawCommon lt .colW
  all_goals simp only [decW01, decW02, decW03, decW04, decW05, decW06, decE]
  all_goals repeat' refine reads_branch (fun _ => ?_) ?_
  any_goals exact reads_error
  all_goals exact reads_ok lt rfl rfl (by simp [LaidIn, fldN_eq_narrower, *])

theorem reads_rawOf {n : Nat} (lt : n < 2 ^ 32) : ∀ st, Reads st n (rawOf st n)
  | .s => reads_rawS lt
  | .col .colL => reads_rawL lt
  | .col .colC => reads_rawC lt
  | .col .colW => reads_rawW lt

theorem of_checked_eq_ok {d : Decoded} {i : Instr} (h : checked d = .ok i) : d = .ok i ∧ reject? i = none := by
  unfold checked at h
  split at h
  · cases h
  · split at h
    · cases h
    · cases h
      exact ⟨rfl, ‹_›⟩

theorem of_decode_eq_ok {st : Stream} {w : Word} {i : Instr} (h : decode st w = .ok i) : rawOf st w.toNat = .ok i ∧ reject? i = none := by
  unfold decode at h
  split at h
  · cases h
  · exact of_checked_eq_ok h

end Sys2Proof.Laws.RoundTrip

namespace Sys2Proof.Machine

/-! ### The common words of a column (11_isa_formats R338, 13_isa_vector R392) -/

theorem colNextAfter_eq_passed (c : Col) (n : Nat) (s : State) : colNextAfter c n s = modCore (passed c (cyc s + n)) s := rfl

theorem colCompletes_of_next {i : Instr} {s : State} {c : Col} {f : State → State} (runs : exec i s = .next (colNext c (f s))) (clock : cyc (f s) = cyc s) :
    ColCompletes i s c 0 f := by
  rw [ColCompletes, runs, colNext, colNextAfter_eq_passed, clock]

theorem cyc_pinGroup (n g : Nat) (s : State) : cyc (pinGroup n g s) = cyc s :=
  foldl_keeps (p := cyc) (f := takeReader _) (fun _ _ => rfl) _ s

theorem cyc_getHandle (o : CQ) (x : Dword) (s : State) : cyc (getHandle o x s) = cyc s := by
  simp only [getHandle, post, cyc_modCore, cyc_pinGroup]

theorem ctxOpen_of_closed {s : State} {x : SideCtx} (shut : x.isOpen = false) (closed : x.closing = 0 ∨ x.closing < cyc s) : ctxOpen s x = false := by
  have notClosing : ¬ (cyc s ≤ x.closing ∧ x.closing ≠ 0) := fun ⟨le, busy⟩ => closed.elim busy (Nat.not_lt.mpr le)
  rw [ctxOpen, shut, Bool.false_or, ← Bool.decide_and, decide_eq_false notClosing]

/-- FWAIT completes exactly where the flag is seen with the awaited value. -/
theorem execColFwait_eq (o : CFW) (s : State) :
    execColFwait o s = if flagSeen s.core o.f.toNat = decide (o.v = 1) then .next (colNext o.col (if o.v = 1 then joinFlag o.f.toNat s else s))
      else .next (colBlock o.col s) := by
  have same : ((flagSeen s.core o.f.toNat = true) = (o.v = 1)) = (flagSeen s.core o.f.toNat = decide (o.v = 1)) := by
    rw [Bool.eq_iff_iff (b := decide (o.v = 1)), decide_eq_true_eq]
    exact propext eq_iff_iff
  simp only [execColFwait, same]

theorem colCompletes_colFwait {o : CFW} {s : State} (seen : flagSeen s.core o.f.toNat = decide (o.v = 1)) :
    ColCompletes (.colFwait o) s o.col 0 fun s => if o.v = 1 then joinFlag o.f.toNat s else s := by
  refine colCompletes_of_next ?_ ?_
  · show execColFwait o s = _
    rw [execColFwait_eq, if_pos seen]
  · split <;> rfl

theorem colWaits_colFwait {o : CFW} {s : State} (unseen : flagSeen s.core o.f.toNat ≠ decide (o.v = 1)) : ColWaits (.colFwait o) s o.col := by
  show execColFwait o s = _
  rw [execColFwait_eq, if_neg unseen]
  rfl

theorem vReady_of_idle {s : State} {n : BitVec 5} (idle : VIdle s n) : vReady s n = .ok (readV s n) := by
  obtain ⟨whole, free⟩ := idle
  simp [vReady, whole, free]

/-- The 64 bits at the bottom of a number replaced: its other bits stay. -/
theorem getLsbD_ofNat_low_replaced {w : Nat} (d : BitVec w) (x : Dword) {i : Nat} (h : i < w) :
    (BitVec.ofNat w (d.toNat - d.toNat % 2 ^ 64 + x.toNat)).getLsbD i = if i < 64 then x.getLsbD i else d.getLsbD i := by
  have high : d.toNat - d.toNat % 2 ^ 64 = 2 ^ 64 * (d.toNat / 2 ^ 64) := by omega
  rw [high, BitVec.getLsbD_ofNat, decide_eq_true h, Bool.true_and, Nat.testBit_two_pow_mul_add _ x.isLt]
  split
  · rfl
  · rw [Nat.testBit_div_two_pow, Nat.sub_add_cancel (by omega)]
    rfl

section
variable {o : CQ} {s : State}

theorem colWaits_colQput (full : queueHasRoom (readQ s o.q) (cyc s) = false) : ColWaits (.colQput o) s o.col := by
  show execColQput o s = _
  rw [execColQput, full]
  rfl

theorem colCompletes_colQput {e : QEntry} (room : queueHasRoom (readQ s o.q) (cyc s) = true) (put : putEntry o s = .ok e) :
    ColCompletes (.colQput o) s o.col 0 (writeQ o.q (queuePush (readQ s o.q) e)) := by
  refine colCompletes_of_next ?_ rfl
  show execColQput o s = _
  rw [execColQput, room, put]
  rfl

theorem colWaits_colQget (empty : queueReadable (readQ s o.q) (cyc s) = []) : ColWaits (.colQget o) s o.col := by
  show execColQget o s = _
  rw [execColQget, empty]
  rfl

variable {e : QEntry} {rest : List QEntry} (head : queueReadable (readQ s o.q) (cyc s) = e :: rest)
include head

/-- A QGET whose head does `f` does `f` and takes the head. -/
theorem colCompletes_colQget {f : State → State} (get : getEntry o e s = .ok (f s)) (clock : cyc (f s) = cyc s) :
    ColCompletes (.colQget o) s o.col 0 fun u => writeQ o.q (queuePop (readQ s o.q) (cyc s)) (f u) := by
  refine colCompletes_of_next ?_ clock
  show execColQget o s = _
  simp only [execColQget, head, get]
  rfl

theorem colTraps_colQget {t : Trap} (get : getEntry o e s = .error t) : ColTraps (.colQget o) s o.col t := by
  show execColQget o s = _
  simp only [execColQget, head, get]
  rfl

end

/-! What a QPUT appends and what a QGET does with its head, by the class of the payload register. -/

section
variable {o : CQ} {s : State}

theorem putEntry_of_token (c : selClass o = 0) : putEntry o s = .ok ⟨0, true, false, cyc s⟩ := by
  simp only [putEntry, c]

theorem putEntry_of_e (c : selClass o = 1) : putEntry o s = .ok ⟨(readE s (selE o)).tag ++ (readE s (selE o)).addr, false, false, cyc s⟩ := by
  simp only [putEntry, c, eWord]

theorem putEntry_of_v (c : selClass o = 2) (idle : VIdle s (selV o)) :
    putEntry o s = .ok ⟨BitVec.ofNat 64 (readV s (selV o)).data.toNat, false, (readV s (selV o)).poison, cyc s⟩ := by
  simp only [putEntry, c, vReady_of_idle idle]
  rfl

theorem putEntry_of_ah (c : selClass o = 3) :
    putEntry o s = .ok ⟨BitVec.ofNat 64 ((readAh s (selAh o)).handles.toList.getD (selElem o) 0).toNat, false, false, cyc s⟩ := by
  simp only [putEntry, c, BitVec.ofNat_toNat]

variable {e : QEntry}

theorem getEntry_of_none (c : selClass o = 0) : getEntry o e s = .ok s := by
  simp only [getEntry, c]

theorem getEntry_of_e (c : selClass o = 1) (clean : e.poison = false) :
    let x : Dword := if e.token then 0 else e.payload
    getEntry o e s = .ok (writeE (selE o) { readE s (selE o) with addr := x.extractLsb' 0 48, tag := x.extractLsb' 48 16 } s) := by
  simp only [getEntry, c, clean]
  rfl

theorem getEntry_of_poisoned_e (c : selClass o = 1) (poisoned : e.poison = true) : getEntry o e s = .error (trapOf .poison) := by
  simp only [getEntry, c, poisoned]
  rfl

theorem getEntry_of_v (c : selClass o = 2) (idle : VIdle s (selV o)) :
    let r := readV s (selV o)
    let x : Dword := if e.token then 0 else e.payload
    getEntry o e s = .ok (post (cyc s) (colOrder o.col) (.vWrite (selV o) (BitVec.ofNat 65536 (r.data.toNat - r.data.toNat % 2 ^ 64 + x.toNat))
      r.tag r.rows r.cols (r.poison || e.poison) false) s) := by
  simp only [getEntry, c, vReady_of_idle idle]
  rfl

theorem getEntry_of_ah (c : selClass o = 3) (shut : ctxOpen s (readA s (selAh o)).ctx = false) (clean : e.poison = false) :
    getEntry o e s = .ok (getHandle o (if e.token then 0 else e.payload) s) := by
  simp only [getEntry, c, shut, clean]
  rfl

theorem getEntry_of_open_ah (c : selClass o = 3) (isOpen : (readA s (selAh o)).ctx.isOpen = true) : getEntry o e s = .error (trapOf .illegal) := by
  simp only [getEntry, c, ctxOpen, isOpen]
  rfl

end

end Sys2Proof.Machine

namespace Sys2Proof.Proofs

open Sys2Proof.Machine Sys2Proof.Laws.RoundTrip

/-- Settles O4: the round trip of every constructor. -/
theorem decodeAfterEncode : Obligations.DecodeAfterEncode := by
  unfold Obligations.DecodeAfterEncode
  exact fun st i => decode_encode i st

/-- Settles O5: a word that the stream's opcode map reads is the word that the fields read make up. -/
theorem encodeAfterDecode : Obligations.EncodeAfterDecode := by
  unfold Obligations.EncodeAfterDecode
  intro st w i decoded
  obtain ⟨read, wellFormed⟩ := of_decode_eq_ok decoded
  obtain ⟨stream, word⟩ := reads_rawOf w.isLt st i read
  refine ⟨stream, wellFormed, ?_⟩
  rw [encode, word, BitVec.ofNat_toNat, BitVec.setWidth_eq]

/-- Settles O31, word by word, QPUT and QGET by the class of their payload register. -/
theorem commonColumnWords : Obligations.CommonColumnWords := by
  unfold Obligations.CommonColumnWords
  intro s c
  refine ⟨fun o _ => ?qput, fun o _ => ?qget, fun o => ⟨rfl, rfl⟩, fun o => ⟨colCompletes_colFwait, colWaits_colFwait⟩, fun o => rfl⟩
  case qput =>
    exact ⟨fun full => colWaits_colQput (decide_eq_false full),
      fun room token => colCompletes_colQput (decide_eq_true room) (putEntry_of_token token),
      fun room e => colCompletes_colQput (decide_eq_true room) (putEntry_of_e e),
      fun room v idle => colCompletes_colQput (decide_eq_true room) (putEntry_of_v v idle),
      fun room ah => colCompletes_colQput (decide_eq_true room) (putEntry_of_ah ah)⟩
  case qget =>
    refine ⟨colWaits_colQget, fun e rest head => ⟨fun none => ?_, fun toE clean => ?_, fun toE poisoned => ?_, fun toV idle => ?_,
      fun toAh shut closed clean => ?_, fun toAh isOpen => ?_⟩⟩
    · exact colCompletes_colQget (f := id) head (getEntry_of_none none) rfl
    · exact colCompletes_colQget head (getEntry_of_e toE clean) rfl
    · exact colTraps_colQget head (getEntry_of_poisoned_e toE poisoned)
    · exact ⟨_, fun i h => getLsbD_ofNat_low_replaced _ _ h, colCompletes_colQget head (getEntry_of_v toV idle) rfl⟩
    · exact colCompletes_colQget head (getEntry_of_ah toAh (ctxOpen_of_closed shut closed) clean) (cyc_getHandle ..)
    · exact colTraps_colQget head (getEntry_of_open_ah toAh isOpen)

/-- Settles O6: the decoder run on each word. -/
theorem sampleDecodings : Obligations.SampleDecodings := by
  unfold Obligations.SampleDecodings
  decide

end Sys2Proof.Proofs

namespace Sys2Proof.Laws.RoundTrip

/-! ### A number that the encoder lays out is the word of its instruction -/

theorem decode_of_encodeNat {st : Stream} {i : Instr} {n : Nat} (stream : streamOf i = some st) (wellFormed : reject? i = none) (word : encodeNat i = n) :
    decode st (BitVec.ofNat 32 n) = .ok i :=
  word ▸ decode_encode i st stream wellFormed

end Sys2Proof.Laws.RoundTrip

namespace Sys2Proof.Machine

/-! ### A result of the S stream under another name (12_isa_scalar R347) -/

theorem writesG_of_eq {i : Instr} {s : State} {d : GReg} {x y : Dword} {lat : Nat} (runs : exec i s = aluEnd d x lat s) (value : x = y) :
    WritesG i s d y lat :=
  value ▸ writesG_of_aluEnd runs

/-! ### The results of R352 as numbers modulo 2^64 -/

theorem divSigned_eq (x y : Dword) :
    divSigned x y = BitVec.ofInt 64 (if y = 0 then -1 else if x.toInt = -2 ^ 63 ∧ y.toInt = -1 then -2 ^ 63 else x.toInt.tdiv y.toInt) := by
  unfold divSigned
  split
  · rfl
  · split
    · rename_i overflow
      rw [overflow.1, overflow.2]
      rfl
    · rfl

theorem divUnsigned_eq (x y : Dword) : divUnsigned x y = BitVec.ofNat 64 (if y = 0 then 2 ^ 64 - 1 else x.toNat / y.toNat) := by
  unfold divUnsigned
  split <;> rfl

theorem remSigned_eq (x y : Dword) :
    remSigned x y = BitVec.ofInt 64 (if y = 0 then x.toInt else if x.toInt = -2 ^ 63 ∧ y.toInt = -1 then 0 else x.toInt.tmod y.toInt) := by
  unfold remSigned
  split
  · exact BitVec.ofInt_toInt.symm
  · split
    · rename_i overflow
      rw [overflow.1, overflow.2]
      rfl
    · rfl

theorem remUnsigned_eq (x y : Dword) : remUnsigned x y = BitVec.ofNat 64 (if y = 0 then x.toNat else x.toNat % y.toNat) := by
  unfold remUnsigned
  split
  · simp
  · rfl

theorem add_eq_ofNat (x y : Dword) : x + y = BitVec.ofNat 64 (x.toNat + y.toNat) := by
  simp [BitVec.ofNat_add]

theorem sub_eq_ofInt (x y : Dword) : x - y = BitVec.ofInt 64 ((x.toNat : Int) - y.toNat) := by
  simp only [Int.sub_eq_add_neg, BitVec.ofInt_add, BitVec.ofInt_neg, BitVec.ofInt_natCast, BitVec.ofNat_toNat, BitVec.setWidth_eq, BitVec.sub_eq_add_neg]

theorem mul_eq_ofInt (x y : Dword) : x * y = BitVec.ofInt 64 (x.toInt * y.toInt) := by
  rw [BitVec.ofInt_mul, BitVec.ofInt_toInt, BitVec.ofInt_toInt]

theorem shiftLeft_eq_ofNat (x : Dword) (n : Nat) : x <<< n = BitVec.ofNat 64 (x.toNat * 2 ^ n) :=
  BitVec.eq_of_toNat_eq (by rw [BitVec.toNat_shiftLeft, BitVec.toNat_ofNat, Nat.shiftLeft_eq])

theorem ushiftRight_eq_ofNat (x : Dword) (n : Nat) : x >>> n = BitVec.ofNat 64 (x.toNat / 2 ^ n) := by
  rw [← Nat.shiftRight_eq_div_pow, ← BitVec.toNat_ushiftRight, BitVec.ofNat_toNat, BitVec.setWidth_eq]

theorem sshiftRight_eq_ofInt (x : Dword) (n : Nat) : x.sshiftRight n = BitVec.ofInt 64 (x.toInt / 2 ^ n) := by
  rw [← BitVec.ofInt_toInt (x := x.sshiftRight n), BitVec.toInt_sshiftRight, Int.shiftRight_eq_div_pow]
  rfl

theorem ofInt_ite (c : Prop) [Decidable c] (x y : Dword) : BitVec.ofInt 64 (if c then x.toInt else y.toInt) = if c then x else y := by
  split <;> exact BitVec.ofInt_toInt

theorem ofNat_ite (c : Prop) [Decidable c] (x y : Dword) : BitVec.ofNat 64 (if c then x.toNat else y.toNat) = if c then x else y := by
  split <;> simp

/-! ### Counts of bits (R352) -/

theorem countLeading_zero (n : Nat) : countLeading n 0 = n := by
  induction n with
  | zero => rfl
  | succ n ih => simp [countLeading, ih, Nat.add_comm]

theorem countLeading_eq {n x : Nat} (lt : x < 2 ^ n) (nonzero : x ≠ 0) : countLeading n x = n - 1 - x.log2 := by
  induction n with
  | zero => omega
  | succ n ih =>
    rw [countLeading]
    split
    · rename_i top
      have ge := Nat.ge_two_pow_of_testBit top
      rw [(Nat.log2_eq_iff nonzero).mpr ⟨ge, lt⟩]
      omega
    · rename_i top
      have below : x < 2 ^ n := by
        by_contra ge
        exact top (Nat.testBit_of_two_pow_le_and_two_pow_add_one_gt (not_lt.mp ge) lt)
      have log := (Nat.log2_lt nonzero).mpr below
      rw [ih below]
      omega

theorem countTrailing_eq {n k x : Nat} (lt : k < n) (one : x.testBit k = true) (zeros : ∀ i, i < k → x.testBit i = false) : countTrailing n x = k := by
  induction n generalizing k x with
  | zero => omega
  | succ n ih =>
    rw [countTrailing]
    cases k with
    | zero => rw [if_pos (by simpa [Nat.testBit_zero] using one)]
    | succ k =>
      have even : ¬ x % 2 = 1 := by simpa [Nat.testBit_zero] using zeros 0 (Nat.succ_pos k)
      rw [if_neg even, ih (Nat.lt_of_succ_lt_succ lt) (by rwa [← Nat.testBit_succ]) fun i h => by rw [← Nat.testBit_succ]; exact zeros _ (Nat.succ_lt_succ h)]
      exact Nat.add_comm 1 k

theorem countTrailing_zero (n : Nat) : countTrailing n 0 = n := by
  induction n with
  | zero => rfl
  | succ n ih => simp [countTrailing, ih, Nat.add_comm]

theorem countOnes_eq (n x : Nat) : countOnes n x = ((List.range n).filter fun i => x.testBit i).length := by
  induction n generalizing x with
  | zero => rfl
  | succ n ih =>
    rw [countOnes, ih, List.range_succ_eq_map, List.filter_cons, List.filter_map, Nat.testBit_zero]
    simp only [Function.comp_def, Nat.testBit_succ, decide_eq_true_eq]
    split
    · simp only [List.length_cons, List.length_map]
      omega
    · simp only [List.length_map]
      omega

end Sys2Proof.Machine

namespace Sys2Proof.Proofs

open Sys2Proof.Machine Sys2Proof.Laws.RoundTrip

/-- Settles O9, form by form: the value of each is a number modulo 2^64, and each word is the one that the encoder lays out. -/
theorem arithmeticResults : Obligations.ArithmeticResults := by
  unfold Obligations.ArithmeticResults
  refine ⟨fun s o => ⟨?_, ?_, ?_, ?_, ?_, ?_, ?_, ?_, ?_, ?_, ?_, ?_, ?_, ?_, ?_, ?_, ?_, ?_, ?_, ?words⟩, fun s o => ⟨?clz, ?ctzZero, ?ctz, ?popc, ?words2⟩⟩
  · exact writesG_of_eq rfl (add_eq_ofNat _ _)
  · exact writesG_of_eq rfl (sub_eq_ofInt _ _)
  · exact writesG_of_eq rfl (mul_eq_ofInt _ _)
  · exact writesG_of_aluEnd rfl
  · exact writesG_of_aluEnd rfl
  · exact writesG_of_eq rfl (divSigned_eq _ _)
  · exact writesG_of_eq rfl (divUnsigned_eq _ _)
  · exact writesG_of_eq rfl (remSigned_eq _ _)
  · exact writesG_of_eq rfl (remUnsigned_eq _ _)
  · exact writesG_of_aluEnd rfl
  · exact writesG_of_aluEnd rfl
  · exact writesG_of_aluEnd rfl
  · exact writesG_of_eq rfl (shiftLeft_eq_ofNat _ _)
  · exact writesG_of_eq rfl (ushiftRight_eq_ofNat _ _)
  · exact writesG_of_eq rfl (sshiftRight_eq_ofInt _ _)
  · exact writesG_of_eq rfl (ofInt_ite _ _ _).symm
  · exact writesG_of_eq rfl (ofInt_ite _ _ _).symm
  · exact writesG_of_eq rfl (ofNat_ite _ _ _).symm
  · exact writesG_of_eq rfl (ofNat_ite _ _ _).symm
  case words =>
    intro p mem
    fin_cases mem <;> exact decode_of_encodeNat rfl rfl (by simp only [encodeNat, pack]; omega)
  case clz =>
    refine writesG_of_eq rfl (congrArg (BitVec.ofNat 64) ?_)
    split
    · rename_i zero
      rw [zero]
      exact countLeading_zero 64
    · rename_i nonzero
      exact countLeading_eq (readG s o.a).isLt fun zero => nonzero (BitVec.eq_of_toNat_eq zero)
  case ctzZero =>
    intro zero
    exact writesG_of_eq rfl (by rw [zero]; rfl)
  case ctz =>
    intro n one zeros
    exact writesG_of_eq rfl (congrArg (BitVec.ofNat 64) (countTrailing_eq (BitVec.lt_of_getLsbD one) one zeros))
  case popc => exact writesG_of_eq rfl (congrArg (BitVec.ofNat 64) (countOnes_eq _ _))
  case words2 =>
    intro p mem
    fin_cases mem <;> exact decode_of_encodeNat rfl rfl (by simp only [encodeNat, pack]; omega)

end Sys2Proof.Proofs

namespace Sys2Proof.Machine

/-! ### The results of R353 and R354 as numbers modulo 2^64 -/

theorem add_ofInt_eq (x : Dword) (z : Int) : x + BitVec.ofInt 64 z = BitVec.ofInt 64 (x.toNat + z) := by
  rw [BitVec.ofInt_add, BitVec.ofInt_natCast, BitVec.ofNat_toNat, BitVec.setWidth_eq]

/-- An address of a word `i` words on (R353, R358). -/
theorem wordsOn_eq (pc : Dword) (i : BitVec 20) : pc + i.signExtend 64 * 4 = BitVec.ofInt 64 (pc.toNat + 4 * i.toInt) := by
  rw [← add_ofInt_eq, Int.mul_comm, BitVec.ofInt_mul]
  rfl

theorem append_eq_ofInt {a b : Nat} (wide : a ≠ 0) (x : BitVec a) (y : BitVec b) : x ++ y = BitVec.ofInt (a + b) (x.toInt * 2 ^ b + y.toNat) := by
  rw [← BitVec.ofInt_toInt (x := x ++ y), BitVec.toInt_append, if_neg (by simpa using wide), Int.mul_comm]

theorem toNat_append_eq {a b : Nat} (x : BitVec a) (y : BitVec b) : (x ++ y).toNat = x.toNat * 2 ^ b + y.toNat := by
  rw [BitVec.toNat_append, ← Nat.shiftLeft_add_eq_or_of_lt y.isLt, Nat.shiftLeft_eq]

theorem funnelLeft_eq (x y : Dword) (n : Nat) :
    ((x ++ y) <<< n).extractLsb' 64 64 = BitVec.ofNat 64 ((x.toNat * 2 ^ 64 + y.toNat) * 2 ^ n % 2 ^ 128 / 2 ^ 64) := by
  apply BitVec.eq_of_toNat_eq
  rw [BitVec.extractLsb'_toNat, BitVec.toNat_shiftLeft, toNat_append_eq, Nat.shiftLeft_eq, Nat.shiftRight_eq_div_pow, BitVec.toNat_ofNat]

theorem funnelRight_eq (x y : Dword) (n : Nat) : ((x ++ y) >>> n).extractLsb' 0 64 = BitVec.ofNat 64 ((x.toNat * 2 ^ 64 + y.toNat) / 2 ^ n) := by
  apply BitVec.eq_of_toNat_eq
  rw [BitVec.extractLsb'_toNat, BitVec.toNat_ushiftRight, toNat_append_eq, Nat.shiftRight_zero, Nat.shiftRight_eq_div_pow, BitVec.toNat_ofNat]

/-! ### Bit fields (R355) -/

theorem fieldOf_lt (x o w : Nat) : fieldOf x o w < 2 ^ w := Nat.mod_lt _ (Nat.two_pow_pos w)

theorem bitExtract_eq (x : Dword) (o w : Nat) :
    let f := x.toNat / 2 ^ o % 2 ^ w
    bitExtract x o w = BitVec.ofInt 64 (if f < 2 ^ (w - 1) then (f : Int) else (f : Int) - 2 ^ w) := by
  simp [bitExtract, sNat, fieldOf]

/-- A number taken apart at a field: the bits above it, the field, and the bits below it. -/
theorem eq_parts (x o w : Nat) : x = 2 ^ o * (2 ^ w * (x / 2 ^ (o + w)) + fieldOf x o w) + x % 2 ^ o := by
  rw [fieldOf, Nat.pow_add, ← Nat.div_div_eq_div_mul, Nat.div_add_mod, Nat.div_add_mod]

theorem fieldPut_eq_parts (x y o w : Nat) : fieldPut x y o w = 2 ^ o * (2 ^ w * (x / 2 ^ (o + w)) + y % 2 ^ w) + x % 2 ^ o := by
  have parts := eq_parts x o w
  simp only [fieldPut, Nat.mul_add, Nat.mul_comm _ (2 ^ o)] at parts ⊢
  omega

theorem testBit_parts (o w : Nat) (high : Nat) {mid low : Nat} (mid_lt : mid < 2 ^ w) (low_lt : low < 2 ^ o) (i : Nat) :
    (2 ^ o * (2 ^ w * high + mid) + low).testBit i =
      if i < o then low.testBit i else if i < o + w then mid.testBit (i - o) else high.testBit (i - o - w) := by
  rw [Nat.testBit_two_pow_mul_add _ low_lt, Nat.testBit_two_pow_mul_add _ mid_lt]
  split
  · rfl
  · simp only [show i - o < w ↔ i < o + w by omega]

theorem testBit_fieldPut (x y o w i : Nat) : (fieldPut x y o w).testBit i = if o ≤ i ∧ i < o + w then y.testBit (i - o) else x.testBit i := by
  have mod_lt (n k : Nat) : n % 2 ^ k < 2 ^ k := Nat.mod_lt _ (Nat.two_pow_pos k)
  conv => rhs; rw [eq_parts x o w]
  rw [fieldPut_eq_parts, testBit_parts o w _ (mod_lt y w) (mod_lt x o), testBit_parts o w _ (fieldOf_lt x o w) (mod_lt x o)]
  by_cases below : i < o
  · simp [below, Nat.not_le.mpr below]
  · by_cases inside : i < o + w
    · have place : i - o < w := by omega
      simp [below, inside, Nat.not_lt.mp below, place]
    · simp [below, inside]

theorem getLsbD_bitInsert (x y : Dword) (o w : Nat) {i : Nat} (h : i < 64) :
    (bitInsert x y o w).getLsbD i = if o ≤ i ∧ i < o + w then y.getLsbD (i - o) else x.getLsbD i := by
  rw [bitInsert, BitVec.getLsbD_ofNat, decide_eq_true h, Bool.true_and, testBit_fieldPut]
  rfl

section
variable {o : RBf} {s : State} (f : Dword → Dword → Nat → Nat → Dword)

theorem bitFormI_of_fits (fits : o.o.toNat + (o.w.toNat + 1) ≤ 64) :
    bitFormI f o s = aluEnd o.d (f (readG s o.d) (readG s o.a) o.o.toNat (o.w.toNat + 1)) 1 s :=
  if_neg (Nat.not_lt.mpr fits)

theorem bitFormI_of_beyond (beyond : 64 < o.o.toNat + (o.w.toNat + 1)) : bitFormI f o s = .next (sTrap .illegal 0 s) := if_pos beyond

end

end Sys2Proof.Machine

namespace Sys2Proof.Proofs

open Sys2Proof.Machine

/-- Settles O10, form by form: each value is a number modulo 2^64, and BINS is read bit by bit. -/
theorem immediateAndFieldResults : Obligations.ImmediateAndFieldResults := by
  unfold Obligations.ImmediateAndFieldResults
  refine ⟨fun s => ⟨fun o => ⟨?addi, ?andi, ?ori, ?xori⟩, fun o => ⟨?shli, ?shri, ?srai⟩, fun o => ⟨?li, ?lui, ?lhi, ?addpc⟩, fun o => ⟨?fshl, ?fshr⟩⟩,
    fun s => ⟨fun o => ⟨?bxz, ?bxt, ?bins⟩, fun o => ⟨fun fits => ⟨?bxzi, ?bxti, ?binsi⟩, fun beyond => ?illegal⟩⟩⟩
  case addi => exact writesG_of_eq rfl (add_ofInt_eq _ _)
  case andi => exact writesG_of_aluEnd rfl
  case ori => exact writesG_of_eq rfl (congrArg _ (BitVec.ofNat_toNat 64 o.imm).symm)
  case xori => exact writesG_of_eq rfl (congrArg _ (BitVec.ofNat_toNat 64 o.imm).symm)
  case shli => exact writesG_of_eq rfl (shiftLeft_eq_ofNat _ _)
  case shri => exact writesG_of_eq rfl (ushiftRight_eq_ofNat _ _)
  case srai => exact writesG_of_eq rfl (sshiftRight_eq_ofInt _ _)
  case li => exact writesG_of_aluEnd rfl
  case lui =>
    refine writesG_of_eq rfl ((append_eq_ofInt (by decide) _ _).trans ?_)
    rw [BitVec.toInt_signExtend_of_le (by decide), BitVec.extractLsb'_toNat, Nat.shiftRight_zero]
    rfl
  case lhi =>
    refine writesG_of_eq rfl ((append_eq_ofInt (by decide) _ _).trans ?_)
    rw [BitVec.toInt_signExtend_of_le (by decide), BitVec.extractLsb'_toNat, Nat.shiftRight_zero]
    rfl
  case addpc => exact writesG_of_eq rfl (wordsOn_eq _ _)
  case fshl => exact writesG_of_eq rfl (funnelLeft_eq _ _ _)
  case fshr => exact writesG_of_eq rfl (funnelRight_eq _ _ _)
  case bxz => exact writesG_of_aluEnd rfl
  case bxt => exact writesG_of_eq rfl (bitExtract_eq _ _ _)
  case bins => exact ⟨_, writesG_of_aluEnd rfl, fun i => getLsbD_bitInsert _ _ _ _⟩
  case bxzi => exact writesG_of_aluEnd (bitFormI_of_fits (fun _ x p w => bitExtractZ x p w) fits)
  case bxti => exact writesG_of_eq (bitFormI_of_fits (fun _ x p w => bitExtract x p w) fits) (bitExtract_eq _ _ _)
  case binsi => exact ⟨_, writesG_of_aluEnd (bitFormI_of_fits bitInsert fits), fun i => getLsbD_bitInsert _ _ _ _⟩
  case illegal =>
    exact ⟨bitFormI_of_beyond (fun _ x p w => bitExtractZ x p w) beyond, bitFormI_of_beyond (fun _ x p w => bitExtract x p w) beyond,
      bitFormI_of_beyond bitInsert beyond⟩

end Sys2Proof.Proofs

namespace Sys2Proof.Laws.RoundTrip

/-! ### The words of the compares: conditions 8 to 15 are no instruction (12_isa_scalar R356) -/

/-- The fields of a compare's word under a major opcode. -/
def compareFields (major : Nat) (o : RCmp) : List (Nat × Nat) := [(26, major), (22, o.c.toNat), (16, o.a.toNat), (10, o.b.toNat), (0, o.f.toNat)]

theorem pack_compareFields (major : Nat) (o : RCmp) :
    pack (compareFields major o) = major * 2 ^ 26 + o.c.toNat * 2 ^ 22 + o.a.toNat * 2 ^ 16 + o.b.toNat * 2 ^ 10 + o.f.toNat := by
  simp only [compareFields, pack]
  omega

theorem fits_compareFields {major : Nat} (h : major < 64) (o : RCmp) : Fits 32 (compareFields major o) :=
  ⟨by decide, h, by decide, o.c.isLt, by decide, o.a.isLt, by decide, o.b.isLt, by decide, o.f.isLt, trivial⟩

/-- A major whose words are read as compares has no instruction with a reserved condition. -/
theorem decode_compare_ne_ok {major : Nat} (lt : major < 64) {make : RCmp → Instr} (reads : ∀ {n}, fldN n 26 6 = major →
      rawOf .s n = .ok (make ⟨fld n 22 4, fld n 16 6, fld n 10 6, fld n 0 10⟩))
    (checks : ∀ x, reject? (make x) = rejectIf .condition (8 ≤ x.c.toNat)) {o : RCmp} (reserved : 8 ≤ o.c.toNat) (i : Instr) :
    decode .s (BitVec.ofNat 32 (pack (compareFields major o))) ≠ .ok i := by
  intro decoded
  have F := fits_compareFields lt o
  obtain ⟨read, wellFormed⟩ := of_decode_eq_ok decoded
  have opcode : fldN (pack (compareFields major o)) 26 6 = major := (fldN_pack F 26 6).trans (fldN_of_lt lt)
  have condition : fld (pack (compareFields major o)) 22 4 = o.c := fld_pack F (fldN_self o.c)
  rw [BitVec.toNat_ofNat, Nat.mod_eq_of_lt (pack_lt F), reads opcode] at read
  cases read
  rw [checks, condition, rejectIf, if_pos reserved] at wellFormed
  cases wellFormed

end Sys2Proof.Laws.RoundTrip

namespace Sys2Proof.Machine

/-! ### Flags outside the ring (06_core R181, R183) -/

theorem flagSeen_of_low {k : Core} {n : Nat} (low : n < 768) : flagSeen k n = k.flagsPrev.getLsbD n := by
  have outside : ringPlace k n = none := by simp [ringPlace, Nat.not_le.mpr low]
  rw [flagSeen, outside]
  rfl

end Sys2Proof.Machine

namespace Sys2Proof.Proofs

open Sys2Proof.Machine Sys2Proof.Laws.RoundTrip

/-- Settles O11: SEL chooses by a flag below the ring, and a compare writes the value of its condition. -/
theorem compareAndSelect : Obligations.CompareAndSelect := by
  unfold Obligations.CompareAndSelect
  refine fun s => ⟨fun o => ?sel, fun o y i which wellFormed => ?compare, fun o => ?selWord, fun o => ⟨fun defined => ?words, fun reserved i => ?none⟩⟩
  case sel =>
    refine writesG_of_eq rfl ?_
    rw [flagSeen_of_low (Nat.lt_trans o.f.isLt (by decide))]
  case compare =>
    obtain ⟨rfl, rfl⟩ | ⟨rfl, rfl⟩ := which
    · exact flagBecomes_of_flagPut rfl
    · exact flagBecomes_of_flagPut rfl
  case selWord => exact decode_of_encodeNat rfl rfl (by simp only [encodeNat, pack]; omega)
  case words =>
    have check : rejectIf .condition (8 ≤ o.c.toNat) = none := if_neg (Nat.not_le.mpr defined)
    exact ⟨decode_of_encodeNat rfl check (pack_compareFields 16 o), decode_of_encodeNat rfl check (pack_compareFields 17 o)⟩
  case none =>
    simp only [← pack_compareFields]
    exact ⟨decode_compare_ne_ok (by decide) (fun h => decS10_of h) (fun _ => rfl) reserved i,
      decode_compare_ne_ok (by decide) (fun h => decS11_of h) (fun _ => rfl) reserved i⟩

end Sys2Proof.Proofs

namespace Sys2Proof.Machine

/-! ### Target registers (12_isa_scalar R358) -/

theorem readB_writeB (n m : BitVec 3) (x : Dword) (s : State) : readB (writeB n x s) m = if m = n then x else readB s m := by
  simp only [readB, writeB, modCore_core, Vector.getElem_set, BitVec.toNat_inj, eq_comm (a := m)]

theorem completesWith_writeB {i : Instr} {s : State} {n : BitVec 3} {x : Dword} (runs : exec i s = .next (sNext (writeB n x s))) :
    CompletesWith i s 1 (writeB n x) :=
  completesWith_of_sNextAt runs rfl rfl rfl

/-! ### Transfers and their delay words (R359) -/

/-- The S stream is past a transfer, whose delay words are still to come. -/
def transferPending (taken : Bool) (target : Dword) (s : State) : State :=
  modCore (fun k => { k with pc := s.core.pc + 4, xfer := some { left := 2, taken := taken, target := target }, phase := 0, sReady := cyc s + 1 }) s

/-- XCALL writes its return address before it transfers. -/
def returnLinked (call : Bool) (s : State) : State := if call then writeB 7 (s.core.pc + 12) s else s

theorem returnLinked_pc (call : Bool) (s : State) : (returnLinked call s).core.pc = s.core.pc := by cases call <;> rfl

theorem transfer_of_none {s : State} (free : s.core.xfer = none) (call : Bool) (o : RXfer) :
    transfer call o s =
      .next (transferPending (o.m = 0 || (o.m = 1 && flagSeen s.core o.f.toNat) || (o.m = 2 && !flagSeen s.core o.f.toNat)) (readB s o.n) (returnLinked call s)) := by
  rw [transfer, free]
  cases call <;> rfl

theorem transfer_of_some {s : State} {x : Xfer} (pending : s.core.xfer = some x) (call : Bool) (o : RXfer) : transfer call o s = sIllegal s := by
  rw [transfer, pending]
  rfl

/-- Two delay words that only move on, and then the transfer or the word after them. -/
theorem delayWords_of_transferPending (taken : Bool) (target : Dword) (s : State) :
    ∃ u v, exec .nop (transferPending taken target s) = .next u ∧ exec .nop u = .next v ∧ (transferPending taken target s).core.pc = s.core.pc + 4
      ∧ u.core.pc = s.core.pc + 8 ∧ v.core.pc = (if taken then target else s.core.pc + 12) ∧ v.core.xfer = none ∧ v = modCore (placed v) s := by
  refine ⟨_, _, rfl, rfl, rfl, ?_, ?_, rfl, by rw [sNext, sNext, sNextAt_eq, sNextAt_eq]; rfl⟩
  · show s.core.pc + 4 + 4 = _
    rw [BitVec.add_assoc]
    rfl
  · show (if taken then target else s.core.pc + 4 + 4 + 4) = _
    rw [BitVec.add_assoc, BitVec.add_assoc]
    rfl

end Sys2Proof.Machine

namespace Sys2Proof.Proofs

open Sys2Proof.Machine

/-- Settles O12: a transfer leaves its target pending for two words, in which no second one may stand. -/
theorem targetRegistersAndTransfers : Obligations.TargetRegistersAndTransfers := by
  unfold Obligations.TargetRegistersAndTransfers
  refine ⟨fun s n => ⟨fun i => ?ptgt, fun a aligned => ?ptgtr, fun a odd => ?fault, fun x m => readB_writeB n m x s⟩,
    fun s o call _ => ⟨fun free => ?taken, fun x pending => ⟨?again, ?eret⟩⟩⟩
  case ptgt =>
    rw [← wordsOn_eq]
    exact completesWith_writeB rfl
  case ptgtr => exact completesWith_writeB (if_neg (not_not_intro aligned))
  case fault => exact if_pos odd
  case taken =>
    obtain ⟨u, v, first, second, pc⟩ := delayWords_of_transferPending
      (o.m = 0 || (o.m = 1 && flagSeen s.core o.f.toNat) || (o.m = 2 && !flagSeen s.core o.f.toNat)) (readB s o.n) (returnLinked call s)
    rw [returnLinked_pc] at pc
    refine ⟨_, u, v, ?_, first, second, pc⟩
    cases call <;> exact transfer_of_none free _ o
  case again => cases call <;> exact transfer_of_some pending _ o
  case eret =>
    show execEret s = _
    rw [execEret, pending, Option.isSome_some, Bool.or_true]
    rfl

end Sys2Proof.Proofs

namespace Sys2Proof.Machine

/-! ### Flag instructions on core flags (12_isa_scalar R360) -/

theorem flagBecomes_of_coreFlag {i : Instr} {s : State} {n : Nat} {f : Bool → Bool} (runs : exec i s = coreFlag n f s) :
    FlagBecomes i s n (f (s.core.flags.getLsbD n)) :=
  flagBecomes_of_flagPut runs

/-- What a test sees: a reserved flag of the enabled ring reads 0 (06_core R183). -/
theorem flagSeen_iff (k : Core) (n : Nat) :
    flagSeen k n = true ↔ k.flagsPrev.getLsbD n = true ∧ ¬ (768 ≤ n ∧ n < 768 + 16 * k.sys.ringLen.toNat ∧ 8 < n % 16) := by
  unfold flagSeen ringPlace flagBit
  by_cases inRing : 768 ≤ n ∧ n < 768 + 16 * k.sys.ringLen.toNat
  · simp [inRing, and_comm]
  · rw [if_neg (by simpa using inRing)]
    simp only [← and_assoc, inRing, false_and, not_false_eq_true, and_true]

/-- The value that FTEST gives for a core flag. -/
theorem seenValue_eq (k : Core) (n : Nat) :
    (if flagSeen k n then 1 else 0 : Dword) =
      if k.flagsPrev.getLsbD n ∧ ¬ (768 ≤ n ∧ n < 768 + 16 * k.sys.ringLen.toNat ∧ 8 < n % 16) then 1 else 0 := by
  simp only [flagSeen_iff]

theorem eq_prop_iff_eq_decide (b : Bool) (p : Prop) [Decidable p] : ((b = true) = p) = (b = decide p) := by
  rw [Bool.eq_iff_iff (b := decide p), decide_eq_true_eq]
  exact propext eq_iff_iff

/-- FWAIT completes exactly where the flag is seen with the awaited value. -/
theorem waitFlag_eq (v : BitVec 1) (n : Nat) (s : State) :
    waitFlag v n s = if flagSeen s.core n = decide (v = 1) then .next (sNext (if v = 1 then joinFlag n s else s)) else .next (sBlock s) := by
  simp only [waitFlag, eq_prop_iff_eq_decide]

section
variable {i : Instr} {s : State} {n : Nat}

theorem completesWith_of_waitFlag {v : BitVec 1} (runs : exec i s = waitFlag v n s) (seen : flagSeen s.core n = decide (v = 1)) :
    CompletesWith i s 1 fun s => if v = 1 then joinFlag n s else s := by
  refine completesWith_of_sNextAt (by rw [runs, waitFlag_eq, if_pos seen, sNext]) ?_ ?_ ?_
  all_goals split <;> rfl

theorem waits_of_waitFlag {v : BitVec 1} (runs : exec i s = waitFlag v n s) (unseen : flagSeen s.core n ≠ decide (v = 1)) : Waits i s :=
  waits_of_sBlock (by rw [runs, waitFlag_eq, if_neg unseen])

theorem completesWith_of_waitTake (runs : exec i s = waitTake n s) (seen : flagSeen s.core n = true) :
    CompletesWith i s 1 fun s => modCore (flagPut n false) (joinFlag n s) := by
  refine completesWith_of_sNextAt (by rw [runs, waitTake, if_pos seen, sNext]) ?_ ?_ rfl
  all_goals simp only [modCore_core, flagPut_eq]; rfl

theorem waits_of_waitTake (runs : exec i s = waitTake n s) (unseen : flagSeen s.core n = false) : Waits i s :=
  waits_of_sBlock (by rw [runs, waitTake, unseen]; rfl)

end

/-! ### Cluster flags (06_core R181) -/

/-- A change shows 8 cycles after it is made. -/
theorem clusterSeen_clusterPut_late (u : Cluster) {c d : Cycle} (late : c + 8 ≤ d) (n : Nat) (b : Bool) :
    clusterSeen (clusterPut u c n b) d = (clusterPut u c n b).flags := by
  simp [clusterSeen, clusterPut, late]

theorem foldl_clusterLog_of_later {l : List (Cycle × BitVec 4096)} {c : Cycle} (later : ∀ e ∈ l, c < e.1) (f : BitVec 4096) :
    l.foldl (fun f e => if e.1 ≤ c then e.2 else f) f = f := by
  induction l generalizing f with
  | nil => rfl
  | cons e l ih =>
    rw [List.foldl_cons, if_neg (Nat.not_le.mpr (later e List.mem_cons_self)), ih fun x h => later x (List.mem_cons_of_mem _ h)]

/-- A change does not show in its own cycle. -/
theorem clusterSeen_clusterPut_now (u : Cluster) (c : Cycle) (n : Nat) (b : Bool) : clusterSeen (clusterPut u c n b) c = clusterSeen u c := by
  refine foldl_clusterLog_of_later (fun e mem => ?_) _
  obtain kept | new := List.mem_append.mp mem
  · exact of_decide_eq_true (List.mem_filter.mp kept).2
  · rw [List.mem_singleton.mp new]
    exact Nat.lt_add_of_pos_right (by decide)

section
variable {i : Instr} {s : State} {n : Nat}

theorem completesWith_of_setClusterFlag {b : Bool} {m : Nat} (runs : exec i s = .next (sNextAt m (setClusterFlag n b s))) :
    CompletesWith i s m (setClusterFlag n b) :=
  completesWith_of_sNextAt runs rfl rfl rfl

theorem waitTakeCluster_of_set (before : flagBit (clusterBefore (getCluster s (clusterOf s.coreId)) (cyc s)) n = true)
    (now : flagBit (getCluster s (clusterOf s.coreId)).flags n = true) : waitTakeCluster n s = .next (sNextAt 8 (setClusterFlag n false s)) := by
  rw [waitTakeCluster, before, now]
  rfl

theorem waitTakeCluster_of_clear (clear : flagBit (getCluster s (clusterOf s.coreId)).flags n = false) : waitTakeCluster n s = .next (sBlock s) := by
  rw [waitTakeCluster, clear, Bool.and_false]
  rfl

/-- FWAIT on a cluster flag: it completes exactly where the flag is seen with the awaited value. -/
theorem execFwaitReg_cluster_eq (v : BitVec 1) (a : GReg) (s : State) :
    execFwaitReg v ⟨a, 1⟩ s = if clusterFlagSeen s (flagNumber s a) = decide (v = 1) then .next (sNext s) else .next (sBlock s) := by
  have register : ¬ (1 : BitVec 1) = 0 := by decide
  simp only [execFwaitReg, if_neg register, eq_prop_iff_eq_decide]

end

end Sys2Proof.Machine

namespace Sys2Proof.Proofs

open Sys2Proof.Machine

/-- Settles O13, form by form, on core flags and on cluster flags. -/
theorem flagInstructions : Obligations.FlagInstructions := by
  unfold Obligations.FlagInstructions
  refine ⟨fun s => ⟨fun f => ⟨?_, ?_, ?_, fun d => ?_⟩, fun a => ⟨?_, ?_, ?_, fun d => ?_⟩⟩, fun s a d i b which => ?cluster,
    fun s d => ⟨fun f => ?test, fun a => ?testReg, fun a => ?testCluster⟩,
    fun s => ⟨fun v n i form => ?wait, fun n i form => ?take, fun a => ⟨fun v => ⟨fun seen => ?_, fun unseen => ?_⟩, fun set => ?_, fun clear => ?_⟩⟩⟩
  · exact flagBecomes_of_coreFlag (f := fun _ => true) rfl
  · exact flagBecomes_of_coreFlag (f := fun _ => false) rfl
  · exact flagBecomes_of_coreFlag (f := fun b => !b) rfl
  · exact flagBecomes_of_coreFlag (f := fun _ => (readG s d).getLsbD 0) rfl
  · exact flagBecomes_of_coreFlag (f := fun _ => true) rfl
  · exact flagBecomes_of_coreFlag (f := fun _ => false) rfl
  · exact flagBecomes_of_coreFlag (f := fun b => !b) rfl
  · exact flagBecomes_of_coreFlag (f := fun _ => (readG s d).getLsbD 0) rfl
  case cluster =>
    have runs : exec i s = .next (sNextAt 1 (setClusterFlag ((readG s a).toNat % 4096) b s)) := by
      obtain ⟨rfl, rfl⟩ | ⟨rfl, rfl⟩ | ⟨rfl, rfl⟩ | ⟨rfl, rfl⟩ := which <;> rfl
    refine ⟨clusterPut (getCluster s (clusterOf s.coreId)) (cyc s) ((readG s a).toNat % 4096) b, completesWith_of_setClusterFlag runs, rfl, rfl, rfl, rfl,
      fun j h => getLsbD_putBit _ _ h, fun c late => clusterSeen_clusterPut_late _ late _ _, clusterSeen_clusterPut_now _ _ _ _⟩
  case test => exact writesG_of_eq rfl (seenValue_eq _ _)
  case testReg => exact writesG_of_eq rfl (seenValue_eq _ _)
  case testCluster => exact writesG_of_aluEnd rfl
  case wait =>
    have runs : exec i s = waitFlag v n s := by
      obtain ⟨f, rfl, rfl⟩ | ⟨a, rfl, rfl⟩ := form <;> rfl
    exact ⟨completesWith_of_waitFlag runs, waits_of_waitFlag runs⟩
  case take =>
    have runs : exec i s = waitTake n s := by
      obtain ⟨f, rfl, rfl⟩ | ⟨a, rfl, rfl⟩ := form <;> rfl
    exact ⟨completesWith_of_waitTake runs, waits_of_waitTake runs⟩
  · exact completesWith_of_sNextAt (f := id) ((execFwaitReg_cluster_eq v a s).trans (if_pos seen)) rfl rfl rfl
  · exact waits_of_sBlock ((execFwaitReg_cluster_eq v a s).trans (if_neg unseen))
  · exact completesWith_of_setClusterFlag (waitTakeCluster_of_set set.1 set.2)
  · exact waits_of_sBlock (waitTakeCluster_of_clear clear)

end Sys2Proof.Proofs

namespace Sys2Proof.Machine

/-! ### Queues (12_isa_scalar R361) -/

theorem completesWith_writeQ {i : Instr} {s : State} {q : BitVec 4} {x : Queue} (runs : exec i s = .next (sNext (writeQ q x s))) :
    CompletesWith i s 1 (writeQ q x) :=
  completesWith_of_sNextAt runs rfl rfl rfl

section
variable {i : Instr} {s : State} {q : BitVec 4} {x : Dword} {token : Bool} (runs : exec i s = putQueueEntry q x token s)
include runs

theorem completesWith_of_room (room : queueHasRoom (readQ s q) (cyc s) = true) :
    CompletesWith i s 1 (writeQ q (queuePush (readQ s q) { payload := x, token := token, poison := false, stamp := cyc s })) :=
  completesWith_writeQ (by rw [runs, putQueueEntry, room]; rfl)

theorem waits_of_full (full : queueHasRoom (readQ s q) (cyc s) = false) : Waits i s :=
  waits_of_sBlock (by rw [runs, putQueueEntry, full]; rfl)

end

section
variable {s : State} {q : BitVec 4} (d : GReg)

section
variable (empty : queueReadable (readQ s q) (cyc s) = [])
include empty

theorem waits_qget : Waits (.qget d q) s := by
  refine waits_of_sBlock ?_
  show execQget d q s = _
  rw [execQget, empty]

theorem writesG_qpeek_zero : WritesG (.qpeek d q) s d 0 1 := by
  refine writesG_of_aluEnd ?_
  show execQpeek d q s = _
  rw [execQpeek, empty]
  rfl

theorem writesG_qcnt_zero : WritesG (.qcnt d q) s d 0 1 := by
  refine writesG_of_aluEnd ?_
  show execQcnt d q s = _
  rw [execQcnt, empty]
  rfl

end

variable {e : QEntry} {rest : List QEntry} (head : queueReadable (readQ s q) (cyc s) = e :: rest)
include head

theorem writesG_qcnt : WritesG (.qcnt d q) s d
    (BitVec.ofNat 64 ((queueReadable (readQ s q) (cyc s)).length + (if e.token then 256 else 0) + (if e.poison then 512 else 0))) 1 := by
  refine writesG_of_aluEnd ?_
  show execQcnt d q s = _
  have mark (b : Bool) (n : Nat) : b.toNat * n = if b then n else 0 := by cases b <;> simp
  simp only [execQcnt, head, mark, Nat.add_assoc]
  rfl

theorem writesG_qpeek (clean : e.poison = false) : WritesG (.qpeek d q) s d (if e.token then 0 else e.payload) 1 := by
  refine writesG_of_aluEnd ?_
  show execQpeek d q s = _
  simp only [execQpeek, head, clean]
  rfl

theorem completesWith_qget (clean : e.poison = false) :
    CompletesWith (.qget d q) s 1 fun s => writeG d (if e.token then 0 else e.payload) 1 (writeQ q (queuePop (readQ s q) (cyc s)) s) := by
  refine completesWith_of_sNextAt ?_ (writeG_core_xfer ..) (writeG_core_pc ..) (cyc_writeG ..)
  show execQget d q s = _
  simp only [execQget, head, clean]
  rfl

theorem trapsS_qget (poisoned : e.poison = true) : TrapsS (.qget d q) s .poison 0 := by
  show execQget d q s = _
  simp only [execQget, head, poisoned]
  rfl

theorem trapsS_qpeek (poisoned : e.poison = true) : TrapsS (.qpeek d q) s .poison 0 := by
  show execQpeek d q s = _
  simp only [execQpeek, head, poisoned]
  rfl

end

end Sys2Proof.Machine

namespace Sys2Proof.Proofs

open Sys2Proof.Machine

/-- Settles O14, by whether the queue has room, and by the first entry that can be read. -/
theorem queueOperations : Obligations.QueueOperations := by
  unfold Obligations.QueueOperations
  intro s q
  refine ⟨fun room => ⟨fun a => completesWith_of_room rfl (decide_eq_true room), completesWith_of_room rfl (decide_eq_true room)⟩,
    fun full => ⟨fun a => waits_of_full rfl (decide_eq_false full), waits_of_full rfl (decide_eq_false full)⟩,
    fun empty d => ⟨waits_qget d empty, writesG_qpeek_zero d empty, writesG_qcnt_zero d empty⟩, fun e rest head d => ?_⟩
  exact ⟨writesG_qcnt d head, fun clean => ⟨writesG_qpeek d head clean, completesWith_qget d head clean⟩,
    fun poisoned => ⟨trapsS_qget d head poisoned, trapsS_qpeek d head poisoned⟩⟩

end Sys2Proof.Proofs

namespace Sys2Proof.Machine

/-! ### Slot memory (12_isa_scalar R362) -/

/-- A word of slot memory; one that is not listed reads as 0. -/
def slotWord (k : Core) (i : Nat) : Dword := (assocGet k.slotMem i).getD 0

theorem slotWord_slotPut (k : Core) (i j : Nat) (x : Dword) : slotWord (slotPut k i x) j = if j = i then x else slotWord k j := by
  unfold slotWord slotPut
  by_cases zero : x = 0
  · simp only [zero, if_true, assocDel, assocGet_filter (p := fun n => n ≠ i), decide_eq_true_eq, ne_eq]
    by_cases same : j = i <;> simp [same]
  · simp only [zero, if_false]
    by_cases same : j = i
    · simp [same, assocGet_assocPut_self]
    · simp [same, assocGet_assocPut_ne same]

section
variable {o : RI} {s : State}

theorem writesG_ldsl (inside : slotIndex o s ≤ 4095) : WritesG (.ldsl o) s o.d (slotWord s.core (slotIndex o s)) 1 :=
  writesG_of_aluEnd (if_neg (Nat.not_lt.mpr inside))

theorem exec_stsl (inside : slotIndex o s ≤ 4095) :
    exec (.stsl o) s = .next (sNext (modCore (fun k => slotPut k (slotIndex o s) (readG s o.d)) s)) :=
  if_neg (Nat.not_lt.mpr inside)

theorem trapsS_ldsl (beyond : 4095 < slotIndex o s) : TrapsS (.ldsl o) s .alignment (BitVec.ofNat 64 (slotIndex o s)) := if_pos beyond

theorem trapsS_stsl (beyond : 4095 < slotIndex o s) : TrapsS (.stsl o) s .alignment (BitVec.ofNat 64 (slotIndex o s)) := if_pos beyond

end

/-! ### The pipeline ring (R367, 06_core R183) -/

theorem getLsbD_foldl_putBit (f : BitVec 4096) (base w n i : Nat) (h : i < 4096) :
    ((List.range n).foldl (fun f j => putBit f (base + j) (w.testBit j)) f).getLsbD i =
      if base ≤ i ∧ i < base + n then w.testBit (i - base) else f.getLsbD i := by
  induction n with
  | zero => simp
  | succ n ih =>
    rw [List.range_succ, List.foldl_append, List.foldl_cons, List.foldl_nil, getLsbD_putBit _ _ h, ih]
    by_cases last : i = base + n
    · simp [last]
    · simp only [if_neg last, show i < base + (n + 1) ↔ i < base + n by omega]

theorem getLsbD_ringPut {st j : Nat} (stage : st < 16) (place : j < 9) (w : Nat) (k : Core) :
    (ringPut st w k).flags.getLsbD (768 + 16 * st + j) = w.testBit j := by
  rw [ringPut, getLsbD_foldl_putBit _ _ _ _ _ (by omega), if_pos (by omega), Nat.add_sub_cancel_left]

section
variable {o : R3} {s : State}

section
variable (stage : (readG s o.a).toNat % 16 < s.core.sys.ringLen.toNat)
include stage

theorem ringStage_of_lt : ringStage s o.a = some ((readG s o.a).toNat % 16) := if_pos stage

theorem completesWith_ringrel :
    CompletesWith (.ringrel o) s 1 fun s' => writeG o.d (BitVec.ofNat 64 (ringWord s.core.flagsPrev ((readG s o.a).toNat % 16))) 1
      (modCore (ringPut ((readG s o.a).toNat % 16) ((readG s o.b).toNat % 512)) s') := by
  refine completesWith_of_sNextAt ?_ (writeG_core_xfer ..) (writeG_core_pc ..) (cyc_writeG ..)
  show execRingrel o s = _
  rw [execRingrel, ringStage_of_lt stage]
  rfl

theorem writesG_ringacq (owner : ringWord s.core.flagsPrev ((readG s o.a).toNat % 16) % 256 = (readG s o.b).toNat % 256) :
    WritesG (.ringacq o) s o.d (BitVec.ofNat 64 (ringWord s.core.flagsPrev ((readG s o.a).toNat % 16))) 1 := by
  refine writesG_of_aluEnd ?_
  show execRingacq o s = _
  simp only [execRingacq, ringStage_of_lt stage, if_pos owner]
  rfl

theorem waits_ringacq (other : ringWord s.core.flagsPrev ((readG s o.a).toNat % 16) % 256 ≠ (readG s o.b).toNat % 256) : Waits (.ringacq o) s := by
  refine waits_of_sBlock ?_
  show execRingacq o s = _
  simp only [execRingacq, ringStage_of_lt stage, if_neg other]

end

variable (absent : s.core.sys.ringLen.toNat ≤ (readG s o.a).toNat % 16)
include absent

theorem ringStage_of_le : ringStage s o.a = none := if_neg (Nat.not_lt.mpr absent)

theorem trapsS_ringacq : TrapsS (.ringacq o) s .illegal 0 := by
  show execRingacq o s = _
  rw [execRingacq, ringStage_of_le absent]
  rfl

theorem trapsS_ringrel : TrapsS (.ringrel o) s .illegal 0 := by
  show execRingrel o s = _
  rw [execRingrel, ringStage_of_le absent]
  rfl

end

end Sys2Proof.Machine

namespace Sys2Proof.Proofs

open Sys2Proof.Machine Sys2Proof.Laws.RoundTrip

/-- Settles O15: slot memory reads as last written, and the nine flags of a ring stage are written together. -/
theorem slotMemoryAndRing : Obligations.SlotMemoryAndRing := by
  unfold Obligations.SlotMemoryAndRing
  refine ⟨fun s o => ⟨fun inside => ⟨writesG_ldsl inside, _, exec_stsl inside, ?retires, fun j => ?word, ?only, sameMemory_of_mem (by simp)⟩,
      fun beyond => ⟨trapsS_ldsl beyond, trapsS_stsl beyond⟩, fun p mem => ?words⟩,
    fun s o => ⟨fun stage => ⟨completesWith_ringrel stage, writesG_ringacq stage, waits_ringacq stage⟩,
      fun absent => ⟨trapsS_ringacq absent, trapsS_ringrel absent⟩, fun w j place => getLsbD_ringPut (Nat.mod_lt _ (by decide)) place w s.core⟩⟩
  case retires => exact retires_sNextAt 1 (modCore (fun k => slotPut k (slotIndex o s) (readG s o.d)) s)
  case word =>
    simp only [sNext_eq_sNextAt, sNextAt_core_slotMem]
    exact slotWord_slotPut s.core _ j _
  case only =>
    rw [sNext_eq_sNextAt, sNextAt_eq]
    rfl
  case words => fin_cases mem <;> exact decode_of_encodeNat rfl rfl (by simp only [encodeNat, pack]; omega)

end Sys2Proof.Proofs

namespace Sys2Proof.Machine

/-! ### Strip groups (06_core R171, 12_isa_scalar R363) -/

/-- A group that is closed changes the groups alone. -/
theorem closeGroup_frame (c : Cycle) (align : Option Nat) (k : Core) :
    closeGroup c align k = { k with groups := (closeGroup c align k).groups, openGrp := none } := by
  unfold closeGroup
  split
  · rfl
  · split <;> rfl

@[simp] theorem closeGroup_openGrp (c : Cycle) (align : Option Nat) (k : Core) : (closeGroup c align k).openGrp = none := by rw [closeGroup_frame]
@[simp] theorem closeGroup_pc (c : Cycle) (align : Option Nat) (k : Core) : (closeGroup c align k).pc = k.pc := by rw [closeGroup_frame]

/-! ### EXIT (R350): one step for each phase -/

section
variable {s : State}

theorem exec_exit_of_start (phase : s.core.phase = 0) (outside : inHandler s = false) :
    exec .exit s = .next (exitPhase exitColumns (modCore (closeGroup (cyc s) none) s)) := by
  show execExit s = _
  simp only [execExit, if_pos phase, outside]
  rfl

theorem exec_exit_of_columns (phase : s.core.phase = 1) :
    exec .exit s =
      if columnsDone s.core then .next (exitPhase exitEngines (modCore (anchorAll (cyc s)) s)) else .next (sBlock s) := by
  show execExit s = _
  rw [execExit, phase]
  rfl

theorem exec_exit_of_engines (phase : s.core.phase = 4) :
    exec .exit s =
      if enginesDone s then .next (exitPhase exitDrain (modCore (fun k => { k with fenceMark := k.nextInstr }) s)) else .next (sBlock s) := by
  show execExit s = _
  rw [execExit, phase]
  rfl

theorem exec_exit_of_drain (phase : s.core.phase = 5) :
    exec .exit s = if !drained s.core true true then .next (sBlock s) else .next (endTask (releasePoint s s.coreId 2 .other []) s.coreId) := by
  show execExit s = _
  rw [execExit, phase]
  rfl

/-- A core whose task ends is freed, and keeps its general registers. -/
theorem core_endTask {k : TaskRef} (task : s.core.task = some k) :
    ∃ r, (endTask s s.coreId).core = { freeCore (dropPins s.core) with race := r } := by
  have here (u : State) (focus : u.coreId = s.coreId) : getCore u s.coreId = u.core := if_pos focus.symm
  have put (u : State) (x : Core) (focus : u.coreId = s.coreId) : putCore u s.coreId x = { u with core := x } := if_pos focus.symm
  simp only [endTask, here s rfl, task, here (freeMaps s (mapsOf k)) rfl, put (freeMaps s (mapsOf k)) _ rfl]
  exact ⟨_, rfl⟩

theorem exit_frees {k : TaskRef} (task : s.core.task = some k) :
    let t := endTask (releasePoint s s.coreId 2 .other []) s.coreId
    t.core.task = none ∧ t.core.colC.run = none ∧ t.core.g = s.core.g := by
  obtain ⟨r, release⟩ := releasePoint_focus s 2 .other []
  rw [release]
  obtain ⟨_, freed⟩ := core_endTask (s := modCore (fun k => { k with relArmed := false, race := r }) s) task
  rw [modCore_coreId] at freed
  simp only [freed]
  exact ⟨rfl, rfl, rfl⟩

/-! ### YIELD (R351) -/

theorem stopGang_stops (s : State) (id reason : Nat) : ∀ g ∈ (stopGang s id reason).gangs, g.id = id → g.st ≠ .resident := by
  intro g mem named
  obtain ⟨h, _, rfl⟩ := List.mem_map.mp mem
  by_cases running : h.id = id ∧ h.st = .resident
  · simp [running]
  · have same : (if h.id = id && h.st = .resident then { h with st := .stopping reason } else h) = h := if_neg (by simpa using running)
    simp only [same] at named ⊢
    exact fun resident => running ⟨named, resident⟩

theorem ids_stopGang (s : State) (id reason : Nat) : (stopGang s id reason).gangs.map (·.id) = s.gangs.map (·.id) := by
  show (s.gangs.map _).map _ = _
  rw [List.map_map]
  refine List.map_congr_left fun g _ => ?_
  simp only [Function.comp_apply]
  split <;> rfl

theorem execYieldGang_eq {k : TaskRef} {l : Launch} (task : s.core.task = some k) (launch : taskLaunch s = some l) :
    exec .yieldGang s =
      if inHandler s then sIllegal s
      else if yieldTo s (clusterOf s.coreId) (launchClass l) then .next (stopGang (sNext s) k.gang reasonYield)
      else .next (sNext s) := by
  show execYieldGang s = _
  simp only [execYieldGang, launch, task]

end

end Sys2Proof.Machine

namespace Sys2Proof.Proofs

open Sys2Proof.Machine

/-- Settles O20: EXIT phase by phase, and YIELD by whether a gang waits. -/
theorem exitAndYield : Obligations.ExitAndYield := by
  unfold Obligations.ExitAndYield
  refine ⟨fun s => ⟨fun phase outside => ?start, fun phase => ?columns, fun phase => ?engines, fun phase => ?drain⟩,
    fun s k l task launch => ⟨fun inside => ?handler, fun outside alone => ?moves, fun outside waiting => ?stops⟩⟩
  case start => exact ⟨_, exec_exit_of_start phase outside, rfl, closeGroup_openGrp (cyc s) none s.core, closeGroup_pc (cyc s) none s.core⟩
  case columns =>
    rw [exec_exit_of_columns phase]
    exact ⟨fun done => ⟨_, if_pos done, rfl⟩, fun busy => waits_of_sBlock ((exec_exit_of_columns phase).trans (if_neg (Bool.eq_false_iff.mp busy)))⟩
  case engines =>
    rw [exec_exit_of_engines phase]
    exact ⟨fun done => ⟨_, if_pos done, rfl⟩, fun busy => waits_of_sBlock ((exec_exit_of_engines phase).trans (if_neg (Bool.eq_false_iff.mp busy)))⟩
  case drain =>
    refine ⟨fun busy => waits_of_sBlock (by rw [exec_exit_of_drain phase, busy]; rfl), fun done => ?_⟩
    have ends : exec .exit s = .next (endTask (releasePoint s s.coreId 2 .other []) s.coreId) := by
      rw [exec_exit_of_drain phase, done]
      rfl
    exact ⟨ends, fun k task => ⟨_, ends, exit_frees task⟩⟩
  case handler => exact (execYieldGang_eq task launch).trans (if_pos inside)
  case moves =>
    refine completesWith_of_sNextAt (f := id) ?_ rfl rfl rfl
    rw [execYieldGang_eq task launch, outside, alone]
    rfl
  case stops =>
    refine ⟨stopGang (sNext s) k.gang reasonYield, ?_, retires_sNextAt 1 s, ?_, stopGang_stops _ _ _, ids_stopGang _ _ _, sameMemory_of_mem ?_⟩
    · rw [execYieldGang_eq task launch, outside, waiting]
      rfl
    · exact sNextAt_core_g 1 s
    · exact sNextAt_mem 1 s

end Sys2Proof.Proofs

namespace Sys2Proof.Machine

/-! ### Arrivals at a barrier (12_isa_scalar R365) -/

/-- An arrival of a task at a level. -/
def Arrival.isOf (t : TaskRef) (lv : Nat) (a : Arrival) : Bool := a.part = t.part && a.launch = t.launch && a.task = t.task && a.level = lv

/-- The arrivals of other tasks, or at other levels. -/
def otherArrivals (t : TaskRef) (lv : Nat) (l : List Arrival) : List Arrival := l.filter fun a => !a.isOf t lv

theorem find?_otherArrivals (t : TaskRef) (lv : Nat) (l : List Arrival) : (otherArrivals t lv l).find? (Arrival.isOf t lv) = none := by
  rw [List.find?_eq_none]
  intro a mem
  simpa using (List.mem_filter.mp mem).2

theorem arrivalOf_of_taken {s : State} {t : TaskRef} {lv : Nat} {l : List Arrival} (arrivals : s.arrivals = otherArrivals t lv l) :
    arrivalOf s t lv = none := by
  rw [arrivalOf, arrivals]
  exact find?_otherArrivals t lv l

theorem arrivalOf_of_recorded {s : State} {t : TaskRef} {lv : Nat} {l : List Arrival} {a : Arrival} (arrivals : s.arrivals = otherArrivals t lv l ++ [a])
    (own : a.isOf t lv = true) : arrivalOf s t lv = some a := by
  have found : (otherArrivals t lv l ++ [a]).find? (Arrival.isOf t lv) = some a := by
    rw [List.find?_append, find?_otherArrivals, Option.none_or, List.find?_singleton, own]
    rfl
  rw [arrivalOf, arrivals]
  exact found

/-! ### The end of the wait (09_memory_model R281, R284) -/

/-- An acquire of the core in focus changes what its race detector keeps. -/
theorem acquireInto_focus (s : State) (x : Counts) : ∃ r, acquireInto s s.coreId x = modCore (fun k => { k with race := r }) s := by
  unfold acquireInto getCore putCore
  simp only [if_pos]
  exact ⟨_, rfl⟩

theorem joinStamps_focus (p : Stamp → Bool) (s : State) : ∃ r, joinStamps p s = modCore (fun k => { k with race := r }) s := ⟨_, rfl⟩

/-- The wait's end takes the arrival away, and changes no more of the core than its list of arrivals and what its race detector keeps. -/
theorem meetEnd_eq (t : TaskRef) (lv : Nat) (a : Arrival) (s : State) :
    ∃ r, meetEnd t lv a s =
      sNext { s with core := { s.core with race := r, arrived := s.core.arrived.filter fun x => x ≠ lv }, arrivals := otherArrivals t lv s.arrivals } := by
  obtain ⟨r, acquired⟩ := acquireInto_focus s a.vec
  obtain ⟨q, joined⟩ := joinStamps_focus (fun e => e.seq.toNat < a.seqs.getD (engineIndex e.eng) 0) (modCore (fun k => { k with race := r }) s)
  refine ⟨{ q with v := a.rebase.foldl (fun v x => putCount v x.1 x.2) q.v }, ?_⟩
  rw [meetEnd]
  dsimp only
  rw [acquired, joined]
  simp only [modCore]
  rfl

theorem meetEnd_keeps (t : TaskRef) (lv : Nat) (a : Arrival) (s : State) :
    Retires 1 s (meetEnd t lv a s) ∧ arrivalOf (meetEnd t lv a s) t lv = none ∧ (meetEnd t lv a s).core.g = s.core.g
      ∧ (meetEnd t lv a s).core.flags = s.core.flags ∧ SameMemory s (meetEnd t lv a s) := by
  obtain ⟨r, e⟩ := meetEnd_eq t lv a s
  rw [e]
  refine ⟨retires_sNextAt 1 _, arrivalOf_of_taken (l := s.arrivals) ?_, sNextAt_core_g .., sNextAt_core_flags .., sameMemory_of_mem (sNextAt_mem ..)⟩
  rw [sNext_eq_sNextAt, sNextAt_arrivals]

/-! ### An arrival made (R365, R313) -/

/-- What an arrival says of its task: whether a checkpoint goes with it, and the commands issued before it. -/
structure ArrivesAs (t : TaskRef) (lv : Nat) (ckpt : Bool) (s : State) (a : Arrival) : Prop where
  own : a.isOf t lv = true
  incomplete : a.complete = false
  inView : a.viewLost = false
  ckpt : a.ckpt = ckpt
  seqs : a.seqs = s.core.engSeq.toList.map (·.toNat)

/-- An arrival is put among the arrivals; of the core, only its list of arrivals and what its race detector keeps change. -/
theorem arrive_eq (t : TaskRef) (l : Launch) (lv : Nat) (ckpt : Bool) (s : State) :
    ∃ r a, ArrivesAs t lv ckpt s a
      ∧ arrive t l lv ckpt s =
        { s with core := { s.core with relArmed := false, race := r, arrived := lv :: s.core.arrived.filter fun x => x ≠ lv },
                 arrivals := otherArrivals t lv s.arrivals ++ [a], fresh := s.fresh + 1 } := by
  obtain ⟨r, released⟩ := releasePoint_focus s (levelScope l lv) .other []
  unfold arrive
  rw [released]
  exact ⟨_, _, ⟨by simp [Arrival.isOf], rfl, rfl, rfl, rfl⟩, rfl⟩

/-! ### MEET -/

/-- The forms and levels that are no instruction. -/
def MeetIllegal (o : RMeet) (l : Launch) (s : State) : Prop :=
  launchLevels l ≤ o.l.toNat ∨ levelBarrier l o.l.toNat = 0 ∨ (o.f = 3 ∧ levelBarrier l o.l.toNat ≠ 2) ∨ inHandler s = true

theorem not_meetIllegal {o : RMeet} {l : Launch} {s : State} (level : o.l.toNat < launchLevels l) (barrier : levelBarrier l o.l.toNat ≠ 0)
    (outside : inHandler s = false) (fits : o.f = 3 → levelBarrier l o.l.toNat = 2) : ¬ MeetIllegal o l s := by
  rintro (beyond | none | ⟨form, other⟩ | inside)
  · exact Nat.not_le.mpr level beyond
  · exact barrier none
  · exact other (fits form)
  · rw [outside] at inside
    cases inside

theorem toNat_eq_form {f : BitVec 2} (n : BitVec 2) : f.toNat = n.toNat ↔ f = n := BitVec.toNat_inj

section
variable {s : State} {o : RMeet} {t : TaskRef} {l : Launch}

theorem execMeet_eq (task : s.core.task = some t) (launch : taskLaunch s = some l) :
    exec (.meet o) s =
      if launchLevels l ≤ o.l.toNat || levelBarrier l o.l.toNat = 0 || (o.f.toNat = 3 && levelBarrier l o.l.toNat ≠ 2) || inHandler s then sIllegal s
      else if o.f.toNat = 1 || s.core.phase = meetWait then meetWaiting t o.l.toNat s
      else meetArrive t l o.l.toNat o.f.toNat s := by
  show execMeet o s = _
  simp only [execMeet, launch, task]

theorem meetIllegal_iff : (launchLevels l ≤ o.l.toNat || levelBarrier l o.l.toNat = 0 || (o.f.toNat = 3 && levelBarrier l o.l.toNat ≠ 2) || inHandler s)
    = true ↔ MeetIllegal o l s := by
  have form : o.f.toNat = 3 ↔ o.f = 3 := toNat_eq_form 3
  simp only [MeetIllegal, Bool.or_eq_true, decide_eq_true_eq, Bool.and_eq_true, form, or_assoc]

theorem exec_meet_of_illegal (task : s.core.task = some t) (launch : taskLaunch s = some l) (illegal : MeetIllegal o l s) :
    exec (.meet o) s = sIllegal s :=
  (execMeet_eq task launch).trans (if_pos (meetIllegal_iff.mpr illegal))

theorem exec_meet_of_waiting (task : s.core.task = some t) (launch : taskLaunch s = some l) (legal : ¬ MeetIllegal o l s)
    (waits : o.f = 1 ∨ s.core.phase = 2) : exec (.meet o) s = meetWaiting t o.l.toNat s := by
  have form : o.f.toNat = 1 ↔ o.f = 1 := toNat_eq_form 1
  rw [execMeet_eq task launch, if_neg (mt meetIllegal_iff.mp legal), if_pos (by simp only [Bool.or_eq_true, decide_eq_true_eq, form]; exact waits)]

theorem exec_meet_of_arriving (task : s.core.task = some t) (launch : taskLaunch s = some l) (legal : ¬ MeetIllegal o l s)
    (form : o.f ≠ 1) (phase : s.core.phase = 0) : exec (.meet o) s = meetArrive t l o.l.toNat o.f.toNat s := by
  have other : ¬ o.f.toNat = 1 := mt (toNat_eq_form 1).mp form
  rw [execMeet_eq task launch, if_neg (mt meetIllegal_iff.mp legal), if_neg (by simp [other, phase, meetWait])]

/-- The conditions under which an arrival is made at once (R365, R313). -/
structure MayArrive (t : TaskRef) (l : Launch) (lv form : Nat) (s : State) : Prop where
  free : ∀ a, arrivalOf s t lv = some a → a.complete = true
  idle : takesCkpt s t l lv form = true → workDone s.core = true
  loads : s.core.loads = []
  stores : s.core.stores = []
  timed : s.core.timed = []

theorem meetArrive_of_may {lv form : Nat} (may : MayArrive t l lv form s) :
    meetArrive t l lv form s =
      let u := arrive t l lv (takesCkpt s t l lv form) (markFence s)
      if form = 0 then .next (sNext u) else .next (modCore (fun k => { k with phase := meetWait, sReady := cyc u + 1 }) u) := by
  have free : ((arrivalOf s t lv).map fun a => !a.complete).getD false = false := by
    cases h : arrivalOf s t lv with
    | none => rfl
    | some a => simp [may.free a h]
  have idle : (takesCkpt s t l lv form && !workDone s.core) = false := by
    cases h : takesCkpt s t l lv form with
    | false => rfl
    | true => simp [may.idle h]
  simp only [meetArrive, free, idle, drained_markFence may.loads may.stores may.timed, Bool.not_true, Bool.and_false]
  rfl

/-- What holds after an arrival: it is recorded; the form that only arrives moves on, and every other one waits. -/
theorem meetArrive_records {lv form : Nat} (phase : s.core.phase = 0) (may : MayArrive t l lv form s) :
    ∃ u a, meetArrive t l lv form s = .next u ∧ arrivalOf u t lv = some a ∧ ArrivesAs t lv (takesCkpt s t l lv form) s a
      ∧ (form = 0 → Retires 1 s u) ∧ (form ≠ 0 → u.core.phase = 2 ∧ u.core.pc = s.core.pc ∧ u.core.sReady = cyc s + 1)
      ∧ u.core.g = s.core.g ∧ u.core.flags = s.core.flags ∧ SameMemory s u := by
  have marks : markFence s = modCore (fun k => { k with fenceMark := k.nextInstr, phase := draining }) s := if_pos phase
  obtain ⟨r, a, arrives, e⟩ := arrive_eq t l lv (takesCkpt s t l lv form) (markFence s)
  have described : ArrivesAs t lv (takesCkpt s t l lv form) s a := by
    rw [marks] at arrives
    exact ⟨arrives.own, arrives.incomplete, arrives.inView, arrives.ckpt, arrives.seqs⟩
  rw [meetArrive_of_may may, e, marks]
  by_cases only : form = 0
  · refine ⟨_, a, if_pos only, arrivalOf_of_recorded (l := s.arrivals) ?_ arrives.own, described, fun _ => retires_sNextAt 1 _, fun other => absurd only other,
      sNextAt_core_g .., sNextAt_core_flags .., sameMemory_of_mem (sNextAt_mem ..)⟩
    rw [sNext_eq_sNextAt, sNextAt_arrivals]
    rfl
  · exact ⟨_, a, if_neg only, arrivalOf_of_recorded (l := s.arrivals) rfl arrives.own, described, fun arriveOnly => absurd arriveOnly only,
      fun _ => ⟨rfl, rfl, rfl⟩, rfl, rfl, sameMemory_of_mem rfl⟩

end

end Sys2Proof.Machine

namespace Sys2Proof.Proofs

open Sys2Proof.Machine

/-- Settles O22: a form that is no instruction traps; a wait goes by the outstanding arrival; every other form records one. -/
theorem meetForms : Obligations.MeetForms := by
  unfold Obligations.MeetForms
  intro s o k l task launch
  refine ⟨exec_meet_of_illegal task launch, fun level barrier outside fits => ?_⟩
  have legal : ¬ MeetIllegal o l s := not_meetIllegal level barrier outside fits
  refine ⟨fun waits none => ?none, fun a waits outstanding inView complete => ?complete, fun a waits outstanding inView open_ => ?waits,
    fun form phase free idle loads stores timed => ?arrives⟩
  case none =>
    refine completesWith_of_sNextAt (f := id) ?_ rfl rfl rfl
    rw [exec_meet_of_waiting task launch legal waits, meetWaiting, none]
    rfl
  case complete =>
    refine ⟨_, ?_, rfl, meetEnd_keeps k o.l.toNat a s⟩
    simp only [exec_meet_of_waiting task launch legal waits, meetWaiting, outstanding, inView, complete]
    rfl
  case waits =>
    refine ⟨_, ?_, rfl⟩
    simp only [exec_meet_of_waiting task launch legal waits, meetWaiting, outstanding, inView, open_]
    rfl
  case arrives =>
    obtain ⟨t, a, runs, recorded, described, arrived, waits, g, flags, memory⟩ := meetArrive_records phase ⟨free, idle, loads, stores, timed⟩
    have formZero : o.f.toNat = 0 ↔ o.f = 0 := toNat_eq_form 0
    rw [formZero] at arrived
    rw [Ne, formZero] at waits
    exact ⟨t, a, (exec_meet_of_arriving task launch legal form phase).trans runs, recorded, described.incomplete, described.inView, described.ckpt, described.seqs,
      arrived, waits, g, flags, memory⟩

end Sys2Proof.Proofs

namespace Sys2Proof.Machine

/-! ### A strip put into its queue (12_isa_scalar R363, 06_core R171) -/

/-- A strip as STRIP queues it: its body is still to be loaded. -/
def freshStrip (hdr : Dword) (len count grp : Nat) : QStrip := { hdr := hdr, len := len, count := count, grp := grp, body := none, fault := none }

/-- The strip ends its column's queue, and its group is open. -/
theorem addStrip_eq (col : Col) (hdr : Dword) (len count align : Nat) (k : Core) :
    ∃ gs i n, addStrip col hdr len count align k =
      setCol col { getCol k col with queue := (getCol k col).queue ++ [freshStrip hdr len count i] } { k with groups := gs, openGrp := some i, nextGrp := n } := by
  cases isOpen : k.openGrp with
  | some i =>
    simp only [addStrip, isOpen, Option.getD_some]
    exact ⟨_, i, k.nextGrp, rfl⟩
  | none =>
    simp only [addStrip, isOpen, Option.getD_some]
    cases col <;> exact ⟨_, k.nextGrp, k.nextGrp + 1, rfl⟩

/-- What queueing a strip does to its core: the strip ends its column's queue, and the S stream, the general registers and the flags stay. -/
structure StripAdded (col : Col) (hdr : Dword) (len count : Nat) (k k' : Core) : Prop where
  queue : ∃ i, (getCol k' col).queue = (getCol k col).queue ++ [freshStrip hdr len count i]
  pc : k'.pc = k.pc
  xfer : k'.xfer = k.xfer
  g : k'.g = k.g
  flags : k'.flags = k.flags

section
variable (col : Col) (hdr : Dword) (len count align : Nat) (k : Core)

theorem stripAdded_addStrip : StripAdded col hdr len count k (addStrip col hdr len count align k) ∧ (addStrip col hdr len count align k).openGrp ≠ none := by
  obtain ⟨gs, i, n, e⟩ := addStrip_eq col hdr len count align k
  rw [e]
  exact ⟨⟨⟨i, by rw [getCol_setCol_self]⟩, by cases col <;> rfl, by cases col <;> rfl, by cases col <;> rfl, by cases col <;> rfl⟩,
    by cases col <;> exact Option.some_ne_none i⟩

end

theorem getCol_sNextAt (n : Nat) (s : State) (col : Col) : getCol (sNextAt n s).core col = getCol s.core col := by cases col <;> simp [getCol]

theorem getCol_closeGroup (c : Cycle) (align : Option Nat) (k : Core) (col : Col) : getCol (closeGroup c align k) col = getCol k col := by
  rw [closeGroup_frame]
  cases col <;> rfl

theorem StripAdded.closeGroup {col : Col} {hdr : Dword} {len count : Nat} {k k' : Core} (added : StripAdded col hdr len count k k') (c : Cycle)
    (align : Option Nat) : StripAdded col hdr len count k (closeGroup c align k') where
  queue := by rw [getCol_closeGroup]; exact added.queue
  pc := by rw [closeGroup_frame]; exact added.pc
  xfer := by rw [closeGroup_frame]; exact added.xfer
  g := by rw [closeGroup_frame]; exact added.g
  flags := by rw [closeGroup_frame]; exact added.flags

/-! ### The call for the clock of the memory base (01_package R22): it changes targets, not the time -/

theorem setTarget_cycles (i : Island) (mhz : Nat) : (setTarget i mhz).cycles = i.cycles := by
  unfold setTarget
  split
  · split <;> rfl
  · split <;> rfl
  · rfl

theorem cycOf_setIsland_setTarget (s : State) (n mhz : Nat) (c : CoreNo) : cycOf (setIsland s n (setTarget (getIsland s n) mhz)) c = cycOf s c := by
  unfold cycOf
  by_cases same : islandOf c = n
  · rw [same]
    by_cases inside : n < 24
    · rw [getIsland_setIsland_self inside, setTarget_cycles]
    · simp [getIsland, setIsland, List.set_eq_of_length_le, Nat.not_lt.mp inside]
  · rw [getIsland_setIsland_ne same]

/-- Only islands change, and no core's time. -/
def OnlyTargets (s t : State) : Prop := t = { s with islands := t.islands } ∧ ∀ c, cycOf t c = cycOf s c

theorem OnlyTargets.trans {s t u : State} (h : OnlyTargets s t) (k : OnlyTargets t u) : OnlyTargets s u :=
  ⟨k.1.trans (by rw [h.1]), fun c => (k.2 c).trans (h.2 c)⟩

theorem onlyTargets_wakeBases (s : State) (p : Nat) : OnlyTargets s (wakeBases s p) := by
  refine List.foldlRecOn (motive := OnlyTargets s) _ _ ⟨rfl, fun _ => rfl⟩ fun t h n _ => ?_
  dsimp only
  split
  · exact h.trans ⟨rfl, cycOf_setIsland_setTarget t n 1600⟩
  · exact h

/-! ### STRIP -/

/-- The strip queued, where its count is not 0, and its group closed, where the word says so. -/
def stripIssued (o : RStrip) (w : Word) (s : State) : State :=
  let n := (readG s o.g).toNat
  let col := colOfCode o.c
  let s' := if n = 0 then s
    else modCore (addStrip col ((getCol s.core col).entry + BitVec.ofNat 64 (4 * o.o.toNat)) (w.toNat % 4096 + 1) n o.l.toNat) s
  if o.j = 0 then modCore (closeGroup (cyc s) (some o.l.toNat)) s' else s'

/-- The header of a strip (R363). -/
def stripHeader (o : RStrip) (s : State) : Dword := (getCol s.core (colOfCode o.c)).entry + BitVec.ofNat 64 (4 * o.o.toNat)

section
variable {o : RStrip} {s : State}

theorem exec_strip_of_illegal (illegal : inHandler s = true ∨ 65535 < (readG s o.g).toNat) : exec (.strip o) s = sIllegal s :=
  if_pos (by simpa using illegal)

section
variable (outside : inHandler s = false) (few : (readG s o.g).toNat ≤ 65535)
include outside few

theorem exec_strip_of_unfetched {f : Failed} (failed : fetchWord s (stripHeader o s) = .error f) : exec (.strip o) s = .next (sFail f s) := by
  show execStrip o s = _
  rw [stripHeader] at failed
  simp only [execStrip, outside, Nat.not_lt.mpr few, failed]
  rfl

variable {w : Word} (fetched : fetchWord s (stripHeader o s) = .ok w)
include fetched

/-- STRIP with its header at hand: the checks of the header, of the open group and of the queue, in this order. -/
theorem exec_strip_of_fetched :
    exec (.strip o) s =
      if w.toNat / 65536 ≠ 0xC57A || w.toNat / 4096 % 16 ≠ 0 then sIllegal s
      else if (((openGroup s.core).map (·.cols)).getD []).contains (colOfCode o.c) then sIllegal s
      else if (readG s o.g).toNat ≠ 0 && stripQueueSize ≤ (getCol s.core (colOfCode o.c)).queue.length then .next (sBlock s)
      else
        let u := stripIssued o w s
        .next (sNext (match u.core.task with
          | some t => if (readG s o.g).toNat = 0 then u else wakeBases u t.part
          | none => u)) := by
  show execStrip o s = _
  rw [stripHeader] at fetched
  simp only [execStrip, outside, Nat.not_lt.mpr few, fetched]
  rfl

/-- A header of the right form. -/
def StripHeaderOk (w : Word) : Prop := w.toNat / 65536 = 0xC57A ∧ w.toNat / 4096 % 16 = 0

theorem exec_strip_of_bad (bad : ¬ StripHeaderOk w ∨ colOfCode o.c ∈ ((openGroup s.core).map (·.cols)).getD []) : exec (.strip o) s = sIllegal s := by
  rw [exec_strip_of_fetched outside few fetched]
  by_cases header : StripHeaderOk w
  · obtain ⟨mark, reserved⟩ := header
    have here := bad.resolve_left (not_not_intro ⟨mark, reserved⟩)
    rw [if_neg (by simp [mark, reserved]), if_pos (List.contains_iff_mem.mpr here)]
  · exact if_pos (by simpa [StripHeaderOk, imp_iff_not_or] using header)

section
variable (header : StripHeaderOk w) (absent : colOfCode o.c ∉ ((openGroup s.core).map (·.cols)).getD [])
include header absent

/-- A strip that may go into the open group, where its queue has room. -/
theorem exec_strip_of_fit :
    exec (.strip o) s =
      if (readG s o.g).toNat ≠ 0 && stripQueueSize ≤ (getCol s.core (colOfCode o.c)).queue.length then .next (sBlock s)
      else
        let u := stripIssued o w s
        .next (sNext (match u.core.task with
          | some t => if (readG s o.g).toNat = 0 then u else wakeBases u t.part
          | none => u)) := by
  obtain ⟨mark, reserved⟩ := header
  rw [exec_strip_of_fetched outside few fetched, if_neg (by simp [mark, reserved]), if_neg (mt List.contains_iff_mem.mp absent)]

theorem waits_strip (some : (readG s o.g).toNat ≠ 0) (full : 4 ≤ (getCol s.core (colOfCode o.c)).queue.length) : Waits (.strip o) s :=
  waits_of_sBlock ((exec_strip_of_fit outside few fetched header absent).trans
    (if_pos (Bool.and_eq_true_iff.mpr ⟨decide_eq_true some, decide_eq_true full⟩)))

/-- With a count of 0 nothing is queued; the group is closed where the word says so. -/
theorem exec_strip_of_none (none : (readG s o.g).toNat = 0) :
    exec (.strip o) s = .next (sNext (if o.j = 0 then modCore (closeGroup (cyc s) (some o.l.toNat)) s else s)) := by
  rw [exec_strip_of_fit outside few fetched header absent, if_neg (by simp [none])]
  simp only [stripIssued, none, if_true]
  split
  · rfl
  · rfl

theorem exec_strip_of_some (some : (readG s o.g).toNat ≠ 0) (room : (getCol s.core (colOfCode o.c)).queue.length < 4) :
    ∃ v, OnlyTargets (stripIssued o w s) v ∧ exec (.strip o) s = .next (sNext v) := by
  rw [exec_strip_of_fit outside few fetched header absent, if_neg (by rw [decide_eq_true some, Bool.true_and, decide_eq_true_eq]; exact Nat.not_le.mpr room)]
  simp only [if_neg some]
  split
  · exact ⟨_, onlyTargets_wakeBases _ _, rfl⟩
  · exact ⟨_, ⟨rfl, fun _ => rfl⟩, rfl⟩

end

end

/-- What a strip that is queued does to the state: the strip ends its queue, and its group is open or closed as the word says. -/
structure StripQueued (o : RStrip) (w : Word) (s t : State) : Prop where
  added : StripAdded (colOfCode o.c) (stripHeader o s) (w.toNat % 4096 + 1) (readG s o.g).toNat s.core t.core
  closes : o.j = 0 → t.core.openGrp = none
  staysOpen : o.j = 1 → t.core.openGrp ≠ none
  cycle : cyc t = cyc s
  memory : t.mem = s.mem

theorem stripQueued_stripIssued (some : (readG s o.g).toNat ≠ 0) (w : Word) : StripQueued o w s (stripIssued o w s) := by
  obtain ⟨added, isOpen⟩ := stripAdded_addStrip (colOfCode o.c) (stripHeader o s) (w.toNat % 4096 + 1) (readG s o.g).toNat o.l.toNat s.core
  simp only [stripIssued, if_neg some]
  split
  next closing => exact ⟨added.closeGroup _ _, fun _ => closeGroup_openGrp _ _ _, fun other => absurd (closing.symm.trans other) (by decide), rfl, rfl⟩
  next stays => exact ⟨added, fun closing => absurd closing stays, fun _ => isOpen, rfl, rfl⟩

theorem StripQueued.woken {w : Word} {u v : State} (queued : StripQueued o w s u) (targets : OnlyTargets u v) : StripQueued o w s v := by
  obtain ⟨frame, time⟩ := targets
  have core : v.core = u.core := by rw [frame]
  have focus : v.coreId = u.coreId := by rw [frame]
  refine ⟨core ▸ queued.added, core ▸ queued.closes, core ▸ queued.staysOpen, ?_, ?_⟩
  · rw [cyc, focus, time]
    exact queued.cycle
  · rw [frame]
    exact queued.memory

/-- The S stream has moved past a STRIP that queued its strip. -/
theorem StripQueued.retires {w : Word} {v : State} (queued : StripQueued o w s v) : Retires 1 s (sNext v) := by
  have h := retires_sNextAt 1 v
  have added := queued.added
  simpa [Retires, nextPc, nextXfer, added.xfer, added.pc, queued.cycle] using h

end

end Sys2Proof.Machine

namespace Sys2Proof.Proofs

open Sys2Proof.Machine

/-- Settles O24, check by check in the order in which STRIP makes them. -/
theorem stripQueueing : Obligations.StripQueueing := by
  unfold Obligations.StripQueueing
  intro s o w _
  refine ⟨exec_strip_of_illegal, fun outside few fetched => ⟨exec_strip_of_bad outside few fetched, fun header absent =>
    ⟨waits_strip outside few fetched header absent, fun some room => ?queues, fun none => ?nothing⟩⟩,
    fun f outside few failed => exec_strip_of_unfetched outside few failed⟩
  case queues =>
    obtain ⟨v, targets, runs⟩ := exec_strip_of_some outside few fetched header absent some room
    have queued := (stripQueued_stripIssued some w).woken targets
    obtain ⟨i, queue⟩ := queued.added.queue
    refine ⟨_, runs, queued.retires, ⟨i, ?_⟩, fun closing => ?_, fun stays => ?_, ?_, ?_, sameMemory_of_mem ?_⟩
    · exact (congrArg ColSeq.queue (getCol_sNextAt 1 v _)).trans queue
    · exact (sNextAt_core_openGrp ..).trans (queued.closes closing)
    · exact (sNextAt_core_openGrp 1 v) ▸ queued.staysOpen stays
    · exact (sNextAt_core_g ..).trans queued.added.g
    · exact (sNextAt_core_flags ..).trans queued.added.flags
    · exact (sNextAt_mem ..).trans queued.memory
  case nothing =>
    have runs := exec_strip_of_none outside few fetched header absent none
    by_cases stays : o.j = 1
    · have other : ¬ o.j = 0 := by simp [stays]
      rw [if_neg other] at runs
      rw [if_pos stays]
      exact completesWith_of_sNextAt (f := id) runs rfl rfl rfl
    · have closing : o.j = 0 := (BitVec.eq_zero_or_eq_one o.j).resolve_right stays
      rw [if_pos closing] at runs
      rw [if_neg stays]
      exact completesWith_of_sNextAt runs (by rw [modCore_core, closeGroup_frame]) (closeGroup_pc ..) rfl

end Sys2Proof.Proofs

namespace Sys2Proof.Machine

/-! ### CWAIT (12_isa_scalar R364) -/

/-- The acquire of a CWAIT leaves the S stream and the clock alone. -/
theorem joinObject_focus (p : Pte) (pa va : Nat) (s : State) : ∃ r, joinObject p pa va s = modCore (fun k => { k with race := r }) s := by
  obtain ⟨r, acquired⟩ := acquireInto_focus s (acquireFrom s s.coreId 2 (lineAt s pa p.keySlot).side)
  unfold joinObject
  rw [acquired]
  exact ⟨_, rfl⟩

theorem reached_iff (obj : Nat) (target : Dword) : reached obj target.toNat = true ↔ (obj + 2 ^ 64 - target.toNat) % 2 ^ 64 < 2 ^ 63 := by
  rw [reached, Nat.mod_eq_of_lt target.isLt, decide_eq_true_eq]

section
variable {s : State} {o : RWait} (fresh : s.core.phase ≠ 3)
include fresh

theorem trapsS_cwait_of_unaligned (odd : (readG s o.a).toNat % 8 ≠ 0) : TrapsS (.cwait o) s .alignment (readG s o.a) := by
  have first : s.core.phase ≠ awaiting := fresh
  show execCwait o s = _
  simp only [execCwait, if_neg first, if_pos odd, BitVec.ofNat_toNat, BitVec.setWidth_eq]

/-- A CWAIT that reads its object goes by whether the target is reached. -/
theorem exec_cwait_of_read {p : Pte} {pa : Nat} {bs : List Byte} (aligned : (readG s o.a).toNat % 8 = 0)
    (mapped : xlate s s.core.sys.world (readG s o.a).toNat false false = .ok (p, pa)) (cached : tlbHolds s.core s.core.sys.world (readG s o.a).toNat = true)
    (free : accessWaits s s.coreId pa = false) (home : isRemote s pa = false) (read : readObject s p pa (readG s o.a).toNat 8 = .ok bs) :
    exec (.cwait o) s =
      if reached (leNat bs) (readG s o.b).toNat then .next (sNextAt 4 (joinObject p pa (readG s o.a).toNat s)) else .next (sBlock s) := by
  have first : s.core.phase ≠ awaiting := fresh
  show execCwait o s = _
  simp only [execCwait, if_neg first, if_neg (not_not_intro aligned), mapped, cached, free, home, read, Bool.not_true, Bool.false_eq_true, if_false]

end

end Sys2Proof.Machine

namespace Sys2Proof.Proofs

open Sys2Proof.Machine

/-- Settles O25: the word that the object holds, compared with the target. -/
theorem completionWaits : Obligations.CompletionWaits := by
  unfold Obligations.CompletionWaits
  refine fun s o => ⟨fun fresh odd => trapsS_cwait_of_unaligned fresh odd, fun p pa bs fresh aligned mapped cached free home read => ?_⟩
  have runs := exec_cwait_of_read fresh aligned mapped cached free home read
  rw [← reached_iff]
  refine ⟨fun passed => ?_, fun short => waits_of_sBlock (runs.trans (if_neg short))⟩
  obtain ⟨r, joined⟩ := joinObject_focus p pa (readG s o.a).toNat s
  exact completesWith_of_sNextAt (runs.trans (if_pos passed)) (by rw [joined]; rfl) (by rw [joined]; rfl) (by rw [joined]; rfl)

end Sys2Proof.Proofs

namespace Sys2Proof.Machine

/-! ### BREAK (12_isa_scalar R349, 10_traps R320) -/

theorem execBrk_of_closed {s : State} (closed : s.core.sys.dbgEn = false ∨ debugClosed s = true) : exec .brk s = .next (sNext s) :=
  if_neg (by rcases closed with off | shut <;> simp [*])

theorem execBrk_of_open {s : State} (enabled : s.core.sys.dbgEn = true) (isOpen : debugClosed s = false) : TrapsS .brk s .debugBreak 0 :=
  if_pos (by simp [enabled, isOpen])

end Sys2Proof.Machine

namespace Sys2Proof.Proofs

open Sys2Proof.Machine

/-- Settles O18: TRAP moves on and takes its trap; BREAK goes by whether it is enabled. -/
theorem trapNopAndBreak : Obligations.TrapNopAndBreak := by
  unfold Obligations.TrapNopAndBreak
  refine ⟨fun s c => ⟨rfl, rfl, rfl, rfl, fun free => ?_⟩, fun s => ⟨?_, fun closed => ?_, execBrk_of_open⟩⟩
  · rw [sNext_eq_sNextAt, sNextAt_core_pc, nextPc_none free]
  · exact completesWith_of_sNextAt (f := id) rfl rfl rfl rfl
  · exact completesWith_of_sNextAt (f := id) (execBrk_of_closed closed) rfl rfl rfl

end Sys2Proof.Proofs

namespace Sys2Proof.Machine

/-! ### The values of the system registers (11_isa_formats R336, 12_isa_scalar R368, R369) -/

theorem calendarChannels_le (s : State) : calendarChannels s ≤ 256 :=
  (List.length_filter_le _ _).trans_eq List.length_range

theorem toNat_sysCaps (s : State) : (sysCaps s).toNat =
    2 ^ 60 + 24 * 2 ^ 54 + 16 * 2 ^ 49 + 1024 * 2 ^ 38 + 64 * 2 ^ 31 + 128 * 2 ^ 23 + calendarChannels s * 2 ^ 14 + 4 * 2 ^ 10 + 8 * 2 ^ 6 + 18 := by
  have channels := calendarChannels_le s
  rw [sysCaps, BitVec.toNat_ofNat, Nat.mod_eq_of_lt (by omega)]

theorem sysId_eq (s : State) : sysId s = s.ident ++ (0x4B51 : BitVec 16) ++ s.stepping ++ s.modrev ++ BitVec.ofBool s.cfgDefaulted := by
  have vendor : BitVec.toNat (0x4B51 : BitVec 16) = 0x4B51 := rfl
  have ident := s.ident.isLt
  have stepping := s.stepping.isLt
  have modrev := s.modrev.isLt
  have defaulted := s.cfgDefaulted.toNat_lt
  apply BitVec.eq_of_toNat_eq
  simp only [sysId, BitVec.toNat_ofNat, toNat_append_eq, BitVec.toNat_ofBool, vendor]
  omega

/-- TSLOT_VIEW holds the tag, the count, the poison and the owner of the slot side by side. -/
theorem toNat_tslotView (k : Core) :
    let x := getSlot k k.sys.tslotSel.toNat
    (tslotView k).toNat = x.owner.toNat * 2 ^ 21 + (decide (x.poison ≠ 0)).toNat * 2 ^ 20 + x.pend.toNat * 2 ^ 16 + x.tag.toNat := by
  intro x
  have tag := x.tag.isLt
  have pend := x.pend.isLt
  have owner := x.owner.isLt
  have poison := (decide (x.poison ≠ 0)).toNat_lt
  show (BitVec.ofNat 64 (x.owner.toNat * 2 ^ 21 + (decide (x.poison ≠ 0)).toNat * 2 ^ 20 + x.pend.toNat * 2 ^ 16 + x.tag.toNat)).toNat = _
  rw [BitVec.toNat_ofNat, Nat.mod_eq_of_lt (by omega)]

theorem tslotView_fields (k : Core) :
    let x := getSlot k k.sys.tslotSel.toNat
    let y := (tslotView k).toNat
    y % 2 ^ 16 = x.tag.toNat ∧ y / 2 ^ 16 % 2 ^ 4 = x.pend.toNat ∧ y.testBit 20 = decide (x.poison ≠ 0) ∧ y / 2 ^ 21 = x.owner.toNat := by
  intro x y
  have tag := x.tag.isLt
  have pend := x.pend.isLt
  have poison := (decide (x.poison ≠ 0)).toNat_lt
  have view : y = x.owner.toNat * 2 ^ 21 + (decide (x.poison ≠ 0)).toNat * 2 ^ 20 + x.pend.toNat * 2 ^ 16 + x.tag.toNat := toNat_tslotView k
  refine ⟨by omega, by omega, ?_, by omega⟩
  rw [Nat.testBit_eq_decide_div_mod_eq, show y / 2 ^ 20 % 2 = (decide (x.poison ≠ 0)).toNat by omega]
  cases decide (x.poison ≠ 0) <;> rfl

theorem mfsValue_levelIdx (s : State) (i : Fin 8) : mfsValue s (BitVec.ofNat 12 (0x028 + i.val)) = s.core.sys.levelIdx[i.val] := by
  have number : (BitVec.ofNat 12 (0x028 + i.val)).toNat = 0x028 + i.val := by
    rw [BitVec.toNat_ofNat, Nat.mod_eq_of_lt (by omega)]
  fin_cases i <;> simp [mfsValue]

section
variable {s : State}

theorem ckptStat_of_none {t : TaskRef} (task : s.core.task = some t) (outside : ckptOf s t = none) : ckptStat s = 0 := by
  simp only [ckptStat, task, outside]

theorem ckptStat_of_some {t : TaskRef} {k : Ckpt} (task : s.core.task = some t) (inside : ckptOf s t = some k) :
    ckptStat s = BitVec.ofNat 64 (k.ord.toNat * 2 ^ 32 + k.rolls.toNat * 2 ^ 17 + k.irrev.toNat * 2 ^ 16 + ckptUsed k t % 2 ^ 16) := by
  simp only [ckptStat, task, inside, Nat.reducePow]

theorem pointers_of_unowned (free : partOfCore s s.coreId = none) : capPtr s = 0 ∧ calOwn s = 0 := by
  simp only [capPtr, calOwn, free, and_self]

theorem pointers_of_owned (owned : partOfCore s s.coreId ≠ none) : (capPtr s).toNat % 4096 = 0 ∧ (calOwn s).toNat % 128 = 1 := by
  obtain ⟨p, part⟩ := Option.ne_none_iff_exists'.mp owned
  have offset : BitVec.toNat (0 : BitVec 12) = 0 := rfl
  have valid : BitVec.toNat (1 : BitVec 7) = 1 := rfl
  simp only [capPtr, calOwn, part, toNat_append_eq, offset, valid]
  omega

end

/-! ### The writes of MTS (R368) -/

section
variable {s : State} {a : GReg} {r : BitVec 12}

theorem completesWith_mts {f : State → State} (writes : mtsWrite s r (readG s a) = some (f s)) (xfer : (f s).core.xfer = s.core.xfer)
    (pc : (f s).core.pc = s.core.pc) (clock : cyc (f s) = cyc s) : CompletesWith (.mts a r) s 1 f := by
  refine completesWith_of_sNextAt ?_ xfer pc clock
  show execMts a r s = _
  rw [execMts, writes]
  rfl

theorem completesWith_mts_post {e : Effect} (writes : mtsWrite s r (readG s a) = some (post (cyc s) 0 e s)) :
    CompletesWith (.mts a r) s 1 (post (cyc s) 0 e) :=
  completesWith_mts writes rfl rfl rfl

theorem trapsS_mts (none : mtsWrite s r (readG s a) = none) : TrapsS (.mts a r) s .privilege 0 := by
  show execMts a r s = _
  rw [execMts, none]

/-- The registers that MTS writes at user level. -/
def writableRegs : List (BitVec 12) := [0x041, 0x044, 0x050, 0x051, 0x052, 0x060, 0x062, 0x063]

theorem mtsWrite_of_readOnly (x : Dword) (readOnly : r ∉ writableRegs) : mtsWrite s r x = none := by
  have other (n : BitVec 12) (mem : n ∈ writableRegs) : r.toNat ≠ n.toNat := fun same => readOnly (BitVec.eq_of_toNat_eq same ▸ mem)
  unfold mtsWrite
  split
  next h => exact absurd h (other 0x041 (by decide))
  next h => exact absurd h (other 0x044 (by decide))
  next h => exact absurd h (other 0x050 (by decide))
  next h => exact absurd h (other 0x051 (by decide))
  next h => exact absurd h (other 0x052 (by decide))
  next h => exact absurd h (other 0x060 (by decide))
  next h => exact absurd h (other 0x062 (by decide))
  next h => exact absurd h (other 0x063 (by decide))
  next => rfl

theorem roundingField_eq (x : Dword) (old : BitVec 3) :
    (if (x.extractLsb' 8 3).toNat ≤ 4 then x.extractLsb' 8 3 else old) = if x.toNat / 256 % 8 ≤ 4 then BitVec.ofNat 3 (x.toNat / 256) else old := by
  have field : x.extractLsb' 8 3 = BitVec.ofNat 3 (x.toNat / 256) := congrArg (BitVec.ofNat 3) (Nat.shiftRight_eq_div_pow x.toNat 8)
  rw [field, BitVec.toNat_ofNat]

theorem ringLenField_eq (x : Dword) : (if 16 < x.toNat % 32 then 16 else x.extractLsb' 0 5) = BitVec.ofNat 5 (min (x.toNat % 32) 16) := by
  split
  next above => rw [Nat.min_eq_right (Nat.le_of_lt above)]; rfl
  next fits =>
    apply BitVec.eq_of_toNat_eq
    rw [Nat.min_eq_left (Nat.not_lt.mp fits), BitVec.extractLsb'_toNat, BitVec.toNat_ofNat, Nat.shiftRight_zero]
    exact (Nat.mod_mod _ _).symm

end

end Sys2Proof.Machine

namespace Sys2Proof.Proofs

open Sys2Proof.Machine

/-- Settles O16, register by register. -/
theorem systemRegisterAccesses : Obligations.SystemRegisterAccesses := by
  unfold Obligations.SystemRegisterAccesses
  have zeroExtended {n : Nat} (x : BitVec n) : x.zeroExtend 64 = BitVec.ofNat 64 x.toNat := (BitVec.ofNat_toNat 64 x).symm
  refine ⟨fun s d => ⟨fun r => writesG_of_aluEnd rfl, rfl, rfl, rfl, rfl, zeroExtended _, rfl, rfl, rfl, rfl, rfl, rfl, zeroExtended _, zeroExtended _,
      mfsValue_levelIdx s, toNat_sysCaps s, calendarChannels_le s, sysId_eq s, rfl, zeroExtended _, zeroExtended _, rfl, zeroExtended _,
      tslotView_fields s.core, fun x task outside => ckptStat_of_none task outside, fun x k task inside => ckptStat_of_some task inside,
      pointers_of_unowned, pointers_of_owned⟩,
    fun s a => ⟨completesWith_mts rfl rfl rfl rfl, completesWith_mts rfl rfl rfl rfl, ?fpCtl, completesWith_mts_post rfl, completesWith_mts_post rfl,
      completesWith_mts_post rfl, ?ringLen, completesWith_mts_post rfl, fun r _ readOnly => trapsS_mts (mtsWrite_of_readOnly _ readOnly)⟩⟩
  case fpCtl =>
    rw [← roundingField_eq]
    exact completesWith_mts_post rfl
  case ringLen =>
    rw [← ringLenField_eq]
    exact completesWith_mts_post rfl

end Sys2Proof.Proofs

namespace Sys2Proof.Machine

/-! ### The C column past its word (06_core R173) -/

/-- Where the C column stands once it has moved past a word that issued in this cycle. -/
theorem run_colNext {s u : State} (seq : getCol u.core .colC = getCol s.core .colC) (clock : cyc u = cyc s) :
    (getCol (colNext .colC u).core .colC).run = (getCol (passed .colC (cyc s) s.core) .colC).run := by
  rw [colNext, colNextAfter_eq_passed, modCore_core, passed, passed, getCol_setCol_self, getCol_setCol_self, seq, clock]

/-! ### Accumulators: a read after a write -/

theorem readA_colNext (s : State) (n : BitVec 2) : readA (colNext .colC s) n = readA s n := rfl

theorem readA_takePort (m : Nat) (s : State) (n : BitVec 2) : readA (takePort m s) n = readA s n := rfl

theorem readA_writeAcc (n : BitVec 2) (a : Acc) (s : State) : readA (writeAcc n a s) n = a := Vector.getElem_set_self ..

theorem readA_accWrite (n : BitVec 2) (due : Cycle) (a : Acc) (s : State) : readA (accWrite n due a s) n = { a with writeDone := due + 1 } :=
  readA_writeAcc ..

theorem getCol_accWrite (n : BitVec 2) (due : Cycle) (a : Acc) (s : State) (c : Col) : getCol (accWrite n due a s).core c = getCol s.core c := by
  cases c <;> rfl

theorem cyc_accWrite (n : BitVec 2) (due : Cycle) (a : Acc) (s : State) : cyc (accWrite n due a s) = cyc s := rfl

theorem getCol_releaseLatches (due : Cycle) (n : Nat) (k : Core) (c : Col) : getCol (releaseLatches due n k) c = getCol k c := by cases c <;> rfl

theorem getCol_takeArray (till : Cycle) (k : Core) (c : Col) : getCol (takeArray till k) c = getCol k c := by cases c <;> rfl

section
variable (due : Cycle) (f : FpFlags) (source : Nat) (pc : Dword) (s : State)

theorem getCol_postFlags (c : Col) : getCol (postFlags due f source pc s).core c = getCol s.core c := by
  unfold postFlags
  split
  · rfl
  · cases c <;> rfl

theorem cyc_postFlags : cyc (postFlags due f source pc s) = cyc s := by
  unfold postFlags
  split
  · rfl
  · rfl

theorem readA_postFlags (n : BitVec 2) : readA (postFlags due f source pc s) n = readA s n := by
  unfold postFlags
  split
  · rfl
  · rfl

end

/-! ### Elements of numbers -/

theorem elemAt_mod_two_pow (x : Nat) {w i k : Nat} (fits : w * (i + 1) ≤ k) : elemAt (x % 2 ^ k) w i = elemAt x w i := by
  refine Nat.eq_of_testBit_eq fun j => ?_
  simp only [elemAt, Nat.testBit_mod_two_pow, Nat.testBit_div_two_pow]
  by_cases inside : j < w
  · have below : j + w * i < k := by
      rw [Nat.mul_add_one] at fits
      omega
    simp [inside, below]
  · simp [inside]

/-- The low elements of two numbers side by side. -/
theorem elemAt_add_mul_two_pow (x y : Nat) {w i k : Nat} (fits : w * (i + 1) ≤ k) : elemAt (x + y * 2 ^ k) w i = elemAt x w i := by
  rw [← elemAt_mod_two_pow _ fits, Nat.add_mul_mod_self_right, elemAt_mod_two_pow _ fits]

theorem elemAt_ofNat (x : Nat) {n w i : Nat} (fits : w * (i + 1) ≤ n) : elemAt (BitVec.ofNat n x).toNat w i = elemAt x w i := by
  rw [BitVec.toNat_ofNat, elemAt_mod_two_pow _ fits]

/-! ### Checks that pass -/

section
variable {s : State}

theorem accFree_of_idle {n : BitVec 2} (idle : AIdle s n) : accFree s n = .ok (readA s n) := by
  obtain ⟨steps, writes⟩ := idle
  exact if_neg (by simp [Nat.not_lt.mpr steps, Nat.not_lt.mpr writes])

theorem vFree_of_idle {n : BitVec 5} (free : (readV s n).busy = 0) : vFree s n = .ok (readV s n) := if_neg (not_not_intro free)

theorem need_of {p : Prop} [Decidable p] (h : p) (t : Trap) : need p t = .ok () := if_pos (decide_eq_true h)

theorem vTagIn_of_mem {n : BitVec 5} {r : VReg} {set : List Nat} (mem : r.tag.toNat ∈ set) : vTagIn n r set = .ok () :=
  if_pos (List.contains_iff_mem.mpr mem)

end

/-! ### Control words (R400) -/

section
variable {s : State}

/-- An accumulator without sums, state and context. -/
def zeroed (s : State) (n : BitVec 2) : Acc :=
  { Acc.zero with window := (readA s n).window, stepDone := (readA s n).stepDone, ctx := { (readA s n).ctx with isOpen := false, closing := 0, cursor := 0 } }

theorem exec_mzero_of_idle {o : AccOp} (idle : AIdle s o.n) :
    exec (.mzero o) s = .next (colNext .colC (accWrite o.n (cyc s + 1) (zeroed s o.n) (modCore (releaseLatches (cyc s + 1) o.n.toNat) s))) := by
  show execMzero o s = _
  simp only [execMzero, accFree_of_idle idle]
  rfl

theorem exec_mclose_of_shut {o : AccOp} (idle : AIdle s o.n) (shut : (readA s o.n).ctx.isOpen = false) : exec (.mclose o) s = .next (colNext .colC s) := by
  show execMclose o s = _
  simp only [execMclose, accFree_of_idle idle]
  show runCol .colC s (if (!(readA s o.n).ctx.isOpen) = true then _ else _) = _
  rw [shut]
  rfl

/-- The cycle from which the array is free again after the close of an open context. -/
def closeEnd (s : State) (n : BitVec 2) : Cycle := cyc s + wakeDelay s + closeCycles (sideGroups s n (readA s n).ctx)

/-- What the close of an open context leaves of its accumulator, with the flags of the arithmetic. -/
def closeResult (s : State) (n : BitVec 2) : Acc × FpFlags := closeAcc s (closeEnd s n + 8) (sideGroups s n (readA s n).ctx) (readA s n)

/-- The state that MCLOSE of an open context leaves, but for the flags of its arithmetic and the column's place. -/
def closed (s : State) (n : BitVec 2) : State :=
  modCore (takeArray (closeEnd s n)) (accWrite n (closeEnd s n + 8) (closeResult s n).1 (modCore (releaseLatches (closeEnd s n + 8) n.toNat) s))

theorem exec_mclose_of_open {o : AccOp} (idle : AIdle s o.n) (isOpen : (readA s o.n).ctx.isOpen = true) (tag : (readA s o.n).tag.toNat ≠ tagInt32)
    (free : s.core.units.array ≤ cyc s) :
    exec (.mclose o) s = .next (colNext .colC (postFlags (closeEnd s o.n + 8) (closeResult s o.n).2 wordSource (wordAddr (closed s o.n).core .colC) (closed s o.n))) := by
  show execMclose o s = _
  simp only [execMclose, accFree_of_idle idle]
  show runCol .colC s (if (!(readA s o.n).ctx.isOpen) = true then _ else if (readA s o.n).tag.toNat = tagInt32 then _ else _) = _
  rw [isOpen, if_neg (by decide), if_neg tag, arrayFree, need_of free]
  rfl

theorem isOpen_closed (s : State) (n : BitVec 2) : (readA (closed s n) n).ctx.isOpen = false :=
  congrArg (fun a : Acc => a.ctx.isOpen) (readA_accWrite n _ _ _)

theorem getCol_closed (s : State) (n : BitVec 2) (c : Col) : getCol (closed s n).core c = getCol s.core c := by
  rw [closed, modCore_core, getCol_takeArray, getCol_accWrite, modCore_core, getCol_releaseLatches]

theorem cyc_closed (s : State) (n : BitVec 2) : cyc (closed s n) = cyc s := rfl

/-- MCLOSE leaves no open context. -/
theorem mclose_closes {o : AccOp} (idle : AIdle s o.n)
    (ready : (readA s o.n).ctx.isOpen = false ∨ ((readA s o.n).tag.toNat ≠ tagInt32 ∧ s.core.units.array ≤ cyc s)) :
    ∃ u, exec (.mclose o) s = .next (colNext .colC u) ∧ getCol u.core .colC = getCol s.core .colC ∧ cyc u = cyc s
      ∧ (readA u o.n).ctx.isOpen = false := by
  cases h : (readA s o.n).ctx.isOpen with
  | false => exact ⟨s, exec_mclose_of_shut idle h, rfl, rfl, h⟩
  | true =>
    obtain ⟨tag, free⟩ := ready.resolve_left (by simp [h])
    exact ⟨_, exec_mclose_of_open idle h tag free, (getCol_postFlags ..).trans (getCol_closed ..), (cyc_postFlags ..).trans (cyc_closed ..),
      (congrArg (fun a : Acc => a.ctx.isOpen) (readA_postFlags ..)).trans (isOpen_closed s o.n)⟩

theorem mwake_wakes (o : Gap) (s : State) :
    ∃ u, exec (.mwake o) s = .next (colNext .colC u) ∧ getCol u.core .colC = getCol s.core .colC ∧ cyc u = cyc s
      ∧ (s.core.units.awake ≤ cyc s → u.core.units.gated = false) := by
  refine ⟨_, rfl, rfl, rfl, fun awake => ?_⟩
  rw [modCore_core]
  dsimp only
  rw [if_neg (Nat.not_lt.mpr awake)]
  split
  · rfl
  next ungated => exact Bool.eq_false_iff.mpr ungated

/-! ### Transfers (R404, R405) -/

theorem portFree_of_le (port : s.core.units.accPort ≤ cyc s) : portFree s = .ok () := need_of port _

theorem exec_mstget_of_idle {o : AccV} (idle : AIdle s o.n) (port : s.core.units.accPort ≤ cyc s) (free : (readV s o.v).busy = 0) :
    exec (.mstget o) s = .next (colNext .colC (takePort 1 (sendV (cyc s + 4) o.v ((readA s o.n).m.toNat + (readA s o.n).l.toNat * 2 ^ 2048) tagRaw 2 64
      (readA s o.n).poison s))) := by
  show execMstget o s = _
  simp only [execMstget, accFree_of_idle idle, vFree_of_idle free, portFree_of_le port]
  rfl

theorem getCol_takePort (n : Nat) (s : State) (c : Col) : getCol (takePort n s).core c = getCol s.core c := by cases c <;> rfl

theorem cyc_takePort (n : Nat) (s : State) : cyc (takePort n s) = cyc s := rfl

theorem getCol_post (due : Cycle) (order : Nat) (e : Effect) (s : State) (c : Col) : getCol (post due order e s).core c = getCol s.core c := by
  cases c <;> rfl

theorem getCol_sendV (due : Cycle) (d : BitVec 5) (data tag rows cols : Nat) (poison : Bool) (s : State) (c : Col) :
    getCol (sendV due d data tag rows cols poison s).core c = getCol s.core c := by
  rw [sendV, getCol_post, getCol_post]

theorem cyc_sendV (due : Cycle) (d : BitVec 5) (data tag rows cols : Nat) (poison : Bool) (s : State) : cyc (sendV due d data tag rows cols poison s) = cyc s := rfl

/-- The write of a v register that a word sends. -/
def sentV (due : Cycle) (d : BitVec 5) (data tag rows cols : Nat) (poison : Bool) : Fx :=
  { due := due, order := 2, eff := .vWrite d (BitVec.ofNat 65536 data) (BitVec.ofNat 4 tag) rows cols poison true }

theorem eff_sentV (due : Cycle) (d : BitVec 5) (data : Nat) (tag : BitVec 4) (rows cols : Nat) (poison : Bool) :
    (sentV due d data tag.toNat rows cols poison).eff = .vWrite d (BitVec.ofNat 65536 data) tag rows cols poison true := by
  rw [sentV, BitVec.ofNat_toNat, BitVec.setWidth_eq]

theorem mem_fx_colNext_takePort (n : Nat) {x : Fx} {s : State} (mem : x ∈ s.core.fx) : x ∈ (colNext .colC (takePort n s)).core.fx := mem

theorem mem_fx_sendV (due : Cycle) (d : BitVec 5) (data tag rows cols : Nat) (poison : Bool) (s : State) :
    sentV due d data tag rows cols poison ∈ (sendV due d data tag rows cols poison s).core.fx :=
  List.mem_append_right _ (List.mem_singleton_self _)

theorem mem_fx_sendV_of_mem {x : Fx} (due : Cycle) (d : BitVec 5) (data tag rows cols : Nat) (poison : Bool) (mem : x ∈ s.core.fx) :
    x ∈ (sendV due d data tag rows cols poison s).core.fx :=
  List.mem_append_left _ (List.mem_append_left _ mem)

/-- The row state that MSTSET writes. -/
def withRowState (a : Acc) (x : VReg) : Acc :=
  { a with m := BitVec.ofNat 2048 x.data.toNat, l := BitVec.ofNat 2048 (x.data.toNat / 2 ^ 2048), poison := a.poison || x.poison }

theorem exec_mstset_of_idle {o : AccV} (idle : AIdle s o.n) (port : s.core.units.accPort ≤ cyc s) (source : VIdle s o.v)
    (tag : (readV s o.v).tag.toNat = tagRaw) (count : vCount (readV s o.v) = 128) :
    exec (.mstset o) s = .next (colNext .colC (takePort 1 (accWrite o.n (cyc s + 4) (withRowState (readA s o.n) (readV s o.v)) s))) := by
  have tagOk : vTagIn o.v (readV s o.v) [tagRaw, tagInt32] = .ok () := vTagIn_of_mem (by simp [tag])
  show execMstset o s = _
  simp only [execMstset, accFree_of_idle idle, vReady_of_idle source, portFree_of_le port]
  show runCol .colC s (vTagIn o.v (readV s o.v) [tagRaw, tagInt32] >>= fun _ => need (vCount (readV s o.v) = 128) _ >>= fun _ => _) = _
  rw [tagOk, need_of count]
  rfl

theorem pairOk_of_lt {v : BitVec 5} (lt : v.toNat < 31) : pairOk v 2 = .ok () := need_of (by omega) _

theorem exec_macc2v_of_idle {o : AccV} (idle : AIdle s o.n) (port : s.core.units.accPort ≤ cyc s) (lt : o.v.toNat < 31)
    (low : (readV s o.v).busy = 0) (high : (readV s (o.v + 1)).busy = 0) :
    exec (.macc2v o) s = .next (colNext .colC (takePort 8
      (sendV (cyc s + 12) (o.v + 1) ((readA s o.n).sums.toNat / 2 ^ 65536) (readA s o.n).tag.toNat 32 64 (readA s o.n).poison
        (sendV (cyc s + 12) o.v ((readA s o.n).sums.toNat % 2 ^ 65536) (readA s o.n).tag.toNat 32 64 (readA s o.n).poison s)))) := by
  show execMacc2v o s = _
  simp only [execMacc2v, pairOk_of_lt lt, accFree_of_idle idle, vFree_of_idle low, vFree_of_idle high, portFree_of_le port]
  rfl

/-- The accumulator that two v registers fill. -/
def filled (a : Acc) (x y : VReg) : Acc :=
  { a with sums := BitVec.ofNat 131072 (x.data.toNat + y.data.toNat * 2 ^ 65536), tag := x.tag, poison := x.poison || y.poison }

theorem wholeReg_of {n : BitVec 5} {r : VReg} {set : List Nat} (mem : r.tag.toNat ∈ set) (count : vCount r = 2048) : wholeReg n r set = .ok () := by
  rw [wholeReg, vTagIn_of_mem mem, need_of count]
  rfl

theorem exec_mv2acc_of_idle {o : AccV} (idle : AIdle s o.n) (port : s.core.units.accPort ≤ cyc s) (lt : o.v.toNat < 31)
    (low : VIdle s o.v) (high : VIdle s (o.v + 1)) (tag : (readV s o.v).tag.toNat = tagFp32) (tag' : (readV s (o.v + 1)).tag.toNat = tagFp32)
    (count : vCount (readV s o.v) = 2048) (count' : vCount (readV s (o.v + 1)) = 2048) :
    exec (.mv2acc o) s = .next (colNext .colC (takePort 8
      (accWrite o.n (cyc s + 12) (filled (readA s o.n) (readV s o.v) (readV s (o.v + 1))) s))) := by
  have lowOk : wholeReg o.v (readV s o.v) [tagFp32, tagInt32] = .ok () := wholeReg_of (by simp [tag]) count
  have highOk : wholeReg (o.v + 1) (readV s (o.v + 1)) [(readV s o.v).tag.toNat] = .ok () := wholeReg_of (List.mem_singleton.mpr (tag'.trans tag.symm)) count'
  show execMv2acc o s = _
  simp only [execMv2acc, pairOk_of_lt lt, accFree_of_idle idle, vReady_of_idle low, vReady_of_idle high, portFree_of_le port]
  show runCol .colC s (wholeReg o.v (readV s o.v) _ >>= fun _ => wholeReg (o.v + 1) (readV s (o.v + 1)) _ >>= fun _ => _) = _
  rw [lowOk, highOk]
  rfl

/-! ### MADH (R406) -/

/-- The handles that MADH reads from its v register. -/
def madhHandles (o : MadhOp) (s : State) : Vector (BitVec 32) 8 :=
  Vector.ofFn fun i => BitVec.ofNat 32 (elemAt (readV s o.v).data.toNat 32 i.val % 2 ^ 24)

/-- MADH with H = 1: the groups of the new handles pinned, and the handles on their way; with H = 0 nothing. -/
def madhPinned (o : MadhOp) (s : State) : State :=
  if o.h = 1 then
    let pinned := pinGroups o.n.toNat (modCore (fun k => { k with ah := k.ah.set o.n.toNat { readAh s o.n with handles := madhHandles o s } o.n.isLt }) s)
    post (cyc s + 1) 2 (.handles o.n (madhHandles o s))
      (modCore (fun k => { k with ah := k.ah.set o.n.toNat { (k.ah[o.n.toNat]'o.n.isLt) with handles := (readAh s o.n).handles } o.n.isLt }) pinned)
  else s

/-- MADH with C = 1: the layer, projection and block of the side context. -/
def madhCtx (o : MadhOp) (s : State) : SideCtx :=
  let e (i : Nat) : Nat := elemAt (readV s o.v).data.toNat 32 i
  if o.c = 1 then { (readA s o.n).ctx with layer := BitVec.ofNat 12 (e 8), proj := BitVec.ofNat 4 (e 9), blk := BitVec.ofNat 16 (e 10) } else (readA s o.n).ctx

theorem exec_madh_of_idle {o : MadhOp} (source : VIdle s o.v) (idle : AIdle s o.n) (shut : (readA s o.n).ctx.isOpen = false)
    (tag : (readV s o.v).tag.toNat = tagRaw) (count : 16 ≤ vCount (readV s o.v)) (clean : (readV s o.v).poison = false) :
    exec (.madh o) s = .next (colNext .colC (accWrite o.n (cyc s + 1) { readA s o.n with ctx := madhCtx o s } (madhPinned o s))) := by
  have tagOk : vTagIn o.v (readV s o.v) [tagRaw, tagInt32, tagIndex32] = .ok () := vTagIn_of_mem (by simp [tag])
  have shutOk : need (!(readA s o.n).ctx.isOpen) (trapOf .illegal) = .ok () := if_pos (by rw [shut]; rfl)
  have cleanOk : unpoisoned (readV s o.v).poison = .ok () := if_pos (by rw [clean]; rfl)
  show execMadh o s = _
  simp only [execMadh, vReady_of_idle source, accFree_of_idle idle]
  show runCol .colC s (need (!(readA s o.n).ctx.isOpen) (trapOf .illegal) >>= fun _ => vTagIn o.v (readV s o.v) [tagRaw, tagInt32, tagIndex32] >>= fun _ =>
    need (16 ≤ vCount (readV s o.v)) _ >>= fun _ => unpoisoned (readV s o.v).poison >>= fun _ => _) = _
  rw [shutOk, tagOk, need_of count, cleanOk]
  rfl

theorem withoutPins_pinGroups (n : Nat) (s : State) : withoutPins (pinGroups n s).core = withoutPins s.core :=
  foldl_keeps (p := fun t => withoutPins t.core) (fun t g => withoutPins_pinGroup n g t) _ s

theorem getCol_pinGroups (n : Nat) (s : State) (c : Col) : getCol (pinGroups n s).core c = getCol s.core c := by
  rw [← getCol_withoutPins, withoutPins_pinGroups, getCol_withoutPins]

theorem cyc_pinGroups (n : Nat) (s : State) : cyc (pinGroups n s) = cyc s := foldl_keeps (p := cyc) (fun t g => cyc_pinGroup n g t) _ s

theorem getCol_setAh (f : Core → Vector AhReg 4) (s : State) (c : Col) : getCol (modCore (fun k => { k with ah := f k }) s).core c = getCol s.core c := by
  cases c <;> rfl

theorem getCol_madhPinned (o : MadhOp) (s : State) : getCol (madhPinned o s).core .colC = getCol s.core .colC := by
  unfold madhPinned
  split
  · dsimp only
    rw [getCol_post, getCol_setAh, getCol_pinGroups, getCol_setAh]
  · rfl

theorem cyc_madhPinned (o : MadhOp) (s : State) : cyc (madhPinned o s) = cyc s := by
  unfold madhPinned
  split
  · dsimp only
    rw [post, cyc_modCore, cyc_modCore, cyc_pinGroups, cyc_modCore]
  · rfl

end

/-! ### STRIP and MEET: what is left in the queue and of the arrivals (R363, R365) -/

theorem retires_sNextAt_of_same (n : Nat) {s u : State} (xfer : u.core.xfer = s.core.xfer) (pc : u.core.pc = s.core.pc) (clock : cyc u = cyc s) :
    Retires n s (sNextAt n u) := by
  simpa [Retires, nextPc, nextXfer, xfer, pc, clock] using retires_sNextAt n u

section
variable {o : RStrip} {s : State} {w : Word} (outside : inHandler s = false) (few : (readG s o.g).toNat ≤ 65535)
  (fetched : fetchWord s (stripHeader o s) = .ok w) (header : StripHeaderOk w)
  (absent : colOfCode o.c ∉ ((openGroup s.core).map (·.cols)).getD []) (room : (getCol s.core (colOfCode o.c)).queue.length < 4)
include outside few fetched header absent room

/-- A STRIP that finds room adds one strip to its queue, or none where its count is 0. -/
theorem strip_lengthens : ∃ t, exec (.strip o) s = .next t ∧ Retires 1 s t
    ∧ (getCol t.core (colOfCode o.c)).queue.length = (getCol s.core (colOfCode o.c)).queue.length + (if readG s o.g = 0 then 0 else 1) := by
  by_cases none : readG s o.g = 0
  · refine ⟨_, exec_strip_of_none outside few fetched header absent (congrArg BitVec.toNat none), ?_, ?_⟩
    · split
      · exact retires_sNextAt_of_same 1 (by rw [modCore_core, closeGroup_frame]) (closeGroup_pc ..) rfl
      · exact retires_sNextAt 1 s
    · rw [sNext_eq_sNextAt, getCol_sNextAt, if_pos none]
      split
      · rw [modCore_core, getCol_closeGroup, Nat.add_zero]
      · rfl
  · have some : (readG s o.g).toNat ≠ 0 := fun h => none (BitVec.eq_of_toNat_eq h)
    obtain ⟨v, targets, runs⟩ := exec_strip_of_some outside few fetched header absent some room
    have queued := (stripQueued_stripIssued some w).woken targets
    obtain ⟨i, queue⟩ := queued.added.queue
    refine ⟨_, runs, queued.retires, ?_⟩
    rw [sNext_eq_sNextAt, getCol_sNextAt, queue, if_neg none, List.length_append, List.length_singleton]

end

end Sys2Proof.Machine

namespace Sys2Proof.Proofs

open Sys2Proof.Machine

/-- Settles O58, word by word: each meets its checks, and the effect stands in the state that it leaves. -/
theorem stripMeetAndAccumulatorCompletion : Obligations.StripMeetAndAccumulatorCompletion := by
  unfold Obligations.StripMeetAndAccumulatorCompletion
  intro s
  refine ⟨fun o w _ outside few fetched mark reserved absent room => strip_lengthens outside few fetched ⟨mark, reserved⟩ absent room,
    fun o k l task launch level barrier outside fits => ⟨?arrive, ?leave⟩,
    fun o idle => ⟨?mzero, ?mclose⟩, ?mwake, fun o => ⟨?mopen, ?mshut⟩,
    fun o idle port => ⟨?mstget, ?mstset, ?macc2v, ?mv2acc⟩, ?madh⟩
  case arrive =>
    intro form phase free done loads stores timed
    have legal := not_meetIllegal level barrier outside fits
    have arrives : o.f.toNat = 0 := congrArg BitVec.toNat form
    obtain ⟨t, a, runs, recorded, described, arrived, -⟩ := meetArrive_records (t := k) (l := l) (lv := o.l.toNat) (form := o.f.toNat) phase
      ⟨fun a outstanding => absurd (free.symm.trans outstanding) nofun, fun _ => done, loads, stores, timed⟩
    exact ⟨t, a, (exec_meet_of_arriving task launch legal (by simp [form]) phase).trans runs, arrived arrives, recorded, described.incomplete⟩
  case leave =>
    intro a waits outstanding inView complete
    obtain ⟨retires, taken, -⟩ := meetEnd_keeps k o.l.toNat a s
    refine ⟨_, ?_, retires, taken⟩
    simp only [exec_meet_of_waiting task launch (not_meetIllegal level barrier outside fits) waits, meetWaiting, outstanding, inView, complete]
    rfl
  case mzero =>
    have write := readA_accWrite o.n (cyc s + 1) (zeroed s o.n) (modCore (releaseLatches (cyc s + 1) o.n.toNat) s)
    exact ⟨_, exec_mzero_of_idle idle,
      run_colNext (by rw [getCol_accWrite, modCore_core, getCol_releaseLatches]) (by rw [cyc_accWrite, cyc_modCore]),
      congrArg Acc.sums write, congrArg Acc.l write, congrArg (fun a : Acc => a.ctx.isOpen) write⟩
  case mclose =>
    intro ready
    obtain ⟨u, runs, seq, clock, shut⟩ := mclose_closes idle ready
    exact ⟨_, runs, run_colNext seq clock, shut⟩
  case mwake =>
    intro o
    obtain ⟨u, runs, seq, clock, awake⟩ := mwake_wakes o s
    exact ⟨_, runs, run_colNext seq clock, awake⟩
  case mopen => exact ⟨_, rfl, run_colNext rfl rfl, congrArg Acc.window (readA_writeAcc o.n _ s)⟩
  case mshut => exact ⟨_, rfl, run_colNext rfl rfl, congrArg Acc.window (readA_writeAcc o.n _ s)⟩
  case mstget =>
    intro free
    refine ⟨_, _, exec_mstget_of_idle idle port free, run_colNext (by rw [getCol_takePort, getCol_sendV]) (by rw [cyc_takePort, cyc_sendV]),
      mem_fx_colNext_takePort 1 (mem_fx_sendV ..), rfl, _, rfl, fun r lt => ?_⟩
    have row : 32 * (r + 1) ≤ 2048 := by omega
    rw [elemAt_ofNat _ (row.trans (by decide)), elemAt_add_mul_two_pow _ _ row]
  case mstset =>
    intro source tag count
    refine ⟨_, exec_mstset_of_idle idle port source tag count,
      run_colNext (by rw [getCol_takePort, getCol_accWrite]) (by rw [cyc_takePort, cyc_accWrite]), fun r lt => ?_⟩
    have write := readA_accWrite o.n (cyc s + 4) (withRowState (readA s o.n) (readV s o.v)) s
    rw [readA_colNext, readA_takePort, write]
    exact elemAt_ofNat _ (by omega)
  case macc2v =>
    intro lt low high
    refine ⟨_, _, exec_macc2v_of_idle idle port lt low high,
      run_colNext (by rw [getCol_takePort, getCol_sendV, getCol_sendV]) (by rw [cyc_takePort, cyc_sendV, cyc_sendV]),
      mem_fx_colNext_takePort 8 (mem_fx_sendV_of_mem _ _ _ _ _ _ _ (mem_fx_sendV ..)), rfl, _, eff_sentV .., fun i lt => ?_⟩
    have cell : 32 * (i + 1) ≤ 65536 := by omega
    rw [elemAt_ofNat _ cell, elemAt_mod_two_pow _ cell]
  case mv2acc =>
    intro lt low high tag tag' count count'
    have write := readA_accWrite o.n (cyc s + 12) (filled (readA s o.n) (readV s o.v) (readV s (o.v + 1))) s
    refine ⟨_, exec_mv2acc_of_idle idle port lt low high tag tag' count count',
      run_colNext (by rw [getCol_takePort, getCol_accWrite]) (by rw [cyc_takePort, cyc_accWrite]),
      (congrArg (fun a : Acc => a.tag.toNat) write).trans tag, fun i lt => ?_⟩
    have cell : 32 * (i + 1) ≤ 65536 := by omega
    rw [readA_colNext, readA_takePort, write]
    exact (elemAt_ofNat _ (cell.trans (by decide))).trans (elemAt_add_mul_two_pow _ _ cell)
  case madh =>
    intro o source idle shut tag count clean
    refine ⟨_, exec_madh_of_idle source idle shut tag count clean, run_colNext (getCol_madhPinned o s) (cyc_madhPinned o s), fun named => ?_⟩
    rw [readA_colNext, readA_accWrite, madhCtx, if_pos named, BitVec.toNat_ofNat]

end Sys2Proof.Proofs

namespace Sys2Proof.Machine

/-! ### Elements laid side by side (13_isa_vector R371) -/

theorem packBits_lt (w : Nat) : ∀ l : List Nat, packBits w l < 2 ^ (w * l.length)
  | [] => by simp [packBits]
  | x :: xs => by
    have low : x % 2 ^ w < 2 ^ w := Nat.mod_lt _ (Nat.two_pow_pos w)
    have high : packBits w xs + 1 ≤ 2 ^ (w * xs.length) := packBits_lt w xs
    have width : 2 ^ (w * (x :: xs).length) = 2 ^ w * 2 ^ (w * xs.length) := by rw [← Nat.pow_add, List.length_cons, Nat.mul_add_one, Nat.add_comm]
    rw [width, packBits]
    have := Nat.mul_le_mul_left (2 ^ w) high
    rw [Nat.mul_add_one] at this
    omega

theorem elemAt_zero (x w : Nat) : elemAt x w 0 = x % 2 ^ w := by rw [elemAt, Nat.mul_zero, Nat.pow_zero, Nat.div_one]

/-- The elements above the lowest one. -/
theorem elemAt_succ (x y : Nat) {w i : Nat} (low : x < 2 ^ w) : elemAt (x + 2 ^ w * y) w (i + 1) = elemAt y w i := by
  rw [elemAt, elemAt, Nat.mul_add_one, Nat.add_comm (w * i), Nat.pow_add, ← Nat.div_div_eq_div_mul, Nat.add_mul_div_left _ _ (Nat.two_pow_pos w),
    Nat.div_eq_of_lt low, Nat.zero_add]

theorem elemAt_packBits (w : Nat) : ∀ (l : List Nat) (i : Nat), elemAt (packBits w l) w i = l.getD i 0 % 2 ^ w
  | [], i => by simp [packBits, elemAt]
  | x :: xs, 0 => by rw [packBits, elemAt_zero, Nat.add_mul_mod_self_left, Nat.mod_mod]; rfl
  | x :: xs, i + 1 => by
    rw [packBits, elemAt_succ _ _ (Nat.mod_lt _ (Nat.two_pow_pos w)), elemAt_packBits w xs i]
    rfl

theorem getD_map_range {α : Type} (f : Nat → α) {n j : Nat} (d : α) (h : j < n) : ((List.range n).map f).getD j d = f j := by
  simp [List.getD_eq_getElem?_getD, h]

theorem zip_map_range {α β : Type} (f : Nat → α) (g : Nat → β) (n : Nat) :
    ((List.range n).map f).zip ((List.range n).map g) = (List.range n).map fun j => (f j, g j) := List.zip_map'

/-! ### The active elements of a word in ascending order (R246, R372) -/

/-- The generator's state before element `j` of a word whose active elements draw as `f` says. -/
def stateAt {α : Type} (f : Nat → α → (Nat × FpFlags) × Nat) (m : Nat → Bool) (x : Nat → α) (st : Nat) : Nat → Nat
  | 0 => st
  | n + 1 => if m n then (f (stateAt f m x st n) (x n)).2 else stateAt f m x st n

/-- The exceptions that a condition selects, one of the six. -/
def flagFields : List (FpFlags → Bool) := [FpFlags.nv, FpFlags.dz, FpFlags.ov, FpFlags.uf, FpFlags.nx, FpFlags.sat]

theorem flagField_or {p : FpFlags → Bool} (field : p ∈ flagFields) (a b : FpFlags) : p (a.or b) = (p a || p b) := by
  simp only [flagFields, List.mem_cons, List.not_mem_nil, or_false] at field
  rcases field with rfl | rfl | rfl | rfl | rfl | rfl <;> rfl

theorem flagField_none {p : FpFlags → Bool} (field : p ∈ flagFields) : p {} = false := by
  simp only [flagFields, List.mem_cons, List.not_mem_nil, or_false] at field
  rcases field with rfl | rfl | rfl | rfl | rfl | rfl <;> rfl

section
variable {α : Type} (f : Nat → α → (Nat × FpFlags) × Nat)

/-- The last element of a word comes after all the others. -/
theorem mapActive_append (b : Bool) (x : α) : ∀ (bs : List Bool) (xs : List α) (r : Rounding), bs.length = xs.length →
    mapActive f (bs ++ [b]) (xs ++ [x]) r =
      (let y := mapActive f bs xs r
       let v := f y.2.sr x
       if b then (y.1 ++ [v.1.1], { sr := v.2, flags := y.2.flags.or v.1.2 }) else (y.1 ++ [0], y.2))
  | [], [], r, _ => by cases b <;> rfl
  | false :: bs, y :: xs, r, same => by
    simp only [List.cons_append, mapActive, mapActive_append b x bs xs r (Nat.succ.inj same)]
    split <;> rfl
  | true :: bs, y :: xs, r, same => by
    simp only [List.cons_append, mapActive, mapActive_append b x bs xs _ (Nat.succ.inj same)]
    split <;> rfl

variable (m : Nat → Bool) (x : Nat → α) (r : Rounding)

/-- A word over its first `n` elements. -/
def mapFirst (n : Nat) : List Nat × Rounding := mapActive f ((List.range n).map m) ((List.range n).map x) r

theorem mapFirst_succ (n : Nat) :
    mapFirst f m x r (n + 1) =
      (let y := mapFirst f m x r n
       let v := f y.2.sr (x n)
       if m n then (y.1 ++ [v.1.1], { sr := v.2, flags := y.2.flags.or v.1.2 }) else (y.1 ++ [0], y.2)) := by
  simp only [mapFirst, List.range_succ, List.map_append, List.map_singleton]
  exact mapActive_append f (m n) (x n) _ _ r (by simp)

theorem mapFirst_sr (n : Nat) : (mapFirst f m x r n).2.sr = stateAt f m x r.sr n := by
  induction n with
  | zero => rfl
  | succ n ih => rw [mapFirst_succ, stateAt, ← ih]; split <;> rfl

theorem mapFirst_elems (n : Nat) :
    (mapFirst f m x r n).1 = (List.range n).map fun j => if m j then (f (stateAt f m x r.sr j) (x j)).1.1 else 0 := by
  induction n with
  | zero => rfl
  | succ n ih =>
    rw [mapFirst_succ, List.range_succ, List.map_append, ← ih, List.map_singleton, ← mapFirst_sr]
    split <;> rfl

theorem mapFirst_flags {p : FpFlags → Bool} (field : p ∈ flagFields) (n : Nat) :
    p (mapFirst f m x r n).2.flags = true ↔ p r.flags = true ∨ ∃ j, j < n ∧ m j = true ∧ p (f (stateAt f m x r.sr j) (x j)).1.2 = true := by
  induction n with
  | zero => exact ⟨.inl, fun h => h.elim id fun ⟨_, lt, _⟩ => absurd lt (Nat.not_lt_zero _)⟩
  | succ n ih =>
    rw [mapFirst_succ]
    simp only [Nat.lt_succ_iff_lt_or_eq, or_and_right, exists_or, exists_eq_left]
    by_cases active : m n = true
    · simp only [active, if_true, flagField_or field, Bool.or_eq_true, ih, mapFirst_sr, true_and, or_assoc]
    · simp only [active, if_false, ih, Bool.false_eq_true, false_and, or_false]

end

/-- A word that draws nothing leaves the generator where it was. -/
theorem stateAt_of_still {α : Type} {f : Nat → α → (Nat × FpFlags) × Nat} (still : ∀ st x, (f st x).2 = st) (m : Nat → Bool) (x : Nat → α) (st n : Nat) :
    stateAt f m x st n = st := by
  induction n with
  | zero => rfl
  | succ n ih => rw [stateAt, still, ih, ite_self]

/-- A word that rounds each element draws as R246 says. -/
theorem stateAt_roundDraw {α : Type} (tag : Nat) (mode : Mode) (fromFl : Bool) (g : α → XReal × Bool) (m : Nat → Bool) (x : Nat → α) (st n : Nat) :
    stateAt (fun st y => roundDraw tag mode fromFl st (g y)) m x st n = drawsTo mode m st n := by
  induction n with
  | zero => rfl
  | succ n ih => rw [stateAt, drawsTo, ih]; rfl

/-! ### Commit (R372) -/

/-- A list whose elements are given by their place, the last ones left out. -/
theorem take_map_range {α : Type} (f : Nat → α) (n : Nat) : ((List.range n).map f).take n = (List.range n).map f :=
  List.take_of_length_le (by simp)

/-- Element `j` of a commit: the result where active, the old bits where tag and shape stay, and else zero. -/
def committedLane (old : VReg) (tag rows cols : Nat) (m : Nat → Bool) (res : Nat → Nat) (j : Nat) : Nat :=
  if m j then res j else if old.tag.toNat = tag ∧ old.rows = rows ∧ old.cols = cols then elemAt old.data.toNat (elemWidth tag) j else 0

theorem commitV_data (old : VReg) (tag rows cols : Nat) (m : Nat → Bool) (res : Nat → Nat) (srcs : Bool) :
    (commitV old tag rows cols ((List.range (rows * cols)).map m) ((List.range (rows * cols)).map res) srcs).data
      = packBits (elemWidth tag) ((List.range (rows * cols)).map (committedLane old tag rows cols m res)) := by
  have olds : (if (decide (old.tag.toNat = tag) && decide (old.rows = rows) && decide (old.cols = cols)) = true
        then elemsOf old.data.toNat (elemWidth tag) (rows * cols) else List.replicate (rows * cols) 0)
      = (List.range (rows * cols)).map fun j =>
          if old.tag.toNat = tag ∧ old.rows = rows ∧ old.cols = cols then elemAt old.data.toNat (elemWidth tag) j else 0 := by
    simp only [Bool.and_eq_true, decide_eq_true_eq, and_assoc]
    split
    · rfl
    · rw [List.map_const', List.length_range]
  simp only [commitV, olds, zip_map_range, List.map_map, take_map_range]
  rfl

/-- What a commit leaves of each element. -/
theorem lanes_commitV {old : VReg} {tag rows cols : Nat} {m : Nat → Bool} {res lane : Nat → Nat} {srcs : Bool}
    (same : ∀ j, j < rows * cols → m j = true → res j % 2 ^ elemWidth tag = lane j % 2 ^ elemWidth tag) :
    Lanes old m (commitV old tag rows cols ((List.range (rows * cols)).map m) ((List.range (rows * cols)).map res) srcs) lane := by
  have data := commitV_data old tag rows cols m res srcs
  obtain ⟨v, committed, tag', rows', cols'⟩ : ∃ v, v = commitV old tag rows cols ((List.range (rows * cols)).map m) ((List.range (rows * cols)).map res) srcs
      ∧ v.tag = tag ∧ v.rows = rows ∧ v.cols = cols := ⟨_, rfl, rfl, rfl, rfl⟩
  rw [← committed] at data ⊢
  unfold Lanes VStays
  simp only [tag', rows', cols', data]
  refine ⟨by simpa using packBits_lt (elemWidth tag) ((List.range (rows * cols)).map (committedLane old tag rows cols m res)), fun j lt => ?_⟩
  rw [elemAt_packBits, getD_map_range _ _ lt, committedLane]
  refine ⟨fun on => ?_, fun off stays => ?_, fun off moves => ?_⟩
  · rw [if_pos on, same j lt on]
  · rw [if_neg (by simp [off]), if_pos stays, elemAt, Nat.mod_mod]
  · rw [if_neg (by simp [off]), if_neg moves, Nat.zero_mod]

theorem any_off_iff (m : Nat → Bool) (n : Nat) : ((List.range n).map m).any (fun b => !b) = true ↔ SomeOff m n := by
  simp [SomeOff]

theorem lanePoison_commitV (old : VReg) (tag rows cols : Nat) (m : Nat → Bool) (res : List Nat) (srcs : Bool) :
    LanePoison old m (commitV old tag rows cols ((List.range (rows * cols)).map m) res srcs) srcs := by
  unfold LanePoison VStays
  simp only [commitV, Bool.or_eq_true, Bool.and_eq_true, decide_eq_true_eq, any_off_iff, and_assoc]

/-- A destination in order is committed. -/
theorem vCommit_of_dest {s : State} {d : BitVec 5} {tag rows cols : Nat} {m : Nat → Bool} (dest : VDest s d tag rows cols m) (res : List Nat) (srcs : Bool) :
    vCommit (readV s d) tag rows cols ((List.range (rows * cols)).map m) res srcs
      = .ok (commitV (readV s d) tag rows cols ((List.range (rows * cols)).map m) res srcs) := by
  obtain ⟨-, whole⟩ := dest
  unfold vCommit
  cases failed : (readV s d).failed with
  | none => rfl
  | some f =>
    have apart : ¬ (VStays (readV s d) tag rows cols ∧ SomeOff m (rows * cols)) := whole.resolve_left (by simp [failed])
    refine if_neg fun keeps => apart ?_
    simp only [Bool.and_eq_true, decide_eq_true_eq, any_off_iff] at keeps
    obtain ⟨⟨⟨t, r⟩, c⟩, off⟩ := keeps
    exact ⟨⟨t, r, c⟩, off⟩

/-! ### Results on their way (R374, R375) -/

section
variable {i : Instr} {s : State} {d : BitVec 5} {x : Slot} {lat busy : Nat}

theorem sendsV_of_finishV {v : VNew} {r : Rounding} (runs : exec i s = finishV d x lat busy v r s) : SendsV i s d x lat busy v r := by
  refine ⟨fun quiet => ?_, fun traps => ?_⟩
  · refine colCompletes_of_next ?_ ?_
    · rw [runs, finishV, if_neg (not_not_intro quiet)]; rfl
    · rw [cyc_modCore, postSticky]; split <;> rfl
  · rw [runs, finishV, if_pos traps]

variable {tag rows cols : Nat} {m : Nat → Bool} {srcs : Bool}

/-- A word that gives each active element its value as `f` makes it, in ascending order. -/
theorem sendsLanes_of_mapFirst {α : Type} (f : Nat → α → (Nat × FpFlags) × Nat) (y : Nat → α) (dest : VDest s d tag rows cols m)
    (runs : exec i s = runV s d x lat (do
      let v ← vCommit (readV s d) tag rows cols ((List.range (rows * cols)).map m) (mapFirst f m y (Rounding.start s) (rows * cols)).1 srcs
      .ok (busy, v, (mapFirst f m y (Rounding.start s) (rows * cols)).2))) :
    SendsLanes i s d x lat busy tag rows cols m srcs (fun j => (f (stateAt f m y s.core.sys.srState.toNat j) (y j)).1)
      (stateAt f m y s.core.sys.srState.toNat (rows * cols)) := by
  rw [vCommit_of_dest dest] at runs
  refine ⟨_, _, sendsV_of_finishV runs, rfl, rfl, rfl, ?_, lanePoison_commitV .., fun p field => ?_, mapFirst_sr ..⟩
  · rw [mapFirst_elems]
    exact lanes_commitV fun j _ on => by rw [if_pos on]; rfl
  · rw [mapFirst_flags f m y _ field, Rounding.start, flagField_none field]
    simp only [Bool.false_eq_true, false_or]

/-- A word that gives each active element a value, without exceptions or draws. -/
theorem sendsLanes_of_map {res lane : Nat → Nat} (same : ∀ j, j < rows * cols → m j = true → res j % 2 ^ elemWidth tag = lane j % 2 ^ elemWidth tag)
    (dest : VDest s d tag rows cols m)
    (runs : exec i s = runV s d x lat (do
      let v ← vCommit (readV s d) tag rows cols ((List.range (rows * cols)).map m) ((List.range (rows * cols)).map res) srcs
      .ok (busy, v, Rounding.start s))) :
    SendsLanes i s d x lat busy tag rows cols m srcs (fun j => (lane j, {})) s.core.sys.srState.toNat := by
  rw [vCommit_of_dest dest] at runs
  refine ⟨_, _, sendsV_of_finishV runs, rfl, rfl, rfl, lanes_commitV same, lanePoison_commitV .., fun p field => ?_, rfl⟩
  simp [Rounding.start, flagField_none field]

end

/-! ### Checks of vector words that pass (R373, R374) -/

section
variable {s : State}

theorem slotFree_of_idle {x : Slot} (free : slotBusy s.core.units (cyc s) x = false) : slotFree s x = .ok () := by
  rw [slotFree, free]; rfl

theorem vShapeIs_of {n : BitVec 5} {r like : VReg} (rows : r.rows = like.rows) (cols : r.cols = like.cols) : vShapeIs n r like = .ok () :=
  if_pos (by simp [rows, cols])

theorem vLike_of {n : BitVec 5} {r like : VReg} (tag : r.tag = like.tag) (rows : r.rows = like.rows) (cols : r.cols = like.cols) :
    vLike n r like = .ok () := by
  rw [vLike, vTagIn_of_mem (by simp [tag]), vShapeIs_of rows cols]
  rfl

theorem vPair_of_likes {o : V3} {set : List Nat} (free : slotBusy s.core.units (cyc s) .arith = false) (likes : VLikes s o.a o.b set)
    (idle : (readV s o.d).busy = 0) : vPair s o set = .ok (readV s o.a, readV s o.b, readV s o.d) := by
  obtain ⟨idleA, idleB, mem, tag, rows, cols⟩ := likes
  rw [vPair, vReady_of_idle idleA, vReady_of_idle idleB, vFree_of_idle idle, slotFree_of_idle free]
  simp only [bind, Except.bind, vTagIn_of_mem mem, vLike_of tag rows cols]

end

theorem vVals_eq (r : VReg) : vVals r = (List.range (r.rows * r.cols)).map (vValue r) := List.map_map ..

theorem vBits_eq (r : VReg) : vBits r = (List.range (r.rows * r.cols)).map (vLane r) := rfl

/-- The elements of a register of the same shape as another's. -/
theorem vVals_like {r like : VReg} (rows : r.rows = like.rows) (cols : r.cols = like.cols) :
    vVals r = (List.range (like.rows * like.cols)).map (vValue r) := by rw [vVals_eq, rows, cols]

theorem vBits_like {r like : VReg} (rows : r.rows = like.rows) (cols : r.cols = like.cols) :
    vBits r = (List.range (like.rows * like.cols)).map (vLane r) := by rw [vBits_eq, rows, cols]

theorem isSe_of_mem_tagsX {tag : Nat} (mem : tag ∈ tagsX) : isSe tag = false := by
  simp only [tagsX, tagsF, tagsI, List.cons_append, List.nil_append, List.mem_cons, List.not_mem_nil, or_false] at mem
  rcases mem with rfl | rfl | rfl | rfl | rfl | rfl | rfl | rfl | rfl | rfl | rfl <;> rfl

theorem elemWidth_of_not_se {tag : Nat} (plain : isSe tag = false) : elemWidth tag = tagWidth tag := if_neg (by simp [plain])

end Sys2Proof.Machine

namespace Sys2Proof.Machine

/-! ### Vector words that give v[d] the tag and the shape of v[a] -/

section
variable {i : Instr} {s : State} {d : BitVec 5} {x : Slot} {lat busy tag rows cols : Nat} {m : Nat → Bool} {srcs : Bool}

/-- A word that rounds the exact value of each active element once, with its own draw (R240, R246). -/
theorem sendsLanes_of_rounding {α : Type} (tag' : Nat) (mode : Mode) (fromFl : Bool) (g : α → XReal × Bool) (y : Nat → α) (dest : VDest s d tag rows cols m)
    (runs : exec i s = runV s d x lat (do
      let v ← vCommit (readV s d) tag rows cols ((List.range (rows * cols)).map m)
        (mapFirst (fun st z => roundDraw tag' mode fromFl st (g z)) m y (Rounding.start s) (rows * cols)).1 srcs
      .ok (busy, v, (mapFirst (fun st z => roundDraw tag' mode fromFl st (g z)) m y (Rounding.start s) (rows * cols)).2))) :
    SendsLanes i s d x lat busy tag rows cols m srcs (fun j => roundedLane tag' mode fromFl m s.core.sys.srState.toNat j (g (y j)))
      (drawsTo mode m s.core.sys.srState.toNat (rows * cols)) := by
  have sends := sendsLanes_of_mapFirst _ y dest runs
  simp only [stateAt_roundDraw] at sends
  exact sends

/-- A word whose active elements have exceptions and draw nothing. -/
theorem sendsLanes_of_flagged {α : Type} (g : α → Nat × FpFlags) (y : Nat → α) (dest : VDest s d tag rows cols m)
    (runs : exec i s = runV s d x lat (do
      let v ← vCommit (readV s d) tag rows cols ((List.range (rows * cols)).map m)
        (mapFirst (fun st z => (g z, st)) m y (Rounding.start s) (rows * cols)).1 srcs
      .ok (busy, v, (mapFirst (fun st z => (g z, st)) m y (Rounding.start s) (rows * cols)).2))) :
    SendsLanes i s d x lat busy tag rows cols m srcs (fun j => g (y j)) s.core.sys.srState.toNat := by
  have sends := sendsLanes_of_mapFirst _ y dest runs
  rw [stateAt_of_still fun _ _ => rfl] at sends
  exact sends

end

/-- The destination takes a result with the tag and the shape of v[a]. -/
def DestLike (s : State) (d a : BitVec 5) (k : BitVec 3) : Prop := VDest s d (readV s a).tag.toNat (readV s a).rows (readV s a).cols (maskBit s k)

/-- The word sends a result of the arithmetic slot with the tag and the shape of v[a]. -/
def SendsLike (i : Instr) (s : State) (d a : BitVec 5) (k : BitVec 3) (lat busy : Nat) (srcs : Bool) (lane : Nat → Nat × FpFlags) (sr : Nat) : Prop :=
  SendsLanes i s d .arith lat busy (readV s a).tag.toNat (readV s a).rows (readV s a).cols (maskBit s k) srcs lane sr

/-! ### Vector floating arithmetic (R378 to R380) -/

section
variable {s : State} {i : Instr} (free : slotBusy s.core.units (cyc s) .arith = false)
include free

section
variable {o : V3} (likes : VLikes s o.a o.b tagsF)
include likes

/-- A word that rounds an exact result of two elements. -/
theorem sendsLike_vFloat2 {lat : Nat} {g : Bool → XReal → XReal → XReal × Bool} (dest : DestLike s o.d o.a o.k) (runs : exec i s = vFloat2 lat o g s) :
    SendsLike i s o.d o.a o.k lat (slotCycles (vCount (readV s o.a)) (vWidth (readV s o.a))) ((readV s o.a).poison || (readV s o.b).poison)
      (fun j => roundedLane (readV s o.a).tag.toNat (rmode s) true (maskBit s o.k) s.core.sys.srState.toNat j
        (g (rmode s = .rdn) (vValue (readV s o.a) j) (vValue (readV s o.b) j)))
      (drawsTo (rmode s) (maskBit s o.k) s.core.sys.srState.toNat (vCount (readV s o.a))) := by
  have pair := vPair_of_likes free likes dest.1
  obtain ⟨-, -, -, -, rows, cols⟩ := likes
  refine sendsLanes_of_rounding _ _ _ (fun p : XReal × XReal => g (rmode s = .rdn) p.1 p.2) (fun j => (vValue (readV s o.a) j, vValue (readV s o.b) j)) dest ?_
  rw [runs, vFloat2, pair]
  simp only [bind, Except.bind, vVals_like rows cols, vVals_eq (readV s o.a), zip_map_range]
  rfl

/-- A word whose results the format holds. -/
theorem sendsLike_vExact2 {g : Bool → XReal → XReal → XReal} (dest : DestLike s o.d o.a o.k) (runs : exec i s = vExact2 o g s) :
    SendsLike i s o.d o.a o.k 3 (slotCycles (vCount (readV s o.a)) (vWidth (readV s o.a))) ((readV s o.a).poison || (readV s o.b).poison)
      (fun j => ((roundBits (readV s o.a).tag.toNat .rne 0 true
        (g ((vLane (readV s o.b) j).testBit (vWidth (readV s o.a) - 1)) (vValue (readV s o.a) j) (vValue (readV s o.b) j))).1, {}))
      s.core.sys.srState.toNat := by
  have pair := vPair_of_likes free likes dest.1
  obtain ⟨-, -, -, tag, rows, cols⟩ := likes
  refine sendsLanes_of_map (fun j _ _ => rfl) dest ?_
  rw [runs, vExact2, pair]
  simp only [bind, Except.bind, vBits_like rows cols, vVals_eq (readV s o.a), zip_map_range, List.map_map, vValue, tag]
  rfl

/-- A word with three sources, the destination among them. -/
theorem sendsLike_vFused {g : Bool → XReal → XReal → XReal → XReal × Bool} (addend : VLikes s o.a o.d tagsF) (runs : exec i s = vFused o g s) :
    SendsLike i s o.d o.a o.k 4 (slotCycles (vCount (readV s o.a)) (vWidth (readV s o.a)))
      ((readV s o.a).poison || (readV s o.b).poison || (readV s o.d).poison)
      (fun j => roundedLane (readV s o.a).tag.toNat (rmode s) true (maskBit s o.k) s.core.sys.srState.toNat j
        (g (rmode s = .rdn) (vValue (readV s o.a) j) (vValue (readV s o.b) j) (vValue (readV s o.d) j)))
      (drawsTo (rmode s) (maskBit s o.k) s.core.sys.srState.toNat (vCount (readV s o.a))) := by
  obtain ⟨idleA, idleB, mem, tag, rows, cols⟩ := likes
  obtain ⟨-, idleD, -, tagD, rowsD, colsD⟩ := addend
  refine sendsLanes_of_rounding _ _ _ (fun p : XReal × XReal × XReal => g (rmode s = .rdn) p.1 p.2.1 p.2.2)
    (fun j => (vValue (readV s o.a) j, vValue (readV s o.b) j, vValue (readV s o.d) j)) ⟨idleD.2, .inl idleD.1⟩ ?_
  rw [runs, vFused, vReady_of_idle idleA, vReady_of_idle idleB, vReady_of_idle idleD, slotFree_of_idle free]
  simp only [bind, Except.bind, vTagIn_of_mem mem, vLike_of tag rows cols, vLike_of tagD rowsD colsD, vVals_like rows cols, vVals_like rowsD colsD,
    vVals_eq (readV s o.a), zip_map_range]
  rfl

end

section
variable {o : V2} (idle : VIdle s o.a) (dest : DestLike s o.d o.a o.k)
include idle dest

theorem sendsLike_vExact1 {g : XReal → XReal} (mem : (readV s o.a).tag.toNat ∈ tagsF) (runs : exec i s = vExact1 o g s) :
    SendsLike i s o.d o.a o.k 3 (slotCycles (vCount (readV s o.a)) (vWidth (readV s o.a))) (readV s o.a).poison
      (fun j => ((roundBits (readV s o.a).tag.toNat .rne 0 true (g (vValue (readV s o.a) j))).1, {})) s.core.sys.srState.toNat := by
  refine sendsLanes_of_map (fun j _ _ => rfl) dest ?_
  rw [runs, vExact1, vReady_of_idle idle, vFree_of_idle dest.1, slotFree_of_idle free]
  simp only [bind, Except.bind, vTagIn_of_mem mem, vVals_eq (readV s o.a), List.map_map]
  rfl

theorem sendsLike_vSpecial {g : XReal → XReal × FpFlags} (mem : (readV s o.a).tag.toNat ∈ tagsF16) (runs : exec i s = vSpecial o g s) :
    SendsLike i s o.d o.a o.k 14 (max 1 (ceilDiv (vCount (readV s o.a)) 256)) (readV s o.a).poison
      (fun j => specialBits (readV s o.a).tag.toNat (g (vValue (readV s o.a) j))) s.core.sys.srState.toNat := by
  refine sendsLanes_of_flagged (fun y => specialBits (readV s o.a).tag.toNat (g y)) (vValue (readV s o.a)) dest ?_
  rw [runs, vSpecial, vReady_of_idle idle, vFree_of_idle dest.1, slotFree_of_idle free]
  simp only [bind, Except.bind, vTagIn_of_mem mem, vVals_eq (readV s o.a)]
  rfl

end

end

end Sys2Proof.Machine

namespace Sys2Proof.Proofs

open Sys2Proof.Machine

/-- Settles O32, form by form: two sources, fused, one source, special functions. -/
theorem vectorFloatResults : Obligations.VectorFloatResults := by
  unfold Obligations.VectorFloatResults
  intro s mode rdn st free
  refine ⟨fun o likes => ⟨fun dest => ?two, fun addend => ?fused⟩, fun o idle dest => ⟨fun mem => ?one, fun mem => ?special⟩⟩
  case two =>
    have vadd := sendsLike_vFloat2 free likes dest (show exec (.vadd o) s = execVadd o s from rfl)
    have vsub := sendsLike_vFloat2 free likes dest (show exec (.vsub o) s = execVsub o s from rfl)
    have vmul := sendsLike_vFloat2 free likes dest (show exec (.vmul o) s = execVmul o s from rfl)
    have vmin := sendsLike_vExact2 free likes dest (show exec (.vmin o) s = execVmin o s from rfl)
    have vmax := sendsLike_vExact2 free likes dest (show exec (.vmax o) s = execVmax o s from rfl)
    have vcpsgn := sendsLike_vExact2 free likes dest (show exec (.vcpsgn o) s = execVcpsgn o s from rfl)
    exact ⟨vadd, vsub, vmul, vmin, vmax, vcpsgn⟩
  case fused =>
    have vfma := sendsLike_vFused free likes addend (show exec (.vfma o) s = execVfma o s from rfl)
    have vfms := sendsLike_vFused free likes addend (show exec (.vfms o) s = execVfms o s from rfl)
    have vfnma := sendsLike_vFused free likes addend (show exec (.vfnma o) s = execVfnma o s from rfl)
    exact ⟨vfma, vfms, vfnma⟩
  case one =>
    have vabs := sendsLike_vExact1 free idle dest mem (show exec (.vabs o) s = execVabs o s from rfl)
    have vneg := sendsLike_vExact1 free idle dest mem (show exec (.vneg o) s = execVneg o s from rfl)
    exact ⟨vabs, vneg⟩
  case special =>
    have special {i : Instr} {g : XReal → XReal × FpFlags} := sendsLike_vSpecial (i := i) (g := g) free idle dest mem
    exact ⟨special (g := exp2Alg) rfl, special (g := log2Alg) rfl, special (g := rcpAlg) rfl, special (g := rsqAlg) rfl, special (g := sqrtAlg) rfl,
      special (g := sigmAlg) rfl⟩

end Sys2Proof.Proofs

namespace Sys2Proof.Machine

/-! ### Vector integer, bit and bit-field words (R381, R382) -/

section
variable {s : State} {i : Instr} {o : V3} (free : slotBusy s.core.units (cyc s) .arith = false)
include free

/-- A word on the bits of two sources that pass its check. -/
theorem sendsLike_vBitwise2 {chk : VReg → VReg → Chk Unit} {g : VReg → Nat → Nat → Nat} {lane : Nat → Nat} (idleA : VIdle s o.a) (idleB : VIdle s o.b)
    (passes : chk (readV s o.a) (readV s o.b) = .ok ()) (rows : (readV s o.b).rows = (readV s o.a).rows) (cols : (readV s o.b).cols = (readV s o.a).cols)
    (plain : isSe (readV s o.a).tag.toNat = false) (dest : DestLike s o.d o.a o.k)
    (same : ∀ j, g (readV s o.a) (vLane (readV s o.a) j) (vLane (readV s o.b) j) % 2 ^ vWidth (readV s o.a) = lane j % 2 ^ vWidth (readV s o.a))
    (runs : exec i s = vBitwise2 o chk g s) :
    SendsLike i s o.d o.a o.k 3 (slotCycles (vCount (readV s o.a)) (vWidth (readV s o.a))) ((readV s o.a).poison || (readV s o.b).poison)
      (fun j => (lane j, {})) s.core.sys.srState.toNat := by
  refine sendsLanes_of_map (res := fun j => g (readV s o.a) (vLane (readV s o.a) j) (vLane (readV s o.b) j))
    (fun j _ _ => by rw [elemWidth_of_not_se plain]; exact same j) dest ?_
  rw [runs, vBitwise2, vReady_of_idle idleA, vReady_of_idle idleB, vFree_of_idle dest.1, slotFree_of_idle free]
  simp only [bind, Except.bind, passes, vBits_like rows cols, vBits_eq (readV s o.a), zip_map_range, List.map_map]
  rfl

/-- A word on the bits of two sources of one tag and shape. -/
theorem sendsLike_of_sameIn {set : List Nat} {g : VReg → Nat → Nat → Nat} {lane : Nat → Nat} (likes : VLikes s o.a o.b set)
    (plain : ∀ t ∈ set, isSe t = false) (dest : DestLike s o.d o.a o.k)
    (same : ∀ j, g (readV s o.a) (vLane (readV s o.a) j) (vLane (readV s o.b) j) % 2 ^ vWidth (readV s o.a) = lane j % 2 ^ vWidth (readV s o.a))
    (runs : exec i s = vBitwise2 o (sameIn o set) g s) :
    SendsLike i s o.d o.a o.k 3 (slotCycles (vCount (readV s o.a)) (vWidth (readV s o.a))) ((readV s o.a).poison || (readV s o.b).poison)
      (fun j => (lane j, {})) s.core.sys.srState.toNat := by
  obtain ⟨idleA, idleB, mem, tag, rows, cols⟩ := likes
  refine sendsLike_vBitwise2 free idleA idleB ?_ rows cols (plain _ mem) dest same runs
  rw [sameIn, vTagIn_of_mem mem, vLike_of tag rows cols]
  rfl

/-- A word on the bits of two sources of one width and shape. -/
theorem sendsLike_of_sameWidth {g : VReg → Nat → Nat → Nat} (idleA : VIdle s o.a) (idleB : VIdle s o.b) (memA : (readV s o.a).tag.toNat ∈ tagsX)
    (memB : (readV s o.b).tag.toNat ∈ tagsX) (width : vWidth (readV s o.b) = vWidth (readV s o.a)) (rows : (readV s o.b).rows = (readV s o.a).rows)
    (cols : (readV s o.b).cols = (readV s o.a).cols) (dest : DestLike s o.d o.a o.k) (runs : exec i s = vBitwise2 o (sameWidth o) g s) :
    SendsLike i s o.d o.a o.k 3 (slotCycles (vCount (readV s o.a)) (vWidth (readV s o.a))) ((readV s o.a).poison || (readV s o.b).poison)
      (fun j => (g (readV s o.a) (vLane (readV s o.a) j) (vLane (readV s o.b) j), {})) s.core.sys.srState.toNat := by
  refine sendsLike_vBitwise2 free idleA idleB ?_ rows cols (isSe_of_mem_tagsX memA) dest (fun _ => rfl) runs
  have fits : (readV s o.b).tag.toNat ∈ tagsX.filter fun t => tagWidth t = tagWidth (readV s o.a).tag.toNat :=
    List.mem_filter.mpr ⟨memB, decide_eq_true width⟩
  rw [sameWidth, vTagIn_of_mem memA, vTagIn_of_mem fits, vShapeIs_of rows cols]
  rfl

section
variable {g : Nat → Nat → Nat → Nat → Nat} {lane : Nat → Nat} (idleA : VIdle s o.a) (idleB : VIdle s o.b) (memA : (readV s o.a).tag.toNat ∈ tagsI)
  (memB : (readV s o.b).tag.toNat ∈ [tagInt32, tagIndex32]) (rows : (readV s o.b).rows = (readV s o.a).rows) (cols : (readV s o.b).cols = (readV s o.a).cols)
include idleA idleB memA memB rows cols

/-- A bit-field word that reads a source and its controls. -/
theorem sendsLike_vField (dest : DestLike s o.d o.a o.k)
    (same : ∀ j, g (vWidth (readV s o.a)) (vLane (readV s o.a) j) (vLane (readV s o.b) j) 0 % 2 ^ vWidth (readV s o.a) = lane j % 2 ^ vWidth (readV s o.a))
    (runs : exec i s = vField o false g s) :
    SendsLike i s o.d o.a o.k 3 (slotCycles (vCount (readV s o.a)) (vWidth (readV s o.a))) ((readV s o.a).poison || (readV s o.b).poison)
      (fun j => (lane j, {})) s.core.sys.srState.toNat := by
  refine sendsLanes_of_map (res := fun j => g (vWidth (readV s o.a)) (vLane (readV s o.a) j) (vLane (readV s o.b) j) 0)
    (fun j _ _ => by rw [elemWidth_of_not_se (isSe_of_mem_tagsX (List.mem_cons_of_mem _ (List.mem_append_right _ memA)))]; exact same j) dest ?_
  have olds : List.replicate (vCount (readV s o.a)) 0 = (List.range (vCount (readV s o.a))).map fun _ => 0 := by rw [List.map_const', List.length_range]
  rw [runs, vField, vReady_of_idle idleA, vReady_of_idle idleB, vFree_of_idle dest.1, slotFree_of_idle free]
  simp only [Bool.false_eq_true, if_false, Bool.false_and, Bool.or_false]
  simp only [bind, Except.bind, vTagIn_of_mem memA, vTagIn_of_mem memB, vShapeIs_of rows cols, vBits_like rows cols, vBits_eq (readV s o.a), olds]
  simp only [vCount, zip_map_range, List.map_map]
  rfl

/-- A bit-field word that reads its destination too. -/
theorem sendsLike_vField_reading (idleD : VIdle s o.d) (tagD : (readV s o.d).tag = (readV s o.a).tag) (rowsD : (readV s o.d).rows = (readV s o.a).rows)
    (colsD : (readV s o.d).cols = (readV s o.a).cols) (runs : exec i s = vField o true g s) :
    SendsLike i s o.d o.a o.k 3 (slotCycles (vCount (readV s o.a)) (vWidth (readV s o.a)))
      ((readV s o.a).poison || (readV s o.b).poison || (readV s o.d).poison)
      (fun j => (g (vWidth (readV s o.a)) (vLane (readV s o.a) j) (vLane (readV s o.b) j) (vLane (readV s o.d) j), {})) s.core.sys.srState.toNat := by
  refine sendsLanes_of_map (fun j _ _ => rfl) ⟨idleD.2, .inl idleD.1⟩ ?_
  rw [runs, vField, vReady_of_idle idleA, vReady_of_idle idleB, slotFree_of_idle free]
  simp only [bind, Except.bind, vReady_of_idle idleD, vTagIn_of_mem memA, vTagIn_of_mem memB, vShapeIs_of rows cols, if_true, Bool.true_and,
    vLike_of tagD rowsD colsD, vBits_like rows cols, vBits_like rowsD colsD, vBits_eq (readV s o.a), zip_map_range, List.map_map]
  rfl

end

end

/-- VPOPC counts the ones of each element. -/
theorem sendsLike_vpopc {s : State} {o : V2} (free : slotBusy s.core.units (cyc s) .arith = false) (idle : VIdle s o.a) (dest : DestLike s o.d o.a o.k)
    (mem : (readV s o.a).tag.toNat ∈ tagsIRaw) :
    SendsLike (.vpopc o) s o.d o.a o.k 3 (slotCycles (vCount (readV s o.a)) (vWidth (readV s o.a))) (readV s o.a).poison
      (fun j => (onesOf (vWidth (readV s o.a)) (vLane (readV s o.a) j), {})) s.core.sys.srState.toNat := by
  refine sendsLanes_of_map (fun j _ _ => rfl) dest ?_
  show execVpopc o s = _
  rw [execVpopc, vReady_of_idle idle, vFree_of_idle dest.1, slotFree_of_idle free]
  simp only [bind, Except.bind, vTagIn_of_mem mem, vBits_eq (readV s o.a), List.map_map]
  rfl

theorem intOrder_eq (r : VReg) (x : Nat) :
    intOrder r x = if r.tag.toNat ∈ [tagInt8, tagInt16, tagInt32] then sNat (vWidth r) x else (x : Int) := by
  simp [intOrder, signedTag, or_assoc]

theorem isSe_of_mem_tagsIRaw {tag : Nat} (mem : tag ∈ tagRaw :: tagsI) : isSe tag = false :=
  isSe_of_mem_tagsX (by
    rcases List.mem_cons.mp mem with rfl | mem
    · exact List.mem_cons_self
    · exact List.mem_cons_of_mem _ (List.mem_append_right _ mem))

/-- A field below 2^n read as signed, in w bits: its value, or with ones above it. -/
theorem intMod_sNat_of_lt {w n x : Nat} (le : n ≤ w) (lt : x < 2 ^ n) :
    intMod w (sNat n x) % 2 ^ w = (if x < 2 ^ (n - 1) then x else x + 2 ^ w - 2 ^ n) % 2 ^ w := by
  have grows : 2 ^ n ≤ 2 ^ w := Nat.pow_le_pow_right (by decide) le
  rw [intMod, sNat, Nat.mod_eq_of_lt lt]
  split
  · rw [← Int.natCast_mod, Int.toNat_natCast, Nat.mod_mod]
  · have moved : ((x : Int) - (2 ^ n : Nat)) % (2 ^ w : Nat) = ((x + 2 ^ w - 2 ^ n : Nat) : Int) % (2 ^ w : Nat) := by
      rw [show ((x + 2 ^ w - 2 ^ n : Nat) : Int) = ((x : Int) - (2 ^ n : Nat)) + (2 ^ w : Nat) by omega, Int.add_emod_right]
    rw [moved, ← Int.natCast_mod, Int.toNat_natCast, Nat.mod_mod]

theorem fieldLen_le (w c : Nat) : fieldLen w c ≤ w := (Nat.min_le_right ..).trans (Nat.sub_le ..)

end Sys2Proof.Machine

namespace Sys2Proof.Proofs

open Sys2Proof.Machine

/-- Settles O33, form by form: two sources of one tag, of one width, shifts, bit fields, and VPOPC. -/
theorem vectorIntegerResults : Obligations.VectorIntegerResults := by
  unfold Obligations.VectorIntegerResults
  intro s st free
  refine ⟨fun o => ⟨fun dest => ⟨fun likes => ?alike, fun idleA idleB memA memB width rows cols => ?bits, fun likes => ?shifts⟩,
    fun idleA idleB memA memB rows cols => ⟨fun dest => ?fields, fun idleD tagD rowsD colsD => ?inserts⟩⟩, fun o idle dest mem => sendsLike_vpopc free idle dest mem⟩
  case alike =>
    have two {i : Instr} {g : VReg → Nat → Nat → Nat} {lane : Nat → Nat} := sendsLike_of_sameIn (i := i) (g := g) (lane := lane) free likes
      (fun t mem => isSe_of_mem_tagsIRaw (List.mem_cons_of_mem _ mem)) dest
    refine ⟨two (fun j => Nat.mod_mod _ _) (show exec (.viadd o) s = execViadd o s from rfl),
      two (fun j => Nat.mod_mod _ _) (show exec (.visub o) s = execVisub o s from rfl),
      two (fun j => Nat.mod_mod _ _) (show exec (.vimul o) s = execVimul o s from rfl),
      two (fun j => ?_) (show exec (.vimin o) s = execVimin o s from rfl), two (fun j => ?_) (show exec (.vimax o) s = execVimax o s from rfl),
      two (fun j => rfl) (show exec (.viminz o) s = execViminz o s from rfl), two (fun j => rfl) (show exec (.vimaxz o) s = execVimaxz o s from rfl)⟩
    · simp only [intOrder_eq]
    · simp only [intOrder_eq]
  case bits =>
    have two {i : Instr} {g : VReg → Nat → Nat → Nat} := sendsLike_of_sameWidth (i := i) (g := g) free idleA idleB memA memB width rows cols dest
    exact ⟨two (show exec (.vand o) s = execVand o s from rfl), two (show exec (.vor o) s = execVor o s from rfl),
      two (show exec (.vxor o) s = execVxor o s from rfl)⟩
  case shifts =>
    have two {i : Instr} {g : VReg → Nat → Nat → Nat} {lane : Nat → Nat} := sendsLike_of_sameIn (i := i) (g := g) (lane := lane) free likes
      (fun t => isSe_of_mem_tagsIRaw) dest
    refine ⟨two (fun j => Nat.mod_mod _ _) (show exec (.vshl o) s = execVshl o s from rfl), two (fun j => rfl) (show exec (.vshr o) s = execVshr o s from rfl),
      two (fun j => ?_) (show exec (.vsra o) s = execVsra o s from rfl)⟩
    simp only [intMod, Nat.cast_pow, Nat.cast_ofNat]
  case fields =>
    have one {i : Instr} {g : Nat → Nat → Nat → Nat → Nat} {lane : Nat → Nat} :=
      sendsLike_vField (i := i) (g := g) (lane := lane) free idleA idleB memA memB rows cols dest
    exact ⟨one (fun j => rfl) (show exec (.vbxz o) s = execVbxz o s from rfl),
      one (fun j => intMod_sNat_of_lt (fieldLen_le ..) (Nat.mod_lt _ (Nat.two_pow_pos _))) (show exec (.vbxt o) s = execVbxt o s from rfl)⟩
  case inserts =>
    have three {i : Instr} {g : Nat → Nat → Nat → Nat → Nat} :=
      sendsLike_vField_reading (i := i) (g := g) free idleA idleB memA memB rows cols idleD tagD rowsD colsD
    exact ⟨three (show exec (.vbins o) s = execVbins o s from rfl), three (show exec (.vfshl o) s = execVfshl o s from rfl),
      three (show exec (.vfshr o) s = execVfshr o s from rfl)⟩

end Sys2Proof.Proofs

namespace Sys2Proof.Machine

/-! ### The bits of a mask (R376, R383, R391) -/

theorem testBit_eq_elemAt (x j : Nat) : x.testBit j = decide (elemAt x 1 j = 1) := by
  rw [Nat.testBit_eq_decide_div_mod_eq, elemAt, Nat.one_mul, Nat.pow_one]

theorem getLsbD_maskOf (f : Nat → Bool) {n j : Nat} (lt : j < n) (inside : j < 2048) : (maskOf ((List.range n).map f)).getLsbD j = f j := by
  rw [maskOf, BitVec.getLsbD_ofNat, decide_eq_true inside, Bool.true_and, testBit_eq_elemAt, elemAt_packBits, List.map_map, getD_map_range _ _ lt,
    Function.comp_apply]
  cases f j <;> rfl

theorem getLsbD_zeroMask (j : Nat) : (0 : BitVec 2048).getLsbD j = false := BitVec.getLsbD_zero

theorem any_maskBit (s : State) (k : BitVec 3) : (List.range 2048).any (maskBit s k) = decide (readM s k ≠ 0) := by
  rw [Bool.eq_iff_iff, decide_eq_true_eq, List.any_eq_true]
  refine ⟨fun ⟨j, _, on⟩ empty => ?_, fun some => ?_⟩
  · rw [maskBit, empty, getLsbD_zeroMask] at on
    exact absurd on (by decide)
  · by_contra none
    refine some (BitVec.eq_of_getLsbD_eq fun j lt => ?_)
    rw [getLsbD_zeroMask]
    exact Bool.eq_false_iff.mpr fun on => none ⟨j, List.mem_range.mpr lt, on⟩

theorem all_maskBit (s : State) (k : BitVec 3) : (List.range 2048).all (maskBit s k) = decide (readM s k = BitVec.allOnes 2048) := by
  rw [Bool.eq_iff_iff, decide_eq_true_eq, List.all_eq_true]
  refine ⟨fun all => BitVec.eq_of_getLsbD_eq fun j lt => ?_, fun full j mem => ?_⟩
  · rw [BitVec.getLsbD_allOnes, decide_eq_true lt]
    exact all j (List.mem_range.mpr lt)
  · rw [maskBit, full, BitVec.getLsbD_allOnes, decide_eq_true (List.mem_range.mp mem)]

/-- The ones from bit `a` to below bit `b`. -/
theorem testBit_two_pow_sub_two_pow {a b : Nat} (le : a ≤ b) (j : Nat) : (2 ^ b - 2 ^ a).testBit j = decide (a ≤ j ∧ j < b) := by
  have shifted : 2 ^ b - 2 ^ a = (2 ^ (b - a) - 1) * 2 ^ a := by rw [Nat.sub_mul, Nat.one_mul, ← Nat.pow_add, Nat.sub_add_cancel le]
  rw [shifted, Nat.testBit_mul_two_pow, Nat.testBit_two_pow_sub_one, Bool.eq_iff_iff]
  simp only [Bool.and_eq_true, decide_eq_true_eq]
  omega

theorem getLsbD_rangeMask (lo hi : Int) {j : Nat} (inside : j < 2048) : (rangeMask lo hi).getLsbD j = decide (lo ≤ (j : Int) ∧ (j : Int) ≤ hi) := by
  rw [rangeMask, Bool.eq_iff_iff, decide_eq_true_eq]
  split
  · rw [BitVec.getLsbD_ofNat, decide_eq_true inside, Bool.true_and, testBit_two_pow_sub_two_pow (by omega), decide_eq_true_eq]
    omega
  · rw [getLsbD_zeroMask]
    refine iff_of_false (by decide) ?_
    omega

/-! ### VCMP (R383) -/

/-- The bits of VCMP that stay: those that belong to no active element. -/
theorem getLsbD_keptMask (k : BitVec 2048) (n : Nat) {j : Nat} (inside : j < 2048) :
    (~~~(k &&& BitVec.ofNat 2048 (2 ^ n - 1))).getLsbD j = !(decide (j < n) && k.getLsbD j) := by
  rw [BitVec.getLsbD_not, BitVec.getLsbD_and, BitVec.getLsbD_ofNat, Nat.testBit_two_pow_sub_one, decide_eq_true inside, Bool.true_and, Bool.true_and, Bool.and_comm]

/-- The condition of VCMP on two elements. -/
def compared (a b : VReg) (c j : Nat) : Bool :=
  if tagsF.contains a.tag.toNat then floatCond c (vValue a j) (vValue b j) else intCond a c (vLane a j) (vLane b j)

theorem exec_vcmp_of_likes {s : State} {o : VCmpOp} (free : slotBusy s.core.units (cyc s) .arith = false) (likes : VLikes s o.a o.b (tagsF ++ tagsI))
    (cleanA : (readV s o.a).poison = false) (cleanB : (readV s o.b).poison = false) :
    exec (.vcmp o) s = .next (colNext .colC
      (modCore (fun k => { k with units := slotTake k.units (cyc s + slotCycles (vCount (readV s o.a)) (vWidth (readV s o.a))) .arith })
        (postMask (cyc s + 3 + slotCycles (vCount (readV s o.a)) (vWidth (readV s o.a)) - 1) o.d
          (~~~(readM s o.k &&& BitVec.ofNat 2048 (2 ^ vCount (readV s o.a) - 1)))
          (maskOf ((List.range (vCount (readV s o.a))).map (compared (readV s o.a) (readV s o.b) o.c.toNat))) s))) := by
  obtain ⟨idleA, idleB, mem, tag, rows, cols⟩ := likes
  show execVcmp o s = _
  rw [execVcmp, vReady_of_idle idleA, vReady_of_idle idleB, slotFree_of_idle free]
  simp only [bind, Except.bind, vTagIn_of_mem mem, vLike_of tag rows cols, cleanA, cleanB, Bool.or_false, unpoisoned, Bool.not_false, need, if_true,
    vBits_like rows cols, vBits_eq (readV s o.a), zip_map_range, List.map_map, runCol]
  unfold compared vValue
  rw [tag]
  rfl

/-! ### VSEL and MRANGE (R384, R391) -/

theorem replicate_true (n : Nat) : List.replicate n true = (List.range n).map fun _ => true := by rw [List.map_const', List.length_range]

/-- A result with every element active leaves nothing of its destination. -/
theorem vDest_of_allActive {s : State} {d : BitVec 5} (idle : (readV s d).busy = 0) (tag rows cols : Nat) : VDest s d tag rows cols fun _ => true :=
  ⟨idle, .inr fun ⟨_, _, _, off⟩ => Bool.noConfusion off⟩

theorem sendsLanes_vsel {s : State} {o : V3} (free : slotBusy s.core.units (cyc s) .arith = false) (likes : VLikes s o.a o.b tagsX)
    (idle : (readV s o.d).busy = 0) :
    SendsLanes (.vsel o) s o.d .arith 3 (slotCycles (vCount (readV s o.a)) (vWidth (readV s o.a))) (readV s o.a).tag.toNat (readV s o.a).rows
      (readV s o.a).cols (fun _ => true) ((readV s o.a).poison || (readV s o.b).poison)
      (fun j => (if maskBit s o.k j then vLane (readV s o.a) j else vLane (readV s o.b) j, {})) s.core.sys.srState.toNat := by
  have pair := vPair_of_likes free likes idle
  obtain ⟨-, -, -, -, rows, cols⟩ := likes
  refine sendsLanes_of_map (fun j _ _ => rfl) (vDest_of_allActive idle ..) ?_
  show execVsel o s = _
  rw [execVsel, pair]
  simp only [bind, Except.bind, replicate_true, activeOf, vCount, vBits_like rows cols, vBits_eq (readV s o.a), zip_map_range, List.map_map]
  rfl

/-- The mask of MRANGE: element 0 of one is the upper bound, elements 0 and 1 of more the two bounds. -/
def rangeOf (r : VReg) : BitVec 2048 := if vCount r = 1 then rangeMask 0 (rangeBound r 0) else rangeMask (rangeBound r 0) (rangeBound r 1)

theorem exec_mrange_of_idle {s : State} {o : MRng} (idle : VIdle s o.a) (mem : (readV s o.a).tag.toNat ∈ [tagRaw, tagInt32, tagIndex32])
    (clean : (readV s o.a).poison = false) :
    exec (.mrange o) s = .next (colNext .colC (postMask (cyc s + 1) o.d (~~~(readM s o.k)) (rangeOf (readV s o.a)) s)) := by
  show execMrange o s = _
  rw [execMrange, vReady_of_idle idle]
  simp only [bind, Except.bind, vTagIn_of_mem mem, clean, unpoisoned, Bool.not_false, need, if_true, runCol]
  rfl

end Sys2Proof.Machine

namespace Sys2Proof.Proofs

open Sys2Proof.Machine

/-- Settles O34, word by word. -/
theorem maskAndVoteResults : Obligations.MaskAndVoteResults := by
  unfold Obligations.MaskAndVoteResults
  intro s
  refine ⟨fun o free likes cleanA cleanB => ?vcmp, fun o free likes idle => ?vsel, fun o => ⟨?vany, ?vall⟩,
    fun o => ⟨colCompletes_of_next rfl rfl, colCompletes_of_next rfl rfl, colCompletes_of_next rfl rfl⟩, fun o => colCompletes_of_next rfl rfl,
    fun o idle mem clean => ?mrange⟩
  case vcmp =>
    refine ⟨_, _, fun j inside => getLsbD_keptMask _ _ inside, fun j lt inside => ?_,
      colCompletes_of_next (exec_vcmp_of_likes free likes cleanA cleanB) rfl⟩
    rw [vCount, getLsbD_maskOf _ lt inside, compared]
    simp only [List.contains_iff_mem]
    generalize o.c.toNat = code
    split
    · rcases code with _ | _ | _ | _ | _ | _ | code
      case isTrue.succ.zero => exact decide_not
      all_goals rfl
    · rcases code with _ | _ | _ | _ | _ | _ | code
      all_goals simp only [intCond, intOrder_eq]
  case vsel => exact sendsLanes_vsel free likes idle
  case vany =>
    rw [any_maskBit]
    exact colCompletes_of_next rfl rfl
  case vall =>
    rw [all_maskBit]
    exact colCompletes_of_next rfl rfl
  case mrange =>
    refine ⟨_, fun j inside => ?_, colCompletes_of_next (exec_mrange_of_idle idle mem clean) rfl⟩
    rw [rangeOf, vCount]
    split
    · exact getLsbD_rangeMask _ _ inside
    · exact getLsbD_rangeMask _ _ inside

end Sys2Proof.Proofs

namespace Sys2Proof.Machine

/-! ### The active elements of a row or a column (R386) -/

/-- The active elements of row `j` of an array with rows of `c` elements. -/
def activeRow {α : Type} (m : Nat → Bool) (x : Nat → α) (c j : Nat) : List α := ((List.range c).filter fun i => m (j * c + i)).map fun i => x (j * c + i)

/-- The active elements of column `j` of an array of `n` rows of `c` elements. -/
def activeColumn {α : Type} (m : Nat → Bool) (x : Nat → α) (n c j : Nat) : List α := ((List.range n).filter fun r => m (r * c + j)).map fun r => x (r * c + j)

section
variable {α : Type} (m : Nat → Bool) (x : Nat → α)

theorem filterMap_active (l : List Nat) : l.filterMap (fun i => if m i then some (x i) else none) = (l.filter m).map x := by
  induction l with
  | nil => rfl
  | cons i l ih => by_cases on : m i <;> simp [on, ih]

theorem range_rows (n c : Nat) : List.range ((n + 1) * c) = List.range (n * c) ++ (List.range c).map (n * c + ·) := by
  rw [Nat.add_one_mul, List.range_add]

theorem filterMap_row (c j : Nat) (n : Nat) :
    (List.range (n * c)).filterMap (fun i => if (m i && decide (i / c = j)) = true then some (x i) else none) = if j < n then activeRow m x c j else [] := by
  induction n with
  | zero => simp
  | succ n ih =>
    have inside : ∀ i ∈ List.range c, (n * c + i) / c = n := fun i mem => by
      have lt := List.mem_range.mp mem
      rw [Nat.mul_comm, Nat.mul_add_div (Nat.zero_lt_of_lt lt), Nat.div_eq_of_lt lt, Nat.add_zero]
    have last : (List.range c).filterMap (fun i => if (m (n * c + i) && decide ((n * c + i) / c = j)) = true then some (x (n * c + i)) else none)
        = if n = j then activeRow m x c j else [] := by
      by_cases here : n = j
      · subst here
        rw [if_pos rfl, activeRow, ← filterMap_active]
        refine List.filterMap_congr fun i mem => ?_
        rw [inside i mem, decide_eq_true rfl, Bool.and_true]
      · rw [if_neg here, List.filterMap_eq_nil_iff]
        intro i mem
        rw [inside i mem, decide_eq_false here, Bool.and_false]
        rfl
    rw [range_rows, List.filterMap_append, ih, List.filterMap_map]
    refine (congrArg _ last).trans ?_
    rcases Nat.lt_trichotomy j n with lt | rfl | gt
    · rw [if_pos lt, if_neg (Nat.ne_of_gt lt), if_pos (Nat.lt_succ_of_lt lt), List.append_nil]
    · rw [if_neg (Nat.lt_irrefl _), if_pos rfl, if_pos (Nat.lt_succ_self _), List.nil_append]
    · rw [if_neg (Nat.lt_asymm gt), if_neg (Nat.ne_of_lt gt), if_neg (by omega), List.append_nil]

/-- The one place of a row that is in column `j`. -/
theorem filterMap_only {j : Nat} : ∀ {c : Nat}, j < c →
    (List.range c).filterMap (fun i => if (m i && decide (i = j)) = true then some (x i) else none) = if m j then [x j] else [] := by
  intro c lt
  have others : ∀ n, n ≤ j → (List.range n).filterMap (fun i => if (m i && decide (i = j)) = true then some (x i) else none) = [] := fun n le => by
    rw [List.filterMap_eq_nil_iff]
    intro i mem
    rw [decide_eq_false (Nat.ne_of_lt (Nat.lt_of_lt_of_le (List.mem_range.mp mem) le)), Bool.and_false]
    rfl
  induction c with
  | zero => exact absurd lt (Nat.not_lt_zero _)
  | succ c ih =>
    rw [List.range_succ, List.filterMap_append]
    show _ ++ List.filterMap _ [c] = _
    by_cases here : c = j
    · subst here
      rw [others c (Nat.le_refl _), List.nil_append]
      by_cases on : m c <;> simp [on]
    · rw [ih (by omega)]
      simp [here]

theorem filterMap_column {c j : Nat} (lt : j < c) (n : Nat) :
    (List.range (n * c)).filterMap (fun i => if (m i && decide (i % c = j)) = true then some (x i) else none) = activeColumn m x n c j := by
  induction n with
  | zero => simp [activeColumn]
  | succ n ih =>
    have last : (List.range c).filterMap (fun i => if (m (n * c + i) && decide ((n * c + i) % c = j)) = true then some (x (n * c + i)) else none)
        = if m (n * c + j) then [x (n * c + j)] else [] := by
      rw [← filterMap_only (fun i => m (n * c + i)) (fun i => x (n * c + i)) lt]
      refine List.filterMap_congr fun i mem => ?_
      rw [Nat.mul_add_mod', Nat.mod_eq_of_lt (List.mem_range.mp mem)]
    rw [range_rows, List.filterMap_append, ih, List.filterMap_map]
    refine (congrArg _ last).trans ?_
    rw [activeColumn, activeColumn, List.range_succ, List.filter_append, List.map_append]
    by_cases on : m (n * c + j) <;> simp [on]

end

theorem zipIdx_map_range {α : Type} (f : Nat → α) (n : Nat) : ((List.range n).map f).zipIdx = (List.range n).map fun i => (f i, i) := by
  have places : List.range n = (List.range n).map id := (List.map_id _).symm
  rw [List.zipIdx_eq_zip_range', List.length_map, List.length_range, ← List.range_eq_range']
  conv => lhs; arg 2; rw [places]
  exact zip_map_range f id n

theorem lineElems_eq (r : VReg) (m : Nat → Bool) (byRow : Bool) (j : Nat) :
    lineElems r ((List.range (vCount r)).map m) (vBits r) byRow j
      = (List.range (vCount r)).filterMap fun i =>
          if (m i && decide ((if byRow then i / r.cols else i % r.cols) = j)) = true then some (vLane r i) else none := by
  rw [lineElems, vBits_eq, vCount, zip_map_range, zipIdx_map_range, List.filterMap_map]
  rfl

/-- Line `j` of a register: a row or a column. -/
def lineOfReg (r : VReg) (m : Nat → Bool) (byRow : Bool) (j : Nat) : List Nat :=
  if byRow then activeRow m (vLane r) r.cols j else activeColumn m (vLane r) r.rows r.cols j

theorem lineElems_eq_lineOfReg (r : VReg) (m : Nat → Bool) (byRow : Bool) {j : Nat} (lt : j < if byRow then r.rows else r.cols) :
    lineElems r ((List.range (vCount r)).map m) (vBits r) byRow j = lineOfReg r m byRow j := by
  rw [lineElems_eq, lineOfReg]
  cases byRow with
  | true => exact (filterMap_row m (vLane r) r.cols j r.rows).trans (if_pos lt)
  | false => exact filterMap_column m (vLane r) lt r.rows

/-! ### Reductions (R386) -/

/-- A result is also described by lanes that agree modulo the element width, with the same exceptions. -/
theorem SendsLanes.congr {i : Instr} {s : State} {d : BitVec 5} {x : Slot} {lat busy tag rows cols : Nat} {m : Nat → Bool} {srcs : Bool}
    {lane lane' : Nat → Nat × FpFlags} {sr : Nat} (sends : SendsLanes i s d x lat busy tag rows cols m srcs lane sr)
    (bits : ∀ j, (lane j).1 % 2 ^ elemWidth tag = (lane' j).1 % 2 ^ elemWidth tag) (flags : ∀ j, (lane j).2 = (lane' j).2) :
    SendsLanes i s d x lat busy tag rows cols m srcs lane' sr := by
  obtain ⟨v, r, sent, tag', rows', cols', ⟨low, lanes⟩, poison, raised, state⟩ := sends
  refine ⟨v, r, sent, tag', rows', cols', ⟨low, fun j lt => ?_⟩, poison, ?_, state⟩
  · obtain ⟨on, keeps, clears⟩ := lanes j lt
    refine ⟨fun active => ?_, keeps, clears⟩
    rw [on active, tag']
    exact bits j
  · simpa only [FlagsOf, flags] using raised

section
variable {i : Instr} {s : State} {o : V2} {byRow : Bool} (free : slotBusy s.core.units (cyc s) .arith = false) (idle : VIdle s o.a)
  (idleD : (readV s o.d).busy = 0) (mem : (readV s o.a).tag.toNat ∈ tagsF ++ tagsI)
include free idle idleD mem

/-- The lines of v[a] that a reduction takes, and their number. -/
theorem exec_vReduce {f : VReg → Nat → List Nat → (Nat × FpFlags) × Nat} {rows cols : Nat} (shapeR : (if byRow then (readV s o.a).rows else 1) = rows)
    (shapeC : (if byRow then 1 else (readV s o.a).cols) = cols) :
    vReduce byRow o f s = runV s o.d .arith 8 (do
      let v ← vCommit (readV s o.d) (readV s o.a).tag.toNat rows cols ((List.range (rows * cols)).map fun _ => true)
        (mapFirst (f (readV s o.a)) (fun _ => true) (lineOfReg (readV s o.a) (maskBit s o.k) byRow) (Rounding.start s) (rows * cols)).1 (readV s o.a).poison
      .ok (slotCycles (vCount (readV s o.a)) (vWidth (readV s o.a)), v,
        (mapFirst (f (readV s o.a)) (fun _ => true) (lineOfReg (readV s o.a) (maskBit s o.k) byRow) (Rounding.start s) (rows * cols)).2)) := by
  have count : (if byRow then (readV s o.a).rows else (readV s o.a).cols) = rows * cols := by
    subst shapeR shapeC
    cases byRow <;> simp
  have lines : (List.range (rows * cols)).map (lineElems (readV s o.a) (activeOf (readM s o.k) (vCount (readV s o.a))) (vBits (readV s o.a)) byRow)
      = (List.range (rows * cols)).map (lineOfReg (readV s o.a) (maskBit s o.k) byRow) :=
    List.map_congr_left fun j inside => lineElems_eq_lineOfReg _ _ _ (by rw [count]; exact List.mem_range.mp inside)
  have shape : (if byRow then rows * cols else 1) = rows ∧ (if byRow then 1 else rows * cols) = cols := by
    subst shapeR shapeC
    cases byRow <;> simp
  rw [vReduce, vReady_of_idle idle, vFree_of_idle idleD, slotFree_of_idle free]
  simp only [bind, Except.bind, vTagIn_of_mem mem, count, lines, replicate_true, shape.1, shape.2]
  rfl

end

/-! ### Sums and orders (R386) -/

theorem foldl_add_zero (l : List Nat) : l.foldl (· + ·) 0 = l.sum := List.sum_eq_foldl.symm

theorem redSum_floats {mode : Mode} {r : VReg} (floats : tagsF.contains r.tag.toNat = true) :
    redSum mode r = fun st l => roundDraw r.tag.toNat mode true st (exactSum (mode = .rdn) (l.map (decodeTag r.tag.toNat))) := by
  funext st l
  exact if_pos floats

theorem redSum_integers {mode : Mode} {r : VReg} (floats : tagsF.contains r.tag.toNat = false) :
    redSum mode r = fun st l => ((l.foldl (· + ·) 0 % 2 ^ vWidth r, {}), st) := by
  funext st l
  exact if_neg (Bool.eq_false_iff.mp floats)

theorem signedTag_iff (tag : Nat) : signedTag tag = true ↔ tag ∈ [tagInt8, tagInt16, tagInt32] := by simp [signedTag, or_assoc]

theorem intLo_signedTag (w tag : Nat) : intLo w (signedTag tag) = if tag ∈ [tagInt8, tagInt16, tagInt32] then -2 ^ (w - 1) else 0 := by
  simp only [intLo, signedTag_iff, Nat.cast_pow, Nat.cast_ofNat]

theorem intHi_signedTag (w tag : Nat) : intHi w (signedTag tag) = if tag ∈ [tagInt8, tagInt16, tagInt32] then 2 ^ (w - 1) - 1 else 2 ^ w - 1 := by
  simp only [intHi, signedTag_iff, Nat.cast_pow, Nat.cast_ofNat]

/-- The integer that a maximum or a minimum takes an element for (R381). -/
def integerOf (r : VReg) (x : Nat) : Int := if r.tag.toNat ∈ [tagInt8, tagInt16, tagInt32] then sNat (vWidth r) x else (x : Int)

/-- What a maximum or a minimum gives for the elements of a line; of none, the lowest or the highest value of the format (R386). -/
def orderOf (up : Bool) (r : VReg) (l : List Nat) : Nat × FpFlags :=
  (match fmtOf r.tag.toNat with
    | .fl f => encodeFl f ((l.map (decodeFl f)).foldl (if up then xMax else xMin) (lowestOf f up))
    | .int w _ =>
      let lo : Int := if r.tag.toNat ∈ [tagInt8, tagInt16, tagInt32] then -2 ^ (w - 1) else 0
      let hi : Int := if r.tag.toNat ∈ [tagInt8, tagInt16, tagInt32] then 2 ^ (w - 1) - 1 else 2 ^ w - 1
      ((l.map (integerOf r)).foldl (if up then max else min) (if up then lo else hi) % (2 : Int) ^ w).toNat, {})

theorem redOrder_eq (up : Bool) (r : VReg) : redOrder up r = fun st l => (orderOf up r l, st) := by
  have order : intOrder r = integerOf r := funext (intOrder_eq r)
  funext st l
  rw [redOrder, orderOf, order]
  cases fmtOf r.tag.toNat with
  | fl f => rfl
  | int w signed => simp only [intLo_signedTag, intHi_signedTag, intMod, Nat.cast_pow, Nat.cast_ofNat]

section
variable {i : Instr} {s : State} {o : V2} {byRow : Bool} (free : slotBusy s.core.units (cyc s) .arith = false) (idle : VIdle s o.a)
  (idleD : (readV s o.d).busy = 0) (mem : (readV s o.a).tag.toNat ∈ tagsF ++ tagsI) {rows cols : Nat}
  (shapeR : (if byRow then (readV s o.a).rows else 1) = rows) (shapeC : (if byRow then 1 else (readV s o.a).cols) = cols)
include free idle idleD mem shapeR shapeC

/-- A sum of floating elements is exact and rounded once; one of integers is modulo 2^W. -/
theorem sendsLanes_redSum (runs : exec i s = vReduce byRow o (redSum (rmode s)) s) :
    SendsLanes i s o.d .arith 8 (slotCycles (vCount (readV s o.a)) (vWidth (readV s o.a))) (readV s o.a).tag.toNat rows cols (fun _ => true)
      (readV s o.a).poison
      (fun j => if tagsF.contains (readV s o.a).tag.toNat then
          roundedLane (readV s o.a).tag.toNat (rmode s) true (fun _ => true) s.core.sys.srState.toNat j
            (exactSum (rmode s = .rdn) ((lineOfReg (readV s o.a) (maskBit s o.k) byRow j).map (decodeTag (readV s o.a).tag.toNat)))
        else ((lineOfReg (readV s o.a) (maskBit s o.k) byRow j).sum, {}))
      (if tagsF.contains (readV s o.a).tag.toNat then drawsTo (rmode s) (fun _ => true) s.core.sys.srState.toNat (rows * cols)
        else s.core.sys.srState.toNat) := by
  rw [exec_vReduce free idle idleD mem shapeR shapeC] at runs
  have dest := vDest_of_allActive idleD (readV s o.a).tag.toNat rows cols
  cases floats : tagsF.contains (readV s o.a).tag.toNat with
  | true =>
    rw [redSum_floats floats] at runs
    exact sendsLanes_of_rounding _ _ _ (fun l : List Nat => exactSum (rmode s = .rdn) (l.map (decodeTag (readV s o.a).tag.toNat))) _ dest runs
  | false =>
    rw [redSum_integers floats] at runs
    have plain : elemWidth (readV s o.a).tag.toNat = vWidth (readV s o.a) :=
      elemWidth_of_not_se (isSe_of_mem_tagsX (List.mem_cons_of_mem _ mem))
    refine (sendsLanes_of_flagged (fun l : List Nat => (l.foldl (· + ·) 0 % 2 ^ vWidth (readV s o.a), {})) _ dest runs).congr (fun j => ?_) fun j => rfl
    rw [plain, Nat.mod_mod, foldl_add_zero]
    rfl

/-- A maximum or a minimum of each line. -/
theorem sendsLanes_redOrder {up : Bool} (runs : exec i s = vReduce byRow o (redOrder up) s) :
    SendsLanes i s o.d .arith 8 (slotCycles (vCount (readV s o.a)) (vWidth (readV s o.a))) (readV s o.a).tag.toNat rows cols (fun _ => true)
      (readV s o.a).poison (fun j => orderOf up (readV s o.a) (lineOfReg (readV s o.a) (maskBit s o.k) byRow j)) s.core.sys.srState.toNat := by
  rw [exec_vReduce free idle idleD mem shapeR shapeC, redOrder_eq] at runs
  exact sendsLanes_of_flagged (orderOf up (readV s o.a)) _ (vDest_of_allActive idleD ..) runs

end

/-! ### The permute slot (R387) -/

section
variable {i : Instr} {s : State} {o : V3} (free : slotBusy s.core.units (cyc s) .permute = false) (idleA : VIdle s o.a) (idleB : VIdle s o.b)
  (memA : (readV s o.a).tag.toNat ∈ tagsX) (memB : (readV s o.b).tag.toNat = tagIndex32) {rows cols : Nat} {res lane : Nat → Nat}
  (dest : VDest s o.d (readV s o.a).tag.toNat rows cols (maskBit s o.k)) (same : ∀ j, j < rows * cols → res j = lane j)
include free idleA idleB memA memB dest same

/-- A word of the permute slot gives the elements that it names. -/
theorem sendsLanes_vMove {perm : Bool} {f : VReg → VReg → Nat × Nat × List Nat} (moves : f (readV s o.a) (readV s o.b) = (rows, cols, (List.range (rows * cols)).map res))
    (runs : exec i s = vMove o perm f s) :
    SendsLanes i s o.d .permute 4
      (if perm then max 1 (ceilDiv (max (vCount (readV s o.a)) (max (vCount (readV s o.b)) (rows * cols))) 128)
        else slotCycles (max (vCount (readV s o.a)) (max (vCount (readV s o.b)) (rows * cols))) (vWidth (readV s o.a)))
      (readV s o.a).tag.toNat rows cols (maskBit s o.k) ((readV s o.a).poison || (readV s o.b).poison) (fun j => (lane j, {}))
      s.core.sys.srState.toNat := by
  refine sendsLanes_of_map (res := res) (fun j lt _ => by rw [same j lt]) dest ?_
  rw [runs, vMove, vReady_of_idle idleA, vReady_of_idle idleB, vFree_of_idle dest.1, slotFree_of_idle free]
  simp only [bind, Except.bind, vTagIn_of_mem memA, vTagIn_of_mem (List.mem_singleton.mpr memB), moves]
  rfl

/-- VTRN, whose slot count is that of its source alone (R375). -/
theorem sendsLanes_vtrn (moves : trnMove (readV s o.a) (readV s o.b) = (rows, cols, (List.range (rows * cols)).map res)) :
    SendsLanes (.vtrn o) s o.d .permute 4 (slotCycles (vCount (readV s o.a)) (vWidth (readV s o.a))) (readV s o.a).tag.toNat rows cols (maskBit s o.k)
      ((readV s o.a).poison || (readV s o.b).poison) (fun j => (lane j, {})) s.core.sys.srState.toNat := by
  refine sendsLanes_of_map (res := res) (fun j lt _ => by rw [same j lt]) dest ?_
  show execVtrn o s = _
  rw [execVtrn, vReady_of_idle idleA, vReady_of_idle idleB, vFree_of_idle dest.1, slotFree_of_idle free]
  simp only [bind, Except.bind, vTagIn_of_mem memA, vTagIn_of_mem (List.mem_singleton.mpr memB), moves]
  rfl

end

theorem elemOr0_of_lt {r : VReg} {i : Nat} (lt : i < r.rows * r.cols) : elemOr0 r i = vLane r i := if_pos lt

/-- The least power of two that is not below a number of rows up to 32. -/
theorem pow2Above_bounds : ∀ n < 33, 1 ≤ n → n ≤ pow2Above n ∧ pow2Above n < 2 * n ∧ ∃ e < 6, pow2Above n = 2 ^ e := by decide

/-- An element of a row of the source stands inside it. -/
theorem place_lt {n c r k : Nat} (row : r < n) (column : k < c) : r * c + k < n * c := by
  have := Nat.mul_le_mul_right c (Nat.succ_le_of_lt row)
  rw [Nat.succ_mul] at this
  omega

end Sys2Proof.Machine

namespace Sys2Proof.Proofs

open Sys2Proof.Machine

/-- Settles O35: the reductions by rows and by columns, then the words of the permute slot. -/
theorem reductionAndPermuteResults : Obligations.ReductionAndPermuteResults := by
  unfold Obligations.ReductionAndPermuteResults
  refine ⟨fun s o free idle idleD mem => ?reductions, fun s o free idleA idleB memA memB => ⟨fun dest => ?vperm, fun dest => ?vbcast, fun dest => ?vrot,
    fun low high wide => ?vtrn⟩⟩
  case reductions =>
    have sum {i : Instr} {byRow : Bool} {rows cols : Nat} := sendsLanes_redSum (i := i) (byRow := byRow) (rows := rows) (cols := cols) free idle idleD mem
    have order {i : Instr} {byRow : Bool} {rows cols : Nat} {up : Bool} :=
      sendsLanes_redOrder (i := i) (byRow := byRow) (rows := rows) (cols := cols) (up := up) free idle idleD mem
    refine ⟨?vrsum, order (byRow := true) (rows := (readV s o.a).rows) (cols := 1) rfl rfl (show exec (.vrmax o) s = execVrmax o s from rfl),
      order (byRow := true) (rows := (readV s o.a).rows) (cols := 1) rfl rfl (show exec (.vrmin o) s = execVrmin o s from rfl), ?vcsum,
      order (byRow := false) (rows := 1) (cols := (readV s o.a).cols) rfl rfl (show exec (.vcmax o) s = execVcmax o s from rfl)⟩
    case vrsum =>
      have sends := sum (byRow := true) (rows := (readV s o.a).rows) (cols := 1) rfl rfl (show exec (.vrsum o) s = execVrsum o s from rfl)
      rw [Nat.mul_one] at sends
      exact sends
    case vcsum =>
      have sends := sum (byRow := false) (rows := 1) (cols := (readV s o.a).cols) rfl rfl (show exec (.vcsum o) s = execVcsum o s from rfl)
      rw [Nat.one_mul] at sends
      exact sends
  case vperm =>
    have sends := sendsLanes_vMove free idleA idleB memA memB dest (fun _ _ => rfl) (perm := true) (f := fun a b => (b.rows, b.cols, (vBits b).map (elemOr0 a)))
      (res := fun j => elemOr0 (readV s o.a) (vLane (readV s o.b) j)) (by rw [vBits_eq, List.map_map]; rfl) (show exec (.vperm o) s = execVperm o s from rfl)
    rw [vCount, vCount, max_self] at sends
    exact sends
  case vbcast =>
    have sends := sendsLanes_vMove free idleA idleB memA memB dest (fun _ _ => rfl) (perm := false)
      (f := fun a b => (a.rows, a.cols, List.replicate (vCount a) (elemOr0 a (indexZero b % vCount a))))
      (res := fun _ => elemOr0 (readV s o.a) (indexZero (readV s o.b) % vCount (readV s o.a))) (by rw [List.map_const', List.length_range]; rfl)
      (show exec (.vbcast o) s = execVbcast o s from rfl)
    rw [vCount, vCount, max_comm ((readV s o.b).rows * (readV s o.b).cols), ← max_assoc, max_self] at sends
    exact sends
  case vrot =>
    have sends := sendsLanes_vMove free idleA idleB memA memB dest (fun j lt => elemOr0_of_lt ?_) (perm := false)
      (f := fun a b => (a.rows, a.cols, (List.range (vCount a)).map fun i => elemOr0 a (i / a.cols * a.cols + (i % a.cols + indexZero b) % a.cols)))
      rfl (show exec (.vrot o) s = execVrot o s from rfl)
    · rw [vCount, vCount, max_comm ((readV s o.b).rows * (readV s o.b).cols), ← max_assoc, max_self] at sends
      exact sends
    · have wide : 0 < (readV s o.a).cols := Nat.pos_of_ne_zero fun none => by simp [none] at lt
      exact place_lt (Nat.div_lt_of_lt_mul (by rwa [Nat.mul_comm])) (Nat.mod_lt _ wide)
  case vtrn =>
    obtain ⟨above, below, e, -, power⟩ := pow2Above_bounds _ (Nat.lt_succ_of_le high) low
    refine ⟨pow2Above (readV s o.a).rows, above, below, ⟨e, power⟩, fun dest => ?_⟩
    refine sendsLanes_vtrn free idleA idleB memA memB dest (fun j lt => ?_) rfl
    split
    · rename_i row
      refine elemOr0_of_lt ?_
      have column : j / pow2Above (readV s o.a).rows < min 32 ((readV s o.a).cols - indexZero (readV s o.b) % (readV s o.a).cols) :=
        Nat.div_lt_of_lt_mul (by rwa [Nat.mul_comm])
      rw [Nat.add_assoc]
      refine place_lt row ?_
      show indexZero (readV s o.b) % (readV s o.a).cols + _ < _
      generalize j / pow2Above (readV s o.a).rows = q at column ⊢
      omega
    · rfl

end Sys2Proof.Proofs

namespace Sys2Proof.Machine

/-! ### Conversions and moves of whole elements (R377, R388, R390) -/

theorem modeOf_eq (s : State) (r : BitVec 3) : modeOf s r = if r = 0 then rmode s else Mode.ofCode (r.toNat - 1) := by
  have zero : r = 0 ↔ r.toNat = 0 := ⟨fun h => by rw [h]; rfl, fun h => BitVec.eq_of_toNat_eq h⟩
  simp only [modeOf, zero]
  cases r.toNat <;> rfl

section
variable {s : State} (free : slotBusy s.core.units (cyc s) .arith = false)
include free

theorem sendsLanes_vcvt {o : VCvtOp} (idle : VIdle s o.a) (mem : (readV s o.a).tag.toNat ∈ tagsX)
    (dest : VDest s o.d o.t.toNat (readV s o.a).rows (readV s o.a).cols (maskBit s o.k)) :
    SendsLanes (.vcvt o) s o.d .arith 4 (slotCycles (vCount (readV s o.a)) (max (vWidth (readV s o.a)) (tagWidth o.t.toNat))) o.t.toNat
      (readV s o.a).rows (readV s o.a).cols (maskBit s o.k) (readV s o.a).poison
      (fun j => roundedLane o.t.toNat (modeOf s o.r) (tagsF.contains (readV s o.a).tag.toNat) (maskBit s o.k) s.core.sys.srState.toNat j
        (vValue (readV s o.a) j, false))
      (drawsTo (modeOf s o.r) (maskBit s o.k) s.core.sys.srState.toNat (vCount (readV s o.a))) := by
  refine sendsLanes_of_rounding _ _ _ (fun x => (decodeTag (readV s o.a).tag.toNat x, false)) (vLane (readV s o.a)) dest ?_
  show execVcvt o s = _
  rw [execVcvt, vReady_of_idle idle, vFree_of_idle dest.1, slotFree_of_idle free]
  simp only [bind, Except.bind, vTagIn_of_mem mem]
  rfl

theorem sendsLanes_vdeq {o : VDeqOp} (idle : VIdle s o.a) (mem : (readV s o.a).tag.toNat ∈ tagsSe)
    (dest : VDest s o.d o.t.toNat (readV s o.a).rows (readV s o.a).cols (maskBit s o.k)) :
    SendsLanes (.vdeq o) s o.d .arith 4 (slotCycles (vCount (readV s o.a)) (max (elemWidth (readV s o.a).tag.toNat) (tagWidth o.t.toNat))) o.t.toNat
      (readV s o.a).rows (readV s o.a).cols (maskBit s o.k) (readV s o.a).poison
      (fun j => roundedLane o.t.toNat (rmode s) true (maskBit s o.k) s.core.sys.srState.toNat j
        (seValue (readV s o.a).data.toNat (readV s o.a).tag.toNat (vCount (readV s o.a)) j, false))
      (drawsTo (rmode s) (maskBit s o.k) s.core.sys.srState.toNat (vCount (readV s o.a))) := by
  refine sendsLanes_of_rounding _ _ _ (fun x => (x, false))
    (seValue (readV s o.a).data.toNat (readV s o.a).tag.toNat (vCount (readV s o.a))) dest ?_
  show execVdeq o s = _
  rw [execVdeq, vReady_of_idle idle, vFree_of_idle dest.1, slotFree_of_idle free]
  simp only [bind, Except.bind, vTagIn_of_mem mem]
  rfl

/-- The element bits that VLDI writes, and their exceptions (R377). -/
def immediateBits (tag : Nat) (x : Int) : Nat × FpFlags := if tag = tagRaw then (intMod 32 x, {}) else roundBits tag .rne 0 false (XReal.ofInt x)

theorem sendsLanes_vldi {o : VImm} (idle : VIdle s o.d) (mem : (readV s o.d).tag.toNat ∈ tagsX) :
    SendsLanes (.vldi o) s o.d .arith 3 (slotCycles (vCount (readV s o.d)) (vWidth (readV s o.d))) (readV s o.d).tag.toNat (readV s o.d).rows
      (readV s o.d).cols (maskBit s o.k) false (fun _ => immediateBits (readV s o.d).tag.toNat o.i.toInt) s.core.sys.srState.toNat := by
  refine sendsLanes_of_flagged (fun _ : Nat => immediateBits (readV s o.d).tag.toNat o.i.toInt) id ⟨idle.2, .inl idle.1⟩ ?_
  show execVldi o s = _
  rw [execVldi, vReady_of_idle idle, slotFree_of_idle free]
  simp only [bind, Except.bind, vTagIn_of_mem mem, mapFirst, List.map_id]
  rfl

theorem exec_vmov {o : V2} (idle : VIdle s o.a) (idleD : (readV s o.d).busy = 0) (mem : (readV s o.a).tag.toNat ∈ tagsX ++ tagsSe) :
    exec (.vmov o) s = runV s o.d .arith 3 (do
      let v ← vCommit (readV s o.d) (readV s o.a).tag.toNat (readV s o.a).rows (readV s o.a).cols ((List.range (vCount (readV s o.a))).map (maskBit s o.k))
        ((List.range (vCount (readV s o.a))).map (elemAt (readV s o.a).data.toNat (elemWidth (readV s o.a).tag.toNat))) (readV s o.a).poison
      let v := if isSe (readV s o.a).tag.toNat then
        { v with data := v.data + scalePlane (readV s o.a).data.toNat (readV s o.a).tag.toNat (vCount (readV s o.a)) } else v
      .ok (slotCycles (vCount (readV s o.a)) (elemWidth (readV s o.a).tag.toNat), v, Rounding.start s)) := by
  show execVmov o s = _
  rw [execVmov, vReady_of_idle idle, vFree_of_idle idleD, slotFree_of_idle free]
  simp only [bind, Except.bind, vTagIn_of_mem mem]
  rfl

theorem sendsLike_vmov {o : V2} (idle : VIdle s o.a) (dest : DestLike s o.d o.a o.k) (mem : (readV s o.a).tag.toNat ∈ tagsX) :
    SendsLike (.vmov o) s o.d o.a o.k 3 (slotCycles (vCount (readV s o.a)) (elemWidth (readV s o.a).tag.toNat)) (readV s o.a).poison
      (fun j => (vLane (readV s o.a) j, {})) s.core.sys.srState.toNat := by
  have plain := isSe_of_mem_tagsX mem
  refine sendsLanes_of_map (res := vLane (readV s o.a)) (fun _ _ _ => rfl) dest ?_
  rw [exec_vmov free idle dest.1 (List.mem_append_left _ mem)]
  simp only [plain, Bool.false_eq_true, if_false, elemWidth_of_not_se plain]
  rfl

/-- What VMOV of an SE register sends: the committed elements with the scale plane of the source above them (R377, 08_formats R239). -/
def movedSe (s : State) (o : V2) : VNew :=
  let v := commitV (readV s o.d) (readV s o.a).tag.toNat (readV s o.a).rows (readV s o.a).cols
    ((List.range ((readV s o.a).rows * (readV s o.a).cols)).map (maskBit s o.k))
    ((List.range ((readV s o.a).rows * (readV s o.a).cols)).map (elemAt (readV s o.a).data.toNat (elemWidth (readV s o.a).tag.toNat))) (readV s o.a).poison
  { v with data := v.data + scalePlane (readV s o.a).data.toNat (readV s o.a).tag.toNat (vCount (readV s o.a)) }

theorem sendsV_vmov_se {o : V2} (idle : VIdle s o.a) (dest : DestLike s o.d o.a o.k) (mem : (readV s o.a).tag.toNat ∈ tagsSe)
    (se : isSe (readV s o.a).tag.toNat = true) :
    SendsV (.vmov o) s o.d .arith 3 (slotCycles (vCount (readV s o.a)) (elemWidth (readV s o.a).tag.toNat)) (movedSe s o) (Rounding.start s) := by
  have commit := vCommit_of_dest dest ((List.range ((readV s o.a).rows * (readV s o.a).cols)).map
    (elemAt (readV s o.a).data.toNat (elemWidth (readV s o.a).tag.toNat))) (readV s o.a).poison
  refine sendsV_of_finishV ?_
  rw [exec_vmov free idle dest.1 (List.mem_append_right _ mem), vCount, commit]
  simp only [bind, Except.bind, se, if_true]
  rfl

end

/-- The elements of a moved SE register, and its scale plane above them. -/
theorem movedSe_data {s : State} {o : V2} (se : isSe (readV s o.a).tag.toNat = true) :
    (∀ j, j < vCount (readV s o.a) → maskBit s o.k j = true →
      elemAt (movedSe s o).data (elemWidth (readV s o.a).tag.toNat) j = elemAt (readV s o.a).data.toNat (elemWidth (readV s o.a).tag.toNat) j)
    ∧ (movedSe s o).data / 2 ^ (vCount (readV s o.a) * elemWidth (readV s o.a).tag.toNat)
      = (readV s o.a).data.toNat / 2 ^ (vCount (readV s o.a) * elemWidth (readV s o.a).tag.toNat) % 2 ^ vCount (readV s o.a) := by
  have width : elemWidth (readV s o.a).tag.toNat = seBits (readV s o.a).tag.toNat + 1 := if_pos se
  obtain ⟨low, lanes⟩ := lanes_commitV (old := readV s o.d) (tag := (readV s o.a).tag.toNat) (m := maskBit s o.k) (srcs := (readV s o.a).poison)
    (res := elemAt (readV s o.a).data.toNat (elemWidth (readV s o.a).tag.toNat)) (lane := elemAt (readV s o.a).data.toNat (elemWidth (readV s o.a).tag.toNat))
    (rows := (readV s o.a).rows) (cols := (readV s o.a).cols) fun _ _ _ => rfl
  simp only [movedSe, scalePlane, ← width]
  refine ⟨fun j lt on => ?_, ?_⟩
  · rw [elemAt_add_mul_two_pow _ _ (by rw [Nat.mul_comm]; exact Nat.mul_le_mul_right _ lt)]
    exact ((lanes j lt).1 on).trans (Nat.mod_mod ((readV s o.a).data.toNat / _) _)
  · rw [Nat.add_mul_div_right _ _ (Nat.two_pow_pos _), Nat.div_eq_of_lt (by rw [Nat.mul_comm (vCount _)]; exact low), Nat.zero_add]

/-! ### VSHAPE (R377) -/

theorem not_of_rejectIf {r : Reject} {p : Prop} [Decidable p] (h : rejectIf r p = none) : ¬ p := fun holds => by
  rw [rejectIf, if_pos holds] at h
  cases h

theorem isSe_iff (tag : Nat) : isSe tag = true ↔ tag ∈ tagsSe := by
  simp only [isSe, Bool.or_eq_true, decide_eq_true_eq, tagsSe, List.mem_cons, List.not_mem_nil, or_false, or_assoc]
  rfl

theorem exec_vshape_of {s : State} {o : VShapeOp} (idle : VIdle s o.d) (formed : reject? (.vshape o) = none)
    (fits : (readV s o.d).tag.toNat ∈ tagsSe → (o.r.toNat + 1) * 2 ^ o.c.toNat = (readV s o.d).rows * (readV s o.d).cols) :
    exec (.vshape o) s = .next (colNext .colC
      (post (cyc s) 2 (.vWrite o.d (readV s o.d).data (readV s o.d).tag (o.r.toNat + 1) (2 ^ o.c.toNat) (readV s o.d).poison false) s)) := by
  have small : ¬ (2048 < (o.r.toNat + 1) * 2 ^ o.c.toNat ∨ 11 < o.c.toNat) := not_of_rejectIf formed
  have legal : ((o.r.toNat + 1) * 2 ^ o.c.toNat ≤ 2048 && o.c.toNat ≤ 11) = true := by simp; omega
  have whole : (!(isSe (readV s o.d).tag.toNat) || decide ((o.r.toNat + 1) * 2 ^ o.c.toNat = vCount (readV s o.d))) = true := by
    cases se : isSe (readV s o.d).tag.toNat with
    | false => rfl
    | true => exact decide_eq_true (fits ((isSe_iff _).mp se))
  show execVshape o s = _
  rw [execVshape, vReady_of_idle idle]
  simp only [bind, Except.bind, need, legal, whole, if_true, runCol]

/-! ### VQUANT (R389, 08_formats R239) -/

/-- A fold that adds one element for each of a list. -/
theorem length_foldl_append_one {α β γ : Type} (f : List α × β → γ → List α × β) (one : ∀ acc q, (f acc q).1.length = acc.1.length + 1) (l : List γ)
    (acc : List α × β) : (l.foldl f acc).1.length = acc.1.length + l.length := by
  induction l generalizing acc with
  | nil => rfl
  | cons q l ih => rw [List.foldl_cons, ih, one, List.length_cons]; omega

theorem length_quantBlock (p : Nat) (mode : Mode) (act : List Bool) (x : List XReal) (r : Rounding) :
    (quantBlock p mode act x r).1.length = min act.length x.length := by
  unfold quantBlock
  refine (length_foldl_append_one _ (fun acc q => List.length_append) _ _).trans ?_
  simp

/-- Quantising `n` blocks of 16 makes 16 elements and a scale word of each. -/
theorem length_quantAll (p : Nat) (mode : Mode) (n : Nat) (act : List Bool) (x : List XReal) (r : Rounding) (hAct : act.length = 16 * n)
    (hX : x.length = 16 * n) : (quantAll p mode n act x r).1.length = 16 * n ∧ (quantAll p mode n act x r).2.1.length = n := by
  induction n generalizing act x r with
  | zero => exact ⟨rfl, rfl⟩
  | succ n ih =>
    obtain ⟨elems, scales⟩ := ih (act.drop 16) (x.drop 16) (quantBlock p mode (act.take 16) (x.take 16) r).2.2
      (by rw [List.length_drop]; omega) (by rw [List.length_drop]; omega)
    refine ⟨?_, congrArg Nat.succ scales⟩
    rw [quantAll, List.length_append, elems, length_quantBlock, List.length_take, List.length_take]
    omega

/-- The planar layout: elements, and the scale words above them. -/
theorem planar_scale (w : Nat) (elems scales : List Nat) (k : Nat) :
    (packBits w elems + packBits 16 scales * 2 ^ (elems.length * w)) / 2 ^ (elems.length * w + 16 * k) % 2 ^ 16 = scales.getD k 0 % 2 ^ 16 := by
  have low : packBits w elems < 2 ^ (elems.length * w) := by
    rw [Nat.mul_comm]
    exact packBits_lt w elems
  rw [Nat.pow_add, ← Nat.div_div_eq_div_mul, Nat.add_mul_div_right _ _ (Nat.two_pow_pos _), Nat.div_eq_of_lt low, Nat.zero_add]
  exact elemAt_packBits 16 scales k

theorem planar_elem (w : Nat) (elems : List Nat) (y : Nat) {j : Nat} (lt : j < elems.length) :
    elemAt (packBits w elems + y * 2 ^ (elems.length * w)) w j = elems.getD j 0 % 2 ^ w := by
  rw [elemAt_add_mul_two_pow _ _ (by rw [Nat.mul_comm]; exact Nat.mul_le_mul_right _ lt), elemAt_packBits]

/-- All elements of v[a] quantised, the inactive ones as +0 (log 17). -/
def quantised (s : State) (o : VCvtOp) : List Nat × List Nat × Rounding :=
  quantAll (seBits o.t.toNat) (modeOf s o.r) (vCount (readV s o.a) / 16) ((List.range (vCount (readV s o.a))).map (maskBit s o.k))
    ((List.range (vCount (readV s o.a))).map fun j => if maskBit s o.k j then vValue (readV s o.a) j else XReal.zero) (Rounding.start s)

theorem length_quantised {s : State} {o : VCvtOp} (blocks : vCount (readV s o.a) % 16 = 0) :
    (quantised s o).1.length = vCount (readV s o.a) ∧ (quantised s o).2.1.length = vCount (readV s o.a) / 16 := by
  have whole : 16 * (vCount (readV s o.a) / 16) = vCount (readV s o.a) := Nat.mul_div_cancel' (Nat.dvd_of_mod_eq_zero blocks)
  obtain ⟨elems, scales⟩ := length_quantAll (seBits o.t.toNat) (modeOf s o.r) (vCount (readV s o.a) / 16)
    ((List.range (vCount (readV s o.a))).map (maskBit s o.k))
    ((List.range (vCount (readV s o.a))).map fun j => if maskBit s o.k j then vValue (readV s o.a) j else XReal.zero) (Rounding.start s)
    (by rw [whole]; simp) (by rw [whole]; simp)
  exact ⟨elems.trans whole, scales⟩

/-- What VQUANT sends. -/
def quantNew (s : State) (o : VCvtOp) : VNew :=
  { data := packBits (seBits o.t.toNat + 1) (quantised s o).1 + packBits 16 (quantised s o).2.1 * 2 ^ (vCount (readV s o.a) * (seBits o.t.toNat + 1))
    tag := o.t.toNat, rows := (readV s o.a).rows, cols := (readV s o.a).cols, poison := (readV s o.a).poison }

theorem sendsV_vquant {s : State} {o : VCvtOp} (free : slotBusy s.core.units (cyc s) .arith = false) (idle : VIdle s o.a)
    (mem : (readV s o.a).tag.toNat ∈ tagsF) (blocks : vCount (readV s o.a) % 16 = 0) (idleD : (readV s o.d).busy = 0) :
    SendsV (.vquant o) s o.d .arith 6 (max 1 (ceilDiv (vCount (readV s o.a)) 256)) (quantNew s o) (quantised s o).2.2 := by
  refine sendsV_of_finishV ?_
  show execVquant o s = _
  rw [execVquant, vReady_of_idle idle, vFree_of_idle idleD, slotFree_of_idle free]
  simp only [bind, Except.bind, vTagIn_of_mem mem, need_of blocks]
  simp only [activeOf, vVals_eq, vCount, zip_map_range, List.map_map]
  rfl

end Sys2Proof.Machine

namespace Sys2Proof.Proofs

open Sys2Proof.Machine

/-- Settles O36, word by word. -/
theorem conversionAndMoveResults : Obligations.ConversionAndMoveResults := by
  unfold Obligations.ConversionAndMoveResults
  intro s
  refine ⟨fun o free idle => ⟨fun _ mem dest => ?vcvt, fun _ mem blocks idleD => ?vquant⟩, fun o free idle mem _ dest => sendsLanes_vdeq free idle mem dest,
    fun o free idle dest => ⟨fun mem => sendsLike_vmov free idle dest mem, fun mem => ?vmov⟩, fun o free idle mem => sendsLanes_vldi free idle mem,
    fun o idle formed fits => colCompletes_of_next (exec_vshape_of idle formed fits) rfl⟩
  case vcvt =>
    simp only [← modeOf_eq]
    exact sendsLanes_vcvt free idle mem dest
  case vquant =>
    simp only [← modeOf_eq]
    obtain ⟨elems, scales⟩ := length_quantised (s := s) (o := o) blocks
    refine ⟨quantNew s o, sendsV_vquant free idle mem blocks idleD, rfl, rfl, rfl, rfl, elems, scales, fun j lt => ?_, fun k _ => ?_⟩
    · rw [quantNew, ← elems]
      exact planar_elem _ _ _ (by rw [elems]; exact lt)
    · have scale := planar_scale (seBits o.t.toNat + 1) (quantised s o).1 (quantised s o).2.1 k
      rw [elems] at scale
      exact scale
  case vmov =>
    have se : isSe (readV s o.a).tag.toNat = true := (isSe_iff _).mpr mem
    obtain ⟨elems, plane⟩ := movedSe_data (s := s) (o := o) se
    exact ⟨movedSe s o, sendsV_vmov_se free idle dest mem se, rfl, rfl, rfl, elems, plane⟩

end Sys2Proof.Proofs

namespace Sys2Proof.Machine

/-! ### What stops a vector word of two sources (R373, R374) -/

section
variable {s : State}

theorem vReady_of_failed {n : BitVec 5} {f : Failed} (failed : (readV s n).failed = some f) : vReady s n = .error (failedTrap f) := by
  simp only [vReady, failed]

theorem vReady_of_busy {n : BitVec 5} (whole : (readV s n).failed = none) (busy : (readV s n).busy ≠ 0) : vReady s n = .error lateTrap := by
  simp only [vReady, whole, if_pos busy]

theorem vFree_of_busy {n : BitVec 5} (busy : (readV s n).busy ≠ 0) : vFree s n = .error lateTrap := if_pos busy

theorem slotFree_of_busy {x : Slot} (busy : slotBusy s.core.units (cyc s) x = true) : slotFree s x = .error lateTrap := by rw [slotFree, busy]; rfl

theorem vTagIn_of_not_mem {n : BitVec 5} {r : VReg} {set : List Nat} (outside : r.tag.toNat ∉ set) :
    vTagIn n r set = .error (formatTrap fileV n.toNat set r.tag.toNat) :=
  if_neg fun inside => outside (List.contains_iff_mem.mp inside)

theorem vLike_of_other_tag {n : BitVec 5} {r like : VReg} (other : r.tag ≠ like.tag) :
    vLike n r like = .error (formatTrap fileV n.toNat [like.tag.toNat] r.tag.toNat) := by
  rw [vLike, vTagIn_of_not_mem fun same => other (BitVec.eq_of_toNat_eq (List.mem_singleton.mp same))]
  rfl

section
variable {o : V3} {set : List Nat}

theorem vPair_of_failed_first {f : Failed} (failed : (readV s o.a).failed = some f) : vPair s o set = .error (failedTrap f) := by
  rw [vPair, vReady_of_failed failed]; rfl

theorem vPair_of_busy_first (whole : (readV s o.a).failed = none) (busy : (readV s o.a).busy ≠ 0) : vPair s o set = .error lateTrap := by
  rw [vPair, vReady_of_busy whole busy]; rfl

variable (idleA : VIdle s o.a)
include idleA

theorem vPair_of_failed_second {f : Failed} (failed : (readV s o.b).failed = some f) : vPair s o set = .error (failedTrap f) := by
  rw [vPair, vReady_of_idle idleA, vReady_of_failed failed]; rfl

theorem vPair_of_busy_second (whole : (readV s o.b).failed = none) (busy : (readV s o.b).busy ≠ 0) : vPair s o set = .error lateTrap := by
  rw [vPair, vReady_of_idle idleA, vReady_of_busy whole busy]; rfl

variable (idleB : VIdle s o.b)
include idleB

theorem vPair_of_busy_destination_or_slot (busy : (readV s o.d).busy ≠ 0 ∨ cyc s < s.core.units.arith) : vPair s o set = .error lateTrap := by
  rw [vPair, vReady_of_idle idleA, vReady_of_idle idleB]
  by_cases waits : (readV s o.d).busy = 0
  · rw [vFree_of_idle waits, slotFree_of_busy (x := .arith) (decide_eq_true (busy.resolve_left (not_not_intro waits)))]; rfl
  · rw [vFree_of_busy waits]; rfl

variable (idleD : (readV s o.d).busy = 0) (free : s.core.units.arith ≤ cyc s)
include idleD free

theorem vPair_of_tag_outside (outside : (readV s o.a).tag.toNat ∉ set) : vPair s o set = .error (formatTrap fileV o.a.toNat set (readV s o.a).tag.toNat) := by
  rw [vPair, vReady_of_idle idleA, vReady_of_idle idleB, vFree_of_idle idleD, slotFree_of_idle (x := .arith) (decide_eq_false (Nat.not_lt.mpr free))]
  simp only [bind, Except.bind, vTagIn_of_not_mem outside]

theorem vPair_of_other_tag (inside : (readV s o.a).tag.toNat ∈ set) (other : (readV s o.b).tag ≠ (readV s o.a).tag) :
    vPair s o set = .error (formatTrap fileV o.b.toNat [(readV s o.a).tag.toNat] (readV s o.b).tag.toNat) := by
  rw [vPair, vReady_of_idle idleA, vReady_of_idle idleB, vFree_of_idle idleD, slotFree_of_idle (x := .arith) (decide_eq_false (Nat.not_lt.mpr free))]
  simp only [bind, Except.bind, vTagIn_of_mem inside, vLike_of_other_tag other]

end

/-- Each word of two floating sources takes the trap of its checks. -/
theorem colTraps_of_vPair {o : V3} {i : Instr} (word : i ∈ [Instr.vadd o, .vsub o, .vmul o, .vmin o, .vmax o, .vcpsgn o]) {t : Trap}
    (stops : vPair s o tagsF = .error t) : ColTraps i s .colC t := by
  have rounds (lat : Nat) (g : Bool → XReal → XReal → XReal × Bool) : vFloat2 lat o g s = .next (raiseCol .colC t s) := by rw [vFloat2, stops]; rfl
  have exact_ (g : Bool → XReal → XReal → XReal) : vExact2 o g s = .next (raiseCol .colC t s) := by rw [vExact2, stops]; rfl
  simp only [List.mem_cons, List.not_mem_nil, or_false] at word
  rcases word with rfl | rfl | rfl | rfl | rfl | rfl
  · exact (show exec (.vadd o) s = execVadd o s from rfl).trans (rounds ..)
  · exact (show exec (.vsub o) s = execVsub o s from rfl).trans (rounds ..)
  · exact (show exec (.vmul o) s = execVmul o s from rfl).trans (rounds ..)
  · exact (show exec (.vmin o) s = execVmin o s from rfl).trans (exact_ ..)
  · exact (show exec (.vmax o) s = execVmax o s from rfl).trans (exact_ ..)
  · exact (show exec (.vcpsgn o) s = execVcpsgn o s from rfl).trans (exact_ ..)

end

end Sys2Proof.Machine

namespace Sys2Proof.Proofs

open Sys2Proof.Machine

/-- Settles O37: the checks in their order, each with what it answers. -/
theorem vectorOperandTraps : Obligations.VectorOperandTraps := by
  unfold Obligations.VectorOperandTraps
  intro s o i word
  have traps {t : Trap} := colTraps_of_vPair (s := s) (t := t) word
  exact ⟨fun f failed => traps (vPair_of_failed_first failed), fun whole busy => traps (vPair_of_busy_first whole busy),
    fun idleA f failed => traps (vPair_of_failed_second idleA failed), fun idleA whole busy => traps (vPair_of_busy_second idleA whole busy),
    fun idleA idleB busy => traps (vPair_of_busy_destination_or_slot idleA idleB busy),
    fun idleA idleB idleD free => ⟨fun outside => traps (vPair_of_tag_outside idleA idleB idleD free outside),
      fun inside other => traps (vPair_of_other_tag idleA idleB idleD free inside other)⟩⟩

end Sys2Proof.Proofs

namespace Sys2Proof.Machine

/-! ### Address registers (15_isa_memory R422) -/

/-- The low bits of an integer modulo 2^n. -/
theorem extractLsb'_ofInt {n m : Nat} (le : m ≤ n) (x : Int) : (BitVec.ofInt n x).extractLsb' 0 m = BitVec.ofInt m x := by
  have divides : ((2 ^ m : Nat) : Int) ∣ ((2 ^ n : Nat) : Int) := Int.natCast_dvd_natCast.mpr (Nat.pow_dvd_pow 2 le)
  have positive : ((2 ^ n : Nat) : Int) ≠ 0 := Int.natCast_ne_zero.mpr (Nat.ne_of_gt (Nat.two_pow_pos n))
  refine BitVec.eq_of_toNat_eq ?_
  rw [BitVec.extractLsb'_toNat, Nat.shiftRight_zero, BitVec.toNat_ofInt, BitVec.toNat_ofInt]
  refine Int.ofNat.inj ?_
  show ((_ % 2 ^ m : Nat) : Int) = (((x % (2 ^ m : Nat)).toNat : Nat) : Int)
  rw [Int.natCast_mod, Int.toNat_of_nonneg (Int.emod_nonneg _ positive), Int.emod_emod_of_dvd _ divides,
    Int.toNat_of_nonneg (Int.emod_nonneg _ (Int.natCast_ne_zero.mpr (Nat.ne_of_gt (Nat.two_pow_pos m))))]

theorem zeroExtend_eq_ofInt {n : Nat} (x : BitVec n) (m : Nat) : x.zeroExtend m = BitVec.ofInt m x.toNat := by
  rw [BitVec.ofInt_natCast]
  exact (BitVec.ofNat_toNat ..).symm

/-- One part of an e register with the immediate added. -/
theorem add_ofInt (n : Nat) (x y : Int) : BitVec.ofInt n x + BitVec.ofInt n y = BitVec.ofInt n (x + y) := (BitVec.ofInt_add x y).symm

section
variable {o : EImm} (s : State)

theorem exec_eadd : exec (.eadd o) s = .next (colNext o.col (writeE o.e
    (eSet o.p.toNat (ePart o.p.toNat (readE s o.e) + (if o.p = 2 then o.i.zeroExtend 48 else eImm o)) (readE s o.e)) s)) := rfl

theorem exec_eset : exec (.eset o) s = .next (colNext o.col (writeE o.e (eSet o.p.toNat (if o.p = 2 then o.i.zeroExtend 48 else eImm o) (readE s o.e)) s)) := rfl

/-- A word that writes an e register, and is given what it writes there. -/
theorem colCompletes_of_writeE {i : Instr} {s : State} {c : Col} {n : BitVec 4} {x y : EReg} (runs : exec i s = .next (colNext c (writeE n x s))) (same : x = y) :
    ColCompletes i s c 0 (writeE n y) := by
  subst same
  exact colCompletes_of_next runs rfl

theorem eadd_addr (p : o.p = 0) : ColCompletes (.eadd o) s o.col 0
    (writeE o.e { readE s o.e with addr := BitVec.ofInt 48 ((readE s o.e).addr.toNat + o.i.toInt) }) := by
  refine colCompletes_of_writeE (exec_eadd s) ?_
  have same : (readE s o.e).addr.zeroExtend 48 = (readE s o.e).addr := BitVec.setWidth_eq _
  rw [p, if_neg (by decide), ← add_ofInt, ← zeroExtend_eq_ofInt, same]
  rfl

theorem eset_addr (p : o.p = 0) : ColCompletes (.eset o) s o.col 0 (writeE o.e { readE s o.e with addr := BitVec.ofInt 48 o.i.toInt }) := by
  refine colCompletes_of_writeE (exec_eset s) ?_
  rw [p, if_neg (by decide)]
  rfl

theorem eadd_stride (p : o.p = 1) : ColCompletes (.eadd o) s o.col 0
    (writeE o.e { readE s o.e with stride := BitVec.ofInt 32 ((readE s o.e).stride.toNat + o.i.toInt) }) := by
  refine colCompletes_of_writeE (exec_eadd s) ?_
  rw [p, if_neg (by decide), ← extractLsb'_ofInt (n := 48) (by decide), ← add_ofInt, ← zeroExtend_eq_ofInt]
  rfl

theorem eset_stride (p : o.p = 1) : ColCompletes (.eset o) s o.col 0 (writeE o.e { readE s o.e with stride := BitVec.ofInt 32 o.i.toInt }) := by
  refine colCompletes_of_writeE (exec_eset s) ?_
  rw [p, if_neg (by decide), ← extractLsb'_ofInt (n := 48) (by decide)]
  rfl

theorem eadd_tag (p : o.p = 2) : ColCompletes (.eadd o) s o.col 0
    (writeE o.e { readE s o.e with tag := BitVec.ofNat 16 ((readE s o.e).tag.toNat + o.i.toNat) }) := by
  refine colCompletes_of_writeE (exec_eadd s) ?_
  rw [p, if_pos rfl, ← BitVec.ofInt_natCast, Nat.cast_add, ← extractLsb'_ofInt (n := 48) (by decide), ← add_ofInt, ← zeroExtend_eq_ofInt, ← zeroExtend_eq_ofInt]
  rfl

theorem eset_tag (p : o.p = 2) : ColCompletes (.eset o) s o.col 0 (writeE o.e { readE s o.e with tag := BitVec.ofNat 16 o.i.toNat }) := by
  refine colCompletes_of_writeE (exec_eset s) ?_
  rw [p, if_pos rfl, ← BitVec.ofInt_natCast, ← extractLsb'_ofInt (n := 48) (by decide), ← zeroExtend_eq_ofInt]
  rfl

end

section
variable {o : EMovOp} (s : State)

theorem exec_emov : exec (.emov o) s = .next (colNext o.col (writeE o.e (eSet o.p.toNat (ePart o.p.toNat (readE s o.s)) (readE s o.e)) s)) := rfl

theorem emov_addr (p : o.p = 0) : ColCompletes (.emov o) s o.col 0 (writeE o.e { readE s o.e with addr := (readE s o.s).addr }) :=
  colCompletes_of_writeE (exec_emov s) (by rw [p]; rfl)

theorem extractLsb'_zeroExtend {n m : Nat} (le : n ≤ m) (x : BitVec n) : (x.zeroExtend m).extractLsb' 0 n = x := by
  rw [zeroExtend_eq_ofInt, extractLsb'_ofInt le, ← zeroExtend_eq_ofInt]
  exact BitVec.setWidth_eq x

theorem emov_stride (p : o.p = 1) : ColCompletes (.emov o) s o.col 0 (writeE o.e { readE s o.e with stride := (readE s o.s).stride }) := by
  refine colCompletes_of_writeE (exec_emov s) ?_
  rw [p]
  exact congrArg (fun x => { readE s o.e with stride := x }) (extractLsb'_zeroExtend (m := 48) (by decide) _)

theorem emov_tag (p : o.p = 2) : ColCompletes (.emov o) s o.col 0 (writeE o.e { readE s o.e with tag := (readE s o.s).tag }) := by
  refine colCompletes_of_writeE (exec_emov s) ?_
  rw [p]
  exact congrArg (fun x => { readE s o.e with tag := x }) (extractLsb'_zeroExtend (m := 48) (by decide) _)

end

/-! ### KVX (R430) -/

section
variable {s : State} {o : KvxOp}

theorem colWaits_kvx (empty : queueReadable (readQ s o.q) (cyc s) = []) : ColWaits (.kvx o) s .colL := by
  show execKvx o s = _
  simp only [execKvx, empty]
  rfl

theorem colTraps_kvx {x : QEntry} {rest : List QEntry} (ready : queueReadable (readQ s o.q) (cyc s) = x :: rest) (poisoned : x.poison = true) :
    ColTraps (.kvx o) s .colL (trapOf .poison) := by
  show execKvx o s = _
  simp only [execKvx, ready, poisoned]
  rfl

theorem colCompletes_kvx {x : QEntry} {rest : List QEntry} {va : Nat} (ready : queueReadable (readQ s o.q) (cyc s) = x :: rest) (clean : x.poison = false)
    (held : tlbHolds s.core s.core.sys.world (seqKey ((if x.token then 0 else x.payload.toNat) / 2 ^ 32 % 2 ^ 16)) = true)
    (found : kvAddr s ((if x.token then 0 else x.payload.toNat) / 2 ^ 32 % 2 ^ 16) ((if x.token then 0 else x.payload.toNat) % 2 ^ 32) = .ok va) :
    ColCompletes (.kvx o) s .colL 0
      (fun s' => post (cyc s + 8) 1 (.eAddr o.e (BitVec.ofNat 48 va)) (writeQ o.q (queuePop (readQ s o.q) (cyc s)) s')) := by
  refine colCompletes_of_next ?_ rfl
  show execKvx o s = _
  simp only [execKvx, ready, clean]
  simp only [bind, Except.bind, held, found, unpoisoned, need, Bool.not_false, if_true, chk, runMem]

end

end Sys2Proof.Machine

namespace Sys2Proof.Proofs

open Sys2Proof.Machine

/-- Settles O41, word by word and part by part. -/
theorem addressRegisterWords : Obligations.AddressRegisterWords := by
  unfold Obligations.AddressRegisterWords
  intro s
  exact ⟨fun o _ => ⟨fun p => ⟨eadd_addr s p, eset_addr s p⟩, fun p => ⟨eadd_stride s p, eset_stride s p⟩, fun p => ⟨eadd_tag s p, eset_tag s p⟩⟩,
    fun o _ => ⟨emov_addr s, emov_stride s, emov_tag s⟩,
    fun o => ⟨colWaits_kvx, fun x rest va ready clean held found => colCompletes_kvx ready clean held found, fun x rest => colTraps_kvx⟩⟩

end Sys2Proof.Proofs

namespace Sys2Proof.Machine

/-! ### Words of the accumulators that leave the rest of the core alone (14_isa_matrix R400, R404 to R406) -/

theorem OnlyMatrix.trans {s t u : State} (first : OnlyMatrix s t) (second : OnlyMatrix t u) : OnlyMatrix s u := by
  obtain ⟨g, b, e, v, t', m, flags, sp, sys, pc, mem⟩ := first
  obtain ⟨g', b', e', v', t'', m', flags', sp', sys', pc', mem'⟩ := second
  exact ⟨g'.trans g, b'.trans b, e'.trans e, v'.trans v, t''.trans t', m'.trans m, flags'.trans flags, sp'.trans sp, sys'.trans sys, pc'.trans pc,
    fun x => (mem' x).trans (mem x)⟩

/-- A core up to its accumulators, its units, its pending effects and traps, its pins and its C column. -/
def restOfCore (k : Core) : Core :=
  { k with a := Core.reset.a, units := Core.reset.units, fx := [], deferred := [], unpins := [], ah := Core.reset.ah, pinned := [], colC := Core.reset.colC }

theorem onlyMatrix_of_rest {s t : State} (rest : restOfCore t.core = restOfCore s.core) (mem : t.mem = s.mem) : OnlyMatrix s t :=
  have keeps {α : Type} (p : Core → α) (h : ∀ k, p (restOfCore k) = p k) : p t.core = p s.core := by rw [← h, rest, h]
  ⟨keeps Core.g fun _ => rfl, keeps Core.b fun _ => rfl, keeps Core.e fun _ => rfl, keeps Core.v fun _ => rfl, keeps Core.t fun _ => rfl,
    keeps Core.m fun _ => rfl, keeps Core.flags fun _ => rfl, keeps Core.sp fun _ => rfl, keeps Core.sys fun _ => rfl, keeps Core.pc fun _ => rfl,
    fun x => congrArg (cellGet · x) mem⟩

theorem onlyMatrix_postFlags (due : Cycle) (f : FpFlags) (source : Nat) (pc : Dword) (s : State) : OnlyMatrix s (postFlags due f source pc s) := by
  unfold postFlags
  split
  · exact onlyMatrix_of_rest rfl rfl
  · exact onlyMatrix_of_rest rfl rfl

theorem onlyMatrix_colNext (s : State) : OnlyMatrix s (colNext .colC s) := onlyMatrix_of_rest rfl rfl

/-! ### Cells of a list replaced -/

/-- What stands at one place when all the cells for it carry one value. -/
theorem getElem?_setCells {i v : Nat} : ∀ {cells : List (Nat × Nat × FpFlags)} (a : Array Nat), (∀ x ∈ cells, x.1 = i → x.2.1 = v) → i < a.size →
    (cells.foldl (fun (a : Array Nat) x => a.setIfInBounds x.1 x.2.1) a)[i]? = if ∃ x ∈ cells, x.1 = i then some v else a[i]?
  | [], a, _, _ => by simp
  | x :: xs, a, one, lt => by
    have rest := getElem?_setCells (a.setIfInBounds x.1 x.2.1) (fun y mem => one y (List.mem_cons_of_mem x mem)) (by simpa using lt)
    rw [List.foldl_cons, rest]
    by_cases later : ∃ y ∈ xs, y.1 = i
    · rw [if_pos later, if_pos (later.imp fun y h => ⟨List.mem_cons_of_mem x h.1, h.2⟩)]
    · rw [if_neg later]
      by_cases here : x.1 = i
      · rw [if_pos ⟨x, List.mem_cons_self, here⟩, here, one x List.mem_cons_self here, Array.getElem?_setIfInBounds_self_of_lt lt]
      · have nowhere : ¬ ∃ y ∈ x :: xs, y.1 = i := by
          rintro ⟨y, mem, at_⟩
          rcases List.mem_cons.mp mem with rfl | mem
          · exact here at_
          · exact later ⟨y, mem, at_⟩
        rw [if_neg nowhere, Array.getElem?_setIfInBounds_ne here]

theorem getD_setCells_of_mem {l : List Nat} {cells : List (Nat × Nat × FpFlags)} {i v : Nat} (lt : i < l.length) (one : ∀ x ∈ cells, x.1 = i → x.2.1 = v)
    (some : ∃ x ∈ cells, x.1 = i) : (setCells l cells).getD i 0 = v := by
  rw [List.getD_eq_getElem?_getD, setCells, Array.getElem?_toList, getElem?_setCells _ one (by simpa using lt), if_pos some]
  rfl

theorem getD_setCells_of_not_mem {l : List Nat} {cells : List (Nat × Nat × FpFlags)} {i : Nat} (lt : i < l.length) (none : ∀ x ∈ cells, x.1 ≠ i) :
    (setCells l cells).getD i 0 = l.getD i 0 := by
  have one : ∀ x ∈ cells, x.1 = i → x.2.1 = 0 := fun x mem at_ => absurd at_ (none x mem)
  rw [List.getD_eq_getElem?_getD, setCells, Array.getElem?_toList, getElem?_setCells _ one (by simpa using lt),
    if_neg fun ⟨x, mem, at_⟩ => none x mem at_, List.getD_eq_getElem?_getD, List.getElem?_toArray]

/-! ### The cells of an accumulator -/

theorem length_accCells (a : Acc) : (accCells a).length = 4096 := by rw [accCells, elemsOf, List.length_map, List.length_range]

theorem getD_accCells (a : Acc) {i : Nat} (lt : i < 4096) : (accCells a).getD i 0 = elemAt a.sums.toNat 32 i := getD_map_range _ 0 lt

/-- An element above all the bits of a number. -/
theorem elemAt_of_lt {x n w i : Nat} (lt : x < 2 ^ n) (above : n ≤ w * i) : elemAt x w i = 0 := by
  rw [elemAt, Nat.div_eq_of_lt (Nat.lt_of_lt_of_le lt (Nat.pow_le_pow_right (by decide) above)), Nat.zero_mod]

theorem getD_sideCells (a : Acc) (i : Nat) : (sideCells a).getD i 0 = elemAt a.side.toNat 32 i := by
  by_cases lt : i < 4096
  · exact getD_map_range _ 0 lt
  · have beyond : 131072 ≤ 32 * i := by omega
    have above : (sideCells a)[i]? = none := List.getElem?_eq_none (by rw [sideCells, elemsOf, List.length_map, List.length_range]; omega)
    rw [List.getD_eq_getElem?_getD, above, elemAt_of_lt a.side.isLt beyond]
    rfl

theorem elemAt_packCells (l : List Nat) {i : Nat} (lt : i < 4096) : elemAt (packCells l).toNat 32 i = l.getD i 0 % 2 ^ 32 := by
  rw [packCells, elemAt_ofNat _ (by omega), elemAt_packBits]

theorem elemAt_mod_self (x w i : Nat) : elemAt x w i % 2 ^ w = elemAt x w i := Nat.mod_mod ..

/-! ### The close of a side context (07_serving_structures R213) -/

section
variable {s : State} {n : BitVec 2}

theorem mem_sideGroups {ctx : SideCtx} {x : SideGroup} :
    x ∈ sideGroups s n ctx ↔ ∃ g ∈ usedGroups s n, (ctx.latched.toList.getD g none).bind (sideGroup s n ctx.layer.toNat ctx.proj.toNat g) = some x :=
  List.mem_filterMap

theorem g_of_sideGroup {layer proj g : Nat} {v : BitVec 32} {x : SideGroup} (is : sideGroup s n layer proj g v = some x) : x.g = g := by
  obtain ⟨a, -, found⟩ := Option.bind_eq_some_iff.mp is
  obtain ⟨r, -, rfl⟩ := Option.map_eq_some_iff.mp found
  rfl

/-- A group is one of the eight, and there is one side group of each. -/
theorem sideGroups_of_g {ctx : SideCtx} {x : SideGroup} (mem : x ∈ sideGroups s n ctx) :
    x.g < 8 ∧ (ctx.latched.toList.getD x.g none).bind (sideGroup s n ctx.layer.toNat ctx.proj.toNat x.g) = some x := by
  obtain ⟨g, used, is⟩ := mem_sideGroups.mp mem
  obtain ⟨v, -, made⟩ := Option.bind_eq_some_iff.mp is
  obtain rfl := g_of_sideGroup made
  exact ⟨List.mem_range.mp (List.mem_filter.mp used).1, is⟩

theorem sideGroups_unique {ctx : SideCtx} {x y : SideGroup} (hx : x ∈ sideGroups s n ctx) (hy : y ∈ sideGroups s n ctx) (same : x.g = y.g) : x = y := by
  have is := (sideGroups_of_g hx).2
  rw [same, (sideGroups_of_g hy).2] at is
  exact (Option.some.inj is).symm

/-- A cell of a group after the close: correction, scale and add, each rounded once. -/
def closeCell (s : State) (a : Acc) (x : SideGroup) (r k : Nat) : Nat :=
  let corr := (roundSum tagFp32 ((List.range x.rank).map fun i =>
    xmulNv (fp32 (elemAt a.side.toNat 32 (64 * (8 * x.g + r) + i))) (facB s x i (64 * a.ctx.blk.toNat + k)))).1
  let scaled := (roundSum tagFp32 [xmulNv (fp32 x.ver.alpha.toNat) (fp32 corr)]).1
  (roundSum tagFp32 [(fp32 (cellBits a (8 * x.g + r) k), false), (fp32 scaled, false)]).1

theorem mem_closeCells {a : Acc} {x : SideGroup} (lt : x.g < 8) {y : Nat × Nat × FpFlags}
    (mem : y ∈ closeCells s x a.ctx.blk.toNat (sideCells a) (accCells a)) :
    ∃ r k, r < 8 ∧ k < 64 ∧ y.1 = 64 * (8 * x.g + r) + k ∧ y.2.1 = closeCell s a x r k := by
  obtain ⟨r, hr, inner⟩ := List.mem_flatMap.mp mem
  obtain ⟨k, hk, rfl⟩ := List.mem_map.mp inner
  rw [List.mem_range] at hr hk
  refine ⟨r, k, hr, hk, congrArg (· + k) (Nat.mul_comm ..), ?_⟩
  have old : (accCells a).getD (64 * (8 * x.g + r) + k) 0 = cellBits a (8 * x.g + r) k := getD_accCells a (by omega)
  simp only [closeCell, sideIndex, getD_sideCells, Nat.mul_comm _ 64, old]

theorem exists_mem_closeCells (a : Acc) (x : SideGroup) {r k : Nat} (hr : r < 8) (hk : k < 64) :
    ∃ y ∈ closeCells s x a.ctx.blk.toNat (sideCells a) (accCells a), y.1 = 64 * (8 * x.g + r) + k :=
  ⟨_, List.mem_flatMap.mpr ⟨r, List.mem_range.mpr hr, List.mem_map.mpr ⟨k, List.mem_range.mpr hk, rfl⟩⟩, congrArg (· + k) (Nat.mul_comm ..)⟩

/-- The corrected cells of the groups with a version. -/
theorem cellBits_closeResult_of_mem {x : SideGroup} (mem : x ∈ sideGroups s n (readA s n).ctx) {r k : Nat} (hr : r < 8) (hk : k < 64) :
    cellBits (closeResult s n).1 (8 * x.g + r) k = closeCell s (readA s n) x r k % 2 ^ 32 := by
  have lt := (sideGroups_of_g mem).1
  have inside : 64 * (8 * x.g + r) + k < 4096 := by omega
  show elemAt (packCells (setCells _ _)).toNat 32 (64 * (8 * x.g + r) + k) = _
  rw [elemAt_packCells _ inside]
  congr 1
  refine getD_setCells_of_mem (by rwa [length_accCells]) (fun y hy at_ => ?_) ?_
  · obtain ⟨x', mem', cell⟩ := List.mem_flatMap.mp hy
    obtain ⟨r', k', hr', hk', place, value⟩ := mem_closeCells (sideGroups_of_g mem').1 cell
    obtain rfl := sideGroups_unique mem mem' (by omega)
    obtain ⟨rfl, rfl⟩ : r = r' ∧ k = k' := by omega
    exact value
  · obtain ⟨y, cell, at_⟩ := exists_mem_closeCells (readA s n) x hr hk
    exact ⟨y, List.mem_flatMap.mpr ⟨x, mem, cell⟩, at_⟩

/-- The rows of the other groups. -/
theorem cellBits_closeResult_of_not_mem {r k : Nat} (hr : r < 64) (hk : k < 64) (other : ∀ x ∈ sideGroups s n (readA s n).ctx, x.g ≠ r / 8) :
    cellBits (closeResult s n).1 r k = cellBits (readA s n) r k := by
  have inside : 64 * r + k < 4096 := by omega
  show elemAt (packCells (setCells _ _)).toNat 32 (64 * r + k) = _
  rw [elemAt_packCells _ inside, getD_setCells_of_not_mem (by rwa [length_accCells]) ?_, getD_accCells _ inside, elemAt_mod_self, cellBits]
  intro y hy at_
  obtain ⟨x, mem, cell⟩ := List.mem_flatMap.mp hy
  obtain ⟨r', k', hr', hk', place, -⟩ := mem_closeCells (sideGroups_of_g mem).1 cell
  exact other x mem (by omega)

theorem closeCycles_eq (groups : List SideGroup) : closeCycles groups = ceilDiv ((groups.map fun g => 512 * g.rank).sum) 1024 := by
  rw [closeCycles, List.sum_eq_foldl]

end

/-! ### MCLOSE where it may not close -/

section
variable {s : State} {o : AccOp} (idle : AIdle s o.n) (isOpen : (readA s o.n).ctx.isOpen = true)
include idle isOpen

theorem exec_mclose_of_int32 (tag : (readA s o.n).tag.toNat = tagInt32) :
    exec (.mclose o) s = runCol .colC s (need ((readA s o.n).ctx.latched.toList.all (·.isNone)) (accTrap o.n [tagFp32] (readA s o.n)) >>= fun _ =>
      .ok (colNext .colC (accWrite o.n (cyc s + 1) { readA s o.n with ctx := { (readA s o.n).ctx with isOpen := false } } s))) := by
  show execMclose o s = _
  simp only [execMclose, accFree_of_idle idle]
  show runCol .colC s (if (!(readA s o.n).ctx.isOpen) = true then _ else if (readA s o.n).tag.toNat = tagInt32 then _ else _) = _
  rw [isOpen, if_neg (by decide), if_pos tag]

theorem mclose_traps_late (tag : (readA s o.n).tag.toNat ≠ tagInt32) (taken : cyc s < s.core.units.array) :
    ColTraps (.mclose o) s .colC (trapOf .late) := by
  have busy : arrayFree s = .error lateTrap := if_neg (by simpa using taken)
  show execMclose o s = _
  simp only [execMclose, accFree_of_idle idle]
  show runCol .colC s (if (!(readA s o.n).ctx.isOpen) = true then _ else if (readA s o.n).tag.toNat = tagInt32 then _ else _) = _
  rw [isOpen, if_neg (by decide), if_neg tag, busy]
  rfl

end

end Sys2Proof.Machine

namespace Sys2Proof.Machine

/-! ### The transfers of an accumulator, in every tag that they take (14_isa_matrix R404 to R406) -/

theorem elemAt_div_two_pow (x w k i : Nat) : elemAt (x / 2 ^ (w * k)) w i = elemAt x w (k + i) := by
  rw [elemAt, elemAt, Nat.div_div_eq_div_mul, ← Nat.pow_add, ← Nat.mul_add]

/-- The high elements of two numbers side by side. -/
theorem elemAt_add_mul_two_pow_high {x w k : Nat} (y i : Nat) (low : x < 2 ^ (w * k)) : elemAt (x + y * 2 ^ (w * k)) w (k + i) = elemAt y w i := by
  rw [← elemAt_div_two_pow, Nat.add_mul_div_right _ _ (Nat.two_pow_pos _), Nat.div_eq_of_lt low, Nat.zero_add]

section
variable {s : State}

theorem exec_mv2acc_of_tag {o : AccV} (idle : AIdle s o.n) (port : s.core.units.accPort ≤ cyc s) (lt : o.v.toNat < 31) (low : VIdle s o.v)
    (high : VIdle s (o.v + 1)) (tag : (readV s o.v).tag.toNat ∈ [tagFp32, tagInt32]) (same : (readV s (o.v + 1)).tag = (readV s o.v).tag)
    (count : vCount (readV s o.v) = 2048) (count' : vCount (readV s (o.v + 1)) = 2048) :
    exec (.mv2acc o) s = .next (colNext .colC (takePort 8 (accWrite o.n (cyc s + 12) (filled (readA s o.n) (readV s o.v) (readV s (o.v + 1))) s))) := by
  have lowOk : wholeReg o.v (readV s o.v) [tagFp32, tagInt32] = .ok () := wholeReg_of tag count
  have highOk : wholeReg (o.v + 1) (readV s (o.v + 1)) [(readV s o.v).tag.toNat] = .ok () :=
    wholeReg_of (List.mem_singleton.mpr (congrArg BitVec.toNat same)) count'
  show execMv2acc o s = _
  simp only [execMv2acc, pairOk_of_lt lt, accFree_of_idle idle, vReady_of_idle low, vReady_of_idle high, portFree_of_le port]
  show runCol .colC s (wholeReg o.v (readV s o.v) _ >>= fun _ => wholeReg (o.v + 1) (readV s (o.v + 1)) _ >>= fun _ => _) = _
  rw [lowOk, highOk]
  rfl

theorem exec_mstset_of_tag {o : AccV} (idle : AIdle s o.n) (port : s.core.units.accPort ≤ cyc s) (source : VIdle s o.v)
    (tag : (readV s o.v).tag.toNat ∈ [tagRaw, tagInt32]) (count : vCount (readV s o.v) = 128) :
    exec (.mstset o) s = .next (colNext .colC (takePort 1 (accWrite o.n (cyc s + 4) (withRowState (readA s o.n) (readV s o.v)) s))) := by
  show execMstset o s = _
  simp only [execMstset, accFree_of_idle idle, vReady_of_idle source, portFree_of_le port]
  show runCol .colC s (vTagIn o.v (readV s o.v) [tagRaw, tagInt32] >>= fun _ => need (vCount (readV s o.v) = 128) _ >>= fun _ => _) = _
  rw [vTagIn_of_mem tag, need_of count]
  rfl

theorem exec_madh_of_tag {o : MadhOp} (source : VIdle s o.v) (idle : AIdle s o.n) (shut : (readA s o.n).ctx.isOpen = false)
    (tag : (readV s o.v).tag.toNat ∈ [tagRaw, tagInt32, tagIndex32]) (count : 16 ≤ vCount (readV s o.v)) (clean : (readV s o.v).poison = false) :
    exec (.madh o) s = .next (colNext .colC (accWrite o.n (cyc s + 1) { readA s o.n with ctx := madhCtx o s } (madhPinned o s))) := by
  have shutOk : need (!(readA s o.n).ctx.isOpen) (trapOf .illegal) = .ok () := if_pos (by rw [shut]; rfl)
  have cleanOk : unpoisoned (readV s o.v).poison = .ok () := if_pos (by rw [clean]; rfl)
  show execMadh o s = _
  simp only [execMadh, vReady_of_idle source, accFree_of_idle idle]
  show runCol .colC s (need (!(readA s o.n).ctx.isOpen) (trapOf .illegal) >>= fun _ => vTagIn o.v (readV s o.v) [tagRaw, tagInt32, tagIndex32] >>= fun _ =>
    need (16 ≤ vCount (readV s o.v)) _ >>= fun _ => unpoisoned (readV s o.v).poison >>= fun _ => _) = _
  rw [shutOk, vTagIn_of_mem tag, need_of count, cleanOk]
  rfl

theorem madh_traps_open {o : MadhOp} (source : VIdle s o.v) (idle : AIdle s o.n) (isOpen : (readA s o.n).ctx.isOpen = true) :
    ColTraps (.madh o) s .colC (trapOf .illegal) := by
  have openOk : need (!(readA s o.n).ctx.isOpen) (trapOf .illegal) = .error (trapOf .illegal) := if_neg (by rw [isOpen]; decide)
  show execMadh o s = _
  simp only [execMadh, vReady_of_idle source, accFree_of_idle idle]
  show runCol .colC s (need (!(readA s o.n).ctx.isOpen) (trapOf .illegal) >>= fun _ => _) = _
  rw [openOk]
  rfl

/-- A pair of v registers that begins at the last one is out of range. -/
theorem pairOk_of_eq {v : BitVec 5} (eq : v.toNat = 31) : pairOk v 2 = .error (trapOf .illegal) := if_neg (by simp [eq])

theorem macc2v_traps_range {o : AccV} (eq : o.v.toNat = 31) : ColTraps (.macc2v o) s .colC (trapOf .illegal) := by
  show execMacc2v o s = _
  simp only [execMacc2v, pairOk_of_eq eq]
  rfl

theorem mv2acc_traps_range {o : AccV} (eq : o.v.toNat = 31) : ColTraps (.mv2acc o) s .colC (trapOf .illegal) := by
  show execMv2acc o s = _
  simp only [execMv2acc, pairOk_of_eq eq]
  rfl

/-! ### What they leave alone -/

theorem onlyMatrix_accWrite (n : BitVec 2) (due : Cycle) (a : Acc) (s : State) : OnlyMatrix s (accWrite n due a s) := onlyMatrix_of_rest rfl rfl

theorem onlyMatrix_takeArray (b : Cycle) (s : State) : OnlyMatrix s (modCore (takeArray b) s) := onlyMatrix_of_rest rfl rfl

theorem onlyMatrix_releaseLatches (c : Cycle) (n : Nat) (s : State) : OnlyMatrix s (modCore (releaseLatches c n) s) := onlyMatrix_of_rest rfl rfl

theorem onlyMatrix_closed (s : State) (n : BitVec 2) : OnlyMatrix s (closed s n) := by
  unfold closed
  exact (onlyMatrix_releaseLatches ..).trans ((onlyMatrix_accWrite ..).trans (onlyMatrix_takeArray ..))

theorem onlyMatrix_transfer (m : Nat) (n : BitVec 2) (due : Cycle) (a : Acc) (s : State) : OnlyMatrix s (colNext .colC (takePort m (accWrite n due a s))) :=
  onlyMatrix_of_rest rfl rfl

theorem restOfCore_withoutPins (k : Core) : restOfCore (withoutPins k) = restOfCore k := rfl

theorem onlyMatrix_pinGroups (n : Nat) (s : State) : OnlyMatrix s (pinGroups n s) :=
  onlyMatrix_of_rest (by rw [← restOfCore_withoutPins, withoutPins_pinGroups, restOfCore_withoutPins])
    (foldl_keeps (p := State.mem) (fun t g => mem_pinGroup n g t) _ s)

theorem onlyMatrix_setAh (f : Core → Vector AhReg 4) (s : State) : OnlyMatrix s (modCore (fun k => { k with ah := f k }) s) := onlyMatrix_of_rest rfl rfl

theorem onlyMatrix_post (due : Cycle) (order : Nat) (e : Effect) (s : State) : OnlyMatrix s (post due order e s) := onlyMatrix_of_rest rfl rfl

theorem onlyMatrix_madhPinned (o : MadhOp) (s : State) : OnlyMatrix s (madhPinned o s) := by
  unfold madhPinned
  split
  · exact (onlyMatrix_setAh _ s).trans ((onlyMatrix_pinGroups ..).trans ((onlyMatrix_setAh _ _).trans (onlyMatrix_post ..)))
  · exact onlyMatrix_of_rest rfl rfl

theorem onlyMatrix_madh (o : MadhOp) (due : Cycle) (a : Acc) (s : State) : OnlyMatrix s (colNext .colC (accWrite o.n due a (madhPinned o s))) :=
  (onlyMatrix_madhPinned o s).trans (onlyMatrix_of_rest rfl rfl)

/-- The handles that MADH with H = 1 sends. -/
theorem mem_fx_madhPinned {o : MadhOp} (h : o.h = 1) : { due := cyc s + 1, order := 2, eff := .handles o.n (madhHandles o s) } ∈ (madhPinned o s).core.fx := by
  rw [madhPinned, if_pos h]
  exact List.mem_append_right _ (List.mem_singleton_self _)

theorem toNat_madhHandles (o : MadhOp) (s : State) (g : Fin 8) : (madhHandles o s)[g].toNat = elemAt (readV s o.v).data.toNat 32 g.val % 2 ^ 24 := by
  rw [madhHandles, Fin.getElem_fin, Vector.getElem_ofFn, BitVec.toNat_ofNat, Nat.mod_eq_of_lt]
  exact (Nat.mod_lt _ (by decide)).trans (by decide)

/-! ### The words, as the family states them -/

/-- The accumulator port held, in the cycle of the word. -/
theorem takePort_eq (n : Nat) {s t : State} (clock : cyc t = cyc s) :
    takePort n t = modCore (fun k => { k with units := { k.units with accPort := cyc s + n } }) t := by
  rw [takePort, clock]

theorem mzero_zeroes {o : AccOp} (idle : AIdle s o.n) :
    ColCompletes (.mzero o) s .colC 0 (fun t => writeAcc o.n { zeroed s o.n with writeDone := cyc s + 2 } (modCore (releaseLatches (cyc s + 1) o.n.toNat) t)) :=
  colCompletes_of_next (exec_mzero_of_idle idle) rfl

/-- The row state of a zeroed accumulator: every maximum at minus infinity. -/
theorem elemAt_zeroed_m (s : State) (n : BitVec 2) {r : Nat} (lt : r < 64) : elemAt (zeroed s n).m.toNat 32 r = 0x80000000 := by
  have row : ∀ r : Fin 64, elemAt Acc.noScore.toNat 32 r.val = 0x80000000 := by decide +kernel
  exact row ⟨r, lt⟩

theorem mclose_traps_latched {o : AccOp} (idle : AIdle s o.n) (isOpen : (readA s o.n).ctx.isOpen = true) (tag : (readA s o.n).tag.toNat = tagInt32)
    (latched : ∃ v ∈ (readA s o.n).ctx.latched.toList, v ≠ none) :
    ColTraps (.mclose o) s .colC (formatTrap fileA o.n.toNat [tagFp32] (readA s o.n).tag.toNat) := by
  obtain ⟨v, mem, some⟩ := latched
  have held : (readA s o.n).ctx.latched.toList.all (·.isNone) = false :=
    Bool.eq_false_iff.mpr fun all => some (Option.isNone_iff_eq_none.mp (List.all_eq_true.mp all v mem))
  rw [ColTraps, exec_mclose_of_int32 idle isOpen tag, held]
  rfl

theorem mclose_closes_int32 {o : AccOp} (idle : AIdle s o.n) (isOpen : (readA s o.n).ctx.isOpen = true) (tag : (readA s o.n).tag.toNat = tagInt32)
    (clear : ∀ v ∈ (readA s o.n).ctx.latched.toList, v = none) :
    ColCompletes (.mclose o) s .colC 0
      (writeAcc o.n { readA s o.n with ctx := { (readA s o.n).ctx with isOpen := false }, writeDone := cyc s + 2 }) := by
  have none : (readA s o.n).ctx.latched.toList.all (·.isNone) = true :=
    List.all_eq_true.mpr fun v mem => Option.isNone_iff_eq_none.mpr (clear v mem)
  refine colCompletes_of_next (f := writeAcc o.n _) ((exec_mclose_of_int32 idle isOpen tag).trans ?_) rfl
  rw [none]
  rfl

/-- The sums of an accumulator in two v registers. -/
theorem macc2v_sends {o : AccV} (idle : AIdle s o.n) (port : s.core.units.accPort ≤ cyc s) (lt : o.v.toNat < 31) (low : (readV s o.v).busy = 0)
    (high : (readV s (o.v + 1)).busy = 0) :
    ColCompletes (.macc2v o) s .colC 0 (fun t => modCore (fun k => { k with units := { k.units with accPort := cyc s + 8 } })
      (sendV (cyc s + 12) (o.v + 1) ((readA s o.n).sums.toNat / 2 ^ 65536) (readA s o.n).tag.toNat 32 64 (readA s o.n).poison
        (sendV (cyc s + 12) o.v ((readA s o.n).sums.toNat % 2 ^ 65536) (readA s o.n).tag.toNat 32 64 (readA s o.n).poison t))) := by
  have clock (d : BitVec 5) (x y tag rows cols : Nat) (p : Bool) (e : BitVec 5) : cyc (sendV (cyc s + 12) d x tag rows cols p
      (sendV (cyc s + 12) e y tag rows cols p s)) = cyc s := by rw [cyc_sendV, cyc_sendV]
  refine colCompletes_of_next ?_ (by rw [cyc_modCore, clock])
  rw [exec_macc2v_of_idle idle port lt low high, takePort_eq 8 (clock ..)]

theorem mstget_sends {o : AccV} (idle : AIdle s o.n) (port : s.core.units.accPort ≤ cyc s) (free : (readV s o.v).busy = 0) :
    ColCompletes (.mstget o) s .colC 0 (fun t => modCore (fun k => { k with units := { k.units with accPort := cyc s + 1 } })
      (sendV (cyc s + 4) o.v ((readA s o.n).m.toNat + (readA s o.n).l.toNat * 2 ^ 2048) tagRaw 2 64 (readA s o.n).poison t)) := by
  refine colCompletes_of_next ?_ (by rw [cyc_modCore, cyc_sendV])
  rw [exec_mstget_of_idle idle port free, takePort_eq 1 (cyc_sendV ..)]

theorem readA_closed (s : State) (n : BitVec 2) : readA (closed s n) n = { (closeResult s n).1 with writeDone := closeEnd s n + 9 } := by
  show readA (accWrite n (closeEnd s n + 8) (closeResult s n).1 (modCore (releaseLatches (closeEnd s n + 8) n.toNat) s)) n = _
  rw [readA_accWrite]

theorem units_colNext (s : State) : (colNext .colC s).core.units = s.core.units := rfl

theorem array_postFlags (due : Cycle) (f : FpFlags) (source : Nat) (pc : Dword) (s : State) :
    (postFlags due f source pc s).core.units.array = s.core.units.array := by
  unfold postFlags
  split
  · rfl
  · rfl

/-- MCLOSE of an open context: what it leaves of the accumulator, and of the array. -/
theorem mclose_leaves {o : AccOp} (idle : AIdle s o.n) (isOpen : (readA s o.n).ctx.isOpen = true) (tag : (readA s o.n).tag.toNat ≠ tagInt32)
    (free : s.core.units.array ≤ cyc s) :
    ∃ t, exec (.mclose o) s = .next t ∧ readA t o.n = { (closeResult s o.n).1 with writeDone := closeEnd s o.n + 9 } ∧ t.core.units.array = closeEnd s o.n
      ∧ OnlyMatrix s t := by
  refine ⟨_, exec_mclose_of_open idle isOpen tag free, ?_, ?_,
    (onlyMatrix_closed s o.n).trans ((onlyMatrix_postFlags ..).trans (onlyMatrix_colNext _))⟩
  · rw [readA_colNext, readA_postFlags, readA_closed]
  · rw [units_colNext, array_postFlags]
    rfl

theorem cellBits_congr {a b : Acc} (same : a.sums = b.sums) (r c : Nat) : cellBits a r c = cellBits b r c := by rw [cellBits, cellBits, same]

/-- A transfer into an accumulator: what it leaves of the accumulator, and of its port. -/
theorem transfer_leaves {i : Instr} {m : Nat} {n : BitVec 2} {due : Cycle} {a : Acc} (runs : exec i s = .next (colNext .colC (takePort m (accWrite n due a s)))) :
    ∃ t, exec i s = .next t ∧ readA t n = { a with writeDone := due + 1 } ∧ (∀ r c, cellBits (readA t n) r c = cellBits a r c)
      ∧ t.core.units.accPort = cyc s + m ∧ OnlyMatrix s t :=
  ⟨_, runs, readA_accWrite .., cellBits_congr (by rw [readA_colNext, readA_takePort, readA_accWrite]), rfl, onlyMatrix_transfer ..⟩

theorem madh_leaves {o : MadhOp} (source : VIdle s o.v) (idle : AIdle s o.n) (shut : (readA s o.n).ctx.isOpen = false)
    (tag : (readV s o.v).tag.toNat ∈ [tagRaw, tagInt32, tagIndex32]) (count : 16 ≤ vCount (readV s o.v)) (clean : (readV s o.v).poison = false) :
    ∃ t, exec (.madh o) s = .next t ∧ readA t o.n = { readA s o.n with ctx := madhCtx o s, writeDone := cyc s + 2 } ∧ OnlyMatrix s t
      ∧ (o.h = 1 → { due := cyc s + 1, order := 2, eff := .handles o.n (madhHandles o s) } ∈ t.core.fx) :=
  ⟨_, exec_madh_of_tag source idle shut tag count clean, by rw [readA_colNext, readA_accWrite], onlyMatrix_madh .., fun h => mem_fx_madhPinned h⟩

/-- The side context that MADH with C = 1 writes. -/
theorem madhCtx_of_one {o : MadhOp} (c : o.c = 1) :
    (madhCtx o s).layer.toNat = elemAt (readV s o.v).data.toNat 32 8 % 2 ^ 12 ∧ (madhCtx o s).proj.toNat = elemAt (readV s o.v).data.toNat 32 9 % 2 ^ 4
      ∧ (madhCtx o s).blk.toNat = elemAt (readV s o.v).data.toNat 32 10 % 2 ^ 16 := by
  rw [madhCtx, if_pos c]
  exact ⟨BitVec.toNat_ofNat .., BitVec.toNat_ofNat .., BitVec.toNat_ofNat ..⟩

theorem madhCtx_of_zero {o : MadhOp} (c : o.c = 0) : madhCtx o s = (readA s o.n).ctx := if_neg (by rw [c]; decide)

theorem filled_keeps (a : Acc) (x y : VReg) :
    (filled a x y).m = a.m ∧ (filled a x y).l = a.l ∧ (filled a x y).ctx = a.ctx ∧ (filled a x y).window = a.window
      ∧ (filled a x y).tag = x.tag ∧ (filled a x y).poison = (x.poison || y.poison) := by
  unfold filled
  generalize BitVec.ofNat 131072 _ = sums
  exact ⟨rfl, rfl, rfl, rfl, rfl, rfl⟩

/-- The cells of an accumulator's halves. -/
theorem elemAt_low_sums (a : Acc) {i : Nat} (lt : i < 2048) : elemAt (a.sums.toNat % 2 ^ 65536) 32 i = cellBits a (i / 64) (i % 64) := by
  rw [elemAt_mod_two_pow _ (by omega), cellBits, Nat.div_add_mod]

theorem elemAt_high_sums (a : Acc) (i : Nat) : elemAt (a.sums.toNat / 2 ^ 65536) 32 i = cellBits a (32 + i / 64) (i % 64) := by
  rw [cellBits, show 64 * (32 + i / 64) + i % 64 = 2048 + i by omega]
  exact elemAt_div_two_pow a.sums.toNat 32 2048 i

theorem cellBits_filled_low (a : Acc) (x y : VReg) {i : Nat} (lt : i < 2048) : cellBits (filled a x y) (i / 64) (i % 64) = elemAt x.data.toNat 32 i := by
  rw [cellBits, Nat.div_add_mod, filled, elemAt_ofNat _ (by omega), elemAt_add_mul_two_pow _ _ (by omega)]

theorem cellBits_filled_high (a : Acc) (x y : VReg) {i : Nat} (lt : i < 2048) :
    cellBits (filled a x y) (32 + i / 64) (i % 64) = elemAt y.data.toNat 32 i := by
  rw [cellBits, show 64 * (32 + i / 64) + i % 64 = 2048 + i by omega, filled, elemAt_ofNat _ (by omega)]
  exact elemAt_add_mul_two_pow_high (w := 32) (k := 2048) _ _ x.data.isLt

theorem elemAt_rowState (a : Acc) {r : Nat} (lt : r < 64) :
    elemAt (a.m.toNat + a.l.toNat * 2 ^ 2048) 32 r = elemAt a.m.toNat 32 r ∧ elemAt (a.m.toNat + a.l.toNat * 2 ^ 2048) 32 (64 + r) = elemAt a.l.toNat 32 r :=
  ⟨elemAt_add_mul_two_pow _ _ (by omega), elemAt_add_mul_two_pow_high (w := 32) (k := 64) _ _ a.m.isLt⟩

theorem elemAt_withRowState (a : Acc) (x : VReg) {r : Nat} (lt : r < 64) :
    elemAt (withRowState a x).m.toNat 32 r = elemAt x.data.toNat 32 r ∧ elemAt (withRowState a x).l.toNat 32 r = elemAt x.data.toNat 32 (64 + r) :=
  ⟨elemAt_ofNat _ (by omega), (elemAt_ofNat _ (by omega)).trans (elemAt_div_two_pow _ 32 64 r)⟩

end

end Sys2Proof.Machine

namespace Sys2Proof.Proofs

open Sys2Proof.Machine

/-- Settles O39, word by word: each meets its checks, and the accumulator that it leaves is read. The close of an open context is the correction of R213
in the cells of the groups with a version, whose places in the accumulator are disjoint. -/
theorem accumulatorWords : Obligations.AccumulatorWords := by
  unfold Obligations.AccumulatorWords
  intro s
  refine ⟨fun o idle => ⟨?mzero, ?shut, ?latched, ?int32, ?late, ?close⟩, fun o => ?mwake, fun o => ⟨?mopen, ?mshut⟩,
    fun o idle port => ⟨?range, ?macc2v, ?mv2acc, ?mstget, ?mstset⟩, fun o _ source idle => ⟨?opened, ?madh⟩⟩
  case mzero => exact ⟨_, mzero_zeroes idle, rfl, rfl, rfl, fun r lt => elemAt_zeroed_m s o.n lt, rfl, rfl, rfl, rfl, rfl, rfl, rfl⟩
  case shut => exact fun shut => colCompletes_of_next (exec_mclose_of_shut idle shut) rfl
  case latched => exact mclose_traps_latched idle
  case int32 => exact mclose_closes_int32 idle
  case late => exact fun isOpen tag taken => mclose_traps_late idle isOpen tag taken
  case close =>
    intro isOpen tag free
    obtain ⟨t, runs, left, array, only⟩ := mclose_leaves idle isOpen tag free
    have done : closeEnd s o.n = cyc s + wakeDelay s + ceilDiv (((sideGroups s o.n (readA s o.n).ctx).map fun g => 512 * g.rank).sum) 1024 := by
      rw [closeEnd, closeCycles_eq]
    rw [done] at array left
    refine ⟨t, runs, ?_, ?_, array, fun x mem r k hr hk => ?_, fun r k hr hk other => ?_, ?_, ?_, ?_, only⟩
    · rw [left]
      rfl
    · rw [left]
    · rw [left]
      exact cellBits_closeResult_of_mem mem hr hk
    · rw [left]
      exact cellBits_closeResult_of_not_mem hr hk other
    · rw [left]
      rfl
    · rw [left]
      rfl
    · rw [left]
      rfl
  case mwake =>
    refine ⟨_, colCompletes_of_next rfl rfl, fun awake gated => ?_, fun awake ungated => ?_, fun asleep => ?_⟩
    · rw [if_neg (Nat.not_lt.mpr awake), if_pos gated]
      exact ⟨rfl, rfl⟩
    · rw [if_neg (Nat.not_lt.mpr awake), if_neg (Bool.eq_false_iff.mp ungated)]
      exact ⟨ungated, rfl, rfl⟩
    · rw [if_pos asleep]
  case mopen => exact colCompletes_of_next rfl rfl
  case mshut => exact colCompletes_of_next rfl rfl
  case range => exact fun eq => ⟨macc2v_traps_range eq, mv2acc_traps_range eq⟩
  case macc2v =>
    exact fun lt low high => ⟨_, _, fun i inside => ⟨elemAt_low_sums _ inside, elemAt_high_sums _ i⟩, macc2v_sends idle port lt low high⟩
  case mv2acc =>
    intro lt low high tag same count count'
    obtain ⟨t, runs, left, cells, port, only⟩ := transfer_leaves (exec_mv2acc_of_tag idle port lt low high tag same count count')
    obtain ⟨m, l, ctx, window, same, poison⟩ := filled_keeps (readA s o.n) (readV s o.v) (readV s (o.v + 1))
    refine ⟨t, runs, ?_⟩
    simp only [cells]
    rw [left]
    dsimp only
    exact ⟨same, fun i inside => ⟨cellBits_filled_low _ _ _ inside, cellBits_filled_high _ _ _ inside⟩,
      poison, m, l, ctx, window, rfl, port, only⟩
  case mstget => exact fun free => ⟨_, fun r lt => elemAt_rowState _ lt, mstget_sends idle port free⟩
  case mstset =>
    intro source tag count
    obtain ⟨t, runs, left, -, port, only⟩ := transfer_leaves (exec_mstset_of_tag idle port source tag count)
    refine ⟨t, runs, ?_⟩
    rw [left]
    dsimp only
    exact ⟨fun r lt => elemAt_withRowState (readA s o.n) (readV s o.v) lt, rfl, rfl, rfl, rfl, rfl, port, only⟩
  case opened => exact madh_traps_open source idle
  case madh =>
    intro shut tag count clean
    obtain ⟨t, runs, left, only, sent⟩ := madh_leaves source idle shut tag count clean
    refine ⟨t, runs, ?_⟩
    rw [left]
    exact ⟨madhCtx_of_one, madhCtx_of_zero, fun named => ⟨madhHandles o s, toNat_madhHandles o s, sent named⟩, rfl, rfl, only⟩

end Sys2Proof.Proofs

namespace Sys2Proof.Machine

/-! ### Fences (15_isa_memory R421, 09_memory_model R280, R281, R288, R289) -/

section
variable (s : State)

theorem markFence_core_xfer : (markFence s).core.xfer = s.core.xfer := by unfold markFence; split <;> rfl
theorem markFence_core_race : (markFence s).core.race = s.core.race := by unfold markFence; split <;> rfl
theorem markFence_coreId : (markFence s).coreId = s.coreId := by unfold markFence; split <;> rfl
theorem markFence_mem : (markFence s).mem = s.mem := by unfold markFence; split <;> rfl
theorem markFence_scFences : (markFence s).scFences = s.scFences := by unfold markFence; split <;> rfl

/-- A release point of the core in focus, with the own count that it leaves. -/
theorem releasePoint_counts (scope : Nat) (kind : SnapKind) (more : Counts) :
    ∃ r, releasePoint s s.coreId scope kind more = modCore (fun k => { k with relArmed := false, race := r }) s ∧ r.own = s.core.race.own + 1 := by
  unfold releasePoint getCore putCore
  simp only [if_pos]
  exact ⟨_, rfl, rfl⟩

/-- The release point of a fence arms the next atomic. -/
theorem releaseFence_counts (scope : Nat) :
    ∃ r, releaseFence scope s = modCore (fun k => { k with relArmed := true, race := r }) s ∧ r.own = s.core.race.own + 1 := by
  obtain ⟨r, point, own⟩ := releasePoint_counts s scope .other []
  refine ⟨r, ?_, own⟩
  rw [releaseFence, point]
  rfl

theorem acquireFence_releaseFence_counts (scope : Nat) :
    ∃ r, acquireFence (releaseFence scope s) = modCore (fun k => { k with relArmed := true, race := r }) s ∧ r.own = s.core.race.own + 1 ∧ r.p = [] := by
  obtain ⟨r, point, own⟩ := releaseFence_counts s scope
  rw [point]
  exact ⟨_, rfl, own, rfl⟩

end

section
variable {s : State} {reads writes : Bool} {n : Nat} {eff : State → State}

theorem fenceForm_of_drained (done : drained (markFence s).core reads writes = true) :
    fenceForm reads writes n eff s = .next (sNextAt n (eff (markFence s))) := if_pos done

theorem fenceForm_of_busy (busy : drained (markFence s).core reads writes = false) : fenceForm reads writes n eff s = .next (sBlock (markFence s)) :=
  if_neg (Bool.eq_false_iff.mp busy)

/-- A fence whose effect is one on its core, and leaves the S stream and the general registers alone. -/
theorem fence_completes {i : Instr} {f : Core → Core} (runs : exec i s = fenceForm reads writes n eff s) (done : drained (markFence s).core reads writes = true)
    (left : eff (markFence s) = modCore f (markFence s)) (keeps : ∀ k : Core, (f k).xfer = k.xfer ∧ (f k).pc = k.pc ∧ (f k).g = k.g) :
    ∃ t, exec i s = .next t ∧ Retires n s t ∧ t.core.race = (f (markFence s).core).race ∧ t.core.relArmed = (f (markFence s).core).relArmed
      ∧ t.core.readCache = (f (markFence s).core).readCache ∧ t.core.g = s.core.g ∧ SameMemory s t := by
  obtain ⟨xfer, pc, g⟩ := keeps (markFence s).core
  refine ⟨sNextAt n (modCore f (markFence s)), ?_, ?_, ?_⟩
  · rw [runs, fenceForm_of_drained done, left]
  · exact retires_sNextAt_of_same n (xfer.trans (markFence_core_xfer s)) (pc.trans (markFence_core_pc s)) (cyc_markFence s)
  · rw [sNextAt_core_race, sNextAt_core_relArmed, sNextAt_core_readCache, sNextAt_core_g]
    exact ⟨rfl, rfl, rfl, g.trans (markFence_core_g s), sameMemory_of_mem (markFence_mem s)⟩

end

section
variable {s : State} {c : BitVec 2}

/-- At scope core a fence only retires (R288). -/
theorem completes_sNext {i : Instr} (runs : exec i s = .next (sNext s)) : CompletesWith i s 1 id := completesWith_of_sNextAt (f := id) runs rfl rfl rfl

theorem exec_fenceAcq_wide (wide : c ≠ 0) : exec (.fenceAcq c) s = fenceForm true false 1 acquireFence s := if_neg wide
theorem exec_fenceRel_wide (wide : c ≠ 0) : exec (.fenceRel c) s = fenceForm true true 1 (releaseFence c.toNat) s := if_neg wide
theorem exec_fenceAr_wide (wide : c ≠ 0) : exec (.fenceAr c) s = fenceForm true true 1 (fun s => acquireFence (releaseFence c.toNat s)) s := if_neg wide

/-- The effect of FENCE.INV. -/
def invalidated (c : BitVec 2) (z : State) : State := modCore (fun k => { k with readCache := [] }) (if c = 0 then z else acquireFence z)

theorem exec_fenceInv (s : State) (c : BitVec 2) : exec (.fenceInv c) s = fenceForm true false 65 (invalidated c) s := rfl

/-- It is one on its core, which empties the read cache. -/
theorem invalidated_left (c : BitVec 2) (z : State) :
    ∃ f : Core → Core, invalidated c z = modCore f z ∧ (∀ k, (f k).xfer = k.xfer ∧ (f k).pc = k.pc ∧ (f k).g = k.g) ∧ ∀ k, (f k).readCache = [] := by
  unfold invalidated
  split
  · exact ⟨_, rfl, fun k => ⟨rfl, rfl, rfl⟩, fun k => rfl⟩
  · exact ⟨fun k => { k with race := { k.race with v := mergeCounts k.race.v k.race.p, p := [] }, readCache := [] }, rfl, fun k => ⟨rfl, rfl, rfl⟩, fun k => rfl⟩

/-- The drain mark of a FENCE.SC, from the state that its release leaves. -/
def scMark (c : BitVec 2) (z : State) : ScFence :=
  { core := (acquireFence z).coreId, scope := c.toNat, mark := (acquireFence z).now + Config.freeDelay (acquireFence z).fresh % 193 + 64,
    vec := ((heldSnap z.core.race z.core.race.own).map (·.vec)).getD [] }

/-- The state in which a FENCE.SC waits for its mark, from the one that its release leaves. -/
def scMarked (c : BitVec 2) (z : State) : State :=
  let u := acquireFence z
  modCore (fun k => { k with phase := scWait, sReady := cyc u + 1 }) { u with scFences := u.scFences ++ [scMark c z], fresh := u.fresh + 1 }

theorem exec_fenceSc_first (wide : c = 1 ∨ c = 2) (first : s.core.phase ≠ scWait) (done : drained (markFence s).core true true = true) :
    exec (.fenceSc c) s = .next (scMarked c (releaseFence c.toNat (markFence s))) := by
  have legal : ¬ (c = 0 || c = 3) = true := by rcases wide with rfl | rfl <;> decide
  have ready : ¬ (!drained (markFence s).core true true) = true := by rw [done]; decide
  show execFenceSc c s = _
  rw [execFenceSc, if_neg legal, if_neg first, if_neg ready]
  rfl

theorem exec_fenceSc_second (wide : c = 1 ∨ c = 2) (second : s.core.phase = scWait) (gone : ∀ f ∈ s.scFences, f.core ≠ s.coreId) :
    exec (.fenceSc c) s = .next (sNext s) := by
  have legal : ¬ (c = 0 || c = 3) = true := by rcases wide with rfl | rfl <;> decide
  have none : ¬ (s.scFences.any fun f => f.core = s.coreId) = true := by simpa using gone
  show execFenceSc c s = _
  rw [execFenceSc, if_neg legal, if_pos second, if_neg none]

/-- The mark that FENCE.SC sends, and what it leaves. -/
theorem fenceSc_marks (wide : c = 1 ∨ c = 2) (first : s.core.phase ≠ scWait) (done : drained (markFence s).core true true = true) :
    ∃ t f, exec (.fenceSc c) s = .next t ∧ t.scFences = s.scFences ++ [f] ∧ f.core = s.coreId ∧ f.scope = c.toNat ∧ t.core.phase = 2 ∧ t.core.pc = s.core.pc
      ∧ t.core.race.own = s.core.race.own + 1 ∧ SameMemory s t := by
  obtain ⟨r, left, own, -⟩ := acquireFence_releaseFence_counts (markFence s) c.toNat
  refine ⟨_, scMark c (releaseFence c.toNat (markFence s)), exec_fenceSc_first wide first done, ?_⟩
  rw [scMarked, scMark, left]
  exact ⟨congrArg (· ++ _) (markFence_scFences s), markFence_coreId s, rfl, rfl, markFence_core_pc s,
    own.trans (congrArg (·.own + 1) (markFence_core_race s)), sameMemory_of_mem (markFence_mem s)⟩

end

end Sys2Proof.Machine

namespace Sys2Proof.Proofs

open Sys2Proof.Machine

/-- Settles O30: every fence is `fenceForm` or retires at once, and its effect is on the race state, the read cache or the list of drain marks. -/
theorem fences : Obligations.Fences := by
  unfold Obligations.Fences
  intro s c
  refine ⟨?core, fun wide => ⟨?acquire, ?acquireWaits, fun done => ⟨?release, ?both⟩, ?releaseWaits⟩, ?invalidate, ?illegal, ?mark, ?after⟩
  case core =>
    rintro rfl
    exact ⟨completes_sNext rfl, completes_sNext rfl, completes_sNext rfl⟩
  case acquire =>
    intro done
    obtain ⟨t, runs, retires, race, -, -, g, mem⟩ := fence_completes (exec_fenceAcq_wide wide) done rfl (fun k => ⟨rfl, rfl, rfl⟩)
    rw [markFence_core_race] at race
    exact ⟨t, runs, retires, congrArg Race.v race, congrArg Race.p race, g, mem⟩
  case acquireWaits => exact fun busy => (exec_fenceAcq_wide wide).trans (fenceForm_of_busy busy)
  case release =>
    obtain ⟨r, point, own⟩ := releaseFence_counts (markFence s) c.toNat
    obtain ⟨t, runs, retires, race, armed, -, g, mem⟩ := fence_completes (exec_fenceRel_wide wide) done point (fun k => ⟨rfl, rfl, rfl⟩)
    rw [markFence_core_race] at own
    exact ⟨t, runs, retires, (congrArg Race.own race).trans own, armed, g, mem⟩
  case both =>
    obtain ⟨r, point, own, pending⟩ := acquireFence_releaseFence_counts (markFence s) c.toNat
    obtain ⟨t, runs, retires, race, -, -, g, mem⟩ := fence_completes (exec_fenceAr_wide wide) done point (fun k => ⟨rfl, rfl, rfl⟩)
    rw [markFence_core_race] at own
    exact ⟨t, runs, retires, (congrArg Race.own race).trans own, (congrArg Race.p race).trans pending, g, mem⟩
  case releaseWaits =>
    intro busy
    rw [exec_fenceRel_wide wide, exec_fenceAr_wide wide, fenceForm_of_busy busy, fenceForm_of_busy busy]
    exact ⟨rfl, rfl⟩
  case invalidate =>
    intro done
    obtain ⟨f, left, keeps, empty⟩ := invalidated_left c (markFence s)
    obtain ⟨t, runs, retires, -, -, cache, g, mem⟩ := fence_completes (exec_fenceInv s c) done left keeps
    exact ⟨t, runs, retires, cache.trans (empty _), g, mem⟩
  case illegal => rintro (rfl | rfl) <;> rfl
  case mark => exact fun wide first done => fenceSc_marks wide first done
  case after => exact fun wide second gone => completes_sNext (exec_fenceSc_second wide second gone)

end Sys2Proof.Proofs

namespace Sys2Proof.Machine

/-! ### WLOAD (16_isa_engines R456) -/

/-- A WLOAD whose banks no other one holds. -/
theorem exec_wload_of_free {c : Cmd} {s : State} (free : wloadHeld c s = false) :
    exec (.wload c) s = startCommand 0x16 c (wloadValid c) noOperands (whenReady 0x16 true (wloadWork c)) s := by
  show execWload c s = _
  rw [execWload, free, Bool.and_false, if_neg Bool.false_ne_true]

end Sys2Proof.Machine

namespace Sys2Proof.Proofs

open Sys2Proof.Machine Sys2Proof.Laws.Engine

/-- Settles O44: every engine command is `startCommand` with its own checks and its own work. -/
theorem engineCommandStarts : Obligations.EngineCommandStarts := by
  unfold Obligations.EngineCommandStarts
  intro s c
  have held {b v w : Bool} {x y : Out} (hb : w = true) (hh : b = true) (hv : v = true) : (if b && v && w then x else y) = x := by rw [hb, hh, hv]; rfl
  exact ⟨startsWith_of rfl, startsWith_of rfl, startsWith_of rfl, startsWith_of rfl, startsWith_of rfl, startsWith_of rfl, startsWith_of rfl,
    startsWith_of rfl, startsWith_of rfl, startsWith_of rfl, startsWith_of rfl, startsWith_of rfl, startsWith_of rfl, startsWith_of rfl,
    startsWith_of rfl, startsWith_of rfl, startsWith_of rfl, startsWith_of rfl, startsWith_of rfl,
    fun free => startsWith_of (execKfree_of_free free), held,
    startsWith_of rfl, startsWith_of rfl, startsWith_of rfl, startsWith_of rfl, startsWith_of rfl, startsWith_of rfl,
    fun free => startsWith_of (exec_wload_of_free free), held⟩

end Sys2Proof.Proofs

namespace Sys2Proof.Machine

/-! ### PUSH (12_isa_scalar R435, 16_isa_engines R436, R438) -/

/-- The record is of the task's world, and that world is live in the task's partition. -/
def pushOurs (o : RPush) (s : State) : Prop :=
  cmdWorld (pushRecord s o.a) = s.core.sys.world ∧ ∀ k, s.core.task = some k → liveIn s (cmdWorld (pushRecord s o.a)) k.part = true

theorem getD_setIfInBounds_self {α : Type} {n i : Nat} (v : Vector α n) (lt : i < n) (x d : α) : (v.setIfInBounds i x).toList.getD i d = x := by
  simp [List.getD_eq_getElem?_getD, Vector.toList_setIfInBounds, lt]

/-- The entry that a PUSH appends. -/
def pushEntry (o : RPush) (s : State) (now : Cycle) : QCmd :=
  { seq := s.core.engSeq.toList.getD (engineIndex o.e.toNat) 0, bits := pushRecord s o.a, stamp := s.core.race.own + 1, pushed := now,
    mark := s.core.nextInstr, accepted := none, anchor := none, parked := false }

theorem engineIndex_lt {e : Nat} (id : e ∈ engineIds) : engineIndex e < 10 := by
  have all : ∀ e ∈ engineIds, engineIndex e < 10 := by decide
  exact all e id

theorem engineId_of_not_rejected {o : RPush} (legal : reject? (.push o) = none) : o.e.toNat ∈ engineIds := by
  have form : rejectPush o = none := legal
  have id := (Option.orElse_eq_none ..).mp form
  exact Decidable.not_not.mp (not_of_rejectIf id.1)

section
variable {s : State} {o : RPush}

theorem pushForeign_iff : (cmdWorld (pushRecord s o.a) ≠ s.core.sys.world || (s.core.task.any fun t => !liveIn s (cmdWorld (pushRecord s o.a)) t.part)) = true
    ↔ ¬ pushOurs o s := by
  rw [pushOurs]
  cases s.core.task <;> simp [imp_iff_not_or]

theorem exec_push_in_handler (inside : inHandler s = true) : exec (.push o) s = .next (sTrap .illegal 0 s) := if_pos inside

variable (outside : inHandler s = false)
include outside

theorem exec_push_foreign (foreign : ¬ pushOurs o s) : exec (.push o) s = .next (sTrap .world 0 s) := by
  show execPush o s = _
  rw [execPush, if_neg (Bool.eq_false_iff.mp outside), if_pos (pushForeign_iff.mpr foreign)]

variable (ours : pushOurs o s)
include ours

theorem exec_push_misaligned (odd : cmdObject (pushRecord s o.a) % 16 ≠ 0) :
    exec (.push o) s = .next (sTrap .alignment (BitVec.ofNat 64 (cmdObject (pushRecord s o.a))) s) := by
  show execPush o s = _
  rw [execPush, if_neg (Bool.eq_false_iff.mp outside), if_neg (pushForeign_iff.not.mpr (not_not_intro ours)), if_pos odd]

variable (aligned : cmdObject (pushRecord s o.a) % 16 = 0)
include aligned

theorem exec_push_wide {x : Int × Int} (span : taggedSpan s o.e.toNat (pushRecord s o.a) = some x) (wide : inOneSlot x = false) :
    exec (.push o) s = .next (sTrap .alignment 0 s) := by
  have bad : ((taggedSpan s o.e.toNat (pushRecord s o.a)).map inOneSlot).getD true = false := by rw [span]; exact wide
  show execPush o s = _
  rw [execPush, if_neg (Bool.eq_false_iff.mp outside), if_neg (pushForeign_iff.not.mpr (not_not_intro ours)), if_neg (not_not_intro aligned), if_pos bad]

variable (fits : ∀ x, taggedSpan s o.e.toNat (pushRecord s o.a) = some x → inOneSlot x = true)
include fits

theorem exec_push_in_order :
    exec (.push o) s =
      if coreQueueSize (engineIndex o.e.toNat) ≤ coreQueueLoad (s.core.engQ.toList.getD (engineIndex o.e.toNat) []) then
        .next (sNext (modCore (flagPut o.f.toNat true) s))
      else
        let z := if pushIrrevocable o.e.toNat (pushRecord s o.a) then irrevocable s else s
        .next (sNext (modCore (fun k => flagPut o.f.toNat false (enqueue o.e.toNat (pushRecord s o.a) z.coreId (cyc z) k)) z)) := by
  have good : ¬ ((taggedSpan s o.e.toNat (pushRecord s o.a)).map inOneSlot).getD true = false := by
    cases span : taggedSpan s o.e.toNat (pushRecord s o.a) with
    | none => exact nofun
    | some x => simpa using fits x span
  show execPush o s = _
  rw [execPush, if_neg (Bool.eq_false_iff.mp outside), if_neg (pushForeign_iff.not.mpr (not_not_intro ours)), if_neg (not_not_intro aligned), if_neg good]

/-- What a PUSH that finds room leaves. -/
theorem push_appends (legal : reject? (.push o) = none)
    (room : coreQueueLoad (s.core.engQ.toList.getD (engineIndex o.e.toNat) []) < coreQueueSize (engineIndex o.e.toNat)) :
    let i := engineIndex o.e.toNat
    ∃ t e, exec (.push o) s = .next t ∧ Retires 1 s t ∧ t.core.engQ.toList.getD i [] = s.core.engQ.toList.getD i [] ++ [e] ∧ e.bits = pushRecord s o.a
      ∧ e.accepted = none ∧ e.seq = s.core.engSeq.toList.getD i 0 ∧ t.core.engSeq.toList.getD i 0 = e.seq + 1
      ∧ (flagWritable s.core o.f.toNat = true → t.core.flags.getLsbD o.f.toNat = false) ∧ t.core.g = s.core.g ∧ SameMemory s t := by
  obtain ⟨z, core, mem, clock, runs⟩ : ∃ z : State, z.core = s.core ∧ z.mem = s.mem ∧ cyc z = cyc s ∧ exec (.push o) s =
      .next (sNext (modCore (fun k => flagPut o.f.toNat false (enqueue o.e.toNat (pushRecord s o.a) z.coreId (cyc z) k)) z)) := by
    refine ⟨if pushIrrevocable o.e.toNat (pushRecord s o.a) then irrevocable s else s, ?_, ?_, ?_,
      (exec_push_in_order outside ours aligned fits).trans (if_neg (Nat.not_le.mpr room))⟩
    · split
      · rw [irrevocable_frame]
      · rfl
    · split
      · rw [irrevocable_frame]
      · rfl
    · split
      · rw [irrevocable_frame]
        rfl
      · rfl
  have lt : engineIndex o.e.toNat < 10 := engineIndex_lt (engineId_of_not_rejected legal)
  refine ⟨_, pushEntry o s (cyc z), runs, retires_sNextAt_of_same 1 ?_ ?_ clock, ?_, rfl, rfl, rfl, ?_, fun writable => ?_, ?_, sameMemory_of_mem mem⟩
  · rw [modCore_core, flagPut_eq, core]
    rfl
  · rw [modCore_core, flagPut_eq, core]
    rfl
  · rw [sNext_eq_sNextAt, sNextAt_core_engQ, modCore_core, flagPut_eq, core]
    exact getD_setIfInBounds_self _ lt _ _
  · rw [sNext_eq_sNextAt, sNextAt_core_engSeq, modCore_core, flagPut_eq, core]
    exact getD_setIfInBounds_self _ lt _ _
  · rw [sNext_eq_sNextAt, sNextAt_core_flags, modCore_core, flagPut_eq, core]
    dsimp only
    rw [if_pos (show flagWritable (enqueue _ _ _ _ s.core) _ = true from writable), getLsbD_putBit _ _ (o.f.isLt.trans (by decide)), if_pos rfl]
  · rw [sNext_eq_sNextAt, sNextAt_core_g, modCore_core, flagPut_eq, core]
    rfl

end

end Sys2Proof.Machine

namespace Sys2Proof.Proofs

open Sys2Proof.Machine

/-- Settles O23: the checks of PUSH in their order, and the entry that it appends. -/
theorem pushCommands : Obligations.PushCommands := by
  unfold Obligations.PushCommands
  intro s o legal
  exact ⟨exec_push_in_handler, exec_push_foreign, exec_push_misaligned, fun x outside ours aligned span wide => exec_push_wide outside ours aligned span wide,
    fun outside ours aligned fits => ⟨fun full => flagBecomes_of_flagPut ((exec_push_in_order outside ours aligned fits).trans (if_pos full)),
      push_appends outside ours aligned fits legal⟩⟩

end Sys2Proof.Proofs

namespace Sys2Proof.Machine

/-! ### Bytes and numbers (00_scope R6) -/

theorem length_cellTake : ∀ (n : Nat) (m : List Host.Cell) (a : Nat), (cellTake n m a).length = n
  | 0, _, _ => rfl
  | n + 1, [], a => congrArg (· + 1) (length_cellTake n [] (a + 1))
  | n + 1, (b, x) :: rest, a => by
    rw [cellTake]
    split
    · exact congrArg (· + 1) (length_cellTake n rest (a + 1))
    · exact congrArg (· + 1) (length_cellTake n ((b, x) :: rest) (a + 1))

theorem length_cellRead (m : List Host.Cell) (a n : Nat) : (cellRead m a n).length = n := length_cellTake ..

theorem leNat_lt : ∀ l : List Byte, leNat l < 2 ^ (8 * l.length)
  | [] => by decide
  | b :: bs => by
    have rest := leNat_lt bs
    have low := b.isLt
    rw [leNat, List.length_cons, Nat.mul_add_one, Nat.pow_add]
    omega

/-- A number as a two's-complement integer. -/
theorem sNat_of_lt {w x : Nat} (lt : x < 2 ^ w) : sNat w x = if x < 2 ^ (w - 1) then (x : Int) else (x : Int) - 2 ^ w := by
  rw [sNat, Nat.mod_eq_of_lt lt]
  rfl

/-! ### A load's end, and what stands beside it (15_isa_memory R415, R416) -/

/-- The same general registers, flags and special registers, the same place of the S stream, the same clock and the same memory. -/
def SameStream (s u : State) : Prop :=
  u.core.g = s.core.g ∧ u.core.flags = s.core.flags ∧ u.core.sys = s.core.sys ∧ u.core.pc = s.core.pc ∧ u.core.xfer = s.core.xfer ∧ cyc u = cyc s
    ∧ u.mem = s.mem

theorem SameStream.refl (s : State) : SameStream s s := ⟨rfl, rfl, rfl, rfl, rfl, rfl, rfl⟩

theorem readG_of_g {s u : State} (g : u.core.g = s.core.g) (r : GReg) : readG u r = readG s r := by rw [readG, readG, g]

theorem SameStream.trans {s u v : State} (first : SameStream s u) (second : SameStream u v) : SameStream s v := by
  obtain ⟨g, flags, sys, pc, xfer, clock, mem⟩ := first
  obtain ⟨g', flags', sys', pc', xfer', clock', mem'⟩ := second
  exact ⟨g'.trans g, flags'.trans flags, sys'.trans sys, pc'.trans pc, xfer'.trans xfer, clock'.trans clock, mem'.trans mem⟩

theorem SameStream.retires {s u : State} (same : SameStream s u) (n : Nat) : Retires n s (sNextAt n u) := by
  obtain ⟨-, -, -, pc, xfer, clock, -⟩ := same
  exact retires_sNextAt_of_same n xfer pc clock

/-- A value on its way to g[d]. -/
theorem loadsG_of_loadEnd {i : Instr} {s u : State} {d : GReg} {x : Dword} {n lo : Nat} (runs : exec i s = loadEnd d x n u) (le : lo ≤ n)
    (same : SameStream s u) : LoadsG i s d x lo := by
  obtain ⟨g, flags, sys, pc, xfer, clock, mem⟩ := same
  refine ⟨_, n, runs, le, ?_, fun r ne => ?_, retires_sNextAt_of_same n ?_ ?_ ?_, ?_, ?_, sameMemory_of_mem ?_⟩
  · rw [readG_sNextAt, readG_writeG_self]
  · rw [readG_sNextAt, readG_writeG_ne ne, readG_of_g g]
  · rw [writeG_core_xfer, xfer]
  · rw [writeG_core_pc, pc]
  · rw [cyc_writeG, clock]
  · rw [sNextAt_core_flags, writeG_core_flags, flags]
  · rw [sNextAt_core_sys, writeG_core_sys, sys]
  · rw [sNextAt_mem, writeG_mem, mem]

/-- An access takes at least its unloaded latency. -/
theorem coreCycles_le (s : State) (c : CoreNo) {m n : Nat} (le : m ≤ n) : coreCycles s c m ≤ coreCycles s c n :=
  Nat.div_le_div_right (Nat.add_le_add_left (Nat.mul_le_mul_right _ le) _)

theorem loadLatency_le (s : State) (base more : Nat) : coreCycles s s.coreId base ≤ (loadLatency s (base + more)).1 :=
  coreCycles_le s s.coreId (by omega)

theorem sameStream_loadLatency (s : State) (base : Nat) : SameStream s (loadLatency s base).2 := ⟨rfl, rfl, rfl, rfl, rfl, rfl, rfl⟩

/-! ### Clusters and their counters (07_serving_structures R230) -/

theorem num_getCluster (s : State) (n : Nat) : (getCluster s n).num = n := by
  unfold getCluster
  cases found : s.clusters.find? (fun k => k.num = n) with
  | none => rfl
  | some k => simpa using List.find?_some found

theorem getCluster_putCluster_self (s : State) (k : Cluster) {n : Nat} (num : k.num = n) : getCluster (putCluster s k) n = k := by
  subst num
  have below : (s.clusters.filter (fun j => j.num < k.num)).find? (fun j => j.num = k.num) = none :=
    List.find?_eq_none.mpr fun j mem => by
      have lt := (List.mem_filter.mp mem).2
      simp only [decide_eq_true_eq] at lt ⊢
      omega
  rw [getCluster, putCluster, List.find?_append, below, Option.none_or, List.find?_cons_of_pos (by simp)]
  rfl

section
variable (s : State)

theorem sameStream_putCluster (k : Cluster) : SameStream s (putCluster s k) := ⟨rfl, rfl, rfl, rfl, rfl, rfl, rfl⟩

theorem sameStream_takeBank : SameStream s (takeBank s) := sameStream_putCluster ..

theorem sameStream_counterPut (i x : Nat) : SameStream s (counterPut s i x) := sameStream_putCluster ..

theorem counters_takeBank : (getCluster (takeBank s) (clusterOf s.coreId)).counters = (getCluster s (clusterOf s.coreId)).counters := by
  rw [takeBank, getCluster_putCluster_self]
  exact num_getCluster ..

theorem counterGet_takeBank (i : Nat) : counterGet (takeBank s) i = counterGet s i := by
  rw [counterGet, counterGet, show (takeBank s).coreId = s.coreId from rfl, counters_takeBank]

theorem assocGet_assocDel {α : Type} (l : List (Nat × α)) (k j : Nat) : assocGet (assocDel l k) j = if j = k then none else assocGet l j := by
  refine (assocGet_filter (p := fun i => decide (i ≠ k)) l j).trans ?_
  by_cases same : j = k <;> simp [same]

/-- What a counter holds after a write of one. -/
theorem counterGet_counterPut (i x j : Nat) : counterGet (counterPut s i x) j = if j = i then x % 2 ^ 32 else counterGet s j := by
  have bank : (getCluster (counterPut s i x) (clusterOf s.coreId)).counters =
      if BitVec.ofNat 32 x = 0 then assocDel (getCluster s (clusterOf s.coreId)).counters i
      else assocPut (getCluster s (clusterOf s.coreId)).counters i (BitVec.ofNat 32 x) := by
    rw [counterPut, getCluster_putCluster_self]
    exact num_getCluster ..
  rw [counterGet, show (counterPut s i x).coreId = s.coreId from rfl, bank]
  by_cases zero : BitVec.ofNat 32 x = 0
  · rw [if_pos zero, assocGet_assocDel]
    have none : x % 2 ^ 32 = 0 := by simpa using congrArg BitVec.toNat zero
    by_cases same : j = i
    · rw [if_pos same, if_pos same, none]
      rfl
    · rw [if_neg same, if_neg same, counterGet]
  · rw [if_neg zero]
    by_cases same : j = i
    · rw [same, assocGet_assocPut_self, if_pos rfl]
      exact BitVec.toNat_ofNat ..
    · rw [assocGet_assocPut_ne same, if_neg same, counterGet]

end

/-! ### Addresses of format SM -/

theorem memAddr_eq (s : State) (a : GReg) (z : BitVec 2) (o : BitVec 10) :
    (readG s a + BitVec.ofInt 64 (o.toInt * 2 ^ z.toNat)).toNat = memAddr s a z o := by
  rw [memAddr, BitVec.signExtend, ← BitVec.ofInt_natCast, ← BitVec.ofInt_mul]
  norm_cast

section
variable {s : State} {o : RMem}

theorem loadForm_of_misaligned (odd : memAddr s o.a o.z o.o % 2 ^ o.z.toNat ≠ 0) (signed : Bool) :
    loadForm o signed s = .next (sTrap .alignment (BitVec.ofNat 64 (memAddr s o.a o.z o.o)) s) := if_pos odd

theorem execSt_of_misaligned (legal : o.p ≠ 3) (odd : memAddr s o.a o.z o.o % 2 ^ o.z.toNat ≠ 0) :
    exec (.st o) s = .next (sTrap .alignment (BitVec.ofNat 64 (memAddr s o.a o.z o.o)) s) := by
  show execSt o s = _
  rw [execSt, if_neg legal, if_pos odd]

variable (aligned : memAddr s o.a o.z o.o % 2 ^ o.z.toNat = 0)
include aligned

theorem loadForm_local (p : o.p = 0) (signed : Bool) : loadForm o signed s = loadLocal o.d (memAddr s o.a o.z o.o) (2 ^ o.z.toNat) signed s := by
  rw [loadForm, if_neg (not_not_intro aligned), p]
  rfl

theorem loadForm_weight (p : o.p = 2) (signed : Bool) : loadForm o signed s = loadWeight o.d (memAddr s o.a o.z o.o) (2 ^ o.z.toNat) signed s := by
  rw [loadForm, if_neg (not_not_intro aligned), p]
  rfl

theorem execSt_local (p : o.p = 0) : exec (.st o) s = storeLocal (memAddr s o.a o.z o.o) (2 ^ o.z.toNat) (readG s o.d) s := by
  show execSt o s = _
  rw [execSt, if_neg (by rw [p]; decide), if_neg (not_not_intro aligned), p]
  rfl

theorem execSt_weight (p : o.p = 2) : exec (.st o) s = .next (sTrap .permission (BitVec.ofNat 64 (memAddr s o.a o.z o.o)) s) := by
  show execSt o s = _
  rw [execSt, if_neg (by rw [p]; decide), if_neg (not_not_intro aligned), p]
  rfl

end

/-! ### Ranges of the core-local space (15_isa_memory R411) -/

section
variable {s : State} {d : GReg} {va size : Nat} {signed : Bool} {x : Dword}

theorem localPart_scratch (lt : va < 0x80000) (size : Nat) : localPart va size = some .scratch := if_pos lt

theorem localPart_flags (le : 0x80000 ≤ va) (lt : va < 0x80200) (size : Nat) : localPart va size = some .flags := by
  rw [localPart, if_neg (Nat.not_lt.mpr le), if_pos lt]

theorem localPart_patterns (le : 0x80800 ≤ va) (lt : va < 0x80A00) (size : Nat) : localPart va size = some .patterns := by
  rw [localPart, if_neg (by omega), if_neg (by omega), if_pos (by simp [le, lt])]

theorem localPart_counters (le : 0x81000 ≤ va) (lt : va < 0x81400) : localPart va 4 = some .counters := by
  rw [localPart, if_neg (by omega), if_neg (by omega), if_neg (by simp; omega), if_pos (by simp [le, lt])]

theorem loadLocal_scratch (part : localPart va size = some .scratch) (clean : spPoison (localView (cyc s) s.core) va = false) :
    loadLocal d va size signed s = loadEnd d (extend signed size (leNat (localGet (localView (cyc s) s.core) va size))) 2 s := by
  simp only [loadLocal, part]
  rw [if_neg (Bool.eq_false_iff.mp clean)]

theorem loadLocal_poisoned (part : localPart va size = some .scratch) (bad : spPoison (localView (cyc s) s.core) va = true) :
    loadLocal d va size signed s = .next (sTrap .poison (BitVec.ofNat 64 (va / 64 * 64)) s) := by
  simp only [loadLocal, part]
  rw [if_pos bad]

theorem loadLocal_flags (part : localPart va size = some .flags) :
    loadLocal d va size signed s = .next (sNextAt 2 (post (cyc s) 99 (.flagLoad d va size signed) s)) := by simp only [loadLocal, part]

theorem loadLocal_patterns (part : localPart va size = some .patterns) :
    loadLocal d va size signed s = loadEnd d (extend signed size (leNat (localGet (localView (cyc s) s.core) va size))) 2 s := by simp only [loadLocal, part]

theorem loadLocal_counter (part : localPart va size = some .counters) (ok : bankOk s = true) :
    loadLocal d va size signed s = loadEnd d (extend signed size (counterGet s (counterAt va))) 2 (takeBank s) := by
  simp only [loadLocal, part, ok, Bool.not_true, Bool.false_eq_true, if_false]

theorem loadLocal_foreign (part : localPart va size = some .counters) (foreign : bankOk s = false) :
    loadLocal d va size signed s = .next (sTrap .world (BitVec.ofNat 64 va) s) := by
  simp only [loadLocal, part, foreign, Bool.not_false, if_true]

theorem storeLocal_bytes (part : localPart va size = some .scratch ∨ localPart va size = some .flags) :
    storeLocal va size x s = .next (sNext (post (cyc s + 2) 0 (.localWrite va (leBytes size x.toNat) false) s)) := by
  rcases part with part | part <;> simp only [storeLocal, part]

theorem storeLocal_counter (part : localPart va size = some .counters) (ok : bankOk s = true) :
    storeLocal va size x s = .next (sNext (counterPut (takeBank s) (counterAt va) (x.toNat % 2 ^ 32))) := by
  simp only [storeLocal, part, ok, Bool.not_true, Bool.false_eq_true, if_false]

theorem storeLocal_foreign (part : localPart va size = some .counters) (foreign : bankOk s = false) :
    storeLocal va size x s = .next (sTrap .world (BitVec.ofNat 64 va) s) := by
  simp only [storeLocal, part, foreign, Bool.not_false, if_true]

/-- A store in core-local space completes with the post of its bytes. -/
theorem completes_storeLocal {i : Instr} (runs : exec i s = storeLocal va size x s) (part : localPart va size = some .scratch ∨ localPart va size = some .flags) :
    CompletesWith i s 1 (post (cyc s + 2) 0 (.localWrite va (leBytes size x.toNat) false)) :=
  completesWith_of_sNextAt (f := post (cyc s + 2) 0 (.localWrite va (leBytes size x.toNat) false)) (runs.trans (storeLocal_bytes part)) rfl rfl rfl

/-- A store to a counter of the core's bank. -/
theorem store_counter {i : Instr} (runs : exec i s = storeLocal va size x s) (part : localPart va size = some .counters) (ok : bankOk s = true) :
    ∃ t, exec i s = .next t ∧ Retires 1 s t ∧ counterGet t (counterAt va) = x.toNat % 2 ^ 32
      ∧ (∀ j, j ≠ counterAt va → counterGet t j = counterGet s j) ∧ t.core.g = s.core.g ∧ SameMemory s t := by
  have same := (sameStream_takeBank s).trans (sameStream_counterPut (takeBank s) (counterAt va) (x.toNat % 2 ^ 32))
  have counts (j : Nat) : counterGet (sNext (counterPut (takeBank s) (counterAt va) (x.toNat % 2 ^ 32))) j =
      if j = counterAt va then x.toNat % 2 ^ 32 % 2 ^ 32 else counterGet (takeBank s) j := counterGet_counterPut (takeBank s) (counterAt va) (x.toNat % 2 ^ 32) j
  refine ⟨_, runs.trans (storeLocal_counter part ok), same.retires 1, ?_, fun j ne => ?_, ?_, sameMemory_of_mem rfl⟩
  · rw [counts, if_pos rfl, Nat.mod_mod]
  · rw [counts, if_neg ne, counterGet_takeBank]
  · rw [sNext_eq_sNextAt, sNextAt_core_g]
    rfl

theorem loadWeight_foreign (foreign : bankOwned s (va / 2 ^ 24) = false) :
    loadWeight d va size signed s = .next (sTrap .permission (BitVec.ofNat 64 va) s) := by
  have bad : (0x3FFFFFFF < va || !bankOwned s (va / 2 ^ 24)) = true := by rw [foreign]; simp
  rw [loadWeight, if_pos bad]
  rfl

theorem loadWeight_owned (lt : va < 0x40000000) (owned : bankOwned s (va / 2 ^ 24) = true) (clean : (lineAt s (weightPa s va) 0).poison = false) :
    loadWeight d va size signed s = loadEnd d (extend signed size (leNat (((lineAt s (weightPa s va) 0).bytes.drop (va % 64)).take size)))
      (loadLatency s (60 + refreshWait s (va / 2 ^ 24))).1 (loadLatency s (60 + refreshWait s (va / 2 ^ 24))).2 := by
  have good : ¬ (0x3FFFFFFF < va || !bankOwned s (va / 2 ^ 24)) = true := by rw [owned]; simp; omega
  have whole : ¬ (lineAt s (weightPa s va) 0).poison = true := Bool.eq_false_iff.mp clean
  rw [loadWeight, if_neg good]
  dsimp only
  rw [if_neg whole]

end

end Sys2Proof.Machine

namespace Sys2Proof.Proofs

open Sys2Proof.Machine

/-- The forms of a load and a store at a misaligned address, in spaces that they may not reach, and with the address as the spec writes it. -/
theorem misalignedAccesses (s : State) :
    (∀ o : RMem,
      let va := (readG s o.a + BitVec.ofInt 64 (o.o.toInt * 2 ^ o.z.toNat)).toNat
      va = memAddr s o.a o.z o.o
      ∧ (va % 2 ^ o.z.toNat ≠ 0 → TrapsS (.ld o) s .alignment (BitVec.ofNat 64 va) ∧ TrapsS (.ldz o) s .alignment (BitVec.ofNat 64 va)
        ∧ (o.p ≠ 3 → TrapsS (.st o) s .alignment (BitVec.ofNat 64 va)))
      ∧ (o.p = 3 → TrapsS (.st o) s .illegal 0)
      ∧ (o.p = 2 → va % 2 ^ o.z.toNat = 0 → TrapsS (.st o) s .permission (BitVec.ofNat 64 va)))
    ∧ (∀ o : RMemNc, memAddr s o.a o.z o.o % 2 ^ o.z.toNat ≠ 0 → TrapsS (.ldnc o) s .alignment (BitVec.ofNat 64 (memAddr s o.a o.z o.o))) := by
  refine ⟨fun o => ⟨memAddr_eq .., ?_⟩, fun o odd => if_pos odd⟩
  rw [memAddr_eq]
  exact ⟨fun odd => ⟨loadForm_of_misaligned odd true, loadForm_of_misaligned odd false, fun legal => execSt_of_misaligned legal odd⟩,
    fun p => if_pos p, fun p aligned => execSt_weight aligned p⟩

/-- Settles O26, range by range: each load ends in `loadEnd` or posts its read of the flags, and each store posts its bytes or writes its counter. -/
theorem localLoadsAndStores : Obligations.LocalLoadsAndStores := by
  unfold Obligations.LocalLoadsAndStores
  refine ⟨misalignedAccesses, fun s o p aligned lt => ?scratch, fun s o aligned => ⟨fun p le lt => ?flags, fun p le lt => ?patterns,
    fun p le lt four => ⟨fun ok => ?counters, fun foreign => ?foreign⟩, fun p lt => ⟨fun owned clean => ?weights, fun other => ?otherBank⟩⟩⟩
  case scratch =>
    have part := localPart_scratch lt (2 ^ o.z.toNat)
    have load (signed : Bool) := loadForm_local aligned p signed
    have bytes : leNat (cellRead (localView (cyc s) s.core).sp (memAddr s o.a o.z o.o) (2 ^ o.z.toNat)) < 2 ^ (8 * 2 ^ o.z.toNat) := by
      have bound := leNat_lt (cellRead (localView (cyc s) s.core).sp (memAddr s o.a o.z o.o) (2 ^ o.z.toNat))
      rwa [length_cellRead] at bound
    refine ⟨fun clean => ?_, fun bad => ?_, completes_storeLocal (execSt_local aligned p) (.inl part)⟩
    · have read (signed : Bool) := (load signed).trans (loadLocal_scratch (signed := signed) part clean)
      rw [localGet, if_pos lt] at read
      refine ⟨loadsG_of_loadEnd (read false) (Nat.le_refl 2) (.refl s), ?_⟩
      rw [← sNat_of_lt bytes]
      exact loadsG_of_loadEnd (read true) (Nat.le_refl 2) (.refl s)
    · exact ⟨(load true).trans (loadLocal_poisoned part bad), (load false).trans (loadLocal_poisoned part bad)⟩
  case flags =>
    have part := localPart_flags le lt (2 ^ o.z.toNat)
    have load (signed : Bool) := (loadForm_local aligned p signed).trans (loadLocal_flags part)
    exact ⟨completesWith_of_sNextAt (f := post (cyc s) 99 _) (load false) rfl rfl rfl, completesWith_of_sNextAt (f := post (cyc s) 99 _) (load true) rfl rfl rfl,
      completes_storeLocal (execSt_local aligned p) (.inr part)⟩
  case patterns =>
    exact loadsG_of_loadEnd ((loadForm_local aligned p false).trans (loadLocal_patterns (localPart_patterns le lt _))) (Nat.le_refl 2) (.refl s)
  case counters =>
    have part : localPart (memAddr s o.a o.z o.o) (2 ^ o.z.toNat) = some .counters := by rw [four]; exact localPart_counters le lt
    exact ⟨loadsG_of_loadEnd ((loadForm_local aligned p false).trans (loadLocal_counter part ok)) (Nat.le_refl 2) (sameStream_takeBank s),
      store_counter (execSt_local aligned p) part ok⟩
  case foreign =>
    have part : localPart (memAddr s o.a o.z o.o) (2 ^ o.z.toNat) = some .counters := by rw [four]; exact localPart_counters le lt
    exact ⟨(loadForm_local aligned p false).trans (loadLocal_foreign part foreign), (execSt_local aligned p).trans (storeLocal_foreign part foreign)⟩
  case weights =>
    exact loadsG_of_loadEnd ((loadForm_weight aligned p false).trans (loadWeight_owned lt owned clean)) (loadLatency_le ..) (sameStream_loadLatency ..)
  case otherBank => exact (loadForm_weight aligned p false).trans (loadWeight_foreign other)

end Sys2Proof.Proofs

namespace Sys2Proof.Machine

/-! ### Runs of bytes read and written -/

theorem filter_listed_of_out (lo hi : Nat) : ∀ (bs : List Byte) (a : Nat), hi ≤ a ∨ a + bs.length ≤ lo →
    (listed a bs).filter (fun c => decide (lo ≤ c.1) && decide (c.1 < hi)) = [] := by
  intro bs a out
  refine List.filter_eq_nil_iff.mpr fun c mem => ?_
  have inside := mem_listed mem
  simp only [Bool.and_eq_true, decide_eq_true_eq]
  omega

/-- A run of bytes read beside those written reads as before. -/
theorem cellRead_cellWrite_out (m : List Host.Cell) {a l n : Nat} (bs : List Byte) (out : l + n ≤ a ∨ a + bs.length ≤ l) :
    cellRead (cellWrite m a bs) l n = cellRead m l n := by
  have middle := filter_listed_of_out l (l + n) bs a (by omega)
  rw [cellRead, cellRead, cellWrite, List.filter_append, List.filter_append, middle, List.append_nil, List.filter_filter, List.filter_filter]
  rcases out with below | above
  · have none : m.filter (fun c => (decide (l ≤ c.1) && decide (c.1 < l + n)) && decide (a + bs.length ≤ c.1)) = [] :=
      List.filter_eq_nil_iff.mpr fun c _ => by simp only [Bool.and_eq_true, decide_eq_true_eq]; omega
    rw [none, List.append_nil]
    congr 1
    refine List.filter_congr fun c _ => ?_
    refine Bool.eq_iff_iff.mpr ?_
    simp only [Bool.and_eq_true, decide_eq_true_eq]
    omega
  · have none : m.filter (fun c => (decide (l ≤ c.1) && decide (c.1 < l + n)) && decide (c.1 < a)) = [] :=
      List.filter_eq_nil_iff.mpr fun c _ => by simp only [Bool.and_eq_true, decide_eq_true_eq]; omega
    rw [none, List.nil_append]
    congr 1
    refine List.filter_congr fun c _ => ?_
    refine Bool.eq_iff_iff.mpr ?_
    simp only [Bool.and_eq_true, decide_eq_true_eq]
    omega

theorem cellTake_listed : ∀ (bs : List Byte) (a : Nat), cellTake bs.length (listed a bs) a = bs
  | [], _ => rfl
  | b :: bs, a => by
    have rest := cellTake_listed bs (a + 1)
    rw [listed]
    by_cases zero : b = 0
    · rw [if_pos zero, zero]
      cases tail : listed (a + 1) bs with
      | nil =>
        rw [tail] at rest
        exact congrArg (List.cons 0) rest
      | cons c cs =>
        have above := mem_listed (tail ▸ List.mem_cons_self : c ∈ listed (a + 1) bs)
        rw [tail] at rest
        obtain ⟨y, x⟩ := c
        rw [List.length_cons, cellTake, if_neg (by simp only at above; omega), rest]
    · rw [if_neg zero, List.length_cons, cellTake, if_pos rfl, rest]

/-- A run of bytes just written reads as written. -/
theorem cellRead_cellWrite_self (m : List Host.Cell) (a : Nat) (bs : List Byte) : cellRead (cellWrite m a bs) a bs.length = bs := by
  have below : (m.filter (fun c => c.1 < a)).filter (fun c => decide (a ≤ c.1) && decide (c.1 < a + bs.length)) = [] := by
    refine List.filter_eq_nil_iff.mpr fun c mem => ?_
    have lt := (List.mem_filter.mp mem).2
    simp only [Bool.and_eq_true, decide_eq_true_eq] at lt ⊢
    omega
  have above : (m.filter (fun c => a + bs.length ≤ c.1)).filter (fun c => decide (a ≤ c.1) && decide (c.1 < a + bs.length)) = [] := by
    refine List.filter_eq_nil_iff.mpr fun c mem => ?_
    have le := (List.mem_filter.mp mem).2
    simp only [Bool.and_eq_true, decide_eq_true_eq] at le ⊢
    omega
  have whole : (listed a bs).filter (fun c => decide (a ≤ c.1) && decide (c.1 < a + bs.length)) = listed a bs :=
    List.filter_eq_self.mpr fun c mem => by
      have inside := mem_listed mem
      simp only [Bool.and_eq_true, decide_eq_true_eq]
      omega
  rw [cellRead, cellWrite, List.filter_append, List.filter_append, below, above, whole, List.nil_append, List.append_nil, cellTake_listed]

/-! ### Lines -/

theorem lineOf_lineOf (pa : Nat) : lineOf (lineOf pa) = lineOf pa := by unfold lineOf; omega

theorem lineOf_add {pa i : Nat} (lt : i < 64) : lineOf (lineOf pa + i) = lineOf pa := by unfold lineOf; omega

theorem lineOf_add_mod {pa i : Nat} (lt : i < 64) : (lineOf pa + i) % 64 = i := by unfold lineOf; omega

/-- An address outside a line. -/
theorem out_of_line {x pa : Nat} (other : lineOf x ≠ lineOf pa) : x < lineOf pa ∨ lineOf pa + 64 ≤ x := by unfold lineOf at *; omega

theorem line_out_of_line {x pa : Nat} (other : lineOf x ≠ lineOf pa) : lineOf x + 64 ≤ lineOf pa ∨ lineOf pa + 64 ≤ lineOf x := by unfold lineOf at *; omega

theorem lineAt_lineOf (s : State) (pa : Nat) (slot : BitVec 12) : lineAt s (lineOf pa) slot = lineAt s pa slot := by rw [lineAt, lineAt, lineOf_lineOf]

theorem length_padTo {α : Type} (n : Nat) (d : α) (l : List α) : (padTo n d l).length = n := by
  rw [padTo, List.length_append, List.length_take, List.length_replicate]
  omega

theorem length_eventBytes (lost : Bool) (e : Event) : (eventBytes lost e).length = 32 := by
  simp only [eventBytes, List.length_append, length_leBytes, length_padTo]

theorem length_logSlot (s : State) (j : Nat) : (logSlot s j).length = 32 := by
  unfold logSlot
  split
  · exact length_eventBytes ..
  · exact length_leBytes ..

theorem length_homeBytes (s : State) (l : Nat) : (homeBytes s l).length = 64 := by
  unfold homeBytes
  split
  · simp
  · split
    · rw [logLine, List.length_append, length_logSlot, length_logSlot]
    · exact length_cellRead ..

theorem length_plainBytes (s : State) (l : Nat) (d : Side) (slot : BitVec 12) : (plainBytes s l d slot).length = 64 := by
  unfold plainBytes
  dsimp only
  split
  · exact length_cellRead ..
  · exact length_leBytes ..

theorem length_lineAt (s : State) (pa : Nat) (slot : BitVec 12) : (lineAt s pa slot).bytes.length = 64 := by
  unfold lineAt
  dsimp only
  split
  · exact length_homeBytes ..
  · exact length_plainBytes ..

theorem length_patchLine (bs : List (Nat × Byte)) : ∀ l : List Byte, (patchLine l bs).length = l.length := by
  induction bs with
  | nil => exact fun l => rfl
  | cons b bs ih => exact fun l => (ih (l.set b.1 b.2)).trans List.length_set

/-- A run of bytes from a place of a line on, each with its place. -/
def placedAt (off : Nat) (l : List Byte) (k : Nat) : List (Nat × Byte) := (l.zipIdx k).map fun q => (off + q.2, q.1)

theorem getD_patchLine (off : Nat) : ∀ (l : List Byte) (k : Nat) (line : List Byte) (i : Nat), off + k + l.length ≤ line.length →
    (patchLine line (placedAt off l k)).getD i 0 = if off + k ≤ i ∧ i < off + k + l.length then l.getD (i - (off + k)) 0 else line.getD i 0
  | [], k, line, i, _ => by rw [if_neg (by rw [List.length_nil]; omega)]; rfl
  | b :: bs, k, line, i, fits => by
    rw [List.length_cons] at fits
    have rest := getD_patchLine off bs (k + 1) (line.set (off + k) b) i (by rw [List.length_set]; omega)
    show (patchLine (line.set (off + k) b) (placedAt off bs (k + 1))).getD i 0 = _
    rw [rest, List.length_cons]
    by_cases here : i = off + k
    · have first : (line.set (off + k) b).getD (off + k) 0 = b := by
        rw [List.getD_eq_getElem?_getD, List.getElem?_set_self (by omega)]
        rfl
      rw [if_neg (by omega), if_pos (by omega), here, Nat.sub_self, first]
      rfl
    · have other : (line.set (off + k) b).getD i 0 = line.getD i 0 := by
        rw [List.getD_eq_getElem?_getD, List.getD_eq_getElem?_getD, List.getElem?_set_ne (Ne.symm here)]
      rw [other]
      by_cases inside : off + (k + 1) ≤ i ∧ i < off + (k + 1) + bs.length
      · rw [if_pos inside, if_pos (by omega), show i - (off + k) = i - (off + (k + 1)) + 1 by omega]
        rfl
      · rw [if_neg inside, if_neg (by omega)]

/-! ### One line written in place -/

/-- Nothing but memory, its sidebands and the logs of checkpoints. -/
def OnlyMemory (s t : State) : Prop := t = { s with mem := t.mem, side := t.side, ckpts := t.ckpts, logOrdinals := t.logOrdinals }

theorem OnlyMemory.trans {s t u : State} (first : OnlyMemory s t) (second : OnlyMemory t u) : OnlyMemory s u := by
  rw [OnlyMemory] at *
  rw [second, first]

/-- Where a state differs in memory, sidebands and the logs of checkpoints only, a line whose bytes and sideband are the same reads the same. -/
theorem lineAt_of_kept {s t : State} {pa : Nat} (only : OnlyMemory s t) (side : assocGet t.side (lineOf pa) = assocGet s.side (lineOf pa))
    (bytes : cellRead t.mem (lineOf pa) 64 = cellRead s.mem (lineOf pa) 64) (slot : BitVec 12) : lineAt t pa slot = lineAt s pa slot := by
  have home : homeBytes t (lineOf pa) = homeBytes s (lineOf pa) := by
    unfold homeBytes
    rw [bytes, only]
    rfl
  have plain (d : Side) : plainBytes t (lineOf pa) d slot = plainBytes s (lineOf pa) d slot := by
    unfold plainBytes
    rw [bytes, only]
    rfl
  have lost : cxlLost t (lineOf pa) = cxlLost s (lineOf pa) := by rw [only]; rfl
  have key (d : Side) : keyOf t (lineOf pa) d.world slot = keyOf s (lineOf pa) d.world slot := by rw [only]; rfl
  have world : pageWorld t (lineOf pa) = pageWorld s (lineOf pa) := by rw [only]; rfl
  have replica : isReplica t (lineOf pa) = isReplica s (lineOf pa) := by rw [only]; rfl
  unfold lineAt
  simp only [side, home, plain, lost, key, world, replica]

section
variable (s : State) (pa : Nat) (bs : List (Nat × Byte)) (w : BitVec 6) (stamp : Option (BitVec 10 × BitVec 8)) (poison : Bool) (slot : BitVec 12)

theorem onlyMemory_putLine : OnlyMemory s (putLine s pa bs w stamp poison slot) := rfl

theorem length_putLine : (patchLine (lineAt s (lineOf pa) slot).bytes bs).length = 64 := by rw [length_patchLine, length_lineAt]

theorem byteAt_putLine_out {x : Nat} (other : lineOf x ≠ lineOf pa) : byteAt (putLine s pa bs w stamp poison slot) x = byteAt s x :=
  cellGet_cellWrite_out _ _ _ (by rw [length_putLine]; exact out_of_line other)

theorem side_putLine_out {x : Nat} (other : lineOf x ≠ lineOf pa) :
    assocGet (putLine s pa bs w stamp poison slot).side (lineOf x) = assocGet s.side (lineOf x) := assocGet_assocPut_ne other ..

theorem cellRead_putLine_out {x : Nat} (other : lineOf x ≠ lineOf pa) :
    cellRead (putLine s pa bs w stamp poison slot).mem (lineOf x) 64 = cellRead s.mem (lineOf x) 64 :=
  cellRead_cellWrite_out _ _ (by rw [length_putLine]; exact line_out_of_line other)

theorem byteAt_putLine_in {i : Nat} (lt : i < 64) :
    byteAt (putLine s pa bs w stamp poison slot) (lineOf pa + i) = (patchLine (lineAt s pa slot).bytes bs).getD i 0 := by
  rw [← lineAt_lineOf]
  exact cellGet_cellWrite_in _ _ _ (by rwa [length_putLine])

/-- The line that was written, as it reads from then on. -/
theorem lineAt_putLine : (lineAt (putLine s pa bs w stamp poison slot) pa slot).bytes = patchLine (lineAt s pa slot).bytes bs := by
  have stored : cellRead (putLine s pa bs w stamp poison slot).mem (lineOf pa) 64 = patchLine (lineAt s (lineOf pa) slot).bytes bs := by
    have read := cellRead_cellWrite_self s.mem (lineOf pa) (patchLine (lineAt s (lineOf pa) slot).bytes bs)
    rwa [length_putLine] at read
  have side : ∃ d, assocGet (putLine s pa bs w stamp poison slot).side (lineOf pa) = some d ∧ d.key = keyOf s (lineOf pa) d.world slot :=
    ⟨_, assocGet_assocPut_self .., rfl⟩
  obtain ⟨d, some, key⟩ := side
  have key' : d.key = keyOf (putLine s pa bs w stamp poison slot) (lineOf pa) d.world slot := key
  rw [lineAt]
  dsimp only
  rw [some]
  dsimp only
  rw [plainBytes, if_pos key', stored, lineAt_lineOf]

end

/-! ### The log of a checkpoint (10_traps R315) -/

/-- What stands at an address and in its line, as before. -/
def KeptAt (s t : State) (x : Nat) : Prop :=
  byteAt t x = byteAt s x ∧ assocGet t.side (lineOf x) = assocGet s.side (lineOf x) ∧ cellRead t.mem (lineOf x) 64 = cellRead s.mem (lineOf x) 64

theorem KeptAt.trans {s t u : State} {x : Nat} (first : KeptAt s t x) (second : KeptAt t u x) : KeptAt s u x :=
  ⟨second.1.trans first.1, second.2.1.trans first.2.1, second.2.2.trans first.2.2⟩

/-- Lines written at places other than an address. -/
theorem foldl_putLine_keeps {α : Type} (place : α → Nat) (put : State → α → State)
    (is : ∀ s y, ∃ bs w stamp poison slot, put s y = putLine s (place y) bs w stamp poison slot) :
    ∀ (l : List α) (s : State), OnlyMemory s (l.foldl put s) ∧ ∀ x, (∀ y ∈ l, lineOf x ≠ lineOf (place y)) → KeptAt s (l.foldl put s) x
  | [], s => ⟨rfl, fun x _ => ⟨rfl, rfl, rfl⟩⟩
  | y :: ys, s => by
    obtain ⟨bs, w, stamp, poison, slot, eq⟩ := is s y
    obtain ⟨only, kept⟩ := foldl_putLine_keeps place put is ys (put s y)
    rw [List.foldl_cons]
    refine ⟨OnlyMemory.trans (by rw [eq]; rfl) only, fun x other => KeptAt.trans ?_ (kept x fun z mem => other z (List.mem_cons_of_mem y mem))⟩
    have here := other y List.mem_cons_self
    rw [eq]
    exact ⟨byteAt_putLine_out s _ _ _ _ _ _ here, side_putLine_out s _ _ _ _ _ _ here, cellRead_putLine_out s _ _ _ _ _ _ here⟩

/-- The places of memory that the entry of a write goes to are those of `inLogEntry`. -/
theorem ckptLog_keeps (s : State) (who : Option TaskRef) (line : Nat) :
    OnlyMemory s (ckptLog s who line) ∧ ∀ x, ¬ inLogEntry s who x → KeptAt s (ckptLog s who line) x := by
  have still : OnlyMemory s s ∧ ∀ x, ¬ inLogEntry s who x → KeptAt s s x := ⟨rfl, fun x _ => ⟨rfl, rfl, rfl⟩⟩
  cases who with
  | none => exact still
  | some t =>
    cases found : ckptOf s t with
    | none => simpa only [ckptLog, found] using still
    | some k =>
      by_cases full : ckptCapacity ≤ ckptUsed k t
      · simpa only [ckptLog, found, if_pos full] using still
      · simp only [ckptLog, found, if_neg full]
        set z : State := { s with logOrdinals := assocPut s.logOrdinals (controllerOf s line) ((assocGet s.logOrdinals (controllerOf s line)).getD 0 + 1) } with hz
        generalize hput : (fun (s : State) (x : Nat × Nat × Pte × Nat) => putLine s x.2.2.2 _ x.2.2.1.world (some (0, 0)) false x.2.2.1.keySlot) = put
        obtain ⟨only, kept⟩ := foldl_putLine_keeps (fun y : Nat × Nat × Pte × Nat => y.2.2.2) put
          (fun s y => ⟨_, _, _, _, _, by rw [← hput]⟩) (ckptPlaces s t (ckptUsed k t)) z
        refine ⟨OnlyMemory.trans (t := z) rfl (OnlyMemory.trans only rfl), fun x other => ?_⟩
        exact kept x fun y mem same => other ⟨t, k, y, rfl, found, mem, same⟩

/-! ### A run of bytes written at its home, inside one line -/

section
variable {s : State} {pa : Nat} {off : Nat} {l : List Byte} {w : BitVec 6} {stamp : Option (BitVec 10 × BitVec 8)} {poison : Bool} {slot : BitVec 12}
  {who : Option TaskRef}

/-- No migration copies the page of a line. -/
theorem writeLine_of_still (still : ∀ m ∈ s.migrations, m.src ≠ pageOf (lineOf pa)) (bs : List (Nat × Byte)) :
    writeLine s pa bs w stamp poison slot who = putLine (ckptLog s who (lineOf pa)) (lineOf pa) bs w stamp poison slot := by
  have only : OnlyMemory s (putLine (ckptLog s who (lineOf pa)) (lineOf pa) bs w stamp poison slot) :=
    (ckptLog_keeps s who (lineOf pa)).1.trans (onlyMemory_putLine ..)
  have migrations : (putLine (ckptLog s who (lineOf pa)) (lineOf pa) bs w stamp poison slot).migrations = s.migrations := by rw [only]
  have none : s.migrations.find? (fun m => m.src = pageOf (lineOf pa) && (m.step = 2 || m.step = 3) && m.replica.isNone) = none :=
    List.find?_eq_none.mpr fun m mem => by simp [still m mem]
  rw [writeLine]
  dsimp only
  rw [migrations, none]

variable (still : ∀ m ∈ s.migrations, m.src ≠ pageOf (lineOf pa))
include still

theorem onlyMemory_writeLine (bs : List (Nat × Byte)) : OnlyMemory s (writeLine s pa bs w stamp poison slot who) := by
  rw [writeLine_of_still still]
  exact (ckptLog_keeps s who (lineOf pa)).1.trans (onlyMemory_putLine ..)

variable (fits : off + l.length ≤ 64)
include fits

/-- The bytes of a run stand at their home. -/
theorem byteAt_writeLine {i : Nat} (lt : i < l.length) :
    byteAt (writeLine s pa (placedAt off l 0) w stamp poison slot who) (lineOf pa + off + i) = l.getD i 0 := by
  have put := byteAt_putLine_in (ckptLog s who (lineOf pa)) (lineOf pa) (placedAt off l 0) w stamp poison slot (i := off + i) (by omega)
  rw [lineOf_lineOf] at put
  rw [writeLine_of_still still, Nat.add_assoc, put, getD_patchLine _ _ _ _ _ (by rw [length_lineAt]; omega), if_pos (by omega)]
  congr 1
  omega

/-- They are all that the write changes but the entry of a log. -/
theorem writesInLine_writeLine (inside : off < 64) :
    WritesInLine (lineOf pa + off) l.length slot who s (writeLine s pa (placedAt off l 0) w stamp poison slot who) := by
  obtain ⟨only, kept⟩ := ckptLog_keeps s who (lineOf pa)
  rw [writeLine_of_still still, WritesInLine, lineOf_add inside, lineOf_add_mod inside]
  refine ⟨fun x other logged => ?_, fun logged i lt out => ?_⟩
  · rw [byteAt_putLine_out _ _ _ _ _ _ _ (by rwa [lineOf_lineOf])]
    exact (kept x logged).1
  · have same : lineAt (ckptLog s who (lineOf pa)) (lineOf pa) slot = lineAt s (lineOf pa + off) slot := by
      obtain ⟨-, side, bytes⟩ := kept _ logged
      rw [← lineAt_of_kept only side bytes, ← lineAt_lineOf _ (lineOf pa + off), lineOf_add inside]
    rw [← lineAt_lineOf _ (lineOf pa + off), lineOf_add inside, lineAt_putLine, getD_patchLine _ _ _ _ _ (by rw [length_lineAt]; omega), if_neg (by omega), same]

end

end Sys2Proof.Machine

namespace Sys2Proof.Machine

/-! ### Accesses of the S stream to space gl: what they leave of the core and of memory (15_isa_memory R412, R415) -/

/-- The same general registers, flags and special registers, the same place of the S stream, and the same clock. -/
def SameRegs (s u : State) : Prop :=
  u.core.g = s.core.g ∧ u.core.flags = s.core.flags ∧ u.core.sys = s.core.sys ∧ u.core.pc = s.core.pc ∧ u.core.xfer = s.core.xfer ∧ cyc u = cyc s

theorem SameRegs.trans {s u v : State} (first : SameRegs s u) (second : SameRegs u v) : SameRegs s v := by
  obtain ⟨g, flags, sys, pc, xfer, clock⟩ := first
  obtain ⟨g', flags', sys', pc', xfer', clock'⟩ := second
  exact ⟨g'.trans g, flags'.trans flags, sys'.trans sys, pc'.trans pc, xfer'.trans xfer, clock'.trans clock⟩

theorem SameRegs.retires {s u : State} (same : SameRegs s u) (n : Nat) : Retires n s (sNextAt n u) := by
  obtain ⟨-, -, -, pc, xfer, clock⟩ := same
  exact retires_sNextAt_of_same n xfer pc clock

theorem sameStream_of_regs {s u : State} (same : SameRegs s u) (mem : u.mem = s.mem) : SameStream s u := by
  obtain ⟨g, flags, sys, pc, xfer, clock⟩ := same
  exact ⟨g, flags, sys, pc, xfer, clock, mem⟩

/-- Nothing but the cores, the clusters and the free delays: every home reads as before. -/
def SameHomes (u t : State) : Prop := t = { u with core := t.core, others := t.others, clusters := t.clusters, fresh := t.fresh }

section
variable {s u t : State}

theorem SameHomes.trans (first : SameHomes s u) (second : SameHomes u t) : SameHomes s t := by
  rw [SameHomes] at *
  rw [second, first]

theorem byteAt_of_homes (same : SameHomes u t) (x : Nat) : byteAt t x = byteAt u x := by rw [same]; rfl

theorem lineAt_of_homes (same : SameHomes u t) (pa : Nat) (slot : BitVec 12) : lineAt t pa slot = lineAt u pa slot := by rw [same]; rfl

theorem inLogEntry_of_homes (same : SameHomes u t) (who : Option TaskRef) (x : Nat) : inLogEntry t who x = inLogEntry u who x := by rw [same]; rfl

theorem coreCycles_of_homes (same : SameHomes u t) (c : CoreNo) (n : Nat) : coreCycles t c n = coreCycles u c n := by rw [same]; rfl

/-- A write inside a line, seen from states with the same homes. -/
theorem WritesInLine.of_homes {z : State} {pa n : Nat} {slot : BitVec 12} {who : Option TaskRef} (writes : WritesInLine pa n slot who u t)
    (before : SameHomes s u) (after : SameHomes t z) : WritesInLine pa n slot who s z := by
  obtain ⟨others, line⟩ := writes
  refine ⟨fun x other logged => ?_, fun logged i lt out => ?_⟩
  · rw [byteAt_of_homes after, others x other (by rwa [inLogEntry_of_homes before]), byteAt_of_homes before]
  · rw [lineAt_of_homes after, line (by rwa [inLogEntry_of_homes before]) i lt out, lineAt_of_homes before]

end

section
variable (s : State)

theorem sameHomes_modCore (f : Core → Core) : SameHomes s (modCore f s) := rfl

theorem sameHomes_touchKey (c : CoreNo) (slot : BitVec 12) : SameHomes s (touchKey c slot s) := by
  unfold touchKey
  dsimp only
  split
  · rfl
  · rfl

theorem core_touchKey (c : CoreNo) (slot : BitVec 12) : (touchKey c slot s).core = s.core := by
  unfold touchKey
  dsimp only
  split
  · rfl
  · rfl

theorem sameRegs_touchKey (c : CoreNo) (slot : BitVec 12) : SameRegs s (touchKey c slot s) := by
  unfold touchKey
  dsimp only
  split
  · exact ⟨rfl, rfl, rfl, rfl, rfl, rfl⟩
  · exact ⟨rfl, rfl, rfl, rfl, rfl, rfl⟩

theorem mem_touchKey (c : CoreNo) (slot : BitVec 12) : (touchKey c slot s).mem = s.mem := by rw [sameHomes_touchKey s c slot]

/-- The caches of the S stream filled. -/
theorem sameRegs_setCache (f : Core → List CacheLine) (v : Via) : SameRegs s (modCore (fun k => setCache v (f k) k) s) := by
  cases v <;> exact ⟨rfl, rfl, rfl, rfl, rfl, rfl⟩

end

/-! ### Loads (R415, R416) -/

section
variable {s : State} {d : GReg} {p : Pte} {pa va size : Nat} {signed : Bool} {v : Via}

theorem loadGlobal_of_mapped (first : s.core.phase ≠ 3) (mapped : xlate s s.core.sys.world va false false = .ok (p, pa)) :
    loadGlobal d va size signed v s = loadMapped d p pa va size signed v s := by
  have idle : ¬ waiting s = true := fun w => first (of_decide_eq_true w)
  rw [loadGlobal, if_neg idle, mapped]

section
variable (holds : tlbHolds s.core s.core.sys.world va = true) (free : ownPending s.core pa = false)
include holds free

theorem loadMapped_of_miss (miss : cacheGet (cacheOf s.core v) va = none) (goes : accessWaits s s.coreId pa = false) (near : isRemote s pa = false) :
    loadMapped d p pa va size signed v s = loadHome d p pa va size signed v s := by
  simp only [loadMapped, holds, free, miss, goes, near, Bool.not_true, Bool.false_eq_true, if_false]

theorem loadMapped_of_hit {c : CacheLine} (hit : cacheGet (cacheOf s.core v) va = some c) (passes : cachedFail s p pa va c = none) (clean : cachedPoison c = false) :
    loadMapped d p pa va size signed v s = loadEnd d (extend signed size (leNat (((leBytes 64 c.data.toNat).drop (va % 64)).take size))) (hitLatency v)
      (modCore (fun k => setCache v (cachePut (cacheOf k v) c) k) s) := by
  simp only [loadMapped, holds, free, hit, passes, clean, Bool.not_true, Bool.false_eq_true, if_false]

theorem loadMapped_of_poisoned {c : CacheLine} (hit : cacheGet (cacheOf s.core v) va = some c) (passes : cachedFail s p pa va c = none)
    (bad : cachedPoison c = true) : loadMapped d p pa va size signed v s = .next (sFail (failAt .poison (va / 64 * 64)) s) := by
  simp only [loadMapped, holds, free, hit, passes, bad, Bool.not_true, Bool.false_eq_true, if_false, if_true]

end

/-- A load from its home, whose checks pass. -/
theorem loadsG_of_loadHome {i : Instr} {bs : List Byte} (runs : exec i s = loadHome d p pa va size signed v s)
    (read : readHome s (taskAgent s) va size = (s, .ok bs)) : LoadsG i s d (extend signed size (leNat bs)) (coreCycles s s.coreId 80) := by
  have runs' : exec i s = loadEnd d (extend signed size (leNat bs)) (loadLatency s (80 + keyWait s s.coreId p.keySlot)).1
      (modCore (fun k => setCache v (cachePut (cacheOf k v)
        { va := va / 64 * 64, data := BitVec.ofNat 512 (leNat (readLine s pa p.keySlot).bytes),
          side := if (readLine s pa p.keySlot).unwritten then none else some (readLine s pa p.keySlot).side }) k)
        (touchKey (loadLatency s (80 + keyWait s s.coreId p.keySlot)).2.coreId p.keySlot (loadLatency s (80 + keyWait s s.coreId p.keySlot)).2)) := by
    rw [runs, loadHome, read]
  exact loadsG_of_loadEnd runs' (loadLatency_le ..) ((sameStream_loadLatency ..).trans
    (sameStream_of_regs ((sameRegs_touchKey ..).trans (sameRegs_setCache ..)) (mem_touchKey ..)))

end

/-! ### Stores (R415, R129) -/

/-- The part of one line is the line's only part. -/
theorem spanLines_of_inside {va n : Nat} (some : 0 < n) (fits : va % 64 + n ≤ 64) : spanLines va n = [(va / 64 * 64, va, va + n)] := by
  have one : (va + n - 1) / 64 = va / 64 := by omega
  rw [spanLines, if_neg (by omega), one, Nat.sub_self, Nat.zero_add]
  simp only [List.range_one, List.map_cons, List.map_nil, Nat.add_zero]
  rw [Nat.max_eq_left (by omega), Nat.min_eq_left (by omega)]

theorem xlateSpan_of_inside {s : State} {w : BitVec 6} {va n : Nat} {write : Bool} {p : Pte} {pa : Nat} (some : 0 < n) (fits : va % 64 + n ≤ 64)
    (mapped : xlate s w va write false = .ok (p, pa)) : xlateSpan s w va n write = .ok [(va / 64 * 64, va, va + n, p, pa)] := by
  rw [xlateSpan, spanLines_of_inside some fits]
  simp only [List.foldr_cons, List.foldr_nil, mapped]

/-- A write within one line, whose checks pass, is the write of that line. -/
theorem writeHome_of_inside {s u : State} {ag : Agent} {va : Nat} {bytes : List Byte} {stamp : Option (BitVec 10 × BitVec 8)} {poison : Bool}
    {who : Option TaskRef} {p : Pte} {pa : Nat} (some : 0 < bytes.length) (fits : va % 64 + bytes.length ≤ 64) (mapped : xlate s ag.world va true false = .ok (p, pa))
    (ok : writeHome s ag va bytes stamp poison who = .ok u) : u = writeLine s pa (placedAt (va % 64) bytes 0) ag.world stamp poison p.keySlot who := by
  have place : (((bytes.drop (va - va)).take (va + bytes.length - va)).zipIdx.map fun q => (va - va / 64 * 64 + q.2, q.1)) = placedAt (va % 64) bytes 0 := by
    rw [Nat.sub_self, List.drop_zero, Nat.add_sub_cancel_left, List.take_length, show va - va / 64 * 64 = va % 64 by omega]
    rfl
  rw [writeHome, xlateSpan_of_inside some fits mapped] at ok
  dsimp only at ok
  split at ok
  · cases ok
  · split at ok
    · cases ok
    · rw [List.foldl_cons, List.foldl_nil, place] at ok
      exact (Except.ok.inj ok).symm

theorem getD_leBytes : ∀ (n x : Nat) {i : Nat}, i < n → (leBytes n x).getD i 0 = BitVec.ofNat 8 (x / 256 ^ i)
  | n + 1, x, 0, _ => by simp [leBytes]
  | n + 1, x, i + 1, lt => by
    rw [leBytes, List.getD_cons_succ, getD_leBytes n (x / 256) (by omega), Nat.div_div_eq_div_mul, ← Nat.pow_succ']

/-- A word of one, two, four or eight bytes at a multiple of its size lies in one line. -/
theorem aligned_fits {va : Nat} (z : BitVec 2) (aligned : va % 2 ^ z.toNat = 0) : va % 64 + 2 ^ z.toNat ≤ 64 := by
  have size : z.toNat = 0 ∨ z.toNat = 1 ∨ z.toNat = 2 ∨ z.toNat = 3 := by omega
  rcases size with h | h | h | h <;> rw [h] at aligned ⊢ <;> omega

section
variable {s u : State} {va size : Nat} {x : Dword} {p : Pte} {pa : Nat}

/-- The read cache after a store of its own core. -/
def storedCache (va : Nat) (bytes : List Byte) (side : Option Side) (k : Core) : Core :=
  { k with readCache := cacheStore k.readCache va (placedAt (va % 64) bytes 0) side }

theorem storeGlobal_of_ok (mapped : xlate s s.core.sys.world va true false = .ok (p, pa)) (holds : tlbHolds s.core s.core.sys.world va = true)
    (free : ownPending s.core pa = false) (goes : writeWaits s s.coreId pa = false)
    (ok : writeHome s (taskAgent s) va (leBytes size x.toNat) (some (coreStamp s s.coreId)) false s.core.task = .ok u) :
    storeGlobal va size x s =
      .next (sNext (modCore (storedCache va (leBytes size x.toNat) (assocGet u.side (lineOf pa))) (touchKey u.coreId p.keySlot u))) := by
  simp only [storeGlobal, mapped, holds, free, goes, Bool.not_true, Bool.false_eq_true, if_false, Bool.or_false, ok]
  rfl

end

/-- The writes of a line change nothing of the core. -/
theorem sameRegs_of_core {s u : State} (core : u.core = s.core) (clock : cyc u = cyc s) : SameRegs s u := by
  rw [SameRegs, core]
  exact ⟨rfl, rfl, rfl, rfl, rfl, clock⟩

theorem sameHomes_sNextAt (n : Nat) (s : State) : SameHomes s (sNextAt n s) := sameHomes_modCore ..

/-- What the bytes of a number are, once they stand at their home. -/
theorem holds_of_homes {s t : State} {a n v : Nat} (same : SameHomes s t) (bytes : ∀ i, i < n → byteAt s (a + i) = (leBytes n v).getD i 0) : Holds t a n v := by
  intro i lt
  rw [byteAt_of_homes same, bytes i lt, getD_leBytes _ _ lt]

/-! ### The words of format SM in space gl -/

section
variable {s : State} {d a : GReg} {z : BitVec 2} {off : BitVec 10} {p : Pte} {pa : Nat} (aligned : memAddr s a z off % 2 ^ z.toNat = 0)
include aligned

theorem exec_ldz_global (first : s.core.phase ≠ 3) (mapped : xlate s s.core.sys.world (memAddr s a z off) false false = .ok (p, pa)) :
    exec (.ldz ⟨d, a, z, 1, off⟩) s = loadMapped d p pa (memAddr s a z off) (2 ^ z.toNat) false .readCache s := by
  show loadForm ⟨d, a, z, 1, off⟩ false s = _
  rw [loadForm, if_neg (not_not_intro aligned)]
  exact loadGlobal_of_mapped first mapped

theorem exec_ldnc_global (first : s.core.phase ≠ 3) (mapped : xlate s s.core.sys.world (memAddr s a z off) false false = .ok (p, pa)) :
    exec (.ldnc ⟨d, a, z, off⟩) s = loadMapped d p pa (memAddr s a z off) (2 ^ z.toNat) true .bypass s := by
  show execLdnc ⟨d, a, z, off⟩ s = _
  rw [execLdnc, if_neg (not_not_intro aligned)]
  exact loadGlobal_of_mapped first mapped

theorem exec_st_global :
    exec (.st ⟨d, a, z, 1, off⟩) s = storeGlobal (memAddr s a z off) (2 ^ z.toNat) (readG s d) s := by
  show execSt ⟨d, a, z, 1, off⟩ s = _
  rw [execSt, if_neg (show ¬ (1 : BitVec 2) = 3 by decide), if_neg (not_not_intro aligned)]
  rfl

/-- A store whose checks pass. -/
theorem st_writes {u : State} (mapped : xlate s s.core.sys.world (memAddr s a z off) true false = .ok (p, pa))
    (holds : tlbHolds s.core s.core.sys.world (memAddr s a z off) = true) (free : ownPending s.core pa = false) (goes : writeWaits s s.coreId pa = false)
    (ok : writeHome s (taskAgent s) (memAddr s a z off) (leBytes (2 ^ z.toNat) (readG s d).toNat) (some (coreStamp s s.coreId)) false s.core.task = .ok u)
    (still : ∀ m ∈ s.migrations, m.src ≠ pageOf (lineOf pa)) :
    ∃ t, exec (.st ⟨d, a, z, 1, off⟩) s = .next t ∧ Retires 1 s t ∧ Holds t (lineOf pa + memAddr s a z off % 64) (2 ^ z.toNat) (readG s d).toNat
      ∧ WritesInLine (lineOf pa + memAddr s a z off % 64) (2 ^ z.toNat) p.keySlot s.core.task s t ∧ t.core.g = s.core.g ∧ t.core.flags = s.core.flags
      ∧ t.core.sys = s.core.sys ∧ t.side = u.side := by
  have runs := (exec_st_global aligned).trans (storeGlobal_of_ok mapped holds free goes ok)
  have length : (leBytes (2 ^ z.toNat) (readG s d).toNat).length = 2 ^ z.toNat := length_leBytes ..
  have inside := aligned_fits z aligned
  have fits : memAddr s a z off % 64 + (leBytes (2 ^ z.toNat) (readG s d).toNat).length ≤ 64 := by rw [length]; exact inside
  have written := writeHome_of_inside (by rw [length]; exact Nat.two_pow_pos _) fits mapped ok
  have homes : SameHomes u (sNext (modCore (storedCache (memAddr s a z off) (leBytes (2 ^ z.toNat) (readG s d).toNat) (assocGet u.side (lineOf pa)))
      (touchKey u.coreId p.keySlot u))) := (sameHomes_touchKey ..).trans ((sameHomes_modCore ..).trans (sameHomes_sNextAt ..))
  have regs : SameRegs s (modCore (storedCache (memAddr s a z off) (leBytes (2 ^ z.toNat) (readG s d).toNat) (assocGet u.side (lineOf pa)))
      (touchKey u.coreId p.keySlot u)) := by
    refine (sameRegs_of_core ?_ ?_).trans ((sameRegs_touchKey u u.coreId p.keySlot).trans ⟨rfl, rfl, rfl, rfl, rfl, rfl⟩)
    · rw [written, core_writeLine]
    · rw [written, cyc_writeLine]
  have writes : WritesInLine (lineOf pa + memAddr s a z off % 64) (leBytes (2 ^ z.toNat) (readG s d).toNat).length p.keySlot s.core.task s u := by
    rw [written]
    exact writesInLine_writeLine still fits (Nat.mod_lt _ (by decide))
  rw [length] at writes
  have ⟨g, flags, sys, _, _, _⟩ := regs
  refine ⟨_, runs, regs.retires 1, holds_of_homes homes fun i lt => ?_, writes.of_homes rfl homes, ?_, ?_, ?_, ?_⟩
  · rw [written]
    exact byteAt_writeLine still fits (by rwa [length])
  · rw [sNext_eq_sNextAt, sNextAt_core_g, g]
  · rw [sNext_eq_sNextAt, sNextAt_core_flags, flags]
  · rw [sNext_eq_sNextAt, sNextAt_core_sys, sys]
  · rw [homes]

end

end Sys2Proof.Machine

namespace Sys2Proof.Proofs

open Sys2Proof.Machine

/-- Settles O27: a load ends at the home or at the cached copy, and a store is the write of one line, which changes no other byte but the entry of a
checkpoint's log. -/
theorem globalLoadsAndStores : Obligations.GlobalLoadsAndStores := by
  unfold Obligations.GlobalLoadsAndStores
  refine ⟨fun s d a z off p pa first aligned mapped holds free => ?loads,
    fun s u d a z off p pa aligned mapped holds free goes ok still => st_writes aligned mapped holds free goes ok still⟩
  case loads =>
    have ldz := exec_ldz_global (d := d) aligned first mapped
    refine ⟨fun bs near goes read => ⟨fun miss => ?_, ?_⟩, fun c hit passes => ⟨fun clean => ?_, fun bad => ?_⟩⟩
    · exact loadsG_of_loadHome (ldz.trans (loadMapped_of_miss (v := .readCache) holds free miss goes near)) read
    · exact loadsG_of_loadHome ((exec_ldnc_global aligned first mapped).trans (loadMapped_of_miss (v := .bypass) holds free rfl goes near)) read
    · exact loadsG_of_loadEnd (ldz.trans (loadMapped_of_hit (v := .readCache) holds free hit passes clean)) (Nat.le_refl 6)
        (sameStream_of_regs (sameRegs_setCache ..) rfl)
    · exact ldz.trans (loadMapped_of_poisoned (v := .readCache) holds free hit passes bad)

end Sys2Proof.Proofs

namespace Sys2Proof.Machine

/-! ### Atomics at the home of their line (15_isa_memory R417, R418) -/

/-- A change of the core in focus alone, which leaves its registers and the place of its S stream. -/
def OnlyFocus (s u : State) : Prop := u = { s with core := u.core } ∧ SameRegs s u ∧ u.core.task = s.core.task

theorem OnlyFocus.refl (s : State) : OnlyFocus s s := ⟨rfl, ⟨rfl, rfl, rfl, rfl, rfl, rfl⟩, rfl⟩

theorem OnlyFocus.trans {s t u : State} (first : OnlyFocus s t) (second : OnlyFocus t u) : OnlyFocus s u := by
  obtain ⟨core, regs, task⟩ := first
  obtain ⟨core', regs', task'⟩ := second
  exact ⟨by rw [core', core], regs.trans regs', task'.trans task⟩

theorem OnlyFocus.homes {s u : State} (only : OnlyFocus s u) : SameHomes s u := by rw [SameHomes, only.1]

section
variable (s : State) (a : AtomOp) (e : Side)

theorem onlyFocus_modCore {f : Core → Core} (keeps : (f s.core).g = s.core.g ∧ (f s.core).flags = s.core.flags ∧ (f s.core).sys = s.core.sys
    ∧ (f s.core).pc = s.core.pc ∧ (f s.core).xfer = s.core.xfer ∧ (f s.core).task = s.core.task) : OnlyFocus s (modCore f s) := by
  obtain ⟨g, flags, sys, pc, xfer, task⟩ := keeps
  exact ⟨rfl, ⟨g, flags, sys, pc, xfer, rfl⟩, task⟩

theorem onlyFocus_atomAcquire : OnlyFocus s (atomAcquire s a e) := by
  have race (r : Race) : OnlyFocus s (modCore (fun k => { k with race := r }) s) := onlyFocus_modCore s ⟨rfl, rfl, rfl, rfl, rfl, rfl⟩
  unfold atomAcquire
  dsimp only
  split
  · obtain ⟨r, eq⟩ := acquireInto_focus s (acquireFrom s s.coreId a.scope e)
    rw [eq]
    exact race r
  · split
    · exact race _
    · exact .refl s

/-- The state in which an atomic writes: after its acquire, and at its release point where it has one. -/
def atomReady (rel : Bool) : State :=
  let s1 := atomAcquire s a e
  if rel then modCore (fun k => { k with relArmed := false }) (releasePoint s1 s.coreId a.scope .releaseWrite (releaseMore s1 e)) else s1

theorem onlyFocus_atomReady (rel : Bool) : OnlyFocus s (atomReady s a e rel) := by
  have acquired := onlyFocus_atomAcquire s a e
  have focus : (atomAcquire s a e).coreId = s.coreId := by rw [acquired.1]
  unfold atomReady
  dsimp only
  split
  · obtain ⟨r, eq⟩ := releasePoint_focus (atomAcquire s a e) a.scope .releaseWrite (releaseMore (atomAcquire s a e) e)
    rw [focus] at eq
    rw [eq]
    exact acquired.trans ((onlyFocus_modCore _ ⟨rfl, rfl, rfl, rfl, rfl, rfl⟩).trans (onlyFocus_modCore _ ⟨rfl, rfl, rfl, rfl, rfl, rfl⟩))
  · exact acquired

theorem onlyFocus_markFence : OnlyFocus s (markFence s) := by
  unfold markFence
  split
  · exact onlyFocus_modCore s ⟨rfl, rfl, rfl, rfl, rfl, rfl⟩
  · exact .refl s

end

section
variable (a : AtomOp) (p : Pte) (pa va : Nat) (s : State)

/-- The word that an atomic reads. -/
def atomOld : Nat := leNat (((lineAt s pa p.keySlot).bytes.drop (va % 64)).take a.size)

/-- The word that it writes; none where it writes none. -/
def atomNew : Option Nat := atomResult a.op a.size (atomOld a p pa va s) (a.x.toNat % 2 ^ (8 * a.size)) (a.y.toNat % 2 ^ (8 * a.size))

/-- The stamp of its write: that of its release point, where it has one. -/
def atomStamp (rel : Bool) (z : State) : Option (BitVec 10 × BitVec 8) := if rel then some (coreStamp z s.coreId) else none

/-- It makes a release point. -/
def atomReleases : Bool := (atomNew a p pa va s).isSome && (isRelease a.order || s.core.relArmed)

/-- The state after its write. -/
def atomWritten : State :=
  let z := atomReady s a (lineAt s pa p.keySlot).side (atomReleases a p pa va s)
  match atomNew a p pa va s with
  | some v => writeLine z pa (placedAt (va % 64) (leBytes a.size v) 0) s.core.sys.world (atomStamp s (atomReleases a p pa va s) z) false p.keySlot s.core.task
  | none => z

/-- The bytes of its write, each with its place in the line. -/
def atomBytes : List (Nat × Byte) :=
  match atomNew a p pa va s with
  | some v => placedAt (va % 64) (leBytes a.size v) 0
  | none => []

/-- The state with its write in a cached copy too. -/
def atomCached : State :=
  let z := atomWritten a p pa va s
  let upd := atomBytes a p pa va s
  if upd.isEmpty then z else modCore (fun k => { k with readCache := cacheStore k.readCache va upd (assocGet z.side (lineOf pa)) }) z

theorem atomHome_of_checked (reads : worldReads s s.core.sys.world p (lineAt s pa p.keySlot) = true)
    (writes : worldWrites s s.core.sys.world p (lineAt s pa p.keySlot) = true) (clean : (lineAt s pa p.keySlot).poison = false) :
    atomHome a p pa va s =
      (let z := atomCached a p pa va s
       let n := loadLatency z (200 + keyWait s s.coreId p.keySlot)
       loadEnd a.d (BitVec.ofNat 64 (atomOld a p pa va s)) n.1 (touchKey s.coreId p.keySlot n.2)) := by
  have new : atomResult a.op a.size (leNat (((lineAt s pa p.keySlot).bytes.drop (va % 64)).take a.size)) (a.x.toNat % 2 ^ (8 * a.size))
      (a.y.toNat % 2 ^ (8 * a.size)) = atomNew a p pa va s := rfl
  unfold atomHome
  dsimp only
  rw [reads, writes, clean, new, atomCached, atomBytes, atomWritten, atomReleases]
  simp only [Bool.not_true, Bool.or_self, Bool.false_eq_true, if_false]
  cases atomNew a p pa va s with
  | none => rfl
  | some v => rfl

theorem sameRegs_loadLatency (base : Nat) : SameRegs s (loadLatency s base).2 := ⟨rfl, rfl, rfl, rfl, rfl, rfl⟩

theorem atomCached_leaves : SameHomes (atomWritten a p pa va s) (atomCached a p pa va s) ∧ SameRegs (atomWritten a p pa va s) (atomCached a p pa va s) := by
  unfold atomCached
  dsimp only
  split
  · exact ⟨rfl, rfl, rfl, rfl, rfl, rfl, rfl⟩
  · exact ⟨rfl, rfl, rfl, rfl, rfl, rfl, rfl⟩

/-- What the write of an atomic leaves. -/
theorem atomWritten_leaves (fits : va % 64 + a.size ≤ 64) (inside : va % 64 < 64) (still : ∀ m ∈ s.migrations, m.src ≠ pageOf (lineOf pa)) :
    SameRegs s (atomWritten a p pa va s) ∧ (∀ n, coreCycles (atomWritten a p pa va s) (atomWritten a p pa va s).coreId n = coreCycles s s.coreId n)
      ∧ (∀ v, atomNew a p pa va s = some v →
        (∀ i, i < a.size → byteAt (atomWritten a p pa va s) (lineOf pa + va % 64 + i) = (leBytes a.size v).getD i 0)
        ∧ WritesInLine (lineOf pa + va % 64) a.size p.keySlot s.core.task s (atomWritten a p pa va s))
      ∧ (atomNew a p pa va s = none → (atomWritten a p pa va s).mem = s.mem) := by
  have ready : OnlyFocus s (atomReady s a (lineAt s pa p.keySlot).side (atomReleases a p pa va s)) := onlyFocus_atomReady ..
  unfold atomWritten
  dsimp only
  generalize atomReady s a (lineAt s pa p.keySlot).side (atomReleases a p pa va s) = z at ready ⊢
  generalize atomStamp s (atomReleases a p pa va s) z = stamp
  cases new : atomNew a p pa va s with
  | none => exact ⟨ready.2.1, fun n => by rw [ready.1]; rfl, nofun, fun _ => by rw [ready.1]⟩
  | some v =>
    have length : (leBytes a.size v).length = a.size := length_leBytes ..
    have still' : ∀ m ∈ z.migrations, m.src ≠ pageOf (lineOf pa) := by rw [ready.1]; exact still
    have fits' : va % 64 + (leBytes a.size v).length ≤ 64 := by rwa [length]
    have writes := writesInLine_writeLine (w := s.core.sys.world) (stamp := stamp) (poison := false) (slot := p.keySlot) (who := s.core.task) still' fits' inside
    rw [length] at writes
    dsimp only
    refine ⟨ready.2.1.trans (sameRegs_of_core (core_writeLine ..) (cyc_writeLine ..)), fun n => ?_, fun w eq => ?_, nofun⟩
    · rw [onlyMemory_writeLine still', ready.1]
      rfl
    · obtain rfl := Option.some.inj eq
      exact ⟨fun i lt => byteAt_writeLine still' fits' (by rwa [length]), writes.of_homes ready.homes rfl⟩

/-- What an atomic whose checks pass leaves. -/
theorem atomHome_leaves (fits : va % 64 + a.size ≤ 64) (still : ∀ m ∈ s.migrations, m.src ≠ pageOf (lineOf pa))
    (reads : worldReads s s.core.sys.world p (lineAt s pa p.keySlot) = true)
    (writes : worldWrites s s.core.sys.world p (lineAt s pa p.keySlot) = true) (clean : (lineAt s pa p.keySlot).poison = false) :
    ∃ u n, atomHome a p pa va s = loadEnd a.d (BitVec.ofNat 64 (atomOld a p pa va s)) n u ∧ coreCycles s s.coreId 200 ≤ n ∧ SameRegs s u
      ∧ (∀ v, atomNew a p pa va s = some v → Holds u (lineOf pa + va % 64) a.size v ∧ WritesInLine (lineOf pa + va % 64) a.size p.keySlot s.core.task s u)
      ∧ (atomNew a p pa va s = none → u.mem = s.mem) := by
  obtain ⟨regs, cycles, written, unwritten⟩ := atomWritten_leaves a p pa va s fits (Nat.mod_lt _ (by decide)) still
  obtain ⟨homes, regs'⟩ := atomCached_leaves a p pa va s
  have latency : SameHomes (atomCached a p pa va s) (loadLatency (atomCached a p pa va s) (200 + keyWait s s.coreId p.keySlot)).2 := rfl
  have homes' := homes.trans (latency.trans (sameHomes_touchKey _ s.coreId p.keySlot))
  have focus : (atomCached a p pa va s).coreId = (atomWritten a p pa va s).coreId := by rw [homes]
  refine ⟨_, _, atomHome_of_checked a p pa va s reads writes clean, ?_, ?_, fun v new => ?_, fun new => ?_⟩
  · have le := loadLatency_le (atomCached a p pa va s) 200 (keyWait s s.coreId p.keySlot)
    rwa [coreCycles_of_homes homes, focus, cycles] at le
  · exact regs.trans (regs'.trans (SameRegs.trans (sameRegs_loadLatency ..) (sameRegs_touchKey ..)))
  · obtain ⟨bytes, line⟩ := written v new
    exact ⟨holds_of_homes homes' bytes, line.of_homes rfl homes'⟩
  · rw [homes', unwritten new]

end

theorem sameHomes_writeG (d : GReg) (x : Dword) (n : Nat) (s : State) : SameHomes s (writeG d x n s) := by
  unfold writeG
  split
  · rfl
  · rfl

/-! ### The start of an atomic on a word of space gl -/

section
variable {s : State} {a : AtomOp} {va : Nat} {p : Pte} {pa : Nat}

/-- With no access still to be performed, an atomic that releases need not wait: it goes to the home in a state that has its mark at most. -/
theorem atomGlobal_home (first : s.core.phase ≠ 3) (loads : s.core.loads = []) (stores : s.core.stores = []) (timed : s.core.timed = [])
    (mapped : xlate s s.core.sys.world va false false = .ok (p, pa)) (writable : xlate s s.core.sys.world va true false = .ok (p, pa))
    (holds : tlbHolds s.core s.core.sys.world va = true) (near : isRemote s pa = false) (goes : writeWaits s s.coreId pa = false) :
    ∃ z, atomGlobal a va s = atomHome a p pa va z ∧ OnlyFocus s z := by
  have idle : ¬ waiting s = true := fun w => first (of_decide_eq_true w)
  have marked : ∃ z, (if isRelease a.order && (a.scope ≠ 0 || isRemote s pa : Bool) then markFence s else s) = z ∧ OnlyFocus s z
      ∧ (isRelease a.order && (a.scope ≠ 0 || isRemote s pa : Bool) && !drained z.core true true) = false ∧ ownPending z.core pa = false := by
    have none (k : Core) (w : k.stores = []) (t : k.timed = []) : ownPending k pa = false := by simp [ownPending, ownTimedAt, w, t]
    refine ⟨_, rfl, ?_⟩
    cases release : (isRelease a.order && (a.scope ≠ 0 || isRemote s pa : Bool)) with
    | false => exact ⟨.refl s, rfl, none _ stores timed⟩
    | true =>
      have kept : (markFence s).core.stores = s.core.stores ∧ (markFence s).core.timed = s.core.timed := by
        unfold markFence
        split <;> exact ⟨rfl, rfl⟩
      exact ⟨onlyFocus_markFence s, by rw [if_pos rfl, drained_markFence loads stores timed]; rfl, none _ (kept.1.trans stores) (kept.2.trans timed)⟩
  obtain ⟨z, isZ, only, drains, free⟩ := marked
  have near' : isRemote z pa = false := by rw [only.1]; exact near
  have goes' : writeWaits z z.coreId pa = false := by rw [only.1]; exact goes
  refine ⟨z, ?_, only⟩
  rw [atomGlobal, if_neg idle, mapped]
  dsimp only
  rw [isZ, writable]
  simp only [near, near', goes', holds, free, Except.toOption, Option.isSome_some, Bool.not_true, Bool.false_eq_true, if_false, Bool.or_self]

  rw [near] at drains
  exact if_neg (Bool.eq_false_iff.mp drains)

theorem atomForm_global {addr : GReg} (is : va = (readG s addr).toNat) (aligned : va % a.size = 0) (high : 0x100000 ≤ va) :
    atomForm a addr s = atomGlobal a va s := by
  subst is
  rw [atomForm, if_neg (not_not_intro aligned), if_neg (Nat.not_lt.mpr high)]

/-- An atomic on a word of space gl whose checks pass. -/
theorem atom_completes {i : Instr} {addr : GReg} (runs : exec i s = atomForm a addr s) (is : va = (readG s addr).toNat) (word : a.size = 4 ∨ a.size = 8)
    (aligned : va % a.size = 0) (high : 0x100000 ≤ va) (first : s.core.phase ≠ 3) (loads : s.core.loads = []) (stores : s.core.stores = [])
    (timed : s.core.timed = []) (mapped : xlate s s.core.sys.world va false false = .ok (p, pa))
    (writable : xlate s s.core.sys.world va true false = .ok (p, pa)) (holds : tlbHolds s.core s.core.sys.world va = true) (near : isRemote s pa = false)
    (goes : writeWaits s s.coreId pa = false) (still : ∀ m ∈ s.migrations, m.src ≠ pageOf (lineOf pa))
    (reads : worldReads s s.core.sys.world p (lineAt s pa p.keySlot) = true) (writes : worldWrites s s.core.sys.world p (lineAt s pa p.keySlot) = true)
    (clean : (lineAt s pa p.keySlot).poison = false) :
    ∃ t n, exec i s = .next t ∧ coreCycles s s.coreId 200 ≤ n ∧ readG t a.d = (if a.d = 0 then 0 else BitVec.ofNat 64 (atomOld a p pa va s))
      ∧ (∀ r, r ≠ a.d → readG t r = readG s r) ∧ Retires n s t ∧ t.core.flags = s.core.flags
      ∧ (∀ v, atomNew a p pa va s = some v → Holds t (lineOf pa + va % 64) a.size v ∧ WritesInLine (lineOf pa + va % 64) a.size p.keySlot s.core.task s t)
      ∧ (atomNew a p pa va s = none → SameMemory s t) := by
  obtain ⟨z, goesHome, only⟩ := atomGlobal_home (a := a) first loads stores timed mapped writable holds near goes
  have fits : va % 64 + a.size ≤ 64 := by rcases word with h | h <;> rw [h] at aligned ⊢ <;> omega
  have line : lineAt z pa p.keySlot = lineAt s pa p.keySlot := lineAt_of_homes only.homes ..
  obtain ⟨core, regs, task⟩ := only
  have ⟨_, _, sys, _, _, _⟩ := regs
  have old : atomOld a p pa va z = atomOld a p pa va s := by rw [atomOld, atomOld, line]
  have new : atomNew a p pa va z = atomNew a p pa va s := by rw [atomNew, atomNew, old]
  have reads' : worldReads z z.core.sys.world p (lineAt z pa p.keySlot) = true := by rw [line, sys, core]; exact reads
  have writes' : worldWrites z z.core.sys.world p (lineAt z pa p.keySlot) = true := by rw [line, sys, core]; exact writes
  obtain ⟨u, n, home, cycles, regs', written, unwritten⟩ := atomHome_leaves a p pa va z fits (by rw [core]; exact still) reads' writes' (by rw [line]; exact clean)
  have all := regs.trans regs'
  have ⟨g, flags, _, pc, xfer, clock⟩ := all
  have homes : SameHomes u (sNextAt n (writeG a.d (BitVec.ofNat 64 (atomOld a p pa va z)) n u)) := (sameHomes_writeG ..).trans (sameHomes_sNextAt ..)
  have start : SameHomes s z := by rw [SameHomes, core]
  refine ⟨_, n, (runs.trans (atomForm_global is aligned high)).trans (goesHome.trans home), ?_, ?_, fun r ne => ?_, retires_sNextAt_of_same n ?_ ?_ ?_, ?_,
    fun v eq => ?_, fun eq => ?_⟩
  · rwa [coreCycles_of_homes start, show z.coreId = s.coreId by rw [core]] at cycles
  · rw [readG_sNextAt, readG_writeG_self, old]
  · rw [readG_sNextAt, readG_writeG_ne ne, readG_of_g g]
  · rw [writeG_core_xfer, xfer]
  · rw [writeG_core_pc, pc]
  · rw [cyc_writeG, clock]
  · rw [sNextAt_core_flags, writeG_core_flags, flags]
  · obtain ⟨bytes, line⟩ := written v (new.trans eq)
    rw [task] at line
    exact ⟨fun i lt => (byteAt_of_homes homes _).trans (bytes i lt), line.of_homes start homes⟩
  · refine sameMemory_of_mem ?_
    rw [sNextAt_mem, writeG_mem, unwritten (new.trans eq), core]

end

/-! ### The operations of ATOM (R417) -/

/-- The signed minimum and maximum of two words. -/
theorem atomResult_signed {size old x : Nat} (oldLt : old < 2 ^ (8 * size)) (xLt : x < 2 ^ (8 * size)) :
    (∃ v, atomResult 1 size old x 0 = Option.some v ∧ sNat (8 * size) v = min (sNat (8 * size) old) (sNat (8 * size) x) ∧ v < 2 ^ (8 * size))
    ∧ (∃ v, atomResult 2 size old x 0 = Option.some v ∧ sNat (8 * size) v = max (sNat (8 * size) old) (sNat (8 * size) x) ∧ v < 2 ^ (8 * size)) := by
  by_cases le : sNat (8 * size) old ≤ sNat (8 * size) x
  · exact ⟨⟨old, congrArg Option.some (if_pos le), (min_eq_left le).symm, oldLt⟩, ⟨x, congrArg Option.some (if_pos le), (max_eq_right le).symm, xLt⟩⟩
  · have ge := le_of_not_ge le
    exact ⟨⟨x, congrArg Option.some (if_neg le), (min_eq_right ge).symm, xLt⟩, ⟨old, congrArg Option.some (if_neg le), (max_eq_left ge).symm, oldLt⟩⟩

end Sys2Proof.Machine

namespace Sys2Proof.Proofs

open Sys2Proof.Machine

/-- Settles O28: both words are one atomic form, which reads, computes and writes at the home of its line; the operations are those of `atomResult`. -/
theorem atomics : Obligations.Atomics := by
  unfold Obligations.Atomics
  refine ⟨?_, fun size old x word oldLt xLt => ?operations⟩
  · intro s o q p pa addr d size va i new form is aligned high first loads stores timed mapped writable holds near goes still l reads writes clean
    have word (z : BitVec 1) : 4 * (z.toNat + 1) = 4 ∨ 4 * (z.toNat + 1) = 8 := by omega
    rcases form with ⟨rfl, -, rfl, rfl, rfl, rfl⟩ | ⟨rfl, rfl, rfl, rfl, rfl⟩
    · exact atom_completes (i := .atom o) (a := { d := o.d, size := 4 * (o.z.toNat + 1), op := o.o.toNat, x := readG s o.d, y := 0, order := o.r.toNat, scope := o.s.toNat })
        rfl is (word o.z) aligned high first loads stores timed mapped writable holds near goes still reads writes clean
    · exact atom_completes (i := .acas q) (a := { d := q.d, size := 4 * (q.z.toNat + 1), op := 9, x := readG s q.b, y := readG s q.d, order := q.r.toNat, scope := q.s.toNat })
        rfl is (word q.z) aligned high first loads stores timed mapped writable holds near goes still reads writes clean
  case operations =>
    obtain ⟨⟨v, least, isMin, vLt⟩, ⟨u, most, isMax, uLt⟩⟩ := atomResult_signed oldLt xLt
    rw [sNat_of_lt vLt, sNat_of_lt oldLt, sNat_of_lt xLt] at isMin
    rw [sNat_of_lt uLt, sNat_of_lt oldLt, sNat_of_lt xLt] at isMax
    exact ⟨rfl, ⟨v, least, isMin⟩, ⟨u, most, isMax⟩, rfl, rfl, rfl, rfl, rfl, rfl⟩

end Sys2Proof.Proofs

namespace Sys2Proof.Machine

/-! ### Aggregated adds (07_serving_structures R232, 15_isa_memory R419) -/

section
variable (s : State) (va : Dword) (addr : Nat) (counter : Bool) (o : RAgg)

/-- The core's part in an aggregated add. -/
def aggPart : Participant := { core := s.coreId, dest := o.d, addend := readG s o.d, acquire := decide (o.r = 1), scope := o.s.toNat }

/-- An open window of the target of an AAGG. -/
def isOpenWindow (w : Window) : Bool :=
  w.cluster = clusterOf s.coreId && w.addr = addr && w.isCounter = counter && w.size = 4 * (o.z.toNat + 1) && cyc s < w.close

theorem joinWindow_eq : joinWindow va addr counter o s =
    if s.windows.any (isOpenWindow s addr counter o) then
      { s with windows := s.windows.map fun w => if isOpenWindow s addr counter o w then { w with parts := w.parts ++ [aggPart s o] } else w }
    else
      { s with windows := s.windows ++
        [{ cluster := clusterOf s.coreId, addr := addr, va := va, isCounter := counter, size := 4 * (o.z.toNat + 1), close := cyc s + 16, parts := [aggPart s o] }] } :=
  rfl

/-- The part stands in an open window of the target, a new one of 16 cycles where there was none. -/
theorem joinWindow_joins : ∃ w ∈ (joinWindow va addr counter o s).windows, w.cluster = clusterOf s.coreId ∧ w.addr = addr ∧ w.isCounter = counter
    ∧ aggPart s o ∈ w.parts ∧ cyc s < w.close
    ∧ ((∀ x ∈ s.windows, isOpenWindow s addr counter o x = false) → w.close = cyc s + 16 ∧ w.parts = [aggPart s o]) := by
  rw [joinWindow_eq]
  by_cases joins : s.windows.any (isOpenWindow s addr counter o) = true
  · rw [if_pos joins]
    obtain ⟨x, mem, isIt⟩ := List.any_eq_true.mp joins
    refine ⟨_, List.mem_map_of_mem mem, ?_⟩
    rw [if_pos isIt]
    have fields := isIt
    simp only [isOpenWindow, Bool.and_eq_true, decide_eq_true_eq] at fields
    obtain ⟨⟨⟨⟨cluster, at_⟩, kind⟩, -⟩, close⟩ := fields
    exact ⟨cluster, at_, kind, List.mem_append_right _ (List.mem_singleton_self _), close,
      fun none => absurd isIt (Bool.eq_false_iff.mp (none x mem))⟩
  · rw [if_neg joins]
    exact ⟨_, List.mem_append_right _ (List.mem_singleton_self _), rfl, rfl, rfl, List.mem_singleton_self _, Nat.lt_add_of_pos_right (by decide), fun _ => ⟨rfl, rfl⟩⟩

theorem joinWindow_keeps : (joinWindow va addr counter o s).core = s.core ∧ (joinWindow va addr counter o s).mem = s.mem := by
  rw [joinWindow_eq]
  split
  · exact ⟨rfl, rfl⟩
  · exact ⟨rfl, rfl⟩

end

section
variable {s : State} {o : RAgg}

/-- The state in which a core waits for the close of its window. -/
theorem aagg_leaves {i : Instr} {va : Dword} {addr : Nat} {counter b : Bool} {z : State} (runs : exec i s = .next (sAwaitAcquire b (joinWindow va addr counter o z)))
    (pc : z.core.pc = s.core.pc) (g : z.core.g = s.core.g) (mem : z.mem = s.mem) :
    ∃ t, exec i s = .next t ∧ t.core.phase = 3 ∧ t.core.pc = s.core.pc ∧ t.core.g = s.core.g ∧ t.windows = (joinWindow va addr counter o z).windows
      ∧ SameMemory s t := by
  obtain ⟨core, memory⟩ := joinWindow_keeps z va addr counter o
  refine ⟨_, runs, rfl, ?_, ?_, rfl, sameMemory_of_mem (memory.trans mem)⟩
  · rw [← pc, ← core]
    rfl
  · rw [← g, ← core]
    rfl

theorem exec_aagg_counter (first : s.core.phase ≠ 3) (z : o.z = 0) (aligned : (readG s o.a).toNat % 4 = 0) (low : 0x81000 ≤ (readG s o.a).toNat)
    (high : (readG s o.a).toNat < 0x81400) (ok : bankOk s = true) :
    exec (.aagg o) s = .next (sAwaitAcquire (o.r = 1) (joinWindow (readG s o.a) (readG s o.a).toNat true o (takeBank s))) := by
  have idle : ¬ waiting s = true := fun w => first (of_decide_eq_true w)
  have size : 4 * (o.z.toNat + 1) = 4 := by rw [z]; rfl
  show execAagg o s = _
  rw [execAagg, if_neg idle]
  dsimp only
  rw [size, if_neg (not_not_intro aligned), if_pos (by omega), if_pos (localPart_counters low high), ok]
  rfl

theorem exec_aagg_global {p : Pte} {pa : Nat} (first : s.core.phase ≠ 3) (aligned : (readG s o.a).toNat % (4 * (o.z.toNat + 1)) = 0)
    (high : 0x100000 ≤ (readG s o.a).toNat) (mapped : xlate s s.core.sys.world (readG s o.a).toNat false false = .ok (p, pa)) (near : isRemote s pa = false)
    (writable : xlate s s.core.sys.world (readG s o.a).toNat true false = .ok (p, pa)) (holds : tlbHolds s.core s.core.sys.world (readG s o.a).toNat = true)
    (free : ownPending s.core pa = false) (goes : switching s pa = false) (reads : worldReads s s.core.sys.world p (lineAt s pa p.keySlot) = true)
    (writes : worldWrites s s.core.sys.world p (lineAt s pa p.keySlot) = true) (clean : (lineAt s pa p.keySlot).poison = false) :
    exec (.aagg o) s = .next (sAwaitAcquire (o.r = 1) (joinWindow (readG s o.a) pa false o s)) := by
  have idle : ¬ waiting s = true := fun w => first (of_decide_eq_true w)
  show execAagg o s = _
  rw [execAagg, if_neg idle]
  dsimp only
  rw [if_neg (not_not_intro aligned), if_neg (Nat.not_lt.mpr high), mapped]
  simp only [near, writable, holds, free, goes, reads, writes, clean, Except.toOption, Option.isSome_some, Bool.not_true, Bool.false_eq_true, if_false,
    Bool.or_self]

end

/-! ### RCSNAP (R420) -/

/-- Nothing but memory, its sidebands, the logs of checkpoints and the bitmaps of migrations. -/
def OnlyWrites (s t : State) : Prop :=
  t = { s with mem := t.mem, side := t.side, ckpts := t.ckpts, logOrdinals := t.logOrdinals, migrations := t.migrations }

theorem OnlyWrites.trans {s t u : State} (first : OnlyWrites s t) (second : OnlyWrites t u) : OnlyWrites s u := by
  rw [OnlyWrites] at *
  rw [second, first]

theorem OnlyMemory.writes {s t : State} (only : OnlyMemory s t) : OnlyWrites s t := by
  rw [OnlyWrites, only]

theorem onlyWrites_writeLine (s : State) (pa : Nat) (bs : List (Nat × Byte)) (w : BitVec 6) (stamp : Option (BitVec 10 × BitVec 8)) (poison : Bool)
    (slot : BitVec 12) (who : Option TaskRef) : OnlyWrites s (writeLine s pa bs w stamp poison slot who) := by
  have put : OnlyWrites s (putLine (ckptLog s who (lineOf pa)) (lineOf pa) bs w stamp poison slot) :=
    ((ckptLog_keeps s who (lineOf pa)).1.trans (onlyMemory_putLine ..)).writes
  unfold writeLine
  dsimp only
  split
  · exact put
  · split
    · exact put.trans rfl
    · exact put.trans rfl

theorem onlyWrites_foldl {α : Type} {f : State → α → State} (is : ∀ s x, OnlyWrites s (f s x)) : ∀ (l : List α) (s : State), OnlyWrites s (l.foldl f s)
  | [], _ => rfl
  | x :: xs, s => (is s x).trans (onlyWrites_foldl is xs (f s x))

/-- Bytes written at their homes change nothing else. -/
theorem onlyWrites_writeHome {s u : State} {ag : Agent} {va : Nat} {bytes : List Byte} {stamp : Option (BitVec 10 × BitVec 8)} {poison : Bool}
    {who : Option TaskRef} (ok : writeHome s ag va bytes stamp poison who = .ok u) : OnlyWrites s u := by
  unfold writeHome at ok
  split at ok
  · cases ok
  · split at ok
    · cases ok
    · split at ok
      · cases ok
      · cases ok
        exact onlyWrites_foldl (fun s x => onlyWrites_writeLine ..) _ s

/-- The counters of a bank that RCSNAP cleared. -/
def snapped (first cnt : Nat) (u : State) : State :=
  let k := getCluster u (clusterOf u.coreId)
  putCluster u { k with counters := k.counters.filter fun c => c.1 < first || first + cnt ≤ c.1, world := if cnt = 256 then none else k.world }

theorem counterGet_snapped (first cnt : Nat) (u : State) (i : Nat) :
    counterGet (snapped first cnt u) i = if i < first ∨ first + cnt ≤ i then counterGet u i else 0 := by
  have bank : (getCluster (snapped first cnt u) (clusterOf u.coreId)).counters =
      (getCluster u (clusterOf u.coreId)).counters.filter fun c => c.1 < first || first + cnt ≤ c.1 := by
    rw [snapped, getCluster_putCluster_self]
    exact num_getCluster ..
  rw [counterGet, show (snapped first cnt u).coreId = u.coreId from rfl, bank]
  refine (congrArg (fun x : Option (BitVec 32) => (x.getD 0).toNat) (assocGet_filter (p := fun i => decide (i < first) || decide (first + cnt ≤ i)) _ i)).trans ?_
  by_cases kept : i < first ∨ first + cnt ≤ i
  · rw [if_pos (by simpa using kept), if_pos kept, counterGet]
  · rw [if_neg (by simpa using kept), if_neg kept]
    rfl

theorem counterGet_of_writes {s u : State} (only : OnlyWrites s u) (i : Nat) : counterGet u i = counterGet s i := by rw [only]; rfl

section
variable {s : State} {o : RSnap} {ls : List (Nat × Nat × Nat × Pte × Nat)} {u : State}

/-- The read cache after an RCSNAP. -/
def snapCache (ls : List (Nat × Nat × Nat × Pte × Nat)) (z : State) (l : CacheLine) : CacheLine :=
  match ls.find? fun x => x.1 = l.va with
  | some x => { l with data := BitVec.ofNat 512 (leNat (lineAt z x.2.2.2.2 x.2.2.2.1.keySlot).bytes), side := assocGet z.side (lineOf x.2.2.2.2) }
  | none => l

theorem exec_rcsnap (inside : (readG s o.b).toNat % 256 + (o.n.toNat + 1) ≤ 256) (aligned : (readG s o.a).toNat % 4 = 0) (high : 0x100000 ≤ (readG s o.a).toNat)
    (mapped : xlateSpan s s.core.sys.world (readG s o.a).toNat (4 * (o.n.toNat + 1)) true = .ok ls)
    (ready : ∀ x ∈ ls, tlbHolds s.core s.core.sys.world x.1 = true ∧ ownPending s.core x.2.2.2.2 = false ∧ writeWaits s s.coreId x.2.2.2.2 = false)
    (bank : bankOk s = true)
    (ok : writeHome (takeBank s) (taskAgent (takeBank s)) (readG s o.a).toNat
      ((List.range (o.n.toNat + 1)).flatMap fun i => leBytes 4 (counterGet (takeBank s) ((readG s o.b).toNat % 256 + i)))
      (some (coreStamp (takeBank s) s.coreId)) false s.core.task = .ok u) :
    exec (.rcsnap o) s =
      (let z := loadLatency (snapped ((readG s o.b).toNat % 256) (o.n.toNat + 1) u) 80
       .next (sNextAt z.1 (modCore (fun k => { k with readCache := k.readCache.map (snapCache ls z.2) }) z.2))) := by
  have held : ls.find? (fun x => !tlbHolds s.core s.core.sys.world x.1) = none :=
    List.find?_eq_none.mpr fun x mem => by simp [(ready x mem).1]
  have free : (ls.any fun x => ownPending s.core x.2.2.2.2 || writeWaits s s.coreId x.2.2.2.2) = false :=
    List.any_eq_false.mpr fun x mem => by simp [(ready x mem).2.1, (ready x mem).2.2]
  have legal : ¬ (256 < (readG s o.b).toNat % 256 + (o.n.toNat + 1) || (readG s o.a).toNat % 4 ≠ 0 || (readG s o.a).toNat < 0x100000 : Bool) = true := by
    simp [aligned]; omega
  have ok' : writeHome (takeBank s) (taskAgent (takeBank s)) (readG s o.a).toNat
      ((List.range (o.n.toNat + 1)).flatMap fun i => leBytes 4 (counterGet (takeBank s) ((readG s o.b).toNat % 256 + i)))
      (some (coreStamp (takeBank s) (takeBank s).coreId)) false (takeBank s).core.task = .ok u := ok
  show execRcsnap o s = _
  rw [execRcsnap]
  dsimp only
  rw [if_neg legal, mapped]
  dsimp only
  rw [held]
  dsimp only
  rw [free, bank, ok']
  rfl

/-- What an RCSNAP leaves, once its bytes stand in memory. -/
theorem rcsnap_leaves {first cnt n : Nat} {z : State} (written : OnlyWrites (takeBank s) u) (latency : loadLatency (snapped first cnt u) 80 = (n, z)) :
    coreCycles s s.coreId 80 ≤ n ∧ SameRegs s z ∧ z.mem = u.mem
      ∧ ∀ i, counterGet z i = if i < first ∨ first + cnt ≤ i then counterGet s i else 0 := by
  obtain rfl := (congrArg Prod.fst latency : _ = n)
  obtain rfl := (congrArg Prod.snd latency : _ = z)
  have cycles : coreCycles (snapped first cnt u) (snapped first cnt u).coreId 80 = coreCycles s s.coreId 80 := by
    show coreCycles u u.coreId 80 = _
    rw [written]
    rfl
  refine ⟨cycles ▸ loadLatency_le (snapped first cnt u) 80 0, ?_, rfl, fun i => ?_⟩
  · show SameRegs s (loadLatency (snapped first cnt u) 80).2
    rw [written]
    exact ⟨rfl, rfl, rfl, rfl, rfl, rfl⟩
  · show counterGet (snapped first cnt u) i = _
    rw [counterGet_snapped, counterGet_of_writes written, counterGet_takeBank]

end

end Sys2Proof.Machine

namespace Sys2Proof.Proofs

open Sys2Proof.Machine

/-- Settles O29: an AAGG whose checks pass is a part of an open window, and an RCSNAP whose checks pass writes the counters' bytes and clears them. -/
theorem aggregationAndCounterSnapshots : Obligations.AggregationAndCounterSnapshots := by
  unfold Obligations.AggregationAndCounterSnapshots
  intro s
  refine ⟨fun o first z aligned low high ok => ?counter,
    fun o p pa first aligned high mapped near writable holds free goes reads writes clean => ?word,
    fun o ls u inside aligned high mapped ready bank ok => ?snap⟩
  case counter =>
    obtain ⟨w, mem, cluster, at_, -, part, close, fresh⟩ := joinWindow_joins (takeBank s) (readG s o.a) (readG s o.a).toNat true o
    obtain ⟨t, runs, phase, pc, g, windows, same⟩ := aagg_leaves (exec_aagg_counter first z aligned low high ok) rfl rfl rfl
    refine ⟨t, w, runs, phase, pc, g, windows ▸ mem, cluster, at_, part, close, fun none => fresh fun x isIn => ?_, same⟩
    refine Bool.eq_false_iff.mpr fun isIt => none x isIn ?_
    simp only [isOpenWindow, Bool.and_eq_true, decide_eq_true_eq] at isIt
    obtain ⟨⟨⟨⟨cluster, at_⟩, kind⟩, size⟩, close⟩ := isIt
    exact ⟨cluster, at_, kind, by rw [size, z]; rfl, close⟩
  case word =>
    obtain ⟨w, mem, cluster, at_, kind, part, close, -⟩ := joinWindow_joins s (readG s o.a) pa false o
    obtain ⟨t, runs, phase, pc, g, windows, same⟩ :=
      aagg_leaves (exec_aagg_global first aligned high mapped near writable holds free goes reads writes clean) rfl rfl rfl
    exact ⟨t, w, runs, phase, pc, g, windows ▸ mem, cluster, at_, kind, part, close, same⟩
  case snap =>
    generalize latency : loadLatency (snapped ((readG s o.b).toNat % 256) (o.n.toNat + 1) u) 80 = zn
    have runs := exec_rcsnap inside aligned high mapped ready bank ok
    obtain ⟨n, z⟩ := zn
    obtain ⟨cycles, regs, mem, counts⟩ := rcsnap_leaves (onlyWrites_writeHome ok) latency
    rw [latency] at runs
    have cached : SameRegs z (modCore (fun k => { k with readCache := k.readCache.map (snapCache ls z) }) z) := ⟨rfl, rfl, rfl, rfl, rfl, rfl⟩
    have ⟨g, _⟩ := regs
    refine ⟨_, n, runs, cycles, (regs.trans cached).retires n, fun a => congrArg (cellGet · a) mem, fun i low high => ?_, fun i _ out => ?_, ?_⟩
    · exact (counts i).trans (if_neg (by omega))
    · exact (counts i).trans (if_pos out)
    · rw [sNextAt_core_g]
      exact g

end Sys2Proof.Proofs

namespace Sys2Proof.Machine

/-! ### Timed transfers (15_isa_memory R423, R424, R52) -/

theorem portReady_of_le {s : State} {col : Col} (free : (getCol s.core col).portBusy ≤ cyc s) : portReady s col = .ok () := need_of free _

/-- A timed word's address lies on the grid of the calendar. -/
def onGrid (o : TimedOp) (va : Nat) : Prop := va % 512 = 0 ∧ va % 4096 + 512 * (o.n.toNat + 1) ≤ 4096

section
variable {s : State} {o : TimedOp} {write : Bool} (usable : ¬ (o.t = 1 ∧ (readE s o.e).tag = 0xFFFF))
include usable

theorem tagUsable_of : tagUsable (o.t = 1) (readE s o.e) = .ok () := by
  refine if_pos ?_
  simp only [Bool.not_eq_true', Bool.and_eq_false_iff, decide_eq_false_iff_not]
  exact (not_and_or.1 usable).imp_right fun other eq => other (BitVec.eq_of_toNat_eq eq)

theorem timedChecks_misaligned (bad : 8 < o.k.toNat + (o.n.toNat + 1) ∨ ¬ onGrid o (readE s o.e).addr.toNat) :
    timedChecks o write s = .error (.trap (misaligned (readE s o.e).addr.toNat)) := by
  simp only [timedChecks, tagUsable_of usable]
  by_cases fits : o.k.toNat + (o.n.toNat + 1) ≤ 8
  · have off : ¬ onGrid o (readE s o.e).addr.toNat := bad.resolve_left (by omega)
    have fails : need ((readE s o.e).addr.toNat % 512 = 0 && (readE s o.e).addr.toNat % 4096 + 512 * (o.n.toNat + 1) ≤ 4096 : Bool)
        (misaligned (readE s o.e).addr.toNat) = .error (misaligned (readE s o.e).addr.toNat) := if_neg (by simpa [onGrid] using off)
    rw [need_of fits, fails]
    rfl
  · rw [show need (decide (o.k.toNat + (o.n.toNat + 1) ≤ 8)) (misaligned (readE s o.e).addr.toNat) = .error (misaligned (readE s o.e).addr.toNat) from
      if_neg (by simpa using fits)]
    rfl

variable (fits : o.k.toNat + (o.n.toNat + 1) ≤ 8) (grid : onGrid o (readE s o.e).addr.toNat)
include fits grid

/-- A timed word on the grid goes by its translation. -/
theorem timedChecks_of_grid : timedChecks o write s = (do
    let l ← xlateTimed s write (readE s o.e).addr.toNat
    match l with
    | [] => snag lateTrap
    | (pa, _, p) :: _ =>
      if tierOf pa ≠ .hbm then snag lateTrap
      else
        match bindSlots s s.coreId (channelOf pa) (o.n.toNat + 1) (s.now + requestPath) with
        | none => snag lateTrap
        | some starts => .ok (pa, p, starts)) := by
  have lies : need ((readE s o.e).addr.toNat % 512 = 0 && (readE s o.e).addr.toNat % 4096 + 512 * (o.n.toNat + 1) ≤ 4096 : Bool)
      (misaligned (readE s o.e).addr.toNat) = .ok () := if_pos (by simpa [onGrid] using grid)
  simp only [timedChecks, tagUsable_of usable]
  rw [need_of fits, lies]
  rfl

theorem timedChecks_remote {pa : Nat} {p : Pte} (mapped : xlateAll s false [(readE s o.e).addr.toNat] = .ok [(pa, (readE s o.e).addr.toNat, p)])
    (far : isRemote s pa = true) : timedChecks o write s = .error (.trap lateTrap) := by
  rw [timedChecks_of_grid usable fits grid, xlateTimed, mapped]
  dsimp only
  rw [if_pos far]
  rfl

variable {pa : Nat} {p : Pte} (mapped : xlateTimed s write (readE s o.e).addr.toNat = .ok [(pa, (readE s o.e).addr.toNat, p)])
include mapped

theorem timedChecks_unbound (none : tierOf pa ≠ .hbm ∨ bindSlots s s.coreId (channelOf pa) (o.n.toNat + 1) (s.now + requestPath) = Option.none) :
    timedChecks o write s = .error (.trap lateTrap) := by
  rw [timedChecks_of_grid usable fits grid, mapped]
  by_cases tier : tierOf pa = .hbm
  · have unbound := none.resolve_left (not_not_intro tier)
    show (if tierOf pa ≠ .hbm then _ else match bindSlots s s.coreId (channelOf pa) (o.n.toNat + 1) (s.now + requestPath) with | Option.none => _ | some starts => _) = _
    rw [if_neg (not_not_intro tier), unbound]
    rfl
  · exact if_pos tier

theorem timedChecks_bound {starts : List Nat} (tier : tierOf pa = .hbm)
    (bound : bindSlots s s.coreId (channelOf pa) (o.n.toNat + 1) (s.now + requestPath) = some starts) :
    timedChecks o write s = .ok (pa, p, starts) := by
  rw [timedChecks_of_grid usable fits grid, mapped]
  show (if tierOf pa ≠ .hbm then _ else match bindSlots s s.coreId (channelOf pa) (o.n.toNat + 1) (s.now + requestPath) with | none => _ | some starts => _) = _
  rw [if_neg (not_not_intro tier), bound]

end

section
variable {s : State} {o : TimedOp}

/-- A timed load whose port is free. -/
theorem loadTimed_of_free (free : (getCol s.core .colL).portBusy ≤ cyc s) {r : MChk (Nat × Pte × List Nat)} (checks : timedChecks o false s = r) :
    loadTimed o s = runMem .colL s (do
      let (pa, p, starts) ← r
      chk (need (o.t = 0 || (getSlot s.core o.s.toNat).pend ≠ 15) { lateTrap with slot := some o.s.toNat })
      let t := timedOf o .colL false pa p s
      let z := if o.t = 1 then post (cyc s) 1 (.slotPend o.s.toNat) s else s
      .ok (holdPort .colL 1 (modCore (fun k => { k with nextInstr := k.nextInstr + 1, timed := k.timed ++ bindRequests z t starts }) z))) := by
  rw [loadTimed, portReady_of_le free, checks]
  rfl

theorem slotReady_of {slot : Nat} {expected : Option Nat} (whole : (getSlot s.core slot).failed = none) (done : (getSlot s.core slot).pend = 0)
    (tagged : (getSlot s.core slot).tag.toNat ≠ 0xFFFF) (same : ∀ x, expected = some x → (getSlot s.core slot).tag.toNat = x) :
    slotReady s.core slot expected = .ok () := by
  simp only [slotReady, whole, done, tagged]
  cases expected with
  | none => rfl
  | some x => exact if_pos (same x rfl)

/-- A timed write whose port is free and whose slot holds its data. -/
theorem storeTimed_of_ready (free : (getCol s.core .colW).portBusy ≤ cyc s) (usable : ¬ (o.t = 1 ∧ (readE s o.e).tag = 0xFFFF))
    (ready : slotReady s.core o.s.toNat (if o.t = 1 then some (readE s o.e).tag.toNat else none) = .ok ()) {r : MChk (Nat × Pte × List Nat)}
    (checks : timedChecks o true s = r) :
    storeTimed o s = runMem .colW s (do
      let (pa, p, starts) ← r
      let l := (bindRequests s (timedOf o .colW true pa p s) starts).map (withSlotData s.core)
      .ok (holdPort .colW 1 (modCore (fun k => { k with nextInstr := k.nextInstr + 1, timed := k.timed ++ l }) s))) := by
  rw [storeTimed]
  dsimp only
  rw [tagUsable_of usable, ready, portReady_of_le free, checks]
  rfl

theorem length_bindRequests (t : Timed) (starts : List Nat) : (bindRequests s t starts).length = starts.length := by
  rw [bindRequests, List.length_map, List.length_zipIdx]

/-- The request of slot `j` of a timed word. -/
theorem getElem?_bindRequests (t : Timed) (starts : List Nat) {j : Nat} (lt : j < starts.length) :
    ∃ r, (bindRequests s t starts)[j]? = some r ∧ r.start = starts.getD j 0 ∧ r.pa = t.pa + 512 * j ∧ r.isWrite = t.isWrite ∧ r.slot = t.slot
      ∧ r.off = t.off + 512 * j ∧ r.tagged = t.tagged := by
  have lies : j < (bindRequests s t starts).length := by rw [length_bindRequests]; exact lt
  refine ⟨(bindRequests s t starts)[j], List.getElem?_eq_getElem lies, ?_, ?_, ?_, ?_, ?_, ?_⟩ <;> simp [bindRequests, lt]

/-- The state after a timed word that binds its requests and goes on from `z`. -/
def boundBy (col : Col) (l : List Timed) (z : State) : State :=
  colNext col (holdPort col 1 (modCore (fun k => { k with nextInstr := k.nextInstr + 1, timed := k.timed ++ l }) z))

theorem setCol_keeps (c : Col) (q : ColSeq) (k : Core) :
    (setCol c q k).fx = k.fx ∧ (setCol c q k).g = k.g ∧ (setCol c q k).v = k.v ∧ (setCol c q k).t = k.t ∧ (setCol c q k).flags = k.flags
      ∧ (setCol c q k).sp = k.sp ∧ (setCol c q k).timed = k.timed := by
  cases c <;> exact ⟨rfl, rfl, rfl, rfl, rfl, rfl, rfl⟩

theorem boundBy_core (col : Col) (l : List Timed) (z : State) :
    ∃ q r, (boundBy col l z).core = setCol col q (setCol col r { z.core with nextInstr := z.core.nextInstr + 1, timed := z.core.timed ++ l }) := ⟨_, _, rfl⟩

theorem boundBy_keeps (col : Col) (l : List Timed) (z : State) :
    (boundBy col l z).core.fx = z.core.fx ∧ (boundBy col l z).core.g = z.core.g ∧ (boundBy col l z).core.v = z.core.v
      ∧ (boundBy col l z).core.t = z.core.t ∧ (boundBy col l z).core.flags = z.core.flags ∧ (boundBy col l z).core.sp = z.core.sp := by
  obtain ⟨q, r, core⟩ := boundBy_core col l z
  simp only [core, setCol_keeps, and_self]

theorem boundBy_timed (col : Col) (l : List Timed) (z : State) : (boundBy col l z).core.timed = z.core.timed ++ l := by
  obtain ⟨q, r, core⟩ := boundBy_core col l z
  simp only [core, setCol_keeps]

theorem sameMemory_boundBy (col : Col) (l : List Timed) (z : State) : SameMemory z (boundBy col l z) := sameMemory_of_mem rfl

theorem boundBy_portBusy (col : Col) (l : List Timed) (z : State) : (getCol (boundBy col l z).core col).portBusy = cyc z + 1 := by
  rw [boundBy, colNext, colNextAfter_eq_passed, modCore_core, passed, getCol_setCol_self]
  dsimp only
  rw [holdPort, modCore_core, getCol_setCol_self, cyc_modCore]

end

section
variable {s : State} {o : TimedOp} {pa : Nat} {p : Pte} {starts : List Nat}

/-- A timed load that is bound leaves its requests, and a tagged one its place among the producers of its slot. -/
theorem loadTimed_of_bound (free : (getCol s.core .colL).portBusy ≤ cyc s) (checks : timedChecks o false s = .ok (pa, p, starts))
    (room : o.t = 1 → (getSlot s.core o.s.toNat).pend ≠ 15) :
    ∃ z, loadTimed o s = .next (boundBy .colL (bindRequests z (timedOf o .colL false pa p s) starts) z) ∧ cyc z = cyc s ∧ SameMemory s z
      ∧ z.core = { s.core with fx := s.core.fx ++ (if o.t = 1 then [{ due := cyc s, order := 1, eff := .slotPend o.s.toNat }] else []) } := by
  have counts : need (o.t = 0 || (getSlot s.core o.s.toNat).pend ≠ 15) { lateTrap with slot := some o.s.toNat } = .ok () := by
    refine if_pos ?_
    simp only [Bool.or_eq_true, decide_eq_true_eq]
    exact or_iff_not_imp_left.2 fun tagged => room (by bv_omega)
  refine ⟨if o.t = 1 then post (cyc s) 1 (.slotPend o.s.toNat) s else s, ?_, ?_⟩
  · rw [loadTimed_of_free free checks]
    show runMem .colL s (chk (need _ _) >>= _) = _
    rw [counts]
    rfl
  · split
    · exact ⟨rfl, fun _ => rfl, rfl⟩
    · exact ⟨rfl, fun _ => rfl, by rw [List.append_nil]⟩

/-- A timed write that is bound leaves its requests with the slot's data. -/
theorem storeTimed_of_bound (free : (getCol s.core .colW).portBusy ≤ cyc s) (usable : ¬ (o.t = 1 ∧ (readE s o.e).tag = 0xFFFF))
    (ready : slotReady s.core o.s.toNat (if o.t = 1 then some (readE s o.e).tag.toNat else none) = .ok ())
    (checks : timedChecks o true s = .ok (pa, p, starts)) :
    storeTimed o s = .next (boundBy .colW ((bindRequests s (timedOf o .colW true pa p s) starts).map (withSlotData s.core)) s) := by
  rw [storeTimed_of_ready free usable ready checks]
  rfl

theorem loadTimed_traps (free : (getCol s.core .colL).portBusy ≤ cyc s) {t : Trap} (checks : timedChecks o false s = .error (.trap t)) :
    loadTimed o s = .next (raiseCol .colL t s) := by
  rw [loadTimed_of_free free checks]
  rfl

theorem storeTimed_traps (free : (getCol s.core .colW).portBusy ≤ cyc s) (usable : ¬ (o.t = 1 ∧ (readE s o.e).tag = 0xFFFF))
    (ready : slotReady s.core o.s.toNat (if o.t = 1 then some (readE s o.e).tag.toNat else none) = .ok ()) {t : Trap}
    (checks : timedChecks o true s = .error (.trap t)) : storeTimed o s = .next (raiseCol .colW t s) := by
  rw [storeTimed_of_ready free usable ready checks]
  rfl

/-- The data of a timed write are the slot's bytes. -/
theorem data_withSlotData (k : Core) (t : Timed) : (withSlotData k t).data.toNat = leNat (cellRead k.sp (4096 * t.slot + t.off) 512) := by
  refine (BitVec.toNat_ofNat _ _).trans (Nat.mod_eq_of_lt ?_)
  have bounded := leNat_lt (cellRead k.sp (4096 * t.slot + t.off) 512)
  rwa [length_cellRead, show 8 * 512 = 4096 from rfl] at bounded

end

end Sys2Proof.Machine

namespace Sys2Proof.Proofs
open Sys2Proof.Machine

/-- Settles O42: the checks of a timed word in their order, then the requests that it binds, for the load and for the write. -/
theorem timedTransfers : Obligations.TimedTransfers := by
  unfold Obligations.TimedTransfers
  intro s o i write which col e n va slot grid free usable whole
  have ready : write = true → slotReady s.core slot (if o.t = 1 then some e.tag.toNat else none) = .ok () := by
    intro writes
    obtain ⟨sound, done, tagged, same⟩ := whole writes
    refine slotReady_of sound done tagged fun x eq => ?_
    split at eq
    next is => exact (same is).trans (Option.some.inj eq)
    next => exact nomatch eq
  have traps : ∀ t, timedChecks o write s = .error (.trap t) → ColTraps i s col t := by
    intro t checks
    obtain ⟨rfl | rfl, rfl⟩ | ⟨rfl | rfl, rfl⟩ := which
    · exact loadTimed_traps free checks
    · exact loadTimed_traps free checks
    · exact storeTimed_traps free usable (ready rfl) checks
    · exact storeTimed_traps free usable (ready rfl) checks
  refine ⟨fun bad => traps _ (timedChecks_misaligned usable bad), fun fits lies pa p mapped far => traps _ (timedChecks_remote usable fits lies mapped far),
    fun fits lies pa p mapped => ⟨fun none => traps _ (timedChecks_unbound usable fits lies mapped none), fun starts tier bound room => ?_⟩⟩
  have checks := timedChecks_bound usable fits lies mapped tier bound
  have load : write = false → exec i s = loadTimed o s := by
    intro reads
    obtain ⟨rfl | rfl, -⟩ | ⟨-, rfl⟩ := which
    · rfl
    · rfl
    · exact nomatch reads
  have store : write = true → exec i s = storeTimed o s := by
    intro writes
    obtain ⟨-, rfl⟩ | ⟨rfl | rfl, -⟩ := which
    · exact nomatch writes
    · rfl
    · rfl
  cases write with
  | false =>
    obtain ⟨z, runs, clock, memory, core⟩ := loadTimed_of_bound free checks (room rfl)
    obtain ⟨fx, g, v, t, flags, sp⟩ := boundBy_keeps .colL (bindRequests z (timedOf o .colL false pa p s) starts) z
    refine ⟨_, _, (load rfl).trans runs, (boundBy_timed _ _ z).trans (by rw [core]), length_bindRequests _ _, fun j lt => ?_, ?_, ?_, by rw [g, core], by rw [v, core],
      by rw [t, core], by rw [flags, core], by rw [sp, core], fun a => (sameMemory_boundBy _ _ z a).trans (memory a)⟩
    · obtain ⟨r, at_, start, place, dir, target, off, tagged⟩ := getElem?_bindRequests (s := z) (timedOf o .colL false pa p s) starts lt
      refine ⟨r, at_, start, place, dir, target, off, tagged.trans ?_, fun writes => nomatch writes⟩
      simp [timedOf, e]
    · exact (boundBy_portBusy _ _ z).trans (by rw [clock])
    · rw [fx, core]
      simp only [and_true]
      rfl
  | true =>
    obtain ⟨fx, g, v, t, flags, sp⟩ := boundBy_keeps .colW ((bindRequests s (timedOf o .colW true pa p s) starts).map (withSlotData s.core)) s
    refine ⟨_, _, (store rfl).trans (storeTimed_of_bound free usable (ready rfl) checks), boundBy_timed _ _ s, (List.length_map _).trans (length_bindRequests _ _),
      fun j lt => ?_, boundBy_portBusy _ _ s, ?_, g, v, t, flags, sp, sameMemory_boundBy _ _ s⟩
    · obtain ⟨r, at_, start, place, dir, target, off, tagged⟩ := getElem?_bindRequests (s := s) (timedOf o .colW true pa p s) starts lt
      refine ⟨withSlotData s.core r, by rw [List.getElem?_map, at_, Option.map_some], start, place, dir, target, off, tagged.trans ?_, fun _ => ?_⟩
      · simp [timedOf]
      · rw [data_withSlotData, target, off, ← Nat.add_assoc]
        rfl
    · rw [fx]
      simp

end Sys2Proof.Proofs

namespace Sys2Proof.Machine

/-! ### A register beyond the 2,048 elements of R371 -/

/-- A failed SE register of 2,064 elements, a shape that the state's type allows and R371 does not. -/
def wideFailed : VReg :=
  { data := 0, tag := BitVec.ofNat 4 tagSe2, rows := 2064, cols := 1, poison := false, busy := 0, failed := some { cause := .late, addr := 0, detail := 0 } }

/-- A state whose v0 is such a register. -/
def wideState : State := modCore (fun k => { k with v := k.v.set 0 wideFailed }) { State.reset with phase := .booted }

/-- VLD of v0 from the scratchpad at the address of e0. -/
def wideLoad : VldOp := { gap := 0, e := 0, v := 0, k := 0, p := 0, x := 0 }

/-- When the L port of the state after a step is free; 0 where the step gives no state. -/
def portAfter : Out → Cycle
  | .next t => t.core.colL.portBusy
  | _ => 0

/-- The failed register has inactive elements under every mask of 2,048 bits, so the load traps with its cause, and the port stays free. -/
theorem portAfter_wideLoad : portAfter (exec (.vld wideLoad) wideState) = 0 := by decide +kernel

/-- The bytes of the register's elements lie in the scratchpad, in a slot that is ready. -/
theorem checkSlots_wideState : checkSlots wideState [((readE wideState 0).addr.toNat, seBytes tagSe2 2064)] none = .ok () := by decide +kernel

/-- A load word that completes holds its port from its issue on for its cycles. -/
theorem portAfter_of_colCompletes {i : Instr} {s : State} {b : Nat} {f : State → State}
    (completes : ColCompletes i s .colL 0 fun s => holdPort .colL b (f s)) (clock : ∀ u, cyc (f u) = cyc u) : portAfter (exec i s) = cyc s + b := by
  rw [completes]
  show cyc (f s) + b = _
  rw [clock]

end Sys2Proof.Machine

namespace Sys2Proof.Proofs
open Sys2Proof.Machine

/-- Refutes O43: the clause on VLD of an SE register does not ask that a failed destination be one that the commit may overwrite, nor that its shape be one
of R371. A failed SE register of 2,064 elements has elements that no mask of 2,048 bits makes active, so its load traps with the register's cause
(R372, R414) where the clause says that the word completes and holds its port for 5 cycles. -/
theorem not_columnLoadsAndStores : ¬ Obligations.ColumnLoadsAndStores := by
  unfold Obligations.ColumnLoadsAndStores
  rintro ⟨loads, -⟩
  obtain ⟨-, -, se, -⟩ := loads wideState
  obtain ⟨local_, -⟩ := se wideLoad (by decide) (by decide) (by decide) (by decide) (by decide) (by decide) (by decide)
  have sends := local_ rfl (by decide) checkSlots_wideState
  have busy := portAfter_of_colCompletes sends fun _ => rfl
  rw [portAfter_wideLoad] at busy
  exact absurd busy (by decide)

end Sys2Proof.Proofs

namespace Sys2Proof.Machine

open Sys2Proof.Laws.Engine

/-! ### The end of a command's work (16_isa_engines R439, R440) -/

section
variable {i : Instr} {eng : Nat} {c : Cmd} {s t : State}

theorem exec_of_ready {valid : State → Bool} {ready : State → Chk Unit} {work : RunCmd → State → State}
    (start : exec i s = startCommand eng c valid ready work s) (header : headerOk c.bits = true) (v : valid (focus s c.core) = true)
    (operands : ready (focus s c.core) = .ok ()) : exec i s = .next (work (taking eng c s) (started eng c s)) :=
  (startsWith_of start).1 header v operands

theorem exec_of_atOnce {all : Bool} {valid : State → Bool} {ready : State → Chk Unit} {work : RunCmd → State → State}
    (start : exec i s = startCommand eng c valid ready (whenReady eng all work) s) (header : headerOk c.bits = true) (v : valid (focus s c.core) = true)
    (operands : ready (focus s c.core) = .ok ()) (free : worksAtOnce eng all (taking eng c s) (started eng c s) = true) :
    exec i s = .next (work (taking eng c s) (takeUp eng (taking eng c s) (started eng c s))) :=
  (exec_of_ready start header v operands).trans (congrArg _ (whenReady_of_atOnce free work))

/-- A command that waits for no earlier access starts where one that waits for all of them would. -/
theorem worksAtOnce_of_all {r : RunCmd} (free : worksAtOnce eng true r s = true) (all : Bool) : worksAtOnce eng all r s = true := by
  rw [worksAtOnce, Bool.and_eq_true] at free ⊢
  exact ⟨free.1, by cases all <;> simp_all⟩

/-- A command that ends after `n` cycles of the 1.6 GHz clock and a delay that the spec leaves open. -/
theorem endsWith_of_delay {n status result : Nat} {r : RunCmd} (h : exec i s = .next (endsLater n status result r t)) (core : r.core = c.core)
    (engine : r.eng = eng) (seq : r.seq = c.seq) : EndsWith i eng c s (coreCycles t c.core n) status result t := by
  let due := cycOf t r.core + coreCycles t r.core (n + Config.freeDelay t.fresh)
  have after : cycOf { t with fresh := t.fresh + 1 } c.core + coreCycles t c.core n ≤ due := by
    simp only [due, core]
    exact Nat.add_le_add_left (coreCycles_le t c.core (Nat.le_add_right ..)) _
  obtain ⟨u, q, next, mem, core, engine, seq, st, res, time, waiting, pending, parked, frame⟩ :=
    endsWith_of (i := i) (t := { t with fresh := t.fresh + 1 }) (due := due) h core engine seq after
  exact ⟨u, q, next, mem, core, engine, seq, st, res, time, waiting, pending, parked, by rw [frame]⟩

end

/-! ### COPYR (R447) -/

section
variable {c : Cmd} {r : RunCmd} {s : State}

theorem copyrWork_of_oldView (old : (getGroup s (copyrOp c).group).view ≠ (copyrOp c).view) :
    copyrWork c r s = putRun (endsWith r (cyc s) stViewChanged 0) (irrevocableFor s r.task) := if_pos old

/-- A copy whose source is in another package asks for it, and is pending. -/
theorem copyrWork_of_remote (view : (getGroup s (copyrOp c).group).view = (copyrOp c).view) (remote : selfNode s (copyrOp c).srcNode = false) :
    ∃ x t, copyrWork c r s = putRun { r with xid := x, pending := true } t := by
  have same : ¬ (getGroup (irrevocableFor s r.task) (copyrOp c).group).view ≠ (copyrOp c).view := not_not_intro view
  have far : (!selfNode (irrevocableFor s r.task) (copyrOp c).srcNode) = true := by rw [Bool.not_eq_true']; exact remote
  rw [copyrWork]
  dsimp only
  rw [if_neg same, if_pos far]
  split
  · exact ⟨_, _, rfl⟩
  · exact ⟨r.xid, _, rfl⟩

end

/-! ### WLOAD (R456) -/

/-- A WLOAD that meets no halt ends with what its lines leave. -/
theorem wloadWork_of_done {c : Cmd} {r : RunCmd} {s : State} (first : r.done = (0, 0)) (sound : r.poisoned = false)
    {a : LineRun} (lines : (List.range ((wloadOp c).2.2.1 / 64)).foldl (wloadLine c r) { s := s, lines := 0, poisoned := false, halt := none } = a)
    (done : a.halt = none) :
    wloadWork c r s = endsLater (farCopyBase + (wloadOp c).2.2.1 / 64) (if a.poisoned then stPoisoned else stOk) 0
      { r with done := (a.lines, 0), poisoned := a.poisoned } a.s := by
  rw [wloadWork]
  dsimp only
  rw [first, sound, List.drop_zero, lines, done]

/-! ### LGUNMERGE, LGSAVE and LGDROP (R449) -/

section
variable {c : Cmd} {r : RunCmd} {s : State} {m : LigMap} (named : findMap s r (fld c 16 4) = .ok m)
include named

theorem unmergeWork_of_read {b : EBytes} (fits : ligAddrOk (fld c 32 8) (unmergeRow c * m.entries.length) = true)
    (read : ligRead s r (fld c 24 8) (unmergeRow c * m.kept) = .ok b) {out : EBytes}
    (out_eq : out = m.entries.flatMap fun e => (b.drop (unmergeRow c * e.2)).take (unmergeRow c)) :
    unmergeWork c r s = ligFinish r (ceilDiv (m.entries.length * fld c 20 2) 256) [(fld c 32 8, out)] (out.any (·.2)) 0 {} (fun s => freeMap s m) s := by
  subst out_eq
  simp [unmergeWork, named, fits, read]

theorem lgsaveWork_of_fits (fits : ligAddrOk (fld c 24 8) (mapBytes m.entries.length) = true) :
    lgsaveWork c r s = ligFinish r (ceilDiv m.entries.length 16) [(fld c 24 8, ligBytes false (m.entries.flatMap entryOut))] false 0 {} id s := by
  simp [lgsaveWork, named, fits]

theorem lgdropWork_of_named : lgdropWork c r s = endsLater 20 stOk 0 r (freeMap s m) := by
  simp [lgdropWork, named]

end

theorem not_mem_freeMap {s : State} {m y : LigMap} (mem : y ∈ (freeMap s m).maps) : ¬ (y.part = m.part ∧ y.num = m.num) := by
  have kept := (List.mem_filter.1 mem).2
  simpa [Classical.or_iff_not_imp_left] using kept

/-! ### The outputs of a ligature unit -/

/-- Outputs that begin in the scratchpad are all written, as writes of the core that land later. -/
theorem ligWrite_of_local (r : RunCmd) (land : Cycle) {outs : Outputs} (within : ∀ o ∈ outs, o.1 < spEnd) (s : State) (skip : Nat) :
    (ligWrite r land outs s skip).halt = none ∧ (ligWrite r land outs s skip).s.maps = s.maps := by
  refine List.foldlRecOn (motive := fun a : PutRun × Nat => a.1.halt = none ∧ a.1.s.maps = s.maps) outs _ ⟨rfl, rfl⟩ ?_
  rintro ⟨⟨u, lines, halt⟩, n⟩ ⟨rfl, maps⟩ o mem
  dsimp only
  rw [if_pos (within o mem)]
  refine ⟨rfl, Eq.trans ?_ maps⟩
  dsimp only
  rw [foldl_keeps (p := State.maps)]
  exact fun _ _ => rfl

/-- A command of a ligature unit whose outputs begin in the scratchpad ends, with its maps as `f` leaves them. -/
theorem ligFinish_of_local (r : RunCmd) (cycles : Nat) {outs : Outputs} (within : ∀ o ∈ outs, o.1 < spEnd) (poison : Bool) (result : Nat) (flags : FpFlags)
    (f : State → State) (s : State) :
    ∃ due t, ligFinish r cycles outs poison result flags f s = putRun (endsWith r due (if poison then stPoisoned else stOk) result) (f t) ∧ t.maps = s.maps := by
  let d := drawDelay s
  let due := cyc d.2 + cycles + d.1 + 4
  obtain ⟨done, maps⟩ := ligWrite_of_local r (due - 4) within d.2 r.done.1
  refine ⟨due, ligSticky due flags (ligWrite r (due - 4) outs d.2 r.done.1).s, ?_, ?_⟩
  · rw [ligFinish]
    show (match (ligWrite r (due - 4) outs d.2 r.done.1).halt with | some h => _ | none => _) = _
    rw [done]
    rfl
  · rw [ligSticky]
    split
    · exact maps
    · exact maps

end Sys2Proof.Machine

namespace Sys2Proof.Machine

open Sys2Proof.Laws.Engine

/-! ### Runs of one length laid end to end -/

theorem length_flatMap_range {α : Type} {f : Nat → List α} {n : Nat} (size : ∀ i, (f i).length = n) (k : Nat) : ((List.range k).flatMap f).length = n * k := by
  simp [List.length_flatMap, size, Nat.mul_comm]

theorem take_drop_flatMap_range {α : Type} {f : Nat → List α} {n : Nat} (size : ∀ i, (f i).length = n) {k i : Nat} (lt : i < k) :
    (((List.range k).flatMap f).drop (n * i)).take n = f i := by
  induction k with
  | zero => omega
  | succ k ih =>
    rw [List.range_succ, List.flatMap_append, List.flatMap_singleton]
    have len := length_flatMap_range size k
    rcases Nat.lt_succ_iff_lt_or_eq.1 lt with before | rfl
    · have fits : n * i + n ≤ n * k := by rw [← Nat.mul_succ]; exact Nat.mul_le_mul_left n before
      rw [List.drop_append_of_le_length (by omega), List.take_append_of_le_length (by rw [List.length_drop]; omega), ih before]
    · rw [List.drop_append_of_le_length (by omega), List.drop_of_length_le (by omega), List.nil_append, List.take_of_length_le (by rw [size])]

/-! ### The triples of slice attention (07_serving_structures R221 to R223) -/

section
variable {d : Nat}

theorem length_attnBlock (o : AttnOp) (query : List XReal) (st : Triple) (block : List Token) : (attnBlock o query st block).2.length = st.2.length := by
  simp [attnBlock, rescale]

theorem length_slice (o : AttnOp) (query : List XReal) (blocks : List (List Token)) : (blocks.foldl (attnBlock o query) (Triple.empty d)).2.length = d :=
  List.foldlRecOn (motive := fun t : Triple => t.2.length = d) blocks _ List.length_replicate fun t len b _ => (length_attnBlock o query t b).trans len

theorem length_mergeRow {x y : Triple} (left : x.2.length = d) (right : y.2.length = d) : (mergeRow x y).1.2.length = d := by
  unfold mergeRow
  split
  · rw [List.length_map, left]
  split
  · exact left
  split
  · exact right
  · simp [left, right]

theorem length_pairUp : ∀ {l : List Triple}, (∀ t ∈ l, t.2.length = d) → ∀ t ∈ mergeTree.pairUp l, t.2.length = d
  | [], h => h
  | [_], h => h
  | x :: y :: rest, h => by
    intro t mem
    rcases List.mem_cons.1 mem with rfl | later
    · exact length_mergeRow (h x (by simp)) (h y (by simp))
    · exact length_pairUp (fun u mem => h u (by simp [mem])) t later

theorem length_mergeTree : ∀ {n : Nat} {l : List Triple}, (∀ t ∈ l, t.2.length = d) → ∀ t ∈ mergeTree n l, t.2.length = d
  | 0, _, h => h
  | n + 1, l, h => length_mergeTree (n := n) (l := mergeTree.pairUp l) (length_pairUp h)

theorem length_attnQuery (o : AttnOp) (blocks : List (Nat × List Token)) (query : List XReal) : (attnQuery o d blocks query).2.length = d := by
  have slices := length_mergeTree (d := d) (n := 7)
    (l := (List.range 128).map fun n => (sliceBlocks blocks n).foldl (attnBlock o query) (Triple.empty d)) (by
      intro t mem
      obtain ⟨n, -, rfl⟩ := List.mem_map.1 mem
      exact length_slice o query _)
  rw [attnQuery]
  generalize mergeTree 7 _ = l at slices ⊢
  cases l with
  | nil => exact List.length_replicate
  | cons t rest => exact slices t (by simp)

theorem length_tripleOut {t : Triple} (len : t.2.length = d) : (tripleOut t).length = tripleBytes d := by
  simp [tripleOut, length_leBytes, List.length_flatMap, len, tripleBytes]
  omega

/-- The bytes of one query's triple among those that an SLATTN lands. -/
theorem bytes_attnTriples {o : AttnOp} {q : Seq} (held : EBytes) (blocks : List (Nat × List Token)) (poison : Bool) {i : Nat} (lt : i < o.queries) :
    (((attnTriples o q held blocks poison).drop (tripleBytes q.dim * i)).take (tripleBytes q.dim)).map (·.1)
      = tripleOut (attnQuery o q.dim blocks (queryAt held q.dim i).1) := by
  rw [attnTriples, take_drop_flatMap_range (fun _ => by rw [List.length_map, length_tripleOut (length_attnQuery ..)]) lt, List.map_map]
  exact List.map_id _

end

/-! ### SLATTN (R448) -/

section
variable {c : Cmd} {y z : State} {q : Seq} {r : RunCmd}

/-- What a command takes at its start: the sequence's length, the queries, and a slice for each block. -/
theorem attnLatch_fresh (seq : attnSeq c y = some q) (blocks : r.blocks = []) (held : r.held = []) :
    attnLatch c r y = { r with done := (q.len, 0), held := queryBytes y.core (attnOp c) q.dim, blocks := (seqBlocks q.len q).map (blockSlice y r.world) } := by
  rw [attnLatch, seq]
  dsimp only
  rw [blocks, held]
  congr 1
  exact List.ext_getElem (by simp) (by simp)

/-- Taken again while nothing that it reads has changed, it is the same. -/
theorem attnLatch_again (seq : attnSeq c y = some q) (same : attnSeq c z = some q) (blocks : r.blocks = []) (held : r.held = [])
    (bytes : queryBytes z.core (attnOp c) q.dim = queryBytes y.core (attnOp c) q.dim) (slices : blockSlice z r.world = blockSlice y r.world)
    (tag : Option (Nat × BitVec 16 × Cycle)) : attnLatch c { attnLatch c r y with tag := tag } z = { attnLatch c r y with tag := tag } := by
  rw [attnLatch_fresh seq blocks held, attnLatch, same]
  dsimp only
  have len : (if ((seqBlocks q.len q).map (blockSlice y r.world)).isEmpty = true then q.len else q.len) = q.len := ite_self _
  rw [len, bytes, slices]
  congr 1
  · exact ite_self _
  · refine List.ext_getElem (by simp) fun n lt _ => ?_
    simp only [List.length_map, List.length_zipIdx] at lt
    simp [lt]

theorem attnWork_of_read {x : List (Nat × List Token) × Bool} (seq : attnSeq c z = some q) (world : q.world = r.world) (running : q.stopped = false)
    (latched : attnLatch c r z = r) (cached : r.blocks.contains uncached = false) (read : readBlocks z r q (r.blocks.zip (seqBlocks r.done.1 q)) = .ok x) :
    attnWork c r z = attnFinish (attnOp c) q r x.1 x.2 z := by
  rw [attnWork, seq]
  dsimp only
  rw [if_neg (not_not_intro world), if_neg (by rw [running]; exact Bool.false_ne_true), latched, if_neg (by rw [cached]; exact Bool.false_ne_true), read]

theorem worksAtOnce_post (eng : Nat) (all : Bool) (r : RunCmd) (tag : Option (Nat × BitVec 16 × Cycle)) (due : Cycle) (order : Nat) (e : Effect) (s : State) :
    worksAtOnce eng all { r with tag := tag } (post due order e s) = worksAtOnce eng all r s := by
  have done : accessesDone (getCore (post due order e s) r.core) r.mark = accessesDone (getCore s r.core) r.mark := by
    show accessesDone (if r.core = s.coreId then (post due order e s).core else _) r.mark = accessesDone (if r.core = s.coreId then s.core else _) r.mark
    split <;> rfl
  rw [worksAtOnce, done]
  rfl

end

/-- An SLATTN as its unit takes it up. -/
def attnTaking (c : Cmd) (s : State) : RunCmd :=
  let y := started 0x10 c s
  let r := attnLatch c (taking 0x10 c s) y
  if (attnOp c).tagged then { r with tag := some ((attnOp c).dst / 4096, (attnOp c).seqTag, cyc y) } else r

/-- The state in which it does its work. -/
def attending (c : Cmd) (s : State) : State :=
  let y := started 0x10 c s
  takeUp 0x10 (attnTaking c s) (if (attnOp c).tagged then post (cyc y) (engOrder 0x10) (.slotPend ((attnOp c).dst / 4096)) y else y)

section
variable {c : Cmd} {s : State}

theorem attnStart_of_atOnce (free : worksAtOnce 0x10 true (attnLatch c (taking 0x10 c s) (started 0x10 c s)) (started 0x10 c s) = true) :
    attnStart c (taking 0x10 c s) (started 0x10 c s) = attnWork c (attnTaking c s) (attending c s) := by
  rw [attnStart, attending, attnTaking]
  split
  · exact whenReady_of_atOnce ((worksAtOnce_post ..).trans free) _
  · exact whenReady_of_atOnce free _

/-- A state but for what its engines last served and the effects that are due. -/
def engineAside (w : List (Nat × Nat × BitVec 6)) (l : List Fx) (y : State) : State := { y with engWorld := w, core := { y.core with fx := l } }

theorem attnSeq_engineAside (w : List (Nat × Nat × BitVec 6)) (l : List Fx) (y : State) : attnSeq c (engineAside w l y) = attnSeq c y := rfl

theorem queryBytes_engineAside (w : List (Nat × Nat × BitVec 6)) (l : List Fx) (y : State) : queryBytes (engineAside w l y).core = queryBytes y.core := rfl

theorem blockSlice_engineAside (w : List (Nat × Nat × BitVec 6)) (l : List Fx) (y : State) : blockSlice (engineAside w l y) = blockSlice y := rfl

theorem takeUp_slattn (r : RunCmd) (y : State) : ∃ w, takeUp 0x10 r y = { y with engWorld := w } := ⟨_, rfl⟩

theorem attending_eq : ∃ w l, attending c s = engineAside w l (started 0x10 c s) := by
  rw [attending]
  generalize started 0x10 c s = y
  split
  · obtain ⟨w, eq⟩ := takeUp_slattn (attnTaking c s) (post (cyc y) (engOrder 0x10) (.slotPend ((attnOp c).dst / 4096)) y)
    exact ⟨w, _, eq⟩
  · obtain ⟨w, eq⟩ := takeUp_slattn (attnTaking c s) y
    exact ⟨w, y.core.fx, eq⟩

theorem attnLatch_attending {q : Seq} (seq : attnSeq c (attending c s) = some q) : attnLatch c (attnTaking c s) (attending c s) = attnTaking c s := by
  obtain ⟨w, l, eq⟩ := attending_eq (c := c) (s := s)
  rw [eq] at seq ⊢
  have again := attnLatch_again (r := taking 0x10 c s) ((attnSeq_engineAside ..).symm.trans seq) seq rfl rfl (by rw [queryBytes_engineAside])
    (by rw [blockSlice_engineAside])
  rw [attnTaking]
  split
  · exact again _
  · exact again (attnLatch c (taking 0x10 c s) (started 0x10 c s)).tag

/-- An SLATTN whose blocks are read whole is on its way to its end. -/
theorem exec_slattn_of_read (free : worksAtOnce 0x10 true (attnLatch c (taking 0x10 c s) (started 0x10 c s)) (started 0x10 c s) = true)
    (header : headerOk c.bits = true) (valid : attnValid c (focus s c.core) = true) (ready : attnReady c (focus s c.core) = .ok ()) {q : Seq}
    {x : List (Nat × List Token) × Bool} (seq : attnSeq c (attending c s) = some q) (world : q.world = (attnTaking c s).world) (running : q.stopped = false)
    (cached : (attnTaking c s).blocks.contains uncached = false)
    (read : readBlocks (attending c s) (attnTaking c s) q ((attnTaking c s).blocks.zip (seqBlocks (attnTaking c s).done.1 q)) = .ok x) :
    exec (.slattn c) s = .next (attnFinish (attnOp c) q (attnTaking c s) x.1 x.2 (attending c s)) :=
  (exec_of_ready (work := attnStart c) rfl header valid ready).trans
    (congrArg _ ((attnStart_of_atOnce free).trans (attnWork_of_read seq world running (attnLatch_attending seq) cached read)))

/-- What its end is to be. -/
theorem attnFinish_ends (o : AttnOp) (q : Seq) (r : RunCmd) (blocks : List (Nat × List Token)) (poison : Bool) (z : State) :
    ∃ p ∈ (attnFinish o q r blocks poison z).running, p.core = r.core ∧ p.eng = r.eng ∧ p.seq = r.seq ∧ p.due = p.land + 4
      ∧ (p.status.toNat = stOk ∨ p.status.toNat = stPoisoned) ∧ cyc z + coreCycles z z.coreId (460 + attnCycles z o q.dim blocks) ≤ p.land ∧ p.tag = r.tag
      ∧ p.buf = attnTriples o q r.held blocks poison ∧ p.pending = false ∧ p.waiting = false := by
  refine ⟨_, mem_putRun _ _, rfl, rfl, rfl, rfl, ?_, ?_, rfl, rfl, rfl, rfl⟩
  · simp only [endsWith]
    split
    · exact .inr rfl
    · exact .inl rfl
  · exact Nat.add_le_add_left (coreCycles_le z z.coreId (Nat.le_add_right ..)) _

end

end Sys2Proof.Machine

namespace Sys2Proof.Machine

open Sys2Proof.Laws.Engine

/-! ### LGMERGE: its edges (07_serving_structures R225) -/

theorem length_insertBy {α : Type} (lt : α → α → Bool) (x : α) (l : List α) : (insertBy lt x l).length = l.length + 1 := by
  induction l with
  | nil => rfl
  | cons y ys ih =>
    rw [insertBy]
    split
    · rfl
    · rw [List.length_cons, ih, List.length_cons]

theorem length_sortBy {α : Type} (lt : α → α → Bool) (l : List α) : (sortBy lt l).length = l.length := by
  have grows : ∀ (l acc : List α), (l.foldl (fun acc x => insertBy lt x acc) acc).length = acc.length + l.length := by
    intro l
    induction l with
    | nil => exact fun _ => rfl
    | cons x l ih =>
      intro acc
      rw [List.foldl_cons, ih, length_insertBy, List.length_cons]
      omega
  exact (grows l []).trans (Nat.zero_add _)

theorem length_chooseEdges (keys : List (List XReal)) (r : Nat) : (chooseEdges keys r).1.length ≤ r := by
  rw [chooseEdges]
  dsimp only
  rw [length_sortBy, List.length_map]
  exact List.length_take_le ..

theorem length_keptList (n : Nat) (edges : List (Nat × Nat)) : (keptList n edges).length ≤ n :=
  (List.length_filter_le ..).trans (Nat.le_of_eq List.length_range)

/-! ### The vectors of its tokens keep their length (R226) -/

section
variable {n : Nat}

/-- No token of an array has more than `n` elements. -/
def NoLonger (n : Nat) (a : Array MergeTok) : Prop := ∀ i, (a.getD i MergeTok.none).x.length ≤ n

theorem noLonger_toArray {l : List MergeTok} (short : ∀ t ∈ l, t.x.length ≤ n) : NoLonger n l.toArray := by
  intro i
  rw [Array.getD_eq_getD_getElem?, List.getElem?_toArray]
  cases at_ : l[i]? with
  | none => exact Nat.zero_le n
  | some t => exact short t (List.mem_of_getElem? at_)

theorem noLonger_set {a : Array MergeTok} (short : NoLonger n a) {t : MergeTok} (len : t.x.length ≤ n) (j : Nat) : NoLonger n (a.setIfInBounds j t) := by
  intro i
  have old := short i
  rw [Array.getD_eq_getD_getElem?] at old ⊢
  rw [Array.getElem?_setIfInBounds]
  split
  · split
    · exact len
    · exact Nat.zero_le n
  · exact old

theorem noLonger_applyEdge {t : Array MergeTok × FpFlags} (short : NoLonger n t.1) (f : FFmt) (e : Nat × Nat) : NoLonger n (applyEdge f t e).1 := by
  refine noLonger_set short ?_ e.2
  simp only [List.length_map, List.length_zip]
  exact (Nat.min_le_left ..).trans (short e.1)

theorem noLonger_edges {t : Array MergeTok × FpFlags} (short : NoLonger n t.1) (f : FFmt) (edges : List (Nat × Nat)) :
    NoLonger n (edges.foldl (applyEdge f) t).1 :=
  List.foldlRecOn (motive := fun t : Array MergeTok × FpFlags => NoLonger n t.1) edges _ short fun _ short e _ => noLonger_applyEdge short f e

end

/-! ### Its outputs fit where the statement's bound holds -/

theorem length_flatMap_le {α β : Type} {f : α → List β} {b : Nat} : ∀ {l : List α}, (∀ x ∈ l, (f x).length ≤ b) → (l.flatMap f).length ≤ l.length * b
  | [], _ => by simp
  | x :: l, h => by
    rw [List.flatMap_cons, List.length_append, List.length_cons, Nat.add_mul, Nat.one_mul, Nat.add_comm]
    exact Nat.add_le_add (length_flatMap_le fun y mem => h y (by simp [mem])) (h x (by simp))

theorem length_ligBytes (poison : Bool) (l : List Byte) : (ligBytes poison l).length = l.length := List.length_map _

theorem alignLine_le (a : Nat) : alignLine a ≤ a + 63 := Nat.div_mul_le_self (a + 64 - 1) 64

/-- The outputs of a merge begin and end in the scratchpad where the room for all its tokens does. -/
theorem mergeOutputs_within {o : MergeOp} {kept : List MergeTok} (count : kept.length ≤ o.n) (short : ∀ t ∈ kept, t.x.length ≤ o.dx)
    (room : o.out + o.n * o.dx * xBytes o.fp32 + 8 * o.n + 128 ≤ spEnd) (bad : Bool) :
    ∀ x ∈ mergeOutputs o kept bad, x.1 < spEnd ∧ x.1 + x.2.length ≤ spEnd := by
  have vectors : (kept.flatMap fun t => t.x.flatMap fun e => ligBytes (bad || e.2) (xOut o.fp32 e.1)).length ≤ o.n * o.dx * xBytes o.fp32 := by
    have one : ∀ t ∈ kept, (t.x.flatMap fun e => ligBytes (bad || e.2) (xOut o.fp32 e.1)).length ≤ o.dx * xBytes o.fp32 := fun t mem =>
      (length_flatMap_le fun e _ => by rw [length_ligBytes, xOut, length_leBytes]).trans (Nat.mul_le_mul_right _ (short t mem))
    exact (length_flatMap_le one).trans ((Nat.mul_le_mul_right _ count).trans (Nat.le_of_eq (Nat.mul_assoc ..).symm))
  have words : ∀ f : MergeTok → Nat, (kept.flatMap fun t => ligBytes (bad || t.bad) (leBytes 4 (f t))).length ≤ o.n * 4 := fun f =>
    (length_flatMap_le fun t _ => by rw [length_ligBytes, length_leBytes]).trans (Nat.mul_le_mul_right _ count)
  have sizes := words fun t => storedSize t.size
  have biases := words fun t => toFp32 (sizeBias t.size).1
  intro x mem
  rw [mergeOutputs] at mem
  generalize (kept.flatMap fun t => t.x.flatMap fun e => ligBytes (bad || e.2) (xOut o.fp32 e.1)) = xs at vectors mem
  generalize (kept.flatMap fun t => ligBytes (bad || t.bad) (leBytes 4 (storedSize t.size))) = sz at sizes mem
  generalize (kept.flatMap fun t => ligBytes (bad || t.bad) (leBytes 4 (toFp32 (sizeBias t.size).1))) = bias at biases mem
  have first := alignLine_le (o.out + xs.length)
  have second := alignLine_le (alignLine (o.out + xs.length) + sz.length)
  simp only [List.mem_cons, List.not_mem_nil, or_false] at mem
  rcases mem with rfl | rfl | rfl <;> exact ⟨by dsimp only; omega, by dsimp only; omega⟩

/-! ### The merge -/

theorem exists_mem_putMap (m : LigMap) (s : State) : m ∈ (putMap m s).maps := by
  rw [putMap]
  split
  next found =>
    obtain ⟨y, mem, same⟩ := List.any_eq_true.1 found
    exact List.mem_map.2 ⟨y, mem, if_pos same⟩
  next => exact List.mem_append_right _ (List.mem_singleton_self m)

section
variable {o : MergeOp} {m : LigMap} {keys x sz : EBytes} {r : RunCmd} {s : State}

/-- The edges of a merge of tokens with these keys. -/
def mergeEdges (o : MergeOp) (keys : EBytes) : List (Nat × Nat) := (chooseEdges (rowsOfBytes tagBf16 o.d o.n (keys.map (·.1))) o.r).1

/-- The map as the merge leaves it. -/
def mergedMap (o : MergeOp) (m : LigMap) (keys : EBytes) : LigMap :=
  { m with entries := mergeEntries m.entries (mergeEdges o keys) (keptList o.n (mergeEdges o keys)), kept := (keptList o.n (mergeEdges o keys)).length }

/-- The tokens before a merge. -/
def mergeTokens (o : MergeOp) (x sz : EBytes) : List MergeTok :=
  let xs := (rowsOfBytes (xTag o.fp32) o.dx o.n (x.map (·.1))).zip (runsOf o.dx o.n (runsBad (xBytes o.fp32) (o.n * o.dx) x))
  let ss := (elemsOf (leNat (sz.map (·.1))) 32 o.n).zip (runsBad 4 o.n sz)
  (xs.zip ss).map fun p => { x := p.1.1.zip p.1.2, size := p.2.1, bad := p.2.2 }

theorem length_mergeTokens (o : MergeOp) (x sz : EBytes) : ∀ t ∈ mergeTokens o x sz, t.x.length ≤ o.dx := by
  intro t mem
  obtain ⟨⟨⟨row, bad⟩, size⟩, among, rfl⟩ := List.mem_map.1 mem
  have rows := (List.of_mem_zip (List.of_mem_zip among).1).1
  obtain ⟨i, -, rfl⟩ := List.mem_map.1 rows
  rw [List.length_zip, List.length_map, List.length_range]
  exact Nat.min_le_left ..

/-- A merge whose outputs have room in the scratchpad is on its way to its end, with its map. -/
theorem mergeOn_of_room (room : o.out + o.n * o.dx * xBytes o.fp32 + 8 * o.n + 128 ≤ spEnd) :
    ∃ due poison t, mergeOn o m keys x sz r s
      = putRun (endsWith r due (if poison = true then stPoisoned else stOk) (mapHandle m + (mergeEdges o keys).length * 2 ^ 32)) (putMap (mergedMap o m keys) t) := by
  let t := (mergeEdges o keys).foldl (applyEdge (xFmt o.fp32)) ((mergeTokens o x sz).toArray, (chooseEdges (rowsOfBytes tagBf16 o.d o.n (keys.map (·.1))) o.r).2)
  let toks := (keptList o.n (mergeEdges o keys)).map fun i => t.1.getD i MergeTok.none
  have short : NoLonger o.dx t.1 := noLonger_edges (noLonger_toArray (length_mergeTokens o x sz)) _ _
  have within := mergeOutputs_within (kept := toks) ((List.length_map _).trans_le (length_keptList ..))
    (fun u mem => by obtain ⟨i, -, rfl⟩ := List.mem_map.1 mem; exact short i) room (keys.any (·.2))
  have fit : outputsFit o.out (mergeOutputs o toks (keys.any (·.2))) = true := by
    rw [outputsFit, Bool.or_eq_true, List.all_eq_true]
    exact .inr fun u mem => decide_eq_true (within u mem).2
  obtain ⟨due, u, ends, -⟩ := ligFinish_of_local r (mergeCycles o) (fun u mem => (within u mem).1)
    ((mergeOutputs o toks (keys.any (·.2))).any fun x => x.2.any (·.2)) (mapHandle m + (mergeEdges o keys).length * 2 ^ 32)
    (t.2.or (orFlags (toks.map fun x => (sizeBias x.size).2))) (putMap (mergedMap o m keys)) s
  refine ⟨due, _, u, Eq.trans ?_ ends⟩
  rw [mergeOn]
  exact if_pos fit

theorem mergeWork_of_read {c : Cmd} (named : mergeMap (mergeOp c) r s = .ok m) (read : mergeRead (mergeOp c) r s = .ok (keys, x, sz)) :
    mergeWork c r s = mergeOn (mergeOp c) m keys x sz r s := by
  rw [mergeWork, named]
  dsimp only
  rw [read]

end

end Sys2Proof.Machine

namespace Sys2Proof.Machine

/-! ### The lines of a run of bytes -/

/-- The first `j` lines from the one of an address on, as `spanLines` cuts them. -/
def linesFrom (a n j : Nat) : List (Nat × Nat × Nat) :=
  (List.range j).map fun i => ((a / 64 + i) * 64, max a ((a / 64 + i) * 64), min (a + n) ((a / 64 + i) * 64 + 64))

theorem linesFrom_succ (a n j : Nat) :
    linesFrom a n (j + 1) = linesFrom a n j ++ [((a / 64 + j) * 64, max a ((a / 64 + j) * 64), min (a + n) ((a / 64 + j) * 64 + 64))] := by
  rw [linesFrom, List.range_succ, List.map_append, List.map_singleton]
  rfl

theorem spanLines_eq (a n : Nat) : spanLines a n = linesFrom a n (if n = 0 then 0 else (a + n - 1) / 64 - a / 64 + 1) := by
  rw [spanLines]
  split
  · rfl
  · rfl

theorem bounds_of_mem_linesFrom {a n j : Nat} {x : Nat × Nat × Nat} (mem : x ∈ linesFrom a n j) : a ≤ x.2.1 ∧ x.2.2 ≤ a + n := by
  obtain ⟨i, -, rfl⟩ := List.mem_map.1 mem
  exact ⟨Nat.le_max_left .., Nat.min_le_left ..⟩

/-- The bytes of a run, line by line. -/
def rowBytes (len : Nat) (m : List Host.Cell) (a : Nat) : List Byte := (spanLines a len).flatMap fun y => cellRead m y.2.1 (y.2.2 - y.2.1)

/-- Lines cut a run of bytes without a gap: `f` gives each line as many elements as it has bytes. -/
theorem length_flatMap_linesFrom {α : Type} {f : Nat × Nat × Nat → List α} (size : ∀ y, (f y).length = y.2.2 - y.2.1) (a n j : Nat) :
    ((linesFrom a n j).flatMap f).length = min (a + n) ((a / 64 + j) * 64) - a := by
  induction j with
  | zero =>
    show 0 = _
    omega
  | succ j ih =>
    rw [linesFrom_succ, List.flatMap_append, List.length_append, ih, List.flatMap_singleton, size]
    dsimp only
    omega

theorem length_flatMap_spanLines {α : Type} {f : Nat × Nat × Nat → List α} (size : ∀ y, (f y).length = y.2.2 - y.2.1) (a n : Nat) :
    ((spanLines a n).flatMap f).length = n := by
  rw [spanLines_eq, length_flatMap_linesFrom size]
  split <;> omega

theorem length_rowBytes (len : Nat) (m : List Host.Cell) (a : Nat) : (rowBytes len m a).length = len :=
  length_flatMap_spanLines (fun _ => length_cellRead ..) a len

/-! ### The last of the bytes that writes put at an address -/

/-- One write seen from an address: its byte there, or what stood there. -/
def putStep (x : Nat) (acc : Option Byte) (w : Nat × List Byte) : Option Byte := if w.1 ≤ x ∧ x < w.1 + w.2.length then w.2[x - w.1]? else acc

/-- The piece of a run's bytes in one of its lines. -/
def linePiece (a : Nat) (bs : List Byte) (y : Nat × Nat × Nat) : Nat × List Byte := (y.2.1, (bs.drop (y.2.1 - a)).take (y.2.2 - y.2.1))

theorem putStep_linesFrom (a : Nat) (bs : List Byte) (x : Nat) (acc : Option Byte) (j : Nat) :
    ((linesFrom a bs.length j).map (linePiece a bs)).foldl (putStep x) acc
      = if a ≤ x ∧ x < min (a + bs.length) ((a / 64 + j) * 64) then bs[x - a]? else acc := by
  induction j with
  | zero =>
    refine (if_neg ?_).symm
    omega
  | succ j ih =>
    rw [linesFrom_succ, List.map_append, List.foldl_append, ih, List.map_singleton, List.foldl_cons, List.foldl_nil, linePiece, putStep]
    dsimp only
    rw [List.length_take, List.length_drop]
    generalize line : (a / 64 + j) * 64 = l
    have first : a < l + 64 := by omega
    have next : (a / 64 + (j + 1)) * 64 = l + 64 := by omega
    rw [next]
    by_cases here : max a l ≤ x ∧ x < max a l + min (min (a + bs.length) (l + 64) - max a l) (bs.length - (max a l - a))
    · rw [if_pos here, if_pos (by omega), List.getElem?_take, if_pos (by omega), List.getElem?_drop]
      congr 1
      omega
    · rw [if_neg here]
      exact if_congr (by omega) rfl rfl

/-- The pieces of a run, one for each line, put the bytes of the run. -/
theorem putStep_spanLines (a : Nat) (bs : List Byte) (x : Nat) (acc : Option Byte) :
    ((spanLines a bs.length).map (linePiece a bs)).foldl (putStep x) acc = putStep x acc (a, bs) := by
  rw [spanLines_eq, putStep_linesFrom, putStep]
  dsimp only
  refine if_congr ?_ rfl rfl
  split <;> omega

/-! ### Effects added to the core in focus -/

/-- A state with effects more. -/
def withFx (l : List Fx) (s : State) : State := modCore (fun k => { k with fx := k.fx ++ l }) s

theorem withFx_nil (s : State) : withFx [] s = s := by
  show modCore (fun k => { k with fx := k.fx ++ [] }) s = s
  simp only [List.append_nil]
  rfl

theorem withFx_withFx (l m : List Fx) (s : State) : withFx m (withFx l s) = withFx (l ++ m) s := by
  show modCore (fun k => { k with fx := (k.fx ++ l) ++ m }) s = modCore (fun k => { k with fx := k.fx ++ (l ++ m) }) s
  simp only [List.append_assoc]

theorem post_eq_withFx (due : Cycle) (order : Nat) (e : Effect) (s : State) : post due order e s = withFx [{ due := due, order := order, eff := e }] s := rfl

theorem foldl_post {α : Type} (due : Cycle) (order : Nat) (e : α → Effect) (l : List α) (s : State) :
    l.foldl (fun s x => post due order (e x) s) s = withFx (l.map fun x => { due := due, order := order, eff := e x }) s := by
  induction l generalizing s with
  | nil => exact (withFx_nil s).symm
  | cons x l ih => rw [List.foldl_cons, ih, post_eq_withFx, withFx_withFx, List.map_cons, List.singleton_append]

theorem putAt_append (l m : List Fx) (x : Nat) (other : ∀ f ∈ m, ∀ a bs p, f.eff ≠ .localWrite a bs p) : putAt (l ++ m) x = putAt l x := by
  rw [putAt, putAt, List.foldl_append]
  generalize l.foldl _ _ = acc
  refine List.foldlRecOn (motive := fun b => b = acc) m _ rfl fun b eq f mem => ?_
  have no := other f mem
  cases eff : f.eff with
  | localWrite a bs p => exact absurd eff (no a bs p)
  | _ => simpa only [eff] using eq

/-- What writes of the scratchpad put at an address. -/
theorem putAt_writes (due : Cycle) (order : Nat) (l : List (Nat × List Byte × Bool)) (x : Nat) :
    putAt (l.map fun w => { due := due, order := order, eff := .localWrite w.1 w.2.1 w.2.2 }) x = (l.map fun w => (w.1, w.2.1)).foldl (putStep x) none := by
  rw [putAt, List.foldl_map, List.foldl_map]
  rfl

end Sys2Proof.Machine

namespace Sys2Proof.Machine

open Sys2Proof.Laws.Engine

/-! ### Rows of a copy (16_isa_engines R443, R444) -/

/-- A number of 64 bits is its own address. -/
theorem intMod_of_lt {x : Int} (nonneg : 0 ≤ x) (lt : x < 2 ^ 64) : (intMod 64 x : Int) = x := by
  rw [intMod, Int.emod_eq_of_lt nonneg (by exact_mod_cast lt), Int.toNat_of_nonneg nonneg]

theorem rowAddr_zero {base : Nat} (lt : base < 2 ^ 64) (stride : Int) : rowAddr base stride 0 = base := by
  have row := intMod_of_lt (x := base) (by omega) (by omega)
  have same : ((base : Int) + stride * ((0 : Nat) : Int)) = base := by simp
  rw [rowAddr, same]
  omega

/-- A row of a run lies between its first and its last row. -/
theorem row_within {base : Nat} {stride : Int} {rows len i : Nat} (lt : i < rows) (near : base < 0x80000) (ok : localOk base stride rows len = true) :
    rowAddr base stride i + len ≤ 0x80000 := by
  have span : 0 ≤ min (base : Int) (base + stride * ((rows : Int) - 1)) ∧ max (base : Int) (base + stride * ((rows : Int) - 1)) + len ≤ 0x80000 := by
    rw [localOk, Bool.or_eq_true] at ok
    rcases ok with far | ok
    · exact absurd (of_decide_eq_true far) (by omega)
    · obtain ⟨low, high⟩ := Bool.and_eq_true_iff.1 ok
      exact ⟨of_decide_eq_true low, of_decide_eq_true high⟩
  obtain ⟨low, high⟩ := span
  have between : min 0 (stride * ((rows : Int) - 1)) ≤ stride * i ∧ stride * i ≤ max 0 (stride * ((rows : Int) - 1)) := by
    have place : (0 : Int) ≤ i ∧ (i : Int) ≤ (rows : Int) - 1 := by omega
    rcases le_total 0 stride with up | down
    · exact ⟨(min_le_left ..).trans (mul_nonneg up place.1), (mul_le_mul_of_nonneg_left place.2 up).trans (le_max_right ..)⟩
    · exact ⟨(min_le_right ..).trans (mul_le_mul_of_nonpos_left place.2 down), (mul_nonpos_of_nonpos_of_nonneg down place.1).trans (le_max_left ..)⟩
  have row := intMod_of_lt (x := base + stride * i) (by omega) (by omega)
  rw [rowAddr]
  omega

/-! ### A row written to the scratchpad, a line at a time -/

theorem sp_markLines (addr n : Nat) (poison : Bool) (k : Core) : (markLines addr n poison k).sp = k.sp := by
  refine List.foldlRecOn (motive := fun u : Core => u.sp = k.sp) _ _ rfl fun u same x _ => ?_
  split
  · exact same
  split
  · exact same
  · exact same

theorem sp_localPut {addr : Nat} (within : addr < 0x80000) (bytes : List Byte) (poison : Bool) (k : Core) :
    (localPut addr bytes poison k).sp = cellWrite k.sp addr bytes := by
  rw [localPut, if_pos within, sp_markLines]

/-- The piece of a row's bytes in one line, with its poison. -/
def copyPiece (addr : Nat) (b : EBytes) (x : Nat × Nat × Nat) : Nat × List Byte × Bool :=
  let part := (b.drop (x.2.1 - addr)).take (x.2.2 - x.2.1)
  (x.2.1, part.map (·.1), part.any (·.2))

theorem copyPiece_bytes (addr : Nat) (b : EBytes) (x : Nat × Nat × Nat) :
    ((copyPiece addr b x).1, (copyPiece addr b x).2.1) = linePiece addr (b.map (·.1)) x := by
  rw [linePiece, ← List.map_drop, ← List.map_take]
  rfl

/-- A row's bytes written into the cells of the scratchpad. -/
def rowWrite (m : List Host.Cell) (addr : Nat) (bs : List Byte) : List Host.Cell :=
  (spanLines addr bs.length).foldl (fun m x => cellWrite m x.2.1 (linePiece addr bs x).2) m

/-- What a row written to the scratchpad adds to a copy. -/
theorem copyPutLocal_eq (addr : Nat) (b : EBytes) (a : CopyRun) :
    ∃ k, (addr + b.length ≤ 0x80000 → k.sp = rowWrite a.view.sp addr (b.map (·.1)))
      ∧ copyPutLocal addr b a = { a with view := k, writes := a.writes ++ (spanLines addr b.length).map (copyPiece addr b) } := by
  have lines : ∀ (l : List (Nat × Nat × Nat)) (a : CopyRun),
      ∃ k, ((∀ x ∈ l, x.2.1 < 0x80000) → k.sp = l.foldl (fun m x => cellWrite m x.2.1 (linePiece addr (b.map (·.1)) x).2) a.view.sp)
        ∧ l.foldl (fun a x =>
            let part := (b.drop (x.2.1 - addr)).take (x.2.2 - x.2.1)
            let bytes := part.map (·.1)
            let p := part.any (·.2)
            { a with view := localPut x.2.1 bytes p a.view, writes := a.writes ++ [(x.2.1, bytes, p)] }) a
          = { a with view := k, writes := a.writes ++ l.map (copyPiece addr b) } := by
    intro l
    induction l with
    | nil => exact fun a => ⟨a.view, fun _ => rfl, by rw [List.map_nil, List.append_nil]; rfl⟩
    | cons x l ih =>
      intro a
      obtain ⟨k, sp, eq⟩ := ih { a with view := localPut x.2.1 (copyPiece addr b x).2.1 (copyPiece addr b x).2.2 a.view,
                                        writes := a.writes ++ [copyPiece addr b x] }
      refine ⟨k, fun low => ?_, ?_⟩
      · rw [sp fun y mem => low y (List.mem_cons_of_mem _ mem), sp_localPut (low x (List.mem_cons_self ..)), List.foldl_cons, ← copyPiece_bytes]
      · rw [List.foldl_cons]
        refine eq.trans ?_
        rw [List.append_assoc, List.map_cons, List.singleton_append]
  obtain ⟨k, sp, eq⟩ := lines (spanLines addr b.length) a
  refine ⟨k, fun within => ?_, eq⟩
  rw [sp fun x mem => ?_, rowWrite, List.length_map]
  rw [spanLines_eq] at mem
  obtain ⟨i, lt, rfl⟩ := List.mem_map.1 mem
  have more := List.mem_range.1 lt
  split at more
  · omega
  · dsimp only
    omega

end Sys2Proof.Machine

namespace Sys2Proof.Machine

open Sys2Proof.Laws.Engine

/-! ### Bytes of a number, and bytes of rows laid end to end -/

/-- Byte `i` of the number that bytes make, 0 beyond them. -/
def byteNat (l : List Byte) (i : Nat) : Nat := ((l[i]?).map (·.toNat)).getD 0

theorem elemAt_leNat : ∀ (l : List Byte) (i : Nat), elemAt (leNat l) 8 i = byteNat l i
  | [], i => by simp [leNat, elemAt, byteNat]
  | b :: bs, 0 => by
    rw [elemAt_zero]
    show (b.toNat + 2 ^ 8 * leNat bs) % 2 ^ 8 = b.toNat
    rw [Nat.add_mul_mod_self_left, Nat.mod_eq_of_lt b.isLt]
  | b :: bs, i + 1 => (elemAt_succ _ _ b.isLt).trans (elemAt_leNat bs i)

theorem getElem?_flatMap_range {α : Type} {f : Nat → List α} {len : Nat} (size : ∀ i, (f i).length = len) (some : 0 < len) (n i : Nat) :
    ((List.range n).flatMap f)[i]? = if i < n * len then (f (i / len))[i % len]? else none := by
  split
  next lt =>
    have row : i / len < n := Nat.div_lt_of_lt_mul (by rwa [Nat.mul_comm])
    rw [← take_drop_flatMap_range size row, List.getElem?_take, if_pos (Nat.mod_lt i some), List.getElem?_drop, Nat.div_add_mod]
  next ge => exact List.getElem?_eq_none (by rw [length_flatMap_range size, Nat.mul_comm]; omega)

/-! ### One row of a copy (R444) -/

/-- The bytes of row `i` of a source in the scratchpad, each with the poison of its line. -/
def rowRead (o : CopyOp) (k : Core) (i : Nat) : EBytes :=
  (spanLines (rowAddr o.src o.sStride i) o.len).flatMap fun x => (cellRead k.sp x.2.1 (x.2.2 - x.2.1)).map fun b => (b, spPoison k x.1)

theorem bytes_rowRead (o : CopyOp) (k : Core) (i : Nat) : (rowRead o k i).map (·.1) = rowBytes o.len k.sp (rowAddr o.src o.sStride i) := by
  rw [rowRead, rowBytes, List.map_flatMap]
  congr 1
  funext x
  rw [List.map_map]
  exact List.map_id _

theorem length_rowRead (o : CopyOp) (k : Core) (i : Nat) : (rowRead o k i).length = o.len :=
  length_flatMap_spanLines (fun _ => by rw [List.length_map, length_cellRead]) _ _

theorem copyReadRow_of_near {o : CopyOp} (near : o.src < spEnd) (r : RunCmd) (i : Nat) (a : CopyRun) : copyReadRow o r i a = .ok (rowRead o a.view i) :=
  if_pos near

/-- A row from the scratchpad, and one without poison, has no line to report. -/
theorem unnoted {o : CopyOp} {b : EBytes} (quiet : o.src < spEnd ∨ b.any (·.2) = false) : (b.any (·.2) && decide (spEnd ≤ o.src)) = false := by
  rcases quiet with near | sound
  · rw [decide_eq_false (by omega), Bool.and_false]
  · rw [sound, Bool.false_and]

section
variable {o : CopyOp} {r : RunCmd} {a : CopyRun} {i : Nat} (going : a.halt = none) (empty : a.buf = [])
include going empty

/-- A row whose read halts stops the copy there. -/
theorem copyRow_of_halt {h : Halt} (read : copyReadRow o r i a = .error h) :
    copyRow o r a i = { a with halt := some h, done := if o.tile then (0, 0) else (i, 0) } := by
  rw [copyRow, going]
  dsimp only
  rw [empty, List.isEmpty_nil, if_pos rfl, read]

section
variable {b : EBytes} (read : copyReadRow o r i a = .ok b) (quiet : o.src < spEnd ∨ b.any (·.2) = false)
include read quiet

theorem copyRow_tile (tile : o.tile = true) : copyRow o r a i = { a with poisoned := a.poisoned || b.any (·.2), buf := [], tile := a.tile ++ b } := by
  rw [copyRow, going]
  dsimp only
  rw [empty, List.isEmpty_nil, if_pos rfl, read]
  dsimp only
  rw [unnoted quiet, if_pos tile, if_neg Bool.false_ne_true]

theorem copyRow_sp (plain : o.tile = false) (toSp : o.dst < spEnd) :
    copyRow o r a i = copyPutLocal (rowAddr o.dst o.dStride i) b { a with poisoned := a.poisoned || b.any (·.2), buf := [], done := (i + 1, 0) } := by
  rw [copyRow, going]
  dsimp only
  rw [empty, List.isEmpty_nil, if_pos rfl, read]
  dsimp only
  rw [unnoted quiet, if_neg (by rw [plain]; exact Bool.false_ne_true), if_pos toSp, if_neg Bool.false_ne_true]

theorem copyRow_gl (plain : o.tile = false) (toGl : ¬ o.dst < spEnd)
    (written : (engWrite a.s r .copy (cmdStamp r) (rowAddr o.dst o.dStride i) b a.done.2).halt = none) :
    copyRow o r a i = { a with s := (engWrite a.s r .copy (cmdStamp r) (rowAddr o.dst o.dStride i) b a.done.2).s,
                               poisoned := a.poisoned || b.any (·.2), buf := [], done := (i + 1, 0) } := by
  rw [copyRow, going]
  dsimp only
  rw [empty, List.isEmpty_nil, if_pos rfl, read]
  dsimp only
  rw [unnoted quiet, if_neg (by rw [plain]; exact Bool.false_ne_true), if_neg toGl, if_neg Bool.false_ne_true, written]

end

variable (near : o.src < spEnd)
include near

theorem copyRow_toTile (tile : o.tile = true) :
    ∃ p, copyRow o r a i = { a with poisoned := p, tile := a.tile ++ rowRead o a.view i } := by
  refine ⟨a.poisoned || (rowRead o a.view i).any (·.2), (copyRow_tile going empty (copyReadRow_of_near near r i a) (.inl near) tile).trans ?_⟩
  rw [empty]

theorem copyRow_toSp (plain : o.tile = false) (toSp : o.dst < spEnd) (within : rowAddr o.dst o.dStride i + o.len ≤ 0x80000) :
    ∃ k p, k.sp = rowWrite a.view.sp (rowAddr o.dst o.dStride i) (rowBytes o.len a.view.sp (rowAddr o.src o.sStride i))
      ∧ copyRow o r a i = { a with view := k, poisoned := p, done := (i + 1, 0), writes := a.writes
          ++ (spanLines (rowAddr o.dst o.dStride i) o.len).map (copyPiece (rowAddr o.dst o.dStride i) (rowRead o a.view i)) } := by
  obtain ⟨k, sp, eq⟩ := copyPutLocal_eq (rowAddr o.dst o.dStride i) (rowRead o a.view i)
    { a with poisoned := a.poisoned || (rowRead o a.view i).any (·.2), buf := [], done := (i + 1, 0) }
  rw [bytes_rowRead, length_rowRead] at sp
  refine ⟨k, a.poisoned || (rowRead o a.view i).any (·.2), sp within, (copyRow_sp going empty (copyReadRow_of_near near r i a) (.inl near) plain toSp).trans ?_⟩
  rw [eq, length_rowRead, empty]

end

/-! ### All the rows of a copy within the scratchpad -/

/-- The rows of a copy as if one at a time: what the scratchpad then holds, and each row's bytes at their address. -/
def copiedStep (o : CopyOp) (a : List Host.Cell × List (Nat × List Byte)) (i : Nat) : List Host.Cell × List (Nat × List Byte) :=
  let row := rowBytes o.len a.1 (rowAddr o.src o.sStride i)
  let addr := rowAddr o.dst o.dStride i
  ((spanLines addr o.len).foldl (fun m y => cellWrite m y.2.1 ((row.drop (y.2.1 - addr)).take (y.2.2 - y.2.1))) a.1, a.2 ++ [(addr, row)])

/-- How a copy to the scratchpad stands after its first rows. -/
structure RowsCopied (z : State) (r : List Host.Cell × List (Nat × List Byte)) (a : CopyRun) : Prop where
  state : a.s = z
  going : a.halt = none
  empty : a.buf = []
  cells : a.view.sp = r.1
  bytes : ∀ x, (a.writes.map fun w => (w.1, w.2.1)).foldl (putStep x) none = r.2.foldl (putStep x) none

theorem rowsCopied_step {o : CopyOp} {r : RunCmd} {z : State} {m : List Host.Cell × List (Nat × List Byte)} {a : CopyRun} (rows : RowsCopied z m a)
    (near : o.src < spEnd) (plain : o.tile = false) (toSp : o.dst < spEnd) {i : Nat} (within : rowAddr o.dst o.dStride i + o.len ≤ 0x80000) :
    RowsCopied z (copiedStep o m i) (copyRow o r a i) := by
  obtain ⟨k, p, sp, eq⟩ := copyRow_toSp (r := r) rows.going rows.empty near plain toSp within
  rw [eq]
  refine ⟨rows.state, rows.going, rows.empty, ?_, fun x => ?_⟩
  · rw [rows.cells] at sp
    refine sp.trans ?_
    rw [rowWrite, length_rowBytes]
    rfl
  · have pieces : ((spanLines (rowAddr o.dst o.dStride i) o.len).map (copyPiece (rowAddr o.dst o.dStride i) (rowRead o a.view i))).map (fun w => (w.1, w.2.1))
        = (spanLines (rowAddr o.dst o.dStride i) (rowBytes o.len m.1 (rowAddr o.src o.sStride i)).length).map
            (linePiece (rowAddr o.dst o.dStride i) (rowBytes o.len m.1 (rowAddr o.src o.sStride i))) := by
      rw [List.map_map, length_rowBytes]
      refine List.map_congr_left fun y _ => ?_
      rw [Function.comp_apply, copyPiece_bytes, bytes_rowRead, rows.cells]
    dsimp only
    rw [List.map_append, List.foldl_append, rows.bytes x, pieces, putStep_spanLines, copiedStep, List.foldl_append, List.foldl_cons,
      List.foldl_nil]

theorem rowsCopied {c : Cmd} {r : RunCmd} {z : State} {a : CopyRun} (near : (copyOp c).src < spEnd) (plain : (copyOp c).tile = false)
    (toSp : (copyOp c).dst < spEnd) (ok : localOk (copyOp c).dst (copyOp c).dStride (copyOp c).rows (copyOp c).len = true)
    (start : RowsCopied z (z.core.sp, []) a) : ∀ n ≤ (copyOp c).rows,
      RowsCopied z ((List.range n).foldl (copiedStep (copyOp c)) (z.core.sp, [])) ((List.range n).foldl (copyRow (copyOp c) r) a)
  | 0, _ => start
  | n + 1, le => by
    rw [List.range_succ, List.foldl_append, List.foldl_append]
    exact rowsCopied_step (rowsCopied near plain toSp ok start n (Nat.le_of_succ_le le)) near plain toSp (row_within le toSp ok)

/-- How a copy to a tile register stands after its first rows. -/
structure RowsGathered (o : CopyOp) (z : State) (n : Nat) (a : CopyRun) : Prop where
  state : a.s = z
  going : a.halt = none
  empty : a.buf = []
  view : a.view = z.core
  writes : a.writes = []
  bytes : a.tile.map (·.1) = (List.range n).flatMap fun i => rowBytes o.len z.core.sp (rowAddr o.src o.sStride i)

theorem rowsGathered {o : CopyOp} {r : RunCmd} {z : State} {a : CopyRun} (near : o.src < spEnd) (tile : o.tile = true) (start : RowsGathered o z 0 a) :
    ∀ n, RowsGathered o z n ((List.range n).foldl (copyRow o r) a)
  | 0 => start
  | n + 1 => by
    rw [List.range_succ, List.foldl_append, List.foldl_cons, List.foldl_nil]
    have rows := rowsGathered (r := r) near tile start n
    obtain ⟨p, eq⟩ := copyRow_toTile (r := r) (i := n) rows.going rows.empty near tile
    rw [eq]
    refine ⟨rows.state, rows.going, rows.empty, rows.view, rows.writes, ?_⟩
    dsimp only
    rw [List.map_append, rows.bytes, bytes_rowRead, rows.view, List.range_succ, List.flatMap_append, List.flatMap_singleton]

end Sys2Proof.Machine

namespace Sys2Proof.Machine

open Sys2Proof.Laws.Engine

/-! ### A COPY2D as its engine works on it (16_isa_engines R444, R445) -/

section
variable {c : Cmd} {s : State}

theorem copyTaking_eq (c : Cmd) (s : State) : ∃ tag, copyTaking c s = { taking (copyEngine s c) c s with tag := tag }
    ∧ tag = if (copyOp c).tagged then some (copySlot (copyOp c), (copyOp c).seqTag, cyc (started (copyEngine s c) c s)) else none := by
  rw [copyTaking]
  dsimp only
  split
  · exact ⟨_, rfl, rfl⟩
  · exact ⟨none, rfl, rfl⟩

theorem core_copyTaking (c : Cmd) (s : State) : (copyTaking c s).core = c.core := by
  obtain ⟨tag, eq, -⟩ := copyTaking_eq c s
  rw [eq]
  exact core_taking (copyEngine s c) c s

/-- The state in which a copy starts, its slot or its tile register with a producer more. -/
def copyPosted (c : Cmd) (s : State) : State :=
  let o := copyOp c
  let z := started (copyEngine s c) c s
  let z1 := if o.tagged then post (cyc z) (engOrder (copyEngine s c)) (.slotPend (copySlot o)) z else z
  if o.tile then post (cyc z) (engOrder (copyEngine s c)) (.tPend o.treg) z1 else z1

theorem copying_eq (c : Cmd) (s : State) : copying c s = takeUp (copyEngine s c) (taking (copyEngine s c) c s) (copyPosted c s) := rfl

theorem copyPosted_eq (c : Cmd) (s : State) : ∃ l, copyPosted c s = withFx l (started (copyEngine s c) c s) := by
  rw [copyPosted]
  generalize started (copyEngine s c) c s = z
  split
  · split
    · exact ⟨_, withFx_withFx _ _ z⟩
    · exact ⟨_, rfl⟩
  · split
    · exact ⟨_, rfl⟩
    · exact ⟨[], (withFx_nil z).symm⟩

theorem cyc_takeUp (eng : Nat) (r : RunCmd) (s : State) : cyc (takeUp eng r s) = cyc s := by
  rw [takeUp]
  split
  · rfl
  split <;> rfl

theorem cyc_copying (c : Cmd) (s : State) : cyc (copying c s) = cyc (started (copyEngine s c) c s) := by
  obtain ⟨l, eq⟩ := copyPosted_eq c s
  rw [copying_eq, cyc_takeUp, eq]
  rfl

theorem worksAtOnce_withFx (eng : Nat) (all : Bool) (r : RunCmd) (tag : Option (Nat × BitVec 16 × Cycle)) (l : List Fx) (s : State) :
    worksAtOnce eng all { r with tag := tag } (withFx l s) = worksAtOnce eng all r s := by
  have done : accessesDone (getCore (withFx l s) r.core) r.mark = accessesDone (getCore s r.core) r.mark := by
    show accessesDone (if r.core = s.coreId then (withFx l s).core else _) r.mark = accessesDone (if r.core = s.coreId then s.core else _) r.mark
    split <;> rfl
  rw [worksAtOnce, done]
  rfl

/-- A COPY2D that nothing keeps waiting does its work. -/
theorem exec_copy2d_of_atOnce (free : worksAtOnce (copyEngine s c) (!(copyOp c).near) (taking (copyEngine s c) c s) (started (copyEngine s c) c s) = true)
    (header : headerOk c.bits = true) (valid : copyValid c (focus s c.core) = true) (ready : copyReady c (focus s c.core) = .ok ()) :
    exec (.copy2d c) s = .next (copyWork c (copyTaking c s) (copying c s)) := by
  obtain ⟨tag, taking_eq, -⟩ := copyTaking_eq c s
  obtain ⟨l, posted⟩ := copyPosted_eq c s
  have goes : worksAtOnce (copyEngine s c) (!(copyOp c).near) (copyTaking c s) (copyPosted c s) = true := by
    rw [taking_eq, posted, worksAtOnce_withFx, free]
  refine (exec_of_ready (work := copyStart c) rfl header valid ready).trans (congrArg _ ((whenReady_of_atOnce goes (copyWork c)).trans ?_))
  rw [copying_eq, taking_eq]
  rfl

end

/-! ### What a copy leaves (R444, R445) -/

/-- A copy before its first row. -/
def copyFrom (r : RunCmd) (s : State) : CopyRun :=
  { s := s, view := s.core, writes := [], tile := [], halt := none, done := r.done, buf := r.buf, poisoned := r.poisoned }

/-- What lands of a copy that met no halt. -/
def copyFx (o : CopyOp) (r : RunCmd) (a : CopyRun) (land : Cycle) : List Fx :=
  let n := engOrder r.eng
  (a.writes.map fun w => { due := land, order := n, eff := .localWrite w.1 w.2.1 w.2.2 })
    ++ (if o.tile then
          [{ due := land, order := n,
             eff := .tWrite o.treg (BitVec.ofNat 65536 (leNat (a.tile.map (·.1)))) (BitVec.ofNat 4 o.fmt) (a.tile.any (·.2)) true }]
        else [])
    ++ (if o.fillsSlot then [{ due := land, order := n, eff := .slotWhole (o.dst / 4096) }] else [])
    ++ match r.tag with
       | some (slot, tag, issued) => [{ due := land, order := n, eff := .slotLand slot tag issued }]
       | none => []

/-- A copy that met no halt, on its way to its end. -/
def copyFinished (o : CopyOp) (r : RunCmd) (a : CopyRun) (land : Cycle) : RunCmd :=
  let q := endsWith { r with done := a.done, buf := a.buf, poisoned := a.poisoned, land := land, tag := none } (land + 4)
    (if a.poisoned then stPoisoned else stOk) 0
  if o.follow then { q with follow := some o.word, pending := true } else q

theorem ite_post (p : Prop) [Decidable p] (due : Cycle) (order : Nat) (e : Effect) (s : State) :
    (if p then post due order e s else s) = withFx (if p then [{ due := due, order := order, eff := e }] else []) s := by
  split
  · rfl
  · exact (withFx_nil s).symm

section
variable {o : CopyOp} {r : RunCmd} {a : CopyRun} {land : Cycle} (done : a.halt = none)
include done

theorem copyLand_of_done : copyLand o r a land = withFx (copyFx o r a land) a.s := by
  rw [copyLand, copyFx, done]
  dsimp only
  rw [foldl_post, ite_post, ite_post, withFx_withFx, withFx_withFx, ← List.append_assoc]
  cases r.tag with
  | none => exact congrArg (withFx · a.s) (List.append_nil _).symm
  | some tag => exact withFx_withFx ..

theorem copyWork_of_done {c : Cmd} {z z1 : State} (lands : copyLands (copyOp c) z = (land, z1))
    (rows : ((List.range (copyOp c).rows).drop r.done.1).foldl (copyRow (copyOp c) r) (copyFrom r z1) = a) :
    copyWork c r z = putRun (copyFinished (copyOp c) r a land) (withFx (copyFx (copyOp c) r a land) a.s) := by
  rw [copyWork, lands]
  rw [copyFrom] at rows
  dsimp only
  rw [rows, copyLand_of_done done, done, copyFinished]

end

section
variable {o : CopyOp} {r : RunCmd} {a : CopyRun} {land : Cycle}

theorem due_of_mem_copyFx : ∀ x ∈ copyFx o r a land, x.due = land := by
  intro x mem
  simp only [copyFx, List.mem_append, List.mem_map] at mem
  rcases mem with ((⟨w, -, rfl⟩ | tile) | whole) | tagged
  · rfl
  · split at tile
    · rw [List.mem_singleton.1 tile]
    · exact absurd tile (List.not_mem_nil)
  · split at whole
    · rw [List.mem_singleton.1 whole]
    · exact absurd whole (List.not_mem_nil)
  · split at tagged
    · rw [List.mem_singleton.1 tagged]
    · exact absurd tagged (List.not_mem_nil)

theorem putAt_copyFx (x : Nat) : putAt (copyFx o r a land) x = (a.writes.map fun w => (w.1, w.2.1)).foldl (putStep x) none := by
  rw [copyFx, List.append_assoc, List.append_assoc, putAt_append _ _ _ ?_, putAt_writes]
  intro f mem b bs p eff
  simp only [List.mem_append] at mem
  rcases mem with tile | whole | tagged
  · split at tile
    · rw [List.mem_singleton.1 tile] at eff; exact nomatch eff
    · exact absurd tile (List.not_mem_nil)
  · split at whole
    · rw [List.mem_singleton.1 whole] at eff; exact nomatch eff
    · exact absurd whole (List.not_mem_nil)
  · split at tagged
    · rw [List.mem_singleton.1 tagged] at eff; exact nomatch eff
    · exact absurd tagged (List.not_mem_nil)

theorem slotLand_mem_copyFx {slot : Nat} {tag : BitVec 16} {issued : Cycle} (tagged : r.tag = some (slot, tag, issued)) :
    { due := land, order := engOrder r.eng, eff := .slotLand slot tag issued } ∈ copyFx o r a land := by
  rw [copyFx, tagged]
  exact List.mem_append_right _ (List.mem_singleton_self _)

/-- Of a copy to a tile register lands one write of it. -/
theorem copyFx_of_tile (tile : o.tile = true) (unwritten : a.writes = []) (untagged : r.tag = none) :
    copyFx o r a land = [Fx.mk land (engOrder r.eng)
      (.tWrite o.treg (BitVec.ofNat 65536 (leNat (a.tile.map (·.1)))) (BitVec.ofNat 4 o.fmt) (a.tile.any (·.2)) true)] := by
  have fills : o.fillsSlot = false := by rw [CopyOp.fillsSlot, tile]; rfl
  rw [copyFx, unwritten, untagged, fills, tile]
  rfl

/-- Nothing lands of a copy of space gl whose writes are done. -/
theorem copyFx_of_far (plain : o.tile = false) (far : spEnd ≤ o.dst) (unwritten : a.writes = []) (untagged : r.tag = none) : copyFx o r a land = [] := by
  have fills : o.fillsSlot = false := by rw [CopyOp.fillsSlot, decide_eq_false (Nat.not_lt.2 far)]; simp
  rw [copyFx, unwritten, untagged, fills, plain]
  rfl

theorem copyFinished_fields (o : CopyOp) (r : RunCmd) (a : CopyRun) (land : Cycle) :
    (copyFinished o r a land).core = r.core ∧ (copyFinished o r a land).eng = r.eng ∧ (copyFinished o r a land).seq = r.seq
      ∧ (copyFinished o r a land).due = land + 4 ∧ (copyFinished o r a land).land = land ∧ (copyFinished o r a land).waiting = false
      ∧ (copyFinished o r a land).status.toNat = if a.poisoned then stPoisoned else stOk := by
  rw [copyFinished]
  split <;> refine ⟨rfl, rfl, rfl, rfl, rfl, rfl, ?_⟩ <;> simp only [endsWith] <;> split <;> rfl

theorem pending_copyFinished (r : RunCmd) (a : CopyRun) (land : Cycle) (plain : o.follow = false) : (copyFinished o r a land).pending = false := by
  rw [copyFinished, plain]
  rfl

theorem follow_copyFinished (r : RunCmd) (a : CopyRun) (land : Cycle) (follow : o.follow = true) :
    (copyFinished o r a land).follow = some o.word ∧ (copyFinished o r a land).pending = true := by
  rw [copyFinished, follow]
  exact ⟨rfl, rfl⟩

end

end Sys2Proof.Machine

namespace Sys2Proof.Machine

open Sys2Proof.Laws.Engine

/-! ### COPY2D records that are in order (R438, R443) -/

/-- What the checks of a record say that its copy needs. -/
structure CopyInOrder (o : CopyOp) : Prop where
  len : 1 ≤ o.len
  rows : 1 ≤ o.rows
  tile : o.tile = true → o.rows * o.len ≤ 8192 ∧ o.tagged = false
  follow : o.tile = false → o.follow = false
  tagged : o.tagged = true → o.dst < spEnd
  dst : o.tile = false → localOk o.dst o.dStride o.rows o.len = true

theorem inOrder_of_valid {c : Cmd} {s : State} (valid : copyValid c s = true) : CopyInOrder (copyOp c) := by
  simp only [copyValid, Bool.and_eq_true, decide_eq_true_eq] at valid
  obtain ⟨⟨⟨⟨⟨⟨⟨⟨⟨⟨⟨-, len⟩, rows⟩, -⟩, -⟩, tile⟩, follow⟩, tagged⟩, -⟩, dst⟩, -⟩, -⟩ := valid
  refine ⟨len, rows, fun is => ?_, fun plain => ?_, fun is => ?_, fun plain => ?_⟩
  · rw [if_pos is] at tile
    simp only [Bool.and_eq_true, decide_eq_true_eq, Bool.not_eq_true'] at tile
    exact ⟨tile.1.2, tile.2⟩
  · cases word : (copyOp c).follow with
    | false => rfl
    | true => rw [word, if_pos rfl, followOk, plain] at follow; exact absurd follow (by simp)
  · exact (show _ ∧ _ by simpa [is] using tagged).2
  · simpa [plain] using dst

theorem fld_lt (c : Cmd) (off n : Nat) : fld c off n < 2 ^ (8 * n) := Nat.mod_lt _ (Nat.two_pow_pos _)

section
variable {c : Cmd} {s : State}

theorem fresh_copyTaking (c : Cmd) (s : State) :
    (copyTaking c s).eng = copyEngine s c ∧ (copyTaking c s).seq = c.seq ∧ (copyTaking c s).done = (0, 0) ∧ (copyTaking c s).buf = []
      ∧ (copyTaking c s).poisoned = false := by
  obtain ⟨tag, eq, -⟩ := copyTaking_eq c s
  rw [eq]
  exact ⟨rfl, rfl, rfl, rfl, rfl⟩

theorem tag_copyTaking (c : Cmd) (s : State) :
    (copyTaking c s).tag = if (copyOp c).tagged then some (copySlot (copyOp c), (copyOp c).seqTag, cyc (copying c s)) else none := by
  obtain ⟨tag, eq, tag_eq⟩ := copyTaking_eq c s
  rw [eq, cyc_copying]
  exact tag_eq

/-- The rows of a copy, from the first. -/
def copyRows (c : Cmd) (s z : State) : CopyRun := (List.range (copyOp c).rows).foldl (copyRow (copyOp c) (copyTaking c s)) (copyFrom (copyTaking c s) z)

theorem copyWork_of_rows {land : Cycle} {z1 : State} (lands : copyLands (copyOp c) (copying c s) = (land, z1)) (done : (copyRows c s z1).halt = none) :
    copyWork c (copyTaking c s) (copying c s)
      = putRun (copyFinished (copyOp c) (copyTaking c s) (copyRows c s z1) land)
          (withFx (copyFx (copyOp c) (copyTaking c s) (copyRows c s z1) land) (copyRows c s z1).s) := by
  obtain ⟨-, -, fresh, -, -⟩ := fresh_copyTaking c s
  exact copyWork_of_done done lands (by rw [fresh]; rfl)

/-! ### Both ends within the core -/

theorem copyLands_of_near {o : CopyOp} (near : o.near = true) (z : State) : copyLands o z = (cyc z + 8 + ceilDiv (o.rows * o.len) 128, z) := if_pos near

theorem near_iff {o : CopyOp} : o.near = true ↔ o.src < spEnd ∧ (o.tile = true ∨ o.dst < spEnd) := by
  simp [CopyOp.near]

/-- A copy within the scratchpad has copied its rows. -/
theorem copyRows_toSp (src : (copyOp c).src < spEnd) (plain : (copyOp c).tile = false) (dst : (copyOp c).dst < spEnd)
    (ok : localOk (copyOp c).dst (copyOp c).dStride (copyOp c).rows (copyOp c).len = true) (z : State) :
    RowsCopied z ((List.range (copyOp c).rows).foldl (copiedStep (copyOp c)) (z.core.sp, [])) (copyRows c s z) := by
  obtain ⟨-, -, -, buf, -⟩ := fresh_copyTaking c s
  have start : RowsCopied z (z.core.sp, []) (copyFrom (copyTaking c s) z) := ⟨rfl, rfl, buf, rfl, fun _ => rfl⟩
  exact rowsCopied src plain dst ok start _ (Nat.le_refl _)

theorem copyRows_toTile (src : (copyOp c).src < spEnd) (tile : (copyOp c).tile = true) (z : State) :
    RowsGathered (copyOp c) z (copyOp c).rows (copyRows c s z) := by
  obtain ⟨-, -, -, buf, -⟩ := fresh_copyTaking c s
  have start : RowsGathered (copyOp c) z 0 (copyFrom (copyTaking c s) z) := ⟨rfl, rfl, buf, rfl, rfl, rfl⟩
  exact rowsGathered src tile start _

/-! ### One row, with an end off the core -/

/-- What the one row of a copy reads. -/
def firstRead (o : CopyOp) (r : RunCmd) (z z1 : State) : Except Halt EBytes :=
  if o.src < 0x80000 then .ok ((spanLines o.src o.len).flatMap fun y => (cellRead z.core.sp y.2.1 (y.2.2 - y.2.1)).map fun b => (b, spPoison z.core y.1))
  else engRead z1 r .copy o.src o.len

theorem copyReadRow_first {r : RunCmd} {z z1 : State} (core : z1.core = z.core) :
    copyReadRow (copyOp c) r 0 (copyFrom r z1) = firstRead (copyOp c) r z z1 := by
  have addr : rowAddr (copyOp c).src (copyOp c).sStride 0 = (copyOp c).src := rowAddr_zero (fld_lt c 16 8) _
  rw [copyReadRow, addr, firstRead, copyFrom]
  dsimp only
  rw [core]
  rfl

theorem copyLands_of_far {o : CopyOp} (far : o.near = false) (z : State) :
    (copyLands o z).2.core = z.core ∧ cyc z + coreCycles z z.coreId (farCopyBase + ceilDiv (o.rows * o.len) 64) ≤ (copyLands o z).1 := by
  rw [copyLands, far]
  exact ⟨rfl, Nat.add_le_add_left (coreCycles_le z z.coreId (Nat.le_add_right ..)) _⟩

theorem no_poison {b : EBytes} (sound : ∀ y ∈ b, y.2 = false) : b.any (·.2) = false :=
  List.any_eq_false.2 fun y mem => by rw [sound y mem]; exact Bool.false_ne_true

section
variable {z1 : State} (one : (copyOp c).rows = 1)
include one

/-- One row is the first row. -/
theorem copyRows_of_one : copyRows c s z1 = copyRow (copyOp c) (copyTaking c s) (copyFrom (copyTaking c s) z1) 0 := by
  rw [copyRows, one]
  rfl

variable (core : z1.core = (copying c s).core)
include core

section
variable {b : EBytes} (read : firstRead (copyOp c) (copyTaking c s) (copying c s) z1 = .ok b) (sound : ∀ y ∈ b, y.2 = false)
include read sound

theorem copyRows_tile (tile : (copyOp c).tile = true) : copyRows c s z1 = { copyFrom (copyTaking c s) z1 with tile := b } := by
  obtain ⟨-, -, -, buf, poisoned⟩ := fresh_copyTaking c s
  have quiet := no_poison sound
  rw [copyRows_of_one one, copyRow_tile rfl buf ((copyReadRow_first core).trans read) (.inr quiet) tile, quiet]
  simp only [copyFrom, buf, poisoned, Bool.or_false, List.nil_append]

theorem copyRows_sp (plain : (copyOp c).tile = false) (toSp : (copyOp c).dst < spEnd) :
    copyRows c s z1 = copyPutLocal (copyOp c).dst b { copyFrom (copyTaking c s) z1 with done := (1, 0) } := by
  obtain ⟨-, -, -, buf, poisoned⟩ := fresh_copyTaking c s
  have quiet := no_poison sound
  rw [copyRows_of_one one, copyRow_sp rfl buf ((copyReadRow_first core).trans read) (.inr quiet) plain toSp, quiet,
    rowAddr_zero (base := (copyOp c).dst) (fld_lt c 24 8)]
  simp only [copyFrom, buf, poisoned, Bool.or_false, Nat.zero_add]

theorem copyRows_gl (plain : (copyOp c).tile = false) (toGl : ¬ (copyOp c).dst < spEnd)
    (written : (engWrite z1 (copyTaking c s) .copy (cmdStamp (copyTaking c s)) (copyOp c).dst b 0).halt = none) :
    copyRows c s z1 = { copyFrom (copyTaking c s) z1 with
      s := (engWrite z1 (copyTaking c s) .copy (cmdStamp (copyTaking c s)) (copyOp c).dst b 0).s, done := (1, 0) } := by
  obtain ⟨-, -, done, buf, poisoned⟩ := fresh_copyTaking c s
  have quiet := no_poison sound
  have addr : rowAddr (copyOp c).dst (copyOp c).dStride 0 = (copyOp c).dst := rowAddr_zero (fld_lt c 24 8) _
  have first : (copyFrom (copyTaking c s) z1).done.2 = 0 := congrArg Prod.snd done
  rw [copyRows_of_one one, copyRow_gl rfl buf ((copyReadRow_first core).trans read) (.inr quiet) plain toGl (by rw [addr, first]; exact written), quiet,
    addr, first]
  simp only [copyFrom, buf, poisoned, Bool.or_false, Nat.zero_add]

end

theorem copyRows_of_halt {h : Halt} (read : firstRead (copyOp c) (copyTaking c s) (copying c s) z1 = .error h) :
    copyRows c s z1 = { copyFrom (copyTaking c s) z1 with halt := some h, done := (0, 0) } := by
  obtain ⟨-, -, -, buf, -⟩ := fresh_copyTaking c s
  rw [copyRows_of_one one, copyRow_of_halt rfl buf ((copyReadRow_first core).trans read), ite_self]

end

/-- The command as a copy that meets a halt leaves it. -/
def copyHalted (c : Cmd) (s z1 : State) (land : Cycle) : RunCmd :=
  { copyTaking c s with done := (copyRows c s z1).done, buf := (copyRows c s z1).buf, poisoned := (copyRows c s z1).poisoned, land := land }

section
variable {land : Cycle} {z1 : State} (lands : copyLands (copyOp c) (copying c s) = (land, z1))
include lands

/-- A copy that meets a halt ends with it, once what it wrote has landed, or it parks or waits at it. -/
theorem copyWork_of_stop {st : Nat} {trap : Option Trap} (halted : (copyRows c s z1).halt = some (.stop st trap)) :
    copyWork c (copyTaking c s) (copying c s)
      = putRun (endsWith { copyHalted c s z1 land with trap := trap } (land + 4) st 0) (copyLand (copyOp c) (copyTaking c s) (copyRows c s z1) land) := by
  obtain ⟨-, -, fresh, -, -⟩ := fresh_copyTaking c s
  rw [copyRows, copyFrom, fresh] at halted
  rw [copyWork, lands, copyHalted, copyRows, copyFrom, fresh, List.drop_zero]
  dsimp only
  rw [halted]

theorem copyWork_of_halt {h : Halt} (halted : (copyRows c s z1).halt = some h) (goesOn : ∀ st trap, h ≠ .stop st trap) :
    copyWork c (copyTaking c s) (copying c s)
      = haltRun h (copyHalted c s z1 land) (copyLand (copyOp c) (copyTaking c s) (copyRows c s z1) land) := by
  obtain ⟨-, -, fresh, -, -⟩ := fresh_copyTaking c s
  rw [copyRows, copyFrom, fresh] at halted
  rw [copyWork, lands, copyHalted, copyRows, copyFrom, fresh, List.drop_zero]
  dsimp only
  rw [halted]
  cases h with
  | stop st trap => exact absurd rfl (goesOn st trap)
  | park f => rfl
  | wait pa w => rfl

end

theorem running_queueFault (e : FaultEntry) (s : State) : (queueFault e s).running = s.running := by
  rw [queueFault]
  split
  · rfl
  · rfl

end

end Sys2Proof.Machine

namespace Sys2Proof.Machine

open Sys2Proof.Laws.Engine

/-! ### Commands that are on their way to their end, or go on (16_isa_engines R439, R440) -/

/-- The command is to end with a status. -/
def Ending (c : Cmd) (t : State) (eng st : Nat) : Prop :=
  ∃ q ∈ t.running, q.core = c.core ∧ q.eng = eng ∧ q.seq = c.seq ∧ q.status.toNat = st ∧ q.pending = false ∧ q.waiting = false

section
variable {i : Instr} {eng : Nat} {c : Cmd} {s t : State}

theorem ending_of_endsWith {n st result : Nat} (ends : EndsWith i eng c s n st result t) (small : st < 256) :
    ∃ u, exec i s = .next u ∧ Ending c u eng st ∧ u = { t with running := u.running, fresh := u.fresh } := by
  obtain ⟨u, q, next, mem, core, engine, seq, status, -, -, waiting, pending, -, frame⟩ := ends
  exact ⟨u, next, ⟨q, mem, core, engine, seq, status.trans (Nat.mod_eq_of_lt small), pending, waiting⟩, frame⟩

theorem exec_of_endsWith {n st result : Nat} (ends : EndsWith i eng c s n st result t) (small : st < 256) : ∃ u, exec i s = .next u ∧ Ending c u eng st := by
  obtain ⟨u, next, ending, -⟩ := ending_of_endsWith ends small
  exact ⟨u, next, ending⟩

theorem ending_putRun {r : RunCmd} (core : r.core = c.core) (engine : r.eng = eng) (seq : r.seq = c.seq) (due : Cycle) {st : Nat} (small : st < 256)
    (result : Nat) (t : State) : Ending c (putRun (endsWith r due st result) t) eng st :=
  ⟨_, mem_putRun _ _, core, engine, seq, (BitVec.toNat_ofNat _ _).trans (Nat.mod_eq_of_lt small), rfl, rfl⟩

/-- A command that may have met poison ends with one of two statuses. -/
theorem ending_putRun_poison {r : RunCmd} (core : r.core = c.core) (engine : r.eng = eng) (seq : r.seq = c.seq) (due : Cycle) (poison : Bool)
    (result : Nat) (t : State) :
    Ending c (putRun (endsWith r due (if poison = true then stPoisoned else stOk) result) t) eng stOk
      ∨ Ending c (putRun (endsWith r due (if poison = true then stPoisoned else stOk) result) t) eng stPoisoned := by
  cases poison with
  | false => exact .inl (ending_putRun core engine seq due (by decide) result t)
  | true => exact .inr (ending_putRun core engine seq due (by decide) result t)

/-- The outputs of a ligature command begin in the scratchpad: it ends. -/
theorem ending_ligFinish {r : RunCmd} (core : r.core = c.core) (engine : r.eng = eng) (seq : r.seq = c.seq) (cycles : Nat) {outs : Outputs}
    (within : ∀ o ∈ outs, o.1 < spEnd) (poison : Bool) (result : Nat) (flags : FpFlags) (f : State → State) (s : State) :
    Ending c (ligFinish r cycles outs poison result flags f s) eng (if poison = true then stPoisoned else stOk) := by
  obtain ⟨due, t, eq, -⟩ := ligFinish_of_local r cycles within poison result flags f s
  rw [eq]
  refine ending_putRun core engine seq due ?_ result _
  split <;> decide

theorem ending_or {st : Bool} (ending : Ending c t eng (if st = true then stPoisoned else stOk)) : Ending c t eng stOk ∨ Ending c t eng stPoisoned := by
  cases st with
  | false => exact .inl ending
  | true => exact .inr ending

end

/-- A copy of one row within the scratchpad ends. -/
theorem copy2d_ends_of_local {c : Cmd} {s : State}
    (free : worksAtOnce (copyEngine s c) false (taking (copyEngine s c) c s) (started (copyEngine s c) c s) = true) (header : headerOk c.bits = true)
    (valid : copyValid c (focus s c.core) = true) (ready : copyReady c (focus s c.core) = .ok ()) (src : (copyOp c).src < spEnd)
    (dst : (copyOp c).dst < spEnd) (plain : (copyOp c).tile = false) :
    ∃ t, exec (.copy2d c) s = .next t ∧ (Ending c t (copyEngine s c) stOk ∨ Ending c t (copyEngine s c) stPoisoned) := by
  have order := inOrder_of_valid valid
  have near : (copyOp c).near = true := near_iff.2 ⟨src, .inr dst⟩
  obtain ⟨state, done, -, -, -⟩ := copyRows_toSp (s := s) src plain dst (order.dst plain) (copying c s)
  refine ⟨_, (exec_copy2d_of_atOnce (by rw [near]; exact free) header valid ready).trans (congrArg _ (copyWork_of_rows (copyLands_of_near near _) done)), ?_⟩
  obtain ⟨engine, seq, -, -, -⟩ := fresh_copyTaking c s
  obtain ⟨core', engine', seq', -, -, waiting, status⟩ := copyFinished_fields (copyOp c) (copyTaking c s) (copyRows c s (copying c s))
    (cyc (copying c s) + 8 + ceilDiv ((copyOp c).rows * (copyOp c).len) 128)
  exact ending_or ⟨_, mem_putRun _ _, core'.trans (core_copyTaking c s), engine'.trans engine, seq'.trans seq, status,
    pending_copyFinished _ _ _ (order.follow plain), waiting⟩

end Sys2Proof.Machine

namespace Sys2Proof.Proofs

open Sys2Proof.Machine Sys2Proof.Laws.Engine

/-- Settles O59: the table engines by what they do (O46), the data engines by what their work leaves. -/
theorem engineCommandCompletion : Obligations.EngineCommandCompletion := by
  unfold Obligations.EngineCommandCompletion
  intro s c header f r z y free ends goesOn
  obtain ⟨adapter, allocator, migration, collective⟩ := tableEngineResults s c header
  refine ⟨?copy, ?remote, ?attention, ?ligature, ?drop, ?pins, ?commit, ?sequences, ?migrations, ?collectives, ?weights⟩
  case copy =>
    intro o e atOnce valid ready src dst _ plain _ _
    have len : 1 ≤ o.len := (inOrder_of_valid valid).len
    exact copy2d_ends_of_local atOnce header valid ready (show o.src < 0x80000 by omega) (show o.dst < 0x80000 by omega) plain
  case remote =>
    intro atOnce valid view remote
    obtain ⟨x, t, work⟩ := copyrWork_of_remote (r := r 0x08) view remote
    exact ⟨_, (exec_of_atOnce (ready := noOperands) (work := copyrWork c) rfl header valid rfl atOnce).trans (congrArg _ work), _, mem_putRun _ _, core_taking 0x08 c s, rfl, rfl, .inl rfl⟩
  case attention =>
    intro q x rr yy atOnce valid ready untagged seq world running cached read
    have taking_eq : attnTaking c s = rr := by rw [attnTaking, if_neg (by rw [untagged]; exact Bool.false_ne_true)]
    have attending_eq : attending c s = yy := by rw [attending, if_neg (by rw [untagged]; exact Bool.false_ne_true), taking_eq]
    have runs := exec_slattn_of_read atOnce header valid ready (q := q) (x := x)
    rw [taking_eq, attending_eq] at runs
    obtain ⟨p, mem, core, engine, number, -, status, -, -, -, pending, waiting⟩ := attnFinish_ends (attnOp c) q rr x.1 x.2 yy
    have same : rr.core = c.core ∧ rr.eng = 0x10 ∧ rr.seq = c.seq := by
      have latched : rr = _ := attnLatch_fresh seq rfl rfl
      rw [latched]
      exact ⟨core_taking 0x10 c s, rfl, rfl⟩
    obtain ⟨core', engine', number'⟩ := same
    have stands (st : Nat) (at_ : p.status.toNat = st) : ends (attnFinish (attnOp c) q rr x.1 x.2 yy) 0x10 st :=
      ⟨p, mem, core.trans core', engine.trans engine', number.trans number', at_, pending, waiting⟩
    exact ⟨_, runs seq world running cached read, status.imp (stands stOk) (stands stPoisoned)⟩
  case ligature =>
    intro atOnce
    have core := core_taking 0x11 c s
    refine ⟨fun m k x w valid ready named read => ⟨_, ?_, rfl, fun room => ?_⟩, fun m b valid ready named fits read => ⟨_, _, ?_, rfl, rfl, fun inside => ?_⟩,
      fun m valid named fits => ⟨_, ?_, rfl, fun inside => ?_⟩⟩
    · exact (exec_of_atOnce (work := mergeWork c) rfl header valid ready atOnce).trans (congrArg _ (mergeWork_of_read named read))
    · obtain ⟨due, poison, t, eq⟩ := mergeOn_of_room (m := m) (keys := k) (x := x) (sz := w) (r := r 0x11) (s := y 0x11) room
      rw [eq]
      exact ending_putRun_poison core rfl rfl due poison _ _
    · exact (exec_of_atOnce (work := unmergeWork c) rfl header valid ready atOnce).trans (congrArg _ (unmergeWork_of_read named fits read rfl))
    · exact ending_or (ending_ligFinish core rfl rfl _ (fun o mem => by rw [List.mem_singleton.1 mem]; exact inside) _ _ _ _ _)
    · exact (exec_of_atOnce (ready := noOperands) (work := lgsaveWork c) rfl header valid rfl atOnce).trans (congrArg _ (lgsaveWork_of_fits named fits))
    · exact ending_ligFinish core rfl rfl _ (fun o mem => by rw [List.mem_singleton.1 mem]; exact inside) false _ _ _ _
  case drop =>
    intro m atOnce valid named
    exact exec_of_endsWith (endsWith_of_delay ((exec_of_atOnce (ready := noOperands) (work := lgdropWork c) rfl header valid rfl atOnce).trans
      (congrArg _ (lgdropWork_of_named named))) (core_taking 0x11 c s) rfl rfl) (by decide)
  case pins =>
    obtain ⟨pin, -, unpin, create, live⟩ := adapter
    intro _
    refine ⟨fun a v u n valid found current may admitted => exec_of_endsWith (pin a v u n valid found current may admitted).1 (by decide),
      fun valid outside held => exec_of_endsWith (unpin valid outside held) (by decide), fun valid index unused => ?_, fun a found own => ?_⟩
    · obtain ⟨t, a, made, -, members, handle, -⟩ := create valid index unused
      obtain ⟨u, next, ending, frame⟩ := ending_of_endsWith made (by decide)
      exact ⟨u, next, ending, a, by rw [frame]; exact (members a).2 (.inl rfl), handle⟩
    · obtain ⟨grant, prepare, delete, -⟩ := live a found
      refine ⟨fun valid => ?_, fun valid ⟨v, mem, free_⟩ key next => ?_, fun valid => exec_of_endsWith (delete valid own) (by decide)⟩
      · obtain ⟨t, granted, -⟩ := grant valid own
        exact exec_of_endsWith granted (by decide)
      · obtain ⟨slot, key⟩ := Option.isSome_iff_exists.1 key
        have some_ : a.vers.toList.any (fun v => v.st = 0) = true := List.any_eq_true.2 ⟨v, mem, decide_eq_true free_⟩
        obtain ⟨i, place⟩ := Option.isSome_iff_exists.1 (List.findIdx?_isSome.trans some_)
        obtain ⟨t, prepared, -⟩ := prepare valid (.inl own) i slot place key next
        exact exec_of_endsWith prepared (by decide)
  case commit =>
    obtain ⟨-, -, -, -, live⟩ := adapter
    intro a v es u atOnce valid found own version bound factors placed
    obtain ⟨-, -, -, commit⟩ := live a found
    exact exec_of_endsWith (commit v es u atOnce valid (.inl own) version bound factors placed) (by decide)
  case sequences =>
    obtain ⟨alloc, -, pool, seqs⟩ := allocator
    refine ⟨fun u e n valid block unused => exec_of_endsWith (alloc u e n valid block unused) (by decide), fun valid => exec_of_endsWith (pool valid) (by decide),
      fun q named running world => ?_⟩
    obtain ⟨extend, share, setlen, kfree⟩ := seqs q named running world
    exact ⟨fun u e valid room block => exec_of_endsWith (extend u e valid room block) (by decide),
      fun x valid room pool aligned pages => exec_of_endsWith (share x valid room pool aligned pages) (by decide),
      fun valid fits => exec_of_endsWith (setlen valid fits) (by decide),
      fun valid valid' unheld outside => exec_of_endsWith (kfree valid valid' unheld outside) (by decide)⟩
  case migrations =>
    intro valid
    obtain ⟨-, cancel, -⟩ := migration valid
    refine ⟨fun takes => ?_, fun m found => exec_of_endsWith (cancel m found) (by decide)⟩
    have queued : ∃ t, migWork c (r 0x14) (z 0x14) = t ∧ goesOn t 0x14 ∧ t.migQueue.length = (z 0x14).migQueue.length + 1 := by
      refine ⟨_, migWork_of_takes takes, ⟨_, mem_putRun _ _, core_taking 0x14 c s, rfl, rfl, .inl rfl⟩, ?_⟩
      rw [putRun_eq]
      exact List.length_append
    obtain ⟨t, work, goes⟩ := queued
    exact ⟨⟨t, (exec_of_start (work := migWork c) rfl header valid).trans (congrArg _ work), goes⟩,
      ⟨t, (exec_of_start (work := migWork c) rfl header valid).trans (congrArg _ work), goes⟩⟩
  case collectives =>
    intro o g atOnce valid view first ⟨k, member, other⟩
    have waits : ∃ t, colWork c (r 0x15) (y 0x15) = t ∧ goesOn t 0x15 := by
      refine ⟨_, colWork_of_first rfl rfl rfl view first member other, { r 0x15 with waiting := true }, ?_, core_taking 0x15 c s, rfl, rfl, .inr rfl⟩
      rw [running_putColl]
      exact mem_putRun _ _
    obtain ⟨t, work, goes⟩ := waits
    have runs (i : Instr) (start : exec i s = startCommand 0x15 c (colValid c) noOperands (whenReady 0x15 true (colWork c)) s) :
        ∃ t, exec i s = .next t ∧ goesOn t 0x15 := ⟨t, (exec_of_atOnce start header valid rfl atOnce).trans (congrArg _ work), goes⟩
    exact ⟨runs _ rfl, runs _ rfl, runs _ rfl⟩
  case weights =>
    intro atOnce _ valid unheld done
    have works := (exec_of_atOnce (exec_wload_of_free unheld) header valid rfl atOnce).trans (congrArg _ (wloadWork_of_done rfl rfl rfl done))
    obtain ⟨u, next, ending⟩ := exec_of_endsWith (endsWith_of_delay works (core_taking 0x16 c s) rfl rfl) (by split <;> decide)
    exact ⟨u, next, ending_or ending⟩

end Sys2Proof.Proofs

namespace Sys2Proof.Machine

open Sys2Proof.Laws.Engine

/-! ### The states that copies leave -/

/-- Nothing of a state changes but what runs and the effects that are due. -/
theorem putRun_withFx (q : RunCmd) (l : List Fx) (z : State) :
    putRun q (withFx l z) = { z with running := (putRun q (withFx l z)).running, core := { z.core with fx := z.core.fx ++ l } } := by
  rw [putRun_eq]
  rfl

/-- What one run of bytes puts at an address. -/
theorem putStep_whole (x a : Nat) (bs : List Byte) : putStep x none (a, bs) = if a ≤ x then bs[x - a]? else none := by
  rw [putStep]
  by_cases le : a ≤ x
  · rw [if_pos le]
    split
    · rfl
    · exact (List.getElem?_eq_none (by dsimp only at *; omega)).symm
  · rw [if_neg le, if_neg fun both => le both.1]

/-- The bytes of a tile register's write. -/
theorem elemAt_tile (bs : List Byte) {i : Nat} (lt : i < 8192) : elemAt (BitVec.ofNat 65536 (leNat bs)).toNat 8 i = byteNat bs i := by
  rw [elemAt_ofNat _ (by omega), elemAt_leNat]

theorem coreId_takeUp (eng : Nat) (r : RunCmd) (s : State) : (takeUp eng r s).coreId = s.coreId := by
  rw [takeUp]
  split
  · rfl
  split <;> rfl

theorem seq_attnTaking (c : Cmd) (s : State) : (attnTaking c s).seq = c.seq := by
  have latch : (attnLatch c (taking 0x10 c s) (started 0x10 c s)).seq = c.seq := by
    rw [attnLatch]
    split <;> rfl
  rw [attnTaking]
  split <;> exact latch

/-- One row written to the scratchpad, without poison. -/
theorem copyRows_sp_leaves {c : Cmd} {s z1 : State} {b : EBytes} (one : (copyOp c).rows = 1) (core : z1.core = (copying c s).core)
    (read : firstRead (copyOp c) (copyTaking c s) (copying c s) z1 = .ok b) (sound : ∀ y ∈ b, y.2 = false) (plain : (copyOp c).tile = false)
    (toSp : (copyOp c).dst < spEnd) :
    (copyRows c s z1).s = z1 ∧ (copyRows c s z1).halt = none ∧ (copyRows c s z1).poisoned = false
      ∧ ∀ x, ((copyRows c s z1).writes.map fun w => (w.1, w.2.1)).foldl (putStep x) none
          = if (copyOp c).dst ≤ x then (b[x - (copyOp c).dst]?).map (·.1) else none := by
  obtain ⟨-, -, -, -, unpoisoned⟩ := fresh_copyTaking c s
  obtain ⟨k, -, put⟩ := copyPutLocal_eq (copyOp c).dst b { copyFrom (copyTaking c s) z1 with done := (1, 0) }
  rw [copyRows_sp one core read sound plain toSp, put]
  refine ⟨rfl, rfl, unpoisoned, fun x => ?_⟩
  have pieces : ((spanLines (copyOp c).dst b.length).map (copyPiece (copyOp c).dst b)).map (fun w => (w.1, w.2.1))
      = (spanLines (copyOp c).dst (b.map (·.1)).length).map (linePiece (copyOp c).dst (b.map (·.1))) := by
    rw [List.map_map, List.length_map]
    exact List.map_congr_left fun y _ => copyPiece_bytes _ b y
  rw [copyFrom, List.nil_append, pieces, putStep_spanLines, putStep_whole, List.getElem?_map]

end Sys2Proof.Machine

namespace Sys2Proof.Proofs

open Sys2Proof.Machine Sys2Proof.Laws.Engine

/-- Settles O45, engine by engine: what the work of each command leaves. -/
theorem dataEngineResults : Obligations.DataEngineResults := by
  unfold Obligations.DataEngineResults
  intro s c
  refine ⟨?copy, ?remote, ?attention, ?ligature, ?weights⟩
  case copy =>
    intro o e z r from_ to_ row goes lands free header valid ready
    have order := inOrder_of_valid valid
    have runs := exec_copy2d_of_atOnce free header valid ready
    obtain ⟨engine, number, -, -, unpoisoned⟩ := fresh_copyTaking c s
    have tag : o.tagged = true → r.tag = some (copySlot o, o.seqTag, cyc z) := fun tagged => (tag_copyTaking c s).trans (if_pos tagged)
    have untagged : o.tagged = false → r.tag = none := fun plain => (tag_copyTaking c s).trans (if_neg (by rw [plain]; exact Bool.false_ne_true))
    have finishes (a : CopyRun) (land : Cycle) (t : State) (plain : o.follow = false) (status : List Nat)
        (among : (if a.poisoned = true then stPoisoned else stOk) ∈ status) :
        ∃ q ∈ (putRun (copyFinished o r a land) t).running, q.seq = c.seq ∧ q.eng = e ∧ q.due = land + 4 ∧ q.status.toNat ∈ status ∧ q.pending = false := by
      obtain ⟨-, engine', number', due, -, -, st⟩ := copyFinished_fields o r a land
      exact ⟨_, mem_putRun _ _, number'.trans number, engine'.trans engine, due, st ▸ among, pending_copyFinished r a land plain⟩
    have either (p : Bool) : (if p = true then stPoisoned else stOk) ∈ [stOk, stPoisoned] := by cases p <;> decide
    have landed (a : CopyRun) (land : Cycle) (tagged : o.tagged = true) :
        { due := land, order := engOrder e, eff := .slotLand (copySlot o) o.seqTag (cyc z) } ∈ copyFx o r a land := by
      have mem := slotLand_mem_copyFx (o := o) (a := a) (land := land) (tag tagged)
      rwa [show r.eng = e from engine] at mem
    refine ⟨?near, ?far⟩
    case near =>
      intro land copied src
      refine ⟨fun plain dst => ?_, fun tile => ?_⟩
      · obtain ⟨state, done, -, -, bytes⟩ := copyRows_toSp (s := s) src plain dst (order.dst plain) z
        have works := copyWork_of_rows (copyLands_of_near (near_iff.2 ⟨src, .inr dst⟩) z) done
        rw [state] at works
        exact ⟨_, _, ⟨runs.trans (congrArg _ works), finishes _ _ _ (order.follow plain) _ (either _)⟩, putRun_withFx .., due_of_mem_copyFx,
          fun x => (putAt_copyFx x).trans (bytes x), landed _ _⟩
      · obtain ⟨state, done, -, -, unwritten, bytes⟩ := copyRows_toTile (s := s) src tile z
        obtain ⟨fits, plain⟩ := order.tile tile
        have works := copyWork_of_rows (copyLands_of_near (near_iff.2 ⟨src, .inl tile⟩) z) done
        rw [state] at works
        rw [copyFx_of_tile tile unwritten (untagged plain), engine] at works
        refine ⟨_, BitVec.ofNat 65536 (leNat ((copyRows c s z).tile.map (·.1))), (copyRows c s z).tile.any (·.2),
          putRun_withFx (copyFinished o r (copyRows c s z) land) _ z, fun i lt => ?_, fun last => ?_, fun follow => ?_⟩
        · rw [elemAt_tile _ lt, bytes, byteNat, getElem?_flatMap_range (fun _ => length_rowBytes ..) order.len]
          split
          · rfl
          · rfl
        · exact ⟨runs.trans (congrArg _ works), finishes _ _ _ last _ (either _)⟩
        · obtain ⟨-, -, number', -, at_, -, -⟩ := copyFinished_fields o r (copyRows c s z) land
          obtain ⟨word, pending⟩ := follow_copyFinished r (copyRows c s z) land follow
          exact ⟨runs.trans (congrArg _ works), _, mem_putRun _ _, number'.trans number, word, at_, pending⟩
    case far =>
      intro z1 land read far one last
      obtain ⟨core, later⟩ := copyLands_of_far far z
      rw [one, Nat.one_mul] at later
      have arrives : copyLands o z = (land, z1) := rfl
      refine ⟨later, fun b got sound => ⟨fun plain dst => ?_, fun tile => ?_, fun plain dst written => ?_⟩, fun st t halted => ?_, fun f halted => ?_,
        fun pa w halted => ?_⟩
      · obtain ⟨state, done, unpoisoned, bytes⟩ := copyRows_sp_leaves one core got sound plain dst
        have works := copyWork_of_rows arrives done
        rw [state] at works
        exact ⟨_, _, ⟨runs.trans (congrArg _ works), finishes _ _ _ last _ (by rw [unpoisoned]; decide)⟩, putRun_withFx .., due_of_mem_copyFx,
          fun x => (putAt_copyFx x).trans (bytes x), landed _ _⟩
      · have rows := copyRows_tile one core got sound tile
        have done : (copyRows c s z1).halt = none := by rw [rows]; rfl
        have works := copyWork_of_rows arrives done
        rw [copyFx_of_tile tile (by rw [rows]; rfl) (untagged (order.tile tile).2), engine, rows] at works
        dsimp only at works
        rw [no_poison sound] at works
        refine ⟨_, _, ⟨runs.trans (congrArg _ works), finishes _ land _ last _ ?_⟩, putRun_withFx .., fun i lt => ?_⟩
        · rw [show CopyRun.poisoned { copyFrom (copyTaking c s) z1 with tile := b } = false from unpoisoned]
          decide
        · rw [elemAt_tile _ lt, byteNat, List.getElem?_map, Option.map_map]
          rfl
      · have toGl : ¬ o.dst < spEnd := Nat.not_lt.2 dst
        have rows := copyRows_gl one core got sound plain toGl written
        have done : (copyRows c s z1).halt = none := by rw [rows]; rfl
        have alone : o.tagged = false := Bool.eq_false_iff.2 fun tagged => toGl (order.tagged tagged)
        have works := copyWork_of_rows arrives done
        rw [copyFx_of_far plain dst (by rw [rows]; rfl) (untagged alone), withFx_nil, rows] at works
        refine ⟨_, ⟨runs.trans (congrArg _ works), finishes _ land _ last _ ?_⟩, putRun_eq ..⟩
        rw [show CopyRun.poisoned { copyFrom (copyTaking c s) z1 with
          s := (engWrite z1 (copyTaking c s) .copy (cmdStamp (copyTaking c s)) (copyOp c).dst b 0).s, done := (1, 0) } = false from unpoisoned]
        decide
      · have rows : (copyRows c s z1).halt = some (.stop st t) := by rw [copyRows_of_halt one core halted]
        exact ⟨_, runs.trans (congrArg _ (copyWork_of_stop arrives rows)), _, mem_putRun _ _, number, engine, rfl,
          List.mem_singleton.2 (BitVec.toNat_ofNat _ _), rfl⟩
      · have rows : (copyRows c s z1).halt = some (.park f) := by rw [copyRows_of_halt one core halted]
        refine ⟨_, runs.trans (congrArg _ (copyWork_of_halt arrives rows fun _ _ => nofun)), ?_⟩
        rw [haltRun, parkRun, running_queueFault]
        exact ⟨_, mem_putRun _ _, number, by rw [show (copyHalted c s z1 land).eng = e from engine]⟩
      · have rows : (copyRows c s z1).halt = some (.wait pa w) := by rw [copyRows_of_halt one core halted]
        exact ⟨_, runs.trans (congrArg _ (copyWork_of_halt arrives rows fun _ _ => nofun)), _, mem_putRun _ _, number, rfl⟩
  case remote =>
    intro o r z free header valid
    have works := exec_of_atOnce (i := .copyr c) (ready := noOperands) (work := copyrWork c) rfl header valid rfl free
    refine ⟨fun old => ?_, fun view remote => ?_⟩
    · have clock : cyc z = cycOf z c.core := congrArg (cycOf z) ((coreId_takeUp ..).trans (coreId_focus s c.core))
      exact endsWith_of (works.trans (congrArg _ (copyrWork_of_oldView old))) (core_taking 0x08 c s) rfl rfl (Nat.le_of_eq clock.symm)
    · obtain ⟨x, t, work⟩ := copyrWork_of_remote (r := r) view remote
      exact ⟨_, _, works.trans (congrArg _ work), mem_putRun _ _, rfl, rfl, rfl⟩
  case attention =>
    intro o y r0 r z free header valid ready q x seq world running cached read u n
    obtain ⟨p, mem, -, -, number, due, status, land, tag, buf, -, -⟩ := attnFinish_ends o q r x.1 x.2 z
    refine ⟨exec_slattn_of_read free header valid ready seq world running cached read, p, mem, number.trans (seq_attnTaking c s), due, status, land, tag,
      fun i lt => ?_⟩
    rw [buf]
    exact bytes_attnTriples _ _ _ lt
  case ligature =>
    intro r z header free
    refine ⟨fun m k x y valid ready named read => ?_, fun m b valid ready named fits read => ?_, fun m valid named fits => ?_, fun m valid named => ?_⟩
    · intro o u edges
      refine ⟨(exec_of_atOnce (work := mergeWork c) rfl header valid ready free).trans (congrArg _ (mergeWork_of_read named read)),
        length_chooseEdges .., fun room => ?_⟩
      obtain ⟨due, poison, t, eq⟩ := mergeOn_of_room (m := m) (keys := k) (x := x) (sz := y) (r := r) (s := z) room
      have maps : u.maps = (putMap (mergedMap o m k) t).maps := by
        show (mergeOn o m k x y r z).maps = _
        rw [eq, putRun_eq]
      have stands : _ ∈ u.running := eq ▸ mem_putRun _ _
      exact ⟨⟨_, stands, rfl, BitVec.toNat_ofNat _ _⟩, mergedMap o m k, maps ▸ exists_mem_putMap _ t, rfl, rfl, rfl, rfl, rfl⟩
    · exact (exec_of_atOnce (work := unmergeWork c) rfl header valid ready free).trans (congrArg _ (unmergeWork_of_read named fits read rfl))
    · exact (exec_of_atOnce (ready := noOperands) (work := lgsaveWork c) rfl header valid rfl free).trans (congrArg _ (lgsaveWork_of_fits named fits))
    · exact ⟨endsWith_of_delay ((exec_of_atOnce (ready := noOperands) (work := lgdropWork c) rfl header valid rfl (worksAtOnce_of_all free false)).trans
        (congrArg _ (lgdropWork_of_named named))) (core_taking 0x11 c s) rfl rfl, fun _ => not_mem_freeMap⟩
  case weights =>
    intro z r len a free header _ valid unheld done
    exact endsWith_of_delay ((exec_of_atOnce (exec_wload_of_free unheld) header valid rfl free).trans (congrArg _ (wloadWork_of_done rfl rfl rfl done)))
      (core_taking 0x16 c s) rfl rfl

end Sys2Proof.Proofs
